-- ==== Sys2Proof/Word.lean ====
section
/-!
DEFINITION. The word types of the Rostur X1 and nothing else: every operation on them that a
test could show wrong stands under Machine/.
-/

namespace Sys2Proof

/-- A 64-bit register word (01 R18). -/
abbrev Word := BitVec 64

/-- A byte of memory (00 R3). -/
abbrev Byte := BitVec 8

/-- The width VW of a vector register, 4,096 bits (01 R10, R18). -/
abbrev vw : Nat := 4096

/-- The bits of one vector register (01 R18). -/
abbrev Vec := BitVec 4096

/-- The bits of one predicate register, one for each byte of a vector register (03 R65). -/
abbrev Pred := BitVec 512

end Sys2Proof
end

