-- ==== Sys2Proof/Syntax.lean ====
section
/-!
DEFINITION. The syntax of the Rostur X1: one constructor of Instr for each row of the opcode table, the
encoded instructions over the fields of their words (06 R145, R147, R148) and the events of the device.
-/

namespace Sys2Proof

/-- The four forms of an instruction with the literal that two of them carry (06 R143). -/
inductive Form where
  | base
  | baseLit (lit : BitVec 32)
  | ext
  | extLit (lit : BitVec 64)
  deriving DecidableEq, Repr

/-- The guard fields of extended word 1 (06 R147, R149). -/
structure Guard where
  g1p : BitVec 4
  g1n : Bool
  g2p : BitVec 4
  g2n : Bool
  gc  : Bool
  deriving DecidableEq, Repr

/-- A guard with every field zero, which is absent (06 R149). -/
def Guard.none : Guard := ⟨0, false, 0, false, false⟩

/-- The fields of an instruction's words, by the manual's names (06 R145, R147, R148). In the base forms
the fields of extended words 1 and 2 are zero. -/
structure Fields where
  form  : Form
  d     : BitVec 6
  a     : BitVec 6
  b     : BitVec 6
  m     : BitVec 4
  c     : BitVec 6
  e     : BitVec 6
  guard : Guard
  h     : BitVec 2
  ta    : BitVec 2
  tb    : BitVec 2
  x     : BitVec 3
  fmt   : BitVec 4
  rnd   : BitVec 2
  bk    : BitVec 2
  imm20 : BitVec 20
  deriving DecidableEq, Repr

/-- A packet of the fabric: the fields of its header flit (24 R407) that a module reads, and its payload words; its virtual channel (R405),
and on a detour the port that the module it reaches sends it by (R406); for one that has come in, its port and the link number of its header
flit (R408). -/
structure Packet where
  dst    : Nat
  src    : Nat
  job    : Nat
  seq    : Nat
  addr   : BitVec 64
  mode   : Nat
  board  : Nat
  strand : Nat
  epoch  : Nat
  aux    : BitVec 64
  words  : List (BitVec 64)
  channel : Nat := 0
  hop    : Option Nat := none
  link   : Option (Nat × Nat) := none
  deriving DecidableEq, Repr

/-- What the parts of the module do at power-up (25 R425, R426): the first part of stages 1 to 4 that fails, if any
(stage, unit, detail), the widths to which the ports train (24 R409) and the tier links that come up with their capacity
in GiB (24 R421). -/
structure SelfTest where
  failing : Option (Nat × BitVec 64 × BitVec 64)
  ports   : List Nat
  tiers   : List (Bool × Nat × Nat)
  micros  : BitVec 64
  deriving DecidableEq, Repr

/-- The readings of one island in one hour (26 R433). -/
structure WearReading where
  drift : Int
  ems   : Nat
  deriving DecidableEq, Repr

/-- The registers with no behaviour of their own that the host writes (00 R7): BIMG and BLEN (25 R423), PCAP (26 R436),
a token entry (26 R437), SYSPOS and LEASE (24 R401). -/
inductive PlainReg where
  | bimg | blen | pcap
  | bucket (ctx : Nat)
  | syspos | lease
  deriving DecidableEq, Repr

/-- One constructor for each row of the opcode table (28 R454, 95) (DEDUCED, log entry 61). -/
inductive Instr where
  -- Other words (28 R453)
  | nop (f : Fields)
  -- Scalar instructions (07 R166 to R171)
  | add (f : Fields)
  | addi (f : Fields)
  | sub (f : Fields)
  | mul (f : Fields)
  | mulh (f : Fields)
  | mulhu (f : Fields)
  | div (f : Fields)
  | divu (f : Fields)
  | rem (f : Fields)
  | remu (f : Fields)
  | and (f : Fields)
  | andi (f : Fields)
  | or (f : Fields)
  | ori (f : Fields)
  | xor (f : Fields)
  | xori (f : Fields)
  | andn (f : Fields)
  | shl (f : Fields)
  | shr (f : Fields)
  | sra (f : Fields)
  | rotl (f : Fields)
  | clz (f : Fields)
  | ctz (f : Fields)
  | popc (f : Fields)
  | brev (f : Fields)
  | bswap (f : Fields)
  | min (f : Fields)
  | max (f : Fields)
  | minu (f : Fields)
  | maxu (f : Fields)
  | sel (f : Fields)
  | extb (f : Fields)
  | insb (f : Fields)
  | li (f : Fields)
  | lih (f : Fields)
  | lit (f : Fields)
  | lea (f : Fields)
  -- Comparisons (07 R172)
  | cmp (f : Fields)
  | cmpi (f : Fields)
  -- Transfers of control (07 R175)
  | b (f : Fields)
  | bp (f : Fields)
  | call (f : Fields)
  | calli (f : Fields)
  | jmpi (f : Fields)
  | ret (f : Fields)
  | throw (f : Fields)
  -- Predicates (07 R180)
  | plim (f : Fields)
  | pwhile (f : Fields)
  | pand (f : Fields)
  | por (f : Fields)
  | pxor (f : Fields)
  | pnot (f : Fields)
  | pfirst (f : Fields)
  | pcnt (f : Fields)
  | pmovxRd (f : Fields)
  | pmovxWr (f : Fields)
  | vwid (f : Fields)
  -- Vector floating point (08)
  | vfadd (f : Fields)
  | vfsub (f : Fields)
  | vfmul (f : Fields)
  | vfma (f : Fields)
  | vfms (f : Fields)
  | vfnma (f : Fields)
  | vfnms (f : Fields)
  | vfmin (f : Fields)
  | vfmax (f : Fields)
  | vfabs (f : Fields)
  | vfneg (f : Fields)
  | vfcps (f : Fields)
  | vfdiv (f : Fields)
  | vfsqrt (f : Fields)
  | vfrcp (f : Fields)
  | vfrsq (f : Fields)
  | vfexp2 (f : Fields)
  | vflog2 (f : Fields)
  | vfsin (f : Fields)
  | vfcos (f : Fields)
  | vftanh (f : Fields)
  | vfcmp (f : Fields)
  | vfclass (f : Fields)
  | vfcvt (f : Fields)
  | vfrnd (f : Fields)
  | vfscale (f : Fields)
  | vfdot2 (f : Fields)
  -- Vector integers and moves (08)
  | vadd (f : Fields)
  | vsub (f : Fields)
  | vmul (f : Fields)
  | vmulh (f : Fields)
  | vmadd (f : Fields)
  | vand (f : Fields)
  | vor (f : Fields)
  | vxor (f : Fields)
  | vandn (f : Fields)
  | vshl (f : Fields)
  | vshr (f : Fields)
  | vsra (f : Fields)
  | vmin (f : Fields)
  | vmax (f : Fields)
  | vminu (f : Fields)
  | vmaxu (f : Fields)
  | vabs (f : Fields)
  | vadds (f : Fields)
  | vsubs (f : Fields)
  | vcmp (f : Fields)
  | vsel (f : Fields)
  | vclz (f : Fields)
  | vpopc (f : Fields)
  | vtag (f : Fields)
  | vfill (f : Fields)
  | vmov (f : Fields)
  | vrel (f : Fields)
  -- Permutes, reductions and scans (09)
  | vshuf (f : Fields)
  | vperm (f : Fields)
  | vbcast (f : Fields)
  | vslideu (f : Fields)
  | vslided (f : Fields)
  | vcomp (f : Fields)
  | vexp (f : Fields)
  | vzip (f : Fields)
  | vuzip (f : Fields)
  | vins (f : Fields)
  | vext (f : Fields)
  | vredadd (f : Fields)
  | vredmax (f : Fields)
  | vredmin (f : Fields)
  | vredand (f : Fields)
  | vredor (f : Fields)
  | vscanadd (f : Fields)
  | vicvt (f : Fields)
  -- Vector memory (09)
  | vld (f : Fields)
  | vst (f : Fields)
  | vlds (f : Fields)
  | vsts (f : Fields)
  | vgath (f : Fields)
  | vscat (f : Fields)
  | vldff (f : Fields)
  -- Memory (10)
  | ld (f : Fields)
  | st (f : Fields)
  | lds (f : Fields)
  | sts (f : Fields)
  | ldf (f : Fields)
  | ste (f : Fields)
  | few (f : Fields)
  | ldx (f : Fields)
  | stx (f : Fields)
  | pref (f : Fields)
  | cflush (f : Fields)
  | cinv (f : Fields)
  -- Atomics (10)
  | aadd (f : Fields)
  | aand (f : Fields)
  | aor (f : Fields)
  | axor (f : Fields)
  | amin (f : Fields)
  | amax (f : Fields)
  | aminu (f : Fields)
  | amaxu (f : Fields)
  | aswap (f : Fields)
  | acas (f : Fields)
  | agts (f : Fields)
  | avcas (f : Fields)
  | apcas (f : Fields)
  -- Ordering, watches, barriers and presence (10)
  | fence (f : Fields)
  | acq (f : Fields)
  | rel (f : Fields)
  | drain (f : Fields)
  | watch (f : Fields)
  | unwatch (f : Fields)
  | sleep (f : Fields)
  | bar (f : Fields)
  | barw (f : Fields)
  | putn (f : Fields)
  | fempty (f : Fields)
  | ffull (f : Fields)
  -- Loops, regions and tempo (12)
  | loop (f : Fields)
  | lend (f : Fields)
  | lbrk (f : Fields)
  | dsplit (f : Fields)
  | djoin (f : Fields)
  | qpush (f : Fields)
  | qpop (f : Fields)
  | qbr (f : Fields)
  | iter (f : Fields)
  | tidx (f : Fields)
  | texp (f : Fields)
  | brko (f : Fields)
  -- Tasks (13)
  | spawn (f : Fields)
  | susp (f : Fields)
  | resm (f : Fields)
  | finb (f : Fields)
  | fine (f : Fields)
  | finw (f : Fields)
  | migr (f : Fields)
  | armt (f : Fields)
  | msg (f : Fields)
  | launch (f : Fields)
  | trigger (f : Fields)
  | waitp (f : Fields)
  -- Engines (11)
  | gang (f : Fields)
  | mma (f : Fields)
  | mprog (f : Fields)
  | mzero (f : Fields)
  | mrd (f : Fields)
  | mwr (f : Fields)
  | mst (f : Fields)
  | eset (f : Fields)
  | eget (f : Fields)
  | ego (f : Fields)
  | ecan (f : Fields)
  | eqry (f : Fields)
  | cpy (f : Fields)
  | cpyr (f : Fields)
  | cpyrow (f : Fields)
  | cbook (f : Fields)
  | mres (f : Fields)
  -- Threads and system (13)
  | tstop (f : Fields)
  | tstart (f : Fields)
  | tread (f : Fields)
  | twrite (f : Fields)
  | tstep (f : Fields)
  | tgrant (f : Fields)
  | trevoke (f : Fields)
  | srd (f : Fields)
  | swr (f : Fields)
  | vtime (f : Fields)
  | trap (f : Fields)
  | brk (f : Fields)
  | psplit (f : Fields)
  | pmerge (f : Fields)
  | genbump (f : Fields)
  | cast (f : Fields)
  | step (f : Fields)
  | tlbinv (f : Fields)
  | cohere (f : Fields)
  | exit (f : Fields)
  | exitChild (f : Fields)
  | yield (f : Fields)
  -- Barrel, placement and arbiter (01, 02)
  /-- R29: position `pos` of core `core` is refilled. -/
  | barrelRefill (core pos : Nat)
  /-- R28: the strand in position `pos` reaches its quantum. -/
  | quantumEnd (core pos : Nat)
  /-- R44: the next item of launch record `lrec` is placed. -/
  | itemDispatch (lrec : Nat)
  /-- R24: the woken spilled strand `uid` is reloaded. -/
  | spillReload (uid : Nat)
  /-- R53: the core places the first continuation of its arrival queue. -/
  | continuationPickup (core : Nat)
  /-- R59: the core places the first migration packet of its arrival queue. -/
  | migrationArrival (core : Nat)
  /-- R21: what the parked strand `uid` awaits arrives. -/
  | memoryReply (uid : Nat)
  /-- R101: the unmet synchronising access of strand `uid` is tried again. -/
  | syncRetry (uid : Nat)
  /-- R47. -/
  | launchAdmission (lrec : Nat)
  /-- R48: another millisecond of pending. -/
  | launchAging (lrec : Nat)
  /-- R50. -/
  | launchCompletion (lrec : Nat)
  /-- R56: one probe by core `core` for launch `lrec`. -/
  | stealProbe (core lrec : Nat)
  /-- R55: the fired match entry `entry` of board `board` is pushed. -/
  | armtDeferredPush (board entry : Nat)
  /-- R280: export `j` of item `item` lands in entry `(d, j)` of item `item + d`. -/
  | tempoDelivery (lrec item d j : Nat)
  /-- R285. -/
  | breakIndexRecord (core lrec : Nat)
  -- Engines (11)
  | matrixCommandRun (core : Nat)
  | gangBarrier (core : Nat)
  | ksplitSumArrival (core : Nat)
  | tileCommandRun (core : Nat)
  | mstRun (core : Nat)
  | copyCommandRun (core : Nat)
  | cpyrRun (core : Nat)
  | cpyrowRun (core : Nat)
  | cbookRun (core : Nat)
  -- Coherence messages (05 R125 to R127): `line` is the physical line, PA / 128
  | homeGets (line core : Nat)
  | homeGetm (line core : Nat)
  | homeUpgrade (line core : Nat)
  | homePuts (line core : Nat)
  | homePutOwner (line core : Nat)
  | coreInv (line core : Nat)
  | coreFwdGets (line core : Nat)
  | coreFwdGetm (line core : Nat)
  | corePutack (line core : Nat)
  | requesterResponse (line core : Nat)
  | routerProbeDrop (line core : Nat)
  -- Host and leases (05 R128 to R142, 24 R419, R420)
  | hostSnoop (line : Nat)
  | hostSnoopInvalidate (line : Nat)
  | backInvalidateResponse (line : Nat)
  | hostOwnershipRequest (line : Nat)
  | leaseExpiry (line : Nat)
  | wrapPause
  | leaseSyncSend (job : Nat)
  /-- R419: `now` is the game clock of module 0 at which its lease clock was read, less its LBASE. -/
  | fabricLeaseSync (p : Packet)
  /-- R420: `begins` says whether the packet starts the pause or ends it. -/
  | fabricPauseControl (p : Packet)
  | tokenRefill
  /-- R238: the value held by the link leaving core `core` in direction `dir` arrives. -/
  | putnDelivery (core dir : Nat)
  -- Castling (23)
  | stop
  | resume
  | switch
  | prefetch
  | clockStopAtT
  | sweepToken (core : Nat)
  | unitMove
  | scrubWalkEnd (leaf : Nat)
  -- Management commands (22 R355), of management slot `slot`
  | create (slot : Nat)
  | destroy (slot : Nat)
  | quota (slot : Nat)
  | inval (slot : Nat)
  -- The host link (22 R370)
  | hdmDecoderCommit (n hpa base size : Nat)
  | hostMemRead (addr len : Nat)
  /-- R370, R114: byte `k` goes to `addr + k` where its enable (none or some byte) is set. -/
  | hostMemWrite (addr : Nat) (bytes : List (Option (BitVec 8)))
  -- The fabric (24)
  | fabricLdx (p : Packet)
  | fabricStx (p : Packet)
  | fabricRemoteAtomic (p : Packet)
  | fabricMsgMailbox (p : Packet)
  | fabricMsgTag (p : Packet)
  | fabricDataResponse (p : Packet)
  | fabricAck (p : Packet)
  | fabricFailure (p : Packet)
  /-- R412: `p` is the packet that was refused. -/
  | streamResend (p : Packet)
  | streamRecordFree (src strand epoch : Nat)
  | unexpectedPacketTimeout (board : Nat)
  | flitCrcFail (port : Nat)
  /-- R408: `refused` is the link sequence number of the refused flit. -/
  | replayRequest (port refused : Nat)
  | laneFailure (port lane : Nat)
  | linkSilenceEnd (port : Nat)
  | portWreqX4 (port : Nat)
  | portWreqX8 (port : Nat)
  | portWreqRetrain (port : Nat)
  | portEnWrite (port : Nat) (on : Bool)
  | tierLinkDown (link : Nat)
  | d2dLaneFailure (board link : Nat)
  -- Bring-up (25)
  | powerUp (t : SelfTest)
  | bgo (value : BitVec 64)
  | bootImageLoad
  /-- R343: core `core` receives the 4 KiB block of BOOT section block `block`. -/
  | bootBlock (core block : Nat)
  -- The fleet (26)
  | csel (value : BitVec 64)
  | ifreqWrite (island : Nat) (value : BitVec 64)
  | freqTransition (island : Nat)
  /-- R436: mean power in watts and inlet temperature in degrees of the last millisecond. -/
  | throttleUpdate (power inlet : Nat)
  /-- R433, R434: the readings of one hour. -/
  | wearUpdate (island : Nat) (w : WearReading)
  | bar0UnsupportedAccess (offset size : Nat) (write : Bool)
  | pldmRequest (ty handle : Nat)
  | spdmRequest (index : Nat)
  | registerWrite (reg : PlainReg) (value : BitVec 64)
  | leaseClockPassesVismax (uid : Nat)
  | neighbourStalemate (port : Nat)
  | jobEntryWrite (i : Nat) (value : BitVec 64)
  | uncorrectableError (addr : Nat)
  deriving DecidableEq, Repr

end Sys2Proof
end

