-- ==== Sys2Proof/Machine/State.lean ====
section
/-!
DEFINITION. The state of a Rostur X1 module as plain data, why a step can stop, and the state after reset.
INVENTORY.md lists every field with the rule of spec/ that names it and its reset value.
-/

namespace Sys2Proof.Machine

/-- A finite map by rising key; an absent key reads as the default that its reader names. -/
abbrev SMap (α : Type) := List (Nat × α)

/-- Why a step of the machine stops. -/
inductive Fault where
  /-- Raised by the meaning of an encoded instruction when no strand is named as its issuer (`State.cur`): an instruction
  is always some strand's (01 R26). Safe: a step never asks for it, since it sets the issuer itself. -/
  | noIssuer
  deriving DecidableEq, Repr

/-- Why a step has no meaning. -/
inductive Refusal where
  /-- Raised by an arm of exec whose instruction has no meaning yet. Safe: the run stops. -/
  | notModelled (mnemonic : String)
  deriving DecidableEq, Repr

/-! ### Strands (01 R18 to R25, 13 R305) -/

/-- Where a strand is kept (01 R14, R21 to R23, 02 R59): a slot of its core, a spill record of its core with the slot number of
the ID at spill, or a migration packet on its way to the core or in the core's arrival queue. -/
inductive Place where
  | slot (n : Nat)
  | spill (n : Nat)
  | transit
  deriving DecidableEq, Repr

/-- The states of 01 R21; a SPILLED strand keeps here the state that is held (R22), and a FREE slot has no strand. -/
inductive SState where
  | ready | run | parked | sleep | stopped
  deriving DecidableEq, Repr

/-- What a PARKED strand awaits (01 R21). -/
inductive Await where
  /-- A memory reply, given with the operation's result already in place. -/
  | reply
  /-- The presence bit of an x or a v register. -/
  | fullX (r : Nat)
  | fullV (r : Nat)
  /-- Entry (d, j) of the forwarding buffer. -/
  | forward (d j : Nat)
  /-- An entry of the retry lists, before and after it is listed (04 R101). -/
  | retries
  | syncWord
  /-- A queue of the region (12 R273): q0 to q3, the branch queue, the store-data queue. -/
  | queue (q : Nat)
  | branchQueue
  | storeQueue
  /-- A permit, a claim of the shadow set, an engine that switches commands (11 R240, R241). -/
  | permit (e : Nat)
  | claim (e : Nat)
  | switching (e : Nat)
  /-- The loop sequencer, or the access stream at its DJOIN; the CPYR and MRD writes into the strand (12 R267, 08 R201). -/
  | sequencer
  | landings (onlyV : Bool)
  /-- A vector context (01 R31). -/
  | vectorContext
  /-- The conditions of 05 R122: fabric or host scope, with or without the release half. -/
  | order (release acquire host : Bool)
  /-- The copies of 04 R105 with a commit number below `upTo` and the path named. -/
  | drain (path upTo : Nat)
  /-- Finish scope (13 R292), WAITP (02 R49). -/
  | scopeZero (ctx scope : Nat)
  | producers
  /-- The cut of PSPLIT (22 R351). -/
  | cut (node : Nat)
  /-- The answer of a PUTN, a packet of the fabric, a token of a stream (10 R220, R238). -/
  | putn
  | packet
  /-- A free link in a direction (10 R238). -/
  | link (core dir : Nat)
  | window (target : Nat)
  /-- The wrap pause (24 R420). -/
  | pause
  /-- The stop of the stepped strand (13 R303). -/
  | stepped (uid : Nat)
  /-- The record of a break index at every core (12 R284). -/
  | recorded (lrec : Nat)
  /-- A castled unit on the move, of a context (23 R393, R394). -/
  | tier (ctx unit : Nat)
  /-- A line that a CPYROW, a transaction in progress or a host's copy holds back (04 R113, 05 R124, R142). -/
  | busy (line : Nat)
  /-- A token of the context's bucket at a home-slice port (04 R110). -/
  | token (ctx port : Nat)
  /-- The acknowledgements of its posted writes, and the CPYR writes into it, before it migrates (05 R131, 11 R262). -/
  | settled
  /-- The start bit of the handler that a trap enters, or of the PC at which the strand is placed (06 R157). -/
  | handler
  /-- The lines that the host gives back while a COHERE sweeps (05 R142, 22 R372). -/
  | lines (ls : List Nat)
  /-- The replies of waiting accesses whose translations a TLBINV has removed, by number (13 R309). -/
  | accesses (nos : List Nat)
  deriving DecidableEq, Repr

/-- A vector context (01 R18, R19, R31): bound, or in a vector spill record. -/
structure VecCtx where
  spilled : Bool
  v : Vector Vec 32
  vFull : BitVec 32
  tag : Vector (BitVec 4) 32
  p : Vector Pred 16
  deriving DecidableEq, Repr

/-- A watch slot (10 R232): the line is PA / 128, and the virtual address serves R389. -/
structure Watch where
  armed : Bool
  line : Nat
  va : BitVec 64
  fired : Bool
  deriving DecidableEq, Repr

/-- A loop record (12 R265). The execute stream of a region keeps no count (R271). -/
structure LoopRec where
  rem : BitVec 64
  top : BitVec 64
  lend : BitVec 64
  deriving DecidableEq, Repr

/-- An entry of a queue or of the store-data queue (12 R270). -/
structure QEntry where
  bits : Vec
  tag : BitVec 4
  pred : Pred
  deriving DecidableEq, Repr

/-- A decoupled region (12 R267 to R275). The strand's own x registers are the execute stream's copy. `popped` marks the
queues that the instruction being issued has named, `blocked` is what the sequencer waits for, and `joined` says that the
access stream stands at its DJOIN; `queued` is as a strand's. -/
structure Region where
  seqPc : BitVec 64
  x : Vector (BitVec 64) 64
  xFull : BitVec 64
  pw : BitVec 16
  fcr : BitVec 64
  loops : List LoopRec
  q : Vector (List QEntry) 4
  qb : List Bool
  store : List QEntry
  popped : BitVec 4
  blocked : Option Await
  joined : Bool
  queued : Option (Nat × Nat)
  deriving DecidableEq, Repr

/-- An entry of a forwarding buffer or of the window: a value with the tag of a v register (12 R278, R279). -/
structure FwdVal where
  bits : Vec
  tag : BitVec 4
  deriving DecidableEq, Repr

/-- A strand (01 R18). `since` orders the strands by when they took their state; `skip` and `long` are the turns that it has still to skip
for a slow register and for a long latency (01 R27). `queued` is where its request waits, with the number of its arrival there: a line at
its home (04 R113, 05 R124), a bucket at its port (04 R110), or a neighbour link (10 R238). `behind` is the length of the instruction at
`pc` where that has had its effect and the strand is in its wait. -/
structure Strand where
  core : Nat
  place : Place
  state : SState
  await : Await
  woken : Bool
  since : Nat
  lastRun : Nat
  pc : BitVec 64
  x : Vector (BitVec 64) 64
  xFull : BitVec 64
  pw : BitVec 16
  vec : Option VecCtx
  z : Vector (BitVec 64) 8
  fcr : BitVec 64
  tvec : BitVec 64
  tcause : BitVec 64
  tpc : BitVec 64
  tfaddr : BitVec 64
  fra : BitVec 64
  visMax : BitVec 64
  feRetry : BitVec 64
  swBase : BitVec 64
  swLen : BitVec 64
  authAddr : BitVec 64
  auth : Vector (BitVec 64) 64
  lcause : BitVec 16
  item : Nat
  scope : Nat
  lrec : Nat
  ctx : Nat
  prio : Nat
  phase : BitVec 16
  watch : Vector Watch 8
  loops : List LoopRec
  region : Option Region
  fwd : SMap FwdVal
  isItem : Bool
  exported : BitVec 4
  issues : Nat
  skip : Nat
  long : Nat
  streamSeq : SMap Nat
  epoch : Nat
  frSeq : BitVec 8
  ma : Bool
  stepping : Option (BitVec 64)
  sleepMask : BitVec 8
  queued : Option (Nat × Nat)
  behind : Nat
  deriving DecidableEq, Repr

/-! ### Waiting accesses (04 R100 to R102, 10 R230, R231) -/

/-- What a waiting access does once its wait is met. -/
inductive WaitKind where
  | ldf | lds
  | sts (v : BitVec 64)
  | barw (n : BitVec 64)
  | barAdd (n : BitVec 64)
  | barLeave (old : BitVec 64) (t : Nat)
  /-- A remote operation at its target (24 R412): the packet's type, the packet, the addresses of its words. -/
  | remote (ty : Nat) (p : Packet) (words : List Nat)
  deriving DecidableEq, Repr

/-- A waiter, in the order of arrival, with its number. A strand's waiter names the register its result goes to. -/
structure Waiter where
  no : Nat
  uid : Nat
  access : Bool
  addr : Nat
  kind : WaitKind
  dest : Nat
  tries : Nat
  listed : Bool
  len : Nat
  va : BitVec 64
  coherent : Bool
  deriving DecidableEq, Repr

/-! ### Engines (11) -/

/-- The commands of 11 R242. -/
inductive CmdKind where
  | gang | mma | mzero | mrd | mwr | mst | cpy | cpyr | cpyrow | cbook
  deriving DecidableEq, Repr

/-- Where a running command stands (11 R246 to R257): queued, past its interlock, held by a fault, at the rank wire. -/
inductive CmdState where
  | queued | running | held | barrier | chained
  deriving DecidableEq, Repr

/-- A declared range (02 R40). -/
structure Range where
  base : Nat
  len : Nat
  write : Bool
  deriving DecidableEq, Repr

/-- The rectangle of a SHAPE word or of a node (02 R36, 13 R308). -/
structure Rect where
  ofile : Nat
  orank : Nat
  lw : Nat
  lh : Nat
  deriving DecidableEq, Repr

/-- How a command ends once its completion word is written: its status, and the cause, the code and the address of its fault record
(11 R247). -/
structure Ending where
  status : Nat
  fault : Option (Nat × Nat × BitVec 64)
  deriving DecidableEq, Repr

/-- An engine command (11 R242 to R262): its fields and engine registers, what it keeps of the strand that committed it and
of that strand's launch (R240, R246, R247), and how far it is. `fcr` has RND for its RM where RND is not 0b00, `order` numbers
the commits and `drainNo` the commits and resumptions (04 R105), `path` is the memory of its destination once it is classified (04 R105), 5
where a DRAIN never waits for it, `holds` is the row from which a CPYROW holds its lines (04 R113),
`gang` names the run that a GANG is in once it has passed the barrier, and `ending` is set once its work is over. -/
structure Command where
  kind : CmdKind
  state : CmdState
  regs : Vector (BitVec 64) 16
  tile : BitVec 64
  fmtA : Nat
  fmtB : Nat
  fmt : Nat
  m : Nat
  fcr : BitVec 64
  row : BitVec 64
  dest : Nat
  data : Vec
  addr : BitVec 64
  uid : Nat
  sid : Nat
  ctx : Nat
  lrec : Nat
  lseq : Nat
  scope : Nat
  item : Nat
  ranges : List Range
  rect : Rect
  swBase : BitVec 64
  swLen : BitVec 64
  fra : BitVec 64
  pc : BitVec 64
  ticket : Option Nat
  rprog : Nat
  flags : BitVec 5
  bytes : Nat
  reported : Nat
  order : Nat
  drainNo : Nat
  path : Option Nat
  holds : Option Nat := none
  gang : Option Nat
  ending : Option Ending
  deriving DecidableEq, Repr

/-- A cached translation (22 R364): the leaf entry and the address it was read from. -/
structure TlbEntry where
  ctx : Nat
  page : Nat
  bits : Nat
  leaf : BitVec 64
  at_ : Nat
  deriving DecidableEq, Repr

/-- One engine of a core: its queue, its shadow set and who claims it (11 R240 to R243), the sum of the preceding
core of a K-split gang waiting on the rank wire (11 R256), its micro-TLB (11 R246, 22 R364), where a request of it waits, as a
strand's, and what it waits for with the stall cause (26 R431). -/
structure Engine where
  queue : List Command
  shadow : Vector (BitVec 64) 16
  claim : Option Nat
  last : Option Nat
  seqNo : BitVec 15
  sum : Option (List (BitVec 32))
  tlb : List TlbEntry
  queued : Option (Nat × Nat)
  stall : Option (Nat × Await)
  deriving DecidableEq, Repr

/-! ### Caches and coherence (05 R123 to R142) -/

/-- L1 states (05 R125); a SWMANAGED line holds its bytes and their dirty mask (R139). -/
inductive Moesi where
  | modified | owned | exclusive | shared
  deriving DecidableEq, Repr

/-- A line of an L1 data cache, with its last non-synchronising reader (05 R135). A line of a COHERENT page keeps no bytes
(DESIGN CHOICE, log entry 7). `bad` marks the words of a SWMANAGED copy that came with an uncorrectable error (10 R218), and `writer` is
who wrote its dirty bytes last: the context, the strand's ID and the address (24 R418). -/
structure L1Line where
  state : Moesi
  reader : Option (Nat × BitVec 16)
  swm : Option (List (BitVec 8) × BitVec 128)
  bad : BitVec 16 := 0
  writer : Option (Nat × Nat × BitVec 64) := none
  deriving DecidableEq, Repr

/-- The two modes of a board directory entry (05 R123). -/
inductive Sharers where
  | pointers (cores : List Nat)
  | coarse (islands : BitVec 64)
  deriving DecidableEq, Repr

/-- A board directory entry (05 R123, R125): its owner, if the state is E, M or O, and its sharers. -/
structure DirEntry where
  owner : Option (Nat × Moesi)
  sharers : Sharers
  deriving DecidableEq, Repr

/-- The host states of a line (05 R128, R142). -/
inductive HostState where
  | invalid | shared | exclusive
  deriving DecidableEq, Repr

/-- A home agent entry (05 R128). -/
structure AgentEntry where
  ownerBoard : Option Nat
  boards : BitVec 8
  host : HostState
  lease : BitVec 32
  deriving DecidableEq, Repr

/-- A race stamp (05 R135). -/
structure Stamp where
  writer : Nat
  lrec : Nat
  phase : BitVec 16
  deriving DecidableEq, Repr

/-- The messages of 05 R125. -/
inductive MsgKind where
  | getS | getM | upgrade
  | putS
  | putOwner (dirty : Bool)
  | inv (requester : Nat)
  | fwdGetS (requester : Nat)
  | fwdGetM (requester : Nat)
  | putAck (stale : Bool)
  | data (state : Moesi)
  | ackCount (n : Nat)
  | invAck
  /-- A core's acknowledgement to its own board of an Inv from another board, and the board's for all of its cores (R128). -/
  | boardAck (requester : Nat)
  | invAcks (n : Nat)
  deriving DecidableEq, Repr

/-- A line of an L2 home slice: the context that filled it and its page's TID (04 R106, R107). -/
structure L2Line where
  line : Nat
  ctx : Nat
  tid : Nat
  deriving DecidableEq, Repr

/-- The L2 home slices beside their directories: the sets by slice and index with the line last used first (04 R107), the token
levels by port and context where a request has lowered them, and the tokens lent there in this refill period (04 R110, 26 R438), the tokens
that a waiting request has taken, by who waits, where a unit's request waits with the number of its arrival (04 R113, 05 R124), by unit, the
words that this turn has written whose watches and retry buckets have yet to hear of it (04 R94, R102), what a slice holds of a line whose
owner has newer bytes (15 R316), and by line and board the acknowledgements that a board still expects of its cores, and how many it then
sends to the requester's board (05 R128). -/
structure Homes where
  sets : SMap (List L2Line)
  ports : SMap Nat
  loans : SMap Nat
  credits : List (Nat × Nat)
  stands : List (Nat × Nat × Nat)
  unheard : List Nat
  old : SMap (List (BitVec 8))
  acks : SMap (Nat × Nat)
  deriving DecidableEq, Repr

def Homes.fresh : Homes := { sets := [], ports := [], loans := [], credits := [], stands := [], unheard := [], old := [], acks := [] }

/-- A message in flight about a line, from or to a core. -/
structure CohMsg where
  line : Nat
  core : Nat
  kind : MsgKind
  deriving DecidableEq, Repr

/-- A request of a core that is not complete: what it asks for, whether its data or grant has come, the acknowledgements
announced and received (05 R125, R126). -/
structure Mshr where
  want : MsgKind
  grant : Option Moesi
  wanted : Option Nat
  got : Nat
  deriving DecidableEq, Repr

/-- A line of an L1 instruction cache: its bytes and its 32 start bits (06 R156). -/
structure ILine where
  bytes : List (BitVec 8)
  starts : BitVec 32
  deriving DecidableEq, Repr

/-- A line that no cache keeps, fetched for one stream's instruction, or for its constant, until that is over (04 R111, 06 R155, 07 R176). -/
structure Fill where
  who : Nat
  isConst : Bool
  key : Nat
  line : ILine
  deriving DecidableEq, Repr

/-! ### Continuations (02 R52 to R56) -/

/-- A continuation record (02 R52), and whose item strand pushed it (12 R282). -/
structure Cont where
  pc : BitVec 64
  fp : BitVec 64
  lrec : Nat
  scope : Nat
  item : Nat
  stolen : Bool
  xsave : List (BitVec 64)
  deriving DecidableEq, Repr

/-- An entry of a hardware deque (02 R54): the slot tag, and whether the item strand of that slot pushed it. -/
structure DqEntry where
  cont : Cont
  tag : Option Nat
  byItem : Bool
  deriving DecidableEq, Repr

/-- A continuation record in a deque spill area: its context, group and place, and its launch record and item (02 R55). The records are
the far end of the core's deque; a record has no slot tag (02 R52). -/
structure SpillRec where
  ctx : Nat
  group : Nat
  index : Nat
  lrec : Nat
  item : Nat
  deriving DecidableEq, Repr

/-- What waits in a core's arrival queue (01 R23, 02 R59): a continuation, or a migrating strand (its key). -/
inductive Arrival where
  | cont (c : Cont)
  | strand (uid : Nat)
  deriving DecidableEq, Repr

/-- A value on a neighbour link (10 R238). -/
structure LinkVal where
  sender : Nat
  slot : Nat
  isV : Bool
  reg : Nat
  bits : Vec
  tag : BitVec 4
  dest : Nat
  len : Nat
  deriving DecidableEq, Repr

/-- A forwarded value on its way to entry (d, j) of an item already placed (12 R280). -/
structure Delivery where
  item : Nat
  d : Nat
  j : Nat
  value : FwdVal
  deriving DecidableEq, Repr

/-! ### Cores (01 R18) -/

/-- A core. `acks` is how many acknowledgements its last GetM collected (05 R126). -/
structure Core where
  cyc : Nat
  pos : Vector (Option Nat) 8
  left : Vector Nat 8
  cregs : Vector (BitVec 64) 16
  cwrites : List (Nat × Nat × BitVec 64)
  mx : Engine
  ce : Engine
  acc : SMap (BitVec 32)
  codebook : SMap (BitVec 32)
  seq : Option Nat
  l1 : SMap L1Line
  icache : SMap ILine
  ccache : List Nat
  tlb : List TlbEntry
  itlb : List TlbEntry
  deque : List DqEntry
  spilled : List SpillRec
  arrivals : List Arrival
  links : Vector (Option LinkVal) 4
  lfsr : BitVec 16
  ring : SMap Nat
  probeAt : BitVec 64
  brk : SMap Nat
  mshr : SMap Mshr
  acks : Nat
  fills : List Fill
  router : List (Nat × Delivery)
  stalls : SMap (BitVec 48)
  epochs : SMap Nat
  deriving DecidableEq, Repr

/-! ### Launches and contexts (02, 22) -/

/-- An export of a tempo launch (12 R277): the register, the tag of its defaults, the defaults by distance. -/
structure Export where
  isV : Bool
  reg : Nat
  tag : BitVec 4
  defaults : List Vec
  deriving DecidableEq, Repr

/-- The progress of a launch record (02 R46 to R50). -/
inductive LaunchState where
  | pending
  | running (gambit : Bool)
  deriving DecidableEq, Repr

/-- A launch record (02 R35 to R50, 12 R277 to R285). `pended` counts the game-clock cycles that it has been pending up to `pendFrom` (R48);
`callerAuth` is the table of its caller as it stood last, which the caller's own replaces while the caller lives (R47), and `callerSid` the
caller's ID at LAUNCH. -/
structure Launch where
  ctx : Nat
  seq : Nat
  lpb : BitVec 64
  rect : Rect
  order : Nat
  swz : Nat
  slots : Nat
  prio : Nat
  gmbt : Bool
  nitems : Nat
  fscope : Nat
  qclass : Nat
  role : Nat
  entry : BitVec 64
  kaddr : BitVec 64
  cword : BitVec 64
  producers : List Nat
  args : List (BitVec 64)
  ranges : List Range
  maxd : Nat
  exports : List Export
  auth : Vector (BitVec 64) 64
  swBase : BitVec 64
  swLen : BitVec 64
  state : LaunchState
  since : Nat
  pended : Nat
  pendFrom : BitVec 64
  caller : Nat
  callerSid : Nat
  callerAuth : Vector (BitVec 64) 64
  next : Nat
  pop : Nat
  brk : Nat
  brko : Bool
  triggered : List Nat
  waited : List Nat
  window : SMap (Nat × FwdVal)
  flight : List Delivery
  deriving DecidableEq, Repr

/-- The states of a finish scope (13 R292). -/
inductive ScopeState where
  | free | opened | ended
  deriving DecidableEq, Repr

structure Scope where
  state : ScopeState
  count : Nat
  parent : Nat
  deriving DecidableEq, Repr

/-- An eviction schedule (04 R108): the streaming mask and the entries (TID, PRIO, NEXT). -/
structure Schedule where
  stream : BitVec 256
  entries : List (Nat × Nat × Nat)
  deriving DecidableEq, Repr

/-- A context (22 R353 to R357); `castWaits` says that admission waits on castling (23 R397). `bound` lists its leaves by ID: one, or more
after a PSPLIT (22 R351). -/
structure Ctx where
  bound : List Nat
  creator : Option Nat
  root : BitVec 64
  bmap : BitVec 64
  thv : BitVec 64
  esched : BitVec 64
  schedule : Option Schedule
  vtScale : BitVec 64
  vtOff : BitVec 64
  vtBase : BitVec 64
  vtLast : BitVec 64
  eqb : BitVec 64
  dsb : BitVec 64
  groups : List Nat
  scopes : SMap Scope
  steps : BitVec 48
  qlim : Vector Nat 16
  watchBlocks : Nat
  matchLimit : Nat
  launchSeq : Nat
  stopped : Bool
  thr : Nat
  castMap : Nat
  castCount : Nat
  castBits : Nat
  castWaits : Bool
  deriving DecidableEq, Repr

/-- A leaf of the partition tree (22 R349 to R352, R361 to R363, R374). -/
structure Leaf where
  node : Rect
  gen : BitVec 8
  ready : Bool
  walking : Bool
  probes : BitVec 48
  deriving DecidableEq, Repr

/-- An armed match entry (02 R60, 13 R296), with the ID of the strand that armed it. -/
structure Match where
  ctx : Nat
  sid : Nat
  lrec : Nat
  core : Nat
  tag : Nat
  len : Nat
  got : Nat
  buf : BitVec 64
  cont : BitVec 64
  deriving DecidableEq, Repr

/-! ### Castling (23) -/

/-- A castling command block (23 R376) with the requester's context and its translated completion word. -/
structure CastCmd where
  op : Nat
  thr : Nat
  hide : Bool
  node : Nat
  out : Nat
  into : Nat
  osave : Nat
  isave : Nat
  omap : Nat
  omapN : Nat
  imap : Nat
  imapN : Nat
  lead : Nat
  cword : Nat
  obits : Nat
  ibits : Nat
  ctx : Nat
  unused : Bool
  deriving DecidableEq, Repr

/-- How far the castling engine is with its running command: waiting for T, sweeping with the token at router `next` and then
saving (`base` is LBASE as it was at T), promoting. -/
inductive CastPhase where
  | toStop (t : BitVec 64)
  | sweeping (t base : BitVec 64) (next : Nat)
  | promoting
  deriving DecidableEq, Repr

/-- A unit on the move (23 R392): its context, its entry of the map, whether it goes to HBM, and whether the running command
counts its bytes. -/
structure Move where
  ctx : Nat
  entry : Nat
  promote : Bool
  counts : Bool
  deriving DecidableEq, Repr

/-- A core's part of a save area (23 R384): the core's offset from the leaf's corner, its strands, the structures of the core, and its
translations of the context. -/
structure SavedCore where
  dx : Nat
  dy : Nat
  strands : List (Nat × Strand)
  mx : Engine
  ce : Engine
  acc : SMap (BitVec 32)
  codebook : SMap (BitVec 32)
  scratch : List (Nat × BitVec 8)
  scratchEmpty : List Nat
  scratchBad : List Nat
  cregs : Vector (BitVec 64) 16
  deque : List DqEntry
  dqSpilled : List SpillRec
  arrivals : List Arrival
  router : List (Nat × Delivery)
  seq : Option Nat
  waits : List Waiter
  tlb : List TlbEntry
  itlb : List TlbEntry
  brk : SMap Nat
  deriving DecidableEq, Repr

/-- What the words of a save area behind its header stand for, in the engine's own layout (23 R384; DESIGN CHOICE, log entry 22): the
context's part, with its token level, and its levels by port where they differ, and the cores' parts. -/
structure Saved where
  ctx : Nat
  tokens : Option Nat
  ports : SMap Nat
  scopes : SMap Scope
  groups : List Nat
  matches_ : List (Nat × Nat × Match)
  vtLast : BitVec 64
  cores : List SavedCore
  deriving DecidableEq, Repr

/-! ### The fabric (24) -/

/-- A Trolan port (R408 to R410): the packets of its replay buffer with their types and the link number of the first flit of the
oldest, the link number of the next packet's header flit that it takes, whether it discards what it receives until a refused flit comes again,
and whether the width change under way is a forced one. -/
structure Port where
  width : Nat
  wreq : Nat
  enabled : Bool
  lfail : BitVec 16
  replay : List (Nat × Packet)
  flits : Nat
  silent : Bool
  nextWidth : Nat
  stalemate : Bool
  expects : Nat
  discarding : Bool
  forced : Bool
  deriving DecidableEq, Repr

structure TierLink where
  up : Bool
  width : Nat
  cap : Nat
  deriving DecidableEq, Repr

/-- A stream record at the target (24 R411, R412): what comes next, the packets held by number with their type, and where the operation
whose turn it is waits at a home, as a strand's `queued`. -/
structure StreamRec where
  src : Nat
  strand : Nat
  epoch : Nat
  expected : Nat
  held : List (Nat × Nat × Packet)
  queued : Option (Nat × Nat)
  deriving DecidableEq, Repr

/-- The module's own interface has no record for a stream of the module: from a number on it comes again, not before a game-clock value
(24 R412). -/
structure Refused where
  strand : Nat
  epoch : Nat
  seq : Nat
  due : BitVec 64
  deriving DecidableEq, Repr

/-- A remote operation that its source has sent: its type, the packet, its strand and what its reply does. `access` says that the
access stream of a region waits for it, `dropped` that the region has ended since (12 R274). -/
structure Sent where
  ty : Nat
  packet : Packet
  uid : Nat
  dest : Nat
  len : Nat
  access : Bool
  dropped : Bool
  deriving DecidableEq, Repr

/-! ### The host and the fleet (22 R370, 25, 26) -/

structure Hdm where
  hpa : Nat
  base : Nat
  size : Nat
  deriving DecidableEq, Repr

structure Wear where
  drift : BitVec 32
  eol : BitVec 32
  age : BitVec 16
  ems : BitVec 48
  deriving DecidableEq, Repr

/-- A run of bytes of HBM that a load writes (21 R348): where its bytes lie in the file, the bytes with relocations applied, the size with the
zeros behind them, and whether its words are set empty. -/
structure Piece where
  off : Nat
  pa : Nat
  bytes : List (BitVec 8)
  size : Nat
  empty : Bool
  deriving DecidableEq, Repr

/-- A checked image on its way into HBM (21 R343, 25 R428, R429): where the host's window holds the file, its length, what is written
where, the BOOT entries in their order, how many blocks each core has received, and what context 0 takes from the image. -/
structure Load where
  src : Nat := 0
  len : Nat
  pieces : List Piece
  code : List Nat
  maps : List Nat
  tree : List Nat
  got : SMap Nat
  bmapv : BitVec 64
  thvv : BitVec 64
  swBase : BitVec 64
  swLen : BitVec 64
  entry : BitVec 64
  kaddr : BitVec 64
  deriving DecidableEq, Repr

/-- The boot registers (25 R423), the held BGO, BIMG and BLEN as they stood when the load started (R424), the file as read
(26 R440) and the load in progress. -/
structure Boot where
  state : Nat
  bimg : BitVec 64
  blen : BitVec 64
  berr : BitVec 8
  heldBgo : Bool
  file : Option (Nat × Nat)
  image : List (BitVec 8)
  load : Option Load
  deriving DecidableEq, Repr

/-- The self-test report (25 R426), eight words. -/
structure Report where
  words : Vector (BitVec 64) 8
  deriving DecidableEq, Repr

/-- A stall window (26 R432): CSEL, whether its copy is still to be made, DONE, and the counters copied. -/
structure Window where
  csel : BitVec 64
  asked : Bool
  done : Bool
  cnt : Vector (BitVec 48) 16
  deriving DecidableEq, Repr

def Window.fresh : Window := { csel := 0, asked := false, done := false, cnt := Vector.replicate 16 0 }

/-- Telemetry (26 R431 to R436): the power cap, THERM's fields, FSET by island where it is not 600 and the frequency in
force, wear by island with the readings of the last 30 days, hourly and the last one first, the stall window of BAR0 and the copy that
the Second holds. -/
structure Fleet where
  pcap : BitVec 12
  power : Nat
  inlet : Nat
  fth : Nat
  fset : SMap Nat
  running : SMap Nat
  wear : SMap Wear
  history : SMap (List (Int × Nat))
  window : Window
  second : Window
  deriving DecidableEq, Repr

/-- What the module has sent toward the host (05 R141, 26 R430, R439, R440). -/
inductive Answer where
  | unsupported (offset : Nat)
  | read (addr : Nat) (bytes : List (BitVec 8))
  | snoop (line : Nat)
  | snooped (line : Nat)
  | invalidated (line : Nat)
  | pldm (values : List (BitVec 64))
  | pldmRefused
  | spdm (digest : BitVec 384) (signature : BitVec 768)
  /-- To a port's neighbour: a replay request, and the packets of the replay buffer sent again (24 R408, R410). -/
  | replayRequest (port : Nat)
  | resent (port packets : Nat)
  /-- The tail flit of a packet that came in at a port is acknowledged (24 R408). -/
  | tailAck (port : Nat)
  deriving DecidableEq, Repr

/-! ### What is put off (23 R393, 05 R124) -/

/-- What a unit of the module does for a strand or a context: check the start bit of a strand that is placed (06 R157), enter a trap's
handler (13 R312), write a fault record (13 R313) or an error-queue entry (24 R418), for which a strand's releases may wait (24 R416). -/
inductive Chore where
  | start (uid : Nat)
  | trap (uid cause extra : Nat) (pc addr : BitVec 64) (noWord : Bool)
  | record (uid : Option Nat) (core ctx : Nat) (fra : BitVec 64) (seq : BitVec 8) (sid cause : Nat) (pc addr : BitVec 64)
      (extra lrec scope item : Nat) (noWord : Bool)
  | entry (uid : Option Nat) (ctx : Nat) (addr : BitVec 64) (peer kind cause sid : Nat)
  deriving DecidableEq, Repr

/-- A chore that a moving unit, a token or a line in use holds up, with its number. -/
structure Later where
  chore : Chore
  no : Nat
  deriving DecidableEq, Repr

/-! ### Turns (the model's own; DESIGN CHOICE, log entry 1) -/

/-- What the surroundings of the barrels let happen next. -/
inductive Deed where
  /-- A cycle of a core's barrel (01 R26), an issue of its loop sequencer (12 R273). -/
  | cycle (core : Nat)
  | sequence (core : Nat)
  /-- An event of the opcode table. -/
  | event (i : Instr)
  /-- The replacement of a line of an L1 or of a translation, whose time and victim nothing states (05 R125, 06 R156, 22 R364; DEDUCED,
  log entry 55). -/
  | evictL1 (core line : Nat)
  | evictInstr (core line : Nat)
  | evictTlb (core ctx page : Nat)
  /-- The receiver's acknowledgement of the oldest packet in a port's replay buffer (24 R408). -/
  | tailAck (port : Nat)
  /-- The copy that a stall window waits for is made, in BAR0 or in the Second; the Second selects an engine (26 R432). -/
  | copyCounters (second : Bool)
  | secondSelect (value : BitVec 64)
  deriving DecidableEq, Repr

/-- A deed after a number of game-clock cycles. -/
structure Turn where
  ticks : Nat
  deed : Deed
  deriving DecidableEq, Repr

/-- Which stream of a strand the instruction belongs to (12 R268); outside a region it is always `execute`. -/
inductive Stream where
  | execute | access
  deriving DecidableEq, Repr

/-! ### The module -/

structure State where
  gclk : BitVec 64
  lbase : BitVec 64
  mem : List Host.Cell
  empties : List Nat
  poison : List Nat
  leaves : List Leaf
  ctxs : SMap Ctx
  launches : SMap Launch
  strands : SMap Strand
  cores : SMap Core
  waiters : List Waiter
  dirs : SMap DirEntry
  agents : SMap AgentEntry
  stamps : SMap Stamp
  msgs : List CohMsg
  backInv : List Nat
  homes : Homes
  later : List Later
  predictor : SMap (BitVec 2)
  watchOnly : SMap Nat
  boardTlb : SMap (List TlbEntry)
  buckets : SMap Nat
  bucketSet : SMap (BitVec 64)
  bucketNext : SMap (BitVec 64)
  busy : List Nat
  frozen : List Nat
  castQ : List CastCmd
  castRun : Option (CastCmd × CastPhase)
  moving : Option Move
  moveNext : List Move
  castMoved : Nat
  saves : SMap Saved
  boot : Boot
  report : Report
  tierCap : Nat
  ports : Vector Port 8
  tiers : Vector TierLink 4
  syspos : BitVec 32
  leaseLen : BitVec 16
  jobs : Vector (BitVec 64) 16
  streams : List StreamRec
  refused : List Refused
  quiet : List StreamRec
  sent : List Sent
  outbox : List (Nat × Packet)
  unexpected : SMap (List Packet)
  leased : SMap (Nat × List (BitVec 8))
  matches_ : SMap Match
  jobFilter : BitVec 48
  pausing : SMap (List Nat)
  hdm : Vector (Option Hdm) 4
  fleet : Fleet
  answers : List Answer
  requesters : SMap Nat
  cur : Option Nat
  stream : Stream
  agenda : List Turn
  focus : Nat
  nextUid : Nat
  order : Nat
  free : Nat
  deriving DecidableEq, Repr

/-! ### Reset (25 R423 to R426) -/

def Engine.fresh : Engine :=
  { queue := [], shadow := Vector.replicate 16 0, claim := none, last := none, seqNo := 0, sum := none, tlb := [], queued := none, stall := none }

/-- A core nothing has reached since power-up; its LFSR is seeded from its ID (02 R56). What spec/ gives no reset value holds 0,
and an empty position is charged with cause 14 (DESIGN CHOICE, log entry 5). -/
def Core.fresh (id : Nat) : Core :=
  { cyc := 0, pos := Vector.replicate 8 none, left := Vector.replicate 8 14, cregs := Vector.replicate 16 0, cwrites := [],
    mx := Engine.fresh, ce := Engine.fresh, acc := [], codebook := [], seq := none, l1 := [], icache := [], ccache := [],
    tlb := [], itlb := [], deque := [], spilled := [], arrivals := [], links := Vector.replicate 4 none,
    lfsr := 0x8000 ||| BitVec.ofNat 16 id, ring := [], probeAt := 0, brk := [], mshr := [], acks := 0, fills := [], router := [], stalls := [], epochs := [] }

def Port.down : Port :=
  { width := 0, wreq := 0, enabled := true, lfail := 0, replay := [], flits := 0, silent := false, nextWidth := 0,
    stalemate := false, expects := 0, discarding := false, forced := false }

/-- The module node (22 R349, level 0). -/
def Rect.module : Rect := ⟨0, 0, 7, 6⟩

def Leaf.module : Leaf := { node := Rect.module, gen := 0, ready := false, walking := true, probes := 0 }

/-- The module with power just applied: STATE 1, nothing placed, nothing listed in memory. Registers without a reset value in
spec/, and the model's own fields, hold 0 or nothing, FTH 750 (DESIGN CHOICE, log entries 5, 6) (DEDUCED, log entry 2). -/
def State.reset : State :=
  { gclk := 0, lbase := 0, mem := [], empties := [], poison := [], leaves := [Leaf.module], ctxs := [], launches := [],
    strands := [], cores := [], waiters := [], dirs := [], agents := [], stamps := [], msgs := [], backInv := [], homes := Homes.fresh,
    later := [], predictor := [],
    watchOnly := [], boardTlb := [], buckets := [], bucketSet := [], bucketNext := [], busy := [], frozen := [], castQ := [], castRun := none, moving := none,
    moveNext := [], castMoved := 0, saves := [],
    boot := { state := 1, bimg := 0, blen := 0, berr := 0, heldBgo := false, file := none, image := [], load := none },
    report := ⟨Vector.replicate 8 0⟩, tierCap := 0,
    ports := Vector.replicate 8 Port.down, tiers := Vector.replicate 4 ⟨false, 0, 0⟩,
    syspos := 0, leaseLen := 256, jobs := Vector.replicate 16 0, streams := [], refused := [], quiet := [], sent := [],
    outbox := [], unexpected := [], leased := [], matches_ := [], jobFilter := 0, pausing := [],
    hdm := Vector.replicate 4 none,
    fleet := { pcap := 2800, power := 0, inlet := 0, fth := 750, fset := [], running := [], wear := [],
               history := [], window := Window.fresh, second := Window.fresh },
    answers := [], requesters := [], cur := none, stream := .execute, agenda := [], focus := 0, nextUid := 1, order := 0,
    free := 0 }

end Sys2Proof.Machine
end

