-- ==== Sys2Proof/Config.lean ====
section
/-!
DEFINITION. What one implementation fixes and what the spec leaves open: free values without a body, so that nothing
can be proved of the value they take.
-/

namespace Sys2Proof.Config

/-- The values that nothing in spec/ states: the address and the extra information of a trap for which no rule names
them (DESIGN CHOICE, log entry 11). `Machine.State.free` numbers the occasions. -/
opaque freeWord : Nat → BitVec 64

/-- Which entry of a full L1 or translation cache, whose replacement nothing in spec/ states, makes room: a function of the time and of
what comes in (00 R1, 01 R18, 22 R364; DESIGN CHOICE, log entry 55). -/
opaque victim : Nat → Nat → Nat

/-- The castling engine's own layout of a save area behind its header (23 R384; DESIGN CHOICE, log entry 22): the words that a save
writes, by the number of the save. -/
opaque saveImage : Nat → Nat → BitVec 64

/-- What words stand for in that layout where no STOP of this module wrote them (23 R388, R458; DESIGN CHOICE, log entry 22): the
cores' parts, the finish scopes, the groups of deque records in use, the token levels, and the match entries by the offsets of their cores. -/
opaque foundCores : List (BitVec 64) → List Machine.SavedCore
opaque foundScopes : List (BitVec 64) → Machine.SMap Machine.Scope
opaque foundGroups : List (BitVec 64) → List Nat
opaque foundTokens : List (BitVec 64) → Option Nat
opaque foundPorts : List (BitVec 64) → Machine.SMap Nat
opaque foundMatches : List (BitVec 64) → List (Nat × Nat × Machine.Match)

/-- SHA-384 of bytes and the firmware's digest (26 R440), and the signature of the device key over a digest, the pair r and s
(DESIGN CHOICE, log entry 23). -/
opaque digest : List (BitVec 8) → BitVec 384
opaque firmware : BitVec 384
opaque sign : BitVec 384 → BitVec 768

/-- The temperature of a board that PLDM reports (26 R439; DESIGN CHOICE, log entry 23). -/
opaque boardTemperature : Nat → Nat → BitVec 64

/-- EMS_LIM of an island (26 R434; DESIGN CHOICE, log entry 40). -/
opaque emsLimit : Nat → BitVec 48

/-- Where the LPB templates of a CONST section lie (21 R342; DESIGN CHOICE, log entry 35). -/
opaque templateOffsets : List (BitVec 8) → List Nat

/-- Where the report's copy in HBM lies (25 R429), and the quotas and pools of context 0 (22 R358): the QLIM bytes, the watch
blocks and the match entries (DESIGN CHOICE, log entry 36). -/
opaque reportSlot : Nat
opaque rootQlim : Fin 16 → BitVec 8
opaque rootWatchBlocks : BitVec 16
opaque rootMatchLimit : BitVec 16

end Sys2Proof.Config
end

