-- ==== Sys2Proof/Machine/Sparse.lean ====
section
/-!
DEFINITION. Finite maps as lists by rising key, and the arithmetic of fields, coordinates and addresses that the other
files share (01 R12 to R15, 04 R95 to R97).
-/

namespace Sys2Proof.Machine

namespace Sparse

variable {α : Type}

/-- The entry of a key, if the map has one. -/
def get : SMap α → Nat → Option α
  | [], _ => none
  | (k', v) :: m, k => if k' = k then some v else get m k

/-- Write the entry of a key, keeping the keys rising. -/
def put : SMap α → Nat → α → SMap α
  | [], k, v => [(k, v)]
  | (k', v') :: m, k, v =>
    if k < k' then (k, v) :: (k', v') :: m
    else if k' = k then (k, v) :: m
    else (k', v') :: put m k v

/-- Remove the entry of a key. -/
def erase : SMap α → Nat → SMap α
  | [], _ => []
  | (k', v) :: m, k => if k' = k then erase m k else (k', v) :: erase m k

/-- Apply a function to every entry. -/
def mapVals (f : Nat → α → α) : SMap α → SMap α
  | [] => []
  | (k, v) :: m => (k, f k v) :: mapVals f m

end Sparse

/-- A number put into a rising list without repeats, and taken out of it. -/
def insertNat : List Nat → Nat → List Nat
  | [], n => [n]
  | x :: xs, n => if n < x then n :: x :: xs else if x = n then x :: xs else x :: insertNat xs n

def removeNat (l : List Nat) (n : Nat) : List Nat := l.filter (· != n)

/-! ### Fields of words -/

/-- Bits [hi:lo] of a number (00 R2). -/
def bitsOf (w hi lo : Nat) : Nat := (w >>> lo) % 2 ^ (hi - lo + 1)

/-- Bits [hi:lo] of a register word. -/
def field (w : BitVec 64) (hi lo : Nat) : Nat := bitsOf w.toNat hi lo

/-- A w-bit number read as two's complement. -/
def toSigned (w n : Nat) : Int :=
  let n := n % 2 ^ w
  if n < 2 ^ (w - 1) then (n : Int) else (n : Int) - 2 ^ w

/-- The two's complement of an integer in w bits. -/
def wrap (w : Nat) (i : Int) : Nat := (i % (2 ^ w : Int)).toNat

/-- Sign extension to 64 bits from a smaller width. -/
def sx64 {w : Nat} (b : BitVec w) : BitVec 64 := b.signExtend 64

/-! ### Cores, boards, islands (01 R12 to R16) -/

def boardOf (core : Nat) : Nat := core / 1024
def fileOf (core : Nat) : Nat := (boardOf core % 4) * 32 + core % 32
def rankOf (core : Nat) : Nat := (boardOf core / 4) * 32 + core / 32 % 32

/-- The core ID at module coordinates. -/
def coreAt (file rank : Nat) : Nat := ((rank / 32) * 4 + file / 32) * 1024 + (rank % 32) * 32 + file % 32

/-- R14. -/
def strandId (core slot : Nat) : Nat := core * 256 + slot

/-- R15: the island of a core. -/
def islandOf (core : Nat) : Nat := boardOf core * 64 + (core / 32 % 32 / 4) * 8 + core % 32 / 4

/-- The bit of a coarse directory vector for a core (05 R123). -/
def islandBit (core : Nat) : Nat := (core / 32 % 32 / 4) * 8 + core % 32 / 4

def Rect.width (r : Rect) : Nat := 2 ^ r.lw
def Rect.height (r : Rect) : Nat := 2 ^ r.lh

def Rect.hasCoord (r : Rect) (file rank : Nat) : Bool :=
  r.ofile ≤ file && file < r.ofile + r.width && r.orank ≤ rank && rank < r.orank + r.height

def Rect.hasCore (r : Rect) (core : Nat) : Bool := r.hasCoord (fileOf core) (rankOf core)

/-- Every core of the first rectangle lies in the second. -/
def Rect.inside (a b : Rect) : Bool :=
  b.ofile ≤ a.ofile && a.ofile + a.width ≤ b.ofile + b.width && b.orank ≤ a.orank &&
  a.orank + a.height ≤ b.orank + b.height

def Rect.overlaps (a b : Rect) : Bool :=
  a.ofile < b.ofile + b.width && b.ofile < a.ofile + a.width && a.orank < b.orank + b.height &&
  b.orank < a.orank + a.height

/-- The cores of a rectangle in row-major order. -/
def Rect.cores (r : Rect) : List Nat :=
  (List.range (r.width * r.height)).map fun q => coreAt (r.ofile + q % r.width) (r.orank + q / r.width)

/-- The rectangle in bits [18:0] of a SHAPE word, a node operand or an authority entry (02 R36, 13 R300, R308). -/
def rectOf (w : Nat) : Rect := ⟨bitsOf w 6 0, bitsOf w 12 7, bitsOf w 15 13, bitsOf w 18 16⟩

/-- Bits [18:0] of a rectangle. -/
def Rect.toNat (r : Rect) : Nat := r.ofile + r.orank * 2 ^ 7 + r.lw * 2 ^ 13 + r.lh * 2 ^ 16

/-- Aligned to its size and inside the module (02 R36, R41). -/
def Rect.aligned (r : Rect) : Bool := r.ofile % r.width == 0 && r.orank % r.height == 0

def Rect.onModule (r : Rect) : Bool := r.ofile + r.width ≤ 128 && r.orank + r.height ≤ 64

/-- The shape of a node of the buddy tree: widths and heights of R349. -/
def Rect.isNode (r : Rect) : Bool :=
  r.aligned && r.onModule && (r.lw == r.lh || r.lw == r.lh + 1) && 2 ≤ r.lh

/-- The partition's ID: the island of its south-west core (22 R350). -/
def Rect.leafId (r : Rect) : Nat := islandOf (coreAt r.ofile r.orank)

/-! ### Physical regions and homes (04 R95 to R97, R456) -/

inductive Zone where
  | hbm | tier
  | scratch (core : Nat)
  | host | nowhere
  deriving DecidableEq, Repr

/-- R95, with the second tier as far as it is installed (24 R422). -/
def zoneOf (tierCap pa : Nat) : Zone :=
  if pa < 0x10000000000 then .hbm
  else if 0x100000000000 ≤ pa && pa < 0x100000000000 + tierCap * 2 ^ 30 then .tier
  else if 0x200000000000 ≤ pa && pa < 0x200040000000 then
    let q := (pa - 0x200000000000) / 2 ^ 17
    .scratch (coreAt (q % 128) (q / 128))
  else if 0x8000000000000 ≤ pa && pa < 0x10000000000000 then .host
  else .nowhere

/-- The address of a core's scratchpad in the window. -/
def scratchBase (core : Nat) : Nat := 0x200000000000 + (rankOf core * 128 + fileOf core) * 2 ^ 17

/-- The home board of a line (R95, R456). -/
def homeBoard (pa : Nat) : Nat :=
  if 0x100000000000 ≤ pa && pa < 0x200000000000 then bitsOf pa 18 16 else bitsOf pa 39 37

/-- R97. -/
def homeSlice (pa : Nat) : Nat := bitsOf pa 16 7 ^^^ bitsOf pa 26 17 ^^^ bitsOf pa 36 27

/-- The core above the home slice (R97, 02 R59). -/
def homeCore (pa : Nat) : Nat := homeBoard pa * 1024 + homeSlice pa

/-- The retry bucket of a word with its home (R102): the stack, or the core of a scratchpad. -/
def bucketOf (tierCap pa : Nat) : Nat × Nat :=
  let b := bitsOf pa 14 3 ^^^ bitsOf pa 26 15
  match zoneOf tierCap pa with
  | .scratch c => (16 + c, b % 256)
  | _ => (2 * bitsOf pa 39 37 + bitsOf pa 16 16, b % 4096)

/-- 128-byte lines of an address (01 R18). -/
def lineOf (pa : Nat) : Nat := pa / 128

end Sys2Proof.Machine
end

