-- ==== Sys2Proof/Machine/Memory.lean ====
section
/-!
DEFINITION. Bytes, full/empty bits and poison of the physical address space (04 R95, R99, R100, 10 R218).
-/

namespace Sys2Proof.Machine

namespace Memory

/-- What an address that memory does not list reads as (04 R99, 25 R426, DESIGN CHOICE, log entry 4). -/
def unlisted : BitVec 8 := 0

/-- The byte at an address. -/
def get : List Host.Cell → Nat → BitVec 8
  | [], _ => unlisted
  | (k, v) :: m, a => if k = a then v else get m a

/-- Write one byte, keeping the addresses rising and listing no byte equal to an unlisted one. -/
def set : List Host.Cell → Nat → BitVec 8 → List Host.Cell
  | [], a, b => if b = unlisted then [] else [(a, b)]
  | (k, v) :: m, a, b =>
    if a < k then (if b = unlisted then (k, v) :: m else (a, b) :: (k, v) :: m)
    else if k = a then (if b = unlisted then m else (a, b) :: m)
    else (k, v) :: set m a b

/-- The canonical form: addresses strictly rising, and no entry equal to what an unlisted address reads as. -/
def wfFrom (lo : Nat) : List Host.Cell → Bool
  | [] => true
  | (k, v) :: m => lo ≤ k && v != unlisted && wfFrom (k + 1) m

def wf (m : List Host.Cell) : Bool := wfFrom 0 m

/-- `n` bytes from an address upward. -/
def getBytes (m : List Host.Cell) (a : Nat) : Nat → List (BitVec 8)
  | 0 => []
  | n + 1 => get m a :: getBytes m (a + 1) n

/-- Write bytes from an address upward. -/
def setBytes (m : List Host.Cell) (a : Nat) : List (BitVec 8) → List Host.Cell
  | [] => m
  | b :: bs => setBytes (set m a b) (a + 1) bs

/-- Little-endian numbers (00 R3). -/
def ofBytes : List (BitVec 8) → Nat
  | [] => 0
  | b :: bs => b.toNat + 256 * ofBytes bs

def toBytes : Nat → Nat → List (BitVec 8)
  | 0, _ => []
  | n + 1, v => BitVec.ofNat 8 v :: toBytes n (v / 256)

end Memory

/-- `n` bytes at a physical address as a number. -/
def State.load (s : State) (pa n : Nat) : Nat := Memory.ofBytes (Memory.getBytes s.mem pa n)

def State.word (s : State) (pa : Nat) : BitVec 64 := BitVec.ofNat 64 (s.load pa 8)

/-- Store the low `n` bytes of a number. -/
def State.store (s : State) (pa n v : Nat) : State :=
  { s with mem := Memory.setBytes s.mem pa (Memory.toBytes n v) }

/-- The words that a run of bytes touches, by PA / 8. -/
def wordsOfRun (pa n : Nat) : List Nat := if n = 0 then [] else (List.range ((pa + n - 1) / 8 - pa / 8 + 1)).map (pa / 8 + ·)

/-- The lines that a run of bytes touches. -/
def linesOfRun (pa n : Nat) : List Nat :=
  if n = 0 then [] else (List.range ((pa + n - 1) / 128 - pa / 128 + 1)).map (pa / 128 + ·)

/-! ### Full/empty bits (04 R99, R100) -/

def State.isFull (s : State) (pa : Nat) : Bool := !s.empties.contains (pa / 8)

def State.setFull (s : State) (pa : Nat) : State := { s with empties := removeNat s.empties (pa / 8) }

def State.setEmpty (s : State) (pa : Nat) : State := { s with empties := insertNat s.empties (pa / 8) }

def State.markFull (s : State) (pa : Nat) (full : Bool) : State := if full then s.setFull pa else s.setEmpty pa

/-! ### Poison (10 R218) -/

def State.poisoned (s : State) (pa n : Nat) : Bool := (wordsOfRun pa n).any s.poison.contains

def State.clearPoison (s : State) (pa : Nat) : State := { s with poison := removeNat s.poison (pa / 8) }

def State.setPoison (s : State) (pa : Nat) : State := { s with poison := insertNat s.poison (pa / 8) }

/-- The first poisoned word of a run. -/
def State.firstPoison (s : State) (pa n : Nat) : Option Nat := (wordsOfRun pa n).find? s.poison.contains

end Sys2Proof.Machine
end

