-- ==== Sys2Proof/Machine/L2.lean ====
section
/-!
DEFINITION. The L2 home slices: their 16-way sets, which line leaves for another (04 R106, R107), and the bandwidth tokens at their
ports (04 R110, 26 R437, R438).
-/

namespace Sys2Proof.Machine

/-! ### Cores and contexts -/

def State.core (s : State) (c : Nat) : Core := (Sparse.get s.cores c).getD (Core.fresh c)

def State.setCore (s : State) (c : Nat) (k : Core) : State := { s with cores := Sparse.put s.cores c k }

def State.editCore (s : State) (c : Nat) (g : Core → Core) : State := s.setCore c (g (s.core c))

def State.ctx? (s : State) (n : Nat) : Option Ctx := Sparse.get s.ctxs n

def State.setCtx (s : State) (n : Nat) (c : Ctx) : State := { s with ctxs := Sparse.put s.ctxs n c }

def State.editCtx (s : State) (n : Nat) (g : Ctx → Ctx) : State :=
  match s.ctx? n with
  | some c => s.setCtx n (g c)
  | none => s

/-! ### Sets (04 R106, R107) -/

/-- The watchers of a line. -/
def State.watchersOf (s : State) (line : Nat) : Nat :=
  s.strands.foldl (fun n e => n + (e.2.watch.toList.filter fun w => w.armed && w.line == line).length) 0

/-- The set of a line: 256 sets of 16 ways make the 512 KiB of a slice (00 R1). Which address bits choose the set nothing states
(DESIGN CHOICE, log entry 62). -/
def setKey (line : Nat) : Nat := homeCore (line * 128) * 256 + bitsOf line 17 10

/-- The stack, the pseudo-channel, the bank and the subarray of an HBM address (04 R96). -/
def hbmStack (pa : Nat) : Nat := 2 * bitsOf pa 39 37 + bitsOf pa 16 16
def hbmChannel (pa : Nat) : Nat := bitsOf pa 22 17 ^^^ bitsOf pa 30 25
def hbmBank (pa : Nat) : Nat := 4 * bitsOf pa 24 23 + bitsOf pa 15 14
def hbmRow (pa : Nat) : Nat := bitsOf pa 36 25 * 8 + bitsOf pa 13 11
def hbmSubarray (pa : Nat) : Nat := bitsOf pa 36 31

/-- The path of a row copy: inside one bank, through the base die's buffer, or over the mesh (04 R112). -/
inductive RowPath where
  | bank | die | mesh
  deriving DecidableEq, Repr

/-- The path of a row from a source to a destination, which a fill has in its own bank. -/
def rowPath (fill : Bool) (src dst : Nat) : RowPath :=
  if fill then .bank
  else if hbmStack src != hbmStack dst then .mesh
  else if hbmChannel src == hbmChannel dst && hbmBank src == hbmBank dst && hbmSubarray src == hbmSubarray dst then .bank
  else .die

/-- The ways of a set that are not pinned: the 64 KiB and the 144 KiB of spill areas of a slice (01 R18) lie in its sets by turns
(DESIGN CHOICE, log entry 62). -/
def setWays (key : Nat) : Nat := if key % 256 < 128 then 9 else 10

def State.l2Set (s : State) (line : Nat) : List L2Line := (Sparse.get s.homes.sets (setKey line)).getD []

def State.l2Holds (s : State) (line : Nat) : Bool := (s.l2Set line).any (·.line == line)

/-- A line that no fill evicts: watched, or busy with an outstanding transaction (R106). -/
def State.l2Kept (s : State) (line : Nat) : Bool :=
  s.watchersOf line != 0 || s.busy.contains line || s.frozen.contains line || s.backInv.contains line ||
  s.msgs.any (·.line == line)

/-- The entry of a schedule for a TID: PRIO and NEXT; the lower-numbered one counts (R108). -/
def Schedule.entry (x : Schedule) (tid : Nat) : Option (Nat × Nat) := (x.entries.find? (·.1 == tid)).map (·.2)

/-- Where a tensor stands in the ranking of R107 step 3, lower first: lines without a tensor, without an entry or past their NEXT
lead; the others follow in descending order of NEXT, then PRIO, then TID. A line without a tensor or an entry has PRIO 0 among those of equal
NEXT (DESIGN CHOICE, log entry 84). -/
def Schedule.rank (x : Schedule) (step tid : Nat) : List Nat :=
  match if tid = 0 then none else x.entry tid with
  | none => [0, 0, 0, tid]
  | some (prio, next) => if next < step then [0, 0, prio, tid] else [1, 2 ^ 48 - next, prio, tid]

/-- The first in order of two ranks. -/
def rankLt : List Nat → List Nat → Bool
  | a :: l, b :: m => a < b || (a == b && rankLt l m)
  | _, _ => false

/-- R107 steps 2 to 4 on the lines that may go, the last used first. -/
def State.l2Victim (s : State) (ctx : Nat) (cands : List L2Line) : Option L2Line :=
  match cands.getLast? with
  | none => none
  | some lru =>
    if lru.ctx != ctx then some lru
    else
      let own := cands.filter (·.ctx == ctx)
      let c := s.ctxs.find? (·.1 == ctx)
      let step := (c.map (·.2.steps.toNat)).getD 0
      match c.bind (·.2.schedule) with
      | none => some lru
      | some x =>
        if x.entries.isEmpty then
          match (own.filter fun l => x.stream.getLsbD l.tid).getLast? with
          | some l => some l
          | none => some lru
        else
          let first := own.foldl (fun (b : Option (List Nat)) l =>
            let r := x.rank step l.tid
            match b with
            | some q => if rankLt r q then some r else b
            | none => some r) none
          (own.filter fun l => some (x.rank step l.tid) == first).getLast?

/-- A request of a context at a line's home slice: the line is the last used of its set. It is filled where it was absent and a way is
invalid or can be had; the stamps of a line that leaves are lost (05 R135, R136). -/
def State.touchL2 (s : State) (ctx tid line : Nat) : State :=
  let key := setKey line
  let set := s.l2Set line
  let put (s : State) (l : List L2Line) : State := { s with homes := { s.homes with sets := Sparse.put s.homes.sets key l } }
  match set.find? (·.line == line) with
  | some e => put s (e :: set.filter (·.line != line))
  | none =>
    let new : L2Line := { line := line, ctx := ctx, tid := tid }
    if set.length < setWays key then put s (new :: set)
    else
      match s.l2Victim ctx (set.filter fun l => !s.l2Kept l.line) with
      | none => s
      | some v =>
        put { s with stamps := s.stamps.filter fun e => e.1 / 16 != v.line } (new :: set.filter (·.line != v.line))

/-! ### Tokens (04 R110, 26 R437, R438) -/

def bucketRate (e : BitVec 64) : Nat := field e 31 16

/-- A capacity below RATE is taken as RATE. -/
def bucketCap (e : BitVec 64) : Nat := max (field e 15 0) (bucketRate e)

/-- A bucket: a port, the slice of a line's home, with a context. -/
def portOf (line : Nat) : Nat := homeCore (line * 128)

def bucketKey (ctx port : Nat) : Nat := port * 4096 + ctx

/-- The entry in force; RATE 0 is no bucket. -/
def State.bucketEntry (s : State) (ctx : Nat) : BitVec 64 := (Sparse.get s.bucketSet ctx).getD 0

def State.hasBucket (s : State) (ctx : Nat) : Bool := bucketRate (s.bucketEntry ctx) != 0

/-- A context's level at a port: `buckets` where no request has lowered it there since the levels were equal. -/
def State.tokens (s : State) (ctx port : Nat) : Nat :=
  if !s.hasBucket ctx then 0
  else
    match Sparse.get s.homes.ports (bucketKey ctx port) with
    | some n => n
    | none => (Sparse.get s.buckets ctx).getD 0

/-- Two contexts have a partition in common. -/
def State.samePartition (s : State) (a b : Nat) : Bool :=
  match Sparse.get s.ctxs a, Sparse.get s.ctxs b with
  | some x, some y => x.bound.any y.bound.contains
  | _, _ => false

/-- Whose token a request of a context takes at a port: its own, one of its partition's, one of a lender's (R438). -/
def State.payer (s : State) (ctx port : Nat) : Option Nat :=
  if s.tokens ctx port != 0 then some ctx
  else
    let others := (s.bucketSet.map (·.1)).filter fun c => c != ctx && s.tokens c port != 0
    match others.find? (s.samePartition ctx) with
    | some c => some c
    | none => others.find? fun c => (s.bucketEntry c).getLsbD 63

/-! ### Who waits where (04 R110, R113, 05 R124) -/

/-- Who presents a request: the stream that issues, an engine of a core, another unit by its number, a stream of remote operations (24
R411). -/
inductive Requester where
  | issuer
  | engine (core e : Nat)
  | unit (n : Nat)
  | stream (src strand epoch : Nat)
  deriving DecidableEq, Repr

/-- What a `queued` field names: a line at its home, a bucket at its port, a neighbour link, a strand that serves requests (13 R302). -/
def linePlace (line : Nat) : Nat := 4 * line

def portPlace (ctx port : Nat) : Nat := 4 * bucketKey ctx port + 1

def linkPlace (core dir : Nat) : Nat := 4 * (4 * core + dir) + 2

def strandPlace (uid : Nat) : Nat := 4 * uid + 3

/-- The units that ask on their own: one of a core, a chore, a launch record's completion, a match entry, a unit of the module. -/
def coreUnit (core : Nat) : Nat := 5 * core
def choreUnit (no : Nat) : Nat := 5 * no + 1
def launchUnit (lrec : Nat) : Nat := 5 * lrec + 2
def matchUnit (key : Nat) : Nat := 5 * key + 3
def moduleUnit (n : Nat) : Nat := 5 * n + 4

/-- The tokens that a waiting request has taken are its holder's. -/
def State.holder (s : State) : Requester → Nat
  | .issuer => s.cur.getD 0
  | .engine core e => 2 ^ 41 + 2 * core + e
  | .unit n => 2 ^ 64 + n
  | .stream src strand epoch => 2 ^ 42 + (src * 2 ^ 21 + strand) * 256 + epoch

def State.queuedOf (s : State) : Requester → Option (Nat × Nat)
  | .issuer =>
    match s.cur.bind (Sparse.get s.strands) with
    | none => none
    | some st =>
      match s.stream, st.region with
      | .access, some g => g.queued
      | _, _ => st.queued
  | .engine core e => (Sparse.get s.cores core).bind fun k => if e = 0 then k.mx.queued else k.ce.queued
  | .unit n => (s.homes.stands.find? (·.1 == n)).map (·.2)
  | .stream src strand epoch =>
    (s.streams.find? fun r => r.src == src && r.strand == strand && r.epoch == epoch).bind (·.queued)

/-- Where a request stands that waits at a place: where it was, or behind all that wait there. -/
def queueAt (old : Option (Nat × Nat)) (place now : Nat) : Nat × Nat :=
  match old with
  | some (p, n) => if p = place then (p, n) else (place, now)
  | none => (place, now)

/-- A request that came before number `no` waits at a place. -/
def State.queuedBefore (s : State) (place no : Nat) : Bool :=
  let ahead (q : Option (Nat × Nat)) : Bool := match q with | some (p, n) => p == place && n < no | none => false
  s.strands.any (fun e => ahead e.2.queued || ahead (e.2.region.bind (·.queued))) ||
  s.cores.any (fun e => ahead e.2.mx.queued || ahead e.2.ce.queued) || s.streams.any (fun r => ahead r.queued) ||
  s.homes.stands.any fun e => ahead (some e.2)

/-- An earlier request than this one waits at a place. -/
def State.mustQueue (s : State) (who : Requester) (place : Nat) : Bool :=
  s.queuedBefore place (queueAt (s.queuedOf who) place s.order).2

/-- One request takes a token: one that its holder has taken already, or one that is there. The requests of a context leave a port in
their order of arrival. -/
def State.takeToken (s : State) (who : Requester) (ctx port : Nat) : Option State :=
  let mine := (s.holder who, bucketKey ctx port)
  if s.homes.credits.contains mine then
    some { s with homes := { s.homes with credits := s.homes.credits.erase mine } }
  else if s.mustQueue who (portPlace ctx port) then none
  else
    (s.payer ctx port).map fun c =>
      let key := bucketKey c port
      { s with homes := { s.homes with
          ports := Sparse.put s.homes.ports key (s.tokens c port - 1)
          loans := if c = ctx then s.homes.loans else Sparse.put s.homes.loans key ((Sparse.get s.homes.loans key).getD 0 + 1) } }

/-- A token among those that are kept, by holder and bucket. -/
def addCredit (c : Nat × Nat) : List (Nat × Nat) → List (Nat × Nat)
  | [] => [c]
  | d :: l => if c.1 < d.1 || (c.1 == d.1 && c.2 ≤ d.2) then c :: d :: l else d :: addCredit c l

/-- Tokens that a request has taken stay with it while it waits. -/
def State.keepTokens (s : State) (who : Requester) (ctx : Nat) (ports : List Nat) : State :=
  { s with homes := { s.homes with
      credits := ports.foldl (fun l p => addCredit (s.holder who, bucketKey ctx p) l) s.homes.credits } }

/-- The requests at some ports each take a token. Where one is missing, its port is answered, and the tokens that the others have taken
stay with who waits. A context without a bucket never waits (R437). -/
def State.takeTokens (s : State) (who : Requester) (ctx : Nat) (ports : List Nat) : Option Nat × State :=
  if s.hasBucket ctx then go s [] ports else (none, s)
where
  /-- The requests still without one; those of `got` have theirs. -/
  go (s : State) (got : List Nat) : List Nat → Option Nat × State
    | [] => (none, s)
    | p :: ps =>
      match s.takeToken who ctx p with
      | some s => go s (p :: got) ps
      | none => (some p, s.keepTokens who ctx got)

/-- The refill boundary: written settings take effect, every bucket takes its tokens at every port, and loans end: what a bucket has lent
in the period is its own again (04 R110; DEDUCED, log entry 39). -/
def State.refillTokens (s : State) : State :=
  let level (e : BitVec 64) (n : Nat) : Nat := min (bucketCap e) (n + bucketRate e)
  let base (m : SMap Nat) (e : Nat × BitVec 64) : SMap Nat :=
    if bucketRate e.2 = 0 then Sparse.erase m e.1 else Sparse.put m e.1 (level e.2 ((Sparse.get m e.1).getD 0))
  let buckets := s.bucketNext.foldl base s.buckets
  let ports := s.homes.ports.filterMap fun p =>
    let e := (Sparse.get s.bucketNext (p.1 % 4096)).getD 0
    let n := level e (p.2 + (Sparse.get s.homes.loans p.1).getD 0)
    if bucketRate e = 0 || some n == Sparse.get buckets (p.1 % 4096) then none else some (p.1, n)
  { s with bucketSet := s.bucketNext, buckets := buckets, homes := { s.homes with ports := ports, loans := [] } }

/-- A unit's request waits no longer. -/
def State.unitGoes (s : State) (n : Nat) : State :=
  if s.homes.stands.any (·.1 == n) then
    { s with homes := { s.homes with stands := s.homes.stands.filter (·.1 != n) } }
  else s

end Sys2Proof.Machine
end

