-- ==== Sys2Proof/Machine/Directory.lean ====
section
/-!
DEFINITION. Partitions, L1 copies, board directories and home agents, and what a transaction of a line does to them (05 R123 to
R128, R142, R457).
-/

namespace Sys2Proof.Machine

/-! ### Partitions (22 R349, 05 R127) -/

def State.leafOf (s : State) (core : Nat) : Option Leaf := s.leaves.find? fun l => l.node.hasCore core

/-- Whether a probe from a partition is dropped at the edge of the core's partition (R127). -/
def State.filtered (s : State) (leaf : Option Nat) (core : Nat) : Bool :=
  match leaf, s.leafOf core with
  | some l, some t => t.node.leafId != l
  | _, _ => false

def State.leafIdOf (s : State) (core : Nat) : Option Nat := (s.leafOf core).map (·.node.leafId)

/-- R127: the router's probe filter counter. -/
def State.countProbe (s : State) (core : Nat) : State :=
  { s with leaves := s.leaves.map fun l => if l.node.hasCore core then { l with probes := l.probes + 1 } else l }

/-! ### Directory entries (R123) -/

def dirKey (line board : Nat) : Nat := line * 8 + board

def State.dir? (s : State) (line board : Nat) : Option DirEntry := Sparse.get s.dirs (dirKey line board)

/-- An entry with no owner and no sharer is I. -/
def State.putDir (s : State) (line board : Nat) (e : DirEntry) : State :=
  if e.owner.isNone && e.sharers == .pointers [] then { s with dirs := Sparse.erase s.dirs (dirKey line board) }
  else { s with dirs := Sparse.put s.dirs (dirKey line board) e }

/-! ### The home agent (R128, R142) -/

def AgentEntry.idle : AgentEntry := { ownerBoard := none, boards := 0, host := .invalid, lease := 0 }

def State.agent (s : State) (line : Nat) : AgentEntry := (Sparse.get s.agents line).getD AgentEntry.idle

def State.setAgent (s : State) (line : Nat) (a : AgentEntry) : State :=
  if a == AgentEntry.idle then { s with agents := Sparse.erase s.agents line }
  else { s with agents := Sparse.put s.agents line a }

/-- R128: the owner board and the vector of the boards that hold a line, the owner's among them, from their directories. -/
def State.sumAgent (s : State) (line : Nat) : State :=
  s.setAgent line
    { s.agent line with
      ownerBoard := (List.range 8).find? fun b => ((s.dir? line b).bind (·.owner)).isSome
      boards := (List.range 8).foldl (fun m b => if (s.dir? line b).isSome then m ||| (1#8 <<< b) else m) 0 }

/-- A board's entry changes, and the home agent's with it. -/
def State.setDir (s : State) (line board : Nat) (e : DirEntry) : State := (s.putDir line board e).sumAgent line

/-- Whether the host must be snooped before a core is granted E or M (R142). -/
def State.needsBackInv (s : State) (line : Nat) : Bool := (s.agent line).host != .invalid

/-- R142: the snoop goes out once. -/
def State.sendBackInv (s : State) (line : Nat) : State :=
  if s.backInv.contains line then s else { s with backInv := s.backInv ++ [line], answers := s.answers ++ [.snoop line] }

def coarseOf (cores : List Nat) : BitVec 64 := cores.foldl (fun m c => m ||| (1#64 <<< islandBit c)) 0

/-- R123: a fifth sharer puts the entry into coarse mode. -/
def Sharers.add (x : Sharers) (core : Nat) : Sharers :=
  match x with
  | .pointers l =>
    if l.contains core then .pointers l
    else if l.length < 4 then .pointers (l ++ [core])
    else .coarse (coarseOf (l ++ [core]))
  | .coarse m => .coarse (m ||| (1#64 <<< islandBit core))

/-- The cores of an island of a board. -/
def islandCores (board i : Nat) : List Nat :=
  (List.range 16).map fun k => board * 1024 + (i / 8 * 4 + k / 4) * 32 + i % 8 * 4 + k % 4

/-- The cores that an Inv is sent to (R126). -/
def Sharers.probed (x : Sharers) (board core : Nat) : List Nat :=
  match x with
  | .pointers l => l.filter (· != core)
  | .coarse m => (((List.range 64).filter m.getLsbD).flatMap (islandCores board)).filter (· != core)

/-- The cores that a GetM of a core reaches, on every board. -/
def State.probedBy (s : State) (line core : Nat) : List Nat :=
  (List.range 8).flatMap fun b =>
    match s.dir? line b with
    | none => []
    | some e =>
      (match e.owner with
        | some (o, _) => if o = core then [] else [o]
        | none => []) ++ e.sharers.probed b core

/-! ### L1 copies -/

def State.l1 (s : State) (core line : Nat) : Option L1Line := Sparse.get (s.core core).l1 line

def State.setL1 (s : State) (core line : Nat) (l : L1Line) : State :=
  s.editCore core fun k => { k with l1 := Sparse.put k.l1 line l }

/-- A COHERENT copy goes, with the constant cache's (06 R155); a SWMANAGED copy is not tracked (R139). -/
def State.dropCopy (s : State) (core line : Nat) : State :=
  match s.l1 core line with
  | some l =>
    if l.swm.isSome then s
    else s.editCore core fun k =>
      { k with l1 := Sparse.erase k.l1 line, ccache := k.ccache.filter fun e => e / 4096 != line }
  | none => s

/-- An Inv at a core, or at its partition's router (R125, R127). -/
def State.probe (s : State) (leaf : Option Nat) (line core : Nat) : State :=
  if s.filtered leaf core then s.countProbe core else s.dropCopy core line

/-- The words of a line that hold an uncorrectable error (10 R218). -/
def State.badWords (s : State) (line : Nat) : BitVec 16 :=
  (List.range 16).foldl (fun m i => if s.poison.contains (line * 16 + i) then m ||| (1#16 <<< i) else m) 0

/-- A SWMANAGED line as a core sees it: its copy with the dirty mask, or the home's bytes (R139). -/
def State.swmBytes (s : State) (core line : Nat) : List (BitVec 8) × BitVec 128 :=
  match (s.l1 core line).bind (·.swm) with
  | some b => b
  | none => (Memory.getBytes s.mem (line * 128) 128, 0)

/-- The words of the line that the core sees with an uncorrectable error. -/
def State.swmBad (s : State) (core line : Nat) : BitVec 16 :=
  match s.l1 core line with
  | some l => if l.swm.isSome then l.bad else s.badWords line
  | none => s.badWords line

/-- A line that is no longer COHERENT is written at its home: the L1 copies that COHERENT accesses left stay valid with the bytes that they
have (05 R140; DESIGN CHOICE, log entry 79). -/
def State.keepCopies (s : State) (line : Nat) : State :=
  let bytes := Memory.getBytes s.mem (line * 128) 128
  { s with cores := Sparse.mapVals (fun _ k =>
      match Sparse.get k.l1 line with
      | some l =>
        if l.swm.isSome then k
        else { k with l1 := Sparse.put k.l1 line { state := .exclusive, reader := none, swm := some (bytes, 0), bad := s.badWords line } }
      | none => k) s.cores }

/-! ### Transactions -/

/-- An owner hears of another reader: M becomes O, E becomes S with its data in L2 (R125). The router of another partition drops
the probe, and the copy stays as it is (R127). -/
def State.downgrade (s : State) (leaf : Option Nat) (line board : Nat) : State :=
  match s.dir? line board with
  | none => s
  | some e =>
    match e.owner with
    | none => s
    | some (o, _) =>
      if s.filtered leaf o then (s.countProbe o).setDir line board { e with owner := some (o, .owned) }
      else
        match s.l1 o line with
        | some l =>
          if l.state == .modified || l.state == .owned then
            (s.setL1 o line { l with state := .owned }).setDir line board { e with owner := some (o, .owned) }
          else (s.setL1 o line { l with state := .shared }).setDir line board { owner := none, sharers := e.sharers.add o }
        | none => s.setDir line board { e with owner := none }

/-- No board holds the line: a GetS is granted E. -/
def State.unheld (s : State) (line : Nat) : Bool := (List.range 8).all fun b => (s.dir? line b).isNone

/-- What a home slice holds of a line that a core is about to make newer (15 R316), and the line's data back at its slice. -/
def State.keepOld (s : State) (line : Nat) : State :=
  if (Sparse.get s.homes.old line).isSome then s
  else { s with homes := { s.homes with old := Sparse.put s.homes.old line (Memory.getBytes s.mem (line * 128) 128) } }

def State.sliceCurrent (s : State) (line : Nat) : State :=
  if (Sparse.get s.homes.old line).isSome then { s with homes := { s.homes with old := Sparse.erase s.homes.old line } } else s

/-- The bytes that a home slice holds of a line. -/
def State.sliceBytes (s : State) (line : Nat) : List (BitVec 8) :=
  (Sparse.get s.homes.old line).getD (Memory.getBytes s.mem (line * 128) 128)

/-- Every copy is invalidated through the home, as a GetM from no core would (R457, R226, R142). -/
def State.invalidateAll (s : State) (leaf : Option Nat) (line : Nat) : State :=
  let s := (s.probedBy line 8192).foldl (fun s c => s.probe leaf line c) (s.sliceCurrent line)
  (List.range 8).foldl (fun s b => s.setDir line b { owner := none, sharers := .pointers [] }) s

/-- A dirty owner writes back and keeps its copy: M becomes E and O becomes S (R457, 10 R223). The router of another partition drops
the probe, and the copy stays as it is (R127). -/
def State.cleanOwner (s : State) (leaf : Option Nat) (line : Nat) : State :=
  (List.range 8).foldl (fun s b =>
    match s.dir? line b with
    | some e =>
      match e.owner with
      | some (o, _) =>
        match s.l1 o line with
        | some l =>
          if l.state != .modified && l.state != .owned then s
          else if s.filtered leaf o then s.countProbe o
          else if l.state == .modified then
            ((s.sliceCurrent line).setL1 o line { l with state := .exclusive }).setDir line b { e with owner := some (o, .exclusive) }
          else
            ((s.sliceCurrent line).setL1 o line { l with state := .shared }).setDir line b { owner := none, sharers := e.sharers.add o }
        | none => s
      | none => s
    | none => s) s

end Sys2Proof.Machine
end

