-- ==== Sys2Proof/Machine/Protocol.lean ====
section
/-!
DEFINITION. The coherence messages about a line, and who waits for it at its home (05 R124 to R128, R142, 04 R113).
-/

namespace Sys2Proof.Machine

/-- The owner of a line, if a core holds it in E, M or O. -/
def State.ownerOf (s : State) (line : Nat) : Option Nat :=
  (List.range 8).findSome? fun b => ((s.dir? line b).bind (·.owner)).map (·.1)

/-! ### Messages (R125 to R127): requests and evictions that cores make on their own (10 R223, 04 R106) -/

def State.send (s : State) (line core : Nat) (k : MsgKind) : State := { s with msgs := s.msgs ++ [⟨line, core, k⟩] }

def State.editMshr (s : State) (core line : Nat) (g : Option Mshr → Option Mshr) : State :=
  s.editCore core fun k =>
    { k with mshr := match g (Sparse.get k.mshr line) with
        | some m => Sparse.put k.mshr line m
        | none => Sparse.erase k.mshr line }

/-- A core asks for a line (10 R223, PREF). -/
def State.request (s : State) (core line : Nat) (k : MsgKind) : State :=
  if (Sparse.get (s.core core).mshr line).isSome then s
  else (s.editMshr core line fun _ => some { want := k, grant := none, wanted := none, got := 0 }).send line core k

/-- A core drops a COHERENT line: PutS, or PutE, PutM or PutO with the line in its eviction buffer (R125). A line of which a request is
outstanding stays. -/
def State.putLine (s : State) (core line : Nat) : State :=
  match s.l1 core line with
  | none => s
  | some l =>
    if l.swm.isSome || (Sparse.get (s.core core).mshr line).isSome then s
    else
      let k : MsgKind := if l.state == .shared then .putS else .putOwner (l.state == .modified || l.state == .owned)
      let s := s.dropCopy core line
      (s.editMshr core line fun _ => some { want := k, grant := none, wanted := none, got := 0 }).send line core k

/-- Whether a transaction of the line is in progress at the home (R124): a probe, or a grant with its acknowledgements. -/
def State.inProgress (s : State) (line : Nat) : Bool :=
  s.msgs.any fun m => m.line == line &&
    (match m.kind with
      | .inv _ => true
      | .fwdGetS _ => true
      | .fwdGetM _ => true
      | .data _ => true
      | .ackCount _ => true
      | .invAck => true
      | .boardAck _ => true
      | .invAcks _ => true
      | _ => false)

/-- Take the first message of a kind about a line, from or to a core. -/
def State.takeMsg (s : State) (line core : Nat) (p : MsgKind → Bool) : Option (MsgKind × State) :=
  match s.msgs.find? (fun m => m.line == line && m.core == core && p m.kind) with
  | none => none
  | some m => some (m.kind, { s with msgs := s.msgs.erase m })

/-- The board and the state of a line's owner, and the owner. -/
def State.ownerEntry (s : State) (line : Nat) : Option (Nat × Nat × Moesi) :=
  (List.range 8).findSome? fun b => ((s.dir? line b).bind (·.owner)).map fun o => (b, o)

/-- GetS at the home (R125). A line owned in O has no row of its own; it is forwarded as for M (DESIGN CHOICE, log entry 64). -/
def State.homeGetS (s : State) (line core : Nat) : State :=
  let b := boardOf core
  match s.ownerEntry line with
  | some (_, o, _) => s.send line o (.fwdGetS core)
  | none =>
    if s.unheld line then
      (s.setDir line b { owner := some (core, .exclusive), sharers := .pointers [] }).send line core (.data .exclusive)
    else
      let e := (s.dir? line b).getD { owner := none, sharers := .pointers [] }
      (s.setDir line b { e with sharers := e.sharers.add core }).send line core (.data .shared)

/-- The sharers of a line that a GetM of a core reaches, on every board: each board's count is R126's, 16 for each marked island in
coarse mode, and the requester's home sums them (R128). -/
def State.sharersProbed (s : State) (line core : Nat) : List Nat :=
  (List.range 8).flatMap fun b => match s.dir? line b with | some e => e.sharers.probed b core | none => []

/-- The boards other than the requester's whose cores a GetM reaches: each acknowledges once, when its own cores have (R128). -/
def State.expectAcks (s : State) (line core : Nat) (targets : List Nat) : State :=
  (List.range 8).foldl (fun s b =>
    let n := (targets.filter fun c => boardOf c == b).length
    if b = boardOf core || n = 0 then s
    else { s with homes := { s.homes with acks := Sparse.put s.homes.acks (dirKey line b) (n, n) } }) s

/-- GetM or Upgrade at the home. -/
def State.homeGetM (s : State) (line core : Nat) (upgrade : Bool) : State :=
  let b := boardOf core
  let owner := s.ownerEntry line
  let targets := s.sharersProbed line core
  let sharer := match (s.dir? line b).map (·.sharers) with
    | some (.pointers l) => l.contains core
    | some (.coarse m) => m.getLsbD (islandBit core)
    | none => false
  let s := targets.foldl (fun s c => s.send line c (.inv core)) (s.expectAcks line core targets)
  let s :=
    match owner with
    | some (_, o, _) => if o = core then s.send line core (.data .modified) else s.send line o (.fwdGetM core)
    | none => if upgrade && sharer && (s.l1 core line).isSome then s else s.send line core (.data .modified)
  let s := s.send line core (.ackCount targets.length)
  let s := (List.range 8).foldl (fun s o => s.setDir line o { owner := none, sharers := .pointers [] }) s
  s.setDir line b { owner := some (core, .modified), sharers := .pointers [] }

/-- A Put at the home (the last rows of R125). -/
def State.homePut (s : State) (line core : Nat) (owner : Bool) : State :=
  let b := boardOf core
  let fwd := s.msgs.any fun m => m.line == line && m.core == core &&
    (match m.kind with | .fwdGetS _ => true | .fwdGetM _ => true | _ => false)
  let inv := s.msgs.any fun m => m.line == line && m.core == core && (match m.kind with | .inv _ => true | _ => false)
  match s.dir? line b with
  | none => s.send line core (.putAck (!inv))
  | some e =>
    if owner then
      if fwd then s.send line core (.putAck true)
      else
        match e.owner with
        | some (o, _) =>
          if o = core then ((s.sliceCurrent line).setDir line b { e with owner := none }).send line core (.putAck false)
          else s.send line core (.putAck true)
        | none => s.send line core (.putAck true)
    else if inv then s.send line core (.putAck false)
    else
      match e.sharers with
      | .pointers l =>
        if l.contains core then
          (s.setDir line b { e with sharers := .pointers (l.filter (· != core)) }).send line core (.putAck false)
        else s.send line core (.putAck true)
      | .coarse m => s.send line core (.putAck (!m.getLsbD (islandBit core)))

/-- A core's acknowledgement of an Inv, to a requester of its own board or to its board (R128; DESIGN CHOICE, log entry 96). -/
def State.ackInv (s : State) (line core req : Nat) : State :=
  if boardOf core = boardOf req then s.send line req .invAck else s.send line core (.boardAck req)

/-- A board counts an acknowledgement of one of its cores, and sends its own with the last (R128). -/
def State.countAck (s : State) (line core req : Nat) : State :=
  let key := dirKey line (boardOf core)
  match Sparse.get s.homes.acks key with
  | none => s
  | some (left, total) =>
    if left ≤ 1 then { s with homes := { s.homes with acks := Sparse.erase s.homes.acks key } }.send line req (.invAcks total)
    else { s with homes := { s.homes with acks := Sparse.put s.homes.acks key (left - 1, total) } }

/-- An Inv at a core, which answers it whether or not it holds the line. -/
def State.coreInv (s : State) (line core req : Nat) : State := (s.dropCopy core line).ackInv line core req

/-- A core becomes a sharer in its own board's entry. -/
def State.addSharer (s : State) (line core : Nat) : State :=
  let e := (s.dir? line (boardOf core)).getD { owner := none, sharers := .pointers [] }
  s.setDir line (boardOf core) { e with sharers := e.sharers.add core }

/-- The owner's board knows what became of the owner. -/
def State.setOwner (s : State) (line board : Nat) (o : Option (Nat × Moesi)) : State :=
  s.setDir line board { (s.dir? line board).getD { owner := none, sharers := .pointers [] } with owner := o }

/-- R127: an Inv at the router of another partition than the requester's, which answers it. -/
def State.routerInv (s : State) (line core req : Nat) : State := (s.countProbe core).ackInv line core req

/-- R127: a Fwd at the router of another partition. The home has the router's answer and gives the requester its own data
(DEDUCED, log entry 30). -/
def State.routerFwd (s : State) (line core req : Nat) (reads : Bool) : State :=
  let s := s.countProbe core
  if reads then ((s.setOwner line (boardOf core) (some (core, .owned))).addSharer line req).send line req (.data .shared)
  else s.send line req (.data .modified)

/-- The data of an owner is dirty, in its L1 or in its eviction buffer. -/
def State.dirtyAt (s : State) (core line : Nat) : Bool :=
  match s.l1 core line with
  | some l => l.state == .modified || l.state == .owned
  | none => (Sparse.get (s.core core).mshr line).map (·.want) != some (.putOwner false)

/-- The state of a core's copy of a line. -/
def State.setL1State (s : State) (core line : Nat) (m : Moesi) : State :=
  match s.l1 core line with
  | some l => s.setL1 core line { l with state := m }
  | none => s

/-- Fwd-GetS at an owner, served from the L1 or from the eviction buffer, whose next state is the same row's (R125). -/
def State.coreFwdGetS (s : State) (line core req : Nat) : State :=
  let s := s.send line req (.data .shared)
  if s.dirtyAt core line then
    ((s.setL1State core line .owned).setOwner line (boardOf core) (some (core, .owned))).addSharer line req
  else ((s.setL1State core line .shared).setOwner line (boardOf core) none).addSharer line core |>.addSharer line req

def State.coreFwdGetM (s : State) (line core req : Nat) : State := (s.dropCopy core line).send line req (.data .modified)

/-- What a requester has received completes its request once the data or grant and every announced acknowledgement are
there (R125). -/
def State.finishRequest (s : State) (line core : Nat) : State :=
  match Sparse.get (s.core core).mshr line with
  | none => s
  | some m =>
    let acks := match m.want with
      | .getS => true
      | _ => m.wanted == some m.got
    let state : Option Moesi := match m.grant with
      | some st => some st
      | none => if m.want == .upgrade && (s.l1 core line).isSome then some .modified else none
    match state with
    | some st =>
      if acks then
        let s := (s.editMshr core line fun _ => none).setL1 core line
          { state := st, reader := (s.l1 core line).bind (·.reader), swm := none }
        if m.want == .getS then s else s.editCore core fun k => { k with acks := m.got }
      else s
    | none => s

/-- Data, a grant or an acknowledgement at the requester. -/
def State.response (s : State) (line core : Nat) (k : MsgKind) : State :=
  let note (g : Mshr → Mshr) : State := (s.editMshr core line fun m => m.map g).finishRequest line core
  match k with
  | .data st => note fun m => { m with grant := some st }
  | .ackCount n => note fun m => { m with wanted := some n }
  | .invAck => note fun m => { m with got := m.got + 1 }
  | .invAcks n => note fun m => { m with got := m.got + n }
  | _ => s

/-- Handle one message, whichever it is. -/
def State.deliverMsg (s : State) (m : CohMsg) : State :=
  match m.kind with
  | .getS => s.homeGetS m.line m.core
  | .getM => s.homeGetM m.line m.core false
  | .upgrade => s.homeGetM m.line m.core true
  | .putS => s.homePut m.line m.core false
  | .putOwner _ => s.homePut m.line m.core true
  | .inv r => if s.filtered (s.leafIdOf r) m.core then s.routerInv m.line m.core r else s.coreInv m.line m.core r
  | .fwdGetS r =>
    if s.filtered (s.leafIdOf r) m.core then s.routerFwd m.line m.core r true else s.coreFwdGetS m.line m.core r
  | .fwdGetM r =>
    if s.filtered (s.leafIdOf r) m.core then s.routerFwd m.line m.core r false else s.coreFwdGetM m.line m.core r
  | .putAck _ => s.editMshr m.core m.line fun _ => none
  | .boardAck r => s.countAck m.line m.core r
  | k => s.response m.line m.core k

/-! ### One transaction at a time (R124, R142, 04 R113) -/

/-- The home holds accesses of a line back: a CPYROW or a zero fill is at it, writes also where it reads it (04 R113), or the host's
copy is being taken back (R142). -/
def State.lineHeld (s : State) (line : Nat) (write : Bool) : Bool :=
  s.busy.contains line || s.backInv.contains line || (write && s.frozen.contains line)

/-- A request of a core that begins a transaction at the home. -/
def MsgKind.isRequest : MsgKind → Bool
  | .getS => true
  | .getM => true
  | .upgrade => true
  | _ => false

/-- The request would be granted E or M on a line that the host holds (R142). -/
def State.wantsHost (s : State) (m : CohMsg) : Bool :=
  s.needsBackInv m.line && (m.kind != .getS || s.unheld m.line)

/-- The home takes the request that came first: it handles it, waits for the host first, or waits for the line. -/
def State.takeRequest (s : State) (m : CohMsg) : State :=
  if s.lineHeld m.line (m.kind != .getS) then s
  else if s.wantsHost m then s.sendBackInv m.line
  else { s with msgs := s.msgs.erase m }.deliverMsg m

/-- An eviction that is still on its way to the home from another core than the one that asks: it may cross what follows (the last rows of
R125). -/
def CohMsg.crosses (m : CohMsg) (asks : Option Nat) : Bool :=
  match asks with
  | none => false
  | some core => m.core != core && (match m.kind with | .putS => true | .putOwner _ => true | _ => false)

/-- The messages about a line run out before another transaction of the line begins: first those of the transaction in
progress, then the requests in their order of arrival. A request that the line or the host holds up keeps its place, and so do evictions that
may cross what core `asks` is about to ask. -/
def State.settleLine (s : State) (line : Nat) (asks : Option Nat) : Nat → State
  | 0 => s
  | fuel + 1 =>
    match s.msgs.find? (fun m => m.line == line && !m.kind.isRequest && !m.crosses asks) with
    | some m => State.settleLine ({ s with msgs := s.msgs.erase m }.deliverMsg m) line asks fuel
    | none =>
      match s.msgs.find? (fun m => m.line == line && m.kind.isRequest) with
      | none => s
      | some m =>
        let t := s.takeRequest m
        if t.msgs.contains m then t else State.settleLine t line asks fuel

/-- What may run of the line's messages runs. -/
def State.settleFor (s : State) (asks : Option Nat) (line : Nat) : State :=
  if s.msgs.any (fun m => m.line == line) then s.settleLine line asks (16400 * (s.msgs.length + 1)) else s

def State.settle (s : State) (line : Nat) : State := s.settleFor none line

/-! ### Requests of an access, to their end (R125, R126) -/

/-- A request for the line that a PREF of the core has pending is dropped (10 R223). -/
def State.dropRequest (s : State) (core line : Nat) : State :=
  { s with msgs := s.msgs.filter fun m => !(m.line == line && m.core == core && m.kind.isRequest) }.editMshr core line fun _ => none

/-- A core's request for a line reaches the home, and its transaction runs to its end. -/
def State.acquire (s : State) (core line : Nat) (k : MsgKind) : State :=
  let s := (s.dropRequest core line).editMshr core line fun _ => some { want := k, grant := none, wanted := none, got := 0 }
  (s.deliverMsg ⟨line, core, k⟩).settle line

/-- GetS of a core: it holds the line in E where nobody else does, in S otherwise. -/
def State.getS (s : State) (core line : Nat) : State := if (s.l1 core line).isSome then s else s.acquire core line .getS

/-- GetM or Upgrade of a core that is about to write: it holds the line in M, and its slice what it held before. -/
def State.getM (s : State) (core line : Nat) : State :=
  let t : State := match s.l1 core line with
    | none => s.acquire core line .getM
    | some l =>
      if l.state == .modified then s
      else if l.state == .exclusive then s.setL1 core line { l with state := .modified }
      else s.acquire core line .upgrade
  t.keepOld line

/-- A line that an access finds held at its home, or one at which an earlier request waits; a read does not wait for the writes that a
CPYROW holds back. -/
def State.heldFor (s : State) (who : Requester) (lines : List Nat) (write : Bool) : Option Nat :=
  lines.find? fun l => s.lineHeld l write || ((write || !s.frozen.contains l) && s.mustQueue who (linePlace l))

/-! ### Requests at a home -/

/-- What an access asks of a line: `slice` is the TID of its page where a request goes to the line's home slice, and `takes` says of a line
under the directory whether it is taken, and not only read. A zero-length write (`empty`) leaves the L2 line as it is (04 R114), and a fault
record (`free`) takes no token (04 R110). -/
structure Ask where
  line : Nat
  slice : Option Nat
  takes : Option Bool
  empty : Bool := false
  free : Bool := false
  deriving DecidableEq, Repr

/-- The ports at which requests take tokens. -/
def asked (l : List Ask) : List Nat := (l.filter fun a => a.slice.isSome && !a.free).map fun a => portOf a.line

/-- The host must give the line up first (R142). -/
def State.hostFirst (s : State) (a : Ask) : Bool :=
  s.needsBackInv a.line && match a.takes with | some true => true | some false => s.unheld a.line | none => false

/-- The core whose L1 asks. -/
def State.asksFor (s : State) : Requester → Option Nat
  | .issuer => (s.cur.bind (Sparse.get s.strands)).map (·.core)
  | _ => none

/-- The L2 line of a request at a slice is touched. -/
def State.touchFor (s : State) (ctx : Nat) (a : Ask) : State :=
  match a.slice with
  | some tid => if a.empty then s else s.touchL2 ctx tid a.line
  | none => s

/-- The requests of a context's access: those at home slices each take a token (04 R110), the earlier messages about the lines run out, and
none goes on while a line is held or the host must give one up. The lines at the slices are touched in L2 (04 R106, R107). -/
def State.askHome (s : State) (who : Requester) (ctx : Nat) (l : List Ask) (write : Bool) : Option Await × State :=
  match s.takeTokens who ctx (asked l) with
  | (some port, s) => (some (.token ctx port), s)
  | (none, s) =>
    let s := l.foldl (fun s a => s.settleFor (s.asksFor who) a.line) s
    let keep (s : State) : State := if s.hasBucket ctx then s.keepTokens who ctx (asked l) else s
    match s.heldFor who (l.map (·.line)) write with
    | some line => (some (.busy line), keep s)
    | none =>
      match l.find? s.hostFirst with
      | some a => (some (.busy a.line), keep (s.sendBackInv a.line))
      | none => (none, l.foldl (fun s a => s.touchFor ctx a) s)

/-- The requests of several, each as `askHome` has it: who waits where one must wait, whether for a write, and for what. The tokens that
the others have taken stay with them. -/
def State.askEach (s : State) : List (Requester × Nat × List Ask × Bool) → Option (Requester × Bool × Await) × State
  | [] => (none, s)
  | (who, ctx, l, write) :: rest =>
    match s.askHome who ctx l write with
    | (some a, s) => (some (who, write, a), s)
    | (none, s) =>
      match State.askEach s rest with
      | (none, s) => (none, s)
      | (some w, s) => (some w, if s.hasBucket ctx then s.keepTokens who ctx (asked l) else s)

/-- What a request at a home waits for is there: `no` is its number in the order of arrival. -/
def State.homeMet (s : State) (a : Await) (no : Nat) : Bool :=
  match a with
  | .busy line =>
    !s.busy.contains line && !s.frozen.contains line && !s.backInv.contains line && !s.queuedBefore (linePlace line) no
  | .token ctx port => (s.payer ctx port).isSome && !s.queuedBefore (portPlace ctx port) no
  | .tier ctx unit => (match s.moving with | some m => !(m.ctx == ctx && m.entry == unit) | none => true)
  | _ => true

/-- Where a request stands that must wait: none where others do not wait in its order. -/
def Await.stand (a : Await) (old : Option (Nat × Nat)) (now : Nat) : Option (Nat × Nat) :=
  match a with
  | .busy line => some (queueAt old (linePlace line) now)
  | .token ctx port => some (queueAt old (portPlace ctx port) now)
  | .link core dir => some (queueAt old (linkPlace core dir) now)
  | .stepped uid => some (queueAt old (strandPlace uid) now)
  | _ => none

/-- A unit's request waits, behind those that wait there already. -/
def State.standUnit (s : State) (n : Nat) (a : Await) : State :=
  let old := s.queuedOf (.unit n)
  match a.stand old s.order with
  | none => s.unitGoes n
  | some q =>
    if old == some q then s
    else { s with homes := { s.homes with stands := s.homes.stands.filter (·.1 != n) ++ [(n, q.1, q.2)] }, order := s.order + 1 }

/-- 04 R98: a scratchpad outside the rectangle of the accessing strand's launch, where a strand accesses it, or in another partition. -/
def State.foreignScratch (s : State) (core : Nat) (lrec : Option Nat) (pa : Nat) : Bool :=
  match zoneOf s.tierCap pa with
  | .scratch o =>
    let inside := match lrec.map (Sparse.get s.launches) with
      | some (some l) => l.rect.hasCore o
      | some none => o == core
      | none => true
    !(inside && s.leafIdOf o == s.leafIdOf core)
  | _ => false

/-- The tier link of an address is down (24 R422). -/
def State.tierDown (s : State) (pa : Nat) : Bool :=
  zoneOf s.tierCap pa == .tier && !((s.tiers[bitsOf pa 20 19]?).map (·.up)).getD false

end Sys2Proof.Machine
end

