-- ==== Sys2Proof/Machine/Translate.lean ====
section
/-!
DEFINITION. Translation: the four-level walk, its failures, the A and D bits and the translation caches
(04 R90 to R94, 22 R364, 23 R393).
-/

namespace Sys2Proof.Machine

/-- Why an access cannot go on: a trap with its cause, extra information and address (13 R311 to R313), or a wait. -/
inductive Problem where
  | trap (cause extra : Nat) (addr : BitVec 64)
  | wait (a : Await)
  deriving DecidableEq, Repr

/-! The trap causes (13 R311, 28 R455). -/
namespace Cause
abbrev illegalOpcode : Nat := 1
abbrev illegalForm : Nat := 2
abbrev unsupported : Nat := 3
abbrev illegalTarget : Nat := 4
abbrev formatMismatch : Nat := 5
abbrev pageFault : Nat := 6
abbrev protection : Nat := 7
abbrev undeclared : Nat := 8
abbrev race : Nat := 9
abbrev remoteLoadFail : Nat := 10
abbrev memoryUe : Nat := 11
abbrev alignment : Nat := 12
abbrev arith : Nat := 13
abbrev throwUnhandled : Nat := 14
abbrev queueMisuse : Nat := 15
abbrev trap : Nat := 16
abbrev authority : Nat := 17
abbrev migrateState : Nat := 18
abbrev step : Nat := 19
abbrev brk : Nat := 20
end Cause

/-- The kinds of access that the walk tells apart (R93, R94, 06 R156). -/
inductive Acc where
  | read | write | zeroWrite | fetch | map
  deriving DecidableEq, Repr

def Acc.writes : Acc → Bool
  | .write => true
  | .zeroWrite => true
  | _ => false

/-- A translated address with the page's attributes (R91). -/
structure Xlat where
  pa : Nat
  mig : Bool
  mside : Bool
  rmap : Bool
  swm : Bool
  tid : Nat
  deriving DecidableEq, Repr

/-! ### Table entries (R91 to R93) -/

def pteV (e : BitVec 64) : Bool := e.getLsbD 0
def pteX (e : BitVec 64) : Bool := e.getLsbD 1
def pteW (e : BitVec 64) : Bool := e.getLsbD 2
def pteL (e : BitVec 64) : Bool := e.getLsbD 3
def pteSz (e : BitVec 64) : Nat := field e 5 4
def pteD (e : BitVec 64) : Bool := e.getLsbD 7
def pteA (e : BitVec 64) : Bool := e.getLsbD 8
def pteFrame (e : BitVec 64) : Nat := field e 51 12 * 4096
def pteSwm (e : BitVec 64) : Bool := e.getLsbD 60
def pteRmap (e : BitVec 64) : Bool := e.getLsbD 61
def pteMside (e : BitVec 64) : Bool := e.getLsbD 62
def pteMig (e : BitVec 64) : Bool := e.getLsbD 63

/-- The page size of SZ, in bits (R91). -/
def pageBits (sz : Nat) : Nat :=
  match sz with
  | 0 => 12
  | 1 => 16
  | 2 => 21
  | _ => 30

/-- An entry with L = 0 has V = 1, its PFN, and every other field zero (R91). -/
def pointerOk (e : BitVec 64) : Bool := field e 11 1 == 0 && field e 63 52 == 0

/-- A leaf's fields at a level whose page size SZ has (R91, R93 row 2). -/
def leafOk (tierCap : Nat) (e : BitVec 64) (sz : Nat) : Bool :=
  field e 11 9 == 0 && !e.getLsbD 6 && pteSz e == sz && pteFrame e % 2 ^ pageBits sz == 0 &&
  (!pteRmap e || sz == 1) && (!(pteMside e || pteRmap e) || zoneOf tierCap (pteFrame e) == .hbm)

/-- A step of the walk: a leaf at an address, or the next table, or a failure with its extra information. -/
inductive Walk where
  | leaf (e : BitVec 64) (addr bits : Nat)
  | fail (extra : Nat)
  deriving DecidableEq, Repr

/-- The level-4 step (R92). -/
def State.walk4 (s : State) (table va : Nat) : Walk :=
  let idx := bitsOf va 20 12
  let big := table + 8 * (idx / 16 * 16)
  let e16 := s.word big
  if pteV e16 && pteL e16 && pteSz e16 == 1 then
    if leafOk s.tierCap e16 1 then .leaf e16 big 16 else .fail 0x14
  else
    let e := s.word (table + 8 * idx)
    if !pteV e then .fail 4
    else if pteL e && leafOk s.tierCap e 0 then .leaf e (table + 8 * idx) 12
    else .fail 0x14

/-- Levels 2 and 3: a leaf of the level's page size, or the next table. A table in no region of R95 reads as zero words, so that the walk
fails at its level; whether it is PROTECTION 0x04 the spec does not say (DESIGN CHOICE, log entry 63). -/
def State.walkMid (s : State) (level table idx sz : Nat) (next : Nat → Walk) : Walk :=
  let e := s.word (table + 8 * idx)
  if !pteV e then .fail level
  else if pteL e then (if leafOk s.tierCap e sz then .leaf e (table + 8 * idx) (pageBits sz) else .fail (0x10 + level))
  else if pointerOk e then next (pteFrame e)
  else .fail (0x10 + level)

/-- Where the level-1 table of a CTXROOT stands: a multiple of 2 MiB (R90), so that lower bits of CTXROOT name nothing (DESIGN CHOICE, log
entry 52). -/
def tableAt (root : Nat) : Nat := root / 0x200000 * 0x200000

/-- The walk of a virtual address below 2^57 from CTXROOT (R90; DEDUCED, log entry 52). -/
def State.walk (s : State) (root va : Nat) : Walk :=
  let e := s.word (tableAt root + 8 * bitsOf va 56 39)
  if !pteV e then .fail 1
  else if pteL e || !pointerOk e then .fail 0x11
  else
    s.walkMid 2 (pteFrame e) (bitsOf va 38 30) 3 fun t3 =>
      s.walkMid 3 t3 (bitsOf va 29 21) 2 fun t4 => s.walk4 t4 va

/-- The entries that the walk reads, from the root on. -/
def State.walkReads (s : State) (root va : Nat) : List Nat :=
  let a1 := tableAt root + 8 * bitsOf va 56 39
  let below (a : Nat) (next : Nat → List Nat) : List Nat :=
    let e := s.word a
    a :: if pteV e && !pteL e && pointerOk e then next (pteFrame e) else []
  below a1 fun t2 => below (t2 + 8 * bitsOf va 38 30) fun t3 => below (t3 + 8 * bitsOf va 29 21) fun t4 =>
    let idx := bitsOf va 20 12
    let big := t4 + 8 * (idx / 16 * 16)
    let e := s.word big
    if (pteV e && pteL e && pteSz e == 1) || idx % 16 == 0 then [big] else [big, t4 + 8 * idx]

/-! ### Translation caches (22 R364) -/

/-- The caches of a core: its data TLB, its instruction TLB, the micro-TLB of an engine. -/
inductive TlbId where
  | data | instr
  | engine (e : Nat)
  deriving DecidableEq, Repr

def TlbId.size : TlbId → Nat
  | .data => 64
  | _ => 32

/-- The engines of a core: 0 the matrix unit, 1 the copy engine (11 R240). -/
def Core.engine (k : Core) (e : Nat) : Engine := if e = 0 then k.mx else k.ce

def Core.editEngine (k : Core) (e : Nat) (g : Engine → Engine) : Core :=
  if e = 0 then { k with mx := g k.mx } else { k with ce := g k.ce }

def Core.tlbOf (k : Core) : TlbId → List TlbEntry
  | .data => k.tlb
  | .instr => k.itlb
  | .engine e => (k.engine e).tlb

def Core.editTlb (k : Core) (id : TlbId) (g : List TlbEntry → List TlbEntry) : Core :=
  match id with
  | .data => { k with tlb := g k.tlb }
  | .instr => { k with itlb := g k.itlb }
  | .engine e => k.editEngine e fun x => { x with tlb := g x.tlb }

/-- The translations that a core caches. -/
def Core.entries (k : Core) : List TlbEntry := k.tlb ++ k.itlb ++ k.mx.tlb ++ k.ce.tlb

def TlbEntry.hits (t : TlbEntry) (ctx va : Nat) : Bool := t.ctx == ctx && t.page == va >>> t.bits

/-- A translation enters a cache of a size, replacing one of the same page, or one that must make room. -/
def tlbAdd (size now : Nat) (t : TlbEntry) (l : List TlbEntry) : List TlbEntry :=
  let l := l.filter fun u => !(u.ctx == t.ctx && u.page == t.page && u.bits == t.bits)
  t :: if l.length < size then l else l.eraseIdx (Config.victim now t.page % l.length)

def State.boardList (s : State) (core : Nat) : List TlbEntry := (Sparse.get s.boardTlb (boardOf core)).getD []

/-- A translation enters a cache of the core. -/
def State.tlbKeep (s : State) (core : Nat) (id : TlbId) (t : TlbEntry) : State :=
  s.editCore core fun k => k.editTlb id (tlbAdd id.size s.order t)

/-- A translation enters a cache of the core and the board's. -/
def State.tlbFill (s : State) (core : Nat) (id : TlbId) (t : TlbEntry) : State :=
  let s := s.tlbKeep core id t
  { s with boardTlb := Sparse.put s.boardTlb (boardOf core) (tlbAdd 8192 s.order t (s.boardList core)) }

/-- A core's translations without those that a predicate names. -/
def Core.dropTlb (k : Core) (p : TlbEntry → Bool) : Core :=
  let out (l : List TlbEntry) : List TlbEntry := l.filter fun t => !p t
  { k with tlb := out k.tlb, itlb := out k.itlb, mx := { k.mx with tlb := out k.mx.tlb }, ce := { k.ce with tlb := out k.ce.tlb } }

/-- A save without the translations that a predicate names. -/
def Saved.dropTlb (v : Saved) (p : TlbEntry → Bool) : Saved :=
  let out (l : List TlbEntry) : List TlbEntry := l.filter fun t => !p t
  { v with cores := v.cores.map fun k =>
      { k with tlb := out k.tlb, itlb := out k.itlb, mx := { k.mx with tlb := out k.mx.tlb }, ce := { k.ce with tlb := out k.ce.tlb } } }

/-- Drop the cached translations that a predicate names, in every cache of the module (13 R309), and those that saves hold (23 R388;
DESIGN CHOICE, log entry 22). -/
def State.tlbDrop (s : State) (p : TlbEntry → Bool) : State :=
  { s with
    saves := Sparse.mapVals (fun _ v => v.dropTlb p) s.saves
    cores := Sparse.mapVals (fun _ k => k.dropTlb p) s.cores
    boardTlb := Sparse.mapVals (fun _ l => l.filter (fun t => !p t)) s.boardTlb }

/-- The unit of the castling map that a moving unit has, by context and VA[56:16] (23 R390). -/
def State.unitMoving (s : State) (ctx va : Nat) : Option Nat :=
  match s.moving, s.ctx? ctx with
  | some m, some c =>
    let unit := field (s.word (c.castMap + 16 * m.entry)) 40 0
    if m.ctx = ctx ∧ unit = bitsOf va 56 16 then some m.entry else none
  | _, _ => none

/-- The aligned word of an entry (R91). -/
def entryAt (addr : Nat) : Nat := addr / 8 * 8

/-- Set bits of a table entry where it lies (R94). The write fires watches and rechecks its bucket when the turn ends (R102, 10 R234). -/
def State.orEntry (s : State) (addr : Nat) (bits : BitVec 64) : State :=
  let s := s.store (entryAt addr) 8 (s.word (entryAt addr) ||| bits).toNat
  { s with homes := { s.homes with unheard := s.homes.unheard ++ [addr] } }

/-- An address whose line has a home slice: in HBM, in second-tier memory, or in a host window (R97, R456). -/
def State.inSlices (s : State) (pa : Nat) : Bool :=
  match zoneOf s.tierCap pa with
  | .hbm => true
  | .tier => true
  | .host => true
  | _ => false

/-- Who asks for a translation: an engine of the core, the stream that issues, or another unit. -/
def State.asker (s : State) (core : Nat) (eng unit : Option Nat) : Requester :=
  match eng, unit, s.cur with
  | some e, _, _ => .engine core e
  | none, some n, _ => .unit n
  | none, none, some _ => .issuer
  | none, none, none => .unit (coreUnit core)

/-- What a table entry at an address asks of its home, to be read or to take a bit (04 R94, R110). -/
def State.entryAsk (s : State) (a : Nat) : Ask := { line := lineOf a, slice := if s.inSlices a then some 0 else none, takes := none }

/-- What a walk asks of the homes: it reads entries, and sets A in a leaf where it is clear. -/
def State.walkAsks (s : State) (ctx root va : Nat) (who : Requester) : List (Requester × Nat × List Ask × Bool) :=
  (who, ctx, (s.walkReads root va).map s.entryAsk, false) ::
    match s.walk root va with
    | .leaf e addr _ => if pteA e then [] else [(who, ctx, [s.entryAsk addr], true)]
    | .fail _ => []

/-- The leaf for an address by a walk, which reads the table entries at their homes (R110), sets A where it is clear and fills the
caches (R94). -/
def State.fillLeaf (s : State) (core ctx root va : Nat) (id : TlbId) (who : Requester) : Except Problem TlbEntry × State :=
  match s.askEach (s.walkAsks ctx root va who) with
  | (some w, s) => (.error (.wait w.2.2), s)
  | (none, s) =>
    match s.walk root va with
    | .fail x => (.error (.trap Cause.pageFault x (BitVec.ofNat 64 va)), s)
    | .leaf e addr bits =>
      let s := if pteA e then s else s.orEntry addr 0x100
      let t : TlbEntry := { ctx := ctx, page := va >>> bits, bits := bits, leaf := s.word addr, at_ := addr }
      (.ok t, s.tlbFill core id t)

/-- The translation that the core's cache or the board's holds. -/
def State.tlbFind (s : State) (core ctx va : Nat) (id : TlbId) : Option TlbEntry :=
  match ((s.core core).tlbOf id).find? (·.hits ctx va) with
  | some t => some t
  | none => (s.boardList core).find? (·.hits ctx va)

/-- The leaf for an address: from the core's cache, from the board's, or by a walk. -/
def State.findLeaf (s : State) (core ctx root va : Nat) (id : TlbId) (who : Requester) : Except Problem TlbEntry × State :=
  match ((s.core core).tlbOf id).find? (·.hits ctx va) with
  | some t => (.ok t, s)
  | none =>
    match (s.boardList core).find? (·.hits ctx va) with
    | some t => (.ok t, s.tlbKeep core id t)
    | none => s.fillLeaf core ctx root va id who

/-- The cache that an access of a core, or of one of its engines, is translated by. -/
def Acc.tlb (a : Acc) (eng : Option Nat) : TlbId :=
  match eng, a with
  | some e, _ => .engine e
  | none, .fetch => .instr
  | none, .map => .instr
  | none, _ => .data

/-- Translate an address for an access of a context, made from a core or by one of its engines (R90, R93; DEDUCED, log entry 56). -/
def State.translate (s : State) (core ctx : Nat) (va : BitVec 64) (acc : Acc) (eng unit : Option Nat := none) :
    Except Problem Xlat × State :=
  if 2 ^ 57 ≤ va.toNat then (.error (.trap Cause.protection 0x01 va), s)
  else
    match s.ctx? ctx with
    | none => (.error (.trap Cause.pageFault 1 va), s)
    | some c =>
      match s.unitMoving ctx va.toNat with
      | some e => (.error (.wait (.tier ctx e)), s)
      | none =>
        match s.findLeaf core ctx c.root.toNat va.toNat (acc.tlb eng) (s.asker core eng unit) with
        | (.error p, s) => (.error p, s)
        | (.ok t, s) =>
          let pa := pteFrame t.leaf / 2 ^ t.bits * 2 ^ t.bits + va.toNat % 2 ^ t.bits
          if acc.writes && !pteW t.leaf then (.error (.trap Cause.protection 0x02 va), s)
          else if acc == .fetch && !pteX t.leaf then (.error (.trap Cause.protection 0x03 va), s)
          else if zoneOf s.tierCap pa == .nowhere then (.error (.trap Cause.protection 0x04 va), s)
          else (.ok { pa := pa, mig := pteMig t.leaf, mside := pteMside t.leaf, rmap := pteRmap t.leaf,
                      swm := pteSwm t.leaf && !pteMside t.leaf, tid := field t.leaf 59 52 }, s)

/-- A first write through an entry whose V bit has been cleared since it was cached: the access walks again (R94). -/
def State.staleEntry (s : State) (core ctx : Nat) (va : BitVec 64) (eng : Option Nat) : Bool :=
  match s.tlbFind core ctx va.toNat (Acc.write.tlb eng) with
  | some t => !pteD t.leaf && !pteV (s.word t.at_)
  | none => false

/-- The caches that an access is translated by lose their translation of an address. -/
def State.forget (s : State) (core ctx : Nat) (va : BitVec 64) (eng : Option Nat) : State :=
  let out (l : List TlbEntry) : List TlbEntry := l.filter fun t => !t.hits ctx va.toNat
  let s := s.editCore core fun k => k.editTlb (Acc.write.tlb eng) out
  { s with boardTlb := Sparse.put s.boardTlb (boardOf core) (out (s.boardList core)) }

/-- R94: the first write through an entry sets its D bit before the write proceeds, by an OR at the entry's home. Called once every
check of the write has passed. -/
def State.markDirty (s : State) (core ctx : Nat) (va : BitVec 64) (eng : Option Nat := none) : State :=
  match s.tlbFind core ctx va.toNat (Acc.write.tlb eng) with
  | none => s
  | some t =>
    if pteD t.leaf then s
    else (s.orEntry t.at_ 0x80).tlbFill core (Acc.write.tlb eng) { t with leaf := t.leaf ||| 0x80 }

/-- How an access is performed: in the L1 under the directory, in a SWMANAGED L1 copy, or at the home alone. -/
inductive Path where
  | coherent | managed | home
  deriving DecidableEq, Repr

def State.pathOf (s : State) (x : Xlat) : Path :=
  match zoneOf s.tierCap x.pa with
  | .scratch _ => .home
  | .host => if x.swm then .home else .coherent
  | _ => if x.mside then .home else if x.swm then .managed else .coherent

/-- What an access asks of its line, with or without its L1 copy. No request goes to a slice where the owning core, the base die or the I/O
die performs the access (04 R98, R111, R456). -/
def State.askOf (s : State) (x : Xlat) (hit : Bool) (takes : Option Bool) : Ask :=
  { line := lineOf x.pa, slice := if s.inSlices x.pa && s.pathOf x != .home && !hit then some x.tid else none
    takes := if s.pathOf x == .coherent && !hit then takes else none }

/-- What the first write through an entry asks of the entry's home (R94). -/
def State.dirtyAsks (s : State) (core ctx : Nat) (va : BitVec 64) (eng : Option Nat := none) : List Ask :=
  match s.tlbFind core ctx va.toNat (Acc.write.tlb eng) with
  | some t => if pteD t.leaf then [] else [s.entryAsk t.at_]
  | none => []

/-- Translate an address for a write, which walks again where its entry's V bit has been cleared before its first write (R94). -/
def State.translateStore (s : State) (core ctx : Nat) (va : BitVec 64) (eng unit : Option Nat := none) : Except Problem Xlat × State :=
  let first := s.translate core ctx va .write eng unit
  if first.2.staleEntry core ctx va eng then (first.2.forget core ctx va eng).translate core ctx va .write eng unit else first

/-- Translate an address for a write that has no further checks, and set its D bit (R94). -/
def State.translateWrite (s : State) (core ctx : Nat) (va : BitVec 64) (eng unit : Option Nat := none) : Except Problem Xlat × State :=
  match s.translateStore core ctx va eng unit with
  | (.error p, s) => (.error p, s)
  | (.ok x, s) =>
    match s.askHome (s.asker core eng unit) ctx (s.dirtyAsks core ctx va eng) true with
    | (some a, s) => (.error (.wait a), s)
    | (none, s) => (.ok x, s.markDirty core ctx va eng)

end Sys2Proof.Machine
end

