-- ==== Sys2Proof/Machine/Lines.lean ====
section
/-!
DEFINITION. The lines of the L1 instruction cache with their start bits (06 R156), and the start bits of the targets of transfers (06 R157,
07 R176).
-/

namespace Sys2Proof.Machine

/-- The instruction line of a context that holds physical line `line`. -/
def iKey (ctx line : Nat) : Nat := line * 4096 + ctx

/-- A cache of 16 KiB (01 R18). -/
def icacheLines : Nat := 128

/-- A line enters the instruction cache, in the place of another where the cache is full (DESIGN CHOICE, log entry 55). -/
def Core.addLine (k : Core) (now key : Nat) (l : ILine) : Core :=
  let old := if k.icache.length < icacheLines then k.icache else k.icache.eraseIdx (Config.victim now key % k.icache.length)
  { k with icache := Sparse.put old key l }

/-- The map word of an instruction line (R156). -/
def mapAt (bmap va : BitVec 64) : BitVec 64 := bmap + BitVec.ofNat 64 (128 * field va 56 12 + field va 11 7 * 4)

/-- A read that the fetch unit makes fails with an address whose extra information nothing states (DESIGN CHOICE, log entry 11). -/
def State.fetchUe (s : State) (va : BitVec 64) : Except Problem ILine × State :=
  (.error (.trap Cause.memoryUe ((Config.freeWord s.free).toNat % 2 ^ 32) va), { s with free := s.free + 1 })

/-- A line that no cache keeps comes for a stream, whose instruction or constant it serves. -/
def Core.addFill (k : Core) (f : Fill) : Core := { k with fills := f :: k.fills.filter fun g => !(g.who == f.who && g.isConst == f.isConst && g.key == f.key) }

def Core.fillOf (k : Core) (who : Nat) (isConst : Bool) (key : Nat) : Option ILine :=
  (k.fills.find? fun f => f.who == who && f.isConst == isConst && f.key == key).map (·.line)

/-- The lines that have come for a stream go: the instruction that they served is over. -/
def State.dropFills (s : State) (core who : Nat) : State :=
  if (s.core core).fills.any (·.who == who) then s.editCore core fun k => { k with fills := k.fills.filter (·.who != who) } else s

/-- The number of a stream among those that lines come for: a strand's execute or access stream. -/
def streamNo (uid : Nat) (access : Bool) : Nat := 2 * uid + if access then 1 else 0

/-- The line that holds an address, read by stream `who` of a launch. It is there, or is read together with its start bits while the
strand waits (R156, 07 R176). A word with an uncorrectable error cannot be fetched (10, after R215); a line that holds one is not kept,
nor is one of a MEMSIDE page: it serves the instruction that it was read for (04 R111; DESIGN CHOICE, log entry 67). -/
def State.fetchLine (s : State) (core ctx lrec who : Nat) (va : BitVec 64) : Except Problem ILine × State :=
  match s.translate core ctx va .fetch with
  | (.error p, s) => (.error p, s)
  | (.ok x, s) =>
    let key := iKey ctx (lineOf x.pa)
    if s.foreignScratch core (some lrec) x.pa then (.error (.trap Cause.protection 0x05 va), s)
    else
      match Sparse.get (s.core core).icache key, (s.core core).fillOf who false key with
      | some l, _ => (.ok l, s)
      | none, some l => if s.poisoned (x.pa / 4 * 4) 4 then s.fetchUe va else (.ok l, s)
      | none, none =>
        if s.tierDown x.pa then (.error (.trap Cause.memoryUe 37 va), s)
        else if s.poisoned (x.pa / 4 * 4) 4 then s.fetchUe va
        else
          match s.ctx? ctx with
          | none => (.error (.trap Cause.pageFault 1 va), s)
          | some c =>
            match s.translate core ctx (mapAt c.bmap va) .map with
            | (.error p, s) => (.error p, s)
            | (.ok y, s) =>
              if s.foreignScratch core (some lrec) y.pa then (.error (.trap Cause.protection 0x05 (mapAt c.bmap va)), s)
              else if s.tierDown y.pa then (.error (.trap Cause.memoryUe 37 (mapAt c.bmap va)), s)
              else if s.poisoned y.pa 4 then s.fetchUe (mapAt c.bmap va)
              else
                let line := lineOf x.pa
                let l : ILine := { bytes := Memory.getBytes s.mem (line * 128) 128, starts := BitVec.ofNat 32 (s.load y.pa 4) }
                let ask (z : Xlat) : Ask := s.askOf z false none
                match s.askHome (s.asker core none none) ctx [ask x, ask y] false with
                | (some a, s) => (.error (.wait a), s)
                | (none, s) =>
                  (.error (.wait .reply), s.editCore core fun k =>
                    if x.mside || s.badWords line != 0 then k.addFill ⟨who, false, key, l⟩ else k.addLine s.order key l)

/-- The word at an address of a line, and its start bit. -/
def ILine.at_ (l : ILine) (va : BitVec 64) : BitVec 32 × Bool :=
  let o := field va 6 2
  (BitVec.ofNat 32 (Memory.ofBytes ((l.bytes.drop (4 * o)).take 4)), l.starts.getLsbD o)

/-- A word and its start bit. -/
def State.fetchWord (s : State) (core ctx lrec who : Nat) (va : BitVec 64) : Except Problem (BitVec 32 × Bool) × State :=
  match s.fetchLine core ctx lrec who va with
  | (.error p, s) => (.error p, s)
  | (.ok l, s) => (.ok (l.at_ va), s)

/-- The start bit at an address, from its line: a wait, or none where the read faults (07 R176). -/
def State.startBit (s : State) (core ctx lrec who : Nat) (va : BitVec 64) : Except Await (Option Bool) × State :=
  match s.fetchWord core ctx lrec who va with
  | (.ok w, s) => (.ok (some w.2), s)
  | (.error (.wait a), s) => (.error a, s)
  | (.error (.trap _ _ _), s) => (.ok none, s)

end Sys2Proof.Machine
end

