-- ==== Sys2Proof/Machine/Ops.lean ====
section
/-!
DEFINITION. The operations that every meaning is written with: the steps of an instruction, the strands and their states
(01 R21 to R31), watches and retry lists at a write (04 R102, 10 R234), taking a trap and returning (13 R312, R313).
-/

namespace Sys2Proof.Machine

/-! ### Steps of an instruction -/

/-- How an instruction ends before its last step: with its effect complete (parked, trapped), or with a stop. -/
inductive Exit where
  | done
  | fault (r : Fault)
  | refuse (r : Refusal)
  deriving DecidableEq, Repr

/-- A step of an instruction: it reads and changes the state, and may end the instruction (DEDUCED, log entry 10). -/
abbrev Act (α : Type) := ExceptT Exit (StateM State) α

/-- The outcome of an instruction. -/
def Act.outcome (a : Act Unit) (s : State) : Host.Outcome State Fault Refusal :=
  match a s with
  | (.ok _, s') => .next s'
  | (.error .done, s') => .next s'
  | (.error (.fault r), _) => .fault r
  | (.error (.refuse r), _) => .refused r

/-- Read something of the state. -/
def readS {α : Type} (g : State → α) : Act α := fun s => (.ok (g s), s)

/-- Change the state. -/
def editS (g : State → State) : Act Unit := fun s => (.ok (), g s)

/-- A step that answers a value and changes the state. -/
def stateS {α : Type} (g : State → α × State) : Act α := fun s => (.ok (g s).1, (g s).2)

/-- End the instruction. -/
def stopWith {α : Type} (e : Exit) : Act α := fun s => (.error e, s)

/-! ### Strands -/

def State.strand? (s : State) (u : Nat) : Option Strand := Sparse.get s.strands u

def State.setStrand (s : State) (u : Nat) (st : Strand) : State := { s with strands := Sparse.put s.strands u st }

def State.editStrand (s : State) (u : Nat) (g : Strand → Strand) : State :=
  match s.strand? u with
  | some st => s.setStrand u (g st)
  | none => s

def State.launch? (s : State) (l : Nat) : Option Launch := Sparse.get s.launches l

def State.editLaunch (s : State) (l : Nat) (g : Launch → Launch) : State :=
  match s.launch? l with
  | some r => { s with launches := Sparse.put s.launches l (g r) }
  | none => s

/-- The strand in a slot of a core. -/
def State.strandAt (s : State) (core slot : Nat) : Option (Nat × Strand) :=
  s.strands.find? fun e => e.2.core == core && e.2.place == .slot slot

/-- The strand that an ID names: the one in the slot, or a spilled one that left it (R14, R23). Of two that left it the first by number
(DESIGN CHOICE, log entry 65). -/
def State.bySid (s : State) (core slot : Nat) : Option (Nat × Strand) :=
  match s.strandAt core slot with
  | some e => some e
  | none => s.strands.find? fun e => e.2.core == core && e.2.place == .spill slot

def State.strandsOf (s : State) (core : Nat) : List (Nat × Strand) := s.strands.filter fun e => e.2.core == core

def Strand.isSpilled (st : Strand) : Bool :=
  match st.place with
  | .spill _ => true
  | _ => false

def Strand.slotNo (st : Strand) : Nat :=
  match st.place with
  | .slot n => n
  | .spill n => n
  | .transit => 0

/-- R14, R23: a spilled strand keeps its ID at spill. -/
def Strand.sid (st : Strand) : Nat := strandId st.core st.slotNo

/-- The slow partition of the x registers and of the v registers (01 R18). -/
def slowX (r : Nat) : Bool := 48 ≤ r
def slowV (r : Nat) : Bool := 24 ≤ r

/-- The stall cause that a barrel position is charged with for a strand that left it (26 R431). -/
def Await.stall : Await → Nat
  | .reply => 2
  | .retries => 2
  | .fullX _ => 4
  | .fullV _ => 4
  | .forward _ _ => 5
  | .syncWord => 6
  | .queue _ => 7
  | .branchQueue => 7
  | .storeQueue => 7
  | .permit _ => 8
  | .vectorContext => 9
  | .tier _ _ => 2
  | .busy _ => 2
  | .token _ _ => 3
  | .handler => 2
  | .settled => 2
  | .lines _ => 2
  | .accesses _ => 2
  | .putn => 2
  | .packet => 2
  | _ => 15

/-- The strand leaves its position, if it has one, for the stall cause named (01 R28, 26 R431). -/
def State.leavePosition (s : State) (u : Nat) (why : Nat) : State :=
  match s.strand? u with
  | none => s
  | some st =>
    s.editCore st.core fun k =>
      match (List.range 8).find? (fun i => k.pos[i]? == some (some u)) with
      | some i => { k with pos := k.pos.setIfInBounds i none, left := k.left.setIfInBounds i why }
      | none => k

/-- R21: a PARKED or SLEEP strand enters READY, behind every strand that is READY already (R29). A spilled one keeps its record
and notes the wake (R24), and a STOPPED one has only what it awaited (10 R219). -/
def State.wake (s : State) (u : Nat) : State :=
  match s.strand? u with
  | none => s
  | some st =>
    match st.state with
    | .parked => if st.woken then s else enter st
    | .sleep => if st.woken then s else enter st
    | .stopped => s.setStrand u { st with await := .reply }
    | _ => s
where
  /-- READY, or woken in the spill record. -/
  enter (st : Strand) : State :=
    let st' : Strand :=
      if st.isSpilled then { st with woken := true, await := .reply, since := s.order }
      else { st with state := .ready, await := .reply, since := s.order }
    { s.setStrand u st' with order := s.order + 1 }

/-- The strand enters a state that leaves the barrel (R21). A request of it that waits at a home keeps its place there. -/
def State.leave (s : State) (u : Nat) (state : SState) (a : Await) (why : Nat) : State :=
  let s := s.leavePosition u why
  { s.editStrand u (fun st =>
      { st with state := state, await := a, since := s.order, skip := 0, long := 0, issues := 0
                queued := a.stand st.queued s.order })
    with order := s.order + 1 }

/-- The access stream of a region waits (12 R273). -/
def State.block (s : State) (u : Nat) (a : Await) : State :=
  s.editStrand u fun st =>
    { st with region := st.region.map fun g => { g with blocked := some a, queued := a.stand g.queued s.order } }

/-! ### Watches (10 R234) and retry lists (04 R102) at a write -/

/-- R234: every slot armed on the line fires, and a sleeper with such a slot in its mask wakes (R235). -/
def State.fireLine (s : State) (line : Nat) : State :=
  s.strands.foldl
    (fun s e =>
      let hit (w : Watch) : Bool := w.armed && w.line == line
      if e.2.watch.toList.any hit then
        let s := s.editStrand e.1 fun st => { st with watch := st.watch.map fun w => if hit w then { w with fired := true } else w }
        let inMask := (List.range 8).any fun i => e.2.sleepMask.getLsbD i && (e.2.watch[i]?).any hit
        if e.2.state == .sleep && inMask then s.wake e.1 else s
      else s)
    s

/-- Whether the wait of a waiter is met (R100, 10 R221, R230, R231). -/
def WaitKind.met (s : State) (addr : Nat) : WaitKind → Bool
  | .ldf => s.isFull addr
  | .lds => s.isFull addr
  | .sts _ => !s.isFull addr
  | .barw n => s.isFull addr && (s.poisoned addr 8 || n.toNat ≤ (s.word addr).toNat)
  | .barAdd _ => s.isFull addr
  | .barLeave _ t => t ≤ (s.word addr).toNat
  | .remote _ p _ =>
    match p.mode with
    | 1 => s.isFull addr
    | 2 => s.isFull addr
    | 3 => !s.isFull addr
    | _ => true

/-- Give a result to the strand's x register, in the stream that waits (01 R32, R33). -/
def State.giveX (s : State) (u : Nat) (access : Bool) (r : Nat) (v : BitVec 64) : State :=
  s.editStrand u fun st =>
    match access, st.region with
    | true, some g =>
      { st with region := some { g with x := g.x.setIfInBounds r v, xFull := g.xFull ||| (1 <<< r) } }
    | _, _ => { st with x := st.x.setIfInBounds r v, xFull := st.xFull ||| (1 <<< r) }

/-- Move the pc of a stream. -/
def State.movePc (s : State) (u : Nat) (access : Bool) (len : Nat) : State :=
  s.editStrand u fun st =>
    match access, st.region with
    | true, some g => { st with region := some { g with seqPc := g.seqPc + BitVec.ofNat 64 len, queued := none } }
    | _, _ => { st with pc := st.pc + BitVec.ofNat 64 len, ma := false, queued := none }

/-- The stream goes on: the strand becomes READY, or its sequencer issues again. -/
def State.goOn (s : State) (u : Nat) (access : Bool) : State :=
  match access, s.strand? u with
  | true, some st =>
    match st.region with
    | some g => s.setStrand u { st with region := some { g with blocked := none } }
    | none => s.wake u
  | _, _ => s.wake u

/-- 05 R129: bits [37:6] of game clock − LBASE. -/
def State.leaseClock (s : State) : BitVec 32 := (s.gclk - s.lbase).extractLsb' 6 32

/-- 05 R131: the visibility time of a write to a line, which the strand's VISMAX takes if it is later. -/
def State.vtOf (s : State) (pa : Nat) : BitVec 32 :=
  let lease := ((Sparse.get s.agents (lineOf pa)).map (·.lease)).getD 0
  if s.leaseClock < lease then lease else s.leaseClock

def State.noteVt (s : State) (u pa : Nat) : State :=
  s.editStrand u fun st =>
    let vt := (s.vtOf pa).zeroExtend 64
    if st.visMax < vt then { st with visMax := vt } else st

/-- The operations of a strand's stream to a module that have not been answered (24 R411). -/
def State.unackedTo (s : State) (u m : Nat) : Nat :=
  match s.strand? u with
  | none => 0
  | some st =>
    (s.sent.filter fun e => e.uid == u && e.packet.dst == m && e.packet.epoch == st.epoch && e.packet.strand == st.sid).length

/-- A posted or an atomic operation of a strand that has not been acknowledged (05 R122), or whose error-queue entry has yet to be written
(24 R416). -/
def State.unacknowledged (s : State) (u : Nat) : Bool :=
  s.sent.any (fun e => e.uid == u && e.ty != 1) ||
  s.later.any fun l => match l.chore with | .entry (some v) _ _ _ _ _ _ => v == u | _ => false

/-- The next stamp of the phase counter (05 R135). -/
def State.release (s : State) (u : Nat) : State := s.editStrand u fun st => { st with phase := st.phase + 1 }

/-- 10 R224, R225: whether the atomic writes, and what. `w` is 32 or 64; `e` is D's value, read by AVCAS. -/
def atomicValue (op x m3 : Nat) (w m b c e : Nat) : Bool × Nat :=
  let full := 2 ^ w
  let lt (p q : Nat) : Bool := toSigned w p < toSigned w q
  match op, x with
  | 0x98, _ => (true, (m + b) % full)
  | 0x99, 0 => (true, m &&& b)
  | 0x99, 1 => (true, m ||| b)
  | 0x99, _ => (true, m ^^^ b)
  | 0x9A, 0 => (true, if lt b m then b else m)
  | 0x9A, 1 => (true, if lt m b then b else m)
  | 0x9A, 2 => (true, min m b)
  | 0x9A, _ => (true, max m b)
  | 0x9B, _ => (true, b)
  | 0x9C, _ => (m == c, b)
  | 0x9D, _ => (if m3 % 8 ≥ 4 then decide (m < b) else lt m b, b)
  | 0x9E, _ =>
    let inv := full - 1 - c
    let v := c &&& ((inv + 1) % full)
    ((m &&& c) == (e &&& c), (b &&& inv) ||| ((((m &&& c) + v) % full) &&& c))
  | _, _ => (m == c, (b &&& (full - 1 - 0xFFFF)) ||| ((c % 0x10000 + 1) % 0x10000))

/-- The response of a remote operation, queued for its source (24 R407, R414, R416). -/
def State.respond (s : State) (ty : Nat) (p : Packet) (aux : BitVec 64) (words : List (BitVec 64)) : State :=
  { s with outbox := s.outbox ++
      [(ty, { p with dst := p.src, src := p.dst, aux := aux, words := words, channel := 0, hop := none, link := none })] }

/-- 24 R412: the stream goes on to its next number. -/
def State.streamNext (s : State) (p : Packet) : State :=
  { s with streams := s.streams.map fun r =>
      if r.src == p.src && r.strand == p.strand && r.epoch == p.epoch then
        { r with expected := (r.expected + 1) % 65536, held := r.held.filter (·.1 != p.seq) }
      else r }

/-- 10 R221: the full/empty bit after a remote operation of a mode. -/
def State.modeBit (s : State) (mode addr : Nat) : State :=
  match mode with
  | 2 => s.setEmpty addr
  | 3 => s.setFull addr
  | 4 => s.setFull addr
  | 5 => s.setEmpty addr
  | _ => s

/-- R130: the expiry of a lease granted on a line, or 0 where none is: near the wrap, and while the pause runs (R132). -/
def State.grantLease (s : State) (line : Nat) : BitVec 32 × State :=
  let now := s.leaseClock
  if 0xFFEFFFFF ≤ now.toNat || !s.pausing.isEmpty then (0, s)
  else
    let e := BitVec.ofNat 32 (min (now.toNat + s.leaseLen.toNat) 0xFFEFFFFF)
    let a := s.agent line
    (e, s.setAgent line { a with lease := if a.lease < e then e else a.lease })

/-- What an operation at the home does to the L1 copies of its line (R457): dirty data comes home for a read, every copy goes
for a write. Earlier messages about the line have run out (R124). -/
def State.homeStep (s : State) (coherent reads : Bool) (leaf : Option Nat) (addr : Nat) : State :=
  if !coherent then (if reads then s else s.keepCopies (lineOf addr))
  else
    let s := s.settle (lineOf addr)
    if reads then s.cleanOwner leaf (lineOf addr) else s.invalidateAll leaf (lineOf addr)

/-- The bytes that a remote operation touches at each address (10 R220, R224). -/
def remoteBytes (ty : Nat) (aux : BitVec 64) : Nat := if ty = 3 && field aux 4 3 == 2 then 4 else 8

/-- R136: a word that a strand of another module has written last. -/
def State.eraseStamp (s : State) (word : Nat) : State := { s with stamps := Sparse.erase s.stamps word }

/-- The reply of a leased read: the word, and where a lease is granted the line and the expiry (DESIGN CHOICE, log entry 25). -/
def State.leasedReply (s : State) (addr : Nat) : List (BitVec 64) × State :=
  let (e, s) := s.grantLease (lineOf addr)
  (s.word addr :: (if e = 0 then []
    else (List.range 16).map (fun i => s.word (lineOf addr * 128 + 8 * i)) ++ [e.zeroExtend 64]), s)

/-- Perform a remote operation at its target, its wait met (24 R413, R414, 10 R221, R222, R228); `leaf` is its context's. Whether it
wrote. A plain LDX without payload is a leased read (DESIGN CHOICE, log entry 25). -/
def State.performRemote (s : State) (ty : Nat) (p : Packet) (addr : Nat) (pas : List Nat) (coherent : Bool) (leaf : Option Nat) :
    State × Bool :=
  let n := remoteBytes ty p.aux
  let s := s.streamNext p
  let s := (if ty = 4 then pas else [addr]).foldl (fun s a => s.homeStep coherent (ty == 1 && p.mode != 2) leaf a) s
  match ty with
  | 1 =>
    if s.poisoned addr 8 then (s.respond 0x12 p (BitVec.ofNat 64 Cause.memoryUe) [], false)
    else if p.mode == 2 then
      let v := s.word addr
      let s := s.modeBit 2 addr
      (s.respond 0x10 p ((s.vtOf addr).zeroExtend 64) [v], true)
    else if p.mode == 0 && p.words.isEmpty then
      let (ws, s) := s.leasedReply addr
      (s.respond 0x10 p 0 ws, false)
    else (s.respond 0x10 p 0 [s.word addr], false)
  | 2 =>
    let s := ((s.store addr 8 (p.words.headD 0).toNat).clearPoison addr).modeBit p.mode addr
    let s := if p.mode == 0 then s.eraseStamp (addr / 8) else s
    (s.respond 0x11 p ((s.vtOf addr).zeroExtend 64) [], true)
  | 3 =>
    if s.poisoned addr n then (s.respond 0x12 p (BitVec.ofNat 64 Cause.memoryUe) [0], false)
    else
      let op := field p.aux 15 8
      let m := field p.aux 7 3
      let old := s.load addr n
      let arg (i : Nat) : Nat := (p.words.getD i 0).toNat % 2 ^ (8 * n)
      let (ok, v) := atomicValue op (field p.aux 2 0) m (8 * n) old (arg 0) (arg 1) (arg 2)
      let s' := if ok then (s.store addr n v).modeBit p.mode addr else s
      (s'.respond 0x10 p (if ok then (s'.vtOf addr).zeroExtend 64 else 0) [BitVec.ofNat 64 old], ok)
  | _ =>
    let s := (pas.zip p.words).foldl
      (fun s (a, v) => (((s.store a 8 v.toNat).clearPoison a).eraseStamp (a / 8)).fireLine (lineOf a)) s
    let s := s.modeBit p.mode addr
    let vt := pas.foldl (fun (v : BitVec 32) a => if v < s.vtOf a then s.vtOf a else v) 0
    (s.respond 0x11 p (vt.zeroExtend 64) [], true)

/-! ### Units that serve a context (04 R103, 24 R413, R417) -/

/-- The south-west core of a context's leaf, whose translation caches stand for those of the units that serve it. -/
def State.agentCore (s : State) (ctx : Nat) : Nat :=
  match s.ctx? ctx with
  | none => 0
  | some c =>
    match s.leaves.find? fun l => c.bound.contains l.node.leafId with
    | some l => coreAt l.node.ofile l.node.orank
    | none => 0

/-- The local context of a job. -/
def State.jobCtx (s : State) (job : Nat) : Option Nat :=
  (s.jobs.toList.find? fun e => e.getLsbD 63 && field e 15 0 == job).map fun e => field e 55 44

/-- The leaf of the context of a job. -/
def State.jobLeaf (s : State) (job : Nat) : Option Nat := (s.jobCtx job).bind fun ctx => s.leafIdOf (s.agentCore ctx)

/-- What the met waiter does to its word and its strand (R100, R457, 10 R230). Answers the waiter that stays in its place, if
one does, and whether the word or its bit was written. A strand whose word has an uncorrectable error issues again, and its
instruction traps. -/
def State.completeWaiter (s : State) (w : Waiter) : State × Option Waiter × Bool :=
  let reply (s : State) (v : Option (BitVec 64)) : State :=
    let s := match v with
      | some v => s.giveX w.uid w.access w.dest v
      | none => s
    (s.movePc w.uid w.access w.len).goOn w.uid w.access
  let word := s.word w.addr
  let leaf := (s.strand? w.uid).bind fun st => s.leafIdOf st.core
  let reads := match w.kind with | .ldf => true | .barw _ => true | .barLeave _ _ => true | _ => false
  let reader := match w.kind with | .ldf => true | .lds => true | .barw _ => true | .barAdd _ => true | _ => false
  if reader && s.poisoned w.addr 8 then (s.goOn w.uid w.access, none, false) else
  let s := match w.kind with | .remote _ _ _ => s | _ => s.homeStep w.coherent reads leaf w.addr
  match w.kind with
  | .ldf => (reply s (some word), none, false)
  | .lds => (reply ((s.setEmpty w.addr).noteVt w.uid w.addr) (some word), none, true)
  | .sts v => (reply ((((s.store w.addr 8 v.toNat).clearPoison w.addr).setFull w.addr).noteVt w.uid w.addr |>.release w.uid) none, none, true)
  | .barw _ => (reply (s.release w.uid) (some word), none, false)
  | .barAdd n =>
    let t := ((word.toNat + 1 + n.toNat - 1) / n.toNat) * n.toNat
    let s := (s.store w.addr 8 ((word.toNat + 1) % 2 ^ 64)).noteVt w.uid w.addr
    if t ≤ (word.toNat + 1) % 2 ^ 64 then (reply (s.release w.uid) (some word), none, true)
    else (s, some { w with kind := .barLeave word t }, true)
  | .barLeave old _ => (reply (s.release w.uid) (some old), none, false)
  | .remote ty p pas =>
    let (s, wrote) := s.performRemote ty p w.addr pas w.coherent (s.jobLeaf p.job)
    (s, none, wrote)

/-- The words that a waiter's completion writes. -/
def Waiter.targets (w : Waiter) : List Nat :=
  match w.kind with
  | .remote _ _ pas => w.addr :: pas
  | _ => [w.addr]

/-- The line of a waiter's word is held at its home (04 R113, 05 R124). -/
def State.holdsWaiter (s : State) (w : Waiter) : Bool :=
  let reads := match w.kind with | .ldf => true | .barw _ => true | .barLeave _ _ => true | _ => false
  w.targets.any fun a => s.lineHeld (lineOf a) (!reads)

/-- R102: the waiters of the buckets of a write are rechecked in their order of arrival, again after each that completes, since
its completion may change words of these buckets and of others. One whose line is held waits until it is released. -/
def State.recheck (s : State) (buckets : List (Nat × Nat)) : Nat → State
  | 0 => s
  | fuel + 1 =>
    match s.waiters.find? (fun w =>
        w.listed && buckets.contains (bucketOf s.tierCap w.addr) && w.kind.met s w.addr && !s.holdsWaiter w) with
    | none => s
    | some w =>
      let (s', stay, wrote) := s.completeWaiter w
      let s' : State :=
        match stay with
        | some w' => { s' with waiters := s'.waiters.map fun v => if v == w then w' else v }
        | none => { s' with waiters := s'.waiters.filter (· != w) }
      if wrote then
        State.recheck (s'.fireLine (lineOf w.addr)) (buckets ++ w.targets.map (bucketOf s.tierCap)) fuel
      else State.recheck s' buckets fuel

/-- What every write brings about at its home: watchers of its lines fire (10 R234) and the retry buckets of its words are
rechecked (R102). -/
def State.written (s : State) (pa n : Nat) : State :=
  let s := (linesOfRun pa n).foldl State.fireLine s
  if s.waiters.isEmpty then s
  else s.recheck ((wordsOfRun pa n).map fun w => bucketOf s.tierCap (w * 8)) (2 * s.waiters.length + 1)

/-- A store of the low `n` bytes of a number at its home with everything it brings about. A whole word loses its poison
(10 R218). -/
def State.storeAt (s : State) (pa n v : Nat) : State :=
  let s := s.store pa n v
  let s := if n = 8 then s.clearPoison pa else s
  s.written pa n

/-- A line is released: its watchers and waiters learn of what was written meanwhile, and its earlier messages go on. -/
def State.releaseLine (s : State) (line : Nat) : State :=
  (s.recheck ((List.range 16).map fun i => bucketOf s.tierCap (line * 128 + 8 * i)) (2 * s.waiters.length + 1)).settle line

/-- What a turn has written at table entries and bit arrays is heard of (04 R94, R102, 10 R234). -/
def State.hear (s : State) : State :=
  s.homes.unheard.foldl (fun s a => s.written a 8) { s with homes := { s.homes with unheard := [] } }

/-- The demoted unit whose tier frame holds an address, by context and entry (23 R390, R394). -/
def State.demotedUnit (s : State) (pa : Nat) : Option (Nat × Nat) :=
  s.ctxs.findSome? fun e =>
    ((List.range e.2.castCount).find? fun i =>
      let at_ := e.2.castMap + 16 * i
      !(s.word at_).getLsbD 63 && 0x100000000000 + field (s.word (at_ + 8)) 59 32 * 65536 == pa / 65536 * 65536).map
    fun i => (e.1, i)

/-- A tier fault of a unit that serves a context asks for the unit's promotion (23 R394). -/
def State.askUnit (s : State) (a : Await) : State :=
  match a with
  | .tier c e => if s.moveNext.any (fun m => m.ctx == c && m.entry == e) then s
                 else { s with moveNext := s.moveNext ++ [⟨c, e, true, false⟩] }
  | _ => s

/-- A unit's request waits at its home, or has been served. -/
def State.unitNotes {α : Type} (n : Nat) (r : Except Problem α × State) : Except Problem α × State :=
  match r with
  | (.error (.wait a), s) => (.error (.wait a), s.standUnit n a)
  | (r, s) => (r, s.unitGoes n)

/-- Where a unit of a core reads or writes at a virtual address of a context. A condition of R93, a foreign scratchpad (04 R98) and a tier
link that is down (24 R422) make it fail; a write that changes full/empty bits waits for a demoted unit (23 R394). -/
def State.unitSite (s : State) (core ctx n : Nat) (lrec : Option Nat) (va : BitVec 64) (write : Bool) (bits : Bool := false) :
    Except Problem Xlat × State :=
  match (if write then s.translateStore core ctx va none (some n) else s.translate core ctx va .read none (some n)) with
  | (.error p, s) => (.error p, s)
  | (.ok x, s) =>
    if s.foreignScratch core lrec x.pa then (.error (.trap Cause.protection 0x05 va), s)
    else if s.tierDown x.pa then (.error (.trap Cause.memoryUe 37 va), s)
    else
      match if bits && zoneOf s.tierCap x.pa == .tier then s.demotedUnit x.pa else none with
      | some (c, e) => (.error (.wait (.tier c e)), s.askUnit (.tier c e))
      | none => (.ok x, s)

/-- What a unit asks for bytes at a place of one page: the lines, and the D bit of a first write (04 R94). -/
def State.unitAsks (s : State) (core ctx : Nat) (va : BitVec 64) (x : Xlat) (bytes : Nat) (write free : Bool) : List Ask :=
  (linesOfRun x.pa bytes).map (fun l => { s.askOf x false (some write) with line := l, free := free }) ++
    if write then s.dirtyAsks core ctx va else []

/-- Aligned words written by a unit at a place, each with its full/empty bit where one is named. -/
def State.unitPut (s : State) (core ctx : Nat) (va : BitVec 64) (x : Xlat) (words : List Nat) (full : Option Bool) : State :=
  let s := s.markDirty core ctx va
  let s := (linesOfRun x.pa (8 * words.length)).foldl
    (fun s l => s.homeStep (s.pathOf x == .coherent) false (s.leafIdOf core) (l * 128)) s
  let s := (List.range words.length).foldl (fun s i =>
    let a := x.pa + 8 * i
    let s := (s.store a 8 (words.getD i 0)).clearPoison a
    match full with
    | some b => s.markFull a b
    | none => s) s
  s.written x.pa (8 * words.length)

/-- Aligned words of one page written at a virtual address of a context by unit `n`, which waits for a unit on the move, a token or a line
held at its home. Fault records take no token. -/
def State.unitWrite (s : State) (core ctx n : Nat) (lrec : Option Nat) (va : BitVec 64) (words : List Nat) (full : Option Bool)
    (free : Bool := false) : Except Problem Unit × State :=
  State.unitNotes n <|
    match s.unitSite core ctx n lrec va true full.isSome with
    | (.error p, s) => (.error p, s)
    | (.ok x, s) =>
      match s.askHome (.unit n) ctx (s.unitAsks core ctx va x (8 * words.length) true free) true with
      | (some a, s) => (.error (.wait a), s)
      | (none, s) => (.ok (), s.unitPut core ctx va x words full)

/-- `bytes` bytes of one line read at a virtual address of a context by unit `n`. -/
def State.unitRead (s : State) (core ctx n : Nat) (lrec : Option Nat) (va : BitVec 64) (bytes : Nat) (free : Bool := false) :
    Except Problem Nat × State :=
  State.unitNotes n <|
    match s.unitSite core ctx n lrec va false with
    | (.error p, s) => (.error p, s)
    | (.ok x, s) =>
      if s.poisoned x.pa bytes then (.error (.trap Cause.memoryUe 0 va), s)
      else
        match s.askHome (.unit n) ctx (s.unitAsks core ctx va x bytes false free) false with
        | (some a, s) => (.error (.wait a), s)
        | (none, s) => (.ok (s.load x.pa bytes), s)

/-! ### Traps (13 R311 to R313) -/

/-- A word that a record takes, or 0 when it cannot be read (R313); none where its read must wait. -/
def State.peekWord (s : State) (core ctx lrec n : Nat) (va : BitVec 64) (acc : Acc) : Option (BitVec 32) × State :=
  match s.translate core ctx va acc none (some n) with
  | (.ok x, s) =>
    if s.foreignScratch core (some lrec) x.pa || s.tierDown x.pa || s.poisoned x.pa 4 then (some 0, s)
    else
      match s.heldFor (.unit n) [lineOf x.pa] false with
      | some l => (none, s.standUnit n (.busy l))
      | none => (some (BitVec.ofNat 32 (s.load x.pa 4)), s)
  | (.error (.wait a), s) => (none, s.standUnit n a)
  | (.error (.trap _ _ _), s) => (some 0, s)

/-- The word that IWORD holds for a cause (R313). -/
def State.iwordFor (s : State) (core ctx lrec n cause : Nat) (pc addr : BitVec 64) : Option (BitVec 32) × State :=
  if cause == Cause.illegalTarget || cause == Cause.step || cause == Cause.trap || cause == Cause.brk then
    s.peekWord core ctx lrec n addr .read
  else s.peekWord core ctx lrec n pc .fetch

/-- The words of a record that is written now (R313). -/
def recordWords (seq : BitVec 8) (sid cause : Nat) (pc addr : BitVec 64) (extra : Nat) (gclk : BitVec 64) (lrec scope item : Nat)
    (iword : BitVec 32) : List Nat :=
  [seq.toNat * 2 ^ 56 + sid % 2 ^ 21 * 2 ^ 16 + cause % 2 ^ 16, pc.toNat, addr.toNat, extra % 2 ^ 32, gclk.toNat,
    lrec % 1024 * 2 ^ 48 + scope % 256 * 2 ^ 40 + item % 2 ^ 40, iword.toNat, 0]

/-- R313: the record of strand `uid`, or of an engine command with its own SEQ, written at FRA by unit `n` as one store that sets its words
full. A write that fails is dropped, and SEQ counts those that do not. Whether the record is done with, or must wait. -/
def State.record (s : State) (n : Nat) (uid : Option Nat) (core ctx : Nat) (fra : BitVec 64) (seq : BitVec 8) (sid cause : Nat)
    (pc addr : BitVec 64) (extra lrec scope item : Nat) (noWord : Bool) : Bool × State :=
  match (if noWord then (some 0, s) else s.iwordFor core ctx lrec n cause pc addr) with
  | (none, s) => (false, s)
  | (some w, s) =>
    let no := match uid.bind s.strand? with | some st => st.frSeq + 1 | none => seq
    match s.unitWrite core ctx n (some lrec) fra (recordWords no sid cause pc addr extra s.gclk lrec scope item w) (some true) true with
    | (.ok (), s) => (true, match uid with | some u => s.editStrand u fun st => { st with frSeq := no } | none => s)
    | (.error (.wait _), s) => (false, s)
    | (.error (.trap _ _ _), s) => (true, s)

/-- One more entry is lost, or added: PROD, CONS and LOST lie in one line, at `x`, and the entry at `y`. -/
def State.loseEntry (s : State) (core ctx n : Nat) (base : BitVec 64) (x : Xlat) : Option Await × State :=
  match s.askHome (.unit n) ctx (s.unitAsks core ctx base x 24 true false) true with
  | (some a, s) => (some a, s)
  | (none, s) => (none, s.unitPut core ctx (base + 16) { x with pa := x.pa + 16 } [(s.load (x.pa + 16) 8 + 1) % 2 ^ 64] none)

def State.addEntry (s : State) (core ctx n : Nat) (base va : BitVec 64) (x y : Xlat) (words : List Nat) : Option Await × State :=
  match s.askHome (.unit n) ctx (s.unitAsks core ctx base x 24 true false ++ s.unitAsks core ctx va y 32 true false) true with
  | (some a, s) => (some a, s)
  | (none, s) =>
    let s := s.unitPut core ctx va y words none
    (none, s.unitPut core ctx base x [(s.load x.pa 8 + 1) % 2 ^ 64] (some true))

/-- An entry of a context's error queue (24 R417, R418), written by unit `n`: the entry, then PROD. It is dropped, and LOST rises, where
the queue is full. An EQB of 0 is a queue at address 0 that takes no entry: LOST lies there, where that can be written; where PROD cannot
be written, nothing is (DEDUCED, log entry 53). -/
def State.entry (s : State) (n ctx : Nat) (addr : BitVec 64) (peer kind cause sid : Nat) : Bool × State :=
  match s.ctx? ctx with
  | none => (true, s.unitGoes n)
  | some c =>
    let core := s.agentCore ctx
    let base := c.eqb &&& ~~~(0xFFF : BitVec 64)
    let ends (r : Option Await × State) : Bool × State :=
      match r with
      | (some a, s) => (false, s.standUnit n a)
      | (none, s) => (true, s.unitGoes n)
    match s.unitSite core ctx n none base true true with
    | (.error (.wait a), s) => (false, s.standUnit n a)
    | (.error (.trap _ _ _), s) => (true, s.unitGoes n)
    | (.ok x, s) =>
      if s.poisoned x.pa 24 then (true, s.unitGoes n)
      else
        let prod := s.load x.pa 8
        let size := 2 ^ (field c.eqb 3 0 + 5)
        if base == 0 || size ≤ (prod + 2 ^ 64 - s.load (x.pa + 8) 8) % 2 ^ 64 then ends (s.loseEntry core ctx n base x)
        else
          let va := base + 64 + BitVec.ofNat 64 (32 * (prod % size))
          match s.unitSite core ctx n none va true with
          | (.error (.wait a), s) => (false, s.standUnit n a)
          | (.error (.trap _ _ _), s) => (true, s.unitGoes n)
          | (.ok y, s) =>
            ends (s.addEntry core ctx n base va x y [addr.toNat, peer * 2 ^ 48 + kind * 2 ^ 40 + cause, sid, s.gclk.toNat])

/-- A chore that must wait is put off with its number; it comes again when the turn ends. -/
def State.putOff (s : State) (no : Nat) (c : Chore) : State := { s with later := s.later ++ [⟨c, no⟩], order := s.order + 1 }

/-- R274: a trap ends the region of its strand. The queues are dropped, the strand takes the sequencer's x registers and its
loop stack, which alone holds counts (R271), and the sequencer is free. What the access stream waits for at a home or from another module
is not delivered (DEDUCED, log entry 66). -/
def State.endRegion (s : State) (u : Nat) : State :=
  match s.strand? u with
  | none => s
  | some st =>
    match st.region with
    | none => s
    | some g =>
      let s := (s.setStrand u { st with region := none, x := g.x, xFull := g.xFull, loops := g.loops }).editCore st.core
        fun k => { k with seq := if k.seq == some u then none else k.seq }
      { s with
        waiters := s.waiters.filter fun w => !(w.uid == u && w.access)
        sent := s.sent.map fun e => if e.uid == u && e.access then { e with dropped := true } else e }

/-- R21, R312: the strand stops with a cause and writes its record; `noWord` names a fetch fault on the instruction at the
fault PC, whose IWORD is 0 (R313). -/
def State.stopStrand (s : State) (u cause extra : Nat) (pc addr : BitVec 64) (noWord : Bool := false) : State :=
  let s := s.leave u .stopped .reply 11
  let s := s.editStrand u fun st => { st with lcause := BitVec.ofNat 16 cause, behind := 0 }
  match s.strand? u with
  | none => s
  | some st =>
    if st.fra == 0 then s
    else
      let no := s.order
      match s.record (choreUnit no) (some u) st.core st.ctx st.fra 0 st.sid cause pc addr extra st.lrec st.scope st.item noWord with
      | (true, s) => s
      | (false, s) =>
        s.putOff no (.record (some u) st.core st.ctx st.fra 0 st.sid cause pc addr extra st.lrec st.scope st.item noWord)

/-- R303: when a stepped strand stops, or has completed its instruction, its stepping ends; the stopped strand's stepper
is woken by its own wait. -/
def State.stepEnds (s : State) (u : Nat) : State := s.editStrand u fun st => { st with stepping := none }

/-- A strand whose wait is over, or never was: PARKED and SLEEP strands enter READY (R21), as does one that has waited for its handler. -/
def State.enterHandler (s : State) (u cause extra : Nat) (pc addr handler : BitVec 64) : State :=
  let s := s.editStrand u fun st =>
    { st with tpc := pc, tfaddr := addr, pc := handler, behind := 0,
              tcause := BitVec.ofNat 64 (2 ^ 63 + cause * 2 ^ 32 + extra % 2 ^ 32) }
  match s.strand? u with
  | none => s
  | some st =>
    match st.stepping with
    | some a => (s.stopStrand u Cause.step 0 handler a).stepEnds u
    | none => s.wake u

/-- The start bit at which a strand is let into code, for which a line that no cache keeps has come. -/
def State.entryBit (s : State) (u : Nat) (st : Strand) (va : BitVec 64) : Except Await (Option Bool) × State :=
  match s.startBit st.core st.ctx st.lrec (streamNo u false) va with
  | (.error a, s) => (.error a, s)
  | (.ok b, s) => (.ok b, s.dropFills st.core (streamNo u false))

/-- A trap at its strand, whose region has ended (R312). A local handler is entered where TVEC names one for the cause, no handler runs
already and its start bit is set (06 R157, last row); otherwise the strand stops and writes its record. False where the start bit must be
waited for. -/
def State.dispatchTrap (s : State) (u cause extra : Nat) (pc addr : BitVec 64) (noWord : Bool) : Bool × State :=
  match s.strand? u with
  | none => (true, s)
  | some st =>
    let handler := BitVec.ofNat 64 (field st.tvec 47 2 * 4)
    if cause ≤ 16 && st.tvec.getLsbD (47 + cause) && handler != 0 && !st.tcause.getLsbD 63 then
      match s.entryBit u st handler with
      | (.error _, s) => (false, s)
      | (.ok (some false), s) => (true, (s.stopStrand u Cause.illegalTarget 0x04 pc handler).stepEnds u)
      | (.ok _, s) => (true, s.enterHandler u cause extra pc addr handler)
    else (true, (s.stopStrand u cause extra pc addr noWord).stepEnds u)

/-- TAKING A TRAP (R312), the one way in. `pc` is the fault PC, and the strand is left at it; inside a region, which then ends, the extra
information names the stream in bit [8] (12 R274). A strand that must wait for the handler's line parks. -/
def State.takeTrap (s : State) (u cause extra : Nat) (pc addr : BitVec 64) (noWord : Bool := false) : State :=
  match s.strand? u with
  | none => s
  | some st =>
    let extra :=
      if !st.region.isSome then extra
      else if s.stream == .access then extra ||| 0x100 else extra &&& 0xFFFFFEFF
    let s := if st.region.isSome then s.endRegion u else s
    let s := s.editStrand u fun st => { st with pc := pc, skip := 0, long := 0, ma := false, queued := none, behind := 0 }
    match s.dispatchTrap u cause extra pc addr noWord with
    | (true, s) => s
    | (false, s) =>
      let s := s.putOff s.order (.trap u cause extra pc addr noWord)
      if st.state == .stopped then s else s.leave u .parked .handler 2

/-- 06 R157, row 4: the start bit at the PC of a strand that has been placed. False where it must be waited for. A fault on reading it is
taken at the first issue. -/
def State.checkStart (s : State) (u : Nat) : Bool × State :=
  match s.strand? u with
  | none => (true, s)
  | some st =>
    match s.entryBit u st st.pc with
    | (.error _, s) => (false, s)
    | (.ok (some false), s) => (true, s.takeTrap u Cause.illegalTarget 0x03 st.pc st.pc)
    | (.ok _, s) => (true, if st.state == .parked && st.await == .handler then s.wake u else s)

/-- A chore that was put off, once more. -/
def State.runChore (s : State) (no : Nat) (c : Chore) : Bool × State :=
  match c with
  | .start u => s.checkStart u
  | .trap u cause extra pc addr noWord => s.dispatchTrap u cause extra pc addr noWord
  | .record uid core ctx fra seq sid cause pc addr extra lrec scope item noWord =>
    s.record (choreUnit no) uid core ctx fra seq sid cause pc addr extra lrec scope item noWord
  | .entry _ ctx addr peer kind cause sid => s.entry (choreUnit no) ctx addr peer kind cause sid

/-- The chores that were put off, in their order. -/
def State.runLater (s : State) : State :=
  s.later.foldl
    (fun s l =>
      match s.runChore l.no l.chore with
      | (true, s) => s
      | (false, s) => { s with later := s.later ++ [l] })
    { s with later := [] }

/-- An error-queue entry, now or when it can be written; the releases of strand `uid` wait for it (24 R416). -/
def State.errorEntry (s : State) (uid : Option Nat) (ctx : Nat) (addr : BitVec 64) (peer kind cause sid : Nat) : State :=
  let no := s.order
  match s.entry (choreUnit no) ctx addr peer kind cause sid with
  | (true, s) => s
  | (false, s) => s.putOff no (.entry uid ctx addr peer kind cause sid)

/-- An entry about the module's own memory, whose PEER nothing states (DESIGN CHOICE, log entry 13). -/
def State.localError (s : State) (ctx : Nat) (addr : BitVec 64) (kind cause sid : Nat) : State :=
  { s with free := s.free + 1 }.errorEntry none ctx addr ((Config.freeWord s.free).toNat % 65536) kind cause sid

/-- RETURNING FROM A TRAP is a program's own SWR of TCAUSE := 0 followed by a JMPI to TPC (R312): what the return gives back
is the dispatch of later traps, by clearing ACT. -/
def State.leaveTrap (s : State) (u : Nat) : State := s.editStrand u fun st => { st with tcause := 0 }

end Sys2Proof.Machine
end

