-- ==== Sys2Proof/Machine/Operands.lean ====
section
/-!
DEFINITION. The operands of an instruction and its issue: guards (06 R149, R150), registers and their presence (01 R18 to
R32, 06 R146), vector contexts (01 R19, R31), shared core registers (01 R30), tempo reads (12 R279), and the routing of a
region's two streams (12 R268). The kinds of the B operand stand in Constants.lean.
-/

namespace Sys2Proof.Machine

/-! ### The issuing strand -/

/-- The strand whose instruction this is. -/
def me : Act Nat := fun s =>
  match s.cur with
  | some u => (.ok u, s)
  | none => (.error (.fault .noIssuer), s)

def self : Act Strand := fun s =>
  match s.cur with
  | some u =>
    match s.strand? u with
    | some st => (.ok st, s)
    | none => (.error (.fault .noIssuer), s)
  | none => (.error (.fault .noIssuer), s)

/-- Change the issuing strand. -/
def editSelf (g : Strand → Strand) : Act Unit := fun s =>
  match s.cur with
  | some u => (.ok (), s.editStrand u g)
  | none => (.error (.fault .noIssuer), s)

/-- The stream that issues: the access stream only inside a region. -/
def inAccess : Act Bool := fun s =>
  match s.cur with
  | some u =>
    (.ok (s.stream == .access && ((s.strand? u).bind (·.region)).isSome), s)
  | none => (.error (.fault .noIssuer), s)

/-- A value nothing states (DESIGN CHOICE, log entries 11, 12). -/
def freeValue : Act Word := stateS fun s => (Config.freeWord s.free, { s with free := s.free + 1 })

def clearPopped (st : Strand) : Strand :=
  { st with region := st.region.map fun g => { g with popped := 0 } }

/-- The strand, or the sequencer of its region, waits (01 R21, 12 R273). Nothing of the instruction has been performed, or,
for a reply, all of it. -/
def park {α : Type} (a : Await) : Act α := do
  let u ← me
  let acc ← inAccess
  editSelf clearPopped
  if acc then
    editS fun s => s.block u a
  else
    editS fun s => s.leave u .parked a a.stall
  stopWith .done

/-- The pc of the stream that issues. -/
def thisPc : Act Word := do
  let st ← self
  let acc ← inAccess
  match acc, st.region with
  | true, some g => pure g.seqPc
  | _, _ => pure st.pc

def jumpTo (t : Word) : Act Unit := do
  let acc ← inAccess
  editSelf fun st =>
    match acc, st.region with
    | true, some g => { st with region := some { g with seqPc := t, queued := none } }
    | _, _ => { st with pc := t, queued := none }

/-- A trap of the issuing instruction (R312). -/
def trapAt {α : Type} (cause extra : Nat) (addr : Word) : Act α := do
  let u ← me
  let pc ← thisPc
  editS fun s => s.takeTrap u cause extra pc addr
  stopWith .done

/-- A trap whose address no rule names. -/
def trapExtra {α : Type} (cause extra : Nat) : Act α := do trapAt cause extra (← freeValue)

/-- A trap whose extra information no rule names. -/
def trapWord {α : Type} (cause : Nat) (addr : Word) : Act α := do
  let x ← freeValue
  trapAt cause (x.toNat % 2 ^ 32) addr

/-- A trap whose extra information and address no rule names. -/
def trapPlain {α : Type} (cause : Nat) : Act α := do
  let x ← freeValue
  trapAt cause (x.toNat % 2 ^ 32) (← freeValue)

def raise {α : Type} (p : Problem) : Act α :=
  match p with
  | .trap c x a => trapAt c x a
  | .wait a => park a

/-- ILLEGAL_FORM at execution. -/
def illegalForm {α : Type} : Act α := trapPlain Cause.illegalForm

/-- Unless the condition holds, trap. -/
def need (b : Bool) (t : Act Unit) : Act Unit := if b then pure () else t

/-- The length in bytes of the instruction's words (06 R143). -/
def Form.bytes : Form → Nat
  | .base => 4
  | .baseLit _ => 8
  | .ext => 12
  | .extLit _ => 20

def lenOf (f : Fields) : Nat := Form.bytes f.form

def lenWord (f : Fields) : Word := BitVec.ofNat 64 (lenOf f)

/-- R27: turns are skipped after the instruction; a slow read counts once. -/
def noteSlow (slow : Bool) : Act Unit := do
  if slow && !(← inAccess) then editSelf fun st => { st with skip := 1 }

def skipTurns (n : Nat) : Act Unit := do
  if !(← inAccess) then editSelf fun st => { st with long := st.long + n }

/-- Entries of the queues named by the instruction leave them (12 R270). -/
def popQueues (st : Strand) : Strand :=
  match st.region with
  | none => st
  | some g =>
    if g.popped = 0 then st
    else { st with region := some { g with popped := 0, q := Vector.ofFn fun i => if g.popped.getLsbD i then (g.q[i]).drop 1 else g.q[i] } }

/-- The instruction has its effect; the stream goes on behind it. -/
def finish (f : Fields) : Act Unit := do
  editSelf fun st => { popQueues st with ma := false }
  jumpTo ((← thisPc) + lenWord f)

/-- The instruction has its effect but for its wait; the pc goes on when the wait is over. -/
def parkBehind (f : Fields) (a : Await) : Act Unit := do
  editSelf fun st => { st with behind := lenOf f }
  park a

/-- The instruction has its effect, and the strand waits for the reply of its memory operation (05 R116). -/
def finishReply (f : Fields) : Act Unit := do
  finish f
  park .reply

/-! ### Predicates (01 R19, 03 R65) -/

/-- All 512 bits equal. -/
def spread (b : Bool) : Pred := if b then BitVec.allOnes 512 else 0

def Strand.lane0 (st : Strand) (p : Nat) : Bool :=
  if p = 0 then true
  else match st.vec with
    | none => st.pw.getLsbD p
    | some v => ((v.p[p]?).getD 0).getLsbD 0

/-- Every lane of a predicate (07 R179). -/
def Strand.predBits (st : Strand) (p : Nat) : Pred :=
  if p = 0 then BitVec.allOnes 512
  else match st.vec with
    | none => spread (st.pw.getLsbD p)
    | some v => (v.p[p]?).getD 0

def setBit16 (w : BitVec 16) (i : Nat) (b : Bool) : BitVec 16 :=
  if b then w ||| (1#16 <<< i) else w &&& ~~~(1#16 <<< i)

/-- Write lane 0 alone: the bit of the predicate word, or the bits of bytes 0 to 3 (01 R19). -/
def Strand.setLane0 (st : Strand) (p : Nat) (b : Bool) : Strand :=
  if p = 0 then st
  else match st.vec with
    | none => { st with pw := setBit16 st.pw p b }
    | some v =>
      let old := (v.p[p]?).getD 0
      { st with vec := some { v with p := v.p.setIfInBounds p (if b then old ||| 0xF else old &&& ~~~(0xF#512)) } }

/-- Write every lane; without a context only lane 0 is held (07 R179). A write to p0 is discarded (06 R146). -/
def Strand.setPred (st : Strand) (p : Nat) (bits : Pred) : Strand :=
  if p = 0 then st
  else match st.vec with
    | none => { st with pw := setBit16 st.pw p (bits.getLsbD 0) }
    | some v => { st with vec := some { v with p := v.p.setIfInBounds p bits } }

/-- The predicate word as it reads, bit 0 one (01 R19, R20). -/
def Strand.predWord (st : Strand) : BitVec 16 :=
  (List.range 16).foldl (fun w i => setBit16 w i (st.lane0 i)) 1

/-- Whether a predicate bit of byte `k` is set. -/
def predAt (p : Pred) (k : Nat) : Bool := p.getLsbD k

/-! ### Guards (06 R149, R150) -/

/-- R149, over what lane 0 of a predicate reads. -/
def Guard.eval (g : Guard) (lane : Nat → Bool) : Bool :=
  let present (p : BitVec 4) (n : Bool) : Bool := p != 0 || n
  let value (p : BitVec 4) (n : Bool) : Bool := lane p.toNat != n
  match present g.g1p g.g1n, present g.g2p g.g2n with
  | false, false => true
  | true, false => value g.g1p g.g1n
  | false, true => value g.g2p g.g2n
  | true, true => if g.gc then value g.g1p g.g1n || value g.g2p g.g2n else value g.g1p g.g1n && value g.g2p g.g2n

/-- R149; inside a region the access stream reads the predicate word as it stood at DSPLIT (12 R269). -/
def guardOf (f : Fields) : Act Bool := do
  let st ← self
  let acc ← inAccess
  match acc, st.region with
  | true, some g => pure (Guard.eval f.guard fun p => p == 0 || g.pw.getLsbD p)
  | _, _ => pure (Guard.eval f.guard st.lane0)

/-- The streams of R268. -/
inductive Klass where
  | access | execute | both | neither
  deriving DecidableEq, Repr

/-- THE ISSUE of an instruction: in a region the stream that an instruction does not belong to passes over it (12 R268); a
false guard ends it (06 R150); an instruction of no stream traps in a region; otherwise its own effect follows. -/
def issue (k : Klass) (f : Fields) (body : Act Unit) : Act Unit := do
  let st ← self
  let acc ← inAccess
  if st.region.isSome && ((k == .access && !acc) || (k == .execute && acc)) then
    jumpTo ((← thisPc) + lenWord f)
  else if !(← guardOf f) then
    jumpTo ((← thisPc) + lenWord f)
  else if st.region.isSome && k == .neither then
    trapExtra Cause.queueMisuse 0x01
  else body

/-- An instruction of fixed latency that falls through. -/
def fixed (k : Klass) (f : Fields) (body : Act Unit) : Act Unit := issue k f (do body; finish f)

/-! ### x and c registers -/

def bit64 (w : Word) (i : Nat) : Bool := w.getLsbD i

/-- An x register as a source (01 R21, 07 R163, 12 R269). -/
def readX (r : Nat) : Act Word := do
  let st ← self
  let acc ← inAccess
  noteSlow (slowX r)
  match acc, st.region with
  | true, some g => if bit64 g.xFull r then pure ((g.x[r]?).getD 0) else park (.fullX r)
  | _, some _ =>
    if bit64 st.xFull r then pure ((st.x[r]?).getD 0) else trapExtra Cause.queueMisuse 0x09
  | _, none => if bit64 st.xFull r then pure ((st.x[r]?).getD 0) else park (.fullX r)

/-- Write an x register of the issuing stream and set it full. -/
def writeX (r : Nat) (v : Word) : Act Unit := do
  let u ← me
  let acc ← inAccess
  editS fun s => s.giveX u acc r v

/-- The value of c register `r` for an instruction issued on the core's present cycle (01 R30). -/
def Core.cValue (k : Core) (r : Nat) : Word :=
  (k.cwrites.foldl (fun v w => if w.2.1 == r && w.1 + 8 ≤ k.cyc then w.2.2 else v) ((k.cregs[r]?).getD 0))

/-- Writes older than seven cycles enter the register file. -/
def Core.settle (k : Core) : Core :=
  { k with
    cregs := k.cwrites.foldl (fun cs w => if w.1 + 8 ≤ k.cyc then cs.setIfInBounds w.2.1 w.2.2 else cs) k.cregs
    cwrites := k.cwrites.filter fun w => k.cyc < w.1 + 8 }

def readC (r : Nat) : Act Word := do
  let st ← self
  readS fun s => (s.core st.core).cValue r

def writeC (r : Nat) (v : Word) : Act Unit := do
  let st ← self
  editS fun s => s.editCore st.core fun k =>
    let k := k.settle
    { k with cwrites := k.cwrites ++ [(k.cyc, r, v)] }

/-! ### The end of a strand (13 R290, 12 R285) -/

/-- The overflow blocks that a line's watchers take (10 R233): two pointers stand in the entry, 14 in each block. -/
def blocksFor (watchers : Nat) : Nat := (watchers - 2 + 13) / 14

/-- The vector context goes: byte 0's bit of each predicate returns to the predicate word (01 R19). -/
def Strand.dropVec (st : Strand) : Strand :=
  match st.vec with
  | none => st
  | some _ => { st with pw := st.predWord, vec := none }

/-- The authority table of a strand that ends, or leaves its module, counts on for its pending launches (02 R47; DESIGN CHOICE, log entry
82). -/
def State.keepAuthority (s : State) (u : Nat) : State :=
  match s.strand? u with
  | none => s
  | some st => { s with launches := Sparse.mapVals (fun _ l => if l.caller == u then { l with callerAuth := st.auth } else l) s.launches }

/-- EXIT's steps 2 to 5 (13 R290), with the population where `counts` (13 R291). Strands that wait for what is released are
found by their own waits. -/
def State.endStrand (s : State) (u : Nat) (why : Nat) (counts : Bool := true) : State :=
  match s.strand? u with
  | none => s
  | some st =>
    let s := (s.leavePosition u why).keepAuthority u
    let free (e : Engine) : Engine := if e.claim == some u then { e with claim := none } else e
    let s := s.editCore st.core fun k =>
      { k with mx := free k.mx, ce := free k.ce, seq := if k.seq == some u then none else k.seq }
    let s := { s with strands := Sparse.erase s.strands u, waiters := s.waiters.filter (fun w => w.uid != u ||
      (match w.kind with | .remote _ _ _ => true | _ => false)) }
    if counts then s.editLaunch st.lrec fun l => { l with pop := l.pop - 1 } else s

/-! ### Vector contexts (01 R19, R31) -/

/-- A context at binding (R19). -/
def Strand.freshVec (st : Strand) : VecCtx :=
  { spilled := false, v := Vector.replicate 32 0, vFull := BitVec.allOnes 32, tag := Vector.replicate 32 0,
    p := Vector.ofFn fun i => if i.val = 0 then BitVec.allOnes 512 else spread (st.pw.getLsbD i.val) }

def State.boundContexts (s : State) (core : Nat) : Nat :=
  ((s.strandsOf core).filter fun e => match e.2.vec with | some v => !v.spilled | none => false).length

def State.spilledContexts (s : State) (core : Nat) : Nat :=
  ((s.strandsOf core).filter fun e => match e.2.vec with | some v => v.spilled | none => false).length

/-- R31: the PARKED, SLEEP or STOPPED strand that has run least recently among those holding a context, regions apart (12
R275). -/
def State.vecVictim (s : State) (core u : Nat) : Option Nat :=
  let cands := (s.strandsOf core).filter fun e =>
    e.1 != u && e.2.region.isNone && (e.2.state == .parked || e.2.state == .sleep || e.2.state == .stopped) &&
    (match e.2.vec with | some v => !v.spilled | none => false)
  (cands.foldl (fun best e =>
    match best with
    | some b => if e.2.lastRun < b.2.lastRun then some e else some b
    | none => some e) none).map (·.1)

def spillVec (st : Strand) : Strand := { st with vec := st.vec.map fun v => { v with spilled := true } }

/-- Bind a vector context, or reload the spilled one, before the instruction issues (R19, R31). -/
def bindVec : Act Unit := do
  let u ← me
  let st ← self
  let give : Act Unit := editSelf fun st =>
    { st with vec := some (match st.vec with | some v => { v with spilled := false } | none => st.freshVec) }
  let bound := match st.vec with | some v => !v.spilled | none => false
  if !bound then
    let s ← readS id
    if s.boundContexts st.core < 8 then give
    else if 8 ≤ s.spilledContexts st.core then park .vectorContext
    else
      match s.vecVictim st.core u with
      | some w => editS (fun s => s.editStrand w spillVec); give
      | none => park .vectorContext

/-- Whether a spilled context of the strand must be reloaded first (07 R179). -/
def reloadVec : Act Unit := do
  let st ← self
  match st.vec with
  | some v => if v.spilled then bindVec else pure ()
  | none => pure ()

/-! ### v registers and queues -/

/-- A v register as a source: its bits and tag. Names 28 to 31 are queues inside a region (12 R270). -/
def readV (r : Nat) : Act (Vec × BitVec 4) := do
  let st ← self
  match st.region with
  | some g =>
    if 28 ≤ r then
      match (g.q[r - 28]?).getD [] with
      | [] => park (.queue (r - 28))
      | e :: _ =>
        editSelf fun st => { st with region := st.region.map fun g => { g with popped := g.popped ||| (1#4 <<< (r - 28)) } }
        pure (e.bits, e.tag)
    else plain r
  | none => plain r
where
  /-- A register of the context. -/
  plain (r : Nat) : Act (Vec × BitVec 4) := do
    let st ← self
    noteSlow (slowV r)
    match st.vec with
    | none => pure (0, 0)
    | some v => if v.vFull.getLsbD r then pure ((v.v[r]?).getD 0, (v.tag[r]?).getD 0) else park (.fullV r)

def Strand.setV (st : Strand) (r : Nat) (bits : Vec) (tag : BitVec 4) : Strand :=
  { st with vec := st.vec.map fun v =>
      { v with v := v.v.setIfInBounds r bits, vFull := v.vFull ||| (1#32 <<< r), tag := v.tag.setIfInBounds r tag } }

/-- Write a v register, set it full and give it its tag (08 R184 step 5). -/
def writeV (r : Nat) (bits : Vec) (tag : BitVec 4) : Act Unit := editSelf fun st => st.setV r bits tag

/-- Naming a queue as the destination of an execute-stream instruction (12 R270). -/
def destV (r : Nat) : Act Unit := do
  let st ← self
  if st.region.isSome && 28 ≤ r then trapExtra Cause.queueMisuse 0x02

/-- R66. -/
def checkTag (fmt : BitVec 4) (tag : BitVec 4) : Act Unit := need (tag == fmt) (trapPlain Cause.formatMismatch)

/-! ### Tempo reads (06 R151, 12 R279, R285) -/

def fwdKey (d j : Nat) : Nat := 4 * d + j

/-- Termination by an ordered break (12 R285). -/
def terminate {α : Type} : Act α := do
  let u ← me
  editS fun s => s.endStrand u 13
  stopWith .done

/-- The break index of a launch as a core last recorded it (12 R284). -/
def State.recordedBreak (s : State) (core lrec : Nat) : Nat :=
  match Sparse.get (s.core core).brk lrec with
  | some b => b
  | none => ((s.launch? lrec).map fun l => l.nitems - 1).getD 0

/-- Whether a strand's item lies above the index that its core has recorded. -/
def State.broken (s : State) (st : Strand) : Bool := s.recordedBreak st.core st.lrec < st.item

/-- The export that operand register `r` of a file reads at a distance; none where an item cannot read it. -/
def Launch.tempoIndex (l : Launch) (isItem isV : Bool) (r d : Nat) : Option Nat :=
  let j := l.exports.findIdx fun e => e.isV == isV && e.reg == r
  if l.exports.isEmpty || l.maxd < d || l.exports.length ≤ j || !isItem then none else some j

/-- The value that operand register `r` of a file reads at a distance. -/
def readTempo (isV : Bool) (r d : Nat) : Act FwdVal := do
  let st ← self
  match (← readS (·.launch? st.lrec)).bind fun l => l.tempoIndex st.isItem isV r d with
  | none => illegalForm
  | some j => if ← readS (·.broken st) then terminate else entry st d j
where
  /-- The entry of the buffer; while it is empty the stream waits. -/
  entry (st : Strand) (d j : Nat) : Act FwdVal :=
    match Sparse.get st.fwd (fwdKey d j) with
    | some v => pure v
    | none => park (.forward d j)

/-- Operand A or B from an x register, a c register where X says so (07 R165), or the tempo buffer. -/
def operandX (isC : Bool) (r : BitVec 6) (dist : BitVec 2) : Act Word :=
  if dist != 0 then do
    let v ← readTempo false r.toNat dist.toNat
    pure (v.bits.truncate 64)
  else if isC then readC r.toNat
  else readX r.toNat

/-- Operand A or B from a v register or the tempo buffer, with its tag. -/
def operandV (r : BitVec 6) (dist : BitVec 2) : Act (Vec × BitVec 4) :=
  if dist != 0 then do
    let v ← readTempo true r.toNat dist.toNat
    pure (v.bits, v.tag)
  else readV r.toNat

/-! ### Requests at a home (04 R110, R113, 05 R124) -/

/-- The requests of an access of the issuing strand at its homes. -/
def heedHome (l : List Ask) (write : Bool) : Act Unit := do
  let st ← self
  match ← stateS (fun s => s.askHome .issuer st.ctx l write) with
  | some a => park a
  | none => pure ()

end Sys2Proof.Machine
end

