-- ==== Sys2Proof/Machine/Flags.lean ====
section
/-!
DEFINITION. The flags of FCR (03 R75, R79, R87) and the conditions of comparisons (07 R173): x registers have no condition
flags, a comparison writes a predicate.
-/

namespace Sys2Proof.Machine

/-- The five sticky flags NV, DZ, OF, UF, NX, as FCR[4:0] (R75). -/
abbrev Flags := BitVec 5

def Flags.none : Flags := 0
def Flags.nx : Flags := 1
def Flags.uf : Flags := 2
def Flags.of : Flags := 4
def Flags.dz : Flags := 8
def Flags.nv : Flags := 16

/-- Rounding modes of FCR.RM (R75). -/
inductive Rm where
  | rne | rtz | rdn | rup
  deriving DecidableEq, Repr

def rmOf (n : Nat) : Rm :=
  match n with
  | 0 => .rne
  | 1 => .rtz
  | 2 => .rdn
  | _ => .rup

/-- What an operation takes from FCR: the mode, SAT and FTZ (R75 to R78). -/
structure FpEnv where
  rm : Rm
  sat : Bool
  ftz : Bool
  deriving DecidableEq, Repr

/-- R76: RND where it is not 0b00, FCR.RM otherwise. -/
def envOf (fcr : BitVec 64) (rnd : Nat) : FpEnv :=
  { rm := if rnd = 0 then rmOf (field fcr 6 5) else rmOf (rnd - 1), sat := fcr.getLsbD 7, ftz := fcr.getLsbD 8 }

/-- The environment of the issuing instruction; inside a region the access stream rounds as at DSPLIT (R89). -/
def fpEnv (f : Fields) : Act FpEnv := do
  let st ← self
  let acc ← inAccess
  match acc, st.region with
  | true, some g => pure (envOf g.fcr f.rnd.toNat)
  | _, _ => pure (envOf st.fcr f.rnd.toNat)

/-- OR flags into FCR (R79). -/
def raiseFlags (fl : Flags) : Act Unit := editSelf fun st => { st with fcr := st.fcr ||| fl.zeroExtend 64 }

/-- The conditions of R173 on w-bit values; with `uns`, every order is unsigned (08 R196). -/
def condHolds (cond w : Nat) (uns : Bool) (a b : Nat) : Bool :=
  let slt (p q : Nat) : Bool := if uns then decide (p < q) else decide (toSigned w p < toSigned w q)
  match cond with
  | 0 => a == b
  | 1 => a != b
  | 2 => slt a b
  | 3 => !slt a b
  | 4 => a < b
  | 5 => b ≤ a
  | 6 => slt b a
  | 7 => !slt b a
  | 8 => b < a
  | 9 => a ≤ b
  | 10 => a &&& b != 0
  | _ => a &&& b == 0

end Sys2Proof.Machine
end

