-- ==== Sys2Proof/Machine/Coherence.lean ====
section
/-!
DEFINITION. SWMANAGED copies, the contention predictor and race detection (05 R135 to R139, 10 R226). Data lies in memory, except the
dirty bytes of SWMANAGED copies (R139).
-/

namespace Sys2Proof.Machine

/-! ### SWMANAGED copies (R139) -/

/-- A SWMANAGED line in the core's L1, fetched if it is not there (DEDUCED, log entry 8). -/
def State.swmFill (s : State) (core line : Nat) : State :=
  match (s.l1 core line).bind (·.swm) with
  | some _ => s
  | none =>
    s.setL1 core line { state := .exclusive, reader := none, swm := some (s.swmBytes core line), bad := s.swmBad core line }

/-- Bytes of a SWMANAGED page as the core sees them: `n` bytes at `pa` within one line. -/
def State.swmRead (s : State) (core pa n : Nat) : List (BitVec 8) :=
  ((s.swmBytes core (lineOf pa)).1.drop (pa % 128)).take n

/-- A store into the L1 copy, with its dirty bits and its writer. -/
def State.swmWrite (s : State) (core pa : Nat) (bytes : List (BitVec 8)) (writer : Nat × Nat × BitVec 64) : State :=
  let (old, mask) := s.swmBytes core (lineOf pa)
  let o := pa % 128
  let n := bytes.length
  let m := BitVec.ofNat 128 ((2 ^ n - 1) * 2 ^ o)
  let whole := (List.range 16).foldl (fun (w : BitVec 16) i => if o ≤ 8 * i && 8 * i + 8 ≤ o + n then w ||| (1#16 <<< i) else w) 0
  s.setL1 core (lineOf pa)
    { state := .modified, reader := none, swm := some (old.take o ++ bytes ++ old.drop (o + n), mask ||| m)
      bad := s.swmBad core (lineOf pa) &&& ~~~whole, writer := some writer }

/-- The words of the copy that have been written whole lose their error. -/
def State.swmWhole (s : State) (core line : Nat) (p : Nat → Bool) : State :=
  match s.l1 core line with
  | none => s
  | some l =>
    let whole := (List.range 16).foldl (fun (w : BitVec 16) i => if p i then w ||| (1#16 <<< i) else w) 0
    s.setL1 core line { l with bad := l.bad &&& ~~~whole }

/-- The dirty bytes go home and are merged there, as a write to the line (R139, 10 R234). A tier link that is down loses them, and the context
of who wrote last has an entry (24 R422; DEDUCED, log entry 85). -/
def State.swmWriteBack (s : State) (core line : Nat) : State :=
  match (s.l1 core line).bind (·.swm) with
  | none => s
  | some (bytes, mask) =>
    if mask = 0 then s
    else if s.tierDown (line * 128) then
      let (ctx, sid, va) := ((s.l1 core line).bind (·.writer)).getD (0, 0, 0)
      (s.setL1 core line { state := .exclusive, reader := none, swm := some (bytes, 0), bad := s.swmBad core line }).localError ctx va 6 37 sid
    else
      let s := s.keepCopies line
      let mem := (List.range 128).foldl
        (fun m i => if mask.getLsbD i then Memory.set m (line * 128 + i) (bytes.getD i 0) else m) s.mem
      let whole := (List.range 16).filter fun w => (mask >>> (8 * w)).toNat % 256 == 255
      let s := { s with mem := mem, poison := s.poison.filter fun p => !(whole.any fun w => p == line * 16 + w) }
      let s := s.setL1 core line { state := .exclusive, reader := none, swm := some (bytes, 0), bad := s.swmBad core line }
      s.written (line * 128) 128

def State.swmDrop (s : State) (core line : Nat) : State :=
  match (s.l1 core line).bind (·.swm) with
  | none => s
  | some _ => s.editCore core fun k => { k with l1 := Sparse.erase k.l1 line }

/-! ### The contention predictor (10 R226) -/

def predictorKey (pa : Nat) : Nat := homeCore pa * 4096 + bitsOf pa 18 7

def State.predicted (s : State) (pa : Nat) : BitVec 2 := (Sparse.get s.predictor (predictorKey pa)).getD 0

/-- The counter of the line's slot, at an atomic of a core. Where no core owns the line and the core holds it in S, the rule has no row
and the counter stays (DESIGN CHOICE, log entry 94). -/
def State.predict (s : State) (core pa : Nat) : State :=
  let line := lineOf pa
  let v := s.predicted pa
  let nobody := (List.range 8).all fun b => (s.dir? line b).isNone
  let v' : BitVec 2 :=
    match s.ownerOf line with
    | some o => if o = core then (if v = 0 then 0 else v - 1) else (if v = 3 then 3 else v + 1)
    | none => if nobody then (if v = 0 then 0 else v - 1) else v
  { s with predictor := if v' = 0 then Sparse.erase s.predictor (predictorKey pa) else Sparse.put s.predictor (predictorKey pa) v' }

/-! ### Races (R135 to R138) -/

/-- R136 at a word: a writer of the same launch whose phase has not moved. One that has ended, which has no phase counter, counts as one
whose phase has moved (DESIGN CHOICE, log entry 69). -/
def State.wordRace (s : State) (u lrec word : Nat) : Bool :=
  match Sparse.get s.stamps word with
  | none => false
  | some st => st.writer != u && st.lrec == lrec && (match s.strand? st.writer with
      | some w => w.phase == st.phase
      | none => false)

/-- R137: a copy that the store's probes reach was last read by another strand of the launch in its present phase. -/
def State.readRace (s : State) (u lrec core line : Nat) : Bool :=
  match s.l1 core line with
  | some l => if l.state == .modified || l.state == .exclusive then false else any s
  | none => any s
where
  /-- The copies that are reached. -/
  any (s : State) : Bool :=
    let leaf := s.leafIdOf core
    (s.probedBy line core).any fun c =>
      !s.filtered leaf c &&
      match (s.l1 c line).bind (·.reader) with
      | some (w, ph) => w != u && (match s.strand? w with
          | some st => st.lrec == lrec && st.phase == ph
          | none => false)
      | none => false

/-- The stamps of a write stay as long as its line stays in its home slice (R135, R136). -/
def State.stampWords (s : State) (u lrec : Nat) (phase : BitVec 16) (pa n : Nat) : State :=
  if !s.l2Holds (lineOf pa) then s else
  { s with stamps := (wordsOfRun pa n).foldl (fun m w => Sparse.put m w ⟨u, lrec, phase⟩) s.stamps }

end Sys2Proof.Machine
end

