-- ==== Sys2Proof/Machine/Legality.lean ====
section
/-!
DEFINITION. Which fields each encoded instruction takes (06 R143 to R160), one Shape for each class of entries,
and the two decode-time checks: the form of the fields (R160 step 4) and their combination (step 5).
-/

namespace Sys2Proof

/-- What a register field of word 0 or of extended word 1 holds (06 R146): nothing, a register of one file, a c register
where X says so (07 R165), or a number up to a bound. -/
inductive Use where
  | no | x | xc | v | p | z | q
  | le (n : Nat)
  deriving DecidableEq, Repr

/-- The values R146 allows for the use. -/
def Use.ok : Use → BitVec 6 → Bool
  | .no, r => r == 0
  | .x, _ => true
  | .xc, _ => true
  | .v, r => r.toNat < 32
  | .p, r => r.toNat < 16
  | .z, r => r.toNat < 8
  | .q, r => 28 ≤ r.toNat && r.toNat < 32
  | .le n, r => r.toNat ≤ n

/-- Whether a tempo distance may stand on the field (06 R151). -/
def Use.tempo : Use → Bool
  | .x => true
  | .xc => true
  | .v => true
  | _ => false

/-- What the low bits of a base word hold: the fields B and M, the 10-bit immediate of an I-form (06 R145), the 6-bit
offset in B (10 R214, 07 R172), or the offsets of the J-form and of BP (07 R174). -/
inductive Low where
  | regs | imm10 | imm6 | off22 | off16
  deriving DecidableEq, Repr

/-- The classes of format codes of FMT (08 R186): no format, any code, or a class with the codes implemented. -/
inductive FmtClass where
  | none | any
  | fp (codes : List Nat)
  | int
  | fpInt
  deriving DecidableEq, Repr

/-- The six floating-point codes (03 R64). -/
def fpCodes : List Nat := [1, 2, 3, 4, 5, 6]

/-- The five integer codes (03 R64). -/
def intCodes : List Nat := [8, 9, 10, 11, 12]

/-- The fields of one entry of the manual. The forms are B, L, E and EL (07, notation). `ms` lists the values of M,
`bks` those of BK, and `immOk` says which IMM20 stands beside BK = 0b00. -/
structure Shape where
  fb : Bool := false
  fl : Bool := false
  fe : Bool := true
  fx : Bool := false
  d : Use := .no
  a : Use := .no
  b : Use := .no
  c : Use := .no
  e : Use := .no
  low : Low := .regs
  ms : List Nat := [0]
  xsel : Nat := 0
  cReg : Bool := false
  bks : List Nat := [0]
  imm : Nat → Bool := fun i => i == 0
  h : Bool := false
  rnd : Bool := false
  fmt : FmtClass := .none
  ok : Fields → Bool := fun _ => true
  supported : Fields → Bool := fun _ => true

/-- The two failures of decoding beside ILLEGAL_OPCODE (06 R160 steps 3 to 5). -/
inductive Reject where
  | illegalOpcode | illegalForm | unsupported
  deriving DecidableEq, Repr

/-- The fields of extended words 1 and 2 at the values that a base form gives them. -/
def Fields.baseFields (f : Fields) : Bool :=
  f.c == 0 && f.e == 0 && f.guard == Guard.none && f.h == 0 && f.ta == 0 && f.tb == 0 &&
  f.x == 0 && f.fmt == 0 && f.rnd == 0 && f.bk == 0 && f.imm20 == 0

/-- R145, R146, R153 on word 0 of a base form. -/
def Shape.baseWord (s : Shape) (f : Fields) : Bool :=
  match s.low with
  | .regs => s.d.ok f.d && s.a.ok f.a && s.b.ok f.b && s.ms.contains f.m.toNat
  | .imm10 => s.d.ok f.d && s.a.ok f.a
  | .imm6 => s.d.ok f.d && s.a.ok f.a && s.ms.contains f.m.toNat
  | .off22 => true
  | .off16 => s.d.ok f.d

/-- R153: base with literal. The field that the literal replaces is zero. -/
def Shape.litWord (s : Shape) (f : Fields) : Bool :=
  s.d.ok f.d && s.a.ok f.a && f.b == 0 && s.ms.contains f.m.toNat

/-- R145, R146 on word 0 of an extended form. -/
def Shape.extWord (s : Shape) (f : Fields) : Bool :=
  match s.low with
  | .off22 => true
  | .off16 => s.d.ok f.d
  | _ => s.d.ok f.d && s.a.ok f.a && (if f.bk == 0 then s.b.ok f.b else f.b == 0) && s.ms.contains f.m.toNat

/-- R149: GC = 1 needs both guards. -/
def Guard.ok (g : Guard) : Bool :=
  !g.gc || ((g.g1p != 0 || g.g1n) && (g.g2p != 0 || g.g2n))

/-- R159 and R165: the selector in X, or the bits that name shared core registers. -/
def Shape.xOk (s : Shape) (f : Fields) : Bool :=
  if s.cReg then
    (!f.x.getLsbD 0 || (s.d == .xc && f.d.toNat < 16)) &&
    (!f.x.getLsbD 1 || (s.a == .xc && f.a.toNat < 16 && f.ta == 0)) &&
    (!f.x.getLsbD 2 || (s.b == .xc && f.bk == 0 && f.b.toNat < 16 && f.tb == 0))
  else f.x.toNat == s.xsel

/-- R151, first two cases: a tempo distance stands on an x or v source only. -/
def Shape.tempoOk (s : Shape) (f : Fields) : Bool :=
  (f.ta == 0 || s.a.tempo) && (f.tb == 0 || (s.b.tempo && f.bk == 0))

/-- R64 and the class rule of R186. -/
def FmtClass.formOk (c : FmtClass) (fmt : Nat) : Bool :=
  match c with
  | .none => fmt == 0
  | .any => fmt ≤ 13
  | .fp _ => fpCodes.contains fmt
  | .int => intCodes.contains fmt
  | .fpInt => fpCodes.contains fmt || intCodes.contains fmt

/-- R186: a format of the class that the entry implements. -/
def FmtClass.supported (c : FmtClass) (fmt : Nat) : Bool :=
  match c with
  | .fp codes => codes.contains fmt
  | _ => true

/-- R147, R148, R152: the fields of the extended words (DEDUCED, log entry 50). -/
def Shape.extFields (s : Shape) (f : Fields) : Bool :=
  s.c.ok f.c && s.e.ok f.e && f.guard.ok && (f.h == 0 || s.h) && s.tempoOk f && s.xOk f &&
  s.fmt.formOk f.fmt.toNat && (f.rnd == 0 || s.rnd) && s.bks.contains f.bk.toNat &&
  (match f.bk.toNat with
    | 0 => s.imm f.imm20.toNat
    | 1 => true
    | 2 => f.imm20.toNat < 256
    | _ => f.imm20 == 0)

/-- R160 step 4. -/
def Shape.formOk (s : Shape) (f : Fields) : Bool :=
  s.ok f &&
  match f.form with
  | .base => s.fb && f.baseFields && s.baseWord f
  | .baseLit _ => s.fl && f.baseFields && s.litWord f
  | .ext => s.fe && f.bk != 3 && s.extWord f && s.extFields f
  | .extLit _ => s.fx && f.bk == 3 && s.extWord f && s.extFields f

/-- R160 steps 4 and 5 for one entry. -/
def Shape.reject (s : Shape) (f : Fields) : Option Reject :=
  if !s.formOk f then some .illegalForm
  else if !(s.fmt.supported f.fmt.toNat && s.supported f) then some .unsupported
  else none

/-- R154: with an operation in a floating-point format narrower than FP64, a 64-bit literal has bits [63:32] zero. -/
def fpLitOk (f : Fields) : Bool :=
  match f.form with
  | .extLit l => !(fpCodes.contains f.fmt.toNat && f.fmt != 1) || l.toNat < 2 ^ 32
  | _ => true

namespace Shape

/-- Two-source integer instructions of 07 R166. -/
def alu (ms : List Nat) : Shape :=
  { fb := true, fl := true, fx := true, d := .xc, a := .xc, b := .xc, ms := ms, cReg := true, bks := [0, 1, 2, 3] }

/-- The I-forms of 07 R166. -/
def aluImm : Shape :=
  { fb := true, d := .xc, a := .xc, low := .imm10, cReg := true, bks := [1] }

/-- One-source integer instructions of 07 R166. -/
def aluUn (m : Nat) : Shape := { fb := true, d := .xc, a := .xc, ms := [m], cReg := true }

/-- The load-immediate instructions of 07 R171. -/
def loadImm (lit : Bool) (bks : List Nat) : Shape :=
  { fb := true, fl := true, fx := lit, d := .xc, low := .imm10, cReg := true, bks := bks }

def all16 : List Nat := [0, 1, 2, 3, 4, 5, 6, 7, 8, 9, 10, 11, 12, 13, 14, 15]

/-- CMP (07 R172); its D is a predicate, so X bit 0 is refused. -/
def cmp : Shape := { alu (all16.take 12) with d := .p }

/-- CMPI, base form only (07 R172). -/
def cmpi : Shape := { fb := true, fe := false, d := .p, a := .x, low := .imm6, ms := all16.take 12 }

/-- B, CALL and SPAWN (07 R174, 13 R287). -/
def jump : Shape := { fb := true, low := .off22 }

/-- BP: D[5] is zero (07 R174). -/
def bp : Shape := { fb := true, d := .le 31, low := .off16 }

/-- The two-source instructions with forms B and E and no other B kind. -/
def plain (d a b : Use) (ms : List Nat := [0]) : Shape := { fb := true, d := d, a := a, b := b, ms := ms }

/-- PLIM and PWHILE (07 R180). -/
def plim (a : Use) (ms : List Nat) : Shape :=
  { fb := true, fl := true, fx := true, d := .p, a := a, b := .x, ms := ms, bks := [0, 1, 2, 3] }

/-- Vector instructions with two sources, the second of any kind (08). -/
def vec2 (c : Use) (fmt : FmtClass) (rnd : Bool) (xsel : Nat := 0) : Shape :=
  { fx := true, d := .v, a := .v, b := .v, c := c, ms := all16, xsel := xsel, bks := [0, 1, 2, 3],
    fmt := fmt, rnd := rnd, ok := fpLitOk }

/-- Vector instructions with one source (08). -/
def vec1 (fmt : FmtClass) (rnd : Bool) (xsel : Nat := 0) : Shape :=
  { d := .v, a := .v, ms := all16, xsel := xsel, fmt := fmt, rnd := rnd }

/-- VFCMP and VCMP: D is a predicate and E the condition (08 R191, R196). -/
def vecCmp (cond : Nat) (fmt : FmtClass) : Shape := { vec2 .no fmt false with d := .p, e := .le cond }

/-- The element width of a format code, RAW taken as 8 bits (08, 09 R202). -/
def widthOf (code : Nat) : Nat :=
  match code with
  | 1 => 64 | 2 => 32 | 3 => 16 | 4 => 16 | 8 => 64 | 9 => 32 | 10 => 16 | 13 => 16
  | _ => 8

/-- The ratio of the wider to the narrower element of a conversion (08 R198). RAW has elements of 8 bits here as in the move class (DESIGN
CHOICE, log entry 92). -/
def ratioOf (t s : Nat) : Nat := max (widthOf t) (widthOf s) / min (widthOf t) (widthOf s)

/-- R198: the part number lies below the ratio. -/
def partOk (f : Fields) : Bool :=
  (f.imm20.toNat % 8) < ratioOf f.fmt.toNat f.e.toNat

/-- The pairs that VFCVT implements (08 R199). -/
def cvtPair (t s : Nat) : Bool :=
  (fpCodes.contains s && fpCodes.contains t && s != t) ||
  ([1, 2, 3, 4].contains s && intCodes.contains t) ||
  (intCodes.contains s && [1, 2, 3, 4].contains t) ||
  (s == 7 && (t == 2 || t == 3))

/-- VFCVT (08 R198, R199). -/
def vfcvt : Shape :=
  { d := .v, a := .v, e := .le 13, ms := all16, imm := fun i => i < 8, rnd := true, fmt := .any,
    ok := partOk, supported := fun f => cvtPair f.fmt.toNat f.e.toNat }

/-- VICVT (08 R198, R200). -/
def vicvt : Shape :=
  { d := .v, a := .v, e := .le 13, ms := all16, imm := fun i => i < 16, fmt := .any, ok := partOk,
    supported := fun f => intCodes.contains f.fmt.toNat && intCodes.contains f.e.toNat && f.fmt.toNat != f.e.toNat }

/-- Permutes with a vector or scalar B (09 R202). -/
def perm (b c : Use) (bks : List Nat) (ms : List Nat := all16) (xsel : Nat := 0)
    (imm : Nat → Bool := fun i => i == 0) : Shape :=
  { fx := bks.contains 3, d := .v, a := .v, b := b, c := c, ms := ms, xsel := xsel, bks := bks, imm := imm, fmt := .any }

/-- R207: with BK = 0b00 the B field names the start vector when IMM20 is 1 and is zero when IMM20 is 0. -/
def startOk (f : Fields) : Bool :=
  fpLitOk f && (f.bk != 0 || f.imm20 == 1 || (f.b == 0 && f.tb == 0)) &&
  (f.rnd == 0 || !intCodes.contains f.fmt.toNat)

/-- Reductions and the scan (09 R206, R207). -/
def red (fmt : FmtClass) (rnd : Bool) (xsel : Nat := 0) : Shape :=
  { vec2 .no fmt rnd xsel with imm := fun i => i ≤ 1, ok := startOk }

/-- VLD, VST and VLDFF (09 R208). -/
def vmem : Shape := { d := .v, a := .x, ms := all16, imm := fun _ => true, h := true, fmt := .any }

/-- VLDS and VSTS (09 R208). -/
def vmemStride : Shape := { vmem with fx := true, b := .x, bks := [0, 1, 2, 3] }

/-- VGATH and VSCAT (09 R208, R209); only a scalar operand takes a tempo distance. -/
def vmemIndex : Shape :=
  { vmem with b := .v, e := .le 3, ok := fun f => f.tb == 0, supported := fun f => [1, 2, 8, 9].contains f.fmt.toNat }

/-- Memory instructions with a 6-bit base offset (10 R214). -/
def mem (d : Use) (ms : List Nat) : Shape :=
  { fb := true, d := d, a := .x, low := .imm6, ms := ms, imm := fun _ => true, h := true }

/-- LDX and STX (10 R220, R221); R214 gives them a B operand of any kind but a literal. -/
def remote (ms : List Nat) : Shape :=
  { fb := true, d := .x, a := .x, b := .x, ms := ms, bks := [0, 1, 2], imm := fun _ => true, h := true }

/-- BAR and BARW (10 R230, R231). -/
def barrier : Shape :=
  { fb := true, fx := true, d := .x, a := .x, b := .x, bks := [0, 1, 2, 3], imm := fun _ => true, h := true }

/-- R224, R228: a local atomic has E zero and no offset; a remote one holds its mode in IMM20. -/
def atomicOk (f : Fields) : Bool :=
  if f.m.getLsbD 3 then f.bk == 0 && f.imm20.toNat ≤ 5 else f.e == 0 && (f.bk != 0 || f.imm20 == 0)

/-- The atomics (10 R224). -/
def atomic (c : Use) (ms : List Nat) (xsel : Nat := 0) (supported : Fields → Bool := fun _ => true) : Shape :=
  { fx := true, d := .x, a := .x, b := .x, c := c, e := .x, ms := ms, xsel := xsel, bks := [0, 1, 2, 3],
    imm := fun _ => true, h := true, ok := atomicOk, supported := supported }

/-- R224: AVCAS and APCAS have no 32-bit form. -/
def wide (f : Fields) : Bool := f.m.toNat % 4 == 3

/-- Instructions with forms B and E and a modifier only. -/
def only (ms : List Nat := [0]) : Shape := { fb := true, ms := ms }

/-- SLEEP and UNWATCH (10 R235, R236). -/
def mask (d : Use) : Shape :=
  { fb := true, fx := true, d := d, b := .x, low := .imm10, bks := [0, 1, 2, 3] }

/-- PUTN (10 R238). -/
def putn : Shape :=
  { d := .x, a := .x, b := .x, c := .x, ms := [0, 1, 2, 3, 4, 5, 6, 7], bks := [0, 1, 2],
    ok := fun f => !f.m.getLsbD 2 || (f.a.toNat < 32 && f.c.toNat < 32) }

/-- FEMPTY and FFULL (10 R239). -/
def presence : Shape :=
  { fb := true, d := .x, ms := [0, 1], ok := fun f => f.m == 0 || f.d.toNat < 32 }

/-- R254, R256, R258: the combinations of the matrix unit. -/
def mmaOk (f : Fields) : Bool :=
  let acc := f.fmt.toNat; let a := f.e.toNat; let b := f.c.toNat
  ((acc == 2 && ((a == 3 && b == 3) || (a == 4 && b == 4) || ([5, 6].contains a && [5, 6].contains b) ||
      ([3, 4, 5].contains a && b == 13))) ||
    (acc == 9 && [11, 12].contains a && [11, 12].contains b)) &&
  (!f.m.getLsbD 1 || (acc == 2 && [3, 4, 5, 6].contains a && [3, 4, 5, 6].contains b && !f.m.getLsbD 0))

/-- GANG and MMA (11 R245). -/
def product (gang : Bool) : Shape :=
  { fx := gang, d := .x, a := .z, b := if gang then .x else .no, c := .le 13, e := .le 13,
    ms := if gang then [0, 1, 2, 3] else [0, 2], bks := if gang then [0, 1, 2, 3] else [0],
    fmt := .any, rnd := true, supported := mmaOk }

/-- Extended-only instructions of 11 and 13. -/
def extOnly (d a b : Use) (ms : List Nat := [0]) (xsel : Nat := 0) (bks : List Nat := [0]) : Shape :=
  { fx := bks.contains 3, d := d, a := a, b := b, ms := ms, xsel := xsel, bks := bks }

/-- ESET (11 R245): index in C for the two engines, tile in D for `.z`. -/
def eset : Shape :=
  { fx := true, d := .z, b := .x, c := .le 15, ms := [0, 1, 2], bks := [0, 1, 2, 3],
    ok := fun f => if f.m == 2 then f.c == 0 else f.d == 0 }

/-- EGET (11 R245). -/
def eget : Shape :=
  { d := .x, a := .z, c := .le 16, ms := [0, 1, 2, 4, 5],
    ok := fun f => if f.m == 2 then f.c == 0 else f.a == 0 && (f.m.getLsbD 2 || f.c.toNat < 16) }

/-- MST (11 R245, R260). -/
def mst : Shape :=
  { d := .x, a := .z, fmt := .any, rnd := true, supported := fun f => [2, 3, 4, 5, 6, 9].contains f.fmt.toNat }

/-- CPYR (11 R245): FMT and a v register go with M = 1. -/
def cpyr : Shape :=
  { d := .x, a := .x, ms := [0, 1], imm := fun _ => true, fmt := .any,
    ok := fun f => if f.m == 1 then f.d.toNat < 32 else f.fmt == 0 }

/-- LOOP (12 R266): the offset is positive. -/
def loopStart : Shape := { a := .x, imm := fun i => 0 < i && i < 2 ^ 19 }

/-- LBRK (12 R266). -/
def lbrk : Shape := { a := .x, ms := [0, 1, 2], xsel := 2, ok := fun f => f.m != 0 || (f.a == 0 && f.ta == 0) }

/-- QPUSH (12 R272). -/
def qpush : Shape := { d := .q, a := .x, fmt := .any, supported := fun f => !([0, 7, 13].contains f.fmt.toNat) }

/-- MSG (13 R297): a mailbox takes the modes of R221 for a write, the tag form `.plain`. -/
def msg : Shape := { a := .x, b := .x, c := .x, ms := [0, 3, 4, 5, 8] }

/-- The read-only special registers (13 R305). -/
def readOnlySr : List Nat := [7, 8, 12, 20, 21, 22, 23]

/-- SRD and SWR (13 R305). -/
def srd : Shape := { d := .x, c := .le 23 }
def swr : Shape :=
  { fx := true, b := .x, c := .le 23, xsel := 1, bks := [0, 1, 2, 3], ok := fun f => !readOnlySr.contains f.c.toNat }

/-- TRAP (13 R287): BK = 0b01. -/
def trap : Shape := { bks := [1] }

/-- TREAD and TWRITE (13 R287). -/
def tread : Shape := { fx := true, d := .x, a := .x, b := .x, e := .x, bks := [0, 1, 2, 3] }
def twrite : Shape := { fx := true, d := .x, a := .x, b := .x, c := .x, bks := [0, 1, 2, 3] }

/-- TLBINV and COHERE (13 R287). -/
def region (d : Use) (ms : List Nat) : Shape :=
  { fb := true, fx := true, d := d, a := .x, b := .x, ms := ms, bks := [0, 1, 2, 3] }

end Shape

end Sys2Proof

namespace Sys2Proof

/-- LEA (07 R170): IMM20 is the offset when BK = 0b00. -/
def Shape.lea : Shape := { Shape.alu [0, 1, 2, 3] with imm := fun _ => true }

/-- VFSCALE (08 R192): its B is an integer, so no literal rule of the floating-point formats applies. -/
def Shape.vfscale : Shape := { Shape.vec2 .no (.fp fpCodes) true with ok := fun _ => true }

/-- The bitwise forms take any code (08 R195, R197); their B is a floating-point value for no code. -/
def Shape.bitwise (xsel : Nat) : Shape := { Shape.vec2 .no .any false xsel with ok := fun _ => true }

/-- VTAG (08 R197). -/
def Shape.vtag : Shape := { Shape.vec1 .any false with ms := [0] }

/-- VFILL (08 R197): B names an x register. -/
def Shape.vfill : Shape := { Shape.vec2 .no .any false 1 with a := .no, b := .x }

/-- VSHUF (09 R202): the selector in IMM20[7:0]. -/
def Shape.vshuf : Shape := { Shape.perm .no .no [1] with ok := fun f => f.imm20.toNat < 256 }

/-- VINS and VEXT (09 R202, R205). -/
def Shape.vins : Shape := { Shape.perm .x .no [0, 1, 2, 3] [0] with a := .x }
def Shape.vext : Shape := { Shape.perm .x .no [0, 1, 2, 3] [0] with d := .x }

/-- VLDFF (09 R213): M = 0 is refused. -/
def Shape.vldff : Shape := { Shape.vmem with ok := fun f => f.m != 0 }

/-- QBR (12 R271). -/
def Shape.qbr : Shape := { Shape.extOnly .no .x .no with imm := fun _ => true }

/-- The primary opcode, the shape and the fields of an encoded instruction (06 R158, 28 R454); an event of the device has none. X bit 0 of
SEL names D as on the others, for M names a predicate register and no X bit names M (07 R165; DESIGN CHOICE, log entry 90). -/
def Instr.entry : Instr → Option (Nat × Shape × Fields)
  | .nop f => some (0x01, .only, f)
  | .add f => some (0x02, .alu [0, 1], f)
  | .addi f => some (0x03, .aluImm, f)
  | .sub f => some (0x04, .alu [0, 1], f)
  | .mul f => some (0x05, .alu [0, 1], f)
  | .mulh f => some (0x06, .alu [0], f)
  | .mulhu f => some (0x06, .alu [1], f)
  | .div f => some (0x07, .alu [0], f)
  | .divu f => some (0x07, .alu [1], f)
  | .rem f => some (0x07, .alu [2], f)
  | .remu f => some (0x07, .alu [3], f)
  | .and f => some (0x08, .alu [0], f)
  | .andi f => some (0x09, .aluImm, f)
  | .or f => some (0x0A, .alu [0], f)
  | .ori f => some (0x0B, .aluImm, f)
  | .xor f => some (0x0C, .alu [0], f)
  | .xori f => some (0x0D, .aluImm, f)
  | .andn f => some (0x0E, .alu [0], f)
  | .shl f => some (0x0F, .alu [0, 1], f)
  | .shr f => some (0x10, .alu [0, 1], f)
  | .sra f => some (0x11, .alu [0, 1], f)
  | .rotl f => some (0x12, .alu [0, 1], f)
  | .clz f => some (0x13, .aluUn 0, f)
  | .ctz f => some (0x13, .aluUn 1, f)
  | .popc f => some (0x13, .aluUn 2, f)
  | .brev f => some (0x13, .aluUn 3, f)
  | .bswap f => some (0x13, .aluUn 4, f)
  | .min f => some (0x14, .alu [0], f)
  | .max f => some (0x14, .alu [1], f)
  | .minu f => some (0x14, .alu [2], f)
  | .maxu f => some (0x14, .alu [3], f)
  | .sel f => some (0x15, .alu Shape.all16, f)
  | .extb f => some (0x16, .alu [0, 1], f)
  | .insb f => some (0x17, .alu [0], f)
  | .li f => some (0x18, .loadImm true [1, 2, 3], f)
  | .lih f => some (0x19, .loadImm false [1, 2], f)
  | .lit f => some (0x1A, .loadImm false [1], f)
  | .lea f => some (0x1B, .lea, f)
  | .cmp f => some (0x1C, .cmp, f)
  | .cmpi f => some (0x1D, .cmpi, f)
  | .b f => some (0x20, .jump, f)
  | .bp f => some (0x21, .bp, f)
  | .call f => some (0x22, .jump, f)
  | .calli f => some (0x23, .plain .x .x .no, f)
  | .jmpi f => some (0x24, .plain .no .x .no, f)
  | .ret f => some (0x25, .plain .no .x .no, f)
  | .throw f => some (0x26, .plain .no .x .no, f)
  | .plim f => some (0x30, .plim .no [0, 1, 2, 3], f)
  | .pwhile f => some (0x31, .plim .x Shape.all16, f)
  | .pand f => some (0x32, .plain .p .p .p, f)
  | .por f => some (0x33, .plain .p .p .p, f)
  | .pxor f => some (0x34, .plain .p .p .p, f)
  | .pnot f => some (0x35, .plain .p .p .no, f)
  | .pfirst f => some (0x36, .plain .p .p .no [0, 1, 2, 3], f)
  | .pcnt f => some (0x37, .plain .x .p .no [0, 1, 2, 3], f)
  | .pmovxRd f => some (0x38, .plain .x .no .no [0], f)
  | .pmovxWr f => some (0x38, .plain .no .x .no [1], f)
  | .vwid f => some (0x39, .plain .x .no .no [0, 1, 2, 3, 4], f)
  | .vfadd f => some (0x40, .vec2 .no (.fp fpCodes) true, f)
  | .vfsub f => some (0x41, .vec2 .no (.fp fpCodes) true, f)
  | .vfmul f => some (0x42, .vec2 .no (.fp fpCodes) true, f)
  | .vfma f => some (0x43, .vec2 .v (.fp fpCodes) true, f)
  | .vfms f => some (0x44, .vec2 .v (.fp fpCodes) true, f)
  | .vfnma f => some (0x45, .vec2 .v (.fp fpCodes) true, f)
  | .vfnms f => some (0x46, .vec2 .v (.fp fpCodes) true, f)
  | .vfmin f => some (0x47, .vec2 .no (.fp fpCodes) false, f)
  | .vfmax f => some (0x48, .vec2 .no (.fp fpCodes) false, f)
  | .vfabs f => some (0x49, .vec1 (.fp fpCodes) false, f)
  | .vfneg f => some (0x4A, .vec1 (.fp fpCodes) false, f)
  | .vfcps f => some (0x4B, .vec2 .no (.fp fpCodes) false, f)
  | .vfdiv f => some (0x4C, .vec2 .no (.fp [1, 2, 3, 4]) true, f)
  | .vfsqrt f => some (0x4D, .vec1 (.fp [1, 2, 3, 4]) true, f)
  | .vfrcp f => some (0x4E, .vec1 (.fp [1, 2, 3, 4]) true, f)
  | .vfrsq f => some (0x4F, .vec1 (.fp [1, 2, 3, 4]) true, f)
  | .vfexp2 f => some (0x50, .vec1 (.fp [2, 3, 4]) true, f)
  | .vflog2 f => some (0x51, .vec1 (.fp [2, 3, 4]) true, f)
  | .vfsin f => some (0x52, .vec1 (.fp [2, 3, 4]) true, f)
  | .vfcos f => some (0x53, .vec1 (.fp [2, 3, 4]) true, f)
  | .vftanh f => some (0x54, .vec1 (.fp [2, 3, 4]) true, f)
  | .vfcmp f => some (0x55, .vecCmp 7 (.fp fpCodes), f)
  | .vfclass f => some (0x56, .vec1 (.fp fpCodes) false, f)
  | .vfcvt f => some (0x57, .vfcvt, f)
  | .vfrnd f => some (0x58, .vec1 (.fp fpCodes) true, f)
  | .vfscale f => some (0x59, .vfscale, f)
  | .vfdot2 f => some (0x5A, .vec2 .v (.fp [3, 4]) true, f)
  | .vadd f => some (0x60, .vec2 .no .int false, f)
  | .vsub f => some (0x61, .vec2 .no .int false, f)
  | .vmul f => some (0x62, .vec2 .no .int false, f)
  | .vmulh f => some (0x63, .vec2 .no .int false, f)
  | .vmadd f => some (0x64, .vec2 .v .int false, f)
  | .vand f => some (0x65, .bitwise 0, f)
  | .vor f => some (0x65, .bitwise 1, f)
  | .vxor f => some (0x65, .bitwise 2, f)
  | .vandn f => some (0x65, .bitwise 3, f)
  | .vshl f => some (0x66, .vec2 .no .int false 0, f)
  | .vshr f => some (0x66, .vec2 .no .int false 1, f)
  | .vsra f => some (0x66, .vec2 .no .int false 2, f)
  | .vmin f => some (0x67, .vec2 .no .int false 0, f)
  | .vmax f => some (0x67, .vec2 .no .int false 1, f)
  | .vminu f => some (0x67, .vec2 .no .int false 2, f)
  | .vmaxu f => some (0x67, .vec2 .no .int false 3, f)
  | .vabs f => some (0x68, .vec1 .int false, f)
  | .vadds f => some (0x69, .vec2 .no .int false 0, f)
  | .vsubs f => some (0x69, .vec2 .no .int false 1, f)
  | .vcmp f => some (0x6A, .vecCmp 11 .int, f)
  | .vsel f => some (0x6B, .vec2 .no .any false, f)
  | .vclz f => some (0x6C, .vec1 .int false 0, f)
  | .vpopc f => some (0x6C, .vec1 .int false 1, f)
  | .vtag f => some (0x6D, .vtag, f)
  | .vfill f => some (0x6D, .vfill, f)
  | .vmov f => some (0x6E, .vec1 .any false, f)
  | .vrel f => some (0x6F, .extOnly .no .no .no, f)
  | .vshuf f => some (0x70, .vshuf, f)
  | .vperm f => some (0x71, .perm .v .v [0], f)
  | .vbcast f => some (0x72, .perm .x .no [0, 1, 2, 3], f)
  | .vslideu f => some (0x73, .perm .x .v [0, 1, 2, 3] Shape.all16 0, f)
  | .vslided f => some (0x73, .perm .x .v [0, 1, 2, 3] Shape.all16 1, f)
  | .vcomp f => some (0x74, .vec1 .any false, f)
  | .vexp f => some (0x75, .vec1 .any false, f)
  | .vzip f => some (0x76, .perm .v .no [0] Shape.all16 0 (fun i => i ≤ 1), f)
  | .vuzip f => some (0x76, .perm .v .no [0] Shape.all16 1 (fun i => i ≤ 1), f)
  | .vins f => some (0x77, .vins, f)
  | .vext f => some (0x78, .vext, f)
  | .vredadd f => some (0x79, .red .fpInt true, f)
  | .vredmax f => some (0x7A, .red .fpInt true 0, f)
  | .vredmin f => some (0x7A, .red .fpInt true 1, f)
  | .vredand f => some (0x7B, .red .int false 0, f)
  | .vredor f => some (0x7B, .red .int false 1, f)
  | .vscanadd f => some (0x7C, .red .fpInt true, f)
  | .vicvt f => some (0x7D, .vicvt, f)
  | .vld f => some (0x90, .vmem, f)
  | .vst f => some (0x91, .vmem, f)
  | .vlds f => some (0x92, .vmemStride, f)
  | .vsts f => some (0x93, .vmemStride, f)
  | .vgath f => some (0x94, .vmemIndex, f)
  | .vscat f => some (0x95, .vmemIndex, f)
  | .vldff f => some (0x96, .vldff, f)
  | .ld f => some (0x80, .mem .x [0, 1, 2, 3, 4, 5, 6], f)
  | .st f => some (0x81, .mem .x [0, 1, 2, 3], f)
  | .lds f => some (0x82, .mem .x [0], f)
  | .sts f => some (0x83, .mem .x [0], f)
  | .ldf f => some (0x84, .mem .x [0], f)
  | .ste f => some (0x85, .mem .x [0], f)
  | .few f => some (0x86, .mem .x [0], f)
  | .ldx f => some (0x87, .remote [0, 1, 2], f)
  | .stx f => some (0x88, .remote [0, 3, 4, 5], f)
  | .pref f => some (0x89, .mem .no [0, 1, 2], f)
  | .cflush f => some (0x8A, .mem .no [0], f)
  | .cinv f => some (0x8B, .mem .no [0], f)
  | .aadd f => some (0x98, .atomic .no [2, 3, 10, 11], f)
  | .aand f => some (0x99, .atomic .no [2, 3, 10, 11] 0, f)
  | .aor f => some (0x99, .atomic .no [2, 3, 10, 11] 1, f)
  | .axor f => some (0x99, .atomic .no [2, 3, 10, 11] 2, f)
  | .amin f => some (0x9A, .atomic .no [2, 3, 10, 11] 0, f)
  | .amax f => some (0x9A, .atomic .no [2, 3, 10, 11] 1, f)
  | .aminu f => some (0x9A, .atomic .no [2, 3, 10, 11] 2, f)
  | .amaxu f => some (0x9A, .atomic .no [2, 3, 10, 11] 3, f)
  | .aswap f => some (0x9B, .atomic .no [2, 3, 10, 11], f)
  | .acas f => some (0x9C, .atomic .x [2, 3, 10, 11], f)
  | .agts f => some (0x9D, .atomic .no [2, 3, 6, 7, 10, 11, 14, 15], f)
  | .avcas f => some (0x9E, .atomic .x [2, 3, 10, 11] 0 Shape.wide, f)
  | .apcas f => some (0x9F, .atomic .x [2, 3, 10, 11] 0 Shape.wide, f)
  | .fence f => some (0xA0, .only [0, 1, 2, 3, 4, 5, 6], f)
  | .acq f => some (0xA1, .only [0, 1, 2, 3, 4, 5, 6], f)
  | .rel f => some (0xA2, .only [0, 1, 2, 3, 4, 5, 6], f)
  | .drain f => some (0xA3, .only [0, 1, 2, 3, 4], f)
  | .watch f => some (0xA4, .mem .x [0, 1, 2, 3, 4, 5, 6, 7], f)
  | .unwatch f => some (0xA5, .mask .no, f)
  | .sleep f => some (0xA6, .mask .x, f)
  | .bar f => some (0xA7, .barrier, f)
  | .barw f => some (0xA8, .barrier, f)
  | .putn f => some (0xA9, .putn, f)
  | .fempty f => some (0xAA, .presence, f)
  | .ffull f => some (0xAB, .presence, f)
  | .loop f => some (0xB0, .loopStart, f)
  | .lend f => some (0xB0, .extOnly .no .no .no [0] 1, f)
  | .lbrk f => some (0xB0, .lbrk, f)
  | .dsplit f => some (0xB1, .extOnly .no .no .no [0] 0, f)
  | .djoin f => some (0xB1, .extOnly .no .no .no [0] 1, f)
  | .qpush f => some (0xB2, .qpush, f)
  | .qpop f => some (0xB2, .extOnly (.le 27) .q .no [0] 1, f)
  | .qbr f => some (0xB3, .qbr, f)
  | .iter f => some (0xB4, .plain .x .x .no [0, 1], f)
  | .tidx f => some (0xB5, .plain .x .no .no, f)
  | .texp f => some (0xB6, .only Shape.all16, f)
  | .brko f => some (0xB7, .only, f)
  | .spawn f => some (0xB8, .jump, f)
  | .susp f => some (0xB9, .extOnly .no .x .no, f)
  | .resm f => some (0xB9, .extOnly .x .x .x [0] 1, f)
  | .finb f => some (0xBA, .extOnly .x .no .no, f)
  | .fine f => some (0xBA, .extOnly .no .no .no [0] 1, f)
  | .finw f => some (0xBA, .extOnly .no .x .no [0] 2, f)
  | .migr f => some (0xBB, .plain .no .x .no, f)
  | .armt f => some (0xBC, .plain .x .x .no, f)
  | .msg f => some (0xBD, .msg, f)
  | .launch f => some (0xBE, .plain .x .x .no, f)
  | .trigger f => some (0xBF, .extOnly .no .no .no, f)
  | .waitp f => some (0xBF, .extOnly .no .no .no [0] 1, f)
  | .gang f => some (0xC0, .product true, f)
  | .mma f => some (0xC1, .product false, f)
  | .mprog f => some (0xC2, .extOnly .no .no .x [0] 0 [0, 1, 2, 3], f)
  | .mzero f => some (0xC3, .extOnly .no .z .no, f)
  | .mrd f => some (0xC4, .extOnly .v .z .x [0] 0 [0, 1], f)
  | .mwr f => some (0xC5, .extOnly .z .v .x [0] 0 [0, 1], f)
  | .mst f => some (0xC6, .mst, f)
  | .eset f => some (0xC7, .eset, f)
  | .eget f => some (0xC8, .eget, f)
  | .ego f => some (0xC9, .extOnly .x .no .no [0, 1], f)
  | .ecan f => some (0xCA, .extOnly .x .x .no [0] 0, f)
  | .eqry f => some (0xCA, .extOnly .x .x .no [0] 1, f)
  | .cpy f => some (0xCB, .extOnly .x .no .no [0, 1, 2, 3], f)
  | .cpyr f => some (0xCC, .cpyr, f)
  | .cpyrow f => some (0xCD, .extOnly .x .no .no [0, 1, 2, 3], f)
  | .cbook f => some (0xCE, .extOnly .x .no .no, f)
  | .mres f => some (0xCF, .extOnly .x .x .no, f)
  | .tstop f => some (0xD0, .extOnly .x .x .no [0] 0, f)
  | .tstart f => some (0xD0, .extOnly .x .x .no [0] 1, f)
  | .tread f => some (0xD1, .tread, f)
  | .twrite f => some (0xD2, .twrite, f)
  | .tstep f => some (0xD3, .plain .x .x .no, f)
  | .tgrant f => some (0xD4, .extOnly .x .x .x [0] 0 [0, 1, 2, 3], f)
  | .trevoke f => some (0xD4, .extOnly .x .x .x [0] 1 [0, 1, 2, 3], f)
  | .srd f => some (0xD5, .srd, f)
  | .swr f => some (0xD5, .swr, f)
  | .vtime f => some (0xD6, .plain .x .no .no, f)
  | .trap f => some (0xD7, .trap, f)
  | .brk f => some (0xD7, .extOnly .no .no .no [0] 1, f)
  | .psplit f => some (0xD8, .extOnly .x .x .no [0] 0, f)
  | .pmerge f => some (0xD8, .extOnly .x .x .no [0] 1, f)
  | .genbump f => some (0xD9, .plain .x .x .no, f)
  | .cast f => some (0xDA, .plain .x .x .no, f)
  | .step f => some (0xDB, .only, f)
  | .tlbinv f => some (0xDC, .region .no [0], f)
  | .cohere f => some (0xDD, .region .x [0, 1], f)
  | .exit f => some (0xDE, .extOnly .no .no .no [0] 0, f)
  | .exitChild f => some (0xDE, .extOnly .no .no .no [1] 0, f)
  | .yield f => some (0xDE, .extOnly .no .no .no [0] 1, f)
  | .barrelRefill _ _ => none
  | .quantumEnd _ _ => none
  | .itemDispatch _ => none
  | .spillReload _ => none
  | .continuationPickup _ => none
  | .migrationArrival _ => none
  | .memoryReply _ => none
  | .syncRetry _ => none
  | .launchAdmission _ => none
  | .launchAging _ => none
  | .launchCompletion _ => none
  | .stealProbe _ _ => none
  | .armtDeferredPush _ _ => none
  | .tempoDelivery _ _ _ _ => none
  | .breakIndexRecord _ _ => none
  | .matrixCommandRun _ => none
  | .gangBarrier _ => none
  | .ksplitSumArrival _ => none
  | .tileCommandRun _ => none
  | .mstRun _ => none
  | .copyCommandRun _ => none
  | .cpyrRun _ => none
  | .cpyrowRun _ => none
  | .cbookRun _ => none
  | .homeGets _ _ => none
  | .homeGetm _ _ => none
  | .homeUpgrade _ _ => none
  | .homePuts _ _ => none
  | .homePutOwner _ _ => none
  | .coreInv _ _ => none
  | .coreFwdGets _ _ => none
  | .coreFwdGetm _ _ => none
  | .corePutack _ _ => none
  | .requesterResponse _ _ => none
  | .routerProbeDrop _ _ => none
  | .hostSnoop _ => none
  | .hostSnoopInvalidate _ => none
  | .backInvalidateResponse _ => none
  | .hostOwnershipRequest _ => none
  | .leaseExpiry _ => none
  | .wrapPause => none
  | .leaseSyncSend _ => none
  | .fabricLeaseSync _ => none
  | .fabricPauseControl _ => none
  | .tokenRefill => none
  | .putnDelivery _ _ => none
  | .stop => none
  | .resume => none
  | .switch => none
  | .prefetch => none
  | .clockStopAtT => none
  | .sweepToken _ => none
  | .unitMove => none
  | .scrubWalkEnd _ => none
  | .create _ => none
  | .destroy _ => none
  | .quota _ => none
  | .inval _ => none
  | .hdmDecoderCommit _ _ _ _ => none
  | .hostMemRead _ _ => none
  | .hostMemWrite _ _ => none
  | .fabricLdx _ => none
  | .fabricStx _ => none
  | .fabricRemoteAtomic _ => none
  | .fabricMsgMailbox _ => none
  | .fabricMsgTag _ => none
  | .fabricDataResponse _ => none
  | .fabricAck _ => none
  | .fabricFailure _ => none
  | .streamResend _ => none
  | .streamRecordFree _ _ _ => none
  | .unexpectedPacketTimeout _ => none
  | .flitCrcFail _ => none
  | .replayRequest _ _ => none
  | .laneFailure _ _ => none
  | .linkSilenceEnd _ => none
  | .portWreqX4 _ => none
  | .portWreqX8 _ => none
  | .portWreqRetrain _ => none
  | .portEnWrite _ _ => none
  | .tierLinkDown _ => none
  | .d2dLaneFailure _ _ => none
  | .powerUp _ => none
  | .bgo _ => none
  | .bootImageLoad => none
  | .bootBlock _ _ => none
  | .csel _ => none
  | .ifreqWrite _ _ => none
  | .freqTransition _ => none
  | .throttleUpdate _ _ => none
  | .wearUpdate _ _ => none
  | .bar0UnsupportedAccess _ _ _ => none
  | .pldmRequest _ _ => none
  | .spdmRequest _ => none
  | .registerWrite _ _ => none
  | .leaseClockPassesVismax _ => none
  | .neighbourStalemate _ => none
  | .jobEntryWrite _ _ => none
  | .uncorrectableError _ => none

/-- The failure of R160 steps 4 and 5, if the fields of the instruction meet one; an event has no encoding at all. -/
def Instr.reject (i : Instr) : Option Reject :=
  match i.entry with
  | some (_, s, f) => s.reject f
  | none => some .illegalOpcode

end Sys2Proof
end

