-- ==== Sys2Proof/WellFormed.lean ====
section
/-!
DEFINITION. A well-formed instruction: one that an encoding of the spec stands for, with every field at a value its
entry allows (06 R144 to R160).
-/

namespace Sys2Proof

/-- No decode-time check refuses the instruction. An event of the device is no instruction word and is not well-formed
in this sense. -/
def Instr.wellFormed (i : Instr) : Bool := i.reject.isNone

end Sys2Proof
end

