-- ==== Sys2Proof/Decode.lean ====
section
/-!
DEFINITION. Decoding bytes into an instruction, total and refusing by name (06 R143 to R160), and the encoder of a
well-formed instruction from the same tables.
-/

namespace Sys2Proof

/-- Why bytes are no instruction: fewer bytes than the length asks for, or a check of R160 steps 3 to 5. -/
inductive DecodeError where
  | truncated | illegalOpcode | illegalForm | unsupported
  deriving DecidableEq, Repr

def Reject.toError : Reject → DecodeError
  | .illegalOpcode => .illegalOpcode
  | .illegalForm => .illegalForm
  | .unsupported => .unsupported

/-- The mnemonic that selector value `k` chooses, none for a reserved value (06 R159). -/
def pick (k : Nat) (cs : List (Fields → Instr)) (f : Fields) : Option Instr := (cs[k]?).map (· f)

/-- Opcodes 0x00 to 0x3F of R158. -/
def opScalar : List (Nat × (Fields → Option Instr)) :=
  [(0x01, fun f => some (.nop f)),
   (0x02, fun f => some (.add f)),
   (0x03, fun f => some (.addi f)),
   (0x04, fun f => some (.sub f)),
   (0x05, fun f => some (.mul f)),
   (0x06, fun f => pick f.m.toNat [.mulh, .mulhu] f),
   (0x07, fun f => pick f.m.toNat [.div, .divu, .rem, .remu] f),
   (0x08, fun f => some (.and f)),
   (0x09, fun f => some (.andi f)),
   (0x0A, fun f => some (.or f)),
   (0x0B, fun f => some (.ori f)),
   (0x0C, fun f => some (.xor f)),
   (0x0D, fun f => some (.xori f)),
   (0x0E, fun f => some (.andn f)),
   (0x0F, fun f => some (.shl f)),
   (0x10, fun f => some (.shr f)),
   (0x11, fun f => some (.sra f)),
   (0x12, fun f => some (.rotl f)),
   (0x13, fun f => pick f.m.toNat [.clz, .ctz, .popc, .brev, .bswap] f),
   (0x14, fun f => pick f.m.toNat [.min, .max, .minu, .maxu] f),
   (0x15, fun f => some (.sel f)),
   (0x16, fun f => some (.extb f)),
   (0x17, fun f => some (.insb f)),
   (0x18, fun f => some (.li f)),
   (0x19, fun f => some (.lih f)),
   (0x1A, fun f => some (.lit f)),
   (0x1B, fun f => some (.lea f)),
   (0x1C, fun f => some (.cmp f)),
   (0x1D, fun f => some (.cmpi f)),
   (0x20, fun f => some (.b f)),
   (0x21, fun f => some (.bp f)),
   (0x22, fun f => some (.call f)),
   (0x23, fun f => some (.calli f)),
   (0x24, fun f => some (.jmpi f)),
   (0x25, fun f => some (.ret f)),
   (0x26, fun f => some (.throw f)),
   (0x30, fun f => some (.plim f)),
   (0x31, fun f => some (.pwhile f)),
   (0x32, fun f => some (.pand f)),
   (0x33, fun f => some (.por f)),
   (0x34, fun f => some (.pxor f)),
   (0x35, fun f => some (.pnot f)),
   (0x36, fun f => some (.pfirst f)),
   (0x37, fun f => some (.pcnt f)),
   (0x38, fun f => pick f.m.toNat [.pmovxRd, .pmovxWr] f),
   (0x39, fun f => some (.vwid f))]

/-- Opcodes 0x40 to 0x7F of R158. -/
def opVector : List (Nat × (Fields → Option Instr)) :=
  [(0x40, fun f => some (.vfadd f)),
   (0x41, fun f => some (.vfsub f)),
   (0x42, fun f => some (.vfmul f)),
   (0x43, fun f => some (.vfma f)),
   (0x44, fun f => some (.vfms f)),
   (0x45, fun f => some (.vfnma f)),
   (0x46, fun f => some (.vfnms f)),
   (0x47, fun f => some (.vfmin f)),
   (0x48, fun f => some (.vfmax f)),
   (0x49, fun f => some (.vfabs f)),
   (0x4A, fun f => some (.vfneg f)),
   (0x4B, fun f => some (.vfcps f)),
   (0x4C, fun f => some (.vfdiv f)),
   (0x4D, fun f => some (.vfsqrt f)),
   (0x4E, fun f => some (.vfrcp f)),
   (0x4F, fun f => some (.vfrsq f)),
   (0x50, fun f => some (.vfexp2 f)),
   (0x51, fun f => some (.vflog2 f)),
   (0x52, fun f => some (.vfsin f)),
   (0x53, fun f => some (.vfcos f)),
   (0x54, fun f => some (.vftanh f)),
   (0x55, fun f => some (.vfcmp f)),
   (0x56, fun f => some (.vfclass f)),
   (0x57, fun f => some (.vfcvt f)),
   (0x58, fun f => some (.vfrnd f)),
   (0x59, fun f => some (.vfscale f)),
   (0x5A, fun f => some (.vfdot2 f)),
   (0x60, fun f => some (.vadd f)),
   (0x61, fun f => some (.vsub f)),
   (0x62, fun f => some (.vmul f)),
   (0x63, fun f => some (.vmulh f)),
   (0x64, fun f => some (.vmadd f)),
   (0x65, fun f => pick f.x.toNat [.vand, .vor, .vxor, .vandn] f),
   (0x66, fun f => pick f.x.toNat [.vshl, .vshr, .vsra] f),
   (0x67, fun f => pick f.x.toNat [.vmin, .vmax, .vminu, .vmaxu] f),
   (0x68, fun f => some (.vabs f)),
   (0x69, fun f => pick f.x.toNat [.vadds, .vsubs] f),
   (0x6A, fun f => some (.vcmp f)),
   (0x6B, fun f => some (.vsel f)),
   (0x6C, fun f => pick f.x.toNat [.vclz, .vpopc] f),
   (0x6D, fun f => pick f.x.toNat [.vtag, .vfill] f),
   (0x6E, fun f => some (.vmov f)),
   (0x6F, fun f => some (.vrel f)),
   (0x70, fun f => some (.vshuf f)),
   (0x71, fun f => some (.vperm f)),
   (0x72, fun f => some (.vbcast f)),
   (0x73, fun f => pick f.x.toNat [.vslideu, .vslided] f),
   (0x74, fun f => some (.vcomp f)),
   (0x75, fun f => some (.vexp f)),
   (0x76, fun f => pick f.x.toNat [.vzip, .vuzip] f),
   (0x77, fun f => some (.vins f)),
   (0x78, fun f => some (.vext f)),
   (0x79, fun f => some (.vredadd f)),
   (0x7A, fun f => pick f.x.toNat [.vredmax, .vredmin] f),
   (0x7B, fun f => pick f.x.toNat [.vredand, .vredor] f),
   (0x7C, fun f => some (.vscanadd f)),
   (0x7D, fun f => some (.vicvt f))]

/-- Opcodes 0x80 to 0xAF of R158. -/
def opMemory : List (Nat × (Fields → Option Instr)) :=
  [(0x80, fun f => some (.ld f)),
   (0x81, fun f => some (.st f)),
   (0x82, fun f => some (.lds f)),
   (0x83, fun f => some (.sts f)),
   (0x84, fun f => some (.ldf f)),
   (0x85, fun f => some (.ste f)),
   (0x86, fun f => some (.few f)),
   (0x87, fun f => some (.ldx f)),
   (0x88, fun f => some (.stx f)),
   (0x89, fun f => some (.pref f)),
   (0x8A, fun f => some (.cflush f)),
   (0x8B, fun f => some (.cinv f)),
   (0x90, fun f => some (.vld f)),
   (0x91, fun f => some (.vst f)),
   (0x92, fun f => some (.vlds f)),
   (0x93, fun f => some (.vsts f)),
   (0x94, fun f => some (.vgath f)),
   (0x95, fun f => some (.vscat f)),
   (0x96, fun f => some (.vldff f)),
   (0x98, fun f => some (.aadd f)),
   (0x99, fun f => pick f.x.toNat [.aand, .aor, .axor] f),
   (0x9A, fun f => pick f.x.toNat [.amin, .amax, .aminu, .amaxu] f),
   (0x9B, fun f => some (.aswap f)),
   (0x9C, fun f => some (.acas f)),
   (0x9D, fun f => some (.agts f)),
   (0x9E, fun f => some (.avcas f)),
   (0x9F, fun f => some (.apcas f)),
   (0xA0, fun f => some (.fence f)),
   (0xA1, fun f => some (.acq f)),
   (0xA2, fun f => some (.rel f)),
   (0xA3, fun f => some (.drain f)),
   (0xA4, fun f => some (.watch f)),
   (0xA5, fun f => some (.unwatch f)),
   (0xA6, fun f => some (.sleep f)),
   (0xA7, fun f => some (.bar f)),
   (0xA8, fun f => some (.barw f)),
   (0xA9, fun f => some (.putn f)),
   (0xAA, fun f => some (.fempty f)),
   (0xAB, fun f => some (.ffull f))]

/-- Opcodes 0xB0 to 0xFF of R158. -/
def opSystem : List (Nat × (Fields → Option Instr)) :=
  [(0xB0, fun f => pick f.x.toNat [.loop, .lend, .lbrk] f),
   (0xB1, fun f => pick f.x.toNat [.dsplit, .djoin] f),
   (0xB2, fun f => pick f.x.toNat [.qpush, .qpop] f),
   (0xB3, fun f => some (.qbr f)),
   (0xB4, fun f => some (.iter f)),
   (0xB5, fun f => some (.tidx f)),
   (0xB6, fun f => some (.texp f)),
   (0xB7, fun f => some (.brko f)),
   (0xB8, fun f => some (.spawn f)),
   (0xB9, fun f => pick f.x.toNat [.susp, .resm] f),
   (0xBA, fun f => pick f.x.toNat [.finb, .fine, .finw] f),
   (0xBB, fun f => some (.migr f)),
   (0xBC, fun f => some (.armt f)),
   (0xBD, fun f => some (.msg f)),
   (0xBE, fun f => some (.launch f)),
   (0xBF, fun f => pick f.x.toNat [.trigger, .waitp] f),
   (0xC0, fun f => some (.gang f)),
   (0xC1, fun f => some (.mma f)),
   (0xC2, fun f => some (.mprog f)),
   (0xC3, fun f => some (.mzero f)),
   (0xC4, fun f => some (.mrd f)),
   (0xC5, fun f => some (.mwr f)),
   (0xC6, fun f => some (.mst f)),
   (0xC7, fun f => some (.eset f)),
   (0xC8, fun f => some (.eget f)),
   (0xC9, fun f => some (.ego f)),
   (0xCA, fun f => pick f.x.toNat [.ecan, .eqry] f),
   (0xCB, fun f => some (.cpy f)),
   (0xCC, fun f => some (.cpyr f)),
   (0xCD, fun f => some (.cpyrow f)),
   (0xCE, fun f => some (.cbook f)),
   (0xCF, fun f => some (.mres f)),
   (0xD0, fun f => pick f.x.toNat [.tstop, .tstart] f),
   (0xD1, fun f => some (.tread f)),
   (0xD2, fun f => some (.twrite f)),
   (0xD3, fun f => some (.tstep f)),
   (0xD4, fun f => pick f.x.toNat [.tgrant, .trevoke] f),
   (0xD5, fun f => pick f.x.toNat [.srd, .swr] f),
   (0xD6, fun f => some (.vtime f)),
   (0xD7, fun f => pick f.x.toNat [.trap, .brk] f),
   (0xD8, fun f => pick f.x.toNat [.psplit, .pmerge] f),
   (0xD9, fun f => some (.genbump f)),
   (0xDA, fun f => some (.cast f)),
   (0xDB, fun f => some (.step f)),
   (0xDC, fun f => some (.tlbinv f)),
   (0xDD, fun f => some (.cohere f)),
   (0xDE, fun f => if f.x == 0 then pick f.m.toNat [.exit, .exitChild] f else if f.x == 1 then some (.yield f) else none)]

/-- The opcode map (06 R158); an opcode it does not list is reserved. -/
def opTable : List (Nat × (Fields → Option Instr)) := opScalar ++ (opVector ++ (opMemory ++ opSystem))

/-- What the opcode and the selectors name. -/
def Instr.ofOp (op : Nat) : Option (Fields → Option Instr) := opTable.lookup op

/-- LEN, bits [31:30] of word 0 (06 R143). -/
def lenField (w0 : BitVec 32) : BitVec 2 := w0.extractLsb' 30 2

/-- OP, bits [29:22] (06 R145). -/
def opField (w0 : BitVec 32) : Nat := (w0.extractLsb' 22 8).toNat

/-- The words of an instruction by LEN (06 R143). -/
def wordsOf (len : BitVec 2) : Nat :=
  match len.toNat with
  | 0 => 1
  | 1 => 2
  | 2 => 3
  | _ => 5

/-- The fields of word 0 in a base form. -/
def baseFieldsOf (form : Form) (w0 : BitVec 32) : Fields :=
  { form := form, d := w0.extractLsb' 16 6, a := w0.extractLsb' 10 6, b := w0.extractLsb' 4 6, m := w0.extractLsb' 0 4,
    c := 0, e := 0, guard := Guard.none, h := 0, ta := 0, tb := 0, x := 0, fmt := 0, rnd := 0, bk := 0, imm20 := 0 }

/-- The guard fields of extended word 1 (06 R147). -/
def guardOf (w1 : BitVec 32) : Guard :=
  ⟨w1.extractLsb' 16 4, w1.getLsbD 15, w1.extractLsb' 11 4, w1.getLsbD 10, w1.getLsbD 9⟩

/-- The fields of the three words of an extended form (06 R145, R147, R148). -/
def extFieldsOf (form : Form) (w0 w1 w2 : BitVec 32) : Fields :=
  { form := form, d := w0.extractLsb' 16 6, a := w0.extractLsb' 10 6, b := w0.extractLsb' 4 6, m := w0.extractLsb' 0 4,
    c := w1.extractLsb' 26 6, e := w1.extractLsb' 20 6, guard := guardOf w1, h := w1.extractLsb' 7 2,
    ta := w1.extractLsb' 5 2, tb := w1.extractLsb' 3 2, x := w1.extractLsb' 0 3,
    fmt := w2.extractLsb' 28 4, rnd := w2.extractLsb' 26 2, bk := w2.extractLsb' 24 2, imm20 := w2.extractLsb' 0 20 }

/-- The fields that the words hold, whether the reserved bits of extended word 2 are zero, and the words after them. -/
def parseFields (w0 : BitVec 32) (rest : List (BitVec 32)) : Option (Fields × Bool × List (BitVec 32)) :=
  match (lenField w0).toNat, rest with
  | 0, rest => some (baseFieldsOf .base w0, true, rest)
  | 1, l :: rest => some (baseFieldsOf (.baseLit l) w0, true, rest)
  | 2, w1 :: w2 :: rest => some (extFieldsOf .ext w0 w1 w2, w2.extractLsb' 20 4 == 0, rest)
  | 3, w1 :: w2 :: lo :: hi :: rest => some (extFieldsOf (.extLit (hi ++ lo)) w0 w1 w2, w2.extractLsb' 20 4 == 0, rest)
  | _, _ => none

/-- R160 steps 4 and 5 on an instruction whose selectors name one. -/
def checked (i : Option Instr) : Except DecodeError Instr :=
  match i with
  | none => .error .illegalForm
  | some i =>
    match i.reject with
    | none => .ok i
    | some r => .error r.toError

/-- The instruction that words in address order begin with, and the words after it (06 R160 steps 3 to 5). -/
def decodeWords : List (BitVec 32) → Except DecodeError (Instr × List (BitVec 32))
  | [] => .error .truncated
  | w0 :: rest =>
    match Instr.ofOp (opField w0) with
    | none => .error .illegalOpcode
    | some mk =>
      match parseFields w0 rest with
      | none => .error .truncated
      | some (f, reservedZero, rest) =>
        if reservedZero then (checked (mk f)).map (fun i => (i, rest)) else .error .illegalForm

/-- Whole little-endian 32-bit words of a list of bytes (00 R3, 06 R143). -/
def wordsOfBytes : List Byte → List (BitVec 32)
  | b0 :: b1 :: b2 :: b3 :: rest => (b3 ++ b2 ++ b1 ++ b0) :: wordsOfBytes rest
  | _ => []

/-- The bytes of a word, the least significant first. -/
def bytesOfWord (w : BitVec 32) : List Byte :=
  [w.extractLsb' 0 8, w.extractLsb' 8 8, w.extractLsb' 16 8, w.extractLsb' 24 8]

/-- The instruction that the bytes begin with. -/
def decode (bytes : List Byte) : Except DecodeError Instr := (decodeWords (wordsOfBytes bytes)).map Prod.fst

/-- LEN of a form (06 R143). -/
def Form.len : Form → BitVec 2
  | .base => 0
  | .baseLit _ => 1
  | .ext => 2
  | .extLit _ => 3

/-- Word 0 (06 R145). -/
def word0 (op : Nat) (f : Fields) : BitVec 32 :=
  f.form.len ++ (BitVec.ofNat 8 op ++ (f.d ++ (f.a ++ (f.b ++ f.m))))

/-- Extended word 1 (06 R147). -/
def word1 (f : Fields) : BitVec 32 :=
  f.c ++ (f.e ++ (f.guard.g1p ++ (BitVec.ofBool f.guard.g1n ++ (f.guard.g2p ++ (BitVec.ofBool f.guard.g2n ++
    (BitVec.ofBool f.guard.gc ++ (f.h ++ (f.ta ++ (f.tb ++ f.x)))))))))

/-- Extended word 2 (06 R148). -/
def word2 (f : Fields) : BitVec 32 := f.fmt ++ (f.rnd ++ (f.bk ++ ((0 : BitVec 4) ++ f.imm20)))

/-- The words of an opcode and its fields, in address order (06 R143). -/
def pack (op : Nat) (f : Fields) : List (BitVec 32) :=
  match f.form with
  | .base => [word0 op f]
  | .baseLit l => [word0 op f, l]
  | .ext => [word0 op f, word1 f, word2 f]
  | .extLit l => [word0 op f, word1 f, word2 f, l.extractLsb' 0 32, l.extractLsb' 32 32]

/-- The words of an instruction; an event has none. -/
def encode (i : Instr) : List (BitVec 32) :=
  match i.entry with
  | some (op, _, f) => pack op f
  | none => []

/-- `n` bytes of a number, the least significant first. -/
def bytesOfNat : Nat → Nat → List Byte
  | 0, _ => []
  | n + 1, w => BitVec.ofNat 8 w :: bytesOfNat n (w / 256)

/-- The instruction that the decoder reads from a word numbered as the opcode table numbers its bits, with zeros above
(five words are the longest instruction, 06 R143). -/
def decodeTableWord (nbits w : Nat) : Option Instr :=
  match decode (bytesOfNat 20 (w % 2 ^ nbits)) with
  | .ok i => some i
  | .error _ => none

end Sys2Proof
end

