-- ==== Sys2Proof/Machine/Fetch.lean ====
section
/-!
DEFINITION. Fetching an instruction: the words at a pc, and the checks at entry into code (06 R143, R144, R157, R160, 07 R176).
-/

namespace Sys2Proof.Machine

/-- `n` words from an address upward; a word beyond the page of `pc` is not read (R144) and counts as zero without a start
bit. -/
def State.fetchWords (s : State) (core ctx lrec who : Nat) (pc : BitVec 64) : Nat → Nat → Except Problem (List (BitVec 32 × Bool)) × State
  | 0, _ => (.ok [], s)
  | n + 1, i =>
    let va := pc + BitVec.ofNat 64 (4 * i)
    if va >>> 12 != pc >>> 12 then (.ok [], s)
    else
      match s.fetchWord core ctx lrec who va with
      | (.error p, s) => (.error p, s)
      | (.ok w, s) =>
        match State.fetchWords s core ctx lrec who pc n (i + 1) with
        | (.ok ws, s) => (.ok (w :: ws), s)
        | r => r

/-- What fetching and decoding at a pc gives: an instruction, or a trap (its `noWord` says that the fetch itself failed), or a
wait. -/
inductive Fetched where
  | instr (i : Instr)
  | trap (cause extra : Nat) (addr : BitVec 64) (noWord : Bool)
  | free (cause : Nat)
  | wait (a : Await)
  deriving DecidableEq, Repr

def Reject.cause : DecodeError → Nat
  | .illegalOpcode => Cause.illegalOpcode
  | .illegalForm => Cause.illegalForm
  | .unsupported => Cause.unsupported
  | _ => Cause.illegalForm

/-- R160 steps 1 to 5 over the words of an instruction. -/
def classify (pc : BitVec 64) (n : Nat) (ws : List (BitVec 32 × Bool)) : Fetched :=
  match ws with
  | [] => .free Cause.illegalForm
  | w :: rest =>
    if !w.2 then .trap Cause.illegalTarget 0x01 pc false
    else
      match (List.range rest.length).find? (fun i => ((rest[i]?).map (·.2)).getD false) with
      | some i => .trap Cause.illegalTarget 0x02 (pc + BitVec.ofNat 64 (4 * (i + 1))) false
      | none =>
        match decodeWords (ws.map (·.1) ++ List.replicate (n - ws.length) 0) with
        | .error e => .free (if ws.length < n && e == .unsupported then Cause.illegalForm else Reject.cause e)
        | .ok (i, _) => if ws.length < n then .free Cause.illegalForm else .instr i

/-- FETCH at a pc, by stream `who`. -/
def State.fetch (s : State) (core ctx lrec who : Nat) (pc : BitVec 64) : Fetched × State :=
  match s.fetchWord core ctx lrec who pc with
  | (.error (.trap c x a), s) => (.trap c x a true, s)
  | (.error (.wait a), s) => (.wait a, s)
  | (.ok w, s) =>
    let n := wordsOf (lenField w.1)
    match s.fetchWords core ctx lrec who pc n 0 with
    | (.error (.trap c x a), s) => (.trap c x a true, s)
    | (.error (.wait a), s) => (.wait a, s)
    | (.ok ws, s) => (classify pc n ws, s)

/-- R176 checks 1 to 3 on a target: the trap of the first that fails. -/
def targetProblem (t : BitVec 64) : Option (Nat × Option Nat) :=
  if field t 63 57 != 0 then some (Cause.protection, some 0x01)
  else if field t 56 48 != 0 then some (Cause.protection, some 0x07)
  else if field t 1 0 != 0 then some (Cause.alignment, none)
  else none

/-- THE CHECK OF A TRANSFER'S TARGET (R176), with the trap that a clear start bit takes. The transfer waits for the line of its target. A
fault on reading the bit lets it complete. -/
def checkTargetWith (t : BitVec 64) (clear : Act Unit) : Act Unit := do
  match targetProblem t with
  | some (c, some x) => trapAt c x t
  | some (c, none) => trapWord c t
  | none =>
    let st ← self
    let who := streamNo (← me) (← inAccess)
    match ← stateS (fun s => s.startBit st.core st.ctx st.lrec who t) with
    | .error a => park a
    | .ok (some false) => clear
    | .ok _ => pure ()

def checkTarget (t : BitVec 64) : Act Unit := checkTargetWith t (trapAt Cause.illegalTarget 0x00 t)

end Sys2Proof.Machine
end

