-- ==== Sys2Proof/Machine/Place.lean ====
section
/-!
DEFINITION. Slots, spilling and the placement of strands (01 R20 to R24, 06 R157), and migration (02 R58, R59).
-/

namespace Sys2Proof.Machine

/-! ### Slots and spill records (01 R22, R23) -/

/-- The waits that are not for a memory reply (R22). -/
def Await.spillable : Await → Bool
  | .reply => false
  | .retries => false
  | .putn => false
  | .packet => false
  | .tier _ _ => false
  | .busy _ => false
  | .token _ _ => false
  | .handler => false
  | .settled => false
  | .lines _ => false
  | _ => true

/-- A FREE slot: which one nothing states, the lowest is taken (DESIGN CHOICE, log entry 9). -/
def State.freeSlot (s : State) (core : Nat) : Option Nat :=
  let used := (s.strandsOf core).filterMap fun e => match e.2.place with | .slot n => some n | _ => none
  (List.range 256).find? fun n => !used.contains n

def State.spilledOn (s : State) (core : Nat) : Nat := ((s.strandsOf core).filter fun e => e.2.isSpilled).length

/-- The order of candidates: SLEEP, then STOPPED, then PARKED. -/
def spillRank (st : Strand) : Option Nat :=
  match st.state with
  | .sleep => some 0
  | .stopped => some 1
  | .parked => if st.await.spillable then some 2 else none
  | _ => none

/-- R23: the candidate that a core spills. A strand inside a region is none (12 R275), and one that holds a bound context
only while a vector spill record is free (DEDUCED, log entry 51). -/
def State.spillVictim (s : State) (core : Nat) : Option Nat :=
  if 128 ≤ s.spilledOn core then none
  else
    let vecRoom := s.spilledContexts core < 8
    let cands := (s.strandsOf core).filter fun e =>
      (match e.2.place with | .slot _ => true | _ => false) && e.2.region.isNone && (spillRank e.2).isSome &&
      (vecRoom || (match e.2.vec with | some v => v.spilled | none => true))
    let key (st : Strand) : Nat × Nat := ((spillRank st).getD 3, st.since)
    (cands.foldl (fun best e =>
      match best with
      | none => some e
      | some b => if (key e.2).1 < (key b.2).1 || ((key e.2).1 == (key b.2).1 && (key e.2).2 < (key b.2).2) then some e else some b)
      (none : Option (Nat × Strand))).map (·.1)

/-- The strand's state moves into its spill record, its vector state into a vector spill record. -/
def State.spillOut (s : State) (u : Nat) : State :=
  s.editStrand u fun st => { spillVec st with place := .spill st.slotNo, woken := false }

/-- A slot for a strand that must be placed: a FREE one, or one claimed under R23. -/
def State.claimSlot (s : State) (core : Nat) : Option (Nat × State) :=
  match s.freeSlot core with
  | some n => some (n, s)
  | none =>
    match s.spillVictim core with
    | none => none
    | some u =>
      match (s.strand? u).map (·.slotNo) with
      | some n => some (n, s.spillOut u)
      | none => none

def State.hasRoom (s : State) (core : Nat) : Bool := (s.freeSlot core).isSome || (s.spillVictim core).isSome

/-! ### Placement (01 R20, 06 R157 row 4) -/

def Watch.off : Watch := { armed := false, line := 0, va := 0, fired := false }

/-- A strand with every register as R20, R75, R305, R131, R232 and R265 leave it at placement: zero and full. -/
def Strand.blank : Strand :=
  { core := 0, place := .transit, state := .ready, await := .reply, woken := false, since := 0, lastRun := 0, pc := 0,
    x := Vector.replicate 64 0, xFull := BitVec.allOnes 64, pw := 1, vec := none, z := Vector.replicate 8 0, fcr := 0,
    tvec := 0, tcause := 0, tpc := 0, tfaddr := 0, fra := 0, visMax := 0, feRetry := 4, swBase := 0, swLen := 0,
    authAddr := 0, auth := Vector.replicate 64 0, lcause := 0, item := 0, scope := 0, lrec := 0, ctx := 0, prio := 0,
    phase := 0, watch := Vector.replicate 8 Watch.off, loops := [], region := none, fwd := [], isItem := false, exported := 0,
    issues := 0, skip := 0, long := 0, streamSeq := [], epoch := 0, frSeq := 0, ma := false, stepping := none,
    sleepMask := 0, queued := none, behind := 0 }

/-- What a strand takes from its launch record (02 R45, 13 R305), its authority table among it, as the caller's stood at the LAUNCH (DESIGN
CHOICE, log entry 82). -/
def Strand.ofLaunch (st : Strand) (lrec : Nat) (l : Launch) : Strand :=
  { st with lrec := lrec, ctx := l.ctx, prio := l.prio, auth := l.auth, swBase := l.swBase, swLen := l.swLen }

/-- A strand enters READY in a slot; the slot's EPOCH advances (24 R411). -/
def State.seat (s : State) (u core slot : Nat) (st : Strand) : State :=
  let ep := ((Sparse.get (s.core core).epochs slot).getD 0 + 1) % 256
  let s := s.editCore core fun k => { k with epochs := Sparse.put k.epochs slot ep }
  { s.setStrand u { st with core := core, place := .slot slot, state := .ready, await := .reply, since := s.order,
                            epoch := ep, streamSeq := [], queued := none, behind := 0 }
    with order := s.order + 1 }

/-- A new strand is placed: the start bit at its PC is checked (06 R157, row 4), and the strand waits where the line must come first. -/
def State.place (s : State) (u core slot : Nat) (st : Strand) : State :=
  match (s.seat u core slot st).checkStart u with
  | (true, s) => s
  | (false, s) => let s := s.leave u .parked .handler 2
    s.putOff s.order (.start u)

/-- A number for a new strand. -/
def State.newUid (s : State) : Nat × State := (s.nextUid, { s with nextUid := s.nextUid + 1 })

/-! ### Migration (02 R58, R59, 12 R283) -/

/-- The target: the core above the home slice of the line, clamped into the launch rectangle. A scratchpad line's home is its
core (04 R95) (DEDUCED, log entry 54). -/
def State.migrateTarget (s : State) (lrec pa : Nat) : Nat :=
  let home := match zoneOf s.tierCap pa with
    | .scratch c => c
    | _ => homeCore pa
  match s.launch? lrec with
  | none => home
  | some l =>
    let r := l.rect
    let clamp (v lo n : Nat) : Nat := if v < lo then lo else if lo + n ≤ v then lo + n - 1 else v
    coreAt (clamp (fileOf home) r.ofile r.width) (clamp (rankOf home) r.orank r.height)

/-- R59, R265, R283: what keeps a strand from migrating. -/
def State.cannotMigrate (s : State) (st : Strand) : Bool :=
  st.vec.isSome || st.region.isSome || !st.loops.isEmpty ||
  (match s.launch? st.lrec with | some l => l.exports.any (·.isV) | none => false)

/-- The strand leaves its slot in a packet: PC, predicate word, MA, ITEM, SCOPE, LREC and x0 to x9; an item strand's
forwarding entries follow it. Its watches go and its shadow-set claims are released. The packet has no presence bits: x0 to x9 arrive full
(DESIGN CHOICE, log entry 70). -/
def State.migrateOut (s : State) (u target : Nat) (pc : BitVec 64) (ma : Bool) : State :=
  match s.strand? u with
  | none => s
  | some st =>
    let s := s.leavePosition u 13
    let free (e : Engine) : Engine := if e.claim == some u then { e with claim := none } else e
    let s := s.editCore st.core fun k => { k with mx := free k.mx, ce := free k.ce }
    let base := match s.launch? st.lrec with
      | some l => Strand.blank.ofLaunch st.lrec l
      | none => { Strand.blank with lrec := st.lrec, ctx := st.ctx, prio := st.prio }
    let packed : Strand :=
      { base with
        core := target, pc := pc, pw := st.pw, ma := ma, item := st.item, scope := st.scope, prio := st.prio,
        x := Vector.ofFn fun i => if i.val < 10 then st.x[i] else 0, fwd := st.fwd, isItem := st.isItem,
        exported := st.exported, stepping := st.stepping, frSeq := st.frSeq }
    (s.setStrand u packed).editCore target fun k => { k with arrivals := k.arrivals ++ [.strand u] }

/-- What a strand's writes and the writes into its registers have not completed: its posted operations (05 R131), and its CPYR and MRD
commands (11 R262). -/
def State.outstanding (s : State) (u : Nat) : Bool :=
  s.unacknowledged u ||
  match s.strand? u with
  | none => false
  | some st =>
    let k := s.core st.core
    (k.mx.queue ++ k.ce.queue).any fun c => c.uid == u && (c.kind == .cpyr || c.kind == .mrd)

/-- The issuing strand migrates, and its instruction ends. It waits for its earlier writes (05 R131). -/
def migrate {α : Type} (target : Nat) (pc : Word) (ma : Bool) : Act α := do
  let u ← me
  let st ← self
  let s ← readS id
  if s.cannotMigrate st then trapPlain Cause.migrateState
  if s.outstanding u then park .settled
  editS fun s => s.migrateOut u target pc ma
  stopWith .done

/-- An access to a MIGRATE page (R59, 10 R215 step 5): the strand goes where the line's home is, unless it is there or MA lets the access be
performed. -/
def heedMigrate (x : Xlat) : Act Unit := do
  let st ← self
  if x.mig && !st.ma then
    let t ← readS fun s => s.migrateTarget st.lrec x.pa
    if t != st.core then migrate t (← thisPc) true

end Sys2Proof.Machine
end

