-- ==== Sys2Proof/Machine/Constants.lean ====
section
/-!
DEFINITION. The constant bank and the kinds of the B operand (06 R152 to R155).
-/

namespace Sys2Proof.Machine

/-! ### The constant cache (R155) -/

/-- The set of a line in a constant cache (DESIGN CHOICE, log entry 68). -/
def constantSet (key : Nat) : Nat := key / 4096 % 16

/-- A line is the one used last of its set of four. -/
def Core.keepConstant (k : Core) (key : Nat) : Core :=
  let others := k.ccache.filter (· != key)
  let mates := others.filter fun e => constantSet e == constantSet key
  { k with ccache := key :: if mates.length < 4 then others else others.filter fun e => some e != mates.getLast? }

/-- A line that the constant cache does not hold is fetched as an L1 data read would fetch it, while the strand waits. A line that no cache
holds comes for the strand's instruction alone (04 R111). -/
def fetchConstant (x : Xlat) : Act Unit := do
  let st ← self
  let u ← me
  let access ← inAccess
  let line := lineOf x.pa
  let key := line * 4096 + st.ctx
  let s ← readS id
  heedHome [s.askOf x (s.l1 st.core line).isSome (some false)] false
  match s.pathOf x with
  | .coherent => editS fun s => (s.getS st.core line).editCore st.core fun k => k.keepConstant key
  | .managed => editS fun s => (s.swmFill st.core line).editCore st.core fun k => k.keepConstant key
  | .home =>
    editS fun s => s.editCore st.core fun k =>
      k.addFill ⟨streamNo u access, true, key, { bytes := Memory.getBytes s.mem (line * 128) 128, starts := 0 }⟩
  park .reply

/-- The word at an address, as a load of the core sees it. -/
def constantWord (x : Xlat) (bytes : List (BitVec 8)) : Word :=
  BitVec.ofNat 64 (Memory.ofBytes ((bytes.drop (x.pa % 128)).take 8))

/-- An 8-byte read of k[j], which heeds MIGRATE as every access does (02 R59). A hit reads what a load would (R155). -/
def constant (j : Nat) : Act Word := do
  let st ← self
  match ← readS (·.launch? st.lrec) with
  | none => trapPlain Cause.pageFault
  | some l =>
    let va := l.kaddr + BitVec.ofNat 64 (8 * j)
    match ← stateS (fun s => s.translate st.core st.ctx va .read) with
    | .error p => raise p
    | .ok x =>
      let s ← readS id
      if s.foreignScratch st.core (some st.lrec) x.pa then trapAt Cause.protection 0x05 va
      heedMigrate x
      let u ← me
      let access ← inAccess
      let line := lineOf x.pa
      let key := line * 4096 + st.ctx
      let bad := if s.pathOf x == .managed then s.swmBad st.core line else s.badWords line
      match (s.core st.core).fillOf (streamNo u access) true key with
      | some l => pure (constantWord x l.bytes)
      | none =>
        if s.tierDown x.pa && !(s.core st.core).ccache.contains key then trapAt Cause.memoryUe 37 va
        if bad.getLsbD (x.pa % 128 / 8) then trapWord Cause.memoryUe va
        if (s.core st.core).ccache.contains key then
          editS fun s => s.editCore st.core fun k => k.keepConstant key
          pure (constantWord x (s.swmBytes st.core line).1)
        else
          fetchConstant x
          pure 0

/-! ### The kinds of B (R152 to R154) -/

/-- The B operand as a 64-bit integer; `isC` says that B names a shared core register (07 R165). -/
def operandBWith (isC : Bool) (f : Fields) : Act Word :=
  match f.form with
  | .baseLit l => pure (sx64 l)
  | .extLit l => pure l
  | .base => operandX isC f.b f.tb
  | .ext =>
    match f.bk.toNat with
    | 0 => operandX isC f.b f.tb
    | 1 => pure (sx64 f.imm20)
    | _ => constant (f.imm20.toNat % 256)

def operandB (f : Fields) : Act Word := operandBWith false f

/-- The immediate of an I-form (06 R145, R153), or B where the entry takes another kind in the extended form. -/
def operandI (f : Fields) : Act Word :=
  match f.form with
  | .base => pure (sx64 (f.b ++ f.m))
  | _ => operandB f

/-- The 6-bit offset of a base form times its scale, or IMM20 where BK = 0b00 (10 R214). -/
def memOffset (f : Fields) (scale : Nat) : Word :=
  match f.form with
  | .base => sx64 f.b * BitVec.ofNat 64 scale
  | _ => if f.bk == 0 then sx64 f.imm20 else 0

/-- The offset of an instruction that has a B operand (10 R214). -/
def imm20Offset (f : Fields) : Word :=
  match f.form with
  | .base => 0
  | _ => if f.bk == 0 then sx64 f.imm20 else 0

end Sys2Proof.Machine
end

