-- ==== Sys2Proof/Machine/Access.lean ====
section
/-!
DEFINITION. The checks of a memory access in the order of 10 R215, and the ways in which one is performed at its home or in an
L1 copy (04 R99, R111, R113, 05 R134 to R139, 22 R354, R369).
-/

namespace Sys2Proof.Machine

/-! ### Declared ranges (02 R40, R49, 05 R134) -/

/-- The 256-byte blocks that a run of bytes touches. -/
def blocksOf (va n : Nat) : List Nat :=
  if n = 0 then [va / 256] else (List.range ((va + n - 1) / 256 - va / 256 + 1)).map (va / 256 + ·)

/-- An entry covers every block that holds one of its bytes. -/
def Range.covers (r : Range) (block : Nat) : Bool :=
  r.len != 0 && r.base / 256 ≤ block && block ≤ (r.base + r.len - 1) / 256

/-- R40: a block of two launches' entries of which one has W = 1. -/
def conflictAt (a b : List Range) (block : Nat) : Bool :=
  a.any fun x => x.covers block && b.any fun y => y.covers block && (x.write || y.write)

/-- A handle's launch, unless it has completed (R39). -/
def State.byHandle (s : State) (ctx h : Nat) : Option (Nat × Launch) :=
  match s.launch? (h % 1024) with
  | some l => if l.ctx == ctx && l.seq == h / 1024 && h != 0 then some (h % 1024, l) else none
  | none => none

/-- R49: the launch runs in gambit state until every producer has completed. -/
def Launch.inGambit (l : Launch) : Bool :=
  match l.state with
  | .running g => g
  | .pending => false

/-- Blocks that R49 withholds from an item: of a consumer before its WAITP has returned, of a producer after its TRIGGER. -/
def State.gambitHolds (s : State) (st : Strand) (l : Launch) (block : Nat) : Bool :=
  (l.inGambit && !l.waited.contains st.item &&
    l.producers.any fun h => match s.byHandle l.ctx h with
      | some (_, p) => conflictAt l.ranges p.ranges block
      | none => false) ||
  (l.triggered.contains st.item &&
    s.launches.any fun e => e.2.inGambit && e.2.ctx == l.ctx &&
      e.2.producers.any (fun h => (s.byHandle l.ctx h).map (·.1) == some st.lrec) && conflictAt e.2.ranges l.ranges block)

/-- Whether every byte of a run lies in an area; a run of none lies where its address does. -/
def inArea (base len va n : Nat) : Bool := base ≤ va && va + max n 1 ≤ base + len

/-- R134 for a strand: every block is covered by a range of its launch, or the bytes lie in an exempt area. -/
def State.declared (s : State) (st : Strand) (va n : Nat) (write : Bool) : Bool :=
  let dsb := ((s.ctx? st.ctx).map (·.dsb)).getD 0
  let exempt (v k : Nat) : Bool :=
    inArea st.swBase.toNat st.swLen.toNat v k || inArea (field dsb 63 16 * 65536) (field dsb 15 0 * 512) v k
  match s.launch? st.lrec with
  | none => exempt va n
  | some l =>
    (blocksOf va n).all fun b =>
      let lo := max va (256 * b)
      let hi := min (va + n) (256 * b + 256)
      (exempt lo (hi - lo) || l.ranges.any fun r => r.covers b && (r.write || !write)) && !s.gambitHolds st l b

/-! ### Checks (R215) -/

/-- What an access is checked as: its alignment (1 for an exempt one), its kind for the walk, whether it waits on or changes
a full/empty bit, whether it is an atomic, whether it is declared as a write, whether it heeds MIGRATE. -/
structure Check where
  align : Nat
  acc : Acc
  bits : Bool
  atomic : Bool
  write : Bool
  migrates : Bool

/-- An ordinary load or store of a size, a synchronising access, an atomic. -/
def Check.load (n : Nat) : Check := ⟨n, .read, false, false, false, true⟩
def Check.store (n : Nat) : Check := ⟨n, .write, false, false, true, true⟩
def Check.sync (reads : Bool) : Check := ⟨8, .write, true, false, !reads, true⟩
def Check.atom (n : Nat) : Check := ⟨n, .write, false, true, true, true⟩

/-- Bytes of the authority table of a strand of a context: with AUTH as it is when a strand is placed, the first 512 of the address space (13
R300, R305). -/
def State.touchesAuth (s : State) (ctx va n : Nat) : Bool :=
  s.strands.any fun e => e.2.ctx == ctx && e.2.authAddr.toNat < va + n && va < e.2.authAddr.toNat + 512

/-- R215 step 3 on a translated address, with the problem that it finds (DEDUCED, log entry 14). -/
def State.regionProblem (s : State) (st : Strand) (c : Check) (x : Xlat) (va : Word) (n : Nat) : Option Problem :=
  let prot (extra : Nat) : Option Problem := some (.trap Cause.protection extra va)
  let own : Option Problem :=
    if c.write && 0xFFFFF80000 ≤ x.pa && x.pa < 0x10000000000 && (x.pa - 0xFFFFF80000) / 128 != st.ctx then prot 0x0A
    else if s.touchesAuth st.ctx va.toNat n then prot 0x09
    else none
  match zoneOf s.tierCap x.pa with
  | .hbm => own
  | .tier =>
    if c.bits then
      match s.demotedUnit x.pa with
      | some (ctx, e) => some (.wait (.tier ctx e))
      | none => prot 0x06
    else own
  | .host => if c.bits then prot 0x06 else if c.atomic then prot 0x08 else own
  | .scratch _ => if s.foreignScratch st.core (some st.lrec) x.pa then prot 0x05 else own
  | .nowhere => prot 0x04

def State.isScratch (s : State) (pa : Nat) : Bool :=
  match zoneOf s.tierCap pa with
  | .scratch _ => true
  | _ => false

/-- R215 steps 2 to 4. -/
def State.placeProblem (s : State) (st : Strand) (c : Check) (va : Word) (n : Nat) : Except (Problem ⊕ Nat) Xlat × State :=
  match s.translate st.core st.ctx va c.acc with
  | (.error p, s) => (.error (.inl p), s)
  | (.ok x, s) =>
    match s.regionProblem st c x va n with
    | some p => (.error (.inl p), s)
    | none =>
      if !s.isScratch x.pa && !s.declared st va.toNat n c.write then (.error (.inr Cause.undeclared), s)
      else (.ok x, s)

/-- The checks of R215, steps 1 to 4, as the first problem. A problem whose extra information no rule names carries none. A first write
through an entry whose V bit has been cleared walks again (04 R94). -/
def State.accessProblem (s : State) (st : Strand) (c : Check) (va : Word) (n : Nat) : Except (Problem ⊕ Nat) Xlat × State :=
  if va.toNat % c.align != 0 then (.error (.inr Cause.alignment), s)
  else
    match s.placeProblem st c va n with
    | (.error p, s) => (.error p, s)
    | (.ok x, s) =>
      if c.acc == .write && s.staleEntry st.core st.ctx va none then
        (s.forget st.core st.ctx va none).placeProblem st c va n
      else (.ok x, s)

/-- The core's L1 serves an access without its home: a load of a line that it holds, a store to one that it holds in E or M or to a SWMANAGED
copy, an atomic that its contention counter places there (10 R226). -/
def State.hitsL1 (s : State) (core : Nat) (c : Check) (x : Xlat) : Bool :=
  match s.l1 core (lineOf x.pa) with
  | none => false
  | some l =>
    match s.pathOf x with
    | .home => false
    | .managed => !c.bits && !c.atomic && l.swm.isSome
    | .coherent =>
      !c.bits && (!c.acc.writes || l.state == .modified || l.state == .exclusive) &&
      !(c.atomic && (zoneOf s.tierCap x.pa == .tier || 2 ≤ (s.predicted x.pa).toNat))

/-- The access of the issuing strand, checked under R215. -/
def checkPlace (c : Check) (va : Word) (n : Nat) : Act Xlat := do
  let st ← self
  match ← stateS (fun s => s.accessProblem st c va n) with
  | .error (.inl p) => raise p
  | .error (.inr cause) => trapWord cause va
  | .ok x =>
    if c.migrates then heedMigrate x
    pure x

/-- The requests of accesses of the issuing strand at their lines' homes and, for first writes, at their table entries' (04 R94). -/
def heedAccess (c : Check) (vas : List Word) (l : List Ask) : Act Unit := do
  let st ← self
  let dirty ← readS fun s => if c.acc == .write then (vas.flatMap fun va => s.dirtyAsks st.core st.ctx va).eraseDups else []
  match ← stateS (fun s => s.askEach [(.issuer, st.ctx, l, c.write), (.issuer, st.ctx, dirty, true)]) with
  | some w => park w.2.2
  | none => pure ()

/-- The access of the issuing strand, checked in full (R215), and heard at its home (04 R110, R113, 05 R124). -/
def checkAccess (c : Check) (va : Word) (n : Nat) : Act Xlat := do
  let st ← self
  let x ← checkPlace c va n
  let s ← readS id
  heedAccess c [va] [s.askOf x (s.hitsL1 st.core c x) (if c.bits && !c.write then none else some c.write)]
  if c.acc == .write then editS fun s => s.markDirty st.core st.ctx va
  pure x

/-! ### Performing (R116, R117, R136, R137, R139) -/

/-- The first word of a run that a SWMANAGED line, as the core sees it, holds with an uncorrectable error, among those that `p` names. -/
def State.swmPoison (s : State) (core pa n : Nat) (p : Nat → Bool) : Option Nat :=
  (wordsOfRun pa n).find? fun w => (s.swmBad core (lineOf pa)).getLsbD (w % 16) && p w

/-- A word with an uncorrectable error, by its number PA / 8, ends the access to `pa`. -/
def heedWord (w : Option Nat) (pa : Nat) (va : Word) : Act Unit :=
  match w with
  | some w => trapWord Cause.memoryUe (va + BitVec.ofNat 64 (8 * w) - BitVec.ofNat 64 pa)
  | none => pure ()

/-- A word with an uncorrectable error among those that a read meets (R215), and a tier link that is down (24 R422). -/
def heedPoison (pa n : Nat) (va : Word) : Act Unit := do
  let s ← readS id
  if s.tierDown pa then trapAt Cause.memoryUe 37 va
  heedWord (s.firstPoison pa n) pa va

/-- A load of the issuing strand, with race detection; `n` bytes within one line. -/
def loadBytes (x : Xlat) (va : Word) (n : Nat) : Act (List (BitVec 8)) := do
  let u ← me
  let st ← self
  let line := lineOf x.pa
  match ← readS (·.pathOf x) with
  | .home =>
    heedPoison x.pa n va
    readS fun s => Memory.getBytes s.mem x.pa n
  | .managed =>
    if ← readS fun s => s.tierDown x.pa && (s.l1 st.core line).isNone then trapAt Cause.memoryUe 37 va
    heedWord (← readS fun s => s.swmPoison st.core x.pa n fun _ => true) x.pa va
    editS fun s => s.swmFill st.core line
    readS fun s => s.swmRead st.core x.pa n
  | .coherent =>
    if (← readS fun s => (wordsOfRun x.pa n).any (s.wordRace u st.lrec)) then trapWord Cause.race va
    heedPoison x.pa n va
    editS fun s =>
      let s := s.getS st.core line
      match s.l1 st.core line with
      | some l => s.setL1 st.core line { l with reader := some (u, st.phase) }
      | none => s
    readS fun s => Memory.getBytes s.mem x.pa n

/-- The whole words among those that a run of bytes touches. -/
def wholeWords (pa n : Nat) : List Nat := (wordsOfRun pa n).filter fun w => pa ≤ 8 * w && 8 * w + 8 ≤ pa + n

/-- A store that does not cover a poisoned word whole meets its error (10 R218). -/
def heedTorn (pa n : Nat) (va : Word) : Act Unit := do
  heedWord (← readS fun s => (wordsOfRun pa n).find? fun w => s.poison.contains w && !(wholeWords pa n).contains w) pa va

/-- The bytes reach their home with everything that brings about, unless the link of their tier is down (24 R422). -/
def landStore (x : Xlat) (va : Word) (bytes : List (BitVec 8)) : Act Unit := do
  let u ← me
  let st ← self
  if ← readS (·.tierDown x.pa) then
    editS fun s => s.localError st.ctx va 6 37 st.sid
  else
    editS fun s =>
      let s := { s with mem := Memory.setBytes s.mem x.pa bytes }
      let s := { s with poison := s.poison.filter fun p => !(wholeWords x.pa bytes.length).contains p }
      (s.noteVt u x.pa).written x.pa bytes.length

/-- R136, R137 for a store of the issuing strand. -/
def heedRace (x : Xlat) (va : Word) (n : Nat) : Act Unit := do
  let u ← me
  let st ← self
  if ← readS fun s => (wordsOfRun x.pa n).any (s.wordRace u st.lrec) || s.readRace u st.lrec st.core (lineOf x.pa) then
    trapWord Cause.race va

/-- A non-synchronising store of the issuing strand: the bytes of one line, with race detection and the writer's stamp. -/
def storeBytes (x : Xlat) (va : Word) (bytes : List (BitVec 8)) : Act Unit := do
  let u ← me
  let st ← self
  let line := lineOf x.pa
  let n := bytes.length
  match ← readS (·.pathOf x) with
  | .managed =>
    heedWord (← readS fun s => s.swmPoison st.core x.pa n fun w => !(wholeWords x.pa n).contains w) x.pa va
    editS fun s => (s.swmWrite st.core x.pa bytes (st.ctx, st.sid, va)).noteVt u x.pa
  | .home =>
    heedTorn x.pa n va
    landStore x va bytes
  | .coherent =>
    heedRace x va n
    heedTorn x.pa n va
    editS fun s => (s.getM st.core line).stampWords u st.lrec st.phase x.pa n
    landStore x va bytes

/-- R457: what a synchronising access does to the copies of its line before its step at the home. -/
def syncLine (x : Xlat) (reads : Bool) : Act Unit := do
  let st ← self
  editS fun s => s.homeStep (s.pathOf x == .coherent) reads (s.leafIdOf st.core) x.pa

end Sys2Proof.Machine
end

