-- ==== Sys2Proof/Machine/Authority.lean ====
section
/-!
DEFINITION. Rights (13 R300, R308, 22 R359, 02 R41): what an authority table lets a strand do to strands, nodes and
rectangles.
-/

namespace Sys2Proof.Machine

/-! The bits of the rights in an authority entry (R300). -/
namespace Right
abbrev grant : Nat := 30
abbrev launch : Nat := 29
abbrev step : Nat := 28
abbrev write : Nat := 27
abbrev read : Nat := 26
abbrev start : Nat := 25
abbrev stop : Nat := 24
end Right

def authRect (e : Word) : Rect := rectOf e.toNat
def authLo (e : Word) : Nat := field e 55 48
def authHi (e : Word) : Nat := field e 63 56

/-- R301 step 1: the layout of an entry. -/
def authOk (e : Word) : Bool :=
  field e 47 32 == 0 && field e 23 19 == 0 && e.getLsbD 31 && authLo e ≤ authHi e && (authRect e).aligned &&
  (authRect e).onModule

/-- Slots `lo` to `hi` of a core lie in the sets of the entries together. -/
def slotsCovered (es : List Word) (core lo hi : Nat) : Bool :=
  (List.range (hi + 1 - lo)).all fun i =>
    es.any fun e => (authRect e).hasCore core && authLo e ≤ lo + i && lo + i ≤ authHi e

/-- The table carries a right over slots `lo` to `hi` of every core of a rectangle. -/
def tableCovers (auth : List Word) (bit : Nat) (r : Rect) (lo hi : Nat) : Bool :=
  let es := auth.filter fun e => e.getLsbD 31 && e.getLsbD bit
  (es.any fun e => r.inside (authRect e) && authLo e ≤ lo && hi ≤ authHi e) ||
  (r.cores.all fun c => slotsCovered es c lo hi)

/-- A context is another's creator, directly or through created contexts, or the same (R359). -/
def State.reachesCtx (s : State) (ctx : Nat) : Nat → Nat → Bool
  | 0, t => t == ctx
  | fuel + 1, t =>
    t == ctx ||
    match (s.ctx? t).bind (·.creator) with
    | some c => State.reachesCtx s ctx fuel c
    | none => false

def State.reaches (s : State) (ctx t : Nat) : Bool := s.reachesCtx ctx 4096 t

/-- A right over slots `lo` to `hi` of every core of a rectangle, with R359 for the strands there. -/
def State.holds (s : State) (st : Strand) (bit : Nat) (r : Rect) (lo hi : Nat) : Bool :=
  tableCovers st.auth.toList bit r lo hi &&
  s.strands.all fun e =>
    e.2.place == .transit || !r.hasCore e.2.core || e.2.slotNo < lo || hi < e.2.slotNo || s.reaches st.ctx e.2.ctx

/-- The rectangle of one core. -/
def Rect.single (core : Nat) : Rect := ⟨fileOf core, rankOf core, 0, 0⟩

/-- A right over the strand that an ID names (R302). -/
def State.holdsOver (s : State) (st : Strand) (bit sid : Nat) : Bool :=
  s.holds st bit (Rect.single (sid / 256)) (sid % 256) (sid % 256)

/-- A right over the ID that a strand of a context had, which may be gone (11 R250, R359). -/
def State.heldOver (s : State) (st : Strand) (bit sid ctx : Nat) : Bool :=
  tableCovers st.auth.toList bit (Rect.single (sid / 256)) (sid % 256) (sid % 256) && s.reaches st.ctx ctx

/-- Unless the right is held, AUTHORITY. -/
def needRight (bit sid : Nat) : Act Unit := do
  let st ← self
  need (← readS fun s => s.holdsOver st bit sid) (trapPlain Cause.authority)

/-- A node operand (R308). -/
def nodeOperand (a : Word) : Act Rect := do
  let r := rectOf a.toNat
  need (field a 63 19 == 0 && r.isNode) illegalForm
  pure r

/-- LAUNCH and GRANT over every slot of every core of a node (R308). -/
def needNode (r : Rect) : Act Unit := do
  let st ← self
  let s ← readS id
  need (s.holds st Right.launch r 0 255 && s.holds st Right.grant r 0 255) (trapPlain Cause.authority)

/-- R41, order 2: the LAUNCH right over the rectangle, which lies in a leaf of the context (22 R353). -/
def State.mayLaunch (s : State) (auth : List Word) (ctx : Nat) (r : Rect) : Bool :=
  tableCovers auth Right.launch r 0 255 &&
  match s.ctx? ctx with
  | some c => s.leaves.any fun l => c.bound.contains l.node.leafId && r.inside l.node
  | none => false

end Sys2Proof.Machine
end

