-- ==== Sys2Proof/Machine/CastMap.lean ====
section
/-!
DEFINITION. Castling maps: units, frames and residency (23 R390, R394, R395, R397).
-/

namespace Sys2Proof.Machine

/-- An entry of a castling map (R390). -/
structure Unit64 where
  res : Bool
  ws : Bool
  mov : Bool
  va : Nat
  tier : Nat
  hbm : Nat
  reserved : Bool

def unitOf (w0 w1 : BitVec 64) : Unit64 :=
  { res := w0.getLsbD 63, ws := w0.getLsbD 62, mov := w0.getLsbD 61, va := field w0 40 0,
    tier := 0x100000000000 + field w1 59 32 * 65536, hbm := field w1 23 0 * 65536,
    reserved := field w0 60 41 != 0 || field w1 63 60 != 0 || field w1 31 24 != 0 }

/-- Entry `i` of a map at a physical address. -/
def State.unitAt (s : State) (map i : Nat) : Unit64 := unitOf (s.word (map + 16 * i)) (s.word (map + 16 * i + 8))

def State.units (s : State) (c : Ctx) : List Unit64 := (List.range c.castCount).map (s.unitAt c.castMap)

/-- The context whose RES unit holds an HBM frame, with the entry (R390). -/
def State.frameHolder (s : State) (hbm : Nat) : Option (Nat × Nat) :=
  s.ctxs.findSome? fun e =>
    ((List.range e.2.castCount).find? fun i => let u := s.unitAt e.2.castMap i; u.res && u.hbm == hbm).map fun i => (e.1, i)

def State.isStopped (s : State) (ctx : Nat) : Bool := ((s.ctx? ctx).map (·.stopped)).getD false

/-- A cast whose T has come stops its context before anything of it issues (23 R379). -/
def State.castDue (s : State) (ctx : Nat) : Bool :=
  match s.castRun with
  | some (c, .toStop t) => t ≤ s.gclk && s.pausing.isEmpty && c.out == ctx
  | _ => false

/-- The context is clock-stopped, from T on (02 R47, R63). -/
def State.halted (s : State) (ctx : Nat) : Bool := s.isStopped ctx || s.castDue ctx

/-- The game clock as the context's pending launches see it, which no longer moves from T on (02 R48). -/
def State.runClock (s : State) (ctx : Nat) : BitVec 64 :=
  match s.castRun with
  | some (c, .toStop t) => if s.castDue ctx && c.out == ctx then t else s.gclk
  | _ => s.gclk

/-- A working-set unit in the tier whose frame is free or held by a unit of a stopped context (R395). -/
def State.promotable (s : State) (u : Unit64) : Bool :=
  u.ws && !u.res &&
  match s.frameHolder u.hbm with
  | none => true
  | some (h, _) => s.isStopped h

/-- R397: the residency reaches the threshold, or no unit remains promotable. -/
def State.residencyMet (s : State) (c : Ctx) : Bool :=
  let us := s.units c
  let w := (us.filter (·.ws)).length
  let r := (us.filter fun u => u.ws && u.res).length
  w == 0 || c.thr * w ≤ 256 * r || !us.any s.promotable

/-- Admission no longer waits on castling from the point where R397 is met. -/
def State.noteResidency (s : State) (ctx : Nat) : State :=
  match s.ctx? ctx with
  | some c => if c.castWaits && s.residencyMet c then s.setCtx ctx { c with castWaits := false } else s
  | none => s

/-- Condition 4 of 02 R47. -/
def State.castReady (s : State) (ctx : Nat) : Bool :=
  match s.ctx? ctx with
  | some c => !c.castWaits || s.residencyMet c
  | none => false

end Sys2Proof.Machine
end

