-- ==== Sys2Proof/Machine/Float.lean ====
section
/-!
DEFINITION. Floating-point numbers and the one rounding of every operation (03 R67 to R81, 08 R187 to R194): an exact value is
held as a sign, a natural number and a power of two, with a flag for a remainder below its last bit.
-/

namespace Sys2Proof.Machine

/-! ### Formats (03 R67, R69) -/

/-- Width, fraction bits and bias of a floating-point format. -/
structure FFmt where
  w : Nat
  m : Nat
  bias : Nat
  deriving DecidableEq, Repr

def ffmt (code : Nat) : FFmt :=
  match code with
  | 1 => ⟨64, 52, 1023⟩
  | 2 => ⟨32, 23, 127⟩
  | 3 => ⟨16, 7, 127⟩
  | 4 => ⟨16, 10, 15⟩
  | 5 => ⟨8, 3, 7⟩
  | _ => ⟨8, 2, 15⟩

/-- The largest biased exponent field. -/
def FFmt.emax (t : FFmt) : Nat := 2 ^ (t.w - 1 - t.m) - 1

def fpSign (code : Nat) (neg : Bool) : Nat := if neg then 2 ^ ((ffmt code).w - 1) else 0

/-- R69: the canonical NaN of a sign. -/
def fpNan (code : Nat) (neg : Bool) : Nat :=
  let t := ffmt code
  fpSign code neg + (if code = 5 then 0x7F else t.emax * 2 ^ t.m + 2 ^ (t.m - 1))

def fpInf (code : Nat) (neg : Bool) : Nat := let t := ffmt code; fpSign code neg + t.emax * 2 ^ t.m

/-- The pattern of the largest finite magnitude. -/
def fpLargest (code : Nat) : Nat := let t := ffmt code; if code = 5 then 0x7E else t.emax * 2 ^ t.m - 1

/-- A number of R67 without its format. `num neg m e` is (−1)^neg · m · 2^e. -/
inductive Fp where
  | nan (neg quiet : Bool)
  | inf (neg : Bool)
  | num (neg : Bool) (m : Nat) (e : Int)
  deriving DecidableEq, Repr

def Fp.isNan : Fp → Bool
  | .nan _ _ => true
  | _ => false

def Fp.isInf : Fp → Bool
  | .inf _ => true
  | _ => false

def Fp.isZero : Fp → Bool
  | .num _ 0 _ => true
  | _ => false

def Fp.neg? : Fp → Bool
  | .nan n _ => n
  | .inf n => n
  | .num n _ _ => n

def Fp.withSign (n : Bool) : Fp → Fp
  | .nan _ q => .nan n q
  | .inf _ => .inf n
  | .num _ m e => .num n m e

/-- R79: a signalling NaN operand sets NV. -/
def Fp.snan : Fp → Flags
  | .nan _ false => Flags.nv
  | _ => 0

/-- The operand that bits of a format stand for; with `ftz` a subnormal one of FP32 and narrower reads as zero (R78). -/
def fpUnpack (code : Nat) (ftz : Bool) (bits : Nat) : Fp :=
  let t := ffmt code
  let neg := bits.testBit (t.w - 1)
  let e := bitsOf bits (t.w - 2) t.m
  let f := bits % 2 ^ t.m
  if code = 5 then
    if e = 15 ∧ f = 7 then .nan neg true
    else if e = 0 then (if ftz then .num neg 0 0 else .num neg f (-9))
    else .num neg (8 + f) ((e : Int) - 10)
  else if e = t.emax then (if f = 0 then .inf neg else .nan neg (f.testBit (t.m - 1)))
  else if e = 0 then (if ftz && code != 1 then .num neg 0 0 else .num neg f (1 - (t.bias : Int) - t.m))
  else .num neg (2 ^ t.m + f) ((e : Int) - t.bias - t.m)

/-! ### Rounding (R76 to R79) -/

/-- Whether a magnitude of the sign rounds away from zero: `rem` is the remainder below the last bit in units of which `unit`
is one step, `sticky` a remainder below that. -/
def roundsUp (rm : Rm) (neg odd : Bool) (rem unit : Nat) (sticky : Bool) : Bool :=
  match rm with
  | .rne => 2 * rem > unit || (2 * rem == unit && (sticky || odd))
  | .rtz => false
  | .rdn => neg && (rem != 0 || sticky)
  | .rup => !neg && (rem != 0 || sticky)

/-- A magnitude m · 2^e (and a bit more under `sticky`) rounded to a multiple of 2^q: the multiple, and whether it is
inexact. -/
def roundAt (rm : Rm) (neg : Bool) (m : Nat) (e : Int) (sticky : Bool) (q : Int) : Nat × Bool :=
  if q ≤ e then (m * 2 ^ (e - q).toNat, sticky)
  else
    let sh := (q - e).toNat
    if Nat.log2 m + 2 < sh then
      ((if roundsUp rm neg false (if m = 0 then 0 else 1) 4 sticky then 1 else 0), m != 0 || sticky)
    else
      let n := m / 2 ^ sh
      let rem := m % 2 ^ sh
      ((if roundsUp rm neg (n % 2 == 1) rem (2 ^ sh) sticky then n + 1 else n), rem != 0 || sticky)

/-- Toward zero, for R77. -/
def towardZero (rm : Rm) (neg : Bool) : Bool :=
  match rm with
  | .rne => false
  | .rtz => true
  | .rdn => !neg
  | .rup => neg

/-- The bits that R77 gives to an overflow. -/
def overflowBits (code : Nat) (env : FpEnv) (neg : Bool) : Nat :=
  if code != 1 && code != 2 && env.sat then fpSign code neg + fpLargest code
  else if towardZero env.rm neg then fpSign code neg + fpLargest code
  else if code = 5 then fpNan code neg else fpInf code neg

/-- THE ROUNDING of an exact finite value to a format, with its flags. -/
def fpRound (code : Nat) (env : FpEnv) (neg : Bool) (m : Nat) (e : Int) (sticky : Bool) : Nat × Flags :=
  let sgn := fpSign code neg
  if m = 0 ∧ !sticky then (sgn, 0)
  else
    let t := ffmt code
    let emin : Int := 1 - t.bias
    let lead := e + Nat.log2 m
    let q := (if lead < emin then emin else lead) - t.m
    let (n, inexact) := roundAt env.rm neg m e sticky q
    let bits := ((q + t.m + t.bias - 1) * 2 ^ t.m).toNat + n
    let tiny := lead < emin && (lead < emin - 1 || (roundAt env.rm neg m e sticky (lead - t.m)).1 < 2 ^ (t.m + 1))
    if fpLargest code < bits then (overflowBits code env neg, Flags.of ||| Flags.nx)
    else if env.ftz && code != 1 && bits != 0 && bits < 2 ^ t.m then (sgn, Flags.uf ||| Flags.nx)
    else (sgn + bits, (if inexact then Flags.nx else 0) ||| (if tiny && inexact then Flags.uf else 0))

/-- Deliver a value into a format: an infinity where the format has none is resolved by R77 and sets OF only. -/
def fpPack (code : Nat) (env : FpEnv) : Fp → Nat × Flags
  | .nan neg _ => (fpNan code neg, 0)
  | .inf neg => if code = 5 then (overflowBits 5 env neg, Flags.of) else (fpInf code neg, 0)
  | .num neg m e => fpRound code env neg m e false

/-! ### Operations -/

/-- The bits of a NaN result: the sign of the first NaN operand, or positive (R80). -/
def nanOf (code : Nat) (ops : List Fp) : Nat :=
  match ops.find? Fp.isNan with
  | some n => fpNan code n.neg?
  | none => fpNan code false

def snans (ops : List Fp) : Flags := ops.foldl (fun f o => f ||| o.snan) 0

/-- A signed magnitude on the grid of 2^e. -/
def onGrid (neg : Bool) (m : Nat) (e g : Int) : Int :=
  let v : Int := m * 2 ^ (e - g).toNat
  if neg then -v else v

/-- The sum of two finite numbers (R83): zeros of one sign keep it, another exact zero is −0 under RDN only. -/
def sumFinite (rm : Rm) (n1 : Bool) (m1 : Nat) (e1 : Int) (n2 : Bool) (m2 : Nat) (e2 : Int) : Fp :=
  let e1 := if m1 = 0 then e2 else e1
  let e2 := if m2 = 0 then e1 else e2
  let g := if e1 < e2 then e1 else e2
  let v := onGrid n1 m1 e1 g + onGrid n2 m2 e2 g
  if v = 0 then
    (if m1 = 0 ∧ m2 = 0 ∧ n1 = n2 then .num n1 0 0 else .num (rm == .rdn) 0 0)
  else .num (decide (v < 0)) v.natAbs g

/-- x·y + z without rounding; none for an invalid operation (R188). No operand is a NaN, or z alone is one beside an invalid
product. -/
def fmaExact (rm : Rm) (x y z : Fp) : Option Fp :=
  match x, y with
  | .num nx mx ex, .num ny my ey =>
    match z with
    | .num nz mz ez => some (sumFinite rm (nx != ny) (mx * my) (ex + ey) nz mz ez)
    | z => some z
  | x, y =>
    if x.isZero || y.isZero then none
    else
      let n := x.neg? != y.neg?
      match z with
      | .inf nz => if nz = n then some (.inf n) else none
      | _ => some (.inf n)

/-- The fused forms of R188 with the negations that their table gives; flags of signalling NaNs and of invalid operations. -/
def fpFma (code : Nat) (env : FpEnv) (negA negC : Bool) (a b c : Nat) : Nat × Flags :=
  let u := fpUnpack code env.ftz
  let (x, y, z) := (u a, u b, u c)
  let fl := snans [x, y, z]
  if (x.isInf && y.isZero) || (x.isZero && y.isInf) then (nanOf code [z], fl ||| Flags.nv)
  else if x.isNan || y.isNan || z.isNan then (nanOf code [x, y, z], fl)
  else
    match fmaExact env.rm (x.withSign (x.neg? != negA)) y (z.withSign (z.neg? != negC)) with
    | some r => let (v, g) := fpPack code env r; (v, fl ||| g)
    | none => (fpNan code false, fl ||| Flags.nv)

/-- An operation of two numbers that are no NaN: the value, or none for an invalid one, and a remainder bit and flags. -/
abbrev Exact := Option (Fp × Bool × Flags)

def fp2 (code : Nat) (env : FpEnv) (op : Fp → Fp → Exact) (a b : Nat) : Nat × Flags :=
  let x := fpUnpack code env.ftz a
  let y := fpUnpack code env.ftz b
  let fl := snans [x, y]
  if x.isNan || y.isNan then (nanOf code [x, y], fl)
  else
    match op x y with
    | none => (fpNan code false, fl ||| Flags.nv)
    | some (.num n m e, sticky, g) => let (v, h) := fpRound code env n m e sticky; (v, fl ||| g ||| h)
    | some (r, _, g) => let (v, h) := fpPack code env r; (v, fl ||| g ||| h)

def fp1 (code : Nat) (env : FpEnv) (op : Fp → Exact) (a : Nat) : Nat × Flags :=
  fp2 code env (fun x _ => op x) a 0

def addExact (rm : Rm) (x y : Fp) : Exact :=
  match x, y with
  | .num n1 m1 e1, .num n2 m2 e2 => some (sumFinite rm n1 m1 e1 n2 m2 e2, false, 0)
  | .inf n1, .inf n2 => if n1 = n2 then some (.inf n1, false, 0) else none
  | .inf n, _ => some (.inf n, false, 0)
  | _, y => some (y, false, 0)

def mulExact (x y : Fp) : Exact :=
  match x, y with
  | .num n1 m1 e1, .num n2 m2 e2 => some (.num (n1 != n2) (m1 * m2) (e1 + e2), false, 0)
  | x, y => if x.isZero || y.isZero then none else some (.inf (x.neg? != y.neg?), false, 0)

def fpAdd (code : Nat) (env : FpEnv) : Nat → Nat → Nat × Flags := fp2 code env (addExact env.rm)

def fpSub (code : Nat) (env : FpEnv) : Nat → Nat → Nat × Flags :=
  fp2 code env fun x y => addExact env.rm x (y.withSign (!y.neg?))

def fpMul (code : Nat) (env : FpEnv) : Nat → Nat → Nat × Flags := fp2 code env mulExact

/-- R194: a quotient to 128 bits and a remainder bit. -/
def divExact (x y : Fp) : Exact :=
  let n := x.neg? != y.neg?
  match x, y with
  | .num _ mx ex, .num _ my ey =>
    if my = 0 then (if mx = 0 then none else some (.inf n, false, Flags.dz))
    else some (.num n (mx * 2 ^ 128 / my) (ex - ey - 128), mx * 2 ^ 128 % my != 0, 0)
  | .inf _, .inf _ => none
  | .inf _, _ => some (.inf n, false, 0)
  | _, _ => some (.num n 0 0, false, 0)

def fpDiv (code : Nat) (env : FpEnv) : Nat → Nat → Nat × Flags := fp2 code env divExact

/-- The pattern of 1.0. -/
def fpOne (code : Nat) : Nat := let t := ffmt code; t.bias * 2 ^ t.m

def fpRcp (code : Nat) (env : FpEnv) : Nat → Nat × Flags :=
  fp1 code env fun y => divExact (.num false 1 0) y

/-- The integer square root, bit by bit from bit `i − 1`. -/
def isqrt (n : Nat) : Nat → Nat → Nat
  | 0, r => r
  | i + 1, r => isqrt n i (if (r + 2 ^ i) * (r + 2 ^ i) ≤ n then r + 2 ^ i else r)

def sqrtOf (n : Nat) : Nat := isqrt n (Nat.log2 n / 2 + 1) 0

def sqrtExact (x : Fp) : Exact :=
  match x with
  | .num n 0 _ => some (.num n 0 0, false, 0)
  | .num true _ _ => none
  | .inf true => none
  | .num false m e =>
    let k : Nat := if e % 2 = 0 then 128 else 129
    let v := m * 2 ^ k
    let r := sqrtOf v
    some (.num false r ((e - k) / 2), r * r != v, 0)
  | r => some (r, false, 0)

def fpSqrt (code : Nat) (env : FpEnv) : Nat → Nat × Flags := fp1 code env sqrtExact

/-- 1 / √a: the root of a quotient with an even power of two. -/
def rsqExact (x : Fp) : Exact :=
  match x with
  | .num n 0 _ => some (.inf n, false, Flags.dz)
  | .num true _ _ => none
  | .inf true => none
  | .inf false => some (.num false 0 0, false, 0)
  | .num false m e =>
    let k : Nat := if e % 2 = 0 then 256 else 257
    let v := 2 ^ k / m
    let r := sqrtOf v
    some (.num false r ((-e - k) / 2), r * r != v || 2 ^ k % m != 0, 0)
  | r => some (r, false, 0)

def fpRsq (code : Nat) (env : FpEnv) : Nat → Nat × Flags := fp1 code env rsqExact

/-- The order of two numbers that are no NaN; with `zeros`, −0 stands below +0. -/
def fpLess (zeros : Bool) (x y : Fp) : Bool :=
  let key (u : Fp) (g : Int) : Int :=
    match u with
    | .num n m e => onGrid n m e g
    | _ => 0
  match x, y with
  | .inf n, .inf k => n && !k
  | .inf n, _ => n
  | _, .inf k => !k
  | .num n m e, .num k l d =>
    let e := if m = 0 then d else e
    let d := if l = 0 then e else d
    let g := if e < d then e else d
    let (p, q) := (key (.num n m e) g, key (.num k l d) g)
    decide (p < q) || (zeros && m == 0 && l == 0 && n && !k)
  | _, _ => false

/-- R189, with the flushed operands' own bits as the result. -/
def fpMinMax (code : Nat) (env : FpEnv) (isMax : Bool) (a b : Nat) : Nat × Flags :=
  let x := fpUnpack code env.ftz a
  let y := fpUnpack code env.ftz b
  let fl := snans [x, y]
  if x.isNan || y.isNan then (nanOf code [x, y], fl)
  else
    let first := if isMax then !fpLess true x y else !fpLess true y x
    let (u, bits) := if first then (x, a) else (y, b)
    ((if u.isZero then fpSign code u.neg? else bits), fl)

/-- R190: a's magnitude under a sign. -/
def fpSigned (code : Nat) (env : FpEnv) (a : Nat) (neg : Bool) (fl : Flags) : Nat × Flags :=
  let x := fpUnpack code env.ftz a
  let mag := a % 2 ^ ((ffmt code).w - 1)
  ((match x with
    | .nan _ _ => fpNan code neg
    | .num _ 0 _ => fpSign code neg
    | _ => fpSign code neg + mag), x.snan ||| fl)

def signBit (code bits : Nat) : Bool := bits.testBit ((ffmt code).w - 1)

def fpAbs (code : Nat) (env : FpEnv) (a : Nat) : Nat × Flags := fpSigned code env a false 0
def fpNeg (code : Nat) (env : FpEnv) (a : Nat) : Nat × Flags := fpSigned code env a (!signBit code a) 0
def fpCps (code : Nat) (env : FpEnv) (a b : Nat) : Nat × Flags :=
  fpSigned code env a (signBit code b) (fpUnpack code env.ftz b).snan

/-- R191: the condition and its flags. -/
def fpCompare (code : Nat) (ftz : Bool) (cond a b : Nat) : Bool × Flags :=
  let x := fpUnpack code ftz a
  let y := fpUnpack code ftz b
  let fl := snans [x, y]
  if x.isNan || y.isNan then
    (cond == 1 || cond == 6, fl ||| (if 2 ≤ cond && cond ≤ 5 then Flags.nv else 0))
  else
    let lt := fpLess false x y
    let gt := fpLess false y x
    ((match cond with
      | 0 => !lt && !gt
      | 1 => lt || gt
      | 2 => lt
      | 3 => !gt
      | 4 => gt
      | 5 => !lt
      | 6 => false
      | _ => true), fl)

/-- The classes of R191. -/
def fpClass (code : Nat) (ftz : Bool) (a : Nat) : Nat :=
  match fpUnpack code ftz a with
  | .nan _ q => if q then 1 else 0
  | .inf n => if n then 2 else 9
  | .num n 0 _ => if n then 5 else 6
  | .num n _ _ =>
    let t := ffmt code
    let sub := bitsOf a (t.w - 2) t.m = 0
    if sub then (if n then 4 else 7) else (if n then 3 else 8)

/-- R192: an integral value. -/
def fpRnd (code : Nat) (env : FpEnv) (a : Nat) : Nat × Flags :=
  let x := fpUnpack code env.ftz a
  match x with
  | .nan n _ => (fpNan code n, x.snan)
  | .inf n => (fpInf code n, 0)
  | .num n m e =>
    let (k, inexact) := if 0 ≤ e then (m * 2 ^ e.toNat, false) else roundAt env.rm n m e false 0
    ((fpRound code env n k 0 false).1, if inexact then Flags.nx else 0)

/-- R192: a · 2^n. -/
def fpScale (code : Nat) (env : FpEnv) (a : Nat) (n : Int) : Nat × Flags :=
  fp1 code env (fun x =>
    match x with
    | .num s m e => some (.num s m (e + n), false, 0)
    | x => some (x, false, 0)) a

/-- One step of R83 in FP32: s + x·y with the product exact. -/
def fusedStep (env : FpEnv) (s : Nat) (x y : Fp) : Nat × Flags :=
  let z := fpUnpack 2 env.ftz s
  let fl := snans [x, y, z]
  if (x.isInf && y.isZero) || (x.isZero && y.isInf) then (nanOf 2 [z], fl ||| Flags.nv)
  else if x.isNan || y.isNan || z.isNan then (nanOf 2 [x, y, z], fl)
  else
    match fmaExact env.rm x y z with
    | some r => let (v, g) := fpPack 2 env r; (v, fl ||| g)
    | none => (fpNan 2 false, fl ||| Flags.nv)

/-- The step on elements of one format. -/
def dotStep (code : Nat) (env : FpEnv) (s a b : Nat) : Nat × Flags :=
  fusedStep env s (fpUnpack code env.ftz a) (fpUnpack code env.ftz b)

/-! ### Conversions (R81, 08 R199, R200) -/

/-- Whether an integer format is signed, and its range. -/
def intRange (code : Nat) : Int × Int :=
  let w := Shape.widthOf code
  if code = 12 then (0, 255) else (-(2 ^ (w - 1)), 2 ^ (w - 1) - 1)

def intValue (code bits : Nat) : Int := if code = 12 then ((bits % 256 : Nat) : Int) else toSigned (Shape.widthOf code) bits

def clampTo (r : Int × Int) (v : Int) : Int := if v < r.1 then r.1 else if r.2 < v then r.2 else v

/-- A floating-point number into an integer format. -/
def fpToInt (t : Nat) (rm : Rm) (x : Fp) : Nat × Flags :=
  let w := Shape.widthOf t
  let r := intRange t
  match x with
  | .nan _ _ => (0, Flags.nv)
  | .inf n => (wrap w (if n then r.1 else r.2), Flags.nv)
  | .num n m e =>
    let (k, inexact) := if 0 ≤ e then (m * 2 ^ (min e.toNat 2000), false) else roundAt rm n m e false 0
    let v : Int := if n then -(k : Int) else k
    if v < r.1 || r.2 < v then (wrap w (clampTo r v), Flags.nv) else (wrap w v, if inexact then Flags.nx else 0)

/-- VFCVT of one element (R199). -/
def fpConvert (t s : Nat) (env : FpEnv) (bits : Nat) : Nat × Flags :=
  if s = 7 then
    if bits = 0xFF then (fpNan t false, 0) else fpRound t env false 1 ((bits : Int) - 127) false
  else if intCodes.contains s then
    let v := intValue s bits
    fpRound t env (decide (v < 0)) v.natAbs 0 false
  else
    let x := fpUnpack s env.ftz bits
    if intCodes.contains t then fpToInt t env.rm x
    else let (v, g) := fpPack t env x; (v, x.snan ||| g)

/-- VICVT of one element (R200). -/
def intConvert (t s : Nat) (sat : Bool) (bits : Nat) : Nat :=
  let v := intValue s bits
  wrap (Shape.widthOf t) (if sat then clampTo (intRange t) v else v)

/-- R154: a scalar given as an FP32 pattern, in the operation's format. -/
def fpScalar (code : Nat) (env : FpEnv) (pattern : Nat) : Nat × Flags :=
  if code = 2 then (pattern, 0)
  else if code = 1 then fpConvert 1 2 { env with ftz := false } pattern
  else fpConvert code 2 env pattern

end Sys2Proof.Machine
end

