-- ==== Sys2Proof/Machine/Special.lean ====
section
/-!
DEFINITION. The special functions, correctly rounded (08 R194): fixed-point values with 640 bits below the point, whose error
stays below 2^-600, far beneath the distance of any inexact result from a rounding boundary of FP32 and narrower formats
(DEDUCED, log entry 15).
-/

namespace Sys2Proof.Machine

/-- Bits below the point. -/
abbrev fxBits : Nat := 640

abbrev fxOne : Nat := 2 ^ 640

/-- A number m · 2^e in fixed point. -/
def toFx (m : Nat) (e : Int) : Nat := if 0 ≤ e + 640 then m * 2 ^ (e + 640).toNat else m / 2 ^ (-(e + 640)).toNat

/-- x + x^3/3 + x^5/5 + …, the terms' signs alternating under `alt`: atanh and atan of a fixed-point number below 1/2. -/
def arcSeries (alt : Bool) (x2 : Nat) : Nat → Nat → Nat → Int
  | 0, _, _ => 0
  | n + 1, k, p =>
    let t : Int := p / (2 * k + 1)
    t + (if alt then -(arcSeries alt x2 n (k + 1) (p * x2 / fxOne)) else arcSeries alt x2 n (k + 1) (p * x2 / fxOne))

def atanhFx (x : Nat) : Nat := (arcSeries false (x * x / fxOne) 230 0 x).toNat

def atanFx (x : Nat) : Nat := (arcSeries true (x * x / fxOne) 150 0 x).toNat

/-- ln 2 = 2 atanh(1/3) and π = 16 atan(1/5) − 4 atan(1/239). -/
def ln2Fx : Nat := 2 * atanhFx (fxOne / 3)

def piFx : Nat := 16 * atanFx (fxOne / 5) - 4 * atanFx (fxOne / 239)

/-- Σ x^k / k!, from the term p of index k on; with `alt` every other term is subtracted, with `step` 2 only the terms of one
parity stand. -/
def expSeries (alt : Bool) (step : Nat) (x : Nat) : Nat → Nat → Nat → Int
  | 0, _, _ => 0
  | n + 1, k, p =>
    let q := if step = 2 then p * x / fxOne / (k + 1) * x / fxOne / (k + 2) else p * x / fxOne / (k + 1)
    let rest := expSeries alt step x n (k + step) q
    (p : Int) + (if alt then -rest else rest)

/-- e^x for x < 1, sin x and cos x for x < 2. -/
def expFx (x : Nat) : Nat := (expSeries false 1 x 140 0 fxOne).toNat
def sinFx (x : Nat) : Nat := (expSeries true 2 x 80 1 x).toNat
def cosFx (x : Nat) : Nat := (expSeries true 2 x 80 0 fxOne).toNat

/-- e^-y for y < 256: the exponential of y / 512, inverted and squared nine times. -/
def expNegFx (y : Nat) : Nat :=
  (List.range 9).foldl (fun v _ => v * v / fxOne) (fxOne * fxOne / expFx (y / 512))

/-- An inexact result in fixed point. -/
def fxResult (neg : Bool) (v : Nat) (shift : Int) : Exact := some (.num neg v (shift - 640), true, 0)

def exactResult (neg : Bool) (m : Nat) (e : Int) : Exact := some (.num neg m e, false, 0)

/-- VFEXP2: 2^n · e^(f ln 2). -/
def exp2Exact (x : Fp) : Exact :=
  match x with
  | .inf n => some (if n then .num false 0 0 else .inf false, false, 0)
  | .nan _ _ => none
  | .num neg m e =>
    if 0 ≤ e then
      let n : Int := if 32 ≤ e + Nat.log2 m then 2 ^ 32 else m * 2 ^ e.toNat
      exactResult false 1 (if neg then -n else n)
    else
      let d := (-e).toNat
      let whole := m / 2 ^ d
      let frac := m % 2 ^ d
      if frac = 0 then exactResult false 1 (if neg then -(whole : Int) else whole)
      else
        let (n, f) : Int × Nat := if neg then (-(whole : Int) - 1, 2 ^ d - frac) else (whole, frac)
        fxResult false (expFx (toFx f (-(d : Int)) * ln2Fx / fxOne)) n

/-- VFLOG2: e + ln m / ln 2 with m from 1 to 2. -/
def log2Exact (x : Fp) : Exact :=
  match x with
  | .num _ 0 _ => some (.inf true, false, Flags.dz)
  | .num true _ _ => none
  | .inf true => none
  | .inf false => some (.inf false, false, 0)
  | .nan _ _ => none
  | .num false m e =>
    let l := Nat.log2 m
    let whole : Int := e + l
    if m = 2 ^ l then exactResult (decide (whole < 0)) whole.natAbs 0
    else
      let f := toFx m (-(l : Int))
      let ln := 2 * atanhFx ((f - fxOne) * fxOne / (f + fxOne))
      let v : Int := whole * fxOne + ((ln * fxOne / ln2Fx : Nat) : Int)
      fxResult (decide (v < 0)) v.natAbs 0

/-- A magnitude modulo 2 in units of 2^-d, and d: half-turns of VFSIN and VFCOS. -/
def halfTurns (m : Nat) (e : Int) : Nat × Nat :=
  if 0 ≤ e then (if e = 0 then m % 2 else 0, 0) else let d := (-e).toNat; (m % 2 ^ (d + 1), d)

/-- sin(π·r) for a fraction r = k / 2^d in (0, 1). -/
def sinTurn (neg : Bool) (k d : Nat) : Exact :=
  if 2 * k = 2 ^ d then exactResult neg 1 0
  else
    let k := if 2 * k < 2 ^ d then k else 2 ^ d - k
    fxResult neg (sinFx (toFx k (-(d : Int)) * piFx / fxOne)) 0

/-- VFSIN. -/
def sinExact (x : Fp) : Exact :=
  match x with
  | .inf _ => none
  | .nan _ _ => none
  | .num neg m e =>
    let (k, d) := halfTurns m e
    if k % 2 ^ d = 0 then exactResult (neg && m != 0) 0 0
    else sinTurn (neg != decide (2 ^ d ≤ k)) (k % 2 ^ d) d

/-- VFCOS: cos(π·r) = sin(π·(r + ½)), with the argument's magnitude alone. -/
def cosExact (x : Fp) : Exact :=
  match x with
  | .inf _ => none
  | .nan _ _ => none
  | .num _ m e =>
    let (k, d) := halfTurns m e
    if k % 2 ^ d = 0 then exactResult (k != 0) 1 0
    else
      let r := k % 2 ^ d
      let flip := decide (2 ^ d ≤ k)
      if 2 * r = 2 ^ d then exactResult false 0 0
      else
        let neg := flip != decide (2 ^ d < 2 * r)
        let r := if 2 * r < 2 ^ d then r else 2 ^ d - r
        fxResult neg (cosFx (toFx r (-(d : Int)) * piFx / fxOne)) 0

/-- VFTANH: (1 − E) / (1 + E) with E = e^-2a; from 128 on the result lies between 1 and the number just below it. -/
def tanhExact (x : Fp) : Exact :=
  match x with
  | .inf n => exactResult n 1 0
  | .nan _ _ => none
  | .num n 0 _ => exactResult n 0 0
  | .num n m e =>
    if 7 ≤ e + Nat.log2 m then fxResult n (fxOne - 1) 0
    else
      let E := expNegFx (2 * toFx m e)
      fxResult n ((fxOne - E) * fxOne / (fxOne + E)) 0

def fpExp2 (code : Nat) (env : FpEnv) : Nat → Nat × Flags := fp1 code env exp2Exact
def fpLog2 (code : Nat) (env : FpEnv) : Nat → Nat × Flags := fp1 code env log2Exact
def fpSin (code : Nat) (env : FpEnv) : Nat → Nat × Flags := fp1 code env sinExact
def fpCos (code : Nat) (env : FpEnv) : Nat → Nat × Flags := fp1 code env cosExact
def fpTanh (code : Nat) (env : FpEnv) : Nat → Nat × Flags := fp1 code env tanhExact

end Sys2Proof.Machine
end

