-- ==== Sys2Proof/Machine/EngineOps.lean ====
section
/-!
DEFINITION. The engines' shared parts (11 R240 to R252): queues, the accumulator store, tiles, the accesses of a command, its
completion word and its record.
-/

namespace Sys2Proof.Machine

/-! ### Engines and queues (R240) -/

def State.engine (s : State) (core e : Nat) : Engine := (s.core core).engine e

def State.editEngine (s : State) (core e : Nat) (g : Engine → Engine) : State := s.editCore core fun k => k.editEngine e g

def CmdKind.engine : CmdKind → Nat
  | .mst => 1
  | .cpy => 1
  | .cpyr => 1
  | .cpyrow => 1
  | _ => 0

/-- The commands that leave a completion word: all but the register commits (R242, R244). -/
def CmdKind.reports : CmdKind → Bool
  | .mzero => false
  | .mrd => false
  | .mwr => false
  | .cpyr => false
  | _ => true

/-- The head of a queue. -/
def State.headCmd (s : State) (core e : Nat) : Option Command := (s.engine core e).queue.head?

/-- A command of a queue goes on as `c`, and what its engine waited for is behind it. -/
def State.putCmd (s : State) (core : Nat) (c : Command) : State :=
  s.editEngine core c.kind.engine fun g =>
    { g with queue := g.queue.map fun d => if d.order == c.order then c else d, queued := none, stall := none }

/-- Index `i` of a set of engine registers. -/
def regAt (r : Vector (BitVec 64) 16) (i : Nat) : Word := (r[i]?).getD 0

def Command.reg (c : Command) (i : Nat) : Word := regAt c.regs i

/-- A signed stride. -/
def Command.stride (c : Command) (i : Nat) : Int := (c.reg i).toInt

/-- An address plus a signed displacement, modulo 2^64. -/
def shifted (a : Word) (d : Int) : Word := a + BitVec.ofInt 64 d

/-! ### The accumulator store (R252) -/

def Core.cell (k : Core) (r c : Nat) : BitVec 32 := (Sparse.get k.acc (r * 32 + c)).getD 0

def Core.setCell (k : Core) (r c : Nat) (v : BitVec 32) : Core :=
  { k with acc := if v = 0 then Sparse.erase k.acc (r * 32 + c) else Sparse.put k.acc (r * 32 + c) v }

/-- The byte at an offset of the store. -/
def Core.accByte (k : Core) (off : Nat) : BitVec 8 :=
  (((Sparse.get k.acc (off / 4)).getD 0) >>> (8 * (off % 4))).truncate 8

def Core.accBytes (k : Core) (off n : Nat) : List (BitVec 8) := (List.range n).map fun i => k.accByte (off + i)

/-- Write one byte of the store. -/
def Core.setAccByte (k : Core) (off : Nat) (b : BitVec 8) : Core :=
  let sh := 8 * (off % 4)
  let old := (Sparse.get k.acc (off / 4)).getD 0
  k.setCell (off / 128) (off / 4 % 32) ((old &&& ~~~(0xFF#32 <<< sh)) ||| (b.zeroExtend 32 <<< sh))

def Core.setAccBytes (k : Core) (off : Nat) : List (BitVec 8) → Core
  | [] => k
  | b :: bs => Core.setAccBytes (k.setAccByte off b) (off + 1) bs

/-! ### Tile descriptors (R252) -/

def tileTag (t : Word) : Nat := field t 63 60
def tileRow (t : Word) : Nat := field t 31 23
def tileCol (t : Word) : Nat := field t 22 18
def tileRows (t : Word) : Nat := field t 17 9
def tileCols (t : Word) : Nat := field t 5 0

/-- The checks of ESET `.z`. -/
def tileOk (t : Word) : Bool :=
  field t 59 32 == 0 && field t 8 6 == 0 && tileTag t < 14 && 1 ≤ tileRows t && tileRows t ≤ 256 && 1 ≤ tileCols t &&
  tileCols t ≤ 32 && tileRow t + tileRows t ≤ 512 && tileCol t + tileCols t ≤ 32

/-- The cells of a tile, row by row. -/
def Core.tileCells (k : Core) (t : Word) : List (List (BitVec 32)) :=
  (List.range (tileRows t)).map fun i => (List.range (tileCols t)).map fun n => k.cell (tileRow t + i) (tileCol t + n)

/-- Write the cells of a tile that a function gives a value. -/
def Core.setTile (k : Core) (t : Word) (v : Nat → Nat → Option (BitVec 32)) : Core :=
  (List.range (tileRows t)).foldl (fun k i =>
    (List.range (tileCols t)).foldl (fun k n =>
      match v i n with
      | some b => k.setCell (tileRow t + i) (tileCol t + n) b
      | none => k) k) k

/-- A command that reads or writes the accumulator store (R248). -/
def Command.usesAcc (c : Command) : Bool :=
  match c.kind with
  | .cpy => c.m % 4 != 0
  | .cpyr => false
  | .cpyrow => false
  | .cbook => false
  | _ => true

/-- Whether the queued head of an engine may start (R246, R248, 02 R63). -/
def State.mayStart (s : State) (core : Nat) (c : Command) : Bool :=
  !s.halted c.ctx &&
  (!c.usesAcc || !((s.engine core (1 - c.kind.engine)).queue.any fun d => d.usesAcc && d.order < c.order))

/-! ### Accesses (R246, R247) -/

/-- What keeps an access of a command from being made: a wait with the stall cause of 26 R431, or a status with its record's cause, code
and address. -/
inductive EngineStop where
  | stall (a : Await) (cause : Nat)
  | fail (status cause code : Nat) (addr : Word)
  deriving DecidableEq, Repr

/-- The stall cause of a wait of an engine: of a walk, of a read, of a write (26 R431; DESIGN CHOICE, log entry 3). -/
def stallCause (e : Nat) (walk write : Bool) (a : Await) : Nat :=
  match a with
  | .tier _ _ => if e = 0 then 3 else 4
  | .token _ _ => if walk then (if e = 0 then 2 else 3) else if e = 0 then 8 else 7
  | _ => if walk then (if e = 0 then 2 else 3) else if e != 0 && write then 2 else 1

/-- The engine waits, in its place at a home. -/
def State.engineWait (s : State) (core e : Nat) (a : Await) (cause : Nat) : State :=
  let g := s.engine core e
  let q := a.stand g.queued s.order
  if g.queued == q && g.stall == some (cause, a) then s
  else { s.editEngine core e fun g => { g with queued := q, stall := some (cause, a) } with order := s.order + 1 }

/-- The engine waits for nothing, or what it waits for is there. -/
def State.engineReady (s : State) (core e : Nat) : Bool :=
  match (s.engine core e).stall with
  | none => true
  | some (_, a) => s.homeMet a (((s.engine core e).queued.map (·.2)).getD s.order)

/-- R134 for an operand of a command, over the ranges of its launch at commit. -/
def State.declaredFor (s : State) (c : Command) (va n : Nat) (write : Bool) : Bool :=
  let dsb := ((s.ctx? c.ctx).map (·.dsb)).getD 0
  let exempt (v k : Nat) : Bool :=
    inArea c.swBase.toNat c.swLen.toNat v k || inArea (field dsb 63 16 * 65536) (field dsb 15 0 * 512) v k
  let st : Strand := { Strand.blank with item := c.item, lrec := c.lrec }
  let held (b : Nat) : Bool :=
    match s.launch? c.lrec with
    | some l => l.ctx == c.ctx && l.seq == c.lseq && s.gambitHolds st l b
    | none => false
  (blocksOf va n).all fun b =>
    let lo := max va (256 * b)
    let hi := min (va + n) (256 * b + 256)
    (exempt lo (hi - lo) || c.ranges.any fun r => r.covers b && (r.write || !write)) && !held b

/-- 04 R98 for a command, whose launch may be gone. -/
def State.foreignFor (s : State) (core : Nat) (c : Command) (pa : Nat) : Bool :=
  match zoneOf s.tierCap pa with
  | .scratch o => !(c.rect.hasCore o && s.leafIdOf o == s.leafIdOf core)
  | _ => false

/-- The first line of a run that lies in the slot of another context (22 R354). -/
def alienSlot (ctx pa n : Nat) : Option Nat :=
  (linesOfRun pa n).find? fun l => 0xFFFFF80000 ≤ l * 128 && l * 128 < 0x10000000000 && (l * 128 - 0xFFFFF80000) / 128 != ctx

/-- A piece of an access: its address, what translating it gave, and its length. -/
structure Chunk where
  va : Word
  x : Xlat
  len : Nat

/-- An access of a command to bytes of one 256-byte block, checked in the order of 10 R215 but for uncorrectable errors. -/
def State.engineChunk (s : State) (core : Nat) (c : Command) (va : Word) (n : Nat) (write : Bool) : Except EngineStop Chunk × State :=
  let e := c.kind.engine
  match (if write then s.translateStore core c.ctx va (some e) else s.translate core c.ctx va .read (some e)) with
  | (.error (.wait a), s) => (.error (.stall a (stallCause e true write a)), s)
  | (.error (.trap cause extra addr), s) => (.error (.fail (if cause == Cause.pageFault then 1 else 3) cause extra addr), s)
  | (.ok x, s) =>
    let stop (code : Nat) (a : Word) : Except EngineStop Chunk × State := (.error (.fail 3 Cause.protection code a), s)
    if s.foreignFor core c x.pa then stop 0x05 va
    else
      match (if write then alienSlot c.ctx x.pa n else none) with
      | some l => stop 0x0A (va + BitVec.ofNat 64 (l * 128 - x.pa))
      | none =>
        if s.touchesAuth c.ctx va.toNat n then stop 0x09 va
        else if !s.isScratch x.pa && !s.declaredFor c va.toNat n write then (.error (.fail 4 Cause.undeclared 0 va), s)
        else (.ok ⟨va, x, n⟩, s)

/-- An uncorrectable error that a read meets (10 R215), and a tier link that is down (24 R422). -/
def State.chunkError (s : State) (k : Chunk) : Option EngineStop :=
  if s.tierDown k.x.pa then some (.fail 5 Cause.memoryUe 37 k.va)
  else (s.firstPoison k.x.pa k.len).map fun w => .fail 5 Cause.memoryUe 0 (k.va + BitVec.ofNat 64 (8 * w - k.x.pa))

/-- The checks of an access to a run of bytes, in ascending address. -/
def State.engineRun (s : State) (core : Nat) (c : Command) (write : Bool) :
    Nat → Word → Nat → Except EngineStop (List Chunk) × State
  | 0, _, _ => (.ok [], s)
  | fuel + 1, va, n =>
    if n = 0 then (.ok [], s)
    else
      let k := min n (256 - va.toNat % 256)
      match s.engineChunk core c va k write with
      | (.error e, s) => (.error e, s)
      | (.ok x, s) =>
        match State.engineRun s core c write fuel (va + BitVec.ofNat 64 k) (n - k) with
        | (.ok l, s) => (.ok (x :: l), s)
        | r => r

def State.checkRun (s : State) (core : Nat) (c : Command) (write : Bool) (va : Word) (n : Nat) :
    Except EngineStop (List Chunk) × State :=
  s.engineRun core c write (n / 256 + 2) va n

/-- Runs of bytes, each from its address. -/
def State.checkRuns (s : State) (core : Nat) (c : Command) (write : Bool) : List (Word × Nat) →
    Except EngineStop (List (List Chunk)) × State
  | [] => (.ok [], s)
  | (va, n) :: l =>
    match s.checkRun core c write va n with
    | (.error e, s) => (.error e, s)
    | (.ok k, s) =>
      match State.checkRuns s core c write l with
      | (.ok ks, s) => (.ok (k :: ks), s)
      | (.error e, s) => (.error e, s)

/-- What a piece asks of the homes of its lines. -/
def State.chunkAsks (s : State) (write : Bool) (k : Chunk) : List Ask :=
  let takes : Option Bool := if write && k.len != 0 then some true else none
  (linesOfRun k.x.pa (max k.len 1)).map fun l => { s.askOf k.x false takes with line := l, empty := k.len == 0 }

/-- The requests of an engine for its pieces, with the D bits of first writes (04 R94). -/
def State.engineAsk (s : State) (core : Nat) (c : Command) (write : Bool) (l : List Chunk) : List (Requester × Nat × List Ask × Bool) :=
  let e := c.kind.engine
  let dirty := if write then (l.flatMap fun k => if k.len = 0 then [] else s.dirtyAsks core c.ctx k.va (some e)).eraseDups else []
  [(.engine core e, c.ctx, l.flatMap (s.chunkAsks write), write), (.engine core e, c.ctx, dirty, true)]

/-- The stop of a request that must wait, with the core and the engine that wait. -/
def waitStop (w : Requester × Bool × Await) : Nat × Nat × EngineStop :=
  match w with
  | (.engine core e, write, a) => (core, e, .stall a (stallCause e false write a))
  | (_, write, a) => (0, 0, .stall a (stallCause 0 false write a))

/-- The pieces that a command reads and those that it writes, heard at their homes once all are checked; then the reads meet their
errors (R246). -/
def State.heardAt (s : State) (core : Nat) (c : Command) (reads writes : List Chunk) : Option EngineStop × State :=
  match s.askEach (s.engineAsk core c false reads ++ s.engineAsk core c true writes) with
  | (none, s) => (reads.findSome? s.chunkError, s)
  | (some w, s) => (some (waitStop w).2.2, s)

/-- A run of bytes, checked and heard. -/
def State.takeRun (s : State) (core : Nat) (c : Command) (write : Bool) (va : Word) (n : Nat) :
    Except EngineStop (List Chunk) × State :=
  match s.checkRun core c write va n with
  | (.error e, s) => (.error e, s)
  | (.ok l, s) =>
    match s.heardAt core c (if write then [] else l) (if write then l else []) with
    | (some e, s) => (.error e, s)
    | (none, s) => (.ok l, s)

def State.chunkBytes (s : State) (l : List Chunk) : List (BitVec 8) := l.flatMap fun k => Memory.getBytes s.mem k.x.pa k.len

/-- Elements of `w` bytes of a run. -/
def State.chunkElems (s : State) (w n : Nat) (l : List Chunk) : List Nat :=
  let b := s.chunkBytes l
  (List.range n).map fun i => Memory.ofBytes ((b.drop (w * i)).take w)

/-- Bytes that an engine writes at their home: copies go, watchers fire, whole words lose their poison (05 R118, 10 R218, R234). -/
def State.unitStore (s : State) (core : Nat) (coherent : Bool) (pa : Nat) (bytes : List (BitVec 8)) : State :=
  let n := bytes.length
  let s := (linesOfRun pa n).foldl (fun s l => s.homeStep coherent false (s.leafIdOf core) (l * 128)) s
  let whole := (wordsOfRun pa n).filter fun w => pa ≤ 8 * w && 8 * w + 8 ≤ pa + n
  let s := { s with mem := Memory.setBytes s.mem pa bytes, poison := s.poison.filter fun p => !whole.contains p }
  s.written pa n

/-- The bytes of an access go to its pieces. -/
def State.writeChunks (s : State) (core : Nat) (c : Command) : List Chunk → List (BitVec 8) → State
  | [], _ => s
  | k :: l, bytes =>
    let s := s.markDirty core c.ctx k.va (some c.kind.engine)
    let s := if s.tierDown k.x.pa then s.localError c.ctx k.va 6 37 c.sid
      else s.unitStore core (s.pathOf k.x == .coherent) k.x.pa (bytes.take k.len)
    State.writeChunks s core c l (bytes.drop k.len)

/-! ### Row copies (04 R113) -/

def Command.isFill (c : Command) : Bool := c.m.testBit 1

/-- 2,048 bytes, or 65,536 of a page. -/
def Command.rowBytes (c : Command) : Nat := if c.m.testBit 0 then 65536 else 2048

/-- The physical bases of a command's operands, once it has started. -/
def Command.rowSource (c : Command) : Nat := c.row.toNat
def Command.rowDest (c : Command) : Nat := c.addr.toNat

/-- The lines that a started command reads, those that it writes, and the state without its hold on them. -/
def Command.fromLines (c : Command) : List Nat := if c.isFill then [] else linesOfRun c.rowSource c.rowBytes
def Command.destLines (c : Command) : List Nat := linesOfRun c.rowDest c.rowBytes

def State.withoutRows (s : State) (c : Command) : State :=
  { s with frozen := c.fromLines.foldl List.erase s.frozen, busy := c.destLines.foldl List.erase s.busy }

/-- Steps 4 and 5 of 04 R113, whose completion word is written already, over the rows written since row `first`: their cached copies go,
every line that the command held is free, and watchers and waiters follow (10 R234). -/
def State.releaseRows (s : State) (core : Nat) (c : Command) (first : Nat) : State :=
  let (at_, n) := (c.rowDest + 2048 * first, 2048 * (c.rprog - first))
  let s := (linesOfRun at_ n).foldl (fun s l => s.invalidateAll (s.leafIdOf core) l) s
  (c.fromLines ++ c.destLines).foldl State.releaseLine ((s.withoutRows c).written at_ n)

/-- A command leaves the queue, and its permit is returned. A CPYROW gives back the lines that it holds. -/
def State.dropCmd (s : State) (core : Nat) (c : Command) : State :=
  let s := s.editEngine core c.kind.engine fun g =>
    { g with queue := g.queue.filter (fun d => d.order != c.order), sum := if c.kind == .gang then none else g.sum
             queued := none, stall := none }
  match c.holds with
  | some first => s.releaseRows core c first
  | none => s

/-! ### The end of a command (R246 to R249, 04 R103) -/

def Command.cwordAddr (c : Command) : Word := c.reg 7 &&& ~~~(7 : Word)

/-- R103: the value a word takes from a status, flags and a byte count. Bits [55:53] of a word in ADD mode stay (DESIGN CHOICE, log
entry 76). -/
def completionValue (add : Bool) (old : Nat) (status : Nat) (flags : BitVec 5) (count : Nat) : Nat :=
  if add then
    (bitsOf old 63 56 ||| status) * 2 ^ 56 + bitsOf old 55 53 * 2 ^ 53 + (bitsOf old 52 48 ||| flags.toNat) * 2 ^ 48 +
      (bitsOf old 47 0 + count) % 2 ^ 48
  else status * 2 ^ 56 + flags.toNat * 2 ^ 48 + count % 2 ^ 48

/-- What a completion word asks of its home. A command that holds the word's line writes the word before it releases the line (04 R113
step 5), and waits for another CPYROW alone that reads the line. -/
def State.askCword (s : State) (c : Command) (who : Requester) (ctx : Nat) (a : Ask) : Option Await × State :=
  if c.holds.isSome && (c.fromLines ++ c.destLines).contains a.line then
    if (s.withoutRows c).lineHeld a.line true then (some .reply, s)
    else
      match s.takeTokens who ctx (asked [a]) with
      | (some port, s) => (some (.token ctx port), s)
      | (none, s) => (none, s.touchFor ctx a)
  else s.askHome who ctx [a] true

/-- The completion word of a command, translated through the engine's micro-TLB and checked for a requester: its place, where it can be
written; else the wait, or the cause, the extra information and the address of a failure. -/
def State.cwordPlace (s : State) (core : Nat) (c : Command) (who : Requester) (ctx : Nat) : Except EngineStop Xlat × State :=
  let e := c.kind.engine
  let fails (cause extra : Nat) : Except EngineStop Xlat := .error (.fail 0 cause extra c.cwordAddr)
  match s.translateWrite core c.ctx c.cwordAddr (some e) with
  | (.error (.wait a), s) => (.error (.stall a (stallCause e true true a)), s)
  | (.error (.trap cause extra _), s) => (fails cause extra, s)
  | (.ok x, s) =>
    match (if zoneOf s.tierCap x.pa == .tier then s.demotedUnit x.pa else none) with
    | some (u, n) => (.error (.stall (.tier u n) (stallCause e false true (.tier u n))), s)
    | none =>
      if s.foreignFor core c x.pa then (fails Cause.protection 0x05, s)
      else if s.tierDown x.pa then (fails Cause.memoryUe 37, s)
      else if s.poisoned x.pa 8 then (fails Cause.memoryUe 0, s)
      else
        match s.askCword c who ctx (s.askOf x false (some true)) with
        | (some a, s) => (.error (.stall a (stallCause e false true a)), s)
        | (none, s) => (.ok x, s.homeStep (s.pathOf x == .coherent) false (s.leafIdOf core) x.pa)

/-- R103: the write of the completion word, its failure (R246), or its wait. Its visibility time is the committing strand's (05 R131). -/
def State.writeCword (s : State) (core : Nat) (c : Command) (status : Nat) : Except EngineStop Unit × State :=
  match s.cwordPlace core c (.engine core c.kind.engine) c.ctx with
  | (.error p, s) => (.error p, s)
  | (.ok x, s) =>
    let add := (c.reg 7).getLsbD 0
    let v := completionValue add (s.load x.pa 8) status c.flags (if add then c.bytes - c.reported else c.bytes)
    (.ok (), (((s.store x.pa 8 v).setFull x.pa).noteVt c.uid x.pa).written x.pa 8)

/-- R247: the record at the committing strand's FRA. SEQ goes on with the strand; of a strand that is gone nothing states it
(DESIGN CHOICE, log entry 12). -/
def State.engineRecord (s : State) (core : Nat) (c : Command) (cause code : Nat) (addr : Word) : State :=
  if c.fra == 0 then s
  else
    let extra := c.ticket.getD 0 % 65536 * 65536 + 512 + c.kind.engine * 256 + code % 256
    let uid := (s.strand? c.uid).map fun _ => c.uid
    let seq : BitVec 8 := (Config.freeWord s.free).truncate 8
    let s := if uid.isSome then s else { s with free := s.free + 1 }
    let no := s.order
    match s.record (choreUnit no) uid core c.ctx c.fra seq c.sid cause c.pc addr extra c.lrec c.scope c.item false with
    | (true, s) => s
    | (false, s) => s.putOff no (.record uid core c.ctx c.fra seq c.sid cause c.pc addr extra c.lrec c.scope c.item false)

/-- The fault record of an ending. -/
def State.recordEnding (s : State) (core : Nat) (c : Command) (d : Ending) : State :=
  match d.fault with
  | some (cause, code, addr) => s.engineRecord core c cause code addr
  | none => s

/-- Behind its completion word a command is gone, or is held by a FAULT (R249). -/
def State.closeCmd (s : State) (core : Nat) (c : Command) (d : Ending) : State :=
  let s := s.recordEnding core c d
  if d.status = 1 then s.putCmd core { c with state := .held, reported := c.bytes, ending := none } else s.dropCmd core c

/-- The command of an engine whose work is over writes its completion word, or waits. One that cannot be written leaves a record of its
own, and the command is gone (R246). -/
def State.tryEnd (s : State) (core e : Nat) : State :=
  match (s.engine core e).queue.find? (·.ending.isSome) with
  | none => s
  | some c =>
    match c.ending with
    | none => s
    | some d =>
      if !c.kind.reports then s.closeCmd core c d
      else
        match s.writeCword core c d.status with
        | (.ok _, s) => s.closeCmd core c d
        | (.error (.fail _ cause x addr), s) => ((s.engineRecord core c cause x addr).recordEnding core c d).dropCmd core c
        | (.error (.stall a cause), s) => s.engineWait core e a cause

/-- The work of a command is over: it completes, ends with a status, is held or is cancelled. -/
def State.endCmd (s : State) (core : Nat) (c : Command) (status : Nat) (fault : Option (Nat × Nat × Word) := none) : State :=
  (s.putCmd core { c with ending := some ⟨status, fault⟩ }).tryEnd core c.kind.engine

/-- What a failing access makes of the command (R247, R249): it waits, or it is held or ends, with its record. -/
def State.failCmd (s : State) (core : Nat) (c : Command) (stop : EngineStop) : State :=
  match stop with
  | .stall a cause => s.engineWait core c.kind.engine a cause
  | .fail status cause code addr => s.endCmd core c status (some (cause, code, addr))

end Sys2Proof.Machine
end

