-- ==== Sys2Proof/Machine/Scalar.lean ====
section
/-!
DEFINITION. NOP (28 R453) and the scalar instructions of OP 0x02 to 0x1D (07 R163 to R173).
-/

namespace Sys2Proof.Machine

abbrev Result := Host.Outcome State Fault Refusal

/-! ### Operands of the class (07 R163, R165) -/

def srcA (f : Fields) : Act Word := operandX (f.x.getLsbD 1) f.a f.ta

def srcB (f : Fields) : Act Word := operandBWith (f.x.getLsbD 2) f

/-- What D holds before the instruction. -/
def oldD (f : Fields) : Act Word := if f.x.getLsbD 0 then readC f.d.toNat else readX f.d.toNat

def writeD (f : Fields) (v : Word) : Act Unit := if f.x.getLsbD 0 then writeC f.d.toNat v else writeX f.d.toNat v

/-- d := op a b. -/
def alu2 (f : Fields) (op : Word → Word → Word) : Act Unit :=
  fixed .access f do
    let a ← srcA f
    let b ← srcB f
    writeD f (op a b)

/-- d := op a (sx imm), the I-forms. -/
def aluI (f : Fields) (op : Word → Word → Word) : Act Unit :=
  fixed .access f do
    let a ← srcA f
    let b ← operandI f
    writeD f (op a b)

/-- d := op a. -/
def alu1 (f : Fields) (op : Word → Word) : Act Unit :=
  fixed .access f do
    let a ← srcA f
    writeD f (op a)

/-- R167: with M = 1 the operation is 32 bits wide and its result sign-extended. -/
def widths (f : Fields) (op64 : Word → Word → Word) (op32 : BitVec 32 → BitVec 32 → BitVec 32) : Word → Word → Word :=
  if f.m == 1 then fun a b => sx64 (op32 (a.truncate 32) (b.truncate 32)) else op64

/-! ### Functions of R166 -/

def mulHigh (signed : Bool) (a b : Word) : Word :=
  if signed then BitVec.ofInt 64 ((a.toInt * b.toInt) / 2 ^ 64) else BitVec.ofNat 64 ((a.toNat * b.toNat) / 2 ^ 64)

/-- Shift counts: bits [5:0], or [4:0] under `.w` (R166, R167). -/
def shl64 (a b : Word) : Word := a <<< (b.toNat % 64)
def shr64 (a b : Word) : Word := a >>> (b.toNat % 64)
def sra64 (a b : Word) : Word := a.sshiftRight (b.toNat % 64)
def rotl64 (a b : Word) : Word := a.rotateLeft (b.toNat % 64)
def shl32 (a b : BitVec 32) : BitVec 32 := a <<< (b.toNat % 32)
def shr32 (a b : BitVec 32) : BitVec 32 := a >>> (b.toNat % 32)
def sra32 (a b : BitVec 32) : BitVec 32 := a.sshiftRight (b.toNat % 32)
def rotl32 (a b : BitVec 32) : BitVec 32 := a.rotateLeft (b.toNat % 32)

/-- Leading zeros among the low `w` bits of a number. -/
def leadingZeros (w n : Nat) : Nat := if n % 2 ^ w = 0 then w else w - 1 - Nat.log2 (n % 2 ^ w)

/-- Ones among the low `w` bits. -/
def onesIn (w n : Nat) : Nat := ((List.range w).filter fun i => n.testBit i).length

/-- Trailing zeros of a 64-bit number. -/
def trailingZeros (n : Nat) : Nat := ((List.range 64).find? fun i => n.testBit i).getD 64

def reverseBits (a : Word) : Word := a.reverse

def swapBytes (a : Word) : Word :=
  BitVec.ofNat 64 ((List.range 8).foldl (fun acc i => acc + bitsOf a.toNat (8 * i + 7) (8 * i) * 2 ^ (56 - 8 * i)) 0)

/-- R168, the quotient and the remainder of two signed numbers rounded toward zero. -/
def sdiv (a b : Word) : Word := BitVec.ofInt 64 (a.toInt.tdiv b.toInt)
def srem (a b : Word) : Word := BitVec.ofInt 64 (a.toInt.tmod b.toInt)
def udiv (a b : Word) : Word := BitVec.ofNat 64 (a.toNat / b.toNat)
def urem (a b : Word) : Word := BitVec.ofNat 64 (a.toNat % b.toNat)

/-- R169. -/
def fieldLen (b : Word) : Nat := min (field b 11 6 + 1) (64 - field b 5 0)

def extractField (signed : Bool) (a b : Word) : Word :=
  let n := fieldLen b
  let v := (a.toNat >>> field b 5 0) % 2 ^ n
  if signed && v.testBit (n - 1) then BitVec.ofInt 64 ((v : Int) - 2 ^ n) else BitVec.ofNat 64 v

def insertField (d a b : Word) : Word :=
  let n := fieldLen b
  let pos := field b 5 0
  let mask := BitVec.ofNat 64 ((2 ^ n - 1) * 2 ^ pos)
  (d &&& ~~~mask) ||| BitVec.ofNat 64 ((a.toNat % 2 ^ n) * 2 ^ pos)

/-! ### Meanings -/

/-- R453. -/
def execNop (f : Fields) (s : State) : Result := (fixed .neither f (pure ())).outcome s

def execAdd (f : Fields) (s : State) : Result := (alu2 f (widths f (· + ·) (· + ·))).outcome s
def execAddi (f : Fields) (s : State) : Result := (aluI f (· + ·)).outcome s
def execSub (f : Fields) (s : State) : Result := (alu2 f (widths f (· - ·) (· - ·))).outcome s
def execMul (f : Fields) (s : State) : Result := (alu2 f (widths f (· * ·) (· * ·))).outcome s
def execMulh (f : Fields) (s : State) : Result := (alu2 f (mulHigh true)).outcome s
def execMulhu (f : Fields) (s : State) : Result := (alu2 f (mulHigh false)).outcome s

/-- R168: a zero divisor traps ARITH and D is not written; two turns are skipped (01 R27). -/
def divide (f : Fields) (op : Word → Word → Word) : Act Unit :=
  fixed .access f do
    let a ← srcA f
    let b ← srcB f
    if b == 0 then trapPlain Cause.arith
    writeD f (op a b)
    skipTurns 2

def execDiv (f : Fields) (s : State) : Result := (divide f sdiv).outcome s
def execDivu (f : Fields) (s : State) : Result := (divide f udiv).outcome s
def execRem (f : Fields) (s : State) : Result := (divide f srem).outcome s
def execRemu (f : Fields) (s : State) : Result := (divide f urem).outcome s

def execAnd (f : Fields) (s : State) : Result := (alu2 f (· &&& ·)).outcome s
def execAndi (f : Fields) (s : State) : Result := (aluI f (· &&& ·)).outcome s
def execOr (f : Fields) (s : State) : Result := (alu2 f (· ||| ·)).outcome s
def execOri (f : Fields) (s : State) : Result := (aluI f (· ||| ·)).outcome s
def execXor (f : Fields) (s : State) : Result := (alu2 f (· ^^^ ·)).outcome s
def execXori (f : Fields) (s : State) : Result := (aluI f (· ^^^ ·)).outcome s
def execAndn (f : Fields) (s : State) : Result := (alu2 f fun a b => a &&& ~~~b).outcome s
def execShl (f : Fields) (s : State) : Result := (alu2 f (widths f shl64 shl32)).outcome s
def execShr (f : Fields) (s : State) : Result := (alu2 f (widths f shr64 shr32)).outcome s
def execSra (f : Fields) (s : State) : Result := (alu2 f (widths f sra64 sra32)).outcome s
def execRotl (f : Fields) (s : State) : Result := (alu2 f (widths f rotl64 rotl32)).outcome s
def execClz (f : Fields) (s : State) : Result := (alu1 f fun a => BitVec.ofNat 64 (leadingZeros 64 a.toNat)).outcome s
def execCtz (f : Fields) (s : State) : Result := (alu1 f fun a => BitVec.ofNat 64 (trailingZeros a.toNat)).outcome s
def execPopc (f : Fields) (s : State) : Result := (alu1 f fun a => BitVec.ofNat 64 (onesIn 64 a.toNat)).outcome s
def execBrev (f : Fields) (s : State) : Result := (alu1 f reverseBits).outcome s
def execBswap (f : Fields) (s : State) : Result := (alu1 f swapBytes).outcome s
def execMin (f : Fields) (s : State) : Result := (alu2 f fun a b => if b.slt a then b else a).outcome s
def execMax (f : Fields) (s : State) : Result := (alu2 f fun a b => if a.slt b then b else a).outcome s
def execMinu (f : Fields) (s : State) : Result := (alu2 f fun a b => if b < a then b else a).outcome s
def execMaxu (f : Fields) (s : State) : Result := (alu2 f fun a b => if a < b then b else a).outcome s

/-- SEL reads lane 0 of p(M) (R166). In the access stream of a region that is the predicate word of DSPLIT, as for a guard
(12 R269). -/
def execSel (f : Fields) (s : State) : Result :=
  (fixed .access f do
    let a ← srcA f
    let b ← srcB f
    let st ← self
    let acc ← inAccess
    let lane := match acc, st.region with
      | true, some g => f.m == 0 || g.pw.getLsbD f.m.toNat
      | _, _ => st.lane0 f.m.toNat
    writeD f (if lane then a else b)).outcome s

def execExtb (f : Fields) (s : State) : Result := (alu2 f (extractField (f.m == 1))).outcome s

/-- R169: INSB reads D. -/
def execInsb (f : Fields) (s : State) : Result :=
  (fixed .access f do
    let a ← srcA f
    let b ← srcB f
    let d ← oldD f
    writeD f (insertField d a b)).outcome s

def execLi (f : Fields) (s : State) : Result :=
  (fixed .access f do
    let v ← operandI f
    writeD f v).outcome s

/-- R171: LIH reads d. -/
def execLih (f : Fields) (s : State) : Result :=
  (fixed .access f do
    let v ← operandI f
    let d ← oldD f
    writeD f ((v.truncate 32 : BitVec 32) ++ (d.truncate 32 : BitVec 32))).outcome s

def execLit (f : Fields) (s : State) : Result :=
  (fixed .access f do
    let v ← operandI f
    let pc ← thisPc
    writeD f (pc + v * 4)).outcome s

/-- R170. -/
def execLea (f : Fields) (s : State) : Result :=
  (fixed .access f do
    let a ← srcA f
    let b ← srcB f
    let off : Word := match f.form with
      | .ext => if f.bk == 0 then sx64 f.imm20 else 0
      | _ => 0
    writeD f (a + (b <<< (f.m.toNat % 4)) + off)).outcome s

/-- A comparison writes lane 0 of pD and binds nothing (R172). -/
def compare (f : Fields) (b : Act Word) : Act Unit :=
  fixed .execute f do
    let x ← srcA f
    let y ← b
    editSelf fun st => st.setLane0 f.d.toNat (condHolds f.m.toNat 64 false x.toNat y.toNat)

def execCmp (f : Fields) (s : State) : Result := (compare f (srcB f)).outcome s

/-- CMPI's immediate is the signed B field (R172). -/
def execCmpi (f : Fields) (s : State) : Result := (compare f (pure (sx64 f.b))).outcome s

end Sys2Proof.Machine
end

