-- ==== Sys2Proof/Machine/Control.lean ====
section
/-!
DEFINITION. Transfers of control and predicate instructions, OP 0x20 to 0x39 (07 R174 to R183).
-/

namespace Sys2Proof.Machine

/-! ### Transfers (R174 to R178) -/

/-- Bits [21:0] and [15:0] of word 0 as signed offsets in words (R174). -/
def off22 (f : Fields) : Word := sx64 (f.d ++ f.a ++ f.b ++ f.m) * 4
def off16 (f : Fields) : Word := sx64 (f.a ++ f.b ++ f.m) * 4

/-- A taken transfer. A trap on its target comes before anything is written (R175). -/
def transfer (t : Word) (link : Act Unit := pure ()) : Act Unit := do
  checkTarget t
  link
  jumpTo t

def execB (f : Fields) (s : State) : Result :=
  (issue .neither f (do transfer ((← thisPc) + off22 f))).outcome s

def execBp (f : Fields) (s : State) : Result :=
  (issue .neither f (do
    let st ← self
    if st.lane0 (f.d.toNat % 16) != f.d.getLsbD 4 then transfer ((← thisPc) + off16 f)
    else finish f)).outcome s

/-- The address behind the instruction, in a link register. -/
def linkTo (f : Fields) (r : Nat) : Act Unit := do writeX r ((← thisPc) + lenWord f)

def execCall (f : Fields) (s : State) : Result :=
  (issue .neither f (do transfer ((← thisPc) + off22 f) (linkTo f 46))).outcome s

def execCalli (f : Fields) (s : State) : Result :=
  (issue .neither f (do
    let t ← operandX false f.a f.ta
    transfer t (linkTo f f.d.toNat))).outcome s

def jumpReg (f : Fields) : Act Unit :=
  issue .neither f (do
    let t ← operandX false f.a f.ta
    transfer t)

def execJmpi (f : Fields) (s : State) : Result := (jumpReg f).outcome s
def execRet (f : Fields) (s : State) : Result := (jumpReg f).outcome s

/-- The strand stops at its instruction without a local handler (06 R157, last row). -/
def stopHere {α : Type} (cause extra : Nat) (addr : Word) : Act α := do
  let u ← me
  let pc ← thisPc
  editS fun s => (s.stopStrand u cause extra pc addr).stepEnds u
  stopWith .done

/-- R177; the loop stack is empty afterwards (12 R265) (DEDUCED, log entry 47). -/
def execThrow (f : Fields) (s : State) : Result :=
  (issue .neither f (do
    let t ← operandX false f.a f.ta
    let st ← self
    let thv := ((← readS (·.ctx? st.ctx)).map (·.thv)).getD 0
    if thv == 0 then trapWord Cause.throwUnhandled t
    checkTargetWith thv (stopHere Cause.illegalTarget 0x04 thv)
    let pc ← thisPc
    writeX 0 t
    writeX 1 pc
    editSelf fun st => { st with loops := [] }
    jumpTo thv)).outcome s

/-! ### Predicates (R179 to R183) -/

/-- The element width of M[1:0], in bytes. -/
def predWidth (f : Fields) : Nat := 2 ^ (f.m.toNat % 4)

/-- The mask whose elements of `wb` bytes are set where the function says so. -/
def predOf (wb : Nat) (active : Nat → Bool) : Pred :=
  (List.range (512 / wb)).foldl
    (fun m e => if active e then m ||| (BitVec.ofNat 512 (2 ^ wb - 1) <<< (e * wb)) else m) 0

/-- The instructions of R180, with the reload of a spilled context first (R179). -/
def predicate (k : Klass) (f : Fields) (body : Act Unit) : Act Unit := fixed k f (do reloadVec; body)

/-- The instructions whose lanes may differ bind a context before they execute; with p0 for a destination they write nothing and bind
nothing (R179). -/
def lanes (f : Fields) (mask : Act Pred) : Act Unit :=
  predicate .execute f (do
    if f.d != 0 then bindVec
    let m ← mask
    editSelf fun st => st.setPred f.d.toNat m)

def execPlim (f : Fields) (s : State) : Result :=
  (lanes f (do
    let b ← operandB f
    pure (predOf (predWidth f) fun e => e < b.toNat))).outcome s

/-- R181: exact sums. -/
def execPwhile (f : Fields) (s : State) : Result :=
  (lanes f (do
    let a ← operandX false f.a f.ta
    let b ← operandB f
    let uns := f.m.getLsbD 2
    let i (w : Word) : Int := if uns then (w.toNat : Int) else w.toInt
    pure (predOf (predWidth f) fun e =>
      if f.m.getLsbD 3 then i a + (e : Int) ≤ i b else i a + (e : Int) < i b))).outcome s

/-- A lanewise operation of two predicates; without a context it acts on the predicate word alone (R179). -/
def predOp (f : Fields) (op : Pred → Pred → Pred) : Act Unit :=
  predicate .execute f (do
    editSelf fun st => st.setPred f.d.toNat (op (st.predBits f.a.toNat) (st.predBits f.b.toNat)))

def execPand (f : Fields) (s : State) : Result := (predOp f (· &&& ·)).outcome s
def execPor (f : Fields) (s : State) : Result := (predOp f (· ||| ·)).outcome s
def execPxor (f : Fields) (s : State) : Result := (predOp f (· ^^^ ·)).outcome s

def execPnot (f : Fields) (s : State) : Result :=
  (predicate .execute f (do
    editSelf fun st => st.setPred f.d.toNat (~~~(st.predBits f.a.toNat)))).outcome s

/-- The active elements of a predicate for elements of `wb` bytes: byte 0 of the element decides (03 R65). -/
def activeElems (wb : Nat) (p : Pred) : List Nat :=
  (List.range (512 / wb)).filter fun e => p.getLsbD (e * wb)

def execPfirst (f : Fields) (s : State) : Result :=
  (lanes f (do
    let st ← self
    let first := (activeElems (predWidth f) (st.predBits f.a.toNat)).head?
    pure (predOf (predWidth f) fun e => first == some e))).outcome s

def execPcnt (f : Fields) (s : State) : Result :=
  (predicate .neither f (do
    let st ← self
    writeX f.d.toNat (BitVec.ofNat 64 (activeElems (predWidth f) (st.predBits f.a.toNat)).length))).outcome s

/-- R182. -/
def execPmovxRd (f : Fields) (s : State) : Result :=
  (predicate .neither f (do
    let st ← self
    writeX f.d.toNat (st.predWord.zeroExtend 64))).outcome s

def execPmovxWr (f : Fields) (s : State) : Result :=
  (predicate .neither f (do
    let a ← operandX false f.a f.ta
    editSelf fun st => (List.range 15).foldl (fun st i => st.setLane0 (i + 1) (a.getLsbD (i + 1))) st)).outcome s

/-- R183. -/
def execVwid (f : Fields) (s : State) : Result :=
  (predicate .access f (do
    writeX f.d.toNat (if f.m == 4 then 4096 else BitVec.ofNat 64 (512 / 2 ^ f.m.toNat)))).outcome s

end Sys2Proof.Machine
end

