-- ==== Sys2Proof/Machine/VectorOps.lean ====
section
/-!
DEFINITION. What the vector instructions share: elements of a register (03 R65), the vector sources with the conversion of a
scalar B (06 R154), and the six steps of 08 R184.
-/

namespace Sys2Proof.Machine

/-! ### Elements -/

/-- The lowest `n` elements of `w` bits. -/
def splitNat (w : Nat) : Nat → Nat → List Nat
  | 0, _ => []
  | n + 1, v => v % 2 ^ w :: splitNat w n (v / 2 ^ w)

def joinNat (w : Nat) : List Nat → Nat
  | [] => 0
  | e :: es => e % 2 ^ w + 2 ^ w * joinNat w es

/-- R65: the elements of a v register, the lowest first. -/
def elems (w : Nat) (v : Vec) : List Nat := splitNat w (4096 / w) v.toNat

def ofElems (w : Nat) (es : List Nat) : Vec := BitVec.ofNat 4096 (joinNat w es)

/-- R65: an element is active when the bit of its lowest byte is set. -/
def activeList (w : Nat) (p : Pred) : List Bool := (List.range (4096 / w)).map fun e => p.getLsbD (e * (w / 8))

/-- The bits of all bytes of the elements that are set. -/
def lanesOf (w : Nat) (l : List Bool) : Pred :=
  BitVec.ofNat 512 (joinNat (w / 8) (l.map fun b => if b then 2 ^ (w / 8) - 1 else 0))

/-! ### Sources -/

/-- A vector source: its elements, its tag unless it is a scalar, and the flags of a scalar's conversion. -/
structure VSrc where
  es : List Nat
  tag : Option (BitVec 4)
  fl : Flags
  deriving Repr

def vreg (w : Nat) (r : BitVec 6) (dist : BitVec 2) : Act VSrc := do
  let (v, t) ← operandV r dist
  pure ⟨elems w v, some t, 0⟩

def scalarSrc (w v : Nat) (fl : Flags) : VSrc := ⟨List.replicate (4096 / w) (v % 2 ^ w), none, fl⟩

/-- R154: a B operand of BK ≠ 0b00 in a floating-point format. -/
def scalarFp (f : Fields) (code : Nat) (env : FpEnv) : Act (Nat × Flags) :=
  let wide (v : Word) : Nat × Flags := if code = 1 then (v.toNat, 0) else fpScalar code env (v.toNat % 2 ^ 32)
  match f.form with
  | .extLit l => pure (wide l)
  | _ =>
    if f.bk == 1 then pure (fpScalar code env (f.imm20.toNat * 2 ^ 12))
    else do pure (wide (← constant (f.imm20.toNat % 256)))

/-- B of a floating-point instruction. -/
def srcBfp (f : Fields) (code : Nat) (env : FpEnv) : Act VSrc :=
  let w := Shape.widthOf code
  if f.bk == 0 then vreg w f.b f.tb
  else do
    let (v, fl) ← scalarFp f code env
    pure (scalarSrc w v fl)

/-- B of an integer instruction. -/
def srcBint (f : Fields) (w : Nat) : Act VSrc :=
  if f.bk == 0 then vreg w f.b f.tb
  else do pure (scalarSrc w (← operandB f).toNat 0)

/-- A scalar B in whichever class the format belongs to; RAW, E8M0 and LC8 take it as an integer format does (06 R154; DESIGN CHOICE, log
entry 91). -/
def scalarAny (f : Fields) (code : Nat) : Act (Nat × Flags) := do
  if fpCodes.contains code then scalarFp f code (← fpEnv f)
  else pure ((← operandB f).toNat, 0)

/-- R66, after every source is full. -/
def checkTags (l : List (VSrc × Nat)) : Act Unit :=
  if l.all (fun e => e.1.tag.isNone || e.1.tag == some (BitVec.ofNat 4 e.2)) then pure ()
  else trapPlain Cause.formatMismatch

/-! ### The steps of R184 -/

/-- Step 1, and naming a queue as the destination (12 R270). -/
def vectorStart (f : Fields) : Act Unit := do
  bindVec
  destV f.d.toNat

/-- Step 2, the last clause: D is read when M ≠ 0. -/
def oldElems (f : Fields) (w : Nat) : Act (List Nat) :=
  if f.m == 0 then pure (List.replicate (4096 / w) 0)
  else do
    let (v, _) ← readV f.d.toNat
    pure (elems w v)

/-- The active elements for the governing predicate. -/
def actives (f : Fields) (w : Nat) : Act (List Bool) := do
  let st ← self
  pure (activeList w (st.predBits f.m.toNat))

/-- Active elements take the computed value, the others keep D's bits. -/
def choose : List Bool → List Nat → List Nat → List Nat
  | a :: as, n :: ns, o :: os => (if a then n else o) :: choose as ns os
  | _, _, _ => []

/-- The flags of the active elements. -/
def gather : List Bool → List (Nat × Flags) → Flags
  | a :: as, r :: rs => (if a then r.2 else 0) ||| gather as rs
  | _, _ => 0

/-- Steps 4 to 6: D takes the results of active elements and its tag, and the flags are raised, those of a scalar's
conversion if any element is active. -/
def deliver (f : Fields) (w : Nat) (tag : BitVec 4) (old : List Nat) (res : List (Nat × Flags)) (scalar : Flags) :
    Act Unit := do
  let act ← actives f w
  writeV f.d.toNat (ofElems w (choose act (res.map (·.1)) old)) tag
  raiseFlags (gather act res ||| (if act.any id then scalar else 0))

/-- One function on the elements of three sources. -/
def map3 (g : Nat → Nat → Nat → Nat × Flags) : List Nat → List Nat → List Nat → List (Nat × Flags)
  | a :: as, b :: bs, c :: cs => g a b c :: map3 g as bs cs
  | _, _, _ => []

def map2 (g : Nat → Nat → Nat × Flags) : List Nat → List Nat → List (Nat × Flags)
  | a :: as, b :: bs => g a b :: map2 g as bs
  | _, _ => []

/-- The tag of a format code. -/
def tagOf (code : Nat) : BitVec 4 := BitVec.ofNat 4 code

/-- The integer tag of a width (08 R191, R192). -/
def intTag (w : Nat) : Nat := if w = 64 then 8 else if w = 32 then 9 else if w = 16 then 10 else 11

end Sys2Proof.Machine
end

