-- ==== Sys2Proof/Machine/VectorMem.lean ====
section
/-!
DEFINITION. Vector loads and stores, OP 0x90 to 0x96 (09 R208 to R213), and their course inside a region (12 R270).
-/

namespace Sys2Proof.Machine

/-! ### Checks of elements (R211) -/

/-- Steps 1 to 4 for one element. -/
def State.elemCheck (s : State) (st : Strand) (c : Check) (va : Word) (n : Nat) : Except (Problem ⊕ Nat) Xlat × State :=
  match s.accessProblem st c va n with
  | (.error e, s) => (.error e, s)
  | (.ok x, s) => if x.mig then (.error (.inr Cause.migrateState), s) else (.ok x, s)

/-- An element access that has passed steps 1 to 4: which element, where. -/
structure Elem where
  ix : Nat
  va : Word
  x : Xlat

/-- The elements in ascending order up to the first that fails. -/
def checkElems (st : Strand) (c : Check) (n : Nat) :
    List (Nat × Word) → State → (List Elem × Option (Nat × Word × (Problem ⊕ Nat))) × State
  | [], s => (([], none), s)
  | (i, va) :: rest, s =>
    match s.elemCheck st c va n with
    | (.error e, s) => (([], some (i, va, e)), s)
    | (.ok x, s) =>
      let ((es, bad), s) := checkElems st c n rest s
      ((⟨i, va, x⟩ :: es, bad), s)

def raiseElem {α : Type} (va : Word) (e : Problem ⊕ Nat) : Act α :=
  match e with
  | .inl p => raise p
  | .inr cause => trapWord cause va

/-- Step 5 for a load, and the uncorrectable error it meets: the cause, the extra information where a rule names it, and
the address. -/
def State.readProblem (s : State) (u : Nat) (st : Strand) (e : Elem) (n : Nat) : Option (Nat × Option Nat × Word) :=
  let path := s.pathOf e.x
  let copied := path == .managed && (s.l1 st.core (lineOf e.x.pa)).isSome
  if path == .coherent && (wordsOfRun e.x.pa n).any (s.wordRace u st.lrec) then some (Cause.race, none, e.va)
  else if s.tierDown e.x.pa && !copied then some (Cause.memoryUe, some 37, e.va)
  else
    (if path == .managed then s.swmPoison st.core e.x.pa n fun _ => true else s.firstPoison e.x.pa n).map
      fun _ => (Cause.memoryUe, none, e.va)

/-- Step 5 for a store. -/
def State.writeRace (s : State) (u : Nat) (st : Strand) (e : Elem) (n : Nat) : Bool :=
  s.pathOf e.x == .coherent &&
    ((wordsOfRun e.x.pa n).any (s.wordRace u st.lrec) || s.readRace u st.lrec st.core (lineOf e.x.pa))

/-- The requests of the elements at their homes, one for each line (04 R110, 05 R124). -/
def hearElems (c : Check) (es : List Elem) : Act Unit := do
  let st ← self
  let s ← readS id
  heedAccess c (es.map (·.va)) (es.map fun e => s.askOf e.x (s.hitsL1 st.core c e.x) (some c.write)).eraseDups

/-! ### Loads -/

/-- The bytes of each element as a number, the elements in ascending order. -/
def loadElems (n : Nat) : List Elem → Act (List (Nat × Nat))
  | [] => pure []
  | e :: es => do
    let bs ← loadBytes e.x e.va n
    let rest ← loadElems n es
    pure ((e.ix, Memory.ofBytes bs) :: rest)

/-- The elements below the first that a load of fault-only-first kind does not reach. -/
def State.reached (s : State) (u : Nat) (st : Strand) (n : Nat) : List Elem → List Elem × Option (Nat × Nat × Option Nat × Word)
  | [] => ([], none)
  | e :: es =>
    match s.readProblem u st e n with
    | some (c, x, a) => ([], some (e.ix, c, x, a))
    | none =>
      let (l, bad) := s.reached u st n es
      (e :: l, bad)

def raiseRead {α : Type} (c : Nat) (x : Option Nat) (a : Word) : Act α :=
  match x with
  | some x => trapAt c x a
  | none => trapWord c a

/-- The active elements of a list by position. -/
def chosen {α : Type} : List Bool → List α → Nat → List (Nat × α)
  | true :: as, e :: es, i => (i, e) :: chosen as es (i + 1)
  | false :: as, _ :: es, i => chosen as es (i + 1)
  | _, _, _ => []

/-- Elements replaced by what was loaded. -/
def overlay : List Nat → Nat → List (Nat × Nat) → List Nat
  | [], _, _ => []
  | o :: os, i, (j, v) :: rest => if i = j then v :: overlay os (i + 1) rest else o :: overlay os (i + 1) ((j, v) :: rest)
  | os, _, [] => os

/-- R211, R212 for a load: the elements loaded, and the first that a fault-only-first load leaves out (R213). -/
def gatherElems (w : Nat) (ff : Bool) (act : List Bool) (vas : List Word) : Act (List (Nat × Nat) × Option Nat) := do
  let u ← me
  let st ← self
  let n := w / 8
  let (es, bad) ← stateS (checkElems st (Check.load n) n (chosen act vas 0))
  match bad with
  | some (i, va, e) =>
    let waits := match e with | .inl (.wait _) => true | _ => false
    if !ff || es.isEmpty || waits then raiseElem va e
    else take u st n es (some i)
  | none => take u st n es none
where
  /-- Step 5 and the accesses. -/
  take (u : Nat) (st : Strand) (n : Nat) (es : List Elem) (limit : Option Nat) : Act (List (Nat × Nat) × Option Nat) := do
    hearElems (Check.load n) es
    let (reach, bad) ← readS fun s => s.reached u st n es
    match bad with
    | some (i, c, x, a) =>
      if !ff || reach.isEmpty then raiseRead c x a
      else do pure (← loadElems n reach, some i)
    | none => do pure (← loadElems n reach, limit)

/-- The entry that an access-stream load pushes (12 R270). -/
def pushLoad (f : Fields) (bits : Vec) : Act Unit :=
  editSelf fun st => { st with region := st.region.map fun g =>
    { g with q := g.q.setIfInBounds (f.d.toNat - 28) (((g.q[f.d.toNat - 28]?).getD []) ++ [⟨bits, f.fmt, 0⟩]) } }

/-! ### Addresses (R208 to R210) -/

/-- The addresses of the elements, whether they keep to R210 in common, and whether an index vector has the tag of R209. -/
structure Addrs where
  vas : List Word
  aligned : Bool
  tagged : Bool

/-- a + off + e·w/8. -/
def unitAddrs (f : Fields) (w : Nat) : Act Addrs := do
  let a ← operandX false f.a f.ta
  pure ⟨(List.range (4096 / w)).map fun e => a + imm20Offset f + BitVec.ofNat 64 (e * (w / 8)), true, true⟩

/-- a + off + e·s. -/
def strideAddrs (f : Fields) (w : Nat) : Act Addrs := do
  let a ← operandX false f.a f.ta
  let d ← operandB f
  let base := a + imm20Offset f
  pure ⟨(List.range (4096 / w)).map fun e => base + BitVec.ofNat 64 e * d,
    base.toNat % (w / 8) == 0 && d.toNat % (w / 8) == 0, true⟩

/-- a + off + (b[e] << k). -/
def indexAddrs (f : Fields) (w : Nat) : Act Addrs := do
  if (← inAccess) then bindVec
  let a ← operandX false f.a f.ta
  let b ← vreg w f.b 0
  pure ⟨b.es.map fun i => a + imm20Offset f + (BitVec.ofInt 64 (toSigned w i) <<< (f.e.toNat % 4)), true,
    b.tag == some (tagOf (if w = 32 then 9 else 8))⟩

/-- The check of the index vector's tag, once every source is full (03 R66). -/
def Addrs.heedTag (a : Addrs) : Act Unit := need a.tagged (trapPlain Cause.formatMismatch)

/-- R210 for a base and a stride, which hold for every active element or for none: the lowest one traps (DEDUCED, log entry 78). -/
def Addrs.heedAligned (a : Addrs) (act : List Bool) : Act Unit :=
  match (chosen act a.vas 0).head? with
  | some (_, va) => need a.aligned (trapWord Cause.alignment va)
  | none => pure ()

/-- A vector load from the addresses that the entry gives. -/
def vectorLoad (k : Klass) (f : Fields) (ff : Bool) (addrs : Nat → Act Addrs) : Act Unit :=
  issue k f do
    let w := Shape.widthOf f.fmt.toNat
    let acc ← inAccess
    let st ← self
    if acc then
      if f.m != 0 || f.d.toNat < 28 then trapExtra Cause.queueMisuse 0x08
      let full : Bool := match st.region with
        | some g => 8 ≤ ((g.q[f.d.toNat - 28]?).getD []).length
        | none => false
      if full then park (.queue (f.d.toNat - 28))
      let a ← addrs w
      a.heedTag
      a.heedAligned (List.replicate (4096 / w) true)
      let (vs, _) ← gatherElems w false (List.replicate (4096 / w) true) a.vas
      pushLoad f (ofElems w (vs.map (·.2)))
      finishReply f
    else
      bindVec
      let a ← addrs w
      let old ← oldElems f w
      a.heedTag
      let act ← actives f w
      if !act.any id then
        writeV f.d.toNat (ofElems w old) f.fmt
        finish f
      else
        a.heedAligned act
        let (vs, limit) ← gatherElems w ff act a.vas
        writeV f.d.toNat (ofElems w (overlay old 0 vs)) f.fmt
        match limit with
        | some i =>
          editSelf fun st => st.setPred f.m.toNat (st.predBits f.m.toNat &&& BitVec.ofNat 512 (2 ^ (i * (w / 8)) - 1))
        | none => pure ()
        finishReply f

/-! ### Stores -/

/-- Elements with their bytes that are adjacent in element order and lie in one line: one access (R212). -/
abbrev Group := List (Elem × List (BitVec 8))

def groupsOf : Group → List Group
  | [] => []
  | e :: rest =>
    match groupsOf rest with
    | (d :: g) :: more => if lineOf d.1.x.pa == lineOf e.1.x.pa then (e :: d :: g) :: more else [e] :: (d :: g) :: more
    | l => [e] :: l

/-- The bytes of its line that a group writes. -/
def Group.mask (g : Group) : BitVec 128 :=
  g.foldl (fun m e => m ||| BitVec.ofNat 128 ((2 ^ e.2.length - 1) * 2 ^ (e.1.x.pa % 128))) 0

/-- A group writes all eight bytes of a word. -/
def Group.covers (g : Group) (word : Nat) : Bool := g.mask.toNat / 2 ^ (8 * (word % 16)) % 256 == 255

/-- The first element of a group that meets a word with an uncorrectable error, which the group does not write whole: it traps
MEMORY_UE as the part of a scalar store does (09 R211, 10 R218; DESIGN CHOICE, log entry 93). -/
def State.tornElem (s : State) (core : Nat) (g : Group) : Option Elem :=
  (g.find? fun e =>
    let n := e.2.length
    let part (w : Nat) : Bool := !Group.covers g w
    if s.pathOf e.1.x == .managed then (s.swmPoison core e.1.x.pa n part).isSome
    else (wordsOfRun e.1.x.pa n).any fun w => s.poison.contains w && part w).map (·.1)

/-- One access of a store (R212): its bytes in element order. Behind a tier link that is down it leaves one entry (24 R422). -/
def storeGroup (g : Group) : Act Unit :=
  match g with
  | [] => pure ()
  | (e, _) :: _ => do
    let u ← me
    let st ← self
    let line := lineOf e.x.pa
    match ← readS (·.pathOf e.x) with
    | .managed =>
      editS fun s =>
        let s := g.foldl (fun (s : State) d => s.swmWrite st.core d.1.x.pa d.2 (st.ctx, st.sid, d.1.va)) s
        (s.swmWhole st.core line (Group.covers g)).noteVt u e.x.pa
    | path =>
      if path == .coherent then
        editS fun s =>
          g.foldl (fun (s : State) d => s.stampWords u st.lrec st.phase d.1.x.pa d.2.length) (s.getM st.core line)
      if ← readS (·.tierDown e.x.pa) then editS fun s => s.localError st.ctx e.va 6 37 st.sid
      else
        editS fun s =>
          let s := { s with
            mem := g.foldl (fun m (d : Elem × List (BitVec 8)) => Memory.setBytes m d.1.x.pa d.2) s.mem
            poison := s.poison.filter fun p => !(p / 16 == line && Group.covers g p) }
          g.foldl (fun (s : State) d => s.written d.1.x.pa d.2.length) (s.noteVt u e.x.pa)

def storeGroups : List Group → Act Unit
  | [] => pure ()
  | g :: rest => do
    storeGroup g
    storeGroups rest

/-- A zero-length write (04 R114). -/
def zeroWrite (va : Word) : Act Unit := do
  let u ← me
  let st ← self
  match ← stateS (fun s => s.accessProblem st ⟨1, .zeroWrite, false, false, true, false⟩ va 0) with
  | .error e => raiseElem va e
  | .ok x =>
    heedHome [{ (← readS fun s => s.askOf x false none) with empty := true }] true
    editS fun s => s.noteVt u x.pa

/-- R211, R212 for a store. A word with an uncorrectable error that it would write in part is met behind the race checks of all elements (log
entry 93). -/
def scatterElems (w : Nat) (act : List Bool) (vas : List Word) (data : List Nat) : Act Unit := do
  if !act.any id then zeroWrite (vas.headD 0)
  else
    let u ← me
    let st ← self
    let n := w / 8
    let (es, bad) ← stateS (checkElems st (Check.store n) n (chosen act vas 0))
    match bad with
    | some (_, va, e) => raiseElem va e
    | none => pure ()
    hearElems (Check.store n) es
    let s ← readS id
    match es.find? (s.writeRace u st · n) with
    | some e => trapWord Cause.race e.va
    | none => pure ()
    let groups := groupsOf (es.zip ((chosen act data 0).map fun v => Memory.toBytes n v.2))
    match groups.findSome? (s.tornElem st.core) with
    | some e => trapWord Cause.memoryUe e.va
    | none => pure ()
    editS fun s => es.foldl (fun s e => s.markDirty st.core st.ctx e.va) s
    storeGroups groups

/-- The data and the predicate that the execute stream hands over (12 R270). -/
def pushStore (f : Fields) : Act Unit := do
  bindVec
  let st ← self
  let full : Bool := match st.region with
    | some g => 8 ≤ g.store.length
    | none => false
  if full then park .storeQueue
  let (v, t) ← readV f.d.toNat
  let p := st.predBits f.m.toNat
  editSelf fun st => { st with region := st.region.map fun g => { g with store := g.store ++ [⟨v, t, p⟩] } }

/-- A vector store to the addresses that the entry gives: one step outside a region, split between the streams inside. -/
def vectorStore (f : Fields) (addrs : Nat → Act Addrs) : Act Unit :=
  issue .both f do
    let w := Shape.widthOf f.fmt.toNat
    let acc ← inAccess
    let st ← self
    match st.region, acc with
    | some g, true =>
      let a ← addrs w
      match g.store with
      | [] => park .storeQueue
      | e :: rest =>
        a.heedTag
        a.heedAligned (activeList w e.pred)
        scatterElems w (activeList w e.pred) a.vas (elems w e.bits)
        editSelf fun st => { st with region := st.region.map fun g => { g with store := rest } }
        finishReply f
    | some _, false =>
      pushStore f
      finish f
    | none, _ =>
      bindVec
      let a ← addrs w
      let (v, _) ← readV f.d.toNat
      a.heedTag
      let act ← actives f w
      a.heedAligned act
      scatterElems w act a.vas (elems w v)
      finishReply f

def execVld (f : Fields) (s : State) : Result := (vectorLoad .access f false (unitAddrs f)).outcome s
def execVlds (f : Fields) (s : State) : Result := (vectorLoad .access f false (strideAddrs f)).outcome s
def execVgath (f : Fields) (s : State) : Result := (vectorLoad .access f false (indexAddrs f)).outcome s
def execVldff (f : Fields) (s : State) : Result := (vectorLoad .neither f true (unitAddrs f)).outcome s
def execVst (f : Fields) (s : State) : Result := (vectorStore f (unitAddrs f)).outcome s
def execVsts (f : Fields) (s : State) : Result := (vectorStore f (strideAddrs f)).outcome s
def execVscat (f : Fields) (s : State) : Result := (vectorStore f (indexAddrs f)).outcome s

end Sys2Proof.Machine
end

