-- ==== Sys2Proof/Machine/Loops.lean ====
section
/-!
DEFINITION. Counted loops and decoupled regions, OP 0xB0 to 0xB3 (12 R265 to R275). The head of a loop stack is its top.
-/

namespace Sys2Proof.Machine

/-! ### The two streams at a branch (R271) -/

/-- The loop stack of the stream that issues. -/
def loopsOf : Act (List LoopRec) := do
  let st ← self
  match ← inAccess, st.region with
  | true, some g => pure g.loops
  | _, _ => pure st.loops

def setLoops (l : List LoopRec) : Act Unit := do
  let acc ← inAccess
  editSelf fun st =>
    match acc, st.region with
    | true, some g => { st with region := some { g with loops := l } }
    | _, _ => { st with loops := l }

/-- The outcome of a loop instruction or QBR: decided outside a region and by the access stream, which needs room in the branch queue;
the queue's oldest for the execute stream. -/
def branchOutcome (taken : Bool) : Act Bool := do
  let st ← self
  match st.region, ← inAccess with
  | none, _ => pure taken
  | some g, true =>
    if 16 ≤ g.qb.length then park .branchQueue
    pure taken
  | some g, false =>
    match g.qb with
    | [] => park .branchQueue
    | b :: _ => pure b

/-- The access stream pushes the outcome, and the execute stream takes it, once the instruction can complete. -/
def branchDone (taken : Bool) : Act Unit := do
  let acc ← inAccess
  editSelf fun st => { st with region := st.region.map fun g => { g with qb := if acc then g.qb ++ [taken] else g.qb.drop 1 } }

/-- A branch with its outcome: taken to its target with what it leaves, which is checked first, or not. -/
def branch (taken : Bool) (target : Word) (jumps falls : Act Unit) : Act Unit := do
  if ← branchOutcome taken then
    checkTarget target
    branchDone true
    jumps
    jumpTo target
  else
    branchDone false
    falls

/-- The operand of a branch, which the execute stream of a region does not read. -/
def branchOperand (f : Fields) : Act Word := do
  let st ← self
  if st.region.isSome && !(← inAccess) then pure 0 else operandX false f.a f.ta

/-! ### Loops (R266) -/

/-- pc + 4·sx(IMM20). -/
def labelOf (f : Fields) : Act Word := do pure ((← thisPc) + sx64 f.imm20 * 4)

def execLoop (f : Fields) (s : State) : Result :=
  (issue .both f (do
    let n ← branchOperand f
    let pc ← thisPc
    let e ← labelOf f
    let l ← loopsOf
    if 4 ≤ l.length then trapExtra Cause.queueMisuse 0x06
    if ← branchOutcome (n != 0) then
      branchDone true
      setLoops (⟨n, pc + 12, e⟩ :: l)
      finish f
    else
      checkTarget (e + 12)
      branchDone false
      jumpTo (e + 12))).outcome s

def execLend (f : Fields) (s : State) : Result :=
  (issue .both f (do
    let pc ← thisPc
    match ← loopsOf with
    | [] => trapExtra Cause.queueMisuse 0x07
    | top :: rest =>
      if pc != top.lend then trapExtra Cause.queueMisuse 0x07
      branch (top.rem - 1 != 0) top.top (setLoops ({ top with rem := top.rem - 1 } :: rest)) (do setLoops rest; finish f))).outcome s

def execLbrk (f : Fields) (s : State) : Result :=
  (issue .both f (do
    let a ← if f.m == 0 then pure 0 else branchOperand f
    match ← loopsOf with
    | [] => trapExtra Cause.queueMisuse 0x07
    | top :: rest =>
      let holds := if f.m == 0 then true else if f.m == 1 then a != 0 else a == 0
      branch holds (top.lend + 12) (setLoops rest) (finish f))).outcome s

/-- R271. -/
def execQbr (f : Fields) (s : State) : Result :=
  (issue .both f (do
    let st ← self
    if st.region.isNone then trapExtra Cause.queueMisuse 0x04
    let a ← branchOperand f
    let t ← labelOf f
    branch (a != 0) t (pure ()) (finish f))).outcome s

/-! ### Regions (R267) -/

/-- Whether a CPYR or MRD committed into the strand has not landed; `onlyV` asks for its v registers alone (08 R201). -/
def State.landing (s : State) (u : Nat) (onlyV : Bool) : Bool :=
  s.cores.any fun e => (e.2.mx.queue ++ e.2.ce.queue).any fun c =>
    c.uid == u && (c.kind == .mrd || (c.kind == .cpyr && (!onlyV || c.m == 1)))

/-- The strand that has a core's sequencer: the one that took it, or one whose region a RESUME restored while another held it (23 R387). -/
def State.seqHolder (s : State) (core : Nat) : Option Nat :=
  match (s.core core).seq with
  | some u => some u
  | none => ((s.strandsOf core).find? (·.2.region.isSome)).map (·.1)

/-- The strands of a core that wait for its sequencer, apart from one. -/
def State.sequencerWaiters (s : State) (core u : Nat) : List (Nat × Strand) :=
  (s.strandsOf core).filter fun e => e.1 != u && e.2.state == .parked && e.2.await == .sequencer && e.2.region.isNone

/-- The region that begins behind the DSPLIT of length `len`. -/
def Strand.split (len : Word) (st : Strand) : Strand :=
  let g : Region :=
    { seqPc := st.pc + len, x := st.x, xFull := st.xFull, pw := st.predWord, fcr := st.fcr, loops := st.loops,
      q := Vector.replicate 4 [], qb := [], store := [], popped := 0, blocked := none, joined := false, queued := none }
  { st with region := some g }

def execDsplit (f : Fields) (s : State) : Result :=
  (issue .both f (do
    let u ← me
    let st ← self
    if st.region.isSome then trapExtra Cause.queueMisuse 0x05
    let s ← readS id
    let holder := s.seqHolder st.core
    if holder != some u then
      if holder.isSome || !(s.sequencerWaiters st.core u).isEmpty then park .sequencer
      editS fun s => s.editCore st.core fun k => { k with seq := some u }
    if s.landing u false then park (.landings false)
    editSelf (Strand.split (lenWord f))
    finish f)).outcome s

/-- A region whose queues are all empty. -/
def Region.drained (g : Region) : Bool := g.q.toList.all (·.isEmpty) && g.qb.isEmpty && g.store.isEmpty

def execDjoin (f : Fields) (s : State) : Result :=
  (issue .both f (do
    let u ← me
    let st ← self
    match st.region, ← inAccess with
    | none, _ => trapExtra Cause.queueMisuse 0x04
    | some g, true => editSelf fun st => { st with region := some { g with joined := true } }
    | some g, false =>
      if !g.joined then park .sequencer
      if !g.drained then trapExtra Cause.queueMisuse 0x03
      editS fun s => s.endRegion u
      finish f)).outcome s

/-! ### Queue moves (R272) -/

def execQpush (f : Fields) (s : State) : Result :=
  (issue .both f (do
    let st ← self
    match st.region with
    | none => trapExtra Cause.queueMisuse 0x04
    | some g =>
      if ← inAccess then
        let a ← operandX false f.a f.ta
        if 8 ≤ ((g.q[f.d.toNat - 28]?).getD []).length then park (.queue (f.d.toNat - 28))
        let w := Shape.widthOf f.fmt.toNat
        pushLoad f (ofElems w (List.replicate (4096 / w) (a.toNat % 2 ^ w)))
      finish f)).outcome s

def execQpop (f : Fields) (s : State) : Result :=
  (issue .both f (do
    let st ← self
    if st.region.isNone then trapExtra Cause.queueMisuse 0x04
    if !(← inAccess) then
      bindVec
      let (v, tag) ← readV f.a.toNat
      writeV f.d.toNat v tag
    finish f)).outcome s

end Sys2Proof.Machine
end

