-- ==== Sys2Proof/Machine/Engines.lean ====
section
/-!
DEFINITION. The instructions that build, commit and query engine commands, OP 0xC0 to 0xCF, and ITER, OP 0xB4 (11 R240 to R264,
12 R276).
-/

namespace Sys2Proof.Machine

/-! ### Commands (R242, R246) -/

/-- FCR for a command: RND, where it is not 0b00, replaces RM (R88, R246). -/
def snapshot (fcr : BitVec 64) (rnd : Nat) : BitVec 64 :=
  if rnd = 0 then fcr else (fcr &&& ~~~(0x60#64)) ||| BitVec.ofNat 64 ((rnd - 1) * 32)

/-- What a command keeps of the strand that commits it. -/
def newCommand (k : CmdKind) (regs : Vector (BitVec 64) 16) (tile : Word) (fmtA fmtB fmt m rnd : Nat) : Act Command := do
  let u ← me
  let st ← self
  let pc ← thisPc
  let acc ← inAccess
  let l ← readS (·.launch? st.lrec)
  let fcr := match acc, st.region with
    | true, some g => g.fcr
    | _, _ => st.fcr
  pure
    { kind := k, state := .queued, regs := regs, tile := tile, fmtA := fmtA, fmtB := fmtB, fmt := fmt, m := m,
      fcr := snapshot fcr rnd, row := 0, dest := 0, data := 0, addr := 0, uid := u, sid := st.sid, ctx := st.ctx,
      lrec := st.lrec, lseq := (l.map (·.seq)).getD 0, scope := st.scope, item := st.item,
      ranges := (l.map (·.ranges)).getD [], rect := (l.map (·.rect)).getD (Rect.single st.core), swBase := st.swBase,
      swLen := st.swLen, fra := st.fra, pc := pc, ticket := none, rprog := 0, flags := 0, bytes := 0, reported := 0,
      order := 0, drainNo := 0, path := if k.engine = 0 then some 5 else none, gang := none, ending := none }

def zeroRegs : Vector (BitVec 64) 16 := Vector.replicate 16 0

/-- R240: a commit waits while no permit is free. -/
def takePermit (e : Nat) : Act Unit := do
  let st ← self
  if 8 ≤ (← readS fun s => (s.engine st.core e).queue.length) then park (.permit e)

/-- A command enters its queue. -/
def enqueue (c : Command) : Act Unit := do
  let st ← self
  editS fun s =>
    { s.editEngine st.core c.kind.engine (fun g => { g with queue := g.queue ++ [{ c with order := s.order, drainNo := s.order }] })
      with order := s.order + 1 }

/-- R242: the commit with a ticket, which xD takes. -/
def enqueueTicket (f : Fields) (c : Command) : Act Unit := do
  let st ← self
  let e := c.kind.engine
  takePermit e
  let n ← readS fun s => (s.engine st.core e).seqNo
  editS fun s => s.editEngine st.core e fun g => { g with seqNo := g.seqNo + 1 }
  let t := e * 32768 + n.toNat
  enqueue { c with ticket := some t }
  writeX f.d.toNat (BitVec.ofNat 64 t)

/-- A failing commit's xD. -/
def failure (code : Nat) : Word := BitVec.ofNat 64 (2 ^ 63 + code)

/-! ### FIELD and COMBINATION (R242 to R244, R253 to R263) -/

/-- The layout of a microprogram (R258). -/
def microOk (p : Word) : Bool :=
  field p 63 50 == 0 &&
  (List.range (field p 49 48 + 1)).all fun i =>
    let o := bitsOf p.toNat (12 * i + 11) (12 * i)
    bitsOf o 11 10 == 0 && bitsOf o 9 7 != 7 && bitsOf o 5 3 ≤ 5 && bitsOf o 2 0 ≤ 5

/-- The gang of a core: the aligned run of 2^g files that holds it (R256). -/
def gangRun (core g : Nat) : List Nat :=
  let f0 := fileOf core / 2 ^ g * 2 ^ g
  (List.range (2 ^ g)).map fun j => coreAt (f0 + j) (rankOf core)

/-- The pairs of MST (R260). -/
def mstPair (tag fmt : Nat) : Bool := (tag == 2 && [2, 3, 4, 5, 6].contains fmt) || (tag == 9 && fmt == 9)

def Command.rows0 (c : Command) : Nat := c.reg 4 |>.toNat
def Command.count1 (c : Command) : Nat := field (c.reg 5) 15 0
def Command.count2 (c : Command) : Nat := field (c.reg 6) 15 0

/-- The extent of an accumulator endpoint of CPY lies in the store (R261). -/
def Command.extentOk (c : Command) (base s1 s2 : Nat) : Bool :=
  if c.rows0 = 0 || c.count1 = 0 || c.count2 = 0 then true
  else
    let at_ (i1 i2 : Nat) : Int := ((c.reg base).toNat : Int) + i1 * c.stride s1 + i2 * c.stride s2
    [at_ 0 0, at_ (c.count1 - 1) 0, at_ 0 (c.count2 - 1), at_ (c.count1 - 1) (c.count2 - 1)].all fun a =>
      0 ≤ a && a + c.rows0 ≤ 65536

/-- A field that breaks a limit; it is looked for before the combinations (DEDUCED, log entry 18). -/
def Command.badField (c : Command) (core : Nat) : Bool :=
  (c.kind.reports && (field (c.reg 7) 2 1 != 0 || field (c.reg 7) 63 3 == 0)) ||
  match c.kind with
  | .mma => product c
  | .gang =>
    let g := field (c.reg 10) 2 0
    product c || 5 < g || !(gangRun core g).all c.rect.hasCore
  | .cpy =>
    2 ^ 32 ≤ c.rows0 || c.m % 4 == 3 || (c.m % 4 == 1 && !c.extentOk 0 1 8) || (c.m % 4 == 2 && !c.extentOk 2 3 9)
  | _ => false
where
  /-- KLEN, and the microprogram of MP. -/
  product (c : Command) : Bool :=
    let k := (c.reg 4).toNat
    k == 0 || 2 ^ 24 < k || (c.fmtB == 13 && k % 64 != 0) || (c.m.testBit 1 && !microOk (c.reg 8))

/-- The command that CMD describes over a set of engine registers (R244), or the failure code. -/
def commandOf (e : Nat) (regs : Vector (BitVec 64) 16) : Act (Nat ⊕ Command) := do
  let cmd := regAt regs 15
  let tile := regAt regs 14
  let f : Fields :=
    { form := .ext, d := 0, a := 0, b := 0, m := BitVec.ofNat 4 (field cmd 43 40), c := BitVec.ofNat 6 (field cmd 55 50),
      e := BitVec.ofNat 6 (field cmd 49 44), guard := Guard.none, h := 0, ta := 0, tb := 0, x := 0,
      fmt := BitVec.ofNat 4 (field cmd 39 36), rnd := BitVec.ofNat 2 (field cmd 35 34), bk := 0, imm20 := 0 }
  let entry : Option (CmdKind × Instr) :=
    match e, field cmd 63 56 with
    | 0, 0xC0 => some (.gang, .gang f)
    | 0, 0xC1 => some (.mma, .mma f)
    | 0, 0xC3 => some (.mzero, .mzero f)
    | 0, 0xCE => some (.cbook, .cbook f)
    | 1, 0xC6 => some (.mst, .mst f)
    | 1, 0xCB => some (.cpy, .cpy f)
    | 1, 0xCD => some (.cpyrow, .cpyrow f)
    | _, _ => none
  match entry with
  | none => pure (.inl 2)
  | some (k, i) =>
    let tiled := k == .gang || k == .mma || k == .mzero || k == .mst
    if field cmd 33 0 != 0 || i.reject == some .illegalForm || (tiled && !tileOk tile) then pure (.inl 2)
    else do
      let c ← newCommand k regs tile f.e.toNat f.c.toNat f.fmt.toNat f.m.toNat f.rnd.toNat
      let st ← self
      let pair := match k with
        | .gang => tileTag tile == c.fmt
        | .mma => tileTag tile == c.fmt
        | .mst => mstPair (tileTag tile) c.fmt
        | _ => true
      if c.badField st.core then pure (.inl 2)
      else if i.reject.isSome || !pair then pure (.inl 3)
      else pure (.inr c)

/-! ### The shadow set (R241) -/

/-- A claim for the issuing strand, which waits while another strand holds it. -/
def claimShadow (e : Nat) : Act Unit := do
  let u ← me
  let st ← self
  let g ← readS fun s => s.engine st.core e
  match g.claim with
  | some h => if h != u then park (.claim e)
  | none =>
    editS fun s => s.editEngine st.core e fun g =>
      { g with claim := some u, shadow := if g.last == some u then g.shadow else zeroRegs }

/-- The set has been read by a commit. -/
def releaseShadow (e : Nat) : Act Unit := do
  let u ← me
  let st ← self
  editS fun s => s.editEngine st.core e fun g => { g with claim := none, last := some u }

/-- The registers that an engine has (R243). -/
def hasReg (e i : Nat) : Bool := i < 16 && (if e = 0 then !(11 ≤ i && i ≤ 13) else !(10 ≤ i && i ≤ 13))

def setShadow (e i : Nat) (v : Word) : Act Unit := do
  let st ← self
  claimShadow e
  if hasReg e i then editS fun s => s.editEngine st.core e fun g => { g with shadow := g.shadow.setIfInBounds i v }

/-- A shadow commit (R242): the command that `mk` forms from the set, or its failure code. It is release-class (05 R135). -/
def shadowCommit (f : Fields) (e : Nat) (mk : Vector (BitVec 64) 16 → Act (Nat ⊕ Command)) : Act Unit := do
  let u ← me
  let st ← self
  let g ← readS fun s => s.engine st.core e
  if g.claim != some u then writeX f.d.toNat (failure 1)
  else
    match ← mk g.shadow with
    | .inl code =>
      releaseShadow e
      writeX f.d.toNat (failure code)
    | .inr c =>
      enqueueTicket f c
      releaseShadow e
  editS fun s => s.release u

/-- A z register as a source. -/
def readZ (r : Nat) : Act Word := do
  let st ← self
  pure ((st.z[r]?).getD 0)

/-- A descriptor without rows is no tile (R252), which is found after every source is present and every tag is checked (06 R160). -/
def needTile (t : Word) : Act Unit := need (tileRows t != 0) illegalForm

/-- An instruction that commits the command of its own fields over the shadow set. -/
def commitOwn (f : Fields) (k : CmdKind) (tile : Word) (edit : Vector (BitVec 64) 16 → Vector (BitVec 64) 16) : Act Unit :=
  shadowCommit f k.engine fun regs => do
    let st ← self
    let c ← newCommand k (edit regs) tile f.e.toNat f.c.toNat f.fmt.toNat f.m.toNat f.rnd.toNat
    pure (if c.badField st.core then .inl 2 else .inr c)

/-! ### The matrix unit -/

def execGang (f : Fields) (s : State) : Result :=
  (issue .neither f do
    let t ← readZ f.a.toNat
    let b ← operandB f
    need (tileTag t == f.fmt.toNat) (trapPlain Cause.formatMismatch)
    needTile t
    commitOwn f .gang t fun r => r.setIfInBounds 10 b
    finish f).outcome s

def execMma (f : Fields) (s : State) : Result :=
  (issue .neither f do
    let t ← readZ f.a.toNat
    need (tileTag t == f.fmt.toNat) (trapPlain Cause.formatMismatch)
    needTile t
    commitOwn f .mma t id
    finish f).outcome s

def execMprog (f : Fields) (s : State) : Result :=
  (issue .neither f do
    let b ← operandB f
    need (microOk b) illegalForm
    setShadow 0 8 b
    finish f).outcome s

def execMzero (f : Fields) (s : State) : Result :=
  (issue .neither f do
    let t ← readZ f.a.toNat
    needTile t
    takePermit 0
    enqueue (← newCommand .mzero zeroRegs t 0 0 0 0 0)
    finish f).outcome s

def execMrd (f : Fields) (s : State) : Result :=
  (issue .execute f do
    destV f.d.toNat
    bindVec
    let t ← readZ f.a.toNat
    let b ← operandB f
    needTile t
    takePermit 0
    let c ← newCommand .mrd zeroRegs t 0 0 0 0 0
    enqueue { c with row := b, dest := f.d.toNat }
    editSelf fun st => { st with vec := st.vec.map fun v => { v with vFull := v.vFull &&& ~~~(1#32 <<< f.d.toNat) } }
    finish f).outcome s

def execMwr (f : Fields) (s : State) : Result :=
  (issue .execute f do
    bindVec
    let t ← readZ f.d.toNat
    let (v, tag) ← operandV f.a f.ta
    let b ← operandB f
    need (tag.toNat == tileTag t) (trapPlain Cause.formatMismatch)
    needTile t
    takePermit 0
    let c ← newCommand .mwr zeroRegs t 0 0 0 0 0
    enqueue { c with row := b, data := v }
    finish f).outcome s

def execCbook (f : Fields) (s : State) : Result :=
  (issue .neither f do
    commitOwn f .cbook 0 id
    finish f).outcome s

/-! ### The copy engine -/

def execMst (f : Fields) (s : State) : Result :=
  (issue .neither f do
    let t ← readZ f.a.toNat
    needTile t
    need (mstPair (tileTag t) f.fmt.toNat) (trapPlain Cause.unsupported)
    commitOwn f .mst t id
    finish f).outcome s

/-- A copy into the accumulator store is classified at commit (04 R105). -/
def classed (c : Nat ⊕ Command) : Nat ⊕ Command :=
  match c with
  | .inr c => .inr (if c.kind == .cpy && c.m.testBit 1 then { c with path := some 1 } else c)
  | x => x

def execCpy (f : Fields) (s : State) : Result :=
  (issue .neither f do
    shadowCommit f 1 fun regs => do
      let st ← self
      let c ← newCommand .cpy regs 0 0 0 0 f.m.toNat 0
      pure (if c.badField st.core then .inl 2 else classed (.inr c))
    finish f).outcome s

def execCpyrow (f : Fields) (s : State) : Result :=
  (issue .neither f do
    commitOwn f .cpyrow 0 id
    finish f).outcome s

/-- R262. -/
def execCpyr (f : Fields) (s : State) : Result :=
  (issue .neither f do
    let isV := f.m == 1
    if isV then bindVec
    let a ← operandX false f.a f.ta
    let va := a + imm20Offset f
    let n := if isV then 512 else 8
    let _ ← checkAccess (Check.load n) va n
    takePermit 1
    let c ← newCommand .cpyr zeroRegs 0 0 0 f.fmt.toNat f.m.toNat 0
    enqueue { c with dest := f.d.toNat, addr := va, path := some 3 }
    let r := f.d.toNat
    editSelf fun st =>
      if isV then { st with vec := st.vec.map fun v => { v with vFull := v.vFull &&& ~~~(1#32 <<< r) } }
      else { st with xFull := st.xFull &&& ~~~(1#64 <<< r) }
    finish f).outcome s

/-! ### Both engines -/

def execEset (f : Fields) (s : State) : Result :=
  (issue .neither f do
    let b ← operandB f
    if f.m == 2 then
      need (tileOk b) illegalForm
      editSelf fun st => { st with z := st.z.setIfInBounds f.d.toNat b }
    else setShadow f.m.toNat f.c.toNat b
    finish f).outcome s

/-- The command that an engine runs (R243): its head, once it has started. -/
def Engine.running (g : Engine) : Option Command :=
  match g.queue with
  | c :: _ => if c.state == .queued then none else some c
  | [] => none

/-- The engine registers of a running command as EGET reads them. -/
def Command.view (c : Command) (i : Nat) : Word :=
  if i = 16 then BitVec.ofNat 64 c.rprog else if hasReg c.kind.engine i then c.reg i else 0

/-- The engine is between two commands: its head has not started (R245). -/
def Engine.switching (g : Engine) : Bool := g.running.isNone && !g.queue.isEmpty

/-- R243, R245. A read of the running command waits while the engine switches commands; with an empty queue there is no value to read
(DESIGN CHOICE, log entry 12). -/
def execEget (f : Fields) (s : State) : Result :=
  (issue .neither f do
    let st ← self
    let i := f.c.toNat
    let e := f.m.toNat % 2
    let v : Word ←
      if f.m == 2 then pure ((st.z[f.a.toNat]?).getD 0)
      else if f.m.getLsbD 2 then do
        let g ← readS fun s => s.engine st.core e
        if g.switching then park (.switching e)
        match g.running with
        | some c => pure (c.view i)
        | none => freeValue
      else do
        let g ← readS fun s => s.engine st.core e
        pure (if hasReg e i then regAt g.shadow i else 0)
    writeX f.d.toNat v
    finish f).outcome s

/-- EGO replies once its command is queued (R242). -/
def execEgo (f : Fields) (s : State) : Result :=
  (issue .neither f do
    let e := f.m.toNat
    shadowCommit f e fun regs => do pure (classed (← commandOf e regs))
    finishReply f).outcome s

/-- The 128 bytes of a record as engine registers. -/
def regsOf (bytes : List (BitVec 8)) : Vector (BitVec 64) 16 :=
  Vector.ofFn fun i => BitVec.ofNat 64 (Memory.ofBytes ((bytes.drop (8 * i.val)).take 8))

/-- 12 R276. The record may lie in two pages. -/
def execIter (f : Fields) (s : State) : Result :=
  (issue .access f do
    let u ← me
    let a ← operandX false f.a f.ta
    let x ← checkAccess (Check.load 64) a 64
    let lo ← loadBytes x a 64
    let y ← checkAccess (Check.load 64) (a + 64) 64
    let hi ← loadBytes y (a + 64) 64
    match classed (← commandOf f.m.toNat (regsOf (lo ++ hi))) with
    | .inl code => writeX f.d.toNat (failure code)
    | .inr c => enqueueTicket f c
    editS fun s => s.release u
    finishReply f).outcome s

/-- The k of a row block, and the row blocks of a product (R253). -/
def Command.kb (c : Command) : Nat := if c.fmtB = 13 then 64 else 32

def Command.klen (c : Command) : Nat := (c.reg 4).toNat

def Command.blocks (c : Command) : Nat := (c.klen + c.kb - 1) / c.kb

/-! ### Cancelling, querying and resuming (R250, R251) -/

/-- The command of the issuing core and the issuer's launch that a ticket names. -/
def State.byTicket (s : State) (st : Strand) (t : Nat) : Option Command :=
  let k := s.core st.core
  let seq := ((s.launch? st.lrec).map (·.seq)).getD 0
  (k.mx.queue ++ k.ce.queue).find? fun c =>
    c.ticket == some t && c.ctx == st.ctx && c.lrec == st.lrec && c.lseq == seq

/-- A command is cancelled: its completion word follows, and it is gone. One whose work is over already ends as it does. -/
def State.cancelCmd (s : State) (core : Nat) (c : Command) : State :=
  let e := c.kind.engine
  if c.ending.isSome then s
  else
    let d : Command := { c with ending := some ⟨2, none⟩ }
    if (s.headCmd core e).map (·.order) == some c.order then (s.putCmd core d).tryEnd core e
    else
      let s := s.editEngine core e fun g => { g with queue := g.queue.map fun x => if x.order == c.order then d else x }
      if s.engineReady core e then s.tryEnd core e else s

def execEcan (f : Fields) (s : State) : Result :=
  (issue .neither f do
    let st ← self
    let a ← operandX false f.a f.ta
    match ← readS (·.byTicket st a.toNat) with
    | none => writeX f.d.toNat 2
    | some c =>
      editS fun s => s.cancelCmd st.core c
      writeX f.d.toNat (if c.state == .queued then 0 else 1)
    finish f).outcome s

/-- A core of a gang in N-split that waits at the barrier for its next block, which another has not reached, whose engine waits or is held,
or never will (R256, R257). -/
def State.waitsForGang (s : State) (core : Nat) (c : Command) : Bool :=
  c.kind == .gang && !c.m.testBit 0 && c.rprog < c.blocks && s.engineReady core 0 &&
  (gangRun core (field (c.reg 10) 2 0)).any fun k =>
    match s.headCmd k 0 with
    | some d => !(d.gang == c.gang && d.state == .running && d.ending.isNone && s.engineReady k 0)
    | none => true

/-- The states of EQRY (R251). -/
def State.cmdState (s : State) (core : Nat) (c : Command) : Nat :=
  match c.state with
  | .queued => 1
  | .held => 3
  | .barrier => 4
  | .chained => 4
  | .running => if s.waitsForGang core c then 4 else 2

def execEqry (f : Fields) (s : State) : Result :=
  (issue .neither f do
    let st ← self
    let a ← operandX false f.a f.ta
    let v ← readS fun s =>
      match s.byTicket st a.toNat with
      | none => 0
      | some c => s.cmdState st.core c + c.rprog % 65536 * 65536
    writeX f.d.toNat (BitVec.ofNat 64 v)
    finish f).outcome s

/-- The completion word of a command that is resumed, if it has one: zero and empty in SET mode, STATUS zero in ADD mode. One that cannot
be written is left as it is (R246). -/
def State.rearm (s : State) (core : Nat) (c : Command) (ctx : Nat) : Option Await × State :=
  if !c.kind.reports then (none, s)
  else
    match s.cwordPlace core c .issuer ctx with
    | (.error (.stall a _), s) => (some a, s)
    | (.error (.fail _ _ _ _), s) => (none, s)
    | (.ok x, s) =>
      (none,
        if (c.reg 7).getLsbD 0 then (s.store x.pa 8 (s.load x.pa 8 % 2 ^ 56)).written x.pa 8
        else (((s.store x.pa 8 0).clearPoison x.pa).setEmpty x.pa).written x.pa 8)

/-- The engine's micro-TLB loses its translations. -/
def State.clearMicroTlb (s : State) (core e : Nat) : State := s.editEngine core e fun g => { g with tlb := [] }

/-- The wait for a token of the engine's walk is over when its strand issues again. -/
def resumeWait (a : Await) : Await :=
  match a with
  | .token _ _ => .reply
  | a => a

def execMres (f : Fields) (s : State) : Result :=
  (issue .neither f do
    let st ← self
    let a ← operandX false f.a f.ta
    need (field a 63 17 == 0 && field a 15 13 == 0) illegalForm
    let core := field a 12 0
    let e := field a 16 16
    match (← readS fun s => (s.headCmd core e)) with
    | none => writeX f.d.toNat 1
    | some c =>
      if c.state != .held || c.ending.isSome then writeX f.d.toNat 1
      else
        need (← readS fun s => s.heldOver st Right.start c.sid c.ctx) (trapPlain Cause.authority)
        editS fun s => s.clearMicroTlb core e
        match ← stateS (fun s => s.rearm core c st.ctx) with
        | some a => park (resumeWait a)
        | none => pure ()
        editS fun s => { s.putCmd core { c with state := .running, drainNo := s.order } with order := s.order + 1 }
        writeX f.d.toNat 0
    finish f).outcome s

end Sys2Proof.Machine
end

