-- ==== Sys2Proof/Machine/EngineRun.lean ====
section
/-!
DEFINITION. The running of engine commands (11 R246 to R264, 04 R112 to R114): each event takes the head of a queue one unit on,
its start, a row block or a row, or its end. An event whose head is of another kind changes nothing.
-/

namespace Sys2Proof.Machine

/-! ### The head -/

/-- A member of a K-split gang that is behind another one: a clock stop stops the gang at one block boundary, which it still has to
reach (R257, 23 R381). -/
def State.behindGang (s : State) (core : Nat) (c : Command) : Bool :=
  c.kind == .gang && c.m.testBit 0 && c.gang.isSome && c.state == .running && (gangRun core (field (c.reg 10) 2 0)).any fun k =>
    match s.headCmd k 0 with
    | some d => d.gang == c.gang && c.rprog < d.rprog
    | none => false

/-- The head of an engine if it is of one of the kinds, its work is not over, it is neither held nor clock-stopped, and the engine waits for
nothing. -/
def State.headOf (s : State) (core e : Nat) (ks : List CmdKind) : Option Command :=
  match s.headCmd core e with
  | some c =>
    if ks.contains c.kind && c.state != .held && c.ending.isNone && s.engineReady core e &&
        (!s.halted c.ctx || s.behindGang core c) then some c
    else none
  | none => none

/-- A turn of an engine: a command whose work is over ends first. -/
def State.engineTurn (s : State) (core e : Nat) (run : State → State) : State :=
  match (s.engine core e).queue.find? (·.ending.isSome) with
  | none => run s
  | some c => if s.halted c.ctx || !s.engineReady core e then s else s.tryEnd core e

/-- The environment of a command's arithmetic (R88). -/
def Command.env (c : Command) : FpEnv := envOf c.fcr 0

/-- The address of the first base or stride that is not a multiple of its element size (R247), from pairs of registers with
the size. -/
def Command.misaligned (c : Command) (l : List (Nat × Nat × Nat)) : Option Word :=
  l.findSome? fun (b, st, w) =>
    if (c.reg b).toNat % w != 0 then some (c.reg b)
    else if (c.reg st).toNat % w != 0 then some (c.reg b + c.reg st)
    else none

/-- A command starts, or ends with ALIGNMENT. -/
def State.startCmd (s : State) (core : Nat) (c : Command) (bad : Option Word) (next : CmdState) : State :=
  if !s.mayStart core c then s
  else
    match bad with
    | some a => s.failCmd core c (.fail 6 Cause.alignment 0 a)
    | none => s.putCmd core { c with state := next }

/-! ### Matrix products (R253 to R258) -/

def Command.aSize (c : Command) : Nat := Shape.widthOf c.fmtA / 8

/-- Bytes of an element of B; an LC8 index has two. -/
def Command.bSize (c : Command) : Nat := if c.fmtB = 13 then 2 else Shape.widthOf c.fmtB / 8

/-- The first k of a row block, and how many it has. -/
def Command.blockK (c : Command) : Nat × Nat := (c.rprog * c.kb, min c.kb (c.klen - c.rprog * c.kb))

/-- The rows of A in the block at hand. -/
def Command.aRows (c : Command) : List (Word × Nat) :=
  let (k0, kn) := c.blockK
  (List.range (tileRows c.tile)).map fun (i : Nat) => (shifted (c.reg 0) (i * c.stride 1 + k0 * c.aSize), kn)

/-- The rows of B, or its index rows. -/
def Command.bRows (c : Command) : List (Word × Nat) :=
  let (k0, kn) := c.blockK
  let (r0, rn) := if c.fmtB = 13 then (k0 / 8, kn / 8) else (k0, kn)
  (List.range rn).map fun r => (shifted (c.reg 2) (((r0 + r : Nat) : Int) * c.stride 3), tileCols c.tile)

/-- The row of scales (R255). -/
def Command.scaleRow (c : Command) : List (Word × Nat) :=
  if c.fmtB = 13 then [(shifted (c.reg 5) (c.rprog * c.stride 6), tileCols c.tile)] else []

/-- R73: the eight weights of an index. -/
def lc8Weights (book : SMap (BitVec 32)) (x : Nat) : List Fp :=
  let ent := ((Sparse.get book (x / 128)).getD 0).toNat
  let last := (List.range 7).foldl (fun b j => b != x.testBit j) (ent.testBit 16)
  (List.range 8).map fun j => .num (if j < 7 then x.testBit j else last) (2 * bitsOf ent (2 * j + 1) (2 * j) + 1) (-1)

/-- R74: one block of LC8 weights. -/
def lc8Block (env : FpEnv) (acc : Nat) (a : List Fp) (w : List Fp) (e : Nat) : Nat × Flags :=
  let near : FpEnv := { env with rm := .rne }
  let (s, fl) := (a.zip w).foldl (fun r p => let (v, g) := fusedStep near r.1 p.1 p.2; (v, r.2 ||| g)) (0, 0)
  let (t, g) := if e = 255 then (fpNan 2 false, Flags.nv) else fpScale 2 near s ((e : Int) - 127)
  let (v, h) := fpAdd 2 env acc t
  (v, fl ||| g ||| h)

/-- An element read exactly as FP32 (R258): the fraction of a NaN keeps its place below the point. -/
def widened (code : Nat) (env : FpEnv) (bits : Nat) : Nat :=
  match fpUnpack code env.ftz bits with
  | .nan n _ => if code = 5 then fpNan 2 n else fpInf 2 n + bits % 2 ^ (ffmt code).m * 2 ^ (23 - (ffmt code).m)
  | x => (fpPack 2 { env with ftz := false } x).1

/-- PASS gives s1; of a NaN the result is canonical, and a signalling one sets NV (03 R79, R80; DEDUCED, log entry 80). With FTZ a subnormal
reads as zero of its sign (03 R78). -/
def passValue (env : FpEnv) (x : Nat) : Nat × Flags :=
  match fpUnpack 2 env.ftz x with
  | .nan n quiet => (fpNan 2 n, if quiet then 0 else Flags.nv)
  | .num n 0 _ => (fpSign 2 n, 0)
  | _ => (x, 0)

/-- One step of a microprogram over a, b, c, t (R258). -/
def microStep (env : FpEnv) (p : Word) (a b : Nat) (acc : Nat) : Nat × Flags :=
  let run (r : Nat × Nat × Flags) (i : Nat) : Nat × Nat × Flags :=
    let (c, t, fl) := r
    let o := bitsOf p.toNat (12 * i + 11) (12 * i)
    let src (n : Nat) : Nat := match n with | 0 => a | 1 => b | 2 => c | 3 => t | 4 => 0 | _ => fpOne 2
    let x := src (bitsOf o 5 3)
    let y := src (bitsOf o 2 0)
    let (v, g) : Nat × Flags :=
      match bitsOf o 9 7 with
      | 0 => fpAdd 2 env x y
      | 1 => fpSub 2 env x y
      | 2 => fpMul 2 env x y
      | 3 => fpMinMax 2 env true x y
      | 4 => fpMinMax 2 env false x y
      | 5 => let (b, g) := fpCompare 2 env.ftz 4 x y; (if b then fpOne 2 else 0, g)
      | _ => passValue env x
    if o.testBit 6 then (v, t, fl ||| g) else (c, v, fl ||| g)
  let (c, _, fl) := (List.range (field p 49 48 + 1)).foldl run (acc, 0, 0)
  (c, fl)

/-- What a row block makes of one cell: `a` and `b` are its row of A and its column of B. -/
def Command.cellStep (c : Command) (book : SMap (BitVec 32)) (a b : List Nat) (scale : Nat) (acc : Nat) : Nat × Flags :=
  let env := c.env
  if c.fmt = 9 then
    (wrap 32 ((a.zip b).foldl (fun v p => v + intValue c.fmtA p.1 * intValue c.fmtB p.2) (acc : Int)), 0)
  else if c.fmtB = 13 then
    lc8Block env acc (a.map (fpUnpack c.fmtA env.ftz)) (b.flatMap (lc8Weights book)) scale
  else
    (a.zip b).foldl (fun r p =>
      let (v, g) :=
        if c.m.testBit 1 then microStep env (c.reg 8) (widened c.fmtA env p.1) (widened c.fmtB env p.2) r.1
        else fusedStep env r.1 (fpUnpack c.fmtA env.ftz p.1) (fpUnpack c.fmtB env.ftz p.2)
      (v, r.2 ||| g)) (acc, 0)

/-- The operands of a row block. -/
structure BlockData where
  a : List (List Nat)
  b : List (List Nat)
  scale : List (List Nat)

/-- The accesses of a row block: those of A, of B, of the scales. -/
structure BlockRuns where
  a : List (List Chunk)
  b : List (List Chunk)
  scale : List (List Chunk)

/-- The runs of rows of elements of `w` bytes. -/
def rowRuns (w : Nat) (rows : List (Word × Nat)) : List (Word × Nat) := rows.map fun r => (r.1, w * r.2)

/-- The accesses of B and its scales (R253). -/
def State.checkB (s : State) (core : Nat) (c : Command) : Except EngineStop (List (List Chunk) × List (List Chunk)) × State :=
  match s.checkRuns core c false (rowRuns c.bSize c.bRows) with
  | (.error e, s) => (.error e, s)
  | (.ok b, s) =>
    match s.checkRuns core c false (rowRuns 1 c.scaleRow) with
    | (.error e, s) => (.error e, s)
    | (.ok w, s) => (.ok (b, w), s)

def State.checkA (s : State) (core : Nat) (c : Command) : Except EngineStop (List (List Chunk)) × State :=
  s.checkRuns core c false (rowRuns c.aSize c.aRows)

/-- The accesses of a block of one core, those of A first. -/
def State.checkBlock (s : State) (core : Nat) (c : Command) : Except EngineStop BlockRuns × State :=
  match s.checkA core c with
  | (.error e, s) => (.error e, s)
  | (.ok a, s) =>
    match s.checkB core c with
    | (.error e, s) => (.error e, s)
    | (.ok (b, w), s) => (.ok ⟨a, b, w⟩, s)

/-- The elements of rows that have been read. -/
def State.rowElems (s : State) (w : Nat) (rows : List (Word × Nat)) (runs : List (List Chunk)) : List (List Nat) :=
  (rows.zip runs).map fun (r, l) => s.chunkElems w r.2 l

def State.aElems (s : State) (c : Command) (l : List (List Chunk)) : List (List Nat) := s.rowElems c.aSize c.aRows l
def State.bElems (s : State) (c : Command) (l : List (List Chunk)) : List (List Nat) := s.rowElems c.bSize c.bRows l
def State.scaleElems (s : State) (c : Command) (l : List (List Chunk)) : List (List Nat) := s.rowElems 1 c.scaleRow l

/-- A row block is computed, and RPROG goes on. -/
def State.doBlock (s : State) (core : Nat) (c : Command) (d : BlockData) : State :=
  let k := s.core core
  let col (n : Nat) : List Nat := d.b.map fun r => r.getD n 0
  let cells := (k.tileCells c.tile).zip d.a |>.map fun (row, a) =>
    (row.zip (List.range row.length)).map fun (v, n) =>
      c.cellStep k.codebook a (col n) ((d.scale.headD []).getD n 0) v.toNat
  let fl := cells.foldl (fun f r => r.foldl (fun f x => f ||| x.2) f) (0 : Flags)
  let s := s.editCore core fun k => k.setTile c.tile fun i n => ((cells.getD i [])[n]?).map fun x => BitVec.ofNat 32 x.1
  s.putCmd core { c with rprog := c.rprog + 1, flags := c.flags ||| fl }

/-- The COUNT of a finished product (R246). -/
def Command.tileBytes (c : Command) : Nat := tileRows c.tile * tileCols c.tile * 4

/-- The members of a gang that stand at one block with their engines ready: their cores and commands (R256, R257). -/
def State.gangAt (s : State) (core : Nat) (c : Command) : List (Nat × Command) :=
  (gangRun core (field (c.reg 10) 2 0)).filterMap fun k =>
    match s.headCmd k 0 with
    | some d =>
      if d.gang == c.gang && d.gang.isSome && d.state == .running && d.ending.isNone && d.rprog == c.rprog && s.engineReady k 0 &&
          !s.halted d.ctx then some (k, d)
      else none
    | none => none

/-- Members check their own accesses of a block, the core that reads A those of A first. -/
def State.gangChecks (s : State) (reader : Nat) : List (Nat × Command) → List (Nat × Command × Except EngineStop BlockRuns) × State
  | [] => ([], s)
  | (k, d) :: l =>
    let (r, s) : Except EngineStop BlockRuns × State :=
      if k = reader then s.checkBlock k d
      else
        match s.checkB k d with
        | (.error e, s) => (.error e, s)
        | (.ok (b, w), s) => (.ok ⟨[], b, w⟩, s)
    let (rs, s) := State.gangChecks s reader l
    ((k, d, r) :: rs, s)

/-- Members stop, each for its own reason. -/
def State.failEach (s : State) (l : List (Nat × Command × EngineStop)) : State := l.foldl (fun s (k, d, e) => s.failCmd k d e) s

/-- All pieces of a member's block. -/
def BlockRuns.all (r : BlockRuns) : List Chunk := r.a.flatten ++ r.b.flatten ++ r.scale.flatten

/-- A row block of an N-split gang: every core that stands at it checks its accesses, and once all have it runs on all of them; its A comes
from member j mod m. -/
def State.gangBlock (s : State) (core : Nat) (c : Command) : State :=
  let run := gangRun core (field (c.reg 10) 2 0)
  let reader := run.getD (c.rprog % run.length) core
  let (found, s) := s.gangChecks reader (s.gangAt core c)
  let failed := found.filterMap fun (k, d, r) => match r with | .error e => some (k, d, e) | .ok _ => none
  let ready := found.filterMap fun (k, d, r) => match r with | .error _ => none | .ok r => some (k, d, r)
  if ready.length != run.length then s.failEach failed
  else
    match s.askEach (ready.flatMap fun (k, d, r) => s.engineAsk k d false r.all) with
    | (some w, s) =>
      match waitStop w with
      | (k, e, .stall a cause) => s.engineWait k e a cause
      | _ => s
    | (none, s) =>
      match ready.filterMap fun (k, d, r) => (r.all.findSome? s.chunkError).map fun e => (k, d, e) with
      | [] =>
        let av := (ready.find? fun (k, _, _) => k == reader).map fun (_, d, r) => s.aElems d r.a
        ready.foldl (fun t (k, d, r) => t.doBlock k d { a := av.getD [], b := s.bElems d r.b, scale := s.scaleElems d r.scale }) s
      | bad => s.failEach bad

/-- A K-split member hands its sum on, if the next core still runs the same gang, and completes (R84, R256). -/
def State.sumOn (s : State) (core : Nat) (c : Command) : State :=
  let next := coreAt (fileOf core + 1) (rankOf core)
  let cells := ((s.core core).tileCells c.tile).flatten
  let last := fileOf core % 2 ^ field (c.reg 10) 2 0 == 2 ^ field (c.reg 10) 2 0 - 1
  let same := match s.headCmd next 0 with
    | some d => d.kind == .gang && d.gang == c.gang
    | none => false
  let s' := if last || !same then s else s.editEngine next 0 fun g => { g with sum := some cells }
  s'.endCmd core { c with bytes := c.tileBytes } 0

/-- All row blocks of a product are done. -/
def State.productDone (s : State) (core : Nat) (c : Command) : State :=
  if c.kind == .gang && c.m.testBit 0 then
    if fileOf core % 2 ^ field (c.reg 10) 2 0 == 0 then s.sumOn core c else s.putCmd core { c with state := .chained }
  else s.endCmd core { c with bytes := c.tileBytes } 0

def Command.productAlign (c : Command) : Option Word :=
  c.misaligned [(0, 1, c.aSize), (2, 3, c.bSize)]

def State.runProduct (s : State) (core : Nat) : State :=
  match s.headOf core 0 [.mma, .gang] with
  | none => s
  | some c =>
    match c.state with
    | .queued => s.startCmd core c c.productAlign (if c.kind == .gang then .barrier else .running)
    | .running =>
      if c.blocks ≤ c.rprog then s.productDone core c
      else if c.kind == .gang && !c.m.testBit 0 then s.gangBlock core c
      else
        match s.checkBlock core c with
        | (.error e, s) => s.failCmd core c e
        | (.ok r, s) =>
          match s.heardAt core c r.all [] with
          | (some e, s) => s.failCmd core c e
          | (none, s) => s.doBlock core c { a := s.aElems c r.a, b := s.bElems c r.b, scale := s.scaleElems c r.scale }
    | _ => s

def execMatrixCommandRun (core : Nat) (s : State) : Result := .next (s.engineTurn core 0 (·.runProduct core))

/-! ### Gangs (R256) -/

/-- What the barrier compares. -/
def Command.gangShape (c : Command) : List Nat :=
  [field (c.reg 10) 2 0, c.m, c.fmtA, c.fmtB, c.fmt, c.klen, tileRows c.tile, tileCols c.tile]

def Command.gangTag (c : Command) : Nat := field (c.reg 10) 15 8

/-- The barrier of the gang of a core: every member stands at it with one TAG (DEDUCED, log entry 59). -/
def State.passBarrier (s : State) (core : Nat) : State :=
  match s.headOf core 0 [.gang] with
  | none => s
  | some c =>
    let run := (gangRun core (field (c.reg 10) 2 0)).map fun k => (k, s.headOf k 0 [.gang])
    let here := run.filterMap fun (k, d) => d.map fun d => (k, d)
    if here.length != run.length || here.any fun (_, d) => d.state != .barrier || d.gangTag != c.gangTag then s
    else if here.any fun (_, d) => d.gangShape != c.gangShape then
      here.foldl (fun s (k, d) => s.failCmd k d (.fail 7 Cause.unsupported 0x20 0)) s
    else
      let go (s : State) (e : (Nat × Command) × Nat) : State :=
        let ((k, d), j) := e
        let s := s.putCmd k { d with state := .running, gang := some s.order }
        if d.m.testBit 0 && j != 0 then s.editCore k fun x => x.setTile d.tile fun _ _ => some 0 else s
      let s := (here.zip (List.range here.length)).foldl go s
      { s with order := s.order + 1 }

def execGangBarrier (core : Nat) (s : State) : Result := .next (s.engineTurn core 0 (·.passBarrier core))

/-- S_j := round(S_{j−1} + P_j), or the sum modulo 2^32. -/
def Command.chain (c : Command) (prev own : BitVec 32) : BitVec 32 × Flags :=
  if c.fmt = 9 then (prev + own, 0)
  else let (v, g) := fpAdd 2 c.env prev.toNat own.toNat; (BitVec.ofNat 32 v, g)

def State.takeSum (s : State) (core : Nat) : State :=
  match s.headOf core 0 [.gang], (s.engine core 0).sum with
  | some c, some sum =>
    if c.state != .chained then s
    else
      let own := ((s.core core).tileCells c.tile).flatten
      let cells := (sum.zip own).map fun (p, o) => c.chain p o
      let fl := cells.foldl (fun f x => f ||| x.2) (0 : Flags)
      let w := tileCols c.tile
      let s := s.editCore core fun k => k.setTile c.tile fun i n => (cells[i * w + n]?).map (·.1)
      s.sumOn core { c with flags := c.flags ||| fl }
  | _, _ => s

def execKsplitSumArrival (core : Nat) (s : State) : Result := .next (s.engineTurn core 0 (·.takeSum core))

/-! ### Tiles (R259, R260) -/

/-- The cell of element `e` of a v register, if it lies inside the tile (R259). -/
def tileCellOf (t b : Word) (e : Nat) : Option (Nat × Nat) :=
  let i := b.toNat + e / 32
  let n := e % 32
  if i < tileRows t && tileCol t ≤ n && n < tileCol t + tileCols t then some (tileRow t + i, n) else none

/-- A value lands in a v register of the committing strand, wherever it resides (01 R33). -/
def State.giveV (s : State) (u r : Nat) (bits : Vec) (tag : Nat) : State :=
  s.editStrand u fun st => st.setV r bits (BitVec.ofNat 4 tag)

def State.runTile (s : State) (core : Nat) : State :=
  match s.headOf core 0 [.mzero, .mrd, .mwr] with
  | none => s
  | some c =>
    if !s.mayStart core c then s
    else
      let k := s.core core
      let s' : State :=
        match c.kind with
        | .mzero => s.setCore core (k.setTile c.tile fun _ _ => some 0)
        | .mrd =>
          let el (e : Nat) : Nat :=
            match tileCellOf c.tile c.row e with
            | some (r, n) => (k.cell r n).toNat
            | none => 0
          s.giveV c.uid c.dest (ofElems 32 ((List.range 128).map el)) (tileTag c.tile)
        | _ =>
          let es := elems 32 c.data
          s.setCore core ((List.range 128).foldl (fun k e =>
            match tileCellOf c.tile c.row e with
            | some (r, n) => k.setCell r n (BitVec.ofNat 32 (es.getD e 0))
            | none => k) k)
      s'.endCmd core c 0

def execTileCommandRun (core : Nat) (s : State) : Result := .next (s.engineTurn core 0 (·.runTile core))

/-- 04 R105: the memory of a command's destination base, classified as the engine translates it; none where that faults, and the command
stays unclassified. -/
def State.classifyCmd (s : State) (core : Nat) (c : Command) : Except Await (Option Nat) × State :=
  match s.translate core c.ctx (c.reg 2) .write (some c.kind.engine) with
  | (.ok x, s) => (.ok (some (if s.isScratch x.pa then (if c.kind == .cpy then 0 else 5) else 2)), s)
  | (.error (.wait a), s) => (.error a, s)
  | (.error (.trap _ _ _), s) => (.ok none, s)

/-- The command with its destination classified, and what follows; its engine waits where the base's translation does. -/
def State.classed (s : State) (core : Nat) (c : Command) (k : State → Command → State) : State :=
  match c.path with
  | some _ => k s c
  | none =>
    match s.classifyCmd core c with
    | (.ok p, s) => k s { c with path := p }
    | (.error a, s) => s.engineWait core c.kind.engine a (stallCause c.kind.engine true true a)

/-- The start of a copy-engine command. -/
def State.startCopy (s : State) (core : Nat) (c : Command) (bad : Option Word) : State :=
  if !s.mayStart core c then s else s.classed core c fun s c => s.startCmd core c bad .running

/-- A row of MST: the cells of a tile row in format FMT, and the flags of the conversion. -/
def State.mstRow (s : State) (core : Nat) (c : Command) : List Nat × Flags :=
  let row := ((s.core core).tileCells c.tile).getD c.rprog []
  let conv (v : BitVec 32) : Nat × Flags := if c.fmt = 9 then (v.toNat, 0) else fpConvert c.fmt 2 c.env v.toNat
  (row.map fun v => (conv v).1, row.foldl (fun f v => f ||| (conv v).2) 0)

def State.runMst (s : State) (core : Nat) : State :=
  match s.headOf core 1 [.mst] with
  | none => s
  | some c =>
    let w := Shape.widthOf c.fmt / 8
    if c.state == .queued then s.startCopy core c (c.misaligned [(2, 3, w)])
    else if tileRows c.tile ≤ c.rprog then s.endCmd core c 0
    else
      s.classed core c fun s c =>
        let (vals, fl) := s.mstRow core c
        match s.takeRun core c true (shifted (c.reg 2) (c.rprog * c.stride 3)) (w * vals.length) with
        | (.error e, s) => s.failCmd core c e
        | (.ok l, s) =>
          (s.writeChunks core c l (vals.flatMap (Memory.toBytes w))).putCmd core
            { c with rprog := c.rprog + 1, flags := c.flags ||| fl, bytes := c.bytes + w * vals.length }

def execMstRun (core : Nat) (s : State) : Result := .next (s.engineTurn core 1 (·.runMst core))

/-! ### CPY and CPYR (R261, R262) -/

def Command.copyRows (c : Command) : Nat := if c.rows0 = 0 then 0 else c.count1 * c.count2

/-- The displacement of the row at hand. -/
def Command.rowShift (c : Command) (s1 s2 : Nat) : Int :=
  (c.rprog % c.count1 : Nat) * c.stride s1 + (c.rprog / c.count1 : Nat) * c.stride s2

/-- The accesses of the row at hand to its source and to its destination, where these are memory. -/
def State.copyRuns (s : State) (core : Nat) (c : Command) : Except EngineStop (List Chunk × List Chunk) × State :=
  let source := if c.m.testBit 0 then (.ok [], s) else s.checkRun core c false (shifted (c.reg 0) (c.rowShift 1 8)) c.rows0
  match source with
  | (.error e, s) => (.error e, s)
  | (.ok l, s) =>
    match (if c.m.testBit 1 then (.ok [], s) else s.checkRun core c true (shifted (c.reg 2) (c.rowShift 3 9)) c.rows0) with
    | (.error e, s) => (.error e, s)
    | (.ok m, s) => (.ok (l, m), s)

/-- The bytes of the row at hand. -/
def State.copySource (s : State) (core : Nat) (c : Command) (l : List Chunk) : List (BitVec 8) :=
  if c.m.testBit 0 then (s.core core).accBytes (((c.reg 0).toNat : Int) + c.rowShift 1 8).toNat c.rows0 else s.chunkBytes l

/-- One row of CPY, read whole in one step and then written (05 R118 note 1 orders none of its words against a concurrent store; DESIGN
CHOICE, log entry 77). -/
def State.copyRow (s : State) (core : Nat) (c : Command) : State :=
  match s.copyRuns core c with
  | (.error e, s) => s.failCmd core c e
  | (.ok (l, m), s) =>
    match s.heardAt core c l m with
    | (some e, s) => s.failCmd core c e
    | (none, s) =>
      let bytes := s.copySource core c l
      let on : Command := { c with rprog := c.rprog + 1, bytes := c.bytes + c.rows0 }
      if c.m.testBit 1 then
        (s.editCore core fun k => k.setAccBytes (((c.reg 2).toNat : Int) + c.rowShift 3 9).toNat bytes).putCmd core on
      else (s.writeChunks core c m bytes).putCmd core on

/-- R114: a CPY of no bytes is a zero-length write at DST, whose visibility time the committing strand takes. -/
def State.copyNothing (s : State) (core : Nat) (c : Command) : State :=
  if c.m.testBit 1 then s.endCmd core c 0
  else
    match s.engineChunk core c (c.reg 2) 0 true with
    | (.error e, s) => s.failCmd core c e
    | (.ok k, s) =>
      match s.heardAt core c [] [k] with
      | (some e, s) => s.failCmd core c e
      | (none, s) => (s.noteVt c.uid k.x.pa).endCmd core c 0

def State.runCopy (s : State) (core : Nat) : State :=
  match s.headOf core 1 [.cpy] with
  | none => s
  | some c =>
    if c.state == .queued then s.startCopy core c none
    else if c.copyRows ≠ 0 ∧ c.copyRows ≤ c.rprog then s.endCmd core c 0
    else s.classed core c fun s c => if c.copyRows = 0 then s.copyNothing core c else s.copyRow core c

def execCopyCommandRun (core : Nat) (s : State) : Result := .next (s.engineTurn core 1 (·.runCopy core))

/-- The value of a CPYR lands. -/
def State.landCpyr (s : State) (c : Command) (bytes : List (BitVec 8)) : State :=
  let v := Memory.ofBytes bytes
  if c.m = 1 then s.giveV c.uid c.dest (BitVec.ofNat 4096 v) c.fmt
  else s.editStrand c.uid fun st =>
    { st with x := st.x.setIfInBounds c.dest (BitVec.ofNat 64 v), xFull := st.xFull ||| (1#64 <<< c.dest) }

/-- R262: an uncorrectable error reads as zero and enters the error queue. -/
def State.runCpyr (s : State) (core : Nat) : State :=
  match s.headOf core 1 [.cpyr] with
  | none => s
  | some c =>
    let n := if c.m = 1 then 512 else 8
    match s.takeRun core c false c.addr n with
    | (.error (.fail 5 _ _ _), s) =>
      ((s.landCpyr c []).localError c.ctx c.addr 4 Cause.memoryUe c.sid).endCmd core c 0
    | (.error e, s) => s.failCmd core c e
    | (.ok l, s) => (s.landCpyr c (s.chunkBytes l)).endCmd core c 0

def execCpyrRun (core : Nat) (s : State) : Result := .next (s.engineTurn core 1 (·.runCpyr core))

/-! ### CPYROW (R263, 04 R112, R113) -/

/-- An operand of CPYROW: its address after the checks of R215, on a ROWMAP page. An uncorrectable error is met at its row. -/
def State.rowOperand (s : State) (core : Nat) (c : Command) (va : Word) (write : Bool) : Except EngineStop Xlat × State :=
  match s.checkRun core c write va c.rowBytes with
  | (.error e, s) => (.error (notRowmap s e), s)
  | (.ok l, s) =>
    match l with
    | k :: _ => if k.x.rmap then (.ok k.x, s) else (.error (.fail 9 Cause.protection 0x0B va), s)
    | [] => (.error (.fail 9 Cause.protection 0x0B va), s)
where
  /-- An operand that is not on a ROWMAP page ends with ROWMAP before any later check. -/
  notRowmap (s : State) (e : EngineStop) : EngineStop :=
    match (s.translate core c.ctx va (if write then .write else .read) (some c.kind.engine)).1 with
    | .ok x => if x.rmap then e else .fail 9 Cause.protection 0x0B va
    | .error _ => e

/-- Steps 1 and 2: dirty copies of the source go home, and the lines of both are held. -/
def State.holdRows (s : State) (core : Nat) (c : Command) (src dst : Nat) : State :=
  let from_ := if c.isFill then [] else linesOfRun src c.rowBytes
  let s := from_.foldl (fun s l => s.cleanOwner (s.leafIdOf core) l) s
  { s with frozen := s.frozen ++ from_, busy := s.busy ++ linesOfRun dst c.rowBytes }

/-- What a CPYROW asks of the homes of its lines, and of the table entry of a first write. Between stacks its lines pass the slices as CPY's
do and take tokens; inside a stack none does (04 R110, R112; DEDUCED, log entry 39). A fill has no source. -/
def State.rowAsks (s : State) (core : Nat) (c : Command) (src : Option Xlat) (dst : Xlat) : List (Requester × Nat × List Ask × Bool) :=
  let mesh : Bool := match src with | some x => rowPath false x.pa dst.pa == .mesh | none => false
  let asks (x : Xlat) (takes : Option Bool) : List Ask :=
    (linesOfRun x.pa c.rowBytes).map fun l => { line := l, slice := if mesh then some x.tid else none, takes := takes }
  [(.engine core 1, c.ctx, (src.map fun x => asks x none).getD [], false), (.engine core 1, c.ctx, asks dst (some true), true),
   (.engine core 1, c.ctx, s.dirtyAsks core c.ctx (c.reg 2) (some 1), true)]

/-- The start of a CPYROW: the command is classified once its destination base translates (04 R105), and goes on when no home holds its
lines back. -/
def State.startRow (s : State) (core : Nat) (c : Command) : State :=
  let size := c.rowBytes
  let bad := ((if c.isFill then [c.reg 2] else [c.reg 0, c.reg 2])).find? fun a => a.toNat % size != 0
  if !s.mayStart core c then s
  else
    match bad with
    | some a => s.failCmd core c (.fail 6 Cause.alignment 0 a)
    | none =>
      let source : Except EngineStop (Option Xlat) × State :=
        if c.isFill then (.ok none, s)
        else
          match s.rowOperand core c (c.reg 0) false with
          | (.ok x, s) => (.ok (some x), s)
          | (.error e, s) => (.error e, s)
      match source with
      | (.error e, s) => s.failCmd core c e
      | (.ok src, s) =>
        match s.rowOperand core c (c.reg 2) true with
        | (.error e, s) => s.failCmd core c e
        | (.ok dst, s) =>
          let from_ := (src.map (·.pa)).getD 0
          let on : Command := { c with state := .running, path := some 2, row := BitVec.ofNat 64 from_, addr := BitVec.ofNat 64 dst.pa }
          let s := if c.path.isSome then s else s.putCmd core on
          match s.askEach (s.rowAsks core c src dst) with
          | (some w, s) => s.failCmd core on (waitStop w).2.2
          | (none, s) =>
            ((s.markDirty core c.ctx (c.reg 2) (some 1)).holdRows core c from_ dst.pa).putCmd core { on with holds := some c.rprog }

/-- Step 3 for one row; the full/empty bits go with the data, and a fill leaves them full (04 R100). -/
def State.copyMapRow (s : State) (core : Nat) (c : Command) : State :=
  let dst := c.rowDest + 2048 * c.rprog
  let src := c.rowSource + 2048 * c.rprog
  let bytes := if c.isFill then List.replicate 2048 0 else Memory.getBytes s.mem src 2048
  let whole := wordsOfRun dst 2048
  let full := (List.range 256).map fun i => c.isFill || s.isFull (src + 8 * i)
  let s := { s with mem := Memory.setBytes s.mem dst bytes, poison := s.poison.filter fun p => !whole.contains p }
  let s := (full.zip (List.range 256)).foldl (fun s (b, i) => s.markFull (dst + 8 * i) b) s
  s.putCmd core { c with rprog := c.rprog + 1, bytes := c.bytes + 2048 }

def State.runRow (s : State) (core : Nat) : State :=
  match s.headOf core 1 [.cpyrow] with
  | none => s
  | some c =>
    if c.holds.isNone then s.startRow core c
    else if c.rprog * 2048 < c.rowBytes then
      match s.firstPoison (c.rowSource + 2048 * c.rprog) 2048, c.isFill with
      | some w, false => s.failCmd core c (.fail 5 Cause.memoryUe 0 (c.reg 0 + BitVec.ofNat 64 (8 * w - c.rowSource)))
      | _, _ => s.copyMapRow core c
    else s.endCmd core c 0

def execCpyrowRun (core : Nat) (s : State) : Result := .next (s.engineTurn core 1 (·.runRow core))

/-! ### CBOOK (R264, 03 R72) -/

def State.runBook (s : State) (core : Nat) : State :=
  match s.headOf core 0 [.cbook] with
  | none => s
  | some c =>
    if c.state == .queued then
      s.startCmd core c (if (c.reg 9).toNat % 64 != 0 then some (c.reg 9) else none) .running
    else
      match s.takeRun core c false (c.reg 9) 2048 with
      | (.error e, s) => s.failCmd core c e
      | (.ok r, s) =>
        let l := s.chunkElems 4 512 r
        let put (m : SMap (BitVec 32)) (e : Nat × Nat) : SMap (BitVec 32) :=
          if e.1 % 2 ^ 17 = 0 then m else Sparse.put m e.2 (BitVec.ofNat 32 (e.1 % 2 ^ 17))
        let book := (l.zip (List.range 512)).foldl put []
        (s.editCore core fun k => { k with codebook := book }).endCmd core { c with bytes := 2048 } 0

def execCbookRun (core : Nat) (s : State) : Result := .next (s.engineTurn core 0 (·.runBook core))

end Sys2Proof.Machine
end

