-- ==== Sys2Proof/Machine/Deque.lean ====
section
/-!
DEFINITION. Finish scopes, populations, continuation records and deques (02 R52 to R57, 13 R288 to R292, 22 R366).
-/

namespace Sys2Proof.Machine

/-! ### Finish scopes (R57, R292) -/

/-- Scope 0 is always open; a scope that a context's table does not list is FREE. -/
def Ctx.scope (c : Ctx) (n : Nat) : Scope := (Sparse.get c.scopes n).getD ⟨if n = 0 then .opened else .free, 0, 0⟩

def State.scopeOf (s : State) (ctx n : Nat) : Scope :=
  match s.ctx? ctx with
  | some c => c.scope n
  | none => ⟨.free, 0, 0⟩

def State.setScope (s : State) (ctx n : Nat) (x : Scope) : State :=
  s.editCtx ctx fun c => { c with scopes := if x.state == .free then Sparse.erase c.scopes n else Sparse.put c.scopes n x }

/-- A count of 48 bits goes up. -/
def State.scopeUp (s : State) (ctx n : Nat) : State :=
  let x := s.scopeOf ctx n
  s.setScope ctx n { x with count := (x.count + 1) % 2 ^ 48 }

/-- The strands that wait in FINW on a scope. -/
def State.wakeScope (s : State) (ctx n : Nat) : State :=
  s.strands.foldl (fun s e => if e.2.await == .scopeZero ctx n then s.wake e.1 else s) s

/-- A count goes down; at 0 every FINW on the scope wakes, and an ENDED scope is freed. -/
def State.scopeDown (s : State) (ctx n : Nat) : State :=
  let x := s.scopeOf ctx n
  if x.state == .free then s
  else
    let k := (x.count + 2 ^ 48 - 1) % 2 ^ 48
    let s := s.setScope ctx n { x with count := k }
    if k != 0 then s
    else
      let s := s.wakeScope ctx n
      if x.state == .ended then s.setScope ctx n { x with state := .free, count := 0 } else s

/-! ### Populations (R291) -/

def State.popUp (s : State) (lrec : Nat) : State := s.editLaunch lrec fun l => { l with pop := l.pop + 1 }
def State.popDown (s : State) (lrec : Nat) : State := s.editLaunch lrec fun l => { l with pop := l.pop - 1 }

/-! ### Continuation records (R52) -/

/-- The eight words of a record. -/
def Cont.words (c : Cont) (v : Bool) : List Nat :=
  [(if v then 2 ^ 63 else 0) + (if c.stolen then 2 ^ 62 else 0) + field c.pc 47 2 * 4, c.fp.toNat,
   c.lrec % 1024 * 2 ^ 48 + c.scope % 256 * 2 ^ 40 + c.item % 2 ^ 40] ++
  (List.range 5).map fun i => (c.xsave.getD i 0).toNat

/-- The record in eight words. -/
def contOf (w : List Word) : Cont :=
  let w0 := w.getD 0 0
  let w2 := w.getD 2 0
  { pc := BitVec.ofNat 64 (field w0 47 2 * 4), fp := w.getD 1 0, lrec := field w2 57 48, scope := field w2 47 40,
    item := field w2 39 0, stolen := w0.getLsbD 62, xsave := (w.drop 3).take 5 }

/-- The eight words at a physical address. -/
def State.wordsAt (s : State) (pa n : Nat) : List Word := (List.range n).map fun i => s.word (pa + 8 * i)

/-! ### Deques (R54, R55, R366) -/

/-- The address of a record in a context's deque spill area. -/
def Ctx.spillAddr (c : Ctx) (group i : Nat) : Word := BitVec.ofNat 64 (field c.dsb 63 16 * 65536 + 512 * group + 64 * i)

/-- A free group, while the quota is not spent: which one nothing states, the lowest is taken (DESIGN CHOICE, log entry 9). -/
def Ctx.freeGroup (c : Ctx) : Option Nat := (List.range (field c.dsb 15 0)).find? fun g => !c.groups.contains g

/-- What became of a push. -/
inductive Pushed where
  | done | spent
  | wait (a : Await)
  deriving DecidableEq, Repr

/-- A run of bytes of one page that the issuing strand, or unit `unit` of a core, writes (`write`) or reads at a virtual address of a context
outside its ordinary accesses: translated and checked, and heard at its home (04 R94, R110, R113), where the copies of the line hear of it
(10 R457). -/
def State.unitPlace (s : State) (core ctx : Nat) (unit : Option Nat) (va : Word) (n : Nat) (write : Bool) : Except Problem Nat × State :=
  let who := s.asker core none unit
  let notes (r : Except Problem Nat × State) : Except Problem Nat × State :=
    match who with
    | .unit k => State.unitNotes k r
    | _ => r
  notes <|
    match (if write then s.translateStore core ctx va none unit else s.translate core ctx va .read none unit) with
    | (.error p, s) => (.error p, s)
    | (.ok x, s) =>
      if s.foreignScratch core none x.pa then (.error (.trap Cause.protection 0x05 va), s)
      else if s.tierDown x.pa then (.error (.trap Cause.memoryUe 37 va), s)
      else if s.poisoned x.pa n then (.error (.trap Cause.memoryUe 0 va), s)
      else
        match s.askHome who ctx (s.unitAsks core ctx va x n write false) write with
        | (some a, s) => (.error (.wait a), s)
        | (none, s) =>
          let s := if write then s.markDirty core ctx va else s
          (.ok x.pa, (linesOfRun x.pa n).foldl
            (fun s l => s.homeStep (s.pathOf x == .coherent) (!write) (s.leafIdOf core) (l * 128)) s)

/-- The 8 oldest entries of a core's deque go to a free group of a context, as one write; none of it happens where the write
fails. `sid` is the strand that pushes. Entries of several contexts go to the pusher's (DESIGN CHOICE, log entry 72). -/
def State.spillDeque (s : State) (core ctx sid : Nat) (unit : Option Nat) : Pushed × State :=
  match s.ctx? ctx with
  | none => (.spent, s)
  | some c =>
    match c.freeGroup with
    | none => (.spent, s)
    | some g =>
      let va := c.spillAddr g 0
      let oldest := (s.core core).deque.take 8
      match s.unitPlace core ctx unit va 512 true with
      | (.error (.wait a), s) => (.wait a, s)
      | (.error (.trap cause extra _), s) => (.spent, s.localError ctx va 8 (if extra = 37 then 37 else cause) sid)
      | (.ok pa, s) =>
        let words := oldest.flatMap fun e => e.cont.words true
        let s := { s with mem := Memory.setBytes s.mem pa (words.flatMap (Memory.toBytes 8)) }.written pa 512
        let s := s.editCtx ctx fun c => { c with groups := insertNat c.groups g }
        let recs := (oldest.zip (List.range 8)).map fun (e, i) => SpillRec.mk ctx g i e.cont.lrec e.cont.item
        (.done, s.editCore core fun k => { k with deque := k.deque.drop 8, spilled := k.spilled ++ recs })

/-- A push at the near end of a core's deque for a context, by the issuing strand or by unit `unit` (R54, R55). -/
def State.pushCont (s : State) (core ctx sid : Nat) (e : DqEntry) (unit : Option Nat := none) : Pushed × State :=
  let push (s : State) : State := s.editCore core fun k => { k with deque := k.deque ++ [e] }
  if (s.core core).deque.length < 64 then (.done, push s)
  else
    match s.spillDeque core ctx sid unit with
    | (.done, s) => (.done, push s)
    | r => r

/-- A group is free once none of its records is left in memory. -/
def State.releaseGroup (s : State) (ctx group : Nat) : State :=
  if s.cores.any fun e => e.2.spilled.any fun r => r.ctx == ctx && r.group == group then s
  else s.editCtx ctx fun c => { c with groups := removeNat c.groups group }

/-- Where a record in memory lies, if unit `unit` can read it and clear its V bit now. -/
def State.recordAt (s : State) (core unit : Nat) (r : SpillRec) : Option Nat × State :=
  match s.ctx? r.ctx with
  | none => (none, s)
  | some c =>
    match s.unitPlace core r.ctx (some unit) (c.spillAddr r.group r.index) 64 true with
    | (.error _, s) => (none, s)
    | (.ok pa, s) => (some pa, s)

/-- A record in memory is picked up: V is cleared in its copy (R53). -/
def State.takeRecord (s : State) (core : Nat) (r : SpillRec) (pa : Nat) : State :=
  let s := s.storeAt pa 8 (s.load pa 8 % 2 ^ 63)
  (s.editCore core fun k => { k with spilled := k.spilled.erase r }).releaseGroup r.ctx r.group

/-- The newest entry with a slot's tag (R289). A record in memory has none, so it is no such entry (DEDUCED, log entry 44). -/
def State.newestOwn (s : State) (core slot : Nat) : Option DqEntry :=
  (s.core core).deque.reverse.find? fun e => e.tag == some slot

/-- Take the newest entry with a slot's tag off the deque. -/
def dropNewest (slot : Nat) (l : List DqEntry) : List DqEntry :=
  let r := l.reverse
  let i := r.findIdx fun e => e.tag == some slot
  (r.eraseIdx i).reverse

/-- The oldest entry of a launch on a core, memory records first, taken off (R56). A record that cannot be read is left. -/
def State.takeOldest (s : State) (core lrec : Nat) : Option Cont × State :=
  match (s.core core).spilled.find? fun r => r.lrec == lrec with
  | some r =>
    match s.recordAt core (coreUnit core) r with
    | (none, s) => (none, s)
    | (some pa, s) => (some { contOf (s.wordsAt pa 8) with stolen := true }, s.takeRecord core r pa)
  | none =>
    match (s.core core).deque.find? fun e => e.cont.lrec == lrec with
    | none => (none, s)
    | some e =>
      (some { e.cont with stolen := true }, s.editCore core fun k => { k with deque := k.deque.erase e })

/-- Whether a launch has a continuation in a deque or a deque spill area (R56). -/
def State.held (s : State) (lrec : Nat) : Bool :=
  s.cores.any fun e => (e.2.deque.any fun d => d.cont.lrec == lrec) || e.2.spilled.any fun r => r.lrec == lrec

/-! ### Pickup (R53) -/

/-- A strand with the registers that R53 gives a continuation. -/
def State.ofCont (s : State) (c : Cont) : Strand :=
  let base := match s.launch? c.lrec with
    | some l => Strand.blank.ofLaunch c.lrec l
    | none => { Strand.blank with lrec := c.lrec }
  { base with
    pc := c.pc, item := c.item, scope := c.scope
    x := Vector.ofFn fun i =>
      if i.val = 0 then BitVec.ofNat 64 c.item
      else if i.val ≤ 5 then c.xsave.getD (i.val - 1) 0
      else if i.val = 45 || i.val = 47 then c.fp
      else 0 }

end Sys2Proof.Machine
end

