-- ==== Sys2Proof/Machine/Mailbox.lean ====
section
/-!
DEFINITION. What a module does to its own memory for another unit of a context: the target's checks of a remote operation (24
R413), and the match table (02 R60, 24 R415).
-/

namespace Sys2Proof.Machine

/-! ### The target's checks (R413) -/

/-- An access lies in the ranges of a running launch of the context, or in an exempt area. -/
def State.declaredIn (s : State) (ctx va n : Nat) (write : Bool) : Bool :=
  let dsb := ((s.ctx? ctx).map (·.dsb)).getD 0
  inArea (field dsb 63 16 * 65536) (field dsb 15 0 * 512) va n ||
  s.launches.any fun e =>
    e.2.ctx == ctx && e.2.state != .pending &&
    (blocksOf va n).all fun b => e.2.ranges.any fun r => r.covers b && (r.write || !write)

/-- The core of a scratchpad lies in a leaf of the context. -/
def State.inLeaves (s : State) (ctx core : Nat) : Bool :=
  match s.ctx? ctx with
  | some c => s.leaves.any fun l => c.bound.contains l.node.leafId && l.node.hasCore core
  | none => false

/-- The protection of step 2 on a translated address; a demoted unit's frame has a tier fault (23 R394). -/
def State.targetOutside (s : State) (ctx : Nat) (c : Check) (x : Xlat) (va : Word) : Option Problem :=
  let mgmt := 0xFFFFF80000 ≤ x.pa && x.pa < 0x10000000000 && (x.pa - 0xFFFFF80000) / 128 != ctx
  let zone := zoneOf s.tierCap x.pa
  let outside := match zone with
    | .scratch o => !s.inLeaves ctx o
    | .tier => c.bits
    | .host => c.bits || c.atomic
    | _ => c.write && mgmt
  if outside then
    match if zone == .tier then s.demotedUnit x.pa else none with
    | some (ctx, e) => some (.wait (.tier ctx e))
    | none => some (.trap Cause.protection 0 va)
  else none

/-- Step 2 for an access of a context. -/
def State.targetXlat (s : State) (ctx : Nat) (c : Check) (va : Word) : Except Problem Xlat × State :=
  let core := s.agentCore ctx
  let first := s.translate core ctx va c.acc
  let last := if c.acc == .write && first.2.staleEntry core ctx va none
    then (first.2.forget core ctx va none).translate core ctx va c.acc else first
  match last with
  | (.error p, s) => (.error p, s)
  | (.ok x, s) =>
    match s.targetOutside ctx c x va with
    | some p => (.error p, s)
    | none => (.ok x, s)

/-- Step 2 for `k` words from an address upward, the first with its own check. -/
def State.targetXlats (s : State) (ctx : Nat) (first : Check) : Nat → Word → Except Problem (List Xlat) × State
  | 0, _ => (.ok [], s)
  | k + 1, va =>
    match s.targetXlat ctx first va with
    | (.error p, s) => (.error p, s)
    | (.ok x, s) =>
      match State.targetXlats s ctx (Check.store 8) k (va + 8) with
      | (.ok l, s) => (.ok (x :: l), s)
      | r => r

/-- Step 3 for the translated words, the first of `n` bytes. -/
def State.targetUndeclared (s : State) (ctx : Nat) (c : Check) (n : Nat) : List Xlat → Word → Bool
  | [], _ => false
  | x :: xs, va =>
    (!s.isScratch x.pa && !s.declaredIn ctx va.toNat n c.write) || State.targetUndeclared s ctx (Check.store 8) 8 xs (va + 8)

/-- Step 4. -/
def targetMisaligned (c : Check) : Nat → Word → Bool
  | 0, _ => false
  | k + 1, va => va.toNat % c.align != 0 || targetMisaligned (Check.store 8) k (va + 8)

/-- The checks 2 to 4 of R413 of `k` words from an address upward, each for the whole packet before the next; the first word, of `n`
bytes, has its own check. -/
def State.targetWords (s : State) (ctx : Nat) (first : Check) (n k : Nat) (va : Word) : Except Problem (List Xlat) × State :=
  match s.targetXlats ctx first k va with
  | (.error p, s) => (.error p, s)
  | (.ok xs, s) =>
    if s.targetUndeclared ctx first n xs va then (.error (.trap Cause.undeclared 0 va), s)
    else if targetMisaligned first k va then (.error (.trap Cause.alignment 0 va), s)
    else (.ok xs, s)

/-- What an operation asks of the lines of its words. -/
def State.asksOf (s : State) (c : Check) (xs : List Xlat) : List Ask :=
  (xs.map fun x => s.askOf x false (if c.bits && !c.write then none else some c.write)).eraseDups

/-- The addresses of `k` words. -/
def wordVas (k : Nat) (va : Word) : List Word := (List.range k).map fun i => va + BitVec.ofNat 64 (8 * i)

/-- THE TARGET'S CHECKS of an operation on `k` words, then what its homes make it wait for (04 R110, 05 R124); a write sets D bits (04
R94). -/
def State.targetAccess (s : State) (who : Requester) (ctx : Nat) (first : Check) (n k : Nat) (va : Word) :
    Except Problem (List Xlat) × State :=
  match s.targetWords ctx first n k va with
  | (.error p, s) => (.error p, s)
  | (.ok xs, s) =>
    let core := s.agentCore ctx
    let vas := if first.acc == .write then wordVas k va else []
    let dirty := (vas.flatMap fun v => s.dirtyAsks core ctx v).eraseDups
    match s.askEach [(who, ctx, s.asksOf first xs, first.write), (who, ctx, dirty, true)] with
    | (some w, s) => (.error (.wait w.2.2), s)
    | (none, s) => (.ok xs, vas.foldl (fun s v => s.markDirty core ctx v) s)

/-- Words written at their homes for another module; their copies go, the words have no writer here (05 R136), and watchers fire (10
R234). -/
def State.putWords (s : State) (leaf : Option Nat) : List (Xlat × Word) → State
  | [] => s
  | (x, v) :: l =>
    let s := s.homeStep (s.pathOf x == .coherent) false leaf x.pa
    State.putWords ((((s.store x.pa 8 v.toNat).clearPoison x.pa).eraseStamp (x.pa / 8)).written x.pa 8) leaf l

/-- TIERLINK among the causes of R416. -/
def causeTierlink : Nat := 37

/-- A failure response (R413, R416). -/
def State.refusePacket (s : State) (p : Packet) (cause : Nat) : State :=
  (s.streamNext p).respond 0x12 p (BitVec.ofNat 64 cause) []

/-- The stream of a packet, as one who asks at a home. -/
def askerOf (p : Packet) : Requester := .stream p.src p.strand p.epoch

/-- The operation of a stream waits at a home, behind those that wait there. -/
def State.standStream (s : State) (p : Packet) (a : Await) : State :=
  { s with
    streams := s.streams.map fun r =>
      if r.src == p.src && r.strand == p.strand && r.epoch == p.epoch then { r with queued := a.stand r.queued s.order } else r
    order := s.order + 1 }

/-! ### The match table (R60, 13 R296) -/

/-- The armed entry of a context with a tag on a board. -/
def State.matchOf (s : State) (ctx board tag : Nat) : Option (Nat × Match) :=
  s.matches_.find? fun e => e.1 / 1024 == board && e.2.ctx == ctx && e.2.tag == tag && e.2.got < e.2.len

/-- A complete entry reads its record, pushes it and is free. It stays where the deque has no room (R55), and where the record
cannot be read, to be tried again (DESIGN CHOICE, log entry 73). -/
def State.fireMatch (s : State) (key : Nat) : State :=
  match Sparse.get s.matches_ key with
  | none => s
  | some m =>
    if m.got < m.len then s
    else
      match s.unitPlace (s.agentCore m.ctx) m.ctx (some (matchUnit key)) m.cont 64 false with
      | (.error _, s) => s
      | (.ok pa, s) =>
        match s.pushCont m.core m.ctx m.sid { cont := contOf (s.wordsAt pa 8), tag := none, byItem := false } (some (matchUnit key)) with
        | (.done, s) => { s with matches_ := Sparse.erase s.matches_ key }
        | (_, s) => s

/-- A packet of a tag meets its entry (R60, R415). False where its buffer's homes make it wait. -/
def State.deliverTag (s : State) (key : Nat) (m : Match) (p : Packet) : Bool × State :=
  let off := field p.addr 63 32
  let n := 8 * p.words.length
  if m.len < off + n then (true, s.refusePacket p 36)
  else
    match s.targetAccess (askerOf p) m.ctx (Check.store 8) 8 p.words.length (m.buf + BitVec.ofNat 64 off) with
    | (.error (.trap cause _ _), s) => (true, s.refusePacket p cause)
    | (.error (.wait a), s) => (false, s.standStream p a)
    | (.ok xs, s) =>
      if xs.any fun x => s.tierDown x.pa then (true, s.refusePacket p causeTierlink) else
      let s := s.putWords (s.jobLeaf p.job) (xs.zip p.words)
      let vt := xs.foldl (fun (v : BitVec 32) x => if v < s.vtOf x.pa then s.vtOf x.pa else v) 0
      let s := (s.streamNext p).respond 0x11 p (vt.zeroExtend 64) []
      let s := { s with matches_ := Sparse.put s.matches_ key { m with got := m.got + n } }
      (true, s.fireMatch key)

/-- The unexpected-packet buffer of a board. -/
def State.unexpectedOf (s : State) (board : Nat) : List Packet := (Sparse.get s.unexpected board).getD []

def State.setUnexpected (s : State) (board : Nat) (l : List Packet) : State :=
  { s with unexpected := if l.isEmpty then Sparse.erase s.unexpected board else Sparse.put s.unexpected board l }

/-- The armed entry that a packet of a board's buffer meets. -/
def State.matchFor (s : State) (board : Nat) (p : Packet) : Option (Nat × Match) :=
  (s.jobCtx p.job).bind fun ctx => s.matchOf ctx board (field p.addr 31 0)

/-- The packets of a board's buffer whose tags have armed entries, in arrival order (R415): a packet behind one that waits stays with it. -/
def State.takeUnexpected (s : State) (board : Nat) : State :=
  go s (s.unexpectedOf board)
where
  go (s : State) : List Packet → State
    | [] => s
    | p :: l =>
      match s.matchFor board p with
      | none => go s l
      | some (key, m) =>
        match s.deliverTag key m p with
        | (false, s) => s
        | (true, s) => go (s.setUnexpected board ((s.unexpectedOf board).erase p)) l

end Sys2Proof.Machine
end

