-- ==== Sys2Proof/Machine/MemInstr.lean ====
section
/-!
DEFINITION. Ordinary loads and stores, synchronising accesses and cache control, OP 0x80 to 0x86 and 0x89 to 0x8B (10 R217 to
R219, R223, 04 R100, R101).
-/

namespace Sys2Proof.Machine

/-- The address a + off (R214). -/
def address (f : Fields) (scale : Nat) : Act Word := do
  let a ← operandX false f.a f.ta
  pure (a + memOffset f scale)

/-- R217: the value of a load of `n` bytes. -/
def extended (signed : Bool) (n : Nat) (v : Nat) : Word :=
  if signed then BitVec.ofInt 64 (toSigned (8 * n) v) else BitVec.ofNat 64 v

def execLd (f : Fields) (s : State) : Result :=
  (issue .access f do
    let n := 2 ^ (f.m.toNat % 4)
    let va ← address f n
    let x ← checkAccess (Check.load n) va n
    let bytes ← loadBytes x va n
    writeX f.d.toNat (extended (f.m.getLsbD 2) n (Memory.ofBytes bytes))
    finishReply f).outcome s

def execSt (f : Fields) (s : State) : Result :=
  (issue .access f do
    let n := 2 ^ (f.m.toNat % 4)
    let v ← readX f.d.toNat
    let va ← address f n
    let x ← checkAccess (Check.store n) va n
    storeBytes x va (Memory.toBytes n v.toNat)
    finishReply f).outcome s

/-! ### Synchronising accesses (R219, R100, R101) -/

def WaitKind.isRead : WaitKind → Bool
  | .ldf => true
  | .lds => true
  | .barw _ => true
  | .barAdd _ => true
  | _ => false

/-- The first attempt of an access at its home: done in one step if its wait is met, retried or listed otherwise. -/
def startWait (f : Fields) (kind : WaitKind) (x : Xlat) (va : Word) : Act Unit := do
  let u ← me
  let st ← self
  let acc ← inAccess
  editS fun s => { s with order := s.order + 1 }
  let s ← readS id
  let coherent := s.pathOf x == .coherent
  let w : Waiter :=
    { no := s.order, uid := u, access := acc, addr := x.pa, kind := kind, dest := f.d.toNat, tries := 0, listed := false, len := lenOf f,
      va := va, coherent := coherent }
  if kind.met s x.pa then
    if kind.isRead && s.poisoned x.pa 8 then trapWord Cause.memoryUe va
    let stay ← stateS fun s =>
      let (s, stay, wrote) := s.completeWaiter w
      (stay, if wrote then s.written x.pa 8 else s)
    match stay with
    | none => park .reply
    | some w =>
      editS fun s => { s with waiters := s.waiters ++ [{ w with listed := true }] }
      park .syncWord
  else if st.feRetry.toNat % 256 = 0 then
    editS fun s => { s with waiters := s.waiters ++ [{ w with listed := true }] }
    park .syncWord
  else
    editS fun s => { s with waiters := s.waiters ++ [w] }
    park .retries

def syncLoad (f : Fields) (kind : WaitKind) (reads : Bool) (k : Klass) : Act Unit :=
  issue k f do
    let va ← address f 8
    let x ← checkAccess (Check.sync reads) va 8
    startWait f kind x va

def execLdf (f : Fields) (s : State) : Result := (syncLoad f .ldf true .access).outcome s
def execLds (f : Fields) (s : State) : Result := (syncLoad f .lds false .access).outcome s

def execSts (f : Fields) (s : State) : Result :=
  (issue .neither f do
    let v ← readX f.d.toNat
    let va ← address f 8
    let x ← checkAccess (Check.sync false) va 8
    startWait f (.sts v) x va).outcome s

/-- A FEW of the OP word of a management slot makes its strand the requester of the slot's command (22 R354, R355). -/
def State.noteRequest (s : State) (u pa : Nat) : State :=
  if 0xFFFFF80000 ≤ pa && pa < 0x10000000000 && pa % 128 == 0 then
    { s with requesters := Sparse.put s.requesters ((pa - 0xFFFFF80000) / 128) u }
  else s

/-- STE and FEW: the word is written and its bit set, in one step at the home. -/
def writeWithBit (f : Fields) (full : Bool) : Act Unit :=
  issue .neither f do
    let u ← me
    let st ← self
    let v ← readX f.d.toNat
    let va ← address f 8
    let x ← checkAccess (Check.sync false) va 8
    editS fun s =>
      let s := s.homeStep (s.pathOf x == .coherent) false (s.leafIdOf st.core) x.pa
      let s := ((s.store x.pa 8 v.toNat).clearPoison x.pa).markFull x.pa full
      let s := if full then s.noteRequest u x.pa else s
      ((s.noteVt u x.pa).release u).written x.pa 8
    finishReply f

def execSte (f : Fields) (s : State) : Result := (writeWithBit f false).outcome s
def execFew (f : Fields) (s : State) : Result := (writeWithBit f true).outcome s

/-! ### Cache control (R223) -/

/-- The address of a PREF, which never waits for a register: none where xA or its forwarding entry is empty. Reading that entry is a tempo
read, which terminates an item above the break index (12 R285). -/
def peekAddress (f : Fields) : Act (Option Word) := do
  let st ← self
  let l ← readS (·.launch? st.lrec)
  let off := memOffset f 8
  if f.ta != 0 then
    match l.bind fun l => l.tempoIndex st.isItem false f.a.toNat f.ta.toNat with
    | none => pure none
    | some j =>
      if ← readS (·.broken st) then terminate
      pure ((Sparse.get st.fwd (fwdKey f.ta.toNat j)).map fun v => v.bits.truncate 64 + off)
  else
    noteSlow (slowX f.a.toNat)
    pure (if bit64 st.xFull f.a.toNat then some ((st.x[f.a.toNat]?).getD 0 + off) else none)

/-- The request of a PREF on a line that its home slice holds. -/
def State.prefetch (s : State) (m core line : Nat) (path : Path) : State :=
  match m, path with
  | 1, _ => s
  | _, .managed => s.swmFill core line
  | 0, _ => if (s.l1 core line).isNone then s.request core line .getS else s
  | _, _ =>
    match (s.l1 core line).map (·.state) with
    | some Moesi.modified => s
    | some Moesi.exclusive => s
    | some Moesi.shared => s.request core line .upgrade
    | _ => s.request core line .getM

/-- PREF: every failure drops the request, and so does a wait at the home (DESIGN CHOICE, log entry 71). -/
def execPref (f : Fields) (s : State) : Result :=
  (issue .neither f do
    let st ← self
    match ← peekAddress f with
    | none => pure ()
    | some va =>
      match ← stateS (fun s => s.accessProblem st ⟨1, .read, false, false, false, true⟩ va 1) with
      | .error _ => pure ()
      | .ok x =>
        let line := lineOf x.pa
        let s ← readS id
        let away := x.mig && s.migrateTarget st.lrec x.pa != st.core
        let plainZone := zoneOf s.tierCap x.pa == .hbm || zoneOf s.tierCap x.pa == .tier
        if !away && plainZone && !x.mside then
          match ← stateS (fun s => s.askHome .issuer st.ctx [s.askOf x false none] false) with
          | some _ => pure ()
          | none => editS fun s => if s.l2Holds line then s.prefetch f.m.toNat st.core line (s.pathOf x) else s
    finish f).outcome s

/-- The dirty data of the core's own copy goes home: M becomes E, O becomes S. -/
def State.flushOwn (s : State) (core line : Nat) : State :=
  match s.l1 core line with
  | none => s
  | some l =>
    if l.swm.isSome then s.swmWriteBack core line
    else if (s.ownerOf line) == some core then s.cleanOwner (s.leafIdOf core) line
    else s

/-- The line leaves the core's instruction cache with its start bits, and its constant cache (06 R155, R156). -/
def State.dropInstr (s : State) (core line : Nat) : State :=
  s.editCore core fun k =>
    { k with icache := k.icache.filter (fun e => e.1 / 4096 != line), ccache := k.ccache.filter (fun e => e / 4096 != line) }

/-- A SWMANAGED copy goes with its dirty bytes, a COHERENT one as an eviction (05 R125), and with it a request for its line that a PREF has
pending. -/
def State.dropOwn (s : State) (core line : Nat) : State :=
  match s.l1 core line with
  | none => s
  | some l => if l.swm.isSome then s.swmDrop core line else (s.dropRequest core line).putLine core line

/-- The core's copy of a line holds data that its home lacks. -/
def State.holdsDirty (s : State) (core line : Nat) : Bool :=
  match s.l1 core line with
  | none => false
  | some l =>
    match l.swm with
    | some (_, mask) => mask != 0
    | none => l.state == .modified || l.state == .owned

/-- A line that the core does not hold dirty asks nothing of its home. -/
def cacheLine (f : Fields) (act : Nat → Nat → State → State) : Act Unit :=
  issue .neither f do
    let st ← self
    let va ← address f 8
    let x ← checkPlace ⟨1, .read, false, false, false, true⟩ va 1
    let dirty ← readS fun s => s.holdsDirty st.core (lineOf x.pa)
    heedHome [(← readS fun s => s.askOf x (!dirty) none)] dirty
    editS (act st.core (lineOf x.pa))
    finishReply f

def execCflush (f : Fields) (s : State) : Result := (cacheLine f fun c l s => s.flushOwn c l).outcome s

def execCinv (f : Fields) (s : State) : Result :=
  (cacheLine f fun c l s =>
    let s := match s.l1 c l with
      | some k => if k.swm.isSome then s else s.flushOwn c l
      | none => s
    (s.dropOwn c l).dropInstr c l).outcome s

end Sys2Proof.Machine
end

