-- ==== Sys2Proof/Machine/Remote.lean ====
section
/-!
DEFINITION. Remote operations at their source (10 R220 to R222, R228, 24 R403, R404, R411, R414, R420): LDX, STX and what a
remote atomic sends.
-/

namespace Sys2Proof.Machine

/-! ### Jobs (24 R402, R403) -/

/-- The valid JOB entry of a context. -/
def State.jobOf (s : State) (ctx : Nat) : Option Word :=
  s.jobs.toList.find? fun e => e.getLsbD 63 && field e 55 44 == ctx

/-- The module's own system number. -/
def State.selfModule (s : State) : Nat :=
  bitsOf s.syspos.toNat 5 3 + 8 * (bitsOf s.syspos.toNat 9 6 + 16 * bitsOf s.syspos.toNat 14 10)

/-- The system number of module `n` of a job, if the job has it (R404). -/
def jobModule (e : Word) (n : Nat) : Option Nat :=
  let z := 2 ^ field e 40 38
  if n < 8 * 2 ^ (field e 40 38 + field e 43 41) then
    some (n % 8 + 8 * (field e 32 29 + n / 8 % z + 16 * (field e 37 33 + n / 8 / z)))
  else none

/-- The causes 33 and 34 of R416. -/
def causeUnreachable : Nat := 33
def causeNoctx : Nat := 34

/-- R404: the job and the system number that a module number of the context stands for, or the cause of the failure. -/
def State.reach (s : State) (ctx n : Nat) : Except Nat (Nat × Nat) :=
  match s.jobOf ctx with
  | none => .error causeNoctx
  | some e =>
    match jobModule e n with
    | none => .error causeUnreachable
    | some m => .ok (field e 15 0, m)

/-! ### Leased copies (05 R130) -/

/-- A line of the virtual addresses of a job's module. -/
def leaseKey (job m va : Nat) : Nat := (va / 128 * 4096 + m) * 65536 + job

/-- The unexpired copy of a word. -/
def State.leasedWord (s : State) (job m va : Nat) : Option Word :=
  match Sparse.get s.leased (leaseKey job m va) with
  | some (e, bytes) =>
    if s.leaseClock.toNat < e then some (BitVec.ofNat 64 (Memory.ofBytes ((bytes.drop (va % 128)).take 8))) else none
  | none => none

/-- R414: the copy of a line is dropped. -/
def State.dropLeased (s : State) (job m va : Nat) : State :=
  { s with leased := Sparse.erase s.leased (leaseKey job m va) }

/-! ### Sending -/

/-- R220, R411, R420: the wrap pause of its job and the 64 operations of a stream hold an operation back. -/
def waitToSend (job m : Nat) : Act Unit := do
  let u ← me
  if ← readS fun s => (Sparse.get s.pausing job).isSome then park .pause
  if 64 ≤ (← readS fun s => s.unackedTo u m) then park (.window m)

/-- A packet of the issuing strand's stream to a module, kept until its response (R407, R411). -/
def sendPacket (f : Fields) (ty job m : Nat) (addr : Word) (mode board : Nat) (aux : Word) (words : List Word) : Act Unit := do
  let u ← me
  let st ← self
  let acc ← inAccess
  editS fun s =>
    let seq := (Sparse.get st.streamSeq m).getD 0
    let p : Packet :=
      { dst := m, src := s.selfModule, job := job, seq := seq, addr := addr, mode := mode, board := board,
        strand := st.sid, epoch := st.epoch, aux := aux, words := words }
    let s := s.setStrand u { st with streamSeq := Sparse.put st.streamSeq m ((seq + 1) % 65536) }
    { s with outbox := s.outbox ++ [(ty, p)]
             sent := s.sent ++ [{ ty := ty, packet := p, uid := u, dest := f.d.toNat, len := lenOf f, access := acc, dropped := false }] }

/-- What the issuing module checks of the address (R220). -/
def checkRemote (va : Word) (n : Nat) : Act Unit := do
  if va.toNat % n != 0 then trapWord Cause.alignment va
  if 2 ^ 57 ≤ va.toNat then trapAt Cause.protection 0x01 va

/-- A plain read that asks for no lease says so in its payload (DESIGN CHOICE, log entry 25). -/
def execLdx (f : Fields) (s : State) : Result :=
  (issue .access f do
    let st ← self
    let a ← operandX false f.a f.ta
    let b ← operandB f
    let va := a + imm20Offset f
    checkRemote va 8
    match (← readS id).reach st.ctx (b.toNat % 4096) with
    | .error c => trapAt Cause.remoteLoadFail c va
    | .ok (job, m) =>
      waitToSend job m
      let leases := f.m == 0 && f.h != 3
      let copy ← readS fun s => if leases then s.leasedWord job m va.toNat else none
      match copy with
      | some v =>
        writeX f.d.toNat v
        finishReply f
      | none =>
        sendPacket f 0x01 job m va f.m.toNat 0 0 (if f.m == 0 && f.h == 3 then [3] else [])
        park .packet).outcome s

def execStx (f : Fields) (s : State) : Result :=
  (issue .neither f do
    let u ← me
    let st ← self
    let v ← readX f.d.toNat
    let a ← operandX false f.a f.ta
    let b ← operandB f
    let va := a + imm20Offset f
    checkRemote va 8
    let n := b.toNat % 4096
    match (← readS id).reach st.ctx n with
    | .error c => editS fun s => s.errorEntry (some u) st.ctx va n 1 c st.sid
    | .ok (job, m) =>
      waitToSend job m
      editS fun s => s.dropLeased job m va.toNat
      sendPacket f 0x02 job m va f.m.toNat 0 0 [v]
    finish f).outcome s

/-- A remote atomic (R228): the target in xE, the mode in IMM20, the operands b, c and d as payload. -/
def remoteAtomic (f : Fields) (op n : Nat) (va b c d : Word) : Act Unit := do
  let st ← self
  let e ← readX f.e.toNat
  checkRemote va n
  match (← readS id).reach st.ctx (e.toNat % 4096) with
  | .error k => trapAt Cause.remoteLoadFail k va
  | .ok (job, m) =>
    waitToSend job m
    editS fun s => s.dropLeased job m va.toNat
    sendPacket f 0x03 job m va (f.imm20.toNat % 8) 0 (BitVec.ofNat 64 (op * 256 + f.m.toNat * 8 + f.x.toNat)) [b, c, d]
    park .packet

end Sys2Proof.Machine
end

