-- ==== Sys2Proof/Machine/Tempo.lean ====
section
/-!
DEFINITION. Tempo forwarding, the ordered break and VREL, OP 0xB5 to 0xB7 and 0x6F (12 R277 to R286, 08 R201).
-/

namespace Sys2Proof.Machine

/-! ### The break index (R284 to R286) -/

/-- R285. -/
def heedBreak : Act Unit := do
  let st ← self
  if ← readS (·.broken st) then terminate

/-- The cores of the rectangle that have not recorded the index. -/
def State.unrecorded (s : State) (lrec : Nat) : List Nat :=
  match s.launch? lrec with
  | none => []
  | some l => l.rect.cores.filter fun c => s.recordedBreak c lrec != l.brk

/-- A core records the index (R284); a strand above it that waits on a tempo read is terminated at once (R285). A stopped context's cores
record when it runs again (02 R63). -/
def State.recordBreak (s : State) (core lrec : Nat) : State :=
  match s.launch? lrec with
  | none => s
  | some l =>
    if !l.rect.hasCore core || s.recordedBreak core lrec == l.brk || s.isStopped l.ctx then s
    else
      let s := s.editCore core fun k => { k with brk := Sparse.put k.brk lrec l.brk }
      let reads (a : Await) : Bool := match a with | .forward _ _ => true | _ => false
      let ends (st : Strand) : Bool :=
        st.lrec == lrec && l.brk < st.item &&
        ((st.state == .parked && reads st.await) || (match st.region with | some g => g.blocked.any reads | none => false))
      (s.strandsOf core).foldl (fun s e => if ends e.2 then s.endStrand e.1 13 else s) s

def execBreakIndexRecord (core lrec : Nat) (s : State) : Result := .next (s.recordBreak core lrec)

def execBrko (f : Fields) (s : State) : Result :=
  (issue .neither f (do
    let st ← self
    editS fun s => s.editLaunch st.lrec fun l => { l with brk := min l.brk st.item, brko := true }
    if !(← readS (·.unrecorded st.lrec)).isEmpty then parkBehind f (.recorded st.lrec)
    finish f)).outcome s

def execTidx (f : Fields) (s : State) : Result :=
  (fixed .access f (do
    let st ← self
    writeX f.d.toNat (BitVec.ofNat 64 (← readS fun s => s.recordedBreak st.core st.lrec)))).outcome s

/-! ### Exports (R278, R280) -/

def windowKey (item j : Nat) : Nat := item % 4 * 4 + j

/-- Whether an item of a launch has been placed and lives. -/
def State.itemStrand (s : State) (lrec item : Nat) : Option Nat :=
  (s.strands.find? fun e => e.2.isItem && e.2.lrec == lrec && e.2.item == item).map (·.1)

/-- R280 steps 2 and 3: the window takes the value, and it is sent to the items already placed. The value of a later item stays in the
position, since every reader of the earlier one has been placed (R44, R278). -/
def State.makeExport (s : State) (u j : Nat) (v : FwdVal) : State :=
  match s.strand? u with
  | none => s
  | some st =>
    let s := s.editLaunch st.lrec fun l =>
      let readers := ((List.range l.maxd).map (· + 1)).filter fun d => (s.itemStrand st.lrec (st.item + d)).isSome
      let later : Bool := match Sparse.get l.window (windowKey st.item j) with | some (k, _) => st.item < k | none => false
      { l with window := if later then l.window else Sparse.put l.window (windowKey st.item j) (st.item, v)
               flight := l.flight ++ readers.map fun d => { item := st.item + d, d := d, j := j, value := v } }
    s.editStrand u fun st => { st with exported := st.exported ||| (1#4 <<< j) }

/-- The register of an export; a strand without a vector context exports zero (R280). One read from the vector spill record costs no turn (01
R27; DESIGN CHOICE, log entry 86). -/
def exportValue (e : Export) : Act FwdVal := do
  if e.isV then
    let st ← self
    match st.vec with
    | none => pure ⟨0, 0⟩
    | some v =>
      noteSlow (slowV e.reg && !v.spilled)
      if v.vFull.getLsbD e.reg then pure ⟨(v.v[e.reg]?).getD 0, (v.tag[e.reg]?).getD 0⟩ else park (.fullV e.reg)
  else pure ⟨(← readX e.reg).zeroExtend 4096, 0⟩

/-- The exports that a predicate names and the item has not made, in ascending order. -/
def makeExports (which : Nat → Export → Bool) : List Export → Nat → Act Unit
  | [], _ => pure ()
  | e :: es, j => do
    let u ← me
    let st ← self
    if which j e && !st.exported.getLsbD j then
      let v ← exportValue e
      editS fun s => s.makeExport u j v
    makeExports which es (j + 1)

/-- The exports of the issuing strand's launch. -/
def exportsOf : Act (List Export) := do
  let st ← self
  readS fun s => ((s.launch? st.lrec).map (·.exports)).getD []

def execTexp (f : Fields) (s : State) : Result :=
  (issue .neither f (do
    let st ← self
    let es ← exportsOf
    if es.isEmpty || 2 ^ es.length ≤ f.m.toNat || !st.isItem then illegalForm
    heedBreak
    makeExports (fun j _ => f.m == 0 || f.m.getLsbD j) es 0
    finish f)).outcome s

/-- Every export that the item has not made (R290 step 1). -/
def finalExports : Act Unit := do
  let st ← self
  if st.isItem then makeExports (fun _ _ => true) (← exportsOf) 0

/-- 08 R201. -/
def execVrel (f : Fields) (s : State) : Result :=
  (issue .neither f (do
    let u ← me
    let st ← self
    if st.vec.isSome then
      if ← readS fun s => s.landing u true then park (.landings true)
      let es ← exportsOf
      let due := st.isItem && ((es.zip (List.range es.length)).any fun e => e.1.isV && !st.exported.getLsbD e.2)
      if due then
        heedBreak
        makeExports (fun _ e => e.isV) es 0
      editSelf Strand.dropVec
    finish f)).outcome s

/-! ### Buffers (R278, R283) -/

/-- The buffer of item `i` at its placement. -/
def Launch.buffer (l : Launch) (i : Nat) : SMap FwdVal :=
  let entry (d j : Nat) (e : Export) : Option FwdVal :=
    if i < d then some ⟨e.defaults.getD (d - 1) 0, e.tag⟩
    else
      match Sparse.get l.window (windowKey (i - d) j) with
      | some (k, v) => if k = i - d then some v else none
      | none => none
  (List.range l.maxd).foldl (fun m d0 =>
    (l.exports.zip (List.range l.exports.length)).foldl (fun m e =>
      match entry (d0 + 1) e.2 e.1 with
      | some v => Sparse.put m (fwdKey (d0 + 1) e.2) v
      | none => m) m) []

/-- A delivery lands, wherever the item is; the entry of a full buffer never changes (R279). -/
def State.deliverTempo (s : State) (lrec item d j : Nat) : State :=
  match (s.launch? lrec).bind fun l => l.flight.find? fun v => v.item == item + d && v.d == d && v.j == j with
  | none => s
  | some v =>
    let s := s.editLaunch lrec fun l => { l with flight := l.flight.erase v }
    match s.itemStrand lrec (item + d) with
    | none => s
    | some u => s.editStrand u fun st =>
        if (Sparse.get st.fwd (fwdKey d j)).isSome then st else { st with fwd := Sparse.put st.fwd (fwdKey d j) v.value }

def execTempoDelivery (lrec item d j : Nat) (s : State) : Result := .next (s.deliverTempo lrec item d j)

end Sys2Proof.Machine
end

