-- ==== Sys2Proof/Machine/Tasks.lean ====
section
/-!
DEFINITION. Spawning and ending, finish scopes, suspending, migration, arrival tasks and messages, OP 0xB8 to 0xBD, and EXIT and
YIELD, OP 0xDE (13 R288 to R297).
-/

namespace Sys2Proof.Machine

/-! ### Spawning and ending (R288 to R291) -/

/-- The continuation behind the instruction: PC pc+len, FP x45, x1 to x5. -/
def hereCont (f : Fields) : Act Cont := do
  let st ← self
  let pc ← thisPc
  let fp ← readX 45
  let x1 ← readX 1
  let x2 ← readX 2
  let x3 ← readX 3
  let x4 ← readX 4
  let x5 ← readX 5
  pure { pc := pc + lenWord f, fp := fp, lrec := st.lrec, scope := st.scope, item := st.item, stolen := false,
         xsave := [x1, x2, x3, x4, x5] }

def execSpawn (f : Fields) (s : State) : Result :=
  (issue .neither f do
    let u ← me
    let st ← self
    let t := (← thisPc) + off22 f
    checkTarget t
    let c ← hereCont f
    match ← stateS (fun s => s.pushCont st.core st.ctx st.sid { cont := c, tag := some st.slotNo, byItem := st.isItem }) with
    | .wait a => park a
    | .done =>
      editS fun s => (s.scopeUp st.ctx st.scope).popUp st.lrec
      writeX 46 c.pc
    | .spent => writeX 46 (c.pc + 1)
    editS fun s => s.release u
    jumpTo t).outcome s

/-- EXIT (R290). An item above the recorded break index ends without exports (12 R285). -/
def exitStrand : Act Unit := do
  let u ← me
  let st ← self
  if !(← readS (·.broken st)) then finalExports
  editS fun s => s.endStrand u 13
  stopWith .done

def execExit (f : Fields) (s : State) : Result := (issue .neither f exitStrand).outcome s

/-- The parent's continuation takes the slot of its child under R53, as another strand: what is on its way into the child is discarded (11
R259, R262). The item strand that popped its own entry stays that item strand (12 R282); the records of R313 and the stepping go on. -/
def State.resumeParent (s : State) (u : Nat) (st : Strand) (e : DqEntry) : State :=
  let s := s.leavePosition u 13
  let free (g : Engine) : Engine := if g.claim == some u then { g with claim := none } else g
  let s := s.editCore st.core fun k =>
    { k with mx := free k.mx, ce := free k.ce, deque := dropNewest st.slotNo k.deque }
  let base := s.ofCont e.cont
  let mine := e.byItem && st.isItem && e.cont.lrec == st.lrec && e.cont.item == st.item
  let n : Strand :=
    { base with
      isItem := mine, fwd := if mine then st.fwd else [], exported := if mine then st.exported else 0
      frSeq := st.frSeq, stepping := st.stepping }
  let (v, s) := s.newUid
  let follow (x : Strand) : Strand :=
    if x.await == .stepped u then { x with await := .stepped v, queued := x.queued.map fun q => (strandPlace v, q.2) } else x
  let s := { s with strands := Sparse.mapVals (fun _ => follow) (Sparse.erase s.strands u) }
  (s.popDown st.lrec).place v st.core st.slotNo n

def execExitChild (f : Fields) (s : State) : Result :=
  (issue .neither f do
    let u ← me
    let st ← self
    let t ← readX 46
    if t.getLsbD 0 then transfer (t - 1)
    else
      let entry ← readS fun s => s.newestOwn st.core st.slotNo
      match entry with
      | some e =>
        if field e.cont.pc 47 2 == field t 47 2 then
          editS fun s => (s.scopeDown st.ctx st.scope).resumeParent u st e
          stopWith .done
        else ends st
      | none => ends st).outcome s
where
  /-- The decrement, and EXIT. It all happens once the exports can be made. -/
  ends (st : Strand) : Act Unit := do
    if !(← readS (·.broken st)) then finalExports
    editS fun s => s.scopeDown st.ctx st.scope
    exitStrand

/-- RUN to READY, behind every READY strand of the class (R291, 01 R29). -/
def State.yield_ (s : State) (u : Nat) : State := s.leave u .ready .reply 15

def execYield (f : Fields) (s : State) : Result :=
  (issue .neither f do
    let u ← me
    finish f
    editS fun s => s.yield_ u).outcome s

/-! ### Finish scopes (R292) -/

def execFinb (f : Fields) (s : State) : Result :=
  (fixed .neither f do
    let st ← self
    let s ← readS id
    match ((List.range 256).drop 1).find? fun n => (s.scopeOf st.ctx n).state == .free with
    | none => writeX f.d.toNat (BitVec.ofNat 64 (2 ^ 63 + 1))
    | some n =>
      editS fun s => s.setScope st.ctx n ⟨.opened, 0, st.scope⟩
      editSelf fun st => { st with scope := n }
      writeX f.d.toNat (BitVec.ofNat 64 n)).outcome s

def execFine (f : Fields) (s : State) : Result :=
  (fixed .neither f do
    let st ← self
    if st.scope == 0 then illegalForm
    let x ← readS fun s => s.scopeOf st.ctx st.scope
    editS fun s => s.setScope st.ctx st.scope { x with state := if x.count = 0 then .free else .ended }
    editSelf fun st => { st with scope := x.parent }).outcome s

/-- FINW. -/
def execFinw (f : Fields) (s : State) : Result :=
  (issue .neither f do
    let st ← self
    let a ← operandX false f.a f.ta
    let n := field a 7 0
    let x ← readS fun s => s.scopeOf st.ctx n
    if x.state != .free && x.count != 0 then parkBehind f (.scopeZero st.ctx n)
    finish f).outcome s

/-! ### Suspending and resuming (R293, R294) -/

/-- The store of a record, checked and performed as one. -/
def Check.record : Check := ⟨64, .write, false, false, true, true⟩

def execSusp (f : Fields) (s : State) : Result :=
  (issue .neither f do
    let u ← me
    let st ← self
    let a ← operandX false f.a f.ta
    let c ← hereCont f
    if st.vec.isSome || !st.loops.isEmpty then trapPlain Cause.migrateState
    let x ← checkAccess Check.record a 64
    if ← readS fun s => s.pathOf x == .coherent then heedRace x a 64
    finalExports
    storeBytes x a ((c.words true).flatMap (Memory.toBytes 8))
    editS fun s => s.endStrand u 13 false
    stopWith .done).outcome s

/-- Whether a record's launch is a running one of a context whose rectangle holds the core (R294). -/
def State.inRange (s : State) (ctx lrec core : Nat) : Bool :=
  match s.launch? lrec with
  | some l => l.ctx == ctx && l.state != .pending && l.rect.hasCore core
  | none => false

def execResm (f : Fields) (s : State) : Result :=
  (issue .neither f do
    let u ← me
    let st ← self
    let a ← operandX false f.a f.ta
    let b ← operandX false f.b f.tb
    let x ← checkAccess ⟨64, .write, false, true, true, true⟩ a 64
    heedPoison x.pa 64 a
    syncLine x false
    let core := field b 12 0
    let w ← readS fun s => s.wordsAt x.pa 8
    let c := contOf w
    let code : Nat ←
      if !(w.getD 0 0).getLsbD 63 then pure 1
      else if !(← readS fun s => s.inRange st.ctx c.lrec core) then pure 2
      else do
        match ← stateS (fun s => s.pushCont core st.ctx st.sid { cont := c, tag := none, byItem := false }) with
        | .wait w => park w
        | .spent => pure 3
        | .done =>
          editS fun s => (s.storeAt x.pa 8 (s.load x.pa 8 % 2 ^ 63)).noteVt u x.pa
          pure 0
    writeX f.d.toNat (BitVec.ofNat 64 (if code = 0 then 0 else 2 ^ 63 + code))
    finishReply f).outcome s

/-! ### Migration, arrival tasks and messages (R295 to R297) -/

def execMigr (f : Fields) (s : State) : Result :=
  (issue .neither f do
    let st ← self
    let a ← operandX false f.a f.ta
    match ← stateS (fun s => s.translate st.core st.ctx a .read) with
    | .error p => raise p
    | .ok x =>
      let t ← readS fun s => s.migrateTarget st.lrec x.pa
      if t != st.core then migrate t ((← thisPc) + lenWord f) false
    finish f).outcome s

/-- A descriptor of ARMT (R296), if no field is broken. -/
def matchFields (w : List Word) : Option (Nat × Nat × Nat × Word × Word) :=
  let w0 := w.getD 0 0
  let w1 := w.getD 1 0
  let cont := w.getD 3 0
  if field w0 63 45 != 0 || field w1 63 40 != 0 || field w1 39 0 == 0 || field cont 5 0 != 0 then none
  else some (field w0 44 32, field w0 31 0, field w1 39 0, w.getD 2 0, cont)

/-- The lowest free entry of a board's match table, while a context's share is not used up. -/
def State.freeMatch (s : State) (ctx board : Nat) : Option Nat :=
  let share := ((s.ctx? ctx).map (·.matchLimit)).getD 0
  let used := (s.matches_.filter fun e => e.1 / 1024 == board && e.2.ctx == ctx).length
  if share ≤ used then none else (List.range 1024).find? fun i => (Sparse.get s.matches_ (board * 1024 + i)).isNone

def execArmt (f : Fields) (s : State) : Result :=
  (issue .neither f do
    let st ← self
    let a ← operandX false f.a f.ta
    let x ← checkAccess (Check.load 32) a 32
    let bytes ← loadBytes x a 32
    let w := (List.range 4).map fun i => BitVec.ofNat 64 (Memory.ofBytes ((bytes.drop (8 * i)).take 8))
    let s ← readS id
    let fail (code : Nat) : Act Unit := writeX f.d.toNat (BitVec.ofNat 64 (2 ^ 63 + code))
    match matchFields w, s.launch? st.lrec with
    | some (core, tag, len, buf, cont), some l =>
      let board := boardOf core
      let armed := s.matches_.any fun e => e.1 / 1024 == board && e.2.ctx == st.ctx && e.2.tag == tag
      if !l.rect.hasCore core || armed then fail 2
      else
        match s.freeMatch st.ctx board with
        | none => fail 1
        | some i =>
          let m : Match :=
            { ctx := st.ctx, sid := st.sid, lrec := st.lrec, core := core, tag := tag, len := len, got := 0, buf := buf, cont := cont }
          editS fun s =>
            let s := s.popUp st.lrec
            { s with matches_ := Sparse.put s.matches_ (board * 1024 + i) m }.takeUnexpected board
          writeX f.d.toNat (BitVec.ofNat 64 i)
    | _, _ => fail 2
    finishReply f).outcome s

def execMsg (f : Fields) (s : State) : Result :=
  (issue .neither f do
    let u ← me
    let st ← self
    let a ← operandX false f.a f.ta
    let b ← operandX false f.b f.tb
    let c ← readX f.c.toNat
    let n := field b 24 16
    let tag := f.m.getLsbD 3
    need (8 ≤ n && n ≤ 256 && n % 8 == 0 && (tag || field b 14 12 == 0)) illegalForm
    let words := n / 8
    if a.toNat % 8 != 0 then trapWord Cause.alignment a
    if !tag then checkRemote c 8
    let (got, _) ← gatherElems 64 false (List.replicate words true)
      ((List.range words).map fun i => a + BitVec.ofNat 64 (8 * i))
    let m := field b 11 0
    match (← readS id).reach st.ctx m with
    | .error k => editS fun s => s.errorEntry (some u) st.ctx c m 2 k st.sid
    | .ok (job, sys) =>
      waitToSend job sys
      sendPacket f (if tag then 5 else 4) job sys c (f.m.toNat % 8) (if tag then field b 14 12 else 0) 0
        (got.map fun e => BitVec.ofNat 64 e.2)
    editS fun s => s.release u
    finish f).outcome s

end Sys2Proof.Machine
end

