-- ==== Sys2Proof/Machine/Launching.lean ====
section
/-!
DEFINITION. LAUNCH, TRIGGER and WAITP, OP 0xBE and 0xBF (02 R35 to R49, 12 R277, 13 R298, R299).
-/

namespace Sys2Proof.Machine

/-! ### The launch parameter block (R35 to R38, R40) -/

/-- 64 bytes at a 64-byte-aligned address, read as LAUNCH reads its blocks: no declared range is checked (05 R134), and a MIGRATE page moves
the strand (R59). -/
def launchLine (va : Word) : Act (List (BitVec 8)) := do
  let st ← self
  match ← stateS (fun s => s.translate st.core st.ctx va .read) with
  | .error p => raise p
  | .ok x =>
    match ← readS fun s => s.regionProblem st (Check.load 64) x va 64 with
    | some p => raise p
    | none => pure ()
    heedMigrate x
    heedHome [(← readS fun s => s.askOf x (s.l1 st.core (lineOf x.pa)).isSome (some false))] false
    match ← readS (·.pathOf x) with
    | .managed =>
      if ← readS fun s => s.tierDown x.pa && (s.l1 st.core (lineOf x.pa)).isNone then trapAt Cause.memoryUe 37 va
      heedWord (← readS fun s => s.swmPoison st.core x.pa 64 fun _ => true) x.pa va
      readS fun s => s.swmRead st.core x.pa 64
    | _ =>
      heedPoison x.pa 64 va
      readS fun s => Memory.getBytes s.mem x.pa 64

/-- `n` such blocks from an address upward. -/
def launchLines : Nat → Word → Act (List (BitVec 8))
  | 0, _ => pure []
  | n + 1, va => do
    let b ← launchLine va
    pure (b ++ (← launchLines n (va + 64)))

/-- `k` words of a list of bytes. -/
def wordsFrom (k : Nat) (b : List (BitVec 8)) : List Word :=
  (List.range k).map fun i => BitVec.ofNat 64 (Memory.ofBytes ((b.drop (8 * i)).take 8))

/-- Word `i` of the block, by its offset divided by 8. -/
def lpbWord (b : List Word) (i : Nat) : Word := b.getD i 0

/-- The rectangle of the SHAPE word. -/
def lpbRect (b : List Word) : Rect := rectOf (lpbWord b 0).toNat

def lpbNexp (b : List Word) : Nat := field (lpbWord b 5) 5 3
def lpbMaxd (b : List Word) : Nat := field (lpbWord b 5) 2 1
def lpbSlots (b : List Word) : Nat := field (lpbWord b 0) 35 27

/-- The TEMPO word meets R38. -/
def tempoWordOk (b : List Word) : Bool :=
  let t := lpbWord b 5
  field t 63 57 == 0 && !t.getLsbD 0 && lpbNexp b ≤ 4 && (if lpbNexp b = 0 then lpbMaxd b == 0 else 1 ≤ lpbMaxd b)

/-- The range entries: base, and word 1. -/
def lpbRanges (b : List Word) : List (Word × Word) := (List.range 8).map fun i => (lpbWord b (16 + 2 * i), lpbWord b (17 + 2 * i))

/-- R41, order 1, but for the tempo descriptor. -/
def shapeOk (b : List Word) : Bool :=
  let sh := lpbWord b 0
  let it := lpbWord b 1
  let r := lpbRect b
  field sh 63 39 == 0 && field it 63 59 == 0 && 1 ≤ lpbSlots b && lpbSlots b ≤ 256 && field sh 26 21 ≤ 40 && r.aligned &&
  r.onModule && (field sh 20 19 != 3 || r.lw == r.lh) && field (lpbWord b 2) 1 0 == 0 && field (lpbWord b 2) 63 48 == 0 &&
  field (lpbWord b 3) 63 57 == 0 && field (lpbWord b 3) 7 0 == 0 && field (lpbWord b 4) 63 57 == 0 &&
  field (lpbWord b 4) 2 0 == 0 && tempoWordOk b && (lpbRanges b).all fun e => field e.2 61 48 == 0

/-- R41, order 3. -/
def rangesOk (b : List Word) : Bool :=
  (lpbRanges b).all fun e => !e.2.getLsbD 63 || (field e.2 47 0 != 0 && e.1.toNat + field e.2 47 0 ≤ 2 ^ 57)

/-- The valid entries. -/
def rangesOf (b : List Word) : List Range :=
  ((lpbRanges b).filter fun e => e.2.getLsbD 63).map fun e => ⟨e.1.toNat, field e.2 47 0, e.2.getLsbD 62⟩

/-! ### The tempo descriptor (12 R277) -/

/-- An export entry of the descriptor, before its defaults are read. -/
structure ExportWord where
  isV : Bool
  reg : Nat
  tag : Nat
  addr : Word
  ok : Bool

def exportWord (w0 w1 : Word) : ExportWord :=
  let isV := w0.getLsbD 7
  let reg := field w0 5 0
  let tag := field w0 15 12
  { isV := isV, reg := reg, tag := tag, addr := w1
    ok := field w0 63 16 == 0 && field w0 11 8 == 0 && !w0.getLsbD 6 && (!isV || reg < 32) &&
          (if isV then tag < 14 else tag == 0) && field w1 5 0 == 0 }

/-- No two entries name one register. -/
def distinctExports : List ExportWord → Bool
  | [] => true
  | e :: l => !(l.any fun d => d.isV == e.isV && d.reg == e.reg) && distinctExports l

/-- The descriptor meets R277. -/
def tempoOk (b : List Word) (es : List ExportWord) : Bool :=
  es.all (·.ok) && distinctExports es && lpbSlots b * lpbMaxd b * (es.filter (·.isV)).length ≤ 24

/-- The defaults of an entry, one for each distance. -/
def readDefaults (maxd : Nat) (e : ExportWord) : Act Export := do
  let w := if e.isV then 512 else 8
  let bytes ← launchLines ((w * maxd + 63) / 64) e.addr
  pure { isV := e.isV, reg := e.reg, tag := BitVec.ofNat 4 e.tag
         defaults := (List.range maxd).map fun i => BitVec.ofNat 4096 (Memory.ofBytes ((bytes.drop (w * i)).take w)) }

def readAllDefaults (maxd : Nat) : List ExportWord → Act (List Export)
  | [] => pure []
  | e :: l => do
    let x ← readDefaults maxd e
    pure (x :: (← readAllDefaults maxd l))

/-- The exports of a block, or none where the descriptor breaks R277. Nothing is read unless TEMPO has exports and meets
R38. -/
def readTempoBlock (b : List Word) : Act (Option (List Export)) := do
  if !tempoWordOk b || lpbNexp b == 0 then pure (some [])
  else
    let d := wordsFrom 8 (← launchLine (lpbWord b 5 &&& ~~~(0x3F : Word)))
    let es := (List.range (lpbNexp b)).map fun j => exportWord (d.getD (2 * j) 0) (d.getD (2 * j + 1) 0)
    if tempoOk b es then pure (some (← readAllDefaults (lpbMaxd b) es)) else pure none

/-! ### Acceptance (R39, R41, R46) -/

/-- The lowest-numbered record that is free (R39). -/
def State.freeRecord (s : State) : Option Nat := (List.range 1024).find? fun i => (s.launch? i).isNone

/-- The records that count against a quota class of a context. -/
def State.classUse (s : State) (ctx q : Nat) : Nat := (s.launches.filter fun e => e.2.ctx == ctx && e.2.qclass == q).length

/-- The status of R41, 0 where the launch is accepted. -/
def State.launchStatus (s : State) (st : Strand) (b : List Word) (tempo : Option (List Export)) : Nat :=
  if !shapeOk b || tempo.isNone || (s.scopeOf st.ctx (field (lpbWord b 1) 47 40)).state != .opened then 1
  else if !s.mayLaunch st.auth.toList st.ctx (lpbRect b) then 2
  else if !rangesOk b then 3
  else
    let q := field (lpbWord b 1) 51 48
    let lim := ((s.ctx? st.ctx).map fun c => (c.qlim[q]?).getD 0).getD 0
    if lim ≤ s.classUse st.ctx q || s.freeRecord.isNone then 4 else 0

/-- The producer handles that are not zero. -/
def lpbProducers (b : List Word) : List Nat :=
  [field (lpbWord b 6) 31 0, field (lpbWord b 6) 63 32, field (lpbWord b 7) 31 0, field (lpbWord b 7) 63 32].filter (· != 0)

/-- The record of an accepted launch. -/
def lpbLaunch (u : Nat) (st : Strand) (seq : Nat) (a : Word) (b : List Word) (tempo : List Export) (since : Nat) (now : Word) : Launch :=
  let sh := lpbWord b 0
  let it := lpbWord b 1
  { ctx := st.ctx, seq := seq, lpb := a, rect := lpbRect b, order := field sh 20 19, swz := field sh 26 21,
    slots := lpbSlots b, prio := field sh 37 36, gmbt := sh.getLsbD 38, nitems := field it 39 0, fscope := field it 47 40,
    qclass := field it 51 48, role := field it 58 52, entry := lpbWord b 2, kaddr := lpbWord b 3, cword := lpbWord b 4,
    producers := lpbProducers b, args := (List.range 8).map fun i => lpbWord b (8 + i), ranges := rangesOf b,
    maxd := lpbMaxd b, exports := tempo, auth := st.auth, callerSid := st.sid, swBase := st.swBase, swLen := st.swLen, state := .pending,
    since := since, pended := 0, pendFrom := now, caller := u, callerAuth := st.auth, next := 0, pop := 0,
    brk := field it 39 0 - 1, brko := false, triggered := [], waited := [], window := [], flight := [] }

/-- A launch takes a record: its finish scope counts it, and no core has recorded a break of it. -/
def State.addLaunch (s : State) (i : Nat) (l : Launch) : State :=
  let s := s.scopeUp l.ctx l.fscope
  let s := s.editCtx l.ctx fun c => { c with launchSeq := if c.launchSeq = 2 ^ 22 - 1 then 1 else c.launchSeq + 1 }
  { s with launches := Sparse.put s.launches i l, order := s.order + 1
           cores := Sparse.mapVals (fun _ k => { k with brk := Sparse.erase k.brk i }) s.cores }

/-! ### Completion (R50, 13 R291) -/

/-- The last placed item has exited. -/
def Launch.complete (l : Launch) : Bool :=
  l.nitems == 0 || (l.state != .pending && l.brk < l.next && l.pop == 0)

/-- The completion word. -/
def Launch.wordValue (l : Launch) : Nat :=
  if l.brko then 2 ^ 56 + (l.brk + 1) % 2 ^ 40 else l.nitems % 2 ^ 40

def State.producersDone (s : State) (l : Launch) : Bool := l.producers.all fun h => (s.byHandle l.ctx h).isNone

/-- The count and the record are released, and launches leave gambit state (R49). -/
def State.releaseRecord (s : State) (lrec : Nat) (l : Launch) : State :=
  let s := { s with launches := Sparse.erase s.launches lrec }.scopeDown l.ctx l.fscope
  { s with launches := Sparse.mapVals (fun _ l =>
      if l.inGambit && s.producersDone l then { l with state := .running false } else l) s.launches }

/-- Where the report's copy lies: between the boot tables and the management area (25 R429). -/
def reportAddr : Nat := 0xFFFF800000 + 64 * (Config.reportSlot % 122880)

/-- The boot launch's completion word is in the report that BAR0 holds as well (25 R426, R429; DEDUCED, log entry 37). -/
def State.bootWordDone (s : State) (l : Launch) : State :=
  if l.ctx == 0 && l.caller == 0 && l.cword == BitVec.ofNat 64 (reportAddr + 0x38) then
    { s with report := ⟨s.report.words.setIfInBounds 7 (BitVec.ofNat 64 l.wordValue)⟩ }
  else s

/-- A completion word of record `lrec` written by the arbiter, which an uncorrectable error at the word makes fail. -/
def State.agentWord (s : State) (lrec ctx : Nat) (va : Word) (v : Nat) : Except Problem Unit × State :=
  let core := s.agentCore ctx
  let n := launchUnit lrec
  State.unitNotes n <|
    match s.unitSite core ctx n none va true true with
    | (.error p, s) => (.error p, s)
    | (.ok x, s) =>
      if s.poisoned x.pa 8 then (.error (.trap Cause.memoryUe 0 va), s) else s.unitWrite core ctx n none va [v] (some true)

/-- R50, once every store has replied. A word whose unit moves or whose line is held is written later, and a context that is clock-stopped
completes nothing (R63). -/
def State.finishLaunch (s : State) (lrec : Nat) : State :=
  match s.launch? lrec with
  | none => s
  | some l =>
    if !l.complete || s.halted l.ctx then s
    else if l.cword == 0 then s.releaseRecord lrec l
    else
      match s.agentWord lrec l.ctx l.cword l.wordValue with
      | (.ok _, s) => (s.bootWordDone l).releaseRecord lrec l
      | (.error (.trap cause _ _), s) => (s.localError l.ctx l.cword 7 cause l.callerSid).releaseRecord lrec l
      | (.error (.wait _), s) => s

/-- A launch with n = 0 completes at once (R41). -/
def State.finishEmpty (s : State) (lrec : Nat) : State :=
  match s.launch? lrec with
  | some l => if l.nitems == 0 then s.finishLaunch lrec else s
  | none => s

def execLaunch (f : Fields) (s : State) : Result :=
  (issue .neither f do
    let u ← me
    let st ← self
    let a ← operandX false f.a f.ta
    if a.toNat % 64 != 0 then trapWord Cause.alignment a
    let b := wordsFrom 32 (← launchLines 4 a)
    let tempo ← readTempoBlock b
    let s ← readS id
    let code := s.launchStatus st b tempo
    match code, s.freeRecord with
    | 0, some i =>
      let seq := ((s.ctx? st.ctx).map (·.launchSeq)).getD 1
      editS fun s => (s.addLaunch i (lpbLaunch u st seq a b (tempo.getD []) s.order s.gclk)).finishEmpty i
      writeX f.d.toNat (BitVec.ofNat 64 (seq * 1024 + i))
    | _, _ => writeX f.d.toNat (BitVec.ofNat 64 (2 ^ 63 + code))
    editS fun s => s.release u
    finishReply f).outcome s

/-! ### Gambit starts (R49) -/

/-- The launch records and items of the continuations that a core holds, in its deque, in its arrival queue and in memory. -/
def Core.contItems (k : Core) : List (Nat × Nat) :=
  k.deque.map (fun e => (e.cont.lrec, e.cont.item)) ++
  (k.arrivals.filterMap fun | .cont c => some (c.lrec, c.item) | .strand _ => none) ++ k.spilled.map fun r => (r.lrec, r.item)

/-- R49: every item up to the break index has been placed, and has executed TRIGGER or has neither strand nor continuation
(DEDUCED, log entry 21). -/
def State.allTriggered (s : State) (lrec : Nat) (l : Launch) : Bool :=
  l.nitems == 0 ||
  (l.brk < l.next &&
    (s.strands.all fun e => e.2.lrec != lrec || l.brk < e.2.item || l.triggered.contains e.2.item) &&
    (s.cores.all fun e => e.2.contItems.all fun c => c.1 != lrec || l.brk < c.2 || l.triggered.contains c.2))

/-- Every producer is triggered, or has completed (R39). -/
def State.producersTriggered (s : State) (l : Launch) : Bool :=
  l.producers.all fun h => match s.byHandle l.ctx h with
    | some (i, p) => s.allTriggered i p
    | none => true

def execTrigger (f : Fields) (s : State) : Result :=
  (issue .neither f do
    let u ← me
    let st ← self
    editS fun s => (s.editLaunch st.lrec fun l => { l with triggered := insertNat l.triggered st.item }).release u
    finish f).outcome s

def execWaitp (f : Fields) (s : State) : Result :=
  (issue .neither f do
    let st ← self
    let s ← readS id
    match s.launch? st.lrec with
    | some l =>
      if l.inGambit then
        if !s.producersTriggered l then park .producers
        editS fun s => s.editLaunch st.lrec fun l => { l with waited := insertNat l.waited st.item }
    | none => pure ()
    finish f).outcome s

end Sys2Proof.Machine
end

