-- ==== Sys2Proof/Machine/Arbiter.lean ====
section
/-!
DEFINITION. The events of the arbiter and of the cores around their barrels: admission, dispatch, completion, stealing, pickup,
arrival, reload, refill and quantum end, retries (01 R24 to R29, 02 R42 to R56, 04 R101). An event whose conditions do not
hold changes nothing.
-/

namespace Sys2Proof.Machine

/-! ### From items to cores (R42, R43) -/

/-- The bits of q dealt alternately, x first; a coordinate that has all its bits leaves the rest to the other. -/
def mortonXY (lw lh : Nat) : Nat → Nat → Nat → Nat → Bool → Nat × Nat
  | 0, _, _, _, _ => (0, 0)
  | fuel + 1, q, nx, ny, turnX =>
    if nx < lw && (turnX || lh ≤ ny) then
      let (x, y) := mortonXY lw lh fuel (q / 2) (nx + 1) ny false
      (x + q % 2 * 2 ^ nx, y)
    else if ny < lh then
      let (x, y) := mortonXY lw lh fuel (q / 2) nx (ny + 1) true
      (x, y + q % 2 * 2 ^ ny)
    else (0, 0)

def hilbertXY : Nat → Nat → Nat → Nat → Nat → Nat × Nat
  | 0, _, _, x, y => (x, y)
  | fuel + 1, s, t, x, y =>
    let bx := t / 2 % 2
    let by_ := (t ^^^ bx) % 2
    let (x, y) := if by_ = 0 then (if bx = 1 then (s - 1 - y, s - 1 - x) else (y, x)) else (x, y)
    hilbertXY fuel (s * 2) (t / 4) (x + s * bx) (y + s * by_)

def orderXY (order q lw lh : Nat) : Nat × Nat :=
  match order with
  | 0 => (q % 2 ^ lw, q / 2 ^ lw)
  | 1 => (q / 2 ^ lh, q % 2 ^ lh)
  | 2 => mortonXY lw lh (lw + lh) q 0 0 true
  | _ => hilbertXY lw 1 q 0 0

/-- R42: the core of item `i`. -/
def Launch.itemCore (l : Launch) (i : Nat) : Nat :=
  let q := (i >>> l.swz) % (l.rect.width * l.rect.height)
  let (dx, dy) := orderXY l.order q l.rect.lw l.rect.lh
  coreAt (l.rect.ofile + dx) (l.rect.orank + dy)

/-! ### Placing (R44, R45, R53, R59, 01 R24) -/

/-- The strands of a launch on a core. -/
def State.strandsHere (s : State) (core lrec : Nat) : Nat :=
  ((s.strandsOf core).filter fun e => e.2.place != .transit && e.2.lrec == lrec).length

/-- A spilled strand of the core whose wake is recorded takes the next slot. -/
def State.reloadWaits (s : State) (core : Nat) : Bool := (s.strandsOf core).any fun e => e.2.isSpilled && e.2.woken

/-- The strand of item `i` (R45). -/
def Launch.itemStrand (l : Launch) (lrec i : Nat) : Strand :=
  { Strand.blank.ofLaunch lrec l with
    pc := l.entry, item := i, scope := l.fscope, isItem := true, fwd := l.buffer i
    x := Vector.ofFn fun r =>
      if r.val = 0 then BitVec.ofNat 64 i else if r.val = 1 then l.lpb
      else if r.val < 10 then l.args.getD (r.val - 2) 0 else 0 }

/-- Whether the next item of a running launch may be placed (R44). -/
def State.mayDispatch (s : State) (lrec : Nat) (l : Launch) : Bool :=
  let core := l.itemCore l.next
  l.state != .pending && l.next < l.nitems && l.next ≤ l.brk && !s.halted l.ctx && s.strandsHere core lrec < l.slots &&
  !s.reloadWaits core && s.hasRoom core

def State.dispatch (s : State) (lrec : Nat) : State :=
  match s.launch? lrec with
  | none => s
  | some l =>
    if !s.mayDispatch lrec l then s
    else
      let core := l.itemCore l.next
      match s.claimSlot core with
      | none => s
      | some (slot, s) =>
        let (u, s) := s.newUid
        (s.editLaunch lrec fun l => { l with next := l.next + 1, pop := l.pop + 1 }).place u core slot (l.itemStrand lrec l.next)

def execItemDispatch (lrec : Nat) (s : State) : Result := .next (s.dispatch lrec)

/-- The woken spilled strand that woke first on its core. -/
def State.firstWoken (s : State) (core : Nat) : Option (Nat × Strand) :=
  ((s.strandsOf core).filter fun e => e.2.isSpilled && e.2.woken).foldl
    (fun b e => match b with
      | some d => if e.2.since < d.2.since then some e else some d
      | none => some e) none

/-- A reloaded strand enters READY behind every strand that is READY already (01 R29), in another slot with its EPOCH (24 R411). -/
def State.reload (s : State) (u : Nat) : State :=
  match s.strand? u with
  | none => s
  | some st =>
    if !(st.isSpilled && st.woken) || (s.firstWoken st.core).map (·.1) != some u then s
    else
      match s.claimSlot st.core with
      | none => s
      | some (slot, s) =>
        let ep := ((Sparse.get (s.core st.core).epochs slot).getD 0 + 1) % 256
        let s := s.editCore st.core fun k => { k with epochs := Sparse.put k.epochs slot ep }
        { s.setStrand u { st with place := .slot slot, state := .ready, woken := false, since := s.order, epoch := ep, streamSeq := [] }
          with order := s.order + 1 }

def execSpillReload (uid : Nat) (s : State) : Result := .next (s.reload uid)

def Arrival.cont? : Arrival → Option Cont
  | .cont c => some c
  | .strand _ => none

def Arrival.uid? : Arrival → Option Nat
  | .strand u => some u
  | .cont _ => none

/-- An item may be placed on the core (R44), which comes before stealing (R56). -/
def State.dispatchesAt (s : State) (core : Nat) : Bool :=
  s.launches.any fun e => s.mayDispatch e.1 e.2 && e.2.itemCore e.2.next == core

/-- R53: the first continuation of the arrival queue enters a slot, a stolen one behind the items that may be placed there. -/
def State.pickup (s : State) (core : Nat) : State :=
  match (s.core core).arrivals.findSome? Arrival.cont? with
  | none => s
  | some c =>
    if s.halted (((s.launch? c.lrec).map (·.ctx)).getD 0) || s.reloadWaits core || (c.stolen && s.dispatchesAt core) then s
    else
      match s.claimSlot core with
      | none => s
      | some (slot, s) =>
        let s := s.editCore core fun k => { k with arrivals := k.arrivals.erase (.cont c) }
        let (u, s) := s.newUid
        s.place u core slot (s.ofCont c)

def execContinuationPickup (core : Nat) (s : State) : Result := .next (s.pickup core)

/-- R59: the first migration packet of the arrival queue enters a slot. -/
def State.arrive (s : State) (core : Nat) : State :=
  match (s.core core).arrivals.findSome? Arrival.uid? with
  | none => s
  | some u =>
    match s.strand? u with
    | none => s.editCore core fun k => { k with arrivals := k.arrivals.erase (.strand u) }
    | some st =>
      if s.halted st.ctx || s.reloadWaits core then s
      else
        match s.claimSlot core with
        | none => s
        | some (slot, s) =>
          (s.editCore core fun k => { k with arrivals := k.arrivals.erase (.strand u) }).place u core slot st

def execMigrationArrival (core : Nat) (s : State) : Result := .next (s.arrive core)

/-! ### Admission (R46 to R49) -/

/-- One millisecond of the game clock (05 R129). -/
def gameMs : Nat := 600000

/-- The game-clock cycles that a record has been pending while its context was not clock-stopped. -/
def State.pendingTime (s : State) (l : Launch) : Nat :=
  l.pended + if s.isStopped l.ctx then 0 else (s.runClock l.ctx - l.pendFrom).toNat

/-- The effective class. -/
def State.effClass (s : State) (l : Launch) : Nat := min 3 (l.prio + s.pendingTime l / gameMs)

/-- How long it has been pending at effective class 3. -/
def State.topTime (s : State) (l : Launch) : Nat := s.pendingTime l - (3 - l.prio) * gameMs

/-- The caller's authority table, which TREVOKE may have changed since the LAUNCH (R47). -/
def State.callerTable (s : State) (l : Launch) : List Word := (((s.strand? l.caller).map (·.auth)).getD l.callerAuth).toList

/-- Two sets of ranges conflict (R40). -/
def rangesConflict (a b : List Range) : Bool :=
  a.any fun x => b.any fun y =>
    (x.write || y.write) && x.base / 256 ≤ (y.base + y.len - 1) / 256 && y.base / 256 ≤ (x.base + x.len - 1) / 256

/-- The launch runs and is a producer of another. -/
def State.isProducer (s : State) (l : Launch) (lrec : Nat) : Bool :=
  l.producers.any fun h => (s.byHandle l.ctx h).map (·.1) == some lrec

/-- The conditions of R47. -/
def State.admissible (s : State) (l : Launch) : Bool :=
  l.state == .pending && l.nitems != 0 && s.mayLaunch (s.callerTable l) l.ctx l.rect && l.rect.cores.all s.hasRoom &&
  (s.launches.all fun e =>
    e.2.state == .pending || e.2.ctx != l.ctx || !rangesConflict l.ranges e.2.ranges || (l.gmbt && s.isProducer l e.1)) &&
  s.castReady l.ctx && (l.gmbt || s.producersDone l) && !s.halted l.ctx

/-- R48: a record that has been pending at effective class 3 for 4 ms holds back what overlaps it, another such record too (DESIGN CHOICE, log
entry 75). -/
def State.reservedAgainst (s : State) (lrec : Nat) (l : Launch) : Bool :=
  s.launches.any fun e => e.1 != lrec && e.2.state == .pending && 4 * gameMs ≤ s.topTime e.2 && e.2.rect.overlaps l.rect

/-- The order in which pending launches are considered: the higher class, then the older. -/
def State.before (s : State) (a b : Launch) : Bool :=
  s.effClass b < s.effClass a || (s.effClass a == s.effClass b && a.since < b.since)

/-- A halving of the launch's leaf that the launch would cross is under way (22 R351). -/
def State.crossesCut (s : State) (l : Launch) : Bool :=
  s.strands.any fun e =>
    match e.2.state, e.2.await with
    | .parked, .cut n =>
      let r := rectOf n
      let half : Rect := if r.lw > r.lh then { r with lw := r.lw - 1 } else { r with lh := r.lh - 1 }
      l.rect.overlaps r && l.rect.overlaps half && !l.rect.inside half
    | _, _ => false

def State.mayAdmit (s : State) (lrec : Nat) (l : Launch) : Bool :=
  s.admissible l && !s.reservedAgainst lrec l && !s.crossesCut l &&
  !s.launches.any fun e =>
    e.1 != lrec && s.before e.2 l && s.admissible e.2 && !s.reservedAgainst e.1 e.2 && !s.crossesCut e.2

def State.admitLaunch (s : State) (lrec : Nat) : State :=
  match s.launch? lrec with
  | none => s
  | some l =>
    if !s.mayAdmit lrec l then s else s.editLaunch lrec fun l => { l with state := .running (!s.producersDone l) }

def execLaunchAdmission (lrec : Nat) (s : State) : Result := .next (s.admitLaunch lrec)

/-- The time that a record has been pending up to now is counted. -/
def State.countPending (s : State) (l : Launch) : Launch :=
  if l.state == .pending then { l with pended := s.pendingTime l, pendFrom := s.runClock l.ctx } else l

/-- A millisecond of pending has passed, and its class rises (R48). -/
def State.age (s : State) (lrec : Nat) : State :=
  match s.launch? lrec with
  | none => s
  | some l =>
    if l.state != .pending || s.halted l.ctx || (s.runClock l.ctx - l.pendFrom).toNat < gameMs then s
    else s.editLaunch lrec s.countPending

def execLaunchAging (lrec : Nat) (s : State) : Result := .next (s.age lrec)

/-! ### Completion (R50) -/

def execLaunchCompletion (lrec : Nat) (s : State) : Result := .next (s.finishLaunch lrec)

/-! ### Stealing (R56) -/

/-- Whether a core looks for work for a launch. -/
def State.seeks (s : State) (core lrec : Nat) (l : Launch) : Bool :=
  l.state != .pending && !s.halted l.ctx && l.rect.hasCore core && s.strandsHere core lrec < l.slots && s.hasRoom core &&
  (l.brk < l.next || l.nitems ≤ l.next || l.itemCore l.next != core) && s.held lrec

/-- The cells of Chebyshev distance `r`, clockwise from due north. -/
def ring (r : Nat) : List (Int × Int) :=
  let n : Int := r
  if r = 0 then [(0, 0)]
  else
    (List.range (r + 1)).map (fun (i : Nat) => ((i : Int), n)) ++ (List.range (2 * r)).map (fun (i : Nat) => (n, n - 1 - (i : Int))) ++
    (List.range (2 * r)).map (fun (i : Nat) => (n - 1 - (i : Int), -n)) ++ (List.range (2 * r)).map (fun (i : Nat) => (-n, -n + 1 + (i : Int))) ++
    (List.range (r - 1)).map (fun (i : Nat) => (-n + 1 + (i : Int), n))

/-- The spiral victims of a core inside a rectangle. -/
def spiral (core : Nat) (r : Rect) : List Nat :=
  let cells := (ring 0 ++ ring 1 ++ ring 2).map fun (dx, dy) => ((fileOf core : Int) + dx, (rankOf core : Int) + dy)
  (cells.filter fun (x, y) => 0 ≤ x && 0 ≤ y && r.hasCoord x.toNat y.toNat).map fun (x, y) => coreAt x.toNat y.toNat

/-- One step of the register of R56. -/
def lfsrStep (v : BitVec 16) : BitVec 16 :=
  let f := v.getLsbD 0 != (v.getLsbD 2 != (v.getLsbD 3 != v.getLsbD 5))
  (v >>> 1) ||| (if f then 0x8000 else 0)

/-- The next random victim: the register is stepped, and again while it names the core itself; in a rectangle of one
core, where that never ends, no core but itself is probed (DESIGN CHOICE, log entry 74). -/
def randomVictim (core : Nat) (r : Rect) : Nat → BitVec 16 → Nat × BitVec 16
  | 0, v => (core, v)
  | fuel + 1, v =>
    let v := lfsrStep v
    let q := v.toNat % (r.width * r.height)
    let c := coreAt (r.ofile + q % r.width) (r.orank + q / r.width)
    if c = core then randomVictim core r fuel v else (c, v)

/-- One probe of a search (R56), made while no item may be placed on the core; 64 cycles follow a probe that fails (DEDUCED, log entry 48). -/
def State.stealFrom (s : State) (core lrec : Nat) : State :=
  match s.launch? lrec with
  | none => s
  | some l =>
    if !s.seeks core lrec l || s.dispatchesAt core || s.gclk.toNat < (s.core core).probeAt.toNat then s
    else
      let k := s.core core
      let i := (Sparse.get k.ring lrec).getD 0
      let sp := spiral core l.rect
      let (victim, v) := match sp[i]? with
        | some c => (c, k.lfsr)
        | none => randomVictim core l.rect 65536 k.lfsr
      let s := s.editCore core fun k => { k with lfsr := v }
      match s.takeOldest victim lrec with
      | (some c, s) => s.editCore core fun k => { k with ring := Sparse.erase k.ring lrec, arrivals := k.arrivals ++ [.cont c] }
      | (none, s) =>
        s.editCore core fun k =>
          { k with ring := Sparse.put k.ring lrec (if i < sp.length then i + 1 else i), probeAt := s.gclk + 64 }

/-- A search ends when one of its conditions stops holding; the next one begins anew. -/
def State.endSearches (s : State) : State :=
  { s with cores := Sparse.mapVals (fun core k =>
      if k.ring.isEmpty then k
      else { k with ring := k.ring.filter fun e => match s.launch? e.1 with | some l => s.seeks core e.1 l | none => false }) s.cores }

def execStealProbe (core lrec : Nat) (s : State) : Result := .next (s.stealFrom core lrec)

def execArmtDeferredPush (board entry : Nat) (s : State) : Result := .next (s.fireMatch (board * 1024 + entry))

/-! ### The barrel (01 R28, R29) -/

/-- The READY strand that takes the next position of a core: the highest class, and in it the one READY longest. -/
def State.nextReady (s : State) (core : Nat) : Option (Nat × Strand) :=
  ((s.strandsOf core).filter fun e => e.2.state == .ready && !e.2.isSpilled && e.2.place != .transit && !s.halted e.2.ctx).foldl
    (fun b e => match b with
      | some d => if d.2.prio < e.2.prio || (d.2.prio == e.2.prio && e.2.since < d.2.since) then some e else some d
      | none => some e) none

/-- Of the free positions of a core, the one whose turn comes first. -/
def Core.nextFree (k : Core) : Option Nat :=
  ((List.range 8).map fun i => (k.cyc + i) % 8).find? fun p => ((k.pos[p]?).getD none).isNone

def State.refill (s : State) (core pos : Nat) : State :=
  if (s.core core).nextFree != some pos then s
  else
    match s.nextReady core with
    | none => s
    | some (u, st) =>
      (s.setStrand u { st with state := .run, issues := 0 }).editCore core fun k => { k with pos := k.pos.setIfInBounds pos (some u) }

def execBarrelRefill (core pos : Nat) (s : State) : Result := .next (s.refill core pos)

/-- R28: a strand of the class or a higher one waits. -/
def State.classWaits (s : State) (core prio : Nat) : Bool :=
  match s.nextReady core with
  | some (_, st) => prio ≤ st.prio
  | none => false

def State.endQuantum (s : State) (core pos : Nat) : State :=
  match ((s.core core).pos[pos]?).getD none with
  | none => s
  | some u =>
    match s.strand? u with
    | none => s
    | some st =>
      if st.issues < 4096 then s
      else if s.classWaits core st.prio then s.leave u .ready .reply 15
      else s.setStrand u { st with issues := 0 }

def execQuantumEnd (core pos : Nat) (s : State) : Result := .next (s.endQuantum core pos)

/-! ### Waits (01 R21, 04 R101) -/

/-- The stream waits on its entry of a retry list. -/
def State.listedWait (s : State) (u : Nat) (access : Bool) : State :=
  s.editStrand u fun st =>
    if access then { st with region := st.region.map fun g => { g with blocked := some .syncWord } }
    else { st with await := .syncWord }

/-- The retry of an unmet access: it is done, or it enters the retry list after the last one. -/
def State.retry (s : State) (u : Nat) : State :=
  match s.waiters.find? fun w => w.uid == u && !w.listed, s.strand? u with
  | some w, some st =>
    if s.holdsWaiter w then s
    else if w.kind.met s w.addr then
      let (s, stay, wrote) := s.completeWaiter w
      let s := { s with waiters := match stay with
        | some w' => s.waiters.map fun v => if v == w then { w' with listed := true } else v
        | none => s.waiters.filter (· != w) }
      let s := if stay.isSome then s.listedWait u w.access else s
      if wrote then s.written w.addr 8 else s
    else if w.tries + 1 < st.feRetry.toNat % 256 then
      { s with waiters := s.waiters.map fun v => if v == w then { w with tries := w.tries + 1 } else v }
    else
      let s := { s with waiters := s.waiters.map fun v => if v == w then { w with tries := w.tries + 1, listed := true } else v }
      s.listedWait u w.access
  | _, _ => s

def execSyncRetry (uid : Nat) (s : State) : Result := .next (s.retry uid)

end Sys2Proof.Machine
end

