-- ==== Sys2Proof/Machine/Thread.lean ====
section
/-!
DEFINITION. Threads acting on threads and the special registers, OP 0xD0 to 0xD6 (13 R300 to R307, 01 R32, 22 R360).
-/

namespace Sys2Proof.Machine

/-- 2^63 + a code. -/
def statusWord (code : Nat) : Word := if code = 0 then 0 else BitVec.ofNat 64 (2 ^ 63 + code)

/-! ### Virtual time (R307) -/

/-- v of R307. -/
def State.vtValue (s : State) (c : Ctx) : Word :=
  BitVec.ofNat 64 ((s.gclk - c.vtBase).toNat * c.vtScale.toNat / 2 ^ 32) + c.vtOff

def State.vtime (s : State) (ctx : Nat) : Word × State :=
  match s.ctx? ctx with
  | none => (0, s)
  | some c =>
    let v := s.vtValue c
    let t := if v < c.vtLast then c.vtLast else v
    (t, s.setCtx ctx { c with vtLast := t })

def execVtime (f : Fields) (s : State) : Result :=
  (fixed .neither f do
    let st ← self
    writeX f.d.toNat (← stateS fun s => s.vtime st.ctx)).outcome s

/-! ### Special registers (R305, R306) -/

/-- STATE of TSTAT. -/
def SState.code : SState → Nat
  | .ready => 1
  | .run => 2
  | .parked => 3
  | .sleep => 4
  | .stopped => 5

/-- TSTAT. -/
def Strand.tstat (st : Strand) : Word :=
  BitVec.ofNat 64
    (st.lcause.toNat * 2 ^ 48 + (if st.vec.isSome then 2 ^ 9 else 0) + (if st.region.isSome then 2 ^ 8 else 0) +
      (if st.isSpilled then st.state.code * 2 ^ 4 + 6 else st.state.code))

/-- The value of a special register of a strand. -/
def State.special (s : State) (st : Strand) (n : Nat) : Word :=
  let ctx (g : Ctx → Word) : Word := ((s.ctx? st.ctx).map g).getD 0
  match n with
  | 0 => st.fcr
  | 1 => st.tvec
  | 2 => st.tcause
  | 3 => st.tpc
  | 4 => st.tfaddr
  | 5 => st.fra
  | 6 => ctx (·.thv)
  | 7 => st.visMax
  | 8 => ((s.leafOf st.core).map fun l => l.gen.zeroExtend 64).getD 0
  | 9 => ctx (·.vtOff)
  | 10 => ctx (·.vtScale)
  | 11 => st.feRetry
  | 12 => st.authAddr
  | 13 => ctx (·.root)
  | 14 => ctx (·.esched)
  | 15 => ctx (·.bmap)
  | 16 => st.swBase
  | 17 => st.swLen
  | 18 => ctx (·.eqb)
  | 19 => ctx (·.dsb)
  | 20 => st.tstat
  | 21 => BitVec.ofNat 64 st.sid
  | 22 => s.gclk
  | _ => ctx (·.vtLast)

/-- The registers that only TWRITE writes. -/
def twSr : List Nat := [9, 10, 13, 18, 19]

/-- A value that the register does not take (R305). -/
def srForm (n : Nat) (v : Word) : Bool :=
  match n with
  | 5 => field v 5 0 == 0
  | 6 => field v 63 48 == 0 && field v 1 0 == 0
  | 15 => field v 51 0 == 0
  | _ => true

/-- The value written with the reserved bits of the layouts as they read (R75, R306, R417). -/
def srMask (n : Nat) (v : Word) : Word :=
  match n with
  | 0 => v &&& 0x1FF
  | 1 => v &&& ~~~(3 : Word)
  | 2 => v &&& 0x8000FFFFFFFFFFFF
  | 11 => v &&& 0xFF
  | 18 => v &&& ~~~(0xFF0 : Word)
  | _ => v

/-- R364, R305: a new root drops every translation of the context. -/
def State.setRoot (s : State) (ctx : Nat) (v : Word) : State :=
  (s.editCtx ctx fun c => { c with root := v }).tlbDrop fun t => t.ctx == ctx

/-- Time continues from where it stood (R307). -/
def State.setVtScale (s : State) (ctx : Nat) (v : Word) : State :=
  match s.ctx? ctx with
  | none => s
  | some c => s.setCtx ctx { c with vtOff := s.vtValue c, vtBase := s.gclk, vtScale := v }

/-- A special register of a strand takes a value, whose form has been checked; ESCHED apart. A cleared TCAUSE is a handler's
return (R312). -/
def State.setSpecial (s : State) (u : Nat) (st : Strand) (n : Nat) (v : Word) : State :=
  let v := srMask n v
  let strand (g : Strand → Strand) : State := s.editStrand u g
  let ctx (g : Ctx → Ctx) : State := s.editCtx st.ctx g
  match n with
  | 0 => strand fun st => { st with fcr := v }
  | 1 => strand fun st => { st with tvec := v }
  | 2 => if v == 0 then s.leaveTrap u else strand fun st => { st with tcause := v }
  | 3 => strand fun st => { st with tpc := v }
  | 4 => strand fun st => { st with tfaddr := v }
  | 5 => strand fun st => { st with fra := v }
  | 6 => ctx fun c => { c with thv := v }
  | 9 => ctx fun c => { c with vtOff := v }
  | 10 => s.setVtScale st.ctx v
  | 11 => strand fun st => { st with feRetry := v }
  | 13 => s.setRoot st.ctx v
  | 15 => ctx fun c => { c with bmap := v }
  | 16 => strand fun st => { st with swBase := v }
  | 17 => strand fun st => { st with swLen := v }
  | 18 => ctx fun c => { c with eqb := v }
  | 19 => ctx fun c => { c with dsb := v }
  | _ => s

/-! ### The eviction schedule (04 R108) -/

/-- 64 bytes of the block, read as a load of the issuing strand; for a TWRITE in its target's context, whose declared ranges do
not bound what its creator reads (DEDUCED, log entry 45). -/
def scheduleLine (target : Option Strand) (va : Word) : Act (List (BitVec 8)) := do
  match target with
  | none =>
    let x ← checkAccess (Check.load 64) va 64
    loadBytes x va 64
  | some st =>
    match ← stateS (fun s => s.translate st.core st.ctx va .read) with
    | .error p => raise p
    | .ok x =>
      match ← readS (fun s => s.regionProblem st (Check.load 64) x va 64) with
      | some p => raise p
      | none => pure ()
      heedHome [(← readS fun s => s.askOf x (s.l1 st.core (lineOf x.pa)).isSome (some false))] false
      heedPoison x.pa 64 va
      readS fun s => if s.pathOf x == .managed then s.swmRead st.core x.pa 64 else Memory.getBytes s.mem x.pa 64

def scheduleLines (target : Option Strand) : Nat → Word → Act (List (BitVec 8))
  | 0, _ => pure []
  | n + 1, va => do
    let b ← scheduleLine target va
    pure (b ++ (← scheduleLines target n (va + 64)))

/-- The block as words, or none where a reserved field is not zero (DEDUCED, log entry 17). -/
def scheduleOf (w : List Word) : Option Schedule :=
  let at_ (i : Nat) : Word := w.getD i 0
  let n := field (at_ 0) 8 0
  if field (at_ 0) 63 9 != 0 || 256 < n || at_ 1 != 0 || at_ 6 != 0 || at_ 7 != 0 then none
  else
    some
      { stream := at_ 5 ++ at_ 4 ++ at_ 3 ++ at_ 2
        entries := (List.range n).map fun i => (field (at_ (8 + i)) 63 56, field (at_ (8 + i)) 55 48, field (at_ (8 + i)) 47 0) }

/-- ESCHED is written: its block is loaded on every board, the step counter is zero. -/
def writeEsched (ctx : Nat) (target : Option Strand) (v : Word) : Act Unit := do
  if v == 0 then editS fun s => s.editCtx ctx fun c => { c with esched := 0, schedule := none }
  else
    if v.toNat % 64 != 0 then trapWord Cause.alignment v
    let b ← scheduleLines target 33 v
    let w := (List.range 264).map fun i => BitVec.ofNat 64 (Memory.ofBytes ((b.drop (8 * i)).take 8))
    match scheduleOf w with
    | none => illegalForm
    | some d => editS fun s => s.editCtx ctx fun c => { c with esched := v, schedule := some d, steps := 0 }

/-! ### SRD and SWR -/

/-- An SRD of FCR inside a region has its own extra information (12 R268, R274). -/
def execSrd (f : Fields) (s : State) : Result :=
  if f.c == 0 then
    (issue .both f do
      let st ← self
      if st.region.isSome then trapExtra Cause.queueMisuse 0x0A
      writeX f.d.toNat st.fcr
      finish f).outcome s
  else
    (fixed .neither f do
      let st ← self
      writeX f.d.toNat (← readS fun s => s.special st f.c.toNat)).outcome s

def execSwr (f : Fields) (s : State) : Result :=
  (issue (if f.c == 0 then .execute else .neither) f do
    let u ← me
    let st ← self
    let n := f.c.toNat
    let v ← operandB f
    if twSr.contains n then trapPlain Cause.authority
    if !srForm n v then illegalForm
    if n == 14 then writeEsched st.ctx none v else editS fun s => s.setSpecial u st n v
    if n == 6 || n == 14 || n == 15 then finishReply f else finish f).outcome s

/-! ### Targets (R302) -/

/-- The strand of a[20:0], once the caller's right over it has been checked. Requests to one target are served one at a time in their order of
arrival: while it is stepped, others wait for the step's end. -/
def targetStrand (f : Fields) (right : Nat) : Act (Option (Nat × Strand)) := do
  let u ← me
  let a ← operandX false f.a f.ta
  let sid := field a 20 0
  needRight right sid
  match ← readS fun s => s.bySid (sid / 256) (sid % 256) with
  | none => pure none
  | some (t, st) =>
    if ← readS fun s => t != u && (st.stepping.isSome || s.mustQueue .issuer (strandPlace t)) then park (.stepped t)
    pure (some (t, st))

/-- STOPPED, in a slot or held, and not on its way to READY (01 R22). -/
def Strand.isHalted (st : Strand) : Bool := st.state == .stopped && !st.woken

/-- The status is written and the instruction has replied. -/
def replyStatus (f : Fields) (code : Nat) : Act Unit := do
  writeX f.d.toNat (statusWord code)
  finishReply f

/-- The target becomes STOPPED by a TSTOP: what it waits for stays (10 R219). One that is stepped has completed its one instruction. -/
def State.haltStrand (s : State) (u : Nat) : State :=
  match s.strand? u with
  | none => s
  | some st =>
    match st.stepping with
    | some a => (s.stopStrand u Cause.step 0 st.pc a).stepEnds u
    | none => (s.leave u .stopped st.await 11).editStrand u fun st => { st with lcause := 0, woken := false, queued := none }

def execTstop (f : Fields) (s : State) : Result :=
  (issue .neither f do
    let u ← me
    match ← targetStrand f Right.stop with
    | none => replyStatus f 1
    | some (t, st) =>
      if st.isHalted then replyStatus f 2
      else if t == u then
        writeX f.d.toNat 0
        finish f
        editS fun s => s.haltStrand u
      else
        editS fun s => s.haltStrand t
        replyStatus f 0).outcome s

/-- A STOPPED strand becomes READY, or its record notes that it shall (01 R22, R24). -/
def State.startStrand (s : State) (u : Nat) : State :=
  { s.editStrand u fun st =>
      if st.isSpilled then { st with woken := true, since := s.order } else { st with state := .ready, since := s.order }
    with order := s.order + 1 }

def execTstart (f : Fields) (s : State) : Result :=
  (issue .neither f do
    match ← targetStrand f Right.start with
    | none => replyStatus f 1
    | some (t, st) =>
      if !st.isHalted then replyStatus f 2
      else
        editS fun s => s.startStrand t
        replyStatus f 0).outcome s

/-- R303: the target runs for one instruction; the reply follows its stop. -/
def execTstep (f : Fields) (s : State) : Result :=
  (issue .neither f do
    match ← targetStrand f Right.step with
    | none => replyStatus f 1
    | some (t, st) =>
      if !st.isHalted then replyStatus f 2
      else
        editS fun s => (s.editStrand t fun st => { st with stepping := some st.pc }).startStrand t
        writeX f.d.toNat 0
        parkBehind f (.stepped t)).outcome s

/-! ### TREAD and TWRITE (R304, 01 R32) -/

/-- A selector. -/
structure Selector where
  full : Bool
  file : Nat
  reg : Nat
  chunk : Nat

/-- The selector of a value, if it is laid out as R304 says. -/
def selectorOf (b : Word) (writes : Bool) : Option Selector :=
  let x : Selector := { full := b.getLsbD 16, file := field b 15 12, reg := field b 11 6, chunk := field b 5 0 }
  let regs : Nat := match x.file with | 0 => 64 | 1 => 32 | 2 => 16 | 3 => 8 | 4 => 24 | _ => 1
  let chunks : Nat := match x.file with | 1 => 64 | 2 => 8 | _ => 1
  if field b 63 17 == 0 && x.file ≤ 5 && x.reg < regs && x.chunk < chunks && (!x.full || (writes && x.file ≤ 1)) then some x
  else none

/-- A 64-bit word of a wide value, and the value with the word replaced. -/
def chunkOf {w : Nat} (v : BitVec w) (i : Nat) : Word := v.extractLsb' (64 * i) 64

def setChunk {w : Nat} (v : BitVec w) (i : Nat) (x : Word) : BitVec w :=
  (v &&& ~~~((BitVec.allOnes 64).zeroExtend w <<< (64 * i))) ||| (x.zeroExtend w <<< (64 * i))

/-- The value, the tag and the presence bit that a selector reads; none for a v or p register without a context. -/
def State.readTarget (s : State) (st : Strand) (x : Selector) : Option (Word × BitVec 4 × Bool) :=
  match x.file with
  | 0 =>
    match st.region with
    | some g => some ((g.x[x.reg]?).getD 0, 0, g.xFull.getLsbD x.reg)
    | none => some ((st.x[x.reg]?).getD 0, 0, st.xFull.getLsbD x.reg)
  | 1 => st.vec.map fun v => (chunkOf ((v.v[x.reg]?).getD 0) x.chunk, (v.tag[x.reg]?).getD 0, v.vFull.getLsbD x.reg)
  | 2 => st.vec.map fun v => (chunkOf ((v.p[x.reg]?).getD 0) x.chunk, 0, false)
  | 3 => some ((st.z[x.reg]?).getD 0, 0, false)
  | 4 => some (s.special st x.reg, 0, false)
  | _ => some (st.pc, 0, false)

def execTread (f : Fields) (s : State) : Result :=
  (issue .neither f do
    let t ← targetStrand f Right.read
    let b ← operandB f
    match selectorOf b false with
    | none => illegalForm
    | some x =>
      let s ← readS id
      match t.bind fun e => s.readTarget e.2 x with
      | some (v, tag, full) =>
        writeX f.d.toNat v
        writeX f.e.toNat (BitVec.ofNat 64 (tag.toNat * 16 + full.toNat))
      | none =>
        writeX f.d.toNat 0
        writeX f.e.toNat (BitVec.ofNat 64 (2 ^ 63 + 2 ^ 32))
      finishReply f).outcome s

def bitTo {w : Nat} (b : BitVec w) (i : Nat) (on : Bool) : BitVec w := if on then b ||| (1#w <<< i) else b &&& ~~~(1#w <<< i)

/-- A z register with its reserved bits zero (00 R8, 11 R252). Rows and columns beyond the store are kept, and a command then uses cells
that the store of 512 x 32 does not have (DESIGN CHOICE, log entry 87). -/
def tileMask (v : Word) : Word := v &&& 0xF0000000FFFFFE3F

/-- A register of a file other than the special registers takes a value. A write to p0 is discarded (06 R146). -/
def Strand.setTarget (st : Strand) (x : Selector) (c : Word) : Strand :=
  match x.file with
  | 0 =>
    match st.region with
    | some g =>
      { st with region := some { g with x := g.x.setIfInBounds x.reg c, xFull := bitTo g.xFull x.reg x.full } }
    | none => { st with x := st.x.setIfInBounds x.reg c, xFull := bitTo st.xFull x.reg x.full }
  | 1 =>
    { st with vec := st.vec.map fun v =>
        { v with v := v.v.setIfInBounds x.reg (setChunk ((v.v[x.reg]?).getD 0) x.chunk c)
                 vFull := bitTo v.vFull x.reg x.full } }
  | 2 =>
    if x.reg = 0 then st
    else
      { st with vec := st.vec.map fun v =>
          { v with p := v.p.setIfInBounds x.reg (setChunk ((v.p[x.reg]?).getD 0) x.chunk c) } }
  | 3 => { st with z := st.z.setIfInBounds x.reg (tileMask c) }
  | _ => { st with pc := c, ma := false, behind := 0 }

/-- A strand's program counter takes a value: what its earlier instruction still waits for no longer moves it. -/
def State.setPc (s : State) (u : Nat) : State :=
  { s with
    waiters := s.waiters.map fun w => if w.uid == u && !w.access then { w with len := 0 } else w
    sent := s.sent.map fun e => if e.uid == u && !e.access then { e with len := 0 } else e }

/-- R360: the caller's context creates the target's, and is another. -/
def State.maySetTw (s : State) (ctx target : Nat) : Bool := ctx != target && s.reaches ctx target

/-- The write of a special register, with its checks. -/
def writeTargetSpecial (t : Nat) (tst : Strand) (n : Nat) (c : Word) : Act Nat := do
  let st ← self
  if twSr.contains n && !(← readS fun s => s.maySetTw st.ctx tst.ctx) then trapPlain Cause.authority
  if readOnly.contains n then pure 3
  else
    if !srForm n c then illegalForm
    if n == 14 then writeEsched tst.ctx (some tst) c else editS fun s => s.setSpecial t tst n c
    pure 0
where
  /-- The RO registers of R305. -/
  readOnly : List Nat := [7, 8, 12, 20, 21, 22, 23]

/-- R304; a program counter is stored as it is (DEDUCED, log entry 46). -/
def execTwrite (f : Fields) (s : State) : Result :=
  (issue .neither f do
    let t ← targetStrand f Right.write
    let b ← operandB f
    let c ← readX f.c.toNat
    match selectorOf b true with
    | none => illegalForm
    | some x =>
      match t with
      | none => replyStatus f 1
      | some (t, tst) =>
        if (x.file == 1 || x.file == 2) && tst.vec.isNone then replyStatus f 1
        else if x.file == 5 && !tst.isHalted then replyStatus f 2
        else if x.file == 4 then replyStatus f (← writeTargetSpecial t tst x.reg c)
        else
          editS fun s => (if x.file == 5 then s.setPc t else s).editStrand t fun st => st.setTarget x c
          replyStatus f 0).outcome s

/-! ### Granting and revoking (R301) -/

/-- Bits [30:24] of an entry. -/
def rightsMask : Word := 0x7F000000

/-- The caller holds every right of an entry over its whole set. -/
def State.holdsEntry (s : State) (st : Strand) (e : Word) : Bool :=
  (List.range 7).all fun i => !e.getLsbD (24 + i) || s.holds st (24 + i) (authRect e) (authLo e) (authHi e)

/-- The checks of R301: the target with the entry, none where its slot is FREE. -/
def grantTarget (f : Fields) : Act (Word × Option (Nat × Strand)) := do
  let st ← self
  let a ← operandX false f.a f.ta
  let b ← operandB f
  if !authOk b then illegalForm
  let sid := field a 20 0
  need (← readS fun s => s.holdsOver st Right.grant sid && s.holdsEntry st b) (trapPlain Cause.authority)
  pure (b, ← readS fun s => s.bySid (sid / 256) (sid % 256))

def execTgrant (f : Fields) (s : State) : Result :=
  (issue .neither f do
    match ← grantTarget f with
    | (_, none) => replyStatus f 2
    | (b, some (t, tst)) =>
      match (List.range 64).find? fun i => !((tst.auth[i]?).getD 0).getLsbD 31 with
      | none => replyStatus f 1
      | some i =>
        editS fun s => s.editStrand t fun st => { st with auth := st.auth.setIfInBounds i b }
        writeX f.d.toNat (BitVec.ofNat 64 i)
        finishReply f).outcome s

/-- An entry after the revocation of `b`: its rights go where its set lies in b's, and an entry left without rights is
invalid. -/
def revoked (b e : Word) : Word :=
  if e.getLsbD 31 && (authRect e).inside (authRect b) && authLo b ≤ authLo e && authHi e ≤ authHi b then
    let e' := e &&& ~~~(b &&& rightsMask)
    if e' &&& rightsMask == 0 then e' &&& ~~~(0x80000000 : Word) else e'
  else e

def execTrevoke (f : Fields) (s : State) : Result :=
  (issue .neither f do
    match ← grantTarget f with
    | (_, none) => replyStatus f 2
    | (b, some (t, tst)) =>
      let n := (tst.auth.toList.filter fun e => revoked b e != e).length
      editS fun s => s.editStrand t fun st => { st with auth := st.auth.map (revoked b) }
      writeX f.d.toNat (BitVec.ofNat 64 n)
      finishReply f).outcome s

end Sys2Proof.Machine
end

