-- ==== Sys2Proof/Machine/System.lean ====
section
/-!
DEFINITION. Traps asked for, schedule steps, TLBINV and COHERE, OP 0xD7 and 0xDB to 0xDD (13 R309, R310, R314, 04 R109, 05 R140).
-/

namespace Sys2Proof.Machine

/-! ### TRAP and BRK (R314) -/

/-- The instruction has completed, and traps: the fault PC is the next instruction's, the address its own. -/
def trapBehind (f : Fields) (cause extra : Nat) : Act Unit := do
  let u ← me
  let pc ← thisPc
  finish f
  editS fun s => s.takeTrap u cause extra (pc + lenWord f) pc

def execTrap (f : Fields) (s : State) : Result :=
  (issue .neither f (trapBehind f Cause.trap f.imm20.toNat)).outcome s

def execBrk (f : Fields) (s : State) : Result := (issue .neither f (trapBehind f Cause.brk 0)).outcome s

/-! ### STEP (04 R109) -/

def execStep (f : Fields) (s : State) : Result :=
  (issue .neither f do
    let st ← self
    editS fun s => s.editCtx st.ctx fun c => { c with steps := c.steps + 1 }
    finishReply f).outcome s

/-! ### TLBINV (R309) -/

/-- The translations of a context that reach into a run of addresses go. -/
def State.tlbInvRun (s : State) (ctx va n : Nat) : State :=
  s.tlbDrop fun t => t.ctx == ctx && va < (t.page + 1) * 2 ^ t.bits && t.page * 2 ^ t.bits < va + n

/-- All translations of a context go. -/
def State.tlbInvAll (s : State) (ctx : Nat) : State := s.tlbDrop fun t => t.ctx == ctx

def State.tlbInv (s : State) (ctx : Nat) (a : Word) (extent : Nat) : State :=
  match extent with
  | 0 => s.tlbInvRun ctx a.toNat 1
  | 1 => s.tlbInvRun ctx (a.toNat / 2 ^ 30 * 2 ^ 30) (2 ^ 30)
  | _ => s.tlbInvAll ctx

/-- The translations that the module's caches hold. -/
def State.tlbEntries (s : State) : List TlbEntry :=
  (s.cores.flatMap (·.2.entries)) ++ s.boardTlb.flatMap (·.2)

/-- The context that a waiting access is made in. -/
def State.waiterCtx (s : State) (w : Waiter) : Option Nat :=
  match w.kind with
  | .remote _ p _ => s.jobCtx p.job
  | _ => (s.strand? w.uid).map (·.ctx)

/-- The waiting accesses of a context whose translations an invalidation removes. -/
def State.staleAccesses (s : State) (ctx : Nat) (a : Word) (extent : Nat) : List Nat :=
  let same (va : Nat) : Bool :=
    match extent with
    | 0 => va / 4096 == a.toNat / 4096 || s.tlbEntries.any fun t => t.hits ctx a.toNat && t.hits ctx va
    | 1 => va / 2 ^ 30 == a.toNat / 2 ^ 30
    | _ => true
  (s.waiters.filter fun w => s.waiterCtx w == some ctx && same w.va.toNat).map (·.no)

/-- TLBINV, which replies once the accesses that have used the removed translations have replied. -/
def execTlbinv (f : Fields) (s : State) : Result :=
  (issue .neither f do
    let st ← self
    let a ← operandX false f.a f.ta
    let b ← operandB f
    if 3 ≤ b.toNat then illegalForm
    let stale ← readS fun s => s.staleAccesses st.ctx a b.toNat
    editS fun s => s.tlbInv st.ctx a b.toNat
    if !stale.isEmpty then parkBehind f (.accesses stale)
    finishReply f).outcome s

/-! ### COHERE (R310, 05 R140, 22 R372) -/

/-- The bytes of a line that SWMANAGED copies in a partition hold dirty: each from the highest core ID, with every core
that holds one of them. -/
def State.dirtyCopies (s : State) (cores : List Nat) (line : Nat) : List (Nat × List (BitVec 8) × BitVec 128) :=
  cores.filterMap fun c =>
    match (s.l1 c line).bind (·.swm) with
    | some (b, m) => if m = 0 then none else some (c, b, m)
    | none => none

/-- The cores whose dirty byte gave way to a higher core's. -/
def losers : List (Nat × List (BitVec 8) × BitVec 128) → List Nat
  | [] => []
  | (c, _, m) :: l => (if l.any fun d => d.2.2 &&& m != 0 then [c] else []) ++ losers l

/-- The entry about a line; which of several losing cores it names nothing states (DESIGN CHOICE, log entry 12). Whether it is written: one
that has no room is not, and one that is put off counts as written. -/
def State.conflictEntry (s : State) (ctx : Nat) (va : Word) (sid : Nat) (ls : List Nat) : Bool × State :=
  let pick := (Config.freeWord s.free).toNat % ls.length
  let s := if ls.length ≤ 1 then s else { s with free := s.free + 1 }
  let prod (s : State) : Option Nat :=
    match s.unitRead (s.agentCore ctx) ctx (choreUnit s.order) none ((((s.ctx? ctx).map (·.eqb)).getD 0) &&& ~~~(0xFFF : Word)) 8 with
    | (.ok v, _) => some v
    | (.error _, _) => none
  let s' := s.errorEntry none ctx va (if ls.length ≤ 1 then ls.headD 0 else ls.getD pick 0) 3 40 sid
  (prod s' != prod s || s'.later.length != s.later.length, s')

/-- Steps 1 to 4 for one line. -/
def State.cohereLine (s : State) (cores : List Nat) (line : Nat) : State :=
  let dirty := s.dirtyCopies cores line
  let mask := dirty.foldl (fun m d => m ||| d.2.2) (0 : BitVec 128)
  let mem := dirty.foldl (fun m d =>
    (List.range 128).foldl (fun m i => if d.2.2.getLsbD i then Memory.set m (line * 128 + i) (d.2.1.getD i 0) else m) m) s.mem
  let whole := (List.range 16).filter fun w => (mask >>> (8 * w)).toNat % 256 == 255
  let s := { s with mem := mem, poison := s.poison.filter fun p => !(whole.any fun w => p == line * 16 + w) }
  let s := cores.foldl (fun s c => s.swmDrop c line) s
  let s := s.invalidateAll (cores.head?.bind s.leafIdOf) line
  if mask = 0 then s else s.written (line * 128) 128

/-- The lines of a page, in turn, with the count of entries written. -/
def State.cohereLines (s : State) (cores : List Nat) (ctx sid : Nat) : List (Nat × Word) → Nat → Nat × State
  | [], n => (n, s)
  | (line, va) :: l, n =>
    let ls := losers (s.dirtyCopies cores line)
    let s := s.cohereLine cores line
    let s := if s.needsBackInv line then s.sendBackInv line else s
    if ls.isEmpty then State.cohereLines s cores ctx sid l n
    else
      let (w, s) := s.conflictEntry ctx va sid ls
      State.cohereLines s cores ctx sid l (if w then n + 1 else n)

/-- The physical lines of a region of 4 KiB pages with their virtual addresses. -/
def regionLines : Nat → Word → Act (List (Nat × Word))
  | 0, _ => pure []
  | n + 1, va => do
    let st ← self
    match ← stateS (fun s => s.translate st.core st.ctx va .read) with
    | .error p => raise p
    | .ok x =>
      let here := (List.range 32).map fun i => (lineOf x.pa + i, va + BitVec.ofNat 64 (128 * i))
      pure (here ++ (← regionLines n (va + 4096)))

/-- The region lies in declared ranges with W = 1. -/
def State.declaredRegion (s : State) (st : Strand) (va n : Nat) : Bool :=
  match s.launch? st.lrec with
  | none => false
  | some l => (List.range (n / 256)).all fun i => l.ranges.any fun r => r.write && r.covers (va / 256 + i)

/-- The cores of a core's leaf that the state lists, rising; no other holds a copy of anything. -/
def State.leafCores (s : State) (core : Nat) : List Nat :=
  ((s.leafOf core).map fun l => (s.cores.filter fun e => l.node.hasCore e.1).map (·.1)).getD []

def execCohere (f : Fields) (s : State) : Result :=
  (issue .neither f do
    let st ← self
    let a ← operandX false f.a f.ta
    let b ← operandB f
    if a.toNat % 4096 != 0 || b.toNat % 4096 != 0 || b == 0 then trapWord Cause.alignment a
    if !(← readS fun s => s.declaredRegion st a.toNat b.toNat) then trapWord Cause.undeclared a
    editS fun s => s.tlbInvRun st.ctx a.toNat b.toNat
    if f.m == 1 then
      writeX f.d.toNat 0
      finishReply f
    else
      let lines ← regionLines (b.toNat / 4096) a
      heedHome (lines.map fun l => { line := l.1, slice := none, takes := none }) true
      let cores ← readS fun s => s.leafCores st.core
      let n ← stateS fun s => s.cohereLines cores st.ctx st.sid lines 0
      writeX f.d.toNat (BitVec.ofNat 64 n)
      finish f
      let held ← readS fun s => (lines.map (·.1)).filter s.backInv.contains
      if held.isEmpty then park .reply else park (.lines held)).outcome s

end Sys2Proof.Machine
end

