-- ==== Sys2Proof/Machine/Partition.lean ====
section
/-!
DEFINITION. The buddy tree, generations and the management area: OP 0xD8, 0xD9, the end of a scrub walk and the Second's commands
(13 R308, 22 R349 to R363).
-/

namespace Sys2Proof.Machine

/-! ### Nodes (R349) -/

/-- The halves of a node. -/
def Rect.halves (r : Rect) : Rect × Rect :=
  if r.lh < r.lw then
    ({ r with lw := r.lw - 1 }, { r with lw := r.lw - 1, ofile := r.ofile + 2 ^ (r.lw - 1) })
  else ({ r with lh := r.lh - 1 }, { r with lh := r.lh - 1, orank := r.orank + 2 ^ (r.lh - 1) })

/-- The node of which a node is a half; the module has none. -/
def Rect.parent (r : Rect) : Option Rect :=
  if r.lw = 7 then none
  else if r.lw = r.lh then some { r with lw := r.lw + 1, ofile := r.ofile / 2 ^ (r.lw + 1) * 2 ^ (r.lw + 1) }
  else some { r with lh := r.lh + 1, orank := r.orank / 2 ^ (r.lh + 1) * 2 ^ (r.lh + 1) }

/-- The other half of the parent. -/
def Rect.buddy (r : Rect) : Option Rect :=
  r.parent.map fun p => if p.halves.1 == r then p.halves.2 else p.halves.1

def State.leafAt (s : State) (r : Rect) : Option Leaf := s.leaves.find? fun l => l.node == r

/-! ### Idle partitions and cleared structures (R352, R361, R363) -/

/-- The cores that the state lists. -/
def State.coresIn (s : State) (r : Rect) : List (Nat × Core) := s.cores.filter fun e => r.hasCore e.1

/-- R352. Every armed watch is some strand's. -/
def State.idle (s : State) (r : Rect) : Bool :=
  (s.strands.all fun e => !r.hasCore e.2.core) && ((s.coresIn r).all fun e => e.2.mx.queue.isEmpty && e.2.ce.queue.isEmpty) &&
  s.matches_.all fun e => !r.hasCore e.2.core

/-- A core's copy of a COHERENT line goes from its directory too. -/
def State.forgetCopy (s : State) (core line : Nat) : State :=
  let b := boardOf core
  let s := s.dropCopy core line
  match s.dir? line b with
  | none => s
  | some e =>
    let owner := match e.owner with
      | some (o, _) => if o = core then none else e.owner
      | none => none
    let sharers := match e.sharers with
      | .pointers l => Sharers.pointers (l.filter (· != core))
      | x => x
    (s.setDir line b { owner := owner, sharers := sharers }).sumAgent line

/-- A core's L1 is written back and emptied (R351 step 3, R363). -/
def State.emptyL1 (s : State) (core : Nat) : State :=
  (s.core core).l1.foldl
    (fun s e => if e.2.swm.isSome then (s.swmWriteBack core e.1).swmDrop core e.1 else s.forgetCopy core e.1) s

/-- What carries the generation in a core reads as zero and full after a bump; there is no strand. -/
def Core.bumped (k : Core) : Core :=
  { k with cregs := Vector.replicate 16 0, cwrites := [], mx := { k.mx with shadow := Vector.replicate 16 0 },
           ce := { k.ce with shadow := Vector.replicate 16 0 }, acc := [], codebook := [], icache := [], fills := [], deque := [] }

/-- GENBUMP of one leaf (DEDUCED, log entry 24). -/
def State.bumpLeaf (s : State) (l : Leaf) : State :=
  let r := l.node
  let s := (s.coresIn r).foldl (fun s e => s.emptyL1 e.1) s
  let inside (pa : Nat) : Bool := match zoneOf s.tierCap pa with | .scratch c => r.hasCore c | _ => false
  { s with
    cores := Sparse.mapVals (fun c k => if r.hasCore c then k.bumped else k) s.cores
    mem := s.mem.filter fun e => !inside e.1
    empties := s.empties.filter fun w => !inside (8 * w)
    poison := s.poison.filter fun w => !inside (8 * w)
    leaves := s.leaves.map fun m =>
      if m.node == r then { m with gen := m.gen + 1, ready := false, walking := false } else m }

/-! ### PSPLIT, PMERGE, GENBUMP -/

/-- A running launch of a rectangle that crosses the cut. -/
def State.cutCrossed (s : State) (r : Rect) : Bool :=
  let (a, b) := r.halves
  s.launches.any fun e => e.2.state != .pending && e.2.rect.overlaps a && e.2.rect.overlaps b

/-- The contexts of some leaves are bound to others (DEDUCED, log entry 20). -/
def State.rebind (s : State) (from_ to_ : List Nat) : State :=
  { s with ctxs := Sparse.mapVals (fun _ c =>
      if c.bound.any from_.contains then { c with bound := (c.bound.filter fun i => !from_.contains i) ++ to_ } else c) s.ctxs }

/-- Steps 3 and 4 of R351. -/
def State.splitLeaf (s : State) (l : Leaf) : State :=
  let (a, b) := l.node.halves
  let s := (s.coresIn l.node).foldl (fun s e => s.emptyL1 e.1) s
  let s := s.rebind [l.node.leafId] [a.leafId, b.leafId]
  { s with leaves := s.leaves.flatMap fun m =>
      if m.node == l.node then [{ m with node := a, probes := 0 }, { m with node := b, probes := 0 }] else [m] }

def execPsplit (f : Fields) (s : State) : Result :=
  (issue .neither f do
    let a ← operandX false f.a f.ta
    let r ← nodeOperand a
    needNode r
    match ← readS fun s => s.leafAt r with
    | none => replyStatus f 1
    | some l =>
      if r.lw == 2 && r.lh == 2 then replyStatus f 2
      else
        if ← readS fun s => s.cutCrossed r then park (.cut r.toNat)
        editS fun s => s.splitLeaf l
        replyStatus f 0).outcome s

/-- Two idle halves become their parent. -/
def State.mergeLeaves (s : State) (p : Rect) (l m : Leaf) : State :=
  let s := s.rebind [l.node.leafId, m.node.leafId] [p.leafId]
  let both : Leaf := { node := p, gen := l.gen, ready := l.ready && m.ready, walking := l.walking && m.walking, probes := 0 }
  { s with leaves := both :: s.leaves.filter fun k => k.node != l.node && k.node != m.node }

def execPmerge (f : Fields) (s : State) : Result :=
  (issue .neither f do
    let a ← operandX false f.a f.ta
    let r ← nodeOperand a
    needNode r
    let s ← readS id
    match r.parent, s.leafAt r, r.buddy.bind s.leafAt with
    | some p, some l, some m =>
      if s.idle l.node && s.idle m.node && l.gen == m.gen then
        editS fun s => s.mergeLeaves p l m
        replyStatus f 0
      else replyStatus f 3
    | _, _, _ => replyStatus f 1).outcome s

def execGenbump (f : Fields) (s : State) : Result :=
  (issue .neither f do
    let a ← operandX false f.a f.ta
    let r ← nodeOperand a
    needNode r
    let ls ← readS fun s => s.leaves.filter fun l => l.node.inside r
    if ← readS fun s => ls.any fun l => !s.idle l.node || !l.ready then replyStatus f 3
    else
      editS fun s => ls.foldl State.bumpLeaf s
      replyStatus f 0).outcome s

/-- R362: a walk ends, and the next one begins (DEDUCED, log entry 58). -/
def State.endWalk (s : State) (leaf : Nat) : State :=
  { s with leaves := s.leaves.map fun l =>
      if l.node.leafId == leaf then { l with ready := l.ready || l.walking, walking := true } else l }

def execScrubWalkEnd (leaf : Nat) (s : State) : Result := .next (s.endWalk leaf)

/-! ### The management area (R354, R355) -/

def slotAddr (slot : Nat) : Nat := 0xFFFFF80000 + 128 * slot

/-- The word at an offset of a slot. -/
def State.slotWord (s : State) (slot off : Nat) : Word := s.word (slotAddr slot + off)

/-- A word that the Second writes, with its bit. -/
def State.secondWrite (s : State) (pa v : Nat) (full : Bool) : State :=
  let s := s.invalidateAll none (lineOf pa)
  (((s.store pa 8 v).clearPoison pa).markFull pa full).written pa 8

/-- The Second takes the command of a slot, and OP is empty. -/
def State.takeCommand (s : State) (slot : Nat) : State :=
  let s := { s with requesters := Sparse.erase s.requesters slot }
  s.secondWrite (slotAddr slot) (s.slotWord slot 0).toNat false

/-- STATUS is written full. -/
def State.slotStatus (s : State) (slot : Nat) (v : Word) : State := s.secondWrite (slotAddr slot + 0x58) v.toNat true

/-- The codes of R355. -/
def mgmtAuth : Word := statusWord 1
def mgmtField : Word := statusWord 2
def mgmtBusy : Word := statusWord 3
def mgmtNoctx : Word := statusWord 4

/-- What is broken in a slot whatever its command: OP's upper bits, the reserved words. -/
def State.slotBroken (s : State) (slot : Nat) : Bool :=
  field (s.slotWord slot 0) 63 8 != 0 || s.slotWord slot 0x70 != 0 || s.slotWord slot 0x78 != 0

def State.slotOp (s : State) (slot : Nat) : Nat := field (s.slotWord slot 0) 7 0

/-- The event of code `code` serves the slot's command: its own, or one that no command has, which gets FIELD. A requester that is
gone holds nothing (DEDUCED, log entry 19). While its home holds the slot's line, the command waits (04 R113, 05 R124). -/
def State.serve (s : State) (slot code : Nat) (run : Option Strand → State → State) : State :=
  match Sparse.get s.requesters slot with
  | none => s
  | some u =>
    let op := s.slotOp slot
    let s := s.settle (lineOf (slotAddr slot))
    if s.lineHeld (lineOf (slotAddr slot)) true then s
    else if s.slotBroken slot || op = 0 || 4 < op then (s.takeCommand slot).slotStatus slot mgmtField
    else if op != code then s
    else run (s.strand? u) s

/-- The byte j of QLIM, and the pools. -/
def State.slotQlim (s : State) (slot : Nat) : Vector Nat 16 :=
  Vector.ofFn fun j => s.load (slotAddr slot + 0x40 + j.val) 1

def poolsOk (p : Word) : Bool := field p 63 48 == 0 && field p 31 16 == 0

/-! ### CREATE (R355 to R357) -/

/-- The layout of an authority entry but for V, which CREATE checks apart. -/
def rightsOk (e : Word) : Bool := authOk (e ||| 0x80000000)

/-- The fields of a CREATE. -/
def State.createOk (s : State) (slot : Nat) : Bool :=
  let w (o : Nat) : Word := s.slotWord slot o
  field (w 8) 63 19 == 0 && (rectOf (w 8).toNat).isNode && rightsOk (w 0x38) && poolsOk (w 0x50) && field (w 0x68) 51 0 == 0

/-- The checks of a CREATE. -/
def State.createAllowed (s : State) (slot : Nat) (st : Strand) : Bool :=
  let r := rectOf (s.slotWord slot 8).toNat
  let e := s.slotWord slot 0x38
  (s.leafAt r).isSome && s.holds st Right.launch r 0 255 && s.holds st Right.grant r 0 255 && e.getLsbD 31 &&
  s.holdsEntry st e

def State.freeCtx (s : State) : Option Nat := (List.range 4096).find? fun n => (s.ctx? n).isNone

/-- A context of the power-up state or of CREATE (R357). -/
def Ctx.fresh (creator : Option Nat) (root bmap : Word) (leaf : Nat) (gclk : Word) : Ctx :=
  { bound := [leaf], creator := creator, root := root, bmap := bmap, thv := 0, esched := 0, schedule := none,
    vtScale := 0x100000000, vtOff := 0, vtBase := gclk, vtLast := 0, eqb := 0, dsb := 0, groups := [], scopes := [], steps := 0,
    qlim := Vector.replicate 16 0, watchBlocks := 0, matchLimit := 0, launchSeq := 1, stopped := false, thr := 0, castMap := 0,
    castCount := 0, castBits := 0, castWaits := false }

/-- The 64-byte pieces of a template, through a context's tables; none where they cannot be read, an error where that must be waited
for. -/
def State.readTemplate (s : State) (core ctx : Nat) : Nat → Word → Except Await (Option (List Word)) × State
  | 0, _ => (.ok (some []), s)
  | n + 1, va =>
    match s.translate core ctx va .read with
    | (.error (.wait a), s) => (.error a, s)
    | (.error (.trap _ _ _), s) => (.ok none, s)
    | (.ok x, s) =>
      if s.foreignScratch core none x.pa || s.poisoned x.pa 64 || s.tierDown x.pa then (.ok none, s)
      else
        match State.readTemplate s core ctx n (va + 64) with
        | (.ok l, t) => (.ok (l.map fun l => s.wordsAt x.pa 8 ++ l), t)
        | r => r

/-- What R356 asks of a template. -/
def templateOk (b : List Word) : Bool :=
  [0, 1, 2, 5, 6, 7].all (fun i => lpbWord b i == 0) && field (lpbWord b 3) 63 57 == 0 && field (lpbWord b 3) 7 0 == 0 &&
  field (lpbWord b 4) 63 57 == 0 && field (lpbWord b 4) 2 0 == 0 && ((lpbRanges b).all fun e => field e.2 61 48 == 0) &&
  rangesOk b

/-- The template of a seed: zeros where there is none, none where it cannot be read or is broken. -/
def State.template (s : State) (core ctx : Nat) (slpb : Word) : Except Await (Option (List Word)) × State :=
  if slpb == 0 then (.ok (some []), s)
  else if slpb.toNat % 64 != 0 then (.ok none, s)
  else
    match s.readTemplate core ctx 4 slpb with
    | (.ok l, s) => (.ok (l.filter templateOk), s)
    | r => r

/-- A launch of one item on a rectangle, as the Second builds it (R356). -/
def seedLaunch (ctx : Nat) (r : Rect) (entry slpb right swBase swLen : Word) (b : List Word) (since : Nat) : Launch :=
  { ctx := ctx, seq := 1, lpb := slpb, rect := r, order := 0, swz := 0, slots := 256, prio := 3, gmbt := false, nitems := 1,
    fscope := 0, qclass := 0, role := 0, entry := entry, kaddr := lpbWord b 3, cword := lpbWord b 4, producers := [],
    args := (List.range 8).map fun i => lpbWord b (8 + i), ranges := rangesOf b, maxd := 0, exports := [],
    auth := (Vector.replicate 64 0).setIfInBounds 0 right, swBase := swBase, swLen := swLen, state := .running false, since := since,
    pended := 0, pendFrom := 0, caller := 0, callerSid := 0, callerAuth := Vector.replicate 64 0, next := 0, pop := 0, brk := 0, brko := false,
    triggered := [], waited := [], window := [], flight := [] }

/-- The seed launch takes a record, and its strand a slot of a core, behind the reloads that wait there (01 R24). None where there is no
record or no slot. -/
def State.startSeed (s : State) (core : Nat) (l : Launch) : Option State :=
  match s.freeRecord with
  | none => none
  | some i =>
    match (if s.reloadWaits core then none else s.claimSlot core) with
    | none => none
    | some (slot, s) =>
      let (u, s) := (s.addLaunch i l).newUid
      let st := l.itemStrand i 0
      some ((s.editLaunch i fun l => { l with next := 1, pop := 1 }).place u core slot st)

/-- CREATE once its checks have passed. The command waits while no launch record or no slot is to be had. -/
def State.runCreate (s : State) (slot n : Nat) (st : Strand) : State :=
  let w (o : Nat) : Word := s.slotWord slot o
  let r := rectOf (w 8).toNat
  let core := coreAt r.ofile r.orank
  let c : Ctx :=
    { Ctx.fresh (some st.ctx) (w 0x18) (w 0x68) r.leafId s.gclk with
      qlim := s.slotQlim slot, watchBlocks := field (w 0x50) 47 32, matchLimit := field (w 0x50) 15 0 }
  let s' : State :=
    { s.setCtx n c with bucketSet := Sparse.erase s.bucketSet n, bucketNext := Sparse.erase s.bucketNext n,
                        buckets := Sparse.erase s.buckets n
                        homes := { s.homes with ports := s.homes.ports.filter fun p => p.1 % 4096 != n } }
  match s'.template core n (w 0x60) with
  | (.error _, _) => s
  | (.ok none, _) => (s.takeCommand slot).slotStatus slot mgmtField
  | (.ok (some b), s') =>
    match s'.startSeed core (seedLaunch n r (w 0x20) (w 0x60) (w 0x38) (w 0x28) (w 0x30) b s.order) with
    | none => s
    | some s => (s.takeCommand slot).slotStatus slot (BitVec.ofNat 64 n)

def State.create (s : State) (slot : Nat) : State :=
  s.serve slot 1 fun st s =>
    let answer (v : Word) : State := (s.takeCommand slot).slotStatus slot v
    if !s.createOk slot then answer mgmtField
    else
      match st with
      | none => answer mgmtAuth
      | some st =>
        if !s.createAllowed slot st then answer mgmtAuth
        else
          match s.freeCtx with
          | none => answer mgmtNoctx
          | some n => s.runCreate slot n st

def execCreate (slot : Nat) (s : State) : Result := .next (s.create slot)

/-! ### DESTROY, QUOTA, INVAL (R355) -/

/-- What the three commands have in common: the field CTX, and the check on it. -/
def State.overCtx (s : State) (slot code : Nat) (fields : Bool) (run : Nat → State → State × Word) : State :=
  s.serve slot code fun st s =>
    let w := s.slotWord slot 0x10
    let n := field w 11 0
    let allowed := match st with
      | some st => (s.ctx? n).isSome && s.reaches st.ctx n
      | none => false
    let (s, v) :=
      if field w 63 12 != 0 || !fields then (s, mgmtField)
      else if !allowed then (s, mgmtAuth)
      else run n s
    (s.takeCommand slot).slotStatus slot v

/-- Whether a context is empty. -/
def State.ctxEmpty (s : State) (n : Nat) : Bool :=
  (s.strands.all fun e => e.2.ctx != n) && (s.launches.all fun e => e.2.ctx != n) &&
  (s.cores.all fun e => (e.2.mx.queue ++ e.2.ce.queue).all fun c => c.ctx != n) &&
  (s.matches_.all fun e => e.2.ctx != n) && s.ctxs.all fun e => e.2.creator != some n

def State.destroy (s : State) (slot : Nat) : State :=
  s.overCtx slot 2 true fun n s =>
    if s.ctxEmpty n then (({ s with ctxs := Sparse.erase s.ctxs n } : State).tlbInvAll n, 0) else (s, mgmtBusy)

def execDestroy (slot : Nat) (s : State) : Result := .next (s.destroy slot)

def State.setQuota (s : State) (slot : Nat) : State :=
  let p := s.slotWord slot 0x50
  s.overCtx slot 3 (poolsOk p) fun n s =>
    (s.editCtx n fun c =>
      { c with qlim := s.slotQlim slot, watchBlocks := field p 47 32, matchLimit := field p 15 0 }, 0)

def execQuota (slot : Nat) (s : State) : Result := .next (s.setQuota slot)

def State.inval (s : State) (slot : Nat) : State := s.overCtx slot 4 true fun n s => (s.tlbInvAll n, 0)

def execInval (slot : Nat) (s : State) : Result := .next (s.inval slot)

end Sys2Proof.Machine
end

