-- ==== Sys2Proof/Machine/Castle.lean ====
section
/-!
DEFINITION. CAST, OP 0xDA: its command block, and the checks of a castling command (23 R375 to R378, R390, R394).
-/

namespace Sys2Proof.Machine

/-! ### The command block (R376) -/

/-- Fields that the command does not use are zero, as the reserved ones are. -/
def castUnusedOk (w : List Word) : Bool :=
  let at_ (i : Nat) : Word := w.getD i 0
  let op := field (at_ 0) 7 0
  let zero (l : List Nat) : Bool := l.all fun i => at_ i == 0
  let out := [2, 4, 6, 7, 12]
  let into := [3, 8, 9, 13]
  field (at_ 0) 63 17 == 0 && zero [14, 15] && field (at_ 2) 63 12 == 0 && field (at_ 3) 63 12 == 0 &&
  match op with
  | 1 => zero (5 :: into) && field (at_ 0) 16 8 == 0
  | 2 => zero (10 :: out)
  | 3 => true
  | 4 => zero (5 :: 10 :: out) && field (at_ 0) 16 8 == 0
  | _ => true

def castCmdOf (w : List Word) (ctx cword : Nat) : CastCmd :=
  let n (i : Nat) : Nat := (w.getD i 0).toNat
  { op := bitsOf (n 0) 7 0, thr := bitsOf (n 0) 15 8, hide := (w.getD 0 0).getLsbD 16, node := n 1, out := bitsOf (n 2) 11 0,
    into := bitsOf (n 3) 11 0, osave := n 4, isave := n 5, omap := n 6, omapN := n 7, imap := n 8, imapN := n 9, lead := n 10,
    cword := cword, obits := n 12, ibits := n 13, ctx := ctx, unused := !castUnusedOk w }

/-! ### CAST (R375) -/

/-- The completion word's physical address. -/
def castWord (va : Word) : Act Nat := do
  let st ← self
  if va.toNat % 8 != 0 then trapWord Cause.alignment va
  match ← stateS (fun s => s.translateStore st.core st.ctx va) with
  | .error p => raise p
  | .ok x =>
    match ← readS fun s => s.regionProblem st ⟨8, .write, true, false, true, false⟩ x va 8 with
    | some p => raise p
    | none => pure ()
    heedAccess (Check.store 8) [va] []
    editS fun s => s.markDirty st.core st.ctx va
    pure x.pa

def execCast (f : Fields) (s : State) : Result :=
  (issue .neither f do
    let u ← me
    let st ← self
    let a ← operandX false f.a f.ta
    if a.toNat % 64 != 0 then trapWord Cause.alignment a
    let x ← checkAccess (Check.load 64) a 64
    let lo ← loadBytes x a 64
    let y ← checkAccess (Check.load 64) (a + 64) 64
    let hi ← loadBytes y (a + 64) 64
    let w := wordsFrom 16 (lo ++ hi)
    let r ← nodeOperand (w.getD 1 0)
    needNode r
    let pa ← castWord (w.getD 11 0)
    let full ← readS fun s => decide (16 ≤ s.castQ.length)
    if full then writeX f.d.toNat (statusWord 3)
    else
      editS fun s => { s with castQ := s.castQ ++ [castCmdOf w st.ctx pa] }
      writeX f.d.toNat 0
    editS fun s => s.release u
    finishReply f).outcome s

/-! ### Units and their leaf entries (R390) -/

/-- The leaf entries that map a unit: where each lies, the entry, its page bits and the first 4 KiB piece it maps. -/
def State.unitLeaves (s : State) (root : Word) (va16 : Nat) : List (Nat × Word × Nat × Nat) :=
  let each := (List.range 16).filterMap fun i =>
    match s.walk root.toNat (va16 * 65536 + 4096 * i) with
    | .leaf e addr bits => some (addr, e, bits, i)
    | .fail _ => none
  each.foldl (fun l x => if l.any fun y => y.1 == x.1 then l else l ++ [x]) []

/-- The frame that RES names. -/
def Unit64.frame (u : Unit64) : Nat := if u.res then u.hbm else u.tier

/-- An entry meets R390. -/
def State.unitOk (s : State) (root : Word) (u : Unit64) : Bool :=
  !u.reserved && zoneOf s.tierCap u.tier == .tier && u.hbm + 65536 ≤ 0xFFFFF80000 &&
  (s.unitLeaves root u.va).all fun (_, e, bits, i) =>
    (bits == 16 && pteFrame e == u.frame) || (bits == 12 && pteFrame e == u.frame + 4096 * i)

def rising : List Nat → Bool
  | [] => true
  | [_] => true
  | a :: b :: l => a < b && rising (b :: l)

/-- A map with its bit array (DEDUCED, log entry 60). -/
def State.mapOk (s : State) (root : Word) (map n bits : Nat) : Bool :=
  map % 64 == 0 && n ≤ 2 ^ 24 && bits != 0 && bits % 64 == 0 && bits + 1024 * n ≤ 0x10000000000 &&
  (let us := (List.range n).map (s.unitAt map)
   rising (us.map (·.va)) && us.all (s.unitOk root))

/-! ### The checks of a command (R377, R378, R387 step 1) -/

/-- The leaf of a context within a node. -/
def State.leafWithin (s : State) (ctx : Nat) (node : Rect) : Option Leaf :=
  match s.ctx? ctx with
  | some c => s.leaves.find? fun l => c.bound.contains l.node.leafId && l.node.inside node
  | none => none

def CastCmd.nodeRect (c : CastCmd) : Rect := rectOf c.node
def CastCmd.usesOut (c : CastCmd) : Bool := c.op == 1 || c.op == 3
def CastCmd.usesIn (c : CastCmd) : Bool := 2 ≤ c.op && c.op ≤ 4

def State.castAuth (s : State) (c : CastCmd) : Bool :=
  let ok (n : Nat) : Bool := (s.ctx? n).isSome && s.reaches c.ctx n && (s.leafWithin n c.nodeRect).isSome
  (!c.usesOut || ok c.out) && (!c.usesIn || ok c.into)

def saveMagic : Nat := 0x53415645

/-- R387 step 1. -/
def State.headerOk (s : State) (save : Nat) (leaf : Option Leaf) : Bool :=
  let node := rectOf (s.word (save + 0x10)).toNat
  (s.word save).toNat == saveMagic && match leaf with | some l => node.lw == l.node.lw && node.lh == l.node.lh | none => false

def State.castFields (s : State) (c : CastCmd) : Bool :=
  let root (n : Nat) : Word := ((s.ctx? n).map (·.root)).getD 0
  !c.unused && 1 ≤ c.op && c.op ≤ 4 &&
  (!c.usesOut || (c.osave % 65536 == 0 && s.mapOk (root c.out) c.omap c.omapN c.obits)) &&
  (!c.usesIn || s.mapOk (root c.into) c.imap c.imapN c.ibits) &&
  (!(c.op == 2 || c.op == 3) || (c.isave % 65536 == 0 && s.headerOk c.isave (s.leafWithin c.into c.nodeRect)))

def State.castState (s : State) (c : CastCmd) : Bool :=
  (!c.usesOut || !s.isStopped c.out) && (!c.usesIn || s.isStopped c.into) && (c.op != 3 || c.out != c.into)

def State.castStatus (s : State) (c : CastCmd) : Nat :=
  if !s.castAuth c then 0x10 else if !s.castFields c then 0x11 else if !s.castState c then 0x12 else 0

/-! ### The engine's own writes -/

/-- The castling engine writes bytes at their home, whose full/empty bits stay. -/
def State.castStore (s : State) (pa : Nat) (bytes : List (BitVec 8)) : State :=
  let n := bytes.length
  let s := (linesOfRun pa n).foldl (fun s l => s.invalidateAll none l) s
  let whole := (wordsOfRun pa n).filter fun w => pa ≤ 8 * w && 8 * w + 8 ≤ pa + n
  { s with mem := Memory.setBytes s.mem pa bytes, poison := s.poison.filter fun p => !whole.contains p }.written pa n

/-- A word that the castling engine writes. -/
def State.engineStore (s : State) (pa v : Nat) : State := s.castStore pa (Memory.toBytes 8 v)

/-- What may run of the messages about some lines runs. -/
def State.settleRun (s : State) (pa n : Nat) : State :=
  s.msgs.foldl (fun s m => if lineOf pa ≤ m.line && m.line ≤ lineOf (pa + n - 1) then s.settle m.line else s) s

/-- A line of a run is in use at its home (04 R113, 05 R124, R142). -/
def State.runHeld (s : State) (pa n : Nat) : Bool :=
  let inside (l : Nat) : Bool := lineOf pa ≤ l && l ≤ lineOf (pa + n - 1)
  s.busy.any inside || s.frozen.any inside || s.backInv.any inside || s.msgs.any fun m => inside m.line

/-- R378: the command writes its completion word and is over. It waits while the line of the word is in use. -/
def State.castEnd (s : State) (c : CastCmd) (status : Nat) : Option State :=
  let t := s.settleRun c.cword 8
  if t.runHeld c.cword 8 then none
  else some { t.secondWrite c.cword (completionValue false 0 status 0 s.castMoved) true with castRun := none }

end Sys2Proof.Machine
end

