-- ==== Sys2Proof/Machine/CastStop.lean ====
section
/-!
DEFINITION. The clock stop: what becomes at T of the operations in flight, of the engines and of the packets (23 R379 to R383).
-/

namespace Sys2Proof.Machine

/-! ### Withdrawal (R380; DEDUCED, log entry 57) -/

/-- A strand that awaits this has an operation that has had no effect: it is withdrawn and issues again. -/
def Await.withdrawn : Await → Bool
  | .reply => true
  | .retries => true
  | .syncWord => true
  | .putn => true
  | .link _ _ => true
  | .order _ _ _ => true
  | .producers => true
  | .scopeZero _ _ => true
  | .cut _ => true
  | .tier _ _ => true
  | .busy _ => true
  | .token _ _ => true
  | .settled => true
  | .switching _ => true
  | .window _ => true
  | .packet => true
  | .pause => true
  | _ => false

/-- A BAR in its second wait is not withdrawn, nor is what another module's strand waits for (R380, R383). -/
def Waiter.stays (w : Waiter) : Bool :=
  match w.kind with
  | .barLeave _ _ => true
  | .remote _ _ _ => true
  | _ => false

/-- An operation that its strand waits for: an LDX or a remote atomic. -/
def Sent.waitedFor (e : Sent) : Bool := (e.ty == 1 || e.ty == 3) && !e.dropped

/-- The waiter of a remote operation at this module's own interface. -/
def State.ownWaiter (s : State) (e : Sent) : Option Waiter :=
  s.waiters.find? fun w => match w.kind with | .remote _ p _ => p == e.packet | _ => false

/-- The packet is still at the router, and nothing of its stream is behind it. -/
def State.atRouter (s : State) (e : Sent) : Bool :=
  (s.outbox.filter fun o => o.2.strand == e.packet.strand && o.2.src == e.packet.src && o.2.dst == e.packet.dst).getLast? ==
    some (e.ty, e.packet)

/-- Withdraw an operation that has had no effect at its target, if that is so: one that this module still holds, or that waits at its own
interface. Whether one of another module has had its effect already is free. -/
def State.withdrawSent (s : State) (e : Sent) : State :=
  let out (s : State) : State := { s with sent := s.sent.erase e }
  if s.atRouter e then out { s with outbox := s.outbox.erase (e.ty, e.packet) }
  else if e.packet.dst == s.selfModule then
    match s.ownWaiter e with
    | some w => out ({ s with waiters := s.waiters.erase w }.streamNext e.packet)
    | none => s
  else
    let t := { s with free := s.free + 1 }
    if (Config.freeWord s.free).getLsbD 0 then out t else t

/-- The strand, or its access stream, waits for a remote operation. -/
def State.awaitsRemote (s : State) (u : Nat) (access : Bool) : Bool :=
  s.sent.any fun e => e.uid == u && e.access == access && e.waitedFor

/-- A stream is in the second wait of a BAR. -/
def State.secondWait (s : State) (u : Nat) (access : Bool) : Bool :=
  s.waiters.any fun w => w.uid == u && w.access == access && w.stays

/-- The wait of a stream at T goes on: what has had its effect completes. -/
def State.waitStays (s : State) (u : Nat) (access : Bool) (a : Await) : Bool :=
  !a.withdrawn || s.secondWait u access || (a == .packet && s.awaitsRemote u access)

/-- What a region's access stream waits for at T. -/
def State.stopRegion (s : State) (u : Nat) (g : Region) : Region :=
  match g.blocked with
  | none => g
  | some a => if s.waitStays u true a then g else { g with blocked := none, queued := none }

/-- The strand's own wait at T. What is not READY yet and becomes so stands behind what is (01 R29, 02 R61). -/
def State.stopWait (s : State) (u : Nat) (st : Strand) : Strand :=
  let enter (st : Strand) : Strand :=
    if st.isSpilled then { st with woken := true, since := s.order } else { st with state := .ready, since := s.order }
  match st.state with
  | .run => { enter st with skip := 0, long := 0, issues := 0 }
  | .sleep => enter st
  | .parked => if s.waitStays u false st.await then st else { enter st with await := .reply, behind := 0, queued := none }
  | _ => st

/-- The strand and its region stop waiting. -/
def State.stopWaits (s : State) (u : Nat) : State :=
  { s.editStrand u (fun st => { s.stopWait u st with region := st.region.map (s.stopRegion u) }) with order := s.order + 1 }

/-- A strand at T: it leaves its position, its waiters and its links, and the tokens that it holds. -/
def State.stopAtT (s : State) (u : Nat) : State :=
  match s.strand? u with
  | none => s
  | some st =>
    let s := s.leavePosition u 12
    let s := { s with waiters := s.waiters.filter (fun w => w.uid != u || w.stays)
                      homes := { s.homes with credits := s.homes.credits.filter fun c => c.1 != u } }
    let s := s.editCore st.core fun k =>
      { k with links := k.links.map fun l => match l with | some v => if v.sender == u then none else some v | none => none }
    let s := (s.sent.filter fun e => e.uid == u && e.waitedFor).foldl State.withdrawSent s
    s.stopWaits u

/-- While the leaf waits for what is posted, an operation at the module's own interface may still come to wait there: it is withdrawn. -/
def State.withdrawHere (s : State) (ctx : Nat) : State :=
  s.sent.foldl
    (fun s e =>
      match s.strand? e.uid with
      | some st =>
        if st.ctx == ctx && e.waitedFor && e.packet.dst == s.selfModule && (s.ownWaiter e).isSome then
          (s.withdrawSent e).stopWaits e.uid
        else s
      | none => s) s

/-! ### Engines (R381) -/

/-- A CPYROW gives back the lines that it holds and goes on from its row at resume. -/
def State.haltRow (s : State) (core : Nat) (c : Command) : State :=
  match c.holds with
  | some first => (s.releaseRows core c first).putCmd core { c with holds := none }
  | none => s

def State.haltRows (s : State) (ctx : Nat) : State :=
  s.cores.foldl (fun s e =>
    match s.headCmd e.1 1 with
    | some c => if c.ctx == ctx then s.haltRow e.1 c else s
    | none => s) s

/-! ### T (R379) -/

/-- No instruction of OUT issues from here on, and its pending launches no longer age (02 R48). -/
def State.stopContext (s : State) (ctx : Nat) : State :=
  let s := { s with launches := Sparse.mapVals (fun _ l => if l.ctx == ctx then s.countPending l else l) s.launches }
  let s := s.editCtx ctx fun c => { c with stopped := true }
  let s := s.strands.foldl (fun s e => if e.2.ctx == ctx then s.stopAtT e.1 else s) s
  s.haltRows ctx

/-- T has come; a wrap pause defers it (R379). -/
def State.clockStop (s : State) : State :=
  match s.castRun with
  | some (c, .toStop t) =>
    if t ≤ s.gclk && s.pausing.isEmpty then { s.stopContext c.out with castRun := some (c, .sweeping t s.lbase 0) } else s
  | _ => s

/-- A pause that overlapped T has ended. -/
def State.deferStop (s : State) : State :=
  match s.castRun with
  | some (c, .toStop t) =>
    if t ≤ s.gclk then { s with castRun := some (c, .toStop (s.gclk + BitVec.ofNat 64 (max c.lead 38400))) } else s
  | _ => s

def execClockStopAtT (s : State) : Result := .next s.clockStop

/-! ### Packets (R382) -/

/-- Deliveries of a context in flight to items on a core. -/
def State.deliveriesTo (s : State) (ctx core : Nat) : List (Nat × Delivery) :=
  s.launches.flatMap fun e =>
    if e.2.ctx != ctx then []
    else (e.2.flight.filter fun d =>
      match (s.itemStrand e.1 d.item).bind s.strand? with
      | some st => st.core == core
      | none => e.2.itemCore d.item == core).map fun d => (e.1, d)

/-- Packets beyond 16 drain to their destinations; the others enter the save buffer. -/
def State.sweepRouter (s : State) (ctx core : Nat) : State :=
  let all := s.deliveriesTo ctx core
  let s := (all.take (all.length - 16)).foldl (fun s e => s.deliverTempo e.1 (e.2.item - e.2.d) e.2.d e.2.j) s
  let kept := all.drop (all.length - 16)
  let s := kept.foldl (fun s e => s.editLaunch e.1 fun l => { l with flight := l.flight.erase e.2 }) s
  s.editCore core fun k => { k with router := k.router ++ kept }

/-! ### What the stop waits for (R380, R381) -/

/-- A strand has nothing outstanding: every operation that has left has been answered, and what a unit does for it is done. -/
def State.strandQuiet (s : State) (u : Nat) : Bool :=
  (s.sent.all fun e => e.uid != u || (e.dropped && (e.ty == 1 || e.ty == 3))) &&
  s.later.all fun l =>
    match l.chore with
    | .start v => v != u
    | .trap v _ _ _ _ _ => v != u
    | .record v _ _ _ _ _ _ _ _ _ _ _ _ _ => v != some u
    | .entry v _ _ _ _ _ _ => v != some u

/-- The head of an engine is at a block boundary, the whole gang's where it is in one, and no tier fault stalls it. -/
def State.engineQuiet (s : State) (ctx core e : Nat) : Bool :=
  match s.headCmd core e with
  | none => true
  | some c =>
    c.ctx != ctx || (!s.behindGang core c && match (s.engine core e).stall with | some (_, .tier _ _) => s.engineReady core e | _ => true)

/-- Everything of the context that the leaf waits for is done. -/
def State.acknowledged (s : State) (ctx : Nat) : Bool :=
  (s.strands.all fun e => e.2.ctx != ctx || s.strandQuiet e.1) && s.cores.all fun e => [0, 1].all (s.engineQuiet ctx e.1)

end Sys2Proof.Machine
end

