-- ==== Sys2Proof/Machine/CastSave.lean ====
section
/-!
DEFINITION. The save area: the save, the working-set record and the resume (23 R384 to R389, R391, R399, R458).
-/

namespace Sys2Proof.Machine

/-! ### The area (R384) -/

/-- The area's size: 64 KiB, and 1 MiB for each core of the leaf. -/
def areaBytes (r : Rect) : Nat := 65536 + r.width * r.height * 2 ^ 20

/-- The words of an area behind its header. -/
def areaWords (r : Rect) : Nat := areaBytes r / 8 - 8

/-- A save's words in the engine's own layout. -/
def saveWords (n : Nat) (r : Rect) : List (BitVec 64) := (List.range (areaWords r)).map (Config.saveImage n)

/-- The words of an area in memory. -/
def State.areaAt (s : State) (save : Nat) (r : Rect) : List (BitVec 64) :=
  (List.range (areaWords r)).map fun i => s.word (save + 64 + 8 * i)

/-! ### The save (R384, R385) -/

/-- What a core holds of a context, by offset from the leaf's corner. -/
def State.saveCore (s : State) (ctx : Nat) (r : Rect) (core : Nat) : SavedCore :=
  let k := s.core core
  let mine (l : List TlbEntry) : List TlbEntry := l.filter (·.ctx == ctx)
  let strands := (s.strandsOf core).filter fun e => e.2.ctx == ctx
  let uids := strands.map (·.1)
  let eng (e : Engine) : Engine :=
    { e with queue := e.queue.filter (·.ctx == ctx), tlb := mine e.tlb, queued := none, stall := none, claim := e.claim.filter uids.contains
             last := e.last.filter uids.contains }
  let ours (lrec : Nat) : Bool := (s.launch? lrec).map (·.ctx) == some ctx
  let base := scratchBase core
  let inside (a : Nat) : Bool := base ≤ a && a < base + 2 ^ 17
  { dx := fileOf core - r.ofile, dy := rankOf core - r.orank, strands := strands, mx := eng k.mx, ce := eng k.ce, acc := k.acc,
    codebook := k.codebook, scratch := (s.mem.filter fun e => inside e.1).map fun e => (e.1 - base, e.2)
    scratchEmpty := (s.empties.filter fun w => inside (8 * w)).map fun w => w - base / 8
    scratchBad := (s.poison.filter fun w => inside (8 * w)).map fun w => w - base / 8
    cregs := Vector.ofFn fun i => k.cwrites.foldl (fun v w => if w.2.1 == i.val then w.2.2 else v) k.cregs[i]
    deque := k.deque.filter fun d => ours d.cont.lrec
    dqSpilled := k.spilled.filter fun d => d.ctx == ctx
    arrivals := k.arrivals.filter fun a => match a with
      | .cont c => ours c.lrec
      | .strand u => uids.contains u
    router := k.router, seq := k.seq.filter uids.contains, waits := s.waiters.filter fun w => uids.contains w.uid && w.stays
    tlb := mine k.tlb, itlb := mine k.itlb, brk := k.brk.filter fun e => ours e.1 }

/-- What was saved leaves the core. -/
def State.clearSaved (s : State) (ctx core : Nat) (v : SavedCore) : State :=
  let uids := v.strands.map (·.1)
  let gone (e : Engine) : Engine :=
    { e with queue := e.queue.filter fun c => c.ctx != ctx, claim := e.claim.filter fun u => !uids.contains u
             queued := if (e.queue.head?.map (·.ctx)) == some ctx then none else e.queued
             stall := if (e.queue.head?.map (·.ctx)) == some ctx then none else e.stall }
  let s := uids.foldl State.keepAuthority s
  let s := s.editCore core fun k =>
    { k with mx := gone k.mx, ce := gone k.ce, deque := k.deque.filter fun d => !v.deque.contains d,
             spilled := k.spilled.filter fun d => d.ctx != ctx, arrivals := k.arrivals.filter fun a => !v.arrivals.contains a,
             router := [], fills := k.fills.filter fun f => !uids.contains (f.who / 2), seq := k.seq.filter fun u => !uids.contains u, brk := k.brk.filter fun e => !v.brk.contains e }
  { s with strands := s.strands.filter fun e => !uids.contains e.1, waiters := s.waiters.filter fun w => !v.waits.contains w }

/-- Dirty copies go home. -/
def State.flushCore (s : State) (core : Nat) : State :=
  (s.core core).l1.foldl (fun s e => if e.2.swm.isSome then s.swmWriteBack core e.1 else s.flushOwn core e.1) s

/-- R391: WS of every unit, from the A bits of its leaf entries, which are cleared; no cache keeps the unit's translations. -/
def State.recordWorking (s : State) (ctx : Nat) : State :=
  match s.ctx? ctx with
  | none => s
  | some c =>
    (List.range c.castCount).foldl (fun s i =>
      let u := s.unitAt c.castMap i
      let leaves := s.unitLeaves c.root u.va
      let ws := leaves.any fun (_, e, _, _) => pteA e
      let s := leaves.foldl (fun s (addr, e, _, _) => s.engineStore addr (e &&& ~~~(0x100 : Word)).toNat) s
      let at_ := c.castMap + 16 * i
      let w := s.word at_ &&& ~~~(0x4000000000000000 : Word)
      let s := s.engineStore at_ (if ws then w ||| 0x4000000000000000 else w).toNat
      s.tlbInvRun ctx (u.va * 65536) 65536) s

/-- The module's number within the job of a context; 0 where it has no job (DESIGN CHOICE, log entry 22). -/
def State.jobNumber (s : State) (ctx : Nat) : Nat :=
  match s.jobOf ctx with
  | none => 0
  | some e => ((List.range 4096).find? fun n => jobModule e n == some s.selfModule).getD 0

/-- The header (R385): T, VTLAST, and LBASE at T. -/
def State.writeHeader (s : State) (save ctx : Nat) (r : Rect) (t vtLast base : Word) : State :=
  let words : List Nat := [saveMagic, s.jobNumber ctx, r.toNat, t.toNat, vtLast.toNat, base.toNat, 0, 0]
  s.castStore save (words.flatMap (Memory.toBytes 8))

/-- The context's token levels (04 R110). -/
def State.portLevels (s : State) (ctx : Nat) : SMap Nat := s.homes.ports.filter fun p => p.1 % 4096 == ctx

/-- The saved state of a context in a leaf. -/
def State.savedOf (s : State) (ctx : Nat) (x : Ctx) (r : Rect) : Saved :=
  let off (m : Match) : Nat × Nat × Match := (fileOf m.core - r.ofile, rankOf m.core - r.orank, m)
  { ctx := ctx, tokens := Sparse.get s.buckets ctx, ports := s.portLevels ctx, scopes := x.scopes, groups := x.groups, vtLast := x.vtLast,
    cores := r.cores.map (s.saveCore ctx r)
    matches_ := ((s.matches_.filter fun e => e.2.ctx == ctx).map fun e => off e.2) }

/-- The save, which frees what it has saved, and the working-set record. `base` is LBASE at T. -/
def State.saveContext (s : State) (c : CastCmd) (t base : Word) : State :=
  match s.leafWithin c.out c.nodeRect, s.ctx? c.out with
  | some l, some x =>
    let r := l.node
    let s := s.msgs.foldl (fun s m => s.settle m.line) s
    let s := r.cores.foldl (fun s k => if (Sparse.get s.cores k).isSome then s.flushCore k else s) s
    let v := s.savedOf c.out x r
    let s := (r.cores.zip v.cores).foldl (fun s e => s.clearSaved c.out e.1 e.2) s
    let n := s.order
    let s := { s with matches_ := s.matches_.filter fun e => e.2.ctx != c.out, saves := Sparse.put s.saves n v, order := n + 1 }
    let s := s.castStore (c.osave + 64) ((saveWords n r).flatMap fun w => Memory.toBytes 8 w.toNat)
    (s.writeHeader c.osave c.out r t x.vtLast base).recordWorking c.out
  | _, _ => s

/-- The save may write: no line of the area is in use. -/
def State.areaFree (s : State) (c : CastCmd) : Bool :=
  match s.leafWithin c.out c.nodeRect with
  | some l => !(s.settleRun c.osave (areaBytes l.node)).runHeld c.osave (areaBytes l.node)
  | none => true

/-! ### What an area holds (R387, R388, R458) -/

/-- An authority entry of an area that no STOP of this module wrote: as it was saved (R388), where every leaf that it reaches is one of the
context or of a context it has created, directly or through others (R359, R458; DESIGN CHOICE, log entry 22). -/
def State.boundRight (s : State) (ctx : Nat) (e : Word) : Word :=
  let near (l : Leaf) : Bool := s.ctxs.any fun c => c.2.bound.contains l.node.leafId && s.reaches ctx c.1
  if authOk e && s.leaves.all fun l => !l.node.overlaps (authRect e) || near l then e else 0

/-- A translation of such an area is IN's own where IN's tables give it (R388, R458). -/
def State.boundTlb (s : State) (ctx : Nat) (l : List TlbEntry) : List TlbEntry :=
  l.filter fun t =>
    match (s.ctx? ctx).map fun c => s.walk c.root.toNat (t.page * 2 ^ t.bits) with
    | some (.leaf e at_ bits) => t.leaf == e && t.at_ == at_ && t.bits == bits
    | _ => false

/-- A core's part of an area that no STOP of this module wrote, within the bounds of R458: what names a launch names one of the context,
what names a strand names one of the area, and what a command reaches lies in the leaf. -/
def State.boundCore (s : State) (ctx : Nat) (leaf : Rect) (v : SavedCore) : SavedCore :=
  let ours (lrec : Nat) : Bool := (s.launch? lrec).map (·.ctx) == some ctx
  let strand (st : Strand) : Strand :=
    { st with
      await := if st.await.withdrawn then .reply else st.await
      state := if st.await.withdrawn && st.state == .parked then .ready else st.state
      auth := st.auth.map (s.boundRight ctx)
      watch := st.watch.map fun w => { w with armed := w.armed && w.va.toNat < 2 ^ 57 }
      item := st.item % 2 ^ 40, scope := st.scope % 256, prio := st.prio % 4, epoch := st.epoch % 256 }
  let strands := ((v.strands.filter fun e => ours e.2.lrec && e.2.place != .transit && e.2.slotNo < 256).take 256).map fun e => (e.1, strand e.2)
  let uids := strands.map (·.1)
  let eng (n : Nat) (e : Engine) : Engine :=
    { e with
      tlb := s.boundTlb ctx e.tlb, queued := none, stall := none
      queue := ((e.queue.filter fun c => c.kind.engine == n && c.rect.inside leaf).take 8).map fun c =>
        { c with gang := none, holds := none, state := if c.state == .held then .held else .queued } }
  { v with
    strands := strands, mx := eng 0 v.mx, ce := eng 1 v.ce, acc := v.acc.filter (·.1 < 16384), codebook := v.codebook.filter (·.1 < 512)
    deque := (v.deque.filter fun d => ours d.cont.lrec).take 64, dqSpilled := v.dqSpilled.filter fun d => ours d.lrec
    arrivals := v.arrivals.filter fun a => match a with | .cont c => ours c.lrec | .strand _ => false
    router := (v.router.filter fun e => ours e.1).take 16, seq := v.seq.filter uids.contains
    waits := v.waits.filter fun w => uids.contains w.uid && match w.kind with | .barLeave _ _ => true | _ => false
    tlb := s.boundTlb ctx v.tlb, itlb := s.boundTlb ctx v.itlb, brk := v.brk.filter fun e => ours e.1 }

/-- What RESUME finds in the area: what a STOP of this module saved there, the latest where several left the same words, or what its
words stand for. -/
def State.foundSave (s : State) (save ctx : Nat) (leaf : Rect) : Saved :=
  let words := s.areaAt save leaf
  match (s.saves.filter fun e => words == saveWords e.1 leaf).getLast? with
  | some e => e.2
  | none =>
    let ours (lrec : Nat) : Bool := (s.launch? lrec).map (·.ctx) == some ctx
    { ctx := ctx, tokens := Config.foundTokens words, ports := (Config.foundPorts words).filter (·.1 < 8192 * 4096)
      scopes := (Config.foundScopes words).filter (·.1 < 256), groups := Config.foundGroups words
      matches_ := (Config.foundMatches words).filter fun e => e.1 < leaf.width && e.2.1 < leaf.height && ours e.2.2.lrec
      vtLast := s.word (save + 0x20)
      cores := (Config.foundCores words).map (s.boundCore ctx leaf) }

/-! ### Resume (R387 to R389, R399) -/

/-- Where an address of a context lies now, whatever its translation is cached as. -/
def State.placeOf (s : State) (ctx : Nat) (va : Word) : Option Nat :=
  match s.ctx? ctx with
  | none => none
  | some c =>
    match s.walk c.root.toNat va.toNat with
    | .leaf e _ bits => some (pteFrame e / 2 ^ bits * 2 ^ bits + va.toNat % 2 ^ bits)
    | .fail _ => none

/-- R389: the slot at the line that its address translates to now, or at no line of the module where it does not translate. -/
def State.rewatch (s : State) (ctx : Nat) (w : Watch) : Watch :=
  if !w.armed then w else { w with line := ((s.placeOf ctx w.va).map lineOf).getD (2 ^ 45), fired := true }

/-- The strands' keys at resume by those at the save, on every core of the leaf. -/
def Saved.names (v : Saved) (next : Nat) : SMap Nat :=
  let uids := v.cores.flatMap fun k => k.strands.map (·.1)
  (uids.zip (List.range uids.length)).foldl (fun m e => Sparse.put m e.1 (next + e.2)) []

/-- A strand of the save under its new key, or none. -/
def newName (m : SMap Nat) (u : Nat) : Nat := (Sparse.get m u).getD 0

/-- A strand that a strand waits for: under its new key, under its own where it was not saved and is there, or none. -/
def State.renamed (s : State) (m : SMap Nat) (u : Nat) : Nat :=
  match Sparse.get m u with
  | some v => v
  | none => if (s.strand? u).isSome then u else 0

/-- What a strand awaits, in the context and with the strands of the resume. -/
def State.awaitAgain (s : State) (m : SMap Nat) (ctx : Nat) (a : Await) : Await :=
  match a with
  | .stepped u => .stepped (s.renamed m u)
  | .scopeZero _ n => .scopeZero ctx n
  | a => a

/-- A restored strand takes its slot, or another where that one is taken, or a spill record; its EPOCH advances (24 R411), and it is READY
behind those restored before it. -/
def State.restoreStrand (s : State) (ctx core : Nat) (sameBase : Bool) (m : SMap Nat) (e : Nat × Strand) : State :=
  let st := e.2
  let place : Place :=
    match st.place with
    | .slot n =>
      if (s.strandAt core n).isNone then .slot n
      else match s.freeSlot core with | some m => .slot m | none => .spill n
    | p => p
  let slot := match place with | .slot n => n | _ => 0
  let ep := ((Sparse.get (s.core core).epochs slot).getD 0 + 1) % 256
  let s := match place with
    | .slot _ => s.editCore core fun k => { k with epochs := Sparse.put k.epochs slot ep }
    | _ => s
  let spilled := match place with | .spill _ => true | _ => false
  let ready := st.state == .ready || st.state == .run
  let bound := match st.vec with | some v => !v.spilled | none => false
  let st := if bound && 8 ≤ s.boundContexts core then spillVec st else st
  { s.setStrand e.1
      { st with core := core, ctx := ctx, place := place, epoch := ep, streamSeq := []
                woken := st.woken || (spilled && ready), since := s.order
                state := if ready then (if spilled then .parked else .ready) else st.state
                await := s.awaitAgain m ctx st.await
                visMax := if sameBase then st.visMax else 0
                watch := st.watch.map (s.rewatch ctx)
                region := st.region.map fun g => { g with blocked := g.blocked.map (s.awaitAgain m ctx) } }
    with order := s.order + 1 }

/-- The strands of a core, the one that took its state first leading. -/
def bySince (l : List (Nat × Strand)) : List (Nat × Strand) :=
  l.foldl (fun out e => (out.takeWhile fun d => d.2.since ≤ e.2.since) ++ e :: (out.dropWhile fun d => d.2.since ≤ e.2.since)) []

/-- A strand in the second wait of a BAR re-enters it at the word's place now (R380), or issues again where its address no longer
translates. -/
def State.restoreWait (s : State) (ctx : Nat) (w : Waiter) : State :=
  match s.placeOf ctx w.va with
  | some pa => { s with waiters := s.waiters ++ [{ w with addr := pa, listed := true }] }
  | none => s.goOn w.uid w.access

/-- A command of the context on a core of its leaf. -/
def State.restoreCmd (s : State) (ctx : Nat) (m : SMap Nat) (move : Rect → Rect) (c : Command) : Command :=
  let u := newName m c.uid
  { c with uid := u, sid := ((s.strand? u).map (·.sid)).getD c.sid, ctx := ctx, rect := move c.rect }

/-- A saved core is restored into the core at its offset in the leaf. -/
def State.restoreCore (s : State) (ctx : Nat) (r : Rect) (sameBase : Bool) (m : SMap Nat) (move : Rect → Rect) (v : SavedCore) : State :=
  let core := coreAt (r.ofile + v.dx) (r.orank + v.dy)
  if !r.hasCore core then s
  else
    let base := scratchBase core
    let inside (a : Nat) : Bool := base ≤ a && a < base + 2 ^ 17
    let strands := (bySince v.strands).map fun e => (newName m e.1, e.2)
    let s := strands.foldl (fun s e => s.restoreStrand ctx core sameBase m e) s
    let trans (l : List TlbEntry) : List TlbEntry := l.map fun t => { t with ctx := ctx }
    let eng (e old : Engine) : Engine :=
      let e := { e with queue := e.queue ++ old.queue.map (s.restoreCmd ctx m move), sum := old.sum, tlb := (trans old.tlb ++ e.tlb).take 32 }
      let named (u : Option Nat) : Option Nat := u.bind (Sparse.get m)
      if e.claim.isSome then e else { e with shadow := old.shadow, claim := named old.claim, last := named old.last }
    let arrivals := v.arrivals.filterMap fun a => match a with
      | .strand u => if (Sparse.get m u).isSome then some (Arrival.strand (newName m u)) else none
      | a => some a
    let tagOf (n : Nat) : Nat :=
      (((v.strands.find? fun e => e.2.place == .slot n).bind fun e => s.strand? (newName m e.1)).map (·.slotNo)).getD n
    let s := s.editCore core fun k =>
      { k with mx := eng k.mx v.mx, ce := eng k.ce v.ce, acc := v.acc, codebook := v.codebook, cregs := v.cregs, cwrites := []
               deque := k.deque ++ v.deque.map (fun d => { d with tag := d.tag.map tagOf })
               spilled := k.spilled ++ v.dqSpilled.map (fun d => { d with ctx := ctx })
               arrivals := k.arrivals ++ arrivals
               tlb := (trans v.tlb ++ k.tlb).take 64, itlb := (trans v.itlb ++ k.itlb).take 32
               brk := v.brk.foldl (fun b e => Sparse.put b e.1 e.2) k.brk
               seq := match k.seq with | some u => some u | none => v.seq.bind (Sparse.get m) }
    let mem := v.scratch.foldl (fun m e => Memory.set m (base + e.1 % 2 ^ 17) e.2) (s.mem.filter fun e => !inside e.1)
    let words (l old : List Nat) : List Nat :=
      l.foldl (fun l w => insertNat l (base / 8 + w % 2 ^ 14)) (old.filter fun w => !inside (8 * w))
    let s := { s with mem := mem, empties := words v.scratchEmpty s.empties, poison := words v.scratchBad s.poison }
    let s := v.waits.foldl (fun s w => s.restoreWait ctx { w with uid := newName m w.uid }) s
    v.router.foldl (fun s e => s.editLaunch e.1 fun l => { l with flight := l.flight ++ [e.2] }) s

/-- A match entry returns to the board of its core. -/
def State.restoreMatch (s : State) (ctx : Nat) (r : Rect) (e : Nat × Nat × Match) : State :=
  let core := coreAt (r.ofile + e.1) (r.orank + e.2.1)
  match (List.range 1024).find? fun i => (Sparse.get s.matches_ (boardOf core * 1024 + i)).isNone with
  | some i => { s with matches_ := Sparse.put s.matches_ (boardOf core * 1024 + i) { e.2.2 with ctx := ctx, core := core } }
  | none => s

/-- The token levels return, below the capacity in force. -/
def State.restoreTokens (s : State) (ctx : Nat) (v : Saved) : State :=
  match v.tokens with
  | none => s
  | some n =>
    if !s.hasBucket ctx then s
    else
      let cap := bucketCap (s.bucketEntry ctx)
      { s with
        buckets := Sparse.put s.buckets ctx (min cap n)
        homes := { s.homes with
          ports := v.ports.foldl (fun m p => Sparse.put m (p.1 / 4096 * 4096 + ctx) (min cap p.2))
            (s.homes.ports.filter fun p => p.1 % 4096 != ctx) } }

/-- R399, and VTLAST. -/
def State.resumeTime (s : State) (c : CastCmd) : State :=
  let last := s.word (c.isave + 0x20)
  let away := field (s.word (c.isave + 8)) 11 0 != s.jobNumber c.into
  s.editCtx c.into fun x =>
    let x := { x with vtLast := last }
    if c.hide || away then { x with vtOff := last, vtBase := s.gclk } else x

/-- A rectangle inside the leaf that was stopped, in the leaf that resumes. -/
def Rect.moved (old new r : Rect) : Rect :=
  if r.inside old then { r with ofile := new.ofile + (r.ofile - old.ofile), orank := new.orank + (r.orank - old.orank) } else r

/-- The launch records of the context, which the arbiter keeps: in the leaf that resumes, with the callers' new keys, and pending from now
on (R384; 02 R48, R63). -/
def State.restoreLaunches (s : State) (ctx : Nat) (m : SMap Nat) (move : Rect → Rect) : State :=
  { s with launches := Sparse.mapVals (fun _ l =>
      if l.ctx == ctx then { l with rect := move l.rect, caller := (Sparse.get m l.caller).getD l.caller, pendFrom := s.gclk } else l) s.launches }

/-- Steps 2 to 6 of R387. -/
def State.resumeContext (s : State) (c : CastCmd) : State :=
  match s.leafWithin c.into c.nodeRect with
  | none => s
  | some l =>
    let v := s.foundSave c.isave c.into l.node
    let sameBase := s.word (c.isave + 0x28) == s.lbase
    let move := Rect.moved (rectOf (s.word (c.isave + 0x10)).toNat) l.node
    let m := v.names s.nextUid
    let s := { s with nextUid := s.nextUid + m.length }
    let s := s.restoreLaunches c.into m move
    let s := v.cores.foldl (fun s k => s.restoreCore c.into l.node sameBase m move k) s
    let s := s.editCtx c.into fun x => { x with scopes := v.scopes, groups := v.groups }
    let s := v.matches_.foldl (fun s e => s.restoreMatch c.into l.node e) s
    let s := (s.restoreTokens c.into v).resumeTime c
    let s := s.editCtx c.into fun x =>
      { x with stopped := false, thr := if c.thr = 0 then 224 else c.thr, castWaits := true }
    s.noteResidency c.into

end Sys2Proof.Machine
end

