-- ==== Sys2Proof/Machine/CastMove.lean ====
section
/-!
DEFINITION. Castling: the moves of units, and the events of the castling engine (23 R377, R378, R387, R392 to R398).
-/

namespace Sys2Proof.Machine

/-! ### A move (R392, R394, R398) -/

/-- Every cached copy of a frame goes home and away. -/
def State.flushFrame (s : State) (pa : Nat) : State :=
  let lines := (List.range 512).map (lineOf pa + ·)
  let s := s.cores.foldl (fun s e =>
    lines.foldl (fun s l => if ((s.l1 e.1 l).bind (·.swm)).isSome then (s.swmWriteBack e.1 l).swmDrop e.1 l else s) s) s
  let s := lines.foldl (fun s l => s.invalidateAll none l) s
  let outside (key : Nat) : Bool := key / 4096 < lineOf pa || lineOf pa + 512 ≤ key / 4096
  { s with cores := Sparse.mapVals (fun _ k =>
      { k with icache := k.icache.filter fun e => outside e.1, ccache := k.ccache.filter outside }) s.cores }

/-- The lines of a frame are free: who waited for them goes on. -/
def State.releaseFrame (s : State) (pa : Nat) : State :=
  ((List.range 512).map (lineOf pa + ·)).foldl State.releaseLine s

/-- RES and MOV of an entry. -/
def State.markUnit (s : State) (map i : Nat) (res mov : Bool) : State :=
  let at_ := map + 16 * i
  let w := s.word at_ &&& 0x5FFFFFFFFFFFFFFF
  s.engineStore at_ (w ||| (if res then 0x8000000000000000 else 0) ||| (if mov then 0x2000000000000000 else 0)).toNat

/-- Steps 1 to 3, once no line of the source frame is in use. -/
def State.startMove (s : State) (m : Move) : State :=
  match s.ctx? m.ctx with
  | none => s
  | some c =>
    let u := s.unitAt c.castMap m.entry
    let t := s.settleRun u.frame 65536
    if t.runHeld u.frame 65536 then s
    else
      let t := t.markUnit c.castMap m.entry u.res true
      let t := t.tlbInvRun m.ctx (u.va * 65536) 65536
      { t.flushFrame u.frame with moving := some m }

/-- Step 4 for the data: 64 KiB, with the words that cannot be read poisoned at the destination and an entry for each (R398, 24
R422). -/
def State.copyFrame (s : State) (ctx va16 src dst : Nat) : State :=
  if s.tierDown src || s.tierDown dst then
    let s := s.localError ctx (BitVec.ofNat 64 (va16 * 65536)) 5 37 0
    if s.tierDown dst then s else (List.range 8192).foldl (fun s i => s.setPoison (dst + 8 * i)) s
  else
    let bad := (wordsOfRun src 65536).filter s.poison.contains
    let s := { s with mem := Memory.setBytes s.mem dst (Memory.getBytes s.mem src 65536)
                      poison := s.poison.filter fun w => w < dst / 8 || dst / 8 + 8192 ≤ w }
    bad.foldl (fun s w =>
      (s.setPoison (dst + (8 * w - src))).localError ctx (BitVec.ofNat 64 (va16 * 65536 + (8 * w - src))) 5 Cause.memoryUe 0) s

/-- Step 5. -/
def State.rewriteLeaves (s : State) (root : Word) (u : Unit64) (frame : Nat) (clearD : Bool) : State :=
  (s.unitLeaves root u.va).foldl (fun s (addr, e, bits, i) =>
    let keep : Word := e &&& ~~~(0xFFFFFFFFFF000 : Word) &&& (if clearD then ~~~(0x80 : Word) else BitVec.allOnes 64)
    s.engineStore addr (keep ||| BitVec.ofNat 64 (frame + if bits = 12 then 4096 * i else 0)).toNat) s

/-- The 8,192 bits of an HBM frame, eight to a byte. -/
def State.frameBits (s : State) (pa : Nat) : List (BitVec 8) :=
  (List.range 1024).map fun m =>
    (List.range 8).foldl (fun b i => if s.isFull (pa + 8 * (8 * m + i)) then b ||| (1#8 <<< i) else b) 0

/-- The bits of a slot go to an HBM frame. -/
def State.setFrameBits (s : State) (pa slot : Nat) : State :=
  (List.range 8192).foldl (fun s w => s.markFull (pa + 8 * w) ((Memory.get s.mem (slot + w / 8)).getLsbD (w % 8))) s

/-- A freed HBM frame is filled with zeros by the steps of 04 R113. -/
def State.zeroFrame (s : State) (pa : Nat) : State :=
  let s := s.flushFrame pa
  let s := { s with mem := Memory.setBytes s.mem pa (List.replicate 65536 0)
                    poison := s.poison.filter fun w => w < pa / 8 || pa / 8 + 8192 ≤ w }
  let s := (List.range 8192).foldl (fun s i => s.setFull (pa + 8 * i)) s
  (s.written pa 65536).releaseFrame pa

/-- Steps 4 to 6 of a promotion. -/
def State.promoteUnit (s : State) (c : Ctx) (m : Move) (u : Unit64) (count : State → State) : State :=
  let s := s.flushFrame u.hbm
  let s := (count (s.copyFrame m.ctx u.va u.tier u.hbm)).setFrameBits u.hbm (c.castBits + 1024 * m.entry)
  let s := (s.rewriteLeaves c.root u u.hbm true).markUnit c.castMap m.entry true false
  (s.written u.hbm 65536).releaseFrame u.hbm

/-- Steps 4 to 6 of a demotion, and the zero fill of the frame. -/
def State.demoteUnit (s : State) (c : Ctx) (m : Move) (u : Unit64) (count : State → State) : State :=
  let dirty := (s.unitLeaves c.root u.va).any fun (_, e, _, _) => pteD e
  let s := if dirty then (count ((s.flushFrame u.tier).copyFrame m.ctx u.va u.hbm u.tier)).written u.tier 65536 else s
  let s := s.castStore (c.castBits + 1024 * m.entry) (s.frameBits u.hbm)
  ((s.rewriteLeaves c.root u u.tier false).markUnit c.castMap m.entry false false).zeroFrame u.hbm

/-- Steps 4 to 6, once no line of either frame is in use. -/
def State.finishMove (s : State) (m : Move) : State :=
  match s.ctx? m.ctx with
  | none => { s with moving := none }
  | some c =>
    let u := s.unitAt c.castMap m.entry
    let t := (s.settleRun u.hbm 65536).settleRun u.tier 65536
    if t.runHeld u.hbm 65536 || t.runHeld u.tier 65536 then s
    else
      let t := t.flushFrame u.frame
      let count (s : State) : State := if m.counts then { s with castMoved := s.castMoved + 65536 } else s
      { (if m.promote then t.promoteUnit c m u count else t.demoteUnit c m u count) with moving := none }

/-! ### Which unit comes next (R393 to R396) -/

/-- The running command counts what it moves of a context's working set, wherever in its queue a waiter puts a unit (R378). -/
def State.countsMove (s : State) (ctx : Nat) (u : Unit64) : Bool :=
  match s.castRun with
  | some (c, .promoting) => ctx == c.into && u.ws
  | _ => false

/-- The move that brings a unit into HBM next: its own, or that of the stopped context's unit in its frame; none where it must
wait or has arrived. -/
def State.moveFor (s : State) (ctx entry : Nat) (free : Bool) : Option Move :=
  match s.ctx? ctx with
  | none => none
  | some c =>
    let u := s.unitAt c.castMap entry
    let counts := s.countsMove ctx u
    if u.res || c.castCount ≤ entry then none
    else
      match s.frameHolder u.hbm with
      | none => some ⟨ctx, entry, true, counts⟩
      | some (h, e) => if !free && s.isStopped h then some ⟨h, e, false, counts⟩ else none

/-- Units with a waiter: strands, regions, engine commands, and what the fabric has asked for (R393, R394). -/
def State.unitWaiters (s : State) : List (Nat × Nat) :=
  let of_ (a : Await) : List (Nat × Nat) := match a with | .tier c e => [(c, e)] | _ => []
  let stall (e : Engine) : List (Nat × Nat) := match e.stall with | some (_, a) => of_ a | none => []
  (s.strands.flatMap fun e =>
    (if e.2.state == .parked then of_ e.2.await else []) ++
    (match e.2.region.bind (·.blocked) with | some a => of_ a | none => [])) ++
  (s.cores.flatMap fun e => stall e.2.mx ++ stall e.2.ce) ++ s.moveNext.map fun m => (m.ctx, m.entry)

/-- The promotion that the running command makes next. -/
def State.commandMove (s : State) : Option Move :=
  match s.castRun with
  | some (c, .promoting) =>
    match s.ctx? c.into with
    | none => none
    | some x => (List.range x.castCount).findSome? fun i =>
        if (s.unitAt x.castMap i).ws then s.moveFor c.into i (c.op == 4) else none
  | _ => none

def State.nextMove (s : State) : Option Move :=
  match (s.unitWaiters).findSome? fun e => s.moveFor e.1 e.2 false with
  | some m => some m
  | none => s.commandMove

/-- The running command is done once nothing remains that it could promote (R378). -/
def State.castCheck (s : State) : State :=
  match s.castRun with
  | some (c, .promoting) => if s.commandMove.isNone then (s.castEnd c 0).getD s else s
  | _ => s

/-- The requests that have been met are forgotten. -/
def State.forgetRequests (s : State) : State :=
  { s with moveNext := s.moveNext.filter fun m =>
      match s.ctx? m.ctx with
      | some c => !(s.unitAt c.castMap m.entry).res
      | none => false }

/-- A move begins, or the one under way ends. -/
def State.unitMove (s : State) : State :=
  match s.moving with
  | some m => ((s.finishMove m).forgetRequests).castCheck
  | none =>
    match s.nextMove with
    | some m => s.startMove m
    | none => s.castCheck

def execUnitMove (s : State) : Result := .next s.unitMove

/-! ### Commands (R377) -/

/-- The engine keeps the map and the bit array that a command gives for a context (R394). -/
def State.keepMap (s : State) (ctx map n bits : Nat) : State :=
  s.editCtx ctx fun c => { c with castMap := map, castCount := n, castBits := bits }

/-- RESUME and the second half of SWITCH. -/
def State.beginResume (s : State) (c : CastCmd) : State :=
  { s.resumeContext c with castRun := some (c, .promoting) }.castCheck

/-- The save, and what the command has left to do, once every operation is answered and the lines it writes are free. -/
def State.finishStop (s : State) (c : CastCmd) (t base : Word) : State :=
  let s := s.withdrawHere c.out
  if !s.acknowledged c.out || !s.areaFree c || s.moving.isSome then s
  else if c.op = 1 then ((s.saveContext c t base).castEnd c 0).getD s
  else (s.saveContext c t base).beginResume c

/-- The token visits the router of a core of OUT's leaf, in turn; behind the last one the save follows (R382). -/
def State.sweep (s : State) (core : Nat) : State :=
  match s.castRun with
  | some (c, .sweeping t base i) =>
    match s.leafWithin c.out c.nodeRect with
    | none => s
    | some l =>
      let cores := l.node.cores
      if cores[i]? == some core then { s.sweepRouter c.out core with castRun := some (c, .sweeping t base (i + 1)) }
      else if cores.length ≤ i && cores.getLast? == some core then s.finishStop c t base
      else s
  | _ => s

def execSweepToken (core : Nat) (s : State) : Result := .next (s.sweep core)

/-- A command starts, its checks passed. -/
def State.beginCast (s : State) (c : CastCmd) : State :=
  let s := if c.usesOut then s.keepMap c.out c.omap c.omapN c.obits else s
  let s := if c.usesIn then s.keepMap c.into c.imap c.imapN c.ibits else s
  match c.op with
  | 2 => s.beginResume c
  | 4 => { s with castRun := some (c, .promoting) }.castCheck
  | _ => { s with castRun := some (c, .toStop (s.gclk + BitVec.ofNat 64 (max c.lead 38400))) }

/-- The command at the head of the queue starts, once no unit is on the move, or ends with the status of its first failing check. -/
def State.startCast (s : State) (code : Nat) : State :=
  match s.castRun, s.castQ with
  | none, c :: rest =>
    if (c.op != code && 1 ≤ c.op && c.op ≤ 4) || s.moving.isSome then s
    else
      let t := { s with castQ := rest, castMoved := 0 }
      match t.castStatus c with
      | 0 => t.beginCast c
      | status => (t.castEnd c status).getD s
  | _, _ => s

def execStop (s : State) : Result := .next (s.startCast 1)
def execResume (s : State) : Result := .next (s.startCast 2)
def execSwitch (s : State) : Result := .next (s.startCast 3)
def execPrefetch (s : State) : Result := .next (s.startCast 4)

end Sys2Proof.Machine
end

