-- ==== Sys2Proof/Machine/Fabric.lean ====
section
/-!
DEFINITION. The Trolan fabric: routers and ports, remote operations at their target and their responses at the source, lease
clocks and the wrap pause, tier links, the job table (24 R401 to R422, 05 R130 to R133).
-/

namespace Sys2Proof.Machine

/-! ### Routes (R402, R405, R406) -/

/-- The X, Y, Z and W coordinates of a system module number. -/
def moduleX (n : Nat) : Nat := n % 2
def moduleY (n : Nat) : Nat := n / 2 % 4
def moduleZ (n : Nat) : Nat := n / 8 % 16
def moduleW (n : Nat) : Nat := n / 128 % 32

/-- A hop over the port is down (R406). -/
def Port.down? (p : Port) : Bool := !p.enabled || p.width == 0 || p.stalemate

def State.portDown (s : State) (n : Nat) : Bool :=
  match s.ports[n]? with
  | some p => p.down?
  | none => true

/-- Whether a step from `a` to `b` goes in the positive direction: the shorter way around a torus of `n`, a tie in the positive
direction; straight on a mesh. -/
def stepsUp (torus : Bool) (n a b : Nat) : Bool :=
  if torus then decide (2 * ((b + n - a) % n) ≤ n) else decide (a < b)

/-- The module across a port. -/
def State.acrossPort (s : State) (n : Nat) : Nat :=
  let me := s.selfModule
  let z := 2 ^ bitsOf s.syspos.toNat 17 15
  let w := 2 ^ bitsOf s.syspos.toNat 20 18
  let at_ (z w : Nat) : Nat := me % 8 + 8 * (z + 16 * w)
  match n with
  | 2 => me + 2
  | 3 => me - 2
  | 4 => at_ ((moduleZ me + 1) % z) (moduleW me)
  | 5 => at_ ((moduleZ me + z - 1) % z) (moduleW me)
  | 6 => at_ (moduleZ me) ((moduleW me + 1) % w)
  | 7 => at_ (moduleZ me) ((moduleW me + w - 1) % w)
  | _ => me ^^^ 1

/-- The hop over a port crosses a torus wrap. -/
def State.crossesWrap (s : State) (n : Nat) : Bool :=
  let me := s.selfModule
  match n with
  | 4 => moduleZ me + 1 == 2 ^ bitsOf s.syspos.toNat 17 15
  | 5 => moduleZ me == 0
  | 6 => moduleW me + 1 == 2 ^ bitsOf s.syspos.toNat 20 18
  | 7 => moduleW me == 0
  | _ => false

/-- The port of R405; none where the packet is at its module. -/
def State.nextPort (s : State) (p : Packet) : Option Nat :=
  let me := s.selfModule
  let job := s.jobs.toList.find? fun e => e.getLsbD 63 && field e 15 0 == p.job
  let zlog := bitsOf s.syspos.toNat 17 15
  let wlog := bitsOf s.syspos.toNat 20 18
  let torus (hi lo log : Nat) : Bool := match job with | some e => field e hi lo == log | none => false
  if moduleW p.dst != moduleW me then
    some (if stepsUp (torus 43 41 wlog) (2 ^ wlog) (moduleW me) (moduleW p.dst) then 6 else 7)
  else if moduleZ p.dst != moduleZ me then
    some (if stepsUp (torus 40 38 zlog) (2 ^ zlog) (moduleZ me) (moduleZ p.dst) then 4 else 5)
  else if moduleY p.dst != moduleY me then some (if moduleY me < moduleY p.dst then 2 else 3)
  else if moduleX p.dst != moduleX me then some (if moduleX me < moduleX p.dst then 0 else 1)
  else none

/-- The first hop of the detour around a port that is down (R406) (DEDUCED, log entry 29). -/
def State.detour (s : State) (port : Nat) : Nat :=
  if port < 2 then (if moduleY s.selfModule = 3 then 3 else 2) else (if moduleX s.selfModule = 0 then 0 else 1)

/-- The port that a packet leaves by, and the packet as it leaves (R405, R406); none where it cannot go on: a hop of a detour is down, or
its module is a neighbour in the stalemate state. -/
def State.route (s : State) (p : Packet) : Option (Nat × Packet) :=
  match p.hop with
  | some n => if s.portDown n then none else some (n, { p with hop := none })
  | none =>
    match s.nextPort p with
    | none => none
    | some n =>
      if !s.portDown n then some (n, if s.crossesWrap n then { p with channel := 1 } else p)
      else if ((s.ports[n]?).map (·.stalemate)).getD false && s.acrossPort n == p.dst then none
      else if s.portDown (s.detour n) then none
      else some (s.detour n, { p with channel := 1, hop := some n })

/-! ### Ports and replay buffers (R407, R408) -/

/-- The header flit and the data flits of 32 B. -/
def flitsOf (p : Packet) : Nat := 1 + (p.words.length + 3) / 4

def replayFlits (l : List (Nat × Packet)) : Nat := (l.map fun e => flitsOf e.2).sum

/-- The oldest packet leaves the buffer: its tail flit has been acknowledged. -/
def Port.oldestGoes (p : Port) : Port :=
  match p.replay with
  | [] => p
  | e :: l => { p with replay := l, flits := (p.flits + flitsOf e.2) % 65536 }

def State.editPort (s : State) (n : Nat) (g : Port → Port) : State :=
  { s with ports := s.ports.setIfInBounds n (g ((s.ports[n]?).getD Port.down)) }

/-- The receiver's acknowledgement of the oldest packet's tail, which the link carries while it is up (R408; when it comes nothing states:
DESIGN CHOICE, log entry 27). -/
def State.takeTailAck (s : State) (n : Nat) : State :=
  if ((s.ports[n]?).map fun p => p.down? || p.silent).getD true then s else s.editPort n Port.oldestGoes

/-- A packet that this module sends or forwards. It stays while the buffer of its port has no room for it; where it cannot go on, an
operation fails with UNREACHABLE. -/
def State.transmit (s : State) (ty : Nat) (p : Packet) : State :=
  let keep (s : State) : State := { s with outbox := s.outbox ++ [(ty, p)] }
  if p.dst == s.selfModule then keep s
  else
    match s.route p with
    | none => if ty ≤ 5 then s.respond 0x12 p (BitVec.ofNat 64 causeUnreachable) [] else s
    | some (n, q) =>
      let port := (s.ports[n]?).getD Port.down
      if 256 < replayFlits port.replay + flitsOf p then keep s
      else s.editPort n fun r => { r with replay := r.replay ++ [(ty, { q with link := none })] }

/-- What waits at the router goes on: packets to other modules leave, packets to this one stay for their delivery. -/
def State.pump (s : State) : State :=
  if s.outbox.isEmpty then s
  else
    let s' := s.outbox.foldl (fun s e => s.transmit e.1 e.2) { s with outbox := [] }
    if s'.outbox.all fun e => e.2.dst == s.selfModule then s'
    else s'.outbox.foldl (fun s e => s.transmit e.1 e.2) { s' with outbox := [] }

/-! ### Arrival at the target (R411 to R413) -/

def StreamRec.is (r : StreamRec) (p : Packet) : Bool := r.src == p.src && r.strand == p.strand && r.epoch == p.epoch

def State.streamOf (s : State) (p : Packet) : Option StreamRec := s.streams.find? (·.is p)

/-- The port at which a packet comes in takes it: its header flit is the one that comes next there, and what a refused flit has made the
receiver discard ends with it. Its tail flit is acknowledged. Any other packet is discarded (R408, R410). -/
def State.takenAt (s : State) (p : Packet) : Option State :=
  match p.link with
  | none => some s
  | some (n, no) =>
    match s.ports[n]? with
    | none => none
    | some q =>
      if no % 65536 != q.expects then none
      else
        some { s.editPort n fun q => { q with expects := (q.expects + flitsOf p) % 65536, discarding := false } with
          answers := s.answers ++ [.tailAck n] }

/-- A packet leaves the router or its port. One for another module goes on there; one for this module is handled. In the stalemate state
none is. -/
def State.taken (s : State) (ty : Nat) (p : Packet) (here : State → Packet → State) : State :=
  if s.boot.state = 5 then s
  else
    match s.takenAt p with
    | none => s
    | some t =>
      let t := { t with outbox := t.outbox.erase (ty, p) }
      let q := { p with link := none }
      if p.dst != s.selfModule then { t with outbox := t.outbox ++ [(ty, q)] } else here t q

/-- How the target checks a word of an operation (R221, R413). -/
def remoteCheck (ty mode n : Nat) : Check :=
  match ty, mode with
  | 1, 0 => Check.load 8
  | 1, 1 => Check.sync true
  | 1, _ => Check.sync false
  | 3, m => ⟨n, .write, m != 0, true, true, true⟩
  | _, 0 => Check.store 8
  | _, _ => Check.sync false

/-- Whether an operation of the packet waits in a retry list already. -/
def State.waitsRemote (s : State) (ty : Nat) (p : Packet) : Bool :=
  s.waiters.any fun w => match w.kind with | .remote t q _ => t == ty && q == p | _ => false

/-- The job of a packet is not one of the module's (R413). -/
def State.unknownJob (s : State) (p : Packet) : State := { s.refusePacket p 32 with jobFilter := s.jobFilter + 1 }

/-- The context is the target's, and its words are heard at their homes: the operation is performed, or its wait is listed. -/
def State.performAt (s : State) (ty : Nat) (p : Packet) (xs : List Xlat) : State :=
  let pas := xs.map (·.pa)
  let pa := pas.headD 0
  let kind : WaitKind := .remote ty p pas
  let coherent := match xs with | x :: _ => s.pathOf x == .coherent | [] => false
  if kind.met s pa then
    let (s, wrote) := s.performRemote ty p pa pas coherent (s.jobLeaf p.job)
    if wrote then pas.foldl (fun s a => s.written a (remoteBytes ty p.aux)) s else s
  else
    let w : Waiter :=
      { no := s.order, uid := 0, access := false, addr := pa, kind := kind, dest := 0, tries := 0, listed := true, len := 0, va := p.addr,
        coherent := coherent }
    { s with waiters := s.waiters ++ [w], order := s.order + 1 }

/-- An operation whose turn it is in its stream. Behind a tier link that is down a read fails as the read of a program does, and a store with
TIERLINK (R416, R422). -/
def State.perform (s : State) (ty : Nat) (p : Packet) : State :=
  match s.jobCtx p.job with
  | none => s.unknownJob p
  | some ctx =>
    let n := remoteBytes ty p.aux
    match s.targetAccess (askerOf p) ctx (remoteCheck ty p.mode n) n (if ty = 4 then p.words.length else 1) p.addr with
    | (.error (.trap cause _ _), s) => s.refusePacket p cause
    | (.error (.wait a), s) => (s.askUnit a).standStream p a
    | (.ok xs, s) =>
      if xs.any fun x => s.tierDown x.pa then s.refusePacket p (if ty == 1 || ty == 3 then Cause.memoryUe else causeTierlink)
      else s.performAt ty p xs

/-- A packet of the tag that the board's buffer holds from earlier comes first (R415). -/
def State.heldBefore (s : State) (p : Packet) : Bool :=
  ((s.unexpectedOf p.board).takeWhile (· != p)).any fun q => q.job == p.job && field q.addr 31 0 == field p.addr 31 0

/-- The packet waits in the buffer of its board, which holds 64. -/
def State.holdTag (s : State) (p : Packet) : State :=
  let held := s.unexpectedOf p.board
  if held.contains p then s else if 64 ≤ held.length then s.refusePacket p 35 else s.setUnexpected p.board (held ++ [p])

/-- R415: the tag form. A packet without an entry is held, and its stream waits for it. -/
def State.performTag (s : State) (p : Packet) : State :=
  match s.jobCtx p.job with
  | none => s.unknownJob p
  | some ctx =>
    match s.matchOf ctx p.board (field p.addr 31 0) with
    | none => s.holdTag p
    | some (key, m) =>
      if s.heldBefore p then s.holdTag p
      else
        match s.deliverTag key m p with
        | (true, s) => s.setUnexpected p.board ((s.unexpectedOf p.board).erase p)
        | (false, s) => s

/-- The operation at hand, if it does not wait already. -/
def State.performPacket (s : State) (ty : Nat) (p : Packet) : State :=
  if s.waitsRemote ty p then s else if ty = 5 then s.performTag p else s.perform ty p

/-- The operations of a stream that have arrived, in SEQ order, as far as they go. -/
def State.runStream (s : State) (p : Packet) : Nat → State
  | 0 => s
  | fuel + 1 =>
    match s.streamOf p with
    | none => s
    | some r =>
      match r.held.find? fun h => h.1 == r.expected with
      | none => s
      | some (_, ty, q) =>
        let s' := s.performPacket ty q
        if (s'.streamOf p).map (·.expected) == some r.expected then s' else State.runStream s' p fuel

/-- A packet of a stream that has a record is held by its number, and the stream goes on. -/
def State.accept (s : State) (ty : Nat) (p : Packet) (r : StreamRec) : State :=
  let s :=
    if (p.seq + 65536 - r.expected) % 65536 < 64 && !(r.held.any fun h => h.1 == p.seq) then
      { s with streams := s.streams.map fun q => if q.is p then { q with held := q.held ++ [(p.seq, ty, p)] } else q }
    else s
  s.runStream p 65

/-- The record that a stream without one takes: it goes on where the record it had before was freed, or begins at 0 (R411, R412; DEDUCED,
log entry 28). -/
def State.newStream (s : State) (p : Packet) : StreamRec :=
  let first :=
    match s.quiet.find? (·.is p) with
    | some r => if (p.seq + 65536 - r.expected) % 65536 < 64 then r.expected else 0
    | none => 0
  { src := p.src, strand := p.strand, epoch := p.epoch, expected := first, held := [], queued := none }

/-- No record is free: the packet is refused, and its sender sends it again, which is this module at its own interface (R412). -/
def State.refuse (s : State) (p : Packet) : State :=
  if p.src != s.selfModule || s.refused.any (fun r => r.strand == p.strand && r.epoch == p.epoch) then s
  else { s with refused := s.refused ++ [⟨p.strand, p.epoch, p.seq, s.gclk + 600⟩] }

/-- An operation for this module: of a new stream, or the next of a stream. -/
def State.receive (s : State) (ty : Nat) (p : Packet) : State :=
  s.taken ty p fun s p =>
    match s.streamOf p with
    | some r => s.accept ty p r
    | none =>
      if 4096 ≤ s.streams.length then s.refuse p
      else
        let r := s.newStream p
        { s with streams := s.streams ++ [r], quiet := s.quiet.filter fun r => !r.is p }.accept ty p r

def execFabricLdx (p : Packet) (s : State) : Result := .next (s.receive 1 p)
def execFabricStx (p : Packet) (s : State) : Result := .next (s.receive 2 p)
def execFabricRemoteAtomic (p : Packet) (s : State) : Result := .next (s.receive 3 p)
def execFabricMsgMailbox (p : Packet) (s : State) : Result := .next (s.receive 4 p)
def execFabricMsgTag (p : Packet) (s : State) : Result := .next (s.receive 5 p)

/-- R412: what a stream of this module has outstanding from a refused number on is sent again. At the module's own interface this happens
once 600 cycles have passed; of another module the event says so. -/
def State.resend (s : State) (dst strand epoch seq : Nat) : State :=
  let ours (r : Refused) : Bool := r.strand == strand && r.epoch == epoch && r.seq == seq && r.due ≤ s.gclk
  if dst == s.selfModule && !s.refused.any ours then s
  else
    let again := s.sent.filter fun e =>
      e.packet.dst == dst && e.packet.strand == strand && e.packet.epoch == epoch && (e.packet.seq + 65536 - seq) % 65536 < 64 &&
      !s.outbox.contains (e.ty, e.packet)
    { s with outbox := s.outbox ++ again.map (fun e => (e.ty, e.packet))
             refused := if dst == s.selfModule then s.refused.filter fun r => !ours r else s.refused }

def execStreamResend (p : Packet) (s : State) : Result := .next (s.resend p.dst p.strand p.epoch p.seq)

/-- R412: the record of a stream that has gone quiet is free; where it stood the stream goes on. -/
def State.freeStream (s : State) (src strand epoch : Nat) : State :=
  let goes (r : StreamRec) : Bool := r.src == src && r.strand == strand && r.epoch == epoch
  { s with streams := s.streams.filter fun r => !(goes r && r.held.isEmpty)
           quiet := (s.quiet.filter fun r => !goes r) ++ s.streams.filter fun r => goes r && r.held.isEmpty }

def execStreamRecordFree (src strand epoch : Nat) (s : State) : Result := .next (s.freeStream src strand epoch)

/-- R415: the packet that has waited longest for an entry of its tag fails with NOTAG. -/
def State.dropUnexpected (s : State) (board : Nat) : State :=
  match (s.unexpectedOf board).find? fun p => (s.matchFor board p).isNone with
  | none => s
  | some p => ((s.setUnexpected board ((s.unexpectedOf board).erase p)).refusePacket p 35).runStream p 65

def execUnexpectedPacketTimeout (board : Nat) (s : State) : Result := .next (s.dropUnexpected board)

/-! ### Responses at the source (R414, R416, 10 R222) -/

def Sent.answers (e : Sent) (p : Packet) : Bool :=
  e.packet.dst == p.src && e.packet.seq == p.seq && e.packet.strand == p.strand && e.packet.epoch == p.epoch

/-- The operation is no longer outstanding. -/
def State.settleSent (s : State) (e : Sent) : State := { s with sent := s.sent.erase e }

/-- A visibility time is folded into the issuer's VISMAX. -/
def State.foldVt (s : State) (u : Nat) (vt : BitVec 64) : State :=
  s.editStrand u fun st => if st.visMax < vt then { st with visMax := vt } else st

/-- A response to an operation of this module; others go on. -/
def State.respondTo (s : State) (ty : Nat) (p : Packet) (run : State → Sent → State) : State :=
  s.taken ty p fun s p =>
    match s.sent.find? (·.answers p) with
    | none => s
    | some e => run s e

/-- The line of a leased read is kept with its expiry (05 R130; DESIGN CHOICE, log entry 25). -/
def State.keepLease (s : State) (e : Sent) (p : Packet) : State :=
  match p.words[17]? with
  | none => s
  | some expiry =>
    if s.leaseClock.toNat < expiry.toNat then
      { s with leased := Sparse.put s.leased (leaseKey e.packet.job e.packet.dst e.packet.addr.toNat)
                  (expiry.toNat, ((p.words.drop 1).take 16).flatMap fun w => Memory.toBytes 8 w.toNat) }
    else s

/-- An LDX or a remote atomic has its result. What a region that has ended waited for is not delivered (log entry 66). -/
def State.takeData (s : State) (e : Sent) (p : Packet) : State :=
  let s := s.settleSent e
  let s := if e.ty = 1 && e.packet.mode = 0 then s.keepLease e p else s.foldVt e.uid p.aux
  if e.dropped then s
  else
    let s := s.giveX e.uid e.access e.dest (p.words.headD 0)
    let s := if e.ty = 3 then s.release e.uid else s
    (s.movePc e.uid e.access e.len).goOn e.uid e.access

def execFabricDataResponse (p : Packet) (s : State) : Result :=
  .next (s.respondTo 0x10 p fun s e => if e.ty = 1 || e.ty = 3 then s.takeData e p else s)

def execFabricAck (p : Packet) (s : State) : Result :=
  .next (s.respondTo 0x11 p fun s e => (s.foldVt e.uid p.aux).settleSent e)

/-- The number of a system module within a job. -/
def State.jobNumberOf (s : State) (job sys : Nat) : Nat :=
  match s.jobs.toList.find? fun e => e.getLsbD 63 && field e 15 0 == job with
  | none => 0
  | some e => ((List.range 4096).find? fun n => jobModule e n == some sys).getD 0

/-- A trap of a strand that waits for a remote operation, in the stream that waits. -/
def State.failRemote (s : State) (e : Sent) (cause : Nat) : State :=
  match s.strand? e.uid with
  | none => s
  | some st =>
    let (pc, stream) : BitVec 64 × Stream :=
      match e.access, st.region with
      | true, some g => (g.seqPc, .access)
      | _, _ => (st.pc, .execute)
    let old := s.stream
    { { s with stream := stream }.takeTrap e.uid Cause.remoteLoadFail cause pc e.packet.addr with stream := old }

/-- R416: a failure. The entry of a posted operation is written before it counts as acknowledged: the strand's releases wait for one that
is put off. -/
def State.takeFailure (s : State) (e : Sent) (p : Packet) : State :=
  let cause := field p.aux 15 0
  if e.ty = 1 || e.ty = 3 then
    let s := s.settleSent e
    if e.dropped then s
    else (if e.ty = 3 && !p.words.isEmpty then s.giveX e.uid e.access e.dest 0 else s).failRemote e cause
  else
    let ctx := ((s.strand? e.uid).map (·.ctx)).getD ((s.jobCtx e.packet.job).getD 0)
    let peer := s.jobNumberOf e.packet.job e.packet.dst
    (s.errorEntry (some e.uid) ctx e.packet.addr peer (if e.ty = 2 then 1 else 2) cause e.packet.strand).settleSent e

def execFabricFailure (p : Packet) (s : State) : Result := .next (s.respondTo 0x12 p fun s e => s.takeFailure e p)

/-! ### Leases and the wrap pause (R419, R420, 05 R130 to R132) -/

/-- A leased copy whose lease has run out is dropped; `line` is the virtual address divided by 128. -/
def State.expireLease (s : State) (line : Nat) : State :=
  { s with leased := s.leased.filter fun e => !(e.1 / 65536 / 4096 == line && e.2.1 ≤ s.leaseClock.toNat) }

def execLeaseExpiry (line : Nat) (s : State) : Result := .next (s.expireLease line)

/-- The system module numbers of a job. -/
def jobModules (e : Word) : List Nat := (List.range (8 * 2 ^ (field e 40 38 + field e 43 41))).filterMap (jobModule e)

/-- A control packet to a module (PRESUMED, log entry 16). -/
def State.control (s : State) (ty job dst : Nat) (words : List Word) : State :=
  let p : Packet :=
    { dst := dst, src := s.selfModule, job := job, seq := 0, addr := 0, mode := 0, board := 0, strand := 0, epoch := 0, aux := 0,
      words := words }
  { s with outbox := s.outbox ++ [(ty, p)] }

/-- The valid entries of the jobs that this module conducts as module 0, and of those that another does. -/
def State.conducts (s : State) (e : Word) : Bool := jobModule e 0 == some s.selfModule

def State.validJobs (s : State) : List Word := s.jobs.toList.filter fun e => e.getLsbD 63

/-- A control packet to every other module of a job. -/
def State.toJob (s : State) (ty : Nat) (e : Word) (words : List Word) : State :=
  ((jobModules e).filter (· != s.selfModule)).foldl (fun s m => s.control ty (field e 15 0) m words) s

/-- R419: module 0 of the job sends its lease clock. -/
def State.sendSync (s : State) (job : Nat) : State :=
  match s.validJobs.find? fun e => field e 15 0 == job with
  | none => s
  | some e => if s.conducts e then s.toJob 0x20 e [s.gclk - s.lbase] else s

def execLeaseSyncSend (job : Nat) (s : State) : Result := .next (s.sendSync job)

/-- R419: LBASE is set so that the lease clock reads what module 0's read. -/
def execFabricLeaseSync (p : Packet) (s : State) : Result :=
  .next (s.taken 0x20 p fun s p => { s with lbase := s.gclk - p.words.headD 0 })

/-! The word of a pause-control packet: the pause is asked for or begins, it ends, or a module has drained (PRESUMED, log entry 16). -/
namespace PauseWord
abbrev ends : BitVec 64 := 0
abbrev begins : BitVec 64 := 1
abbrev drained : BitVec 64 := 2
end PauseWord

def State.jobEntry (s : State) (job : Nat) : Option Word := s.validJobs.find? fun e => field e 15 0 == job

/-- The pauses of a module that is in no job go by a number that is none. -/
def noJob : Nat := 65536

/-- The number under which the pause of a context's job runs: none in a module that has jobs where the context has none. -/
def State.pauseKey (s : State) (ctx : Nat) : Option Nat :=
  if s.validJobs.isEmpty then some noJob else (s.jobOf ctx).map fun e => field e 15 0

/-- The pause of a context's job is under way (R420). -/
def State.pausesJob (s : State) (ctx : Nat) : Bool :=
  match s.pauseKey ctx with
  | some job => (Sparse.get s.pausing job).isSome
  | none => false

/-- The pause of a job begins (step 1 of R132): module 0 tells the others, and another module asks it. A clock stop whose T has come before is
taken first (23 R379). -/
def State.beginPause (s : State) (job : Nat) : State :=
  let s := s.clockStop
  let s := { s with pausing := Sparse.put s.pausing job [] }
  match s.jobEntry job with
  | none => s
  | some e =>
    if s.conducts e then s.toJob 0x21 e [PauseWord.begins] else s.control 0x21 job ((jobModule e 0).getD 0) [PauseWord.begins]

/-- Steps 3 to 6 of R132. The module has one lease clock, so that every lease goes; VISMAX is set in the strands of the job (DEDUCED, log
entry 83). -/
def State.endPause (s : State) (job : Nat) : State :=
  let s := match s.jobEntry job with
    | some e => if s.conducts e then s.toJob 0x21 e [PauseWord.ends] else s
    | none => s
  { s with leased := [], lbase := s.gclk, pausing := Sparse.erase s.pausing job
           agents := (Sparse.mapVals (fun _ (a : AgentEntry) => { a with lease := 0 }) s.agents).filter fun e => e.2 != AgentEntry.idle
           strands := Sparse.mapVals (fun _ st => if s.pauseKey st.ctx == some job then { st with visMax := 0 } else st) s.strands }.deferStop

/-- Every remote operation of this module in a job has been answered (step 2). -/
def State.drained (s : State) (job : Nat) : Bool := !s.sent.any fun e => e.packet.job == job

/-- A module that can be reached: one that fails during the pause is left out (R420). -/
def State.reachable (s : State) (job m : Nat) : Bool :=
  (s.route { dst := m, src := s.selfModule, job := job, seq := 0, addr := 0, mode := 0, board := 0, strand := 0, epoch := 0, aux := 0,
             words := [] }).isSome

/-- Step 2 of R132 in this module, once it has drained: module 0 ends the pause when every other module has said that it has drained, and
another module says so, once. -/
def State.advancePause (s : State) (job : Nat) (heard : List Nat) : State :=
  if !s.drained job then s
  else
    match s.jobEntry job with
    | none => s.endPause job
    | some e =>
      if s.conducts e then
        (if (jobModules e).all fun m => m == s.selfModule || heard.contains m || !s.reachable job m then s.endPause job else s)
      else if heard.contains s.selfModule then s
      else
        { s with pausing := Sparse.put s.pausing job [s.selfModule] }.control 0x21 job ((jobModule e 0).getD 0) [PauseWord.drained]

/-- The jobs whose pauses a module's lease clock begins. -/
def State.pauseJobs (s : State) : List Nat := if s.validJobs.isEmpty then [noJob] else s.validJobs.map fun e => field e 15 0

/-- A module whose lease clock has reached 0xFFF0_0000 begins the pauses of its jobs, or asks for them; those under way go on. -/
def State.wrapPause (s : State) : State :=
  let s := s.pausing.foldl (fun s e => s.advancePause e.1 e.2) s
  if s.leaseClock.toNat < 0xFFF00000 then s
  else (s.pauseJobs.filter fun j => (Sparse.get s.pausing j).isNone).foldl State.beginPause s

def execWrapPause (s : State) : Result := .next s.wrapPause

/-- A pause-control packet of a job of the module. A pause ends here once this module has drained; until then the packet stays at the
router. -/
def State.pauseControl (s : State) (p : Packet) : State :=
  s.taken 0x21 p fun s p =>
    match s.jobEntry p.job, Sparse.get s.pausing p.job with
    | none, _ => s
    | some _, none => if p.words.headD 0 == PauseWord.begins then s.beginPause p.job else s
    | some e, some heard =>
      if p.words.headD 0 == PauseWord.drained then
        (if s.conducts e then { s with pausing := Sparse.put s.pausing p.job (insertNat heard p.src) } else s)
      else if p.words.headD 0 != PauseWord.ends || s.conducts e then s
      else if s.drained p.job then s.endPause p.job
      else { s with outbox := s.outbox ++ [(0x21, p)] }

def execFabricPauseControl (p : Packet) (s : State) : Result := .next (s.pauseControl p)

/-! ### Ports (R408 to R410) -/

/-- The widest width for the lanes that work. -/
def Port.widest (p : Port) : Nat :=
  let works := ((List.range 16).filter fun l => !p.lfail.getLsbD l).length
  if works = 16 then 3 else if 8 ≤ works then 2 else if 4 ≤ works then 1 else 0

/-- A port that goes down gives its packets back to the router, and no change of its width is under way; a request for one stands (R406, R409,
R410). -/
def State.dropPort (s : State) (n : Nat) : State :=
  match s.ports[n]? with
  | none => s
  | some p =>
    let s := s.editPort n fun q =>
      { q with replay := [], flits := (q.flits + replayFlits q.replay) % 65536, silent := false, nextWidth := 0, forced := false }
    { s with outbox := s.outbox ++ p.replay }

/-- A receiver refuses a flit, discards what follows it, and asks for it again. -/
def execFlitCrcFail (port : Nat) (s : State) : Result :=
  .next (match s.ports[port]? with
    | none => s
    | some p =>
      if p.down? || p.discarding then s
      else { s.editPort port fun p => { p with discarding := true } with answers := s.answers ++ [.replayRequest port] })

/-- The packets of a port's replay buffer are sent again. -/
def State.sendAgain (s : State) (port : Nat) : State :=
  let n := ((s.ports[port]?).map (·.replay.length)).getD 0
  if n = 0 then s else { s with answers := s.answers ++ [.resent port n] }

/-- The packets whose tails lie before the refused flit are acknowledged; the rest is sent again. -/
def Port.acknowledge (p : Port) (refused : Nat) : Nat → Port
  | 0 => p
  | fuel + 1 =>
    match p.replay with
    | [] => p
    | e :: _ =>
      if flitsOf e.2 ≤ (refused + 65536 - p.flits) % 65536 then
        Port.acknowledge p.oldestGoes refused fuel
      else p

/-- A number that names no flit of the buffer acknowledges nothing. -/
def execReplayRequest (port refused : Nat) (s : State) : Result :=
  .next ((s.editPort port fun p =>
    if (refused + 65536 - p.flits) % 65536 ≤ replayFlits p.replay then p.acknowledge refused p.replay.length else p).sendAgain port)

/-- A forced change: the receiver discards the packet in progress and what follows, and the sender sends again from its oldest packet once the
link is up. -/
def State.failLane (s : State) (port lane : Nat) : State :=
  let s := s.editPort port fun p => { p with lfail := p.lfail ||| (1#16 <<< lane) }
  match s.ports[port]? with
  | none => s
  | some p =>
    if p.width = 0 then s
    else if p.widest = 0 then (s.dropPort port).editPort port fun p => { p with width := 0 }
    else s.editPort port fun p => { p with silent := true, nextWidth := p.widest, forced := true, discarding := true }

def execLaneFailure (port lane : Nat) (s : State) : Result := .next (s.failLane port lane)

/-- The width that a request asks for, as far as the working lanes allow. -/
def Port.goal (p : Port) (wreq : Nat) : Nat := if wreq = 3 then p.widest else min wreq p.widest

/-- A requested change, once a forced one is over. -/
def Port.request (p : Port) (wreq : Nat) : Port :=
  if p.forced then { p with wreq := wreq } else { p with wreq := wreq, silent := true, nextWidth := p.goal wreq }

/-- The link comes up at its new width. A requested change is done; behind a forced one the buffer is sent again, and a request that it has
held up begins. -/
def State.endSilence (s : State) (port : Nat) : State :=
  match s.ports[port]? with
  | none => s
  | some p =>
    if !p.silent then s
    else if p.forced then
      (s.editPort port fun p =>
        let p := { p with silent := false, forced := false, width := p.nextWidth }
        if p.wreq = 0 then p else p.request p.wreq).sendAgain port
    else
      s.editPort port fun p =>
        { p with silent := false, width := p.nextWidth, lfail := if p.wreq = 3 then 0 else p.lfail, wreq := 0 }

def execLinkSilenceEnd (port : Nat) (s : State) : Result := .next (s.endSilence port)

/-- WREQ: a disabled port keeps it until it is enabled (00 R7). -/
def State.requestWidth (s : State) (port wreq : Nat) : State :=
  s.editPort port fun p => if !p.enabled then { p with wreq := wreq } else p.request wreq

def execPortWreqX4 (port : Nat) (s : State) : Result := .next (s.requestWidth port 1)
def execPortWreqX8 (port : Nat) (s : State) : Result := .next (s.requestWidth port 2)
def execPortWreqRetrain (port : Nat) (s : State) : Result := .next (s.requestWidth port 3)

def execPortEnWrite (port : Nat) (on : Bool) (s : State) : Result :=
  .next (if on then s.editPort port fun p =>
           let q := { p with enabled := true }
           if p.enabled || p.wreq = 0 then q else q.request p.wreq
         else (s.dropPort port).editPort port fun p => { p with enabled := false })

/-- R406: a neighbour in the stalemate state is a hop that is down. -/
def execNeighbourStalemate (port : Nat) (s : State) : Result :=
  .next ((s.dropPort port).editPort port fun p => { p with stalemate := true })

/-! ### The registers of the Trolan DVSEC (R401 to R403, R409, R421) -/

/-- PORTn. A disabled port reads WIDTH 0. -/
def Port.word (p : Port) : Nat :=
  p.lfail.toNat * 2 ^ 16 + (if p.enabled then 64 else 0) + p.wreq % 4 * 16 + if p.enabled then p.width % 8 else 0

/-- TIERn. -/
def TierLink.word (t : TierLink) : Nat := (if t.up then 2 ^ 63 else 0) + t.width % 8 * 2 ^ 60 + t.cap % 65536

/-- What a host read of the register at an offset gives; offsets that hold none read 0. -/
def State.trolanRead (s : State) (off : Nat) : Nat :=
  if off = 0x10 then s.syspos.toNat
  else if off = 0x14 then s.leaseLen.toNat
  else if 0x20 ≤ off && off < 0xA0 && off % 8 == 0 then ((s.jobs[(off - 0x20) / 8]?).map (·.toNat)).getD 0
  else if 0xA0 ≤ off && off < 0xC0 && off % 4 == 0 then ((s.ports[(off - 0xA0) / 4]?).map (·.word)).getD 0
  else if 0xC0 ≤ off && off < 0xE0 && off % 8 == 0 then ((s.tiers[(off - 0xC0) / 8]?).map (·.word)).getD 0
  else 0

/-! ### Tier links, errors and jobs (R403, R422, 10 R218) -/

def execTierLinkDown (link : Nat) (s : State) : Result :=
  .next { s with tiers := match s.tiers[link]? with
    | some t => s.tiers.setIfInBounds link { t with up := false, width := 0 }
    | none => s.tiers }

/-- A stored word holds an uncorrectable error. -/
def execUncorrectableError (addr : Nat) (s : State) : Result :=
  .next (if zoneOf s.tierCap addr == .nowhere then s else s.setPoison addr)

/-- R403: the entry with its reserved bits zero. -/
def jobMask (v : Word) : Word := v &&& 0x80FFFFFFE000FFFF

/-- The write of an entry that keeps to R403 (DEDUCED, log entry 26). -/
def State.jobOk (s : State) (i : Nat) (v : Word) : Bool :=
  field v 37 33 % 2 ^ field v 43 41 == 0 && field v 32 29 % 2 ^ field v 40 38 == 0 &&
  (!v.getLsbD 63 ||
    (List.range 16).all fun j =>
      let e := (s.jobs[j]?).getD 0
      j == i || !e.getLsbD 63 || (field e 15 0 != field v 15 0 && field e 55 44 != field v 55 44))

def execJobEntryWrite (i : Nat) (value : BitVec 64) (s : State) : Result :=
  .next (if s.jobOk i value then { s with jobs := s.jobs.setIfInBounds i (jobMask value) } else s)

end Sys2Proof.Machine
end

