-- ==== Sys2Proof/Machine/Sync.lean ====
section
/-!
DEFINITION. Ordering, watches, barriers and register presence, OP 0xA0 to 0xAB (10 R229 to R239, 04 R105, 05 R122).
-/

namespace Sys2Proof.Machine

/-! ### Ordering (05 R122, 10 R229) -/

/-- The lease clock has passed the strand's VISMAX; a strand with no earlier write has nothing to wait for. -/
def State.visible (s : State) (st : Strand) : Bool :=
  st.visMax == 0 || st.visMax.toNat < s.leaseClock.toNat

/-- R122 at fabric and host scope. Every earlier LDX, store to host memory and read of it has replied by R116, so the ACQ half
holds at once. -/
def State.ordered (s : State) (u : Nat) (st : Strand) (release : Bool) : Bool :=
  !release || (!s.unacknowledged u && s.visible st)

/-- FENCE, ACQ and REL of the scope M; the release half advances the phase counter (R135). -/
def orderAt (f : Fields) (release acquire : Bool) : Act Unit :=
  issue .neither f do
    let u ← me
    let st ← self
    if 5 ≤ f.m.toNat && !(← readS fun s => s.ordered u st release) then park (.order release acquire (f.m == 6))
    if release then editS fun s => s.release u
    finish f

def execFence (f : Fields) (s : State) : Result := (orderAt f true true).outcome s
def execAcq (f : Fields) (s : State) : Result := (orderAt f false true).outcome s
def execRel (f : Fields) (s : State) : Result := (orderAt f true false).outcome s

/-- The commands that a DRAIN of a path waits for are those of the core that were committed below `upTo`, not yet
classified or of that path (04 R105). -/
def State.draining (s : State) (core path upTo : Nat) : Bool :=
  let k := s.core core
  (k.mx.queue ++ k.ce.queue).any fun c =>
    c.drainNo < upTo && c.state != .held && (c.path == none || c.path == some path)

def execDrain (f : Fields) (s : State) : Result :=
  (issue .neither f do
    let st ← self
    let s ← readS id
    if s.draining st.core f.m.toNat s.order then parkBehind f (.drain f.m.toNat s.order)
    finish f).outcome s

/-! ### Watches (R232 to R236) -/

/-- The slots of a mask become unarmed and clear. -/
def Strand.unwatch (st : Strand) (mask : Nat) : Strand :=
  { st with watch := Vector.ofFn fun i => if mask.testBit i.val then Watch.off else st.watch[i] }

/-- The overflow blocks that a context's watches take (R233). One of a line that strands of several contexts watch counts for each of them
(DESIGN CHOICE, log entry 95). -/
def State.watchBlocksUsed (s : State) (ctx : Nat) : Nat :=
  let lines := (s.strands.flatMap fun e =>
    if e.2.ctx == ctx then (e.2.watch.toList.filter (·.armed)).map (·.line) else []).eraseDups
  (lines.map fun l => blocksFor (s.watchersOf l)).sum

/-- The entries in use of a board's watch-only table. -/
def State.watchOnlyUsed (s : State) (board : Nat) : Nat :=
  (s.watchOnly.filter fun e => e.2 == board && s.watchersOf e.1 != 0).length

/-- What keeps a slot from being registered: no overflow block in the context's pool, no entry in the watch-only table for a line that its
home slice does not hold (`apart`). -/
def State.noSpace (s : State) (ctx line : Nat) (apart : Bool) : Bool :=
  let n := s.watchersOf line
  let pool := ((s.ctx? ctx).map (·.watchBlocks)).getD 0
  let block := blocksFor (n + 1) != blocksFor n && pool ≤ s.watchBlocksUsed ctx
  let table := apart && n == 0 && 65536 ≤ s.watchOnlyUsed (homeBoard (line * 128))
  block || table

def execWatch (f : Fields) (s : State) : Result :=
  (issue .neither f do
    let st ← self
    let slot := f.m.toNat % 8
    let va ← address f 8
    let x ← checkPlace ⟨1, .read, false, false, false, true⟩ va 1
    heedHome [(← readS fun s => s.askOf x false none)] false
    let line := lineOf x.pa
    editS (·.hear)
    editSelf fun st => st.unwatch (2 ^ slot)
    let s ← readS id
    let apart := x.mside || !s.l2Holds line
    let status : Word ←
      match zoneOf s.tierCap x.pa with
      | .scratch _ => pure 2
      | .host => pure 2
      | _ =>
        if s.noSpace st.ctx line apart then pure 1
        else do
          editSelf fun st =>
            { st with watch := st.watch.setIfInBounds slot { armed := true, line := line, va := va, fired := false } }
          if apart then editS fun s => { s with watchOnly := Sparse.put s.watchOnly line (homeBoard x.pa) }
          pure 0
    writeX f.d.toNat status
    finishReply f).outcome s

def execUnwatch (f : Fields) (s : State) : Result :=
  (issue .neither f do
    let b ← operandI f
    editSelf fun st => st.unwatch (b.toNat % 256)
    finishReply f).outcome s

/-- The slots of which a property holds, as a mask. -/
def Strand.slots (st : Strand) (p : Watch → Bool) : BitVec 8 :=
  (List.range 8).foldl (fun m i => if (st.watch[i]?).any p then m ||| (1#8 <<< i) else m) 0

def execSleep (f : Fields) (s : State) : Result :=
  (issue .neither f do
    let u ← me
    let b ← operandI f
    let st ← self
    let mask := b.truncate 8 &&& st.slots (·.armed)
    let hit := st.slots (·.fired) &&& mask
    if mask != 0 && hit == 0 then
      editSelf fun st => { st with sleepMask := mask }
      editS fun s => s.leave u .sleep .reply 10
      stopWith .done
    editSelf fun st =>
      { st with sleepMask := 0
                watch := Vector.ofFn fun i => if hit.getLsbD i.val then { st.watch[i] with fired := false } else st.watch[i] }
    writeX f.d.toNat (hit.zeroExtend 64)
    finish f).outcome s

/-! ### Barriers on words (R230, R231) -/

def barrier (f : Fields) (reads : Bool) (kind : Word → WaitKind) : Act Unit :=
  issue .neither f do
    let a ← operandX false f.a f.ta
    let n ← operandB f
    if !reads && n == 0 then trapPlain Cause.arith
    let va := a + imm20Offset f
    let x ← checkAccess (Check.sync reads) va 8
    startWait f (kind n) x va

def execBar (f : Fields) (s : State) : Result := (barrier f false .barAdd).outcome s
def execBarw (f : Fields) (s : State) : Result := (barrier f true .barw).outcome s

/-! ### Register presence (R238, R239) -/

/-- The neighbour of a core in a direction, unless the link is absent or closed (01 R16). -/
def State.neighbour (s : State) (core dir : Nat) : Option Nat :=
  let fl := fileOf core
  let rk := rankOf core
  let at_ : Option (Nat × Nat) :=
    match dir with
    | 0 => if rk < 63 then some (fl, rk + 1) else none
    | 1 => if fl < 127 then some (fl + 1, rk) else none
    | 2 => if 0 < rk then some (fl, rk - 1) else none
    | _ => if 0 < fl then some (fl - 1, rk) else none
  match at_ with
  | none => none
  | some (x, y) => if s.leafIdOf (coreAt x y) == s.leafIdOf core then some (coreAt x y) else none

def execPutn (f : Fields) (s : State) : Result :=
  (issue .neither f do
    let u ← me
    let st ← self
    let isV := f.m.getLsbD 2
    let dir := f.m.toNat % 4
    let (bits, tag) : Vec × BitVec 4 ←
      if isV then (do bindVec; operandV f.a f.ta)
      else (do pure ((← operandX false f.a f.ta).zeroExtend 4096, 0))
    let slot ← operandB f
    if (← readS fun s => s.neighbour st.core dir).isNone then
      writeX f.d.toNat 2
      finish f
    else
      let taken ← readS fun s => ((s.core st.core).links[dir]?).any (·.isSome) || s.mustQueue .issuer (linkPlace st.core dir)
      if taken then park (.link st.core dir)
      let v : LinkVal :=
        { sender := u, slot := slot.toNat % 256, isV := isV, reg := f.c.toNat, bits := bits, tag := tag, dest := f.d.toNat,
          len := lenOf f }
      editS fun s => s.editCore st.core fun k => { k with links := k.links.setIfInBounds dir (some v) }
      park .putn).outcome s

/-- Set or clear the presence bit of a register of the file M. -/
def presence (f : Fields) (full : Bool) : Act Unit :=
  fixed .neither f do
    let r := f.d.toNat
    if f.m == 1 then
      bindVec
      editSelf fun st => { st with vec := st.vec.map fun v =>
        { v with vFull := if full then v.vFull ||| (1#32 <<< r) else v.vFull &&& ~~~(1#32 <<< r) } }
    else
      editSelf fun st =>
        { st with xFull := if full then st.xFull ||| (1#64 <<< r) else st.xFull &&& ~~~(1#64 <<< r) }

def execFempty (f : Fields) (s : State) : Result := (presence f false).outcome s
def execFfull (f : Fields) (s : State) : Result := (presence f true).outcome s

end Sys2Proof.Machine
end

