-- ==== Sys2Proof/Machine/HostLink.lean ====
section
/-!
DEFINITION. The arrival of a PUTN (10 R238), the coherence messages as events (05 R125 to R127), the host's snoops, its
ownership and its accesses to device memory (05 R141, R142, 22 R370). An event whose conditions do not hold changes nothing.
-/

namespace Sys2Proof.Machine

/-! ### PUTN at its target (10 R238) -/

/-- What a value on a link does to the slot it names: none while the target register is full, or the status and the state. -/
def State.landPutn (s : State) (core : Nat) (v : LinkVal) : Option (Word × State) :=
  match s.bySid core v.slot with
  | none => some (1, s)
  | some (u, st) =>
    if v.isV then
      match st.vec with
      | none => some (1, s)
      | some c =>
        if c.vFull.getLsbD v.reg then none
        else
          some (0, s.setStrand u
            { st with vec := some { c with v := c.v.setIfInBounds v.reg v.bits, tag := c.tag.setIfInBounds v.reg v.tag,
                                           vFull := c.vFull ||| (1#32 <<< v.reg) } })
    else
      let full := match st.region with
        | some g => g.xFull.getLsbD v.reg
        | none => st.xFull.getLsbD v.reg
      if full then none else some (0, s.giveX u true v.reg (v.bits.truncate 64))

/-- The target answers: the sender's status register is written and set full, and its strand goes on. A link that was closed in
the meantime answers as an absent one. -/
def State.deliverPutn (s : State) (core dir : Nat) : State :=
  match ((s.core core).links[dir]?).getD none with
  | none => s
  | some v =>
    let landed := match s.neighbour core dir with
      | none => some (2, s)
      | some c => s.landPutn c v
    match landed with
    | none => s
    | some (status, s) =>
      let s := s.editCore core fun k => { k with links := k.links.setIfInBounds dir none }
      ((s.giveX v.sender false v.dest status).movePc v.sender false v.len).wake v.sender

def execPutnDelivery (core dir : Nat) (s : State) : Result := .next (s.deliverPutn core dir)

/-! ### Coherence messages (05 R125 to R127) -/

/-- The first message of a kind about a line, from or to a core, is handled. -/
def State.handle (s : State) (line core : Nat) (p : State → MsgKind → Bool) : State :=
  match s.takeMsg line core (p s) with
  | none => s
  | some (k, s) => s.deliverMsg ⟨line, core, k⟩

/-- R124: the home takes the first request about a line, if it is this one, once no transaction of the line is in progress. It waits for the
line and for the host (04 R113, R142). -/
def State.homeRequest (s : State) (line core : Nat) (k : MsgKind) : State :=
  match s.msgs.find? fun m => m.line == line && m.kind.isRequest with
  | none => s
  | some m => if m.core != core || m.kind != k || s.inProgress line then s else s.takeRequest m

def execHomeGets (line core : Nat) (s : State) : Result := .next (s.homeRequest line core .getS)

def execHomeGetm (line core : Nat) (s : State) : Result := .next (s.homeRequest line core .getM)

def execHomeUpgrade (line core : Nat) (s : State) : Result := .next (s.homeRequest line core .upgrade)

/-- A Put crosses a probe that is outstanding, and is handled at once. -/
def execHomePuts (line core : Nat) (s : State) : Result := .next (s.handle line core fun _ => (· == .putS))

def MsgKind.isPutOwner : MsgKind → Bool
  | .putOwner _ => true
  | _ => false

def execHomePutOwner (line core : Nat) (s : State) : Result := .next (s.handle line core fun _ => MsgKind.isPutOwner)

/-- The requester of an Inv or a Fwd. -/
def MsgKind.requester : MsgKind → Option Nat
  | .inv r => some r
  | .fwdGetS r => some r
  | .fwdGetM r => some r
  | _ => none

/-- A probe that reaches its core, or stops at the router of another partition. -/
def State.probeAt (s : State) (core : Nat) (dropped : Bool) (k : MsgKind) : Bool :=
  match k.requester with
  | some r => s.filtered (s.leafIdOf r) core == dropped
  | none => false

def MsgKind.isInv : MsgKind → Bool
  | .inv _ => true
  | _ => false

def MsgKind.isFwdGetS : MsgKind → Bool
  | .fwdGetS _ => true
  | _ => false

def MsgKind.isFwdGetM : MsgKind → Bool
  | .fwdGetM _ => true
  | _ => false

def execCoreInv (line core : Nat) (s : State) : Result :=
  .next (s.handle line core fun s k => k.isInv && s.probeAt core false k)

def execCoreFwdGets (line core : Nat) (s : State) : Result :=
  .next (s.handle line core fun s k => k.isFwdGetS && s.probeAt core false k)

def execCoreFwdGetm (line core : Nat) (s : State) : Result :=
  .next (s.handle line core fun s k => k.isFwdGetM && s.probeAt core false k)

def MsgKind.isPutAck : MsgKind → Bool
  | .putAck _ => true
  | _ => false

def execCorePutack (line core : Nat) (s : State) : Result := .next (s.handle line core fun _ => MsgKind.isPutAck)

/-- Data, a grant's count or an acknowledgement. -/
def MsgKind.isResponse : MsgKind → Bool
  | .data _ => true
  | .ackCount _ => true
  | .invAck => true
  | .boardAck _ => true
  | .invAcks _ => true
  | _ => false

def execRequesterResponse (line core : Nat) (s : State) : Result := .next (s.handle line core fun _ => MsgKind.isResponse)

def execRouterProbeDrop (line core : Nat) (s : State) : Result :=
  .next (s.handle line core fun s => s.probeAt core true)

/-! ### Snoops and ownership (05 R141, R142) -/

/-- The owner, if there is one, keeps the line in S, its data at the home. -/
def State.shareLine (s : State) (line board : Nat) : State :=
  match s.dir? line board with
  | none => s
  | some e =>
    match e.owner with
    | none => s
    | some (o, _) =>
      match s.l1 o line with
      | some l => (s.setL1 o line { l with state := .shared }).setDir line board { owner := none, sharers := e.sharers.add o }
      | none => s.setDir line board { e with owner := none }

/-- Every device copy is in S. -/
def State.shareAll (s : State) (line : Nat) : State :=
  (List.range 8).foldl (fun s b => s.shareLine line b) s

def State.answer (s : State) (a : Answer) : State := { s with answers := s.answers ++ [a] }

/-- The host's request, by whoever of its units makes it: it stands behind what waits at a home already, and arrives there when it is
served. -/
def hostUnit : Requester := .unit (moduleUnit 0)

/-- A snoop of a line is answered once the line's own transactions are over, no CPYROW holds it and nothing waits for it (R124, 04 R113). A
module in the stalemate state answers none (25 R427). -/
def State.snoop (s : State) (line : Nat) (answer : State → State) : State :=
  let t := s.settle line
  if s.boot.state == 5 || (t.heldFor hostUnit [line] true).isSome then s else answer t

def execHostSnoop (line : Nat) (s : State) : Result :=
  .next (s.snoop line fun s => (s.shareAll line).answer (.snooped line))

def execHostSnoopInvalidate (line : Nat) (s : State) : Result :=
  .next (s.snoop line fun s => (s.invalidateAll none line).answer (.invalidated line))

/-- The host no longer holds the line, and what has waited for that goes on. -/
def State.backInvalidated (s : State) (line : Nat) : State :=
  if s.backInv.contains line then
    ({ s with backInv := s.backInv.filter (· != line) }.setAgent line { s.agent line with host := .invalid }).releaseLine line
  else s

def execBackInvalidateResponse (line : Nat) (s : State) : Result := .next (s.backInvalidated line)

/-! ### HDM decoders (22 R370) -/

/-- The management area (22 R354). -/
def managementBase : Nat := 0xFFFFF80000

def rangesMeet (a m b n : Nat) : Bool := a < b + n && b < a + m

/-- Whether a commit holds what R370 asks (DEDUCED, log entry 32). -/
def State.hdmOk (s : State) (n hpa base size : Nat) : Bool :=
  n < 4 && size != 0 && hpa % 2 ^ 28 == 0 && base % 2 ^ 28 == 0 && size % 2 ^ 28 == 0 && base + size ≤ 2 ^ 40 &&
  base + size ≤ managementBase &&
  (List.range 4).all fun i =>
    i == n ||
    match (s.hdm[i]?).getD none with
    | none => true
    | some d => !rangesMeet hpa size d.hpa d.size && !rangesMeet base size d.base d.size

def execHdmDecoderCommit (n hpa base size : Nat) (s : State) : Result :=
  .next (if s.boot.state ≠ 5 ∧ s.hdmOk n hpa base size then { s with hdm := s.hdm.setIfInBounds n (some ⟨hpa, base, size⟩) } else s)

/-- The HBM address of a run of host addresses. -/
def State.hdmAddr (s : State) (addr n : Nat) : Option Nat :=
  s.hdm.toList.findSome? fun d =>
    match d with
    | none => none
    | some d => if d.hpa ≤ addr && addr + n ≤ d.hpa + d.size then some (d.base + (addr - d.hpa)) else none

/-- A line of a decoder's range. -/
def State.hdmLine (s : State) (line : Nat) : Bool :=
  s.hdm.toList.any fun d =>
    match d with
    | none => false
    | some d => d.base ≤ line * 128 && line * 128 < d.base + d.size

/-- The host takes a line (R142). -/
def State.hostOwns (s : State) (line : Nat) : State :=
  if !s.hdmLine line then s
  else
    s.snoop line fun s =>
      let s := s.invalidateAll none line
      s.setAgent line { s.agent line with host := .exclusive }

def execHostOwnershipRequest (line : Nat) (s : State) : Result := .next (s.hostOwns line)

/-! ### CXL.mem accesses (22 R370, 05 R121, 04 R114) -/

/-- A read at the homes of its lines, which the host may then hold in S (DEDUCED, log entry 31). -/
def State.hostRead (s : State) (addr n : Nat) : State :=
  match s.hdmAddr addr n with
  | none => s
  | some pa =>
    let t := (linesOfRun pa n).foldl State.settle s
    if s.boot.state == 5 || (t.heldFor hostUnit (linesOfRun pa n) false).isSome then s
    else
      let s := (linesOfRun pa n).foldl (fun s l =>
        let s := (List.range 8).foldl (fun s b => s.downgrade none l b) s
        let a := s.agent l
        s.setAgent l { a with host := if a.host == .invalid then .shared else a.host }) t
      s.answer (.read addr (Memory.getBytes s.mem pa n))

def execHostMemRead (addr len : Nat) (s : State) : Result := .next (s.hostRead addr len)

/-- The enabled bytes at an address upward. -/
def Memory.setEnabled (m : List Host.Cell) (a : Nat) : List (Option (BitVec 8)) → List Host.Cell
  | [] => m
  | some b :: bs => Memory.setEnabled (Memory.set m a b) (a + 1) bs
  | none :: bs => Memory.setEnabled m (a + 1) bs

/-- The lines with an enabled byte, and the words that are written whole. -/
def enabledLines (pa : Nat) (bytes : List (Option (BitVec 8))) : List Nat :=
  (linesOfRun pa bytes.length).filter fun l =>
    (List.range 128).any fun i => pa ≤ l * 128 + i && ((bytes[l * 128 + i - pa]?).getD none).isSome

def enabledWords (pa : Nat) (bytes : List (Option (BitVec 8))) : List Nat :=
  (wordsOfRun pa bytes.length).filter fun w =>
    (List.range 8).all fun i => pa ≤ w * 8 + i && ((bytes[w * 8 + i - pa]?).getD none).isSome

/-- A write of the host waits for a CPYROW and for what came first, but not for its own back-invalidation, before which it writes back. -/
def State.holdsHost (s : State) (l : Nat) : Bool :=
  s.busy.contains l || s.frozen.contains l || (!s.backInv.contains l && s.mustQueue hostUnit (linePlace l))

/-- A write at the homes of its lines; one with no byte enabled changes nothing (R114). -/
def State.hostWrite (s : State) (addr : Nat) (bytes : List (Option (BitVec 8))) : State :=
  match s.hdmAddr addr bytes.length with
  | none => s
  | some pa =>
    let lines := enabledLines pa bytes
    let t := lines.foldl State.settle s
    if s.boot.state == 5 || lines.any t.holdsHost then s
    else
      let s := lines.foldl (fun s l => s.invalidateAll none l) t
      let whole := enabledWords pa bytes
      let s := { s with mem := Memory.setEnabled s.mem pa bytes, poison := s.poison.filter fun w => !whole.contains w }
      lines.foldl (fun s l => s.written (l * 128) 128) s

def execHostMemWrite (addr : Nat) (bytes : List (Option (BitVec 8))) (s : State) : Result := .next (s.hostWrite addr bytes)

end Sys2Proof.Machine
end

