-- ==== Sys2Proof/Machine/Image.lean ====
section
/-!
DEFINITION. The Synten image container: its sections, relocations, maps, unwind tables, placement and boot tree, and the checks
that the Second makes of a file (21 R338 to R347, 25 R428).
-/

namespace Sys2Proof.Machine

/-- The bytes of a file or of a section. -/
abbrev Bytes := List (BitVec 8)

/-- A little-endian number of `n` bytes at an offset. -/
def Bytes.num (b : Bytes) (off n : Nat) : Nat := Memory.ofBytes ((b.drop off).take n)

def Bytes.word (b : Bytes) (off : Nat) : Word := BitVec.ofNat 64 (Bytes.num b off 8)

/-- The bytes with a number written over `n` of them. -/
def Bytes.patch (b : Bytes) (off n v : Nat) : Bytes := b.take off ++ Memory.toBytes n v ++ b.drop (off + n)

/-! ### CRC-32C (R338) -/

/-- One bit, and one byte, of the Castagnoli polynomial 0x1EDC6F41 in its reflected form. -/
def crcBit (c : BitVec 32) : BitVec 32 := if c.getLsbD 0 then (c >>> 1) ^^^ 0x82F63B78 else c >>> 1

def crcByte (c : BitVec 32) (b : BitVec 8) : BitVec 32 :=
  (List.range 8).foldl (fun c _ => crcBit c) (c ^^^ b.zeroExtend 32)

def crc32c (b : Bytes) : BitVec 32 := ~~~(b.foldl crcByte 0xFFFFFFFF)

/-! ### Header and section table (R338 to R340) -/

/-- A section: its entry of the table, and its bytes in the file. -/
structure Section where
  ty : Nat
  role : Nat
  flags : Nat
  tid : Nat
  align : Nat
  vaddr : Nat
  fsize : Nat
  msize : Nat
  link : Nat
  foff : Nat
  bytes : Bytes
  deriving DecidableEq, Repr

def sectionOf (file : Bytes) (off : Nat) : Section :=
  { ty := file.num off 2, role := file.num (off + 2) 1, flags := file.num (off + 3) 1, tid := file.num (off + 4) 1,
    align := file.num (off + 5) 1, vaddr := file.num (off + 8) 8, fsize := file.num (off + 0x18) 8,
    msize := file.num (off + 0x20) 8, link := file.num (off + 0x28) 4, foff := file.num (off + 0x10) 8,
    bytes := (file.drop (file.num (off + 0x10) 8)).take (file.num (off + 0x18) 8) }

def sectOff (file : Bytes) : Nat := file.num 0x10 8

def sectionsOf (file : Bytes) : List Section :=
  (List.range (file.num 0x0C 4)).map fun i => sectionOf file (sectOff file + 48 * i)

def imageMagic : Bytes := [0x53, 0x59, 0x4E, 0x49, 0x4D, 0x47, 0x00, 0x01]

/-- Row 1 of R347: the header, the reserved fields and places of the table's entries, the contents inside the file
(DEDUCED, log entry 34). -/
def formatOk (file : Bytes) : Bool :=
  let n := file.num 0x0C 4
  let off := sectOff file
  64 ≤ file.length && file.take 8 == imageMagic && file.num 8 4 == 1 && 1 ≤ n && n ≤ 4096 && off % 8 == 0 &&
  file.num 0x18 8 % 2 ^ 52 == 0 && file.num 0x2C 20 == 0 && off + 48 * n ≤ file.length &&
  (crc32c (file.patch 0x28 4 0)).toNat == file.num 0x28 4 &&
  (List.range n).all fun i =>
    let e := off + 48 * i
    file.num (e + 6) 2 == 0 && file.num (e + 0x2C) 4 == 0 && file.num (e + 0x10) 8 + file.num (e + 0x18) 8 ≤ file.length

/-- A tool note is skipped (R340). -/
def Section.isNote (x : Section) : Bool := 0x8000 ≤ x.ty

/-- Types 1 and 3 to 6. -/
def Section.loaded (x : Section) : Bool := x.ty == 1 || (3 ≤ x.ty && x.ty ≤ 6)

/-- The row of R340 for a section by itself. -/
def Section.typeOk (ss : List Section) (x : Section) : Bool :=
  match x.ty with
  | 1 => x.role < 128 && x.flags == 2 && x.fsize % 4 == 0 && x.msize % 4096 == 0
  | 2 =>
    x.flags == 0 && x.fsize == x.msize && x.vaddr == 0 &&
    match ss[x.link]? with
    | some c => c.ty == 1 && c.role == x.role && x.msize == 128 * (c.msize / 4096)
    | none => false
  | 3 => x.flags &&& 5 == x.flags
  | 4 => x.flags &&& 4 == x.flags
  | 5 => x.role < 128 && x.flags == 0 && x.fsize == 2048 && x.msize == 2048
  | 6 => x.role < 128 && x.flags == 0
  | 7 => x.flags == 0 && x.vaddr == 0
  | 8 => x.role == 0xFF && x.flags == 0 && x.vaddr == 0
  | 9 => x.role == 0xFF && x.flags == 0 && x.vaddr == 0
  | 10 => x.role == 0xFF && x.flags == 0 && x.vaddr == 0
  | _ => false

/-- R339 and R340 for a section. -/
def Section.ok (ss : List Section) (x : Section) : Bool :=
  x.isNote ||
  ((x.role < 128 || x.role == 0xFF) && 12 ≤ x.align && x.align ≤ 30 && x.vaddr % 2 ^ x.align == 0 && x.fsize ≤ x.msize &&
   (x.ty == 2 || x.link == 0) && x.typeOk ss)

/-- No two of a list stand in a relation. -/
def pairwiseNot {α : Type} (r : α → α → Bool) : List α → Bool
  | [] => true
  | a :: l => !(l.any (r a)) && pairwiseNot r l

def ofType (ss : List Section) (ty : Nat) : List Section := ss.filter (·.ty == ty)

/-- The map of CODE section `i`. -/
def mapOf (ss : List Section) (i : Nat) : Option Section := ss.find? fun m => m.ty == 2 && m.link == i

/-- A start word: an address inside a CODE section whose bit is set (R341, R345). -/
def startWordIn (ss : List Section) (c : Section) (i : Nat) (va : Nat) : Bool :=
  c.ty == 1 && c.vaddr ≤ va && va < c.vaddr + c.msize && va % 4 == 0 &&
  match mapOf ss i with
  | some m => (m.bytes.getD ((va - c.vaddr) / 4 / 8) 0).getLsbD ((va - c.vaddr) / 4 % 8)
  | none => false

def indexed {α : Type} (l : List α) : List (Nat × α) := (List.range l.length).zip l

def isStartWord (ss : List Section) (p : Section → Bool) (va : Nat) : Bool :=
  (indexed ss).any fun (i, c) => p c && startWordIn ss c i va

/-! ### Roles (R341) -/

structure Role where
  role : Nat
  entry : Nat
  kaddr : Nat
  unw : Nat
  deriving DecidableEq, Repr

def rolesOf (ss : List Section) : List Role :=
  (ofType ss 8).flatMap fun x => (List.range (x.fsize / 32)).map fun i =>
    { role := x.bytes.num (32 * i) 8, entry := x.bytes.num (32 * i + 8) 8, kaddr := x.bytes.num (32 * i + 16) 8,
      unw := x.bytes.num (32 * i + 24) 8 }

def roleOk (ss : List Section) (r : Role) : Bool :=
  let base (ty va : Nat) : Bool := va == 0 || ss.any fun x => x.ty == ty && x.role == r.role && x.vaddr == va
  r.role < 128 && isStartWord ss (·.role == r.role) r.entry && base 5 r.kaddr && base 6 r.unw

/-- Row 2 of R347. -/
def sectionsOk (ss : List Section) : Bool :=
  let roles := rolesOf ss
  ss.all (·.ok ss) &&
  pairwiseNot (fun a b : Section => rangesMeet a.vaddr a.msize b.vaddr b.msize) (ss.filter (·.loaded)) &&
  ((indexed ss).all fun (i, c) => c.ty != 1 || (ss.filter fun m => m.ty == 2 && m.link == i).length == 1) &&
  (ofType ss 8).length == 1 && (ofType ss 9).length ≤ 1 && (ofType ss 10).length ≤ 1 &&
  ((ofType ss 8).all (·.fsize % 32 == 0)) && ((ofType ss 9).all (·.fsize % 8 == 0)) &&
  ((ofType ss 10).all (·.fsize % 4 == 0)) &&
  roles.all (roleOk ss) && pairwiseNot (fun a b : Role => a.role == b.role) roles &&
  ss.all fun x => x.isNote || x.role == 0xFF || roles.any (·.role == x.role)

/-! ### Relocations (R346); the Second loads every section at its linked address, so every delta is 0 -/

structure Reloc where
  site : Nat
  addend : Nat
  kind : Nat
  zero : Nat
  tsect : Nat
  deriving DecidableEq, Repr

def relocsOf (ss : List Section) : List Reloc :=
  (ofType ss 7).flatMap fun x => (List.range (x.fsize / 24)).map fun i =>
    { site := x.bytes.num (24 * i) 8, addend := x.bytes.num (24 * i + 8) 8, kind := x.bytes.num (24 * i + 16) 1,
      zero := x.bytes.num (24 * i + 17) 3, tsect := x.bytes.num (24 * i + 20) 4 }

/-- A field of a word: bits [hi:lo] take the low bits of a number. -/
def setBits (w hi lo v : Nat) : Nat := w - bitsOf w hi lo * 2 ^ lo + v % 2 ^ (hi - lo + 1) * 2 ^ lo

/-- A number fits in `w` signed bits. -/
def fitsSigned (w : Nat) (i : Int) : Bool := decide (-(2 ^ (w - 1)) ≤ i) && decide (i < 2 ^ (w - 1))

/-- The offset of the patched bytes from the site, how many they are, and what they become; none where R346 is broken. -/
def Reloc.value (r : Reloc) (b : Bytes) (at_ : Nat) : Option (Nat × Nat × Nat) :=
  let len := bitsOf (b.num at_ 4) 31 30
  let target : Int := if r.addend < 2 ^ 63 then r.addend else (r.addend : Int) - 2 ^ 64
  let gap : Int := (r.addend : Int) - r.site
  let near := r.addend % 4 == 0 && r.site % 4 == 0
  let field (off hi lo : Nat) (v : Int) : Option (Nat × Nat × Nat) :=
    some (off, 4, setBits (b.num (at_ + off) 4) hi lo (wrap 64 v))
  match r.kind with
  | 1 => some (0, 8, r.addend)
  | 2 => if len = 1 && fitsSigned 32 target then some (4, 4, r.addend % 2 ^ 32) else none
  | 3 => if len = 3 then some (12, 8, r.addend) else none
  | 4 => if 2 ≤ len && fitsSigned 20 target then field 8 19 0 target else none
  | 5 => if near && fitsSigned 22 (gap / 4) then field 0 21 0 (gap / 4) else none
  | 6 => if near && fitsSigned 16 (gap / 4) then field 0 15 0 (gap / 4) else none
  | 7 => if near && fitsSigned 20 (gap / 4) then field 8 19 0 (gap / 4) else none
  | 8 => if near && fitsSigned 10 (gap / 4) then field 0 9 0 (gap / 4) else none
  | _ => none

/-- One relocation applied to the loaded section that holds its site. -/
def Reloc.apply (r : Reloc) (ss : List Section) : Option (List Section) :=
  match (indexed ss).find? fun (_, x) => x.loaded && x.vaddr ≤ r.site && r.site < x.vaddr + x.fsize with
  | none => none
  | some (i, x) =>
    if r.zero != 0 || ss.length ≤ r.tsect then none
    else
      let at_ := r.site - x.vaddr
      match r.value x.bytes at_ with
      | none => none
      | some (off, n, v) =>
        if at_ + off + n ≤ x.fsize then some (ss.set i { x with bytes := x.bytes.patch (at_ + off) n v }) else none

/-- Row 3 of R347: every relocation applied. -/
def relocate (ss : List Section) : Option (List Section) :=
  if (ofType ss 7).all (·.fsize % 24 == 0) then
    (relocsOf ss).foldl (fun acc r => acc.bind r.apply) (some ss)
  else none

/-! ### Boundary maps (R344) -/

/-- The walk over the words of a CODE section, `left` words of an instruction's span remaining. -/
def mapWalk (c m : Section) : Nat → Nat → Nat → Bool
  | 0, _, _ => true
  | n + 1, w, left =>
    if (m.bytes.getD (w / 8) 0).getLsbD (w % 8) then
      let k := wordsOf (BitVec.ofNat 2 (bitsOf (c.bytes.num (4 * w) 4) 31 30))
      left == 0 && w % 1024 + k ≤ 1024 && mapWalk c m n (w + 1) (k - 1)
    else if left != 0 then mapWalk c m n (w + 1) (left - 1)
    else c.fsize ≤ 4 * w && mapWalk c m n (w + 1) 0

/-- Row 4 of R347. -/
def mapsOk (ss : List Section) : Bool :=
  (indexed ss).all fun (i, c) =>
    c.ty != 1 ||
    match mapOf ss i with
    | some m => mapWalk c m (c.msize / 4) 0 0
    | none => false

/-! ### Unwind tables (R345) -/

structure UnwFunc where
  start : Nat
  stop : Nat
  frame : Nat
  zero : Nat
  first : Nat
  ns : Nat
  deriving DecidableEq, Repr

def unwFuncs (b : Bytes) : List UnwFunc :=
  (List.range (b.num 0 8)).map fun i =>
    let o := 16 + 32 * i
    { start := b.num o 8, stop := b.num (o + 8) 8, frame := b.num (o + 0x14) 4, zero := bitsOf (b.num (o + 0x10) 4) 30 29,
      first := b.num (o + 0x1C) 4, ns := b.num (o + 0x18) 4 }

/-- The ranges of consecutive records rise without overlap. -/
def risingRanges : List (Nat × Nat) → Bool
  | [] => true
  | [r] => r.1 ≤ r.2
  | r :: q :: l => r.1 ≤ r.2 && r.2 ≤ q.1 && risingRanges (q :: l)

/-- The site records of a function: LO, HI, PAD. -/
def unwSites (b : Bytes) (f : UnwFunc) : List (Nat × Nat × Nat) :=
  let base := 16 + 32 * b.num 0 8
  (List.range f.ns).map fun i =>
    let o := base + 24 * (f.first + i)
    (b.num o 8, b.num (o + 8) 8, b.num (o + 16) 8)

def unwindOk (ss : List Section) (x : Section) : Bool :=
  let b := x.bytes
  let n := b.num 0 8
  let k := b.num 8 8
  let fs := unwFuncs b
  16 + 32 * n + 24 * k ≤ x.fsize && risingRanges (fs.map fun f => (f.start, f.stop)) &&
  fs.all fun f =>
    let sites := unwSites b f
    f.frame % 64 == 0 && f.zero == 0 && f.first + f.ns ≤ k && risingRanges (sites.map fun r => (r.1, r.2.1)) &&
    sites.all fun r => f.start ≤ r.1 && r.2.1 ≤ f.stop && (r.2.2 == 0 || isStartWord ss (fun _ => true) r.2.2)

/-! ### Placement and the boot tree (R342, R343) -/

structure Placing where
  rect : Rect
  role : Nat
  zero : Nat
  deriving DecidableEq, Repr

def placings (ss : List Section) : List Placing :=
  (ofType ss 9).flatMap fun x => (List.range (x.fsize / 8)).map fun i =>
    let w := x.bytes.num (8 * i) 8
    { rect := rectOf w, role := bitsOf w 25 19, zero := w / 2 ^ 26 }

/-- Every core of a rectangle may run a role. -/
def mayRun (ps : List Placing) (role : Nat) (r : Rect) : Bool :=
  r.cores.all fun c => ps.any fun p => p.role == role && p.rect.hasCore c

/-- The LPB templates of a CONST section; where they lie in it nothing states. -/
def templatesOk (ps : List Placing) (x : Section) : Bool :=
  (Config.templateOffsets x.bytes).all fun o =>
    let r := rectOf (x.bytes.num o 8)
    r.onModule && mayRun ps (bitsOf (x.bytes.num (o + 8) 8) 58 52) r

/-- Row 6 of R347; the Second's partition is the module. -/
def placeOk (ss : List Section) : Bool :=
  let ps := placings ss
  let roles := rolesOf ss
  (ps.all fun p => p.zero == 0 && p.rect.aligned && p.rect.onModule && roles.any (·.role == p.role)) &&
  pairwiseNot (fun a b : Placing => a.role == b.role && a.rect.overlaps b.rect) ps &&
  (ofType ss 4).all (templatesOk ps)

/-- The entries of the boot tree. -/
def bootEntries (ss : List Section) : List Nat :=
  (ofType ss 10).flatMap fun x => (List.range (x.fsize / 4)).map fun i => x.bytes.num (4 * i) 4

def bootCore (e : Nat) : Nat := bitsOf e 12 0
def bootRoot (e : Nat) : Bool := e.testBit 15

/-- The parent of an entry, the neighbour in its direction FROM. -/
def bootParent (e : Nat) : Option Nat :=
  let x := fileOf (bootCore e)
  let y := rankOf (bootCore e)
  match bitsOf e 14 13 with
  | 0 => if y < 63 then some (coreAt x (y + 1)) else none
  | 1 => if x < 127 then some (coreAt (x + 1) y) else none
  | 2 => if 0 < y then some (coreAt x (y - 1)) else none
  | _ => if 0 < x then some (coreAt (x - 1) y) else none

def bootTreeOk : List Nat → List Nat → Bool
  | _, [] => true
  | seen, e :: l =>
    bitsOf e 31 16 == 0 && !seen.contains (bootCore e) &&
    (if bootRoot e then bitsOf e 14 13 == 0
     else match bootParent e with
       | some p => seen.contains p
       | none => false) &&
    bootTreeOk (bootCore e :: seen) l

/-- Row 7 of R347. -/
def bootOk (ss : List Section) : Bool :=
  let es := bootEntries ss
  (ofType ss 10).isEmpty ||
  (bootTreeOk [] es && (placings ss).all fun p => p.rect.cores.all fun c => es.any fun e => bootCore e == c)

/-! ### What the Second loads (R348, 25 R428, R429) -/

/-- Where the map of a CODE section goes. -/
def mapAddr (bmapv : Nat) (c : Section) : Nat := bmapv + 128 * (c.vaddr / 4096)

/-- The runs of memory that the sections and the maps take. -/
def piecesOf (bmapv : Nat) (ss : List Section) : List Piece :=
  ((ss.filter (·.loaded)).map fun x => { off := x.foff, pa := x.vaddr, bytes := x.bytes, size := x.msize, empty := x.flags.testBit 2 }) ++
  (indexed ss).filterMap fun (i, c) =>
    if c.ty == 1 then (mapOf ss i).map fun m => { off := m.foff, pa := mapAddr bmapv c, bytes := m.bytes, size := m.msize, empty := false }
    else none

/-- The 4 KiB pages of a run. -/
def pagesOfRun (pa n : Nat) : List Nat := if n = 0 then [] else (List.range ((pa + n - 1) / 4096 - pa / 4096 + 1)).map (pa / 4096 + ·)

def codePages (ss : List Section) : List Nat :=
  ((ofType ss 1).flatMap fun c => pagesOfRun c.vaddr c.msize).foldl insertNat []

def mapPages (bmapv : Nat) (ss : List Section) : List Nat :=
  ((ofType ss 1).flatMap fun c => pagesOfRun (mapAddr bmapv c) (128 * (c.msize / 4096))).foldl insertNat []

/-- The 8 MiB of context 0's tables (R429). -/
def bootTables : Nat := 0xFFFF000000

/-- The 2 MiB regions that hold a code page, a map page or the tables. -/
def splitRegions (code maps : List Nat) : List Nat :=
  ((code ++ maps ++ pagesOfRun bootTables (2 ^ 23)).map (· / 512)).foldl insertNat []

/-- R428's four requirements; tables that do not fit into their 8 MiB are no part of it (PRESUMED, log entry 41). -/
def rootOk (bmapv : Nat) (ss : List Section) : Bool :=
  (rolesOf ss).any (·.role == 0) && (placings ss).any (fun p => p.role == 0 && p.rect.hasCore 0) && !(ofType ss 10).isEmpty &&
  ((piecesOf bmapv ss).all fun p => p.pa + p.size ≤ bootTables) &&
  (splitRegions (codePages ss) (mapPages bmapv ss)).length ≤ 510

/-- The first check of a file that fails, by the code of BERR, or what is loaded (R347, R428). -/
def checkImage (file : Bytes) : Except Nat Load :=
  if !formatOk file then .error 1
  else
    let ss := sectionsOf file
    if !sectionsOk ss then .error 2
    else
      match relocate ss with
      | none => .error 3
      | some ss =>
        let bmapv := file.num 0x18 8
        if !mapsOk ss then .error 4
        else if !(ofType ss 6).all (unwindOk ss) then .error 5
        else if !placeOk ss then .error 6
        else if !bootOk ss then .error 7
        else
          match (rolesOf ss).find? (·.role == 0), rootOk bmapv ss with
          | some r, true =>
            let stack := ((ofType ss 3).filter (·.role == 0)).foldl
              (fun (b : Option Section) x => match b with
                | some y => if y.vaddr < x.vaddr then some x else some y
                | none => some x) none
            .ok
              { len := file.length, pieces := piecesOf bmapv ss, code := codePages ss, maps := mapPages bmapv ss, tree := bootEntries ss, got := []
                bmapv := BitVec.ofNat 64 bmapv, thvv := file.word 0x20
                swBase := BitVec.ofNat 64 ((stack.map (·.vaddr)).getD 0), swLen := BitVec.ofNat 64 ((stack.map (·.msize)).getD 0)
                entry := BitVec.ofNat 64 r.entry, kaddr := BitVec.ofNat 64 r.kaddr }
          | _, _ => .error 8

end Sys2Proof.Machine
end

