-- ==== Sys2Proof/Machine/Boot.lean ====
section
/-!
DEFINITION. Power-up, self-test and stalemate, the load of the boot image over the boot tree, and context 0 (25 R423 to R429, 21
R343, R348, 01 R17).
-/

namespace Sys2Proof.Machine

/-! ### Power-up and stalemate (R425 to R427) -/

def inHost (pa : Nat) : Bool := 0x8000000000000 ≤ pa

/-- What outlives the module's power: the host's memory, the wear records and the turns that are to come. -/
def State.onlyHost (s : State) : State :=
  { State.reset with
    mem := s.mem.filter fun e => inHost e.1, empties := s.empties.filter fun w => inHost (8 * w),
    poison := s.poison.filter fun w => inHost (8 * w), agenda := s.agenda, focus := s.focus, nextUid := s.nextUid,
    order := s.order, free := s.free, answers := s.answers, fleet := { State.reset.fleet with wear := s.fleet.wear, history := s.fleet.history } }

/-- R427, 01 R17: compute stops, and the state of every context is lost. The ports, the host's registers and the report stay. -/
def State.stalemate (s : State) : State :=
  { s.onlyHost with
    boot := { s.boot with state := 5, heldBgo := false, file := none, load := none
                          image := if s.boot.state = 4 then s.boot.image else [] }
    report := s.report, ports := s.ports,
    tiers := s.tiers, syspos := s.syspos, leaseLen := s.leaseLen, jobs := s.jobs, fleet := s.fleet, gclk := s.gclk,
    lbase := s.lbase }

/-- The eight words of the report (R426). -/
def reportOf (failing : Option (Nat × Word × Word)) (ports tiers : Nat) (micros : Word) : Report :=
  let (stage, unit, detail) := failing.getD (0, 0, 0)
  let result : Nat := if failing.isSome then 1 else 0
  ⟨#v[0x53545250, BitVec.ofNat 64 (stage % 256 * 256 + result), unit, detail, BitVec.ofNat 64 (ports * 256 + tiers), micros, 0, 0]⟩

/-- Bit n of a mask for each n below `k` of which a property holds. -/
def maskOf (k : Nat) (p : Nat → Bool) : Nat := ((List.range k).map fun n => if p n then 2 ^ n else 0).sum

/-- The tier links as they come up, and the capacity installed in GiB (R421, R422). -/
def tierLinksOf (t : SelfTest) : Vector TierLink 4 :=
  Vector.ofFn fun n =>
    match t.tiers[n.val]? with
    | some (up, width, cap) => ⟨up, if up then width % 4 else 0, if up then cap % 65536 else 0⟩
    | none => ⟨false, 0, 0⟩

def installed (ts : Vector TierLink 4) : Nat :=
  if ts.toList.all (·.up) then min (4 * (ts.toList.foldl (fun m t => min m t.cap) 65535)) 16384 else 0

/-- The ports as they train. -/
def portsOf (t : SelfTest) : Vector Port 8 := Vector.ofFn fun n => { Port.down with width := (t.ports.getD n.val 0) % 4 }

/-- Stages 5 and 6. -/
def State.trained (s : State) (t : SelfTest) : State :=
  let tiers := tierLinksOf t
  { s with
    ports := portsOf t
    tiers := tiers, tierCap := installed tiers
    report := reportOf none (maskOf 8 fun n => (t.ports.getD n 0) % 4 != 0) (maskOf 4 fun n => (tiers[n]?).any (·.up)) t.micros }

/-- A load starts with BIMG and BLEN as they stand (R424). -/
def State.startLoad (s : State) : State :=
  { s with boot := { s.boot with state := 3, berr := 0, heldBgo := false, load := none
                                 file := some (s.boot.bimg.toNat, s.boot.blen.toNat) } }

/-- Power-up in self-test; in every other state it is a power cycle, after which the host has written nothing yet
(DEDUCED, log entry 38). A module that fails keeps its ports trained (R427). -/
def State.powerUp (s : State) (t : SelfTest) : State :=
  let s' := s.onlyHost
  let s' : State :=
    if s.boot.state = 1 then
      { s' with boot := s.boot, syspos := s.syspos, leaseLen := s.leaseLen, jobs := s.jobs,
                fleet := s.fleet, hdm := s.hdm, bucketNext := s.bucketNext }
    else s'
  match t.failing with
  | some (stage, unit, detail) =>
    if 1 ≤ stage ∧ stage ≤ 4 then { s' with report := reportOf (some (stage, unit, detail)) 0 0 t.micros, ports := portsOf t }.stalemate
    else s
  | none =>
    let s' := s'.trained t
    if s'.boot.heldBgo then s'.startLoad else { s' with boot := { s'.boot with state := 2 } }

def execPowerUp (t : SelfTest) (s : State) : Result := .next (s.powerUp t)

def State.writeBgo (s : State) (v : Word) : State :=
  if !v.getLsbD 0 then s
  else if s.boot.state = 1 then { s with boot := { s.boot with heldBgo := true } }
  else if s.boot.state = 2 then s.startLoad
  else s

def execBgo (value : BitVec 64) (s : State) : Result := .next (s.writeBgo value)

/-- A die-to-die lane fails in service (01 R17). A link goes by its number in the report's UNIT, 2·board + link (R426); which of the sixteen
pairs name the ten links nothing states, and every pair counts as one (DESIGN CHOICE, log entry 88). -/
def execD2dLaneFailure (board link : Nat) (s : State) : Result :=
  .next (if board < 8 ∧ link < 2 ∧ s.boot.state ≠ 5 then s.stalemate else s)

/-! ### Reading and checking the file (R428) -/

/-- A load that fails. -/
def State.failLoad (s : State) (berr : Nat) : State :=
  { s with boot := { s.boot with state := 2, berr := BitVec.ofNat 8 berr, file := none, load := none } }

/-- The Second reads the file through the host's window and checks it. -/
def State.loadImage (s : State) : State :=
  match s.boot.file with
  | none => s
  | some (a, n) =>
    if s.boot.state ≠ 3 then s
    else
      let pa := 0x8000000000000 + a
      if 2 ^ 51 < a + n || s.poisoned pa n then s.failLoad 9
      else
        let file := Memory.getBytes s.mem pa n
        match checkImage file with
        | .error e => s.failLoad e
        | .ok l => { s with boot := { s.boot with file := none, image := file, load := some { l with src := pa } } }

def execBootImageLoad (s : State) : Result := .next s.loadImage

/-! ### Blocks over the boot tree (21 R343, R348) -/

/-- The 4 KiB blocks of the file. -/
def Load.blocks (l : Load) : List Nat := List.range ((l.len + 4095) / 4096)

def Load.count (l : Load) (core : Nat) : Nat := (Sparse.get l.got core).getD 0

/-- A core may receive its next block: it is a root, or its parent has it and so has every earlier child of that parent. -/
def Load.mayReceive (l : Load) (core : Nat) : Bool :=
  match l.tree.find? fun e => bootCore e == core with
  | none => false
  | some e =>
    if bootRoot e then true
    else
      match bootParent e with
      | none => false
      | some p =>
        l.count core < l.count p &&
        (l.tree.takeWhile (· != e)).all fun d => bootRoot d || bootParent d != some p || l.count core < l.count (bootCore d)

/-- The first core of its board in the order of the entries. -/
def Load.writes (l : Load) (core : Nat) : Bool :=
  (l.tree.find? fun e => boardOf (bootCore e) == boardOf core).map bootCore == some core

/-- A word with its bit, written by the loader. -/
def State.bootWord (s : State) (pa : Nat) (v : Word) : State := ((s.store pa 8 v.toNat).clearPoison pa).setFull pa

/-- Bytes of a piece, from one offset in it up to another, written with their bits where their home is on a board. -/
def State.writePart (s : State) (board lo hi : Nat) (p : Piece) : State :=
  (List.range (hi - lo)).foldl (fun s i =>
    let a := p.pa + lo + i
    if homeBoard a != board then s
    else
      { s with mem := Memory.set s.mem a (p.bytes.getD (lo + i) 0), poison := s.poison.filter (· != a / 8) }.markFull (a / 8 * 8) (!p.empty)) s

/-- What a block of the file writes of a piece on a board; the zeros behind a piece's bytes are written with the file's last block (DEDUCED,
log entry 33). -/
def State.writePiece (s : State) (board block : Nat) (last : Bool) (p : Piece) : State :=
  let n := min p.bytes.length p.size
  let s := s.writePart board (min n (4096 * block - p.off)) (min n (4096 * block + 4096 - p.off)) p
  if last then s.writePart board n p.size p else s

/-! ### Context 0 (R429) -/

/-- Table entries: a pointer, and a leaf of a size with X and W. -/
def pointerTo (pa : Nat) : Word := BitVec.ofNat 64 (pa + 1)
def leafOf (pa sz : Nat) (x w : Bool) : Word :=
  BitVec.ofNat 64 (pa + 9 + 16 * sz + (if x then 2 else 0) + (if w then 4 else 0))

/-- The layout of the 8 MiB: the table of level 1, the two of level 2, those of level 4, the 1,024 of level 3. -/
def tableL2 (k : Nat) : Nat := bootTables + 2 ^ 21 + 4096 * k
def tableL4 (i : Nat) : Nat := bootTables + 2 ^ 21 + 4096 * (2 + i)
def tableL3 (n : Nat) : Nat := bootTables + 2 ^ 22 + 4096 * n

/-- The leaf of a page of a split region. -/
def Load.pageLeaf (l : Load) (page : Nat) : Word :=
  let code := l.code.contains page
  let table := bootTables / 4096 ≤ page && page < bootTables / 4096 + 2048
  leafOf (4096 * page) 0 code (!(code || l.maps.contains page || table))

/-- The entries that are written, by address. -/
def Load.tableWords (l : Load) : List (Nat × Word) :=
  let split := splitRegions l.code l.maps
  let mid (r : Nat) : Word :=
    match (indexed split).find? fun (_, q) => q == r with
    | some (i, _) => pointerTo (tableL4 i)
    | none => leafOf (2 ^ 21 * r) 2 false true
  [(bootTables, pointerTo (tableL2 0)), (bootTables + 8, pointerTo (tableL2 1))] ++
  ((List.range 1024).map fun n => (tableL2 0 + 8 * n, pointerTo (tableL3 n))) ++
  ((List.range (2 ^ 19)).map fun r => (tableL3 0 + 8 * r, mid r)) ++
  (indexed split).flatMap fun (i, r) => (List.range 512).map fun p => (tableL4 i + 8 * p, l.pageLeaf (512 * r + p))

/-- The stack pool of 20 R325 with stacks of 64 KiB, linked in rising order. -/
def poolWords (base len : Word) : List (Nat × Word) :=
  let first := (base.toNat + 64 + 65535) / 65536 * 65536
  let n := (base.toNat + len.toNat - first) / 65536
  let at_ (i : Nat) : Word := if i < n then BitVec.ofNat 64 (first + 65536 * i) else 0
  if len.toNat < 64 then []
  else
    [(base.toNat, at_ 0), (base.toNat + 8, 65536)] ++ ((List.range 6).map fun i => (base.toNat + 16 + 8 * i, (0 : Word))) ++
    (List.range n).map fun i => ((at_ i).toNat, at_ (i + 1))

/-- Authority entry 0 of the root supervisor (22 R358). -/
def rootRight : Word := 0xFF000000FF06E000

/-- The declared ranges of the boot launch. -/
def bootRanges : List Range := [⟨0, 2 ^ 40, true⟩, ⟨0x100000000000, 2 ^ 44, true⟩, ⟨0x8000000000000, 2 ^ 48 - 1, true⟩]

def bootLaunch (l : Load) (since : Nat) : Launch :=
  { seedLaunch 0 Rect.module l.entry (BitVec.ofNat 64 reportAddr) rootRight l.swBase l.swLen [] since with
    kaddr := l.kaddr, cword := BitVec.ofNat 64 (reportAddr + 0x38), ranges := bootRanges }

def bootCtx (l : Load) (gclk : Word) : Ctx :=
  { Ctx.fresh none (BitVec.ofNat 64 bootTables) l.bmapv Rect.module.leafId gclk with
    thv := l.thvv, qlim := Vector.ofFn fun j => (Config.rootQlim j).toNat, watchBlocks := Config.rootWatchBlocks.toNat,
    matchLimit := Config.rootMatchLimit.toNat }

/-- Context 0 is built, and the root supervisor is READY at core 0, slot 0. -/
def State.startRoot (s : State) (l : Load) : State :=
  let words := l.tableWords ++ poolWords l.swBase l.swLen ++
    (indexed s.report.words.toList).map fun (i, w) => (reportAddr + 8 * i, w)
  let s := words.foldl (fun s e => s.bootWord e.1 e.2) s
  let s := s.setCtx 0 (bootCtx l s.gclk)
  match s.startSeed 0 (bootLaunch l s.order) with
  | some s => { s with boot := { s.boot with state := 4, load := none } }
  | none => s

/-- Every core of the tree has every block. -/
def Load.complete (l : Load) : Bool := l.tree.all fun e => l.blocks.length ≤ l.count (bootCore e)

/-- The Second sends a root core's block from the host's window, where a read may fail (R424; DEDUCED, log entry 33). -/
def State.blockFails (s : State) (l : Load) (core block : Nat) : Bool :=
  (l.tree.any fun e => bootCore e == core && bootRoot e) && s.poisoned (l.src + 4096 * block) (min 4096 (l.len - 4096 * block))

/-- A core receives a block: the next one in order. A transfer that fails ends the load. -/
def State.receiveBlock (s : State) (core block : Nat) : State :=
  match s.boot.load with
  | none => s
  | some l =>
    if s.boot.state ≠ 3 || l.blocks[l.count core]? != some block || !l.mayReceive core then s
    else if s.blockFails l core block then s.failLoad 9
    else
      let last := l.blocks.length ≤ block + 1
      let s := if l.writes core then l.pieces.foldl (fun s p => s.writePiece (boardOf core) block last p) s else s
      let l := { l with got := Sparse.put l.got core (l.count core + 1) }
      if l.complete then s.startRoot l else { s with boot := { s.boot with load := some l } }

def execBootBlock (core block : Nat) (s : State) : Result := .next (s.receiveBlock core block)

end Sys2Proof.Machine
end

