-- ==== Sys2Proof/Machine/Fleet.lean ====
section
/-!
DEFINITION. What the operator of the fleet reads and sets: BAR0, the stall window, wear, frequency and throttle, token buckets,
PLDM and SPDM, and the registers with no behaviour of their own (00 R7, 24 R401, R402, 25 R423, 26 R430 to R440).
-/

namespace Sys2Proof.Machine

/-! ### Stall window (R431, R432) -/

/-- The 16 counters of an engine of a core. -/
def State.countersOf (s : State) (core eng : Nat) : Vector (BitVec 48) 16 :=
  Vector.ofFn fun i => (Sparse.get (s.core core).stalls (eng * 16 + i.val)).getD 0

/-- In the stalemate state only the boot registers and the report respond (R430). -/
def State.dead (s : State) : Bool := s.boot.state == 5

/-- A write of CSEL asks for a copy, and clears DONE; it replaces one that has not been served. -/
def Window.select (w : Window) (v : Word) : Window := { w with csel := v &&& 0x31FFF, asked := true, done := false }

/-- The copy, at one cycle of the engine's island. -/
def State.served (s : State) (w : Window) : Window :=
  if w.asked then { w with asked := false, done := true, cnt := s.countersOf (field w.csel 12 0) (field w.csel 17 16) } else w

/-- Of a window, the 8 bytes at an offset; an offset that no field has reads 0 (00 R8). -/
def Window.read (w : Window) (off : Nat) : Word :=
  if off = 0x200 then w.csel
  else if off = 0x208 then (if w.done then 1 else 0)
  else if 0x280 ≤ off && off < 0x300 then ((w.cnt[(off - 0x280) / 8]?).getD 0).zeroExtend 64
  else 0

def State.selectCounters (s : State) (v : Word) : State :=
  if s.dead then s else { s with fleet := { s.fleet with window := s.fleet.window.select v } }

/-- The Second selects an engine for its own copy; when it does nothing states (DESIGN CHOICE, log entry 43). -/
def State.secondSelect (s : State) (v : Word) : State := { s with fleet := { s.fleet with second := s.fleet.second.select v } }

/-- A copy that has been asked for is made, in BAR0's window or in the Second's; when it is made within a cycle nothing states (DESIGN CHOICE,
log entry 3). -/
def State.copyCounters (s : State) (second : Bool) : State :=
  if s.dead then s
  else if second then { s with fleet := { s.fleet with second := s.served s.fleet.second } }
  else { s with fleet := { s.fleet with window := s.served s.fleet.window } }

def execCsel (value : BitVec 64) (s : State) : Result := .next (s.selectCounters value)

/-! ### Frequency and throttle (R435, R436) -/

def Fleet.fsetOf (f : Fleet) (island : Nat) : Nat := (Sparse.get f.fset island).getD 600

/-- FTH is below some island's FSET. -/
def Fleet.throttled (f : Fleet) : Bool :=
  (f.fset.any fun e => f.fth < e.2) || (f.fset.length < 512 && f.fth < 600)

def putFreq (m : SMap Nat) (island v : Nat) : SMap Nat := if v = 600 then Sparse.erase m island else Sparse.put m island v

def State.setFreq (s : State) (island v : Nat) : State :=
  if s.dead || 512 ≤ island || v % 25 != 0 || v < 200 || 750 < v then s
  else { s with fleet := { s.fleet with fset := putFreq s.fleet.fset island v } }

def execIfreqWrite (island : Nat) (value : BitVec 64) (s : State) : Result := .next (s.setFreq island (field value 9 0))

/-- The island runs at the lesser of FSET and FTH from here on. -/
def execFreqTransition (island : Nat) (s : State) : Result :=
  .next (if 512 ≤ island then s
         else { s with fleet :=
           { s.fleet with running := putFreq s.fleet.running island (min (s.fleet.fsetOf island) s.fleet.fth) } })

/-- R436's rule for FTH, which stays within the range that the module supports (00 R1, R10; DEDUCED, log entry 81). -/
def nextFth (fth power pcap inlet : Nat) : Nat :=
  if pcap < power || 45 < inlet then max 200 (fth - 25)
  else if 100 * power ≤ 95 * pcap && 100 * inlet ≤ 95 * 45 then min 750 (fth + 25)
  else fth

def execThrottleUpdate (power inlet : Nat) (s : State) : Result :=
  .next { s with fleet := { s.fleet with power := power % 4096, inlet := inlet % 256
                                         fth := nextFth s.fleet.fth power s.fleet.pcap.toNat inlet } }

/-! ### Wear (R433, R434) -/

def Wear.new : Wear := { drift := 0, eol := 0xFFFFFFFF, age := 0, ems := 0 }

def Fleet.wearOf (f : Fleet) (island : Nat) : Wear := (Sparse.get f.wear island).getD Wear.new

/-- The days until a quantity that has risen by `rise` in `hours` hours has used up `left`: none where that is unbounded
(DEDUCED, log entry 40). -/
def daysLeft (left rise : Int) (hours : Nat) : Option Nat :=
  if left ≤ 0 then some 0 else if rise ≤ 0 then none else some ((left * hours) / (24 * rise)).toNat

/-- R434, from the readings of the hours before, the last one first; at first power-up both were 0. -/
def eolOf (age : Nat) (w : WearReading) (past : List (Int × Nat)) (emsLim : Nat) : BitVec 32 :=
  let hours := min age 720
  let (drift, ems) := past.getD (hours - 1) (0, 0)
  let least : Option Nat :=
    match daysLeft (500 - w.drift) (w.drift - drift) hours, daysLeft ((emsLim : Int) - w.ems) ((w.ems : Int) - ems) hours with
    | some a, some b => some (min a b)
    | some a, none => some a
    | none, b => b
  match least with
  | some d => if age < 24 || 0xFFFFFFFE < d then 0xFFFFFFFF else BitVec.ofNat 32 d
  | none => 0xFFFFFFFF

def State.noteWear (s : State) (island : Nat) (w : WearReading) : State :=
  if 512 ≤ island then s
  else
    let age := min 65535 ((s.fleet.wearOf island).age.toNat + 1)
    let past := (Sparse.get s.fleet.history island).getD []
    let r : Wear :=
      { drift := BitVec.ofInt 32 w.drift, eol := eolOf age w past (Config.emsLimit island).toNat, age := BitVec.ofNat 16 age
        ems := BitVec.ofNat 48 w.ems }
    { s with fleet := { s.fleet with
        wear := Sparse.put s.fleet.wear island r, history := Sparse.put s.fleet.history island (((w.drift, w.ems) :: past).take 720) } }

def execWearUpdate (island : Nat) (w : WearReading) (s : State) : Result := .next (s.noteWear island w)

/-! ### Token buckets (R437, R438, 04 R110) -/

def execTokenRefill (s : State) : Result := .next s.refillTokens

/-! ### BAR0 (R430) -/

/-- The eight bytes at an aligned offset; the report reads as self-test and the boot launch left it (DEDUCED, log entry 37). -/
def State.bar0 (s : State) (off : Nat) : Word :=
  let f := s.fleet
  if off = 0 then BitVec.ofNat 64 s.boot.state
  else if off = 8 then s.boot.bimg
  else if off = 0x10 then s.boot.blen
  else if off = 0x20 then s.boot.berr.zeroExtend 64
  else if 0x100 ≤ off && off < 0x140 then (s.report.words[(off - 0x100) / 8]?).getD 0
  else if s.dead then 0
  else if 0x200 ≤ off && off < 0x300 then f.window.read off
  else if off = 0x300 then s.jobFilter.zeroExtend 64
  else if off = 0x308 then f.pcap.zeroExtend 64
  else if off = 0x310 then
    BitVec.ofNat 64 ((if f.throttled then 2 ^ 63 else 0) + f.power * 2 ^ 32 + f.inlet * 2 ^ 16 + f.fth)
  else if 0x1000 ≤ off && off < 0x3000 then
    let w := f.wearOf ((off - 0x1000) / 16)
    if off % 16 = 0 then w.drift ++ w.eol else w.age ++ w.ems
  else if 0x3000 ≤ off && off < 0x4000 then BitVec.ofNat 64 (f.fsetOf ((off - 0x3000) / 8))
  else if 0x4000 ≤ off && off < 0xC000 then (Sparse.get s.bucketNext ((off - 0x4000) / 8)).getD 0
  else if 0xC000 ≤ off && off < 0xD000 then
    ((s.leaves.find? fun l => l.node.leafId == (off - 0xC000) / 8).map (·.probes.zeroExtend 64)).getD 0
  else 0

def execBar0UnsupportedAccess (offset size : Nat) (_ : Bool) (s : State) : Result :=
  .next (if size = 8 ∧ offset % 8 = 0 then s else s.answer (.unsupported offset))

/-! ### PLDM (R439) -/

/-- The least EOL among the islands of a board. -/
def Fleet.boardEol (f : Fleet) (board : Nat) : Nat :=
  (List.range 64).foldl (fun m i => min m (f.wearOf (board * 64 + i)).eol.toNat) 0xFFFFFFFF

/-- The sensors in the order of R439, from record handle 0x10000 (PRESUMED, log entry 43). -/
def State.sensor (s : State) (k : Nat) : Option Word :=
  if k = 0 then some (BitVec.ofNat 64 s.fleet.power)
  else if k = 1 then some (BitVec.ofNat 64 s.fleet.inlet)
  else if k = 2 then some (BitVec.ofNat 64 s.fleet.fth)
  else if k < 11 then some (Config.boardTemperature (k - 3) s.free)
  else if k < 19 then some (BitVec.ofNat 64 (s.fleet.boardEol (k - 11)))
  else if k = 19 then some (BitVec.ofNat 64 s.boot.state)
  else none

/-- A BAR0 field of the chapter; the stall window is the Second's own copy (R432). -/
def State.oemRecord (s : State) (handle : Nat) : Option Word :=
  if handle < 0x140 || 0xD000 ≤ handle || handle % 8 != 0 then none
  else if 0x200 ≤ handle && handle < 0x300 then some (if s.dead then 0 else s.fleet.second.read handle)
  else some (s.bar0 handle)

def State.pldm (s : State) (ty handle : Nat) : State :=
  let s' := { s with free := s.free + 1 }
  if ty = 0 then s.answer (.pldm [])
  else if ty = 2 then
    match if handle < 0x10000 then s.oemRecord handle else s.sensor (handle - 0x10000) with
    | some v => s'.answer (.pldm [v])
    | none => s.answer .pldmRefused
  else s.answer .pldmRefused

def execPldmRequest (ty handle : Nat) (s : State) : Result := .next (s.pldm ty handle)

/-! ### SPDM (R440) -/

/-- The measurements. -/
def State.measurement (s : State) (index : Nat) : Option (BitVec 384) :=
  if index = 1 then some Config.firmware
  else if index = 2 then some (Config.digest (s.report.words.toList.flatMap fun w => Memory.toBytes 8 w.toNat))
  else if index = 3 then
    some (if s.boot.state = 4 || (s.boot.state = 5 && !s.boot.image.isEmpty) then Config.digest s.boot.image else 0)
  else none

def execSpdmRequest (index : Nat) (s : State) : Result :=
  .next (match s.measurement index with
    | some d => s.answer (.spdm d (Config.sign d))
    | none => s)

/-! ### Registers with no behaviour of their own (00 R7) -/

def State.writeRegister (s : State) (r : PlainReg) (v : Word) : State :=
  match r with
  | .bimg => if s.dead then s else { s with boot := { s.boot with bimg := v &&& ~~~(0xFFF : Word) } }
  | .blen => if s.dead then s else { s with boot := { s.boot with blen := v &&& 0x3FFFFFFF } }
  | .pcap => if s.dead then s else { s with fleet := { s.fleet with pcap := BitVec.ofNat 12 (min 2800 (field v 11 0)) } }
  | .bucket c =>
    if s.dead || 4096 ≤ c then s else { s with bucketNext := Sparse.put s.bucketNext c (v &&& 0x80000000FFFFFFFF) }
  | .syspos => { s with syspos := v.truncate 32 &&& 0x1FFFF8 }
  | .lease => if field v 15 0 = 0 then s else { s with leaseLen := v.truncate 16 }

def execRegisterWrite (reg : PlainReg) (value : BitVec 64) (s : State) : Result := .next (s.writeRegister reg value)

end Sys2Proof.Machine
end

