-- ==== Sys2Proof/Machine/Waits.lean ====
section
/-!
DEFINITION. When what a strand awaits is there, and the events that end a wait (01 R21, R31, 02 R49, 05 R122, 12 R267, R273).
-/

namespace Sys2Proof.Machine

/-- No strand of a list that came earlier waits for the same thing. -/
def State.firstOf (s : State) (l : List (Nat × Strand)) (u : Nat) (a : Await) : Bool :=
  match s.strand? u with
  | none => false
  | some st => l.all fun e => e.1 == u || e.2.state != .parked || e.2.await != a || st.since ≤ e.2.since

/-- The x registers that a stream reads, and the entries of a region's queues that it waits for. -/
def Strand.xFullIn (st : Strand) (access : Bool) : BitVec 64 :=
  match access, st.region with
  | true, some g => g.xFull
  | _, _ => st.xFull

/-- A queue has an entry for the execute stream, or room for the access stream (12 R270). -/
def queueReady (len cap : Nat) (access : Bool) : Bool := if access then len < cap else len != 0

def WaitKind.isRemote : WaitKind → Bool
  | .remote _ _ _ => true
  | _ => false

/-- A unit still has a trap or a start of a strand to see to (06 R157). -/
def State.choresOf (s : State) (u : Nat) : Bool :=
  s.later.any fun l => match l.chore with | .start v => v == u | .trap v _ _ _ _ _ => v == u | _ => false

/-- A stream of a strand has an access on the retry lists. -/
def State.waits (s : State) (u : Nat) (access : Bool) : Bool :=
  s.waiters.any fun w => w.uid == u && w.access == access && !w.kind.isRemote

/-- The number of a stream's request at the place where it waits. -/
def Strand.queueNo (st : Strand) (access : Bool) : Option Nat :=
  let q : Option (Nat × Nat) := match access, st.region with | true, some g => g.queued | _, _ => st.queued
  q.map (·.2)

/-- WHAT IS AWAITED IS THERE, for one stream of strand `u` (DEDUCED, log entry 42). -/
def State.awaitMet (s : State) (u : Nat) (st : Strand) (access : Bool) (a : Await) : Bool :=
  match a with
  | .reply => true
  | .fullX r => bit64 (st.xFullIn access) r
  | .fullV r => (match st.vec with | some v => v.vFull.getLsbD r | none => true)
  | .forward d j => (Sparse.get st.fwd (fwdKey d j)).isSome || s.broken st
  | .retries => !s.waits u access
  | .syncWord => !s.waits u access
  | .queue q => (match st.region with | some g => queueReady ((g.q[q]?).getD []).length 8 access | none => true)
  | .branchQueue => (match st.region with | some g => queueReady g.qb.length 16 access | none => true)
  | .storeQueue => (match st.region with | some g => queueReady g.store.length 8 (!access) | none => true)
  | .permit e => (s.engine st.core e).queue.length < 8
  | .claim e => (s.engine st.core e).claim.isNone
  | .sequencer =>
    (match st.region with
      | some g => g.joined
      | none => (s.seqHolder st.core).isNone && s.firstOf (s.strandsOf st.core) u .sequencer)
  | .landings onlyV => !s.landing u onlyV
  | .switching e => !(s.engine st.core e).switching
  | .vectorContext => s.boundContexts st.core < 8
  | .order release _ _ => s.ordered u st release
  | .drain path upTo => !s.draining st.core path upTo
  | .scopeZero ctx n => (s.scopeOf ctx n).count == 0
  | .producers =>
    (match s.launch? st.lrec with
      | some l => !l.inGambit || s.producersTriggered l
      | none => true)
  | .cut node => !s.cutCrossed (rectOf node)
  | .putn => false
  | .packet => false
  | .link core dir =>
    (((s.core core).links[dir]?).getD none).isNone && !s.queuedBefore (linkPlace core dir) ((st.queueNo access).getD s.order)
  | .window target => s.unackedTo u target < 64
  | .pause => !s.pausesJob st.ctx
  | .stepped t =>
    (match s.strand? t with
      | some x => x.stepping.isNone && !s.queuedBefore (strandPlace t) ((st.queueNo access).getD s.order)
      | none => true)
  | .recorded lrec => (s.unrecorded lrec).isEmpty
  | .settled => !s.outstanding u
  | .handler => !s.choresOf u
  | .lines ls => !ls.any s.backInv.contains
  | .accesses nos => !s.waiters.any fun w => nos.contains w.no
  | .tier _ _ => s.homeMet a s.order
  | .busy _ => s.homeMet a ((st.queueNo access).getD s.order)
  | .token _ _ => s.homeMet a ((st.queueNo access).getD s.order)

/-- The wait of a parked strand ends: it becomes READY, and the one that waited for the sequencer has it. -/
def State.endWait (s : State) (u : Nat) (st : Strand) : State :=
  let s := if st.await == .sequencer && st.region.isNone then s.editCore st.core fun k => { k with seq := some u } else s
  s.wake u

/-- What strand `u` awaits arrives, in its execute stream or its access stream. -/
def State.arrived (s : State) (u : Nat) : State :=
  match s.strand? u with
  | none => s
  | some st =>
    if st.state == .parked && s.awaitMet u st false st.await then s.endWait u st
    else
      match st.region with
      | none => s
      | some g =>
        match g.blocked with
        | none => s
        | some a => if s.awaitMet u st true a then s.setStrand u { st with region := some { g with blocked := none } } else s

def execMemoryReply (uid : Nat) (s : State) : Result := .next (s.arrived uid)

/-- R122: the lease clock has passed VISMAX, and every posted operation is acknowledged. -/
def State.visibleNow (s : State) (u : Nat) : State :=
  match s.strand? u with
  | none => s
  | some st =>
    match st.state, st.await with
    | .parked, .order release _ _ => if s.ordered u st release then s.wake u else s
    | _, _ => s

def execLeaseClockPassesVismax (uid : Nat) (s : State) : Result := .next (s.visibleNow uid)

end Sys2Proof.Machine
end

