-- ==== Sys2Proof/Machine/Barrel.lean ====
section
/-!
DEFINITION. A cycle of a core's barrel up to the fetch: refill, skipped turns, waits taken up again, and the stall counters (01
R26 to R29, 13 R302, R303, 26 R431).
-/

namespace Sys2Proof.Machine

/-! ### Stall counters (26 R431) -/

/-- One counter of an engine: 0 the barrel, 1 the matrix unit, 2 the copy engine, 3 the loop sequencer. -/
def Core.charge (eng cause : Nat) (k : Core) : Core :=
  let key := eng * 16 + cause
  { k with stalls := Sparse.put k.stalls key ((Sparse.get k.stalls key).getD 0 + 1) }

/-- The causes that keep the head of an engine's queue from its data work. -/
def State.engineCauses (s : State) (core e : Nat) : List Nat :=
  match s.headCmd core e with
  | none => [0]
  | some c =>
    (match (s.engine core e).stall with | some (cause, _) => if s.engineReady core e then [] else [cause] | none => []) ++
    (if c.state == .held then [if e = 0 then 4 else 5] else []) ++ (if c.state == .barrier then [5] else []) ++
    (if c.state == .chained then [6] else []) ++ (if s.halted c.ctx then [if e = 0 then 9 else 10] else []) ++
    (if c.state == .queued && !s.mayStart core c && !s.halted c.ctx then [if e = 0 then 7 else 6] else []) ++
    if c.kind == .cpyrow && c.state == .running && rowPath c.isFill c.rowSource c.rowDest != .mesh then [9] else []

/-- The lowest-numbered one counts. -/
def State.engineStall (s : State) (core e : Nat) : Option Nat :=
  (s.engineCauses core e).foldl (fun b c => match b with | some d => some (min c d) | none => some c) none

/-- The cause of a loop sequencer that a region holds and that does not issue. One at its DJOIN, or that waits for what no cause names, is
charged with none (DESIGN CHOICE, log entry 3). -/
def State.sequencerStall (s : State) (core : Nat) : Option Nat :=
  match (s.seqHolder core).bind s.strand? with
  | none => none
  | some st =>
    match st.region.bind (·.blocked) with
    | none => if s.halted st.ctx then some 7 else none
    | some a =>
      some (match a with
        | .queue _ => 0
        | .storeQueue => 1
        | .branchQueue => 2
        | .fullX _ => 3
        | .fullV _ => 3
        | .permit _ => 4
        | .token _ _ => 6
        | a => if a.stall = 2 || a == .syncWord then 5 else 8)

/-- What the core's other engines are charged with in a cycle (DESIGN CHOICE, log entry 3). -/
def State.chargeEngines (s : State) (core : Nat) : State :=
  let one (eng : Nat) (c : Option Nat) (k : Core) : Core := match c with | some c => k.charge eng c | none => k
  let m := s.engineStall core 0
  let c := s.engineStall core 1
  let q := s.sequencerStall core
  s.editCore core fun k => one 3 q (one 2 c (one 1 m k))

/-- A cycle in which nothing issues. -/
def State.bubble (s : State) (core cause : Nat) : State :=
  (s.chargeEngines core).editCore core fun k => { k.charge 0 cause with cyc := k.cyc + 1 }

/-! ### The position of the cycle (R26 to R29) -/

/-- The position that a core considers. -/
def State.position (s : State) (core : Nat) : Nat := (s.core core).cyc % 8

def State.inPosition (s : State) (core pos : Nat) : Option Nat := ((s.core core).pos[pos]?).getD none

/-- A strand whose wait is over goes on behind the instruction that waited. -/
def Strand.goBehind (st : Strand) : Strand := { st with pc := st.pc + BitVec.ofNat 64 st.behind, behind := 0 }

/-- R303: the stepped strand has completed its instruction and stops before the next one. -/
def State.stepStop (s : State) (u : Nat) (st : Strand) (a : Word) : State := (s.stopStrand u Cause.step 0 st.pc a).stepEnds u

/-- The strand that issues on this cycle, if one does; otherwise the cycle is over (DEDUCED, log entry 49). -/
def State.prepare (s : State) (core : Nat) : Option (Nat × Strand) × State :=
  let pos := s.position core
  let s := s.refill core pos
  match s.inPosition core pos with
  | none => (none, s.bubble core (((s.core core).left[pos]?).getD 14))
  | some u =>
    match s.strand? u with
    | none => (none, s.bubble core 15)
    | some st =>
      if st.skip != 0 then (none, (s.setStrand u { st with skip := st.skip - 1 }).bubble core 0)
      else if st.long != 0 then (none, (s.setStrand u { st with long := st.long - 1 }).bubble core 1)
      else if s.castDue st.ctx then (none, s.clockStop.bubble core 12)
      else if st.await != .reply && !s.awaitMet u st false st.await then
        (none, (s.leave u .parked st.await st.await.stall).bubble core st.await.stall)
      else
        let s := if st.behind = 0 then s else s.setStrand u st.goBehind
        let st := st.goBehind
        match st.stepping with
        | some a => if st.pc != a then (none, (s.stepStop u st a).bubble core 11) else (some (u, st), s)
        | none => (some (u, st), s)

/-- The strand issues: its instruction is counted, and what it awaited is behind it. -/
def State.begin (s : State) (u : Nat) (st : Strand) (stream : Stream) : State :=
  let st' : Strand := match stream with
    | .execute => { st with await := .reply, lastRun := s.order, issues := st.issues + 1 }
    | .access => st
  { s.setStrand u st' with cur := some u, stream := stream, order := s.order + 1 }

/-- What the fetch gives when it gives no instruction: a trap, or a wait of the stream, whose cycle the barrel is charged for. -/
def State.fetchFailed (s : State) (u core : Nat) (pc : Word) : Fetched → State
  | .instr _ => s
  | .trap cause extra addr noWord => s.takeTrap u cause extra pc addr noWord
  | .free cause =>
    { s with free := s.free + 2 }.takeTrap u cause ((Config.freeWord s.free).toNat % 2 ^ 32) pc (Config.freeWord (s.free + 1))
  | .wait a =>
    match s.stream with
    | .access => s.block u a
    | .execute => (s.leave u .parked a a.stall).editCore core (Core.charge 0 a.stall)

/-- Behind an instruction that its stream does not wait to issue again, the lines that came for it go. -/
def State.endFills (s : State) (u core : Nat) (pc : Word) : State :=
  let access := s.stream == .access
  let again : Bool := match s.strand? u with
    | none => false
    | some st => if access then (st.region.bind (·.blocked)).isSome else st.state == .parked && st.behind == 0 && st.pc == pc
  if again then s else s.dropFills core (streamNo u access)

/-- Behind an instruction: a stepped strand that can go on stops (R303), and the quantum is looked at (R28). -/
def State.afterIssue (s : State) (u : Nat) : State :=
  match s.strand? u with
  | none => s
  | some st =>
    match st.stepping, st.state with
    | some a, .run => s.stepStop u st a
    | _, .run =>
      (match (List.range 8).find? fun i => s.inPosition st.core i == some u with
        | some i => s.endQuantum st.core i
        | none => s)
    | _, _ => s

/-- The end of a cycle on which the core issued, and of a turn of the sequencer. -/
def State.endIssue (s : State) (core : Nat) : State :=
  (s.chargeEngines core).editCore core fun k => { k with cyc := k.cyc + 1 }

/-! ### Between two turns -/

/-- The operations whose turn it is in their streams, and whose packets have arrived. -/
def State.runStreams (s : State) : State :=
  s.streams.foldl (fun s r =>
    match r.held.find? fun h => h.1 == r.expected with
    | some (_, _, p) => s.runStream p 65
    | none => s) s

/-- A copy that a core replaces: COHERENT with its Put, SWMANAGED with its dirty bytes (05 R125, R139). -/
def State.replaceL1 (s : State) (core line : Nat) : State :=
  match s.l1 core line with
  | none => s
  | some l => if l.swm.isSome then (s.swmWriteBack core line).swmDrop core line else s.putLine core line

/-- The lines of an L1 data cache of 32 KiB (01 R18); those that the constant cache holds for the directory lie in it alone (06 R155). -/
def Core.l1Lines (k : Core) : List Nat :=
  (k.l1.filter fun e => !k.ccache.any fun c => c / 4096 == e.1).map (·.1)

/-- A cache that has taken in too much replaces lines (DESIGN CHOICE, log entry 55). -/
def State.trimL1 (s : State) (core : Nat) : Nat → State
  | 0 => s
  | fuel + 1 =>
    let ls := (s.core core).l1Lines
    if ls.length ≤ 256 then s
    else State.trimL1 (s.replaceL1 core (ls.getD (Config.victim s.order core % ls.length) 0)) core fuel

/-- Every context's wait for castling ends from where R397 is met on (23 R397). -/
def State.noteAll (s : State) : State := s.ctxs.foldl (fun s e => s.noteResidency e.1) s

/-- BETWEEN TWO TURNS nobody issues. What units have put off is tried again, streams whose turn has come go on, caches keep to their size,
what was written at table entries is heard of, and packets that the router holds go on (24 R406). -/
def State.settleTurn (s : State) : State :=
  let s := { s with cur := none, stream := .execute }
  let s := s.runLater.runStreams
  let s := s.cores.foldl (fun s e => if 256 < e.2.l1.length then s.trimL1 e.1 e.2.l1.length else s) s
  (s.hear.endSearches.noteAll).pump

/-! ### The loop sequencer (12 R267, R273) -/

/-- The strand whose access stream may issue. -/
def State.seqReady (s : State) (core : Nat) : Option (Nat × Strand × Region) :=
  match s.seqHolder core with
  | none => none
  | some u =>
    match s.strand? u with
    | none => none
    | some st =>
      match st.region with
      | none => none
      | some g =>
        let free := match g.blocked with
          | none => true
          | some a => s.awaitMet u st true a
        if free && !g.joined && st.state != .stopped && !s.halted st.ctx then some (u, st, g) else none

/-- The fetch of an issue, for the stream's pc. -/
def Region.unblocked (g : Region) : Region := { g with blocked := none }

end Sys2Proof.Machine
end

