-- ==== Sys2Proof/Machine/Atomics.lean ====
section
/-!
DEFINITION. Atomics, OP 0x98 to 0x9F (10 R224 to R228).
-/

namespace Sys2Proof.Machine

/-- R226: a local atomic reaches its place, and copies elsewhere go. On a SWMANAGED page only the issuing core's copy does. -/
def placeAtomic (x : Xlat) : Act Unit := do
  let st ← self
  let line := lineOf x.pa
  match ← readS (·.pathOf x) with
  | .home => pure ()
  | .managed =>
    editS fun s => (((s.keepCopies line).swmWriteBack st.core line).swmDrop st.core line).predict st.core x.pa
  | .coherent =>
    let s ← readS id
    let here := zoneOf s.tierCap x.pa != .tier && (s.predicted x.pa).toNat ≤ 1
    let owns := match (s.l1 st.core line).map (·.state) with
      | some Moesi.modified => true
      | some Moesi.exclusive => true
      | _ => false
    if here && owns then editS fun s => s.getM st.core line
    else if here then editS fun s => (s.predict st.core x.pa).getM st.core line
    else editS fun s => (s.predict st.core x.pa).invalidateAll (s.leafIdOf st.core) line

/-- The common course of an atomic (R224), with the read half's uncorrectable error under R227. -/
def atomic (f : Fields) (op : Nat) (usesC readsD : Bool) : Act Unit :=
  issue .neither f do
    let u ← me
    let n := if f.m.toNat % 4 == 2 then 4 else 8
    let va ← operandX false f.a f.ta
    let b ← operandB f
    let c ← if usesC then readX f.c.toNat else pure 0
    let d ← if readsD then readX f.d.toNat else pure 0
    if f.m.getLsbD 3 then remoteAtomic f op n va b c d
    else
      let x ← checkAccess (Check.atom n) va n
      if ← readS (·.tierDown x.pa) then trapAt Cause.memoryUe 37 va
      placeAtomic x
      if ← readS (·.poisoned x.pa n) then
        writeX f.d.toNat 0
        trapWord Cause.memoryUe (va &&& ~~~(7 : Word))
      let old ← readS (·.load x.pa n)
      let cut (v : Word) : Nat := v.toNat % 2 ^ (8 * n)
      let (ok, v) := atomicValue op f.x.toNat f.m.toNat (8 * n) old (cut b) (cut c) (cut d)
      editS fun s => (if ok then (s.noteVt u x.pa).storeAt x.pa n v else s).release u
      writeX f.d.toNat (BitVec.ofNat 64 old)
      finishReply f

def execAadd (f : Fields) (s : State) : Result := (atomic f 0x98 false false).outcome s
def execAand (f : Fields) (s : State) : Result := (atomic f 0x99 false false).outcome s
def execAor (f : Fields) (s : State) : Result := (atomic f 0x99 false false).outcome s
def execAxor (f : Fields) (s : State) : Result := (atomic f 0x99 false false).outcome s
def execAmin (f : Fields) (s : State) : Result := (atomic f 0x9A false false).outcome s
def execAmax (f : Fields) (s : State) : Result := (atomic f 0x9A false false).outcome s
def execAminu (f : Fields) (s : State) : Result := (atomic f 0x9A false false).outcome s
def execAmaxu (f : Fields) (s : State) : Result := (atomic f 0x9A false false).outcome s
def execAswap (f : Fields) (s : State) : Result := (atomic f 0x9B false false).outcome s
def execAcas (f : Fields) (s : State) : Result := (atomic f 0x9C true false).outcome s
def execAgts (f : Fields) (s : State) : Result := (atomic f 0x9D false false).outcome s
def execAvcas (f : Fields) (s : State) : Result := (atomic f 0x9E true true).outcome s
def execApcas (f : Fields) (s : State) : Result := (atomic f 0x9F true false).outcome s

end Sys2Proof.Machine
end

