-- ==== Sys2Proof/Machine/VectorFp.lean ====
section
/-!
DEFINITION. Vector floating point and conversions: OP 0x40 to 0x5A and VICVT (08 R187 to R194, R198 to R200).
-/

namespace Sys2Proof.Machine

/-- Instructions with one source. -/
def vfp1 (f : Fields) (op : Nat → FpEnv → Nat → Nat × Flags) (skips : Nat := 0) : Act Unit :=
  fixed .execute f do
    let code := f.fmt.toNat
    let w := Shape.widthOf code
    vectorStart f
    let a ← vreg w f.a f.ta
    let old ← oldElems f w
    checkTags [(a, code)]
    let env ← fpEnv f
    deliver f w (tagOf code) old (a.es.map (op code env)) 0
    skipTurns skips

/-- Instructions with two sources. -/
def vfp2 (f : Fields) (op : Nat → FpEnv → Nat → Nat → Nat × Flags) (skips : Nat := 0) : Act Unit :=
  fixed .execute f do
    let code := f.fmt.toNat
    let w := Shape.widthOf code
    vectorStart f
    let env ← fpEnv f
    let a ← vreg w f.a f.ta
    let b ← srcBfp f code env
    let old ← oldElems f w
    checkTags [(a, code), (b, code)]
    deliver f w (tagOf code) old (map2 (op code env) a.es b.es) b.fl
    skipTurns skips

/-- The fused forms (R188). -/
def vfma3 (f : Fields) (negA negC : Bool) : Act Unit :=
  fixed .execute f do
    let code := f.fmt.toNat
    let w := Shape.widthOf code
    vectorStart f
    let env ← fpEnv f
    let a ← vreg w f.a f.ta
    let b ← srcBfp f code env
    let c ← vreg w f.c 0
    let old ← oldElems f w
    checkTags [(a, code), (b, code), (c, code)]
    deliver f w (tagOf code) old (map3 (fpFma code env negA negC) a.es b.es c.es) b.fl

def execVfadd (f : Fields) (s : State) : Result := (vfp2 f fpAdd).outcome s
def execVfsub (f : Fields) (s : State) : Result := (vfp2 f fpSub).outcome s
def execVfmul (f : Fields) (s : State) : Result := (vfp2 f fpMul).outcome s
def execVfma (f : Fields) (s : State) : Result := (vfma3 f false false).outcome s
def execVfms (f : Fields) (s : State) : Result := (vfma3 f false true).outcome s
def execVfnma (f : Fields) (s : State) : Result := (vfma3 f true true).outcome s
def execVfnms (f : Fields) (s : State) : Result := (vfma3 f true false).outcome s
def execVfmin (f : Fields) (s : State) : Result := (vfp2 f fun c e => fpMinMax c e false).outcome s
def execVfmax (f : Fields) (s : State) : Result := (vfp2 f fun c e => fpMinMax c e true).outcome s
def execVfabs (f : Fields) (s : State) : Result := (vfp1 f fpAbs).outcome s
def execVfneg (f : Fields) (s : State) : Result := (vfp1 f fpNeg).outcome s
def execVfcps (f : Fields) (s : State) : Result := (vfp2 f fpCps).outcome s
def execVfdiv (f : Fields) (s : State) : Result := (vfp2 f fpDiv 2).outcome s
def execVfsqrt (f : Fields) (s : State) : Result := (vfp1 f fpSqrt 2).outcome s
def execVfrcp (f : Fields) (s : State) : Result := (vfp1 f fpRcp 2).outcome s
def execVfrsq (f : Fields) (s : State) : Result := (vfp1 f fpRsq 2).outcome s
def execVfexp2 (f : Fields) (s : State) : Result := (vfp1 f fpExp2 2).outcome s
def execVflog2 (f : Fields) (s : State) : Result := (vfp1 f fpLog2 2).outcome s
def execVfsin (f : Fields) (s : State) : Result := (vfp1 f fpSin 2).outcome s
def execVfcos (f : Fields) (s : State) : Result := (vfp1 f fpCos 2).outcome s
def execVftanh (f : Fields) (s : State) : Result := (vfp1 f fpTanh 2).outcome s
def execVfrnd (f : Fields) (s : State) : Result := (vfp1 f fpRnd).outcome s

/-- R191: VFCMP writes a predicate; inactive elements give 0. -/
def execVfcmp (f : Fields) (s : State) : Result :=
  (fixed .execute f do
    let code := f.fmt.toNat
    let w := Shape.widthOf code
    bindVec
    let env ← fpEnv f
    let a ← vreg w f.a f.ta
    let b ← srcBfp f code env
    checkTags [(a, code), (b, code)]
    let act ← actives f w
    let res := map2 (fun x y => let r := fpCompare code env.ftz f.e.toNat x y; (if r.1 then 1 else 0, r.2)) a.es b.es
    raiseFlags (gather act res ||| (if act.any id then b.fl else 0))
    editSelf fun st => st.setPred f.d.toNat (lanesOf w (List.zipWith (fun g r => g && r.1 == 1) act res))).outcome s

/-- R191: the class as an integer of the same width. -/
def execVfclass (f : Fields) (s : State) : Result :=
  (fixed .execute f do
    let code := f.fmt.toNat
    let w := Shape.widthOf code
    vectorStart f
    let a ← vreg w f.a f.ta
    let old ← oldElems f w
    checkTags [(a, code)]
    let env ← fpEnv f
    deliver f w (tagOf (intTag w)) old (a.es.map fun x => (fpClass code env.ftz x, 0)) 0).outcome s

/-- R192: B is a signed integer of the width. -/
def execVfscale (f : Fields) (s : State) : Result :=
  (fixed .execute f do
    let code := f.fmt.toNat
    let w := Shape.widthOf code
    vectorStart f
    let env ← fpEnv f
    let a ← vreg w f.a f.ta
    let b ← srcBint f w
    let old ← oldElems f w
    checkTags [(a, code), (b, intTag w)]
    deliver f w (tagOf code) old (map2 (fun x n => fpScale code env x (toSigned w n)) a.es b.es) 0).outcome s

/-- Pairs of neighbouring elements with an accumulator (R193). -/
def dotPairs (code : Nat) (env : FpEnv) : List Nat → List Nat → List Nat → List (Nat × Flags)
  | a0 :: a1 :: as, b0 :: b1 :: bs, c :: cs =>
    let (v, g) := dotStep code env c a0 b0
    let (v', g') := dotStep code env v a1 b1
    (v', g ||| g') :: dotPairs code env as bs cs
  | _, _, _ => []

/-- R193. -/
def execVfdot2 (f : Fields) (s : State) : Result :=
  (fixed .execute f do
    let code := f.fmt.toNat
    vectorStart f
    let env ← fpEnv f
    let a ← vreg 16 f.a f.ta
    let b ← srcBfp f code env
    let c ← vreg 32 f.c 0
    let old ← oldElems f 32
    checkTags [(a, code), (b, code), (c, 2)]
    deliver f 32 2 old (dotPairs code env a.es b.es c.es) b.fl).outcome s

/-! ### Conversions (R198) -/

/-- The destination's elements by position: none where the conversion does not reach, the source element elsewhere. -/
def placed (nd na part : Nat) (src : List Nat) : List (Option Nat) :=
  if na < nd then
    (List.replicate (part * na) none ++ src.map some ++ List.replicate (nd - part * na - na) none)
  else ((src.drop (part * nd)).take nd).map some

def convertWith (f : Fields) (op : FpEnv → Nat → Nat × Flags) : Act Unit :=
  fixed .execute f do
    let t := f.fmt.toNat
    let c := f.e.toNat
    let wt := Shape.widthOf t
    let ws := Shape.widthOf c
    vectorStart f
    let a ← vreg ws f.a f.ta
    let old ← if wt < ws then (do let (v, _) ← readV f.d.toNat; pure (elems wt v)) else oldElems f wt
    checkTags [(a, c)]
    let env ← fpEnv f
    let spots := placed (4096 / wt) (4096 / ws) (f.imm20.toNat % 8) a.es
    let res := List.zipWith (fun o old =>
      match o with
      | some v => op env v
      | none => (old, (0 : Flags))) spots old
    deliver f wt (tagOf t) old res 0

def execVfcvt (f : Fields) (s : State) : Result :=
  (convertWith f fun env v => fpConvert f.fmt.toNat f.e.toNat env v).outcome s

def execVicvt (f : Fields) (s : State) : Result :=
  (convertWith f fun _ v => (intConvert f.fmt.toNat f.e.toNat (f.imm20.getLsbD 3) v, 0)).outcome s

end Sys2Proof.Machine
end

