-- ==== Sys2Proof/Machine/VectorInt.lean ====
section
/-!
DEFINITION. Vector integers, moves, selection, fills and tags: OP 0x60 to 0x6E (08 R195 to R197).
-/

namespace Sys2Proof.Machine

/-- An operation on two elements of a format of width w. -/
abbrev IntOp := Nat → Nat → Nat → Nat → Nat

/-- R195, with the tag check. -/
def vint2 (f : Fields) (op : IntOp) : Act Unit :=
  fixed .execute f do
    let code := f.fmt.toNat
    let w := Shape.widthOf code
    vectorStart f
    let a ← vreg w f.a f.ta
    let b ← srcBint f w
    let old ← oldElems f w
    checkTags [(a, code), (b, code)]
    deliver f w f.fmt old (map2 (fun x y => (op code w x y % 2 ^ w, 0)) a.es b.es) 0

def vint1 (f : Fields) (op : Nat → Nat → Nat → Nat) : Act Unit :=
  fixed .execute f do
    let code := f.fmt.toNat
    let w := Shape.widthOf code
    vectorStart f
    let a ← vreg w f.a f.ta
    let old ← oldElems f w
    checkTags [(a, code)]
    deliver f w f.fmt old (a.es.map fun x => (op code w x % 2 ^ w, 0)) 0

/-- The bitwise forms take any tag and give A's (R197). -/
def vbit (f : Fields) (op : Nat → Nat → Nat → Nat) : Act Unit :=
  fixed .execute f do
    let w := Shape.widthOf f.fmt.toNat
    vectorStart f
    let a ← vreg w f.a f.ta
    let b ← srcBint f w
    let old ← oldElems f w
    deliver f w (a.tag.getD 0) old (map2 (fun x y => (op w x y % 2 ^ w, 0)) a.es b.es) 0

/-- The smaller or larger, signed but for U8, or unsigned. -/
def pickInt (uns isMax : Bool) : IntOp := fun code _ x y =>
  let less := if uns then decide (x < y) else decide (intValue code x < intValue code y)
  if isMax then (if less then y else x) else (if less then x else y)

def execVadd (f : Fields) (s : State) : Result := (vint2 f fun _ _ x y => x + y).outcome s
def execVsub (f : Fields) (s : State) : Result := (vint2 f fun _ w x y => x + (2 ^ w - y)).outcome s
def execVmul (f : Fields) (s : State) : Result := (vint2 f fun _ _ x y => x * y).outcome s
def execVmulh (f : Fields) (s : State) : Result :=
  (vint2 f fun c w x y => wrap w (intValue c x * intValue c y / 2 ^ w)).outcome s

/-- a·b + c. -/
def execVmadd (f : Fields) (s : State) : Result :=
  (fixed .execute f do
    let code := f.fmt.toNat
    let w := Shape.widthOf code
    vectorStart f
    let a ← vreg w f.a f.ta
    let b ← srcBint f w
    let c ← vreg w f.c 0
    let old ← oldElems f w
    checkTags [(a, code), (b, code), (c, code)]
    deliver f w f.fmt old (map3 (fun x y z => ((x * y + z) % 2 ^ w, 0)) a.es b.es c.es) 0).outcome s

def execVand (f : Fields) (s : State) : Result := (vbit f fun _ x y => x &&& y).outcome s
def execVor (f : Fields) (s : State) : Result := (vbit f fun _ x y => x ||| y).outcome s
def execVxor (f : Fields) (s : State) : Result := (vbit f fun _ x y => x ^^^ y).outcome s
def execVandn (f : Fields) (s : State) : Result := (vbit f fun w x y => x &&& (2 ^ w - 1 - y)).outcome s
def execVshl (f : Fields) (s : State) : Result := (vint2 f fun _ w x y => x * 2 ^ (y % w)).outcome s
def execVshr (f : Fields) (s : State) : Result := (vint2 f fun _ w x y => x / 2 ^ (y % w)).outcome s
def execVsra (f : Fields) (s : State) : Result :=
  (vint2 f fun c w x y => wrap w (intValue c x / 2 ^ (y % w))).outcome s
def execVmin (f : Fields) (s : State) : Result := (vint2 f (pickInt false false)).outcome s
def execVmax (f : Fields) (s : State) : Result := (vint2 f (pickInt false true)).outcome s
def execVminu (f : Fields) (s : State) : Result := (vint2 f (pickInt true false)).outcome s
def execVmaxu (f : Fields) (s : State) : Result := (vint2 f (pickInt true true)).outcome s
def execVabs (f : Fields) (s : State) : Result :=
  (vint1 f fun c w x => wrap w ((intValue c x).natAbs : Int)).outcome s
def execVadds (f : Fields) (s : State) : Result :=
  (vint2 f fun c w x y => wrap w (clampTo (intRange c) (intValue c x + intValue c y))).outcome s
def execVsubs (f : Fields) (s : State) : Result :=
  (vint2 f fun c w x y => wrap w (clampTo (intRange c) (intValue c x - intValue c y))).outcome s
def execVclz (f : Fields) (s : State) : Result := (vint1 f fun _ w x => leadingZeros w x).outcome s
def execVpopc (f : Fields) (s : State) : Result := (vint1 f fun _ w x => onesIn w x).outcome s

/-- R196. -/
def execVcmp (f : Fields) (s : State) : Result :=
  (fixed .execute f do
    let code := f.fmt.toNat
    let w := Shape.widthOf code
    bindVec
    let a ← vreg w f.a f.ta
    let b ← srcBint f w
    checkTags [(a, code), (b, code)]
    let act ← actives f w
    let res := List.zipWith (fun x y => condHolds f.e.toNat w (code == 12) x y) a.es b.es
    editSelf fun st => st.setPred f.d.toNat (lanesOf w (List.zipWith (· && ·) act res))).outcome s

/-! ### Moves (R197) -/

/-- Every element: pM active ? a : b. -/
def execVsel (f : Fields) (s : State) : Result :=
  (fixed .execute f do
    let w := Shape.widthOf f.fmt.toNat
    vectorStart f
    let a ← vreg w f.a f.ta
    let b ← if f.bk == 0 then vreg w f.b f.tb
      else (do let (v, fl) ← scalarAny f f.fmt.toNat; pure (scalarSrc w v fl))
    let act ← actives f w
    writeV f.d.toNat (ofElems w (choose act a.es b.es)) (a.tag.getD 0)
    raiseFlags (if act.any id then b.fl else 0)).outcome s

/-- D := A in full, its tag replaced. -/
def execVtag (f : Fields) (s : State) : Result :=
  (fixed .execute f do
    vectorStart f
    let (v, _) ← operandV f.a f.ta
    writeV f.d.toNat v f.fmt).outcome s

/-- Active elements := the scalar; B of BK = 0b00 names an x register. -/
def execVfill (f : Fields) (s : State) : Result :=
  (fixed .execute f do
    let w := Shape.widthOf f.fmt.toNat
    vectorStart f
    let (v, fl) ← if f.bk == 0 then (do pure ((← operandX false f.b f.tb).toNat, (0 : Flags)))
      else scalarAny f f.fmt.toNat
    let old ← oldElems f w
    deliver f w f.fmt old (List.replicate (4096 / w) (v % 2 ^ w, 0)) fl).outcome s

def execVmov (f : Fields) (s : State) : Result :=
  (fixed .execute f do
    let w := Shape.widthOf f.fmt.toNat
    vectorStart f
    let a ← vreg w f.a f.ta
    let old ← oldElems f w
    deliver f w (a.tag.getD 0) old (a.es.map fun x => (x, 0)) 0).outcome s

end Sys2Proof.Machine
end

