-- ==== Sys2Proof/Machine/VectorMove.lean ====
section
/-!
DEFINITION. Permutes, element moves, reductions and the scan, OP 0x70 to 0x7C (09 R202 to R207).
-/

namespace Sys2Proof.Machine

/-! ### Permutes (R202 to R205) -/

/-- The element width of a permute's format. -/
def permWidth (f : Fields) : Nat := Shape.widthOf f.fmt.toNat

/-- A permute of vA with a second and a third vector and a scalar, each read where the entry names it: element e of D. -/
def permute (f : Fields) (vecB scalar vecC : Bool) (el : (a b c : Array Nat) → (n : Nat) → (e : Nat) → Nat) : Act Unit :=
  fixed .execute f do
    let w := permWidth f
    vectorStart f
    let a ← vreg w f.a f.ta
    let b ← if vecB then vreg w f.b f.tb else pure ⟨[], none, 0⟩
    let n ← if scalar then operandB f else pure 0
    let c ← if vecC then vreg w f.c 0 else pure ⟨[], none, 0⟩
    let old ← oldElems f w
    let get := el a.es.toArray b.es.toArray c.es.toArray n.toNat
    deliver f w (a.tag.getD 0) old ((List.range (4096 / w)).map fun e => (get e, 0)) 0

def execVshuf (f : Fields) (s : State) : Result :=
  (permute f false false false fun a _ _ _ e =>
    let j := e % 4
    a.getD (4 * (e / 4) + bitsOf f.imm20.toNat (2 * j + 1) (2 * j)) 0).outcome s

def execVperm (f : Fields) (s : State) : Result :=
  (permute f true false true fun a b c _ e =>
    let i := b.getD e 0
    if i < a.size then a.getD i 0 else c.getD (i - a.size) 0).outcome s

def execVbcast (f : Fields) (s : State) : Result :=
  (permute f false true false fun a _ _ n _ => a.getD n 0).outcome s

/-- R203: k = e − n, into A, then into C below it. -/
def execVslideu (f : Fields) (s : State) : Result :=
  (permute f false true true fun a _ c n e =>
    if n ≤ e then a.getD (e - n) 0 else if n ≤ e + c.size then c.getD (e + c.size - n) 0 else 0).outcome s

def execVslided (f : Fields) (s : State) : Result :=
  (permute f false true true fun a _ c n e =>
    if e + n < a.size then a.getD (e + n) 0 else c.getD (e + n - a.size) 0).outcome s

def execVzip (f : Fields) (s : State) : Result :=
  (permute f true false false fun a b _ _ e =>
    let i := f.imm20.toNat % 2 * (a.size / 2) + e / 2
    if e % 2 = 0 then a.getD i 0 else b.getD i 0).outcome s

def execVuzip (f : Fields) (s : State) : Result :=
  (permute f true false false fun a b _ _ e =>
    let i := 2 * (e % (a.size / 2)) + f.imm20.toNat % 2
    if e < a.size / 2 then a.getD i 0 else b.getD i 0).outcome s

/-- The active elements of a list, the lowest first. -/
def packed : List Bool → List Nat → List Nat
  | true :: as, e :: es => e :: packed as es
  | false :: as, _ :: es => packed as es
  | _, _ => []

/-- R204: D is not read. -/
def execVcomp (f : Fields) (s : State) : Result :=
  (fixed .execute f (do
    let w := permWidth f
    vectorStart f
    let a ← vreg w f.a f.ta
    let act ← actives f w
    writeV f.d.toNat (ofElems w (packed act a.es)) (a.tag.getD 0))).outcome s

/-- The k-th active element takes the k-th element of a list. -/
def unpacked : List Bool → List Nat → List Nat
  | true :: as, e :: es => e :: unpacked as es
  | false :: as, es => 0 :: unpacked as es
  | _, _ => []

def execVexp (f : Fields) (s : State) : Result :=
  (fixed .execute f (do
    let w := permWidth f
    vectorStart f
    let a ← vreg w f.a f.ta
    let old ← oldElems f w
    let act ← actives f w
    writeV f.d.toNat (ofElems w (choose act (unpacked act a.es) old)) (a.tag.getD 0))).outcome s

/-- R205. -/
def execVins (f : Fields) (s : State) : Result :=
  (fixed .execute f (do
    let w := permWidth f
    vectorStart f
    let a ← operandX false f.a f.ta
    let j ← operandB f
    let (old, _) ← readV f.d.toNat
    writeV f.d.toNat (ofElems w ((elems w old).set j.toNat (a.toNat % 2 ^ w))) f.fmt)).outcome s

def execVext (f : Fields) (s : State) : Result :=
  (fixed .neither f (do
    let w := permWidth f
    bindVec
    let a ← vreg w f.a f.ta
    let j ← operandB f
    writeX f.d.toNat (BitVec.ofNat 64 (a.es.getD j.toNat 0)))).outcome s

/-! ### Reductions and the scan (R206, R207, 03 R85, R86) -/

/-- A combination of two elements, with its flags. -/
abbrev Combine := Nat → Nat → Nat × Flags

/-- One level of the tree: element i with element i + h. -/
def treeLevel (op : Combine) : List (Option Nat) → List (Option Nat) → List (Option Nat) × Flags
  | x :: xs, y :: ys =>
    let (rest, fl) := treeLevel op xs ys
    match x, y with
    | none, y => (y :: rest, fl)
    | x, none => (x :: rest, fl)
    | some p, some q => let (r, g) := op p q; (some r :: rest, fl ||| g)
  | xs, _ => (xs, 0)

/-- R85: halving until one element is left. An element that no combination touches stays as it is, a NaN with its payload (03 R80; DESIGN
CHOICE, log entry 89). -/
def reduceTree (op : Combine) : Nat → List (Option Nat) → Option Nat × Flags
  | 0, xs => (xs.headD none, 0)
  | fuel + 1, xs =>
    if xs.length ≤ 1 then (xs.headD none, 0)
    else
      let h := xs.length / 2
      let (ys, fl) := treeLevel op (xs.take h) (xs.drop h)
      let (r, g) := reduceTree op fuel ys
      (r, fl ||| g)

/-- The start value (R207), with the flags of its conversion. -/
def startValue (f : Fields) (code w : Nat) : Act (Option Nat × Option VSrc × Flags) := do
  if f.bk == 0 then
    if f.imm20 == 0 then pure (none, none, 0)
    else
      let b ← vreg w f.b f.tb
      pure (some (b.es.headD 0), some b, 0)
  else
    let (v, fl) ← scalarAny f code
    pure (some (v % 2 ^ w), none, fl)

/-- The sources of a reduction: A's elements where active, and the start value, whose conversion raises its flags if an element is active
(06 R154). -/
def reductionSources (f : Fields) : Act (List (Option Nat) × Option Nat × Flags) := do
  let code := f.fmt.toNat
  let w := Shape.widthOf code
  vectorStart f
  let a ← vreg w f.a f.ta
  let (start, vec, fl) ← startValue f code w
  checkTags ((a, code) :: (match vec with | some b => [(b, code)] | none => []))
  let act ← actives f w
  pure (List.zipWith (fun on e => if on then some e else none) act a.es, start, if act.any id then fl else 0)

/-- D := the tree's result in element 0, with what replaces an absent one. -/
def reduction (f : Fields) (op : FpEnv → Combine) (absent : Nat) : Act Unit :=
  fixed .execute f do
    let w := Shape.widthOf f.fmt.toNat
    let env ← fpEnv f
    let (xs, start, fl) ← reductionSources f
    let (r, g) := reduceTree (op env) 10 xs
    let (r, h) := match start with
      | some v => op env v (r.getD absent)
      | none => (r.getD absent, 0)
    writeV f.d.toNat (ofElems w [r]) f.fmt
    raiseFlags (fl ||| g ||| h)

/-- An addition, a minimum or maximum, of the format's class. -/
def addAny (code : Nat) (env : FpEnv) : Combine :=
  if fpCodes.contains code then fpAdd code env else fun x y => ((x + y) % 2 ^ Shape.widthOf code, 0)

def minMaxAny (isMax : Bool) (code : Nat) (env : FpEnv) : Combine :=
  if fpCodes.contains code then fpMinMax code env isMax
  else fun x y => let less := decide (intValue code x < intValue code y)
    (if isMax then (if less then y else x) else (if less then x else y), 0)

/-- R85: what a minimum or maximum of nothing gives. -/
def absentMinMax (isMax : Bool) (code : Nat) : Nat :=
  if fpCodes.contains code then fpNan code false
  else wrap (Shape.widthOf code) (if isMax then (intRange code).1 else (intRange code).2)

def execVredadd (f : Fields) (s : State) : Result := (reduction f (addAny f.fmt.toNat) 0).outcome s
def execVredmax (f : Fields) (s : State) : Result :=
  (reduction f (minMaxAny true f.fmt.toNat) (absentMinMax true f.fmt.toNat)).outcome s
def execVredmin (f : Fields) (s : State) : Result :=
  (reduction f (minMaxAny false f.fmt.toNat) (absentMinMax false f.fmt.toNat)).outcome s
def execVredand (f : Fields) (s : State) : Result :=
  (reduction f (fun _ x y => (x &&& y, 0)) (2 ^ Shape.widthOf f.fmt.toNat - 1)).outcome s
def execVredor (f : Fields) (s : State) : Result := (reduction f (fun _ x y => (x ||| y, 0)) 0).outcome s

/-- The running values of R207 with their flags; the first value, which nothing is combined with, stays as it is (03 R80; DESIGN CHOICE, log
entry 89). -/
def scan (op : Combine) : Option Nat → List (Option Nat) → List Nat × Flags
  | _, [] => ([], 0)
  | run, x :: xs =>
    let (run, g) : Option Nat × Flags := match run, x with
      | some r, some v => let (r, g) := op r v; (some r, g)
      | none, some v => (some v, 0)
      | r, none => (r, 0)
    let (rest, fl) := scan op run xs
    (run.getD 0 :: rest, g ||| fl)

def execVscanadd (f : Fields) (s : State) : Result :=
  (fixed .execute f (do
    let w := Shape.widthOf f.fmt.toNat
    let env ← fpEnv f
    let (xs, start, fl) ← reductionSources f
    let (ys, g) := scan (addAny f.fmt.toNat env) start xs
    writeV f.d.toNat (ofElems w ys) f.fmt
    raiseFlags (fl ||| g))).outcome s

end Sys2Proof.Machine
end

