-- ==== Sys2Proof/Machine/Dispatch.lean ====
section
/-!
DEFINITION. Which meaning each instruction and event has.
-/

namespace Sys2Proof.Machine

def exec (i : Instr) (s : State) : Host.Outcome State Fault Refusal :=
  match i with
  | .nop f => Sys2Proof.Machine.execNop f s
  | .add f => Sys2Proof.Machine.execAdd f s
  | .addi f => Sys2Proof.Machine.execAddi f s
  | .sub f => Sys2Proof.Machine.execSub f s
  | .mul f => Sys2Proof.Machine.execMul f s
  | .mulh f => Sys2Proof.Machine.execMulh f s
  | .mulhu f => Sys2Proof.Machine.execMulhu f s
  | .div f => Sys2Proof.Machine.execDiv f s
  | .divu f => Sys2Proof.Machine.execDivu f s
  | .rem f => Sys2Proof.Machine.execRem f s
  | .remu f => Sys2Proof.Machine.execRemu f s
  | .and f => Sys2Proof.Machine.execAnd f s
  | .andi f => Sys2Proof.Machine.execAndi f s
  | .or f => Sys2Proof.Machine.execOr f s
  | .ori f => Sys2Proof.Machine.execOri f s
  | .xor f => Sys2Proof.Machine.execXor f s
  | .xori f => Sys2Proof.Machine.execXori f s
  | .andn f => Sys2Proof.Machine.execAndn f s
  | .shl f => Sys2Proof.Machine.execShl f s
  | .shr f => Sys2Proof.Machine.execShr f s
  | .sra f => Sys2Proof.Machine.execSra f s
  | .rotl f => Sys2Proof.Machine.execRotl f s
  | .clz f => Sys2Proof.Machine.execClz f s
  | .ctz f => Sys2Proof.Machine.execCtz f s
  | .popc f => Sys2Proof.Machine.execPopc f s
  | .brev f => Sys2Proof.Machine.execBrev f s
  | .bswap f => Sys2Proof.Machine.execBswap f s
  | .min f => Sys2Proof.Machine.execMin f s
  | .max f => Sys2Proof.Machine.execMax f s
  | .minu f => Sys2Proof.Machine.execMinu f s
  | .maxu f => Sys2Proof.Machine.execMaxu f s
  | .sel f => Sys2Proof.Machine.execSel f s
  | .extb f => Sys2Proof.Machine.execExtb f s
  | .insb f => Sys2Proof.Machine.execInsb f s
  | .li f => Sys2Proof.Machine.execLi f s
  | .lih f => Sys2Proof.Machine.execLih f s
  | .lit f => Sys2Proof.Machine.execLit f s
  | .lea f => Sys2Proof.Machine.execLea f s
  | .cmp f => Sys2Proof.Machine.execCmp f s
  | .cmpi f => Sys2Proof.Machine.execCmpi f s
  | .b f => Sys2Proof.Machine.execB f s
  | .bp f => Sys2Proof.Machine.execBp f s
  | .call f => Sys2Proof.Machine.execCall f s
  | .calli f => Sys2Proof.Machine.execCalli f s
  | .jmpi f => Sys2Proof.Machine.execJmpi f s
  | .ret f => Sys2Proof.Machine.execRet f s
  | .throw f => Sys2Proof.Machine.execThrow f s
  | .plim f => Sys2Proof.Machine.execPlim f s
  | .pwhile f => Sys2Proof.Machine.execPwhile f s
  | .pand f => Sys2Proof.Machine.execPand f s
  | .por f => Sys2Proof.Machine.execPor f s
  | .pxor f => Sys2Proof.Machine.execPxor f s
  | .pnot f => Sys2Proof.Machine.execPnot f s
  | .pfirst f => Sys2Proof.Machine.execPfirst f s
  | .pcnt f => Sys2Proof.Machine.execPcnt f s
  | .pmovxRd f => Sys2Proof.Machine.execPmovxRd f s
  | .pmovxWr f => Sys2Proof.Machine.execPmovxWr f s
  | .vwid f => Sys2Proof.Machine.execVwid f s
  | .vfadd f => Sys2Proof.Machine.execVfadd f s
  | .vfsub f => Sys2Proof.Machine.execVfsub f s
  | .vfmul f => Sys2Proof.Machine.execVfmul f s
  | .vfma f => Sys2Proof.Machine.execVfma f s
  | .vfms f => Sys2Proof.Machine.execVfms f s
  | .vfnma f => Sys2Proof.Machine.execVfnma f s
  | .vfnms f => Sys2Proof.Machine.execVfnms f s
  | .vfmin f => Sys2Proof.Machine.execVfmin f s
  | .vfmax f => Sys2Proof.Machine.execVfmax f s
  | .vfabs f => Sys2Proof.Machine.execVfabs f s
  | .vfneg f => Sys2Proof.Machine.execVfneg f s
  | .vfcps f => Sys2Proof.Machine.execVfcps f s
  | .vfdiv f => Sys2Proof.Machine.execVfdiv f s
  | .vfsqrt f => Sys2Proof.Machine.execVfsqrt f s
  | .vfrcp f => Sys2Proof.Machine.execVfrcp f s
  | .vfrsq f => Sys2Proof.Machine.execVfrsq f s
  | .vfexp2 f => Sys2Proof.Machine.execVfexp2 f s
  | .vflog2 f => Sys2Proof.Machine.execVflog2 f s
  | .vfsin f => Sys2Proof.Machine.execVfsin f s
  | .vfcos f => Sys2Proof.Machine.execVfcos f s
  | .vftanh f => Sys2Proof.Machine.execVftanh f s
  | .vfcmp f => Sys2Proof.Machine.execVfcmp f s
  | .vfclass f => Sys2Proof.Machine.execVfclass f s
  | .vfcvt f => Sys2Proof.Machine.execVfcvt f s
  | .vfrnd f => Sys2Proof.Machine.execVfrnd f s
  | .vfscale f => Sys2Proof.Machine.execVfscale f s
  | .vfdot2 f => Sys2Proof.Machine.execVfdot2 f s
  | .vadd f => Sys2Proof.Machine.execVadd f s
  | .vsub f => Sys2Proof.Machine.execVsub f s
  | .vmul f => Sys2Proof.Machine.execVmul f s
  | .vmulh f => Sys2Proof.Machine.execVmulh f s
  | .vmadd f => Sys2Proof.Machine.execVmadd f s
  | .vand f => Sys2Proof.Machine.execVand f s
  | .vor f => Sys2Proof.Machine.execVor f s
  | .vxor f => Sys2Proof.Machine.execVxor f s
  | .vandn f => Sys2Proof.Machine.execVandn f s
  | .vshl f => Sys2Proof.Machine.execVshl f s
  | .vshr f => Sys2Proof.Machine.execVshr f s
  | .vsra f => Sys2Proof.Machine.execVsra f s
  | .vmin f => Sys2Proof.Machine.execVmin f s
  | .vmax f => Sys2Proof.Machine.execVmax f s
  | .vminu f => Sys2Proof.Machine.execVminu f s
  | .vmaxu f => Sys2Proof.Machine.execVmaxu f s
  | .vabs f => Sys2Proof.Machine.execVabs f s
  | .vadds f => Sys2Proof.Machine.execVadds f s
  | .vsubs f => Sys2Proof.Machine.execVsubs f s
  | .vcmp f => Sys2Proof.Machine.execVcmp f s
  | .vsel f => Sys2Proof.Machine.execVsel f s
  | .vclz f => Sys2Proof.Machine.execVclz f s
  | .vpopc f => Sys2Proof.Machine.execVpopc f s
  | .vtag f => Sys2Proof.Machine.execVtag f s
  | .vfill f => Sys2Proof.Machine.execVfill f s
  | .vmov f => Sys2Proof.Machine.execVmov f s
  | .vrel f => Sys2Proof.Machine.execVrel f s
  | .vshuf f => Sys2Proof.Machine.execVshuf f s
  | .vperm f => Sys2Proof.Machine.execVperm f s
  | .vbcast f => Sys2Proof.Machine.execVbcast f s
  | .vslideu f => Sys2Proof.Machine.execVslideu f s
  | .vslided f => Sys2Proof.Machine.execVslided f s
  | .vcomp f => Sys2Proof.Machine.execVcomp f s
  | .vexp f => Sys2Proof.Machine.execVexp f s
  | .vzip f => Sys2Proof.Machine.execVzip f s
  | .vuzip f => Sys2Proof.Machine.execVuzip f s
  | .vins f => Sys2Proof.Machine.execVins f s
  | .vext f => Sys2Proof.Machine.execVext f s
  | .vredadd f => Sys2Proof.Machine.execVredadd f s
  | .vredmax f => Sys2Proof.Machine.execVredmax f s
  | .vredmin f => Sys2Proof.Machine.execVredmin f s
  | .vredand f => Sys2Proof.Machine.execVredand f s
  | .vredor f => Sys2Proof.Machine.execVredor f s
  | .vscanadd f => Sys2Proof.Machine.execVscanadd f s
  | .vicvt f => Sys2Proof.Machine.execVicvt f s
  | .vld f => Sys2Proof.Machine.execVld f s
  | .vst f => Sys2Proof.Machine.execVst f s
  | .vlds f => Sys2Proof.Machine.execVlds f s
  | .vsts f => Sys2Proof.Machine.execVsts f s
  | .vgath f => Sys2Proof.Machine.execVgath f s
  | .vscat f => Sys2Proof.Machine.execVscat f s
  | .vldff f => Sys2Proof.Machine.execVldff f s
  | .ld f => Sys2Proof.Machine.execLd f s
  | .st f => Sys2Proof.Machine.execSt f s
  | .lds f => Sys2Proof.Machine.execLds f s
  | .sts f => Sys2Proof.Machine.execSts f s
  | .ldf f => Sys2Proof.Machine.execLdf f s
  | .ste f => Sys2Proof.Machine.execSte f s
  | .few f => Sys2Proof.Machine.execFew f s
  | .ldx f => Sys2Proof.Machine.execLdx f s
  | .stx f => Sys2Proof.Machine.execStx f s
  | .pref f => Sys2Proof.Machine.execPref f s
  | .cflush f => Sys2Proof.Machine.execCflush f s
  | .cinv f => Sys2Proof.Machine.execCinv f s
  | .aadd f => Sys2Proof.Machine.execAadd f s
  | .aand f => Sys2Proof.Machine.execAand f s
  | .aor f => Sys2Proof.Machine.execAor f s
  | .axor f => Sys2Proof.Machine.execAxor f s
  | .amin f => Sys2Proof.Machine.execAmin f s
  | .amax f => Sys2Proof.Machine.execAmax f s
  | .aminu f => Sys2Proof.Machine.execAminu f s
  | .amaxu f => Sys2Proof.Machine.execAmaxu f s
  | .aswap f => Sys2Proof.Machine.execAswap f s
  | .acas f => Sys2Proof.Machine.execAcas f s
  | .agts f => Sys2Proof.Machine.execAgts f s
  | .avcas f => Sys2Proof.Machine.execAvcas f s
  | .apcas f => Sys2Proof.Machine.execApcas f s
  | .fence f => Sys2Proof.Machine.execFence f s
  | .acq f => Sys2Proof.Machine.execAcq f s
  | .rel f => Sys2Proof.Machine.execRel f s
  | .drain f => Sys2Proof.Machine.execDrain f s
  | .watch f => Sys2Proof.Machine.execWatch f s
  | .unwatch f => Sys2Proof.Machine.execUnwatch f s
  | .sleep f => Sys2Proof.Machine.execSleep f s
  | .bar f => Sys2Proof.Machine.execBar f s
  | .barw f => Sys2Proof.Machine.execBarw f s
  | .putn f => Sys2Proof.Machine.execPutn f s
  | .fempty f => Sys2Proof.Machine.execFempty f s
  | .ffull f => Sys2Proof.Machine.execFfull f s
  | .loop f => Sys2Proof.Machine.execLoop f s
  | .lend f => Sys2Proof.Machine.execLend f s
  | .lbrk f => Sys2Proof.Machine.execLbrk f s
  | .dsplit f => Sys2Proof.Machine.execDsplit f s
  | .djoin f => Sys2Proof.Machine.execDjoin f s
  | .qpush f => Sys2Proof.Machine.execQpush f s
  | .qpop f => Sys2Proof.Machine.execQpop f s
  | .qbr f => Sys2Proof.Machine.execQbr f s
  | .iter f => Sys2Proof.Machine.execIter f s
  | .tidx f => Sys2Proof.Machine.execTidx f s
  | .texp f => Sys2Proof.Machine.execTexp f s
  | .brko f => Sys2Proof.Machine.execBrko f s
  | .spawn f => Sys2Proof.Machine.execSpawn f s
  | .susp f => Sys2Proof.Machine.execSusp f s
  | .resm f => Sys2Proof.Machine.execResm f s
  | .finb f => Sys2Proof.Machine.execFinb f s
  | .fine f => Sys2Proof.Machine.execFine f s
  | .finw f => Sys2Proof.Machine.execFinw f s
  | .migr f => Sys2Proof.Machine.execMigr f s
  | .armt f => Sys2Proof.Machine.execArmt f s
  | .msg f => Sys2Proof.Machine.execMsg f s
  | .launch f => Sys2Proof.Machine.execLaunch f s
  | .trigger f => Sys2Proof.Machine.execTrigger f s
  | .waitp f => Sys2Proof.Machine.execWaitp f s
  | .gang f => Sys2Proof.Machine.execGang f s
  | .mma f => Sys2Proof.Machine.execMma f s
  | .mprog f => Sys2Proof.Machine.execMprog f s
  | .mzero f => Sys2Proof.Machine.execMzero f s
  | .mrd f => Sys2Proof.Machine.execMrd f s
  | .mwr f => Sys2Proof.Machine.execMwr f s
  | .mst f => Sys2Proof.Machine.execMst f s
  | .eset f => Sys2Proof.Machine.execEset f s
  | .eget f => Sys2Proof.Machine.execEget f s
  | .ego f => Sys2Proof.Machine.execEgo f s
  | .ecan f => Sys2Proof.Machine.execEcan f s
  | .eqry f => Sys2Proof.Machine.execEqry f s
  | .cpy f => Sys2Proof.Machine.execCpy f s
  | .cpyr f => Sys2Proof.Machine.execCpyr f s
  | .cpyrow f => Sys2Proof.Machine.execCpyrow f s
  | .cbook f => Sys2Proof.Machine.execCbook f s
  | .mres f => Sys2Proof.Machine.execMres f s
  | .tstop f => Sys2Proof.Machine.execTstop f s
  | .tstart f => Sys2Proof.Machine.execTstart f s
  | .tread f => Sys2Proof.Machine.execTread f s
  | .twrite f => Sys2Proof.Machine.execTwrite f s
  | .tstep f => Sys2Proof.Machine.execTstep f s
  | .tgrant f => Sys2Proof.Machine.execTgrant f s
  | .trevoke f => Sys2Proof.Machine.execTrevoke f s
  | .srd f => Sys2Proof.Machine.execSrd f s
  | .swr f => Sys2Proof.Machine.execSwr f s
  | .vtime f => Sys2Proof.Machine.execVtime f s
  | .trap f => Sys2Proof.Machine.execTrap f s
  | .brk f => Sys2Proof.Machine.execBrk f s
  | .psplit f => Sys2Proof.Machine.execPsplit f s
  | .pmerge f => Sys2Proof.Machine.execPmerge f s
  | .genbump f => Sys2Proof.Machine.execGenbump f s
  | .cast f => Sys2Proof.Machine.execCast f s
  | .step f => Sys2Proof.Machine.execStep f s
  | .tlbinv f => Sys2Proof.Machine.execTlbinv f s
  | .cohere f => Sys2Proof.Machine.execCohere f s
  | .exit f => Sys2Proof.Machine.execExit f s
  | .exitChild f => Sys2Proof.Machine.execExitChild f s
  | .yield f => Sys2Proof.Machine.execYield f s
  | .barrelRefill core pos => Sys2Proof.Machine.execBarrelRefill core pos s
  | .quantumEnd core pos => Sys2Proof.Machine.execQuantumEnd core pos s
  | .itemDispatch lrec => Sys2Proof.Machine.execItemDispatch lrec s
  | .spillReload uid => Sys2Proof.Machine.execSpillReload uid s
  | .continuationPickup core => Sys2Proof.Machine.execContinuationPickup core s
  | .migrationArrival core => Sys2Proof.Machine.execMigrationArrival core s
  | .memoryReply uid => Sys2Proof.Machine.execMemoryReply uid s
  | .syncRetry uid => Sys2Proof.Machine.execSyncRetry uid s
  | .launchAdmission lrec => Sys2Proof.Machine.execLaunchAdmission lrec s
  | .launchAging lrec => Sys2Proof.Machine.execLaunchAging lrec s
  | .launchCompletion lrec => Sys2Proof.Machine.execLaunchCompletion lrec s
  | .stealProbe core lrec => Sys2Proof.Machine.execStealProbe core lrec s
  | .armtDeferredPush board entry => Sys2Proof.Machine.execArmtDeferredPush board entry s
  | .tempoDelivery lrec item d j => Sys2Proof.Machine.execTempoDelivery lrec item d j s
  | .breakIndexRecord core lrec => Sys2Proof.Machine.execBreakIndexRecord core lrec s
  | .matrixCommandRun core => Sys2Proof.Machine.execMatrixCommandRun core s
  | .gangBarrier core => Sys2Proof.Machine.execGangBarrier core s
  | .ksplitSumArrival core => Sys2Proof.Machine.execKsplitSumArrival core s
  | .tileCommandRun core => Sys2Proof.Machine.execTileCommandRun core s
  | .mstRun core => Sys2Proof.Machine.execMstRun core s
  | .copyCommandRun core => Sys2Proof.Machine.execCopyCommandRun core s
  | .cpyrRun core => Sys2Proof.Machine.execCpyrRun core s
  | .cpyrowRun core => Sys2Proof.Machine.execCpyrowRun core s
  | .cbookRun core => Sys2Proof.Machine.execCbookRun core s
  | .homeGets line core => Sys2Proof.Machine.execHomeGets line core s
  | .homeGetm line core => Sys2Proof.Machine.execHomeGetm line core s
  | .homeUpgrade line core => Sys2Proof.Machine.execHomeUpgrade line core s
  | .homePuts line core => Sys2Proof.Machine.execHomePuts line core s
  | .homePutOwner line core => Sys2Proof.Machine.execHomePutOwner line core s
  | .coreInv line core => Sys2Proof.Machine.execCoreInv line core s
  | .coreFwdGets line core => Sys2Proof.Machine.execCoreFwdGets line core s
  | .coreFwdGetm line core => Sys2Proof.Machine.execCoreFwdGetm line core s
  | .corePutack line core => Sys2Proof.Machine.execCorePutack line core s
  | .requesterResponse line core => Sys2Proof.Machine.execRequesterResponse line core s
  | .routerProbeDrop line core => Sys2Proof.Machine.execRouterProbeDrop line core s
  | .hostSnoop line => Sys2Proof.Machine.execHostSnoop line s
  | .hostSnoopInvalidate line => Sys2Proof.Machine.execHostSnoopInvalidate line s
  | .backInvalidateResponse line => Sys2Proof.Machine.execBackInvalidateResponse line s
  | .hostOwnershipRequest line => Sys2Proof.Machine.execHostOwnershipRequest line s
  | .leaseExpiry line => Sys2Proof.Machine.execLeaseExpiry line s
  | .wrapPause => Sys2Proof.Machine.execWrapPause s
  | .leaseSyncSend job => Sys2Proof.Machine.execLeaseSyncSend job s
  | .fabricLeaseSync p => Sys2Proof.Machine.execFabricLeaseSync p s
  | .fabricPauseControl p => Sys2Proof.Machine.execFabricPauseControl p s
  | .tokenRefill => Sys2Proof.Machine.execTokenRefill s
  | .putnDelivery core dir => Sys2Proof.Machine.execPutnDelivery core dir s
  | .stop => Sys2Proof.Machine.execStop s
  | .resume => Sys2Proof.Machine.execResume s
  | .switch => Sys2Proof.Machine.execSwitch s
  | .prefetch => Sys2Proof.Machine.execPrefetch s
  | .clockStopAtT => Sys2Proof.Machine.execClockStopAtT s
  | .sweepToken core => Sys2Proof.Machine.execSweepToken core s
  | .unitMove => Sys2Proof.Machine.execUnitMove s
  | .scrubWalkEnd leaf => Sys2Proof.Machine.execScrubWalkEnd leaf s
  | .create slot => Sys2Proof.Machine.execCreate slot s
  | .destroy slot => Sys2Proof.Machine.execDestroy slot s
  | .quota slot => Sys2Proof.Machine.execQuota slot s
  | .inval slot => Sys2Proof.Machine.execInval slot s
  | .hdmDecoderCommit n hpa base size => Sys2Proof.Machine.execHdmDecoderCommit n hpa base size s
  | .hostMemRead addr len => Sys2Proof.Machine.execHostMemRead addr len s
  | .hostMemWrite addr bytes => Sys2Proof.Machine.execHostMemWrite addr bytes s
  | .fabricLdx p => Sys2Proof.Machine.execFabricLdx p s
  | .fabricStx p => Sys2Proof.Machine.execFabricStx p s
  | .fabricRemoteAtomic p => Sys2Proof.Machine.execFabricRemoteAtomic p s
  | .fabricMsgMailbox p => Sys2Proof.Machine.execFabricMsgMailbox p s
  | .fabricMsgTag p => Sys2Proof.Machine.execFabricMsgTag p s
  | .fabricDataResponse p => Sys2Proof.Machine.execFabricDataResponse p s
  | .fabricAck p => Sys2Proof.Machine.execFabricAck p s
  | .fabricFailure p => Sys2Proof.Machine.execFabricFailure p s
  | .streamResend p => Sys2Proof.Machine.execStreamResend p s
  | .streamRecordFree src strand epoch => Sys2Proof.Machine.execStreamRecordFree src strand epoch s
  | .unexpectedPacketTimeout board => Sys2Proof.Machine.execUnexpectedPacketTimeout board s
  | .flitCrcFail port => Sys2Proof.Machine.execFlitCrcFail port s
  | .replayRequest port refused => Sys2Proof.Machine.execReplayRequest port refused s
  | .laneFailure port lane => Sys2Proof.Machine.execLaneFailure port lane s
  | .linkSilenceEnd port => Sys2Proof.Machine.execLinkSilenceEnd port s
  | .portWreqX4 port => Sys2Proof.Machine.execPortWreqX4 port s
  | .portWreqX8 port => Sys2Proof.Machine.execPortWreqX8 port s
  | .portWreqRetrain port => Sys2Proof.Machine.execPortWreqRetrain port s
  | .portEnWrite port on => Sys2Proof.Machine.execPortEnWrite port on s
  | .tierLinkDown link => Sys2Proof.Machine.execTierLinkDown link s
  | .d2dLaneFailure board link => Sys2Proof.Machine.execD2dLaneFailure board link s
  | .powerUp t => Sys2Proof.Machine.execPowerUp t s
  | .bgo value => Sys2Proof.Machine.execBgo value s
  | .bootImageLoad => Sys2Proof.Machine.execBootImageLoad s
  | .bootBlock core block => Sys2Proof.Machine.execBootBlock core block s
  | .csel value => Sys2Proof.Machine.execCsel value s
  | .ifreqWrite island value => Sys2Proof.Machine.execIfreqWrite island value s
  | .freqTransition island => Sys2Proof.Machine.execFreqTransition island s
  | .throttleUpdate power inlet => Sys2Proof.Machine.execThrottleUpdate power inlet s
  | .wearUpdate island w => Sys2Proof.Machine.execWearUpdate island w s
  | .bar0UnsupportedAccess offset size write => Sys2Proof.Machine.execBar0UnsupportedAccess offset size write s
  | .pldmRequest ty handle => Sys2Proof.Machine.execPldmRequest ty handle s
  | .spdmRequest index => Sys2Proof.Machine.execSpdmRequest index s
  | .registerWrite reg value => Sys2Proof.Machine.execRegisterWrite reg value s
  | .leaseClockPassesVismax uid => Sys2Proof.Machine.execLeaseClockPassesVismax uid s
  | .neighbourStalemate port => Sys2Proof.Machine.execNeighbourStalemate port s
  | .jobEntryWrite n value => Sys2Proof.Machine.execJobEntryWrite n value s
  | .uncorrectableError addr => Sys2Proof.Machine.execUncorrectableError addr s

end Sys2Proof.Machine
end

