-- ==== Sys2Proof/Machine/Schedule.lean ====
section
/-!
DEFINITION. Which turn comes next and what it does: an issue of a strand or of a sequencer, an event, a replacement. The turns
of `State.agenda` come first; without one, a step takes the first thing that is due, or the next issue of a core (DESIGN CHOICE, log entry 1).
-/

namespace Sys2Proof.Machine

/-! ### Issues -/

/-- Fetch, decode and execute at a pc of the issuing strand; `after` closes the turn. -/
def State.runAt (s : State) (u core ctx lrec : Nat) (pc : Word) (after : State → State) : Result :=
  match s.fetch core ctx lrec (streamNo u (s.stream == .access)) pc with
  | (.instr i, s) =>
    match exec i s with
    | .next s => .next (after (s.endFills u core pc))
    | .fault r => .fault r
    | .refused r => .refused r
  | (p, s) => .next (after (s.fetchFailed u core pc p))

/-- Close an issue of the barrel, and of a sequencer. -/
def State.closeIssue (u core : Nat) (s : State) : State := ((s.afterIssue u).endIssue core).settleTurn

/-- The instruction at the pc of a strand that holds the position of the cycle. -/
def State.issueStrand (s : State) (core u : Nat) (st : Strand) : Result :=
  (s.begin u st .execute).runAt u core st.ctx st.lrec st.pc (State.closeIssue u core)

/-- A CYCLE OF A CORE'S BARREL (01 R26). -/
def State.cycle (s : State) (core : Nat) : Result :=
  match s.prepare core with
  | (none, s) => .next s.settleTurn
  | (some (u, st), s) => s.issueStrand core u st

/-- AN ISSUE OF A LOOP SEQUENCER (12 R273). -/
def State.sequence (s : State) (core : Nat) : Result :=
  match s.seqReady core with
  | none => .next s
  | some (u, st, g) =>
    ((s.begin u { st with region := some g.unblocked } .access)).runAt u core st.ctx st.lrec g.seqPc State.settleTurn

/-! ### Deeds -/

/-- An event; the packets that it leaves at the router go on. -/
def State.close (e : State → Result) (s : State) : Result :=
  match e s with
  | .next s => .next s.settleTurn
  | .fault r => .fault r
  | .refused r => .refused r

def State.perform1 (s : State) (d : Deed) : Result :=
  match d with
  | .cycle core => s.cycle core
  | .sequence core => s.sequence core
  | .event i => State.close (exec i) s
  | .evictL1 core line => .next (s.replaceL1 core line).settleTurn
  | .evictInstr core line => .next (s.editCore core fun k => { k with icache := k.icache.filter fun e => e.1 / 4096 != line })
  | .evictTlb core ctx page =>
    let out (l : List TlbEntry) : List TlbEntry := l.filter fun t => !(t.ctx == ctx && t.page == page)
    .next (s.editCore core fun k => { k with tlb := out k.tlb, itlb := out k.itlb })
  | .tailAck port => .next (s.takeTailAck port).settleTurn
  | .copyCounters second => .next (s.copyCounters second)
  | .secondSelect value => .next (s.secondSelect value)

/-- Game-clock cycles pass before a turn. -/
def State.tick (s : State) (n : Nat) : State := { s with gclk := s.gclk + BitVec.ofNat 64 n }

/-! ### What is due when no turn is given -/

/-- The event that handles a message. -/
def CohMsg.event (s : State) (m : CohMsg) : State → Result :=
  let probe (i : State → Result) (r : Nat) : State → Result :=
    if s.filtered (s.leafIdOf r) m.core then execRouterProbeDrop m.line m.core else i
  match m.kind with
  | .getS => execHomeGets m.line m.core
  | .getM => execHomeGetm m.line m.core
  | .upgrade => execHomeUpgrade m.line m.core
  | .putS => execHomePuts m.line m.core
  | .putOwner _ => execHomePutOwner m.line m.core
  | .inv r => probe (execCoreInv m.line m.core) r
  | .fwdGetS r => probe (execCoreFwdGets m.line m.core) r
  | .fwdGetM r => probe (execCoreFwdGetm m.line m.core) r
  | .putAck _ => execCorePutack m.line m.core
  | _ => execRequesterResponse m.line m.core

/-- The event that takes a packet of a type from the router. -/
def packetEvent (ty : Nat) (p : Packet) : List (State → Result) :=
  match ty with
  | 1 => [execFabricLdx p]
  | 2 => [execFabricStx p]
  | 3 => [execFabricRemoteAtomic p]
  | 4 => [execFabricMsgMailbox p]
  | 5 => [execFabricMsgTag p]
  | 0x10 => [execFabricDataResponse p]
  | 0x11 => [execFabricAck p]
  | 0x12 => [execFabricFailure p]
  | 0x20 => [execFabricLeaseSync p]
  | 0x21 => [execFabricPauseControl p]
  | _ => []

/-- The boot block that comes next. -/
def State.nextBlock (s : State) : List (State → Result) :=
  match s.boot.load with
  | none => []
  | some l =>
    match l.tree.find? fun e => l.count (bootCore e) < l.blocks.length && l.mayReceive (bootCore e) with
    | some e => [execBootBlock (bootCore e) (l.blocks.getD (l.count (bootCore e)) 0)]
    | none => []

/-- What the engines of a core and its links may call for. -/
def coreEvents (core : Nat) (k : Core) : List (State → Result) :=
  (if k.mx.queue.isEmpty && k.ce.queue.isEmpty then []
   else [execMatrixCommandRun core, execGangBarrier core, execKsplitSumArrival core, execTileCommandRun core, execMstRun core,
         execCopyCommandRun core, execCpyrRun core, execCpyrowRun core, execCbookRun core]) ++
  (((List.range 4).filter fun d => ((k.links[d]?).getD none).isSome).map fun d => execPutnDelivery core d) ++
  (if k.arrivals.isEmpty then [] else [execContinuationPickup core, execMigrationArrival core])

/-- What a launch record may call for. -/
def State.launchEvents (s : State) (lrec : Nat) (l : Launch) : List (State → Result) :=
  (l.flight.map fun d => execTempoDelivery lrec (d.item - d.d) d.d d.j) ++
  ((s.unrecorded lrec).map fun c => execBreakIndexRecord c lrec) ++
  (if s.held lrec then (l.rect.cores.filter fun c => s.seeks c lrec l).map fun c => execStealProbe c lrec else []) ++
  [execLaunchCompletion lrec, execLaunchAging lrec, execLaunchAdmission lrec, execItemDispatch lrec]

/-- What castling may call for. -/
def State.castEvents (s : State) : List (State → Result) :=
  if s.castQ.isEmpty && s.castRun.isNone && s.moving.isNone && s.moveNext.isEmpty then []
  else
    [execStop, execResume, execSwitch, execPrefetch, execClockStopAtT, execUnitMove] ++
      match s.castRun with
      | some (c, .sweeping _ _ i) =>
        (match s.leafWithin c.out c.nodeRect with
          | some l => let cores := l.node.cores; [execSweepToken (cores.getD (min i (cores.length - 1)) 0)]
          | none => [])
      | _ => []

/-- The events that the module's own state may call for. -/
def State.pending (s : State) : List (State → Result) :=
  (s.strands.flatMap fun e =>
    (if e.2.state == .parked || e.2.region.isSome then [execMemoryReply e.1] else []) ++
    (if e.2.woken then [execSpillReload e.1] else [])) ++
  ((s.waiters.filter fun w => !w.listed).map fun w => execSyncRetry w.uid) ++
  (s.cores.flatMap fun e => coreEvents e.1 e.2) ++ (s.launches.flatMap fun e => s.launchEvents e.1 e.2) ++
  (s.msgs.map (·.event s)) ++ (s.matches_.map fun e => execArmtDeferredPush (e.1 / 1024) (e.1 % 1024)) ++
  (s.requesters.flatMap fun e => [execCreate e.1, execDestroy e.1, execQuota e.1, execInval e.1]) ++ s.castEvents ++
  (if s.boot.file.isSome then [execBootImageLoad] else []) ++ s.nextBlock ++
  ((s.outbox.filter fun e => e.2.dst == s.selfModule).flatMap fun e => packetEvent e.1 e.2) ++
  (s.refused.map fun r => fun s => .next (s.resend s.selfModule r.strand r.epoch r.seq)) ++
  (if !s.pausing.isEmpty || 0xFFF00000 ≤ s.leaseClock.toNat then [execWrapPause] else []) ++
  ((List.range 8).filterMap fun n =>
    if ((s.ports[n]?).map (·.replay.isEmpty)).getD true then none else some fun s => .next (s.takeTailAck n)) ++
  (if s.fleet.window.asked then [fun s => .next (s.copyCounters false)] else []) ++
  (if s.fleet.second.asked then [fun s => .next (s.copyCounters true)] else []) ++
  s.leased.filterMap fun e =>
    if e.2.1 ≤ s.leaseClock.toNat then some (execLeaseExpiry (e.1 / 65536 / 4096)) else none

/-- The event changes something now. -/
def State.changedBy (s : State) (e : State → Result) : Bool :=
  match e s with
  | .next t => t != s
  | _ => true

/-- A strand that issues on a core, now or after it has taken a position. -/
def State.runnable (s : State) (core : Nat) : Bool :=
  (List.range 8).any (fun p => (s.inPosition core p).isSome) || (s.nextReady core).isSome

/-- What a step without a turn takes first: an event that is due, or a sequencer that can issue. -/
def State.due (s : State) : Option (State → Result) :=
  match s.pending.find? s.changedBy with
  | some e => some (State.close e)
  | none => (s.cores.find? fun e => (s.seqReady e.1).isSome).map fun e s => s.sequence e.1

/-- The core that issues next: the first from `focus` on that has a strand to run, or the first of all. -/
def State.nextCore (s : State) : Option Nat :=
  match s.cores.find? fun e => s.focus ≤ e.1 && s.runnable e.1 with
  | some e => some e.1
  | none => (s.cores.find? fun e => s.runnable e.1).map (·.1)

/-- The next issue of a core, past its bubbles. -/
def State.runCore (s : State) (core : Nat) : Nat → Result
  | 0 => .next s
  | fuel + 1 =>
    match s.prepare core with
    | (some (u, st), s) => s.issueStrand core u st
    | (none, s) => (s.settleTurn.tick 1).runCore core fuel

/-- A step without a turn. -/
def State.defaultStep (s : State) : Result :=
  match s.due with
  | some e => e s
  | none =>
    match s.nextCore with
    | some c => (({ s with focus := c + 1 } : State).tick 1).runCore c 40
    | none => .next (s.tick 64)

/-- The first turn of the agenda, if there is one. -/
def State.takeTurn (s : State) : Result :=
  match s.agenda with
  | t :: rest => (({ s with agenda := rest } : State).tick t.ticks).perform1 t.deed
  | [] => s.defaultStep

/-! ### An instruction put where the next step fetches (see Step.lean) -/

/-- The page tables, the map and the words of one executable page at virtual address 0 of context 0, for a strand that holds
position 0 of core 0. The tables lie at 2 MiB: the level-1 table, whose entries 0 (the program) and 8192 (the map, at 2^52) lead
to one level-2 table, whose entry 0 is a 1 GiB leaf. The map of the page at `pageAt` lies at 128 times its number. -/
def fetchRoot : Nat := 0x200000
def fetchMid : Nat := 0x500000

/-- Where the instruction lies: in the 1 GiB that is mapped to itself, its map elsewhere. -/
def fetchPc : Nat := 0x100000

def fetchStrand : Strand :=
  { Strand.blank with place := .slot 0, state := .run, pc := BitVec.ofNat 64 fetchPc, lrec := 0, ctx := 0, isItem := true }

def fetchCtx : Ctx := Ctx.fresh none (BitVec.ofNat 64 fetchRoot) 0x10000000000000 Rect.module.leafId 0

def fetchLaunch : Launch :=
  { seedLaunch 0 Rect.module (BitVec.ofNat 64 fetchPc) 0 rootRight 0 0 [] 0 with ranges := bootRanges, next := 1, pop := 1 }

/-- The words that are stored, by address: table entries, the start bit, the instruction. -/
def fetchCells (n w : Nat) : List Host.Cell :=
  let entry (a v : Nat) (m : List Host.Cell) : List Host.Cell := Memory.setBytes m a (Memory.toBytes 8 v)
  let m := entry fetchRoot (fetchMid + 1) (entry (fetchRoot + 8 * 8192) (fetchMid + 1) (entry fetchMid 0x13B []))
  Memory.setBytes (Memory.set m (128 * (fetchPc / 4096)) 1) fetchPc (Memory.toBytes n w)

/-- The machine with an instruction of `n` bytes where the next step fetches it: in memory, and in the instruction cache with its start bit,
so that the fetch does not wait. -/
def State.placeWord (s : State) (n w : Nat) : State :=
  let m := (fetchCells n w).foldl (fun m e => Memory.set m e.1 e.2) s.mem
  let held : ILine := { bytes := Memory.getBytes m fetchPc 128, starts := 1 }
  let k := (s.core 0).addLine 0 (iKey 0 (lineOf fetchPc)) held
  { s with
    mem := m
    ctxs := Sparse.put s.ctxs 0 fetchCtx
    launches := Sparse.put s.launches 0 fetchLaunch
    strands := Sparse.put s.strands s.nextUid fetchStrand
    nextUid := s.nextUid + 1
    cores := Sparse.put s.cores 0 { k with pos := k.pos.setIfInBounds (k.cyc % 8) (some s.nextUid) }
    agenda := ⟨0, .cycle 0⟩ :: s.agenda }

end Sys2Proof.Machine
end

