-- ==== Sys2Proof/Machine/Step.lean ====
section
/-!
DEFINITION. The step of the machine.
-/

namespace Sys2Proof.Machine

/-- ONE STEP: the first turn of the agenda, or without one what is due or the next issue. -/
def step (s : State) : Host.Outcome State Fault Refusal := s.takeTurn

/-- `s` with the instruction of table word `w` where the next step fetches: 20 bytes, the longest instruction, of which the bits
above `nbits` are zero. -/
def State.withFetchWord (s : State) (nbits w : Nat) : State := s.placeWord 20 (w % 2 ^ nbits)

end Sys2Proof.Machine
end

