-- ==== Sys2Proof/Laws/Encoding.lean ====
section
/-!
SUPPORT. The words of an instruction give its opcode and its fields back.
-/

namespace Sys2Proof

theorem lenField_word0 (op : Nat) (f : Fields) : lenField (word0 op f) = f.form.len := by
  apply BitVec.eq_of_getLsbD_eq
  intro i hi
  simp only [lenField, word0, BitVec.getLsbD_extractLsb', BitVec.getLsbD_append]
  interval_cases i <;> simp

theorem opField_word0 {op : Nat} (h : op < 256) (f : Fields) : opField (word0 op f) = op := by
  have e : (word0 op f).extractLsb' 22 8 = BitVec.ofNat 8 op := by
    apply BitVec.eq_of_getLsbD_eq
    intro i hi
    simp only [word0, BitVec.getLsbD_extractLsb', BitVec.getLsbD_append]
    interval_cases i <;> simp
  simp [opField, e, Nat.mod_eq_of_lt h]

/-- A field of an appended word. -/
theorem word0_d (op : Nat) (f : Fields) : (word0 op f).extractLsb' 16 6 = f.d := by
  apply BitVec.eq_of_getLsbD_eq
  intro i hi
  simp only [word0, BitVec.getLsbD_extractLsb', BitVec.getLsbD_append]
  interval_cases i <;> simp

theorem word0_a (op : Nat) (f : Fields) : (word0 op f).extractLsb' 10 6 = f.a := by
  apply BitVec.eq_of_getLsbD_eq
  intro i hi
  simp only [word0, BitVec.getLsbD_extractLsb', BitVec.getLsbD_append]
  interval_cases i <;> simp

theorem word0_b (op : Nat) (f : Fields) : (word0 op f).extractLsb' 4 6 = f.b := by
  apply BitVec.eq_of_getLsbD_eq
  intro i hi
  simp only [word0, BitVec.getLsbD_extractLsb', BitVec.getLsbD_append]
  interval_cases i <;> simp

theorem word0_m (op : Nat) (f : Fields) : (word0 op f).extractLsb' 0 4 = f.m := by
  apply BitVec.eq_of_getLsbD_eq
  intro i hi
  simp only [word0, BitVec.getLsbD_extractLsb', BitVec.getLsbD_append]
  interval_cases i <;> simp

theorem word1_c (f : Fields) : (word1 f).extractLsb' 26 6 = f.c := by
  apply BitVec.eq_of_getLsbD_eq
  intro i hi
  simp only [word1, BitVec.getLsbD_extractLsb', BitVec.getLsbD_append]
  interval_cases i <;> simp

theorem word1_e (f : Fields) : (word1 f).extractLsb' 20 6 = f.e := by
  apply BitVec.eq_of_getLsbD_eq
  intro i hi
  simp only [word1, BitVec.getLsbD_extractLsb', BitVec.getLsbD_append]
  interval_cases i <;> simp

theorem word1_g1p (f : Fields) : (word1 f).extractLsb' 16 4 = f.guard.g1p := by
  apply BitVec.eq_of_getLsbD_eq
  intro i hi
  simp only [word1, BitVec.getLsbD_extractLsb', BitVec.getLsbD_append]
  interval_cases i <;> simp

theorem word1_g2p (f : Fields) : (word1 f).extractLsb' 11 4 = f.guard.g2p := by
  apply BitVec.eq_of_getLsbD_eq
  intro i hi
  simp only [word1, BitVec.getLsbD_extractLsb', BitVec.getLsbD_append]
  interval_cases i <;> simp

theorem word1_guard (f : Fields) : guardOf (word1 f) = f.guard := by
  have h1 : (word1 f).getLsbD 15 = f.guard.g1n := by simp only [word1, BitVec.getLsbD_append]; simp
  have h2 : (word1 f).getLsbD 10 = f.guard.g2n := by simp only [word1, BitVec.getLsbD_append]; simp
  have h3 : (word1 f).getLsbD 9 = f.guard.gc := by simp only [word1, BitVec.getLsbD_append]; simp
  simp only [guardOf, word1_g1p, word1_g2p, h1, h2, h3]

theorem word1_h (f : Fields) : (word1 f).extractLsb' 7 2 = f.h := by
  apply BitVec.eq_of_getLsbD_eq
  intro i hi
  simp only [word1, BitVec.getLsbD_extractLsb', BitVec.getLsbD_append]
  interval_cases i <;> simp

theorem word1_ta (f : Fields) : (word1 f).extractLsb' 5 2 = f.ta := by
  apply BitVec.eq_of_getLsbD_eq
  intro i hi
  simp only [word1, BitVec.getLsbD_extractLsb', BitVec.getLsbD_append]
  interval_cases i <;> simp

theorem word1_tb (f : Fields) : (word1 f).extractLsb' 3 2 = f.tb := by
  apply BitVec.eq_of_getLsbD_eq
  intro i hi
  simp only [word1, BitVec.getLsbD_extractLsb', BitVec.getLsbD_append]
  interval_cases i <;> simp

theorem word1_x (f : Fields) : (word1 f).extractLsb' 0 3 = f.x := by
  apply BitVec.eq_of_getLsbD_eq
  intro i hi
  simp only [word1, BitVec.getLsbD_extractLsb', BitVec.getLsbD_append]
  interval_cases i <;> simp

theorem word2_fmt (f : Fields) : (word2 f).extractLsb' 28 4 = f.fmt := by
  apply BitVec.eq_of_getLsbD_eq
  intro i hi
  simp only [word2, BitVec.getLsbD_extractLsb', BitVec.getLsbD_append]
  interval_cases i <;> simp

theorem word2_rnd (f : Fields) : (word2 f).extractLsb' 26 2 = f.rnd := by
  apply BitVec.eq_of_getLsbD_eq
  intro i hi
  simp only [word2, BitVec.getLsbD_extractLsb', BitVec.getLsbD_append]
  interval_cases i <;> simp

theorem word2_bk (f : Fields) : (word2 f).extractLsb' 24 2 = f.bk := by
  apply BitVec.eq_of_getLsbD_eq
  intro i hi
  simp only [word2, BitVec.getLsbD_extractLsb', BitVec.getLsbD_append]
  interval_cases i <;> simp

theorem word2_reserved (f : Fields) : (word2 f).extractLsb' 20 4 = 0 := by
  apply BitVec.eq_of_getLsbD_eq
  intro i hi
  simp only [word2, BitVec.getLsbD_extractLsb', BitVec.getLsbD_append]
  interval_cases i <;> simp

theorem word2_imm20 (f : Fields) : (word2 f).extractLsb' 0 20 = f.imm20 := by
  apply BitVec.eq_of_getLsbD_eq
  intro i hi
  simp only [word2, BitVec.getLsbD_extractLsb', BitVec.getLsbD_append]
  simp [hi, show i < 28 by omega, show i < 26 by omega, show i < 24 by omega]

theorem lit_halves (l : BitVec 64) : (l.extractLsb' 32 32 ++ l.extractLsb' 0 32 : BitVec 64) = l := by
  apply BitVec.eq_of_getLsbD_eq
  intro i hi
  simp only [BitVec.getLsbD_extractLsb', BitVec.getLsbD_append]
  by_cases h : i < 32
  · simp [h]
  · simp [h, show i - 32 < 32 by omega, show 32 + (i - 32) = i by omega]

/-- The fields of an extended form. -/
theorem extFieldsOf_words (op : Nat) (f : Fields) : extFieldsOf f.form (word0 op f) (word1 f) (word2 f) = f := by
  simp [extFieldsOf, word0_d, word0_a, word0_b, word0_m, word1_c, word1_e, word1_guard, word1_h, word1_ta, word1_tb, word1_x,
    word2_fmt, word2_rnd, word2_bk, word2_imm20]

/-- The fields of a base form. -/
theorem baseFieldsOf_word (op : Nat) (f : Fields) (h : f.baseFields = true) : baseFieldsOf f.form (word0 op f) = f := by
  simp only [Fields.baseFields, Bool.and_eq_true, beq_iff_eq] at h
  obtain ⟨⟨⟨⟨⟨⟨⟨⟨⟨⟨hc, he⟩, hg⟩, hh⟩, hta⟩, htb⟩, hx⟩, hfmt⟩, hrnd⟩, hbk⟩, himm⟩ := h
  cases f
  simp_all [baseFieldsOf, word0_d, word0_a, word0_b, word0_m]

/-- The fields of the words of an instruction whose shape takes them. -/
theorem parse_pack {s : Shape} {f : Fields} (op : Nat) (h : s.formOk f = true) :
    ∃ w rest, pack op f = w :: rest ∧ w = word0 op f ∧ parseFields w rest = some (f, true, []) := by
  unfold Shape.formOk at h
  cases hf : f.form with
  | base =>
    simp only [hf, Bool.and_eq_true] at h
    refine ⟨word0 op f, _, by simp only [pack, hf]; rfl, rfl, ?_⟩
    have := baseFieldsOf_word op f h.2.1.2
    rw [hf] at this
    simp [parseFields, lenField_word0, hf, Form.len, this]
  | baseLit l =>
    simp only [hf, Bool.and_eq_true] at h
    refine ⟨word0 op f, _, by simp only [pack, hf]; rfl, rfl, ?_⟩
    have := baseFieldsOf_word op f h.2.1.2
    rw [hf] at this
    simp [parseFields, lenField_word0, hf, Form.len, this]
  | ext =>
    refine ⟨word0 op f, _, by simp only [pack, hf]; rfl, rfl, ?_⟩
    have := extFieldsOf_words op f
    rw [hf] at this
    simp [parseFields, lenField_word0, hf, Form.len, this, word2_reserved]
  | extLit l =>
    refine ⟨word0 op f, _, by simp only [pack, hf]; rfl, rfl, ?_⟩
    have := extFieldsOf_words op f
    rw [hf] at this
    simp [parseFields, lenField_word0, hf, Form.len, lit_halves, this, word2_reserved]

theorem formOk_of_reject {s : Shape} {f : Fields} (h : s.reject f = none) : s.formOk f = true := by
  unfold Shape.reject at h
  split at h
  · cases h
  · simp_all

/-- THE ROUND TRIP of one entry: its opcode names a decoder, and the selectors of its fields name the instruction. -/
theorem decode_pack {op : Nat} {s : Shape} {f : Fields} {i : Instr} {mk : Fields → Option Instr} (hop : op < 256)
    (hmk : Instr.ofOp op = some mk) (hi : mk f = some i) (he : i.entry = some (op, s, f)) (hw : i.wellFormed = true) :
    decodeWords (encode i) = .ok (i, []) := by
  have hr : i.reject = none := by simpa [Instr.wellFormed] using hw
  have hs : s.reject f = none := by simpa [Instr.reject, he] using hr
  obtain ⟨w, rest, hp, hw0, hparse⟩ := parse_pack op (formOk_of_reject hs)
  simp [encode, he, hp, decodeWords, hparse, hw0 ▸ opField_word0 hop f, hmk, hi, checked, hr, Except.map]

/-! ### What a shape says of the selectors -/

/-- A field of M with one value. -/
theorem m_of_reject {s : Shape} {f : Fields} {k : Nat} (h : s.reject f = none) (hm : s.ms = [k])
    (hl : s.low = .regs ∨ s.low = .imm6) : f.m.toNat = k := by
  have := formOk_of_reject h
  unfold Shape.formOk at this
  split at this <;> rcases hl with hl | hl <;>
    simp_all [Shape.baseWord, Shape.litWord, Shape.extWord]

/-- X where it is a selector, in an entry with extended forms only. -/
theorem x_of_reject {s : Shape} {f : Fields} (h : s.reject f = none) (hb : s.fb = false) (hl : s.fl = false) (hc : s.cReg = false) :
    f.x.toNat = s.xsel := by
  have := formOk_of_reject h
  unfold Shape.formOk at this
  split at this <;> simp_all [Shape.extFields, Shape.xOk]

end Sys2Proof
end

