-- ==== Sys2Proof/Laws/PerInstr.lean ====
section
/-!
SUPPORT. What is said of each instruction as syntax. RoundTrip: the words of a well-formed instruction decode to it.
-/

namespace Sys2Proof.Laws.RoundTrip

/-- The words that a well-formed instruction is encoded in decode to that instruction, and nothing is left of them. -/
def Statement (i : Instr) : Prop := i.wellFormed = true → decodeWords (encode i) = .ok (i, [])

/-- The selectors of a well-formed instruction. -/
theorem rejects {i : Instr} {op : Nat} {s : Shape} {f : Fields} (h : i.wellFormed = true) (he : i.entry = some (op, s, f)) :
    s.reject f = none := by
  have hr : i.reject = none := by simpa [Instr.wellFormed] using h
  simpa [Instr.reject, he] using hr

/-- An event has no words. -/
theorem event {i : Instr} (he : i.entry = none) : Statement i := by
  intro h
  simp [Instr.wellFormed, Instr.reject, he] at h

theorem nop (f : Fields) : Statement (.nop f) := fun h => decode_pack (by decide) rfl rfl rfl h
theorem add (f : Fields) : Statement (.add f) := fun h => decode_pack (by decide) rfl rfl rfl h
theorem addi (f : Fields) : Statement (.addi f) := fun h => decode_pack (by decide) rfl rfl rfl h
theorem sub (f : Fields) : Statement (.sub f) := fun h => decode_pack (by decide) rfl rfl rfl h
theorem mul (f : Fields) : Statement (.mul f) := fun h => decode_pack (by decide) rfl rfl rfl h
theorem mulh (f : Fields) : Statement (.mulh f) := fun h =>
  have hk : f.m.toNat = 0 := m_of_reject (rejects h rfl) rfl (Or.inl rfl)
  decode_pack (by decide) rfl (by simp [pick, hk]) rfl h
theorem mulhu (f : Fields) : Statement (.mulhu f) := fun h =>
  have hk : f.m.toNat = 1 := m_of_reject (rejects h rfl) rfl (Or.inl rfl)
  decode_pack (by decide) rfl (by simp [pick, hk]) rfl h
theorem div (f : Fields) : Statement (.div f) := fun h =>
  have hk : f.m.toNat = 0 := m_of_reject (rejects h rfl) rfl (Or.inl rfl)
  decode_pack (by decide) rfl (by simp [pick, hk]) rfl h
theorem divu (f : Fields) : Statement (.divu f) := fun h =>
  have hk : f.m.toNat = 1 := m_of_reject (rejects h rfl) rfl (Or.inl rfl)
  decode_pack (by decide) rfl (by simp [pick, hk]) rfl h
theorem rem (f : Fields) : Statement (.rem f) := fun h =>
  have hk : f.m.toNat = 2 := m_of_reject (rejects h rfl) rfl (Or.inl rfl)
  decode_pack (by decide) rfl (by simp [pick, hk]) rfl h
theorem remu (f : Fields) : Statement (.remu f) := fun h =>
  have hk : f.m.toNat = 3 := m_of_reject (rejects h rfl) rfl (Or.inl rfl)
  decode_pack (by decide) rfl (by simp [pick, hk]) rfl h
theorem and (f : Fields) : Statement (.and f) := fun h => decode_pack (by decide) rfl rfl rfl h
theorem andi (f : Fields) : Statement (.andi f) := fun h => decode_pack (by decide) rfl rfl rfl h
theorem or (f : Fields) : Statement (.or f) := fun h => decode_pack (by decide) rfl rfl rfl h
theorem ori (f : Fields) : Statement (.ori f) := fun h => decode_pack (by decide) rfl rfl rfl h
theorem xor (f : Fields) : Statement (.xor f) := fun h => decode_pack (by decide) rfl rfl rfl h
theorem xori (f : Fields) : Statement (.xori f) := fun h => decode_pack (by decide) rfl rfl rfl h
theorem andn (f : Fields) : Statement (.andn f) := fun h => decode_pack (by decide) rfl rfl rfl h
theorem shl (f : Fields) : Statement (.shl f) := fun h => decode_pack (by decide) rfl rfl rfl h
theorem shr (f : Fields) : Statement (.shr f) := fun h => decode_pack (by decide) rfl rfl rfl h
theorem sra (f : Fields) : Statement (.sra f) := fun h => decode_pack (by decide) rfl rfl rfl h
theorem rotl (f : Fields) : Statement (.rotl f) := fun h => decode_pack (by decide) rfl rfl rfl h
theorem clz (f : Fields) : Statement (.clz f) := fun h =>
  have hk : f.m.toNat = 0 := m_of_reject (rejects h rfl) rfl (Or.inl rfl)
  decode_pack (by decide) rfl (by simp [pick, hk]) rfl h
theorem ctz (f : Fields) : Statement (.ctz f) := fun h =>
  have hk : f.m.toNat = 1 := m_of_reject (rejects h rfl) rfl (Or.inl rfl)
  decode_pack (by decide) rfl (by simp [pick, hk]) rfl h
theorem popc (f : Fields) : Statement (.popc f) := fun h =>
  have hk : f.m.toNat = 2 := m_of_reject (rejects h rfl) rfl (Or.inl rfl)
  decode_pack (by decide) rfl (by simp [pick, hk]) rfl h
theorem brev (f : Fields) : Statement (.brev f) := fun h =>
  have hk : f.m.toNat = 3 := m_of_reject (rejects h rfl) rfl (Or.inl rfl)
  decode_pack (by decide) rfl (by simp [pick, hk]) rfl h
theorem bswap (f : Fields) : Statement (.bswap f) := fun h =>
  have hk : f.m.toNat = 4 := m_of_reject (rejects h rfl) rfl (Or.inl rfl)
  decode_pack (by decide) rfl (by simp [pick, hk]) rfl h
theorem min (f : Fields) : Statement (.min f) := fun h =>
  have hk : f.m.toNat = 0 := m_of_reject (rejects h rfl) rfl (Or.inl rfl)
  decode_pack (by decide) rfl (by simp [pick, hk]) rfl h
theorem max (f : Fields) : Statement (.max f) := fun h =>
  have hk : f.m.toNat = 1 := m_of_reject (rejects h rfl) rfl (Or.inl rfl)
  decode_pack (by decide) rfl (by simp [pick, hk]) rfl h
theorem minu (f : Fields) : Statement (.minu f) := fun h =>
  have hk : f.m.toNat = 2 := m_of_reject (rejects h rfl) rfl (Or.inl rfl)
  decode_pack (by decide) rfl (by simp [pick, hk]) rfl h
theorem maxu (f : Fields) : Statement (.maxu f) := fun h =>
  have hk : f.m.toNat = 3 := m_of_reject (rejects h rfl) rfl (Or.inl rfl)
  decode_pack (by decide) rfl (by simp [pick, hk]) rfl h
theorem sel (f : Fields) : Statement (.sel f) := fun h => decode_pack (by decide) rfl rfl rfl h
theorem extb (f : Fields) : Statement (.extb f) := fun h => decode_pack (by decide) rfl rfl rfl h
theorem insb (f : Fields) : Statement (.insb f) := fun h => decode_pack (by decide) rfl rfl rfl h
theorem li (f : Fields) : Statement (.li f) := fun h => decode_pack (by decide) rfl rfl rfl h
theorem lih (f : Fields) : Statement (.lih f) := fun h => decode_pack (by decide) rfl rfl rfl h
theorem lit (f : Fields) : Statement (.lit f) := fun h => decode_pack (by decide) rfl rfl rfl h
theorem lea (f : Fields) : Statement (.lea f) := fun h => decode_pack (by decide) rfl rfl rfl h
theorem cmp (f : Fields) : Statement (.cmp f) := fun h => decode_pack (by decide) rfl rfl rfl h
theorem cmpi (f : Fields) : Statement (.cmpi f) := fun h => decode_pack (by decide) rfl rfl rfl h
theorem b (f : Fields) : Statement (.b f) := fun h => decode_pack (by decide) rfl rfl rfl h
theorem bp (f : Fields) : Statement (.bp f) := fun h => decode_pack (by decide) rfl rfl rfl h
theorem call (f : Fields) : Statement (.call f) := fun h => decode_pack (by decide) rfl rfl rfl h
theorem calli (f : Fields) : Statement (.calli f) := fun h => decode_pack (by decide) rfl rfl rfl h
theorem jmpi (f : Fields) : Statement (.jmpi f) := fun h => decode_pack (by decide) rfl rfl rfl h
theorem ret (f : Fields) : Statement (.ret f) := fun h => decode_pack (by decide) rfl rfl rfl h
theorem throw (f : Fields) : Statement (.throw f) := fun h => decode_pack (by decide) rfl rfl rfl h
theorem plim (f : Fields) : Statement (.plim f) := fun h => decode_pack (by decide) rfl rfl rfl h
theorem pwhile (f : Fields) : Statement (.pwhile f) := fun h => decode_pack (by decide) rfl rfl rfl h
theorem pand (f : Fields) : Statement (.pand f) := fun h => decode_pack (by decide) rfl rfl rfl h
theorem por (f : Fields) : Statement (.por f) := fun h => decode_pack (by decide) rfl rfl rfl h
theorem pxor (f : Fields) : Statement (.pxor f) := fun h => decode_pack (by decide) rfl rfl rfl h
theorem pnot (f : Fields) : Statement (.pnot f) := fun h => decode_pack (by decide) rfl rfl rfl h
theorem pfirst (f : Fields) : Statement (.pfirst f) := fun h => decode_pack (by decide) rfl rfl rfl h
theorem pcnt (f : Fields) : Statement (.pcnt f) := fun h => decode_pack (by decide) rfl rfl rfl h
theorem pmovxRd (f : Fields) : Statement (.pmovxRd f) := fun h =>
  have hk : f.m.toNat = 0 := m_of_reject (rejects h rfl) rfl (Or.inl rfl)
  decode_pack (by decide) rfl (by simp [pick, hk]) rfl h
theorem pmovxWr (f : Fields) : Statement (.pmovxWr f) := fun h =>
  have hk : f.m.toNat = 1 := m_of_reject (rejects h rfl) rfl (Or.inl rfl)
  decode_pack (by decide) rfl (by simp [pick, hk]) rfl h
theorem vwid (f : Fields) : Statement (.vwid f) := fun h => decode_pack (by decide) rfl rfl rfl h
theorem vfadd (f : Fields) : Statement (.vfadd f) := fun h => decode_pack (by decide) rfl rfl rfl h
theorem vfsub (f : Fields) : Statement (.vfsub f) := fun h => decode_pack (by decide) rfl rfl rfl h
theorem vfmul (f : Fields) : Statement (.vfmul f) := fun h => decode_pack (by decide) rfl rfl rfl h
theorem vfma (f : Fields) : Statement (.vfma f) := fun h => decode_pack (by decide) rfl rfl rfl h
theorem vfms (f : Fields) : Statement (.vfms f) := fun h => decode_pack (by decide) rfl rfl rfl h
theorem vfnma (f : Fields) : Statement (.vfnma f) := fun h => decode_pack (by decide) rfl rfl rfl h
theorem vfnms (f : Fields) : Statement (.vfnms f) := fun h => decode_pack (by decide) rfl rfl rfl h
theorem vfmin (f : Fields) : Statement (.vfmin f) := fun h => decode_pack (by decide) rfl rfl rfl h
theorem vfmax (f : Fields) : Statement (.vfmax f) := fun h => decode_pack (by decide) rfl rfl rfl h
theorem vfabs (f : Fields) : Statement (.vfabs f) := fun h => decode_pack (by decide) rfl rfl rfl h
theorem vfneg (f : Fields) : Statement (.vfneg f) := fun h => decode_pack (by decide) rfl rfl rfl h
theorem vfcps (f : Fields) : Statement (.vfcps f) := fun h => decode_pack (by decide) rfl rfl rfl h
theorem vfdiv (f : Fields) : Statement (.vfdiv f) := fun h => decode_pack (by decide) rfl rfl rfl h
theorem vfsqrt (f : Fields) : Statement (.vfsqrt f) := fun h => decode_pack (by decide) rfl rfl rfl h
theorem vfrcp (f : Fields) : Statement (.vfrcp f) := fun h => decode_pack (by decide) rfl rfl rfl h
theorem vfrsq (f : Fields) : Statement (.vfrsq f) := fun h => decode_pack (by decide) rfl rfl rfl h
theorem vfexp2 (f : Fields) : Statement (.vfexp2 f) := fun h => decode_pack (by decide) rfl rfl rfl h
theorem vflog2 (f : Fields) : Statement (.vflog2 f) := fun h => decode_pack (by decide) rfl rfl rfl h
theorem vfsin (f : Fields) : Statement (.vfsin f) := fun h => decode_pack (by decide) rfl rfl rfl h
theorem vfcos (f : Fields) : Statement (.vfcos f) := fun h => decode_pack (by decide) rfl rfl rfl h
theorem vftanh (f : Fields) : Statement (.vftanh f) := fun h => decode_pack (by decide) rfl rfl rfl h
theorem vfcmp (f : Fields) : Statement (.vfcmp f) := fun h => decode_pack (by decide) rfl rfl rfl h
theorem vfclass (f : Fields) : Statement (.vfclass f) := fun h => decode_pack (by decide) rfl rfl rfl h
theorem vfcvt (f : Fields) : Statement (.vfcvt f) := fun h => decode_pack (by decide) rfl rfl rfl h
theorem vfrnd (f : Fields) : Statement (.vfrnd f) := fun h => decode_pack (by decide) rfl rfl rfl h
theorem vfscale (f : Fields) : Statement (.vfscale f) := fun h => decode_pack (by decide) rfl rfl rfl h
theorem vfdot2 (f : Fields) : Statement (.vfdot2 f) := fun h => decode_pack (by decide) rfl rfl rfl h
theorem vadd (f : Fields) : Statement (.vadd f) := fun h => decode_pack (by decide) rfl rfl rfl h
theorem vsub (f : Fields) : Statement (.vsub f) := fun h => decode_pack (by decide) rfl rfl rfl h
theorem vmul (f : Fields) : Statement (.vmul f) := fun h => decode_pack (by decide) rfl rfl rfl h
theorem vmulh (f : Fields) : Statement (.vmulh f) := fun h => decode_pack (by decide) rfl rfl rfl h
theorem vmadd (f : Fields) : Statement (.vmadd f) := fun h => decode_pack (by decide) rfl rfl rfl h
theorem vand (f : Fields) : Statement (.vand f) := fun h =>
  have hk : f.x.toNat = 0 := x_of_reject (rejects h rfl) rfl rfl rfl
  decode_pack (by decide) rfl (by simp [pick, hk]) rfl h
theorem vor (f : Fields) : Statement (.vor f) := fun h =>
  have hk : f.x.toNat = 1 := x_of_reject (rejects h rfl) rfl rfl rfl
  decode_pack (by decide) rfl (by simp [pick, hk]) rfl h
theorem vxor (f : Fields) : Statement (.vxor f) := fun h =>
  have hk : f.x.toNat = 2 := x_of_reject (rejects h rfl) rfl rfl rfl
  decode_pack (by decide) rfl (by simp [pick, hk]) rfl h
theorem vandn (f : Fields) : Statement (.vandn f) := fun h =>
  have hk : f.x.toNat = 3 := x_of_reject (rejects h rfl) rfl rfl rfl
  decode_pack (by decide) rfl (by simp [pick, hk]) rfl h
theorem vshl (f : Fields) : Statement (.vshl f) := fun h =>
  have hk : f.x.toNat = 0 := x_of_reject (rejects h rfl) rfl rfl rfl
  decode_pack (by decide) rfl (by simp [pick, hk]) rfl h
theorem vshr (f : Fields) : Statement (.vshr f) := fun h =>
  have hk : f.x.toNat = 1 := x_of_reject (rejects h rfl) rfl rfl rfl
  decode_pack (by decide) rfl (by simp [pick, hk]) rfl h
theorem vsra (f : Fields) : Statement (.vsra f) := fun h =>
  have hk : f.x.toNat = 2 := x_of_reject (rejects h rfl) rfl rfl rfl
  decode_pack (by decide) rfl (by simp [pick, hk]) rfl h
theorem vmin (f : Fields) : Statement (.vmin f) := fun h =>
  have hk : f.x.toNat = 0 := x_of_reject (rejects h rfl) rfl rfl rfl
  decode_pack (by decide) rfl (by simp [pick, hk]) rfl h
theorem vmax (f : Fields) : Statement (.vmax f) := fun h =>
  have hk : f.x.toNat = 1 := x_of_reject (rejects h rfl) rfl rfl rfl
  decode_pack (by decide) rfl (by simp [pick, hk]) rfl h
theorem vminu (f : Fields) : Statement (.vminu f) := fun h =>
  have hk : f.x.toNat = 2 := x_of_reject (rejects h rfl) rfl rfl rfl
  decode_pack (by decide) rfl (by simp [pick, hk]) rfl h
theorem vmaxu (f : Fields) : Statement (.vmaxu f) := fun h =>
  have hk : f.x.toNat = 3 := x_of_reject (rejects h rfl) rfl rfl rfl
  decode_pack (by decide) rfl (by simp [pick, hk]) rfl h
theorem vabs (f : Fields) : Statement (.vabs f) := fun h => decode_pack (by decide) rfl rfl rfl h
theorem vadds (f : Fields) : Statement (.vadds f) := fun h =>
  have hk : f.x.toNat = 0 := x_of_reject (rejects h rfl) rfl rfl rfl
  decode_pack (by decide) rfl (by simp [pick, hk]) rfl h
theorem vsubs (f : Fields) : Statement (.vsubs f) := fun h =>
  have hk : f.x.toNat = 1 := x_of_reject (rejects h rfl) rfl rfl rfl
  decode_pack (by decide) rfl (by simp [pick, hk]) rfl h
theorem vcmp (f : Fields) : Statement (.vcmp f) := fun h => decode_pack (by decide) rfl rfl rfl h
theorem vsel (f : Fields) : Statement (.vsel f) := fun h => decode_pack (by decide) rfl rfl rfl h
theorem vclz (f : Fields) : Statement (.vclz f) := fun h =>
  have hk : f.x.toNat = 0 := x_of_reject (rejects h rfl) rfl rfl rfl
  decode_pack (by decide) rfl (by simp [pick, hk]) rfl h
theorem vpopc (f : Fields) : Statement (.vpopc f) := fun h =>
  have hk : f.x.toNat = 1 := x_of_reject (rejects h rfl) rfl rfl rfl
  decode_pack (by decide) rfl (by simp [pick, hk]) rfl h
theorem vtag (f : Fields) : Statement (.vtag f) := fun h =>
  have hk : f.x.toNat = 0 := x_of_reject (rejects h rfl) rfl rfl rfl
  decode_pack (by decide) rfl (by simp [pick, hk]) rfl h
theorem vfill (f : Fields) : Statement (.vfill f) := fun h =>
  have hk : f.x.toNat = 1 := x_of_reject (rejects h rfl) rfl rfl rfl
  decode_pack (by decide) rfl (by simp [pick, hk]) rfl h
theorem vmov (f : Fields) : Statement (.vmov f) := fun h => decode_pack (by decide) rfl rfl rfl h
theorem vrel (f : Fields) : Statement (.vrel f) := fun h => decode_pack (by decide) rfl rfl rfl h
theorem vshuf (f : Fields) : Statement (.vshuf f) := fun h => decode_pack (by decide) rfl rfl rfl h
theorem vperm (f : Fields) : Statement (.vperm f) := fun h => decode_pack (by decide) rfl rfl rfl h
theorem vbcast (f : Fields) : Statement (.vbcast f) := fun h => decode_pack (by decide) rfl rfl rfl h
theorem vslideu (f : Fields) : Statement (.vslideu f) := fun h =>
  have hk : f.x.toNat = 0 := x_of_reject (rejects h rfl) rfl rfl rfl
  decode_pack (by decide) rfl (by simp [pick, hk]) rfl h
theorem vslided (f : Fields) : Statement (.vslided f) := fun h =>
  have hk : f.x.toNat = 1 := x_of_reject (rejects h rfl) rfl rfl rfl
  decode_pack (by decide) rfl (by simp [pick, hk]) rfl h
theorem vcomp (f : Fields) : Statement (.vcomp f) := fun h => decode_pack (by decide) rfl rfl rfl h
theorem vexp (f : Fields) : Statement (.vexp f) := fun h => decode_pack (by decide) rfl rfl rfl h
theorem vzip (f : Fields) : Statement (.vzip f) := fun h =>
  have hk : f.x.toNat = 0 := x_of_reject (rejects h rfl) rfl rfl rfl
  decode_pack (by decide) rfl (by simp [pick, hk]) rfl h
theorem vuzip (f : Fields) : Statement (.vuzip f) := fun h =>
  have hk : f.x.toNat = 1 := x_of_reject (rejects h rfl) rfl rfl rfl
  decode_pack (by decide) rfl (by simp [pick, hk]) rfl h
theorem vins (f : Fields) : Statement (.vins f) := fun h => decode_pack (by decide) rfl rfl rfl h
theorem vext (f : Fields) : Statement (.vext f) := fun h => decode_pack (by decide) rfl rfl rfl h
theorem vredadd (f : Fields) : Statement (.vredadd f) := fun h => decode_pack (by decide) rfl rfl rfl h
theorem vredmax (f : Fields) : Statement (.vredmax f) := fun h =>
  have hk : f.x.toNat = 0 := x_of_reject (rejects h rfl) rfl rfl rfl
  decode_pack (by decide) rfl (by simp [pick, hk]) rfl h
theorem vredmin (f : Fields) : Statement (.vredmin f) := fun h =>
  have hk : f.x.toNat = 1 := x_of_reject (rejects h rfl) rfl rfl rfl
  decode_pack (by decide) rfl (by simp [pick, hk]) rfl h
theorem vredand (f : Fields) : Statement (.vredand f) := fun h =>
  have hk : f.x.toNat = 0 := x_of_reject (rejects h rfl) rfl rfl rfl
  decode_pack (by decide) rfl (by simp [pick, hk]) rfl h
theorem vredor (f : Fields) : Statement (.vredor f) := fun h =>
  have hk : f.x.toNat = 1 := x_of_reject (rejects h rfl) rfl rfl rfl
  decode_pack (by decide) rfl (by simp [pick, hk]) rfl h
theorem vscanadd (f : Fields) : Statement (.vscanadd f) := fun h => decode_pack (by decide) rfl rfl rfl h
theorem vicvt (f : Fields) : Statement (.vicvt f) := fun h => decode_pack (by decide) rfl rfl rfl h
theorem vld (f : Fields) : Statement (.vld f) := fun h => decode_pack (by decide) rfl rfl rfl h
theorem vst (f : Fields) : Statement (.vst f) := fun h => decode_pack (by decide) rfl rfl rfl h
theorem vlds (f : Fields) : Statement (.vlds f) := fun h => decode_pack (by decide) rfl rfl rfl h
theorem vsts (f : Fields) : Statement (.vsts f) := fun h => decode_pack (by decide) rfl rfl rfl h
theorem vgath (f : Fields) : Statement (.vgath f) := fun h => decode_pack (by decide) rfl rfl rfl h
theorem vscat (f : Fields) : Statement (.vscat f) := fun h => decode_pack (by decide) rfl rfl rfl h
theorem vldff (f : Fields) : Statement (.vldff f) := fun h => decode_pack (by decide) rfl rfl rfl h
theorem ld (f : Fields) : Statement (.ld f) := fun h => decode_pack (by decide) rfl rfl rfl h
theorem st (f : Fields) : Statement (.st f) := fun h => decode_pack (by decide) rfl rfl rfl h
theorem lds (f : Fields) : Statement (.lds f) := fun h => decode_pack (by decide) rfl rfl rfl h
theorem sts (f : Fields) : Statement (.sts f) := fun h => decode_pack (by decide) rfl rfl rfl h
theorem ldf (f : Fields) : Statement (.ldf f) := fun h => decode_pack (by decide) rfl rfl rfl h
theorem ste (f : Fields) : Statement (.ste f) := fun h => decode_pack (by decide) rfl rfl rfl h
theorem few (f : Fields) : Statement (.few f) := fun h => decode_pack (by decide) rfl rfl rfl h
theorem ldx (f : Fields) : Statement (.ldx f) := fun h => decode_pack (by decide) rfl rfl rfl h
theorem stx (f : Fields) : Statement (.stx f) := fun h => decode_pack (by decide) rfl rfl rfl h
theorem pref (f : Fields) : Statement (.pref f) := fun h => decode_pack (by decide) rfl rfl rfl h
theorem cflush (f : Fields) : Statement (.cflush f) := fun h => decode_pack (by decide) rfl rfl rfl h
theorem cinv (f : Fields) : Statement (.cinv f) := fun h => decode_pack (by decide) rfl rfl rfl h
theorem aadd (f : Fields) : Statement (.aadd f) := fun h => decode_pack (by decide) rfl rfl rfl h
theorem aand (f : Fields) : Statement (.aand f) := fun h =>
  have hk : f.x.toNat = 0 := x_of_reject (rejects h rfl) rfl rfl rfl
  decode_pack (by decide) rfl (by simp [pick, hk]) rfl h
theorem aor (f : Fields) : Statement (.aor f) := fun h =>
  have hk : f.x.toNat = 1 := x_of_reject (rejects h rfl) rfl rfl rfl
  decode_pack (by decide) rfl (by simp [pick, hk]) rfl h
theorem axor (f : Fields) : Statement (.axor f) := fun h =>
  have hk : f.x.toNat = 2 := x_of_reject (rejects h rfl) rfl rfl rfl
  decode_pack (by decide) rfl (by simp [pick, hk]) rfl h
theorem amin (f : Fields) : Statement (.amin f) := fun h =>
  have hk : f.x.toNat = 0 := x_of_reject (rejects h rfl) rfl rfl rfl
  decode_pack (by decide) rfl (by simp [pick, hk]) rfl h
theorem amax (f : Fields) : Statement (.amax f) := fun h =>
  have hk : f.x.toNat = 1 := x_of_reject (rejects h rfl) rfl rfl rfl
  decode_pack (by decide) rfl (by simp [pick, hk]) rfl h
theorem aminu (f : Fields) : Statement (.aminu f) := fun h =>
  have hk : f.x.toNat = 2 := x_of_reject (rejects h rfl) rfl rfl rfl
  decode_pack (by decide) rfl (by simp [pick, hk]) rfl h
theorem amaxu (f : Fields) : Statement (.amaxu f) := fun h =>
  have hk : f.x.toNat = 3 := x_of_reject (rejects h rfl) rfl rfl rfl
  decode_pack (by decide) rfl (by simp [pick, hk]) rfl h
theorem aswap (f : Fields) : Statement (.aswap f) := fun h => decode_pack (by decide) rfl rfl rfl h
theorem acas (f : Fields) : Statement (.acas f) := fun h => decode_pack (by decide) rfl rfl rfl h
theorem agts (f : Fields) : Statement (.agts f) := fun h => decode_pack (by decide) rfl rfl rfl h
theorem avcas (f : Fields) : Statement (.avcas f) := fun h => decode_pack (by decide) rfl rfl rfl h
theorem apcas (f : Fields) : Statement (.apcas f) := fun h => decode_pack (by decide) rfl rfl rfl h
theorem fence (f : Fields) : Statement (.fence f) := fun h => decode_pack (by decide) rfl rfl rfl h
theorem acq (f : Fields) : Statement (.acq f) := fun h => decode_pack (by decide) rfl rfl rfl h
theorem rel (f : Fields) : Statement (.rel f) := fun h => decode_pack (by decide) rfl rfl rfl h
theorem drain (f : Fields) : Statement (.drain f) := fun h => decode_pack (by decide) rfl rfl rfl h
theorem watch (f : Fields) : Statement (.watch f) := fun h => decode_pack (by decide) rfl rfl rfl h
theorem unwatch (f : Fields) : Statement (.unwatch f) := fun h => decode_pack (by decide) rfl rfl rfl h
theorem sleep (f : Fields) : Statement (.sleep f) := fun h => decode_pack (by decide) rfl rfl rfl h
theorem bar (f : Fields) : Statement (.bar f) := fun h => decode_pack (by decide) rfl rfl rfl h
theorem barw (f : Fields) : Statement (.barw f) := fun h => decode_pack (by decide) rfl rfl rfl h
theorem putn (f : Fields) : Statement (.putn f) := fun h => decode_pack (by decide) rfl rfl rfl h
theorem fempty (f : Fields) : Statement (.fempty f) := fun h => decode_pack (by decide) rfl rfl rfl h
theorem ffull (f : Fields) : Statement (.ffull f) := fun h => decode_pack (by decide) rfl rfl rfl h
theorem loop (f : Fields) : Statement (.loop f) := fun h =>
  have hk : f.x.toNat = 0 := x_of_reject (rejects h rfl) rfl rfl rfl
  decode_pack (by decide) rfl (by simp [pick, hk]) rfl h
theorem lend (f : Fields) : Statement (.lend f) := fun h =>
  have hk : f.x.toNat = 1 := x_of_reject (rejects h rfl) rfl rfl rfl
  decode_pack (by decide) rfl (by simp [pick, hk]) rfl h
theorem lbrk (f : Fields) : Statement (.lbrk f) := fun h =>
  have hk : f.x.toNat = 2 := x_of_reject (rejects h rfl) rfl rfl rfl
  decode_pack (by decide) rfl (by simp [pick, hk]) rfl h
theorem dsplit (f : Fields) : Statement (.dsplit f) := fun h =>
  have hk : f.x.toNat = 0 := x_of_reject (rejects h rfl) rfl rfl rfl
  decode_pack (by decide) rfl (by simp [pick, hk]) rfl h
theorem djoin (f : Fields) : Statement (.djoin f) := fun h =>
  have hk : f.x.toNat = 1 := x_of_reject (rejects h rfl) rfl rfl rfl
  decode_pack (by decide) rfl (by simp [pick, hk]) rfl h
theorem qpush (f : Fields) : Statement (.qpush f) := fun h =>
  have hk : f.x.toNat = 0 := x_of_reject (rejects h rfl) rfl rfl rfl
  decode_pack (by decide) rfl (by simp [pick, hk]) rfl h
theorem qpop (f : Fields) : Statement (.qpop f) := fun h =>
  have hk : f.x.toNat = 1 := x_of_reject (rejects h rfl) rfl rfl rfl
  decode_pack (by decide) rfl (by simp [pick, hk]) rfl h
theorem qbr (f : Fields) : Statement (.qbr f) := fun h => decode_pack (by decide) rfl rfl rfl h
theorem iter (f : Fields) : Statement (.iter f) := fun h => decode_pack (by decide) rfl rfl rfl h
theorem tidx (f : Fields) : Statement (.tidx f) := fun h => decode_pack (by decide) rfl rfl rfl h
theorem texp (f : Fields) : Statement (.texp f) := fun h => decode_pack (by decide) rfl rfl rfl h
theorem brko (f : Fields) : Statement (.brko f) := fun h => decode_pack (by decide) rfl rfl rfl h
theorem spawn (f : Fields) : Statement (.spawn f) := fun h => decode_pack (by decide) rfl rfl rfl h
theorem susp (f : Fields) : Statement (.susp f) := fun h =>
  have hk : f.x.toNat = 0 := x_of_reject (rejects h rfl) rfl rfl rfl
  decode_pack (by decide) rfl (by simp [pick, hk]) rfl h
theorem resm (f : Fields) : Statement (.resm f) := fun h =>
  have hk : f.x.toNat = 1 := x_of_reject (rejects h rfl) rfl rfl rfl
  decode_pack (by decide) rfl (by simp [pick, hk]) rfl h
theorem finb (f : Fields) : Statement (.finb f) := fun h =>
  have hk : f.x.toNat = 0 := x_of_reject (rejects h rfl) rfl rfl rfl
  decode_pack (by decide) rfl (by simp [pick, hk]) rfl h
theorem fine (f : Fields) : Statement (.fine f) := fun h =>
  have hk : f.x.toNat = 1 := x_of_reject (rejects h rfl) rfl rfl rfl
  decode_pack (by decide) rfl (by simp [pick, hk]) rfl h
theorem finw (f : Fields) : Statement (.finw f) := fun h =>
  have hk : f.x.toNat = 2 := x_of_reject (rejects h rfl) rfl rfl rfl
  decode_pack (by decide) rfl (by simp [pick, hk]) rfl h
theorem migr (f : Fields) : Statement (.migr f) := fun h => decode_pack (by decide) rfl rfl rfl h
theorem armt (f : Fields) : Statement (.armt f) := fun h => decode_pack (by decide) rfl rfl rfl h
theorem msg (f : Fields) : Statement (.msg f) := fun h => decode_pack (by decide) rfl rfl rfl h
theorem launch (f : Fields) : Statement (.launch f) := fun h => decode_pack (by decide) rfl rfl rfl h
theorem trigger (f : Fields) : Statement (.trigger f) := fun h =>
  have hk : f.x.toNat = 0 := x_of_reject (rejects h rfl) rfl rfl rfl
  decode_pack (by decide) rfl (by simp [pick, hk]) rfl h
theorem waitp (f : Fields) : Statement (.waitp f) := fun h =>
  have hk : f.x.toNat = 1 := x_of_reject (rejects h rfl) rfl rfl rfl
  decode_pack (by decide) rfl (by simp [pick, hk]) rfl h
theorem gang (f : Fields) : Statement (.gang f) := fun h => decode_pack (by decide) rfl rfl rfl h
theorem mma (f : Fields) : Statement (.mma f) := fun h => decode_pack (by decide) rfl rfl rfl h
theorem mprog (f : Fields) : Statement (.mprog f) := fun h => decode_pack (by decide) rfl rfl rfl h
theorem mzero (f : Fields) : Statement (.mzero f) := fun h => decode_pack (by decide) rfl rfl rfl h
theorem mrd (f : Fields) : Statement (.mrd f) := fun h => decode_pack (by decide) rfl rfl rfl h
theorem mwr (f : Fields) : Statement (.mwr f) := fun h => decode_pack (by decide) rfl rfl rfl h
theorem mst (f : Fields) : Statement (.mst f) := fun h => decode_pack (by decide) rfl rfl rfl h
theorem eset (f : Fields) : Statement (.eset f) := fun h => decode_pack (by decide) rfl rfl rfl h
theorem eget (f : Fields) : Statement (.eget f) := fun h => decode_pack (by decide) rfl rfl rfl h
theorem ego (f : Fields) : Statement (.ego f) := fun h => decode_pack (by decide) rfl rfl rfl h
theorem ecan (f : Fields) : Statement (.ecan f) := fun h =>
  have hk : f.x.toNat = 0 := x_of_reject (rejects h rfl) rfl rfl rfl
  decode_pack (by decide) rfl (by simp [pick, hk]) rfl h
theorem eqry (f : Fields) : Statement (.eqry f) := fun h =>
  have hk : f.x.toNat = 1 := x_of_reject (rejects h rfl) rfl rfl rfl
  decode_pack (by decide) rfl (by simp [pick, hk]) rfl h
theorem cpy (f : Fields) : Statement (.cpy f) := fun h => decode_pack (by decide) rfl rfl rfl h
theorem cpyr (f : Fields) : Statement (.cpyr f) := fun h => decode_pack (by decide) rfl rfl rfl h
theorem cpyrow (f : Fields) : Statement (.cpyrow f) := fun h => decode_pack (by decide) rfl rfl rfl h
theorem cbook (f : Fields) : Statement (.cbook f) := fun h => decode_pack (by decide) rfl rfl rfl h
theorem mres (f : Fields) : Statement (.mres f) := fun h => decode_pack (by decide) rfl rfl rfl h
theorem tstop (f : Fields) : Statement (.tstop f) := fun h =>
  have hk : f.x.toNat = 0 := x_of_reject (rejects h rfl) rfl rfl rfl
  decode_pack (by decide) rfl (by simp [pick, hk]) rfl h
theorem tstart (f : Fields) : Statement (.tstart f) := fun h =>
  have hk : f.x.toNat = 1 := x_of_reject (rejects h rfl) rfl rfl rfl
  decode_pack (by decide) rfl (by simp [pick, hk]) rfl h
theorem tread (f : Fields) : Statement (.tread f) := fun h => decode_pack (by decide) rfl rfl rfl h
theorem twrite (f : Fields) : Statement (.twrite f) := fun h => decode_pack (by decide) rfl rfl rfl h
theorem tstep (f : Fields) : Statement (.tstep f) := fun h => decode_pack (by decide) rfl rfl rfl h
theorem tgrant (f : Fields) : Statement (.tgrant f) := fun h =>
  have hk : f.x.toNat = 0 := x_of_reject (rejects h rfl) rfl rfl rfl
  decode_pack (by decide) rfl (by simp [pick, hk]) rfl h
theorem trevoke (f : Fields) : Statement (.trevoke f) := fun h =>
  have hk : f.x.toNat = 1 := x_of_reject (rejects h rfl) rfl rfl rfl
  decode_pack (by decide) rfl (by simp [pick, hk]) rfl h
theorem srd (f : Fields) : Statement (.srd f) := fun h =>
  have hk : f.x.toNat = 0 := x_of_reject (rejects h rfl) rfl rfl rfl
  decode_pack (by decide) rfl (by simp [pick, hk]) rfl h
theorem swr (f : Fields) : Statement (.swr f) := fun h =>
  have hk : f.x.toNat = 1 := x_of_reject (rejects h rfl) rfl rfl rfl
  decode_pack (by decide) rfl (by simp [pick, hk]) rfl h
theorem vtime (f : Fields) : Statement (.vtime f) := fun h => decode_pack (by decide) rfl rfl rfl h
theorem trap (f : Fields) : Statement (.trap f) := fun h =>
  have hk : f.x.toNat = 0 := x_of_reject (rejects h rfl) rfl rfl rfl
  decode_pack (by decide) rfl (by simp [pick, hk]) rfl h
theorem brk (f : Fields) : Statement (.brk f) := fun h =>
  have hk : f.x.toNat = 1 := x_of_reject (rejects h rfl) rfl rfl rfl
  decode_pack (by decide) rfl (by simp [pick, hk]) rfl h
theorem psplit (f : Fields) : Statement (.psplit f) := fun h =>
  have hk : f.x.toNat = 0 := x_of_reject (rejects h rfl) rfl rfl rfl
  decode_pack (by decide) rfl (by simp [pick, hk]) rfl h
theorem pmerge (f : Fields) : Statement (.pmerge f) := fun h =>
  have hk : f.x.toNat = 1 := x_of_reject (rejects h rfl) rfl rfl rfl
  decode_pack (by decide) rfl (by simp [pick, hk]) rfl h
theorem genbump (f : Fields) : Statement (.genbump f) := fun h => decode_pack (by decide) rfl rfl rfl h
theorem cast (f : Fields) : Statement (.cast f) := fun h => decode_pack (by decide) rfl rfl rfl h
theorem step (f : Fields) : Statement (.step f) := fun h => decode_pack (by decide) rfl rfl rfl h
theorem tlbinv (f : Fields) : Statement (.tlbinv f) := fun h => decode_pack (by decide) rfl rfl rfl h
theorem cohere (f : Fields) : Statement (.cohere f) := fun h => decode_pack (by decide) rfl rfl rfl h
theorem exit (f : Fields) : Statement (.exit f) := fun h =>
  have hm : f.m.toNat = 0 := m_of_reject (rejects h rfl) rfl (Or.inl rfl)
  have hx : f.x = 0 := BitVec.eq_of_toNat_eq (x_of_reject (rejects h rfl) rfl rfl rfl)
  decode_pack (by decide) rfl (by simp [hx, pick, hm]) rfl h
theorem exitChild (f : Fields) : Statement (.exitChild f) := fun h =>
  have hm : f.m.toNat = 1 := m_of_reject (rejects h rfl) rfl (Or.inl rfl)
  have hx : f.x = 0 := BitVec.eq_of_toNat_eq (x_of_reject (rejects h rfl) rfl rfl rfl)
  decode_pack (by decide) rfl (by simp [hx, pick, hm]) rfl h
theorem yield (f : Fields) : Statement (.yield f) := fun h =>
  have hx : f.x = 1 := BitVec.eq_of_toNat_eq (x_of_reject (rejects h rfl) rfl rfl rfl)
  decode_pack (by decide) rfl (by simp [hx]) rfl h
theorem barrelRefill (core pos : Nat) : Statement (.barrelRefill core pos) := event rfl
theorem quantumEnd (core pos : Nat) : Statement (.quantumEnd core pos) := event rfl
theorem itemDispatch (lrec : Nat) : Statement (.itemDispatch lrec) := event rfl
theorem spillReload (uid : Nat) : Statement (.spillReload uid) := event rfl
theorem continuationPickup (core : Nat) : Statement (.continuationPickup core) := event rfl
theorem migrationArrival (core : Nat) : Statement (.migrationArrival core) := event rfl
theorem memoryReply (uid : Nat) : Statement (.memoryReply uid) := event rfl
theorem syncRetry (uid : Nat) : Statement (.syncRetry uid) := event rfl
theorem launchAdmission (lrec : Nat) : Statement (.launchAdmission lrec) := event rfl
theorem launchAging (lrec : Nat) : Statement (.launchAging lrec) := event rfl
theorem launchCompletion (lrec : Nat) : Statement (.launchCompletion lrec) := event rfl
theorem stealProbe (core lrec : Nat) : Statement (.stealProbe core lrec) := event rfl
theorem armtDeferredPush (board entry : Nat) : Statement (.armtDeferredPush board entry) := event rfl
theorem tempoDelivery (lrec item d j : Nat) : Statement (.tempoDelivery lrec item d j) := event rfl
theorem breakIndexRecord (core lrec : Nat) : Statement (.breakIndexRecord core lrec) := event rfl
theorem matrixCommandRun (core : Nat) : Statement (.matrixCommandRun core) := event rfl
theorem gangBarrier (core : Nat) : Statement (.gangBarrier core) := event rfl
theorem ksplitSumArrival (core : Nat) : Statement (.ksplitSumArrival core) := event rfl
theorem tileCommandRun (core : Nat) : Statement (.tileCommandRun core) := event rfl
theorem mstRun (core : Nat) : Statement (.mstRun core) := event rfl
theorem copyCommandRun (core : Nat) : Statement (.copyCommandRun core) := event rfl
theorem cpyrRun (core : Nat) : Statement (.cpyrRun core) := event rfl
theorem cpyrowRun (core : Nat) : Statement (.cpyrowRun core) := event rfl
theorem cbookRun (core : Nat) : Statement (.cbookRun core) := event rfl
theorem homeGets (line core : Nat) : Statement (.homeGets line core) := event rfl
theorem homeGetm (line core : Nat) : Statement (.homeGetm line core) := event rfl
theorem homeUpgrade (line core : Nat) : Statement (.homeUpgrade line core) := event rfl
theorem homePuts (line core : Nat) : Statement (.homePuts line core) := event rfl
theorem homePutOwner (line core : Nat) : Statement (.homePutOwner line core) := event rfl
theorem coreInv (line core : Nat) : Statement (.coreInv line core) := event rfl
theorem coreFwdGets (line core : Nat) : Statement (.coreFwdGets line core) := event rfl
theorem coreFwdGetm (line core : Nat) : Statement (.coreFwdGetm line core) := event rfl
theorem corePutack (line core : Nat) : Statement (.corePutack line core) := event rfl
theorem requesterResponse (line core : Nat) : Statement (.requesterResponse line core) := event rfl
theorem routerProbeDrop (line core : Nat) : Statement (.routerProbeDrop line core) := event rfl
theorem hostSnoop (line : Nat) : Statement (.hostSnoop line) := event rfl
theorem hostSnoopInvalidate (line : Nat) : Statement (.hostSnoopInvalidate line) := event rfl
theorem backInvalidateResponse (line : Nat) : Statement (.backInvalidateResponse line) := event rfl
theorem hostOwnershipRequest (line : Nat) : Statement (.hostOwnershipRequest line) := event rfl
theorem leaseExpiry (line : Nat) : Statement (.leaseExpiry line) := event rfl
theorem wrapPause : Statement (.wrapPause) := event rfl
theorem leaseSyncSend (job : Nat) : Statement (.leaseSyncSend job) := event rfl
theorem fabricLeaseSync (p : Packet) : Statement (.fabricLeaseSync p) := event rfl
theorem fabricPauseControl (p : Packet) : Statement (.fabricPauseControl p) := event rfl
theorem tokenRefill : Statement (.tokenRefill) := event rfl
theorem putnDelivery (core dir : Nat) : Statement (.putnDelivery core dir) := event rfl
theorem stop : Statement (.stop) := event rfl
theorem resume : Statement (.resume) := event rfl
theorem switch : Statement (.switch) := event rfl
theorem prefetch : Statement (.prefetch) := event rfl
theorem clockStopAtT : Statement (.clockStopAtT) := event rfl
theorem sweepToken (core : Nat) : Statement (.sweepToken core) := event rfl
theorem unitMove : Statement (.unitMove) := event rfl
theorem scrubWalkEnd (leaf : Nat) : Statement (.scrubWalkEnd leaf) := event rfl
theorem create (slot : Nat) : Statement (.create slot) := event rfl
theorem destroy (slot : Nat) : Statement (.destroy slot) := event rfl
theorem quota (slot : Nat) : Statement (.quota slot) := event rfl
theorem inval (slot : Nat) : Statement (.inval slot) := event rfl
theorem hdmDecoderCommit (n hpa base size : Nat) : Statement (.hdmDecoderCommit n hpa base size) := event rfl
theorem hostMemRead (addr len : Nat) : Statement (.hostMemRead addr len) := event rfl
theorem hostMemWrite (addr : Nat) (bytes : List (Option (BitVec 8))) : Statement (.hostMemWrite addr bytes) := event rfl
theorem fabricLdx (p : Packet) : Statement (.fabricLdx p) := event rfl
theorem fabricStx (p : Packet) : Statement (.fabricStx p) := event rfl
theorem fabricRemoteAtomic (p : Packet) : Statement (.fabricRemoteAtomic p) := event rfl
theorem fabricMsgMailbox (p : Packet) : Statement (.fabricMsgMailbox p) := event rfl
theorem fabricMsgTag (p : Packet) : Statement (.fabricMsgTag p) := event rfl
theorem fabricDataResponse (p : Packet) : Statement (.fabricDataResponse p) := event rfl
theorem fabricAck (p : Packet) : Statement (.fabricAck p) := event rfl
theorem fabricFailure (p : Packet) : Statement (.fabricFailure p) := event rfl
theorem streamResend (p : Packet) : Statement (.streamResend p) := event rfl
theorem streamRecordFree (src strand epoch : Nat) : Statement (.streamRecordFree src strand epoch) := event rfl
theorem unexpectedPacketTimeout (board : Nat) : Statement (.unexpectedPacketTimeout board) := event rfl
theorem flitCrcFail (port : Nat) : Statement (.flitCrcFail port) := event rfl
theorem replayRequest (port refused : Nat) : Statement (.replayRequest port refused) := event rfl
theorem laneFailure (port lane : Nat) : Statement (.laneFailure port lane) := event rfl
theorem linkSilenceEnd (port : Nat) : Statement (.linkSilenceEnd port) := event rfl
theorem portWreqX4 (port : Nat) : Statement (.portWreqX4 port) := event rfl
theorem portWreqX8 (port : Nat) : Statement (.portWreqX8 port) := event rfl
theorem portWreqRetrain (port : Nat) : Statement (.portWreqRetrain port) := event rfl
theorem portEnWrite (port : Nat) (on : Bool) : Statement (.portEnWrite port on) := event rfl
theorem tierLinkDown (link : Nat) : Statement (.tierLinkDown link) := event rfl
theorem d2dLaneFailure (board link : Nat) : Statement (.d2dLaneFailure board link) := event rfl
theorem powerUp (t : SelfTest) : Statement (.powerUp t) := event rfl
theorem bgo (value : BitVec 64) : Statement (.bgo value) := event rfl
theorem bootImageLoad : Statement (.bootImageLoad) := event rfl
theorem bootBlock (core block : Nat) : Statement (.bootBlock core block) := event rfl
theorem csel (value : BitVec 64) : Statement (.csel value) := event rfl
theorem ifreqWrite (island : Nat) (value : BitVec 64) : Statement (.ifreqWrite island value) := event rfl
theorem freqTransition (island : Nat) : Statement (.freqTransition island) := event rfl
theorem throttleUpdate (power inlet : Nat) : Statement (.throttleUpdate power inlet) := event rfl
theorem wearUpdate (island : Nat) (w : WearReading) : Statement (.wearUpdate island w) := event rfl
theorem bar0UnsupportedAccess (offset size : Nat) (write : Bool) : Statement (.bar0UnsupportedAccess offset size write) := event rfl
theorem pldmRequest (ty handle : Nat) : Statement (.pldmRequest ty handle) := event rfl
theorem spdmRequest (index : Nat) : Statement (.spdmRequest index) := event rfl
theorem registerWrite (reg : PlainReg) (value : BitVec 64) : Statement (.registerWrite reg value) := event rfl
theorem leaseClockPassesVismax (uid : Nat) : Statement (.leaseClockPassesVismax uid) := event rfl
theorem neighbourStalemate (port : Nat) : Statement (.neighbourStalemate port) := event rfl
theorem jobEntryWrite (i : Nat) (value : BitVec 64) : Statement (.jobEntryWrite i value) := event rfl
theorem uncorrectableError (addr : Nat) : Statement (.uncorrectableError addr) := event rfl

end Sys2Proof.Laws.RoundTrip
end

