-- ==== Sys2Proof/Safety.lean ====
section
/-!
DEFINITION. The terms of the claims: when an instruction issues outside a region, which operands are ready, and what an
instruction that has had its effect leaves behind.
-/

namespace Sys2Proof.Machine

/-- Strand `u`, which holds `st`, issues an instruction with these fields outside a decoupled region, and its guard is true
(01 R26, 06 R150). -/
structure Issues (s : State) (u : Nat) (st : Strand) (f : Fields) : Prop where
  issuer : s.cur = some u
  strand : s.strand? u = some st
  outside : st.region = none
  guard : Guard.eval f.guard st.lane0 = true

/-- A stream of the region `g` of strand `u` issues an instruction, and its guard is true: the access stream reads the predicate word
as it stood at DSPLIT (12 R268, R269). -/
structure InRegion (s : State) (u : Nat) (st : Strand) (g : Region) (access : Bool) (f : Fields) : Prop where
  issuer : s.cur = some u
  strand : s.strand? u = some st
  inside : st.region = some g
  stream : s.stream = if access then .access else .execute
  guard : Guard.eval f.guard (if access then fun p => p == 0 || g.pw.getLsbD p else st.lane0) = true

/-- A change of the strand's region. -/
def Strand.inRegion (st : Strand) (e : Region → Region) : Strand := { st with region := st.region.map e }

/-- A stream of a region goes on behind the instruction, whose queue operands leave their queues (12 R270). -/
def Strand.past (st : Strand) (access : Bool) (f : Fields) : Strand :=
  let q : Strand := { popQueues st with ma := false }
  if access then q.inRegion fun g => { g with seqPc := g.seqPc + lenWord f, queued := none }
  else { q with pc := q.pc + lenWord f, queued := none }

/-- The turn that a register of a slow partition costs the strand (01 R18, R27). -/
def Strand.slowed (st : Strand) (b : Bool) : Strand := if b then { st with skip := 1 } else st

def State.slowed (s : State) (u : Nat) (st : Strand) (b : Bool) : State := if b then s.setStrand u (st.slowed b) else s

/-- The pc moves, and no request of the strand stands in an order of arrival any more. -/
def Strand.goes (st : Strand) (pc : Word) : Strand := { st with pc := pc, queued := none }

/-- What an instruction that falls through leaves of its strand beside its results. -/
def Strand.done (st : Strand) (f : Fields) : Strand := { st.goes (st.pc + lenWord f) with ma := false }

/-- An x register takes a value and is full. -/
def Strand.gives (st : Strand) (r : Nat) (v : Word) : Strand :=
  { st with x := st.x.setIfInBounds r v, xFull := st.xFull ||| (1 <<< r) }

/-- A write of a shared core register, pending for its seven cycles (01 R30). -/
def Core.posts (k : Core) (r : Nat) (v : Word) : Core :=
  { k.settle with cwrites := k.settle.cwrites ++ [(k.settle.cyc, r, v)] }

/-- D of a scalar instruction takes a value, an x register or a shared core register (07 R165), and the strand is behind the
instruction. -/
def State.takesD (s : State) (u : Nat) (st : Strand) (f : Fields) (v : Word) : State :=
  if f.x.getLsbD 0 then
    (s.editCore st.core (·.posts f.d.toNat v)).setStrand u (st.done f)
  else s.setStrand u ((st.gives f.d.toNat v).done f)

/-- The sources A and B of a scalar instruction are ready and read (07 R163, R165, 06 R152). -/
def Sources (f : Fields) (s : State) (a b : Word) (t : State) : Prop :=
  ∃ r, srcA f s = (.ok a, r) ∧ srcB f r = (.ok b, t)

/-- An engine without the translations that its micro-TLB holds. -/
def Engine.bare (g : Engine) : Engine := { g with tlb := [] }

/-- A core without its caches and the requests about their lines. -/
def Core.bare (k : Core) : Core :=
  { k with mx := k.mx.bare, ce := k.ce.bare, l1 := [], icache := [], ccache := [], tlb := [], itlb := [], mshr := [], acks := 0,
           fills := [] }

/-- A partition without the counter of the probes that its edge drops. -/
def Leaf.bare (l : Leaf) : Leaf := { l with probes := 0 }

/-- The state without memory, cores and partitions, and without the account that homes and boards keep of lines and translations. -/
def State.bare (s : State) : State :=
  { s with mem := [], cores := [], leaves := [], dirs := [], agents := [], msgs := [], stamps := [], predictor := [], boardTlb := [],
           homes := Homes.fresh, backInv := [], answers := [] }

/-- An address of a table entry whose bits A and D a translation may set: of the leaf to which a walk of a context comes, or of one from which
a translation is cached (04 R92, R94). -/
def State.TableEntry (s : State) (a : Nat) : Prop :=
  (∃ c, ∃ e ∈ (s.core c).entries ++ s.boardList c, entryAt e.at_ = a) ∨
  ∃ n c va e bits, s.ctx? n = some c ∧ s.walk c.root.toNat va = .leaf e a bits

/-- Bytes of memory that A or D of a table entry has been set in, D bit 7 of its first byte, A bit 0 of its second (04 R91, R94). -/
def State.MarkedByte (s : State) (a : Nat) (old new : BitVec 8) : Prop :=
  new = old ∨ (s.TableEntry a ∧ new = old ||| 0x80) ∨ ∃ e, a = e + 1 ∧ s.TableEntry e ∧ new = old ||| 0x01

/-- WHAT THE MEMORY SYSTEM DOES OF ITS OWN while an access is served: caches and translations, directories, home agents and slices, the
messages about lines, snoops of the host, the stamps of writers, the predictor and the counters of dropped probes may change
(04 R94, R106, R110, 05 R123 to R128, R135, 10 R226, 22 R364), and of memory the bits A and D of table entries that a walk of the state before
reaches or a cache of it holds. Nothing else does. -/
structure Traffic (s t : State) : Prop where
  rest : t.bare = s.bare
  cores : ∀ c, (t.core c).bare = (s.core c).bare
  leaves : t.leaves.map Leaf.bare = s.leaves.map Leaf.bare
  mem : Memory.wf s.mem = true →
    Memory.wf t.mem = true ∧ (∀ a, t.TableEntry a → s.TableEntry a) ∧ ∀ a, s.MarkedByte a (Memory.get s.mem a) (Memory.get t.mem a)

/-- Operands change the strand by a slow turn, and what the memory system changes of its own. -/
def Quiet (s : State) (u : Nat) (st : Strand) (t : State) : Prop := ∃ k, Traffic (s.slowed u st k) t

/-- The strand waits for the reply of its memory operation (05 R116). -/
def State.replies (s : State) (u : Nat) : State := s.leave u .parked .reply 2

/-- The stream that issues, by its number (12 R268). -/
def State.issuerNo (s : State) : Nat :=
  streamNo (s.cur.getD 0) (s.stream == .access && ((s.cur.bind s.strand?).bind (·.region)).isSome)

/-- An address is one that a transfer may go to, and reading its start bit leaves a state (07 R176). -/
def IsCode (s : State) (st : Strand) (target : Word) (t : State) : Prop :=
  targetProblem target = none ∧ ∃ b, s.startBit st.core st.ctx st.lrec s.issuerNo target = (.ok b, t) ∧ b ≠ some false

/-- The strand holds a vector context that is bound (01 R19). -/
def Strand.bound (st : Strand) : Prop := ∃ v, st.vec = some v ∧ v.spilled = false

/-- The strand holds no vector context that it would have to reload (01 R31). -/
def Strand.atHand (st : Strand) : Prop := ∀ v, st.vec = some v → v.spilled = false

/-- Every source has the format that the instruction asks of it (03 R66). -/
def TagsFit (l : List (VSrc × Nat)) : Prop := ∀ e ∈ l, e.1.tag = none ∨ e.1.tag = some (BitVec.ofNat 4 e.2)

/-- Steps 4 to 6 of 08 R184: active elements of D take their results, the others keep D's bits, D has its tag, and FCR takes the
flags of the active elements and of a scalar's conversion. -/
def Strand.delivers (st : Strand) (f : Fields) (w : Nat) (tag : BitVec 4) (old : List Nat) (res : List (Nat × Flags))
    (scalar : Flags) : Strand :=
  let act := activeList w (st.predBits f.m.toNat)
  let st' := st.setV f.d.toNat (ofElems w (choose act (res.map (·.1)) old)) tag
  { st' with fcr := st.fcr ||| (gather act res ||| (if act.any id then scalar else 0)).zeroExtend 64 }

/-- Two stands of one strand that differ in its watches and in what it waits for alone. -/
def Strand.SameButWait (a b : Strand) : Prop :=
  b = { a with watch := b.watch, state := b.state, await := b.await, woken := b.woken, since := b.since, queued := b.queued }

/-- As above, with no turn left to skip: a strand that has left the barrel (01 R21, R27). -/
def Strand.Rests (a b : Strand) : Prop := Strand.SameButWait { a with skip := 0, long := 0, issues := 0 } b

/-- One operation leaves at the router, the next of the strand's stream to its module, and is kept until its response (24 R407, R411). -/
def State.sends (s : State) (u : Nat) (st : Strand) (f : Fields) (ty : Nat) (p : Packet) : State :=
  { s.setStrand u { st with streamSeq := Sparse.put st.streamSeq p.dst ((p.seq + 1) % 65536) } with
    outbox := s.outbox ++ [(ty, p)]
    sent := s.sent ++ [{ ty := ty, packet := p, uid := u, dest := f.d.toNat, len := lenOf f, access := false, dropped := false }] }

/-- The strand goes on behind the instruction (06 R144). -/
def State.behind (s : State) (u : Nat) (f : Fields) : State := s.editStrand u (·.done f)

/-- The strand's x register takes a result, and it goes on behind the instruction. -/
def State.giving (s : State) (u : Nat) (f : Fields) (r : Nat) (v : Word) : State :=
  s.editStrand u fun st => (st.gives r v).done f

/-- A command enters the queue of its engine of a core with the next numbers of the commits (11 R240), and the engine changes as
said. -/
def State.commits (s : State) (core : Nat) (c : Command) (g : Engine → Engine) : State :=
  { s.editEngine core c.kind.engine fun q => g { q with queue := q.queue ++ [{ c with order := s.order, drainNo := s.order }] } with
    order := s.order + 1 }

/-- A shadow commit: the ticket's number goes on, and the set is free, last read by strand `u` (11 R241, R242). -/
def Engine.ticketed (u : Nat) (g : Engine) : Engine := { g with seqNo := g.seqNo + 1, claim := none, last := some u }

/-- The ticket that the next commit of an engine takes (11 R242). -/
def Engine.ticket (g : Engine) (e : Nat) : Nat := e * 32768 + g.seqNo.toNat

/-- The strand's x register takes a result, its phase goes on (05 R135), and it is behind the instruction. -/
def State.givingRelease (s : State) (u : Nat) (f : Fields) (r : Nat) (v : Word) : State :=
  s.editStrand u fun q => { q.gives r v with phase := q.phase + 1 }.done f

/-- A command of a kind stands at the head of its engine's queue, neither held nor of a stopped context, its engine waits for nothing, and no
command of the queue is ending (11 R246, R249, 02 R63). -/
def State.atHead (s : State) (core : Nat) (c : Command) (k : CmdKind) : Prop :=
  s.headOf core k.engine [k] = some c ∧ (s.engine core k.engine).queue.all (·.ending.isNone) = true

/-- Between two steps nobody issues, and no sequencer does (the model's own `cur` and `stream`, DESIGN CHOICE, log entry 1): an
instruction and what it brings about are one step. -/
def State.AtRest (s : State) : Prop := s.cur = none ∧ s.stream = .execute

/-! ### Rounding (03 R76 to R79) -/

/-- A finite pattern of a format (03 R67). -/
def FpFinite (code n : Nat) : Prop := n < 2 ^ (ffmt code).w ∧ n % 2 ^ ((ffmt code).w - 1) ≤ fpLargest code

/-- The value of a finite pattern, in units of the format's smallest subnormal. -/
def fpUnits (code n : Nat) : Int :=
  let t := ffmt code
  let e := n / 2 ^ t.m % 2 ^ (t.w - 1 - t.m)
  let mag : Nat := if e = 0 then n % 2 ^ t.m else (2 ^ t.m + n % 2 ^ t.m) * 2 ^ (e - 1)
  if n.testBit (t.w - 1) then -(mag : Int) else mag

/-- The exact value `x`, of which `unit` is the smallest subnormal, rounds to a finite pattern: in RNE none is nearer, and of two as near
it is the even one; in the directed modes it is the first in the mode's direction. A zero has the sign of the exact value (03 R76). -/
def RoundsTo (code : Nat) (rm : Rm) (unit : Nat) (x : Int) (z : Nat) : Prop :=
  let v (n : Nat) : Int := fpUnits code n * unit
  FpFinite code z ∧ z.testBit ((ffmt code).w - 1) = decide (x < 0) ∧
  ∀ w, FpFinite code w →
    match rm with
    | .rne => (v z - x).natAbs ≤ (v w - x).natAbs ∧ ((v z - x).natAbs = (v w - x).natAbs → v w ≠ v z → z % 2 = 0)
    | .rtz => (v z).natAbs ≤ x.natAbs ∧ ((v w).natAbs ≤ x.natAbs → 0 ≤ v w * x → (v w).natAbs ≤ (v z).natAbs)
    | .rdn => v z ≤ x ∧ (v w ≤ x → v w ≤ v z)
    | .rup => x ≤ v z ∧ (x ≤ v w → v z ≤ v w)

/-- What an exact value that is not zero delivers, bits and flags, without flushing: its rounding, or an overflow by its table; NX where the
result differs from it, UF beside where it is tiny (03 R76, R77, R79). -/
def FpDelivers (code : Nat) (env : FpEnv) (unit : Nat) (x : Int) (r : Nat × Flags) : Prop :=
  let t := ffmt code
  let neg := decide (x < 0)
  let top : Nat := (fpUnits code (fpLargest code)).natAbs * unit
  let half : Nat := 2 ^ (fpLargest code / 2 ^ t.m - 2) * unit
  let toZero : Prop := env.rm = .rtz ∨ env.rm = .rdn ∧ 0 < x ∨ env.rm = .rup ∧ x < 0
  let largest := fpSign code neg + fpLargest code
  let narrow : Prop := code ≠ 1 ∧ code ≠ 2
  let exceeds (r : Nat × Flags) : Prop := r.2 = 0b00101 ∧
    (env.sat = true → narrow → r.1 = largest) ∧
    (env.sat = false ∨ ¬ narrow → r.1 = if code = 5 then fpNan code neg else fpSign code neg + (fpLargest code + 1))
  (x.natAbs ≤ top → RoundsTo code env.rm unit x r.1 ∧ (r.2.getLsbD 0 = true ↔ fpUnits code r.1 * unit ≠ x) ∧
    (2 ^ t.m * unit ≤ x.natAbs → r.2.getLsbD 1 = false) ∧ (2 * x.natAbs ≤ (2 ^ (t.m + 1) - 1) * unit → r.2.getLsbD 1 = r.2.getLsbD 0) ∧
    r.2.getLsbD 2 = false ∧ r.2.getLsbD 3 = false ∧ r.2.getLsbD 4 = false) ∧
  (top < x.natAbs →
    (toZero → r.1 = largest ∧ r.2.getLsbD 0 = true) ∧
    (env.rm = .rne → (x.natAbs < top + half ∨ code = 5 ∧ x.natAbs = top + half) → r = (largest, 0b00001)) ∧
    (env.rm = .rne → (top + half < x.natAbs ∨ code ≠ 5 ∧ x.natAbs = top + half) → exceeds r) ∧
    (¬ toZero → env.rm ≠ .rne → exceeds r))

end Sys2Proof.Machine
end

