-- ==== Sys2Proof/Certificates/Slice0/Obligations.lean ====
section
/-!
DEFINITION. The statements about the machine. A hypothesis that an operation answers a value and a state asks that its operands are
ready and its checks pass; the conclusion is the next state, so that what it does not change is as before. Regions, waits and traps have
statements of their own.
-/

open Sys2Proof Sys2Proof.Machine

/-! ### Operands and guards -/

/-- 06 R150: an instruction whose guard is false, outside a region, moves the pc past itself and changes nothing else. Every instruction
of the table's first 237 rows is named. -/
def Obligations.FalseGuardOnlyMovesPc : Prop :=
  ∀ (s : State) (u : Nat) (st : Strand) (i : Instr) (f : Fields), (i.entry.map (·.2.2)) = some f → s.cur = some u → s.strand? u = some st →
    st.region = none → Guard.eval f.guard st.lane0 = false →
    exec i s = .next (s.setStrand u (st.goes (st.pc + BitVec.ofNat 64 (lenOf f))))

/-- 06 R152 to R154, 07 R165: what the sources of a scalar instruction read, each kind where it is ready. A register of the slow partition
costs a turn (01 R27), and nothing else changes; for a constant, what the memory system does of its own may. 12 R279, R285: a source or a
lane with a distance is the entry of the tempo buffer for the export of that register; past the recorded break the reader ends. 01 R21, 07
R163: a scalar instruction whose register A is empty parks its strand at the instruction, which waits for that register or entry; the
register file is unchanged. A distance without an export, beyond the launch's largest, or of a strand that is no item traps ILLEGAL_FORM.
-/
def Obligations.ScalarOperands : Prop :=
  (∀ (s : State) (u : Nat) (st : Strand) (f : Fields), Issues s u st f →
     (∀ r, st.xFull.getLsbD r = true → readX r s = (.ok ((st.x[r]?).getD 0), s.slowed u st (decide (48 ≤ r)))) ∧
     (f.ta = 0 → f.x.getLsbD 1 = false → srcA f s = readX f.a.toNat s) ∧
     (f.ta = 0 → f.x.getLsbD 1 = true → srcA f s = (.ok ((s.core st.core).cValue f.a.toNat), s)) ∧
     (∀ l, f.form = .baseLit l → srcB f s = (.ok (l.signExtend 64), s)) ∧
     (∀ l, f.form = .extLit l → srcB f s = (.ok l, s)) ∧
     (f.form = .ext → f.bk = 1 → srcB f s = (.ok (f.imm20.signExtend 64), s)) ∧
     (f.form = .ext → 2 ≤ f.bk.toNat → srcB f s = constant (f.imm20.toNat % 256) s) ∧
     (f.form = .base ∨ f.form = .ext ∧ f.bk = 0 → f.tb = 0 →
       srcB f s = if f.x.getLsbD 2 then (.ok ((s.core st.core).cValue f.b.toNat), s) else readX f.b.toNat s) ∧
     (f.form = .base → operandI f s = (.ok ((f.b ++ f.m).signExtend 64), s)) ∧
     ∀ a b t, Sources f s a b t → Quiet s u st t) ∧
  (∀ (s : State) (u : Nat) (st : Strand) (f : Fields) (l : Launch) (isV : Bool), Issues s u st f → s.launch? st.lrec = some l → f.ta ≠ 0 →
     let reads (e : Export) : Prop := e.isV = isV ∧ e.reg = f.a.toNat
     (∀ j e, st.isItem = true → f.ta.toNat ≤ l.maxd → l.exports[j]? = some e → reads e → (∀ i < j, ∀ e', l.exports[i]? = some e' → ¬ reads e') →
       (s.broken st = false → ∀ v, Sparse.get st.fwd (4 * f.ta.toNat + j) = some v →
         (isV = false → srcA f s = (.ok (v.bits.truncate 64), s)) ∧ (isV = true → operandV f.a f.ta s = (.ok (v.bits, v.tag), s))) ∧
       (s.broken st = false → Sparse.get st.fwd (4 * f.ta.toNat + j) = none → isV = false →
         exec (.add f) s = .next (s.leave u .parked (.forward f.ta.toNat j) 5)) ∧
       (s.broken st = true → isV = false → exec (.add f) s = .next (s.endStrand u 13))) ∧
     (st.isItem = false ∨ l.maxd < f.ta.toNat ∨ (∀ e ∈ l.exports, ¬ reads e) → isV = false → ∃ x y,
       exec (.add f) s = .next (({ s with free := s.free + 2 } : State).takeTrap u Cause.illegalForm x st.pc y))) ∧
  (∀ (s : State) (u : Nat) (st : Strand) (f : Fields), Issues s u st f → f.ta = 0 → f.x.getLsbD 1 = false →
     st.xFull.getLsbD f.a.toNat = false →
     ∃ t st', exec (.add f) s = .next t ∧ exec (.clz f) s = .next t ∧ t.strand? u = some st' ∧ st'.state = .parked ∧
       st'.await = .fullX f.a.toNat ∧ st'.pc = st.pc ∧ st'.x = st.x ∧ st'.xFull = st.xFull ∧ st'.pw = st.pw ∧ t.mem = s.mem)

/-! ### Scalar instructions -/

/-- 07 R163, R166, R167: the results of the two-source integer instructions, on any sources that are ready. D takes the result, the pc
moves behind the instruction, and no other register, flag or memory location changes. 07 R166: the one-source instructions: leading and
trailing zeros, ones, the bits and the bytes reversed. 07 R166, R171: the immediate forms, whose second source is the signed immediate or,
in the extended forms, B; and LI, LIH and LIT, of which LIH keeps the low half of D and LIT adds four times the operand to the pc. 07
R166, R170, 28 R453: SEL chooses by lane 0 of p(M), LEA adds its scaled source and offset, NOP does nothing. -/
def Obligations.ScalarResults : Prop :=
  (∀ (s t : State) (u : Nat) (st : Strand) (f : Fields) (a b : Word), Issues s u st f → Sources f s a b t →
     ∃ k, t.strand? u = some (st.slowed k) ∧
       let ends (v : Word) : Result := .next (t.takesD u (st.slowed k) f v)
       let sized (v : Word) (w : BitVec 32) : Result := ends (if f.m = 1 then w.signExtend 64 else v)
       let a32 : BitVec 32 := a.truncate 32
       let b32 : BitVec 32 := b.truncate 32
       exec (.add f) s = sized (a + b) (a32 + b32) ∧ exec (.sub f) s = sized (a - b) (a32 - b32) ∧
       exec (.mul f) s = sized (a * b) (a32 * b32) ∧
       exec (.shl f) s = sized (a <<< (b.toNat % 64)) (a32 <<< (b.toNat % 32)) ∧
       exec (.shr f) s = sized (a >>> (b.toNat % 64)) (a32 >>> (b.toNat % 32)) ∧
       exec (.sra f) s = sized (a.sshiftRight (b.toNat % 64)) (a32.sshiftRight (b.toNat % 32)) ∧
       exec (.rotl f) s = sized (a.rotateLeft (b.toNat % 64)) (a32.rotateLeft (b.toNat % 32)) ∧
       exec (.mulh f) s = ends (BitVec.ofInt 64 (a.toInt * b.toInt / 2 ^ 64)) ∧
       exec (.mulhu f) s = ends (BitVec.ofNat 64 (a.toNat * b.toNat / 2 ^ 64)) ∧
       exec (.and f) s = ends (a &&& b) ∧ exec (.or f) s = ends (a ||| b) ∧ exec (.xor f) s = ends (a ^^^ b) ∧
       exec (.andn f) s = ends (a &&& ~~~b) ∧
       exec (.min f) s = ends (if b.toInt < a.toInt then b else a) ∧ exec (.max f) s = ends (if a.toInt < b.toInt then b else a) ∧
       exec (.minu f) s = ends (if b.toNat < a.toNat then b else a) ∧
       exec (.maxu f) s = ends (if a.toNat < b.toNat then b else a)) ∧
  (∀ (s t : State) (u : Nat) (st : Strand) (f : Fields) (a : Word), Issues s u st f → srcA f s = (.ok a, t) →
     ∃ k, t.strand? u = some (st.slowed k) ∧ ∃ c z p r w : Word,
       let ends (v : Word) : Result := .next (t.takesD u (st.slowed k) f v)
       exec (.clz f) s = ends c ∧ (if a = 0 then c = 64 else c.toNat < 64 ∧ a.toNat / 2 ^ (63 - c.toNat) = 1) ∧
       exec (.ctz f) s = ends z ∧
       (if a = 0 then z = 64 else a.getLsbD z.toNat = true ∧ ∀ i < z.toNat, a.getLsbD i = false) ∧
       exec (.popc f) s = ends p ∧ p.toNat = ((List.range 64).filter fun i => a.getLsbD i).length ∧
       exec (.brev f) s = ends r ∧ (∀ i < 64, r.getLsbD i = a.getLsbD (63 - i)) ∧
       exec (.bswap f) s = ends w ∧ ∀ i < 8, w.extractLsb' (8 * i) 8 = a.extractLsb' (56 - 8 * i) 8) ∧
  (∀ (s r t : State) (u : Nat) (st : Strand) (f : Fields), Issues s u st f →
     (∀ a b, srcA f s = (.ok a, r) → operandI f r = (.ok b, t) → ∃ k, t.strand? u = some (st.slowed k) ∧
       let ends (v : Word) : Result := .next (t.takesD u (st.slowed k) f v)
       exec (.addi f) s = ends (a + b) ∧ exec (.andi f) s = ends (a &&& b) ∧ exec (.ori f) s = ends (a ||| b) ∧
       exec (.xori f) s = ends (a ^^^ b)) ∧
     (∀ v, operandI f s = (.ok v, t) → ∃ k, t.strand? u = some (st.slowed k) ∧
       exec (.li f) s = .next (t.takesD u (st.slowed k) f v) ∧
       exec (.lit f) s = .next (t.takesD u (st.slowed k) f (st.pc + v * 4))) ∧
     (∀ v d, operandI f s = (.ok v, r) → oldD f r = (.ok d, t) → ∃ k w, t.strand? u = some (st.slowed k) ∧
       exec (.lih f) s = .next (t.takesD u (st.slowed k) f w) ∧
       w.extractLsb' 32 32 = v.extractLsb' 0 32 ∧ w.extractLsb' 0 32 = d.extractLsb' 0 32)) ∧
  (∀ (s t : State) (u : Nat) (st : Strand) (f : Fields) (a b : Word), Issues s u st f →
     exec (.nop f) s = .next (s.setStrand u (st.done f)) ∧
     (Sources f s a b t → ∃ k, t.strand? u = some (st.slowed k) ∧
       exec (.sel f) s = .next (t.takesD u (st.slowed k) f (if st.lane0 f.m.toNat then a else b)) ∧
       exec (.lea f) s = .next (t.takesD u (st.slowed k) f
         (a + (b <<< (f.m.toNat % 4)) + if f.form = .ext ∧ f.bk = 0 then f.imm20.signExtend 64 else 0))))

/-- 07 R168: quotients rounded toward zero and the remainders that go with them; the strand skips two turns (01 R27). A zero divisor traps
ARITH at the instruction, with D not written. 07 R168, the boundary case: the most negative value divided by −1 gives itself, and the
remainder is 0. 07 R169: EXTB takes a field out and extends it, INSB puts one in; both clip it at bit 63. 07 R172, R173: a comparison writes
lane 0 of pD by its condition, and changes no register, no other predicate and no memory. 01 R19: what a write of lane 0 leaves: lane 0 of
the predicate reads the value, every other predicate as before; a write to p0 is discarded (06 R146). -/
def Obligations.DivisionFieldsAndComparisons : Prop :=
  (∀ (s t : State) (u : Nat) (st : Strand) (f : Fields) (a b : Word), Issues s u st f → Sources f s a b t →
     ∃ k, t.strand? u = some (st.slowed k) ∧
       (b ≠ 0 →
         let ends (v : Word) : Result := .next (t.takesD u { st.slowed k with long := st.long + 2 } f v)
         exec (.div f) s = ends (BitVec.ofInt 64 (a.toInt.tdiv b.toInt)) ∧
         exec (.rem f) s = ends (BitVec.ofInt 64 (a.toInt - (a.toInt.tdiv b.toInt) * b.toInt)) ∧
         exec (.divu f) s = ends (BitVec.ofNat 64 (a.toNat / b.toNat)) ∧
         exec (.remu f) s = ends (BitVec.ofNat 64 (a.toNat - a.toNat / b.toNat * b.toNat))) ∧
       (b = 0 → ∃ extra addr,
         let traps : Result := .next (({ t with free := t.free + 2 } : State).takeTrap u Cause.arith extra st.pc addr)
         exec (.div f) s = traps ∧ exec (.rem f) s = traps ∧ exec (.divu f) s = traps ∧ exec (.remu f) s = traps)) ∧
  (∀ (s t : State) (u : Nat) (st : Strand) (f : Fields), Issues s u st f →
     Sources f s 0x8000000000000000 0xFFFFFFFFFFFFFFFF t → ∃ k,
       exec (.div f) s = .next (t.takesD u { st.slowed k with long := st.long + 2 } f 0x8000000000000000) ∧
       exec (.rem f) s = .next (t.takesD u { st.slowed k with long := st.long + 2 } f 0)) ∧
  (∀ (s t : State) (u : Nat) (st : Strand) (f : Fields) (a b : Word), Issues s u st f → Sources f s a b t →
    let pos := (b.extractLsb' 0 6).toNat
    let n := min ((b.extractLsb' 6 6).toNat + 1) (64 - pos)
    (∃ k v, t.strand? u = some (st.slowed k) ∧ exec (.extb f) s = .next (t.takesD u (st.slowed k) f v) ∧
      ∀ i < 64, v.getLsbD i = if i < n then a.getLsbD (pos + i) else f.m == 1 && a.getLsbD (pos + n - 1)) ∧
    ∀ d r, oldD f t = (.ok d, r) → ∃ k v, r.strand? u = some (st.slowed k) ∧
      exec (.insb f) s = .next (r.takesD u (st.slowed k) f v) ∧
      ∀ i < 64, v.getLsbD i = if pos ≤ i ∧ i < pos + n then a.getLsbD (i - pos) else d.getLsbD i) ∧
  (∀ (s t : State) (u : Nat) (st : Strand) (f : Fields) (a b : Word), Issues s u st f → f.m.toNat < 12 →
     let holds (b : Word) : Prop :=
       (f.m = 0 → a = b) ∧ (f.m = 1 → a ≠ b) ∧ (f.m = 2 → a.toInt < b.toInt) ∧ (f.m = 3 → b.toInt ≤ a.toInt) ∧
       (f.m = 4 → a.toNat < b.toNat) ∧ (f.m = 5 → b.toNat ≤ a.toNat) ∧ (f.m = 6 → b.toInt < a.toInt) ∧
       (f.m = 7 → a.toInt ≤ b.toInt) ∧ (f.m = 8 → b.toNat < a.toNat) ∧ (f.m = 9 → a.toNat ≤ b.toNat) ∧
       (f.m = 10 → a &&& b ≠ 0) ∧ (f.m = 11 → a &&& b = 0)
     (Sources f s a b t → ∃ k r, t.strand? u = some (st.slowed k) ∧ (r = true ↔ holds b) ∧
       exec (.cmp f) s = .next (t.setStrand u (((st.slowed k).setLane0 f.d.toNat r).done f))) ∧
     (srcA f s = (.ok a, t) → ∃ k r, t.strand? u = some (st.slowed k) ∧ (r = true ↔ holds (f.b.signExtend 64)) ∧
       exec (.cmpi f) s = .next (t.setStrand u (((st.slowed k).setLane0 f.d.toNat r).done f)))) ∧
  (∀ (st : Strand) (p q : Nat) (b : Bool), p < 16 → q < 16 →
     (st.setLane0 p b).lane0 q = if q = p ∧ p ≠ 0 then b else st.lane0 q)

/-! ### Transfers of control -/

/-- 07 R174, R175, R177: the transfers, to a target that is code. Each moves the pc to its target; CALL and CALLI leave the address behind
them in their link register, THROW passes its operand and its own address in x0 and x1 to the context's throw vector. 07 R176, R177: a
transfer to an address that is no code traps precisely at the transfer, with nothing written: PROTECTION above 2^57 and above 2^48,
ALIGNMENT, ILLEGAL_TARGET; while the start bit's line is not there it waits. A THROW without a handler traps THROW_UNHANDLED; one whose
handler is no code traps so, and stops the strand where the start bit is clear. Where the rules are silent or open to a reading, the model's
own: log entry 47. -/
def Obligations.Transfers : Prop :=
  (∀ (s r t : State) (u : Nat) (st : Strand) (f : Fields), Issues s u st f →
     let next : Word := st.pc + BitVec.ofNat 64 (lenOf f)
     let near : Word := st.pc + ((f.d ++ f.a ++ f.b ++ f.m).signExtend 64) * 4
     let mid : Word := st.pc + ((f.a ++ f.b ++ f.m).signExtend 64) * 4
     (IsCode s st near t →
       exec (.b f) s = .next (t.setStrand u (st.goes near)) ∧
       exec (.call f) s = .next (t.setStrand u ((st.gives 46 next).goes near))) ∧
     (st.lane0 (f.d.toNat % 16) = f.d.getLsbD 4 → exec (.bp f) s = .next (s.setStrand u (st.done f))) ∧
     (st.lane0 (f.d.toNat % 16) ≠ f.d.getLsbD 4 → IsCode s st mid t →
       exec (.bp f) s = .next (t.setStrand u (st.goes mid))) ∧
     ∀ a, operandX false f.a f.ta s = (.ok a, r) → ∃ k, r.strand? u = some (st.slowed k) ∧
       (IsCode r st a t →
         exec (.calli f) s = .next (t.setStrand u (((st.slowed k).gives f.d.toNat next).goes a)) ∧
         exec (.jmpi f) s = .next (t.setStrand u ((st.slowed k).goes a)) ∧
         exec (.ret f) s = .next (t.setStrand u ((st.slowed k).goes a))) ∧
       ∀ c, r.ctx? st.ctx = some c → c.thv ≠ 0 → IsCode r st c.thv t →
         exec (.throw f) s =
           .next (t.setStrand u ({ ((st.slowed k).gives 0 a).gives 1 st.pc with loops := [] }.goes c.thv))) ∧
  (∀ (s r t : State) (u : Nat) (st : Strand) (f : Fields) (a : Word) (i : Instr), Issues s u st f →
     (((i = .b f ∨ i = .call f) ∧ a = st.pc + ((f.d ++ f.a ++ f.b ++ f.m).signExtend 64) * 4 ∧ r = s) ∨
      (i = .bp f ∧ st.lane0 (f.d.toNat % 16) ≠ f.d.getLsbD 4 ∧ a = st.pc + ((f.a ++ f.b ++ f.m).signExtend 64) * 4 ∧ r = s) ∨
      ((i = .calli f ∨ i = .jmpi f ∨ i = .ret f) ∧ operandX false f.a f.ta s = (.ok a, r))) →
     let traps (c x : Nat) (s : State) : Result := .next (s.takeTrap u c x st.pc a)
     let starts := r.startBit st.core st.ctx st.lrec r.issuerNo a
     (a.extractLsb' 57 7 ≠ 0 → exec i s = traps Cause.protection 1 r) ∧
     (a.extractLsb' 57 7 = 0 → a.extractLsb' 48 9 ≠ 0 → exec i s = traps Cause.protection 7 r) ∧
     (a.extractLsb' 48 16 = 0 → a.extractLsb' 0 2 ≠ 0 → ∃ x, exec i s = traps Cause.alignment x { r with free := r.free + 1 }) ∧
     (a.extractLsb' 48 16 = 0 → a.extractLsb' 0 2 = 0 →
       (starts = (.ok (some false), t) → exec i s = traps Cause.illegalTarget 0 t) ∧
       ∀ w, starts = (.error w, t) → exec i s = .next (t.leave u .parked w w.stall))) ∧
  (∀ (s r t : State) (u : Nat) (st : Strand) (f : Fields) (a : Word) (c : Ctx), Issues s u st f →
     operandX false f.a f.ta s = (.ok a, r) → r.ctx? st.ctx = some c →
     let h := c.thv
     let traps (c x : Nat) (s : State) (a : Word) : Result := .next (s.takeTrap u c x st.pc a)
     let starts := r.startBit st.core st.ctx st.lrec r.issuerNo h
     (h = 0 → ∃ x, exec (.throw f) s = traps Cause.throwUnhandled x { r with free := r.free + 1 } a) ∧
     (h.extractLsb' 57 7 ≠ 0 → exec (.throw f) s = traps Cause.protection 1 r h) ∧
     (h.extractLsb' 57 7 = 0 → h.extractLsb' 48 9 ≠ 0 → exec (.throw f) s = traps Cause.protection 7 r h) ∧
     (h.extractLsb' 48 16 = 0 → h.extractLsb' 0 2 ≠ 0 → ∃ x,
       exec (.throw f) s = traps Cause.alignment x { r with free := r.free + 1 } h) ∧
     (h ≠ 0 → h.extractLsb' 48 16 = 0 → h.extractLsb' 0 2 = 0 →
       (starts = (.ok (some false), t) → exec (.throw f) s = .next ((t.stopStrand u Cause.illegalTarget 4 st.pc h).stepEnds u)) ∧
       ∀ w, starts = (.error w, t) → exec (.throw f) s = .next (t.leave u .parked w w.stall)))

/-! ### Predicates -/

/-- 07 R180, R182, R183: the predicate instructions that bind no context: lanewise AND, OR, XOR and NOT, the count of active elements, the
moves of the predicate word, and the vector width. Everything but the destination and the pc stays. 07 R180, R181: PLIM, PWHILE and PFIRST
set every byte of each element that their condition names, over exact sums, and clear every other; a destination p0 takes nothing. The
write of the predicate word leaves the v registers and every lane but 0 of a bound context (R182). 01 R19, R31, 07 R179: an instruction
that needs a vector context binds one where fewer than eight of the core are bound: its v registers are zero, full and RAW, and every lane
of a predicate is the bit of the predicate word; a destination p0 binds nothing. R181 to R183 stand here whole, the others in part. -/
def Obligations.Predicates : Prop :=
  (∀ (s t : State) (u : Nat) (st : Strand) (f : Fields), Issues s u st f → st.atHand →
     let a := st.predBits f.a.toNat
     let b := st.predBits f.b.toNat
     let sets (p : Pred) : Result := .next (s.setStrand u ((st.setPred f.d.toNat p).done f))
     let gives (v : Word) : Result := .next (s.setStrand u ((st.gives f.d.toNat v).done f))
     exec (.pand f) s = sets (a &&& b) ∧ exec (.por f) s = sets (a ||| b) ∧ exec (.pxor f) s = sets (a ^^^ b) ∧
     exec (.pnot f) s = sets (~~~a) ∧
     (∃ n : Nat, exec (.pcnt f) s = gives (BitVec.ofNat 64 n) ∧
       n = ((List.range (512 / 2 ^ (f.m.toNat % 4))).filter fun e => a.getLsbD (e * 2 ^ (f.m.toNat % 4))).length) ∧
     (∃ w : Word, exec (.pmovxRd f) s = gives w ∧ ∀ i < 64, w.getLsbD i = (decide (i < 16) && st.lane0 i)) ∧
     exec (.vwid f) s = gives (if f.m = 4 then 4096 else BitVec.ofNat 64 (512 / 2 ^ f.m.toNat)) ∧
     ∀ v, operandX false f.a f.ta s = (.ok v, t) → ∃ (k : Bool) (st' : Strand), t.strand? u = some (st.slowed k) ∧
       exec (.pmovxWr f) s = .next (t.setStrand u (st'.done f)) ∧ (∀ i < 16, st'.lane0 i = (decide (i = 0) || v.getLsbD i)) ∧
       st' = { st.slowed k with pw := st'.pw, vec := st'.vec } ∧ (st.vec = none → st'.vec = none) ∧
       ∀ c, st.vec = some c → ∃ c', st'.vec = some c' ∧ st'.pw = st.pw ∧ c' = { c with p := c'.p } ∧
         ∀ q < 16, ∀ i, 4 ≤ i → i < 512 → ((c'.p[q]?).getD 0).getLsbD i = ((c.p[q]?).getD 0).getLsbD i) ∧
  (∀ (s r t : State) (u : Nat) (st : Strand) (f : Fields), Issues s u st f → st.bound →
     let wb := 2 ^ (f.m.toNat % 4)
     let sets (s : State) (st : Strand) (p : Pred) : Result := .next (s.setStrand u ((st.setPred f.d.toNat p).done f))
     (∀ b, operandB f s = (.ok b, t) → ∃ k p, t.strand? u = some (st.slowed k) ∧ exec (.plim f) s = sets t (st.slowed k) p ∧
       ∀ i < 512, p.getLsbD i = decide (i / wb < b.toNat)) ∧
     (∀ a b, operandX false f.a f.ta s = (.ok a, r) → operandB f r = (.ok b, t) → ∃ k p, t.strand? u = some (st.slowed k) ∧
       exec (.pwhile f) s = sets t (st.slowed k) p ∧
       let value (w : Word) : Int := if f.m.getLsbD 2 then (w.toNat : Int) else w.toInt
       ∀ i < 512, p.getLsbD i = decide (if f.m.getLsbD 3 then value a + (i / wb : Nat) ≤ value b else value a + (i / wb : Nat) < value b)) ∧
     ∃ p, exec (.pfirst f) s = sets s st p ∧
       ∀ i < 512, p.getLsbD i = decide ((st.predBits f.a.toNat).getLsbD (i / wb * wb) = true ∧
         ∀ e < i / wb, (st.predBits f.a.toNat).getLsbD (e * wb) = false)) ∧
  (∀ (s t : State) (u : Nat) (st : Strand) (f : Fields) (b : Word), Issues s u st f → st.vec = none → f.d.toNat < 16 →
     s.boundContexts st.core < 8 →
     (f.d = 0 → operandB f s = (.ok b, t) → ∃ k, t.strand? u = some (st.slowed k) ∧
       exec (.plim f) s = .next (t.setStrand u ((st.slowed k).done f))) ∧
     (f.d ≠ 0 → operandB f (s.setStrand u { st with vec := some st.freshVec }) = (.ok b, t) → ∃ (k : Bool) (v : VecCtx),
       exec (.plim f) s = .next (t.setStrand u ({ st.slowed k with vec := some v }.done f)) ∧ v.spilled = false ∧
       v.v = Vector.replicate 32 0 ∧ v.tag = Vector.replicate 32 0 ∧ (∀ i < 32, v.vFull.getLsbD i = true) ∧
       ∀ q < 16, q ≠ f.d.toNat → ∀ i < 512, ((v.p[q]?).getD 0).getLsbD i = (decide (q = 0) || st.pw.getLsbD q)))

/-! ### Vector arithmetic -/

/-- 08 R184, R187 to R194: the floating-point instructions of one, two and three sources whose tags fit, for a strand with a bound context.
D takes for each active element the function's value on the elements of the sources under FCR and RND, FCR takes the flags, and the division
and special functions skip two turns more. 08 R191 to R193, R198: comparison into a predicate, classification, scaling, the dot product of
pairs, and the conversions. Where the rules are silent or open to a reading, the model's own: log entry 15. -/
def Obligations.VectorFloat : Prop :=
  (∀ (s s1 s2 s3 t : State) (u : Nat) (st : Strand) (f : Fields) (a b c : VSrc) (old : List Nat),
     Issues s u st f → st.bound →
     let code := f.fmt.toNat
     let w := Shape.widthOf code
     let env := envOf st.fcr f.rnd.toNat
     vreg w f.a f.ta s = (.ok a, s1) →
     (oldElems f w s1 = (.ok old, t) → TagsFit [(a, code)] → ∃ k, t.strand? u = some (st.slowed k) ∧
       let ends (n : Nat) (op : Nat → FpEnv → Nat → Nat × Flags) : Result := .next (t.setStrand u
         ({ (st.slowed k).delivers f w f.fmt old (a.es.map (op code env)) 0 with long := st.long + n }.done f))
       exec (.vfabs f) s = ends 0 fpAbs ∧ exec (.vfneg f) s = ends 0 fpNeg ∧ exec (.vfsqrt f) s = ends 2 fpSqrt ∧
       exec (.vfrcp f) s = ends 2 fpRcp ∧ exec (.vfrsq f) s = ends 2 fpRsq ∧ exec (.vfexp2 f) s = ends 2 fpExp2 ∧
       exec (.vflog2 f) s = ends 2 fpLog2 ∧ exec (.vfsin f) s = ends 2 fpSin ∧ exec (.vfcos f) s = ends 2 fpCos ∧
       exec (.vftanh f) s = ends 2 fpTanh ∧ exec (.vfrnd f) s = ends 0 fpRnd) ∧
     (srcBfp f code env s1 = (.ok b, s2) →
       (oldElems f w s2 = (.ok old, t) → TagsFit [(a, code), (b, code)] → ∃ k, t.strand? u = some (st.slowed k) ∧
         let ends (n : Nat) (op : Nat → FpEnv → Nat → Nat → Nat × Flags) : Result := .next (t.setStrand u
           ({ (st.slowed k).delivers f w f.fmt old (map2 (op code env) a.es b.es) b.fl with long := st.long + n }.done f))
         exec (.vfadd f) s = ends 0 fpAdd ∧ exec (.vfsub f) s = ends 0 fpSub ∧ exec (.vfmul f) s = ends 0 fpMul ∧
         exec (.vfmin f) s = ends 0 (fun c e => fpMinMax c e false) ∧ exec (.vfmax f) s = ends 0 (fun c e => fpMinMax c e true) ∧
         exec (.vfcps f) s = ends 0 fpCps ∧ exec (.vfdiv f) s = ends 2 fpDiv) ∧
       (vreg w f.c 0 s2 = (.ok c, s3) → oldElems f w s3 = (.ok old, t) → TagsFit [(a, code), (b, code), (c, code)] →
         ∃ k, t.strand? u = some (st.slowed k) ∧
         let ends (x y : Bool) : Result := .next (t.setStrand u
           (((st.slowed k).delivers f w f.fmt old (map3 (fpFma code env x y) a.es b.es c.es) b.fl).done f))
         exec (.vfma f) s = ends false false ∧ exec (.vfms f) s = ends false true ∧ exec (.vfnma f) s = ends true true ∧
         exec (.vfnms f) s = ends true false))) ∧
  (∀ (s s1 s2 s3 t : State) (u : Nat) (st : Strand) (f : Fields) (a b c : VSrc) (old : List Nat),
     Issues s u st f → st.bound →
     let code := f.fmt.toNat
     let w := Shape.widthOf code
     let env := envOf st.fcr f.rnd.toNat
     let act := activeList w (st.predBits f.m.toNat)
     (vreg w f.a f.ta s = (.ok a, s1) →
       (oldElems f w s1 = (.ok old, t) → TagsFit [(a, code)] → ∃ k, t.strand? u = some (st.slowed k) ∧
         exec (.vfclass f) s = .next (t.setStrand u (((st.slowed k).delivers f w (BitVec.ofNat 4 (intTag w)) old
           (a.es.map fun x => (fpClass code env.ftz x, 0)) 0).done f))) ∧
       (srcBint f w s1 = (.ok b, s2) → oldElems f w s2 = (.ok old, t) → TagsFit [(a, code), (b, intTag w)] →
         ∃ k, t.strand? u = some (st.slowed k) ∧
         exec (.vfscale f) s = .next (t.setStrand u (((st.slowed k).delivers f w f.fmt old
           (map2 (fun x n => fpScale code env x (toSigned w n)) a.es b.es) 0).done f))) ∧
       (srcBfp f code env s1 = (.ok b, t) → TagsFit [(a, code), (b, code)] → ∃ k, t.strand? u = some (st.slowed k) ∧
         let res : List (Nat × Flags) :=
           map2 (fun x y => let r := fpCompare code env.ftz f.e.toNat x y; (if r.1 then 1 else 0, r.2)) a.es b.es
         exec (.vfcmp f) s = .next (t.setStrand u (({ st.slowed k with
           fcr := st.fcr ||| (gather act res ||| (if act.any id then b.fl else 0)).zeroExtend 64 }.setPred f.d.toNat
             (lanesOf w (List.zipWith (fun (g : Bool) (r : Nat × Flags) => g && r.1 == 1) act res))).done f)))) ∧
     (vreg 16 f.a f.ta s = (.ok a, s1) → srcBfp f code env s1 = (.ok b, s2) → vreg 32 f.c 0 s2 = (.ok c, s3) →
       oldElems f 32 s3 = (.ok old, t) → TagsFit [(a, code), (b, code), (c, 2)] → ∃ k, t.strand? u = some (st.slowed k) ∧
       exec (.vfdot2 f) s = .next (t.setStrand u (((st.slowed k).delivers f 32 2 old (dotPairs code env a.es b.es c.es) b.fl).done f))) ∧
     (let ws := Shape.widthOf f.e.toNat
      vreg ws f.a f.ta s = (.ok a, s1) →
       (if w < ws then ∃ bits tag, readV f.d.toNat s1 = (.ok (bits, tag), t) ∧ old = elems w bits
        else oldElems f w s1 = (.ok old, t)) → TagsFit [(a, f.e.toNat)] →
       ∃ k, t.strand? u = some (st.slowed k) ∧
       let ends (op : Nat → Nat × Flags) : Result := .next (t.setStrand u (((st.slowed k).delivers f w f.fmt old
         (List.zipWith (fun o old => match o with | some v => op v | none => (old, (0 : Flags)))
           (placed (4096 / w) (4096 / ws) (f.imm20.toNat % 8) a.es) old) 0).done f))
       exec (.vfcvt f) s = ends (fpConvert code f.e.toNat env) ∧
       exec (.vicvt f) s = ends fun v => (intConvert code f.e.toNat (f.imm20.getLsbD 3) v, 0)))

/-- 03 R76, R77, R79: on finite operands sums, products, quotients and fused forms deliver the exact value rounded once, or its overflow,
with their flags; an exact zero has the sign that IEEE 754 gives it, a non-zero value over zero is an infinity and DZ, zero over zero a
NaN and NV. 03 R67, R69, R80: a NaN operand gives the format's canonical NaN with the first NaN's sign, NV where one is signalling;
opposed infinities and an infinity times zero or over one give the positive NaN and NV; an infinity is exact. 03 R78: FTZ reads a
subnormal as zero of its sign and delivers one as zero with UF and NX, and leaves FP64 alone. A value is an integer in units of a
subnormal: 2^(bias − 1 + m) units are 1.0. -/
def Obligations.FloatArithmetic : Prop :=
  (∀ (code : Nat) (env : FpEnv) (a b c : Nat), 1 ≤ code → code ≤ 6 → env.ftz = false → FpFinite code a → FpFinite code b → FpFinite code c →
     let t := ffmt code
     let x := fpUnits code a
     let y := fpUnits code b
     let one : Nat := 2 ^ (t.bias - 1 + t.m)
     let sa := a.testBit (t.w - 1)
     let sb := b.testBit (t.w - 1)
     let zero (m n : Bool) : Nat × Flags := (fpSign code (if m = n then m else decide (env.rm = .rdn)), 0)
     (x + y ≠ 0 → FpDelivers code env 1 (x + y) (fpAdd code env a b)) ∧ (x + y = 0 → fpAdd code env a b = zero sa sb) ∧
     (x - y ≠ 0 → FpDelivers code env 1 (x - y) (fpSub code env a b)) ∧ (x - y = 0 → fpSub code env a b = zero sa !sb) ∧
     (x * y ≠ 0 → FpDelivers code env one (x * y) (fpMul code env a b)) ∧ (x * y = 0 → fpMul code env a b = (fpSign code (sa ^^ sb), 0)) ∧
     (x * y ≠ 0 → FpDelivers code env y.natAbs (x * one * y.sign) (fpDiv code env a b)) ∧
     (x = 0 → y ≠ 0 → fpDiv code env a b = (fpSign code (sa ^^ sb), 0)) ∧
     (x = 0 → y = 0 → fpDiv code env a b = (fpNan code false, 0b10000)) ∧
     (x ≠ 0 → y = 0 → code ≠ 5 → fpDiv code env a b = (fpSign code (sa ^^ sb) + (fpLargest code + 1), 0b01000)) ∧
     ∀ nx nz : Bool,
       let v : Int := (if nx then -1 else 1) * (x * y) + (if nz then -1 else 1) * (fpUnits code c * one)
       (v ≠ 0 → FpDelivers code env one v (fpFma code env nx nz a b c)) ∧
       (v = 0 → fpFma code env nx nz a b c = zero (sa ^^ sb ^^ nx) (c.testBit (t.w - 1) ^^ nz))) ∧
  (∀ (code : Nat) (env : FpEnv) (a b c : Nat), 1 ≤ code → code ≤ 6 →
     let t := ffmt code
     let mag (n : Nat) : Nat := n % 2 ^ (t.w - 1)
     let sign (n : Nat) : Bool := n.testBit (t.w - 1)
     let isInf (n : Nat) : Bool := decide (code ≠ 5 ∧ mag n = fpLargest code + 1)
     let isNan (n : Nat) : Bool := decide (fpLargest code + (if code = 5 then 0 else 1) < mag n)
     let signalling (n : Nat) : Bool := isNan n && decide (code ≠ 5) && !n.testBit (t.m - 1)
     let first (l : List Nat) : Nat × Flags :=
       (fpNan code (((l.find? isNan).map sign).getD false), if l.any signalling then 0b10000 else 0)
     let bad : Nat × Flags := (fpNan code false, 0b10000)
     (fpNan 1 false = 0x7FF8000000000000 ∧ fpNan 2 false = 0x7FC00000 ∧ fpNan 3 false = 0x7FC0 ∧ fpNan 4 false = 0x7E00 ∧
       fpNan 5 false = 0x7F ∧ fpNan 6 false = 0x7E ∧ fpNan code true = fpNan code false + 2 ^ (t.w - 1)) ∧
     ((isNan a || isNan b) = true → fpAdd code env a b = first [a, b] ∧ fpSub code env a b = first [a, b] ∧
       fpMul code env a b = first [a, b] ∧ fpDiv code env a b = first [a, b]) ∧
     (env.ftz = false → (isNan a || isNan b || isNan c) = true → ¬ (isInf a = true ∧ mag b = 0) → ¬ (isInf b = true ∧ mag a = 0) →
       ∀ nx nz, fpFma code env nx nz a b c = first [a, b, c]) ∧
     (env.ftz = false → isInf a = true → isNan b = false → mag b ≠ 0 →
       fpMul code env a b = (fpSign code (sign a ^^ sign b) + (fpLargest code + 1), 0) ∧
       ∀ nx nz, isNan c = false → fpFma code env nx nz a b c =
         if isInf c ∧ (sign c ^^ nz) ≠ (sign a ^^ sign b ^^ nx) then bad
         else (fpSign code (sign a ^^ sign b ^^ nx) + (fpLargest code + 1), 0)) ∧
     (FpFinite code a → FpFinite code b → isInf c = true → ∀ nx nz,
       fpFma code env nx nz a b c = (fpSign code (sign c ^^ nz) + (fpLargest code + 1), 0)) ∧
     (a < 2 ^ t.w → isInf a = true →
       (isInf b = true → sign a = sign b → fpAdd code env a b = (a, 0) ∧ fpSub code env a b = bad) ∧
       (isInf b = true → sign a ≠ sign b → fpAdd code env a b = bad ∧ fpSub code env a b = (a, 0)) ∧
       (isInf b = true → fpDiv code env a b = bad) ∧
       (mag b = 0 → fpMul code env a b = bad ∧ fpMul code env b a = bad ∧ (isNan c = false → ∀ nx nz, fpFma code env nx nz a b c = bad)) ∧
       (FpFinite code b → fpAdd code env a b = (a, 0) ∧ fpAdd code env b a = (a, 0) ∧ fpSub code env a b = (a, 0) ∧
         fpDiv code env a b = (fpSign code (sign a ^^ sign b) + (fpLargest code + 1), 0) ∧
         fpDiv code env b a = (fpSign code (sign a ^^ sign b), 0)))) ∧
  (∀ (code : Nat) (env : FpEnv) (a b c : Nat), 1 ≤ code → code ≤ 6 → FpFinite code a → FpFinite code b → FpFinite code c →
     let t := ffmt code
     let plain : FpEnv := { env with ftz := false }
     let all : FpEnv := { env with ftz := true }
     let low (n : Nat) : Bool := decide (code ≠ 1 ∧ n % 2 ^ (t.w - 1) < 2 ^ t.m)
     let flush (n : Nat) : Nat := if low n then fpSign code (n.testBit (t.w - 1)) else n
     let gives (r : Nat × Flags) : Nat × Flags := if flush r.1 = r.1 then r else (flush r.1, 0b00011)
     fpAdd code all a b = gives (fpAdd code plain (flush a) (flush b)) ∧ fpSub code all a b = gives (fpSub code plain (flush a) (flush b)) ∧
     fpMul code all a b = gives (fpMul code plain (flush a) (flush b)) ∧ fpDiv code all a b = gives (fpDiv code plain (flush a) (flush b)) ∧
     ∀ nx nz, fpFma code all nx nz a b c = gives (fpFma code plain nx nz (flush a) (flush b) (flush c)))

/-- 08 R195 to R197: the integer instructions on elements of the format's width, for a strand with a bound context: wrapping sums,
differences and products, high products, shifts, minima and maxima, saturating forms, counts, comparisons, and the bitwise forms, which
take any tag and give A's. -/
def Obligations.VectorInteger : Prop :=
  ∀ (s s1 s2 s3 t : State) (u : Nat) (st : Strand) (f : Fields) (a b c : VSrc) (old : List Nat),
    Issues s u st f → st.bound →
    let code := f.fmt.toNat
    let w := Shape.widthOf code
    let v (x : Nat) : Int := intValue code x
    let act := activeList w (st.predBits f.m.toNat)
    vreg w f.a f.ta s = (.ok a, s1) →
    (oldElems f w s1 = (.ok old, t) → TagsFit [(a, code)] → ∃ k, t.strand? u = some (st.slowed k) ∧
      let ends (op : Nat → Nat) : Result := .next (t.setStrand u
        (((st.slowed k).delivers f w f.fmt old (a.es.map fun x => (op x % 2 ^ w, 0)) 0).done f))
      exec (.vabs f) s = ends (fun x => wrap w (v x).natAbs) ∧ exec (.vclz f) s = ends (leadingZeros w) ∧
      exec (.vpopc f) s = ends (onesIn w)) ∧
    (srcBint f w s1 = (.ok b, s2) →
      (oldElems f w s2 = (.ok old, t) →
        ∃ k, t.strand? u = some (st.slowed k) ∧
        let ends (tag : BitVec 4) (op : Nat → Nat → Nat) : Result := .next (t.setStrand u
          (((st.slowed k).delivers f w tag old (map2 (fun x y => (op x y % 2 ^ w, 0)) a.es b.es) 0).done f))
        (let any := ends (a.tag.getD 0)
         exec (.vand f) s = any (fun x y => x &&& y) ∧ exec (.vor f) s = any (fun x y => x ||| y) ∧
         exec (.vxor f) s = any (fun x y => x ^^^ y) ∧ exec (.vandn f) s = any (fun x y => x &&& (2 ^ w - 1 - y))) ∧
        (TagsFit [(a, code), (b, code)] →
          let own := ends f.fmt
          exec (.vadd f) s = own (fun x y => x + y) ∧ exec (.vsub f) s = own (fun x y => x + (2 ^ w - y)) ∧
          exec (.vmul f) s = own (fun x y => x * y) ∧ exec (.vmulh f) s = own (fun x y => wrap w (v x * v y / 2 ^ w)) ∧
          exec (.vshl f) s = own (fun x y => x * 2 ^ (y % w)) ∧ exec (.vshr f) s = own (fun x y => x / 2 ^ (y % w)) ∧
          exec (.vsra f) s = own (fun x y => wrap w (v x / 2 ^ (y % w))) ∧
          exec (.vmin f) s = own (fun x y => if v x < v y then x else y) ∧
          exec (.vmax f) s = own (fun x y => if v x < v y then y else x) ∧
          exec (.vminu f) s = own (fun x y => if x < y then x else y) ∧
          exec (.vmaxu f) s = own (fun x y => if x < y then y else x) ∧
          exec (.vadds f) s = own (fun x y => wrap w (clampTo (intRange code) (v x + v y))) ∧
          exec (.vsubs f) s = own (fun x y => wrap w (clampTo (intRange code) (v x - v y))))) ∧
      (s2 = t → TagsFit [(a, code), (b, code)] → ∃ k, t.strand? u = some (st.slowed k) ∧
        exec (.vcmp f) s = .next (t.setStrand u (((st.slowed k).setPred f.d.toNat (lanesOf w
          (List.zipWith (fun g r => g && r) act
            (List.zipWith (fun x y => condHolds f.e.toNat w (code == 12) x y) a.es b.es)))).done f))) ∧
      (vreg w f.c 0 s2 = (.ok c, s3) → oldElems f w s3 = (.ok old, t) → TagsFit [(a, code), (b, code), (c, code)] →
        ∃ k, t.strand? u = some (st.slowed k) ∧
        exec (.vmadd f) s = .next (t.setStrand u (((st.slowed k).delivers f w f.fmt old
          (map3 (fun x y z => ((x * y + z) % 2 ^ w, 0)) a.es b.es c.es) 0).done f))))

/-- 08 R197: VSEL, VTAG, VFILL and VMOV. 03 R66: a source whose tag is not the format's traps FORMAT_MISMATCH at the instruction, with D,
its tag and FCR unchanged. -/
def Obligations.VectorMoves : Prop :=
  (∀ (s s1 s2 t : State) (u : Nat) (st : Strand) (f : Fields) (a b : VSrc) (bits : Vec) (tag : BitVec 4) (x : Word)
     (n : Nat) (fl : Flags) (old : List Nat), Issues s u st f → st.bound →
     let w := Shape.widthOf f.fmt.toNat
     (vreg w f.a f.ta s = (.ok a, s1) →
       (f.bk = 0 → vreg w f.b f.tb s1 = (.ok b, t) → ∃ k, t.strand? u = some (st.slowed k) ∧
         exec (.vsel f) s = .next (t.setStrand u (((st.slowed k).setV f.d.toNat (ofElems w
           (choose (activeList w (st.predBits f.m.toNat)) a.es b.es)) (a.tag.getD 0)).done f))) ∧
       (f.bk ≠ 0 → scalarAny f f.fmt.toNat s1 = (.ok (n, fl), t) → ∃ k, t.strand? u = some (st.slowed k) ∧
         let act := activeList w (st.predBits f.m.toNat)
         exec (.vsel f) s = .next (t.setStrand u (({ (st.slowed k).setV f.d.toNat (ofElems w
           (choose act a.es (List.replicate (4096 / w) (n % 2 ^ w)))) (a.tag.getD 0) with
             fcr := st.fcr ||| (if act.any id then fl else 0).zeroExtend 64 } : Strand).done f))) ∧
       (oldElems f w s1 = (.ok old, t) → ∃ k, t.strand? u = some (st.slowed k) ∧
         exec (.vmov f) s = .next (t.setStrand u (((st.slowed k).delivers f w (a.tag.getD 0) old
           (a.es.map fun x => (x, 0)) 0).done f)))) ∧
     (operandV f.a f.ta s = (.ok (bits, tag), t) → ∃ k, t.strand? u = some (st.slowed k) ∧
       exec (.vtag f) s = .next (t.setStrand u (((st.slowed k).setV f.d.toNat bits f.fmt).done f))) ∧
     (f.bk = 0 → operandX false f.b f.tb s = (.ok x, s2) → oldElems f w s2 = (.ok old, t) → ∃ k, t.strand? u = some (st.slowed k) ∧
       exec (.vfill f) s = .next (t.setStrand u (((st.slowed k).delivers f w f.fmt old
         (List.replicate (4096 / w) (x.toNat % 2 ^ w, 0)) 0).done f))) ∧
     (f.bk ≠ 0 → scalarAny f f.fmt.toNat s = (.ok (n, fl), s2) → oldElems f w s2 = (.ok old, t) →
       ∃ k, t.strand? u = some (st.slowed k) ∧
       exec (.vfill f) s = .next (t.setStrand u (((st.slowed k).delivers f w f.fmt old
         (List.replicate (4096 / w) (n % 2 ^ w, 0)) fl).done f)))) ∧
  (∀ (s s1 s2 t : State) (u : Nat) (st : Strand) (f : Fields) (a b : VSrc) (old : List Nat), Issues s u st f → st.bound →
     let code := f.fmt.toNat
     let w := Shape.widthOf code
     vreg w f.a f.ta s = (.ok a, s1) →
     (srcBfp f code (envOf st.fcr f.rnd.toNat) s1 = (.ok b, s2) → oldElems f w s2 = (.ok old, t) → ¬ TagsFit [(a, code), (b, code)] →
       ∃ x y k, t.strand? u = some (st.slowed k) ∧
         exec (.vfadd f) s = .next (({ t with free := t.free + 2 } : State).takeTrap u Cause.formatMismatch x st.pc y)) ∧
     (srcBint f w s1 = (.ok b, s2) → oldElems f w s2 = (.ok old, t) → ¬ TagsFit [(a, code), (b, code)] →
       ∃ x y k, t.strand? u = some (st.slowed k) ∧
         exec (.vadd f) s = .next (({ t with free := t.free + 2 } : State).takeTrap u Cause.formatMismatch x st.pc y)))

/-! ### Permutes and reductions -/

/-- 09 R202 to R205: the permutes, element by element of D, and the moves of single elements. 09 R206, R207, 03 R85, R86: the reductions
by the tree over the active elements with the start value combined last, and the running sums. -/
def Obligations.PermutesAndReductions : Prop :=
  (∀ (s s1 s2 s3 t : State) (u : Nat) (st : Strand) (f : Fields) (a b c : VSrc) (n x : Word) (old : List Nat) (bits : Vec)
     (tag : BitVec 4), Issues s u st f → st.bound →
     let w := Shape.widthOf f.fmt.toNat
     let l := 4096 / w
     let act := activeList w (st.predBits f.m.toNat)
     let A (i : Nat) : Nat := a.es.getD i 0
     let B (i : Nat) : Nat := b.es.getD i 0
     let C (i : Nat) : Nat := c.es.getD i 0
     let ends (t : State) (k : Bool) (el : Nat → Nat) : Result := .next (t.setStrand u (((st.slowed k).delivers f w (a.tag.getD 0) old
       ((List.range l).map fun e => (el e, 0)) 0).done f))
     (vreg w f.a f.ta s = (.ok a, s1) →
       (oldElems f w s1 = (.ok old, t) → ∃ k, t.strand? u = some (st.slowed k) ∧
         exec (.vshuf f) s = ends t k (fun e => A (4 * (e / 4) + f.imm20.toNat / 4 ^ (e % 4) % 4)) ∧
         exec (.vexp f) s = .next (t.setStrand u (((st.slowed k).setV f.d.toNat (ofElems w (choose act (unpacked act a.es) old))
           (a.tag.getD 0)).done f))) ∧
       (s1 = t → ∃ k, t.strand? u = some (st.slowed k) ∧
         exec (.vcomp f) s = .next (t.setStrand u (((st.slowed k).setV f.d.toNat (ofElems w (packed act a.es)) (a.tag.getD 0)).done f))) ∧
       (vreg w f.b f.tb s1 = (.ok b, s2) →
         (oldElems f w s2 = (.ok old, t) → ∃ k, t.strand? u = some (st.slowed k) ∧
           exec (.vzip f) s = ends t k (fun e =>
             let i := f.imm20.toNat % 2 * (a.es.length / 2) + e / 2
             if e % 2 = 0 then A i else B i) ∧
           exec (.vuzip f) s = ends t k (fun e =>
             let i := 2 * (e % (a.es.length / 2)) + f.imm20.toNat % 2
             if e < a.es.length / 2 then A i else B i)) ∧
         (vreg w f.c 0 s2 = (.ok c, s3) → oldElems f w s3 = (.ok old, t) → ∃ k, t.strand? u = some (st.slowed k) ∧
           exec (.vperm f) s = ends t k (fun e => if B e < a.es.length then A (B e) else C (B e - a.es.length)))) ∧
       (operandB f s1 = (.ok n, s2) →
         (oldElems f w s2 = (.ok old, t) → ∃ k, t.strand? u = some (st.slowed k) ∧
           exec (.vbcast f) s = ends t k (fun _ => A n.toNat)) ∧
         (s2 = t → ∃ k, t.strand? u = some (st.slowed k) ∧
           exec (.vext f) s = .next (t.setStrand u (((st.slowed k).gives f.d.toNat (BitVec.ofNat 64 (A n.toNat))).done f))) ∧
         (vreg w f.c 0 s2 = (.ok c, s3) → oldElems f w s3 = (.ok old, t) → ∃ k, t.strand? u = some (st.slowed k) ∧
           exec (.vslideu f) s = ends t k (fun e =>
             if n.toNat ≤ e then A (e - n.toNat) else if n.toNat ≤ e + c.es.length then C (e + c.es.length - n.toNat) else 0) ∧
           exec (.vslided f) s = ends t k (fun e =>
             if e + n.toNat < a.es.length then A (e + n.toNat) else C (e + n.toNat - a.es.length))))) ∧
     (operandX false f.a f.ta s = (.ok x, s1) → operandB f s1 = (.ok n, s2) → readV f.d.toNat s2 = (.ok (bits, tag), t) →
       ∃ k, t.strand? u = some (st.slowed k) ∧
       exec (.vins f) s = .next (t.setStrand u (((st.slowed k).setV f.d.toNat
         (ofElems w ((elems w bits).set n.toNat (x.toNat % 2 ^ w))) f.fmt).done f)))) ∧
  (∀ (s t : State) (u : Nat) (st : Strand) (f : Fields) (xs : List (Option Nat)) (start : Option Nat) (fl : Flags),
     Issues s u st f → reductionSources f s = (.ok (xs, start, fl), t) → st.bound →
     let code := f.fmt.toNat
     let w := Shape.widthOf code
     let env := envOf st.fcr f.rnd.toNat
     ∃ k, t.strand? u = some (st.slowed k) ∧
       let leaves (bits : Vec) (g : Flags) : Result := .next (t.setStrand u
         (({ (st.slowed k).setV f.d.toNat bits f.fmt with fcr := st.fcr ||| g.zeroExtend 64 } : Strand).done f))
       let ends (op : Combine) (absent : Nat) : Result :=
         let tree := reduceTree op 10 xs
         match start with
         | some v => leaves (ofElems w [(op v (tree.1.getD absent)).1]) (fl ||| tree.2 ||| (op v (tree.1.getD absent)).2)
         | none => leaves (ofElems w [tree.1.getD absent]) (fl ||| tree.2 ||| 0)
       exec (.vredadd f) s = ends (addAny code env) 0 ∧
       exec (.vredmax f) s = ends (minMaxAny true code env) (absentMinMax true code) ∧
       exec (.vredmin f) s = ends (minMaxAny false code env) (absentMinMax false code) ∧
       exec (.vredand f) s = ends (fun x y => (x &&& y, 0)) (2 ^ w - 1) ∧ exec (.vredor f) s = ends (fun x y => (x ||| y, 0)) 0 ∧
       exec (.vscanadd f) s = leaves (ofElems w (scan (addAny code env) start xs).1) (fl ||| (scan (addAny code env) start xs).2))

/-! ### Translation and protection -/

/-- 04 R90 to R94: an address beyond bit 56 traps PROTECTION 0x01. Without a cached translation the walk reads the entry of each level in
turn: the first whose V is clear traps PAGE_FAULT with its level, the first that is malformed with 0x10 + its level; a leaf maps its page,
sets A where it lies, and is judged: a write to a page that is not writable traps PROTECTION 0x02, a fetch from one that is not executable
0x03, an address in no region 0x04. A cached translation is judged alike; the first write through one sets D where its entry lies. 10
R215, 04 R98, R99, 05 R134, 13 R300, 22 R354, R369: the checks of an access in their order, each failure with its trap: alignment,
translation, the region, the declared ranges. LD and ST take what fails. What the rules leave open of these traps is free (DESIGN CHOICE,
log entry 11); where a walk meets a table in no region, and where CTXROOT's low bits lead, is the model's own (log entries 52, 56 and 63);
so is the order of the region checks (log entry 14). -/
def Obligations.TranslationAndProtection : Prop :=
  (∀ (s r : State) (core ctx : Nat) (c : Ctx) (va : Word) (acc : Acc),
    let answer := s.translate core ctx va acc
    let trap (cause extra : Nat) : Prop := answer.1 = .error (.trap cause extra va)
    (2 ^ 57 ≤ va.toNat → trap 7 0x01) ∧
    (va.toNat < 2 ^ 57 → s.ctx? ctx = some c → s.unitMoving ctx va.toNat = none →
      let writes : Prop := acc = .write ∨ acc = .zeroWrite
      let judged (leaf : Word) (bits : Nat) : Prop :=
        let pa := field leaf 51 12 * 4096 / 2 ^ bits * 2 ^ bits + va.toNat % 2 ^ bits
        let allowed : Prop := (writes → leaf.getLsbD 2 = true) ∧ (acc = .fetch → leaf.getLsbD 1 = true)
        (writes → leaf.getLsbD 2 = false → trap 7 0x02) ∧
        (acc = .fetch → leaf.getLsbD 1 = false → trap 7 0x03) ∧
        (allowed → zoneOf s.tierCap pa = .nowhere → trap 7 0x04) ∧
        (allowed → zoneOf s.tierCap pa ≠ .nowhere → answer.1 = .ok
          { pa := pa, mig := leaf.getLsbD 63, mside := leaf.getLsbD 62, rmap := leaf.getLsbD 61
            swm := leaf.getLsbD 60 && !leaf.getLsbD 62, tid := field leaf 59 52 })
      (∀ t, s.tlbFind core ctx va.toNat (acc.tlb none) = some t → judged t.leaf t.bits) ∧
      (s.tlbFind core ctx va.toNat (acc.tlb none) = none →
        s.askEach (s.walkAsks ctx c.root.toNat va.toNat (s.asker core none none)) = (none, r) → Memory.wf r.mem = true →
        let fails (extra : Nat) : Prop := trap 6 extra
        let reaches (a bits : Nat) : Prop := judged (r.word a) bits ∧ answer.2.word a = r.word a ||| 0x100
        let valid (e : Word) : Prop := e.getLsbD 0 = true
        let table (e : Word) : Prop := valid e ∧ field e 11 1 = 0 ∧ field e 63 52 = 0
        let leaf (e : Word) (sz bits : Nat) : Prop :=
          valid e ∧ e.getLsbD 3 = true ∧ field e 5 4 = sz ∧ e.getLsbD 6 = false ∧ field e 11 9 = 0 ∧
          field e 51 12 * 4096 % 2 ^ bits = 0 ∧ (e.getLsbD 61 = true → sz = 1) ∧
          (e.getLsbD 62 = true ∨ e.getLsbD 61 = true → zoneOf s.tierCap (field e 51 12 * 4096) = .hbm)
        let below (e : Word) (index : Nat) : Nat := field e 51 12 * 4096 + 8 * index
        let a1 := c.root.toNat / 2 ^ 21 * 2 ^ 21 + 8 * bitsOf va.toNat 56 39
        let e1 := r.word a1
        let a2 := below e1 (bitsOf va.toNat 38 30)
        let e2 := r.word a2
        let a3 := below e2 (bitsOf va.toNat 29 21)
        let e3 := r.word a3
        let a16 := below e3 (16 * bitsOf va.toNat 20 16)
        let e16 := r.word a16
        let a4 := below e3 (bitsOf va.toNat 20 12)
        let e4 := r.word a4
        (¬ valid e1 → fails 1) ∧ (valid e1 → ¬ table e1 → fails 0x11) ∧
        (table e1 → (¬ valid e2 → fails 2) ∧ (valid e2 → ¬ table e2 → ¬ leaf e2 3 30 → fails 0x12) ∧ (leaf e2 3 30 → reaches a2 30) ∧
          (table e2 → (¬ valid e3 → fails 3) ∧ (valid e3 → ¬ table e3 → ¬ leaf e3 2 21 → fails 0x13) ∧ (leaf e3 2 21 → reaches a3 21) ∧
            (table e3 →
              let big : Prop := valid e16 ∧ e16.getLsbD 3 = true ∧ field e16 5 4 = 1
              (big → (leaf e16 1 16 → reaches a16 16) ∧ (¬ leaf e16 1 16 → fails 0x14)) ∧
              (¬ big → (¬ valid e4 → fails 4) ∧ (valid e4 → ¬ leaf e4 0 12 → fails 0x14) ∧ (leaf e4 0 12 → reaches a4 12))))))) ∧
    (∀ t, s.tlbFind core ctx va.toNat .data = some t → t.at_ % 8 = 0 → Memory.wf s.mem = true →
      (t.leaf.getLsbD 7 = false → (s.markDirty core ctx va).word t.at_ = s.word t.at_ ||| 0x80) ∧
      (t.leaf.getLsbD 7 = true → s.markDirty core ctx va = s))) ∧
  (∀ (s r : State) (st : Strand) (c : Check) (va : Word) (n : Nat) (x : Xlat) (l : Launch),
    let answer := s.accessProblem st c va n
    let traps (extra : Nat) : Prop := answer.1 = .error (.inl (.trap 7 extra va))
    (va.toNat % c.align ≠ 0 → answer.1 = .error (.inr 12)) ∧
    (va.toNat % c.align = 0 → (∀ p, s.translate st.core st.ctx va c.acc = (.error p, r) → answer.1 = .error (.inl p)) ∧
      (s.translate st.core st.ctx va c.acc = (.ok x, r) → (c.acc = .write → r.staleEntry st.core st.ctx va none = false) →
        let zone := zoneOf r.tierCap x.pa
        let plain : Prop := zone = .hbm ∨ zone = .tier ∧ c.bits = false ∨ zone = .host ∧ c.bits = false ∧ c.atomic = false
        let slot : Prop := c.write = true ∧ 0xFFFFF80000 ≤ x.pa ∧ x.pa < 0x10000000000 ∧ (x.pa - 0xFFFFF80000) / 128 ≠ st.ctx
        let auth : Prop := ∃ e ∈ r.strands, e.2.ctx = st.ctx ∧ e.2.authAddr.toNat < va.toNat + n ∧ va.toNat < e.2.authAddr.toNat + 512
        (zone = .tier → c.bits = true → r.demotedUnit x.pa = none → traps 0x06) ∧
        (zone = .host → c.bits = true → traps 0x06) ∧
        (zone = .host → c.bits = false → c.atomic = true → traps 0x08) ∧
        (∀ k, zone = .scratch k → r.launch? st.lrec = some l →
          (l.rect.hasCore k = false ∨ r.leafIdOf k ≠ r.leafIdOf st.core → traps 0x05) ∧
          (l.rect.hasCore k = true → r.leafIdOf k = r.leafIdOf st.core → (auth → traps 0x09) ∧ (¬ auth → answer = (.ok x, r)))) ∧
        (plain → slot → traps 0x0A) ∧
        (plain → ¬ slot → auth → traps 0x09) ∧
        (plain → ¬ slot → ¬ auth → r.launch? st.lrec = some l → 0 < n → st.swLen = 0 →
          (∀ k, r.ctx? st.ctx = some k → field k.dsb 15 0 = 0) →
          let block (b : Nat) : Prop := va.toNat / 256 ≤ b ∧ b ≤ (va.toNat + n - 1) / 256
          let covered (b : Nat) : Prop := ∃ g ∈ l.ranges, g.len ≠ 0 ∧ g.base / 256 ≤ b ∧ b ≤ (g.base + g.len - 1) / 256 ∧
            (c.write = true → g.write = true)
          (∀ b, block b → ¬ covered b → answer.1 = .error (.inr 8)) ∧
          ((∀ b, block b → covered b ∧ r.gambitHolds st l b = false) → answer = (.ok x, r)))))) ∧
  (∀ (s s0 s1 r : State) (u : Nat) (st q : Strand) (f : Fields) (v va a : Word) (cause extra : Nat), Issues s u st f →
    let n := 2 ^ (f.m.toNat % 4)
    let ends (t : State) : Result := .next (t.takeTrap u cause extra st.pc a)
    let open_ (t : State) : Result :=
      .next (({ t with free := t.free + 1 } : State).takeTrap u cause ((Config.freeWord t.free).toNat % 2 ^ 32) st.pc va)
    (address f n s = (.ok va, s1) → s1.strand? u = some q →
      (s1.accessProblem q (Check.load n) va n = (.error (.inl (.trap cause extra a)), r) → exec (.ld f) s = ends r) ∧
      (s1.accessProblem q (Check.load n) va n = (.error (.inr cause), r) → exec (.ld f) s = open_ r)) ∧
    (readX f.d.toNat s = (.ok v, s0) → address f n s0 = (.ok va, s1) → s1.strand? u = some q →
      (s1.accessProblem q (Check.store n) va n = (.error (.inl (.trap cause extra a)), r) → exec (.st f) s = ends r) ∧
      (s1.accessProblem q (Check.store n) va n = (.error (.inr cause), r) → exec (.st f) s = open_ r)))

/-! ### Loads and stores -/

/-- 10 R214, R217, 05 R116: LD to its end, for an address that passes the checks and bytes that can be read. The address is xA plus the
scaled or the 20-bit offset; D takes the bytes extended as M says, those of memory, or for a SWMANAGED page those that the core sees; but
for D, the pc, the turn of a slow register and the wait for the reply, only what the memory system does of its own changes. 10 R215: an
access whose address is no multiple of its size traps ALIGNMENT with that address, before translation and with nothing read or written.
Where the rules are silent or open to a reading, the model's own: log entry 8. -/
def Obligations.Loads : Prop :=
  (∀ (s s1 s2 t : State) (u : Nat) (st : Strand) (f : Fields) (va : Word) (x : Xlat) (bytes : List (BitVec 8)),
     Issues s u st f →
     let n := 2 ^ (f.m.toNat % 4)
     address f n s = (.ok va, s1) → checkAccess (Check.load n) va n s1 = (.ok x, s2) → loadBytes x va n s2 = (.ok bytes, t) →
     (∃ a r, operandX false f.a f.ta s = (.ok a, r) ∧
       va = a + (if f.form = .base then (f.b.signExtend 64) * BitVec.ofNat 64 n else if f.bk = 0 then f.imm20.signExtend 64 else 0)) ∧
     bytes = (if s2.pathOf x = .managed then t.swmRead st.core x.pa n else Memory.getBytes s2.mem x.pa n) ∧
     ∃ k, Traffic (s.slowed u st k) t ∧ t.mem = s2.mem ∧
       let v : Word := if f.m.getLsbD 2 then BitVec.ofInt 64 (toSigned (8 * n) (Memory.ofBytes bytes))
         else BitVec.ofNat 64 (Memory.ofBytes bytes)
       exec (.ld f) s = .next ((t.setStrand u (((st.slowed k).gives f.d.toNat v).done f)).replies u)) ∧
  (∀ (s r t : State) (u : Nat) (st : Strand) (f : Fields) (v va : Word), Issues s u st f →
     let n := 2 ^ (f.m.toNat % 4)
     va.toNat % n ≠ 0 → ∃ x,
       (address f n s = (.ok va, t) → exec (.ld f) s =
         .next (({ t with free := t.free + 1 } : State).takeTrap u Cause.alignment x st.pc va)) ∧
       (readX f.d.toNat s = (.ok v, r) → address f n r = (.ok va, t) → exec (.st f) s =
         .next (({ t with free := t.free + 1 } : State).takeTrap u Cause.alignment x st.pc va)))

/-- 10 R217, 05 R116, R131: ST to its end, while no access waits on a retry list and the tier link of the address is up. The low bytes of
D are at the translated address and every other byte of memory is as it was when the checks had passed; a SWMANAGED copy holds the bytes
itself. Of the strand's registers VISMAX alone may change. -/
def Obligations.Stores : Prop :=
  ∀ (s s1 s2 s3 t : State) (u : Nat) (st : Strand) (f : Fields) (v va : Word) (x : Xlat), Issues s u st f →
    let n := 2 ^ (f.m.toNat % 4)
    let bytes := Memory.toBytes n v.toNat
    readX f.d.toNat s = (.ok v, s1) → address f n s1 = (.ok va, s2) → checkAccess (Check.store n) va n s2 = (.ok x, s3) →
    storeBytes x va bytes s3 = (.ok (), t) → s.waiters = [] → s3.tierDown x.pa = false →
    Quiet s u st s3 ∧ t.mem = (if s3.pathOf x = .managed then s3.mem else Memory.setBytes s3.mem x.pa bytes) ∧
    (∀ a, a < x.pa ∨ x.pa + n ≤ a → Memory.get t.mem a = Memory.get s3.mem a) ∧
    (∃ k vt st', t.strand? u = some st' ∧ Strand.SameButWait { st.slowed k with visMax := vt } st') ∧
    exec (.st f) s = .next ((t.behind u f).replies u)

/-! ### Synchronising accesses -/

/-- 10 R219, 04 R100: the synchronising accesses whose word is in the state they want, with nothing on the retry lists. LDF and LDS give
the word, LDS leaves it empty; STS, STE and FEW write it and set or clear its bit. The strand waits for the reply behind the instruction;
no other byte, bit or register changes but VISMAX and the phase. 10 R219, 04 R101: a synchronising access whose wait is not met waits: in
its retries while FERETRY is not zero, on its word's list otherwise; the word, its bit, the registers and the pc stay. -/
def Obligations.SyncAccesses : Prop :=
  (∀ (s s1 t : State) (u : Nat) (st : Strand) (f : Fields) (v va : Word) (x : Xlat), Issues s u st f → st.state = .run →
     s.waiters = [] →
     let lands (i : Instr) (mem : List Host.Cell) (empties : List Nat) (leaves : Bool → BitVec 64 → Strand) : Prop :=
       ∃ t' st' k vt, exec i s = .next t' ∧ t'.mem = mem ∧ t'.empties = empties ∧ t'.strand? u = some st' ∧
         st'.state = .parked ∧ st'.await = .reply ∧ Strand.Rests (leaves k vt) st'
     (address f 8 s = (.ok va, s1) →
       (checkAccess (Check.sync true) va 8 s1 = (.ok x, t) → t.isFull x.pa = true → t.poisoned x.pa 8 = false →
         lands (.ldf f) t.mem t.empties fun k _ => ((st.slowed k).gives f.d.toNat (t.word x.pa)).done f) ∧
       (checkAccess (Check.sync false) va 8 s1 = (.ok x, t) → t.isFull x.pa = true → t.poisoned x.pa 8 = false →
         lands (.lds f) t.mem (insertNat t.empties (x.pa / 8)) fun k vt =>
           { ((st.slowed k).gives f.d.toNat (t.word x.pa)).done f with visMax := vt })) ∧
     (∀ s0, readX f.d.toNat s = (.ok v, s0) → address f 8 s0 = (.ok va, s1) → checkAccess (Check.sync false) va 8 s1 = (.ok x, t) →
       let mem := Memory.setBytes t.mem x.pa (Memory.toBytes 8 v.toNat)
       let leaves (k : Bool) (vt : BitVec 64) : Strand := { (st.slowed k).done f with visMax := vt, phase := st.phase + 1 }
       (t.isFull x.pa = false → lands (.sts f) mem (removeNat t.empties (x.pa / 8)) leaves) ∧
       lands (.ste f) mem (insertNat t.empties (x.pa / 8)) leaves ∧ lands (.few f) mem (removeNat t.empties (x.pa / 8)) leaves)) ∧
  (∀ (s s0 s1 t : State) (u : Nat) (st : Strand) (f : Fields) (v va : Word) (x : Xlat) (i : Instr) (kind : WaitKind), Issues s u st f →
     ((i = .ldf f ∧ kind = .ldf ∨ i = .lds f ∧ kind = .lds) ∧ address f 8 s = (.ok va, s1) ∧
         checkAccess (Check.sync (kind == .ldf)) va 8 s1 = (.ok x, t) ∧ t.isFull x.pa = false ∨
       i = .sts f ∧ kind = .sts v ∧ readX f.d.toNat s = (.ok v, s0) ∧ address f 8 s0 = (.ok va, s1) ∧
         checkAccess (Check.sync false) va 8 s1 = (.ok x, t) ∧ t.isFull x.pa = true) →
     ∃ t' st' w k, exec i s = .next t' ∧ t'.waiters = t.waiters ++ [w] ∧ w.uid = u ∧ w.addr = x.pa ∧
       w.kind = kind ∧ w.no = t.order ∧ t'.mem = t.mem ∧ t'.empties = t.empties ∧ t'.strand? u = some st' ∧ Strand.Rests (st.slowed k) st' ∧
       st'.state = .parked ∧ st'.await = (if st.feRetry.toNat % 256 = 0 then .syncWord else .retries) ∧
       (w.listed = true ↔ st.feRetry.toNat % 256 = 0))

/-! ### Remote operations, cache control, atomics -/

/-- 10 R220, 24 R404, R407, R411, R420: LDX and STX to a module of the job, outside a wrap pause and with fewer than 64 operations of the
stream unacknowledged, leave one packet at the router, the next of the strand's stream to that module, and keep it until its response; LDX
then waits for it, STX goes on. A leased copy answers LDX at once (05 R130), and STX drops it (24 R414). To a module that the job does not
reach, LDX traps REMOTE_LOAD_FAIL, and STX has its entry in the error queue and completes. A pause and a full stream hold both back. Where
the rules are silent or open to a reading, the model's own: log entry 25. -/
def Obligations.RemoteAccesses : Prop :=
  ∀ (s s1 s2 t : State) (u : Nat) (st : Strand) (f : Fields) (a b v : Word) (job m c : Nat), Issues s u st f →
    let va : Word := a + imm20Offset f
    va.toNat % 8 = 0 → va.toNat < 2 ^ 57 →
    let packet (words : List Word) : Packet :=
      { dst := m, src := t.selfModule, job := job, seq := (Sparse.get st.streamSeq m).getD 0, addr := va, mode := f.m.toNat, board := 0,
        strand := st.sid, epoch := st.epoch, aux := 0, words := words }
    let reached : Prop := t.reach st.ctx (b.toNat % 4096) = .ok (job, m)
    (operandX false f.a f.ta s = (.ok a, s1) → operandB f s1 = (.ok b, t) → ∃ k, Traffic (s.slowed u st k) t ∧
      let copy := if f.m = 0 ∧ f.h ≠ 3 then t.leasedWord job m va.toNat else none
      (reached → Sparse.get t.pausing job = none → t.unackedTo u m < 64 →
        (copy = none → exec (.ldx f) s =
          .next ((t.sends u (st.slowed k) f 1 (packet (if f.m = 0 ∧ f.h = 3 then [3] else []))).leave u .parked .packet 2)) ∧
        ∀ w, copy = some w → exec (.ldx f) s = .next ((t.setStrand u (((st.slowed k).gives f.d.toNat w).done f)).replies u)) ∧
      (reached → (Sparse.get t.pausing job).isSome → exec (.ldx f) s = .next (t.leave u .parked .pause 15)) ∧
      (reached → Sparse.get t.pausing job = none → 64 ≤ t.unackedTo u m → exec (.ldx f) s = .next (t.leave u .parked (.window m) 15)) ∧
      (t.reach st.ctx (b.toNat % 4096) = .error c → exec (.ldx f) s = .next (t.takeTrap u Cause.remoteLoadFail c st.pc va))) ∧
    (readX f.d.toNat s = (.ok v, s1) → operandX false f.a f.ta s1 = (.ok a, s2) → operandB f s2 = (.ok b, t) →
      ∃ k, Traffic (s.slowed u st k) t ∧
      (reached → Sparse.get t.pausing job = none → t.unackedTo u m < 64 → exec (.stx f) s =
        .next (((t.dropLeased job m va.toNat).sends u (st.slowed k) f 2 (packet [v])).behind u f)) ∧
      (reached → (Sparse.get t.pausing job).isSome → exec (.stx f) s = .next (t.leave u .parked .pause 15)) ∧
      (reached → Sparse.get t.pausing job = none → 64 ≤ t.unackedTo u m → exec (.stx f) s = .next (t.leave u .parked (.window m) 15)) ∧
      (t.reach st.ctx (b.toNat % 4096) = .error c → exec (.stx f) s =
        .next ((t.errorEntry (some u) st.ctx va (b.toNat % 4096) 1 c st.sid).behind u f)))

/-- 10 R223: PREF goes on in every state, whatever becomes of its request, without a wait and without a trap, and only what the memory
system does of its own changes; where its address is a tempo read past the recorded break its strand ends (12 R285). A request that
reaches its home asks for the line as M says. CFLUSH of a checked line brings the core's dirty data home: a SWMANAGED copy has no dirty
byte after it and the bytes that were dirty are at the home, if its tier's link is up, and an owned COHERENT copy is clean. CINV leaves no
copy of the line in the core's L1, instruction cache or constant cache, and memory as it is. But for that, and for the wait for the reply,
both leave everything but what the memory system does of its own. Where the rules are silent or open to a reading, the model's own: log
entry 71. -/
def Obligations.CacheControl : Prop :=
  ∀ (s s1 s2 t : State) (u : Nat) (st : Strand) (f : Fields) (v va : Word) (x : Xlat), Issues s u st f →
    let core := st.core
    let check : Check := ⟨1, .read, false, false, false, true⟩
    let entry := (s.launch? st.lrec).bind fun l => l.tempoIndex st.isItem false f.a.toNat f.ta.toNat
    (f.ta = 0 ∨ s.broken st = false ∨ entry = none →
      ∃ k r, Traffic (s.slowed u st k) r ∧ exec (.pref f) s = .next (r.setStrand u ((st.slowed k).done f))) ∧
    (f.ta ≠ 0 → s.broken st = true → entry ≠ none → exec (.pref f) s = .next (s.endStrand u 13)) ∧
    (f.ta = 0 → st.xFull.getLsbD f.a.toNat = true → (st.x[f.a.toNat]?).getD 0 = v →
      let k := decide (48 ≤ f.a.toNat)
      (s.slowed u st k).accessProblem st check
        (v + if f.form = .base then (f.b.signExtend 64) * 8 else if f.bk = 0 then f.imm20.signExtend 64 else 0) 1 = (.ok x, s1) →
      (x.mig = true → s1.migrateTarget st.lrec x.pa = core) →
      zoneOf s1.tierCap x.pa = .hbm ∨ zoneOf s1.tierCap x.pa = .tier → x.mside = false →
      s1.askHome .issuer st.ctx [s1.askOf x false none] false = (none, t) →
      let line := lineOf x.pa
      let r := if t.l2Holds line then t.prefetch f.m.toNat core line (t.pathOf x) else t
      exec (.pref f) s = .next (r.setStrand u ((st.slowed k).done f)) ∧
      (t.l2Holds line = true → t.pathOf x = .coherent → (Sparse.get (t.core core).mshr line) = none →
        (f.m = 0 → t.l1 core line = none → r.msgs = t.msgs ++ [⟨line, core, .getS⟩]) ∧
        (f.m = 2 → t.l1 core line = none → r.msgs = t.msgs ++ [⟨line, core, .getM⟩]))) ∧
    (address f 8 s = (.ok va, s1) → checkPlace check va 1 s1 = (.ok x, s2) →
      let line := lineOf x.pa
      let dirty := s2.holdsDirty core line
      heedHome [s2.askOf x (!dirty) none] dirty s2 = (.ok (), t) → ∃ k, Traffic (s.slowed u st k) t ∧
      (∃ t' : State, exec (.cflush f) s = .next ((t'.behind u f).replies u) ∧
        (∀ l, t.l1 core line = some l → l.swm = none → Traffic t t' ∧ t'.mem = t.mem ∧
          (t.ownerOf line = some core → ∃ l', t'.l1 core line = some l' ∧ l'.state ≠ .modified ∧ l'.state ≠ .owned)) ∧
        (t.l1 core line = none → t' = t) ∧
        ∀ l bytes mask, t.l1 core line = some l → l.swm = some (bytes, mask) → s.waiters = [] →
          mask = 0 ∨ t.tierDown (line * 128) = false →
          (∃ l', t'.l1 core line = some l' ∧ l'.swm = some (bytes, 0)) ∧
          (∃ st', t'.strand? u = some st' ∧ Strand.SameButWait (st.slowed k) st') ∧
          t'.mem = (List.range 128).foldl
            (fun m i => if mask.getLsbD i then Memory.set m (line * 128 + i) (bytes.getD i 0) else m) t.mem) ∧
      ∃ t' : State, exec (.cinv f) s = .next ((t'.behind u f).replies u) ∧ Traffic t t' ∧ t'.mem = t.mem ∧ t'.l1 core line = none ∧
        (∀ e ∈ (t'.core core).icache, e.1 / 4096 ≠ line) ∧ ∀ e ∈ (t'.core core).ccache, e / 4096 ≠ line)

/-- 10 R224, R225, R226: an atomic of the module, whose line's place is settled: D takes the old value of 32 or 64 bits, and memory the
new one where the operation writes; no other byte, bit or register changes but VISMAX and the phase. Arithmetic is modulo 2^w. -/
def Obligations.Atomics : Prop :=
  ∀ (s s1 s2 s3 s4 s5 t : State) (u : Nat) (st : Strand) (f : Fields) (va b c d : Word) (x : Xlat), Issues s u st f →
    s.waiters = [] → f.m.getLsbD 3 = false →
    let n := if f.m = 2 ∨ f.m = 6 then 4 else 8
    let w := 8 * n
    let cut (v : Word) : Nat := v.toNat % 2 ^ w
    let int (v : Nat) : Int := toSigned w v
    operandX false f.a f.ta s = (.ok va, s1) → operandB f s1 = (.ok b, s2) →
    let old := t.load x.pa n
    let B := cut b
    let C := cut c
    let E := cut d
    let lands (i : Instr) (s4 : State) (writes : Prop) (new : Nat) : Prop :=
      checkAccess (Check.atom n) va n s4 = (.ok x, s5) → s5.tierDown x.pa = false → placeAtomic x s5 = (.ok (), t) →
      t.waiters = [] → t.poisoned x.pa n = false →
      ∃ (t' : State) (st' : Strand) (k : Bool) (vt : BitVec 64), t'.strand? u = some st' ∧ Strand.SameButWait { st.slowed k with visMax := vt, phase := st.phase + 1 } st' ∧
        (writes → t'.mem = Memory.setBytes t.mem x.pa (Memory.toBytes n new)) ∧ (¬ writes → t'.mem = t.mem ∧ vt = st.visMax) ∧
        t'.empties = t.empties ∧ exec i s = .next ((t'.giving u f f.d.toNat (BitVec.ofNat 64 old)).replies u)
    (lands (.aadd f) s2 True ((old + B) % 2 ^ w)) ∧
    (f.x = 0 → lands (.aand f) s2 True (old &&& B)) ∧ (f.x = 1 → lands (.aor f) s2 True (old ||| B)) ∧
    (f.x = 2 → lands (.axor f) s2 True (old ^^^ B)) ∧
    (f.x = 0 → lands (.amin f) s2 True (if int B < int old then B else old)) ∧
    (f.x = 1 → lands (.amax f) s2 True (if int old < int B then B else old)) ∧
    (f.x = 2 → lands (.aminu f) s2 True (min old B)) ∧ (f.x = 3 → lands (.amaxu f) s2 True (max old B)) ∧
    lands (.aswap f) s2 True B ∧ lands (.agts f) s2 (if f.m.getLsbD 2 then old < B else int old < int B) B ∧
    (readX f.c.toNat s2 = (.ok c, s3) →
      lands (.acas f) s3 (old = C) B ∧
      lands (.apcas f) s3 (old = C) ((B &&& (2 ^ w - 65536)) ||| ((C % 65536 + 1) % 65536)) ∧
      (readX f.d.toNat s3 = (.ok d, s4) →
        let v := C &&& (2 ^ w - C)
        lands (.avcas f) s4 (old &&& C = E &&& C) ((B &&& (2 ^ w - 1 - C)) ||| (((old &&& C) + v) % 2 ^ w &&& C))))

/-! ### Vector memory -/

/-- 09 R208 to R213: the vector loads outside a region. Active elements of D take what is at their addresses, the others keep D's bits, D
has the format's tag, and a fault-only-first load that stops at an element, the first that fails its checks or whose read meets an error,
clears its predicate from there on, the elements before it loaded; without an active element nothing is read. Only what the memory system
does of its own changes beside. A base or a stride that is no multiple of the element's size traps ALIGNMENT where an element is active,
and so does the first element whose own address is none; an index vector of another format FORMAT_MISMATCH, with nothing written. The
addresses are those of R208. Where the rules are silent or open to a reading, the model's own: log entry 78. -/
def Obligations.VectorLoads : Prop :=
  ∀ (s s1 s2 t : State) (u : Nat) (st : Strand) (f : Fields) (a d : Word) (b : VSrc) (as : Addrs) (old : List Nat)
    (vs : List (Nat × Nat)) (limit : Option Nat), Issues s u st f → st.bound →
    let w := Shape.widthOf f.fmt.toNat
    let n := w / 8
    let act := activeList w (st.predBits f.m.toNat)
    let loads (i : Instr) (ff : Bool) (addrs : Act Addrs) : Prop :=
      addrs s = (.ok as, s1) → oldElems f w s1 = (.ok old, s2) → ∃ k, Traffic (s.slowed u st k) s2 ∧
        (as.tagged = true → act.any id = false →
          exec i s = .next (s2.setStrand u (((st.slowed k).setV f.d.toNat (ofElems w old) f.fmt).done f))) ∧
        (as.tagged = true → as.aligned = true → act.any id = true → gatherElems w ff act as.vas s2 = (.ok (vs, limit), t) →
          Traffic s2 t ∧
          (let taken := (chosen act as.vas 0).map (·.1)
           (limit = none → vs.map (·.1) = taken) ∧ (ff = false → limit = none) ∧
           ∀ i, limit = some i → vs ≠ [] ∧ i ∈ taken ∧ vs.map (·.1) = taken.filter (· < i)) ∧
          (∀ es bad r, checkElems (st.slowed k) (Check.load n) n (chosen act as.vas 0) s2 = ((es, bad), r) →
            ((∀ e ∈ es, t.pathOf e.x ≠ .managed) →
              vs = (es.take vs.length).map fun e => (e.ix, Memory.ofBytes (Memory.getBytes t.mem e.x.pa n))) ∧
            ((∀ e ∈ es, t.pathOf e.x = .managed) →
              vs = (es.take vs.length).map fun e => (e.ix, Memory.ofBytes (t.swmRead st.core e.x.pa n))) ∧
            ∀ r2, hearElems (Check.load n) es r = (.ok (), r2) →
              limit = match es.find? fun e => (r2.readProblem u (st.slowed k) e n).isSome with
                | some e => some e.ix
                | none => bad.map (·.1)) ∧
          let st' := (st.slowed k).setV f.d.toNat (ofElems w (overlay old 0 vs)) f.fmt
          exec i s = .next ((t.setStrand u ((match limit with
            | some i => st'.setPred f.m.toNat (st'.predBits f.m.toNat &&& BitVec.ofNat 512 (2 ^ (i * n) - 1))
            | none => st').done f)).replies u)) ∧
        (as.tagged = false → ∃ y z, exec i s =
          .next (({ s2 with free := s2.free + 2 } : State).takeTrap u Cause.formatMismatch y st.pc z)) ∧
        (as.tagged = true → as.aligned = false → ∀ j va rest, chosen act as.vas 0 = (j, va) :: rest → ∃ y, exec i s =
          .next (({ s2 with free := s2.free + 1 } : State).takeTrap u Cause.alignment y st.pc va)) ∧
        (as.tagged = true → as.aligned = true → ∀ before j va rest es r, chosen act as.vas 0 = before ++ (j, va) :: rest →
          checkElems (st.slowed k) (Check.load n) n before s2 = ((es, none), r) → (ff = false ∨ before = []) → va.toNat % n ≠ 0 →
          ∃ y, exec i s = .next (({ r with free := r.free + 1 } : State).takeTrap u Cause.alignment y st.pc va))
    loads (.vld f) false (unitAddrs f w) ∧ loads (.vlds f) false (strideAddrs f w) ∧ loads (.vgath f) false (indexAddrs f w) ∧
    loads (.vldff f) true (unitAddrs f w) ∧
    (operandX false f.a f.ta s = (.ok a, s1) →
      let base : Word := a + imm20Offset f
      unitAddrs f w s = (.ok ⟨(List.range (4096 / w)).map fun e => base + BitVec.ofNat 64 (e * n), true, true⟩, s1) ∧
      (operandB f s1 = (.ok d, s2) →
        strideAddrs f w s = (.ok ⟨(List.range (4096 / w)).map fun e => base + BitVec.ofNat 64 e * d,
          decide (base.toNat % n = 0 ∧ d.toNat % n = 0), true⟩, s2)) ∧
      (vreg w f.b 0 s1 = (.ok b, s2) →
        indexAddrs f w s = (.ok ⟨b.es.map fun i => base + (BitVec.ofInt 64 (toSigned w i) <<< (f.e.toNat % 4)), true,
          decide (b.tag = some (tagOf (if w = 32 then 9 else 8)))⟩, s2)))

/-- 09 R208 to R212: the vector stores outside a region, whose elements have all passed their checks, to their homes: every active
element's low bytes are at its address, in ascending order of the elements, and no other byte changes; of the strand's registers VISMAX
alone may change. A base or a stride that is no multiple of the element's size traps ALIGNMENT where an element is active, and so does the
first element whose own address is none; an index vector of another format FORMAT_MISMATCH, with nothing written. Where the rules are
silent or open to a reading, the model's own: log entry 78. -/
def Obligations.VectorStores : Prop :=
  ∀ (s s1 s2 t : State) (u : Nat) (st : Strand) (f : Fields) (as : Addrs) (v : Vec) (tag : BitVec 4),
    Issues s u st f → st.bound →
    let w := Shape.widthOf f.fmt.toNat
    let n := w / 8
    let act := activeList w (st.predBits f.m.toNat)
    let stores (i : Instr) (addrs : Act Addrs) : Prop :=
      addrs s = (.ok as, s1) → readV f.d.toNat s1 = (.ok (v, tag), s2) → ∃ k, Traffic (s.slowed u st k) s2 ∧
        (as.tagged = true → as.aligned = true ∨ act.any id = false → scatterElems w act as.vas (elems w v) s2 = (.ok (), t) →
          exec i s = .next ((t.behind u f).replies u) ∧
          (s.waiters = [] → (∃ vt st', t.strand? u = some st' ∧ Strand.SameButWait { st.slowed k with visMax := vt } st') ∧
            (act.any id = true → ∃ es r r2, checkElems (st.slowed k) (Check.store n) n (chosen act as.vas 0) s2 = ((es, none), r) ∧
              Traffic r r2 ∧
              ((∀ e ∈ es, r.pathOf e.x ≠ .managed ∧ r.tierDown e.x.pa = false) →
                t.mem = (es.zip ((chosen act (elems w v) 0).map (·.2))).foldl
                  (fun m p => Memory.setBytes m p.1.x.pa (Memory.toBytes n p.2)) r2.mem)))) ∧
        (as.tagged = false → ∃ y z, exec i s =
          .next (({ s2 with free := s2.free + 2 } : State).takeTrap u Cause.formatMismatch y st.pc z)) ∧
        (as.tagged = true → as.aligned = false → ∀ j va rest, chosen act as.vas 0 = (j, va) :: rest → ∃ y, exec i s =
          .next (({ s2 with free := s2.free + 1 } : State).takeTrap u Cause.alignment y st.pc va)) ∧
        (as.tagged = true → as.aligned = true → ∀ before j va rest es r, chosen act as.vas 0 = before ++ (j, va) :: rest →
          checkElems (st.slowed k) (Check.store n) n before s2 = ((es, none), r) → va.toNat % n ≠ 0 →
          ∃ y, exec i s = .next (({ r with free := r.free + 1 } : State).takeTrap u Cause.alignment y st.pc va))
    stores (.vst f) (unitAddrs f w) ∧ stores (.vsts f) (strideAddrs f w) ∧ stores (.vscat f) (indexAddrs f w)

/-! ### Ordering, watches, barriers, presence -/

/-- 05 R122, R135, 10 R229, 04 R105: FENCE, ACQ and REL complete at once below fabric scope, and above it where every posted operation is
acknowledged, its error-queue entry written (24 R416), and the lease clock has passed VISMAX; the release half advances the phase counter.
DRAIN is complete where no command of its path is outstanding, and waits otherwise, to go on behind itself. -/
def Obligations.Ordering : Prop :=
  ∀ (s : State) (u : Nat) (st : Strand) (f : Fields), Issues s u st f →
    let done : Result := .next (s.setStrand u (st.done f))
    let released : Result := .next (s.setStrand u ({ st with phase := st.phase + 1 }.done f))
    exec (.acq f) s = done ∧
    let settled : Prop := (∀ e ∈ s.sent, e.uid = u → e.ty = 1) ∧
      (∀ l ∈ s.later, ∀ c a p k n d, l.chore ≠ .entry (some u) c a p k n d) ∧ (st.visMax = 0 ∨ st.visMax.toNat < s.leaseClock.toNat)
    (f.m.toNat < 5 ∨ settled → exec (.fence f) s = released ∧ exec (.rel f) s = released) ∧
    (5 ≤ f.m.toNat → ¬ settled →
      exec (.fence f) s = .next (s.leave u .parked (.order true true (f.m == 6)) 15) ∧
      exec (.rel f) s = .next (s.leave u .parked (.order true false (f.m == 6)) 15)) ∧
    ((∀ c ∈ (s.core st.core).mx.queue ++ (s.core st.core).ce.queue,
        c.state = .held ∨ c.path ≠ none ∧ c.path ≠ some f.m.toNat ∨ s.order ≤ c.drainNo) → exec (.drain f) s = done) ∧
    ((∃ c ∈ (s.core st.core).mx.queue ++ (s.core st.core).ce.queue,
        c.state ≠ .held ∧ (c.path = none ∨ c.path = some f.m.toNat) ∧ c.drainNo < s.order) →
      exec (.drain f) s = .next ((s.setStrand u { st with behind := lenOf f }).leave u .parked (.drain f.m.toNat s.order) 15))

/-- 10 R232, R233, R235, R236: WATCH arms its slot on the line where a watcher can be registered and answers 0, 1 without space, and 2 at
a scratchpad or host line, the slot unarmed in each failure, once the watchers of the table entries that it has changed itself have heard;
UNWATCH clears the slots of its mask; SLEEP takes the fired slots of its
mask, or sleeps while the armed slots of a mask that is not empty have not fired. 10 R234, R235: a write to a line fires every slot that
is armed on it and no other, and a sleeping strand with a fired slot in its mask becomes ready. -/
def Obligations.Watches : Prop :=
  (∀ (s s1 s2 t : State) (u : Nat) (st : Strand) (f : Fields) (va b : Word) (x : Xlat), Issues s u st f →
     (address f 8 s = (.ok va, s1) → checkPlace ⟨1, .read, false, false, false, true⟩ va 1 s1 = (.ok x, s2) →
       heedHome [s2.askOf x false none] false s2 = (.ok (), t) → s.waiters = [] →
       let slot := f.m.toNat % 8
       let line := x.pa / 128
       ∃ k, Traffic (s.slowed u st k) t ∧ ∃ q, t.hear.strand? u = some q ∧ Strand.SameButWait (st.slowed k) q ∧
       let off := q.unwatch (2 ^ slot)
       let r := t.hear.setStrand u off
       let apart := x.mside || !r.l2Holds line
       let ends (r : State) (st : Strand) (status : Word) : Result :=
         .next ((r.setStrand u ((st.gives f.d.toNat status).done f)).replies u)
       ((∃ o, zoneOf t.tierCap x.pa = .scratch o) ∨ zoneOf t.tierCap x.pa = .host → exec (.watch f) s = ends r off 2) ∧
       (zoneOf t.tierCap x.pa = .hbm ∨ zoneOf t.tierCap x.pa = .tier →
         (r.noSpace st.ctx line apart = true → exec (.watch f) s = ends r off 1) ∧
         (r.noSpace st.ctx line apart = false →
           exec (.watch f) s = ends { r with watchOnly := if apart then Sparse.put r.watchOnly line (homeBoard x.pa) else r.watchOnly }
             { off with watch := off.watch.setIfInBounds slot { armed := true, line := line, va := va, fired := false } } 0))) ∧
     (operandI f s = (.ok b, t) → ∃ k, t.strand? u = some (st.slowed k) ∧
       exec (.unwatch f) s = .next ((t.setStrand u (((st.slowed k).unwatch (b.toNat % 256)).done f)).replies u) ∧
       let mask := b.truncate 8 &&& (st.slots (·.armed))
       let hit := st.slots (·.fired) &&& mask
       (mask ≠ 0 → hit = 0 →
         exec (.sleep f) s = .next ((t.setStrand u { st.slowed k with sleepMask := mask }).leave u .sleep .reply 10)) ∧
       (mask = 0 ∨ hit ≠ 0 → ∃ ws, exec (.sleep f) s = .next (t.setStrand u
           (({ st.slowed k with sleepMask := 0, watch := ws }.gives f.d.toNat (hit.zeroExtend 64)).done f)) ∧
         ∀ i : Fin 8, ws[i] = if hit.getLsbD i then { st.watch[i] with fired := false } else st.watch[i]))) ∧
  (∀ (s : State) (line v : Nat) (st : Strand), s.strand? v = some st → ∃ st', (s.fireLine line).strand? v = some st' ∧
     (∀ i : Fin 8, st'.watch[i] =
       if st.watch[i].armed ∧ st.watch[i].line = line then { st.watch[i] with fired := true } else st.watch[i]) ∧
     (st.state = .sleep → st.isSpilled = false → (∃ i : Fin 8, st.sleepMask.getLsbD i ∧ st.watch[i].armed ∧ st.watch[i].line = line) →
       st.woken = false → st'.state = .ready) ∧
     st'.x = st.x ∧ st'.pc = st.pc)

/-- 10 R230, R231: BARW reads a full word that has reached b, and waits as a synchronising load does where the word is empty or below. BAR
adds one to a full word, and passes where that reaches the next multiple of b; before it waits on the word's list. A zero b traps ARITH.
10 R238, R239: PUTN without a neighbour gives 2; with one it leaves its value on the free link of the direction and waits for the answer,
or waits its turn for the link. FEMPTY and FFULL clear and set the presence bit of an x or a v register, and nothing else. -/
def Obligations.BarriersAndPresence : Prop :=
  (∀ (s s1 s2 t : State) (u : Nat) (st : Strand) (f : Fields) (a n : Word) (x : Xlat), Issues s u st f → st.state = .run →
     s.waiters = [] → operandX false f.a f.ta s = (.ok a, s1) → operandB f s1 = (.ok n, s2) →
     let va : Word := a + imm20Offset f
     let word := (t.word x.pa).toNat
     let lands (i : Instr) (mem : List Host.Cell) : Prop :=
       ∃ t' st' k vt, exec i s = .next t' ∧ t'.mem = mem ∧ t'.empties = t.empties ∧ t'.waiters = [] ∧ t'.strand? u = some st' ∧
         st'.state = .parked ∧ st'.await = .reply ∧
         Strand.Rests { ((st.slowed k).gives f.d.toNat (t.word x.pa)).done f with visMax := vt, phase := st.phase + 1 } st'
     (checkAccess (Check.sync true) va 8 s2 = (.ok x, t) → t.isFull x.pa = true → t.poisoned x.pa 8 = false → n.toNat ≤ word →
       lands (.barw f) t.mem) ∧
     (checkAccess (Check.sync true) va 8 s2 = (.ok x, t) → (t.isFull x.pa = false ∨ t.poisoned x.pa 8 = false ∧ word < n.toNat) →
       ∃ t' st' w k, exec (.barw f) s = .next t' ∧ t'.waiters = t.waiters ++ [w] ∧ w.uid = u ∧ w.addr = x.pa ∧ w.kind = .barw n ∧
         w.no = t.order ∧ t'.mem = t.mem ∧ t'.empties = t.empties ∧ t'.strand? u = some st' ∧ Strand.Rests (st.slowed k) st' ∧
         st'.state = .parked ∧ st'.await = (if st.feRetry.toNat % 256 = 0 then .syncWord else .retries)) ∧
     (n ≠ 0 → checkAccess (Check.sync false) va 8 s2 = (.ok x, t) → t.isFull x.pa = true → t.poisoned x.pa 8 = false →
       word + 1 < 2 ^ 64 →
       let mem := Memory.setBytes t.mem x.pa (Memory.toBytes 8 (word + 1))
       ((word + 1) % n.toNat = 0 → lands (.bar f) mem) ∧
       ((word + 1) % n.toNat ≠ 0 → ∃ t' w, exec (.bar f) s = .next t' ∧ t'.mem = mem ∧ t'.waiters = [w] ∧ w.uid = u ∧ w.addr = x.pa ∧
         w.kind = .barLeave (t.word x.pa) ((word + n.toNat) / n.toNat * n.toNat) ∧ w.listed = true ∧
         ∃ st', t'.strand? u = some st' ∧ st'.state = .parked ∧ st'.await = .syncWord ∧ st'.pc = st.pc ∧ st'.x = st.x)) ∧
     (n = 0 → ∃ k x y, s2.strand? u = some (st.slowed k) ∧
       exec (.bar f) s = .next (({ s2 with free := s2.free + 2 } : State).takeTrap u Cause.arith x st.pc y))) ∧
  (∀ (s s1 t : State) (u : Nat) (st : Strand) (f : Fields) (a slot : Word) (bits : Vec) (tag : BitVec 4), Issues s u st f →
     let dir := f.m.toNat % 4
     ((f.m.getLsbD 2 = false ∧ operandX false f.a f.ta s = (.ok a, s1) ∧ bits = a.zeroExtend 4096 ∧ tag = 0 ∨
         f.m.getLsbD 2 = true ∧ st.bound ∧ operandV f.a f.ta s = (.ok (bits, tag), s1)) → operandB f s1 = (.ok slot, t) →
       ∃ k, Traffic (s.slowed u st k) t ∧
       (t.neighbour st.core dir = none → exec (.putn f) s = .next (t.setStrand u (((st.slowed k).gives f.d.toNat 2).done f))) ∧
       (t.neighbour st.core dir ≠ none →
         let taken := ((t.core st.core).links[dir]?).any (·.isSome) || t.mustQueue .issuer (linkPlace st.core dir)
         let v : LinkVal := { sender := u, slot := slot.toNat % 256, isV := f.m.getLsbD 2, reg := f.c.toNat, bits := bits, tag := tag,
                              dest := f.d.toNat, len := lenOf f }
         (taken = false → exec (.putn f) s = .next ((t.editCore st.core fun k =>
           { k with links := k.links.setIfInBounds dir (some v) }).leave u .parked .putn 2)) ∧
         (taken = true → exec (.putn f) s = .next (t.leave u .parked (.link st.core dir) 15)))) ∧
     (f.m ≠ 1 →
       exec (.fempty f) s = .next (s.setStrand u ({ st with xFull := st.xFull &&& ~~~(1#64 <<< f.d.toNat) }.done f)) ∧
       exec (.ffull f) s = .next (s.setStrand u ({ st with xFull := st.xFull ||| (1#64 <<< f.d.toNat) }.done f))) ∧
     (f.m = 1 → ∀ v, st.vec = some v → v.spilled = false →
       exec (.fempty f) s = .next (s.setStrand u
         ({ st with vec := some { v with vFull := v.vFull &&& ~~~(1#32 <<< f.d.toNat) } }.done f)) ∧
       exec (.ffull f) s = .next (s.setStrand u ({ st with vec := some { v with vFull := v.vFull ||| (1#32 <<< f.d.toNat) } }.done f))))

/-! ### Loops and regions -/

/-- 12 R265, R266: outside a region, LOOP pushes a record with its count, or leaves for the instruction behind its LEND where the count is
zero; LEND counts down and goes back until the count is spent; LBRK leaves where its condition holds. A fifth record, a LEND or LBRK
without one and a LEND that is not its record's trap QUEUE_MISUSE. -/
def Obligations.CountedLoops : Prop :=
  ∀ (s r t : State) (u : Nat) (st : Strand) (f : Fields) (n : Word) (top : LoopRec) (rest : List LoopRec), Issues s u st f →
    let label : Word := st.pc + f.imm20.signExtend 64 * 4
    let misuse (s : State) (x : Nat) (e : Result) : Prop :=
      ∃ addr, e = .next (({ s with free := s.free + 1 } : State).takeTrap u Cause.queueMisuse x st.pc addr)
    (operandX false f.a f.ta s = (.ok n, r) → ∃ k, r.strand? u = some (st.slowed k) ∧
      (st.loops.length < 4 → n ≠ 0 → exec (.loop f) s =
        .next (r.setStrand u ({ st.slowed k with loops := ⟨n, st.pc + 12, label⟩ :: st.loops }.done f))) ∧
      (st.loops.length < 4 → n = 0 → IsCode r st (label + 12) t →
        exec (.loop f) s = .next (t.setStrand u ((st.slowed k).goes (label + 12)))) ∧
      (4 ≤ st.loops.length → misuse r 6 (exec (.loop f) s)) ∧
      (st.loops = top :: rest → (f.m = 1 ∧ n ≠ 0 ∨ 2 ≤ f.m.toNat ∧ n = 0) → IsCode r st (top.lend + 12) t →
        exec (.lbrk f) s = .next (t.setStrand u ({ st.slowed k with loops := rest }.goes (top.lend + 12)))) ∧
      (st.loops = top :: rest → (f.m = 1 ∧ n = 0 ∨ 2 ≤ f.m.toNat ∧ n ≠ 0) →
        exec (.lbrk f) s = .next (r.setStrand u ((st.slowed k).done f)))) ∧
    (st.loops = top :: rest → st.pc = top.lend →
      (top.rem = 1 → exec (.lend f) s = .next (s.setStrand u ({ st with loops := rest }.done f))) ∧
      (top.rem ≠ 1 → IsCode s st top.top t → exec (.lend f) s =
        .next (t.setStrand u ({ st with loops := { top with rem := top.rem - 1 } :: rest }.goes top.top)))) ∧
    (st.loops = top :: rest → f.m = 0 → IsCode s st (top.lend + 12) t →
      exec (.lbrk f) s = .next (t.setStrand u ({ st with loops := rest }.goes (top.lend + 12)))) ∧
    (st.loops = [] ∨ st.loops = top :: rest ∧ st.pc ≠ top.lend → misuse s 7 (exec (.lend f) s)) ∧
    (st.loops = [] → f.m = 0 → misuse s 7 (exec (.lbrk f) s))

/-- 12 R267 to R272: DSPLIT with the sequencer free begins a region whose access stream has the strand's registers and stands behind it.
In a region QBR's outcome is decided and queued by the access stream and taken from the queue by the execute stream; QPUSH queues its
value for the execute stream, which passes over it, and QPOP takes an entry; DJOIN of the access stream ends its run, and then of the
execute stream the region, which must have left nothing in its queues: the strand goes on with the access stream's registers. 12 R268,
R270, R274: in a region the stream that an instruction does not belong to passes over it, and an instruction of neither stream traps
QUEUE_MISUSE. An access-stream VLD into a queue register leaves its elements in the queue, and waits for its reply. -/
def Obligations.Regions : Prop :=
  (∀ (s t : State) (u : Nat) (st : Strand) (g : Region) (f : Fields) (a : Word),
     (Issues s u st f → s.seqHolder st.core = none → s.sequencerWaiters st.core u = [] → s.landing u false = false →
       let s' := s.editCore st.core fun k => { k with seq := some u }
       exec (.dsplit f) s = .next (s'.setStrand u ((st.split (lenWord f)).done f))) ∧
     (InRegion s u st g true f →
       let label : Word := g.seqPc + f.imm20.signExtend 64 * 4
       (operandX false f.a f.ta s = (.ok a, s) →
         (∀ l, g.q[f.d.toNat - 28]? = some l → l.length < 8 → let w := Shape.widthOf f.fmt.toNat
           let e : QEntry := ⟨ofElems w (List.replicate (4096 / w) (a.toNat % 2 ^ w)), f.fmt, 0⟩
           exec (.qpush f) s = .next (s.editStrand u fun q =>
             (q.inRegion fun g => { g with q := g.q.setIfInBounds (f.d.toNat - 28) (l ++ [e]) }).past true f)) ∧
         (g.qb.length < 16 → a = 0 → exec (.qbr f) s =
           .next (s.editStrand u fun q => (q.inRegion fun g => { g with qb := g.qb ++ [false] }).past true f)) ∧
         (g.qb.length < 16 → a ≠ 0 → IsCode s st label t → exec (.qbr f) s = .next (t.editStrand u fun q => q.inRegion fun g =>
           { g with qb := g.qb ++ [true], seqPc := label, queued := none }))) ∧
       exec (.qpop f) s = .next (s.editStrand u (·.past true f)) ∧
       exec (.djoin f) s = .next (s.editStrand u fun q => q.inRegion fun g => { g with joined := true })) ∧
     (InRegion s u st g false f →
       let label : Word := st.pc + f.imm20.signExtend 64 * 4
       exec (.qpush f) s = .next (s.editStrand u (·.past false f)) ∧
       (∀ b rest, g.qb = b :: rest →
         let taken (q : Strand) : Strand := q.inRegion fun g => { g with qb := rest }
         (b = false → exec (.qbr f) s = .next (s.editStrand u fun q => (taken q).past false f)) ∧
         (b = true → IsCode s st label t → exec (.qbr f) s = .next (t.editStrand u fun q => (taken q).goes label))) ∧
       (∀ e rest, 28 ≤ f.a.toNat → g.q[f.a.toNat - 28]? = some (e :: rest) → st.bound →
         exec (.qpop f) s = .next (s.editStrand u fun q => ((q.inRegion fun g =>
           { g with popped := g.popped ||| (1#4 <<< (f.a.toNat - 28)) }).setV f.d.toNat e.bits e.tag).past false f)) ∧
       (g.joined = true → (∀ i : Fin 4, g.q[i] = []) → g.qb = [] → g.store = [] →
         (∀ w ∈ s.waiters, w.uid = u → w.access = false) → (∀ e ∈ s.sent, e.uid = u → e.access = false) →
         exec (.djoin f) s = .next ((s.setStrand u ({ st with region := none, x := g.x, xFull := g.xFull, loops := g.loops }.done f)).editCore
           st.core fun k => { k with seq := if k.seq == some u then none else k.seq })))) ∧
  (∀ (s s1 t : State) (u : Nat) (st : Strand) (g : Region) (f : Fields) (as : Addrs) (vs : List (Nat × Nat)),
     (InRegion s u st g false f →
       (∀ i ∈ [Instr.ld f, .st f, .ldf f, .lds f, .ldx f, .vld f, .vlds f, .vgath f, .tidx f],
         exec i s = .next (s.editStrand u fun q => q.goes (q.pc + lenWord f))) ∧
       ∀ i ∈ [Instr.sts f, .few f, .aadd f, .fence f, .call f, .spawn f, .launch f],
         ∃ addr, exec i s = .next (({ s with free := s.free + 1 } : State).takeTrap u Cause.queueMisuse 1 st.pc addr)) ∧
     (InRegion s u st g true f →
       (∀ i ∈ [Instr.vfadd f, .vadd f, .vperm f, .vredadd f],
         exec i s = .next (s.editStrand u fun q => q.inRegion fun g => { g with seqPc := g.seqPc + lenWord f, queued := none })) ∧
       (let w := Shape.widthOf f.fmt.toNat
        f.m = 0 → 28 ≤ f.d.toNat → g.q[f.d.toNat - 28]? = some [] → unitAddrs f w s = (.ok as, s1) →
         gatherElems w false (List.replicate (4096 / w) true) as.vas s1 = (.ok (vs, none), t) →
         ∃ t' st', exec (.vld f) s = .next t' ∧ t'.strand? u = some st' ∧ t'.mem = t.mem ∧ ∃ g', st'.region = some g' ∧
           g'.q[f.d.toNat - 28]? = some [⟨ofElems w (vs.map (·.2)), f.fmt, 0⟩] ∧ g'.blocked = some .reply ∧
           g'.seqPc = g.seqPc + lenWord f)))

/-! ### Tempo -/

/-- 12 R280, R284 to R286, 08 R201: TIDX gives the break index that the core has recorded; BRKO lowers the launch's to its item and waits
until every core has recorded it; TEXP makes the exports that M names, and an item above the index ends; VREL makes the exports of v
registers that an item still owes, or ends above the index, and gives the vector context back, with byte 0's bit of each predicate in the
predicate word. 12 R278, R280: an export enters the launch's window under its item, and unless that place holds a later item's, and is on
its way to every reader that has been placed. -/
def Obligations.TempoInstructions : Prop :=
  (∀ (s t : State) (u : Nat) (st : Strand) (f : Fields) (l : Launch) (e : Export) (v : FwdVal), Issues s u st f →
     exec (.tidx f) s = .next (s.setStrand u ((st.gives f.d.toNat (BitVec.ofNat 64 (s.recordedBreak st.core st.lrec))).done f)) ∧
     (let r := s.editLaunch st.lrec fun l => { l with brk := min l.brk st.item, brko := true }
      (r.unrecorded st.lrec = [] → exec (.brko f) s = .next (r.setStrand u (st.done f))) ∧
      (r.unrecorded st.lrec ≠ [] → exec (.brko f) s =
        .next ((r.setStrand u { st with behind := lenOf f }).leave u .parked (.recorded st.lrec) 15))) ∧
     (s.launch? st.lrec = some l → l.exports ≠ [] → f.m.toNat < 2 ^ l.exports.length → st.isItem = true →
       (s.broken st = true → exec (.texp f) s = .next (s.endStrand u 13)) ∧
       (s.broken st = false →
         (makeExports (fun j _ => f.m == 0 || f.m.getLsbD j) l.exports 0 s = (.ok (), t) → exec (.texp f) s = .next (t.behind u f)) ∧
         (l.exports = [e] → st.exported.getLsbD 0 = false → exportValue e s = (.ok v, t) →
           exec (.texp f) s = .next ((t.makeExport u 0 v).behind u f)))) ∧
     (st.vec = none → exec (.vrel f) s = .next (s.setStrand u (st.done f))) ∧
     (st.bound → s.landing u true = false →
       let gone (t : State) : Prop := ∃ q st' : Strand, t.strand? u = some q ∧ exec (.vrel f) s = .next (t.setStrand u (st'.done f)) ∧
         st'.vec = none ∧ (∀ p < 16, st'.lane0 p = q.lane0 p) ∧ st' = { q with pw := st'.pw, vec := none }
       let owes : Prop := ∃ j e, l.exports[j]? = some e ∧ e.isV = true ∧ st.exported.getLsbD j = false
       (st.isItem = false → gone s) ∧
       (st.isItem = true → s.launch? st.lrec = some l →
         (¬ owes → gone s) ∧ (owes → s.broken st = true → exec (.vrel f) s = .next (s.endStrand u 13)) ∧
         (owes → s.broken st = false → makeExports (fun _ e => e.isV) l.exports 0 s = (.ok (), t) → gone t)))) ∧
  (∀ (s : State) (u j : Nat) (st : Strand) (v : FwdVal) (l : Launch), s.strand? u = some st → s.launch? st.lrec = some l →
     ∃ l', (s.makeExport u j v).launch? st.lrec = some l' ∧
       ((∀ e, Sparse.get l.window (windowKey st.item j) = some e → e.1 ≤ st.item) →
         Sparse.get l'.window (windowKey st.item j) = some (st.item, v)) ∧
       (∀ d, 1 ≤ d → d ≤ l.maxd → (s.itemStrand st.lrec (st.item + d)).isSome →
         { item := st.item + d, d := d, j := j, value := v } ∈ l'.flight) ∧
       l' = { l with window := l'.window, flight := l'.flight })

/-! ### Tasks -/

/-- 13 R288 to R291: SPAWN pushes the continuation behind it and goes on at its target with the link in x46, whose bit 0 says that the deque
had no room; EXIT ends the strand; EXIT.child goes back into its parent's continuation where that is still the newest of its slot, and ends
otherwise; YIELD goes behind the ready strands. 13 R292: FINB opens the lowest free scope under the strand's, FINE ends the strand's scope
and returns to its parent, FINW goes on where the scope's count is 0 and waits for that otherwise. Where the rules are silent or open to a
reading, the model's own: log entries 44 and 82, of which 82 has an ended caller's authority kept in its launch. -/
def Obligations.SpawnEndAndScopes : Prop :=
  (∀ (s r r1 t : State) (u : Nat) (st : Strand) (f : Fields) (c : Cont) (e : DqEntry), Issues s u st f →
    let target : Word := st.pc + ((f.d ++ f.a ++ f.b ++ f.m).signExtend 64) * 4
    let back : Word := (st.x[46]?).getD 0
    (IsCode s st target r → hereCont f r = (.ok c, r1) →
      c = { pc := st.pc + BitVec.ofNat 64 (lenOf f), fp := (st.x[45]?).getD 0, lrec := st.lrec, scope := st.scope, item := st.item,
            stolen := false, xsave := [1, 2, 3, 4, 5].map fun i => (st.x[i]?).getD 0 } ∧
      let entry : DqEntry := { cont := c, tag := some st.slotNo, byItem := st.isItem }
      ((r1.core st.core).deque.length < 64 →
        (r1.pushCont st.core st.ctx st.sid entry).1 = .done) ∧
      (r1.pushCont st.core st.ctx st.sid entry = (.done, t) →
        exec (.spawn f) s = .next (((t.scopeUp st.ctx st.scope).popUp st.lrec).editStrand u fun q =>
          { q.gives 46 c.pc with phase := q.phase + 1 }.goes target)) ∧
      (r1.pushCont st.core st.ctx st.sid entry = (.spent, t) →
        exec (.spawn f) s = .next (t.editStrand u fun q => { q.gives 46 (c.pc + 1) with phase := q.phase + 1 }.goes target))) ∧
    (s.broken st = true ∨ st.isItem = false → exec (.exit f) s = .next (s.endStrand u 13)) ∧
    (s.broken st = false → finalExports s = (.ok (), t) → exec (.exit f) s = .next (t.endStrand u 13)) ∧
    ((s.endStrand u 13).strand? u = none ∧ (s.endStrand u 13).mem = s.mem ∧
      ∀ l, s.launch? st.lrec = some l → (s.endStrand u 13).launch? st.lrec =
        some { l with pop := l.pop - 1, callerAuth := if l.caller = u then st.auth else l.callerAuth }) ∧
    (st.xFull.getLsbD 46 = true → back.getLsbD 0 = true → IsCode s st (back - 1) t →
      exec (.exitChild f) s = .next (t.setStrand u (st.goes (back - 1)))) ∧
    (st.xFull.getLsbD 46 = true → back.getLsbD 0 = false →
      (s.newestOwn st.core st.slotNo = some e → e.cont.pc.extractLsb' 2 46 = back.extractLsb' 2 46 →
        exec (.exitChild f) s = .next ((s.scopeDown st.ctx st.scope).resumeParent u st e)) ∧
      (s.newestOwn st.core st.slotNo = none ∨
          s.newestOwn st.core st.slotNo = some e ∧ e.cont.pc.extractLsb' 2 46 ≠ back.extractLsb' 2 46 → st.isItem = false →
        exec (.exitChild f) s = .next ((s.scopeDown st.ctx st.scope).endStrand u 13))) ∧
    exec (.yield f) s = .next ((s.setStrand u (st.done f)).leave u .ready .reply 15)) ∧
  (∀ (s t : State) (u n : Nat) (st : Strand) (f : Fields) (a : Word), Issues s u st f →
    (1 ≤ n → n < 256 → (s.scopeOf st.ctx n).state = .free → (∀ m, 1 ≤ m → m < n → (s.scopeOf st.ctx m).state ≠ .free) →
      exec (.finb f) s = .next ((s.setScope st.ctx n ⟨.opened, 0, st.scope⟩).setStrand u
        (({ st with scope := n }.gives f.d.toNat (BitVec.ofNat 64 n)).done f))) ∧
    ((∀ m, 1 ≤ m → m < 256 → (s.scopeOf st.ctx m).state ≠ .free) →
      exec (.finb f) s = .next (s.setStrand u ((st.gives f.d.toNat 0x8000000000000001).done f))) ∧
    (let x := s.scopeOf st.ctx st.scope
     st.scope ≠ 0 → exec (.fine f) s = .next ((s.setScope st.ctx st.scope
       { x with state := if x.count = 0 then .free else .ended }).setStrand u ({ st with scope := x.parent }.done f))) ∧
    (st.scope = 0 → ∃ x y, exec (.fine f) s =
      .next (({ s with free := s.free + 2 } : State).takeTrap u Cause.illegalForm x st.pc y)) ∧
    (operandX false f.a f.ta s = (.ok a, t) → ∃ k, t.strand? u = some (st.slowed k) ∧
      let w := a.toNat % 256
      let x := t.scopeOf st.ctx w
      (x.state = .free ∨ x.count = 0 → exec (.finw f) s = .next (t.setStrand u ((st.slowed k).done f))) ∧
      (x.state ≠ .free → x.count ≠ 0 → exec (.finw f) s =
        .next ((t.setStrand u { st.slowed k with behind := lenOf f }).leave u .parked (.scopeZero st.ctx w) 15))))

/-- 13 R293 to R295, 02 R52, R59: SUSP stores its record and ends without a change of the population; RESM pushes a valid record of a
running launch on its core and clears V, and answers 2^63 + 1, 2 or 3 otherwise; MIGR goes to the home of its address, once the strand's
writes are acknowledged. A record read back
is the continuation that was stored. -/
def Obligations.SuspendResumeMigrate : Prop :=
  ∀ (s s1 s2 s3 s4 t : State) (u : Nat) (st : Strand) (f : Fields) (a b : Word) (c : Cont) (x : Xlat), Issues s u st f →
    (operandX false f.a f.ta s = (.ok a, s1) → hereCont f s1 = (.ok c, s2) → st.vec = none → st.loops = [] →
      checkAccess Check.record a 64 s2 = (.ok x, s3) → (s3.pathOf x = .coherent → heedRace x a 64 s3 = (.ok (), s3)) → finalExports s3 = (.ok (), s4) →
      storeBytes x a ((c.words true).flatMap (Memory.toBytes 8)) s4 = (.ok (), t) →
      exec (.susp f) s = .next (t.endStrand u 13 false)) ∧
    (c.pc.toNat % 4 = 0 → c.pc.toNat < 2 ^ 48 → c.lrec < 1024 → c.scope < 256 → c.item < 2 ^ 40 → c.xsave.length = 5 →
      contOf ((c.words true).map (BitVec.ofNat 64)) = c) ∧
    (operandX false f.a f.ta s = (.ok a, s1) → operandX false f.b f.tb s1 = (.ok b, s2) →
      checkAccess ⟨64, .write, false, true, true, true⟩ a 64 s2 = (.ok x, s3) → heedPoison x.pa 64 a s3 = (.ok (), s4) →
      ∀ r, syncLine x false s4 = (.ok (), r) →
      let core := b.toNat % 8192
      let rec_ := contOf (r.wordsAt x.pa 8)
      let ends (t : State) (v : Word) : Result := .next ((t.giving u f f.d.toNat v).replies u)
      ((r.word x.pa).getLsbD 63 = false → exec (.resm f) s = ends r 0x8000000000000001) ∧
      ((r.word x.pa).getLsbD 63 = true →
        (r.inRange st.ctx rec_.lrec core = false → exec (.resm f) s = ends r 0x8000000000000002) ∧
        (r.inRange st.ctx rec_.lrec core = true → let entry : DqEntry := { cont := rec_, tag := none, byItem := false }
          (r.pushCont core st.ctx st.sid entry = (.spent, t) → exec (.resm f) s = ends t 0x8000000000000003) ∧
          (r.pushCont core st.ctx st.sid entry = (.done, t) → exec (.resm f) s =
            ends ((t.storeAt x.pa 8 (t.load x.pa 8 % 2 ^ 63)).noteVt u x.pa) 0)))) ∧
    (operandX false f.a f.ta s = (.ok a, s1) → s1.translate st.core st.ctx a .read = (.ok x, t) → ∃ k, t.strand? u = some (st.slowed k) ∧
      let target := t.migrateTarget st.lrec x.pa
      (target = st.core → exec (.migr f) s = .next (t.setStrand u ((st.slowed k).done f))) ∧
      (target ≠ st.core → t.cannotMigrate st = false → t.outstanding u = true → exec (.migr f) s = .next (t.leave u .parked .settled 2)) ∧
      (target ≠ st.core → t.cannotMigrate st = false → t.outstanding u = false →
        exec (.migr f) s = .next (t.migrateOut u target (st.pc + BitVec.ofNat 64 (lenOf f)) false)) ∧
      (target ≠ st.core → t.cannotMigrate st = true → ∃ y z, exec (.migr f) s =
        .next (({ t with free := t.free + 2 } : State).takeTrap u Cause.migrateState y st.pc z)))

/-- 13 R296, R297, 24 R407, R411, R417: ARMT arms the lowest free entry of its board for the launch, or answers 2^63 + 1 without one and
2^63 + 2 for a bad descriptor; MSG leaves one packet of its words at the router for a module of the job, and an entry in the error queue for
another. Where the rules are silent or open to a reading, the model's own: log entry 9. -/
def Obligations.ArrivalTasksAndMessages : Prop :=
  ∀ (s s1 s2 s3 t : State) (u : Nat) (st : Strand) (f : Fields) (a b c : Word) (x : Xlat) (bytes : List (BitVec 8)) (l : Launch)
    (core tag len i job m : Nat) (buf cont : Word) (got : List (Nat × Nat)), Issues s u st f →
    (operandX false f.a f.ta s = (.ok a, s1) → checkAccess (Check.load 32) a 32 s1 = (.ok x, s2) → loadBytes x a 32 s2 = (.ok bytes, t) →
      t.launch? st.lrec = some l →
      let w := (List.range 4).map fun i => BitVec.ofNat 64 (Memory.ofBytes ((bytes.drop (8 * i)).take 8))
      let ends (t : State) (v : Word) : Result := .next ((t.giving u f f.d.toNat v).replies u)
      (matchFields w = none → exec (.armt f) s = ends t 0x8000000000000002) ∧
      (matchFields w = some (core, tag, len, buf, cont) →
        let board := boardOf core
        (l.rect.hasCore core = false ∨ (∃ e ∈ t.matches_, e.1 / 1024 = board ∧ e.2.ctx = st.ctx ∧ e.2.tag = tag) →
          exec (.armt f) s = ends t 0x8000000000000002) ∧
        (l.rect.hasCore core = true → (∀ e ∈ t.matches_, ¬ (e.1 / 1024 = board ∧ e.2.ctx = st.ctx ∧ e.2.tag = tag)) →
          (t.freeMatch st.ctx board = none → exec (.armt f) s = ends t 0x8000000000000001) ∧
          (t.freeMatch st.ctx board = some i →
            let m : Match := { ctx := st.ctx, lrec := st.lrec, core := core, tag := tag, len := len, got := 0, buf := buf, cont := cont, sid := st.sid }
            let armed : State := { t.popUp st.lrec with matches_ := Sparse.put t.matches_ (board * 1024 + i) m }
            exec (.armt f) s = ends (armed.takeUnexpected board) (BitVec.ofNat 64 i))))) ∧
    (operandX false f.a f.ta s = (.ok a, s1) → operandX false f.b f.tb s1 = (.ok b, s2) → readX f.c.toNat s2 = (.ok c, s3) →
      let n := (b.extractLsb' 16 9).toNat
      8 ≤ n → n ≤ 256 → n % 8 = 0 → a.toNat % 8 = 0 →
      (f.m.getLsbD 3 = true ∨ (b.extractLsb' 12 3).toNat = 0 ∧ c.toNat % 8 = 0 ∧ c.toNat < 2 ^ 57) →
      gatherElems 64 false (List.replicate (n / 8) true) ((List.range (n / 8)).map fun i => a + BitVec.ofNat 64 (8 * i)) s3 =
        (.ok (got, none), t) → ∃ k, t.strand? u = some (st.slowed k) ∧
      (∀ cause, t.reach st.ctx (b.toNat % 4096) = .error cause → exec (.msg f) s =
        .next ((t.errorEntry (some u) st.ctx c (b.toNat % 4096) 2 cause st.sid).editStrand u fun q => { q with phase := q.phase + 1 }.done f)) ∧
      (t.reach st.ctx (b.toNat % 4096) = .ok (job, m) → Sparse.get t.pausing job = none → t.unackedTo u m < 64 →
        let ty := if f.m.getLsbD 3 then 5 else 4
        let p : Packet :=
          { dst := m, src := t.selfModule, job := job, seq := (Sparse.get st.streamSeq m).getD 0, addr := c, mode := f.m.toNat % 8,
            board := if f.m.getLsbD 3 then (b.extractLsb' 12 3).toNat else 0, strand := st.sid, epoch := st.epoch, aux := 0,
            words := got.map fun e => BitVec.ofNat 64 e.2 }
        exec (.msg f) s = .next ((t.sends u (st.slowed k) f ty p).editStrand u fun q => { q with phase := q.phase + 1 }.done f)))

/-! ### Engines -/

/-- 11 R240 to R242, R246: GANG, MMA, CBOOK, MST, CPY and CPYROW commit the command of their fields over the shadow set, which their strand
must have claimed: D takes the ticket, and the set is free again; with a permit free. D takes 2^63 + 1 without the claim, and 2^63 + 2 for a
field that breaks a limit. A command keeps the strand, launch, ranges, scope and item that committed it. Where the rules are silent or open
to a reading, the model's own: log entry 18. -/
def Obligations.TicketCommits : Prop :=
  ∀ (s r : State) (u : Nat) (st : Strand) (f : Fields) (b : Word) (c : Command), Issues s u st f →
    let z (n : Nat) : Word := (st.z[n]?).getD 0
    let tile := z f.a.toNat
    let outcome (i : Instr) (r : State) (c : Command) : Prop :=
      let e := c.kind.engine
      let g := r.engine st.core e
      (g.claim = some u → c.badField st.core = false → g.queue.length < 8 → exec i s =
        .next ((r.commits st.core { c with ticket := some (g.ticket e) } (·.ticketed u)).givingRelease u f f.d.toNat
          (BitVec.ofNat 64 (g.ticket e)))) ∧
      (g.claim ≠ some u → exec i s = .next (r.givingRelease u f f.d.toNat 0x8000000000000001)) ∧
      (g.claim = some u → c.badField st.core = true → exec i s =
        .next ((r.editEngine st.core e fun q => { q with claim := none, last := some u }).givingRelease u f f.d.toNat 0x8000000000000002))
    let own (i : Instr) (k : CmdKind) (r : State) (tile : Word) (edit : Vector (BitVec 64) 16 → Vector (BitVec 64) 16) : Prop :=
      newCommand k (edit (r.engine st.core k.engine).shadow) tile f.e.toNat f.c.toNat f.fmt.toNat f.m.toNat f.rnd.toNat r = (.ok c, r) →
        outcome i r c
    (tileRows tile ≠ 0 → tileTag tile = f.fmt.toNat → own (.mma f) .mma s tile id ∧
      (operandB f s = (.ok b, r) → own (.gang f) .gang r tile fun g => g.setIfInBounds 10 b)) ∧
    (tileRows tile ≠ 0 → mstPair (tileTag tile) f.fmt.toNat = true → own (.mst f) .mst s tile id) ∧
    own (.cbook f) .cbook s 0 id ∧ own (.cpyrow f) .cpyrow s 0 id ∧
    (newCommand .cpy (s.engine st.core 1).shadow 0 0 0 0 f.m.toNat 0 s = (.ok c, s) →
      outcome (.cpy f) s (if c.badField st.core = false ∧ f.m.getLsbD 1 then { c with path := some 1 } else c)) ∧
    ∀ k regs fa fb fm m rnd, newCommand k regs tile fa fb fm m rnd s = (.ok c, s) →
      c.kind = k ∧ c.regs = regs ∧ c.tile = tile ∧ c.state = .queued ∧ c.uid = u ∧ c.sid = st.sid ∧ c.ctx = st.ctx ∧ c.lrec = st.lrec ∧
      c.scope = st.scope ∧ c.item = st.item ∧ c.fra = st.fra ∧ c.pc = st.pc ∧ (rnd = 0 → c.fcr = st.fcr) ∧
      ∀ l, s.launch? st.lrec = some l → c.ranges = l.ranges ∧ c.rect = l.rect

/-- 11 R240, R259, R261, R262: MZERO, MRD, MWR and CPYR commit with no ticket while a permit is free, and wait for one otherwise. MRD and
CPYR leave the register that they load empty. -/
def Obligations.RegisterCommits : Prop :=
  ∀ (s r r1 : State) (u : Nat) (st : Strand) (f : Fields) (a b : Word) (v : Vec) (tag : BitVec 4) (x : Xlat) (c : Command),
    Issues s u st f →
    let tileA : Word := (st.z[f.a.toNat]?).getD 0
    let tileD : Word := (st.z[f.d.toNat]?).getD 0
    let made (k : CmdKind) (r : State) (tile : Word) (fm m : Nat) : Prop := newCommand k zeroRegs tile 0 0 fm m 0 r = (.ok c, r)
    let emptied (q : Strand) : Strand :=
      { q with vec := q.vec.map fun v => { v with vFull := v.vFull &&& ~~~(1#32 <<< f.d.toNat) } }
    let free (r : State) (e : Nat) : Prop := (r.engine st.core e).queue.length < 8
    (tileRows tileA ≠ 0 → made .mzero s tileA 0 0 →
      (free s 0 → exec (.mzero f) s = .next ((s.commits st.core c id).behind u f)) ∧
      (¬ free s 0 → exec (.mzero f) s = .next (s.leave u .parked (.permit 0) 8))) ∧
    (st.bound → tileRows tileA ≠ 0 → operandB f s = (.ok b, r) → free r 0 → made .mrd r tileA 0 0 →
      exec (.mrd f) s = .next ((r.commits st.core { c with row := b, dest := f.d.toNat } id).editStrand u fun q => (emptied q).done f)) ∧
    (st.bound → tileRows tileD ≠ 0 → operandV f.a f.ta s = (.ok (v, tag), r1) → operandB f r1 = (.ok b, r) → free r 0 →
      tag.toNat = tileTag tileD → made .mwr r tileD 0 0 →
      exec (.mwr f) s = .next ((r.commits st.core { c with row := b, data := v } id).behind u f)) ∧
    (let va : Word := a + imm20Offset f
     operandX false f.a f.ta s = (.ok a, r1) → free r 1 → made .cpyr r 0 f.fmt.toNat f.m.toNat →
      let cmd : Command := { c with dest := f.d.toNat, addr := va, path := some 3 }
      (f.m ≠ 1 → checkAccess (Check.load 8) va 8 r1 = (.ok x, r) → exec (.cpyr f) s =
        .next ((r.commits st.core cmd id).editStrand u fun q => { q with xFull := q.xFull &&& ~~~(1#64 <<< f.d.toNat) }.done f)) ∧
      (f.m = 1 → st.bound → checkAccess (Check.load 512) va 512 r1 = (.ok x, r) → exec (.cpyr f) s =
        .next ((r.commits st.core cmd id).editStrand u fun q => (emptied q).done f)))

/-- 11 R241, R243 to R245, R251, R258, R263, 12 R276: MPROG and ESET claim the shadow set and write a register of it, ESET `.z` a tile
descriptor; EGET reads the set, a running command or a descriptor; EGO commits the command that CMD describes, ITER the one of a record in
memory; EQRY answers the state and progress of a ticket's command, 4 for one that waits for its gang. Where the rules are silent or open
to a reading, the model's own: log entry 12. -/
def Obligations.EngineRegisters : Prop :=
  ∀ (s s1 s2 s3 s4 r : State) (u : Nat) (st : Strand) (f : Fields) (a b : Word) (c c' : Command) (n code : Nat) (x y : Xlat)
    (lo hi : List (BitVec 8)), Issues s u st f →
    let gives (r : State) (v : Word) : Result := .next (r.giving u f f.d.toNat v)
    let free (r : State) (e : Nat) : Prop := (r.engine st.core e).claim = none
    let writes (r : State) (e i : Nat) (b : Word) : State := r.editEngine st.core e fun g =>
      { g with claim := some u, shadow := (if g.last == some u then g.shadow else zeroRegs).setIfInBounds i b }
    (operandB f s = (.ok b, r) →
      (microOk b = true → free r 0 → exec (.mprog f) s = .next ((writes r 0 8 b).behind u f)) ∧
      (f.m = 2 → tileOk b = true →
        exec (.eset f) s = .next (r.editStrand u fun q => { q with z := q.z.setIfInBounds f.d.toNat b }.done f)) ∧
      (f.m.toNat < 2 → free r f.m.toNat → hasReg f.m.toNat f.c.toNat = true →
        exec (.eset f) s = .next ((writes r f.m.toNat f.c.toNat b).behind u f)) ∧
      (f.m.toNat < 2 → (r.engine st.core f.m.toNat).claim = some u → hasReg f.m.toNat f.c.toNat = true →
        exec (.eset f) s = .next ((r.editEngine st.core f.m.toNat fun g =>
          { g with shadow := g.shadow.setIfInBounds f.c.toNat b }).behind u f)) ∧
      (f.m.toNat < 2 → (r.engine st.core f.m.toNat).claim = some n → n ≠ u →
        exec (.eset f) s = .next (r.leave u .parked (.claim f.m.toNat) 15))) ∧
    (f.m = 2 → exec (.eget f) s = gives s ((st.z[f.a.toNat]?).getD 0)) ∧
    (f.m.toNat < 2 → hasReg f.m.toNat f.c.toNat = true →
      exec (.eget f) s = gives s (((s.engine st.core f.m.toNat).shadow[f.c.toNat]?).getD 0)) ∧
    (f.m.getLsbD 2 = true → (s.engine st.core (f.m.toNat % 2)).running = some c → f.m ≠ 2 →
      exec (.eget f) s = gives s (c.view f.c.toNat)) ∧
    (f.m.getLsbD 2 = true → (s.engine st.core (f.m.toNat % 2)).queue = [] → f.m ≠ 2 →
      exec (.eget f) s = gives { s with free := s.free + 1 } (Config.freeWord s.free)) ∧
    (f.m.getLsbD 2 = true → (s.engine st.core (f.m.toNat % 2)).switching = true → f.m ≠ 2 →
      exec (.eget f) s = .next (s.leave u .parked (.switching (f.m.toNat % 2)) 15)) ∧
    (let e := f.m.toNat
     let g := s.engine st.core e
     (g.claim ≠ some u → exec (.ego f) s = .next ((s.givingRelease u f f.d.toNat 0x8000000000000001).replies u)) ∧
     (g.claim = some u → commandOf e g.shadow s = (.ok (.inl code), s) → exec (.ego f) s =
       .next (((s.editEngine st.core e fun q => { q with claim := none, last := some u }).givingRelease u f f.d.toNat
         (BitVec.ofNat 64 (2 ^ 63 + code))).replies u)) ∧
     (g.claim = some u → commandOf e g.shadow s = (.ok (.inr c), s) → classed (.inr c) = .inr c' → c'.kind.engine = e →
       g.queue.length < 8 → exec (.ego f) s =
       .next (((s.commits st.core { c' with ticket := some (g.ticket e) } (·.ticketed u)).givingRelease u f f.d.toNat
         (BitVec.ofNat 64 (g.ticket e))).replies u))) ∧
    (operandX false f.a f.ta s = (.ok a, s1) → checkAccess (Check.load 64) a 64 s1 = (.ok x, s2) →
      loadBytes x a 64 s2 = (.ok lo, s3) → checkAccess (Check.load 64) (a + 64) 64 s3 = (.ok y, s4) →
      loadBytes y (a + 64) 64 s4 = (.ok hi, r) →
      (commandOf f.m.toNat (regsOf (lo ++ hi)) r = (.ok (.inl code), r) → exec (.iter f) s =
        .next ((r.givingRelease u f f.d.toNat (BitVec.ofNat 64 (2 ^ 63 + code))).replies u)) ∧
      (commandOf f.m.toNat (regsOf (lo ++ hi)) r = (.ok (.inr c), r) → classed (.inr c) = .inr c' →
        let g := r.engine st.core c'.kind.engine
        g.queue.length < 8 → exec (.iter f) s =
          .next (((r.commits st.core { c' with ticket := some (g.ticket c'.kind.engine) } fun q => { q with seqNo := q.seqNo + 1 })
            |>.givingRelease u f f.d.toNat (BitVec.ofNat 64 (g.ticket c'.kind.engine))).replies u))) ∧
    (operandX false f.a f.ta s = (.ok a, r) → ∃ k, r.strand? u = some (st.slowed k) ∧
      (r.byTicket st a.toNat = none → exec (.eqry f) s = gives r 0) ∧
      (r.byTicket st a.toNat = some c → c.state = .queued →
        exec (.eqry f) s = gives r (BitVec.ofNat 64 (1 + c.rprog % 65536 * 65536))) ∧
      (r.byTicket st a.toNat = some c → c.state = .held →
        exec (.eqry f) s = gives r (BitVec.ofNat 64 (3 + c.rprog % 65536 * 65536))) ∧
      (r.byTicket st a.toNat = some c → c.state = .barrier ∨ c.state = .chained →
        exec (.eqry f) s = gives r (BitVec.ofNat 64 (4 + c.rprog % 65536 * 65536))) ∧
      (r.byTicket st a.toNat = some c → c.state = .running →
        let alone : Prop := c.kind ≠ .gang ∨ c.m.testBit 0 = true ∨ c.blocks ≤ c.rprog ∨ r.engineReady st.core 0 = false
        let here (k : Nat) : Prop := ∃ d, r.headCmd k 0 = some d ∧ d.gang = c.gang ∧ d.state = .running ∧ d.ending = none ∧
          r.engineReady k 0 = true
        let run := gangRun st.core (field (c.reg 10) 2 0)
        (alone ∨ (∀ k ∈ run, here k) → exec (.eqry f) s = gives r (BitVec.ofNat 64 (2 + c.rprog % 65536 * 65536))) ∧
        (¬ alone → (∃ k ∈ run, ¬ here k) → exec (.eqry f) s = gives r (BitVec.ofNat 64 (4 + c.rprog % 65536 * 65536)))))

/-- 11 R249 to R251: ECAN ends a ticket's command with its status, 2 in the completion word, and answers 0 for one that had not started, 1
for another and 2 where there is none; MRES lets the held command at the head of an engine go on for a caller with the right START, its
completion word zero again, and waits where that must wait at its home; another caller's MRES traps AUTHORITY. -/
def Obligations.CancelAndResume : Prop :=
  ∀ (s r : State) (u : Nat) (st : Strand) (f : Fields) (a : Word) (c : Command), Issues s u st f →
    operandX false f.a f.ta s = (.ok a, r) → ∃ k, r.strand? u = some (st.slowed k) ∧
    let gives (r : State) (v : Word) : Result := .next (r.giving u f f.d.toNat v)
    (r.byTicket st a.toNat = none → exec (.ecan f) s = gives r 2) ∧
    (r.byTicket st a.toNat = some c →
      exec (.ecan f) s = gives (r.cancelCmd st.core c) (if c.state = .queued then 0 else 1) ∧
      (r.headCmd st.core c.kind.engine = some c → (r.engine st.core c.kind.engine).queue.all (·.ending.isNone) = true →
        let d : Command := { c with ending := some ⟨2, none⟩ }
        let q := r.putCmd st.core d
        (c.kind.reports = false → r.cancelCmd st.core c = q.dropCmd st.core d) ∧
        ∀ w, c.kind.reports = true → q.writeCword st.core d 2 = (.ok (), w) → r.cancelCmd st.core c = w.dropCmd st.core d)) ∧
    (a.toNat < 2 ^ 17 → a.toNat / 2 ^ 13 % 8 = 0 →
      let core := a.toNat % 2 ^ 13
      let e := a.toNat / 2 ^ 16
      (r.headCmd core e = none → exec (.mres f) s = gives r 1) ∧
      (r.headCmd core e = some c → c.state ≠ .held → exec (.mres f) s = gives r 1) ∧
      (r.headCmd core e = some c → c.state = .held → c.ending = none → r.heldOver st Right.start c.sid c.ctx = false → ∃ x y,
        exec (.mres f) s = .next (({ r with free := r.free + 2 } : State).takeTrap u Cause.authority x st.pc y)) ∧
      (r.headCmd core e = some c → c.state = .held → c.ending = none → r.heldOver st Right.start c.sid c.ctx = true → ∀ w q,
        (r.clearMicroTlb core e).rearm core c st.ctx = (w, q) →
        (w = none → exec (.mres f) s =
          gives { q.putCmd core { c with state := .running, drainNo := q.order } with order := q.order + 1 } 0) ∧
        ∀ a, w = some a → exec (.mres f) s = .next (q.leave u .parked (resumeWait a) (resumeWait a).stall)))

/-! ### Launches -/

/-- 02 R39 to R49, 13 R298, 05 R135: LAUNCH of a block that is accepted takes the lowest free record, whose finish scope counts it, and
answers the handle SEQ·1024 + record, complete at once where it has no items; another block answers 2^63 and its status. 02 R41: the
status is the first that fails of the block's layout, the caller's right over a rectangle in a leaf of its context, its ranges, and its
quota. TRIGGER notes the item, and WAITP returns where the launch is in no gambit state or its producers are triggered, and waits
otherwise. Where the rules are silent or open to a reading, the model's own: log entry 82. -/
def Obligations.Launches : Prop :=
  (∀ (s s1 s2 r : State) (u : Nat) (st : Strand) (f : Fields) (a : Word) (bytes : List (BitVec 8)) (tempo : Option (List Export))
    (i : Nat) (l : Launch), Issues s u st f →
    (operandX false f.a f.ta s = (.ok a, s1) → a.toNat % 64 = 0 → launchLines 4 a s1 = (.ok bytes, s2) →
      readTempoBlock (wordsFrom 32 bytes) s2 = (.ok tempo, r) →
      let b := wordsFrom 32 bytes
      let status := r.launchStatus st b tempo
      let seq := ((r.ctx? st.ctx).map (·.launchSeq)).getD 1
      (status ≠ 0 → exec (.launch f) s = .next ((r.givingRelease u f f.d.toNat (BitVec.ofNat 64 (2 ^ 63 + status))).replies u)) ∧
      (status = 0 → r.freeRecord = some i → exec (.launch f) s =
        .next ((((r.addLaunch i (lpbLaunch u st seq a b (tempo.getD []) r.order r.gclk)).finishEmpty i).givingRelease u f f.d.toNat
          (BitVec.ofNat 64 (seq * 1024 + i))).replies u)) ∧
      (status = 0 → r.freeRecord ≠ none) ∧
      (l.nitems ≠ 0 → (r.addLaunch i l).finishEmpty i = r.addLaunch i l ∧ (r.addLaunch i l).launch? i = some l)) ∧
    (exec (.trigger f) s = .next ((s.editLaunch st.lrec fun l => { l with triggered := insertNat l.triggered st.item }).setStrand u
      ({ st with phase := st.phase + 1 }.done f))) ∧
    (s.launch? st.lrec = some l →
      (l.inGambit = false → exec (.waitp f) s = .next (s.setStrand u (st.done f))) ∧
      (l.inGambit = true → s.producersTriggered l = false → exec (.waitp f) s = .next (s.leave u .parked .producers 15)) ∧
      (l.inGambit = true → s.producersTriggered l = true → exec (.waitp f) s =
        .next ((s.editLaunch st.lrec fun l => { l with waited := insertNat l.waited st.item }).setStrand u (st.done f))))) ∧
  (∀ (s : State) (st : Strand) (b : List Word) (tempo : Option (List Export)),
     let w (i : Nat) : Word := b.getD i 0
     let bits (i hi lo : Nat) : Nat := field (w i) hi lo
     let status := s.launchStatus st b tempo
     let shape : Prop :=
       bits 0 63 39 = 0 ∧ bits 1 63 59 = 0 ∧ 1 ≤ bits 0 35 27 ∧ bits 0 35 27 ≤ 256 ∧ bits 0 26 21 ≤ 40 ∧
       2 ^ bits 0 15 13 ∣ bits 0 6 0 ∧ 2 ^ bits 0 18 16 ∣ bits 0 12 7 ∧ bits 0 6 0 + 2 ^ bits 0 15 13 ≤ 128 ∧
       bits 0 12 7 + 2 ^ bits 0 18 16 ≤ 64 ∧ (bits 0 20 19 = 3 → bits 0 15 13 = bits 0 18 16) ∧
       4 ∣ (w 2).toNat ∧ (w 2).toNat < 2 ^ 48 ∧ 256 ∣ (w 3).toNat ∧ (w 3).toNat < 2 ^ 57 ∧ 8 ∣ (w 4).toNat ∧ (w 4).toNat < 2 ^ 57 ∧
       bits 5 63 57 = 0 ∧ bits 5 0 0 = 0 ∧ bits 5 5 3 ≤ 4 ∧ (bits 5 5 3 = 0 ↔ bits 5 2 1 = 0) ∧
       (∀ i < 8, bits (17 + 2 * i) 61 48 = 0) ∧ tempo ≠ none ∧ (s.scopeOf st.ctx (bits 1 47 40)).state = .opened
     let auth : Prop := tableCovers st.auth.toList Right.launch (rectOf (w 0).toNat) 0 255 = true ∧
       ∃ c, s.ctx? st.ctx = some c ∧ ∃ l ∈ s.leaves, l.node.leafId ∈ c.bound ∧ (rectOf (w 0).toNat).inside l.node = true
     let ranges : Prop := ∀ i < 8, bits (17 + 2 * i) 63 63 = 1 →
       bits (17 + 2 * i) 47 0 ≠ 0 ∧ (w (16 + 2 * i)).toNat + bits (17 + 2 * i) 47 0 ≤ 2 ^ 57
     let quota : Prop := (∃ i < 1024, s.launch? i = none) ∧ ∃ c, s.ctx? st.ctx = some c ∧
       (s.launches.filter fun e => e.2.ctx == st.ctx && e.2.qclass == bits 1 51 48).length < (c.qlim[bits 1 51 48]?).getD 0
     (¬ shape → status = 1) ∧ (shape → ¬ auth → status = 2) ∧ (shape → auth → ¬ ranges → status = 3) ∧
     (shape → auth → ranges → ¬ quota → status = 4) ∧ (shape → auth → ranges → quota → status = 0))

/-! ### Threads -/

/-- 13 R300 to R304: TSTOP, TSTART, TSTEP, TREAD and TWRITE on the strand that an ID names, for a caller with the right over it: what each
does to a target and answers, 2^63 + 1 where there is none and 2^63 + 2 where its state does not fit. Where the rules are silent or open to
a reading, the model's own: log entries 45, 46 and 65. -/
def Obligations.ThreadControl : Prop :=
  ∀ (s r r1 r2 : State) (u t : Nat) (st tst : Strand) (f : Fields) (b c : Word) (x : Selector) (v : Word) (tag : BitVec 4) (full : Bool),
    Issues s u st f →
    let ends (r : State) (v : Word) : Result := .next ((r.giving u f f.d.toNat v).replies u)
    let none_ : Word := 0x8000000000000001
    let unfit : Word := 0x8000000000000002
    (targetStrand f Right.stop s = (.ok none, r) → exec (.tstop f) s = ends r none_) ∧
    (targetStrand f Right.stop s = (.ok (some (t, tst)), r) →
      (tst.isHalted = true → exec (.tstop f) s = ends r unfit) ∧
      (tst.isHalted = false → t ≠ u → exec (.tstop f) s = ends (r.haltStrand t) 0) ∧
      (tst.isHalted = false → t = u → exec (.tstop f) s = .next ((r.giving u f f.d.toNat 0).haltStrand u))) ∧
    (targetStrand f Right.start s = (.ok none, r) → exec (.tstart f) s = ends r none_) ∧
    (targetStrand f Right.start s = (.ok (some (t, tst)), r) →
      (tst.isHalted = false → exec (.tstart f) s = ends r unfit) ∧
      (tst.isHalted = true → exec (.tstart f) s = ends (r.startStrand t) 0)) ∧
    (targetStrand f Right.step s = (.ok none, r) → exec (.tstep f) s = ends r none_) ∧
    (targetStrand f Right.step s = (.ok (some (t, tst)), r) →
      (tst.isHalted = false → exec (.tstep f) s = ends r unfit) ∧
      (tst.isHalted = true → exec (.tstep f) s = .next
        ((((r.editStrand t fun q => { q with stepping := some q.pc }).startStrand t).editStrand u fun q =>
          { q.gives f.d.toNat 0 with behind := lenOf f }).leave u .parked (.stepped t) 15))) ∧
    (∀ o, targetStrand f Right.read s = (.ok o, r1) → operandB f r1 = (.ok b, r) → selectorOf b false = some x →
      let gives2 (v w : Word) : Result := .next ((r.editStrand u fun q => ((q.gives f.d.toNat v).gives f.e.toNat w).done f).replies u)
      (o = some (t, tst) → r.readTarget tst x = some (v, tag, full) →
        exec (.tread f) s = gives2 v (BitVec.ofNat 64 (tag.toNat * 16 + full.toNat))) ∧
      (o = none ∨ o = some (t, tst) ∧ r.readTarget tst x = none → exec (.tread f) s = gives2 0 0x8000000100000000)) ∧
    (∀ o, targetStrand f Right.write s = (.ok o, r1) → operandB f r1 = (.ok b, r2) → readX f.c.toNat r2 = (.ok c, r) →
      selectorOf b true = some x →
      (o = none → exec (.twrite f) s = ends r none_) ∧
      (o = some (t, tst) →
        ((x.file = 1 ∨ x.file = 2) → tst.vec = none → exec (.twrite f) s = ends r none_) ∧
        (x.file = 5 → tst.isHalted = false → exec (.twrite f) s = ends r unfit) ∧
        (x.file = 0 ∨ (x.file = 1 ∨ x.file = 2) ∧ tst.vec ≠ none ∨ x.file = 3 →
          exec (.twrite f) s = ends (r.editStrand t fun q => q.setTarget x c) 0) ∧
        (x.file = 5 → tst.isHalted = true → exec (.twrite f) s = ends ((r.setPc t).editStrand t fun q => q.setTarget x c) 0) ∧
        (x.file = 4 → x.reg ∈ [0, 1, 2, 3, 4, 5, 6, 11, 15, 16, 17] → srForm x.reg c = true →
          exec (.twrite f) s = ends (r.setSpecial t tst x.reg c) 0) ∧
        (x.file = 4 → x.reg ∈ [9, 10, 13, 18, 19] → r.maySetTw st.ctx tst.ctx = true →
          exec (.twrite f) s = ends (r.setSpecial t tst x.reg c) 0) ∧
        (x.file = 4 → x.reg ∈ [7, 8, 12, 20, 21, 22, 23] → exec (.twrite f) s = ends r 0x8000000000000003)))

/-- 13 R301: TGRANT puts an entry that its caller may pass on into the lowest invalid place of the target's table, and answers the place;
TREVOKE takes the rights of its entry from every entry within its set, and answers how many changed. 13 R300, R302: which strand these
instructions act on: with the right over a's strand, the one in the slot or the spill record that the ID names, in the order of arrival and
once it is stepped no more; without the right, AUTHORITY. -/
def Obligations.GrantAndRevoke : Prop :=
  (∀ (s r : State) (u t i : Nat) (st tst : Strand) (f : Fields) (b : Word), Issues s u st f →
     let ends (r : State) (v : Word) : Result := .next ((r.giving u f f.d.toNat v).replies u)
     let valid (i : Nat) : Bool := ((tst.auth[i]?).getD 0).getLsbD 31
     (grantTarget f s = (.ok (b, none), r) →
       exec (.tgrant f) s = ends r 0x8000000000000002 ∧ exec (.trevoke f) s = ends r 0x8000000000000002) ∧
     (grantTarget f s = (.ok (b, some (t, tst)), r) →
       ((∀ j < 64, valid j = true) → exec (.tgrant f) s = ends r 0x8000000000000001) ∧
       (i < 64 → valid i = false → (∀ j < i, valid j = true) →
         exec (.tgrant f) s = ends (r.editStrand t fun q => { q with auth := q.auth.setIfInBounds i b }) (BitVec.ofNat 64 i)) ∧
       exec (.trevoke f) s = ends (r.editStrand t fun q => { q with auth := q.auth.map (revoked b) })
         (BitVec.ofNat 64 ((tst.auth.toList.filter fun e => revoked b e ≠ e).length)))) ∧
  (∀ (s r : State) (u : Nat) (st : Strand) (f : Fields) (a : Word) (bit : Nat), Issues s u st f →
     operandX false f.a f.ta s = (.ok a, r) →
     let sid := a.toNat % 2 ^ 21
     let waits (e : Nat × Strand) : Prop := e.1 ≠ u ∧ (e.2.stepping ≠ none ∨ r.mustQueue .issuer (strandPlace e.1) = true)
     (r.holdsOver st bit sid = true → (∀ e, r.bySid (sid / 256) (sid % 256) = some e → ¬ waits e) →
       targetStrand f bit s = (.ok (r.bySid (sid / 256) (sid % 256)), r)) ∧
     (∀ e, r.holdsOver st Right.stop sid = true → r.bySid (sid / 256) (sid % 256) = some e → waits e →
       exec (.tstop f) s = .next (r.leave u .parked (.stepped e.1) 15)) ∧
     (r.holdsOver st Right.stop sid = false → ∃ x y,
       exec (.tstop f) s = .next (({ r with free := r.free + 2 } : State).takeTrap u Cause.authority x st.pc y)) ∧
     (r.holdsOver st Right.write sid = false → ∃ x y,
       exec (.twrite f) s = .next (({ r with free := r.free + 2 } : State).takeTrap u Cause.authority x st.pc y)))

/-! ### Special registers and traps -/

/-- 13 R305 to R307, 03 R75: SRD gives a special register; SWR writes one, reserved bits read as zero, with what its write brings about;
the registers that only TWRITE writes trap AUTHORITY and a value of the wrong form ILLEGAL_FORM. VTIME never goes back. -/
def Obligations.SpecialRegisters : Prop :=
  ∀ (s r t : State) (u : Nat) (st : Strand) (f : Fields) (v : Word), Issues s u st f →
    exec (.srd f) s = .next (s.setStrand u ((st.gives f.d.toNat (s.special st f.c.toNat)).done f)) ∧
    (operandB f s = (.ok v, r) → ∃ k, r.strand? u = some (st.slowed k) ∧
      let n := f.c.toNat
      let sets (st' : Strand) : Prop := exec (.swr f) s = .next (r.setStrand u (st'.done f))
      let q := st.slowed k
      (n = 0 → sets { q with fcr := v &&& 0x1FF }) ∧ (n = 1 → sets { q with tvec := v &&& 0xFFFFFFFFFFFFFFFC }) ∧
      (n = 2 → sets { q with tcause := v &&& 0x8000FFFFFFFFFFFF }) ∧ (n = 3 → sets { q with tpc := v }) ∧
      (n = 4 → sets { q with tfaddr := v }) ∧ (n = 5 → v.toNat % 64 = 0 → sets { q with fra := v }) ∧
      (n = 11 → sets { q with feRetry := v &&& 0xFF }) ∧ (n = 16 → sets { q with swBase := v }) ∧
      (n = 17 → sets { q with swLen := v }) ∧
      (n = 6 → v.toNat < 2 ^ 48 → v.toNat % 4 = 0 →
        exec (.swr f) s = .next (((r.editCtx st.ctx fun c => { c with thv := v }).setStrand u (q.done f)).replies u)) ∧
      (n = 15 → v.toNat % 2 ^ 52 = 0 →
        exec (.swr f) s = .next (((r.editCtx st.ctx fun c => { c with bmap := v }).setStrand u (q.done f)).replies u)) ∧
      (n = 14 → writeEsched st.ctx none v r = (.ok (), t) → exec (.swr f) s = .next ((t.behind u f).replies u)) ∧
      (n = 14 → v = 0 → exec (.swr f) s =
        .next (((r.editCtx st.ctx fun c => { c with esched := 0, schedule := none }).setStrand u (q.done f)).replies u)) ∧
      (n ∈ [9, 10, 13, 18, 19] → ∃ x y, exec (.swr f) s =
        .next (({ r with free := r.free + 2 } : State).takeTrap u Cause.authority x st.pc y)) ∧
      (n = 5 ∧ v.toNat % 64 ≠ 0 ∨ n = 6 ∧ (2 ^ 48 ≤ v.toNat ∨ v.toNat % 4 ≠ 0) → ∃ x y, exec (.swr f) s =
        .next (({ r with free := r.free + 2 } : State).takeTrap u Cause.illegalForm x st.pc y))) ∧
    (∀ c, s.ctx? st.ctx = some c → ∃ time, exec (.vtime f) s =
      .next ((s.setCtx st.ctx { c with vtLast := time }).setStrand u ((st.gives f.d.toNat time).done f)) ∧
      c.vtLast.toNat ≤ time.toNat ∧ (c.vtLast.toNat ≤ (s.vtValue c).toNat → time = s.vtValue c))

/-- 13 R312, R314, 06 R157: TRAP and BRK trap behind themselves with their own address. A trap of a strand outside a region enters the
handler that TVEC names for its cause, with the fault PC in TPC, the address in TFADDR and the cause in TCAUSE, and stops where the handler's
start bit is clear; while a handler is active,
for a cause that TVEC does not mask in, or without a handler, the strand stops at the fault PC with its cause; while the line of its handler
is on the way it waits. 13 R313: the record of a stop at FRA, where it can be written: eight words, each set full, with the next SEQ of the
strand; where FRA is zero, or the record cannot be written, SEQ stays. Where the rules are silent or open to a reading, the model's own: log
entry 11. -/
def Obligations.TakingATrap : Prop :=
  (∀ (s t : State) (u : Nat) (st : Strand) (f : Fields) (cause extra : Nat) (pc addr : Word) (b : Option Bool) (a : Await),
     let next : Word := st.pc + BitVec.ofNat 64 (lenOf f)
     (Issues s u st f →
       exec (.trap f) s = .next ((s.setStrand u (st.done f)).takeTrap u Cause.trap f.imm20.toNat next st.pc) ∧
       exec (.brk f) s = .next ((s.setStrand u (st.done f)).takeTrap u Cause.brk 0 next st.pc)) ∧
     (s.strand? u = some st → st.region = none →
       let handler : Word := st.tvec &&& 0x0000FFFFFFFFFFFC
       let active := st.tcause.getLsbD 63
       let at_ : Strand := { st with pc := pc, skip := 0, long := 0, ma := false, queued := none, behind := 0 }
       let starts := (s.setStrand u at_).startBit st.core st.ctx st.lrec (streamNo u false) handler
       let masked : Prop := cause ≤ 16 ∧ st.tvec.getLsbD (47 + cause) = true ∧ handler ≠ 0 ∧ active = false
       (masked → st.stepping = none → st.state = .run → extra < 2 ^ 32 →
         starts = (.ok b, t) → b ≠ some false →
         let word : Word := BitVec.ofNat 64 (2 ^ 63 + cause * 2 ^ 32 + extra)
         s.takeTrap u cause extra pc addr =
           (t.dropFills st.core (streamNo u false)).setStrand u { at_ with tpc := pc, tfaddr := addr, pc := handler, tcause := word }) ∧
       (masked → starts = (.ok (some false), t) → s.takeTrap u cause extra pc addr =
         ((t.dropFills st.core (streamNo u false)).stopStrand u Cause.illegalTarget 4 pc handler).stepEnds u) ∧
       (masked → st.state = .run → starts = (.error a, t) →
         s.takeTrap u cause extra pc addr = (t.putOff t.order (.trap u cause extra pc addr false)).leave u .parked .handler 2) ∧
       ((16 < cause ∨ st.tvec.getLsbD (47 + cause) = false ∨ handler = 0 ∨ active = true) → st.fra = 0 ∨ s.waiters = [] →
         ∃ st', (s.takeTrap u cause extra pc addr).strand? u = some st' ∧ st'.state = .stopped ∧ st'.pc = pc ∧ st'.x = st.x ∧
           st'.lcause = BitVec.ofNat 16 cause ∧ st'.tcause = st.tcause ∧ st'.tpc = st.tpc ∧
           (st.fra = 0 → (s.takeTrap u cause extra pc addr).mem = s.mem)))) ∧
  (∀ (s q r s1 : State) (u n core ctx sid cause extra lrec scope item : Nat) (st : Strand) (fra pc addr : Word) (iword : BitVec 32) (x : Xlat),
     q.strand? u = some st → s.iwordFor core ctx lrec n cause pc addr = (some iword, q) →
     let record := s.record n (some u) core ctx fra 0 sid cause pc addr extra lrec scope item false
     let words : List Nat :=
       [(st.frSeq + 1).toNat * 2 ^ 56 + sid % 2 ^ 21 * 2 ^ 16 + cause % 2 ^ 16, pc.toNat, addr.toNat, extra % 2 ^ 32, q.gclk.toNat,
        lrec % 1024 * 2 ^ 48 + scope % 256 * 2 ^ 40 + item % 2 ^ 40, iword.toNat, 0]
     (q.unitWrite core ctx n (some lrec) fra words (some true) true = (.ok (), r) →
       record = (true, r.editStrand u fun q => { q with frSeq := st.frSeq + 1 }) ∧
       (q.unitSite core ctx n (some lrec) fra true true = (.ok x, s1) → q.waiters = [] → x.pa % 8 = 0 → Memory.wf s1.mem = true →
         (∀ i < 8, (r.word (x.pa + 8 * i)).toNat = words.getD i 0 ∧ r.isFull (x.pa + 8 * i) = true) ∧
         ∀ a, a < x.pa ∨ x.pa + 64 ≤ a → s1.MarkedByte a (Memory.get s1.mem a) (Memory.get r.mem a))) ∧
     (∀ c e v, q.unitWrite core ctx n (some lrec) fra words (some true) true = (.error (.trap c e v), r) → record = (true, r)) ∧
     (∀ a, q.unitWrite core ctx n (some lrec) fra words (some true) true = (.error (.wait a), r) → record = (false, r)))

/-! ### The system's instructions -/

/-- 04 R109, 05 R140, 13 R308 to R310, 22 R351, R361, R372, 23 R375: STEP advances the step counter of its context; TLBINV drops
translations, and waits for the accesses on the retry lists that have used them; COHERE in its checking form answers 0; PSPLIT, PMERGE and
GENBUMP of a node their caller may manage change the leaves, or answer 2^63 + 1 to 3; CAST queues its command, or answers 2^63 + 3 when
the queue is full: 16 commands wait, beside one that runs (log entry 60). Where the rules are silent or open to a reading, the model's
own: log entries 20, 24 and 60. -/
def Obligations.SystemInstructions : Prop :=
  ∀ (s s1 s2 s3 r : State) (u : Nat) (st : Strand) (f : Fields) (a b : Word) (n p : Rect) (l m : Leaf), Issues s u st f →
    let ends (r : State) (v : Word) : Result := .next ((r.giving u f f.d.toNat v).replies u)
    exec (.step f) s = .next (((s.editCtx st.ctx fun c => { c with steps := c.steps + 1 }).behind u f).replies u) ∧
    (operandX false f.a f.ta s = (.ok a, s1) → operandB f s1 = (.ok b, r) → b.toNat < 3 →
      let stale := r.staleAccesses st.ctx a b.toNat
      (stale = [] → exec (.tlbinv f) s = .next (((r.tlbInv st.ctx a b.toNat).behind u f).replies u)) ∧
      (stale ≠ [] → exec (.tlbinv f) s =
        .next (((r.tlbInv st.ctx a b.toNat).editStrand u fun q => { q with behind := lenOf f }).leave u .parked (.accesses stale) 2))) ∧
    (operandX false f.a f.ta s = (.ok a, s1) → operandB f s1 = (.ok b, r) → a.toNat % 4096 = 0 → b.toNat % 4096 = 0 → b ≠ 0 →
      r.declaredRegion st a.toNat b.toNat = true →
      (f.m = 1 → exec (.cohere f) s = ends (r.tlbInvRun st.ctx a.toNat b.toNat) 0) ∧
      (f.m ≠ 1 → ∀ lines, regionLines (b.toNat / 4096) a (r.tlbInvRun st.ctx a.toNat b.toNat) = (.ok lines, s2) →
        heedHome (lines.map fun l => { line := l.1, slice := none, takes := none }) true s2 = (.ok (), s3) →
        let cores := s3.leafCores st.core
        let done := s3.cohereLines cores st.ctx st.sid lines 0
        let held := (lines.map (·.1)).filter done.2.backInv.contains
        exec (.cohere f) s = .next ((done.2.giving u f f.d.toNat (BitVec.ofNat 64 done.1)).leave u .parked
          (if held = [] then .reply else .lines held) 2))) ∧
    (operandX false f.a f.ta s = (.ok a, s1) → nodeOperand a s1 = (.ok n, s1) → needNode n s1 = (.ok (), s1) →
      (s1.leafAt n = none → exec (.psplit f) s = ends s1 0x8000000000000001) ∧
      (s1.leafAt n = some l → n.lw = 2 ∧ n.lh = 2 → exec (.psplit f) s = ends s1 0x8000000000000002) ∧
      (s1.leafAt n = some l → ¬ (n.lw = 2 ∧ n.lh = 2) →
        (s1.cutCrossed n = true → exec (.psplit f) s = .next (s1.leave u .parked (.cut n.toNat) 15)) ∧
        (s1.cutCrossed n = false → exec (.psplit f) s = ends (s1.splitLeaf l) 0)) ∧
      (n.parent = some p → s1.leafAt n = some l → n.buddy.bind s1.leafAt = some m →
        (s1.idle l.node = true ∧ s1.idle m.node = true ∧ l.gen = m.gen → exec (.pmerge f) s = ends (s1.mergeLeaves p l m) 0) ∧
        (¬ (s1.idle l.node = true ∧ s1.idle m.node = true ∧ l.gen = m.gen) → exec (.pmerge f) s = ends s1 0x8000000000000003)) ∧
      (n.parent = none ∨ s1.leafAt n = none ∨ n.buddy.bind s1.leafAt = none → exec (.pmerge f) s = ends s1 0x8000000000000001) ∧
      (let ls := s1.leaves.filter fun l => l.node.inside n
       ((∀ l ∈ ls, s1.idle l.node = true ∧ l.ready = true) → exec (.genbump f) s = ends (ls.foldl State.bumpLeaf s1) 0) ∧
       ((∃ l ∈ ls, s1.idle l.node = false ∨ l.ready = false) → exec (.genbump f) s = ends s1 0x8000000000000003))) ∧
    (∀ s4 x y lo hi pa, operandX false f.a f.ta s = (.ok a, s1) → a.toNat % 64 = 0 → checkAccess (Check.load 64) a 64 s1 = (.ok x, s2) →
      loadBytes x a 64 s2 = (.ok lo, s3) → checkAccess (Check.load 64) (a + 64) 64 s3 = (.ok y, s4) →
      loadBytes y (a + 64) 64 s4 = (.ok hi, r) →
      let w := wordsFrom 16 (lo ++ hi)
      nodeOperand (w.getD 1 0) r = (.ok n, r) → needNode n r = (.ok (), r) → ∀ t, castWord (w.getD 11 0) r = (.ok pa, t) →
      (16 ≤ t.castQ.length → exec (.cast f) s = .next ((t.givingRelease u f f.d.toNat 0x8000000000000003).replies u)) ∧
      (t.castQ.length < 16 → exec (.cast f) s = .next ((({ t with castQ := t.castQ ++ [castCmdOf w st.ctx pa] } : State).givingRelease u f
        f.d.toNat 0).replies u)))

/-! ### Events: the barrel and the launches -/

/-- 01 R21, R24, R28, R29, 02 R44, R45, R53, R59, 04 R101, 05 R122: the READY strand of the highest class, and of those the one READY
longest, takes the free position whose turn comes first; a strand that has issued 4,096 times gives its position up where its class waits,
and counts anew elsewhere; an item, a continuation, a migrated strand and a woken spilled one enter a slot, behind every strand that is
READY there; a wait whose object is there ends; an unmet access is tried again until its tries are spent, and then waits on its list, all
while its line is not held. Where the rules are silent or open to a reading, the model's own: log entries 42, 51 and 82. -/
def Obligations.BarrelEvents : Prop :=
  (∀ (s : State) (core pos u : Nat) (st : Strand), (s.core core).nextFree = some pos → s.nextReady core = some (u, st) →
    (s.inPosition core pos = none ∧ ∀ i < 8, s.inPosition core i = none →
      (pos + 8 - (s.core core).cyc % 8) % 8 ≤ (i + 8 - (s.core core).cyc % 8) % 8) ∧
    (∀ e ∈ s.strandsOf core, e.2.state = .ready → e.2.isSpilled = false → e.2.place ≠ .transit → s.halted e.2.ctx = false →
      e.2.prio < st.prio ∨ (e.2.prio = st.prio ∧ st.since ≤ e.2.since)) ∧
    ∃ t, exec (.barrelRefill core pos) s = .next t ∧ t.inPosition core pos = some u ∧
      t.strand? u = some { st with state := .run, issues := 0 } ∧ (∀ v ≠ u, t.strand? v = s.strand? v) ∧
      (∀ p ≠ pos, t.inPosition core p = s.inPosition core p) ∧ t.mem = s.mem) ∧
  (∀ (s : State) (core pos u : Nat) (st : Strand), s.inPosition core pos = some u → s.strand? u = some st →
    (st.issues < 4096 → exec (.quantumEnd core pos) s = .next s) ∧
    (4096 ≤ st.issues → s.classWaits core st.prio = false →
      exec (.quantumEnd core pos) s = .next (s.setStrand u { st with issues := 0 })) ∧
    (4096 ≤ st.issues → s.classWaits core st.prio = true → ∃ t, exec (.quantumEnd core pos) s = .next t ∧
      t.strand? u = some
        { st with state := .ready, await := .reply, since := s.order, skip := 0, long := 0, issues := 0, queued := none } ∧
      (∀ v ≠ u, t.strand? v = s.strand? v) ∧ t.mem = s.mem)) ∧
  (∀ (s r q : State) (lrec slot : Nat) (l : Launch) (b : Option Bool), s.launch? lrec = some l → s.mayDispatch lrec l = true →
    s.claimSlot (l.itemCore l.next) = some (slot, r) →
    ((({ r with nextUid := r.nextUid + 1 }.editLaunch lrec fun l => { l with next := l.next + 1, pop := l.pop + 1 }).seat
      r.nextUid (l.itemCore l.next) slot (l.itemStrand lrec l.next)).startBit (l.itemCore l.next) l.ctx lrec (streamNo r.nextUid false)
      l.entry) = (.ok b, q) → b ≠ some false →
    exec (.itemDispatch lrec) s = .next (q.dropFills (l.itemCore l.next) (streamNo r.nextUid false)) ∧
    ((l.itemStrand lrec l.next).item = l.next ∧ (l.itemStrand lrec l.next).pc = l.entry ∧
      (l.itemStrand lrec l.next).scope = l.fscope ∧ (l.itemStrand lrec l.next).ctx = l.ctx ∧
      (l.itemStrand lrec l.next).prio = l.prio ∧ (l.itemStrand lrec l.next).lrec = lrec ∧ (l.itemStrand lrec l.next).xFull = BitVec.allOnes 64 ∧
      (l.itemStrand lrec l.next).x[0] = BitVec.ofNat 64 l.next ∧ (l.itemStrand lrec l.next).x[1] = l.lpb ∧
      (∀ k, (h : k < 8) → (l.itemStrand lrec l.next).x[k + 2] = l.args.getD k 0) ∧
      (∀ k, (h : k < 54) → (l.itemStrand lrec l.next).x[k + 10] = 0))) ∧
  (∀ (s r : State) (u slot : Nat) (st : Strand), s.strand? u = some st → st.isSpilled = true → st.woken = true →
    (s.firstWoken st.core).map (·.1) = some u → s.claimSlot st.core = some (slot, r) →
    ∃ t, exec (.spillReload u) s = .next t ∧ t.strand? u = some { st with
        place := .slot slot, state := .ready, woken := false, since := s.order, streamSeq := []
        epoch := ((Sparse.get (r.core st.core).epochs slot).getD 0 + 1) % 256 } ∧
      (∀ v ≠ u, t.strand? v = r.strand? v) ∧ t.mem = r.mem) ∧
  (∀ (s r q : State) (core slot : Nat) (c : Cont) (b : Option Bool), (s.core core).arrivals.findSome? Arrival.cont? = some c →
    s.halted (((s.launch? c.lrec).map (·.ctx)).getD 0) = false → s.reloadWaits core = false →
    (c.stolen = false ∨ ∀ e ∈ s.launches, s.mayDispatch e.1 e.2 = true → e.2.itemCore e.2.next ≠ core) → s.claimSlot core = some (slot, r) →
    (({ r.editCore core fun k => { k with arrivals := k.arrivals.erase (.cont c) } with nextUid := r.nextUid + 1 }.seat
      r.nextUid core slot (r.ofCont c)).startBit core (r.ofCont c).ctx c.lrec (streamNo r.nextUid false) c.pc) = (.ok b, q) → b ≠ some false →
    exec (.continuationPickup core) s = .next (q.dropFills core (streamNo r.nextUid false)) ∧
    ((r.ofCont c).pc = c.pc ∧ (r.ofCont c).item = c.item ∧ (r.ofCont c).scope = c.scope ∧ (r.ofCont c).lrec = c.lrec ∧
      (r.ofCont c).x[0] = BitVec.ofNat 64 c.item ∧ (∀ k, (h : k < 5) → (r.ofCont c).x[k + 1] = c.xsave.getD k 0) ∧
      (r.ofCont c).x[45] = c.fp ∧ (r.ofCont c).x[47] = c.fp ∧ (r.ofCont c).x[46] = 0)) ∧
  (∀ (s r q : State) (core slot u : Nat) (st : Strand) (b : Option Bool),
    (s.core core).arrivals.findSome? Arrival.uid? = some u → s.strand? u = some st → s.halted st.ctx = false →
    s.reloadWaits core = false → s.claimSlot core = some (slot, r) →
    ((r.editCore core fun k => { k with arrivals := k.arrivals.erase (.strand u) }).seat u core slot st).startBit core st.ctx
      st.lrec (streamNo u false) st.pc = (.ok b, q) → b ≠ some false →
    exec (.migrationArrival core) s = .next (q.dropFills core (streamNo u false))) ∧
  (∀ (s t : State) (u core slot : Nat) (st : Strand) (a : Await),
    ((s.seat u core slot st).strand? u = some
      { st with core := core, place := .slot slot, state := .ready, await := .reply, since := s.order, streamSeq := [], queued := none
                behind := 0, epoch := ((Sparse.get (s.core core).epochs slot).getD 0 + 1) % 256 } ∧
      (s.seat u core slot st).mem = s.mem ∧ ∀ v ≠ u, (s.seat u core slot st).strand? v = s.strand? v) ∧
    ((s.seat u core slot st).startBit core st.ctx st.lrec (streamNo u false) st.pc = (.error a, t) →
      let q := t.leave u .parked .handler 2
      s.place u core slot st = q.putOff q.order (.start u)) ∧
    ((s.seat u core slot st).startBit core st.ctx st.lrec (streamNo u false) st.pc = (.ok (some false), t) →
      s.place u core slot st =
        (t.dropFills core (streamNo u false)).takeTrap u Cause.illegalTarget 0x03 st.pc st.pc)) ∧
  (∀ (s : State) (u : Nat) (st : Strand), s.strand? u = some st → st.state = .parked → st.isSpilled = false → st.woken = false →
    (s.awaitMet u st false st.await = true → ∃ t, exec (.memoryReply u) s = .next t ∧
      t.strand? u = some { st with state := .ready, await := .reply, since := s.order } ∧ t.mem = s.mem) ∧
    (∀ release acq host, st.await = .order release acq host → s.ordered u st release = true →
      ∃ t, exec (.leaseClockPassesVismax u) s = .next t ∧
        t.strand? u = some { st with state := .ready, await := .reply, since := s.order } ∧ t.mem = s.mem)) ∧
  (∀ (s : State) (u : Nat) (st : Strand) (w : Waiter), s.strand? u = some st → w.access = false →
    s.waiters.find? (fun w => w.uid == u && !w.listed) = some w → s.holdsWaiter w = false →
    let tried (l : Bool) : State :=
      { s with waiters := s.waiters.map fun v => if v == w then { w with tries := w.tries + 1, listed := l } else v }
    (w.kind.met s w.addr = false → w.tries + 1 < st.feRetry.toNat % 256 → exec (.syncRetry u) s = .next (tried false)) ∧
    (w.kind.met s w.addr = false → st.feRetry.toNat % 256 ≤ w.tries + 1 →
      exec (.syncRetry u) s = .next ((tried true).setStrand u { st with await := .syncWord })) ∧
    (w.kind.met s w.addr = true → ∀ r wrote, s.completeWaiter w = (r, none, wrote) →
      let r' : State := { r with waiters := r.waiters.filter (· != w) }
      exec (.syncRetry u) s = .next (if wrote then r'.written w.addr 8 else r')))

/-- 02 R40, R46 to R50, R55, R56, 12 R280, R284, R285, 13 R296: a launch that R47 admits runs, in gambit state where a producer of its has
not ended; a pending one ages; a complete one writes its completion word and gives its record up; a core that seeks work takes the oldest
continuation of its first victim, and waits 64 cycles where it finds none; a value on its way lands, once; a core records the break index
and ends what waits above it; a complete match entry pushes its record and is free. Where the rules are silent or open to a reading, the
model's own: log entries 21, 37, 48, 73 and 75. -/
def Obligations.LaunchEvents : Prop :=
  (∀ (s : State) (lrec : Nat) (l : Launch), s.launch? lrec = some l →
    (s.mayAdmit lrec l = true →
      (l.state = .pending ∧ l.nitems ≠ 0 ∧ s.halted l.ctx = false ∧ s.mayLaunch (s.callerTable l) l.ctx l.rect = true ∧ (∀ c ∈ l.rect.cores, s.hasRoom c = true) ∧
        (l.gmbt = false → s.producersDone l = true) ∧
        (∀ e ∈ s.launches, e.2.state ≠ .pending → e.2.ctx = l.ctx → l.gmbt = false → rangesConflict l.ranges e.2.ranges = false)) ∧
      ∃ t, exec (.launchAdmission lrec) s = .next t ∧
        t.launch? lrec = some { l with state := .running (!s.producersDone l) } ∧ (∀ k ≠ lrec, t.launch? k = s.launch? k) ∧
        t.mem = s.mem ∧ t.strands = s.strands) ∧
    (s.mayAdmit lrec l = false → exec (.launchAdmission lrec) s = .next s) ∧
    (l.state = .pending → s.halted l.ctx = false →
      let ago : Nat := (s.runClock l.ctx - l.pendFrom).toNat
      s.effClass l = min 3 (l.prio + (l.pended + ago) / 600000) ∧
      (ago < 600000 → exec (.launchAging lrec) s = .next s) ∧
      (600000 ≤ ago → ∃ t, exec (.launchAging lrec) s = .next t ∧
        t.launch? lrec = some { l with pended := l.pended + ago, pendFrom := s.runClock l.ctx } ∧ t.mem = s.mem ∧ t.strands = s.strands)) ∧
    (l.complete = true → s.halted l.ctx = false →
      (l.cword = 0 → exec (.launchCompletion lrec) s = .next (s.releaseRecord lrec l)) ∧
      (∀ r, l.cword ≠ 0 → s.agentWord lrec l.ctx l.cword l.wordValue = (.ok (), r) →
        exec (.launchCompletion lrec) s = .next ((r.bootWordDone l).releaseRecord lrec l)) ∧
      ∀ r : State, (r.releaseRecord lrec l).launch? lrec = none)) ∧
  (∀ (s q : State) (core lrec v : Nat) (l : Launch) (vs : List Nat) (c : Cont), s.launch? lrec = some l →
    s.seeks core lrec l = true → (∀ e ∈ s.launches, s.mayDispatch e.1 e.2 = true → e.2.itemCore e.2.next ≠ core) →
    (s.core core).probeAt.toNat ≤ s.gclk.toNat → Sparse.get (s.core core).ring lrec = none →
    spiral core l.rect = v :: vs →
    let r : State := s.editCore core id
    (r.takeOldest v lrec = (some c, q) → exec (.stealProbe core lrec) s =
      .next (q.editCore core fun k => { k with ring := Sparse.erase k.ring lrec, arrivals := k.arrivals ++ [.cont c] })) ∧
    (r.takeOldest v lrec = (none, q) → exec (.stealProbe core lrec) s =
      .next (q.editCore core fun k => { k with ring := Sparse.put k.ring lrec 1, probeAt := q.gclk + 64 }))) ∧
  (∀ (s : State) (lrec item d j u : Nat) (st : Strand) (l : Launch) (v : Delivery), s.launch? lrec = some l →
    l.flight.find? (fun v => v.item == item + d && v.d == d && v.j == j) = some v → s.itemStrand lrec (item + d) = some u →
    s.strand? u = some st →
    ∃ t, exec (.tempoDelivery lrec item d j) s = .next t ∧ t.launch? lrec = some { l with flight := l.flight.erase v } ∧
      t.strand? u = some { st with fwd := if (Sparse.get st.fwd (fwdKey d j)).isSome then st.fwd
                                          else Sparse.put st.fwd (fwdKey d j) v.value } ∧
      t.mem = s.mem ∧ ∀ w ≠ u, t.strand? w = s.strand? w) ∧
  (∀ (s : State) (core lrec : Nat) (l : Launch), s.launch? lrec = some l → l.rect.hasCore core = true →
    s.recordedBreak core lrec ≠ l.brk → s.isStopped l.ctx = false →
    let r : State := s.editCore core fun k => { k with brk := Sparse.put k.brk lrec l.brk }
    r.recordedBreak core lrec = l.brk ∧
    ((∀ e ∈ s.strandsOf core, e.2.lrec = lrec → e.2.item ≤ l.brk) → exec (.breakIndexRecord core lrec) s = .next r) ∧
    (∀ u st d j, s.strandsOf core = [(u, st)] → st.lrec = lrec → l.brk < st.item → st.state = .parked → st.await = .forward d j →
      exec (.breakIndexRecord core lrec) s = .next (r.endStrand u 13))) ∧
  (∀ (s r q : State) (board entry pa : Nat) (m : Match), Sparse.get s.matches_ (board * 1024 + entry) = some m →
    m.len ≤ m.got →
    s.unitPlace (s.agentCore m.ctx) m.ctx (some (matchUnit (board * 1024 + entry))) m.cont 64 false = (.ok pa, r) →
    r.pushCont m.core m.ctx m.sid { cont := contOf (r.wordsAt pa 8), tag := none, byItem := false }
      (some (matchUnit (board * 1024 + entry))) = (.done, q) →
    exec (.armtDeferredPush board entry) s = .next { q with matches_ := Sparse.erase q.matches_ (board * 1024 + entry) })

/-! ### Events: the engines -/

/-- 11 R246, R248, R253 to R264, 04 R103, R112, R113: a command at the head of its queue that may start runs, and ends with ALIGNMENT where
a base or stride is not a multiple of its element size; MMA computes one row block of its product at a time, MZERO, MRD and MWR the cells of
their tile, MST and CPY write one row at a time, CPYR lands its value, CPYROW moves rows of 2,048 bytes with their full/empty bits, CBOOK
loads the codebook; each ends when it has done so. A command that ends writes its completion word, where it has one, and leaves its queue;
in SET mode the word holds STATUS, FLAGS and COUNT, and is full. Where the rules are silent or open to a reading, the model's own: log entry
77. -/
def Obligations.EngineCommandEvents : Prop :=
  ∀ (s q r : State) (core : Nat) (c : Command),
    let row (d : Command) (bytes : Nat) : Command := { d with rprog := d.rprog + 1, bytes := d.bytes + bytes }
    (s.atHead core c .mma →
      (c.state = .queued → s.mayStart core c = true →
        (c.productAlign = none → exec (.matrixCommandRun core) s = .next (s.putCmd core { c with state := .running })) ∧
        (∀ a, c.productAlign = some a →
          exec (.matrixCommandRun core) s = .next (s.failCmd core c (.fail 6 Cause.alignment 0 a)))) ∧
      (c.state = .running → c.rprog < c.blocks → ∀ b, s.checkBlock core c = (.ok b, r) →
        r.heardAt core c (b.a.flatten ++ b.b.flatten ++ b.scale.flatten) [] = (none, q) → exec (.matrixCommandRun core) s =
          .next (q.doBlock core c { a := q.aElems c b.a, b := q.bElems c b.b, scale := q.scaleElems c b.scale })) ∧
      (c.state = .running → c.blocks ≤ c.rprog →
        exec (.matrixCommandRun core) s = .next (s.endCmd core { c with bytes := tileRows c.tile * tileCols c.tile * 4 } 0))) ∧
    (s.mayStart core c = true →
      (s.atHead core c .mzero →
        exec (.tileCommandRun core) s = .next ((s.editCore core fun k => k.setTile c.tile fun _ _ => some 0).endCmd core c 0)) ∧
      (s.atHead core c .mrd → exec (.tileCommandRun core) s =
        .next ((s.giveV c.uid c.dest (ofElems 32 ((List.range 128).map fun e =>
          match tileCellOf c.tile c.row e with
          | some (r, n) => ((s.core core).cell r n).toNat
          | none => 0)) (tileTag c.tile)).endCmd core c 0)) ∧
      (s.atHead core c .mwr → exec (.tileCommandRun core) s =
        .next ((s.editCore core fun k => (List.range 128).foldl (fun k e =>
          match tileCellOf c.tile c.row e with
          | some (r, n) => k.setCell r n (BitVec.ofNat 32 ((elems 32 c.data).getD e 0))
          | none => k) k).endCmd core c 0))) ∧
    (s.atHead core c .mst → c.state ≠ .queued →
      (tileRows c.tile ≤ c.rprog → exec (.mstRun core) s = .next (s.endCmd core c 0)) ∧
      (c.rprog < tileRows c.tile → ∀ d vals fl l, (∀ k, s.classed core c k = k r d) → r.mstRow core d = (vals, fl) →
        let w := Shape.widthOf d.fmt / 8
        r.takeRun core d true (shifted (d.reg 2) (d.rprog * d.stride 3)) (w * vals.length) = (.ok l, q) →
        exec (.mstRun core) s = .next ((q.writeChunks core d l (vals.flatMap (Memory.toBytes w))).putCmd core
          { row d (w * vals.length) with flags := d.flags ||| fl }))) ∧
    (s.atHead core c .cpy → c.state ≠ .queued →
      (c.copyRows ≠ 0 → c.copyRows ≤ c.rprog → exec (.copyCommandRun core) s = .next (s.endCmd core c 0)) ∧
      (c.rprog < c.copyRows → ∀ d t l m, (∀ k, s.classed core c k = k t d) → t.copyRuns core d = (.ok (l, m), r) →
        r.heardAt core d l m = (none, q) →
        (c.m % 4 = 0 → exec (.copyCommandRun core) s = .next ((q.writeChunks core d m (q.chunkBytes l)).putCmd core (row d c.rows0))) ∧
        (c.m % 4 = 1 → exec (.copyCommandRun core) s =
          .next ((q.writeChunks core d m ((q.core core).accBytes (((c.reg 0).toNat : Int) + c.rowShift 1 8).toNat c.rows0)).putCmd core
            (row d c.rows0))) ∧
        (c.m % 4 = 2 → exec (.copyCommandRun core) s =
          .next ((q.editCore core fun k => k.setAccBytes (((c.reg 2).toNat : Int) + c.rowShift 3 9).toNat (q.chunkBytes l)).putCmd core
            (row d c.rows0))))) ∧
    (s.atHead core c .cpyr → ∀ l, s.takeRun core c false c.addr (if c.m = 1 then 512 else 8) = (.ok l, r) →
      exec (.cpyrRun core) s = .next ((r.landCpyr c (r.chunkBytes l)).endCmd core c 0)) ∧
    (s.atHead core c .cpyrow → c.holds ≠ none →
      (c.rowBytes ≤ c.rprog * 2048 → exec (.cpyrowRun core) s = .next (s.endCmd core c 0)) ∧
      (c.rprog * 2048 < c.rowBytes → c.isFill = false → s.firstPoison (c.rowSource + 2048 * c.rprog) 2048 = none →
        Memory.wf s.mem = true →
        ∃ t, exec (.cpyrowRun core) s = .next t ∧
          Memory.getBytes t.mem (c.rowDest + 2048 * c.rprog) 2048 = Memory.getBytes s.mem (c.rowSource + 2048 * c.rprog) 2048 ∧
          (∀ a, a < c.rowDest + 2048 * c.rprog ∨ c.rowDest + 2048 * c.rprog + 2048 ≤ a → Memory.get t.mem a = Memory.get s.mem a) ∧
          (∀ i < 256, t.isFull (c.rowDest + 2048 * c.rprog + 8 * i) = s.isFull (c.rowSource + 2048 * c.rprog + 8 * i)) ∧
          t.headCmd core 1 = some (row c 2048) ∧ t.strands = s.strands)) ∧
    (s.atHead core c .cbook →
      (c.state = .queued → s.mayStart core c = true → (c.reg 9).toNat % 64 = 0 →
        exec (.cbookRun core) s = .next (s.putCmd core { c with state := .running })) ∧
      (c.state ≠ .queued → ∀ l, s.takeRun core c false (c.reg 9) 2048 = (.ok l, r) →
        ∃ book, exec (.cbookRun core) s = .next ((r.editCore core fun k => { k with codebook := book }).endCmd core
            { c with bytes := 2048 } 0) ∧
          ∀ i < 512, ((Sparse.get book i).getD 0).toNat = (r.chunkElems 4 512 l).getD i 0 % 2 ^ 17)) ∧
    (∀ status, status ≠ 1 → s.headCmd core c.kind.engine = some c →
      let d : Command := { c with ending := some ⟨status, none⟩ }
      (c.kind.reports = false → c.holds = none → (s.endCmd core c status).mem = s.mem ∧
        ∀ d ∈ ((s.endCmd core c status).engine core c.kind.engine).queue, d.order ≠ c.order) ∧
      (c.kind.reports = true → (s.putCmd core d).writeCword core d status = (.ok (), r) → s.endCmd core c status = r.dropCmd core d)) ∧
    (∀ x status, s.cwordPlace core c (.engine core c.kind.engine) c.ctx = (.ok x, q) → q.waiters = [] →
      s.writeCword core c status = (.ok (), r) → r.isFull x.pa = true ∧
        ((c.reg 7).getLsbD 0 = false →
          r.mem = Memory.setBytes q.mem x.pa (Memory.toBytes 8 (status * 2 ^ 56 + c.flags.toNat * 2 ^ 48 + c.bytes % 2 ^ 48))))

/-- 11 R256, R257: a gang whose members all stand at their barrier with one TAG and one shape starts, on every core at once; a member of a
K-split gang that has its own sum adds the sum that its western neighbour hands on, and hands on the new one. Where the rules are silent or
open to a reading, the model's own: log entry 59. -/
def Obligations.GangEvents : Prop :=
  (∀ (s : State) (core : Nat) (c : Command), s.atHead core c .gang →
    let run := gangRun core (field (c.reg 10) 2 0)
    (∀ k ∈ run, ∃ d, s.headOf k 0 [.gang] = some d ∧ d.state = .barrier ∧ d.gangTag = c.gangTag ∧ d.gangShape = c.gangShape) →
    ∃ t, exec (.gangBarrier core) s = .next t ∧ t.mem = s.mem ∧ t.strands = s.strands ∧
      ∀ k ∈ run, ∀ d, s.headOf k 0 [.gang] = some d → t.headCmd k 0 = some { d with state := .running, gang := some s.order }) ∧
  (∀ (s : State) (core : Nat) (c : Command), s.atHead core c .gang →
    (∃ k ∈ gangRun core (field (c.reg 10) 2 0), s.headOf k 0 [.gang] = none) → exec (.gangBarrier core) s = .next s) ∧
  (∀ (s : State) (core : Nat) (c : Command) (sum : List (BitVec 32)), s.atHead core c .gang → c.state = .chained →
    (s.engine core 0).sum = some sum →
    let cells := (sum.zip ((s.core core).tileCells c.tile).flatten).map fun (p, o) => c.chain p o
    exec (.ksplitSumArrival core) s =
      .next ((s.editCore core fun k => k.setTile c.tile fun i n => (cells[i * tileCols c.tile + n]?).map (·.1)).sumOn core
        { c with flags := c.flags ||| cells.foldl (fun f x => f ||| x.2) 0 })) ∧
  (∀ (c : Command) (p o : BitVec 32), (c.fmt = 9 → c.chain p o = (p + o, 0)) ∧
    (c.fmt ≠ 9 → c.chain p o = (BitVec.ofNat 32 (fpAdd 2 c.env p.toNat o.toNat).1, (fpAdd 2 c.env p.toNat o.toNat).2)))

/-! ### Events: coherence and the host -/

/-- 05 R124 to R127, R142: the message that the event names is the first about its line; it is taken, and what its receiver does and sends
follows: E for the one reader, a Fwd to the owner on whichever board, an Inv to every probed sharer of every board and the count of them,
an Upgrade without data for a core that still shares the line, a PutAck, an InvAck, data out of an owner's copy; a board other than the
requester's acknowledges once, when its own cores have. A request waits for the transaction in progress, for a held line and for the host,
but no GetS that is granted S or forwarded waits for the host. A probe from another partition changes no copy. Where the rules are silent
or open to a reading, the model's own: log entry 30, and log entry 64 for a GetS whose owner holds O, which R125 has no row for: it is
forwarded. -/
def Obligations.CoherenceEvents : Prop :=
  ∀ (s : State) (line core : Nat) (rest : List CohMsg) (k : MsgKind) (e : DirEntry) (l : L1Line), core < 8192 →
    s.msgs = ⟨line, core, k⟩ :: rest →
    let b := boardOf core
    let r : State := { s with msgs := rest }
    let sends (ms : List CohMsg) (t : State) : Prop := t.msgs = rest ++ ms ∧ t.mem = s.mem ∧ t.strands = s.strands
    let open_ : Prop := s.inProgress line = false ∧ s.lineHeld line true = false
    let free : Prop := open_ ∧ s.needsBackInv line = false
    let probed := s.sharersProbed line core
    let acks (q : Nat) : CohMsg := if b = boardOf q then ⟨line, q, .invAck⟩ else ⟨line, core, .boardAck q⟩
    let mine (t : State) : Prop := t.dir? line b = some { owner := some (core, .modified), sharers := .pointers [] } ∧
      ∀ o < 8, o ≠ b → t.dir? line o = none
    (k = .getS → free → (∀ o < 8, s.dir? line o = none) → ∃ t, exec (.homeGets line core) s = .next t ∧
      sends [⟨line, core, .data .exclusive⟩] t ∧ t.dir? line b = some { owner := some (core, .exclusive), sharers := .pointers [] }) ∧
    (k = .getS → s.inProgress line = false → s.lineHeld line false = false → s.ownerEntry line = none → (∃ o < 8, s.dir? line o ≠ none) →
      ∃ t, exec (.homeGets line core) s = .next t ∧ sends [⟨line, core, .data .shared⟩] t ∧ ∀ d, s.dir? line b = some d →
        t.dir? line b = some { d with sharers := d.sharers.add core }) ∧
    (k = .getS → s.inProgress line = false → s.lineHeld line false = false → ∀ p o st, s.ownerEntry line = some (p, o, st) →
      exec (.homeGets line core) s = .next { s with msgs := rest ++ [⟨line, o, .fwdGetS core⟩] }) ∧
    (k = .getM → free → s.ownerEntry line = none → ∃ t, exec (.homeGetm line core) s = .next t ∧
      sends (probed.map (⟨line, ·, .inv core⟩) ++ [⟨line, core, .data .modified⟩, ⟨line, core, .ackCount probed.length⟩]) t ∧ mine t) ∧
    (k = .getM → free → ∀ p o st, s.ownerEntry line = some (p, o, st) → o ≠ core → ∃ t, exec (.homeGetm line core) s = .next t ∧
      sends (probed.map (⟨line, ·, .inv core⟩) ++ [⟨line, o, .fwdGetM core⟩, ⟨line, core, .ackCount probed.length⟩]) t ∧ mine t) ∧
    (∀ cs, k = .upgrade → free → s.ownerEntry line = none → s.dir? line b = some e → e.sharers = .pointers cs → core ∈ cs →
      s.l1 core line = some l → ∃ t, exec (.homeUpgrade line core) s = .next t ∧
      sends (probed.map (⟨line, ·, .inv core⟩) ++ [⟨line, core, .ackCount probed.length⟩]) t ∧ mine t) ∧
    (∀ i, (k = .getS ∧ i = .homeGets line core ∨ k = .getM ∧ i = .homeGetm line core ∨ k = .upgrade ∧ i = .homeUpgrade line core) →
      (s.inProgress line = true → exec i s = .next s) ∧
      (s.lineHeld line (k != .getS) = true → exec i s = .next s) ∧
      (open_ → s.needsBackInv line = true → k ≠ .getS ∨ (∀ o < 8, s.dir? line o = none) → exec i s = .next (s.sendBackInv line))) ∧
    (∀ cs, k = .putS → s.dir? line b = some e → e.sharers = .pointers cs → core ∈ cs → (∀ m ∈ rest, m.line ≠ line) →
      ∃ t, exec (.homePuts line core) s = .next t ∧ sends [⟨line, core, .putAck false⟩] t ∧
        ∀ d, t.dir? line b = some d → d.owner = e.owner ∧ d.sharers = .pointers (cs.filter (· != core))) ∧
    (∀ d st, k = .putOwner d → s.dir? line b = some e → e.owner = some (core, st) → (∀ m ∈ rest, m.line ≠ line) →
      ∃ t, exec (.homePutOwner line core) s = .next t ∧ sends [⟨line, core, .putAck false⟩] t ∧
        ∀ d, t.dir? line b = some d → d.owner = none) ∧
    (∀ q, k.requester = some q → s.filtered (s.leafIdOf q) core = false → s.l1 core line = some l → l.swm = none →
      (k = .inv q → ∃ t, exec (.coreInv line core) s = .next t ∧ sends [acks q] t ∧ t.l1 core line = none) ∧
      (k = .fwdGetM q → ∃ t, exec (.coreFwdGetm line core) s = .next t ∧ sends [⟨line, q, .data .modified⟩] t ∧
        t.l1 core line = none) ∧
      (k = .fwdGetS q → l.state = .modified ∨ l.state = .owned → ∃ t, exec (.coreFwdGets line core) s = .next t ∧
        sends [⟨line, q, .data .shared⟩] t ∧ t.l1 core line = some { l with state := .owned } ∧
        ∃ d, t.dir? line b = some d ∧ d.owner = some (core, .owned)) ∧
      (k = .fwdGetS q → l.state = .exclusive → ∃ t, exec (.coreFwdGets line core) s = .next t ∧
        sends [⟨line, q, .data .shared⟩] t ∧ t.l1 core line = some { l with state := .shared })) ∧
    (∀ q, k.requester = some q → s.filtered (s.leafIdOf q) core = true →
      let counted := s.leaves.map fun l => if l.node.hasCore core then { l with probes := l.probes + 1 } else l
      (k = .inv q → exec (.routerProbeDrop line core) s = .next { r with leaves := counted, msgs := rest ++ [acks q] }) ∧
      (k = .fwdGetM q → exec (.routerProbeDrop line core) s =
        .next { r with leaves := counted, msgs := rest ++ [⟨line, q, .data .modified⟩] }) ∧
      (k = .fwdGetS q → ∃ t, exec (.routerProbeDrop line core) s = .next t ∧ sends [⟨line, q, .data .shared⟩] t ∧
        t.leaves = counted ∧ t.cores = s.cores)) ∧
    (∀ b, k = .putAck b → ∃ t, exec (.corePutack line core) s = .next t ∧ sends [] t ∧ Sparse.get (t.core core).mshr line = none) ∧
    (∀ st m, k = .data st → Sparse.get (s.core core).mshr line = some m → m.want = .getS →
      ∃ t, exec (.requesterResponse line core) s = .next t ∧ sends [] t ∧ Sparse.get (t.core core).mshr line = none ∧
        (t.l1 core line).map (·.state) = some st) ∧
    (∀ q left total, k = .boardAck q → Sparse.get s.homes.acks (dirKey line b) = some (left, total) →
      ∃ t, exec (.requesterResponse line core) s = .next t ∧ sends (if left ≤ 1 then [⟨line, q, .invAcks total⟩] else []) t ∧
        Sparse.get t.homes.acks (dirKey line b) = if left ≤ 1 then none else some (left - 1, total)) ∧
    (∀ st m n j, (k = .invAck ∧ j = 1 ∨ k = .invAcks j) → Sparse.get (s.core core).mshr line = some m → m.want = .getM →
      m.grant = some st → m.wanted = some n →
      ∃ t, exec (.requesterResponse line core) s = .next t ∧ sends [] t ∧
        (m.got + j = n → Sparse.get (t.core core).mshr line = none ∧ (t.l1 core line).map (·.state) = some st ∧ (t.core core).acks = n) ∧
        (m.got + j ≠ n → Sparse.get (t.core core).mshr line = some { m with got := m.got + j }))

/-- 22 R370, 05 R114, R121, R141, R142, 10 R238: a snoop leaves no owner of its line, an invalidating one no copy; the host takes a line of
a decoder's range alone, and gives it back with its answer; a decoder takes a range that R370 allows; CXL.mem reads and writes the bytes at
the home, a write those of its enabled bytes; a value on a link enters its register, if that is empty, and its sender goes on. Where the
rules are silent or open to a reading, the model's own: log entries 31 and 32. -/
def Obligations.HostEvents : Prop :=
  (∀ (s : State) (line : Nat), (∀ m ∈ s.msgs, m.line ≠ line) →
    let free : Prop := s.boot.state ≠ 5 ∧ s.lineHeld line true = false ∧ s.mustQueue hostUnit (linePlace line) = false
    (free → ∃ t, exec (.hostSnoop line) s = .next t ∧ t.answers = s.answers ++ [.snooped line] ∧ t.mem = s.mem ∧
      ∀ b < 8, ∀ e, t.dir? line b = some e → e.owner = none) ∧
    (free → ∃ t, exec (.hostSnoopInvalidate line) s = .next t ∧ t.answers = s.answers ++ [.invalidated line] ∧ t.mem = s.mem ∧
      (∀ b < 8, t.dir? line b = none) ∧
      ∀ c ∈ s.probedBy line 8192, (∀ l, s.l1 c line = some l → l.swm = none) → t.l1 c line = none) ∧
    (s.hdmLine line = true → free → ∃ t, exec (.hostOwnershipRequest line) s = .next t ∧
      (t.agent line).host = .exclusive ∧ t.mem = s.mem ∧ ∀ b < 8, t.dir? line b = none) ∧
    (¬ free → exec (.hostSnoop line) s = .next s ∧ exec (.hostSnoopInvalidate line) s = .next s ∧
      exec (.hostOwnershipRequest line) s = .next s) ∧
    (line ∈ s.backInv → s.waiters = [] → ∃ t, exec (.backInvalidateResponse line) s = .next t ∧ line ∉ t.backInv ∧
      t.needsBackInv line = false ∧ t.mem = s.mem)) ∧
  (∀ (s : State) (n hpa base size : Nat),
    (s.hdmOk n hpa base size = true → s.boot.state ≠ 5 → exec (.hdmDecoderCommit n hpa base size) s =
      .next { s with hdm := s.hdm.setIfInBounds n (some ⟨hpa, base, size⟩) }) ∧
    (s.hdmOk n hpa base size = false ∨ s.boot.state = 5 → exec (.hdmDecoderCommit n hpa base size) s = .next s)) ∧
  (∀ (s : State) (addr n pa : Nat), s.hdmAddr addr n = some pa →
    s.boot.state ≠ 5 → s.heldFor hostUnit (linesOfRun pa n) false = none → (∀ l ∈ linesOfRun pa n, ∀ m ∈ s.msgs, m.line ≠ l) →
    ∃ t, exec (.hostMemRead addr n) s = .next t ∧ t.answers = s.answers ++ [.read addr (Memory.getBytes s.mem pa n)] ∧ t.mem = s.mem) ∧
  (∀ (s : State) (addr pa : Nat) (bytes : List (Option (BitVec 8))), s.hdmAddr addr bytes.length = some pa →
    s.boot.state ≠ 5 → (∀ l ∈ enabledLines pa bytes, s.holdsHost l = false) → s.waiters = [] → Memory.wf s.mem = true →
    ∃ t, exec (.hostMemWrite addr bytes) s = .next t ∧
      (∀ i < bytes.length, Memory.get t.mem (pa + i) = ((bytes[i]?).getD none).getD (Memory.get s.mem (pa + i))) ∧
      ∀ a, a < pa ∨ pa + bytes.length ≤ a → Memory.get t.mem a = Memory.get s.mem a) ∧
  (∀ (s : State) (core dir c u : Nat) (st q : Strand) (v : LinkVal), dir < 4 → (s.core core).links[dir]?.getD none = some v →
    s.neighbour core dir = some c → s.bySid c v.slot = some (u, st) → s.strand? u = some st → v.isV = false → st.region = none →
    s.strand? v.sender = some q → q.region = none → q.state = .parked → q.isSpilled = false → q.woken = false → u ≠ v.sender →
    (st.xFull.getLsbD v.reg = true → exec (.putnDelivery core dir) s = .next s) ∧
    (st.xFull.getLsbD v.reg = false → ∃ t, exec (.putnDelivery core dir) s = .next t ∧
      t.strand? u = some (st.gives v.reg (v.bits.truncate 64)) ∧ (t.core core).links[dir]?.getD none = none ∧
      t.strand? v.sender = some { q.gives v.dest 0 with pc := q.pc + BitVec.ofNat 64 v.len, ma := false, queued := none,
                                                        state := .ready, await := .reply, since := s.order } ∧ t.mem = s.mem))

/-- 05 R130 to R132, 24 R419, R420: a leased copy whose lease has run out is dropped; module 0 of a job sends its lease clock, and a
module takes it over; a module whose lease clock reaches 0xFFF0_0000 begins the pauses of its jobs, or asks module 0 for them; module 0
ends one when it and every other module that can be reached have drained, and the others say so once and end theirs when they are told.
The end of a pause drops the leases, sets the lease clock to 0, and VISMAX to 0 in every strand of the job. Which control packets the
modules exchange, and that one job's pause drops the leases of the module, are the model's own: log entries 16 and 83. -/
def Obligations.LeaseEvents : Prop :=
  ∀ (s : State),
    (∀ line, exec (.leaseExpiry line) s =
      .next { s with leased := s.leased.filter fun e => !(e.1 / 65536 / 4096 == line && e.2.1 ≤ s.leaseClock.toNat) }) ∧
    (∀ job e, s.validJobs.find? (fun e => field e 15 0 == job) = some e → s.conducts e = true →
      exec (.leaseSyncSend job) s = .next (s.toJob 0x20 e [s.gclk - s.lbase])) ∧
    (∀ p a, s.boot.state ≠ 5 → s.takenAt p = some a → p.dst = s.selfModule →
      (∃ t, exec (.fabricLeaseSync p) s = .next t ∧ t.gclk - t.lbase = p.words.headD 0 ∧
        t = { a with outbox := a.outbox.erase (0x20, p), lbase := t.lbase }) ∧
      let b : State := { a with outbox := a.outbox.erase (0x21, p) }
      (s.jobEntry p.job = none → exec (.fabricPauseControl p) s = .next b) ∧
      ∀ e, s.jobEntry p.job = some e →
        (Sparse.get s.pausing p.job = none →
          (p.words.headD 0 ≠ 1 → exec (.fabricPauseControl p) s = .next b) ∧
          (p.words.headD 0 = 1 → s.castRun = none → s.conducts e = true → exec (.fabricPauseControl p) s =
            .next ({ b with pausing := Sparse.put s.pausing p.job [] }.toJob 0x21 e [1]))) ∧
        ∀ heard, Sparse.get s.pausing p.job = some heard →
          (p.words.headD 0 = 2 → s.conducts e = true → exec (.fabricPauseControl p) s =
            .next { b with pausing := Sparse.put s.pausing p.job (insertNat heard p.src) }) ∧
          (p.words.headD 0 = 0 → s.conducts e = false →
            (s.drained p.job = true → exec (.fabricPauseControl p) s = .next (b.endPause p.job)) ∧
            (s.drained p.job = false → exec (.fabricPauseControl p) s =
              .next { b with outbox := b.outbox ++ [(0x21, { p with link := none })] }))) ∧
    (s.pausing = [] → s.castRun = none → 0xFFF00000 ≤ s.leaseClock.toNat → ∃ t, exec .wrapPause s = .next t ∧
      (∀ j ∈ s.pauseJobs, Sparse.get t.pausing j = some []) ∧ t.leased = s.leased ∧ t.sent = s.sent ∧ t.mem = s.mem) ∧
    (∀ job heard, s.pausing = [(job, heard)] → s.leaseClock.toNat < 0xFFF00000 →
      (s.drained job = false → exec .wrapPause s = .next s) ∧
      (s.drained job = true →
        (s.jobEntry job = none → s.castRun = none → exec .wrapPause s = .next (s.endPause job)) ∧
        ∀ e, s.jobEntry job = some e →
          (s.conducts e = true → s.castRun = none → (∀ m ∈ jobModules e, m ≠ s.selfModule → s.reachable job m = true → m ∈ heard) →
            exec .wrapPause s = .next (s.endPause job)) ∧
          (s.conducts e = true → (∃ m ∈ jobModules e, m ≠ s.selfModule ∧ s.reachable job m = true ∧ m ∉ heard) →
            exec .wrapPause s = .next s) ∧
          (s.conducts e = false → s.selfModule ∉ heard → exec .wrapPause s =
            .next ({ s with pausing := Sparse.put s.pausing job [s.selfModule] }.control 0x21 job ((jobModule e 0).getD 0) [2])))) ∧
    (∀ job, s.castRun = none → let t := s.endPause job
      Sparse.get t.pausing job = none ∧ t.leased = [] ∧ t.gclk - t.lbase = 0 ∧
        (∀ u st, t.strand? u = some st → s.pauseKey st.ctx = some job → st.visMax = 0) ∧
        (∀ u st, s.strand? u = some st → s.pauseKey st.ctx ≠ some job → t.strand? u = some st) ∧
        (∀ line, (t.agent line).lease = 0) ∧ t.mem = s.mem)

/-! ### Events: the fabric -/

/-- 24 R408, R411 to R414, 05 R130, 10 R221, R222: a packet that a port discards is not taken; an operation for another module goes on. One
that begins a stream at this module, of a job it knows, with an address that passes the checks: LDX answers with the word at its home, STX
and a mailbox message write theirs and are acknowledged, a remote atomic answers with the old value and writes the new. Where a check fails
it answers the cause, where a home is held it waits; of a job it does not know it answers NOCTX; without a record it is refused. Where the
rules are silent or open to a reading, the model's own: log entries 25 and 28. -/
def Obligations.FabricOperations : Prop :=
  ∀ (s a r : State) (p : Packet) (ty ctx : Nat) (xs : List Xlat) (x : Xlat), s.boot.state ≠ 5 →
    let i : Instr := if ty = 1 then .fabricLdx p else if ty = 2 then .fabricStx p else if ty = 3 then .fabricRemoteAtomic p
      else .fabricMsgMailbox p
    let q : Packet := { p with link := none }
    let s0 : State := { a with outbox := a.outbox.erase (ty, p) }
    let stream : StreamRec :=
      { src := p.src, strand := p.strand, epoch := p.epoch, expected := p.seq, held := [(p.seq, ty, q)], queued := none }
    let s1 : State := { s0 with streams := s0.streams ++ [stream], quiet := s0.quiet.filter fun r => !r.is q }
    let answer (ty' : Nat) (aux : BitVec 64) (ws : List Word) : Nat × Packet :=
      (ty', { q with dst := p.src, src := p.dst, aux := aux, words := ws, channel := 0, hop := none })
    let answers (t : State) (ty' : Nat) (aux : BitVec 64) (ws : List Word) : Prop := t.outbox = s0.outbox ++ [answer ty' aux ws]
    let n := if ty = 3 ∧ field p.aux 4 3 = 2 then 4 else 8
    let k := if ty = 4 then p.words.length else 1
    1 ≤ ty → ty ≤ 4 →
    (s.takenAt p = none → exec i s = .next s) ∧
    (s.takenAt p = some a →
      (p.dst ≠ s.selfModule → exec i s = .next { s0 with outbox := s0.outbox ++ [(ty, q)] }) ∧
      (p.dst = s.selfModule → s.streamOf q = none →
        (4096 ≤ s.streams.length → p.src ≠ s.selfModule → exec i s = .next s0) ∧
        (4096 ≤ s.streams.length → p.src = s.selfModule → s.refused = [] →
          exec i s = .next { s0 with refused := [⟨p.strand, p.epoch, p.seq, s.gclk + 600⟩] }) ∧
        (s.streams.length < 4096 → (s.newStream q).expected = p.seq → s.waiters = [] →
          (s.jobCtx p.job = none →
            ∃ t, exec i s = .next t ∧ answers t 0x12 32 [] ∧ t.mem = s.mem ∧ t.jobFilter = s.jobFilter + 1) ∧
          (∀ c e v, s.jobCtx p.job = some ctx →
            s1.targetAccess (askerOf q) ctx (remoteCheck ty p.mode n) n k p.addr = (.error (.trap c e v), r) →
            ∃ t, exec i s = .next t ∧ answers t 0x12 (BitVec.ofNat 64 c) [] ∧ t.mem = r.mem) ∧
          (∀ w, s.jobCtx p.job = some ctx →
            s1.targetAccess (askerOf q) ctx (remoteCheck ty p.mode n) n k p.addr = (.error (.wait w), r) →
            exec i s = .next ((r.askUnit w).standStream q w)) ∧
          (s.jobCtx p.job = some ctx → s1.targetAccess (askerOf q) ctx (remoteCheck ty p.mode n) n k p.addr = (.ok xs, r) →
            xs.head? = some x → (∃ y ∈ xs, r.tierDown y.pa = true) → ∃ t, exec i s = .next t ∧ t.mem = r.mem ∧
              answers t 0x12 (BitVec.ofNat 64 (if ty = 1 ∨ ty = 3 then Cause.memoryUe else 37)) []) ∧
          (s.jobCtx p.job = some ctx → s1.targetAccess (askerOf q) ctx (remoteCheck ty p.mode n) n k p.addr = (.ok xs, r) →
            xs.head? = some x → (∀ y ∈ xs, r.tierDown y.pa = false) → p.mode = 0 →
            (ty = 1 → r.poisoned x.pa 8 = false → ∃ t rest, exec i s = .next t ∧ t.mem = r.mem ∧ (p.words ≠ [] → rest = []) ∧
              answers t 0x10 0 (r.word x.pa :: rest)) ∧
            (ty = 1 → r.poisoned x.pa 8 = true →
              ∃ t, exec i s = .next t ∧ t.mem = r.mem ∧ answers t 0x12 (BitVec.ofNat 64 Cause.memoryUe) []) ∧
            (ty = 2 → ∃ t vt, exec i s = .next t ∧ t.mem = (r.store x.pa 8 (p.words.headD 0).toNat).mem ∧ answers t 0x11 vt []) ∧
            (ty = 3 → r.poisoned x.pa n = false → ∃ t vt, exec i s = .next t ∧
              let op := field p.aux 15 8
              let m := field p.aux 7 3
              let arg (i : Nat) : Nat := (p.words.getD i 0).toNat % 2 ^ (8 * n)
              let v := atomicValue op (field p.aux 2 0) m (8 * n) (r.load x.pa n) (arg 0) (arg 1) (arg 2)
              t.mem = (if v.1 then (r.store x.pa n v.2).mem else r.mem) ∧ answers t 0x10 vt [BitVec.ofNat 64 (r.load x.pa n)]) ∧
            (ty = 4 → ∃ t vt, exec i s = .next t ∧
              t.mem = ((xs.map (·.pa)).zip p.words).foldl (fun m e => Memory.setBytes m e.1 (Memory.toBytes 8 e.2.toNat)) r.mem ∧
              answers t 0x11 vt [])))))

/-- 24 R411, R412, R414 to R416, 10 R222, R228: a tag message begins its stream and meets its entry, or waits in the buffer of its board; a
response ends its operation: data goes to the register and the strand goes on, an acknowledgement's visibility time is folded into VISMAX,
the failure of a waiting operation traps REMOTE_LOAD_FAIL, that of a posted one enters the error queue; what a refused packet's stream has
outstanding comes again; a quiet stream's record is free; the packet held longest without an entry fails with NOTAG. Where the rules are
silent or open to a reading, the model's own: log entries 25, 28 and 66. -/
def Obligations.FabricResponses : Prop :=
  (∀ (s a : State) (p : Packet) (ctx : Nat), s.boot.state ≠ 5 → s.takenAt p = some a → p.dst = s.selfModule →
    let q : Packet := { p with link := none }
    s.streamOf q = none → s.streams.length < 4096 → (s.newStream q).expected = p.seq → s.waiters = [] → s.jobCtx p.job = some ctx →
    let s0 : State := { a with outbox := a.outbox.erase (5, p) }
    let stream : StreamRec :=
      { src := p.src, strand := p.strand, epoch := p.epoch, expected := p.seq, held := [(p.seq, 5, q)], queued := none }
    let s1 : State := { s0 with streams := s0.streams ++ [stream], quiet := s0.quiet.filter fun r => !r.is q }
    let held := (Sparse.get s.unexpected p.board).getD []
    (s.matchOf ctx p.board (field p.addr 31 0) = none → q ∉ held →
      (held.length < 64 → exec (.fabricMsgTag p) s =
        .next { s1 with unexpected := Sparse.put s.unexpected p.board (held ++ [q]) }) ∧
      (64 ≤ held.length → ∃ t, exec (.fabricMsgTag p) s = .next t ∧ t.mem = s.mem ∧ t.unexpected = s.unexpected ∧ t.outbox =
        s0.outbox ++ [(0x12, { q with dst := p.src, src := p.dst, aux := 35, words := [], channel := 0, hop := none })])) ∧
    (∀ key m t, s.matchOf ctx p.board (field p.addr 31 0) = some (key, m) → s.heldBefore q = false →
      s1.deliverTag key m q = (true, t) → t.streams = (s1.streamNext q).streams → t.unexpected = s.unexpected →
      exec (.fabricMsgTag p) s = .next (t.setUnexpected p.board (held.erase q)))) ∧
  (∀ (s a : State) (p : Packet) (e : Sent) (st : Strand), s.boot.state ≠ 5 → s.takenAt p = some a → p.dst = s.selfModule →
    s.sent.find? (·.answers p) = some e → s.strand? e.uid = some st → st.region = none → st.isSpilled = false → st.woken = false →
    let s0 (ty : Nat) : State := { a with outbox := a.outbox.erase (ty, p) }
    let seen (q : Strand) : Strand := { q with visMax := if st.visMax < p.aux then p.aux else st.visMax }
    let goes (q : Strand) : Strand :=
      { q with pc := st.pc + BitVec.ofNat 64 e.len, ma := false, queued := none, state := .ready, await := .reply, since := s.order }
    (∀ v vs, p.words = v :: vs → st.state = .parked → ∃ t, exec (.fabricDataResponse p) s = .next t ∧
      (e.ty = 1 ∨ e.ty = 3 → t.mem = s.mem ∧ t.sent = s.sent.erase e) ∧
      (e.dropped = false → e.ty = 1 → e.packet.mode = 0 → t.strand? e.uid = some (goes (st.gives e.dest v))) ∧
      (e.dropped = false → e.ty = 1 → e.packet.mode ≠ 0 → t.strand? e.uid = some (goes ((seen st).gives e.dest v))) ∧
      (e.dropped = false → e.ty = 3 →
        t.strand? e.uid = some (goes { (seen st).gives e.dest v with phase := st.phase + 1 })) ∧
      (e.dropped = true → e.ty = 1 → e.packet.mode = 0 → t.strand? e.uid = some st)) ∧
    (∃ t, exec (.fabricAck p) s = .next t ∧ t.mem = s.mem ∧ t.sent = s.sent.erase e ∧ t.strand? e.uid = some (seen st)) ∧
    (e.ty = 1 ∨ e.ty = 3 ∧ p.words = [] → e.dropped = false → exec (.fabricFailure p) s = .next
      { ({ (s0 0x12).settleSent e with stream := .execute }.takeTrap e.uid Cause.remoteLoadFail (field p.aux 15 0) st.pc e.packet.addr)
        with stream := s.stream }) ∧
    (e.ty = 2 ∨ e.ty = 4 → exec (.fabricFailure p) s = .next (((s0 0x12).errorEntry (some e.uid) st.ctx e.packet.addr
      (s.jobNumberOf e.packet.job e.packet.dst) (if e.ty = 2 then 1 else 2) (field p.aux 15 0) e.packet.strand).settleSent e))) ∧
  (∀ (s : State) (p : Packet), p.dst ≠ s.selfModule → ∃ again,
    exec (.streamResend p) s = .next { s with outbox := s.outbox ++ again } ∧
    ∀ x, x ∈ again ↔ x ∉ s.outbox ∧ ∃ e ∈ s.sent, x = (e.ty, e.packet) ∧ e.packet.dst = p.dst ∧ e.packet.strand = p.strand ∧
      e.packet.epoch = p.epoch ∧ (e.packet.seq + 65536 - p.seq) % 65536 < 64) ∧
  (∀ (s : State) (src strand epoch : Nat), ∃ t, exec (.streamRecordFree src strand epoch) s = .next t ∧
    (∀ r, r ∈ t.streams ↔ r ∈ s.streams ∧ ¬ (r.src = src ∧ r.strand = strand ∧ r.epoch = epoch ∧ r.held = [])) ∧
    t = { s with streams := t.streams, quiet := t.quiet }) ∧
  (∀ (s : State) (board : Nat) (p : Packet), Sparse.get s.unexpected board = some [p] → s.matchFor board p = none →
    s.streamOf p = none → exec (.unexpectedPacketTimeout board) s =
      .next ((({ s with unexpected := Sparse.erase s.unexpected board } : State).streamNext p).respond 0x12 p 35 []))

/-- 24 R406, R408 to R410, R421, R422, R403, 10 R218: a port whose receiver refuses a flit discards what follows and asks for it again,
until its sender has sent from there, the packets whose tails lie before the refused flit being acknowledged; a port changes its width
through a silence, to what its working lanes allow, a forced change with its buffer sent again behind it; it gives its packets back when
it goes down, reads WIDTH 0 while it is disabled, keeps a width request until it is enabled, and is a hop that is down while its neighbour
has a stalemate; a tier link goes down for good; a word takes an uncorrectable error; a JOB entry that R403 allows is written with its
reserved bits zero. Where the rules are silent or open to a reading, the model's own: log entries 26 and 27. -/
def Obligations.PortEvents : Prop :=
  ∀ (s : State) (n : Nat) (p : Port), n < 8 → s.ports[n]? = some p →
    let set (q : Port) : State := { s with ports := s.ports.setIfInBounds n q }
    let sets (q : Port) : Result := .next (set q)
    let again (q : Port) : State := if q.replay = [] then set q else { set q with answers := s.answers ++ [.resent n q.replay.length] }
    let goal (w : Nat) : Nat := if w = 3 then p.widest else min w p.widest
    let failed : BitVec 16 → Nat → BitVec 16 := fun f lane => f ||| (1#16 <<< lane)
    (exec (.flitCrcFail n) s =
      .next (if p.down? ∨ p.discarding then s
             else { set { p with discarding := true } with answers := s.answers ++ [.replayRequest n] })) ∧
    (∀ refused, let before := (refused + 65536 - p.flits) % 65536
      (replayFlits p.replay < before → exec (.replayRequest n refused) s = .next (again p)) ∧
      (before ≤ replayFlits p.replay → ∃ acked rest, p.replay = acked ++ rest ∧ replayFlits acked ≤ before ∧
        (∀ e es, rest = e :: es → before < replayFlits (acked ++ [e])) ∧ exec (.replayRequest n refused) s =
          .next (again { p with replay := rest, flits := acked.foldl (fun f e => (f + flitsOf e.2) % 65536) p.flits }))) ∧
    (∀ lane, p.width = 0 → exec (.laneFailure n lane) s = sets { p with lfail := failed p.lfail lane }) ∧
    (∀ lane w, p.width ≠ 0 → w = Port.widest { p with lfail := failed p.lfail lane } →
      (w ≠ 0 → exec (.laneFailure n lane) s =
        sets { p with lfail := failed p.lfail lane, silent := true, nextWidth := w, forced := true, discarding := true }) ∧
      (w = 0 → ∃ t, exec (.laneFailure n lane) s = .next t ∧ t.portDown n = true ∧ t.outbox = s.outbox ++ p.replay)) ∧
    (p.silent = true →
      (p.forced = false → exec (.linkSilenceEnd n) s =
        sets { p with silent := false, width := p.nextWidth, wreq := 0, lfail := if p.wreq = 3 then 0 else p.lfail }) ∧
      (p.forced = true → p.wreq = 0 → exec (.linkSilenceEnd n) s =
        .next (again { p with silent := false, width := p.nextWidth, forced := false })) ∧
      (p.forced = true → p.wreq ≠ 0 → exec (.linkSilenceEnd n) s =
        .next (again { p with width := p.nextWidth, forced := false, nextWidth := goal p.wreq }))) ∧
    (∀ i w, (i = .portWreqX4 n ∧ w = 1 ∨ i = .portWreqX8 n ∧ w = 2 ∨ i = .portWreqRetrain n ∧ w = 3) →
      (p.enabled = false ∨ p.forced = true → exec i s = sets { p with wreq := w }) ∧
      (p.enabled = true → p.forced = false → exec i s = sets { p with wreq := w, silent := true, nextWidth := goal w })) ∧
    (p.enabled = true ∨ p.wreq = 0 ∨ p.forced = true → exec (.portEnWrite n true) s = sets { p with enabled := true }) ∧
    (p.enabled = false → p.wreq ≠ 0 → p.forced = false → exec (.portEnWrite n true) s =
      sets { p with enabled := true, silent := true, nextWidth := goal p.wreq }) ∧
    (p.enabled = false → s.trolanRead (0xA0 + 4 * n) % 8 = 0) ∧
    (∀ i t, (i = .portEnWrite n false ∨ i = .neighbourStalemate n) → exec i s = .next t →
      t.portDown n = true ∧ t.outbox = s.outbox ++ p.replay ∧ (t.ports[n]?).map (·.wreq) = some p.wreq) ∧
    (∃ t, exec (.portEnWrite n false) s = .next t) ∧ (∃ t, exec (.neighbourStalemate n) s = .next t) ∧
    (∀ link (l : TierLink), s.tiers[link]? = some l → exec (.tierLinkDown link) s =
      .next { s with tiers := s.tiers.setIfInBounds link { l with up := false, width := 0 } }) ∧
    (∀ addr, zoneOf s.tierCap addr ≠ .nowhere → ∃ t, exec (.uncorrectableError addr) s = .next t ∧ t.poisoned addr 1 = true ∧
      t = { s with poison := t.poison }) ∧
    (∀ i v, s.jobOk i v = true → ∃ e, exec (.jobEntryWrite i v) s = .next { s with jobs := s.jobs.setIfInBounds i e } ∧
      e.extractLsb' 0 16 = v.extractLsb' 0 16 ∧ e.extractLsb' 16 13 = 0 ∧ e.extractLsb' 29 27 = v.extractLsb' 29 27 ∧
      e.extractLsb' 56 7 = 0 ∧ e.getLsbD 63 = v.getLsbD 63) ∧
    (∀ i v, s.jobOk i v = false → exec (.jobEntryWrite i v) s = .next s)

/-! ### Events: castling, management, bring-up, the fleet -/

/-- 23 R377 to R382, R392, 22 R362: the command at the head of the castling queue starts when its event comes and no other runs: STOP and
SWITCH set T and keep OUT's map, RESUME and PREFETCH keep IN's and go on at once; one that fails a check ends with its status. At T no
strand of OUT is in RUN and OUT is stopped; the token sweeps the routers of OUT's leaf in turn, and behind the last one OUT is saved, once
all that it has outstanding is answered; a unit's move begins, once no line of its frame is in use, or the one under way ends; a scrub
walk's end makes its leaf ready if it began after the bump. Where the rules are silent or open to a reading, the model's own: log entries
22, 57, 58 and 60. -/
def Obligations.CastlingEvents : Prop :=
  (∀ (s : State) (c : CastCmd) (rest : List CastCmd), s.castRun = none → s.castQ = c :: rest →
    let s0 : State := { s with castQ := rest, castMoved := 0 }
    let due : CastPhase := .toStop (s.gclk + BitVec.ofNat 64 (max c.lead 38400))
    let out (r : State) : State := r.keepMap c.out c.omap c.omapN c.obits
    let into (r : State) : State := r.keepMap c.into c.imap c.imapN c.ibits
    (s.moving ≠ none → ∀ i ∈ [Instr.stop, .resume, .switch, .prefetch], exec i s = .next s) ∧
    (s.moving = none → s0.castStatus c = 0 →
      (c.op = 1 → exec .stop s = .next { out s0 with castRun := some (c, due) }) ∧
      (c.op = 3 → exec .switch s = .next { into (out s0) with castRun := some (c, due) }) ∧
      (c.op = 2 → exec .resume s = .next (({ (into s0).resumeContext c with castRun := some (c, .promoting) } : State).castCheck)) ∧
      (c.op = 4 → exec .prefetch s = .next (({ into s0 with castRun := some (c, .promoting) } : State).castCheck))) ∧
    (s.moving = none → s0.castStatus c ≠ 0 → ∀ i, (i = .stop ∧ c.op = 1 ∨ i = .resume ∧ c.op = 2 ∨ i = .switch ∧ c.op = 3 ∨ i = .prefetch ∧ c.op = 4) →
      exec i s = .next ((s0.castEnd c (s0.castStatus c)).getD s)) ∧
    (∀ status r, s0.castEnd c status = some r → r.castRun = none ∧ (s.waiters = [] → r.isFull c.cword = true)) ∧
    (s0.castAuth c = false → s0.castStatus c = 0x10)) ∧
  (∀ (s : State) (c : CastCmd) (t : BitVec 64), s.castRun = some (c, .toStop t) → s.pausing = [] →
    (s.gclk < t → exec .clockStopAtT s = .next s) ∧
    (t ≤ s.gclk → ∃ r, exec .clockStopAtT s = .next r ∧ r.castRun = some (c, .sweeping t s.lbase 0) ∧
      (s.waiters = [] → r.mem = s.mem) ∧
      ((s.ctx? c.out).isSome → r.isStopped c.out = true) ∧
      ∀ u st, r.strand? u = some st → st.ctx = c.out → st.state ≠ .run)) ∧
  (∀ (s : State) (c : CastCmd) (t base : BitVec 64) (i core : Nat) (l : Leaf), s.castRun = some (c, .sweeping t base i) →
    s.leafWithin c.out c.nodeRect = some l →
    (l.node.cores[i]? = some core → exec (.sweepToken core) s =
      .next { s.sweepRouter c.out core with castRun := some (c, .sweeping t base (i + 1)) }) ∧
    (l.node.cores.length ≤ i → l.node.cores.getLast? = some core →
      let w := s.withdrawHere c.out
      (w.acknowledged c.out = false ∨ w.areaFree c = false ∨ w.moving ≠ none → exec (.sweepToken core) s = .next w) ∧
      (w.acknowledged c.out = true → w.areaFree c = true → w.moving = none →
        (c.op = 1 → exec (.sweepToken core) s = .next (((w.saveContext c t base).castEnd c 0).getD w)) ∧
        (c.op = 3 → exec (.sweepToken core) s = .next ((w.saveContext c t base).beginResume c))))) ∧
  (∀ (s : State) (m : Move) (x : Ctx), s.castRun = none →
    (s.moving = some m → exec .unitMove s = .next (s.finishMove m).forgetRequests.castCheck) ∧
    (s.moving = none → s.nextMove = some m → exec .unitMove s = .next (s.startMove m)) ∧
    (s.moving = none → s.nextMove = none → exec .unitMove s = .next s) ∧
    (s.ctx? m.ctx = some x →
      let frame := (s.unitAt x.castMap m.entry).frame
      ((s.settleRun frame 65536).runHeld frame 65536 = true → s.startMove m = s) ∧
      ((s.settleRun frame 65536).runHeld frame 65536 = false → (s.startMove m).moving = some m))) ∧
  (∀ (s : State) (leaf : Nat), ∃ t : State, exec (.scrubWalkEnd leaf) s = .next t ∧ t = { s with leaves := t.leaves } ∧
    ∀ (i : Nat) (l : Leaf), s.leaves[i]? = some l → t.leaves[i]? =
      some (if l.node.leafId = leaf then { l with ready := l.ready || l.walking, walking := true } else l))

/-- 22 R354 to R357: the Second takes a slot's command, acts for the strand that wrote it, and answers in STATUS: 0, or the code of the
first check that fails. A CREATE builds its context with the creator, the tables and the quotas of its slot, and its seed launch. 04 R113: a
command waits while the line of its slot is held. Where the rules are silent or open to a reading, the model's own: log entry 19. -/
def Obligations.ManagementEvents : Prop :=
  ∀ (s : State) (slot u n : Nat) (st : Strand), Sparse.get s.requesters slot = some u → s.strand? u = some st →
    (∀ m ∈ s.msgs, m.line ≠ lineOf (slotAddr slot)) →
    (s.lineHeld (lineOf (slotAddr slot)) true = true →
      ∀ i ∈ [Instr.create slot, .destroy slot, .quota slot, .inval slot], exec i s = .next s) ∧
    (s.lineHeld (lineOf (slotAddr slot)) true = false →
    let answers (r : State) (v : Word) : Result := .next ((r.takeCommand slot).slotStatus slot v)
    let op := s.slotOp slot
    (∀ i ∈ [Instr.create slot, .destroy slot, .quota slot, .inval slot], s.slotBroken slot = true ∨ op = 0 ∨ 4 < op →
      exec i s = answers s 0x8000000000000002) ∧
    (s.slotBroken slot = false →
      (∀ i, (i = .destroy slot ∧ op = 2 ∨ i = .inval slot ∧ op = 4) →
        (field (s.slotWord slot 0x10) 63 12 ≠ 0 → exec i s = answers s 0x8000000000000002) ∧
        (field (s.slotWord slot 0x10) 63 12 = 0 → n = field (s.slotWord slot 0x10) 11 0 → s.ctx? n = none ∨ s.reaches st.ctx n = false →
          exec i s = answers s 0x8000000000000001)) ∧
      (field (s.slotWord slot 0x10) 63 12 = 0 → n = field (s.slotWord slot 0x10) 11 0 → s.ctx? n ≠ none → s.reaches st.ctx n = true →
        (op = 2 → s.ctxEmpty n = true → exec (.destroy slot) s =
          answers (({ s with ctxs := Sparse.erase s.ctxs n } : State).tlbInvAll n) 0) ∧
        (op = 2 → s.ctxEmpty n = false → exec (.destroy slot) s = answers s 0x8000000000000003) ∧
        (op = 4 → exec (.inval slot) s = answers (s.tlbInvAll n) 0) ∧
        (op = 3 → poolsOk (s.slotWord slot 0x50) = true → exec (.quota slot) s = answers (s.editCtx n fun c =>
          { c with qlim := s.slotQlim slot, watchBlocks := field (s.slotWord slot 0x50) 47 32
                   matchLimit := field (s.slotWord slot 0x50) 15 0 }) 0)) ∧
      (op = 1 →
        (s.createOk slot = false → exec (.create slot) s = answers s 0x8000000000000002) ∧
        (s.createOk slot = true → s.createAllowed slot st = false → exec (.create slot) s = answers s 0x8000000000000001) ∧
        (s.createOk slot = true → s.createAllowed slot st = true → s.freeCtx = none →
          exec (.create slot) s = answers s 0x8000000000000004) ∧
        (s.createOk slot = true → s.createAllowed slot st = true → s.freeCtx = some n → ∀ b t,
          let w (o : Nat) : Word := s.slotWord slot o
          let r := rectOf (w 8).toNat
          let core := coreAt r.ofile r.orank
          let c : Ctx :=
            { Ctx.fresh (some st.ctx) (w 0x18) (w 0x68) r.leafId s.gclk with
              qlim := s.slotQlim slot, watchBlocks := field (w 0x50) 47 32, matchLimit := field (w 0x50) 15 0 }
          let s' : State :=
            { s.setCtx n c with bucketSet := Sparse.erase s.bucketSet n, bucketNext := Sparse.erase s.bucketNext n
                                buckets := Sparse.erase s.buckets n
                                homes := { s.homes with ports := s.homes.ports.filter fun p => p.1 % 4096 != n } }
          (∀ q, s'.template core n (w 0x60) = (.ok none, q) → exec (.create slot) s = answers s 0x8000000000000002) ∧
          (∀ q, s'.template core n (w 0x60) = (.ok (some b), q) →
            q.startSeed core (seedLaunch n r (w 0x20) (w 0x60) (w 0x38) (w 0x28) (w 0x30) b s.order) = some t →
            exec (.create slot) s = answers t (BitVec.ofNat 64 n))))))

/-- 25 R423 to R429, 21 R343, 01 R17: power-up ends in IDLE, in LOAD where a BGO was held, or in the stalemate that a failed stage or a
lane lost in service leaves, its ports trained, with the state of every context lost; BGO starts a load; the file is checked, and a
failing check or transfer sets BERR; a core of the boot tree takes its next block once its parent has it, and the last one starts the
root. Where the rules are silent or open to a reading, the model's own: log entries 33, 34, 38 and 88. -/
def Obligations.BringUpEvents : Prop :=
  (∀ (s : State) (t : SelfTest), s.boot.state = 1 →
    (t.failing = none → ∃ r, exec (.powerUp t) s = .next r ∧ r.boot.state = (if s.boot.heldBgo then 3 else 2) ∧
      r.boot.heldBgo = false ∧ (s.boot.heldBgo = true → r.boot.file = some (s.boot.bimg.toNat, s.boot.blen.toNat)) ∧
      r.report.words[0] = 0x53545250 ∧ r.report.words[1] = 0 ∧ r.report.words[5] = t.micros ∧ r.strands = [] ∧ r.ctxs = [] ∧
      (∀ n, (h : n < 8) → (r.ports[n]).width = t.ports.getD n 0 % 4) ∧ r.bucketNext = s.bucketNext ∧ r.jobs = s.jobs ∧ r.fleet = s.fleet) ∧
    (∀ stage unit detail, t.failing = some (stage, unit, detail) → 1 ≤ stage → stage ≤ 4 → ∃ r, exec (.powerUp t) s = .next r ∧
      r.boot.state = 5 ∧ r.report.words[1] = BitVec.ofNat 64 (stage * 256 + 1) ∧ r.report.words[2] = unit ∧
      r.report.words[3] = detail ∧ ∀ n, (h : n < 8) → (r.ports[n]).width = t.ports.getD n 0 % 4)) ∧
  (∀ (s : State) (board link : Nat), board < 8 → link < 2 → s.boot.state ≠ 5 → ∃ r, exec (.d2dLaneFailure board link) s = .next r ∧
    r.boot.state = 5 ∧ r.strands = [] ∧ r.ctxs = [] ∧ r.launches = [] ∧ r.report = s.report ∧ r.ports = s.ports) ∧
  (∀ (s : State) (v : Word),
    (v.getLsbD 0 = true → s.boot.state = 1 → exec (.bgo v) s = .next { s with boot := { s.boot with heldBgo := true } }) ∧
    (v.getLsbD 0 = true → s.boot.state = 2 → ∃ r, exec (.bgo v) s = .next r ∧ r.boot.state = 3 ∧ r.boot.berr = 0 ∧
      r.boot.file = some (s.boot.bimg.toNat, s.boot.blen.toNat) ∧ r = { s with boot := r.boot }) ∧
    (v.getLsbD 0 = false ∨ 2 < s.boot.state → exec (.bgo v) s = .next s)) ∧
  (∀ (s : State) (a n : Nat), s.boot.state = 3 → s.boot.file = some (a, n) →
    let pa := 0x8000000000000 + a
    let fails (e : Nat) : Result :=
      .next { s with boot := { s.boot with state := 2, berr := BitVec.ofNat 8 e, file := none, load := none } }
    (2 ^ 51 < a + n ∨ s.poisoned pa n = true → exec .bootImageLoad s = fails 9) ∧
    (a + n ≤ 2 ^ 51 → s.poisoned pa n = false →
      (∀ e, checkImage (Memory.getBytes s.mem pa n) = .error e → exec .bootImageLoad s = fails e) ∧
      (∀ l, checkImage (Memory.getBytes s.mem pa n) = .ok l → exec .bootImageLoad s =
        .next { s with boot := { s.boot with file := none, image := Memory.getBytes s.mem pa n, load := some { l with src := pa } } }))) ∧
  (∀ (s : State) (core block : Nat) (l : Load), s.boot.state = 3 → s.boot.load = some l → l.blocks[l.count core]? = some block →
    l.mayReceive core = true →
    (s.blockFails l core block = true → exec (.bootBlock core block) s =
      .next { s with boot := { s.boot with state := 2, berr := 9, file := none, load := none } }) ∧
    (s.blockFails l core block = false →
    let l' : Load := { l with got := Sparse.put l.got core (l.count core + 1) }
    let r := if l.writes core then
      l.pieces.foldl (fun s p => s.writePiece (boardOf core) block (decide (l.blocks.length ≤ block + 1)) p) s else s
    l'.count core = l.count core + 1 ∧
    (l'.complete = false → exec (.bootBlock core block) s = .next { r with boot := { r.boot with load := some l' } }) ∧
    (l'.complete = true → exec (.bootBlock core block) s = .next (r.startRoot l'))))

/-- 26 R430 to R440, 04 R110, 00 R7: a write of CSEL asks for a copy of the counters that it names and clears DONE, which the copy sets;
an island's frequency, the power cap, the token settings and the plain registers take the values that their rules allow; the throttle
limit moves by 25 MHz; a reading of wear counts an hour; an access of another size than 8 bytes is unsupported; PLDM and SPDM answer with
what they measure; a bucket takes its tokens. Where the rules are silent or open to a reading, the model's own: log entries 3, 37, 39, 40,
43 and 81; that a signature is over the measurement alone, log entry 23. -/
def Obligations.FleetEvents : Prop :=
  ∀ (s : State), s.boot.state ≠ 5 →
    (∀ v, exec (.csel v) s = .next { s with fleet := { s.fleet with
      window := { s.fleet.window with csel := v &&& 0x31FFF, asked := true, done := false } } }) ∧
    (let copied (w : Window) : Window :=
        { w with asked := false, done := true, cnt := s.countersOf (field w.csel 12 0) (field w.csel 17 16) };
      (s.fleet.window.asked = true →
        s.copyCounters false = { s with fleet := { s.fleet with window := copied s.fleet.window } }) ∧
      (s.fleet.second.asked = true →
        s.copyCounters true = { s with fleet := { s.fleet with second := copied s.fleet.second } })) ∧
    (∀ island v, island < 512 →
      (field v 9 0 % 25 = 0 → 200 ≤ field v 9 0 → field v 9 0 ≤ 750 → ∃ t, exec (.ifreqWrite island v) s = .next t ∧
        t.fleet.fsetOf island = field v 9 0 ∧ t = { s with fleet := { s.fleet with fset := t.fleet.fset } }) ∧
      (field v 9 0 % 25 ≠ 0 ∨ field v 9 0 < 200 ∨ 750 < field v 9 0 → exec (.ifreqWrite island v) s = .next s)) ∧
    (∀ island, island < 512 → ∃ t, exec (.freqTransition island) s = .next t ∧
      (Sparse.get t.fleet.running island).getD 600 = min (s.fleet.fsetOf island) s.fleet.fth ∧
      t = { s with fleet := { s.fleet with running := t.fleet.running } }) ∧
    (∀ power inlet, power < 4096 → inlet < 256 → ∃ t, exec (.throttleUpdate power inlet) s = .next t ∧ t.fleet.power = power ∧
      t.fleet.inlet = inlet ∧
      (s.fleet.pcap.toNat < power ∨ 45 < inlet → t.fleet.fth = max 200 (s.fleet.fth - 25)) ∧
      (100 * power ≤ 95 * s.fleet.pcap.toNat → 100 * inlet ≤ 4275 → t.fleet.fth = min 750 (s.fleet.fth + 25)) ∧
      (power ≤ s.fleet.pcap.toNat → inlet ≤ 45 → 95 * s.fleet.pcap.toNat < 100 * power → t.fleet.fth = s.fleet.fth)) ∧
    (∀ island w, island < 512 → ∃ t, exec (.wearUpdate island w) s = .next t ∧
      (t.fleet.wearOf island).drift = BitVec.ofInt 32 w.drift ∧ (t.fleet.wearOf island).ems = BitVec.ofNat 48 w.ems ∧
      (t.fleet.wearOf island).age = BitVec.ofNat 16 (min 65535 ((s.fleet.wearOf island).age.toNat + 1)) ∧
      ((s.fleet.wearOf island).age.toNat < 23 → (t.fleet.wearOf island).eol = 0xFFFFFFFF) ∧
      (23 ≤ (s.fleet.wearOf island).age.toNat → 500 ≤ w.drift ∨ (Config.emsLimit island).toNat ≤ w.ems →
        (t.fleet.wearOf island).eol = 0) ∧
      Sparse.get t.fleet.history island = some (((w.drift, w.ems) :: (Sparse.get s.fleet.history island).getD []).take 720) ∧
      ∀ j ≠ island, t.fleet.wearOf j = s.fleet.wearOf j) ∧
    (∀ off size w, (size ≠ 8 ∨ off % 8 ≠ 0 → exec (.bar0UnsupportedAccess off size w) s =
      .next { s with answers := s.answers ++ [.unsupported off] }) ∧
      (size = 8 → off % 8 = 0 → exec (.bar0UnsupportedAccess off size w) s = .next s)) ∧
    (∃ t, exec (.pldmRequest 2 0x10000) s = .next t ∧ t.answers = s.answers ++ [.pldm [BitVec.ofNat 64 s.fleet.power]] ∧
      t.fleet = s.fleet) ∧
    exec (.spdmRequest 1) s = .next { s with answers := s.answers ++ [.spdm Config.firmware (Config.sign Config.firmware)] } ∧
    (∀ v, exec (.registerWrite .bimg v) s = .next { s with boot := { s.boot with bimg := v &&& 0xFFFFFFFFFFFFF000 } } ∧
      exec (.registerWrite .blen v) s = .next { s with boot := { s.boot with blen := v &&& 0x3FFFFFFF } } ∧
      exec (.registerWrite .pcap v) s =
        .next { s with fleet := { s.fleet with pcap := BitVec.ofNat 12 (min 2800 (field v 11 0)) } } ∧
      (∀ c < 4096, exec (.registerWrite (.bucket c) v) s =
        .next { s with bucketNext := Sparse.put s.bucketNext c (v &&& 0x80000000FFFFFFFF) }) ∧
      exec (.registerWrite .syspos v) s = .next { s with syspos := v.truncate 32 &&& 0x1FFFF8 } ∧
      (field v 15 0 ≠ 0 → exec (.registerWrite .lease v) s = .next { s with leaseLen := v.truncate 16 })) ∧
    (∀ c e, s.bucketNext = [(c, e)] → ∃ t, exec .tokenRefill s = .next t ∧ t.bucketSet = s.bucketNext ∧ t.homes.loans = [] ∧
      Sparse.get t.buckets c = if bucketRate e = 0 then none
        else some (min (max (field e 15 0) (bucketRate e)) ((Sparse.get s.buckets c).getD 0 + bucketRate e)))

/-! ### Encoding -/

/-- 06 R145 to R149: an instruction of the table that keeps to its encoding's limits is what its own words decode to, with every operand
at every value, and nothing is left over. -/
def Obligations.DecodeAfterEncode : Prop :=
  ∀ i : Instr, Laws.RoundTrip.Statement i

/-- 06 R145, R147, 13 R289, R291, R301: words of the spec's own encoding decode to what they stand for: TSTOP x5, x6; SRD x3, #20; VTIME
x4; TRAP #5; EXIT.child; YIELD; SPAWN +64; LAUNCH x20, x8; PMERGE x5, x6. -/
def Obligations.WordsOfTheSpec : Prop :=
  let base (d a b : BitVec 6) (m : BitVec 4) : Fields := 
    { form := .base, d := d, a := a, b := b, m := m, c := 0, e := 0, guard := .none, h := 0, ta := 0, tb := 0, x := 0, fmt := 0, rnd := 0
      bk := 0, imm20 := 0 }
  decodeWords [0x35840000] = .ok (.vtime (base 4 0 0 0), []) ∧
  decodeWords [0x2E000010] = .ok (.spawn (base 0 0 1 0), []) ∧
  decodeWords [0x2F942000] = .ok (.launch (base 20 8 0 0), []) ∧
  decodeWords [0xB6051800, 1, 0] = .ok (.pmerge { base 5 6 0 0 with form := .ext, x := 1 }, []) ∧
  decodeWords [0xB4051800, 0, 0] = .ok (.tstop { base 5 6 0 0 with form := .ext }, []) ∧
  decodeWords [0xB5430000, 0x50000000, 0] = .ok (.srd { base 3 0 0 0 with form := .ext, c := 20 }, []) ∧
  decodeWords [0xB5C00000, 0, 0x01000005] = .ok (.trap { base 0 0 0 0 with form := .ext, bk := 1, imm20 := 5 }, []) ∧
  decodeWords [0xB7800001, 0, 0] = .ok (.exitChild { base 0 0 0 1 with form := .ext }, []) ∧
  decodeWords [0xB7800000, 1, 0] = .ok (.yield { base 0 0 0 0 with form := .ext, x := 1 }, [])

/-! ### The step -/

/-- 01 R26, 06 R144, R157, R160: in a turn of a core's barrel whose position holds a strand that is free to issue, the words at its pc, or
behind the instruction whose wait is over, whose first alone has its start bit set and which decode to a well-formed instruction, are
executed as that instruction, in the state that the fetch leaves; then the cycle ends. A fetch fault traps; so do a first word without its
start bit and a later one with it, at that word; so do words that do not decode, and an instruction that its page cuts off, with the cause
of the first failure in R160's order. In a turn that is an event, the event is executed. The extra information and the address of the
traps that R160 alone names are open, and free (DESIGN CHOICE, log entry 11); the lines that came for the instruction go behind it (DESIGN
CHOICE, log entry 67). -/
def Obligations.StepRunsTheDecodedInstruction : Prop :=
  (∀ (s s2 s3 : State) (n core u : Nat) (rest : List Turn) (st : Strand) (w : BitVec 32 × Bool) (ws : List (BitVec 32 × Bool)),
    s.agenda = ⟨n, .cycle core⟩ :: rest →
    let s1 : State := { s with agenda := rest, gclk := s.gclk + BitVec.ofNat 64 n }
    s1.inPosition core (s1.position core) = some u → s1.strand? u = some st → st.skip = 0 → st.long = 0 →
    s1.castDue st.ctx = false → (st.await = .reply ∨ s1.awaitMet u st false st.await = true) →
    let q := st.goBehind
    (st.stepping = none ∨ st.stepping = some q.pc) →
    let r := (if st.behind = 0 then s1 else s1.setStrand u q).begin u q .execute
    let stream := streamNo u false
    let traps (t : State) (cause extra : Nat) (addr : Word) (noWord : Bool) : Prop :=
      step s = .next ((t.takeTrap u cause extra q.pc addr noWord).closeIssue u core)
    let rejects (cause : Nat) : Prop := traps { s3 with free := s3.free + 2 } cause ((Config.freeWord s3.free).toNat % 2 ^ 32)
      (Config.freeWord (s3.free + 1)) false
    let len := wordsOf (lenField w.1)
    let padded := ws.map (·.1) ++ List.replicate (len - ws.length) 0
    (r.cur = some u ∧ r.stream = .execute ∧ r.mem = s.mem ∧
      r.strand? u = some { q with await := .reply, lastRun := s1.order, issues := st.issues + 1 }) ∧
    (∀ cause extra addr, r.fetchWord core st.ctx st.lrec stream q.pc = (.error (.trap cause extra addr), s2) →
      traps s2 cause extra addr true) ∧
    (r.fetchWord core st.ctx st.lrec stream q.pc = (.ok w, s2) →
      (∀ cause extra addr, s2.fetchWords core st.ctx st.lrec stream q.pc len 0 = (.error (.trap cause extra addr), s3) →
        traps s3 cause extra addr true) ∧
      (s2.fetchWords core st.ctx st.lrec stream q.pc len 0 = (.ok ws, s3) →
        (∀ v vs, ws = (v, false) :: vs → traps s3 Cause.illegalTarget 0x01 q.pc false) ∧
        (∀ v vs a x bs, ws = (v, true) :: vs → vs = a ++ (x, true) :: bs → (∀ e ∈ a, e.2 = false) →
          traps s3 Cause.illegalTarget 0x02 (q.pc + BitVec.ofNat 64 (4 * (a.length + 1))) false) ∧
        (ws.map (·.2) = true :: List.replicate (ws.length - 1) false →
          (decodeWords padded = .error .illegalOpcode → rejects Cause.illegalOpcode) ∧
          (decodeWords padded = .error .unsupported → ws.length = len → rejects Cause.unsupported) ∧
          (∀ e, decodeWords padded = .error e → e ≠ .illegalOpcode → e ≠ .unsupported ∨ ws.length < len → rejects Cause.illegalForm) ∧
          (∀ i vs, decodeWords padded = .ok (i, vs) → ws.length < len → rejects Cause.illegalForm) ∧
          (∀ i, decodeWords padded = .ok (i, []) → ws.length = len → step s = match exec i s3 with
            | .next t => .next ((t.endFills u core q.pc).closeIssue u core)
            | .fault q => .fault q
            | .refused q => .refused q))))) ∧
  (∀ (s : State) (n : Nat) (rest : List Turn) (i : Instr), s.agenda = ⟨n, .event i⟩ :: rest →
    step s = match exec i { s with agenda := rest, gclk := s.gclk + BitVec.ofNat 64 n } with
      | .next t => .next t.settleTurn
      | .fault q => .fault q
      | .refused q => .refused q)

/-- Every step, from any state at rest, leaves a state at rest: every turn that an instruction or an event begins is closed, whatever it
does (the model's own rule of turns, DESIGN CHOICE, log entry 1; 01 R26, 12 R273). -/
def Obligations.EveryStepEndsItsTurn : Prop :=
  ∀ s t : State, s.AtRest → step s = .next t → t.AtRest

/-- Memory keeps its canonical form (the model's own, DESIGN CHOICE, log entry 4) over every step, from any state that has it: whatever an
instruction, an event or a turn writes, and by whichever unit, equal memories stay equal data (00 R3, 04 R95). -/
def Obligations.StepKeepsMemoryCanonical : Prop :=
  ∀ s t : State, Memory.wf s.mem = true → step s = .next t → Memory.wf t.mem = true

/-! ### Reset and memory -/

/-- 25 R423 to R426, 22 R349, R363, 24 R401, R403, R419, 26 R435, 05 R132: right after power the module is in SELF-TEST with no held BGO,
holds no strand, launch or context, is one partition, and its registers have the values that the rules give; memory lists nothing, in its
canonical form, and nobody issues. That memory reads as zero where nothing is listed and that every word is full before the self-test is the
model's own (DESIGN CHOICE, log entry 4). -/
def Obligations.ResetValues : Prop :=
  let s := State.reset
  s.boot.state = 1 ∧ s.boot.heldBgo = false ∧ s.boot.berr = 0 ∧ s.gclk = 0 ∧ s.lbase = 0 ∧ s.strands = [] ∧ s.launches = [] ∧ s.ctxs = [] ∧
  s.leaves.map (·.node) = [⟨0, 0, 7, 6⟩] ∧ s.leaseLen = 256 ∧ s.syspos = 0 ∧ (∀ n, (h : n < 16) → s.jobs[n] = 0) ∧
  (∀ n, (h : n < 8) → s.ports[n].enabled = true ∧ s.ports[n].lfail = 0) ∧ (∀ i, s.fleet.fsetOf i = 600) ∧ s.fleet.pcap = 2800 ∧
  (∀ a, s.isFull a = true) ∧ (∀ a, s.poisoned a 8 = false) ∧ s.mem = [] ∧ Memory.wf s.mem = true ∧ s.AtRest

/-- Every operation on memory keeps its canonical form, and reads what was written and nothing else: a byte, a run of bytes, a number, the
enabled bytes of a run, and bytes that go; a number lies with its low byte at the lowest address (00 R3). The canonical form is the
model's own (DESIGN CHOICE, log entry 4). -/
def Obligations.MemoryOperations : Prop :=
  ∀ (m : List Host.Cell) (a : Nat) (b : BitVec 8) (bs : List (BitVec 8)) (es : List (Option (BitVec 8))) (p : Host.Cell → Bool) (s : State)
    (n v : Nat), Memory.wf m = true → s.mem = m →
    Memory.wf (Memory.set m a b) = true ∧ Memory.wf (Memory.setBytes m a bs) = true ∧ Memory.wf (Memory.setEnabled m a es) = true ∧
    Memory.wf (m.filter p) = true ∧ Memory.wf (s.store a n v).mem = true ∧
    (∀ x, Memory.get (Memory.set m a b) x = if x = a then b else Memory.get m x) ∧
    (∀ x, Memory.get (Memory.setBytes m a bs) x =
      if a ≤ x ∧ x < a + bs.length then bs.getD (x - a) 0 else Memory.get m x) ∧
    (∀ x, Memory.get (Memory.setEnabled m a es) x =
      if a ≤ x ∧ x < a + es.length then (es.getD (x - a) none).getD (Memory.get m x) else Memory.get m x) ∧
    (s.store a n v).load a n = v % 256 ^ n ∧
    (∀ m', Memory.wf m' = true → (∀ x, Memory.get m x = Memory.get m' x) → m = m')
end

