-- ==== Sys2Proof/Laws/Sparse.lean ====
section
/-!
SUPPORT. Finite maps: what a key reads as after a write and after a removal.
-/

namespace Sys2Proof.Machine.Sparse

variable {α : Type}

@[simp] theorem get_put_same (m : SMap α) (k : Nat) (v : α) : get (put m k v) k = some v := by
  induction m with
  | nil => simp [put, get]
  | cons e m ih =>
    unfold put
    split
    · simp [get]
    · split
      · simp [get]
      · rename_i h
        simp [get, h, ih]

theorem get_put_other (m : SMap α) {k j : Nat} (v : α) (h : k ≠ j) : get (put m k v) j = get m j := by
  induction m with
  | nil => simp [put, get, h]
  | cons e m ih =>
    unfold put
    split
    · simp [get, h]
    · split
      · rename_i h'
        simp [get, h, h']
      · simp [get, ih]

@[simp] theorem put_put_same (m : SMap α) (k : Nat) (v w : α) : put (put m k v) k w = put m k w := by
  induction m with
  | nil => simp [put]
  | cons e m ih =>
    obtain ⟨k', v'⟩ := e
    by_cases h1 : k < k'
    · simp [put, h1]
    · by_cases h2 : k' = k
      · simp [put, h2]
      · simp [put, h1, h2, ih]

@[simp] theorem get_erase_same (m : SMap α) (k : Nat) : get (erase m k) k = none := by
  induction m with
  | nil => rfl
  | cons e m ih =>
    unfold erase
    split
    · exact ih
    · rename_i h
      simp [get, h, ih]

theorem get_erase_other (m : SMap α) {k j : Nat} (h : k ≠ j) : get (erase m k) j = get m j := by
  induction m with
  | nil => rfl
  | cons e m ih =>
    unfold erase
    split
    · rename_i h'
      simp [get, ih, h', h]
    · simp [get, ih]

/-- An entry that is read is an element of the list. -/
theorem mem_of_get {m : SMap α} {k : Nat} {v : α} (h : get m k = some v) : (k, v) ∈ m := by
  induction m with
  | nil => simp [get] at h
  | cons e m ih =>
    unfold get at h
    split at h
    · rename_i h'
      cases h
      simp [← h']
    · exact List.mem_cons_of_mem _ (ih h)

end Sys2Proof.Machine.Sparse
end

