-- ==== Sys2Proof/Laws/State.lean ====
section
/-!
SUPPORT. The fields of the state that each named update leaves alone, one lemma for each.
-/

namespace Sys2Proof.Machine.State

variable (s : State)

/-! ### setStrand -/

@[simp] theorem setStrand_gclk (u : Nat) (st : Strand) : (s.setStrand u st).gclk = s.gclk := rfl
@[simp] theorem setStrand_lbase (u : Nat) (st : Strand) : (s.setStrand u st).lbase = s.lbase := rfl
@[simp] theorem setStrand_mem (u : Nat) (st : Strand) : (s.setStrand u st).mem = s.mem := rfl
@[simp] theorem setStrand_empties (u : Nat) (st : Strand) : (s.setStrand u st).empties = s.empties := rfl
@[simp] theorem setStrand_poison (u : Nat) (st : Strand) : (s.setStrand u st).poison = s.poison := rfl
@[simp] theorem setStrand_leaves (u : Nat) (st : Strand) : (s.setStrand u st).leaves = s.leaves := rfl
@[simp] theorem setStrand_ctxs (u : Nat) (st : Strand) : (s.setStrand u st).ctxs = s.ctxs := rfl
@[simp] theorem setStrand_launches (u : Nat) (st : Strand) : (s.setStrand u st).launches = s.launches := rfl
@[simp] theorem setStrand_cores (u : Nat) (st : Strand) : (s.setStrand u st).cores = s.cores := rfl
@[simp] theorem setStrand_waiters (u : Nat) (st : Strand) : (s.setStrand u st).waiters = s.waiters := rfl
@[simp] theorem setStrand_dirs (u : Nat) (st : Strand) : (s.setStrand u st).dirs = s.dirs := rfl
@[simp] theorem setStrand_agents (u : Nat) (st : Strand) : (s.setStrand u st).agents = s.agents := rfl
@[simp] theorem setStrand_stamps (u : Nat) (st : Strand) : (s.setStrand u st).stamps = s.stamps := rfl
@[simp] theorem setStrand_msgs (u : Nat) (st : Strand) : (s.setStrand u st).msgs = s.msgs := rfl
@[simp] theorem setStrand_backInv (u : Nat) (st : Strand) : (s.setStrand u st).backInv = s.backInv := rfl
@[simp] theorem setStrand_homes (u : Nat) (st : Strand) : (s.setStrand u st).homes = s.homes := rfl
@[simp] theorem setStrand_later (u : Nat) (st : Strand) : (s.setStrand u st).later = s.later := rfl
@[simp] theorem setStrand_predictor (u : Nat) (st : Strand) : (s.setStrand u st).predictor = s.predictor := rfl
@[simp] theorem setStrand_watchOnly (u : Nat) (st : Strand) : (s.setStrand u st).watchOnly = s.watchOnly := rfl
@[simp] theorem setStrand_boardTlb (u : Nat) (st : Strand) : (s.setStrand u st).boardTlb = s.boardTlb := rfl
@[simp] theorem setStrand_buckets (u : Nat) (st : Strand) : (s.setStrand u st).buckets = s.buckets := rfl
@[simp] theorem setStrand_bucketSet (u : Nat) (st : Strand) : (s.setStrand u st).bucketSet = s.bucketSet := rfl
@[simp] theorem setStrand_bucketNext (u : Nat) (st : Strand) : (s.setStrand u st).bucketNext = s.bucketNext := rfl
@[simp] theorem setStrand_busy (u : Nat) (st : Strand) : (s.setStrand u st).busy = s.busy := rfl
@[simp] theorem setStrand_frozen (u : Nat) (st : Strand) : (s.setStrand u st).frozen = s.frozen := rfl
@[simp] theorem setStrand_castQ (u : Nat) (st : Strand) : (s.setStrand u st).castQ = s.castQ := rfl
@[simp] theorem setStrand_castRun (u : Nat) (st : Strand) : (s.setStrand u st).castRun = s.castRun := rfl
@[simp] theorem setStrand_moving (u : Nat) (st : Strand) : (s.setStrand u st).moving = s.moving := rfl
@[simp] theorem setStrand_moveNext (u : Nat) (st : Strand) : (s.setStrand u st).moveNext = s.moveNext := rfl
@[simp] theorem setStrand_castMoved (u : Nat) (st : Strand) : (s.setStrand u st).castMoved = s.castMoved := rfl
@[simp] theorem setStrand_saves (u : Nat) (st : Strand) : (s.setStrand u st).saves = s.saves := rfl
@[simp] theorem setStrand_boot (u : Nat) (st : Strand) : (s.setStrand u st).boot = s.boot := rfl
@[simp] theorem setStrand_report (u : Nat) (st : Strand) : (s.setStrand u st).report = s.report := rfl
@[simp] theorem setStrand_tierCap (u : Nat) (st : Strand) : (s.setStrand u st).tierCap = s.tierCap := rfl
@[simp] theorem setStrand_ports (u : Nat) (st : Strand) : (s.setStrand u st).ports = s.ports := rfl
@[simp] theorem setStrand_tiers (u : Nat) (st : Strand) : (s.setStrand u st).tiers = s.tiers := rfl
@[simp] theorem setStrand_syspos (u : Nat) (st : Strand) : (s.setStrand u st).syspos = s.syspos := rfl
@[simp] theorem setStrand_leaseLen (u : Nat) (st : Strand) : (s.setStrand u st).leaseLen = s.leaseLen := rfl
@[simp] theorem setStrand_jobs (u : Nat) (st : Strand) : (s.setStrand u st).jobs = s.jobs := rfl
@[simp] theorem setStrand_streams (u : Nat) (st : Strand) : (s.setStrand u st).streams = s.streams := rfl
@[simp] theorem setStrand_refused (u : Nat) (st : Strand) : (s.setStrand u st).refused = s.refused := rfl
@[simp] theorem setStrand_quiet (u : Nat) (st : Strand) : (s.setStrand u st).quiet = s.quiet := rfl
@[simp] theorem setStrand_sent (u : Nat) (st : Strand) : (s.setStrand u st).sent = s.sent := rfl
@[simp] theorem setStrand_outbox (u : Nat) (st : Strand) : (s.setStrand u st).outbox = s.outbox := rfl
@[simp] theorem setStrand_unexpected (u : Nat) (st : Strand) : (s.setStrand u st).unexpected = s.unexpected := rfl
@[simp] theorem setStrand_leased (u : Nat) (st : Strand) : (s.setStrand u st).leased = s.leased := rfl
@[simp] theorem setStrand_matches_ (u : Nat) (st : Strand) : (s.setStrand u st).matches_ = s.matches_ := rfl
@[simp] theorem setStrand_jobFilter (u : Nat) (st : Strand) : (s.setStrand u st).jobFilter = s.jobFilter := rfl
@[simp] theorem setStrand_pausing (u : Nat) (st : Strand) : (s.setStrand u st).pausing = s.pausing := rfl
@[simp] theorem setStrand_hdm (u : Nat) (st : Strand) : (s.setStrand u st).hdm = s.hdm := rfl
@[simp] theorem setStrand_fleet (u : Nat) (st : Strand) : (s.setStrand u st).fleet = s.fleet := rfl
@[simp] theorem setStrand_answers (u : Nat) (st : Strand) : (s.setStrand u st).answers = s.answers := rfl
@[simp] theorem setStrand_requesters (u : Nat) (st : Strand) : (s.setStrand u st).requesters = s.requesters := rfl
@[simp] theorem setStrand_cur (u : Nat) (st : Strand) : (s.setStrand u st).cur = s.cur := rfl
@[simp] theorem setStrand_stream (u : Nat) (st : Strand) : (s.setStrand u st).stream = s.stream := rfl
@[simp] theorem setStrand_agenda (u : Nat) (st : Strand) : (s.setStrand u st).agenda = s.agenda := rfl
@[simp] theorem setStrand_focus (u : Nat) (st : Strand) : (s.setStrand u st).focus = s.focus := rfl
@[simp] theorem setStrand_nextUid (u : Nat) (st : Strand) : (s.setStrand u st).nextUid = s.nextUid := rfl
@[simp] theorem setStrand_order (u : Nat) (st : Strand) : (s.setStrand u st).order = s.order := rfl
@[simp] theorem setStrand_free (u : Nat) (st : Strand) : (s.setStrand u st).free = s.free := rfl

/-! ### editStrand -/

@[simp] theorem editStrand_gclk (u : Nat) (g : Strand → Strand) : (s.editStrand u g).gclk = s.gclk := by unfold editStrand; split <;> rfl
@[simp] theorem editStrand_lbase (u : Nat) (g : Strand → Strand) : (s.editStrand u g).lbase = s.lbase := by unfold editStrand; split <;> rfl
@[simp] theorem editStrand_mem (u : Nat) (g : Strand → Strand) : (s.editStrand u g).mem = s.mem := by unfold editStrand; split <;> rfl
@[simp] theorem editStrand_empties (u : Nat) (g : Strand → Strand) : (s.editStrand u g).empties = s.empties := by unfold editStrand; split <;> rfl
@[simp] theorem editStrand_poison (u : Nat) (g : Strand → Strand) : (s.editStrand u g).poison = s.poison := by unfold editStrand; split <;> rfl
@[simp] theorem editStrand_leaves (u : Nat) (g : Strand → Strand) : (s.editStrand u g).leaves = s.leaves := by unfold editStrand; split <;> rfl
@[simp] theorem editStrand_ctxs (u : Nat) (g : Strand → Strand) : (s.editStrand u g).ctxs = s.ctxs := by unfold editStrand; split <;> rfl
@[simp] theorem editStrand_launches (u : Nat) (g : Strand → Strand) : (s.editStrand u g).launches = s.launches := by unfold editStrand; split <;> rfl
@[simp] theorem editStrand_cores (u : Nat) (g : Strand → Strand) : (s.editStrand u g).cores = s.cores := by unfold editStrand; split <;> rfl
@[simp] theorem editStrand_waiters (u : Nat) (g : Strand → Strand) : (s.editStrand u g).waiters = s.waiters := by unfold editStrand; split <;> rfl
@[simp] theorem editStrand_dirs (u : Nat) (g : Strand → Strand) : (s.editStrand u g).dirs = s.dirs := by unfold editStrand; split <;> rfl
@[simp] theorem editStrand_agents (u : Nat) (g : Strand → Strand) : (s.editStrand u g).agents = s.agents := by unfold editStrand; split <;> rfl
@[simp] theorem editStrand_stamps (u : Nat) (g : Strand → Strand) : (s.editStrand u g).stamps = s.stamps := by unfold editStrand; split <;> rfl
@[simp] theorem editStrand_msgs (u : Nat) (g : Strand → Strand) : (s.editStrand u g).msgs = s.msgs := by unfold editStrand; split <;> rfl
@[simp] theorem editStrand_backInv (u : Nat) (g : Strand → Strand) : (s.editStrand u g).backInv = s.backInv := by unfold editStrand; split <;> rfl
@[simp] theorem editStrand_homes (u : Nat) (g : Strand → Strand) : (s.editStrand u g).homes = s.homes := by unfold editStrand; split <;> rfl
@[simp] theorem editStrand_later (u : Nat) (g : Strand → Strand) : (s.editStrand u g).later = s.later := by unfold editStrand; split <;> rfl
@[simp] theorem editStrand_predictor (u : Nat) (g : Strand → Strand) : (s.editStrand u g).predictor = s.predictor := by unfold editStrand; split <;> rfl
@[simp] theorem editStrand_watchOnly (u : Nat) (g : Strand → Strand) : (s.editStrand u g).watchOnly = s.watchOnly := by unfold editStrand; split <;> rfl
@[simp] theorem editStrand_boardTlb (u : Nat) (g : Strand → Strand) : (s.editStrand u g).boardTlb = s.boardTlb := by unfold editStrand; split <;> rfl
@[simp] theorem editStrand_buckets (u : Nat) (g : Strand → Strand) : (s.editStrand u g).buckets = s.buckets := by unfold editStrand; split <;> rfl
@[simp] theorem editStrand_bucketSet (u : Nat) (g : Strand → Strand) : (s.editStrand u g).bucketSet = s.bucketSet := by unfold editStrand; split <;> rfl
@[simp] theorem editStrand_bucketNext (u : Nat) (g : Strand → Strand) : (s.editStrand u g).bucketNext = s.bucketNext := by unfold editStrand; split <;> rfl
@[simp] theorem editStrand_busy (u : Nat) (g : Strand → Strand) : (s.editStrand u g).busy = s.busy := by unfold editStrand; split <;> rfl
@[simp] theorem editStrand_frozen (u : Nat) (g : Strand → Strand) : (s.editStrand u g).frozen = s.frozen := by unfold editStrand; split <;> rfl
@[simp] theorem editStrand_castQ (u : Nat) (g : Strand → Strand) : (s.editStrand u g).castQ = s.castQ := by unfold editStrand; split <;> rfl
@[simp] theorem editStrand_castRun (u : Nat) (g : Strand → Strand) : (s.editStrand u g).castRun = s.castRun := by unfold editStrand; split <;> rfl
@[simp] theorem editStrand_moving (u : Nat) (g : Strand → Strand) : (s.editStrand u g).moving = s.moving := by unfold editStrand; split <;> rfl
@[simp] theorem editStrand_moveNext (u : Nat) (g : Strand → Strand) : (s.editStrand u g).moveNext = s.moveNext := by unfold editStrand; split <;> rfl
@[simp] theorem editStrand_castMoved (u : Nat) (g : Strand → Strand) : (s.editStrand u g).castMoved = s.castMoved := by unfold editStrand; split <;> rfl
@[simp] theorem editStrand_saves (u : Nat) (g : Strand → Strand) : (s.editStrand u g).saves = s.saves := by unfold editStrand; split <;> rfl
@[simp] theorem editStrand_boot (u : Nat) (g : Strand → Strand) : (s.editStrand u g).boot = s.boot := by unfold editStrand; split <;> rfl
@[simp] theorem editStrand_report (u : Nat) (g : Strand → Strand) : (s.editStrand u g).report = s.report := by unfold editStrand; split <;> rfl
@[simp] theorem editStrand_tierCap (u : Nat) (g : Strand → Strand) : (s.editStrand u g).tierCap = s.tierCap := by unfold editStrand; split <;> rfl
@[simp] theorem editStrand_ports (u : Nat) (g : Strand → Strand) : (s.editStrand u g).ports = s.ports := by unfold editStrand; split <;> rfl
@[simp] theorem editStrand_tiers (u : Nat) (g : Strand → Strand) : (s.editStrand u g).tiers = s.tiers := by unfold editStrand; split <;> rfl
@[simp] theorem editStrand_syspos (u : Nat) (g : Strand → Strand) : (s.editStrand u g).syspos = s.syspos := by unfold editStrand; split <;> rfl
@[simp] theorem editStrand_leaseLen (u : Nat) (g : Strand → Strand) : (s.editStrand u g).leaseLen = s.leaseLen := by unfold editStrand; split <;> rfl
@[simp] theorem editStrand_jobs (u : Nat) (g : Strand → Strand) : (s.editStrand u g).jobs = s.jobs := by unfold editStrand; split <;> rfl
@[simp] theorem editStrand_streams (u : Nat) (g : Strand → Strand) : (s.editStrand u g).streams = s.streams := by unfold editStrand; split <;> rfl
@[simp] theorem editStrand_refused (u : Nat) (g : Strand → Strand) : (s.editStrand u g).refused = s.refused := by unfold editStrand; split <;> rfl
@[simp] theorem editStrand_quiet (u : Nat) (g : Strand → Strand) : (s.editStrand u g).quiet = s.quiet := by unfold editStrand; split <;> rfl
@[simp] theorem editStrand_sent (u : Nat) (g : Strand → Strand) : (s.editStrand u g).sent = s.sent := by unfold editStrand; split <;> rfl
@[simp] theorem editStrand_outbox (u : Nat) (g : Strand → Strand) : (s.editStrand u g).outbox = s.outbox := by unfold editStrand; split <;> rfl
@[simp] theorem editStrand_unexpected (u : Nat) (g : Strand → Strand) : (s.editStrand u g).unexpected = s.unexpected := by unfold editStrand; split <;> rfl
@[simp] theorem editStrand_leased (u : Nat) (g : Strand → Strand) : (s.editStrand u g).leased = s.leased := by unfold editStrand; split <;> rfl
@[simp] theorem editStrand_matches_ (u : Nat) (g : Strand → Strand) : (s.editStrand u g).matches_ = s.matches_ := by unfold editStrand; split <;> rfl
@[simp] theorem editStrand_jobFilter (u : Nat) (g : Strand → Strand) : (s.editStrand u g).jobFilter = s.jobFilter := by unfold editStrand; split <;> rfl
@[simp] theorem editStrand_pausing (u : Nat) (g : Strand → Strand) : (s.editStrand u g).pausing = s.pausing := by unfold editStrand; split <;> rfl
@[simp] theorem editStrand_hdm (u : Nat) (g : Strand → Strand) : (s.editStrand u g).hdm = s.hdm := by unfold editStrand; split <;> rfl
@[simp] theorem editStrand_fleet (u : Nat) (g : Strand → Strand) : (s.editStrand u g).fleet = s.fleet := by unfold editStrand; split <;> rfl
@[simp] theorem editStrand_answers (u : Nat) (g : Strand → Strand) : (s.editStrand u g).answers = s.answers := by unfold editStrand; split <;> rfl
@[simp] theorem editStrand_requesters (u : Nat) (g : Strand → Strand) : (s.editStrand u g).requesters = s.requesters := by unfold editStrand; split <;> rfl
@[simp] theorem editStrand_cur (u : Nat) (g : Strand → Strand) : (s.editStrand u g).cur = s.cur := by unfold editStrand; split <;> rfl
@[simp] theorem editStrand_stream (u : Nat) (g : Strand → Strand) : (s.editStrand u g).stream = s.stream := by unfold editStrand; split <;> rfl
@[simp] theorem editStrand_agenda (u : Nat) (g : Strand → Strand) : (s.editStrand u g).agenda = s.agenda := by unfold editStrand; split <;> rfl
@[simp] theorem editStrand_focus (u : Nat) (g : Strand → Strand) : (s.editStrand u g).focus = s.focus := by unfold editStrand; split <;> rfl
@[simp] theorem editStrand_nextUid (u : Nat) (g : Strand → Strand) : (s.editStrand u g).nextUid = s.nextUid := by unfold editStrand; split <;> rfl
@[simp] theorem editStrand_order (u : Nat) (g : Strand → Strand) : (s.editStrand u g).order = s.order := by unfold editStrand; split <;> rfl
@[simp] theorem editStrand_free (u : Nat) (g : Strand → Strand) : (s.editStrand u g).free = s.free := by unfold editStrand; split <;> rfl

/-! ### setCore -/

@[simp] theorem setCore_gclk (c : Nat) (k : Core) : (s.setCore c k).gclk = s.gclk := rfl
@[simp] theorem setCore_lbase (c : Nat) (k : Core) : (s.setCore c k).lbase = s.lbase := rfl
@[simp] theorem setCore_mem (c : Nat) (k : Core) : (s.setCore c k).mem = s.mem := rfl
@[simp] theorem setCore_empties (c : Nat) (k : Core) : (s.setCore c k).empties = s.empties := rfl
@[simp] theorem setCore_poison (c : Nat) (k : Core) : (s.setCore c k).poison = s.poison := rfl
@[simp] theorem setCore_leaves (c : Nat) (k : Core) : (s.setCore c k).leaves = s.leaves := rfl
@[simp] theorem setCore_ctxs (c : Nat) (k : Core) : (s.setCore c k).ctxs = s.ctxs := rfl
@[simp] theorem setCore_launches (c : Nat) (k : Core) : (s.setCore c k).launches = s.launches := rfl
@[simp] theorem setCore_strands (c : Nat) (k : Core) : (s.setCore c k).strands = s.strands := rfl
@[simp] theorem setCore_waiters (c : Nat) (k : Core) : (s.setCore c k).waiters = s.waiters := rfl
@[simp] theorem setCore_dirs (c : Nat) (k : Core) : (s.setCore c k).dirs = s.dirs := rfl
@[simp] theorem setCore_agents (c : Nat) (k : Core) : (s.setCore c k).agents = s.agents := rfl
@[simp] theorem setCore_stamps (c : Nat) (k : Core) : (s.setCore c k).stamps = s.stamps := rfl
@[simp] theorem setCore_msgs (c : Nat) (k : Core) : (s.setCore c k).msgs = s.msgs := rfl
@[simp] theorem setCore_backInv (c : Nat) (k : Core) : (s.setCore c k).backInv = s.backInv := rfl
@[simp] theorem setCore_homes (c : Nat) (k : Core) : (s.setCore c k).homes = s.homes := rfl
@[simp] theorem setCore_later (c : Nat) (k : Core) : (s.setCore c k).later = s.later := rfl
@[simp] theorem setCore_predictor (c : Nat) (k : Core) : (s.setCore c k).predictor = s.predictor := rfl
@[simp] theorem setCore_watchOnly (c : Nat) (k : Core) : (s.setCore c k).watchOnly = s.watchOnly := rfl
@[simp] theorem setCore_boardTlb (c : Nat) (k : Core) : (s.setCore c k).boardTlb = s.boardTlb := rfl
@[simp] theorem setCore_buckets (c : Nat) (k : Core) : (s.setCore c k).buckets = s.buckets := rfl
@[simp] theorem setCore_bucketSet (c : Nat) (k : Core) : (s.setCore c k).bucketSet = s.bucketSet := rfl
@[simp] theorem setCore_bucketNext (c : Nat) (k : Core) : (s.setCore c k).bucketNext = s.bucketNext := rfl
@[simp] theorem setCore_busy (c : Nat) (k : Core) : (s.setCore c k).busy = s.busy := rfl
@[simp] theorem setCore_frozen (c : Nat) (k : Core) : (s.setCore c k).frozen = s.frozen := rfl
@[simp] theorem setCore_castQ (c : Nat) (k : Core) : (s.setCore c k).castQ = s.castQ := rfl
@[simp] theorem setCore_castRun (c : Nat) (k : Core) : (s.setCore c k).castRun = s.castRun := rfl
@[simp] theorem setCore_moving (c : Nat) (k : Core) : (s.setCore c k).moving = s.moving := rfl
@[simp] theorem setCore_moveNext (c : Nat) (k : Core) : (s.setCore c k).moveNext = s.moveNext := rfl
@[simp] theorem setCore_castMoved (c : Nat) (k : Core) : (s.setCore c k).castMoved = s.castMoved := rfl
@[simp] theorem setCore_saves (c : Nat) (k : Core) : (s.setCore c k).saves = s.saves := rfl
@[simp] theorem setCore_boot (c : Nat) (k : Core) : (s.setCore c k).boot = s.boot := rfl
@[simp] theorem setCore_report (c : Nat) (k : Core) : (s.setCore c k).report = s.report := rfl
@[simp] theorem setCore_tierCap (c : Nat) (k : Core) : (s.setCore c k).tierCap = s.tierCap := rfl
@[simp] theorem setCore_ports (c : Nat) (k : Core) : (s.setCore c k).ports = s.ports := rfl
@[simp] theorem setCore_tiers (c : Nat) (k : Core) : (s.setCore c k).tiers = s.tiers := rfl
@[simp] theorem setCore_syspos (c : Nat) (k : Core) : (s.setCore c k).syspos = s.syspos := rfl
@[simp] theorem setCore_leaseLen (c : Nat) (k : Core) : (s.setCore c k).leaseLen = s.leaseLen := rfl
@[simp] theorem setCore_jobs (c : Nat) (k : Core) : (s.setCore c k).jobs = s.jobs := rfl
@[simp] theorem setCore_streams (c : Nat) (k : Core) : (s.setCore c k).streams = s.streams := rfl
@[simp] theorem setCore_refused (c : Nat) (k : Core) : (s.setCore c k).refused = s.refused := rfl
@[simp] theorem setCore_quiet (c : Nat) (k : Core) : (s.setCore c k).quiet = s.quiet := rfl
@[simp] theorem setCore_sent (c : Nat) (k : Core) : (s.setCore c k).sent = s.sent := rfl
@[simp] theorem setCore_outbox (c : Nat) (k : Core) : (s.setCore c k).outbox = s.outbox := rfl
@[simp] theorem setCore_unexpected (c : Nat) (k : Core) : (s.setCore c k).unexpected = s.unexpected := rfl
@[simp] theorem setCore_leased (c : Nat) (k : Core) : (s.setCore c k).leased = s.leased := rfl
@[simp] theorem setCore_matches_ (c : Nat) (k : Core) : (s.setCore c k).matches_ = s.matches_ := rfl
@[simp] theorem setCore_jobFilter (c : Nat) (k : Core) : (s.setCore c k).jobFilter = s.jobFilter := rfl
@[simp] theorem setCore_pausing (c : Nat) (k : Core) : (s.setCore c k).pausing = s.pausing := rfl
@[simp] theorem setCore_hdm (c : Nat) (k : Core) : (s.setCore c k).hdm = s.hdm := rfl
@[simp] theorem setCore_fleet (c : Nat) (k : Core) : (s.setCore c k).fleet = s.fleet := rfl
@[simp] theorem setCore_answers (c : Nat) (k : Core) : (s.setCore c k).answers = s.answers := rfl
@[simp] theorem setCore_requesters (c : Nat) (k : Core) : (s.setCore c k).requesters = s.requesters := rfl
@[simp] theorem setCore_cur (c : Nat) (k : Core) : (s.setCore c k).cur = s.cur := rfl
@[simp] theorem setCore_stream (c : Nat) (k : Core) : (s.setCore c k).stream = s.stream := rfl
@[simp] theorem setCore_agenda (c : Nat) (k : Core) : (s.setCore c k).agenda = s.agenda := rfl
@[simp] theorem setCore_focus (c : Nat) (k : Core) : (s.setCore c k).focus = s.focus := rfl
@[simp] theorem setCore_nextUid (c : Nat) (k : Core) : (s.setCore c k).nextUid = s.nextUid := rfl
@[simp] theorem setCore_order (c : Nat) (k : Core) : (s.setCore c k).order = s.order := rfl
@[simp] theorem setCore_free (c : Nat) (k : Core) : (s.setCore c k).free = s.free := rfl

/-! ### editCore -/

@[simp] theorem editCore_gclk (c : Nat) (g : Core → Core) : (s.editCore c g).gclk = s.gclk := rfl
@[simp] theorem editCore_lbase (c : Nat) (g : Core → Core) : (s.editCore c g).lbase = s.lbase := rfl
@[simp] theorem editCore_mem (c : Nat) (g : Core → Core) : (s.editCore c g).mem = s.mem := rfl
@[simp] theorem editCore_empties (c : Nat) (g : Core → Core) : (s.editCore c g).empties = s.empties := rfl
@[simp] theorem editCore_poison (c : Nat) (g : Core → Core) : (s.editCore c g).poison = s.poison := rfl
@[simp] theorem editCore_leaves (c : Nat) (g : Core → Core) : (s.editCore c g).leaves = s.leaves := rfl
@[simp] theorem editCore_ctxs (c : Nat) (g : Core → Core) : (s.editCore c g).ctxs = s.ctxs := rfl
@[simp] theorem editCore_launches (c : Nat) (g : Core → Core) : (s.editCore c g).launches = s.launches := rfl
@[simp] theorem editCore_strands (c : Nat) (g : Core → Core) : (s.editCore c g).strands = s.strands := rfl
@[simp] theorem editCore_waiters (c : Nat) (g : Core → Core) : (s.editCore c g).waiters = s.waiters := rfl
@[simp] theorem editCore_dirs (c : Nat) (g : Core → Core) : (s.editCore c g).dirs = s.dirs := rfl
@[simp] theorem editCore_agents (c : Nat) (g : Core → Core) : (s.editCore c g).agents = s.agents := rfl
@[simp] theorem editCore_stamps (c : Nat) (g : Core → Core) : (s.editCore c g).stamps = s.stamps := rfl
@[simp] theorem editCore_msgs (c : Nat) (g : Core → Core) : (s.editCore c g).msgs = s.msgs := rfl
@[simp] theorem editCore_backInv (c : Nat) (g : Core → Core) : (s.editCore c g).backInv = s.backInv := rfl
@[simp] theorem editCore_homes (c : Nat) (g : Core → Core) : (s.editCore c g).homes = s.homes := rfl
@[simp] theorem editCore_later (c : Nat) (g : Core → Core) : (s.editCore c g).later = s.later := rfl
@[simp] theorem editCore_predictor (c : Nat) (g : Core → Core) : (s.editCore c g).predictor = s.predictor := rfl
@[simp] theorem editCore_watchOnly (c : Nat) (g : Core → Core) : (s.editCore c g).watchOnly = s.watchOnly := rfl
@[simp] theorem editCore_boardTlb (c : Nat) (g : Core → Core) : (s.editCore c g).boardTlb = s.boardTlb := rfl
@[simp] theorem editCore_buckets (c : Nat) (g : Core → Core) : (s.editCore c g).buckets = s.buckets := rfl
@[simp] theorem editCore_bucketSet (c : Nat) (g : Core → Core) : (s.editCore c g).bucketSet = s.bucketSet := rfl
@[simp] theorem editCore_bucketNext (c : Nat) (g : Core → Core) : (s.editCore c g).bucketNext = s.bucketNext := rfl
@[simp] theorem editCore_busy (c : Nat) (g : Core → Core) : (s.editCore c g).busy = s.busy := rfl
@[simp] theorem editCore_frozen (c : Nat) (g : Core → Core) : (s.editCore c g).frozen = s.frozen := rfl
@[simp] theorem editCore_castQ (c : Nat) (g : Core → Core) : (s.editCore c g).castQ = s.castQ := rfl
@[simp] theorem editCore_castRun (c : Nat) (g : Core → Core) : (s.editCore c g).castRun = s.castRun := rfl
@[simp] theorem editCore_moving (c : Nat) (g : Core → Core) : (s.editCore c g).moving = s.moving := rfl
@[simp] theorem editCore_moveNext (c : Nat) (g : Core → Core) : (s.editCore c g).moveNext = s.moveNext := rfl
@[simp] theorem editCore_castMoved (c : Nat) (g : Core → Core) : (s.editCore c g).castMoved = s.castMoved := rfl
@[simp] theorem editCore_saves (c : Nat) (g : Core → Core) : (s.editCore c g).saves = s.saves := rfl
@[simp] theorem editCore_boot (c : Nat) (g : Core → Core) : (s.editCore c g).boot = s.boot := rfl
@[simp] theorem editCore_report (c : Nat) (g : Core → Core) : (s.editCore c g).report = s.report := rfl
@[simp] theorem editCore_tierCap (c : Nat) (g : Core → Core) : (s.editCore c g).tierCap = s.tierCap := rfl
@[simp] theorem editCore_ports (c : Nat) (g : Core → Core) : (s.editCore c g).ports = s.ports := rfl
@[simp] theorem editCore_tiers (c : Nat) (g : Core → Core) : (s.editCore c g).tiers = s.tiers := rfl
@[simp] theorem editCore_syspos (c : Nat) (g : Core → Core) : (s.editCore c g).syspos = s.syspos := rfl
@[simp] theorem editCore_leaseLen (c : Nat) (g : Core → Core) : (s.editCore c g).leaseLen = s.leaseLen := rfl
@[simp] theorem editCore_jobs (c : Nat) (g : Core → Core) : (s.editCore c g).jobs = s.jobs := rfl
@[simp] theorem editCore_streams (c : Nat) (g : Core → Core) : (s.editCore c g).streams = s.streams := rfl
@[simp] theorem editCore_refused (c : Nat) (g : Core → Core) : (s.editCore c g).refused = s.refused := rfl
@[simp] theorem editCore_quiet (c : Nat) (g : Core → Core) : (s.editCore c g).quiet = s.quiet := rfl
@[simp] theorem editCore_sent (c : Nat) (g : Core → Core) : (s.editCore c g).sent = s.sent := rfl
@[simp] theorem editCore_outbox (c : Nat) (g : Core → Core) : (s.editCore c g).outbox = s.outbox := rfl
@[simp] theorem editCore_unexpected (c : Nat) (g : Core → Core) : (s.editCore c g).unexpected = s.unexpected := rfl
@[simp] theorem editCore_leased (c : Nat) (g : Core → Core) : (s.editCore c g).leased = s.leased := rfl
@[simp] theorem editCore_matches_ (c : Nat) (g : Core → Core) : (s.editCore c g).matches_ = s.matches_ := rfl
@[simp] theorem editCore_jobFilter (c : Nat) (g : Core → Core) : (s.editCore c g).jobFilter = s.jobFilter := rfl
@[simp] theorem editCore_pausing (c : Nat) (g : Core → Core) : (s.editCore c g).pausing = s.pausing := rfl
@[simp] theorem editCore_hdm (c : Nat) (g : Core → Core) : (s.editCore c g).hdm = s.hdm := rfl
@[simp] theorem editCore_fleet (c : Nat) (g : Core → Core) : (s.editCore c g).fleet = s.fleet := rfl
@[simp] theorem editCore_answers (c : Nat) (g : Core → Core) : (s.editCore c g).answers = s.answers := rfl
@[simp] theorem editCore_requesters (c : Nat) (g : Core → Core) : (s.editCore c g).requesters = s.requesters := rfl
@[simp] theorem editCore_cur (c : Nat) (g : Core → Core) : (s.editCore c g).cur = s.cur := rfl
@[simp] theorem editCore_stream (c : Nat) (g : Core → Core) : (s.editCore c g).stream = s.stream := rfl
@[simp] theorem editCore_agenda (c : Nat) (g : Core → Core) : (s.editCore c g).agenda = s.agenda := rfl
@[simp] theorem editCore_focus (c : Nat) (g : Core → Core) : (s.editCore c g).focus = s.focus := rfl
@[simp] theorem editCore_nextUid (c : Nat) (g : Core → Core) : (s.editCore c g).nextUid = s.nextUid := rfl
@[simp] theorem editCore_order (c : Nat) (g : Core → Core) : (s.editCore c g).order = s.order := rfl
@[simp] theorem editCore_free (c : Nat) (g : Core → Core) : (s.editCore c g).free = s.free := rfl

/-! ### setCtx -/

@[simp] theorem setCtx_gclk (n : Nat) (c : Ctx) : (s.setCtx n c).gclk = s.gclk := rfl
@[simp] theorem setCtx_lbase (n : Nat) (c : Ctx) : (s.setCtx n c).lbase = s.lbase := rfl
@[simp] theorem setCtx_mem (n : Nat) (c : Ctx) : (s.setCtx n c).mem = s.mem := rfl
@[simp] theorem setCtx_empties (n : Nat) (c : Ctx) : (s.setCtx n c).empties = s.empties := rfl
@[simp] theorem setCtx_poison (n : Nat) (c : Ctx) : (s.setCtx n c).poison = s.poison := rfl
@[simp] theorem setCtx_leaves (n : Nat) (c : Ctx) : (s.setCtx n c).leaves = s.leaves := rfl
@[simp] theorem setCtx_launches (n : Nat) (c : Ctx) : (s.setCtx n c).launches = s.launches := rfl
@[simp] theorem setCtx_strands (n : Nat) (c : Ctx) : (s.setCtx n c).strands = s.strands := rfl
@[simp] theorem setCtx_cores (n : Nat) (c : Ctx) : (s.setCtx n c).cores = s.cores := rfl
@[simp] theorem setCtx_waiters (n : Nat) (c : Ctx) : (s.setCtx n c).waiters = s.waiters := rfl
@[simp] theorem setCtx_dirs (n : Nat) (c : Ctx) : (s.setCtx n c).dirs = s.dirs := rfl
@[simp] theorem setCtx_agents (n : Nat) (c : Ctx) : (s.setCtx n c).agents = s.agents := rfl
@[simp] theorem setCtx_stamps (n : Nat) (c : Ctx) : (s.setCtx n c).stamps = s.stamps := rfl
@[simp] theorem setCtx_msgs (n : Nat) (c : Ctx) : (s.setCtx n c).msgs = s.msgs := rfl
@[simp] theorem setCtx_backInv (n : Nat) (c : Ctx) : (s.setCtx n c).backInv = s.backInv := rfl
@[simp] theorem setCtx_homes (n : Nat) (c : Ctx) : (s.setCtx n c).homes = s.homes := rfl
@[simp] theorem setCtx_later (n : Nat) (c : Ctx) : (s.setCtx n c).later = s.later := rfl
@[simp] theorem setCtx_predictor (n : Nat) (c : Ctx) : (s.setCtx n c).predictor = s.predictor := rfl
@[simp] theorem setCtx_watchOnly (n : Nat) (c : Ctx) : (s.setCtx n c).watchOnly = s.watchOnly := rfl
@[simp] theorem setCtx_boardTlb (n : Nat) (c : Ctx) : (s.setCtx n c).boardTlb = s.boardTlb := rfl
@[simp] theorem setCtx_buckets (n : Nat) (c : Ctx) : (s.setCtx n c).buckets = s.buckets := rfl
@[simp] theorem setCtx_bucketSet (n : Nat) (c : Ctx) : (s.setCtx n c).bucketSet = s.bucketSet := rfl
@[simp] theorem setCtx_bucketNext (n : Nat) (c : Ctx) : (s.setCtx n c).bucketNext = s.bucketNext := rfl
@[simp] theorem setCtx_busy (n : Nat) (c : Ctx) : (s.setCtx n c).busy = s.busy := rfl
@[simp] theorem setCtx_frozen (n : Nat) (c : Ctx) : (s.setCtx n c).frozen = s.frozen := rfl
@[simp] theorem setCtx_castQ (n : Nat) (c : Ctx) : (s.setCtx n c).castQ = s.castQ := rfl
@[simp] theorem setCtx_castRun (n : Nat) (c : Ctx) : (s.setCtx n c).castRun = s.castRun := rfl
@[simp] theorem setCtx_moving (n : Nat) (c : Ctx) : (s.setCtx n c).moving = s.moving := rfl
@[simp] theorem setCtx_moveNext (n : Nat) (c : Ctx) : (s.setCtx n c).moveNext = s.moveNext := rfl
@[simp] theorem setCtx_castMoved (n : Nat) (c : Ctx) : (s.setCtx n c).castMoved = s.castMoved := rfl
@[simp] theorem setCtx_saves (n : Nat) (c : Ctx) : (s.setCtx n c).saves = s.saves := rfl
@[simp] theorem setCtx_boot (n : Nat) (c : Ctx) : (s.setCtx n c).boot = s.boot := rfl
@[simp] theorem setCtx_report (n : Nat) (c : Ctx) : (s.setCtx n c).report = s.report := rfl
@[simp] theorem setCtx_tierCap (n : Nat) (c : Ctx) : (s.setCtx n c).tierCap = s.tierCap := rfl
@[simp] theorem setCtx_ports (n : Nat) (c : Ctx) : (s.setCtx n c).ports = s.ports := rfl
@[simp] theorem setCtx_tiers (n : Nat) (c : Ctx) : (s.setCtx n c).tiers = s.tiers := rfl
@[simp] theorem setCtx_syspos (n : Nat) (c : Ctx) : (s.setCtx n c).syspos = s.syspos := rfl
@[simp] theorem setCtx_leaseLen (n : Nat) (c : Ctx) : (s.setCtx n c).leaseLen = s.leaseLen := rfl
@[simp] theorem setCtx_jobs (n : Nat) (c : Ctx) : (s.setCtx n c).jobs = s.jobs := rfl
@[simp] theorem setCtx_streams (n : Nat) (c : Ctx) : (s.setCtx n c).streams = s.streams := rfl
@[simp] theorem setCtx_refused (n : Nat) (c : Ctx) : (s.setCtx n c).refused = s.refused := rfl
@[simp] theorem setCtx_quiet (n : Nat) (c : Ctx) : (s.setCtx n c).quiet = s.quiet := rfl
@[simp] theorem setCtx_sent (n : Nat) (c : Ctx) : (s.setCtx n c).sent = s.sent := rfl
@[simp] theorem setCtx_outbox (n : Nat) (c : Ctx) : (s.setCtx n c).outbox = s.outbox := rfl
@[simp] theorem setCtx_unexpected (n : Nat) (c : Ctx) : (s.setCtx n c).unexpected = s.unexpected := rfl
@[simp] theorem setCtx_leased (n : Nat) (c : Ctx) : (s.setCtx n c).leased = s.leased := rfl
@[simp] theorem setCtx_matches_ (n : Nat) (c : Ctx) : (s.setCtx n c).matches_ = s.matches_ := rfl
@[simp] theorem setCtx_jobFilter (n : Nat) (c : Ctx) : (s.setCtx n c).jobFilter = s.jobFilter := rfl
@[simp] theorem setCtx_pausing (n : Nat) (c : Ctx) : (s.setCtx n c).pausing = s.pausing := rfl
@[simp] theorem setCtx_hdm (n : Nat) (c : Ctx) : (s.setCtx n c).hdm = s.hdm := rfl
@[simp] theorem setCtx_fleet (n : Nat) (c : Ctx) : (s.setCtx n c).fleet = s.fleet := rfl
@[simp] theorem setCtx_answers (n : Nat) (c : Ctx) : (s.setCtx n c).answers = s.answers := rfl
@[simp] theorem setCtx_requesters (n : Nat) (c : Ctx) : (s.setCtx n c).requesters = s.requesters := rfl
@[simp] theorem setCtx_cur (n : Nat) (c : Ctx) : (s.setCtx n c).cur = s.cur := rfl
@[simp] theorem setCtx_stream (n : Nat) (c : Ctx) : (s.setCtx n c).stream = s.stream := rfl
@[simp] theorem setCtx_agenda (n : Nat) (c : Ctx) : (s.setCtx n c).agenda = s.agenda := rfl
@[simp] theorem setCtx_focus (n : Nat) (c : Ctx) : (s.setCtx n c).focus = s.focus := rfl
@[simp] theorem setCtx_nextUid (n : Nat) (c : Ctx) : (s.setCtx n c).nextUid = s.nextUid := rfl
@[simp] theorem setCtx_order (n : Nat) (c : Ctx) : (s.setCtx n c).order = s.order := rfl
@[simp] theorem setCtx_free (n : Nat) (c : Ctx) : (s.setCtx n c).free = s.free := rfl

/-! ### editCtx -/

@[simp] theorem editCtx_gclk (n : Nat) (g : Ctx → Ctx) : (s.editCtx n g).gclk = s.gclk := by unfold editCtx; split <;> rfl
@[simp] theorem editCtx_lbase (n : Nat) (g : Ctx → Ctx) : (s.editCtx n g).lbase = s.lbase := by unfold editCtx; split <;> rfl
@[simp] theorem editCtx_mem (n : Nat) (g : Ctx → Ctx) : (s.editCtx n g).mem = s.mem := by unfold editCtx; split <;> rfl
@[simp] theorem editCtx_empties (n : Nat) (g : Ctx → Ctx) : (s.editCtx n g).empties = s.empties := by unfold editCtx; split <;> rfl
@[simp] theorem editCtx_poison (n : Nat) (g : Ctx → Ctx) : (s.editCtx n g).poison = s.poison := by unfold editCtx; split <;> rfl
@[simp] theorem editCtx_leaves (n : Nat) (g : Ctx → Ctx) : (s.editCtx n g).leaves = s.leaves := by unfold editCtx; split <;> rfl
@[simp] theorem editCtx_launches (n : Nat) (g : Ctx → Ctx) : (s.editCtx n g).launches = s.launches := by unfold editCtx; split <;> rfl
@[simp] theorem editCtx_strands (n : Nat) (g : Ctx → Ctx) : (s.editCtx n g).strands = s.strands := by unfold editCtx; split <;> rfl
@[simp] theorem editCtx_cores (n : Nat) (g : Ctx → Ctx) : (s.editCtx n g).cores = s.cores := by unfold editCtx; split <;> rfl
@[simp] theorem editCtx_waiters (n : Nat) (g : Ctx → Ctx) : (s.editCtx n g).waiters = s.waiters := by unfold editCtx; split <;> rfl
@[simp] theorem editCtx_dirs (n : Nat) (g : Ctx → Ctx) : (s.editCtx n g).dirs = s.dirs := by unfold editCtx; split <;> rfl
@[simp] theorem editCtx_agents (n : Nat) (g : Ctx → Ctx) : (s.editCtx n g).agents = s.agents := by unfold editCtx; split <;> rfl
@[simp] theorem editCtx_stamps (n : Nat) (g : Ctx → Ctx) : (s.editCtx n g).stamps = s.stamps := by unfold editCtx; split <;> rfl
@[simp] theorem editCtx_msgs (n : Nat) (g : Ctx → Ctx) : (s.editCtx n g).msgs = s.msgs := by unfold editCtx; split <;> rfl
@[simp] theorem editCtx_backInv (n : Nat) (g : Ctx → Ctx) : (s.editCtx n g).backInv = s.backInv := by unfold editCtx; split <;> rfl
@[simp] theorem editCtx_homes (n : Nat) (g : Ctx → Ctx) : (s.editCtx n g).homes = s.homes := by unfold editCtx; split <;> rfl
@[simp] theorem editCtx_later (n : Nat) (g : Ctx → Ctx) : (s.editCtx n g).later = s.later := by unfold editCtx; split <;> rfl
@[simp] theorem editCtx_predictor (n : Nat) (g : Ctx → Ctx) : (s.editCtx n g).predictor = s.predictor := by unfold editCtx; split <;> rfl
@[simp] theorem editCtx_watchOnly (n : Nat) (g : Ctx → Ctx) : (s.editCtx n g).watchOnly = s.watchOnly := by unfold editCtx; split <;> rfl
@[simp] theorem editCtx_boardTlb (n : Nat) (g : Ctx → Ctx) : (s.editCtx n g).boardTlb = s.boardTlb := by unfold editCtx; split <;> rfl
@[simp] theorem editCtx_buckets (n : Nat) (g : Ctx → Ctx) : (s.editCtx n g).buckets = s.buckets := by unfold editCtx; split <;> rfl
@[simp] theorem editCtx_bucketSet (n : Nat) (g : Ctx → Ctx) : (s.editCtx n g).bucketSet = s.bucketSet := by unfold editCtx; split <;> rfl
@[simp] theorem editCtx_bucketNext (n : Nat) (g : Ctx → Ctx) : (s.editCtx n g).bucketNext = s.bucketNext := by unfold editCtx; split <;> rfl
@[simp] theorem editCtx_busy (n : Nat) (g : Ctx → Ctx) : (s.editCtx n g).busy = s.busy := by unfold editCtx; split <;> rfl
@[simp] theorem editCtx_frozen (n : Nat) (g : Ctx → Ctx) : (s.editCtx n g).frozen = s.frozen := by unfold editCtx; split <;> rfl
@[simp] theorem editCtx_castQ (n : Nat) (g : Ctx → Ctx) : (s.editCtx n g).castQ = s.castQ := by unfold editCtx; split <;> rfl
@[simp] theorem editCtx_castRun (n : Nat) (g : Ctx → Ctx) : (s.editCtx n g).castRun = s.castRun := by unfold editCtx; split <;> rfl
@[simp] theorem editCtx_moving (n : Nat) (g : Ctx → Ctx) : (s.editCtx n g).moving = s.moving := by unfold editCtx; split <;> rfl
@[simp] theorem editCtx_moveNext (n : Nat) (g : Ctx → Ctx) : (s.editCtx n g).moveNext = s.moveNext := by unfold editCtx; split <;> rfl
@[simp] theorem editCtx_castMoved (n : Nat) (g : Ctx → Ctx) : (s.editCtx n g).castMoved = s.castMoved := by unfold editCtx; split <;> rfl
@[simp] theorem editCtx_saves (n : Nat) (g : Ctx → Ctx) : (s.editCtx n g).saves = s.saves := by unfold editCtx; split <;> rfl
@[simp] theorem editCtx_boot (n : Nat) (g : Ctx → Ctx) : (s.editCtx n g).boot = s.boot := by unfold editCtx; split <;> rfl
@[simp] theorem editCtx_report (n : Nat) (g : Ctx → Ctx) : (s.editCtx n g).report = s.report := by unfold editCtx; split <;> rfl
@[simp] theorem editCtx_tierCap (n : Nat) (g : Ctx → Ctx) : (s.editCtx n g).tierCap = s.tierCap := by unfold editCtx; split <;> rfl
@[simp] theorem editCtx_ports (n : Nat) (g : Ctx → Ctx) : (s.editCtx n g).ports = s.ports := by unfold editCtx; split <;> rfl
@[simp] theorem editCtx_tiers (n : Nat) (g : Ctx → Ctx) : (s.editCtx n g).tiers = s.tiers := by unfold editCtx; split <;> rfl
@[simp] theorem editCtx_syspos (n : Nat) (g : Ctx → Ctx) : (s.editCtx n g).syspos = s.syspos := by unfold editCtx; split <;> rfl
@[simp] theorem editCtx_leaseLen (n : Nat) (g : Ctx → Ctx) : (s.editCtx n g).leaseLen = s.leaseLen := by unfold editCtx; split <;> rfl
@[simp] theorem editCtx_jobs (n : Nat) (g : Ctx → Ctx) : (s.editCtx n g).jobs = s.jobs := by unfold editCtx; split <;> rfl
@[simp] theorem editCtx_streams (n : Nat) (g : Ctx → Ctx) : (s.editCtx n g).streams = s.streams := by unfold editCtx; split <;> rfl
@[simp] theorem editCtx_refused (n : Nat) (g : Ctx → Ctx) : (s.editCtx n g).refused = s.refused := by unfold editCtx; split <;> rfl
@[simp] theorem editCtx_quiet (n : Nat) (g : Ctx → Ctx) : (s.editCtx n g).quiet = s.quiet := by unfold editCtx; split <;> rfl
@[simp] theorem editCtx_sent (n : Nat) (g : Ctx → Ctx) : (s.editCtx n g).sent = s.sent := by unfold editCtx; split <;> rfl
@[simp] theorem editCtx_outbox (n : Nat) (g : Ctx → Ctx) : (s.editCtx n g).outbox = s.outbox := by unfold editCtx; split <;> rfl
@[simp] theorem editCtx_unexpected (n : Nat) (g : Ctx → Ctx) : (s.editCtx n g).unexpected = s.unexpected := by unfold editCtx; split <;> rfl
@[simp] theorem editCtx_leased (n : Nat) (g : Ctx → Ctx) : (s.editCtx n g).leased = s.leased := by unfold editCtx; split <;> rfl
@[simp] theorem editCtx_matches_ (n : Nat) (g : Ctx → Ctx) : (s.editCtx n g).matches_ = s.matches_ := by unfold editCtx; split <;> rfl
@[simp] theorem editCtx_jobFilter (n : Nat) (g : Ctx → Ctx) : (s.editCtx n g).jobFilter = s.jobFilter := by unfold editCtx; split <;> rfl
@[simp] theorem editCtx_pausing (n : Nat) (g : Ctx → Ctx) : (s.editCtx n g).pausing = s.pausing := by unfold editCtx; split <;> rfl
@[simp] theorem editCtx_hdm (n : Nat) (g : Ctx → Ctx) : (s.editCtx n g).hdm = s.hdm := by unfold editCtx; split <;> rfl
@[simp] theorem editCtx_fleet (n : Nat) (g : Ctx → Ctx) : (s.editCtx n g).fleet = s.fleet := by unfold editCtx; split <;> rfl
@[simp] theorem editCtx_answers (n : Nat) (g : Ctx → Ctx) : (s.editCtx n g).answers = s.answers := by unfold editCtx; split <;> rfl
@[simp] theorem editCtx_requesters (n : Nat) (g : Ctx → Ctx) : (s.editCtx n g).requesters = s.requesters := by unfold editCtx; split <;> rfl
@[simp] theorem editCtx_cur (n : Nat) (g : Ctx → Ctx) : (s.editCtx n g).cur = s.cur := by unfold editCtx; split <;> rfl
@[simp] theorem editCtx_stream (n : Nat) (g : Ctx → Ctx) : (s.editCtx n g).stream = s.stream := by unfold editCtx; split <;> rfl
@[simp] theorem editCtx_agenda (n : Nat) (g : Ctx → Ctx) : (s.editCtx n g).agenda = s.agenda := by unfold editCtx; split <;> rfl
@[simp] theorem editCtx_focus (n : Nat) (g : Ctx → Ctx) : (s.editCtx n g).focus = s.focus := by unfold editCtx; split <;> rfl
@[simp] theorem editCtx_nextUid (n : Nat) (g : Ctx → Ctx) : (s.editCtx n g).nextUid = s.nextUid := by unfold editCtx; split <;> rfl
@[simp] theorem editCtx_order (n : Nat) (g : Ctx → Ctx) : (s.editCtx n g).order = s.order := by unfold editCtx; split <;> rfl
@[simp] theorem editCtx_free (n : Nat) (g : Ctx → Ctx) : (s.editCtx n g).free = s.free := by unfold editCtx; split <;> rfl

/-! ### editLaunch -/

@[simp] theorem editLaunch_gclk (n : Nat) (g : Launch → Launch) : (s.editLaunch n g).gclk = s.gclk := by unfold editLaunch; split <;> rfl
@[simp] theorem editLaunch_lbase (n : Nat) (g : Launch → Launch) : (s.editLaunch n g).lbase = s.lbase := by unfold editLaunch; split <;> rfl
@[simp] theorem editLaunch_mem (n : Nat) (g : Launch → Launch) : (s.editLaunch n g).mem = s.mem := by unfold editLaunch; split <;> rfl
@[simp] theorem editLaunch_empties (n : Nat) (g : Launch → Launch) : (s.editLaunch n g).empties = s.empties := by unfold editLaunch; split <;> rfl
@[simp] theorem editLaunch_poison (n : Nat) (g : Launch → Launch) : (s.editLaunch n g).poison = s.poison := by unfold editLaunch; split <;> rfl
@[simp] theorem editLaunch_leaves (n : Nat) (g : Launch → Launch) : (s.editLaunch n g).leaves = s.leaves := by unfold editLaunch; split <;> rfl
@[simp] theorem editLaunch_ctxs (n : Nat) (g : Launch → Launch) : (s.editLaunch n g).ctxs = s.ctxs := by unfold editLaunch; split <;> rfl
@[simp] theorem editLaunch_strands (n : Nat) (g : Launch → Launch) : (s.editLaunch n g).strands = s.strands := by unfold editLaunch; split <;> rfl
@[simp] theorem editLaunch_cores (n : Nat) (g : Launch → Launch) : (s.editLaunch n g).cores = s.cores := by unfold editLaunch; split <;> rfl
@[simp] theorem editLaunch_waiters (n : Nat) (g : Launch → Launch) : (s.editLaunch n g).waiters = s.waiters := by unfold editLaunch; split <;> rfl
@[simp] theorem editLaunch_dirs (n : Nat) (g : Launch → Launch) : (s.editLaunch n g).dirs = s.dirs := by unfold editLaunch; split <;> rfl
@[simp] theorem editLaunch_agents (n : Nat) (g : Launch → Launch) : (s.editLaunch n g).agents = s.agents := by unfold editLaunch; split <;> rfl
@[simp] theorem editLaunch_stamps (n : Nat) (g : Launch → Launch) : (s.editLaunch n g).stamps = s.stamps := by unfold editLaunch; split <;> rfl
@[simp] theorem editLaunch_msgs (n : Nat) (g : Launch → Launch) : (s.editLaunch n g).msgs = s.msgs := by unfold editLaunch; split <;> rfl
@[simp] theorem editLaunch_backInv (n : Nat) (g : Launch → Launch) : (s.editLaunch n g).backInv = s.backInv := by unfold editLaunch; split <;> rfl
@[simp] theorem editLaunch_homes (n : Nat) (g : Launch → Launch) : (s.editLaunch n g).homes = s.homes := by unfold editLaunch; split <;> rfl
@[simp] theorem editLaunch_later (n : Nat) (g : Launch → Launch) : (s.editLaunch n g).later = s.later := by unfold editLaunch; split <;> rfl
@[simp] theorem editLaunch_predictor (n : Nat) (g : Launch → Launch) : (s.editLaunch n g).predictor = s.predictor := by unfold editLaunch; split <;> rfl
@[simp] theorem editLaunch_watchOnly (n : Nat) (g : Launch → Launch) : (s.editLaunch n g).watchOnly = s.watchOnly := by unfold editLaunch; split <;> rfl
@[simp] theorem editLaunch_boardTlb (n : Nat) (g : Launch → Launch) : (s.editLaunch n g).boardTlb = s.boardTlb := by unfold editLaunch; split <;> rfl
@[simp] theorem editLaunch_buckets (n : Nat) (g : Launch → Launch) : (s.editLaunch n g).buckets = s.buckets := by unfold editLaunch; split <;> rfl
@[simp] theorem editLaunch_bucketSet (n : Nat) (g : Launch → Launch) : (s.editLaunch n g).bucketSet = s.bucketSet := by unfold editLaunch; split <;> rfl
@[simp] theorem editLaunch_bucketNext (n : Nat) (g : Launch → Launch) : (s.editLaunch n g).bucketNext = s.bucketNext := by unfold editLaunch; split <;> rfl
@[simp] theorem editLaunch_busy (n : Nat) (g : Launch → Launch) : (s.editLaunch n g).busy = s.busy := by unfold editLaunch; split <;> rfl
@[simp] theorem editLaunch_frozen (n : Nat) (g : Launch → Launch) : (s.editLaunch n g).frozen = s.frozen := by unfold editLaunch; split <;> rfl
@[simp] theorem editLaunch_castQ (n : Nat) (g : Launch → Launch) : (s.editLaunch n g).castQ = s.castQ := by unfold editLaunch; split <;> rfl
@[simp] theorem editLaunch_castRun (n : Nat) (g : Launch → Launch) : (s.editLaunch n g).castRun = s.castRun := by unfold editLaunch; split <;> rfl
@[simp] theorem editLaunch_moving (n : Nat) (g : Launch → Launch) : (s.editLaunch n g).moving = s.moving := by unfold editLaunch; split <;> rfl
@[simp] theorem editLaunch_moveNext (n : Nat) (g : Launch → Launch) : (s.editLaunch n g).moveNext = s.moveNext := by unfold editLaunch; split <;> rfl
@[simp] theorem editLaunch_castMoved (n : Nat) (g : Launch → Launch) : (s.editLaunch n g).castMoved = s.castMoved := by unfold editLaunch; split <;> rfl
@[simp] theorem editLaunch_saves (n : Nat) (g : Launch → Launch) : (s.editLaunch n g).saves = s.saves := by unfold editLaunch; split <;> rfl
@[simp] theorem editLaunch_boot (n : Nat) (g : Launch → Launch) : (s.editLaunch n g).boot = s.boot := by unfold editLaunch; split <;> rfl
@[simp] theorem editLaunch_report (n : Nat) (g : Launch → Launch) : (s.editLaunch n g).report = s.report := by unfold editLaunch; split <;> rfl
@[simp] theorem editLaunch_tierCap (n : Nat) (g : Launch → Launch) : (s.editLaunch n g).tierCap = s.tierCap := by unfold editLaunch; split <;> rfl
@[simp] theorem editLaunch_ports (n : Nat) (g : Launch → Launch) : (s.editLaunch n g).ports = s.ports := by unfold editLaunch; split <;> rfl
@[simp] theorem editLaunch_tiers (n : Nat) (g : Launch → Launch) : (s.editLaunch n g).tiers = s.tiers := by unfold editLaunch; split <;> rfl
@[simp] theorem editLaunch_syspos (n : Nat) (g : Launch → Launch) : (s.editLaunch n g).syspos = s.syspos := by unfold editLaunch; split <;> rfl
@[simp] theorem editLaunch_leaseLen (n : Nat) (g : Launch → Launch) : (s.editLaunch n g).leaseLen = s.leaseLen := by unfold editLaunch; split <;> rfl
@[simp] theorem editLaunch_jobs (n : Nat) (g : Launch → Launch) : (s.editLaunch n g).jobs = s.jobs := by unfold editLaunch; split <;> rfl
@[simp] theorem editLaunch_streams (n : Nat) (g : Launch → Launch) : (s.editLaunch n g).streams = s.streams := by unfold editLaunch; split <;> rfl
@[simp] theorem editLaunch_refused (n : Nat) (g : Launch → Launch) : (s.editLaunch n g).refused = s.refused := by unfold editLaunch; split <;> rfl
@[simp] theorem editLaunch_quiet (n : Nat) (g : Launch → Launch) : (s.editLaunch n g).quiet = s.quiet := by unfold editLaunch; split <;> rfl
@[simp] theorem editLaunch_sent (n : Nat) (g : Launch → Launch) : (s.editLaunch n g).sent = s.sent := by unfold editLaunch; split <;> rfl
@[simp] theorem editLaunch_outbox (n : Nat) (g : Launch → Launch) : (s.editLaunch n g).outbox = s.outbox := by unfold editLaunch; split <;> rfl
@[simp] theorem editLaunch_unexpected (n : Nat) (g : Launch → Launch) : (s.editLaunch n g).unexpected = s.unexpected := by unfold editLaunch; split <;> rfl
@[simp] theorem editLaunch_leased (n : Nat) (g : Launch → Launch) : (s.editLaunch n g).leased = s.leased := by unfold editLaunch; split <;> rfl
@[simp] theorem editLaunch_matches_ (n : Nat) (g : Launch → Launch) : (s.editLaunch n g).matches_ = s.matches_ := by unfold editLaunch; split <;> rfl
@[simp] theorem editLaunch_jobFilter (n : Nat) (g : Launch → Launch) : (s.editLaunch n g).jobFilter = s.jobFilter := by unfold editLaunch; split <;> rfl
@[simp] theorem editLaunch_pausing (n : Nat) (g : Launch → Launch) : (s.editLaunch n g).pausing = s.pausing := by unfold editLaunch; split <;> rfl
@[simp] theorem editLaunch_hdm (n : Nat) (g : Launch → Launch) : (s.editLaunch n g).hdm = s.hdm := by unfold editLaunch; split <;> rfl
@[simp] theorem editLaunch_fleet (n : Nat) (g : Launch → Launch) : (s.editLaunch n g).fleet = s.fleet := by unfold editLaunch; split <;> rfl
@[simp] theorem editLaunch_answers (n : Nat) (g : Launch → Launch) : (s.editLaunch n g).answers = s.answers := by unfold editLaunch; split <;> rfl
@[simp] theorem editLaunch_requesters (n : Nat) (g : Launch → Launch) : (s.editLaunch n g).requesters = s.requesters := by unfold editLaunch; split <;> rfl
@[simp] theorem editLaunch_cur (n : Nat) (g : Launch → Launch) : (s.editLaunch n g).cur = s.cur := by unfold editLaunch; split <;> rfl
@[simp] theorem editLaunch_stream (n : Nat) (g : Launch → Launch) : (s.editLaunch n g).stream = s.stream := by unfold editLaunch; split <;> rfl
@[simp] theorem editLaunch_agenda (n : Nat) (g : Launch → Launch) : (s.editLaunch n g).agenda = s.agenda := by unfold editLaunch; split <;> rfl
@[simp] theorem editLaunch_focus (n : Nat) (g : Launch → Launch) : (s.editLaunch n g).focus = s.focus := by unfold editLaunch; split <;> rfl
@[simp] theorem editLaunch_nextUid (n : Nat) (g : Launch → Launch) : (s.editLaunch n g).nextUid = s.nextUid := by unfold editLaunch; split <;> rfl
@[simp] theorem editLaunch_order (n : Nat) (g : Launch → Launch) : (s.editLaunch n g).order = s.order := by unfold editLaunch; split <;> rfl
@[simp] theorem editLaunch_free (n : Nat) (g : Launch → Launch) : (s.editLaunch n g).free = s.free := by unfold editLaunch; split <;> rfl

/-! ### store -/

@[simp] theorem store_gclk (pa n v : Nat) : (s.store pa n v).gclk = s.gclk := rfl
@[simp] theorem store_lbase (pa n v : Nat) : (s.store pa n v).lbase = s.lbase := rfl
@[simp] theorem store_empties (pa n v : Nat) : (s.store pa n v).empties = s.empties := rfl
@[simp] theorem store_poison (pa n v : Nat) : (s.store pa n v).poison = s.poison := rfl
@[simp] theorem store_leaves (pa n v : Nat) : (s.store pa n v).leaves = s.leaves := rfl
@[simp] theorem store_ctxs (pa n v : Nat) : (s.store pa n v).ctxs = s.ctxs := rfl
@[simp] theorem store_launches (pa n v : Nat) : (s.store pa n v).launches = s.launches := rfl
@[simp] theorem store_strands (pa n v : Nat) : (s.store pa n v).strands = s.strands := rfl
@[simp] theorem store_cores (pa n v : Nat) : (s.store pa n v).cores = s.cores := rfl
@[simp] theorem store_waiters (pa n v : Nat) : (s.store pa n v).waiters = s.waiters := rfl
@[simp] theorem store_dirs (pa n v : Nat) : (s.store pa n v).dirs = s.dirs := rfl
@[simp] theorem store_agents (pa n v : Nat) : (s.store pa n v).agents = s.agents := rfl
@[simp] theorem store_stamps (pa n v : Nat) : (s.store pa n v).stamps = s.stamps := rfl
@[simp] theorem store_msgs (pa n v : Nat) : (s.store pa n v).msgs = s.msgs := rfl
@[simp] theorem store_backInv (pa n v : Nat) : (s.store pa n v).backInv = s.backInv := rfl
@[simp] theorem store_homes (pa n v : Nat) : (s.store pa n v).homes = s.homes := rfl
@[simp] theorem store_later (pa n v : Nat) : (s.store pa n v).later = s.later := rfl
@[simp] theorem store_predictor (pa n v : Nat) : (s.store pa n v).predictor = s.predictor := rfl
@[simp] theorem store_watchOnly (pa n v : Nat) : (s.store pa n v).watchOnly = s.watchOnly := rfl
@[simp] theorem store_boardTlb (pa n v : Nat) : (s.store pa n v).boardTlb = s.boardTlb := rfl
@[simp] theorem store_buckets (pa n v : Nat) : (s.store pa n v).buckets = s.buckets := rfl
@[simp] theorem store_bucketSet (pa n v : Nat) : (s.store pa n v).bucketSet = s.bucketSet := rfl
@[simp] theorem store_bucketNext (pa n v : Nat) : (s.store pa n v).bucketNext = s.bucketNext := rfl
@[simp] theorem store_busy (pa n v : Nat) : (s.store pa n v).busy = s.busy := rfl
@[simp] theorem store_frozen (pa n v : Nat) : (s.store pa n v).frozen = s.frozen := rfl
@[simp] theorem store_castQ (pa n v : Nat) : (s.store pa n v).castQ = s.castQ := rfl
@[simp] theorem store_castRun (pa n v : Nat) : (s.store pa n v).castRun = s.castRun := rfl
@[simp] theorem store_moving (pa n v : Nat) : (s.store pa n v).moving = s.moving := rfl
@[simp] theorem store_moveNext (pa n v : Nat) : (s.store pa n v).moveNext = s.moveNext := rfl
@[simp] theorem store_castMoved (pa n v : Nat) : (s.store pa n v).castMoved = s.castMoved := rfl
@[simp] theorem store_saves (pa n v : Nat) : (s.store pa n v).saves = s.saves := rfl
@[simp] theorem store_boot (pa n v : Nat) : (s.store pa n v).boot = s.boot := rfl
@[simp] theorem store_report (pa n v : Nat) : (s.store pa n v).report = s.report := rfl
@[simp] theorem store_tierCap (pa n v : Nat) : (s.store pa n v).tierCap = s.tierCap := rfl
@[simp] theorem store_ports (pa n v : Nat) : (s.store pa n v).ports = s.ports := rfl
@[simp] theorem store_tiers (pa n v : Nat) : (s.store pa n v).tiers = s.tiers := rfl
@[simp] theorem store_syspos (pa n v : Nat) : (s.store pa n v).syspos = s.syspos := rfl
@[simp] theorem store_leaseLen (pa n v : Nat) : (s.store pa n v).leaseLen = s.leaseLen := rfl
@[simp] theorem store_jobs (pa n v : Nat) : (s.store pa n v).jobs = s.jobs := rfl
@[simp] theorem store_streams (pa n v : Nat) : (s.store pa n v).streams = s.streams := rfl
@[simp] theorem store_refused (pa n v : Nat) : (s.store pa n v).refused = s.refused := rfl
@[simp] theorem store_quiet (pa n v : Nat) : (s.store pa n v).quiet = s.quiet := rfl
@[simp] theorem store_sent (pa n v : Nat) : (s.store pa n v).sent = s.sent := rfl
@[simp] theorem store_outbox (pa n v : Nat) : (s.store pa n v).outbox = s.outbox := rfl
@[simp] theorem store_unexpected (pa n v : Nat) : (s.store pa n v).unexpected = s.unexpected := rfl
@[simp] theorem store_leased (pa n v : Nat) : (s.store pa n v).leased = s.leased := rfl
@[simp] theorem store_matches_ (pa n v : Nat) : (s.store pa n v).matches_ = s.matches_ := rfl
@[simp] theorem store_jobFilter (pa n v : Nat) : (s.store pa n v).jobFilter = s.jobFilter := rfl
@[simp] theorem store_pausing (pa n v : Nat) : (s.store pa n v).pausing = s.pausing := rfl
@[simp] theorem store_hdm (pa n v : Nat) : (s.store pa n v).hdm = s.hdm := rfl
@[simp] theorem store_fleet (pa n v : Nat) : (s.store pa n v).fleet = s.fleet := rfl
@[simp] theorem store_answers (pa n v : Nat) : (s.store pa n v).answers = s.answers := rfl
@[simp] theorem store_requesters (pa n v : Nat) : (s.store pa n v).requesters = s.requesters := rfl
@[simp] theorem store_cur (pa n v : Nat) : (s.store pa n v).cur = s.cur := rfl
@[simp] theorem store_stream (pa n v : Nat) : (s.store pa n v).stream = s.stream := rfl
@[simp] theorem store_agenda (pa n v : Nat) : (s.store pa n v).agenda = s.agenda := rfl
@[simp] theorem store_focus (pa n v : Nat) : (s.store pa n v).focus = s.focus := rfl
@[simp] theorem store_nextUid (pa n v : Nat) : (s.store pa n v).nextUid = s.nextUid := rfl
@[simp] theorem store_order (pa n v : Nat) : (s.store pa n v).order = s.order := rfl
@[simp] theorem store_free (pa n v : Nat) : (s.store pa n v).free = s.free := rfl

/-! ### setFull -/

@[simp] theorem setFull_gclk (pa : Nat) : (s.setFull pa).gclk = s.gclk := rfl
@[simp] theorem setFull_lbase (pa : Nat) : (s.setFull pa).lbase = s.lbase := rfl
@[simp] theorem setFull_mem (pa : Nat) : (s.setFull pa).mem = s.mem := rfl
@[simp] theorem setFull_poison (pa : Nat) : (s.setFull pa).poison = s.poison := rfl
@[simp] theorem setFull_leaves (pa : Nat) : (s.setFull pa).leaves = s.leaves := rfl
@[simp] theorem setFull_ctxs (pa : Nat) : (s.setFull pa).ctxs = s.ctxs := rfl
@[simp] theorem setFull_launches (pa : Nat) : (s.setFull pa).launches = s.launches := rfl
@[simp] theorem setFull_strands (pa : Nat) : (s.setFull pa).strands = s.strands := rfl
@[simp] theorem setFull_cores (pa : Nat) : (s.setFull pa).cores = s.cores := rfl
@[simp] theorem setFull_waiters (pa : Nat) : (s.setFull pa).waiters = s.waiters := rfl
@[simp] theorem setFull_dirs (pa : Nat) : (s.setFull pa).dirs = s.dirs := rfl
@[simp] theorem setFull_agents (pa : Nat) : (s.setFull pa).agents = s.agents := rfl
@[simp] theorem setFull_stamps (pa : Nat) : (s.setFull pa).stamps = s.stamps := rfl
@[simp] theorem setFull_msgs (pa : Nat) : (s.setFull pa).msgs = s.msgs := rfl
@[simp] theorem setFull_backInv (pa : Nat) : (s.setFull pa).backInv = s.backInv := rfl
@[simp] theorem setFull_homes (pa : Nat) : (s.setFull pa).homes = s.homes := rfl
@[simp] theorem setFull_later (pa : Nat) : (s.setFull pa).later = s.later := rfl
@[simp] theorem setFull_predictor (pa : Nat) : (s.setFull pa).predictor = s.predictor := rfl
@[simp] theorem setFull_watchOnly (pa : Nat) : (s.setFull pa).watchOnly = s.watchOnly := rfl
@[simp] theorem setFull_boardTlb (pa : Nat) : (s.setFull pa).boardTlb = s.boardTlb := rfl
@[simp] theorem setFull_buckets (pa : Nat) : (s.setFull pa).buckets = s.buckets := rfl
@[simp] theorem setFull_bucketSet (pa : Nat) : (s.setFull pa).bucketSet = s.bucketSet := rfl
@[simp] theorem setFull_bucketNext (pa : Nat) : (s.setFull pa).bucketNext = s.bucketNext := rfl
@[simp] theorem setFull_busy (pa : Nat) : (s.setFull pa).busy = s.busy := rfl
@[simp] theorem setFull_frozen (pa : Nat) : (s.setFull pa).frozen = s.frozen := rfl
@[simp] theorem setFull_castQ (pa : Nat) : (s.setFull pa).castQ = s.castQ := rfl
@[simp] theorem setFull_castRun (pa : Nat) : (s.setFull pa).castRun = s.castRun := rfl
@[simp] theorem setFull_moving (pa : Nat) : (s.setFull pa).moving = s.moving := rfl
@[simp] theorem setFull_moveNext (pa : Nat) : (s.setFull pa).moveNext = s.moveNext := rfl
@[simp] theorem setFull_castMoved (pa : Nat) : (s.setFull pa).castMoved = s.castMoved := rfl
@[simp] theorem setFull_saves (pa : Nat) : (s.setFull pa).saves = s.saves := rfl
@[simp] theorem setFull_boot (pa : Nat) : (s.setFull pa).boot = s.boot := rfl
@[simp] theorem setFull_report (pa : Nat) : (s.setFull pa).report = s.report := rfl
@[simp] theorem setFull_tierCap (pa : Nat) : (s.setFull pa).tierCap = s.tierCap := rfl
@[simp] theorem setFull_ports (pa : Nat) : (s.setFull pa).ports = s.ports := rfl
@[simp] theorem setFull_tiers (pa : Nat) : (s.setFull pa).tiers = s.tiers := rfl
@[simp] theorem setFull_syspos (pa : Nat) : (s.setFull pa).syspos = s.syspos := rfl
@[simp] theorem setFull_leaseLen (pa : Nat) : (s.setFull pa).leaseLen = s.leaseLen := rfl
@[simp] theorem setFull_jobs (pa : Nat) : (s.setFull pa).jobs = s.jobs := rfl
@[simp] theorem setFull_streams (pa : Nat) : (s.setFull pa).streams = s.streams := rfl
@[simp] theorem setFull_refused (pa : Nat) : (s.setFull pa).refused = s.refused := rfl
@[simp] theorem setFull_quiet (pa : Nat) : (s.setFull pa).quiet = s.quiet := rfl
@[simp] theorem setFull_sent (pa : Nat) : (s.setFull pa).sent = s.sent := rfl
@[simp] theorem setFull_outbox (pa : Nat) : (s.setFull pa).outbox = s.outbox := rfl
@[simp] theorem setFull_unexpected (pa : Nat) : (s.setFull pa).unexpected = s.unexpected := rfl
@[simp] theorem setFull_leased (pa : Nat) : (s.setFull pa).leased = s.leased := rfl
@[simp] theorem setFull_matches_ (pa : Nat) : (s.setFull pa).matches_ = s.matches_ := rfl
@[simp] theorem setFull_jobFilter (pa : Nat) : (s.setFull pa).jobFilter = s.jobFilter := rfl
@[simp] theorem setFull_pausing (pa : Nat) : (s.setFull pa).pausing = s.pausing := rfl
@[simp] theorem setFull_hdm (pa : Nat) : (s.setFull pa).hdm = s.hdm := rfl
@[simp] theorem setFull_fleet (pa : Nat) : (s.setFull pa).fleet = s.fleet := rfl
@[simp] theorem setFull_answers (pa : Nat) : (s.setFull pa).answers = s.answers := rfl
@[simp] theorem setFull_requesters (pa : Nat) : (s.setFull pa).requesters = s.requesters := rfl
@[simp] theorem setFull_cur (pa : Nat) : (s.setFull pa).cur = s.cur := rfl
@[simp] theorem setFull_stream (pa : Nat) : (s.setFull pa).stream = s.stream := rfl
@[simp] theorem setFull_agenda (pa : Nat) : (s.setFull pa).agenda = s.agenda := rfl
@[simp] theorem setFull_focus (pa : Nat) : (s.setFull pa).focus = s.focus := rfl
@[simp] theorem setFull_nextUid (pa : Nat) : (s.setFull pa).nextUid = s.nextUid := rfl
@[simp] theorem setFull_order (pa : Nat) : (s.setFull pa).order = s.order := rfl
@[simp] theorem setFull_free (pa : Nat) : (s.setFull pa).free = s.free := rfl

/-! ### setEmpty -/

@[simp] theorem setEmpty_gclk (pa : Nat) : (s.setEmpty pa).gclk = s.gclk := rfl
@[simp] theorem setEmpty_lbase (pa : Nat) : (s.setEmpty pa).lbase = s.lbase := rfl
@[simp] theorem setEmpty_mem (pa : Nat) : (s.setEmpty pa).mem = s.mem := rfl
@[simp] theorem setEmpty_poison (pa : Nat) : (s.setEmpty pa).poison = s.poison := rfl
@[simp] theorem setEmpty_leaves (pa : Nat) : (s.setEmpty pa).leaves = s.leaves := rfl
@[simp] theorem setEmpty_ctxs (pa : Nat) : (s.setEmpty pa).ctxs = s.ctxs := rfl
@[simp] theorem setEmpty_launches (pa : Nat) : (s.setEmpty pa).launches = s.launches := rfl
@[simp] theorem setEmpty_strands (pa : Nat) : (s.setEmpty pa).strands = s.strands := rfl
@[simp] theorem setEmpty_cores (pa : Nat) : (s.setEmpty pa).cores = s.cores := rfl
@[simp] theorem setEmpty_waiters (pa : Nat) : (s.setEmpty pa).waiters = s.waiters := rfl
@[simp] theorem setEmpty_dirs (pa : Nat) : (s.setEmpty pa).dirs = s.dirs := rfl
@[simp] theorem setEmpty_agents (pa : Nat) : (s.setEmpty pa).agents = s.agents := rfl
@[simp] theorem setEmpty_stamps (pa : Nat) : (s.setEmpty pa).stamps = s.stamps := rfl
@[simp] theorem setEmpty_msgs (pa : Nat) : (s.setEmpty pa).msgs = s.msgs := rfl
@[simp] theorem setEmpty_backInv (pa : Nat) : (s.setEmpty pa).backInv = s.backInv := rfl
@[simp] theorem setEmpty_homes (pa : Nat) : (s.setEmpty pa).homes = s.homes := rfl
@[simp] theorem setEmpty_later (pa : Nat) : (s.setEmpty pa).later = s.later := rfl
@[simp] theorem setEmpty_predictor (pa : Nat) : (s.setEmpty pa).predictor = s.predictor := rfl
@[simp] theorem setEmpty_watchOnly (pa : Nat) : (s.setEmpty pa).watchOnly = s.watchOnly := rfl
@[simp] theorem setEmpty_boardTlb (pa : Nat) : (s.setEmpty pa).boardTlb = s.boardTlb := rfl
@[simp] theorem setEmpty_buckets (pa : Nat) : (s.setEmpty pa).buckets = s.buckets := rfl
@[simp] theorem setEmpty_bucketSet (pa : Nat) : (s.setEmpty pa).bucketSet = s.bucketSet := rfl
@[simp] theorem setEmpty_bucketNext (pa : Nat) : (s.setEmpty pa).bucketNext = s.bucketNext := rfl
@[simp] theorem setEmpty_busy (pa : Nat) : (s.setEmpty pa).busy = s.busy := rfl
@[simp] theorem setEmpty_frozen (pa : Nat) : (s.setEmpty pa).frozen = s.frozen := rfl
@[simp] theorem setEmpty_castQ (pa : Nat) : (s.setEmpty pa).castQ = s.castQ := rfl
@[simp] theorem setEmpty_castRun (pa : Nat) : (s.setEmpty pa).castRun = s.castRun := rfl
@[simp] theorem setEmpty_moving (pa : Nat) : (s.setEmpty pa).moving = s.moving := rfl
@[simp] theorem setEmpty_moveNext (pa : Nat) : (s.setEmpty pa).moveNext = s.moveNext := rfl
@[simp] theorem setEmpty_castMoved (pa : Nat) : (s.setEmpty pa).castMoved = s.castMoved := rfl
@[simp] theorem setEmpty_saves (pa : Nat) : (s.setEmpty pa).saves = s.saves := rfl
@[simp] theorem setEmpty_boot (pa : Nat) : (s.setEmpty pa).boot = s.boot := rfl
@[simp] theorem setEmpty_report (pa : Nat) : (s.setEmpty pa).report = s.report := rfl
@[simp] theorem setEmpty_tierCap (pa : Nat) : (s.setEmpty pa).tierCap = s.tierCap := rfl
@[simp] theorem setEmpty_ports (pa : Nat) : (s.setEmpty pa).ports = s.ports := rfl
@[simp] theorem setEmpty_tiers (pa : Nat) : (s.setEmpty pa).tiers = s.tiers := rfl
@[simp] theorem setEmpty_syspos (pa : Nat) : (s.setEmpty pa).syspos = s.syspos := rfl
@[simp] theorem setEmpty_leaseLen (pa : Nat) : (s.setEmpty pa).leaseLen = s.leaseLen := rfl
@[simp] theorem setEmpty_jobs (pa : Nat) : (s.setEmpty pa).jobs = s.jobs := rfl
@[simp] theorem setEmpty_streams (pa : Nat) : (s.setEmpty pa).streams = s.streams := rfl
@[simp] theorem setEmpty_refused (pa : Nat) : (s.setEmpty pa).refused = s.refused := rfl
@[simp] theorem setEmpty_quiet (pa : Nat) : (s.setEmpty pa).quiet = s.quiet := rfl
@[simp] theorem setEmpty_sent (pa : Nat) : (s.setEmpty pa).sent = s.sent := rfl
@[simp] theorem setEmpty_outbox (pa : Nat) : (s.setEmpty pa).outbox = s.outbox := rfl
@[simp] theorem setEmpty_unexpected (pa : Nat) : (s.setEmpty pa).unexpected = s.unexpected := rfl
@[simp] theorem setEmpty_leased (pa : Nat) : (s.setEmpty pa).leased = s.leased := rfl
@[simp] theorem setEmpty_matches_ (pa : Nat) : (s.setEmpty pa).matches_ = s.matches_ := rfl
@[simp] theorem setEmpty_jobFilter (pa : Nat) : (s.setEmpty pa).jobFilter = s.jobFilter := rfl
@[simp] theorem setEmpty_pausing (pa : Nat) : (s.setEmpty pa).pausing = s.pausing := rfl
@[simp] theorem setEmpty_hdm (pa : Nat) : (s.setEmpty pa).hdm = s.hdm := rfl
@[simp] theorem setEmpty_fleet (pa : Nat) : (s.setEmpty pa).fleet = s.fleet := rfl
@[simp] theorem setEmpty_answers (pa : Nat) : (s.setEmpty pa).answers = s.answers := rfl
@[simp] theorem setEmpty_requesters (pa : Nat) : (s.setEmpty pa).requesters = s.requesters := rfl
@[simp] theorem setEmpty_cur (pa : Nat) : (s.setEmpty pa).cur = s.cur := rfl
@[simp] theorem setEmpty_stream (pa : Nat) : (s.setEmpty pa).stream = s.stream := rfl
@[simp] theorem setEmpty_agenda (pa : Nat) : (s.setEmpty pa).agenda = s.agenda := rfl
@[simp] theorem setEmpty_focus (pa : Nat) : (s.setEmpty pa).focus = s.focus := rfl
@[simp] theorem setEmpty_nextUid (pa : Nat) : (s.setEmpty pa).nextUid = s.nextUid := rfl
@[simp] theorem setEmpty_order (pa : Nat) : (s.setEmpty pa).order = s.order := rfl
@[simp] theorem setEmpty_free (pa : Nat) : (s.setEmpty pa).free = s.free := rfl

/-! ### clearPoison -/

@[simp] theorem clearPoison_gclk (pa : Nat) : (s.clearPoison pa).gclk = s.gclk := rfl
@[simp] theorem clearPoison_lbase (pa : Nat) : (s.clearPoison pa).lbase = s.lbase := rfl
@[simp] theorem clearPoison_mem (pa : Nat) : (s.clearPoison pa).mem = s.mem := rfl
@[simp] theorem clearPoison_empties (pa : Nat) : (s.clearPoison pa).empties = s.empties := rfl
@[simp] theorem clearPoison_leaves (pa : Nat) : (s.clearPoison pa).leaves = s.leaves := rfl
@[simp] theorem clearPoison_ctxs (pa : Nat) : (s.clearPoison pa).ctxs = s.ctxs := rfl
@[simp] theorem clearPoison_launches (pa : Nat) : (s.clearPoison pa).launches = s.launches := rfl
@[simp] theorem clearPoison_strands (pa : Nat) : (s.clearPoison pa).strands = s.strands := rfl
@[simp] theorem clearPoison_cores (pa : Nat) : (s.clearPoison pa).cores = s.cores := rfl
@[simp] theorem clearPoison_waiters (pa : Nat) : (s.clearPoison pa).waiters = s.waiters := rfl
@[simp] theorem clearPoison_dirs (pa : Nat) : (s.clearPoison pa).dirs = s.dirs := rfl
@[simp] theorem clearPoison_agents (pa : Nat) : (s.clearPoison pa).agents = s.agents := rfl
@[simp] theorem clearPoison_stamps (pa : Nat) : (s.clearPoison pa).stamps = s.stamps := rfl
@[simp] theorem clearPoison_msgs (pa : Nat) : (s.clearPoison pa).msgs = s.msgs := rfl
@[simp] theorem clearPoison_backInv (pa : Nat) : (s.clearPoison pa).backInv = s.backInv := rfl
@[simp] theorem clearPoison_homes (pa : Nat) : (s.clearPoison pa).homes = s.homes := rfl
@[simp] theorem clearPoison_later (pa : Nat) : (s.clearPoison pa).later = s.later := rfl
@[simp] theorem clearPoison_predictor (pa : Nat) : (s.clearPoison pa).predictor = s.predictor := rfl
@[simp] theorem clearPoison_watchOnly (pa : Nat) : (s.clearPoison pa).watchOnly = s.watchOnly := rfl
@[simp] theorem clearPoison_boardTlb (pa : Nat) : (s.clearPoison pa).boardTlb = s.boardTlb := rfl
@[simp] theorem clearPoison_buckets (pa : Nat) : (s.clearPoison pa).buckets = s.buckets := rfl
@[simp] theorem clearPoison_bucketSet (pa : Nat) : (s.clearPoison pa).bucketSet = s.bucketSet := rfl
@[simp] theorem clearPoison_bucketNext (pa : Nat) : (s.clearPoison pa).bucketNext = s.bucketNext := rfl
@[simp] theorem clearPoison_busy (pa : Nat) : (s.clearPoison pa).busy = s.busy := rfl
@[simp] theorem clearPoison_frozen (pa : Nat) : (s.clearPoison pa).frozen = s.frozen := rfl
@[simp] theorem clearPoison_castQ (pa : Nat) : (s.clearPoison pa).castQ = s.castQ := rfl
@[simp] theorem clearPoison_castRun (pa : Nat) : (s.clearPoison pa).castRun = s.castRun := rfl
@[simp] theorem clearPoison_moving (pa : Nat) : (s.clearPoison pa).moving = s.moving := rfl
@[simp] theorem clearPoison_moveNext (pa : Nat) : (s.clearPoison pa).moveNext = s.moveNext := rfl
@[simp] theorem clearPoison_castMoved (pa : Nat) : (s.clearPoison pa).castMoved = s.castMoved := rfl
@[simp] theorem clearPoison_saves (pa : Nat) : (s.clearPoison pa).saves = s.saves := rfl
@[simp] theorem clearPoison_boot (pa : Nat) : (s.clearPoison pa).boot = s.boot := rfl
@[simp] theorem clearPoison_report (pa : Nat) : (s.clearPoison pa).report = s.report := rfl
@[simp] theorem clearPoison_tierCap (pa : Nat) : (s.clearPoison pa).tierCap = s.tierCap := rfl
@[simp] theorem clearPoison_ports (pa : Nat) : (s.clearPoison pa).ports = s.ports := rfl
@[simp] theorem clearPoison_tiers (pa : Nat) : (s.clearPoison pa).tiers = s.tiers := rfl
@[simp] theorem clearPoison_syspos (pa : Nat) : (s.clearPoison pa).syspos = s.syspos := rfl
@[simp] theorem clearPoison_leaseLen (pa : Nat) : (s.clearPoison pa).leaseLen = s.leaseLen := rfl
@[simp] theorem clearPoison_jobs (pa : Nat) : (s.clearPoison pa).jobs = s.jobs := rfl
@[simp] theorem clearPoison_streams (pa : Nat) : (s.clearPoison pa).streams = s.streams := rfl
@[simp] theorem clearPoison_refused (pa : Nat) : (s.clearPoison pa).refused = s.refused := rfl
@[simp] theorem clearPoison_quiet (pa : Nat) : (s.clearPoison pa).quiet = s.quiet := rfl
@[simp] theorem clearPoison_sent (pa : Nat) : (s.clearPoison pa).sent = s.sent := rfl
@[simp] theorem clearPoison_outbox (pa : Nat) : (s.clearPoison pa).outbox = s.outbox := rfl
@[simp] theorem clearPoison_unexpected (pa : Nat) : (s.clearPoison pa).unexpected = s.unexpected := rfl
@[simp] theorem clearPoison_leased (pa : Nat) : (s.clearPoison pa).leased = s.leased := rfl
@[simp] theorem clearPoison_matches_ (pa : Nat) : (s.clearPoison pa).matches_ = s.matches_ := rfl
@[simp] theorem clearPoison_jobFilter (pa : Nat) : (s.clearPoison pa).jobFilter = s.jobFilter := rfl
@[simp] theorem clearPoison_pausing (pa : Nat) : (s.clearPoison pa).pausing = s.pausing := rfl
@[simp] theorem clearPoison_hdm (pa : Nat) : (s.clearPoison pa).hdm = s.hdm := rfl
@[simp] theorem clearPoison_fleet (pa : Nat) : (s.clearPoison pa).fleet = s.fleet := rfl
@[simp] theorem clearPoison_answers (pa : Nat) : (s.clearPoison pa).answers = s.answers := rfl
@[simp] theorem clearPoison_requesters (pa : Nat) : (s.clearPoison pa).requesters = s.requesters := rfl
@[simp] theorem clearPoison_cur (pa : Nat) : (s.clearPoison pa).cur = s.cur := rfl
@[simp] theorem clearPoison_stream (pa : Nat) : (s.clearPoison pa).stream = s.stream := rfl
@[simp] theorem clearPoison_agenda (pa : Nat) : (s.clearPoison pa).agenda = s.agenda := rfl
@[simp] theorem clearPoison_focus (pa : Nat) : (s.clearPoison pa).focus = s.focus := rfl
@[simp] theorem clearPoison_nextUid (pa : Nat) : (s.clearPoison pa).nextUid = s.nextUid := rfl
@[simp] theorem clearPoison_order (pa : Nat) : (s.clearPoison pa).order = s.order := rfl
@[simp] theorem clearPoison_free (pa : Nat) : (s.clearPoison pa).free = s.free := rfl

/-! ### setPoison -/

@[simp] theorem setPoison_gclk (pa : Nat) : (s.setPoison pa).gclk = s.gclk := rfl
@[simp] theorem setPoison_lbase (pa : Nat) : (s.setPoison pa).lbase = s.lbase := rfl
@[simp] theorem setPoison_mem (pa : Nat) : (s.setPoison pa).mem = s.mem := rfl
@[simp] theorem setPoison_empties (pa : Nat) : (s.setPoison pa).empties = s.empties := rfl
@[simp] theorem setPoison_leaves (pa : Nat) : (s.setPoison pa).leaves = s.leaves := rfl
@[simp] theorem setPoison_ctxs (pa : Nat) : (s.setPoison pa).ctxs = s.ctxs := rfl
@[simp] theorem setPoison_launches (pa : Nat) : (s.setPoison pa).launches = s.launches := rfl
@[simp] theorem setPoison_strands (pa : Nat) : (s.setPoison pa).strands = s.strands := rfl
@[simp] theorem setPoison_cores (pa : Nat) : (s.setPoison pa).cores = s.cores := rfl
@[simp] theorem setPoison_waiters (pa : Nat) : (s.setPoison pa).waiters = s.waiters := rfl
@[simp] theorem setPoison_dirs (pa : Nat) : (s.setPoison pa).dirs = s.dirs := rfl
@[simp] theorem setPoison_agents (pa : Nat) : (s.setPoison pa).agents = s.agents := rfl
@[simp] theorem setPoison_stamps (pa : Nat) : (s.setPoison pa).stamps = s.stamps := rfl
@[simp] theorem setPoison_msgs (pa : Nat) : (s.setPoison pa).msgs = s.msgs := rfl
@[simp] theorem setPoison_backInv (pa : Nat) : (s.setPoison pa).backInv = s.backInv := rfl
@[simp] theorem setPoison_homes (pa : Nat) : (s.setPoison pa).homes = s.homes := rfl
@[simp] theorem setPoison_later (pa : Nat) : (s.setPoison pa).later = s.later := rfl
@[simp] theorem setPoison_predictor (pa : Nat) : (s.setPoison pa).predictor = s.predictor := rfl
@[simp] theorem setPoison_watchOnly (pa : Nat) : (s.setPoison pa).watchOnly = s.watchOnly := rfl
@[simp] theorem setPoison_boardTlb (pa : Nat) : (s.setPoison pa).boardTlb = s.boardTlb := rfl
@[simp] theorem setPoison_buckets (pa : Nat) : (s.setPoison pa).buckets = s.buckets := rfl
@[simp] theorem setPoison_bucketSet (pa : Nat) : (s.setPoison pa).bucketSet = s.bucketSet := rfl
@[simp] theorem setPoison_bucketNext (pa : Nat) : (s.setPoison pa).bucketNext = s.bucketNext := rfl
@[simp] theorem setPoison_busy (pa : Nat) : (s.setPoison pa).busy = s.busy := rfl
@[simp] theorem setPoison_frozen (pa : Nat) : (s.setPoison pa).frozen = s.frozen := rfl
@[simp] theorem setPoison_castQ (pa : Nat) : (s.setPoison pa).castQ = s.castQ := rfl
@[simp] theorem setPoison_castRun (pa : Nat) : (s.setPoison pa).castRun = s.castRun := rfl
@[simp] theorem setPoison_moving (pa : Nat) : (s.setPoison pa).moving = s.moving := rfl
@[simp] theorem setPoison_moveNext (pa : Nat) : (s.setPoison pa).moveNext = s.moveNext := rfl
@[simp] theorem setPoison_castMoved (pa : Nat) : (s.setPoison pa).castMoved = s.castMoved := rfl
@[simp] theorem setPoison_saves (pa : Nat) : (s.setPoison pa).saves = s.saves := rfl
@[simp] theorem setPoison_boot (pa : Nat) : (s.setPoison pa).boot = s.boot := rfl
@[simp] theorem setPoison_report (pa : Nat) : (s.setPoison pa).report = s.report := rfl
@[simp] theorem setPoison_tierCap (pa : Nat) : (s.setPoison pa).tierCap = s.tierCap := rfl
@[simp] theorem setPoison_ports (pa : Nat) : (s.setPoison pa).ports = s.ports := rfl
@[simp] theorem setPoison_tiers (pa : Nat) : (s.setPoison pa).tiers = s.tiers := rfl
@[simp] theorem setPoison_syspos (pa : Nat) : (s.setPoison pa).syspos = s.syspos := rfl
@[simp] theorem setPoison_leaseLen (pa : Nat) : (s.setPoison pa).leaseLen = s.leaseLen := rfl
@[simp] theorem setPoison_jobs (pa : Nat) : (s.setPoison pa).jobs = s.jobs := rfl
@[simp] theorem setPoison_streams (pa : Nat) : (s.setPoison pa).streams = s.streams := rfl
@[simp] theorem setPoison_refused (pa : Nat) : (s.setPoison pa).refused = s.refused := rfl
@[simp] theorem setPoison_quiet (pa : Nat) : (s.setPoison pa).quiet = s.quiet := rfl
@[simp] theorem setPoison_sent (pa : Nat) : (s.setPoison pa).sent = s.sent := rfl
@[simp] theorem setPoison_outbox (pa : Nat) : (s.setPoison pa).outbox = s.outbox := rfl
@[simp] theorem setPoison_unexpected (pa : Nat) : (s.setPoison pa).unexpected = s.unexpected := rfl
@[simp] theorem setPoison_leased (pa : Nat) : (s.setPoison pa).leased = s.leased := rfl
@[simp] theorem setPoison_matches_ (pa : Nat) : (s.setPoison pa).matches_ = s.matches_ := rfl
@[simp] theorem setPoison_jobFilter (pa : Nat) : (s.setPoison pa).jobFilter = s.jobFilter := rfl
@[simp] theorem setPoison_pausing (pa : Nat) : (s.setPoison pa).pausing = s.pausing := rfl
@[simp] theorem setPoison_hdm (pa : Nat) : (s.setPoison pa).hdm = s.hdm := rfl
@[simp] theorem setPoison_fleet (pa : Nat) : (s.setPoison pa).fleet = s.fleet := rfl
@[simp] theorem setPoison_answers (pa : Nat) : (s.setPoison pa).answers = s.answers := rfl
@[simp] theorem setPoison_requesters (pa : Nat) : (s.setPoison pa).requesters = s.requesters := rfl
@[simp] theorem setPoison_cur (pa : Nat) : (s.setPoison pa).cur = s.cur := rfl
@[simp] theorem setPoison_stream (pa : Nat) : (s.setPoison pa).stream = s.stream := rfl
@[simp] theorem setPoison_agenda (pa : Nat) : (s.setPoison pa).agenda = s.agenda := rfl
@[simp] theorem setPoison_focus (pa : Nat) : (s.setPoison pa).focus = s.focus := rfl
@[simp] theorem setPoison_nextUid (pa : Nat) : (s.setPoison pa).nextUid = s.nextUid := rfl
@[simp] theorem setPoison_order (pa : Nat) : (s.setPoison pa).order = s.order := rfl
@[simp] theorem setPoison_free (pa : Nat) : (s.setPoison pa).free = s.free := rfl

end Sys2Proof.Machine.State
end

