-- ==== Sys2Proof/Laws/Act.lean ====
section
/-!
SUPPORT. How the steps of an instruction run: one lemma for each step, for a strand that issues outside a region.
-/

namespace Sys2Proof.Machine

variable {α β : Type} {s : State} {u : Nat} {st : Strand} {f : Fields}

/-! ### The monad -/

theorem Act.bind_run (a : Act α) (g : α → Act β) (s : State) :
    (a >>= g) s = match a s with
      | (.ok x, s') => g x s'
      | (.error e, s') => (.error e, s') := by
  show (ExceptT.bind a g) s = _
  simp only [ExceptT.bind, ExceptT.mk, bind, StateT.bind, ExceptT.bindCont]
  cases h : a s with
  | mk r s' => cases r <;> rfl

/-- A step whose answer is passed on by a function. -/
theorem Act.map_run (g : α → β) (a : Act α) (s : State) :
    (g <$> a) s = match a s with
      | (.ok x, s') => (.ok (g x), s')
      | (.error e, s') => (.error e, s') := by
  rw [map_eq_pure_bind, Act.bind_run]
  rfl

@[simp] theorem Act.pure_run (x : α) (s : State) : (pure x : Act α) s = (.ok x, s) := rfl
@[simp] theorem readS_run (g : State → α) (s : State) : readS g s = (.ok (g s), s) := rfl
@[simp] theorem editS_run (g : State → State) (s : State) : editS g s = (.ok (), g s) := rfl
@[simp] theorem stateS_run (g : State → α × State) (s : State) : stateS g s = (.ok (g s).1, (g s).2) := rfl
@[simp] theorem stopWith_run (e : Exit) (s : State) : (stopWith e : Act α) s = (.error e, s) := rfl

/-- A bind whose first step succeeds. -/
theorem Act.bind_ok {a : Act α} {g : α → Act β} {x : α} {s s' : State} (h : a s = (.ok x, s')) : (a >>= g) s = g x s' := by
  rw [Act.bind_run, h]

theorem Act.bind_error {a : Act α} {g : α → Act β} {e : Exit} {s s' : State} (h : a s = (.error e, s')) :
    (a >>= g) s = (.error e, s') := by
  rw [Act.bind_run, h]

theorem Act.outcome_ok {a : Act Unit} {s s' : State} (h : a s = (.ok (), s')) : a.outcome s = .next s' := by
  simp [Act.outcome, h]

theorem Act.outcome_done {a : Act Unit} {s s' : State} (h : a s = (.error .done, s')) : a.outcome s = .next s' := by
  simp [Act.outcome, h]

/-! ### Strands -/

@[simp] theorem State.strand_set (s : State) (u : Nat) (st : Strand) : (s.setStrand u st).strand? u = some st := by
  simp [State.strand?, State.setStrand]

theorem State.strand_set_other (s : State) {u v : Nat} (st : Strand) (h : u ≠ v) : (s.setStrand u st).strand? v = s.strand? v := by
  simp [State.strand?, State.setStrand, Sparse.get_put_other _ _ h]

@[simp] theorem State.set_set (s : State) (u : Nat) (a b : Strand) : (s.setStrand u a).setStrand u b = s.setStrand u b := by
  simp [State.setStrand]

theorem State.editStrand_eq (h : s.strand? u = some st) (g : Strand → Strand) : s.editStrand u g = s.setStrand u (g st) := by
  simp [State.editStrand, h]

@[simp] theorem State.edit_set (s : State) (u : Nat) (st : Strand) (g : Strand → Strand) :
    (s.setStrand u st).editStrand u g = s.setStrand u (g st) := by
  rw [State.editStrand_eq (State.strand_set s u st), State.set_set]

/-! ### The issuing strand, outside a region -/

theorem me_run (hc : s.cur = some u) : me s = (.ok u, s) := by simp [me, hc]

theorem self_run (hc : s.cur = some u) (hs : s.strand? u = some st) : self s = (.ok st, s) := by simp [self, hc, hs]

theorem editSelf_run (hc : s.cur = some u) (hs : s.strand? u = some st) (g : Strand → Strand) :
    editSelf g s = (.ok (), s.setStrand u (g st)) := by
  simp [editSelf, hc, State.editStrand_eq hs]

theorem inAccess_run (hc : s.cur = some u) (hs : s.strand? u = some st) (hr : st.region = none) : inAccess s = (.ok false, s) := by
  simp [inAccess, hc, hs, hr]

theorem thisPc_run (hc : s.cur = some u) (hs : s.strand? u = some st) (hr : st.region = none) : thisPc s = (.ok st.pc, s) := by
  simp [thisPc, Act.bind_run, self_run hc hs, inAccess_run hc hs hr]

theorem jumpTo_run (hc : s.cur = some u) (hs : s.strand? u = some st) (hr : st.region = none) (t : Word) :
    jumpTo t s = (.ok (), s.setStrand u (st.goes t)) := by
  simp [jumpTo, Act.bind_run, inAccess_run hc hs hr, editSelf_run hc hs, Strand.goes]

theorem noteSlow_run (hc : s.cur = some u) (hs : s.strand? u = some st) (hr : st.region = none) (b : Bool) :
    noteSlow b s = (.ok (), s.slowed u st b) := by
  cases b <;> simp [noteSlow, Act.bind_run, State.slowed, Strand.slowed, inAccess_run hc hs hr, editSelf_run hc hs]

@[simp] theorem State.slowed_cur (s : State) (u : Nat) (st : Strand) (b : Bool) : (s.slowed u st b).cur = s.cur := by
  cases b <;> simp [State.slowed]

theorem State.slowed_strand (hs : s.strand? u = some st) (b : Bool) : (s.slowed u st b).strand? u = some (st.slowed b) := by
  cases b <;> simp [State.slowed, Strand.slowed, hs]

@[simp] theorem State.slowed_set (s : State) (u : Nat) (st st' : Strand) (b : Bool) :
    (s.slowed u st b).setStrand u st' = s.setStrand u st' := by
  cases b <;> simp [State.slowed]

@[simp] theorem Strand.slowed_region (st : Strand) (b : Bool) : (st.slowed b).region = st.region := by cases b <;> rfl
@[simp] theorem Strand.slowed_x (st : Strand) (b : Bool) : (st.slowed b).x = st.x := by cases b <;> rfl
@[simp] theorem Strand.slowed_xFull (st : Strand) (b : Bool) : (st.slowed b).xFull = st.xFull := by cases b <;> rfl
@[simp] theorem Strand.slowed_pc (st : Strand) (b : Bool) : (st.slowed b).pc = st.pc := by cases b <;> rfl
@[simp] theorem Strand.slowed_core (st : Strand) (b : Bool) : (st.slowed b).core = st.core := by cases b <;> rfl

@[simp] theorem Strand.slowed_slowed (st : Strand) (a b : Bool) : (st.slowed a).slowed b = st.slowed (a || b) := by
  cases a <;> cases b <;> rfl

theorem State.slowed_slowed (s : State) (u : Nat) (st : Strand) (a b : Bool) :
    (s.slowed u st a).slowed u (st.slowed a) b = s.slowed u st (a || b) := by
  cases a <;> cases b <;> simp [State.slowed, Strand.slowed]

/-- A full x register is read. -/
theorem readX_run {r : Nat} (hc : s.cur = some u) (hs : s.strand? u = some st) (hr : st.region = none)
    (hf : st.xFull.getLsbD r = true) : readX r s = (.ok ((st.x[r]?).getD 0), s.slowed u st (slowX r)) := by
  simp [readX, Act.bind_run, Act.map_run, self_run hc hs, inAccess_run hc hs hr, noteSlow_run hc hs hr, hr, bit64, hf]

theorem State.giveX_eq (hs : s.strand? u = some st) (r : Nat) (v : Word) :
    s.giveX u false r v = s.setStrand u (st.gives r v) := by
  simp [State.giveX, State.editStrand_eq hs, Strand.gives]

theorem writeX_run (hc : s.cur = some u) (hs : s.strand? u = some st) (hr : st.region = none) (r : Nat) (v : Word) :
    writeX r v s = (.ok (), s.setStrand u (st.gives r v)) := by
  simp [writeX, Act.bind_run, me_run hc, inAccess_run hc hs hr, State.giveX_eq hs]

theorem popQueues_out (hr : st.region = none) : popQueues st = st := by simp [popQueues, hr]

/-- The issuing strand waits, outside a region. -/
theorem State.leave_set (hs : s.strand? u = some st) (x : SState) (a : Await) (why : Nat) :
    (s.setStrand u st).leave u x a why = s.leave u x a why := by
  have e1 : (s.setStrand u st).leavePosition u why = (s.leavePosition u why).setStrand u st := by
    simp only [State.leavePosition, State.strand_set, hs]
    rfl
  have e2 : (s.leavePosition u why).strand? u = some st := by
    simp only [State.leavePosition, hs]
    exact hs
  simp only [State.leave, e1, State.edit_set, State.editStrand_eq e2]
  rfl

theorem State.leave_strand (hs : s.strand? u = some st) (x : SState) (a : Await) (why : Nat) :
    (s.leave u x a why).strand? u =
      some { st with state := x, await := a, since := s.order, skip := 0, long := 0, issues := 0, queued := a.stand st.queued s.order } := by
  have e2 : (s.leavePosition u why).strand? u = some st := by
    simp only [State.leavePosition, hs]
    exact hs
  have e3 : (s.leavePosition u why).order = s.order := by
    simp only [State.leavePosition, hs]
    rfl
  simp only [State.leave, State.editStrand_eq e2, e3]
  exact State.strand_set ..

theorem State.leave_frame (hs : s.strand? u = some st) (x : SState) (a : Await) (why : Nat) :
    ∃ cs ss n, s.leave u x a why = { s with cores := cs, strands := ss, order := n } := by
  simp only [State.leave, State.leavePosition, hs, State.editStrand]
  split <;> exact ⟨_, _, _, rfl⟩

theorem park_run {α : Type} (hc : s.cur = some u) (hs : s.strand? u = some st) (hr : st.region = none) (a : Await) :
    (park a : Act α) s = (.error .done, s.leave u .parked a a.stall) := by
  have h : clearPopped st = st := by
    cases st
    simp only at hr
    subst hr
    rfl
  simp [park, Act.bind_run, me_run hc, inAccess_run hc hs hr, editSelf_run hc hs, h, State.leave_set hs]

theorem finish_run (hc : s.cur = some u) (hs : s.strand? u = some st) (hr : st.region = none) (f : Fields) :
    finish f s = (.ok (), s.setStrand u (st.done f)) := by
  have h1 : ({ st with ma := false } : Strand).region = none := hr
  simp [finish, Act.bind_run, editSelf_run hc hs, popQueues_out hr, Strand.done, Strand.goes,
    thisPc_run (s := s.setStrand u { st with ma := false }) (by simpa using hc) (State.strand_set ..) h1,
    jumpTo_run (s := s.setStrand u { st with ma := false }) (by simpa using hc) (State.strand_set ..) h1]

theorem guardOf_run (hc : s.cur = some u) (hs : s.strand? u = some st) (hr : st.region = none) (f : Fields) :
    guardOf f s = (.ok (Guard.eval f.guard st.lane0), s) := by
  simp [guardOf, Act.bind_run, self_run hc hs, inAccess_run hc hs hr]

/-- THE ISSUE of an instruction whose guard is true is its own effect. -/
theorem issue_run (h : Issues s u st f) (k : Klass) (body : Act Unit) : issue k f body s = body s := by
  simp [issue, Act.bind_run, self_run h.issuer h.strand, inAccess_run h.issuer h.strand h.outside, h.outside,
    guardOf_run h.issuer h.strand h.outside, h.guard]

theorem fixed_run (h : Issues s u st f) (k : Klass) (body : Act Unit) :
    fixed k f body s = (do body; finish f : Act Unit) s := by
  rw [fixed, issue_run h]

/-- An instruction whose guard is false moves the pc and nothing else (06 R150). -/
theorem issue_false (hc : s.cur = some u) (hs : s.strand? u = some st) (hr : st.region = none)
    (hg : Guard.eval f.guard st.lane0 = false) (k : Klass) (body : Act Unit) :
    issue k f body s = (.ok (), s.setStrand u (st.goes (st.pc + lenWord f))) := by
  simp [issue, Act.bind_run, self_run hc hs, inAccess_run hc hs hr, hr, guardOf_run hc hs hr, hg, thisPc_run hc hs hr,
    jumpTo_run hc hs hr]

end Sys2Proof.Machine
end

