-- ==== Sys2Proof/Laws/Memory.lean ====
section
/-!
SUPPORT. Memory: every write keeps the canonical form, a byte reads as what was last written to it, and the bytes outside a
write read as before.
-/

namespace Sys2Proof.Machine

namespace Memory

theorem wfFrom_mono {lo lo' : Nat} (h : lo' ≤ lo) : {m : List Host.Cell} → wfFrom lo m = true → wfFrom lo' m = true
  | [], _ => rfl
  | (k, v) :: m, hm => by
    simp only [wfFrom, Bool.and_eq_true, decide_eq_true_eq] at hm ⊢
    exact ⟨⟨le_trans h hm.1.1, hm.1.2⟩, hm.2⟩

theorem wfFrom_set (b : BitVec 8) {a : Nat} :
    {m : List Host.Cell} → {lo : Nat} → lo ≤ a → wfFrom lo m = true → wfFrom lo (set m a b) = true
  | [], lo, hlo, _ => by
    unfold set
    split
    · rfl
    · rename_i h
      simp [wfFrom, hlo, h]
  | (k, v) :: m, lo, hlo, hm => by
    simp only [wfFrom, Bool.and_eq_true, decide_eq_true_eq] at hm
    unfold set
    split
    · rename_i hak
      split
      · simp [wfFrom, hm]
      · rename_i hb
        have hk : a + 1 ≤ k := hak
        simp [wfFrom, hlo, hb, hk, hm]
    · rename_i hak
      split
      · rename_i hka
        split
        · exact wfFrom_mono (Nat.le_succ_of_le hm.1.1) hm.2
        · rename_i hb
          subst hka
          simp [wfFrom, hlo, hb, hm.2]
      · rename_i hka
        have : k + 1 ≤ a := by omega
        simp only [wfFrom, Bool.and_eq_true, decide_eq_true_eq]
        exact ⟨hm.1, wfFrom_set b this hm.2⟩

/-- A write keeps the canonical form. -/
theorem wf_set {m : List Host.Cell} (a : Nat) (b : BitVec 8) (h : wf m = true) : wf (set m a b) = true :=
  wfFrom_set b (Nat.zero_le a) h

theorem wf_setBytes (bs : List (BitVec 8)) : {m : List Host.Cell} → (a : Nat) → wf m = true → wf (setBytes m a bs) = true := by
  induction bs with
  | nil => exact fun _ h => h
  | cons b bs ih => exact fun a h => ih (a + 1) (wf_set a b h)

/-- Taking bytes away keeps it. -/
theorem wfFrom_filter (p : Host.Cell → Bool) :
    {m : List Host.Cell} → {lo : Nat} → wfFrom lo m = true → wfFrom lo (m.filter p) = true
  | [], _, _ => rfl
  | (k, v) :: m, lo, hm => by
    simp only [wfFrom, Bool.and_eq_true, decide_eq_true_eq] at hm
    have h := wfFrom_filter p hm.2
    by_cases hp : p (k, v) = true
    · simp [hp, wfFrom, hm.1, h]
    · simp only [List.filter_cons, hp]
      exact wfFrom_mono (Nat.le_succ_of_le hm.1.1) h

theorem wf_filter (p : Host.Cell → Bool) {m : List Host.Cell} (h : wf m = true) : wf (m.filter p) = true := wfFrom_filter p h

/-! ### What a byte reads as -/

theorem get_of_lt {m : List Host.Cell} {lo a : Nat} (hm : wfFrom lo m = true) (h : a < lo) : get m a = unlisted := by
  induction m generalizing lo with
  | nil => rfl
  | cons e m ih =>
    simp only [wfFrom, Bool.and_eq_true, decide_eq_true_eq] at hm
    have : e.1 ≠ a := by omega
    simp only [get, this, if_false]
    exact ih hm.2 (by omega)

theorem get_set_other (m : List Host.Cell) {a x : Nat} (b : BitVec 8) (h : a ≠ x) : get (set m a b) x = get m x := by
  induction m with
  | nil => unfold set; split <;> simp [get, h]
  | cons e m ih =>
    unfold set
    split
    · split <;> simp [get, h]
    · split
      · rename_i hk
        have : e.1 ≠ x := by omega
        split <;> simp [get, this, h]
      · simp only [get, ih]

theorem get_set_same_from {m : List Host.Cell} {lo : Nat} (a : Nat) (b : BitVec 8) (hm : wfFrom lo m = true) :
    get (set m a b) a = b := by
  induction m generalizing lo with
  | nil => unfold set; split <;> simp_all [get]
  | cons e m ih =>
    simp only [wfFrom, Bool.and_eq_true, decide_eq_true_eq] at hm
    unfold set
    split
    · rename_i hak
      split
      · rename_i hb
        have : e.1 ≠ a := by omega
        simp only [get, this, if_false, hb]
        exact get_of_lt hm.2 (by omega)
      · simp [get]
    · split
      · rename_i hk
        split
        · rename_i hb
          rw [hb]
          exact get_of_lt hm.2 (by omega)
        · simp [get]
      · rename_i hk
        simp only [get, hk, if_false]
        exact ih hm.2

/-- A byte reads as what was written to it. -/
theorem get_set_same {m : List Host.Cell} (a : Nat) (b : BitVec 8) (hm : wf m = true) : get (set m a b) a = b :=
  get_set_same_from a b hm

/-- The bytes below and above a write read as before. -/
theorem get_setBytes_other (bs : List (BitVec 8)) :
    (m : List Host.Cell) → (a x : Nat) → (x < a ∨ a + bs.length ≤ x) → get (setBytes m a bs) x = get m x := by
  induction bs with
  | nil => intro m a x _; rfl
  | cons b bs ih =>
    intro m a x h
    simp only [List.length_cons] at h
    simp only [setBytes]
    rw [ih (set m a b) (a + 1) x (by omega)]
    exact get_set_other m b (by omega)

theorem getBytes_setBytes_above (m : List Host.Cell) (a : Nat) (b : BitVec 8) (n : Nat) :
    (x : Nat) → a < x → getBytes (set m a b) x n = getBytes m x n := by
  induction n with
  | zero => intro x _; rfl
  | succ n ih =>
    intro x h
    simp only [getBytes, get_set_other m b (by omega : a ≠ x), ih (x + 1) (by omega)]

/-- A run of bytes reads as what was written to it. -/
theorem getBytes_setBytes (bs : List (BitVec 8)) :
    (m : List Host.Cell) → (a : Nat) → wf m = true → getBytes (setBytes m a bs) a bs.length = bs := by
  induction bs with
  | nil => intro m a _; rfl
  | cons b bs ih =>
    intro m a h
    simp only [setBytes, List.length_cons, getBytes]
    rw [get_setBytes_other bs _ _ _ (by omega), get_set_same a b h, ih _ _ (wf_set a b h)]

/-! ### Numbers in bytes -/

@[simp] theorem toBytes_length (n v : Nat) : (toBytes n v).length = n := by
  induction n generalizing v with
  | zero => rfl
  | succ n ih => simp [toBytes, ih]

theorem ofBytes_toBytes (n v : Nat) : ofBytes (toBytes n v) = v % 256 ^ n := by
  induction n generalizing v with
  | zero => simp [toBytes, ofBytes, Nat.mod_one]
  | succ n ih =>
    simp only [toBytes, ofBytes, ih, BitVec.toNat_ofNat, show (2 : Nat) ^ 8 = 256 from rfl]
    rw [Nat.pow_succ, Nat.mul_comm (256 ^ n), Nat.mod_mul]

end Memory

/-- A number that is stored is read back. -/
theorem State.load_store {s : State} (pa n v : Nat) (h : Memory.wf s.mem = true) : (s.store pa n v).load pa n = v % 256 ^ n := by
  have := Memory.getBytes_setBytes (Memory.toBytes n v) s.mem pa h
  rw [Memory.toBytes_length] at this
  simp only [State.load, State.store, this, Memory.ofBytes_toBytes]

/-- A store changes no byte outside its own. -/
theorem State.store_get_other (s : State) (pa n v x : Nat) (h : x < pa ∨ pa + n ≤ x) :
    Memory.get (s.store pa n v).mem x = Memory.get s.mem x :=
  Memory.get_setBytes_other _ _ _ _ (by simpa using h)

theorem State.store_wf {s : State} (pa n v : Nat) (h : Memory.wf s.mem = true) : Memory.wf (s.store pa n v).mem = true :=
  Memory.wf_setBytes _ _ h

theorem State.reset_wf : Memory.wf State.reset.mem = true := rfl

end Sys2Proof.Machine
end

