-- ==== Sys2Proof/Laws/Marks.lean ====
section
/-!
SUPPORT. Bits A and D of table entries: what setting them changes in memory, and that no walk comes to another leaf for it (04 R91 to R94).
-/

namespace Sys2Proof.Machine

/-! ### Bits of table entries -/

/-- The bytes of a run that is stored. -/
theorem Memory.get_setBytes_in (bs : List (BitVec 8)) : (m : List Host.Cell) → (a x : Nat) → Memory.wf m = true → a ≤ x → x < a + bs.length →
    Memory.get (Memory.setBytes m a bs) x = bs.getD (x - a) 0 := by
  induction bs with
  | nil => intro m a x _ h h'; simp at h'; omega
  | cons b bs ih =>
    intro m a x w h h'
    simp only [List.length_cons] at h'
    simp only [Memory.setBytes]
    by_cases e : x = a
    · subst e
      rw [Memory.get_setBytes_other _ _ _ _ (by omega), Memory.get_set_same _ _ w]
      simp
    · rw [ih _ _ _ (Memory.wf_set a b w) (by omega) (by omega)]
      have : x - a = (x - (a + 1)) + 1 := by omega
      rw [this]
      simp

theorem Memory.toBytes_getD (n : Nat) : (v i : Nat) → i < n → (Memory.toBytes n v).getD i 0 = BitVec.ofNat 8 (v / 256 ^ i) := by
  induction n with
  | zero => intro v i h; omega
  | succ n ih =>
    intro v i h
    cases i with
    | zero => simp [Memory.toBytes]
    | succ i =>
      simp only [Memory.toBytes, List.getD_cons_succ, ih (v / 256) i (by omega)]
      rw [Nat.div_div_eq_div_mul, Nat.pow_succ, Nat.mul_comm]

theorem Memory.ofBytes_get (m : List Host.Cell) (n : Nat) : (a i : Nat) → i < n →
    BitVec.ofNat 8 (Memory.ofBytes (Memory.getBytes m a n) / 256 ^ i) = Memory.get m (a + i) := by
  induction n with
  | zero => intro a i h; omega
  | succ n ih =>
    intro a i h
    simp only [Memory.getBytes, Memory.ofBytes]
    cases i with
    | zero =>
      apply BitVec.eq_of_toNat_eq
      simp only [Nat.pow_zero, Nat.div_one, BitVec.toNat_ofNat, Nat.add_zero]
      have := (Memory.get m a).isLt
      omega
    | succ i =>
      have e : (Memory.get m a).toNat + 256 * Memory.ofBytes (Memory.getBytes m (a + 1) n) = Memory.ofBytes (Memory.getBytes m (a + 1) n) * 256 + (Memory.get m a).toNat := by ring
      have d : ((Memory.get m a).toNat + 256 * Memory.ofBytes (Memory.getBytes m (a + 1) n)) / 256 ^ (i + 1) =
          Memory.ofBytes (Memory.getBytes m (a + 1) n) / 256 ^ i := by
        rw [Nat.pow_succ, Nat.mul_comm (256 ^ i), ← Nat.div_div_eq_div_mul]
        congr 1
        have := (Memory.get m a).isLt
        omega
      rw [d, ih (a + 1) i (by omega)]
      congr 1
      omega

theorem Memory.ofBytes_lt (l : List (BitVec 8)) : Memory.ofBytes l < 256 ^ l.length := by
  induction l with
  | nil => simp [Memory.ofBytes]
  | cons b l ih =>
    simp only [Memory.ofBytes, List.length_cons, Nat.pow_succ]
    have := b.isLt
    omega

theorem Memory.getBytes_length (m : List Host.Cell) (n : Nat) : (a : Nat) → (Memory.getBytes m a n).length = n := by
  induction n with
  | zero => intro a; rfl
  | succ n ih => intro a; simp [Memory.getBytes, ih]

/-- A byte of a word. -/
theorem byte_of_word (v : BitVec 64) (i : Nat) (_ : i < 8) : BitVec.ofNat 8 (v.toNat / 256 ^ i) = v.extractLsb' (8 * i) 8 := by
  apply BitVec.eq_of_toNat_eq
  simp only [BitVec.toNat_ofNat, BitVec.extractLsb'_toNat, Nat.shiftRight_eq_div_pow]
  rw [show (256 : Nat) = 2 ^ 8 from rfl, ← Nat.pow_mul]

theorem get_word (m : State) (a x : Nat) (h : a ≤ x) (h' : x < a + 8) : (m.word a).extractLsb' (8 * (x - a)) 8 = Memory.get m.mem x := by
  rw [← byte_of_word _ _ (by omega)]
  have hl : Memory.ofBytes (Memory.getBytes m.mem a 8) < 2 ^ 64 := by
    have := Memory.ofBytes_lt (Memory.getBytes m.mem a 8)
    rwa [Memory.getBytes_length] at this
  have e : (m.word a).toNat = Memory.ofBytes (Memory.getBytes m.mem a 8) := by
    simp only [State.word, State.load, BitVec.toNat_ofNat, Nat.mod_eq_of_lt hl]
  rw [e, Memory.ofBytes_get _ _ _ _ (by omega)]
  congr 1
  omega

/-! ### What setting a bit changes -/

/-- The bits that the walker sets (04 R91). -/
def IsMark (b : BitVec 64) : Prop := b = 0x80 ∨ b = 0x100

/-- A byte of an entry once a bit is set. -/
theorem mark_byte {b : BitVec 64} (hb : IsMark b) (v : BitVec 64) {i : Nat} (_ : i < 8) :
    (v ||| b).extractLsb' (8 * i) 8 = v.extractLsb' (8 * i) 8 ∨
    (i = 0 ∧ (v ||| b).extractLsb' (8 * i) 8 = v.extractLsb' (8 * i) 8 ||| 0x80) ∨
    (i = 1 ∧ (v ||| b).extractLsb' (8 * i) 8 = v.extractLsb' (8 * i) 8 ||| 0x01) := by
  rw [BitVec.extractLsb'_or]
  have z (x : BitVec 8) : x ||| 0 = x := by simp
  rcases hb with rfl | rfl <;> interval_cases i
  all_goals first
    | exact .inl (z _)
    | exact .inr (.inl ⟨rfl, rfl⟩)
    | exact .inr (.inr ⟨rfl, rfl⟩)

/-- SETTING A BIT of an entry changes D in its first byte, or A in its second, and no other byte. -/
theorem orEntry_get (s : State) (a : Nat) {b : BitVec 64} (hb : IsMark b) (h : Memory.wf s.mem = true) (x : Nat) :
    Memory.get (s.orEntry a b).mem x = Memory.get s.mem x ∨
    (x = entryAt a ∧ Memory.get (s.orEntry a b).mem x = Memory.get s.mem x ||| 0x80) ∨
    (x = entryAt a + 1 ∧ Memory.get (s.orEntry a b).mem x = Memory.get s.mem x ||| 0x01) := by
  have e : (s.orEntry a b).mem = Memory.setBytes s.mem (entryAt a) (Memory.toBytes 8 (s.word (entryAt a) ||| b).toNat) := rfl
  rw [e]
  by_cases hx : entryAt a ≤ x ∧ x < entryAt a + 8
  · have i8 : x - entryAt a < 8 := by omega
    rw [Memory.get_setBytes_in _ _ _ _ h hx.1 (by simpa using hx.2), Memory.toBytes_getD _ _ _ i8, byte_of_word _ _ i8, ← get_word s _ x hx.1 hx.2]
    rcases mark_byte hb (s.word (entryAt a)) i8 with q | ⟨p, q⟩ | ⟨p, q⟩
    · exact .inl q
    · exact .inr (.inl ⟨by omega, q⟩)
    · exact .inr (.inr ⟨by omega, q⟩)
  · exact .inl (Memory.get_setBytes_other _ _ _ _ (by simp; omega))

theorem entryAt_aligned (a : Nat) : entryAt a % 8 = 0 := by unfold entryAt; omega

/-- An aligned word once a bit of an entry is set: the entry has it, and others are as before. -/
theorem orEntry_word (s : State) (a : Nat) (b : BitVec 64) (h : Memory.wf s.mem = true) {x : Nat} (hx : x % 8 = 0) :
    (s.orEntry a b).word x = s.word x ∨ (s.orEntry a b).word x = s.word x ||| b := by
  by_cases e : x = entryAt a
  · subst e
    refine .inr ?_
    have := State.load_store (s := s) (entryAt a) 8 (s.word (entryAt a) ||| b).toNat h
    show BitVec.ofNat 64 ((s.store (entryAt a) 8 (s.word (entryAt a) ||| b).toNat).load (entryAt a) 8) = _
    rw [this]
    apply BitVec.eq_of_toNat_eq
    have := (s.word (entryAt a) ||| b).isLt
    simp only [BitVec.toNat_ofNat]
    omega
  · refine .inl ?_
    have same (n : Nat) : (y : Nat) → (y + n ≤ entryAt a ∨ entryAt a + 8 ≤ y) →
        Memory.getBytes (s.orEntry a b).mem y n = Memory.getBytes s.mem y n := by
      induction n with
      | zero => intro y _; rfl
      | succ n ih =>
        intro y hy
        simp only [Memory.getBytes]
        rw [ih (y + 1) (by omega), show Memory.get (s.orEntry a b).mem y = Memory.get s.mem y from
          s.store_get_other (entryAt a) 8 _ y (by omega)]
    have := entryAt_aligned a
    simp only [State.word, State.load, same 8 x (by omega)]

/-! ### Walks -/

/-- What a walk reads of an entry stays when A or D is set in it; an entry that points to a table then does not. -/
structure SameEntry (e e' : BitVec 64) : Prop where
  v : pteV e' = pteV e
  l : pteL e' = pteL e
  sz : pteSz e' = pteSz e
  frame : pteFrame e' = pteFrame e
  leaf : ∀ cap sz, leafOk cap e' sz = leafOk cap e sz
  pointer : pointerOk e' = true → pointerOk e = true

theorem SameEntry.rfl (e : BitVec 64) : SameEntry e e := ⟨.refl _, .refl _, .refl _, .refl _, fun _ _ => .refl _, id⟩

theorem field_or (e b : BitVec 64) (hi lo : Nat) : field (e ||| b) hi lo = field e hi lo ||| field b hi lo := by
  simp only [field, bitsOf, BitVec.toNat_or]
  apply Nat.eq_of_testBit_eq
  intro i
  simp only [Nat.testBit_mod_two_pow, Nat.testBit_shiftRight, Nat.testBit_or]
  cases decide (i < hi - lo + 1) <;> simp

theorem SameEntry.of_mark (e : BitVec 64) {b : BitVec 64} (hb : IsMark b) : SameEntry e (e ||| b) := by
  have bit (i : Nat) (h : b.getLsbD i = false) : (e ||| b).getLsbD i = e.getLsbD i := by simp [h]
  have fld (hi lo : Nat) (h : field b hi lo = 0) : field (e ||| b) hi lo = field e hi lo := by simp [field_or, h]
  have v : pteV (e ||| b) = pteV e := bit 0 (by rcases hb with rfl | rfl <;> decide)
  have l : pteL (e ||| b) = pteL e := bit 3 (by rcases hb with rfl | rfl <;> decide)
  have sz : pteSz (e ||| b) = pteSz e := fld 5 4 (by rcases hb with rfl | rfl <;> decide)
  have frame : pteFrame (e ||| b) = pteFrame e := by
    simp only [pteFrame, fld 51 12 (by rcases hb with rfl | rfl <;> decide)]
  refine ⟨v, l, sz, frame, fun cap n => ?_, fun h => ?_⟩
  · simp only [leafOk, sz, frame, fld 11 9 (by rcases hb with rfl | rfl <;> decide), bit 6 (by rcases hb with rfl | rfl <;> decide), pteRmap,
      pteMside, bit 61 (by rcases hb with rfl | rfl <;> decide), bit 62 (by rcases hb with rfl | rfl <;> decide)]
  · simp only [pointerOk, field_or, Bool.and_eq_true, beq_iff_eq, Nat.or_eq_zero_iff] at h ⊢
    exact ⟨h.1.1, h.2.1⟩

/-- Two states whose aligned words a walk reads alike. -/
def SameWords (s t : State) : Prop := t.tierCap = s.tierCap ∧ ∀ x, x % 8 = 0 → SameEntry (s.word x) (t.word x)

/-- The leaf that a walk of one of two states comes to is where the other's is. -/
def LeafIn (w w' : Walk) : Prop := ∀ e a n, w' = .leaf e a n → ∃ e', w = .leaf e' a n

theorem LeafIn.fail (w : Walk) (n : Nat) : LeafIn w (.fail n) := fun _ _ _ h => by cases h

variable {s t : State}

theorem walk4_same (h : SameWords s t) (table va : Nat) (ht : table % 8 = 0) : LeafIn (s.walk4 table va) (t.walk4 table va) := by
  intro e a n hl
  unfold State.walk4 at hl ⊢
  simp only at hl ⊢
  have b := h.2 (table + 8 * (bitsOf va 20 12 / 16 * 16)) (by omega)
  have c := h.2 (table + 8 * bitsOf va 20 12) (by omega)
  rw [b.v, b.l, b.sz, b.leaf, h.1, c.v, c.l, c.leaf] at hl
  split at hl <;> rename_i q
  · rw [if_pos q]
    split at hl <;> rename_i q2
    · simp only [Walk.leaf.injEq] at hl
      rw [← hl.2.1, ← hl.2.2]
      exact ⟨_, if_pos q2⟩
    · simp only [reduceCtorEq] at hl
  · rw [if_neg q]
    split at hl <;> rename_i q2
    · simp only [reduceCtorEq] at hl
    · rw [if_neg q2]
      split at hl <;> rename_i q3
      · simp only [Walk.leaf.injEq] at hl
        rw [← hl.2.1, ← hl.2.2]
        exact ⟨_, if_pos q3⟩
      · simp only [reduceCtorEq] at hl

theorem walkMid_same (h : SameWords s t) (level table idx sz : Nat) (ht : table % 8 = 0) {next next' : Nat → Walk}
    (hn : ∀ x, x % 8 = 0 → LeafIn (next x) (next' x)) : LeafIn (s.walkMid level table idx sz next) (t.walkMid level table idx sz next') := by
  intro e a n hl
  unfold State.walkMid at hl ⊢
  simp only at hl ⊢
  have c := h.2 (table + 8 * idx) (by omega)
  rw [c.v, c.l, c.leaf, c.frame, h.1] at hl
  split at hl <;> rename_i q
  · cases hl
  · rw [if_neg q]
    split at hl <;> rename_i q2
    · rw [if_pos q2]
      split at hl <;> rename_i q3
      · cases hl
        exact ⟨_, if_pos q3⟩
      · cases hl
    · rw [if_neg q2]
      split at hl <;> rename_i q3
      · rw [if_pos (c.pointer q3)]
        exact hn _ (by unfold pteFrame; omega) e a n hl
      · cases hl

/-- NO WALK COMES TO ANOTHER LEAF because A or D has been set. -/
theorem walk_same (h : SameWords s t) (root va : Nat) : LeafIn (s.walk root va) (t.walk root va) := by
  intro e a n hl
  unfold State.walk at hl ⊢
  simp only at hl ⊢
  have c := h.2 (tableAt root + 8 * bitsOf va 56 39) (by unfold tableAt; omega)
  rw [c.v, c.l, c.frame] at hl
  split at hl <;> rename_i q
  · cases hl
  · rw [if_neg q]
    split at hl <;> rename_i q2
    · cases hl
    · simp only [Bool.or_eq_true, Bool.not_eq_true', not_or, Bool.not_eq_true, Bool.not_eq_false] at q2
      rw [if_neg (by simp [c.pointer q2.2, q2.1])]
      exact walkMid_same h 2 _ _ 3 (by unfold pteFrame; omega) (fun x hx => walkMid_same h 3 _ _ 2 hx fun y hy => walk4_same h y va hy) e a n hl

theorem sameWords_orEntry (s : State) (a : Nat) {b : BitVec 64} (hb : IsMark b) (h : Memory.wf s.mem = true) : SameWords s (s.orEntry a b) := by
  refine ⟨rfl, fun x hx => ?_⟩
  rcases orEntry_word s a b h hx with e | e <;> rw [e]
  · exact .rfl _
  · exact .of_mark _ hb

/-! ### Where the leaves stand -/

theorem walk4_aligned {table va a n : Nat} {e : BitVec 64} (ht : table % 8 = 0) (h : s.walk4 table va = .leaf e a n) : a % 8 = 0 := by
  unfold State.walk4 at h
  simp only at h
  repeat' split at h
  all_goals first
    | exact absurd h (by simp only [reduceCtorEq, not_false_eq_true])
    | (simp only [Walk.leaf.injEq] at h; omega)

theorem walkMid_aligned {level table idx sz a n : Nat} {e : BitVec 64} {next : Nat → Walk} (ht : table % 8 = 0)
    (hn : ∀ x, x % 8 = 0 → next x = .leaf e a n → a % 8 = 0) (h : s.walkMid level table idx sz next = .leaf e a n) : a % 8 = 0 := by
  unfold State.walkMid at h
  simp only at h
  repeat' split at h
  · cases h
  · cases h; omega
  · cases h
  · exact hn _ (by unfold pteFrame; omega) h
  · cases h

theorem walk_aligned {root va a n : Nat} {e : BitVec 64} (h : s.walk root va = .leaf e a n) : a % 8 = 0 := by
  unfold State.walk at h
  simp only at h
  repeat' split at h
  · cases h
  · cases h
  · exact walkMid_aligned (by unfold pteFrame; omega) (fun x hx => walkMid_aligned hx fun y hy => walk4_aligned hy) h

theorem State.TableEntry.aligned {a : Nat} (h : s.TableEntry a) : a % 8 = 0 := by
  obtain ⟨_, e, _, rfl⟩ | ⟨_, _, _, _, _, _, h⟩ := h
  · exact entryAt_aligned _
  · exact walk_aligned h

end Sys2Proof.Machine
end

