-- ==== Sys2Proof/Laws/Traffic.lean ====
section
/-!
SUPPORT. What the memory system does of its own while an access is served: translation, tokens, L2 and the transactions of lines change
caches and the account of lines alone.
-/

namespace Sys2Proof.Machine

variable {s t r : State} {α : Type}

/-! ### The relation -/

theorem State.MarkedByte.trans {a : Nat} {x y z : BitVec 8} (h : s.MarkedByte a x y) (sub : ∀ a, t.TableEntry a → s.TableEntry a)
    (h' : t.MarkedByte a y z) : s.MarkedByte a x z := by
  have apart {e : Nat} (p : s.TableEntry a) (q : s.TableEntry e) (i : a = e + 1) : False := by
    have := p.aligned
    have := q.aligned
    omega
  have twice (v m : BitVec 8) : v ||| m ||| m = v ||| m := by rw [BitVec.or_assoc, BitVec.or_self]
  rcases h' with rfl | ⟨q, rfl⟩ | ⟨e, i, q, rfl⟩
  · exact h
  · rcases h with rfl | ⟨p, rfl⟩ | ⟨e, i, p, rfl⟩
    · exact .inr (.inl ⟨sub _ q, rfl⟩)
    · exact .inr (.inl ⟨p, twice ..⟩)
    · exact (apart (sub _ q) p i).elim
  · rcases h with rfl | ⟨p, rfl⟩ | ⟨e', i', p, rfl⟩
    · exact .inr (.inr ⟨e, i, sub _ q, rfl⟩)
    · exact (apart p (sub _ q) i).elim
    · exact .inr (.inr ⟨e', i', p, twice ..⟩)

theorem Traffic.refl (s : State) : Traffic s s := ⟨rfl, fun _ => rfl, rfl, fun h => ⟨h, fun _ h => h, fun _ => .inl rfl⟩⟩

theorem Traffic.trans (h : Traffic s t) (h' : Traffic t r) : Traffic s r where
  rest := h'.rest.trans h.rest
  cores c := (h'.cores c).trans (h.cores c)
  leaves := h'.leaves.trans h.leaves
  mem w :=
    have ⟨w1, e1, m1⟩ := h.mem w
    have ⟨w2, e2, m2⟩ := h'.mem w1
    ⟨w2, fun a q => e1 a (e2 a q), fun a => (m1 a).trans e1 (m2 a)⟩

theorem Traffic.foldl {l : List α} {g : State → α → State} (h : ∀ s x, Traffic s (g s x)) (s : State) : Traffic s (l.foldl g s) := by
  induction l generalizing s with
  | nil => exact refl s
  | cons x l ih => exact (h s x).trans (ih _)

theorem Traffic.strands (h : Traffic s t) : t.strands = s.strands := show t.bare.strands = s.bare.strands by rw [h.rest]
theorem Traffic.strand (h : Traffic s t) (u : Nat) : t.strand? u = s.strand? u := by simp [State.strand?, h.strands]
theorem Traffic.cur (h : Traffic s t) : t.cur = s.cur := show t.bare.cur = s.bare.cur by rw [h.rest]
theorem Traffic.ctx (h : Traffic s t) (n : Nat) : t.ctx? n = s.ctx? n := show t.bare.ctx? n = s.bare.ctx? n by rw [h.rest]
theorem Traffic.waiters (h : Traffic s t) : t.waiters = s.waiters := show t.bare.waiters = s.bare.waiters by rw [h.rest]
theorem Traffic.tierDown (h : Traffic s t) (pa : Nat) : t.tierDown pa = s.tierDown pa := show t.bare.tierDown pa = s.bare.tierDown pa by rw [h.rest]

/-- No table entry is there that was not, where caches hold no others and walks come to the same leaves. -/
theorem entries_of (hx : ∀ n, t.ctx? n = s.ctx? n) (hc : ∀ c, ∀ e ∈ (t.core c).entries ++ t.boardList c, s.TableEntry (entryAt e.at_))
    (hw : SameWords s t) (a : Nat) (h : t.TableEntry a) : s.TableEntry a := by
  obtain ⟨c, e, m, rfl⟩ | ⟨n, c, va, e, bits, p, q⟩ := h
  · exact hc c e m
  · obtain ⟨e', q'⟩ := walk_same hw _ _ _ _ _ q
    exact .inr ⟨n, c, va, e', bits, hx n ▸ p, q'⟩

theorem cached {c : Nat} {e : TlbEntry} (h : e ∈ (s.core c).entries ++ s.boardList c) : s.TableEntry (entryAt e.at_) := .inl ⟨c, e, h, rfl⟩

theorem sameWords_of_mem (h : t.bare = s.bare) (hm : t.mem = s.mem) : SameWords s t :=
  ⟨show t.bare.tierCap = s.bare.tierCap by rw [h], fun x _ => by
    rw [show t.word x = s.word x by simp only [State.word, State.load, hm]]
    exact .rfl _⟩

/-- Memory stays, and no translation is cached that was not. -/
theorem mem_of (h : t.bare = s.bare) (hm : t.mem = s.mem)
    (hc : ∀ c, ∀ e ∈ (t.core c).entries ++ t.boardList c, s.TableEntry (entryAt e.at_)) (w : Memory.wf s.mem = true) :
    Memory.wf t.mem = true ∧ (∀ a, t.TableEntry a → s.TableEntry a) ∧ ∀ a, s.MarkedByte a (Memory.get s.mem a) (Memory.get t.mem a) :=
  ⟨by rwa [hm], entries_of (fun n => show t.bare.ctx? n = s.bare.ctx? n by rw [h]) hc (sameWords_of_mem h hm), fun a => .inl (by rw [hm])⟩

/-- An update of a strand on both sides. -/
theorem Traffic.setStrand (h : Traffic s t) (u : Nat) (st : Strand) : Traffic (s.setStrand u st) (t.setStrand u st) where
  rest := show (t.bare.setStrand u st) = (s.bare.setStrand u st) by rw [h.rest]
  cores := h.cores
  leaves := h.leaves
  mem := h.mem

/-- An update that touches neither memory, nor cores, nor partitions, nor anything that the memory system does not change. -/
theorem traffic_of (h : t.bare = s.bare) (hc : t.cores = s.cores) (hl : t.leaves = s.leaves) (hm : t.mem = s.mem)
    (hb : t.boardTlb = s.boardTlb := by rfl) : Traffic s t where
  rest := h
  cores c := by simp only [State.core, hc]
  leaves := by rw [hl]
  mem := mem_of h hm fun c e m => cached (c := c) (by simpa only [State.core, State.boardList, hc, hb] using m)

@[simp] theorem core_editCore_same (s : State) (c : Nat) (g : Core → Core) : (s.editCore c g).core c = g (s.core c) := by
  simp [State.editCore, State.setCore, State.core]

theorem core_editCore_other (s : State) {c d : Nat} (g : Core → Core) (h : c ≠ d) : (s.editCore c g).core d = s.core d := by
  simp only [State.editCore, State.setCore, State.core, Sparse.get_put_other _ _ h]

/-- A core changes in its caches, which get no translation that no table entry of the state backs. -/
theorem traffic_editCore' (s : State) (c : Nat) {g : Core → Core} (h : (g (s.core c)).bare = (s.core c).bare)
    (he : ∀ e ∈ (g (s.core c)).entries, s.TableEntry (entryAt e.at_)) : Traffic s (s.editCore c g) where
  rest := rfl
  cores d := by
    by_cases e : c = d
    · subst e
      rw [core_editCore_same, h]
    · rw [core_editCore_other s g e]
  leaves := rfl
  mem := mem_of rfl rfl fun d e m => by
    rcases List.mem_append.1 m with m | m
    · by_cases q : c = d
      · subst q
        rw [core_editCore_same] at m
        exact he e m
      · rw [core_editCore_other s g q] at m
        exact cached (List.mem_append_left _ m)
    · exact cached (c := d) (List.mem_append_right _ m)

theorem traffic_editCore (s : State) (c : Nat) {g : Core → Core} (h : ∀ k, (g k).bare = k.bare)
    (he : ∀ k, (g k).entries = k.entries := by intro; rfl) : Traffic s (s.editCore c g) :=
  traffic_editCore' s c (h _) fun _ m => cached (List.mem_append_left _ (he _ ▸ m))

/-- The memory system's own work that leaves memory as it is. -/
structure Calm (s t : State) : Prop extends Traffic s t where
  still : t.mem = s.mem

theorem Calm.refl (s : State) : Calm s s := ⟨.refl s, rfl⟩
theorem Calm.trans (h : Calm s t) (h' : Calm t r) : Calm s r := ⟨h.toTraffic.trans h'.toTraffic, h'.still.trans h.still⟩

theorem Calm.foldl {l : List α} {g : State → α → State} (h : ∀ s x, Calm s (g s x)) (s : State) : Calm s (l.foldl g s) := by
  induction l generalizing s with
  | nil => exact refl s
  | cons x l ih => exact (h s x).trans (ih _)

theorem calm_of (h : t.bare = s.bare) (hc : t.cores = s.cores) (hl : t.leaves = s.leaves) (hm : t.mem = s.mem)
    (hb : t.boardTlb = s.boardTlb := by rfl) : Calm s t :=
  ⟨traffic_of h hc hl hm hb, hm⟩

theorem calm_editCore (s : State) (c : Nat) {g : Core → Core} (h : ∀ k, (g k).bare = k.bare)
    (he : ∀ k, (g k).entries = k.entries := by intro; rfl) : Calm s (s.editCore c g) :=
  ⟨traffic_editCore s c h he, rfl⟩

/-- Setting A or D in a table entry. -/
theorem traffic_orEntry (s : State) (a : Nat) {b : BitVec 64} (hb : IsMark b) (ha : s.TableEntry (entryAt a)) : Traffic s (s.orEntry a b) where
  rest := rfl
  cores _ := rfl
  leaves := rfl
  mem h := by
    refine ⟨Memory.wf_setBytes _ _ h, entries_of (fun _ => rfl) (fun c e m => cached (c := c) m) (sameWords_orEntry s a hb h), fun x => ?_⟩
    rcases orEntry_get s a hb h x with q | ⟨rfl, q⟩ | ⟨p, q⟩
    · exact .inl q
    · exact .inr (.inl ⟨ha, q⟩)
    · exact .inr (.inr ⟨_, p, ha, q⟩)

/-! ### L2 and tokens -/

theorem calm_touchL2 (s : State) (ctx tid line : Nat) : Calm s (s.touchL2 ctx tid line) := by
  unfold State.touchL2
  simp only
  split
  · exact calm_of rfl rfl rfl rfl
  · split
    · exact calm_of rfl rfl rfl rfl
    · split
      · exact .refl s
      · exact calm_of rfl rfl rfl rfl

theorem calm_keepTokens (s : State) (who : Requester) (ctx : Nat) (l : List Nat) : Calm s (s.keepTokens who ctx l) :=
  calm_of rfl rfl rfl rfl

theorem calm_takeToken {who : Requester} {ctx port : Nat} (h : s.takeToken who ctx port = some t) : Calm s t := by
  unfold State.takeToken at h
  simp only at h
  split at h
  · cases h
    exact calm_of rfl rfl rfl rfl
  · split at h
    · cases h
    · simp only [Option.map_eq_some_iff] at h
      obtain ⟨c, -, rfl⟩ := h
      exact calm_of rfl rfl rfl rfl

theorem calm_takeTokens_go (who : Requester) (ctx : Nat) (l : List Nat) (got : List Nat) (s : State) :
    Calm s (State.takeTokens.go who ctx s got l).2 := by
  induction l generalizing s got with
  | nil => exact .refl s
  | cons p l ih =>
    unfold State.takeTokens.go
    split
    · rename_i e
      exact (calm_takeToken e).trans (ih ..)
    · exact calm_keepTokens ..

theorem calm_takeTokens (s : State) (who : Requester) (ctx : Nat) (l : List Nat) : Calm s (s.takeTokens who ctx l).2 := by
  unfold State.takeTokens
  split
  · exact calm_takeTokens_go ..
  · exact .refl s

/-! ### Copies and their account -/

theorem calm_countProbe (s : State) (c : Nat) : Calm s (s.countProbe c) where
  still := rfl
  rest := rfl
  cores _ := rfl
  leaves := by
    simp only [State.countProbe, List.map_map]
    refine List.map_congr_left fun l _ => ?_
    simp only [Function.comp]
    split <;> rfl
  mem := mem_of rfl rfl fun c _ m => cached (c := c) m

theorem calm_putDir (s : State) (l b : Nat) (e : DirEntry) : Calm s (s.putDir l b e) := by
  unfold State.putDir
  split <;> exact calm_of rfl rfl rfl rfl

theorem calm_setAgent (s : State) (l : Nat) (a : AgentEntry) : Calm s (s.setAgent l a) := by
  unfold State.setAgent
  split <;> exact calm_of rfl rfl rfl rfl

theorem calm_setDir (s : State) (l b : Nat) (e : DirEntry) : Calm s (s.setDir l b e) := (calm_putDir ..).trans (calm_setAgent ..)
theorem calm_send (s : State) (l c : Nat) (k : MsgKind) : Calm s (s.send l c k) := calm_of rfl rfl rfl rfl

theorem calm_sendBackInv (s : State) (l : Nat) : Calm s (s.sendBackInv l) := by
  unfold State.sendBackInv
  split
  · exact .refl s
  · exact calm_of rfl rfl rfl rfl

theorem calm_stampWords (s : State) (u l : Nat) (ph : BitVec 16) (pa n : Nat) : Calm s (s.stampWords u l ph pa n) := by
  unfold State.stampWords
  split
  · exact .refl s
  · exact calm_of rfl rfl rfl rfl

theorem calm_predict (s : State) (c pa : Nat) : Calm s (s.predict c pa) := calm_of rfl rfl rfl rfl
theorem calm_setL1 (s : State) (c l : Nat) (x : L1Line) : Calm s (s.setL1 c l x) := calm_editCore _ _ fun _ => rfl
theorem calm_editMshr (s : State) (c l : Nat) (g : Option Mshr → Option Mshr) : Calm s (s.editMshr c l g) :=
  calm_editCore _ _ fun _ => rfl

theorem calm_dropCopy (s : State) (c l : Nat) : Calm s (s.dropCopy c l) := by
  unfold State.dropCopy
  split
  · split
    · exact .refl s
    · exact calm_editCore _ _ fun _ => rfl
  · exact .refl s

theorem calm_probe (s : State) (leaf : Option Nat) (l c : Nat) : Calm s (s.probe leaf l c) := by
  unfold State.probe
  split
  · exact calm_countProbe ..
  · exact calm_dropCopy ..

theorem calm_downgrade (s : State) (leaf : Option Nat) (l b : Nat) : Calm s (s.downgrade leaf l b) := by
  unfold State.downgrade
  split
  · exact .refl s
  · split
    · exact .refl s
    · split
      · exact (calm_countProbe ..).trans (calm_setDir ..)
      · split
        · split
          · exact (calm_setL1 ..).trans (calm_setDir ..)
          · exact (calm_setL1 ..).trans (calm_setDir ..)
        · exact calm_setDir ..

theorem calm_keepOld (s : State) (l : Nat) : Calm s (s.keepOld l) := by
  unfold State.keepOld
  split
  · exact .refl s
  · exact calm_of rfl rfl rfl rfl

theorem calm_sliceCurrent (s : State) (l : Nat) : Calm s (s.sliceCurrent l) := by
  unfold State.sliceCurrent
  split
  · exact calm_of rfl rfl rfl rfl
  · exact .refl s

theorem calm_invalidateAll (s : State) (leaf : Option Nat) (l : Nat) : Calm s (s.invalidateAll leaf l) := by
  unfold State.invalidateAll
  exact (calm_sliceCurrent s l).trans ((Calm.foldl (fun t c => calm_probe t _ l c) _).trans (Calm.foldl (fun t b => calm_setDir t l b _) _))

theorem calm_cleanOwner (s : State) (leaf : Option Nat) (l : Nat) : Calm s (s.cleanOwner leaf l) := by
  unfold State.cleanOwner
  refine Calm.foldl (fun t b => ?_) s
  split
  · split
    · split
      · split
        · exact .refl t
        · split
          · exact calm_countProbe ..
          · split
            · exact (calm_sliceCurrent ..).trans ((calm_setL1 ..).trans (calm_setDir ..))
            · exact (calm_sliceCurrent ..).trans ((calm_setL1 ..).trans (calm_setDir ..))
      · exact .refl t
    · exact .refl t
  · exact .refl t

theorem calm_swmFill (s : State) (c l : Nat) : Calm s (s.swmFill c l) := by
  unfold State.swmFill
  split
  · exact .refl s
  · exact calm_setL1 ..

theorem calm_swmWrite (s : State) (c pa : Nat) (bs : List (BitVec 8)) (w : Nat × Nat × BitVec 64) : Calm s (s.swmWrite c pa bs w) := calm_setL1 ..

/-! ### Messages -/

theorem calm_homeGetS (s : State) (l c : Nat) : Calm s (s.homeGetS l c) := by
  unfold State.homeGetS
  simp only
  split
  · exact calm_send ..
  · split
    · exact (calm_setDir ..).trans (calm_send ..)
    · exact (calm_setDir ..).trans (calm_send ..)

theorem calm_expectAcks (s : State) (l c : Nat) (ts : List Nat) : Calm s (s.expectAcks l c ts) := by
  unfold State.expectAcks
  refine Calm.foldl (fun t b => ?_) s
  simp only
  split
  · exact .refl t
  · exact calm_of rfl rfl rfl rfl

theorem calm_homeGetM (s : State) (l c : Nat) (up : Bool) : Calm s (s.homeGetM l c up) := by
  unfold State.homeGetM
  simp only
  refine ((calm_expectAcks s l c (s.sharersProbed l c)).trans
    (Calm.foldl (l := s.sharersProbed l c) (fun t x => calm_send t l x (.inv c)) (s.expectAcks l c (s.sharersProbed l c)))).trans ?_
  generalize List.foldl _ (s.expectAcks l c (s.sharersProbed l c)) (s.sharersProbed l c) = s1
  refine Calm.trans ?_ ((calm_send _ l c (.ackCount (s.sharersProbed l c).length)).trans
    ((Calm.foldl (fun t b => calm_setDir t l b _) _).trans (calm_setDir ..)))
  split
  · split
    · exact calm_send ..
    · exact calm_send ..
  · split <;> split
    all_goals first | exact calm_send .. | exact .refl _

theorem calm_homePut (s : State) (l c : Nat) (o : Bool) : Calm s (s.homePut l c o) := by
  unfold State.homePut
  simp only
  split
  · exact calm_send ..
  · split
    · split
      · exact calm_send ..
      · split
        · split
          · exact ((calm_sliceCurrent ..).trans (calm_setDir ..)).trans (calm_send ..)
          · exact calm_send ..
        · exact calm_send ..
    · split
      · exact calm_send ..
      · split
        · split
          · exact (calm_setDir ..).trans (calm_send ..)
          · exact calm_send ..
        · exact calm_send ..

theorem calm_ackInv (s : State) (l c q : Nat) : Calm s (s.ackInv l c q) := by
  unfold State.ackInv
  split <;> exact calm_send ..

theorem calm_countAck (s : State) (l c q : Nat) : Calm s (s.countAck l c q) := by
  unfold State.countAck
  simp only
  split
  · exact .refl s
  · split
    · exact calm_of rfl rfl rfl rfl
    · exact calm_of rfl rfl rfl rfl

theorem calm_coreInv (s : State) (l c q : Nat) : Calm s (s.coreInv l c q) := (calm_dropCopy ..).trans (calm_ackInv ..)
theorem calm_routerInv (s : State) (l c q : Nat) : Calm s (s.routerInv l c q) := (calm_countProbe ..).trans (calm_ackInv ..)
theorem calm_setOwner (s : State) (l b : Nat) (o : Option (Nat × Moesi)) : Calm s (s.setOwner l b o) := calm_setDir ..
theorem calm_addSharer (s : State) (l c : Nat) : Calm s (s.addSharer l c) := calm_setDir ..

theorem calm_routerFwd (s : State) (l c q : Nat) (rd : Bool) : Calm s (s.routerFwd l c q rd) := by
  unfold State.routerFwd
  simp only
  split
  · exact (calm_countProbe ..).trans ((calm_setOwner ..).trans ((calm_addSharer ..).trans (calm_send ..)))
  · exact (calm_countProbe ..).trans (calm_send ..)

theorem calm_setL1State (s : State) (c l : Nat) (m : Moesi) : Calm s (s.setL1State c l m) := by
  unfold State.setL1State
  split
  · exact calm_setL1 ..
  · exact .refl s

theorem calm_coreFwdGetS (s : State) (l c q : Nat) : Calm s (s.coreFwdGetS l c q) := by
  unfold State.coreFwdGetS
  simp only
  split
  · exact (calm_send ..).trans ((calm_setL1State ..).trans ((calm_setOwner ..).trans (calm_addSharer ..)))
  · exact (calm_send ..).trans ((calm_setL1State ..).trans ((calm_setOwner ..).trans ((calm_addSharer ..).trans
      (calm_addSharer ..))))

theorem calm_coreFwdGetM (s : State) (l c q : Nat) : Calm s (s.coreFwdGetM l c q) := (calm_dropCopy ..).trans (calm_send ..)

theorem calm_finishRequest (s : State) (l c : Nat) : Calm s (s.finishRequest l c) := by
  unfold State.finishRequest
  split
  · exact .refl s
  · simp only
    repeat' split
    all_goals first
      | exact .refl s
      | exact ((calm_editMshr ..).trans (calm_setL1 ..)).trans (calm_editCore _ _ fun _ => rfl)
      | exact (calm_editMshr ..).trans (calm_setL1 ..)

theorem calm_response (s : State) (l c : Nat) (k : MsgKind) : Calm s (s.response l c k) := by
  unfold State.response
  simp only
  split
  all_goals first | exact (calm_editMshr ..).trans (calm_finishRequest ..) | exact .refl s

theorem calm_deliverMsg (s : State) (m : CohMsg) : Calm s (s.deliverMsg m) := by
  unfold State.deliverMsg
  split
  · exact calm_homeGetS ..
  · exact calm_homeGetM ..
  · exact calm_homeGetM ..
  · exact calm_homePut ..
  · exact calm_homePut ..
  · split
    · exact calm_routerInv ..
    · exact calm_coreInv ..
  · split
    · exact calm_routerFwd ..
    · exact calm_coreFwdGetS ..
  · split
    · exact calm_routerFwd ..
    · exact calm_coreFwdGetM ..
  · exact calm_editMshr ..
  · exact calm_countAck ..
  · exact calm_response ..

theorem calm_takeRequest (s : State) (m : CohMsg) : Calm s (s.takeRequest m) := by
  unfold State.takeRequest
  split
  · exact .refl s
  · split
    · exact calm_sendBackInv ..
    · exact (calm_of rfl rfl rfl rfl : Calm s { s with msgs := s.msgs.erase m }).trans (calm_deliverMsg ..)

theorem calm_settleLine (l : Nat) (o : Option Nat) (n : Nat) (s : State) : Calm s (s.settleLine l o n) := by
  induction n generalizing s with
  | zero => exact .refl s
  | succ n ih =>
    unfold State.settleLine
    split
    · rename_i m _
      exact (calm_of rfl rfl rfl rfl : Calm s { s with msgs := s.msgs.erase m }).trans ((calm_deliverMsg ..).trans (ih _))
    · split
      · exact .refl s
      · simp only
        split
        · exact calm_takeRequest ..
        · exact (calm_takeRequest ..).trans (ih _)

theorem calm_settleFor (s : State) (o : Option Nat) (l : Nat) : Calm s (s.settleFor o l) := by
  unfold State.settleFor
  split
  · exact calm_settleLine ..
  · exact .refl s

/-- SETTLING a line is the memory system's own work. -/
theorem calm_settle (s : State) (l : Nat) : Calm s (s.settle l) := calm_settleFor ..

theorem calm_dropRequest (s : State) (c l : Nat) : Calm s (s.dropRequest c l) := by
  unfold State.dropRequest
  exact (calm_of rfl rfl rfl rfl : Calm s { s with msgs := s.msgs.filter fun m => !(m.line == l && m.core == c && m.kind.isRequest) }).trans
    (calm_editMshr ..)

/-- A TRANSACTION OF A LINE, from the request of a core to its end, is the memory system's own work. -/
theorem calm_acquire (s : State) (c l : Nat) (k : MsgKind) : Calm s (s.acquire c l k) := by
  unfold State.acquire
  exact (calm_dropRequest ..).trans ((calm_editMshr ..).trans ((calm_deliverMsg ..).trans (calm_settle ..)))

theorem calm_getS (s : State) (c l : Nat) : Calm s (s.getS c l) := by
  unfold State.getS
  split
  · exact .refl s
  · exact calm_acquire ..

theorem calm_getM (s : State) (c l : Nat) : Calm s (s.getM c l) := by
  unfold State.getM
  refine Calm.trans ?_ (calm_keepOld ..)
  split
  · exact calm_acquire ..
  · split
    · exact .refl s
    · split
      · exact calm_setL1 ..
      · exact calm_acquire ..

theorem calm_touchFor (s : State) (ctx : Nat) (a : Ask) : Calm s (s.touchFor ctx a) := by
  unfold State.touchFor
  split
  · split
    · exact .refl s
    · exact calm_touchL2 ..
  · exact .refl s

theorem calm_keepIf (s : State) (who : Requester) (ctx : Nat) (l : List Nat) :
    Calm s (if s.hasBucket ctx then s.keepTokens who ctx l else s) := by
  split
  · exact calm_keepTokens ..
  · exact .refl s

/-- A REQUEST AT ITS HOMES is the memory system's own work, whether it goes on or waits. -/
theorem calm_askHome (s : State) (who : Requester) (ctx : Nat) (l : List Ask) (w : Bool) : Calm s (s.askHome who ctx l w).2 := by
  unfold State.askHome
  have h := calm_takeTokens s who ctx (asked l)
  split <;> rename_i e <;> rw [e] at h
  · exact h
  · rename_i s1
    have h2 := h.trans (Calm.foldl (l := l) (fun t a => calm_settleFor t (t.asksFor who) a.line) s1)
    simp only
    split
    · exact h2.trans (calm_keepIf ..)
    · split
      · exact h2.trans ((calm_sendBackInv ..).trans (calm_keepIf ..))
      · exact h2.trans (Calm.foldl (fun t a => calm_touchFor t ctx a) _)

theorem calm_askEach (l : List (Requester × Nat × List Ask × Bool)) (s : State) : Calm s (s.askEach l).2 := by
  induction l generalizing s with
  | nil => exact .refl s
  | cons a l ih =>
    obtain ⟨who, ctx, asks, w⟩ := a
    unfold State.askEach
    have h := calm_askHome s who ctx asks w
    split <;> rename_i e <;> rw [e] at h
    · exact h
    · rename_i s1
      have h2 := h.trans (ih s1)
      split <;> rename_i e2 <;> rw [e2] at h2
      · exact h2
      · exact h2.trans (calm_keepIf ..)

/-! ### Translation -/

theorem Core.editEngine_bare (k : Core) (e : Nat) (g : Engine → Engine) (h : ∀ x, (g x).bare = x.bare) :
    (k.editEngine e g).bare = k.bare := by
  unfold Core.editEngine
  split <;> simp only [Core.bare, h]

theorem Core.editTlb_bare (k : Core) (id : TlbId) (g : List TlbEntry → List TlbEntry) : (k.editTlb id g).bare = k.bare := by
  cases id with
  | data => rfl
  | instr => rfl
  | engine e => exact Core.editEngine_bare _ _ _ fun _ => rfl

/-- A translation that a core caches after a change of one cache was there, or is one of the changed cache. -/
theorem Core.editTlb_entries {k : Core} {id : TlbId} {g : List TlbEntry → List TlbEntry} {e : TlbEntry} (h : e ∈ (k.editTlb id g).entries) :
    e ∈ k.entries ∨ e ∈ g (k.tlbOf id) := by
  cases id with
  | data => simp only [Core.entries, Core.editTlb, Core.tlbOf, List.mem_append] at h ⊢; tauto
  | instr => simp only [Core.entries, Core.editTlb, Core.tlbOf, List.mem_append] at h ⊢; tauto
  | engine n =>
    simp only [Core.entries, Core.editTlb, Core.tlbOf, Core.editEngine, Core.engine] at h ⊢
    split at h <;> rename_i q <;> simp only [q, if_true, if_false, List.mem_append] at h ⊢ <;> tauto

theorem Core.tlbOf_entries {k : Core} {id : TlbId} {e : TlbEntry} (h : e ∈ k.tlbOf id) : e ∈ k.entries := by
  cases id with
  | data => simp only [Core.entries, Core.tlbOf, List.mem_append] at h ⊢; tauto
  | instr => simp only [Core.entries, Core.tlbOf, List.mem_append] at h ⊢; tauto
  | engine n =>
    simp only [Core.entries, Core.tlbOf, Core.engine] at h ⊢
    split at h <;> simp only [List.mem_append] <;> tauto

theorem mem_tlbAdd {size now : Nat} {t e : TlbEntry} {l : List TlbEntry} (h : e ∈ tlbAdd size now t l) : e = t ∨ e ∈ l := by
  unfold tlbAdd at h
  simp only [List.mem_cons] at h
  rcases h with h | h
  · exact .inl h
  · split at h
    · exact .inr (List.mem_of_mem_filter h)
    · exact .inr (List.mem_of_mem_filter (List.mem_of_mem_eraseIdx h))

/-- A cache of the board changes, and gets no translation that no table entry of the state backs. -/
theorem traffic_board (s : State) (core : Nat) (l : List TlbEntry) (h : ∀ e ∈ l, s.TableEntry (entryAt e.at_)) :
    Traffic s { s with boardTlb := Sparse.put s.boardTlb (boardOf core) l } where
  rest := rfl
  cores _ := rfl
  leaves := rfl
  mem := mem_of rfl rfl fun c e m => by
    rcases List.mem_append.1 m with m | m
    · exact cached (List.mem_append_left _ m)
    · simp only [State.boardList] at m
      by_cases q : boardOf core = boardOf c
      · rw [← q, Sparse.get_put_same] at m
        exact h e m
      · rw [Sparse.get_put_other _ _ q] at m
        exact cached (c := c) (List.mem_append_right _ m)

theorem traffic_tlbKeep (s : State) (core : Nat) (id : TlbId) (e : TlbEntry) (h : s.TableEntry (entryAt e.at_)) :
    Traffic s (s.tlbKeep core id e) :=
  traffic_editCore' _ _ (Core.editTlb_bare ..) fun x m => by
    rcases Core.editTlb_entries m with m | m
    · exact cached (List.mem_append_left _ m)
    · rcases mem_tlbAdd m with rfl | m
      · exact h
      · exact cached (List.mem_append_left _ (Core.tlbOf_entries m))

/-- A translation enters caches: the table entry that it is of is one still. -/
theorem entry_tlbKeep {core : Nat} {id : TlbId} {e : TlbEntry} {a : Nat} (h : s.TableEntry (entryAt a)) (he : e.at_ = a) :
    (s.tlbKeep core id e).TableEntry (entryAt a) := by
  refine .inl ⟨core, e, List.mem_append_left _ ?_, by rw [he]⟩
  have m (size now : Nat) (l : List TlbEntry) : e ∈ tlbAdd size now e l := by unfold tlbAdd; exact List.mem_cons_self ..
  unfold State.tlbKeep
  rw [core_editCore_same]
  cases id with
  | data => simp only [Core.entries, Core.editTlb, List.mem_append]; exact .inl (.inl (.inl (m ..)))
  | instr => simp only [Core.entries, Core.editTlb, List.mem_append]; exact .inl (.inl (.inr (m ..)))
  | engine n =>
    simp only [Core.entries, Core.editTlb, Core.editEngine]
    split <;> simp only [List.mem_append]
    · exact .inl (.inr (m ..))
    · exact .inr (m ..)

theorem traffic_tlbFill (s : State) (core : Nat) (id : TlbId) (e : TlbEntry) (h : s.TableEntry (entryAt e.at_)) :
    Traffic s (s.tlbFill core id e) :=
  (traffic_tlbKeep s core id e h).trans <| traffic_board _ core _ fun x m => by
    rcases mem_tlbAdd m with rfl | m
    · exact entry_tlbKeep h rfl
    · exact cached (c := core) (List.mem_append_right _ m)

theorem entry_tlbFill {core : Nat} {id : TlbId} {e : TlbEntry} (h : s.TableEntry (entryAt e.at_)) :
    (s.tlbFill core id e).TableEntry (entryAt e.at_) := by
  obtain ⟨c, x, m, p⟩ | ⟨n, c, va, x, bits, p, q⟩ := entry_tlbKeep (core := core) (id := id) h rfl
  · rcases List.mem_append.1 m with m | m
    · exact .inl ⟨c, x, List.mem_append_left _ m, p⟩
    · refine .inl ⟨core, e, List.mem_append_right _ ?_, rfl⟩
      simp only [State.tlbFill, State.boardList, Sparse.get_put_same, Option.getD_some]
      unfold tlbAdd
      exact List.mem_cons_self ..
  · exact .inr ⟨n, c, va, x, bits, p, q⟩

theorem traffic_forget (s : State) (core ctx : Nat) (va : BitVec 64) (eng : Option Nat) : Traffic s (s.forget core ctx va eng) :=
  (traffic_editCore' s core (Core.editTlb_bare ..) fun x m => by
    rcases Core.editTlb_entries m with m | m
    · exact cached (List.mem_append_left _ m)
    · exact cached (List.mem_append_left _ (Core.tlbOf_entries (List.mem_of_mem_filter m)))).trans <|
  traffic_board _ core _ fun x m => cached (c := core) (List.mem_append_right _ (List.mem_of_mem_filter m))

theorem orEntry_tlbFill (s : State) (a core : Nat) (b : BitVec 64) (id : TlbId) (e : TlbEntry) :
    (s.orEntry a b).tlbFill core id e = (s.tlbFill core id e).orEntry a b := by
  simp only [State.orEntry, State.tlbFill, State.tlbKeep, State.editCore, State.setCore, State.store, State.core, State.boardList, State.word,
    State.load]

/-- A bit is set in an entry whose translation enters caches. -/
theorem traffic_orFill (s : State) (core : Nat) (id : TlbId) (e : TlbEntry) {a : Nat} {b : BitVec 64} (hb : IsMark b)
    (h : s.TableEntry (entryAt a)) (ha : e.at_ = a) : Traffic s ((s.orEntry a b).tlbFill core id e) := by
  subst ha
  rw [orEntry_tlbFill]
  exact (traffic_tlbFill s core id e h).trans (traffic_orEntry _ _ hb (entry_tlbFill h))

theorem tlbFind_entry {core ctx va : Nat} {id : TlbId} {e : TlbEntry} (h : s.tlbFind core ctx va id = some e) :
    e ∈ (s.core core).entries ++ s.boardList core := by
  unfold State.tlbFind at h
  split at h
  · rename_i q
    cases h
    exact List.mem_append_left _ (Core.tlbOf_entries (List.mem_of_find?_eq_some q))
  · exact List.mem_append_right _ (List.mem_of_find?_eq_some h)

theorem entryAt_of_aligned {a : Nat} (h : a % 8 = 0) : entryAt a = a := by unfold entryAt; omega

theorem traffic_fillLeaf (s : State) (core ctx va : Nat) (c : Ctx) (id : TlbId) (who : Requester) (hc : s.ctx? ctx = some c) :
    Traffic s (s.fillLeaf core ctx c.root.toNat va id who).2 := by
  unfold State.fillLeaf
  have h := (calm_askEach (s.walkAsks ctx c.root.toNat va who) s).toTraffic
  split <;> rename_i e <;> rw [e] at h
  · exact h
  · split
    · exact h
    · rename_i t _ e addr bits w
      have a : t.TableEntry (entryAt addr) := by
        rw [entryAt_of_aligned (walk_aligned w)]
        exact .inr ⟨ctx, c, va, e, bits, by rw [h.ctx]; exact hc, w⟩
      simp only
      split
      · exact h.trans (traffic_tlbFill _ _ _ _ a)
      · exact h.trans (traffic_orFill _ _ _ _ (.inr rfl) a rfl)

theorem traffic_findLeaf (s : State) (core ctx va : Nat) (c : Ctx) (id : TlbId) (who : Requester) (hc : s.ctx? ctx = some c) :
    Traffic s (s.findLeaf core ctx c.root.toNat va id who).2 := by
  unfold State.findLeaf
  split
  · exact .refl s
  · split
    · rename_i q
      exact traffic_tlbKeep _ _ _ _ (cached (c := core) (List.mem_append_right _ (List.mem_of_find?_eq_some q)))
    · exact traffic_fillLeaf _ _ _ _ _ _ _ hc

/-- TRANSLATION is the memory system's own work (04 R94). -/
theorem traffic_translate (s : State) (core ctx : Nat) (va : BitVec 64) (acc : Acc) (eng unit : Option Nat) :
    Traffic s (s.translate core ctx va acc eng unit).2 := by
  unfold State.translate
  split
  · exact .refl s
  · split
    · exact .refl s
    · split
      · exact .refl s
      · rename_i c hc _ _
        have h := traffic_findLeaf s core ctx va.toNat c (acc.tlb eng) (s.asker core eng unit) hc
        split <;> rename_i e <;> rw [e] at h
        · exact h
        · simp only
          split
          · exact h
          · split
            · exact h
            · split <;> exact h

theorem traffic_markDirty (s : State) (core ctx : Nat) (va : BitVec 64) (eng : Option Nat) : Traffic s (s.markDirty core ctx va eng) := by
  unfold State.markDirty
  split
  · exact .refl s
  · rename_i t q
    split
    · exact .refl s
    · exact traffic_orFill _ _ _ _ (.inl rfl) (cached (e := t) (tlbFind_entry q)) rfl

end Sys2Proof.Machine
end

