-- ==== Sys2Proof/Laws/Operands.lean ====
section
/-!
SUPPORT. What reading the operands of an instruction leaves: the strand but for a slow turn, and every part of the state that the memory
system does not change of its own.
-/

namespace Sys2Proof.Machine

variable {α β : Type} {s t r : State} {u : Nat} {st : Strand} {f : Fields}

/-! ### Steps that leave the strand -/

theorem Quiet.refl (s : State) (u : Nat) (st : Strand) : Quiet s u st s := ⟨false, .refl s⟩

theorem Quiet.slowed (s : State) (u : Nat) (st : Strand) (k : Bool) : Quiet s u st (s.slowed u st k) := ⟨k, .refl _⟩

theorem Quiet.traffic (u : Nat) (st : Strand) (h : Traffic s t) : Quiet s u st t := ⟨false, h⟩

theorem Quiet.strand (hs : s.strand? u = some st) (h : Quiet s u st t) : ∃ k, t.strand? u = some (st.slowed k) := by
  obtain ⟨k, h⟩ := h
  exact ⟨k, (h.strand u).trans (State.slowed_strand hs k)⟩

theorem Quiet.cur (h : Quiet s u st t) : t.cur = s.cur := by
  obtain ⟨k, h⟩ := h
  simpa using h.cur

theorem Traffic.slowed (h : Traffic s t) (u : Nat) (st : Strand) (k : Bool) : Traffic (s.slowed u st k) (t.slowed u st k) := by
  cases k with
  | true => exact h.setStrand ..
  | false => exact h

theorem Quiet.trans (hs : s.strand? u = some st) (h : Quiet s u st t) (ht : t.strand? u = some (st.slowed k)) (h' : Quiet t u (st.slowed k) r) :
    Quiet s u st r := by
  obtain ⟨a, h⟩ := h
  obtain ⟨b, h'⟩ := h'
  have e : st.slowed a = st.slowed k := by
    have := h.strand u
    rw [ht, State.slowed_strand hs] at this
    exact (Option.some.inj this).symm
  refine ⟨a || b, ?_⟩
  rw [← State.slowed_slowed, e]
  exact (h.slowed u (st.slowed k) b).trans h'

/-- A strand that issues goes on issuing after quiet steps. -/
theorem Issues.quiet (h : Issues s u st f) (q : Quiet s u st t) (ht : t.strand? u = some (st.slowed k)) :
    Issues t u (st.slowed k) f where
  issuer := by rw [q.cur, h.issuer]
  strand := ht
  outside := by simpa using h.outside
  guard := by cases k <;> exact h.guard

/-- A step that is quiet whenever it answers. -/
structure QuietAct (a : Act α) : Prop where
  quiet {s : State} {u : Nat} {st : Strand} {v : α} {t : State} (hc : s.cur = some u) (hs : s.strand? u = some st)
    (hr : st.region = none) (h : a s = (.ok v, t)) : Quiet s u st t

theorem QuietAct.bind {a : Act α} {g : α → Act β} (ha : QuietAct a) (hg : ∀ x, QuietAct (g x)) : QuietAct (a >>= g) := by
  constructor
  intro s u st v t hc hs hr h
  rw [Act.bind_run] at h
  split at h
  · rename_i x s1 e
    have q := ha.quiet hc hs hr e
    obtain ⟨k, hk⟩ := q.strand hs
    exact q.trans hs hk ((hg x).quiet (by rw [q.cur, hc]) hk (by simpa using hr) h)
  · cases h

theorem QuietAct.pure (x : α) : QuietAct (pure x : Act α) := by
  constructor
  intro s u st v t _ _ _ h
  cases h
  exact Quiet.refl ..

theorem QuietAct.readS (g : State → α) : QuietAct (readS g) := by
  constructor
  intro s u st v t _ _ _ h
  cases h
  exact Quiet.refl ..

theorem QuietAct.self : QuietAct self := by
  constructor
  intro s u st v t hc hs _ h
  rw [self_run hc hs] at h
  cases h
  exact Quiet.refl ..

theorem QuietAct.me : QuietAct me := by
  constructor
  intro s u st v t hc _ _ h
  rw [me_run hc] at h
  cases h
  exact Quiet.refl ..

theorem QuietAct.inAccess : QuietAct inAccess := by
  constructor
  intro s u st v t hc hs hr h
  rw [inAccess_run hc hs hr] at h
  cases h
  exact Quiet.refl ..

theorem QuietAct.noteSlow (b : Bool) : QuietAct (noteSlow b) := by
  constructor
  intro s u st v t hc hs hr h
  rw [noteSlow_run hc hs hr] at h
  cases h
  exact Quiet.slowed ..

/-- A step that never answers. -/
theorem QuietAct.ends {a : Act α} (h : ∀ s, ∃ e s', a s = (.error e, s')) : QuietAct a := by
  constructor
  intro s u st v t _ _ _ e
  obtain ⟨x, s', hx⟩ := h s
  rw [hx] at e
  cases e

theorem QuietAct.ite {p : Prop} [Decidable p] {a b : Act α} (ha : QuietAct a) (hb : QuietAct b) :
    QuietAct (if p then a else b) := by
  split
  · exact ha
  · exact hb

theorem Act.ends_bind {a : Act α} {g : α → Act β} (hg : ∀ x s, ∃ e s', g x s = (.error e, s')) (s : State) :
    ∃ e s', (a >>= g) s = (.error e, s') := by
  rw [Act.bind_run]
  split
  · exact hg ..
  · exact ⟨_, _, rfl⟩

theorem Act.ends_first {a : Act α} {g : α → Act β} (ha : ∀ s, ∃ e s', a s = (.error e, s')) (s : State) :
    ∃ e s', (a >>= g) s = (.error e, s') := by
  obtain ⟨e, s', h⟩ := ha s
  exact ⟨e, s', Act.bind_error h⟩

theorem Act.ends_stop (e : Exit) (s : State) : ∃ e' s', (stopWith e : Act α) s = (.error e', s') := ⟨_, _, rfl⟩

theorem park_ends (a : Await) (s : State) : ∃ e s', (park a : Act α) s = (.error e, s') := by
  unfold park
  refine Act.ends_bind (fun u => Act.ends_bind fun acc => Act.ends_bind fun _ => ?_) s
  cases acc <;> exact Act.ends_bind fun _ => Act.ends_stop _

theorem trapAt_ends (c x : Nat) (a : Word) (s : State) : ∃ e s', (trapAt c x a : Act α) s = (.error e, s') :=
  Act.ends_bind (fun _ => Act.ends_bind fun _ => Act.ends_bind fun _ => Act.ends_stop _) s

theorem trapExtra_ends (c x : Nat) (s : State) : ∃ e s', (trapExtra c x : Act α) s = (.error e, s') :=
  Act.ends_bind (fun _ => trapAt_ends _ _ _) s

theorem trapWord_ends (c : Nat) (a : Word) (s : State) : ∃ e s', (trapWord c a : Act α) s = (.error e, s') :=
  Act.ends_bind (fun _ => trapAt_ends _ _ _) s

theorem trapPlain_ends (c : Nat) (s : State) : ∃ e s', (trapPlain c : Act α) s = (.error e, s') :=
  Act.ends_bind (fun _ => Act.ends_bind fun _ => trapAt_ends _ _ _) s

theorem illegalForm_ends (s : State) : ∃ e s', (illegalForm : Act α) s = (.error e, s') := trapPlain_ends ..

theorem raise_ends (p : Problem) (s : State) : ∃ e s', (raise p : Act α) s = (.error e, s') := by
  cases p
  · exact trapAt_ends ..
  · exact park_ends ..

theorem terminate_ends (s : State) : ∃ e s', (terminate : Act α) s = (.error e, s') :=
  Act.ends_bind (fun _ => Act.ends_bind fun _ => Act.ends_stop _) s

/-! ### Operands -/

theorem readX_quiet (n : Nat) : QuietAct (readX n) := by
  refine QuietAct.self.bind fun st => QuietAct.inAccess.bind fun acc => (QuietAct.noteSlow _).bind fun _ => ?_
  split <;> split
  all_goals first | exact QuietAct.pure _ | exact QuietAct.ends (park_ends _) | exact QuietAct.ends (trapExtra_ends _ _)

theorem readC_quiet (n : Nat) : QuietAct (readC n) := QuietAct.self.bind fun _ => QuietAct.readS _

theorem tempoEntry_quiet (st : Strand) (d j : Nat) : QuietAct (readTempo.entry st d j) := by
  unfold readTempo.entry
  split
  · exact QuietAct.pure _
  · exact QuietAct.ends (park_ends _)

theorem readTempo_quiet (v : Bool) (n d : Nat) : QuietAct (readTempo v n d) := by
  refine QuietAct.self.bind fun st => (QuietAct.readS _).bind fun l => ?_
  split
  · exact QuietAct.ends illegalForm_ends
  · exact (QuietAct.readS _).bind fun b => QuietAct.ite (QuietAct.ends terminate_ends) (tempoEntry_quiet ..)

theorem operandX_quiet (c : Bool) (n : BitVec 6) (d : BitVec 2) : QuietAct (operandX c n d) := by
  unfold operandX
  split
  · exact (readTempo_quiet ..).bind fun _ => QuietAct.pure _
  · split
    · exact readC_quiet _
    · exact readX_quiet _

theorem stateS_quiet {g : State → α × State} (h : ∀ s, Traffic s (g s).2) : QuietAct (stateS g) := by
  constructor
  intro s u st v t _ _ _ e
  cases e
  exact Quiet.traffic _ _ (h s)

theorem editS_quiet {g : State → State} (h : ∀ s, Traffic s (g s)) : QuietAct (editS g) := by
  constructor
  intro s u st v t _ _ _ e
  cases e
  exact Quiet.traffic _ _ (h s)

theorem heedHome_quiet (l : List Ask) (w : Bool) : QuietAct (heedHome l w) := by
  refine QuietAct.self.bind fun st => (stateS_quiet fun s => (calm_askHome ..).toTraffic).bind fun r => ?_
  split
  · exact QuietAct.ends (park_ends _)
  · exact QuietAct.pure _

theorem fetchConstant_ends (x : Xlat) (s : State) : ∃ e s', fetchConstant x s = (.error e, s') := by
  unfold fetchConstant
  refine Act.ends_bind (fun st => Act.ends_bind fun u => Act.ends_bind fun a => Act.ends_bind fun r => Act.ends_bind fun _ => ?_) s
  intro s'
  cases r.pathOf x <;> exact Act.ends_bind (fun _ => park_ends _) s'

theorem migrate_ends (t : Nat) (pc : Word) (ma : Bool) (s : State) : ∃ e s', (migrate t pc ma : Act α) s = (.error e, s') := by
  unfold migrate
  refine Act.ends_bind (fun u => Act.ends_bind fun st => Act.ends_bind fun w => ?_) s
  have last : ∀ s', ∃ e s'', ((do editS fun s => s.migrateOut u t pc ma; stopWith .done : Act α)) s' = (.error e, s'') :=
    Act.ends_bind fun _ => Act.ends_stop _
  have rest : ∀ s', ∃ e s'', ((do if w.outstanding u then park .settled
                                  editS fun s => s.migrateOut u t pc ma
                                  stopWith .done : Act α)) s' = (.error e, s'') := by
    split
    · exact Act.ends_first (park_ends _)
    · exact last
  intro s'
  split
  · exact Act.ends_bind (fun _ => rest) s'
  · exact rest s'

theorem heedMigrate_quiet (x : Xlat) : QuietAct (heedMigrate x) := by
  unfold heedMigrate
  refine QuietAct.self.bind fun st => ?_
  split
  · refine (QuietAct.readS _).bind fun t => ?_
    split
    · exact QuietAct.ends (Act.ends_bind fun _ => migrate_ends _ _ _)
    · exact QuietAct.pure _
  · exact QuietAct.pure _

theorem constant_quiet (j : Nat) : QuietAct (constant j) := by
  refine QuietAct.self.bind fun st => (QuietAct.readS _).bind fun l => ?_
  split
  · exact QuietAct.ends (trapPlain_ends _)
  · refine (stateS_quiet fun s => traffic_translate ..).bind fun r => ?_
    split
    · exact QuietAct.ends (raise_ends _)
    · rename_i x
      refine (QuietAct.readS _).bind fun s => ?_
      simp only
      split
      · exact QuietAct.ends (Act.ends_first (trapAt_ends _ _ _))
      · refine (heedMigrate_quiet _).bind fun _ => QuietAct.me.bind fun u => QuietAct.inAccess.bind fun a => ?_
        split
        · exact QuietAct.pure _
        · have hit : QuietAct (do
              editS fun s => s.editCore st.core fun k => k.keepConstant (lineOf x.pa * 4096 + st.ctx)
              pure (constantWord x (s.swmBytes st.core (lineOf x.pa)).1) : Act Word) :=
            (editS_quiet fun s => traffic_editCore s st.core (g := fun k => k.keepConstant (lineOf x.pa * 4096 + st.ctx)) fun _ => rfl).bind fun _ => QuietAct.pure _
          refine QuietAct.ite (QuietAct.ends (Act.ends_first (trapAt_ends _ _ _))) ?_
          refine QuietAct.ite (QuietAct.ends (Act.ends_first (trapWord_ends _ _))) ?_
          exact QuietAct.ite hit (QuietAct.ends (Act.ends_first (fetchConstant_ends _)))

theorem operandBWith_quiet (c : Bool) (f : Fields) : QuietAct (operandBWith c f) := by
  unfold operandBWith
  split
  · exact QuietAct.pure _
  · exact QuietAct.pure _
  · exact operandX_quiet ..
  · split
    · exact operandX_quiet ..
    · exact QuietAct.pure _
    · exact constant_quiet _

theorem operandB_quiet (f : Fields) : QuietAct (operandB f) := operandBWith_quiet ..
theorem srcA_quiet (f : Fields) : QuietAct (srcA f) := operandX_quiet ..
theorem srcB_quiet (f : Fields) : QuietAct (srcB f) := operandBWith_quiet ..

theorem operandI_quiet (f : Fields) : QuietAct (operandI f) := by
  unfold operandI
  split
  · exact QuietAct.pure _
  · exact operandB_quiet f

theorem oldD_quiet (f : Fields) : QuietAct (oldD f) := by
  unfold oldD
  split
  · exact readC_quiet _
  · exact readX_quiet _

end Sys2Proof.Machine
end

