-- ==== Sys2Proof/Laws/Access.lean ====
section
/-!
SUPPORT. What a checked access, a load and a store at its home leave as they were.
-/

namespace Sys2Proof.Machine

variable {α β : Type} {s t r : State} {u : Nat} {st : Strand} {f : Fields}

/-! ### The checks -/

theorem traffic_placeProblem (s : State) (st : Strand) (c : Check) (va : Word) (n : Nat) : Traffic s (s.placeProblem st c va n).2 := by
  unfold State.placeProblem
  have h := traffic_translate s st.core st.ctx va c.acc none none
  split <;> rename_i e <;> rw [e] at h
  · exact h
  · split
    · exact h
    · split <;> exact h

theorem traffic_accessProblem (s : State) (st : Strand) (c : Check) (va : Word) (n : Nat) : Traffic s (s.accessProblem st c va n).2 := by
  unfold State.accessProblem
  split
  · exact .refl s
  · have h := traffic_placeProblem s st c va n
    split <;> rename_i e <;> rw [e] at h
    · exact h
    · split
      · exact h.trans ((traffic_forget ..).trans (traffic_placeProblem ..))
      · exact h

theorem checkPlace_quiet (c : Check) (va : Word) (n : Nat) : QuietAct (checkPlace c va n) := by
  unfold checkPlace
  refine QuietAct.self.bind fun st => (stateS_quiet fun s => traffic_accessProblem ..).bind fun r => ?_
  match r with
  | .error (.inl p) => exact QuietAct.ends (raise_ends _)
  | .error (.inr c) => exact QuietAct.ends (trapWord_ends _ _)
  | .ok x => exact QuietAct.ite ((heedMigrate_quiet _).bind fun _ => QuietAct.pure _) (QuietAct.pure _)

theorem heedAccess_quiet (c : Check) (vas : List Word) (l : List Ask) : QuietAct (heedAccess c vas l) := by
  unfold heedAccess
  refine QuietAct.self.bind fun st => (QuietAct.readS _).bind fun d => (stateS_quiet fun s => (calm_askEach ..).toTraffic).bind fun r => ?_
  split
  · exact QuietAct.ends (park_ends _)
  · exact QuietAct.pure _

/-- A CHECKED ACCESS that passes is the memory system's own work. -/
theorem checkAccess_quiet (c : Check) (va : Word) (n : Nat) : QuietAct (checkAccess c va n) := by
  unfold checkAccess
  refine QuietAct.self.bind fun st => (checkPlace_quiet ..).bind fun x => (QuietAct.readS _).bind fun s => (heedAccess_quiet ..).bind fun _ => ?_
  exact QuietAct.ite ((editS_quiet fun s => traffic_markDirty ..).bind fun _ => QuietAct.pure _) (QuietAct.pure _)

theorem address_quiet (f : Fields) (k : Nat) : QuietAct (address f k) := (operandX_quiet ..).bind fun _ => QuietAct.pure _

/-! ### Steps that are the memory system's own work and leave memory as it is -/

/-- A step that is the memory system's own work, with memory as it was, whenever it answers. -/
structure CalmAct (a : Act α) : Prop where
  calm {s : State} {v : α} {t : State} (h : a s = (.ok v, t)) : Calm s t

theorem CalmAct.bind {a : Act α} {g : α → Act β} (ha : CalmAct a) (hg : ∀ x, CalmAct (g x)) : CalmAct (a >>= g) := by
  constructor
  intro s v t h
  rw [Act.bind_run] at h
  split at h
  · rename_i e
    exact (ha.calm e).trans ((hg _).calm h)
  · cases h

theorem CalmAct.pure (x : α) : CalmAct (pure x : Act α) := ⟨by intro s v t h; cases h; exact .refl s⟩
theorem CalmAct.readS (g : State → α) : CalmAct (readS g) := ⟨by intro s v t h; cases h; exact .refl s⟩
theorem CalmAct.editS {g : State → State} (h : ∀ s, Calm s (g s)) : CalmAct (editS g) :=
  ⟨by intro s v t e; cases e; exact h s⟩

theorem CalmAct.ends {a : Act α} (h : ∀ s, ∃ e s', a s = (.error e, s')) : CalmAct a := by
  constructor
  intro s v t e
  obtain ⟨x, s', hx⟩ := h s
  rw [hx] at e
  cases e

theorem CalmAct.me : CalmAct me := by
  constructor
  intro s v t h
  simp only [Machine.me] at h
  split at h <;> cases h
  exact .refl s

theorem CalmAct.self : CalmAct self := by
  constructor
  intro s v t h
  simp only [Machine.self] at h
  split at h
  · split at h <;> cases h
    exact .refl s
  · cases h

theorem CalmAct.ite {p : Prop} [Decidable p] {a b : Act α} (ha : CalmAct a) (hb : CalmAct b) :
    CalmAct (if p then a else b) := by
  split
  · exact ha
  · exact hb

theorem heedWord_calm (w : Option Nat) (pa : Nat) (va : Word) : CalmAct (heedWord w pa va) := by
  unfold heedWord
  split
  · exact CalmAct.ends (trapWord_ends _ _)
  · exact CalmAct.pure _

theorem heedPoison_calm (pa n : Nat) (va : Word) : CalmAct (heedPoison pa n va) := by
  unfold heedPoison
  refine (CalmAct.readS _).bind fun s => CalmAct.ite ?_ (heedWord_calm ..)
  exact (CalmAct.ends (trapAt_ends _ _ _)).bind fun _ => heedWord_calm ..

/-- A LOAD that answers is the memory system's own work: memory, strands and every other part of the state stay. -/
theorem loadBytes_calm (x : Xlat) (va : Word) (n : Nat) : CalmAct (loadBytes x va n) := by
  unfold loadBytes
  refine CalmAct.me.bind fun u => CalmAct.self.bind fun st => (CalmAct.readS _).bind fun p => ?_
  cases p with
  | home => exact (heedPoison_calm ..).bind fun _ => CalmAct.readS _
  | managed =>
    refine (CalmAct.readS _).bind fun b => ?_
    have rest : CalmAct (do
        heedWord (← readS fun s => s.swmPoison st.core x.pa n fun _ => true) x.pa va
        editS fun s => s.swmFill st.core (lineOf x.pa)
        readS fun s => s.swmRead st.core x.pa n : Act (List (BitVec 8))) :=
      (CalmAct.readS _).bind fun _ => (heedWord_calm ..).bind fun _ => (CalmAct.editS fun s => (calm_swmFill ..)).bind fun _ =>
        CalmAct.readS _
    exact CalmAct.ite ((CalmAct.ends (trapAt_ends _ _ _)).bind fun _ => rest) rest
  | coherent =>
    refine (CalmAct.readS _).bind fun b => ?_
    have rest : CalmAct (do
        heedPoison x.pa n va
        editS fun s =>
          let s := s.getS st.core (lineOf x.pa)
          match s.l1 st.core (lineOf x.pa) with
          | some l => s.setL1 st.core (lineOf x.pa) { l with reader := some (u, st.phase) }
          | none => s
        readS fun s => Memory.getBytes s.mem x.pa n : Act (List (BitVec 8))) := by
      refine (heedPoison_calm ..).bind fun _ => (CalmAct.editS fun s => ?_).bind fun _ => CalmAct.readS _
      simp only
      split
      · exact ((calm_getS ..).trans (calm_setL1 ..))
      · exact (calm_getS ..)
    exact CalmAct.ite ((CalmAct.ends (trapWord_ends _ _)).bind fun _ => rest) rest

end Sys2Proof.Machine
end

