-- ==== Sys2Proof/Laws/Scalar.lean ====
section
/-!
SUPPORT. How the scalar meanings end once their sources are read.
-/

namespace Sys2Proof.Machine

variable {s t r : State} {u : Nat} {st : Strand} {f : Fields} {a b d : Word}

/-- Writing D and going on. -/
theorem writeD_finish_run (hc : t.cur = some u) (hs : t.strand? u = some st) (hr : st.region = none) (v : Word) :
    (do writeD f v; finish f : Act Unit) t = (.ok (), t.takesD u st f v) := by
  unfold writeD State.takesD
  by_cases h : f.x.getLsbD 0 = true
  · rw [if_pos h, if_pos h]
    have hw : writeC f.d.toNat v t = (.ok (), t.editCore st.core (·.posts f.d.toNat v)) := by
      simp only [writeC, Act.bind_ok (self_run hc hs)]
      rfl
    rw [Act.bind_ok hw]
    exact finish_run (s := t.editCore st.core _) hc hs hr f
  · rw [if_neg h, if_neg h, Act.bind_ok (writeX_run hc hs hr ..)]
    have := finish_run (s := t.setStrand u (st.gives f.d.toNat v)) hc (State.strand_set ..) hr f
    simpa using this

theorem Sources.quiet (h : Issues s u st f) (hs : Sources f s a b t) : Quiet s u st t := by
  obtain ⟨r, ha, hb⟩ := hs
  have q := (srcA_quiet f).quiet h.issuer h.strand h.outside ha
  obtain ⟨k, hk⟩ := q.strand h.strand
  have i := h.quiet q hk
  exact q.trans h.strand hk ((srcB_quiet f).quiet i.issuer i.strand i.outside hb)

/-- An instruction that reads something quietly and ends with D. -/
theorem readAndWrite {α : Type} {src : Act α} {v : α} (h : Issues s u st f) (q : Quiet s u st t) (k : Klass) (g : α → Word)
    (hs : src s = (.ok v, t)) :
    ∃ b, t.strand? u = some (st.slowed b) ∧
      (fixed k f (do let x ← src; writeD f (g x))).outcome s = .next (t.takesD u (st.slowed b) f (g v)) := by
  obtain ⟨b, hb⟩ := q.strand h.strand
  have i := h.quiet q hb
  refine ⟨b, hb, Act.outcome_ok ?_⟩
  rw [fixed_run h, bind_assoc, Act.bind_ok hs]
  exact writeD_finish_run i.issuer i.strand i.outside _

/-- THE RESULT OF A TWO-SOURCE INSTRUCTION. -/
theorem alu2_run (h : Issues s u st f) (hs : Sources f s a b t) (op : Word → Word → Word) :
    ∃ k, t.strand? u = some (st.slowed k) ∧ (alu2 f op).outcome s = .next (t.takesD u (st.slowed k) f (op a b)) := by
  have q := hs.quiet h
  obtain ⟨r, ha, hb⟩ := hs
  have := readAndWrite (src := do let a ← srcA f; let b ← srcB f; pure (a, b)) (v := (a, b)) h q .access (fun p => op p.1 p.2)
    (by rw [Act.bind_ok ha, Act.bind_ok hb]; rfl)
  simpa [alu2] using this

theorem alu1_run (h : Issues s u st f) (ha : srcA f s = (.ok a, t)) (op : Word → Word) :
    ∃ k, t.strand? u = some (st.slowed k) ∧ (alu1 f op).outcome s = .next (t.takesD u (st.slowed k) f (op a)) :=
  readAndWrite h ((srcA_quiet f).quiet h.issuer h.strand h.outside ha) .access op ha

theorem aluI_run (h : Issues s u st f) (ha : srcA f s = (.ok a, r)) (hb : operandI f r = (.ok b, t)) (op : Word → Word → Word) :
    ∃ k, t.strand? u = some (st.slowed k) ∧ (aluI f op).outcome s = .next (t.takesD u (st.slowed k) f (op a b)) := by
  have q := (srcA_quiet f).quiet h.issuer h.strand h.outside ha
  obtain ⟨k, hk⟩ := q.strand h.strand
  have i := h.quiet q hk
  have q := q.trans h.strand hk ((operandI_quiet f).quiet i.issuer i.strand i.outside hb)
  have := readAndWrite (src := do let a ← srcA f; let b ← operandI f; pure (a, b)) (v := (a, b)) h q .access
    (fun p => op p.1 p.2) (by rw [Act.bind_ok ha, Act.bind_ok hb]; rfl)
  simpa [aluI] using this

end Sys2Proof.Machine
end

