-- ==== Sys2Proof/Laws/Vector.lean ====
section
/-!
SUPPORT. The steps of the vector instructions for a strand with a bound context outside a region.
-/

namespace Sys2Proof.Machine

variable {α β : Type} {s t r : State} {u : Nat} {st : Strand} {f : Fields}

theorem readVPlain_quiet (n : Nat) : QuietAct (readV.plain n) := by
  unfold readV.plain
  refine QuietAct.self.bind fun st => (QuietAct.noteSlow _).bind fun _ => ?_
  cases st.vec with
  | none => exact QuietAct.pure _
  | some v => exact QuietAct.ite (QuietAct.pure _) (QuietAct.ends (park_ends _))

theorem readV_quiet (n : Nat) : QuietAct (readV n) := by
  constructor
  intro s u st v t hc hs hr h
  have e : readV n s = readV.plain n s := by
    unfold readV
    rw [Act.bind_ok (self_run hc hs)]
    simp only [hr]
  rw [e] at h
  exact (readVPlain_quiet n).quiet hc hs hr h

theorem operandV_quiet (n : BitVec 6) (d : BitVec 2) : QuietAct (operandV n d) := by
  unfold operandV
  split
  · exact (readTempo_quiet ..).bind fun _ => QuietAct.pure _
  · exact readV_quiet _

theorem vreg_quiet (w : Nat) (n : BitVec 6) (d : BitVec 2) : QuietAct (vreg w n d) :=
  (operandV_quiet ..).bind fun _ => QuietAct.pure _

theorem scalarFp_quiet (f : Fields) (code : Nat) (env : FpEnv) : QuietAct (scalarFp f code env) := by
  unfold scalarFp
  simp only
  split
  · exact QuietAct.pure _
  · split
    · exact QuietAct.pure _
    · exact (constant_quiet _).bind fun _ => QuietAct.pure _

theorem srcBfp_quiet (f : Fields) (code : Nat) (env : FpEnv) : QuietAct (srcBfp f code env) := by
  unfold srcBfp
  simp only
  split
  · exact vreg_quiet ..
  · exact (scalarFp_quiet ..).bind fun _ => QuietAct.pure _

theorem srcBint_quiet (f : Fields) (w : Nat) : QuietAct (srcBint f w) := by
  unfold srcBint
  split
  · exact vreg_quiet ..
  · exact (operandB_quiet f).bind fun _ => QuietAct.pure _

theorem oldElems_quiet (f : Fields) (w : Nat) : QuietAct (oldElems f w) := by
  unfold oldElems
  split
  · exact QuietAct.pure _
  · exact (readV_quiet _).bind fun _ => QuietAct.pure _

theorem fpEnv_run (hc : s.cur = some u) (hs : s.strand? u = some st) (hr : st.region = none) (f : Fields) :
    fpEnv f s = (.ok (envOf st.fcr f.rnd.toNat), s) := by
  unfold fpEnv
  rw [Act.bind_ok (self_run hc hs), Act.bind_ok (inAccess_run hc hs hr)]
  rfl

theorem fpEnv_quiet (f : Fields) : QuietAct (fpEnv f) := by
  constructor
  intro s u st v t hc hs hr h
  rw [fpEnv_run hc hs hr] at h
  cases h
  exact Quiet.refl ..

theorem scalarAny_quiet (f : Fields) (code : Nat) : QuietAct (scalarAny f code) := by
  unfold scalarAny
  split
  · exact (fpEnv_quiet f).bind fun _ => scalarFp_quiet ..
  · exact (operandB_quiet f).bind fun _ => QuietAct.pure _

/-- A bound context needs nothing. -/
theorem bindVec_bound (hc : s.cur = some u) (hs : s.strand? u = some st) (hb : st.bound) : bindVec s = (.ok (), s) := by
  obtain ⟨v, hv, hsp⟩ := hb
  unfold bindVec
  rw [Act.bind_ok (me_run hc), Act.bind_ok (self_run hc hs)]
  simp only [hv, hsp]
  rfl

theorem reloadVec_atHand (hc : s.cur = some u) (hs : s.strand? u = some st) (hb : st.atHand) : reloadVec s = (.ok (), s) := by
  unfold reloadVec
  rw [Act.bind_ok (self_run hc hs)]
  cases hv : st.vec with
  | none => rfl
  | some v => simp only [hb v hv]; rfl

theorem vectorStart_bound (hc : s.cur = some u) (hs : s.strand? u = some st) (hr : st.region = none) (hb : st.bound) (f : Fields) :
    vectorStart f s = (.ok (), s) := by
  unfold vectorStart
  rw [Act.bind_ok (bindVec_bound hc hs hb)]
  unfold destV
  rw [Act.bind_ok (self_run hc hs)]
  simp only [hr, Option.isSome_none, Bool.false_and]
  rfl

theorem checkTags_fit {l : List (VSrc × Nat)} (h : TagsFit l) (s : State) : checkTags l s = (.ok (), s) := by
  unfold checkTags
  rw [if_pos]
  · rfl
  · rw [List.all_eq_true]
    intro e he
    rcases h e he with h | h <;> simp [h]

theorem writeV_run (hc : s.cur = some u) (hs : s.strand? u = some st) (n : Nat) (bits : Vec) (tag : BitVec 4) :
    writeV n bits tag s = (.ok (), s.setStrand u (st.setV n bits tag)) := editSelf_run hc hs _

theorem actives_run (hc : s.cur = some u) (hs : s.strand? u = some st) (f : Fields) (w : Nat) :
    actives f w s = (.ok (activeList w (st.predBits f.m.toNat)), s) := by
  unfold actives
  rw [Act.bind_ok (self_run hc hs)]
  rfl

/-- STEPS 4 to 6 of R184. -/
theorem deliver_run (hc : s.cur = some u) (hs : s.strand? u = some st) (w : Nat) (tag : BitVec 4) (old : List Nat)
    (res : List (Nat × Flags)) (fl : Flags) :
    deliver f w tag old res fl s = (.ok (), s.setStrand u (st.delivers f w tag old res fl)) := by
  unfold deliver
  rw [Act.bind_ok (actives_run hc hs f w), Act.bind_ok (writeV_run hc hs _ _ _)]
  unfold raiseFlags
  rw [editSelf_run (s := s.setStrand u _) hc (State.strand_set ..), State.set_set]
  rfl

theorem skipTurns_run (hc : s.cur = some u) (hs : s.strand? u = some st) (hr : st.region = none) (n : Nat) :
    skipTurns n s = (.ok (), s.setStrand u { st with long := st.long + n }) := by
  unfold skipTurns
  rw [Act.bind_ok (inAccess_run hc hs hr)]
  exact editSelf_run hc hs _

@[simp] theorem Strand.delivers_region (st : Strand) (f : Fields) (w : Nat) (tag : BitVec 4) (old : List Nat)
    (res : List (Nat × Flags)) (fl : Flags) : (st.delivers f w tag old res fl).region = st.region := rfl
@[simp] theorem Strand.delivers_long (st : Strand) (f : Fields) (w : Nat) (tag : BitVec 4) (old : List Nat)
    (res : List (Nat × Flags)) (fl : Flags) : (st.delivers f w tag old res fl).long = st.long := rfl
@[simp] theorem Strand.slowed_long (st : Strand) (k : Bool) : (st.slowed k).long = st.long := by cases k <;> rfl
@[simp] theorem Strand.slowed_fcr (st : Strand) (k : Bool) : (st.slowed k).fcr = st.fcr := by cases k <;> rfl
@[simp] theorem Strand.slowed_vec (st : Strand) (k : Bool) : (st.slowed k).vec = st.vec := by cases k <;> rfl
@[simp] theorem Strand.slowed_pw (st : Strand) (k : Bool) : (st.slowed k).pw = st.pw := by cases k <;> rfl

/-- The end of a vector instruction. -/
theorem deliver_finish_run (hc : t.cur = some u) (hs : t.strand? u = some st) (hr : st.region = none) (w : Nat) (tag : BitVec 4)
    (old : List Nat) (res : List (Nat × Flags)) (fl : Flags) (n : Nat) :
    (do deliver f w tag old res fl; skipTurns n; finish f : Act Unit) t =
      (.ok (), t.setStrand u ({ st.delivers f w tag old res fl with long := st.long + n }.done f)) := by
  rw [Act.bind_ok (deliver_run hc hs ..),
    Act.bind_ok (skipTurns_run (s := t.setStrand u _) hc (State.strand_set ..) (by simpa using hr) n)]
  have := finish_run (s := (t.setStrand u (st.delivers f w tag old res fl)).setStrand u
    { st.delivers f w tag old res fl with long := (st.delivers f w tag old res fl).long + n }) hc (State.strand_set ..)
    (by simpa using hr) f
  simpa using this

end Sys2Proof.Machine
end

