-- ==== Sys2Proof/Laws/Written.lean ====
section
/-!
SUPPORT. What a write brings about while no access waits on a retry list: watchers fire and sleepers wake.
-/

namespace Sys2Proof.Machine

variable {s t r : State} {u : Nat} {st : Strand}

theorem Strand.SameButWait.refl (st : Strand) : st.SameButWait st := rfl

theorem Strand.SameButWait.trans {a b c : Strand} (h : a.SameButWait b) (h' : b.SameButWait c) : a.SameButWait c := by
  unfold Strand.SameButWait at *
  rw [h', h]

/-- What firing a line changes: strands, each in its watches and its wait alone, and the order of events. -/
structure Fired (s t : State) : Prop where
  frame : ∃ cs ss n, t = { s with cores := cs, strands := ss, order := n }
  strand {u : Nat} {st : Strand} (h : s.strand? u = some st) : ∃ st', t.strand? u = some st' ∧ st.SameButWait st'

theorem Fired.refl (s : State) : Fired s s := ⟨⟨s.cores, s.strands, s.order, rfl⟩, fun h => ⟨_, h, .refl _⟩⟩

theorem Fired.trans (h : Fired s t) (h' : Fired t r) : Fired s r := by
  refine ⟨?_, fun hu => ?_⟩
  · obtain ⟨a, b, c, rfl⟩ := h.frame
    obtain ⟨a', b', c', rfl⟩ := h'.frame
    exact ⟨a', b', c', rfl⟩
  · obtain ⟨st1, h1, w1⟩ := h.strand hu
    obtain ⟨st2, h2, w2⟩ := h'.strand h1
    exact ⟨st2, h2, w1.trans w2⟩

theorem Fired.foldl {α : Type} {l : List α} {g : State → α → State} (h : ∀ s x, Fired s (g s x)) (s : State) :
    Fired s (l.foldl g s) := by
  induction l generalizing s with
  | nil => exact .refl s
  | cons x l ih => exact (h s x).trans (ih _)

theorem fired_editStrand (s : State) (v : Nat) (g : Strand → Strand) (h : ∀ st : Strand, st.SameButWait (g st)) : Fired s (s.editStrand v g) := by
  unfold State.editStrand
  split
  · rename_i st e
    refine ⟨⟨s.cores, _, s.order, rfl⟩, fun {u su} hu => ?_⟩
    by_cases huv : u = v
    · subst huv
      rw [e] at hu
      cases hu
      exact ⟨_, State.strand_set .., h _⟩
    · exact ⟨su, by rw [State.strand_set_other _ _ (Ne.symm huv), hu], .refl _⟩
  · exact .refl s

theorem fired_order (s : State) (n : Nat) : Fired s { s with order := n } := ⟨⟨s.cores, s.strands, n, rfl⟩, fun h => ⟨_, h, .refl _⟩⟩

theorem fired_wake (s : State) (v : Nat) : Fired s (s.wake v) := by
  have enter (st : Strand) (e : s.strand? v = some st) : Fired s (State.wake.enter s v st) := by
    have h := fired_editStrand s v (fun st => if st.isSpilled then { st with woken := true, await := .reply, since := s.order }
      else { st with state := .ready, await := .reply, since := s.order }) (fun st => by
        split <;> rfl)
    rw [State.editStrand_eq e] at h
    exact h.trans (fired_order _ _)
  unfold State.wake
  split
  · exact .refl s
  · rename_i st e
    split
    · split
      · exact .refl s
      · exact enter st e
    · split
      · exact .refl s
      · exact enter st e
    · have h := fired_editStrand s v (fun st => { st with await := .reply }) (fun st => rfl)
      rw [State.editStrand_eq e] at h
      exact h
    · exact .refl s

theorem fired_fireLine (s : State) (l : Nat) : Fired s (s.fireLine l) := by
  unfold State.fireLine
  refine Fired.foldl (fun t e => ?_) s
  simp only
  split
  · have h := fired_editStrand t e.1 (fun st =>
      { st with watch := st.watch.map fun w => if (w.armed && w.line == l) = true then { w with fired := true } else w }) (fun st => rfl)
    split
    · exact h.trans (fired_wake ..)
    · exact h
  · exact .refl t

/-- A WRITE while no access waits on a retry list. -/
theorem fired_written (h : s.waiters = []) (pa n : Nat) : Fired s (s.written pa n) := by
  have f := Fired.foldl (l := linesOfRun pa n) (fun t l => fired_fireLine t l) s
  unfold State.written
  have e : (List.foldl State.fireLine s (linesOfRun pa n)).waiters = [] := by
    obtain ⟨_, _, _, e⟩ := f.frame
    rw [e, h]
  simp only [e, List.isEmpty_nil, if_true]
  exact f


/-! ### A store -/

/-- VISMAX, watches and waits aside, the strand is as it was. -/
theorem noteVt_strand (hs : s.strand? u = some st) (pa : Nat) :
    ∃ vt, (s.noteVt u pa).strand? u = some { st with visMax := vt } := by
  unfold State.noteVt
  rw [State.editStrand_eq hs, State.strand_set]
  by_cases h : st.visMax < (s.vtOf pa).zeroExtend 64
  · exact ⟨_, by simp only [h, if_true]; rfl⟩
  · exact ⟨st.visMax, by simp only [h, if_false]⟩

theorem noteVt_frame (s : State) (u pa : Nat) : ∃ ss, s.noteVt u pa = { s with strands := ss } := by
  unfold State.noteVt State.editStrand
  split <;> exact ⟨_, rfl⟩

/-- What a store leaves of everything but memory: copies, poison, the strand's VISMAX, watches and waits. -/
structure Stored (s : State) (u : Nat) (st : Strand) (t : State) : Prop where
  cur : t.cur = s.cur
  waiters : t.waiters = []
  strand : ∃ st' vt, t.strand? u = some st' ∧ Strand.SameButWait { st with visMax := vt } st'

theorem Stored.of (hs : s.strand? u = some st) (hw : s.waiters = []) {s1 : State} (c : Calm s s1) (m : List Host.Cell)
    (po : List Nat) (pa n : Nat) :
    Stored s u st ((({ s1 with mem := m, poison := po } : State).noteVt u pa).written pa n) ∧
      ((({ s1 with mem := m, poison := po } : State).noteVt u pa).written pa n).mem = m := by
  generalize hx : ({ s1 with mem := m, poison := po } : State) = s2
  have hs2 : s2.strand? u = some st := by subst hx; exact (c.toTraffic.strand u).trans hs
  obtain ⟨vt, hv⟩ := noteVt_strand hs2 pa
  obtain ⟨ss, hf⟩ := noteVt_frame s2 u pa
  have hw2 : (s2.noteVt u pa).waiters = [] := by rw [hf]; subst hx; exact c.toTraffic.waiters.trans hw
  have f := fired_written hw2 pa n
  obtain ⟨st', h1, h2⟩ := f.strand hv
  obtain ⟨a, b, d, e⟩ := f.frame
  refine ⟨⟨?_, ?_, st', vt, h1, h2⟩, ?_⟩
  · rw [e, hf]; subst hx; exact c.toTraffic.cur
  · rw [e]; exact hw2
  · rw [e, hf]; subst hx; rfl

theorem heedTorn_calm (pa n : Nat) (va : Word) : CalmAct (heedTorn pa n va) :=
  (CalmAct.readS _).bind fun _ => heedWord_calm ..

theorem heedRace_calm (x : Xlat) (va : Word) (n : Nat) : CalmAct (heedRace x va n) := by
  unfold heedRace
  refine CalmAct.me.bind fun u => CalmAct.self.bind fun st => (CalmAct.readS _).bind fun o => ?_
  exact CalmAct.ite (CalmAct.ends (trapWord_ends _ _)) (CalmAct.pure _)

theorem landStore_effect {x : Xlat} {va : Word} {bs : List (BitVec 8)} {s1 : State} (hc : s.cur = some u)
    (hs : s.strand? u = some st) (hw : s.waiters = []) (hd : s.tierDown x.pa = false) (c : Calm s s1)
    (h : landStore x va bs s1 = (.ok (), t)) : Stored s u st t ∧ t.mem = Memory.setBytes s.mem x.pa bs := by
  have hd1 : s1.tierDown x.pa = false := (c.toTraffic.tierDown _).trans hd
  unfold landStore at h
  rw [Act.bind_ok (me_run (c.toTraffic.cur.trans hc)), Act.bind_ok (self_run (c.toTraffic.cur.trans hc) ((c.toTraffic.strand u).trans hs)),
    Act.bind_ok (readS_run _ s1), if_neg (by rw [hd1]; decide)] at h
  cases h
  have := Stored.of hs hw c (Memory.setBytes s1.mem x.pa bs)
    (s1.poison.filter fun p => !(wholeWords x.pa bs.length).contains p) x.pa bs.length
  exact ⟨this.1, this.2.trans (by rw [c.still])⟩

/-- A STORE of the issuing strand that answers while nothing waits and the link of its tier is up: its bytes are in memory, but
for a SWMANAGED copy, which holds them itself. -/
theorem storeBytes_effect {x : Xlat} {va : Word} {bs : List (BitVec 8)} (hc : s.cur = some u) (hs : s.strand? u = some st)
    (hw : s.waiters = []) (hd : s.tierDown x.pa = false) (h : storeBytes x va bs s = (.ok (), t)) :
    Stored s u st t ∧ t.mem = if s.pathOf x = .managed then s.mem else Memory.setBytes s.mem x.pa bs := by
  unfold storeBytes at h
  rw [Act.bind_ok (me_run hc), Act.bind_ok (self_run hc hs), Act.bind_ok (readS_run _ s)] at h
  have step {α : Type} {a : Act α} {k : Act Unit} {s1 : State} (ca : CalmAct a) (c : Calm s s1)
      (h : (a >>= fun _ => k) s1 = (.ok (), t)) : ∃ s2, Calm s s2 ∧ k s2 = (.ok (), t) := by
    rw [Act.bind_run] at h
    split at h
    · rename_i e
      exact ⟨_, c.trans (ca.calm e), h⟩
    · cases h
  cases hp : s.pathOf x with
  | managed =>
    simp only [hp] at h
    rw [Act.bind_ok (readS_run _ s)] at h
    obtain ⟨s2, c2, h⟩ := step (heedWord_calm ..) (.refl s) h
    cases h
    have c3 := c2.trans (calm_swmWrite s2 st.core x.pa bs (st.ctx, st.sid, va))
    obtain ⟨vt, e⟩ := noteVt_strand ((c3.toTraffic.strand u).trans hs) x.pa
    refine ⟨⟨?_, ?_, _, vt, e, .refl _⟩, ?_⟩
    · simp only [State.noteVt, State.editStrand_cur]
      exact c3.toTraffic.cur.trans rfl
    · simp only [State.noteVt, State.editStrand_waiters]
      exact c3.toTraffic.waiters.trans hw
    · simp only [State.noteVt, State.editStrand_mem, if_true]
      exact c3.still
  | home =>
    simp only [hp] at h
    obtain ⟨s2, c2, h⟩ := step (heedTorn_calm ..) (.refl s) h
    have := landStore_effect hc hs hw hd c2 h
    exact ⟨this.1, this.2.trans (by simp)⟩
  | coherent =>
    simp only [hp] at h
    obtain ⟨s2, c2, h⟩ := step (heedRace_calm ..) (.refl s) h
    obtain ⟨s3, c3, h⟩ := step (heedTorn_calm ..) c2 h
    obtain ⟨s4, c4, h⟩ := step (CalmAct.editS fun s => ((calm_getM ..).trans (calm_stampWords ..))) c3 h
    have := landStore_effect hc hs hw hd c4 h
    exact ⟨this.1, this.2.trans (by simp)⟩

end Sys2Proof.Machine
end

