-- ==== Sys2Proof/Tests/Slice0.lean ====
section
/-!
SUPPORT. The model's own tests: the small states they run on; words that decode to what they stand for; ill-formed terms, which the checks
refuse; and for every statement a concrete state and operands that meet its hypotheses, with what its conclusion says of them. Expected
values are worked out by hand from the rules that a test's comment cites.
-/

namespace Sys2Proof.Tests

set_option Elab.async false

open Sys2Proof Sys2Proof.Machine

/-- A step of an instruction ends well, and its value and state meet `p`. -/
def yields {α : Type} (a : Act α) (s : State) (p : α → State → Bool) : Bool :=
  match a s with
  | (.ok v, t) => p v t
  | _ => false

/-- What `yields` says of a step: that it answers a value and a state. -/
theorem yields_iff {α : Type} (a : Act α) (s : State) (p : α → State → Bool) :
    yields a s p = true ↔ ∃ v t, a s = (.ok v, t) ∧ p v t = true := by
  unfold yields
  constructor
  · intro h
    split at h
    · exact ⟨_, _, by assumption, h⟩
    · cases h
  · rintro ⟨v, t, h, hp⟩
    rw [h]
    exact hp

/-- An outcome is a next state that meets `p`. -/
def leaves (r : Result) (p : State → Bool) : Bool :=
  match r with
  | .next t => p t
  | _ => false

/-- An instruction or an event answers one state. -/
def gives (i : Instr) (s t : State) : Bool := leaves (exec i s) (· == t)

/-- The state has strand 0, which issues the instruction outside a region with its guard true: the hypothesis `Issues`. -/
def issues (s : State) (f : Fields) (p : Strand → Bool) : Bool :=
  s.cur == some 0 &&
  match s.strand? 0 with
  | some st => st.region.isNone && Guard.eval f.guard st.lane0 && p st
  | none => false

theorem issues_iff (s : State) (f : Fields) (p : Strand → Bool) :
    issues s f p = true ↔ ∃ st, Issues s 0 st f ∧ p st = true := by
  unfold issues
  constructor
  · intro h
    simp only [Bool.and_eq_true, beq_iff_eq] at h
    obtain ⟨hc, h⟩ := h
    split at h
    · rename_i st hs
      simp only [Bool.and_eq_true, Option.isNone_iff_eq_none] at h
      exact ⟨st, ⟨hc, hs, h.1.1, h.1.2⟩, h.2⟩
    · cases h
  · rintro ⟨st, ⟨hc, hs, hr, hg⟩, hp⟩
    simp [hc, hs, hr, hg, hp]

/-- Strand 0 after an instruction. -/
def strandAfter (i : Instr) (s : State) (p : State → Strand → Bool) : Bool :=
  leaves (exec i s) fun t =>
    match t.strand? 0 with
    | some st => p t st
    | none => false

/-- An instruction with every field zero. -/
def word (form : Form) : Fields :=
  { form := form, d := 0, a := 0, b := 0, m := 0, c := 0, e := 0, guard := .none, h := 0, ta := 0, tb := 0, x := 0, fmt := 0,
    rnd := 0, bk := 0, imm20 := 0 }

/-- D, A, B and M of a base form and of an extended one. -/
def base (d a b : BitVec 6) (m : BitVec 4) : Fields := { word .base with d := d, a := a, b := b, m := m }
def ext (d a b : BitVec 6) (m : BitVec 4) : Fields := { word .ext with d := d, a := a, b := b, m := m }

/-- A 1 GiB page that may be read, written and executed, with its A and D bits set. -/
def page (n frame : Nat) : TlbEntry :=
  { ctx := 0, page := n, bits := 30, leaf := BitVec.ofNat 64 (frame * 2 ^ 30 + 0x1BF), at_ := 0 }

/-- x1 is a data address, x2 a pattern, x3 is 5, x4 is zero, x5 is −1. -/
def st0 : Strand :=
  { Strand.blank with
    place := .slot 0, state := .run, pc := 0x1000
    x := ((((Vector.replicate 64 0).setIfInBounds 1 0x2000).setIfInBounds 2 0x1122334455667788).setIfInBounds 3 5).setIfInBounds 5
      0xFFFFFFFFFFFFFFFF }

def launch0 : Launch :=
  { seedLaunch 0 Rect.module 0x1000 0 rootRight 0 0 [] 0 with ranges := bootRanges, next := 1, pop := 1 }

/-- k[255], the bytes 0x11 to 0x88 at 0x2000, and a map of start bits in which the words of 0x1000, 0x1040, 0x1100 and 0x1200, and of the 28
bytes behind each, may be targets. -/
def mem0 : List Host.Cell :=
  [(0x7F8, 3), (0x7F9, 3), (0x7FA, 3), (0x7FB, 3), (0x7FC, 3), (0x7FD, 3), (0x7FE, 3), (0x7FF, 3),
   (0x2000, 0x11), (0x2001, 0x22), (0x2002, 0x33), (0x2003, 0x44), (0x2004, 0x55), (0x2005, 0x66), (0x2006, 0x77), (0x2007, 0x88),
   (0x40000080, 0xFF), (0x40000082, 0xFF), (0x40000088, 0xFF), (0x40000090, 0xFF)]

/-- The instruction lines of the targets are in the core's cache, with their start bits (06 R156), and the line of k[255] in its constant
cache (06 R155). -/
def core0 : Core :=
  { Core.fresh 0 with
    pos := (Vector.replicate 8 none).setIfInBounds 0 (some 0)
    tlb := [page 0 0, page 0x400000 1], itlb := [page 0 0, page 0x400000 1]
    icache := [(iKey 0 0x20, ⟨List.replicate 128 0, 0xFF00FF⟩), (iKey 0 0x22, ⟨List.replicate 128 0, 0xFF⟩),
      (iKey 0 0x24, ⟨List.replicate 128 0, 0xFF⟩), (iKey 0 0x80, ⟨List.replicate 128 0, 0⟩)]
    ccache := [15 * 4096] }

def lab : State :=
  { State.reset with
    ctxs := [(0, Ctx.fresh none 0 0x10000000000000 Rect.module.leafId 0)], launches := [(0, launch0)], strands := [(0, st0)]
    nextUid := 1, cur := some 0, mem := mem0, cores := [(0, core0)] }

/-- The same with another strand. -/
def labOf (st : Strand) : State := { lab with strands := [(0, st)] }

/-- A strand with a bound vector context: v1 counts its 128 words, v2 holds 1.0 in binary32 everywhere. -/
def stV : Strand :=
  { st0 with vec := some { st0.freshVec with
      v := ((Vector.replicate 32 0).setIfInBounds 1 (ofElems 32 (List.range 128))).setIfInBounds 2
        (ofElems 32 (List.replicate 128 0x3F800000)) } }

def labV : State := labOf stV

/-! ### Decoding: the encodings that the spec works out, and for every other mnemonic a word written out from 06 R145, R147, R148 and R158 -/

def decodes (e : List (BitVec 32) × Instr) : Bool := decodeWords e.1 == .ok (e.2, [])

/-- The spec's worked encodings: scalar. -/
theorem test_worked_scalar :
    ([
      ([0xC313FD], .addi (base 3 4 63 13)), ([0x40851800, 0x12345678], .add { base 5 6 0 0 with form := .baseLit 0x12345678 }),
      ([0x80851C00, 0x32C40, 0x2000011], .add { ext 5 7 0 0 with ta := 2, bk := 2, imm20 := 17, guard := ⟨3, false, 5, true, false⟩ }),
      ([0x60703FF], .li (base 7 0 63 15)), ([0x45831001, 0xC8], .extb { base 3 4 0 1 with form := .baseLit 0xc8 }),
      ([0x80830C00, 3, 0x1000001], .add { ext 3 3 0 0 with x := 3, bk := 1, imm20 := 1 }), ([0x7020C42], .cmp (base 2 3 4 2)),
      ([0x74327F3], .cmpi (base 3 9 63 3)), ([0x35F7807], .xori (base 31 30 0 7)), ([0x29E7950], .or (base 30 30 21 0)),
      ([0x460B0000, 0x100000], .li { base 11 0 0 0 with form := .baseLit 0x100000 }), ([0x6CD20C2], .lea (base 13 8 12 2)),
      ([0x69403D1], .lit (base 20 0 61 1)), ([0x80955400, 0x40, 0], .add { ext 21 21 0 0 with ta := 2 }),
      ([0x2CE3809], .ori (base 14 14 0 9)), ([0x438C2C00, 0xFFFF], .andn { base 12 11 0 0 with form := .baseLit 0xffff })] :
        List (List (BitVec 32) × Instr)).all decodes = true := by decide +kernel

/-- Words of the other mnemonics: scalar (06 R158). -/
theorem test_decode_scalar :
    ([
      ([0x400000], .nop (base 0 0 0 0)), ([0x1041461], .sub (base 4 5 6 1)), ([0x1441461], .mul (base 4 5 6 1)),
      ([0x1841460], .mulh (base 4 5 6 0)), ([0x1841461], .mulhu (base 4 5 6 1)), ([0x1C41460], .div (base 4 5 6 0)),
      ([0x1C41461], .divu (base 4 5 6 1)), ([0x1C41462], .rem (base 4 5 6 2)), ([0x1C41463], .remu (base 4 5 6 3)),
      ([0x2041460], .and (base 4 5 6 0)), ([0x2441461], .andi (base 4 5 6 1)), ([0x3041460], .xor (base 4 5 6 0)),
      ([0x3C41461], .shl (base 4 5 6 1)), ([0x4041461], .shr (base 4 5 6 1)), ([0x4441461], .sra (base 4 5 6 1)),
      ([0x4841461], .rotl (base 4 5 6 1)), ([0x4C41400], .clz (base 4 5 0 0)), ([0x4C41401], .ctz (base 4 5 0 1)),
      ([0x4C41402], .popc (base 4 5 0 2)), ([0x4C41403], .brev (base 4 5 0 3)), ([0x4C41404], .bswap (base 4 5 0 4)),
      ([0x5041460], .min (base 4 5 6 0)), ([0x5041461], .max (base 4 5 6 1)), ([0x5041462], .minu (base 4 5 6 2)),
      ([0x5041463], .maxu (base 4 5 6 3)), ([0x5441461], .sel (base 4 5 6 1)), ([0x5C41460], .insb (base 4 5 6 0)),
      ([0x6440061], .lih (base 4 0 6 1))] :
        List (List (BitVec 32) × Instr)).all decodes = true := by decide +kernel

/-- The spec's worked encodings: transfers and predicates. -/
theorem test_worked_control :
    ([
      ([0x83FFFFD], .b (base 63 63 63 13)), ([0x8510005], .bp (base 17 0 0 5)),
      ([0x8800000A, 0x40000, 0], .b { ext 0 0 0 10 with guard := ⟨4, false, 0, false, false⟩ }), ([0x8EE5000], .calli (base 46 20 0 0)),
      ([0x940B800], .ret (base 0 46 0 0)), ([0xC4128B2], .pwhile (base 1 10 11 2)), ([0xE4C0002], .vwid (base 12 0 0 2)),
      ([0x9005000], .jmpi (base 0 20 0 0))] :
        List (List (BitVec 32) × Instr)).all decodes = true := by decide +kernel

/-- Words of the other mnemonics: transfers and predicates (06 R158). -/
theorem test_decode_control :
    ([
      ([0x8841461], .call (base 4 5 6 1)), ([0x9801400], .throw (base 0 5 0 0)), ([0xC040061], .plim (base 4 0 6 1)),
      ([0xC841460], .pand (base 4 5 6 0)), ([0xCC41460], .por (base 4 5 6 0)), ([0xD041460], .pxor (base 4 5 6 0)),
      ([0xD441400], .pnot (base 4 5 0 0)), ([0xD841401], .pfirst (base 4 5 0 1)), ([0xDC41401], .pcnt (base 4 5 0 1)),
      ([0xE040000], .pmovxRd (base 4 0 0 0)), ([0xE001401], .pmovxWr (base 0 5 0 1))] :
        List (List (BitVec 32) × Instr)).all decodes = true := by decide +kernel

/-- The spec's worked encodings: vector floating point. -/
theorem test_worked_floats :
    ([
      ([0x90010830, 0, 0x20000000], .vfadd { ext 1 2 3 0 with fmt := 2 }),
      ([0x90C41462, 0x1C000000, 0x30000000], .vfma { ext 4 5 6 2 with c := 7, fmt := 3 }),
      ([0x90810800, 0, 0x2103F000], .vfmul { ext 1 2 0 0 with fmt := 2, bk := 1, imm20 := 0x3f000 }),
      ([0x95430421, 0x200000, 0x20000000], .vfcmp { ext 3 1 2 1 with e := 2, fmt := 2 }),
      ([0x95C82400, 0x200000, 0x38000001], .vfcvt { ext 8 9 0 0 with e := 2, fmt := 3, rnd := 2, imm20 := 1 }),
      ([0x90020801, 0, 0x2103F800], .vfadd { ext 2 2 0 1 with fmt := 2, bk := 1, imm20 := 0x3f800 }),
      ([0x90820811, 0, 0x20000000], .vfmul { ext 2 2 1 1 with fmt := 2 }),
      ([0xD0030C01, 0, 0x23000000, 0x3F800008, 0], .vfadd { ext 3 3 0 1 with form := .extLit 0x3f800008, fmt := 2, bk := 3 }),
      ([0x90840401, 0, 0x22000005], .vfmul { ext 4 1 0 1 with fmt := 2, bk := 2, imm20 := 5 }),
      ([0x90D45000, 0x4000020, 0x2103F000], .vfma { ext 20 20 0 0 with c := 1, ta := 1, fmt := 2, bk := 1, imm20 := 0x3f000 })] :
        List (List (BitVec 32) × Instr)).all decodes = true := by decide +kernel

/-- Words of the other mnemonics: vector floating point (06 R158). -/
theorem test_decode_floats :
    ([
      ([0x90441461, 0, 0x20000000], .vfsub { ext 4 5 6 1 with fmt := 2 }),
      ([0x91041461, 0x1C000000, 0x20000000], .vfms { ext 4 5 6 1 with c := 7, fmt := 2 }),
      ([0x91441461, 0x1C000000, 0x20000000], .vfnma { ext 4 5 6 1 with c := 7, fmt := 2 }),
      ([0x91841461, 0x1C000000, 0x20000000], .vfnms { ext 4 5 6 1 with c := 7, fmt := 2 }),
      ([0x91C41461, 0, 0x20000000], .vfmin { ext 4 5 6 1 with fmt := 2 }),
      ([0x92041461, 0, 0x20000000], .vfmax { ext 4 5 6 1 with fmt := 2 }),
      ([0x92441401, 0, 0x20000000], .vfabs { ext 4 5 0 1 with fmt := 2 }),
      ([0x92841401, 0, 0x20000000], .vfneg { ext 4 5 0 1 with fmt := 2 }),
      ([0x92C41461, 0, 0x20000000], .vfcps { ext 4 5 6 1 with fmt := 2 }),
      ([0x93041461, 0, 0x20000000], .vfdiv { ext 4 5 6 1 with fmt := 2 }),
      ([0x93441401, 0, 0x20000000], .vfsqrt { ext 4 5 0 1 with fmt := 2 }),
      ([0x93841401, 0, 0x20000000], .vfrcp { ext 4 5 0 1 with fmt := 2 }),
      ([0x93C41401, 0, 0x20000000], .vfrsq { ext 4 5 0 1 with fmt := 2 }),
      ([0x94041401, 0, 0x20000000], .vfexp2 { ext 4 5 0 1 with fmt := 2 }),
      ([0x94441401, 0, 0x20000000], .vflog2 { ext 4 5 0 1 with fmt := 2 }),
      ([0x94841401, 0, 0x20000000], .vfsin { ext 4 5 0 1 with fmt := 2 }),
      ([0x94C41401, 0, 0x20000000], .vfcos { ext 4 5 0 1 with fmt := 2 }),
      ([0x95041401, 0, 0x20000000], .vftanh { ext 4 5 0 1 with fmt := 2 }),
      ([0x95841401, 0, 0x20000000], .vfclass { ext 4 5 0 1 with fmt := 2 }),
      ([0x96041401, 0, 0x20000000], .vfrnd { ext 4 5 0 1 with fmt := 2 }),
      ([0x96441461, 0, 0x20000000], .vfscale { ext 4 5 6 1 with fmt := 2 }),
      ([0x96841461, 0x1C000000, 0x30000000], .vfdot2 { ext 4 5 6 1 with c := 7, fmt := 3 })] :
        List (List (BitVec 32) × Instr)).all decodes = true := by decide +kernel

/-- The spec's worked encodings: vector integers. -/
theorem test_worked_integers :
    ([
      ([0x99410410, 2, 0], .vxor { ext 1 1 1 0 with x := 2 }),
      ([0x9B4100A0, 1, 0x20000000], .vfill { ext 1 0 10 0 with x := 1, fmt := 2 })] :
        List (List (BitVec 32) × Instr)).all decodes = true := by decide +kernel

/-- Words of the other mnemonics: vector integers (06 R158). -/
theorem test_decode_integers :
    ([
      ([0x98041461, 0, 0x90000000], .vadd { ext 4 5 6 1 with fmt := 9 }),
      ([0x98441461, 0, 0x90000000], .vsub { ext 4 5 6 1 with fmt := 9 }),
      ([0x98841461, 0, 0x90000000], .vmul { ext 4 5 6 1 with fmt := 9 }),
      ([0x98C41461, 0, 0x90000000], .vmulh { ext 4 5 6 1 with fmt := 9 }),
      ([0x99041461, 0x1C000000, 0x90000000], .vmadd { ext 4 5 6 1 with c := 7, fmt := 9 }),
      ([0x99441461, 0, 0x20000000], .vand { ext 4 5 6 1 with fmt := 2 }),
      ([0x99441461, 1, 0x20000000], .vor { ext 4 5 6 1 with x := 1, fmt := 2 }),
      ([0x99441461, 3, 0x20000000], .vandn { ext 4 5 6 1 with x := 3, fmt := 2 }),
      ([0x99841461, 0, 0x90000000], .vshl { ext 4 5 6 1 with fmt := 9 }),
      ([0x99841461, 1, 0x90000000], .vshr { ext 4 5 6 1 with x := 1, fmt := 9 }),
      ([0x99841461, 2, 0x90000000], .vsra { ext 4 5 6 1 with x := 2, fmt := 9 }),
      ([0x99C41461, 0, 0x90000000], .vmin { ext 4 5 6 1 with fmt := 9 }),
      ([0x99C41461, 1, 0x90000000], .vmax { ext 4 5 6 1 with x := 1, fmt := 9 }),
      ([0x99C41461, 2, 0x90000000], .vminu { ext 4 5 6 1 with x := 2, fmt := 9 }),
      ([0x99C41461, 3, 0x90000000], .vmaxu { ext 4 5 6 1 with x := 3, fmt := 9 }),
      ([0x9A041401, 0, 0x90000000], .vabs { ext 4 5 0 1 with fmt := 9 }),
      ([0x9A441461, 0, 0x90000000], .vadds { ext 4 5 6 1 with fmt := 9 }),
      ([0x9A441461, 1, 0x90000000], .vsubs { ext 4 5 6 1 with x := 1, fmt := 9 }),
      ([0x9A841461, 0x800000, 0x90000000], .vcmp { ext 4 5 6 1 with e := 8, fmt := 9 }),
      ([0x9AC41461, 0, 0x20000000], .vsel { ext 4 5 6 1 with fmt := 2 }),
      ([0x9B041401, 0, 0x90000000], .vclz { ext 4 5 0 1 with fmt := 9 }),
      ([0x9B041401, 1, 0x90000000], .vpopc { ext 4 5 0 1 with x := 1, fmt := 9 }),
      ([0x9B441400, 0, 0x20000000], .vtag { ext 4 5 0 0 with fmt := 2 }),
      ([0x9B841401, 0, 0x20000000], .vmov { ext 4 5 0 1 with fmt := 2 }), ([0x9BC00000, 0, 0], .vrel (ext 0 0 0 0))] :
        List (List (BitVec 32) × Instr)).all decodes = true := by decide +kernel

/-- The spec's worked encodings: permutes and reductions. -/
theorem test_worked_permutes :
    ([
      ([0x9E410800, 0, 0x21000000], .vredadd { ext 1 2 0 0 with fmt := 2, bk := 1 }),
      ([0x9CC51800, 0x1C000000, 0x21000001], .vslideu { ext 5 6 0 0 with c := 7, fmt := 2, bk := 1, imm20 := 1 }),
      ([0x9E0B5000, 0, 0x21000000], .vext { ext 11 20 0 0 with fmt := 2, bk := 1 })] :
        List (List (BitVec 32) × Instr)).all decodes = true := by decide +kernel

/-- Words of the other mnemonics: permutes and reductions (06 R158). -/
theorem test_decode_permutes :
    ([
      ([0x9C041401, 0, 0x21000009], .vshuf { ext 4 5 0 1 with fmt := 2, bk := 1, imm20 := 9 }),
      ([0x9C441461, 0x1C000000, 0x20000000], .vperm { ext 4 5 6 1 with c := 7, fmt := 2 }),
      ([0x9C841461, 0, 0x20000000], .vbcast { ext 4 5 6 1 with fmt := 2 }),
      ([0x9CC41461, 0x1C000001, 0x20000000], .vslided { ext 4 5 6 1 with c := 7, x := 1, fmt := 2 }),
      ([0x9D041401, 0, 0x20000000], .vcomp { ext 4 5 0 1 with fmt := 2 }),
      ([0x9D441401, 0, 0x20000000], .vexp { ext 4 5 0 1 with fmt := 2 }),
      ([0x9D841461, 0, 0x20000001], .vzip { ext 4 5 6 1 with fmt := 2, imm20 := 1 }),
      ([0x9D841461, 1, 0x20000001], .vuzip { ext 4 5 6 1 with x := 1, fmt := 2, imm20 := 1 }),
      ([0x9DC41460, 0, 0x20000000], .vins { ext 4 5 6 0 with fmt := 2 }),
      ([0x9E841461, 0, 0x20000001], .vredmax { ext 4 5 6 1 with fmt := 2, imm20 := 1 }),
      ([0x9E841461, 1, 0x20000001], .vredmin { ext 4 5 6 1 with x := 1, fmt := 2, imm20 := 1 }),
      ([0x9EC41461, 0, 0x90000001], .vredand { ext 4 5 6 1 with fmt := 9, imm20 := 1 }),
      ([0x9EC41461, 1, 0x90000001], .vredor { ext 4 5 6 1 with x := 1, fmt := 9, imm20 := 1 }),
      ([0x9F041461, 0, 0x20000001], .vscanadd { ext 4 5 6 1 with fmt := 2, imm20 := 1 }),
      ([0x9F441401, 0x800000, 0x90000001], .vicvt { ext 4 5 0 1 with e := 8, fmt := 9, imm20 := 1 })] :
        List (List (BitVec 32) × Instr)).all decodes = true := by decide +kernel

/-- The spec's worked encodings: memory. -/
theorem test_worked_memory :
    ([
      ([0x20031023], .ld (base 3 4 2 3)),
      ([0xA0472003, 0x20000, 0x1000], .st { ext 7 8 0 3 with imm20 := 0x1000, guard := ⟨2, false, 0, false, false⟩ }),
      ([0x20892800], .lds (base 9 10 0 0)), ([0xA1C31091, 0, 8], .ldx { ext 3 4 9 1 with imm20 := 8 }),
      ([0x21955080], .few (base 21 20 8 0)), ([0x20440C03], .st (base 4 3 0 3)), ([0x22C00C00], .cinv (base 0 3 0 0)),
      ([0x21185400], .ldf (base 24 21 0 0))] :
        List (List (BitVec 32) × Instr)).all decodes = true := by decide +kernel

/-- Words of the other mnemonics: memory (06 R158). -/
theorem test_decode_memory :
    ([
      ([0x20C41460], .sts (base 4 5 6 0)), ([0x21441460], .ste (base 4 5 6 0)), ([0x22041463], .stx (base 4 5 6 3)),
      ([0x22401461], .pref (base 0 5 6 1)), ([0x22801460], .cflush (base 0 5 6 0))] :
        List (List (BitVec 32) × Instr)).all decodes = true := by decide +kernel

/-- The spec's worked encodings: vector memory. -/
theorem test_worked_vectorMemory :
    ([
      ([0xA4011000, 0, 0x20000040], .vld { ext 1 4 0 0 with fmt := 2, imm20 := 64 }),
      ([0xA5021031, 0x200000, 0x20000000], .vgath { ext 2 4 3 1 with e := 2, fmt := 2 }),
      ([0xA5811002, 0, 0x90000000], .vldff { ext 1 4 0 2 with fmt := 9 }),
      ([0xA4420C01, 0, 0x20000000], .vst { ext 2 3 0 1 with fmt := 2 })] :
        List (List (BitVec 32) × Instr)).all decodes = true := by decide +kernel

/-- Words of the other mnemonics: vector memory (06 R158). -/
theorem test_decode_vectorMemory :
    ([
      ([0xA4841461, 0, 0x20000005], .vlds { ext 4 5 6 1 with fmt := 2, imm20 := 5 }),
      ([0xA4C41461, 0, 0x20000005], .vsts { ext 4 5 6 1 with fmt := 2, imm20 := 5 }),
      ([0xA5441461, 0x200000, 0x20000005], .vscat { ext 4 5 6 1 with e := 2, fmt := 2, imm20 := 5 })] :
        List (List (BitVec 32) × Instr)).all decodes = true := by decide +kernel

/-- The spec's worked encodings: atomics. -/
theorem test_worked_atomics :
    ([
      ([0xA7031053, 0x18000000, 0], .acas { ext 3 4 5 3 with c := 6 }),
      ([0xA60E0803, 0, 0x1000001], .aadd { ext 14 2 0 3 with bk := 1, imm20 := 1 }),
      ([0xA7CE28D3, 0x2C000000, 0], .apcas { ext 14 10 13 3 with c := 11 })] :
        List (List (BitVec 32) × Instr)).all decodes = true := by decide +kernel

/-- Words of the other mnemonics: atomics (06 R158). -/
theorem test_decode_atomics :
    ([
      ([0xA6441462, 0, 0], .aand (ext 4 5 6 2)), ([0xA6441462, 1, 0], .aor { ext 4 5 6 2 with x := 1 }),
      ([0xA6441462, 2, 0], .axor { ext 4 5 6 2 with x := 2 }), ([0xA6841462, 0, 0], .amin (ext 4 5 6 2)),
      ([0xA6841462, 1, 0], .amax { ext 4 5 6 2 with x := 1 }), ([0xA6841462, 2, 0], .aminu { ext 4 5 6 2 with x := 2 }),
      ([0xA6841462, 3, 0], .amaxu { ext 4 5 6 2 with x := 3 }), ([0xA6C41462, 0, 0], .aswap (ext 4 5 6 2)),
      ([0xA7441462, 0, 0], .agts (ext 4 5 6 2)), ([0xA7841463, 0x1C000000, 0], .avcas { ext 4 5 6 3 with c := 7 })] :
        List (List (BitVec 32) × Instr)).all decodes = true := by decide +kernel

/-- The spec's worked encodings: ordering and synchronization. -/
theorem test_worked_sync :
    ([
      ([0x29142001], .watch (base 20 8 0 1)), ([0x29950003], .sleep (base 21 0 0 3)), ([0x28800005], .rel (base 0 0 0 5)),
      ([0xAA541461, 0x30000000, 0], .putn { ext 20 5 6 1 with c := 12 }),
      ([0xAA235220, 0, 0x40], .barw { ext 35 20 34 0 with imm20 := 64 }), ([0x28C00000], .drain (base 0 0 0 0)),
      ([0x2A0D08B0], .barw (base 13 2 11 0)), ([0xAA0D0800, 0, 0x1000006], .barw { ext 13 2 0 0 with bk := 1, imm20 := 6 }),
      ([0xA99501F0, 0, 0], .sleep (ext 21 0 31 0))] :
        List (List (BitVec 32) × Instr)).all decodes = true := by decide +kernel

/-- Words of the other mnemonics: ordering and synchronization (06 R158). -/
theorem test_decode_sync :
    ([
      ([0x28000001], .fence (base 0 0 0 1)), ([0x28400001], .acq (base 0 0 0 1)), ([0x29400061], .unwatch (base 0 0 6 1)),
      ([0x29C41460], .bar (base 4 5 6 0)), ([0x2A840001], .fempty (base 4 0 0 1)), ([0x2AC40001], .ffull (base 4 0 0 1))] :
        List (List (BitVec 32) × Instr)).all decodes = true := by decide +kernel

/-- The spec's worked encodings: loops, regions and tempo. -/
theorem test_worked_loops :
    ([
      ([0xAC002800, 0, 6], .loop { ext 0 10 0 0 with imm20 := 6 }), ([0xAC000000, 1, 0], .lend { ext 0 0 0 0 with x := 1 }),
      ([0xAC002C01, 2, 0], .lbrk { ext 0 11 0 1 with x := 2 }), ([0xAC400000, 0, 0], .dsplit (ext 0 0 0 0)),
      ([0xAC9C1400, 0, 0x20000000], .qpush { ext 28 5 0 0 with fmt := 2 }), ([0xAC837400, 1, 0], .qpop { ext 3 29 0 0 with x := 1 }),
      ([0x2D142001], .iter (base 20 8 0 1)), ([0x2D4C0000], .tidx (base 12 0 0 0)), ([0x2D800000], .texp (base 0 0 0 0)),
      ([0xADC00000, 0x10000, 0], .brko { ext 0 0 0 0 with guard := ⟨1, false, 0, false, false⟩ }),
      ([0xAD5B0000, 0x10000, 0], .tidx { ext 27 0 0 0 with guard := ⟨1, false, 0, false, false⟩ })] :
        List (List (BitVec 32) × Instr)).all decodes = true := by decide +kernel

/-- Words of the other mnemonics: loops, regions and tempo (06 R158). -/
theorem test_decode_loops :
    ([
      ([0xAC400000, 1, 0], .djoin { ext 0 0 0 0 with x := 1 }), ([0xACC01400, 0, 5], .qbr { ext 0 5 0 0 with imm20 := 5 })] :
        List (List (BitVec 32) × Instr)).all decodes = true := by decide +kernel

/-- The spec's worked encodings: tasks and launches. -/
theorem test_worked_tasks :
    ([
      ([0x2E000010], .spawn (base 0 0 1 0)), ([0x2F942000], .launch (base 20 8 0 0)),
      ([0xAF4028B4, 0x10000000, 0], .msg { ext 0 10 11 4 with c := 4 })] :
        List (List (BitVec 32) × Instr)).all decodes = true := by decide +kernel

/-- Words of the other mnemonics: tasks and launches (06 R158). -/
theorem test_decode_tasks :
    ([
      ([0xAE401400, 0, 0], .susp (ext 0 5 0 0)), ([0xAE441460, 1, 0], .resm { ext 4 5 6 0 with x := 1 }),
      ([0xAE840000, 0, 0], .finb (ext 4 0 0 0)), ([0xAE800000, 1, 0], .fine { ext 0 0 0 0 with x := 1 }),
      ([0xAE801400, 2, 0], .finw { ext 0 5 0 0 with x := 2 }), ([0x2EC01400], .migr (base 0 5 0 0)),
      ([0x2F041400], .armt (base 4 5 0 0)), ([0xAFC00000, 0, 0], .trigger (ext 0 0 0 0)),
      ([0xAFC00000, 1, 0], .waitp { ext 0 0 0 0 with x := 1 })] :
        List (List (BitVec 32) × Instr)).all decodes = true := by decide +kernel

/-- The spec's worked encodings: engines. -/
theorem test_worked_engines :
    ([
      ([0xB1C00000, 0x4000000, 0x1000080], .eset { ext 0 0 0 0 with c := 1, bk := 1, imm20 := 128 }),
      ([0xF1C10002, 0, 0x3000000, 0x4020, 0x20000000], .eset { ext 1 0 0 2 with form := .extLit 0x2000000000004020, bk := 3 }),
      ([0xB0540400, 0xC300000, 0x20000000], .mma { ext 20 1 0 0 with c := 3, e := 3, fmt := 2 }),
      ([0xB0140400, 0xC300000, 0x21000102], .gang { ext 20 1 0 0 with c := 3, e := 3, fmt := 2, bk := 1, imm20 := 258 }),
      ([0xF0800000, 0, 0x3000000, 0x253001, 0x10000], .mprog { ext 0 0 0 0 with form := .extLit 0x1000000253001, bk := 3 }),
      ([0xB3C51800, 0, 0], .mres (ext 5 6 0 0)), ([0xB2DA0000, 0, 0], .cpy (ext 26 0 0 0)), ([0xB1C00080, 0, 0], .eset (ext 0 0 8 0))] :
        List (List (BitVec 32) × Instr)).all decodes = true := by decide +kernel

/-- Words of the other mnemonics: engines (06 R158). -/
theorem test_decode_engines :
    ([
      ([0xB0C01400, 0, 0], .mzero (ext 0 5 0 0)), ([0xB1041460, 0, 0], .mrd (ext 4 5 6 0)), ([0xB1441460, 0, 0], .mwr (ext 4 5 6 0)),
      ([0xB1841400, 0, 0x20000000], .mst { ext 4 5 0 0 with fmt := 2 }),
      ([0xB2040001, 0x1C000000, 0], .eget { ext 4 0 0 1 with c := 7 }), ([0xB2440001, 0, 0], .ego (ext 4 0 0 1)),
      ([0xB2841400, 0, 0], .ecan (ext 4 5 0 0)), ([0xB2841400, 1, 0], .eqry { ext 4 5 0 0 with x := 1 }),
      ([0xB3041401, 0, 0x20000005], .cpyr { ext 4 5 0 1 with fmt := 2, imm20 := 5 }), ([0xB3440001, 0, 0], .cpyrow (ext 4 0 0 1)),
      ([0xB3840000, 0, 0], .cbook (ext 4 0 0 0))] :
        List (List (BitVec 32) × Instr)).all decodes = true := by decide +kernel

/-- The spec's worked encodings: threads and system. -/
theorem test_worked_system :
    ([
      ([0xB4051800, 0, 0], .tstop (ext 5 6 0 0)), ([0xB4451890, 0x700000, 0], .tread { ext 5 6 9 0 with e := 7 }),
      ([0xB5430000, 0x50000000, 0], .srd { ext 3 0 0 0 with c := 20 }), ([0x35840000], .vtime (base 4 0 0 0)),
      ([0xB5C00000, 0, 0x1000005], .trap { ext 0 0 0 0 with bk := 1, imm20 := 5 }), ([0xB7800001, 0, 0], .exitChild (ext 0 0 0 1)),
      ([0xB7800000, 1, 0], .yield { ext 0 0 0 0 with x := 1 }), ([0xB5400060, 0x14000001, 0], .swr { ext 0 0 6 0 with c := 5, x := 1 }),
      ([0xB7002800, 0, 0x1000000], .tlbinv { ext 0 10 0 0 with bk := 1 }), ([0xB6051800, 0, 0], .psplit (ext 5 6 0 0)),
      ([0xB6051800, 1, 0], .pmerge { ext 5 6 0 0 with x := 1 }), ([0x36451800], .genbump (base 5 6 0 0))] :
        List (List (BitVec 32) × Instr)).all decodes = true := by decide +kernel

/-- Words of the other mnemonics: threads and system (06 R158). -/
theorem test_decode_system :
    ([
      ([0xB4041400, 1, 0], .tstart { ext 4 5 0 0 with x := 1 }), ([0xB4841460, 0x1C000000, 0], .twrite { ext 4 5 6 0 with c := 7 }),
      ([0x34C41400], .tstep (base 4 5 0 0)), ([0xB5041460, 0, 0], .tgrant (ext 4 5 6 0)),
      ([0xB5041460, 1, 0], .trevoke { ext 4 5 6 0 with x := 1 }), ([0xB5C00000, 1, 0], .brk { ext 0 0 0 0 with x := 1 }),
      ([0x36841400], .cast (base 4 5 0 0)), ([0x36C00000], .step (base 0 0 0 0)), ([0x37441461], .cohere (base 4 5 6 1)),
      ([0xB7800000, 0, 0], .exit (ext 0 0 0 0))] :
        List (List (BitVec 32) × Instr)).all decodes = true := by decide +kernel

/-! ### Well-formedness: a term for each check, which the check refuses, and the failures of decoding -/

/-- R145, R146, R153: unused fields, registers beyond their file, a selector or modifier that is not listed, and a form that the entry
does not take. -/
theorem test_illFormedWord :
    ([.nop (base 1 0 0 0), .nop (base 0 0 0 1), .clz (base 1 2 3 0), .clz (base 1 2 0 1), .add (base 1 2 3 2),
      .vfadd { ext 32 1 2 0 with fmt := 2 }, .pand (base 16 1 2 0), .pand (base 1 2 16 0), .mma { ext 20 8 0 0 with c := 3, e := 3, fmt := 2 },
      .qpush { ext 27 5 0 0 with fmt := 2 }, .add { ext 16 3 4 0 with x := 1 }, .cmp (base 16 3 4 2), .bp (base 32 0 0 5),
      .eset (ext 8 0 5 2),
      .vfadd { base 1 2 3 0 with fmt := 2 }, .vmov (base 1 2 0 0), .tstop (base 5 6 0 0), .cmpi { ext 1 2 3 0 with form := .ext },
      .clz { base 1 2 0 0 with form := .baseLit 5 }, .add { base 1 2 3 0 with form := .baseLit 5 }, .ld { base 1 2 0 3 with form := .baseLit 5 },
      .tstop { ext 5 6 0 0 with form := .extLit 5, bk := 3 }, .add { base 1 2 3 0 with c := 1 }] : List Instr).all
      (fun i => i.reject == some .illegalForm && !i.wellFormed) = true := by decide +kernel

/-- R147 to R154, R64, R186: the extended words. -/
theorem test_illFormedExtended :
    ([.add { ext 1 2 3 0 with c := 1 }, .add { ext 1 2 3 0 with e := 1 }, .add { ext 1 2 3 0 with guard := ⟨3, false, 0, false, true⟩ },
      .add { ext 1 2 3 0 with h := 1 }, .vtime { ext 1 0 0 0 with ta := 1 }, .pand { ext 1 2 3 0 with ta := 1 },
      .add { ext 1 2 0 0 with tb := 1, bk := 1 }, .tstop { ext 5 6 0 0 with x := 2 }, .vshl { ext 1 2 3 0 with x := 3, fmt := 9 },
      .sub { ext 1 2 3 0 with x := 4, b := 16 }, .add { ext 1 2 3 0 with fmt := 2 }, .vfadd { ext 1 2 3 0 with fmt := 9 },
      .vadd { ext 1 2 3 0 with fmt := 2 }, .vmov { ext 1 2 0 0 with fmt := 14 }, .vadd { ext 1 2 3 0 with fmt := 9, rnd := 1 },
      .add { ext 1 2 3 0 with bk := 1 }, .add { ext 1 2 3 0 with imm20 := 1 }, .add { ext 1 2 0 0 with bk := 2, imm20 := 256 },
      .add { ext 1 2 0 0 with form := .extLit 5, bk := 3, imm20 := 1 }, .add { ext 1 2 0 0 with bk := 3 },
      .add { ext 1 2 0 0 with form := .extLit 5 }, .clz { ext 1 2 0 0 with bk := 1 }, .addi { ext 1 2 0 0 with bk := 2 },
      .vfadd { ext 1 2 0 0 with form := .extLit 0x100000000, fmt := 2, bk := 3 }] : List Instr).all
      (fun i => i.reject == some .illegalForm && !i.wellFormed) = true := by decide +kernel

/-- The checks of single entries: a part number, a start operand, a local atomic's E and offset, PUTN's vector, FEMPTY's, an index of an
engine register, a LOOP's offset, LBRK's A, a read-only register, VLDFF without a predicate, VSHUF's selector; and combinations that are not
implemented (R160 steps 4 and 5). -/
theorem test_illFormedEntry :
    (([.vfcvt { ext 8 9 0 0 with e := 2, fmt := 3, imm20 := 2 }, .vredadd { ext 1 2 3 0 with fmt := 2 },
       .vredadd { ext 1 2 0 0 with fmt := 9, rnd := 1 }, .aadd { ext 1 2 3 3 with e := 4 }, .aadd { ext 1 2 3 3 with imm20 := 8 },
       .aadd { ext 1 2 3 11 with e := 4, imm20 := 6 }, .putn { ext 20 32 6 5 with c := 1 }, .fempty (base 32 0 0 1),
       .eset { ext 1 0 5 0 with c := 1 }, .eget { ext 1 0 0 0 with c := 16 }, .mst { ext 1 8 0 0 with fmt := 2 }, .cpyr { ext 1 2 0 0 with fmt := 2 },
       .loop { ext 0 10 0 0 with imm20 := 0 }, .lbrk { ext 0 10 0 0 with x := 2 }, .swr { ext 0 0 5 0 with c := 20, x := 1 },
       .srd { ext 3 0 0 0 with c := 24 }, .vldff { ext 1 4 0 0 with fmt := 9 }, .vshuf { ext 1 2 0 0 with bk := 1, imm20 := 256, fmt := 2 },
       .trap (ext 0 0 0 0)] : List Instr).all (fun i => i.reject == some .illegalForm && !i.wellFormed) &&
     ([.vfdiv { ext 1 2 3 0 with fmt := 5 }, .vfexp2 { ext 1 2 0 0 with fmt := 1 }, .vfdot2 { ext 1 2 3 0 with c := 4, fmt := 2 },
       .vfcvt { ext 8 9 0 0 with e := 9, fmt := 9 }, .vicvt { ext 8 9 0 0 with e := 2, fmt := 9 }, .vgath { ext 2 4 3 1 with e := 2, fmt := 3 },
       .avcas { ext 1 2 3 2 with c := 4 }, .mma { ext 20 1 0 0 with c := 3, e := 4, fmt := 2 }, .mst { ext 1 1 0 0 with fmt := 1 },
       .qpush { ext 28 5 0 0 with fmt := 13 }] : List Instr).all (fun i => i.reject == some .unsupported && !i.wellFormed) &&
     !Instr.wellFormed (.csel 5) && Instr.reject (.csel 5) == some .illegalOpcode) = true := by decide +kernel

/-- Words that decode to nothing: OP 0x00, 0xFF and the reserved ones, a selector and a length that are not listed, the reserved bits of
word 2, a format that is not implemented, a word that is missing (R158 to R160). -/
theorem test_decodeRefusals :
    (decodeWords [0] == .error .illegalOpcode && decodeWords [0x3FC00000] == .error .illegalOpcode &&
      [0x1E, 0x1F, 0x27, 0x2F, 0x3A, 0x5B, 0x7E, 0x8C, 0x97, 0xAC, 0xDF, 0xE0, 0xFE].all (fun op =>
        decodeWords [BitVec.ofNat 32 (op * 2 ^ 22)] == .error .illegalOpcode) &&
      decodeWords [0x04C41405] == .error .illegalForm && decodeWords [0xB4051800, 2, 0] == .error .illegalForm &&
      decodeWords [0x40400000, 0] == .error .illegalForm && decodeWords [0x34051800] == .error .illegalForm &&
      decodeWords [0xB4051800, 0, 0x00100000] == .error .illegalForm && decodeWords [0x93010830, 0, 0x50000000] == .error .unsupported &&
      decodeWords [0xB4051800, 0] == .error .truncated && decodeWords [] == .error .truncated) = true := by decide +kernel

/-! ### Witnesses: operands, scalar instructions, transfers, predicates -/

/-- p1 reads 0: a guard on p1 is false. -/
theorem test_falseGuard :
    let f : Fields := { ext 5 1 2 0 with guard := ⟨1, false, 0, false, false⟩ }
    ((Instr.add f).entry.map (·.2.2) == some f && lab.strand? 0 == some st0 && st0.region.isNone && !Guard.eval f.guard st0.lane0 &&
      gives (.add f) lab (lab.setStrand 0 { st0 with pc := 0x100C })) = true := by decide +kernel

/-- Registers 47 and 48 on either side of the slow partition, and every kind of operand. -/
theorem test_scalarOperands :
    (issues lab (base 5 47 48 0) (fun st => st.xFull.getLsbD 47 && st.xFull.getLsbD 48) &&
      yields (readX 47) lab (fun v t => v == 0 && t == lab) &&
      yields (readX 48) lab (fun _ t => t == lab.slowed 0 st0 true) &&
      yields (srcA { base 5 3 0 0 with x := 2 }) lab (fun v _ => v == 0) &&
      yields (srcB (word (.baseLit 0xFFFFFFFE))) lab (fun v _ => v == 0xFFFFFFFFFFFFFFFE) &&
      yields (srcB (word (.extLit 0x123456789))) lab (fun v _ => v == 0x123456789) &&
      yields (srcB { word .ext with bk := 1, imm20 := 0xFFFFF }) lab (fun v _ => v == 0xFFFFFFFFFFFFFFFF) &&
      yields (srcB { word .ext with bk := 2, imm20 := 0x3FFFF }) lab (fun v _ => v == 0x0303030303030303) &&
      yields (srcB (base 0 0 3 0)) lab (fun v _ => v == 5) &&
      yields (operandI (base 0 0 0x3F 15)) lab (fun v _ => v == 0xFFFFFFFFFFFFFFFF)) = true := by decide +kernel

/-- An empty register A parks the strand at the instruction. -/
theorem test_emptySource :
    let s := labOf { st0 with xFull := ~~~2 }
    (issues s (base 5 1 2 0) (fun st => !st.xFull.getLsbD 1) &&
      strandAfter (.add (base 5 1 2 0)) s fun _ st => st.state == .parked && st.await == .fullX 1 && st.pc == 0x1000) = true := by
  decide +kernel

/-- The value of the item before in a scalar and in a lane register; an entry that has not come; a reader past the break; a distance
beyond the largest, a register without an export, a strand that is no item (12 R279, R285). -/
theorem test_tempoOperands :
    let e : List Export := [⟨false, 7, 8, []⟩, ⟨true, 2, 9, []⟩]
    let at_ (item : Bool) (fwd : SMap FwdVal) (brk : Nat) : State :=
      { (labOf { stV with isItem := item, item := 6, fwd := fwd }).editCore 0 (fun k => { k with brk := [(0, brk)] }) with
        launches := [(0, { launch0 with maxd := 1, exports := e })] }
    let s := at_ true [(4, ⟨77, 8⟩), (5, ⟨99, 9⟩)] 7
    let f : Fields := { ext 8 7 3 0 with ta := 1 }
    let illegal (f : Fields) (item : Bool) : Bool := strandAfter (.add f) (at_ item [(4, ⟨77, 8⟩)] 7) fun _ st => st.lcause == 2
    (issues s f (fun st => st.isItem && st.item == 6) && s.broken stV == false && (s.strand? 0).any (fun st => !s.broken st) &&
      yields (srcA f) s (fun a t => a == 77 && t == s) && yields (operandV 2 1) s (fun v t => v == (99, 9) && t == s) &&
      strandAfter (.add f) s (fun _ st => st.x[8] == 82) &&
      strandAfter (.add f) (at_ true [] 7) (fun _ st => st.state == .parked && st.await == .forward 1 0 && st.pc == 0x1000) &&
      leaves (exec (.add f) (at_ true [(4, ⟨77, 8⟩)] 5)) (fun t => t.strands == []) &&
      illegal { f with ta := 2 } true && illegal { f with a := 6 } true && illegal f false) = true := by decide +kernel

/-- Two sources, one source, an immediate, D as a source. -/
theorem test_scalarResults :
    (issues lab (base 7 1 2 0) (fun _ => true) &&
      yields (srcA (base 7 1 2 0)) lab (fun a r => a == 0x2000 && yields (srcB (base 7 1 2 0)) r fun b _ => b == 0x1122334455667788) &&
      yields (operandI (base 7 1 2 0)) lab (fun b _ => b == 0x20) &&
      yields (oldD (base 2 1 2 0)) lab (fun d _ => d == 0x1122334455667788) &&
      strandAfter (.sub (base 7 1 2 0)) lab (fun _ st => st.x[7] == 0xEEDDCCBBAA99A878 && st.pc == 0x1004) &&
      strandAfter (.bswap (base 7 2 0 4)) lab (fun _ st => st.x[7] == 0x8877665544332211)) = true := by decide +kernel

/-- Shifts and rotations by 64 + 5 count modulo 64, and M = 1 works on words (07 R167). -/
theorem test_shifts :
    let s := labOf { st0 with x := st0.x.setIfInBounds 3 69 }
    (strandAfter (.shl (base 7 2 3 0)) s (fun _ st => st.x[7] == 0x2446688AACCEF100) &&
      strandAfter (.sra (base 7 5 3 0)) s (fun _ st => st.x[7] == 0xFFFFFFFFFFFFFFFF) &&
      strandAfter (.shr (base 7 5 3 1)) s (fun _ st => st.x[7] == 0x7FFFFFF)) = true := by decide +kernel

/-- A zero divisor, −1, and the most negative dividend over −1. -/
theorem test_division :
    let low := labOf { st0 with x := st0.x.setIfInBounds 2 0x8000000000000000 }
    (yields (srcA (base 7 2 4 0)) lab (fun _ r => yields (srcB (base 7 2 4 0)) r fun b _ => b == 0) &&
      strandAfter (.div (base 7 2 4 0)) lab (fun _ st => st.state == .stopped && st.lcause == 13 && st.x[7] == 0) &&
      yields (srcA (base 7 3 5 0)) lab (fun a r => a == 5 && yields (srcB (base 7 3 5 0)) r fun b _ => b == 0xFFFFFFFFFFFFFFFF) &&
      strandAfter (.div (base 7 3 5 0)) lab (fun _ st => st.x[7] == 0xFFFFFFFFFFFFFFFB && st.long == 2) &&
      yields (srcA (base 7 2 5 0)) low (fun a r => a == 0x8000000000000000 &&
        yields (srcB (base 7 2 5 0)) r fun b _ => b == 0xFFFFFFFFFFFFFFFF) &&
      strandAfter (.rem (base 7 2 5 2)) low (fun _ st => st.x[7] == 0)) = true := by decide +kernel

/-- A field that ends at bit 63 and one that is clipped there: position 60, width 8 (07 R169). -/
theorem test_bitFields :
    let s := labOf { st0 with x := st0.x.setIfInBounds 3 (60 + 7 * 64) }
    (yields (srcA (base 7 2 3 0)) s (fun _ r => yields (srcB (base 7 2 3 0)) r fun b t => b == 508 &&
        yields (oldD (base 7 2 3 0)) t fun _ _ => true) &&
      strandAfter (.extb (base 7 2 3 0)) s (fun _ st => st.x[7] == 1) &&
      strandAfter (.insb (base 7 5 3 0)) s (fun _ st => st.x[7] == 0xF000000000000000)) = true := by decide +kernel

/-- −1 is below 5 as a signed number and above it as an unsigned one (07 R172). -/
theorem test_comparisons :
    (issues lab (base 1 5 3 2) (fun _ => true) &&
      strandAfter (.cmp (base 1 5 3 2)) lab (fun _ st => st.lane0 1) &&
      strandAfter (.cmp (base 1 5 3 4)) lab (fun _ st => !st.lane0 1) &&
      strandAfter (.cmpi (base 1 5 0x3F 0)) lab (fun _ st => st.lane0 1)) = true := by decide +kernel

/-- A value where an operation that may wait gives one. -/
def given {α : Type} : Except Await α → Option α
  | .ok v => some v
  | .error _ => none

def codeAt (s : State) (va : Word) : Bool := targetProblem va == none && given (s.startBit 0 0 0 0 va).1 == some (some true)

/-- A forward B, a CALLI, a THROW with its vector, and a BP whose predicate is 0. -/
theorem test_transfers :
    let s := { labOf { st0 with x := st0.x.setIfInBounds 6 0x1100 } with
      ctxs := [(0, { Ctx.fresh none 0 0x10000000000000 Rect.module.leafId 0 with thv := 0x1200 })] }
    (issues s (base 0 0 1 0) (fun st => st.lane0 1 == false && st.lane0 1 != true) && codeAt s 0x1040 && codeAt s 0x1100 && codeAt s 0x1200 &&
      strandAfter (.b (base 0 0 1 0)) s (fun _ st => st.pc == 0x1040) &&
      strandAfter (.calli (base 9 6 0 0)) s (fun _ st => st.pc == 0x1100 && st.x[9] == 0x1004) &&
      strandAfter (.bp (base 0x11 0 1 0)) s (fun _ st => st.pc == 0x1040) &&
      strandAfter (.bp (base 0x01 0 1 0)) s (fun _ st => st.pc == 0x1004) &&
      strandAfter (.throw (base 0 6 0 0)) s (fun _ st => st.pc == 0x1200 && st.x[0] == 0x1100 && st.x[1] == 0x1000)) = true := by
  decide +kernel

/-- Targets at 2^57, 2^48, with a low bit, without a start bit (07 R176); no throw vector (07 R177). -/
theorem test_badTargets :
    let x := ((st0.x.setIfInBounds 6 0x200000000000000).setIfInBounds 7 0x1000000000000).setIfInBounds 8 0x1102
    let s := labOf { st0 with x := x.setIfInBounds 9 0x4000 }
    let cause (r : BitVec 6) : Nat :=
      match exec (.jmpi (base 0 r 0 0)) s with
      | .next t => ((t.strand? 0).map (·.lcause.toNat)).getD 0
      | _ => 0
    (cause 6 == 7 && cause 7 == 7 && cause 8 == 12 && cause 9 == 4 && given (s.startBit 0 0 0 0 0x4000).1 == some (some false) &&
      ((s.ctx? 0).map (·.thv)) == some 0 && strandAfter (.throw (base 0 6 0 0)) s (fun _ st => st.lcause == 14)) = true := by
  decide +kernel

/-- Every transfer to a target above 2^57, with a clear start bit and whose line is not there; THROW to such handlers (07 R176, R177). -/
theorem test_transferTraps :
    let at_ (v thv : Word) : State := { labOf { st0 with x := st0.x.setIfInBounds 6 v } with
      ctxs := [(0, { Ctx.fresh none 0 0x10000000000000 Rect.module.leafId 0 with thv := thv })] }
    let through : List Instr := [.calli (base 9 6 0 0), .jmpi (base 0 6 0 0), .ret (base 0 6 0 0)]
    let near (a b m : Nat) : List Instr :=
      [.b (base (if a == 0x3E then 0x3F else 0) (BitVec.ofNat 6 a) (BitVec.ofNat 6 b) (BitVec.ofNat 4 m)),
       .call (base (if a == 0x3E then 0x3F else 0) (BitVec.ofNat 6 a) (BitVec.ofNat 6 b) (BitVec.ofNat 4 m)),
       .bp (base 0 (BitVec.ofNat 6 a) (BitVec.ofNat 6 b) (BitVec.ofNat 4 m))]
    let trap (s : State) (i : Instr) (cause : Nat) : Bool := strandAfter i s fun _ st => st.lcause.toNat == cause && st.pc == 0x1000 && st.x[46] == 0
    let waits (s : State) (i : Instr) : Bool := strandAfter i s fun _ st => st.state == .parked && st.await == .reply && st.pc == 0x1000
    let throw (thv : Word) (cause : Nat) : Bool := trap (at_ 5 thv) (.throw (base 0 6 0 0)) cause
    (through.all (fun i => trap (at_ 0x200000000000000 0) i 7 && trap (at_ 0x1000000000000 0) i 7 && trap (at_ 0x1102 0) i 12 &&
        trap (at_ 0x4000 0) i 4 && waits (at_ 0x2000 0) i) &&
      (near 0x3E 0x3F 15).all (fun i => trap lab i 7) && (near 3 0 0).all (fun i => trap lab i 4) && (near 1 0 0).all (fun i => waits lab i) &&
      strandAfter (.bp (base 0x10 3 0 0)) lab (fun _ st => st.pc == 0x1004) &&
      throw 0 14 && throw 0x200000000000000 7 && throw 0x1000000000000 7 && throw 0x1202 12 && throw 0x4000 4 &&
      waits (at_ 5 0x2000) (.throw (base 0 6 0 0))) = true := by decide +kernel

/-- A strand with a context at hand and one without; PLIM over a boundary; the first element. -/
theorem test_predicates :
    let full := { lab with strands := (List.range 8).map (fun i => (i + 1, { stV with place := .slot (i + 1) })) ++ [(9, st0)] }
    (issues labV (base 1 3 0 2) (fun st => st.vec.any (!·.spilled)) && st0.vec.all (!·.spilled) &&
      yields (operandB (base 1 0 3 2)) labV (fun b _ => b == 5) &&
      strandAfter (.plim (base 1 0 3 2)) labV (fun _ st => st.predBits 1 == 0xFFFFF#512) &&
      strandAfter (.pfirst (base 1 0 0 2)) labV (fun _ st => st.predBits 1 == 0xF#512) &&
      lab.boundContexts 0 == 0 && full.boundContexts 0 == 8 &&
      strandAfter (.plim (base 1 0 3 2)) lab (fun _ st => st.vec.any fun v => !v.spilled && v.tag[0] == 0) &&
      strandAfter (.plim (base 0 0 3 2)) lab (fun _ st => st.vec.isNone) &&
      strandAfter (.pmovxWr (base 0 3 0 1)) labV (fun _ st => st.lane0 2 && !st.lane0 1 && st.pw == stV.pw && st.vec.any fun v =>
        stV.vec.any fun w => v.v == w.v && (v.p[1]).getLsbD 511 == (w.p[1]).getLsbD 511 && v.p[2] == (w.p[2] ||| 0xF)) &&
      strandAfter (.pwhile (base 1 3 2 10)) labV (fun _ st => st.predBits 1 == BitVec.allOnes 512) &&
      strandAfter (.pmovxWr (base 0 3 0 1)) lab (fun _ st => st.lane0 2 && !st.lane0 1)) = true := by decide +kernel

/-! ### Witnesses: vectors -/

/-- v1, v2 and v3 as vectors of one tag; element 0 of each is 0, 1.0 or 7. -/
def stTag (tag : BitVec 4) : Strand :=
  { st0 with vec := some { st0.freshVec with
      v := (((Vector.replicate 32 0).setIfInBounds 1 (ofElems 32 (List.range 128))).setIfInBounds 2
        (ofElems 32 (List.replicate 128 0x3F800000))).setIfInBounds 3 (ofElems 32 (List.replicate 128 7))
      tag := Vector.replicate 32 tag } }

/-- Element `e` of v(r) of width `w` of strand 0 after an instruction. -/
def elemAfter (i : Instr) (s : State) (w r e : Nat) : Option Nat :=
  match exec i s with
  | .next t => (t.strand? 0).bind fun st => st.vec.map fun v => ((v.v[r]?).getD 0).toNat / 2 ^ (w * e) % 2 ^ w
  | _ => none

def fitting (l : List (VSrc × Nat)) : Bool := l.all fun e => e.1.tag == none || e.1.tag == some (BitVec.ofNat 4 e.2)

/-- Three sources of binary32 that fit, under a governing predicate that is all ones; 1.0 + 1.0 = 2.0 and 1.0·1.0 + 1.0 (08 R187). -/
theorem test_vectorFloat :
    let s := labOf (stTag 2)
    let f : Fields := { ext 5 2 2 0 with c := 2, fmt := 2 }
    (issues s f (fun st => st.vec.any (!·.spilled)) &&
      yields (vreg 32 f.a f.ta) s (fun a s1 => fitting [(a, 2)] && yields (srcBfp f 2 (envOf 0 0)) s1 fun b s2 => fitting [(b, 2)] &&
        yields (vreg 32 f.c 0) s2 fun c s3 => fitting [(c, 2)] && yields (oldElems f 32) s3 fun old _ => old.length == 128) &&
      elemAfter (.vfadd f) s 32 5 127 == some 0x40000000 && elemAfter (.vfma f) s 32 5 0 == some 0x40000000) = true := by
  decide +kernel

/-- Sums, products, quotients and fused forms: exact, rounded by mode, overflowing, zero, NaN, infinite, tiny and flushed (03 R67, R69, R76 to
R80). -/
theorem test_floatArithmetic :
    let n : FpEnv := { rm := .rne, ftz := false, sat := false }
    let z : FpEnv := { n with ftz := true }
    let up : FpEnv := { n with rm := .rup }
    let dn : FpEnv := { n with rm := .rdn }
    let tz : FpEnv := { n with rm := .rtz }
    let one := 0x3F800000
    let inf := 0x7F800000
    let nan := 0x7FC00000
    let top := 0x7F7FFFFF
    let ninf := 0xFF800000
    (fpAdd 2 n one one == (0x40000000, 0) && fpAdd 2 n one 0xBF800000 == (0, 0) && fpAdd 2 dn one 0xBF800000 == (0x80000000, 0) &&
      fpSub 2 n 0x80000000 0 == (0x80000000, 0) && fpSub 2 n 0x40000000 one == (one, 0) && fpMul 2 n one 0x80000000 == (0x80000000, 0) &&
      fpDiv 2 n one 0x40400000 == (0x3EAAAAAB, 1) && fpDiv 2 dn one 0x40400000 == (0x3EAAAAAA, 1) &&
      fpDiv 2 up one 0xC0400000 == (0xBEAAAAAA, 1) && fpAdd 2 n 0x3F800001 0x33800000 == (0x3F800002, 1) && fpAdd 2 n one 0x33800000 == (one, 1) &&
      fpAdd 2 n top top == (inf, 5) && fpAdd 2 tz top top == (top, 5) && fpAdd 2 dn top one == (top, 1) && fpAdd 2 up top one == (inf, 5) &&
      fpAdd 5 n 0x7E 0x7E == (0x7F, 5) && fpAdd 5 { n with sat := true } 0x7E 0x7E == (0x7E, 5) && fpMul 6 n 0x7B 0x40 == (0x7C, 5) &&
      fpDiv 2 n 0 0xBF800000 == (0x80000000, 0) && fpDiv 2 n 0 0 == (nan, 16) && fpDiv 2 n 0xBF800000 0 == (ninf, 8) &&
      fpFma 2 n false false one one one == (0x40000000, 0) && fpFma 2 n false true one one one == (0, 0) &&
      fpFma 2 dn true false one one one == (0x80000000, 0) && fpFma 2 n true true one one one == (0xC0000000, 0) &&
      fpAdd 2 n 0xFFC00001 one == (0xFFC00000, 0) && fpMul 2 n one 0x7F800001 == (nan, 16) && fpFma 2 n false false one one 0xFF800001 == (0xFFC00000, 16) &&
      fpAdd 2 n inf inf == (inf, 0) && fpSub 2 n inf inf == (nan, 16) && fpAdd 2 n inf ninf == (nan, 16) && fpSub 2 n inf ninf == (inf, 0) &&
      fpDiv 2 n inf ninf == (nan, 16) && fpMul 2 n 0 ninf == (nan, 16) && fpFma 2 n false false inf 0 one == (nan, 16) &&
      fpMul 2 n inf 0xBF800000 == (ninf, 0) && fpFma 2 n false false inf one ninf == (nan, 16) && fpFma 2 n true false inf one ninf == (ninf, 0) &&
      fpFma 2 n false true one one inf == (ninf, 0) && fpDiv 2 n ninf one == (ninf, 0) && fpDiv 2 n one ninf == (0x80000000, 0) &&
      fpMul 2 n 0x800000 0x3F000000 == (0x400000, 0) && fpMul 2 n 1 0x3F000000 == (0, 3) && fpMul 2 up 1 0x3F000000 == (1, 3) &&
      fpMul 2 z 0x800000 0x3F000000 == (0, 3) && fpAdd 2 z 0x80000001 0x80000000 == (0x80000000, 0) && fpAdd 2 z one 1 == (one, 0) &&
      fpAdd 1 z 1 1 == (2, 0) && fpFma 2 z false false one one 1 == (one, 0) && fpNan 6 true == 0xFE) = true := by decide +kernel

/-- A scale of I32, a comparison, a dot product of pairs, and conversions to a narrower and a wider format (08 R191 to R193, R198). -/
theorem test_vectorFloatSpecial :
    let s := labOf (stTag 2)
    let si := labOf { stTag 2 with vec := (stTag 2).vec.map fun v => { v with tag := v.tag.setIfInBounds 1 9 } }
    let sh := labOf { stTag 3 with vec := (stTag 3).vec.map fun v => { v with tag := v.tag.setIfInBounds 3 2 } }
    let fs : Fields := { ext 5 2 1 0 with fmt := 2 }
    let fd : Fields := { ext 5 2 2 0 with c := 3, fmt := 3 }
    let fc : Fields := { ext 5 2 0 0 with fmt := 1, e := 2 }
    let fn : Fields := { ext 5 2 0 0 with fmt := 3, e := 2 }
    (yields (vreg 32 fs.a 0) si (fun a s1 => yields (srcBint fs 32) s1 fun b s2 => fitting [(a, 2), (b, intTag 32)] &&
        yields (oldElems fs 32) s2 fun _ _ => true) &&
      elemAfter (.vfscale fs) si 32 5 3 == some 0x41000000 &&
      yields (vreg 16 fd.a 0) sh (fun a s1 => yields (srcBfp fd 3 (envOf 0 0)) s1 fun b s2 => yields (vreg 32 fd.c 0) s2 fun c _ =>
        fitting [(a, 3), (b, 3), (c, 2)]) &&
      yields (vreg 32 fc.a 0) s (fun a s1 => fitting [(a, 2)] && yields (oldElems fc 64) s1 fun _ _ => true) &&
      elemAfter (.vfcvt fc) s 64 5 0 == some 0x3FF0000000000000 &&
      yields (readV 5) s (fun _ _ => true) && elemAfter (.vfcvt fn) s 16 5 0 == some 0x3F80) = true := by decide +kernel

/-- Sums and products wrap at the format's width (08 R195); a comparison of integers. -/
theorem test_vectorInteger :
    let s := labOf (stTag 9)
    let f : Fields := { ext 5 2 3 0 with c := 3, fmt := 9 }
    (issues s f (fun st => st.vec.any (!·.spilled)) &&
      yields (vreg 32 f.a f.ta) s (fun a s1 => fitting [(a, 9)] && yields (srcBint f 32) s1 fun b s2 => fitting [(b, 9)] &&
        yields (vreg 32 f.c 0) s2 fun c s3 => fitting [(c, 9)] && yields (oldElems f 32) s3 fun _ _ => true) &&
      elemAfter (.vmul f) s 32 5 1 == some 0xBC800000 && elemAfter (.vmadd f) s 32 5 127 == some 0xBC800007 &&
      strandAfter (.vcmp { f with e := 3 }) s (fun _ st => st.predBits 5 == BitVec.allOnes 512)) = true := by decide +kernel

/-- A wrong tag traps FORMAT_MISMATCH (03 R66); VSEL with a vector and a scalar B, VTAG, VFILL from a register and an immediate. -/
theorem test_vectorMoves :
    let s := labOf (stTag 9)
    let f : Fields := { ext 5 2 3 0 with fmt := 9 }
    let g : Fields := { ext 5 2 0 0 with fmt := 9, bk := 1, imm20 := 0xFFFFF }
    (yields (vreg 32 f.a f.ta) s (fun _ s1 => yields (vreg 32 f.b f.tb) s1 fun _ _ => true) &&
      yields (vreg 32 g.a g.ta) s (fun _ s1 => yields (scalarAny g 9) s1 fun v s2 => v.1 == 0xFFFFFFFFFFFFFFFF &&
        yields (oldElems g 32) s2 fun _ _ => true) &&
      elemAfter (.vsel f) s 32 5 1 == some 0x3F800000 && elemAfter (.vfill g) s 32 5 64 == some 0xFFFFFFFF &&
      yields (operandX false f.b f.tb) s (fun x s1 => x == 5 && yields (oldElems f 32) s1 fun _ _ => true) &&
      elemAfter (.vfill f) s 32 5 64 == some 5 &&
      yields (operandV f.a f.ta) s (fun v _ => v.2 == 9) &&
      strandAfter (.vtag { f with fmt := 2 }) s (fun _ st => st.vec.any fun v => v.tag[5] == 2) &&
      yields (vreg 32 f.a f.ta) s (fun a s1 => !fitting [(a, 2)] && yields (srcBfp { f with fmt := 2 } 2 (envOf 0 0)) s1 fun _ s2 =>
        yields (oldElems { f with fmt := 2 } 32) s2 fun _ _ => true) &&
      strandAfter (.vfadd { f with fmt := 2 }) s (fun _ st => st.lcause == 5)) = true := by decide +kernel

/-- The first and last element of a permute; slides by 0, by the length and beyond; element index 127 (09 R202 to R205). -/
theorem test_permutes :
    let s := labOf (stTag 9)
    let f : Fields := { ext 5 1 3 0 with c := 1, fmt := 9, bk := 1, imm20 := 127 }
    let b (n : BitVec 20) : Fields := { f with imm20 := n }
    (yields (vreg 32 f.a f.ta) s (fun _ s1 => yields (operandB f) s1 fun n s2 => n == 127 && yields (vreg 32 f.c 0) s2 fun _ s3 =>
        yields (oldElems f 32) s3 fun _ _ => true) &&
      yields (vreg 32 f.a f.ta) s (fun _ s1 => yields (vreg 32 f.b f.tb) s1 fun _ s2 => yields (vreg 32 f.c 0) s2 fun _ _ => true) &&
      elemAfter (.vbcast (b 127)) s 32 5 3 == some 127 &&
      elemAfter (.vperm { f with bk := 0 }) s 32 5 100 == some 7 &&
      elemAfter (.vslideu (b 1)) s 32 5 0 == some 127 && elemAfter (.vslideu (b 1)) s 32 5 127 == some 126 &&
      elemAfter (.vslided (b 1)) s 32 5 127 == some 0 && elemAfter (.vslided (b 0)) s 32 5 127 == some 127 &&
      elemAfter (.vslideu (b 128)) s 32 5 5 == some 5 &&
      elemAfter (.vshuf (b 0x1B)) s 32 5 4 == some 7 &&
      yields (operandX false 3 0) s (fun x s1 => x == 5 && yields (operandB f) s1 fun _ s2 => yields (readV 5) s2 fun _ _ => true) &&
      elemAfter (.vins { f with a := 3 }) s 32 5 127 == some 5 &&
      strandAfter (.vext f) s (fun _ st => st.x[5] == 127)) = true := by decide +kernel

/-- 0 + 1 + … + 127 and a start value, combined last (09 R206). -/
theorem test_reductions :
    let s := labOf (stTag 9)
    let f : Fields := { ext 5 1 0 0 with fmt := 9, bk := 1, imm20 := 5 }
    (issues s f (fun st => st.vec.any (!·.spilled)) && yields (reductionSources f) s (fun v _ => v.1.length == 128 && v.2.1 == some 5) &&
      elemAfter (.vredadd f) s 32 5 0 == some 8133 && elemAfter (.vscanadd f) s 32 5 127 == some 8133) = true := by decide +kernel

/-! ### Witnesses: translation and protection -/

/-- A context whose tables stand at 0x200000 to 0x203000, with the entries given for one address, and nothing cached. -/
def walked (e1 e2 e3 e16 e4 : Nat) : State :=
  let c : Ctx := { Ctx.fresh none 0 0x10000000000000 Rect.module.leafId 0 with root := 0x2000FF }
  let put (m : List Host.Cell) (a v : Nat) : List Host.Cell := Memory.setBytes m a (Memory.toBytes 8 v)
  { lab with
    ctxs := [(0, c)], cores := [(0, { core0 with tlb := [], itlb := [] })]
    mem := put (put (put (put (put [] 0x200008 e1) 0x201010 e2) 0x202018 e3) 0x203000 e16) 0x203028 e4 }

/-- Entries 1, 2, 3 and 5 of the levels, and offset 0x123. -/
def walkedVa : Word := 0x8080605123

def mapsTo (r : Except Problem Xlat × State) (p : Xlat → Bool) : Bool := match r with | (.ok x, _) => p x | _ => false

def trapsWith (r : Except Problem Xlat × State) (cause extra : Nat) : Bool :=
  match r with | (.error (.trap c x _), _) => c == cause && x == extra | _ => false

/-- The walk of an address whose entries are absent, malformed, leaves and tables at each level; what a leaf forbids; an address above 2^57
(04 R90 to R94). -/
theorem test_walk :
    let tr (e1 e2 e3 e16 e4 : Nat) (acc : Acc) := (walked e1 e2 e3 e16 e4).translate 0 0 walkedVa acc
    let fails (e1 e2 e3 e16 e4 extra : Nat) : Bool := trapsWith (tr e1 e2 e3 e16 e4 .read) Cause.pageFault extra
    let at_ (r : Except Problem Xlat × State) (pa entry v : Nat) : Bool := mapsTo r (fun x => x.pa == pa) && (r.2.word entry).toNat == v
    let p (e4 : Nat) (acc : Acc) := tr 0x201001 0x202001 0x203001 0 e4 acc
    (fails 0 0 0 0 0 1 && fails 0x201003 0 0 0 0 0x11 && fails 0x201001 0 0 0 0 2 && fails 0x201001 0x2F 0 0 0 0x12 &&
      at_ (tr 0x201001 0x3F 0 0 0 .read) 0x605123 0x201010 0x13F &&
      fails 0x201001 0x202001 0 0 0 3 && fails 0x201001 0x202001 0x1F 0 0 0x13 &&
      at_ (tr 0x201001 0x202001 0x40002F 0 0 .read) 0x405123 0x202018 0x40012F &&
      at_ (tr 0x201001 0x202001 0x203001 0x1001F 0 .read) 0x15123 0x203000 0x1011F && fails 0x201001 0x202001 0x203001 0x1101F 0 0x14 &&
      fails 0x201001 0x202001 0x203001 0 0 4 && fails 0x201001 0x202001 0x203001 0 0x3F 0x14 &&
      at_ (p 0x700F .fetch) 0x7123 0x203028 0x710F && trapsWith (p 0x700B .write) 7 2 && trapsWith (p 0x700D .fetch) 7 3 &&
      trapsWith (p 0x1000000700F .read) 7 4 && trapsWith ((walked 0 0 0 0 0).translate 0 0 0x200000000000000 .read) 7 1) = true := by
  decide +kernel

/-- A translation that a micro-TLB holds, its permissions, and the first write through one (04 R92, R94). -/
theorem test_cachedTranslation :
    let at_ (leaf : Nat) : State := lab.editCore 0 fun k =>
      { k with tlb := [{ page 0 0 with leaf := BitVec.ofNat 64 leaf, at_ := 0x3000 }], itlb := [] }
    let dirty := (at_ 0x13F).markDirty 0 0 0x2000
    (mapsTo (lab.translate 0 0 0x2000 .write) (fun x => x.pa == 0x2000) && mapsTo (lab.translate 0 0 0x2000 .fetch) (fun x => x.pa == 0x2000) &&
      trapsWith ((at_ 0x13B).translate 0 0 0x2000 .write) 7 2 && trapsWith ((at_ 0x3000000001BF).translate 0 0 0x2000 .read) 7 4 &&
      dirty.word 0x3000 == 0x80 && (dirty.tlbFind 0 0 0x2000 .data).any (fun e => e.leaf == 0x1BF) &&
      (at_ 0x1BF).markDirty 0 0 0x2000 == at_ 0x1BF) = true := by decide +kernel

/-- Each check of an access: alignment, the tier and the host under synchronisation, the host under an atomic, another leaf's scratchpad,
a save slot of another context, the table at AUTH, undeclared blocks, and one that passes; LD and ST of a trap (10 R215). -/
theorem test_accessChecks :
    let gib (pa : Nat) : Nat := pa / 2 ^ 30
    let at_ (pa : Nat) : State := { lab.editCore 0 (fun k => { k with tlb := [page 0 0, page 1 (gib pa)] }) with tierCap := 64 }
    let ask (s : State) (c : Check) (va : Word) (n : Nat) := s.accessProblem st0 c va n
    let traps (r : Except (Problem ⊕ Nat) Xlat × State) (extra : Nat) : Bool :=
      match r with | (.error (.inl (.trap c x _)), _) => c == 7 && x == extra | _ => false
    let code (r : Except (Problem ⊕ Nat) Xlat × State) (n : Nat) : Bool := match r with | (.error (.inr c), _) => c == n | _ => false
    let fine (r : Except (Problem ⊕ Nat) Xlat × State) : Bool := r.1.toOption.isSome
    let tier := at_ 0x100000000000
    let host := at_ 0x8000000000000
    let scratch := at_ 0x200000000000
    let slots := at_ 0xFFC0000000
    let decl (l : List Range) : State := { lab with launches := [(0, { launch0 with ranges := l })] }
    let far := (labOf { st0 with x := st0.x.setIfInBounds 1 0x3FFFFFF8 }).editCore 0 fun k => { k with tlb := [] }
    let two (a : State) (b : State) (i j : Instr) (cause : Nat) : Bool :=
      strandAfter i a (fun _ st => st.lcause.toNat == cause) && strandAfter j b (fun _ st => st.lcause.toNat == cause)
    (code (ask lab (Check.load 8) 0x2001 8) 12 && traps (ask tier (Check.sync true) 0x40000000 8) 6 && fine (ask tier (Check.load 8) 0x40000000 8) &&
      traps (ask host (Check.sync true) 0x40000000 8) 6 && traps (ask host (Check.atom 8) 0x40000000 8) 8 &&
      fine (ask host (Check.load 8) 0x40000000 8) && fine (ask scratch (Check.load 8) 0x40000000 8) &&
      traps (ask { scratch with launches := [(0, { launch0 with rect := Rect.single 1 })] } (Check.load 8) 0x40000000 8) 5 &&
      traps (ask slots (Check.store 8) 0x7FF80080 8) 0xA && fine (ask slots (Check.load 8) 0x7FF80080 8) &&
      fine (ask slots (Check.store 8) 0x7FF80000 8) &&
      traps (ask lab (Check.load 8) 0x1F8 8) 9 && fine (ask lab (Check.load 8) 0x200 8) &&
      code (ask (decl []) (Check.load 8) 0x2000 8) 8 && code (ask (decl [⟨0x2000, 0x80, false⟩]) (Check.store 8) 0x2000 8) 8 &&
      fine (ask (decl [⟨0x2000, 0x80, false⟩]) (Check.load 8) 0x20F8 8) && code (ask (decl [⟨0x2000, 0x80, false⟩]) (Check.load 8) 0x2100 8) 8 &&
      two (decl []) (decl []) (.ld (base 7 1 0 3)) (.st (base 2 1 0 3)) 8 &&
      two far far (.ld (base 7 1 0 3)) (.st (base 2 1 0 3)) 6) = true := by decide +kernel

/-! ### Witnesses: memory -/

/-- A load that extends its sign and one that does not, from the last aligned address of a line's word; a misaligned one. -/
theorem test_loads :
    let f := base 7 1 0 3
    let h := base 7 1 1 5
    let bad : Fields := { ext 2 1 0 3 with imm20 := 1 }
    (issues lab f (fun _ => true) &&
      yields (address f 8) lab (fun va s1 => va == 0x2000 && yields (checkAccess (Check.load 8) va 8) s1 fun x s2 =>
        s2.pathOf x != .managed && yields (loadBytes x va 8) s2 fun b t => b == Memory.getBytes t.mem 0x2000 8 &&
          gives (.ld f) lab ((t.setStrand 0 ((st0.gives 7 0x8877665544332211).done f)).replies 0)) &&
      yields (address h 2) lab (fun va _ => va == 0x2002) &&
      strandAfter (.ld h) lab (fun _ st => st.x[7] == 0x4433) &&
      strandAfter (.ld (base 7 1 3 5)) lab (fun _ st => st.x[7] == 0xFFFFFFFFFFFF8877) &&
      yields (address bad 8) lab (fun va _ => va == 0x2001) &&
      yields (readX 2) lab (fun _ r => yields (address bad 8) r fun va _ => va == 0x2001) &&
      strandAfter (.ld bad) lab (fun t st => st.lcause == 12 && t.mem == lab.mem) &&
      strandAfter (.st bad) lab (fun t st => st.lcause == 12 && t.mem == lab.mem)) = true := by decide +kernel

/-- A store of 8 bytes and one of a byte at the top of the page's word (10 R217). -/
theorem test_stores :
    let f := base 2 1 0 3
    (issues lab f (fun _ => true) &&
      yields (readX 2) lab (fun v s1 => yields (address f 8) s1 fun va s2 => yields (checkAccess (Check.store 8) va 8) s2 fun x s3 =>
        yields (storeBytes x va (Memory.toBytes 8 v.toNat)) s3 fun _ t => lab.waiters == [] && !s3.tierDown x.pa &&
          t.mem == Memory.setBytes s3.mem x.pa (Memory.toBytes 8 v.toNat) && gives (.st f) lab ((t.behind 0 f).replies 0)) &&
      leaves (exec (.st (base 2 1 7 0)) lab) (fun t => Memory.getBytes t.mem 0x2006 3 == [0x77, 0x88, 0x00])) = true := by
  decide +kernel

/-- A full word for LDF and LDS, an empty one for STS; the bit that each leaves (10 R219). -/
theorem test_syncAccesses :
    let e : State := { lab with empties := [0x400] }
    let f := base 7 1 0 0
    let g := base 2 1 0 0
    let ready (s : State) (x : Xlat) : Bool := s.pathOf x != .coherent || !(s.settle (lineOf x.pa)).needsBackInv (lineOf x.pa)
    (issues lab f (fun st => st.state == .run) && lab.waiters == [] &&
      yields (address f 8) lab (fun va s1 =>
        yields (checkAccess (Check.sync true) va 8) s1 (fun x t => t.isFull x.pa && !t.poisoned x.pa 8) &&
        yields (checkAccess (Check.sync false) va 8) s1 (fun x t => ready t x && t.isFull x.pa)) &&
      strandAfter (.ldf f) lab (fun t st => st.x[7] == 0x8877665544332211 && t.empties == [] && st.await == .reply && st.pc == 0x1004) &&
      strandAfter (.lds f) lab (fun t st => st.x[7] == 0x8877665544332211 && t.empties == [0x400] && t.mem == lab.mem) &&
      yields (readX 2) e (fun _ s0 => yields (address g 8) s0 fun va s1 =>
        yields (checkAccess (Check.sync false) va 8) s1 fun x t => ready t x && !t.isFull x.pa) &&
      strandAfter (.sts g) e (fun t st => t.empties == [] && Memory.get t.mem 0x2000 == 0x88 && st.phase == 1) &&
      strandAfter (.ste g) lab (fun t _ => t.empties == [0x400]) && strandAfter (.few g) e (fun t _ => t.empties == [])) = true := by
  decide +kernel

/-- An empty word keeps LDS waiting: in its retries at FERETRY = 4, on its list at 0 (04 R101). -/
theorem test_syncWaits :
    let e : State := { lab with empties := [0x400] }
    let z : State := { labOf { st0 with feRetry := 0 } with empties := [0x400] }
    let f := base 7 1 0 0
    (yields (address f 8) e (fun va s1 => yields (checkAccess (Check.sync false) va 8) s1 fun x t => !t.isFull x.pa) &&
      strandAfter (.lds f) e (fun t st => st.await == .retries && st.pc == 0x1000 && t.waiters.map (·.listed) == [false] &&
        t.waiters.map (·.addr) == [0x2000]) &&
      strandAfter (.lds f) z (fun t st => st.await == .syncWord && t.waiters.map (·.listed) == [true])) = true := by decide +kernel

/-- LDF of an empty word and STS to a full one; BARW of an empty word and of one that is below its mark (10 R219, R230). -/
theorem test_unmetWaits :
    let e : State := { lab with empties := [0x400] }
    let b : Fields := { ext 7 1 5 0 with tb := 0 }
    let waits (i : Instr) (s : State) (k : WaitKind) : Bool := strandAfter i s fun t st => st.state == .parked && st.await == .retries &&
      st.pc == 0x1000 && t.mem == s.mem && t.empties == s.empties && t.waiters.map (fun w => (w.uid, w.addr, w.kind)) == [(0, 0x2000, k)]
    (waits (.ldf (base 7 1 0 0)) e .ldf && waits (.sts (base 2 1 0 0)) lab (.sts 0x1122334455667788) &&
      yields (operandB b) lab (fun n _ => n == 0xFFFFFFFFFFFFFFFF) && waits (.barw b) lab (.barw 0xFFFFFFFFFFFFFFFF) &&
      waits (.barw b) e (.barw 0xFFFFFFFFFFFFFFFF)) = true := by decide +kernel

/-- A job 0x55 of context 0 with the eight modules 0 to 7, of which this is 0 (24 R403, R404). -/
def stJob : Strand := { st0 with x := (st0.x.setIfInBounds 3 7).setIfInBounds 6 8 }

def labJob : State :=
  { labOf stJob with
    jobs := (Vector.replicate 16 0).setIfInBounds 0 0x8000000000000055 }

/-- Module 7, the last of the job, and 8, which it does not reach; a leased copy, which answers at once until it expires. -/
theorem test_remoteAccesses :
    let s := labJob
    let f := base 2 1 3 0
    let lease (e : Nat) : State := { s with leased := [(leaseKey 0x55 7 0x2000, (e, Memory.toBytes 8 9))] }
    (issues s f (fun _ => true) &&
      yields (operandX false f.a f.ta) s (fun a s1 => (a + imm20Offset f).toNat % 8 == 0 && yields (operandB f) s1 fun b t =>
        (t.reach 0 (b.toNat % 4096)).toOption == some (0x55, 7) && (Sparse.get t.pausing 0x55).isNone && (t.leasedWord 0x55 7 0x2000).isNone && t.unackedTo 0 7 == 0) &&
      yields (readX 2) s (fun _ s1 => yields (operandX false f.a f.ta) s1 fun _ s2 => yields (operandB f) s2 fun b _ => b == 7) &&
      yields (operandB { f with b := 6 }) s (fun b t => (t.reach 0 (b.toNat % 4096)).toOption.isNone) &&
      strandAfter (.ldx f) s (fun t st => st.await == .packet && st.pc == 0x1000 &&
        t.outbox.map (fun e => (e.1, e.2.dst, e.2.src, e.2.addr, e.2.aux)) == [(1, 7, 0, 0x2000, 0)] && t.sent.map (·.dest) == [2] &&
        t.unackedTo 0 7 == 1 && st.streamSeq == [(7, 1)]) &&
      strandAfter (.stx f) s (fun t st => st.state == .run && st.pc == 0x1004 &&
        t.outbox.map (fun e => (e.1, e.2.words)) == [(2, [0x1122334455667788])]) &&
      gives (.stx { f with b := 6 }) s ((s.errorEntry (some 0) 0 0x2000 8 1 causeUnreachable st0.sid).behind 0 f) &&
      gives (.ldx f) (lease 1) (((lease 1).setStrand 0 ((stJob.gives 2 9).done f)).replies 0) &&
      ((lease 0).leasedWord 0x55 7 0x2000).isNone) = true := by decide +kernel

/-- A pause and 64 unacknowledged operations of the stream hold LDX and STX back, one fewer does not; a module that the job does not reach
(10 R220, 24 R411, R420). -/
theorem test_remoteHeld :
    let f := base 2 1 3 0
    let p : Packet :=
      { dst := 7, src := 0, job := 0x55, seq := 0, addr := 0x2000, mode := 0, board := 0, strand := stJob.sid, epoch := stJob.epoch, aux := 0
        words := [] }
    let full (n : Nat) : State :=
      { labJob with sent := List.replicate n { ty := 2, packet := p, uid := 0, dest := 0, len := 4, access := false, dropped := false } }
    let pause : State := { labJob with pausing := [(0x55, [])] }
    ((full 64).unackedTo 0 7 == 64 &&
      [Instr.ldx f, .stx f].all (fun i => gives i (full 64) ((full 64).leave 0 .parked (.window 7) 15) &&
        gives i pause (pause.leave 0 .parked .pause 15) && leaves (exec i (full 63)) (·.outbox.length == 1)) &&
      strandAfter (.ldx { f with b := 6 }) labJob (fun _ st => st.lcause.toNat == Cause.remoteLoadFail && st.pc == 0x1000)) = true := by
  decide +kernel

/-- A coherent line in the L1, and a SWMANAGED copy with one dirty byte, which CFLUSH brings home (10 R223). -/
theorem test_cacheControl :
    let s : State := lab.setL1 0 0x40 ⟨.shared, none, none, 0, none⟩
    let m : State := lab.setL1 0 0x40 ⟨.modified, none, some (List.replicate 128 0x5A, 1), 0, none⟩
    let f := base 0 1 0 0
    let c : Check := ⟨1, .read, false, false, false, true⟩
    (issues s f (fun _ => true) && m.waiters == [] &&
      yields (address f 8) s (fun va s1 => yields (checkAccess c va 1) s1 fun x t =>
        lineOf x.pa == 0x40 && (t.l1 0 0x40).any (·.swm.isNone)) &&
      yields (address f 8) m (fun va s1 => yields (checkAccess c va 1) s1 fun _ t => (t.l1 0 0x40).any (·.swm.isSome)) &&
      leaves (exec (.cflush f) m) (fun t => Memory.get t.mem 0x2000 == 0x5A && Memory.get t.mem 0x2001 == 0x22 &&
        (t.l1 0 0x40).map (·.swm) == some (some (List.replicate 128 0x5A, 0))) &&
      leaves (exec (.cinv f) s) (fun t => (t.l1 0 0x40).isNone && t.mem == s.mem) && leaves (exec (.cflush f) lab) (fun t => t.mem == lab.mem) &&
      leaves (exec (.cinv f) (lab.editCore 0 fun k => { k with icache := [(iKey 0 0x40, ⟨[], 0⟩)], ccache := [0x40 * 4096] }))
        (fun t => (t.core 0).icache == [] && (t.core 0).ccache == []) &&
      strandAfter (.pref f) s (fun t st => st.pc == 0x1004 && t.mem == s.mem)) = true := by decide +kernel

/-- PREF of a line that nobody holds, for reading and for writing, and of an address that no page maps; CFLUSH of an owned line (10 R223). -/
theorem test_prefetch :
    let f (m : BitVec 4) := base 0 1 0 m
    let c : Check := ⟨1, .read, false, false, false, true⟩
    let far := labOf { st0 with x := st0.x.setIfInBounds 1 0x40000000 }
    let ended : State := { (labOf { st0 with isItem := true, item := 6 }).editCore 0 (fun k => { k with brk := [(0, 5)] }) with
      launches := [(0, { launch0 with maxd := 1, exports := [⟨false, 7, 8, []⟩] })] }
    let own : State := { lab.setL1 0 0x40 ⟨.modified, none, none, 0, none⟩ with dirs := [(0x40 * 8, { owner := some (0, .modified), sharers := .pointers [] })] }
    ((match lab.accessProblem st0 c 0x2000 1 with
      | (.ok x, s1) => !x.mig && zoneOf s1.tierCap x.pa == .hbm && !x.mside &&
        (match s1.askHome .issuer 0 [s1.askOf x false none] false with
         | (none, t) => t.l2Holds 0x40 && t.pathOf x == .coherent && (Sparse.get (t.core 0).mshr 0x40).isNone && (t.l1 0 0x40).isNone
         | _ => false)
      | _ => false) &&
      strandAfter (.pref (f 0)) lab (fun t st => t.msgs == [⟨0x40, 0, .getS⟩] && st.state == .run && st.pc == 0x1004) &&
      strandAfter (.pref (f 2)) lab (fun t _ => t.msgs == [⟨0x40, 0, .getM⟩]) &&
      strandAfter (.pref (f 0)) far (fun t st => t.msgs == [] && st.state == .run && st.pc == 0x1004) &&
      leaves (exec (.pref { ext 0 7 0 0 with ta := 1 }) ended) (fun t => t.strands == []) &&
      own.ownerOf 0x40 == some 0 && own.holdsDirty 0 0x40 &&
      leaves (exec (.cflush (f 0)) own) (fun t => (t.l1 0 0x40).any fun l => l.state != .modified && l.state != .owned)) = true := by
  decide +kernel

/-- Atomics of 64 and of 32 bits; a comparison that fails and one that succeeds (10 R224, R225). -/
theorem test_atomics :
    let f : Fields := { ext 7 1 3 0 with c := 2 }
    let w : Fields := { f with m := 2 }
    let ready (f : Fields) (n : Nat) : Bool :=
      yields (operandX false f.a f.ta) lab fun va s1 => yields (operandB f) s1 fun _ s2 => yields (readX f.c.toNat) s2 fun _ s3 =>
        yields (readX f.d.toNat) s3 fun _ s4 => yields (checkAccess (Check.atom n) va n) s4 fun x s5 => !s5.tierDown x.pa &&
          yields (placeAtomic x) s5 fun _ t => t.waiters == [] && !t.poisoned x.pa n
    let after (i : Instr) (b : List (BitVec 8)) : Bool := strandAfter i lab fun t st =>
      st.x[7] == 0x8877665544332211 && st.pc == 0x100C && Memory.getBytes t.mem 0x2000 8 == b
    (issues lab f (fun _ => true) && lab.waiters == [] && ready f 8 && ready w 4 &&
      after (.aadd f) [0x16, 0x22, 0x33, 0x44, 0x55, 0x66, 0x77, 0x88] &&
      after (.acas f) [0x11, 0x22, 0x33, 0x44, 0x55, 0x66, 0x77, 0x88] &&
      after (.aswap f) [5, 0, 0, 0, 0, 0, 0, 0] &&
      after (.agts f) [5, 0, 0, 0, 0, 0, 0, 0] && after (.agts { f with m := 4 }) [0x11, 0x22, 0x33, 0x44, 0x55, 0x66, 0x77, 0x88] &&
      strandAfter (.amaxu { w with x := 3, b := 5 }) lab (fun t st => st.x[7] == 0x44332211 &&
        Memory.getBytes t.mem 0x2000 8 == [0xFF, 0xFF, 0xFF, 0xFF, 0x55, 0x66, 0x77, 0x88])) = true := by decide +kernel

/-- Unit, strided and indexed addresses of 64-bit elements under a predicate of elements 0 and 63, and under an empty one. -/
theorem test_vectorMemory :
    let p (b : Pred) : State := labOf { stV with vec := stV.vec.map fun v =>
      { v with p := v.p.setIfInBounds 1 b, tag := Vector.replicate 32 8 } }
    let s := p (0xFF#512 ||| (0xFF#512 <<< 504))
    let f : Fields := { ext 5 1 3 1 with fmt := 8 }
    let g : Fields := { f with b := 4 }
    let loads (f : Fields) (s : State) (a : Act Addrs) (some_ : Bool) : Bool :=
      yields a s fun as s1 => as.tagged && (as.aligned || !some_) && yields (oldElems f 64) s1 fun _ s2 => !some_ ||
        yields (gatherElems 64 false (activeList 64 ((s2.strand? 0).elim 0 (·.predBits 1))) as.vas) s2 fun v _ => v.1.length == 2 && v.2 == none
    let stores (f : Fields) (a : Act Addrs) : Bool :=
      yields a s fun as s1 => as.tagged && yields (readV 2) s1 fun v s2 =>
        yields (scatterElems 64 (activeList 64 ((s2.strand? 0).elim 0 (·.predBits 1))) as.vas (elems 64 v.1)) s2 fun _ _ => f.m == 1
    (issues s f (fun st => st.vec.any (!·.spilled)) && loads f s (unitAddrs f 64) true && loads g s (strideAddrs g 64) true &&
      loads g s (indexAddrs g 64) true && loads f (p 0) (unitAddrs f 64) false &&
      yields (operandX false f.a f.ta) s (fun _ s1 => yields (operandB f) s1 fun d _ => d == 5) &&
      stores f (unitAddrs f 64) && stores g (indexAddrs g 64) && s.waiters == [] &&
      strandAfter (.vld f) s (fun _ st => st.vec.any fun v => elems 64 v.v[5] == 0x8877665544332211 :: List.replicate 63 0) &&
      strandAfter (.vst { f with d := 2 }) s (fun t _ => Memory.getBytes t.mem 0x2000 9 == [0, 0, 0x80, 0x3F, 0, 0, 0x80, 0x3F, 0] &&
        Memory.getBytes t.mem 0x21F8 8 == [0, 0, 0x80, 0x3F, 0, 0, 0x80, 0x3F])) = true := by decide +kernel

/-- An index vector of another format, a stride of 5 and one with no active element, and a fault-only-first load whose second element no
page maps (09 R208 to R211). -/
theorem test_vectorTraps :
    let p (b : Pred) (at_ : Word) (tag : BitVec 4) : State := labOf { stV with
      x := stV.x.setIfInBounds 1 at_
      vec := stV.vec.map fun v => { v with p := v.p.setIfInBounds 1 b, tag := Vector.replicate 32 tag } }
    let two : Pred := 0xFF#512 ||| (0xFF#512 <<< 504)
    let f : Fields := { ext 5 1 3 1 with fmt := 8 }
    let g : Fields := { f with b := 4 }
    let cause (i : Instr) (s : State) : Option Nat :=
      match exec i s with
      | .next t => (t.strand? 0).map (·.lcause.toNat)
      | _ => none
    let odd (v : Except Exit Addrs × State) : Bool := match v with | (.ok a, _) => a.tagged && !a.aligned | _ => false
    let other (v : Except Exit Addrs × State) : Bool := match v with | (.ok a, _) => !a.tagged | _ => false
    (odd (strideAddrs f 64 (p two 0x2000 8)) && other (indexAddrs g 64 (p two 0x2000 9)) &&
      [Instr.vgath g, .vscat g].all (fun i => cause i (p two 0x2000 9) == some Cause.formatMismatch) &&
      [Instr.vlds f, .vsts f].all (fun i => cause i (p two 0x2000 8) == some Cause.alignment && cause i (p 0 0x2000 8) == some 0) &&
      cause (.vld f) (p (BitVec.allOnes 512) 0x3FFFFFF8 8) == some Cause.pageFault &&
      strandAfter (.vldff f) (p (BitVec.allOnes 512) 0x3FFFFFF8 8) (fun _ st =>
        st.predBits 1 == 0xFF#512 && st.await == .reply && st.pc == 0x100C)) = true := by decide +kernel

/-- A base and the third element of an index vector that are no multiple of 8 (10 R215, 09 R211), with nothing written. -/
theorem test_misalignedElements :
    let at_ (base : Word) (v : Vec) : State := labOf { stV with
      x := stV.x.setIfInBounds 1 base
      vec := stV.vec.map fun c => { c with v := c.v.setIfInBounds 3 v, tag := Vector.replicate 32 8, p := c.p.setIfInBounds 1 0xFFFFFF } }
    let odd := at_ 0x2001 0
    let third := at_ 0x2000 (ofElems 64 [0, 8, 9])
    let f : Fields := { ext 5 1 3 1 with fmt := 8 }
    let trap (i : Instr) (s : State) (a : Word) : Bool := strandAfter i { s.editStrand 0 (fun st => { st with tvec := 0xFFFF000000001080 }) with
      cur := some 0 } fun t st => st.tpc == 0x1000 && st.tfaddr == a && t.mem == lab.mem && st.vec == (s.strand? 0).bind (·.vec)
    ([Instr.vld f, .vldff f, .vst f].all (fun i => strandAfter i odd fun t st => st.lcause == 12 && t.mem == lab.mem) &&
      [Instr.vgath f, .vscat f].all (fun i => strandAfter i third fun t st => st.lcause == 12 && t.mem == lab.mem) &&
      yields (indexAddrs f 64) third (fun as s1 => as.tagged && as.aligned &&
        (chosen (activeList 64 0xFFFFFF) as.vas 0).map (·.2) == [0x2000, 0x2008, 0x2009] &&
        (checkElems stV (Check.load 8) 8 [(0, 0x2000), (1, 0x2008)] s1).1.2 == none) &&
      trap (.vld f) (odd.editCore 0 fun k => { k with icache := Sparse.put k.icache (iKey 0 0x21) ⟨List.replicate 128 0, 1⟩ }) 0x2001) =
      true := by decide +kernel

/-- Scopes 4 and 5; an unacknowledged operation; a copy that DRAIN waits for. -/
theorem test_ordering :
    let f (m : BitVec 4) := base 0 0 0 m
    let p : Packet := { dst := 7, src := 0, job := 0, seq := 0, addr := 0, mode := 0, board := 0, strand := 0, epoch := 0, aux := 0, words := [] }
    let s : State := { lab with sent := [{ ty := 2, packet := p, uid := 0, dest := 0, len := 4, access := false, dropped := false }] }
    let cmd : Command :=
      { kind := .cpy, state := .queued, regs := zeroRegs, tile := 0, fmtA := 0, fmtB := 0, fmt := 0, m := 0, fcr := 0, row := 0, dest := 0
        data := 0, addr := 0, uid := 0, sid := 0, ctx := 0, lrec := 0, lseq := 1, scope := 0, item := 0, ranges := [], rect := Rect.module
        swBase := 0, swLen := 0, fra := 0, pc := 0, ticket := none, rprog := 0, flags := 0, bytes := 0, reported := 0, order := 0
        drainNo := 0, path := none, gang := none, ending := none }
    let d : State := { lab.editCore 0 fun k => { k with ce := { k.ce with queue := [cmd] } } with order := 1 }
    let put : State := { lab with later := [⟨.entry (some 0) 0 0x2000 8 1 33 0, 1⟩] }
    (issues s (f 4) (fun st => st.visMax == 0 && s.unacknowledged 0) &&
      gives (.fence (f 4)) s (s.setStrand 0 ({ st0 with phase := 1 }.done (f 4))) &&
      gives (.fence (f 5)) s (s.leave 0 .parked (.order true true false) 15) &&
      gives (.rel (f 6)) s (s.leave 0 .parked (.order true false true) 15) && !put.unacknowledged 1 &&
      gives (.rel (f 5)) put (put.leave 0 .parked (.order true false false) 15) &&
      gives (.acq (f 6)) s (s.setStrand 0 (st0.done (f 6))) &&
      gives (.fence (f 6)) lab (lab.setStrand 0 ({ st0 with phase := 1 }.done (f 6))) &&
      gives (.drain (f 0)) lab (lab.setStrand 0 (st0.done (f 0))) &&
      gives (.drain (f 0)) d ((d.setStrand 0 { st0 with behind := 4 }).leave 0 .parked (.drain 0 1) 15)) = true := by decide +kernel

/-- An armed slot 7 on the line of 0x2000; a watch of HBM; a sleep on a slot that has not fired and on one that has. -/
theorem test_watches :
    let w (fired : Bool) : Strand :=
      { st0 with watch := st0.watch.setIfInBounds 7 { armed := true, line := 0x40, va := 0x2000, fired := fired } }
    let f : Fields := ext 7 1 0 7
    let g := base 7 0 2 0
    let c : Check := ⟨1, .read, false, false, false, true⟩
    let slp : State := { labOf { w false with state := .sleep, sleepMask := 0x80 } with cur := none }
    (issues (labOf (w false)) f (fun _ => true) &&
      yields (address f 8) lab (fun va s1 => yields (checkAccess c va 1) s1 fun x t => zoneOf t.tierCap x.pa == .hbm &&
        (t.noSpace 0 (x.pa / 128) x.mside || true)) &&
      yields (operandI g) (labOf (w false)) (fun b _ => b == 0x20) &&
      strandAfter (.unwatch (base 7 0 0x02 0)) (labOf (w false)) (fun _ st => st.watch[7].armed) &&
      strandAfter (.sleep { word .ext with d := 7, bk := 1, imm20 := 0x80 }) (labOf (w false)) (fun _ st => st.state == .sleep && st.sleepMask == 0x80) &&
      strandAfter (.sleep { word .ext with d := 7, bk := 1, imm20 := 0x80 }) (labOf (w true)) (fun _ st =>
        st.x[7] == 0x80 && !st.watch[7].fired && st.state == .run) &&
      ((slp.fireLine 0x40).strand? 0).any (fun st => st.state == .ready && st.watch[7].fired) &&
      ((slp.fireLine 0x41).strand? 0).any (fun st => st.state == .sleep)) = true := by decide +kernel

/-- A watch of a host line, and of an HBM line for whose third watcher the context has no overflow block; PUTN of a v register, and over a
link that holds a value (10 R233, R238). -/
theorem test_fullLinksAndTables :
    let host : State := (labOf { st0 with x := st0.x.setIfInBounds 1 0x40000000 }).editCore 0 fun k =>
      { k with tlb := [page 1 0x200000, page 0x400000 1] }
    let w (i : Fin 8) : Watch := if i.val < 2 then { armed := true, line := 0x40, va := 0x2000, fired := false } else st0.watch[i]
    let crowd : Strand := { st0 with watch := Vector.ofFn w }
    let none_ : Ctx := { Ctx.fresh none 0 0x10000000000000 Rect.module.leafId 0 with watchBlocks := 0 }
    let s : State := { lab with strands := [(0, st0), (1, { crowd with place := .slot 1 })], nextUid := 2, ctxs := [(0, none_)] }
    let f (m : BitVec 4) : Fields := ext 7 1 0 m
    let dir := ((List.range 4).find? fun d => (lab.neighbour 0 d).isSome).getD 0
    let v : LinkVal := { sender := 5, slot := 0, isV := false, reg := 7, bits := 5, tag := 0, dest := 8, len := 4 }
    let busy := lab.editCore 0 fun k => { k with links := k.links.setIfInBounds dir (some v) }
    (strandAfter (.watch (f 7)) host (fun _ st => st.x[7] == 2 && !st.watch[7].armed) && s.noSpace 0 0x40 false &&
      strandAfter (.watch (f 7)) s (fun _ st => st.x[7] == 1 && !st.watch[7].armed) &&
      strandAfter (.putn { f (BitVec.ofNat 4 (4 + dir)) with b := 4 }) labV (fun t st => st.await == .putn &&
        ((t.core 0).links[dir]?.getD none).any fun l => l.isV && l.bits == ofElems 32 (List.range 128)) &&
      gives (.putn { f (BitVec.ofNat 4 dir) with b := 4 }) busy (busy.leave 0 .parked (.link 0 dir) 15)) = true := by decide +kernel

/-- A barrier of one and of two strands, a barrier word that has reached its mark, an empty x and v register, a free link. -/
theorem test_barriersAndPresence :
    let s : State := { lab with mem := Memory.setBytes lab.mem 0x2000 (Memory.toBytes 8 1) }
    let n (v : BitVec 20) : Fields := { ext 7 1 0 0 with tb := 0, b := 6 }
    let with6 (s : State) (v : Word) : State := s.editStrand 0 fun st => { st with x := st.x.setIfInBounds 6 v }
    let f := n 0
    (issues (with6 s 1) f (fun st => st.state == .run) &&
      yields (operandX false f.a f.ta) (with6 s 1) (fun a s1 => yields (operandB f) s1 fun n s2 => n == 1 &&
        yields (checkAccess (Check.sync true) (a + imm20Offset f) 8) s2 (fun x t => t.isFull x.pa && n.toNat ≤ (t.word x.pa).toNat) &&
        yields (checkAccess (Check.sync false) (a + imm20Offset f) 8) s2 (fun x t => t.isFull x.pa && (t.word x.pa).toNat + 1 < 2 ^ 64)) &&
      strandAfter (.barw f) (with6 s 1) (fun t st => st.x[7] == 1 && st.pc == 0x100C && t.mem == s.mem) &&
      strandAfter (.bar f) (with6 s 1) (fun t st => st.x[7] == 1 && st.await == .reply && t.word 0x2000 == 2) &&
      strandAfter (.bar f) (with6 s 3) (fun t st => st.await == .syncWord && t.word 0x2000 == 2 && t.waiters.map (·.kind) == [.barLeave 1 3]) &&
      strandAfter (.bar f) (with6 s 0) (fun _ st => st.lcause == 13) &&
      strandAfter (.putn (base 7 2 3 0)) lab (fun t st => (match t.neighbour 0 0 with | none => st.x[7] == 2 | some _ => st.await == .putn)) &&
      strandAfter (.putn (base 7 2 3 3)) lab (fun t st => (match t.neighbour 0 3 with | none => st.x[7] == 2 | some _ => st.await == .putn)) &&
      (List.range 4).any (fun d => (lab.neighbour 0 d).isNone) && (List.range 4).any (fun d => (lab.neighbour 0 d).isSome) &&
      strandAfter (.fempty (base 63 0 0 0)) lab (fun _ st => !st.xFull.getLsbD 63 && st.xFull.getLsbD 62) &&
      strandAfter (.ffull (base 31 0 0 1)) labV (fun _ st => st.vec.any fun v => v.vFull.getLsbD 31)) = true := by decide +kernel

/-! ### Witnesses: loops, regions, tempo, tasks -/

def codeFrom (s : State) (st : Strand) (va : Word) : Bool :=
  targetProblem va == none && (given (s.startBit st.core st.ctx st.lrec s.issuerNo va).1).any (· != some false)

/-- Fetching a start bit fills the core's instruction cache: the state that a transfer to `va` leaves. -/
def afterBit (s : State) (va : Word) : State := (s.startBit 0 0 0 s.issuerNo va).2

/-- Three and four records, counts 0, 1 and 5; a LEND at its record and one elsewhere (12 R265, R266). -/
theorem test_countedLoops :
    let r : LoopRec := ⟨1, 0x1040, 0x1000⟩
    let q : LoopRec := { r with rem := 5 }
    let at_ (l : List LoopRec) : State := labOf { st0 with loops := l }
    let f : Fields := { ext 0 3 0 0 with imm20 := 0x10 }
    let z : Fields := { f with a := 4 }
    let exits : Word := 0x100C
    (issues (at_ [q]) f (fun st => st.loops.length < 4) && codeFrom (at_ [r]) st0 exits && codeFrom lab st0 0x104C &&
      yields (operandX false f.a f.ta) lab (fun n _ => n == 5) && yields (operandX false z.a z.ta) lab (fun n _ => n == 0) &&
      gives (.loop f) lab (lab.setStrand 0 ({ st0 with loops := [⟨5, 0x100C, 0x1040⟩] }.done f)) &&
      gives (.loop z) lab ((afterBit lab 0x104C).setStrand 0 { st0 with pc := 0x104C }) &&
      strandAfter (.loop f) (at_ [r, r, r, r]) (fun _ st => st.lcause == 15) &&
      strandAfter (.loop f) (at_ [r, r, r]) (fun _ st => st.loops.length == 4) &&
      gives (.lend f) (at_ [r]) (lab.setStrand 0 (st0.done f)) &&
      gives (.lend f) (at_ [q]) ((afterBit (at_ [q]) 0x1040).setStrand 0 { st0 with loops := [{ q with rem := 4 }], pc := 0x1040 }) &&
      strandAfter (.lend f) (at_ [{ r with lend := 0x1040 }]) (fun _ st => st.lcause == 15) &&
      strandAfter (.lend f) lab (fun _ st => st.lcause == 15) && strandAfter (.lbrk f) lab (fun _ st => st.lcause == 15) &&
      gives (.lbrk f) (at_ [q]) ((afterBit (at_ [q]) exits).setStrand 0 { st0 with pc := exits }) &&
      gives (.lbrk { f with m := 1 }) (at_ [q]) ((afterBit (at_ [q]) exits).setStrand 0 { st0 with pc := exits }) &&
      gives (.lbrk { f with m := 2 }) (at_ [q]) ((at_ [q]).setStrand 0 ({ st0 with loops := [q] }.done f)) &&
      gives (.lbrk { z with m := 2 }) (at_ [q]) ((afterBit (at_ [q]) exits).setStrand 0 { st0 with pc := exits })) = true := by decide +kernel

/-- A region whose access stream stands at 0x1040, with queues as given. -/
def region (q0 : List QEntry) (qb : List Bool) (joined : Bool) : Region :=
  { seqPc := 0x1040, x := st0.x, xFull := st0.xFull, pw := 1, fcr := 0, loops := [], q := (Vector.replicate 4 []).setIfInBounds 0 q0
    qb := qb, store := [], popped := 0, blocked := none, queued := none, joined := joined }

/-- A stream of a region issues. -/
def labR (g : Region) (access : Bool) : State :=
  { labOf { stV with region := some g } with stream := if access then .access else .execute }

def inRegion (s : State) (access : Bool) : Bool :=
  s.cur == some 0 && ((s.strand? 0).bind (·.region)).isSome && s.stream == (if access then .access else .execute)

/-- DSPLIT, and both streams of a region at QPUSH, QPOP, QBR and DJOIN, with queues empty, full and one short of it (12 R267 to R272). -/
theorem test_regions :
    let e : QEntry := ⟨ofElems 8 [7], 0, 0⟩
    let f : Fields := { ext 28 3 0 0 with imm20 := 0x10 }
    let a := labR (region [e, e, e, e, e, e, e] (List.replicate 15 true) false) true
    let afull := labR (region [e, e, e, e, e, e, e, e] (List.replicate 16 true) false) true
    let x := labR (region [e] [true] false) false
    let done := labR (region [] [] true) false
    let pop : Fields := ext 5 28 0 0
    (inRegion a true && inRegion x false && (lab.core 0).seq == none && lab.sequencerWaiters 0 0 == [] &&
      (let s' := lab.editCore 0 fun k => { k with seq := some 0 }
       !s'.landing 0 false && gives (.dsplit f) lab (s'.setStrand 0 ((st0.split (lenWord f)).done f))) &&
      yields (operandX false f.a f.ta) a (fun v t => v == 5 && t == a) &&
      strandAfter (.qpush f) a (fun _ st => st.region.any fun g => g.q[0].length == 8 && g.seqPc == 0x104C && g.qb.length == 15) &&
      strandAfter (.qpush f) afull (fun _ st => st.region.any fun g => g.q[0].length == 8 && g.blocked == some (.queue 0)) &&
      strandAfter (.qbr { f with a := 4 }) a (fun _ st => st.region.any fun g => g.qb.length == 16 && g.seqPc == 0x104C) &&
      codeFrom a st0 0x1080 == false && codeFrom a st0 (0x1040 + 0x30 * 4) &&
      strandAfter (.qbr { f with imm20 := 0x30 }) a (fun _ st => st.region.any fun g => g.qb.length == 16 && g.seqPc == 0x1100) &&
      strandAfter (.djoin f) a (fun _ st => st.region.any (·.joined)) &&
      strandAfter (.qpush f) x (fun _ st => st.pc == 0x100C && st.region.any fun g => g.q[0].length == 1) &&
      strandAfter (.qpop pop) x (fun _ st => st.pc == 0x100C && (st.vec.any fun v => v.v[5] == ofElems 8 [7]) &&
        st.region.any fun g => g.q[0] == []) &&
      strandAfter (.qbr f) x (fun _ st => st.pc == 0x1040 && st.region.any fun g => g.qb == []) &&
      strandAfter (.qbr f) (labR (region [e] [false] false) false) (fun _ st => st.pc == 0x100C) &&
      gives (.djoin f) done ((done.setStrand 0 (stV.done f)).editCore 0 fun k =>
        { k with seq := if k.seq == some 0 then none else k.seq })) = true := by decide +kernel

/-- Instructions of the other stream and of neither; a vector load into q0 that the access stream has free (12 R268, R270, R274). -/
theorem test_regionStreams :
    let f : Fields := ext 5 1 3 0
    let a := labR (region [] [] false) true
    let x := labR (region [] [] false) false
    let v : Fields := { ext 28 1 0 0 with fmt := 8 }
    (inRegion a true && inRegion x false &&
      gives (.ld f) x (x.editStrand 0 fun q => { q with pc := 0x100C }) &&
      strandAfter (.few f) x (fun _ st => st.lcause == 15 && st.region.isNone) &&
      strandAfter (.vadd f) a (fun _ st => st.region.any (·.seqPc == 0x104C)) &&
      yields (unitAddrs v 64) a (fun as s1 => yields (gatherElems 64 false (List.replicate 64 true) as.vas) s1 fun e t => e.2 == none &&
        strandAfter (.vld v) a fun t' st => t'.mem == t.mem && st.region.any fun g =>
          g.q[0] == [⟨ofElems 64 (e.1.map (·.2)), 8, 0⟩] && g.blocked == some .reply && g.seqPc == 0x104C)) = true := by decide +kernel

/-- A tempo launch with one export of x8 by one item, of which item 0 is running; break indexes below and above it. -/
def tempo (brk : Nat) : State :=
  { labOf { st0 with isItem := true, item := 0 } with
    launches := [(0, { launch0 with rect := ⟨0, 0, 1, 1⟩, maxd := 1, brk := brk, exports := [⟨false, 8, 8, [0]⟩] })] }

theorem test_tempoInstructions :
    let s := tempo 0xFFFFFFFF
    let f := ext 7 0 0 0
    (issues s f (fun st => st.isItem && !st.exported.getLsbD 0) && s.broken { st0 with isItem := true } == false &&
      yields (exportValue ⟨false, 8, 8, [0]⟩) s (fun v t => t == s && gives (.texp f) s ((s.makeExport 0 0 v).behind 0 f)) &&
      yields (makeExports (fun _ _ => true) [⟨false, 8, 8, [0]⟩] 0) s (fun _ t => gives (.texp f) s (t.behind 0 f)) &&
      gives (.tidx f) s (s.setStrand 0 (({ st0 with isItem := true }.gives 7
        (BitVec.ofNat 64 (s.recordedBreak 0 0))).done f)) &&
      leaves (exec (.brko f) s) (fun t => (t.launch? 0).any fun l => l.brk == 0 && l.brko) &&
      stV.vec.isSome && !(labV.landing 0 true) &&
      strandAfter (.vrel f) labV (fun _ st => st.vec.isNone && st.pc == 0x100C) &&
      gives (.vrel f) lab (lab.setStrand 0 (st0.done f)) &&
      ((s.makeExport 0 0 ⟨5, 8⟩).launch? 0).any (fun l => Sparse.get l.window (windowKey 0 0) == some (0, ⟨5, 8⟩))) = true := by
  decide +kernel

/-- VREL of an item that owes an export of a v register, of one that has made it, and of one past the break (08 R201). -/
theorem test_contextRelease :
    let s (made : BitVec 4) (brk : Nat) : State :=
      { (labOf { stV with isItem := true, item := 6, exported := made }).editCore 0 (fun k => { k with brk := [(0, brk)] }) with
        launches := [(0, { launch0 with maxd := 1, exports := [⟨true, 1, 0, []⟩] })] }
    let f := ext 7 0 0 0
    (issues (s 0 6) f (fun st => st.isItem && st.vec.any (!·.spilled)) && !(s 0 6).landing 0 true && (s 0 6).broken { stV with item := 6 } == false &&
      yields (makeExports (fun _ e => e.isV) [⟨true, 1, 0, []⟩] 0) (s 0 6) (fun _ t => (t.launch? 0).any fun l =>
        (Sparse.get l.window (windowKey 6 0)).any fun w => w.1 == 6 && w.2.bits == ofElems 32 (List.range 128)) &&
      strandAfter (.vrel f) (s 0 6) (fun t st => st.vec.isNone && st.pc == 0x100C && (t.launch? 0).any fun l =>
        (Sparse.get l.window (windowKey 6 0)).isSome) &&
      strandAfter (.vrel f) (s 1 6) (fun t st => st.vec.isNone && (t.launch? 0).any fun l => l.window == []) &&
      leaves (exec (.vrel f) (s 0 5)) (fun t => t.strands == [])) = true := by decide +kernel

/-- SPAWN with room and without; EXIT; EXIT.child back to its parent and to its end (13 R288 to R291). -/
theorem test_spawnAndEnd :
    let f := base 0 0 1 0
    let other : DqEntry := ⟨⟨0x1100, 0, 0, 0, 0, false, [0, 0, 0, 0, 0]⟩, none, false⟩
    let full : State := lab.editCore 0 fun k => { k with deque := List.replicate 64 other }
    let child (link : Word) (d : List DqEntry) : State :=
      (labOf { st0 with x := st0.x.setIfInBounds 46 link }).editCore 0 fun k => { k with deque := d }
    let own : DqEntry := ⟨⟨0x1100, 0, 0, 0, 0, false, [9, 0, 0, 0, 0]⟩, some 0, false⟩
    let s := lab
    (issues s f (fun st => !st.isItem && st.xFull.getLsbD 46) && codeFrom s st0 0x1040 && codeFrom s st0 0x1100 &&
      yields (hereCont f) (afterBit s 0x1040) (fun c r1 => c.pc == 0x1004 && (r1.core 0).deque.length < 64 &&
        (r1.pushCont 0 0 0 { cont := c, tag := some 0, byItem := false }).1 == .done) &&
      strandAfter (.spawn f) s (fun t st => st.pc == 0x1040 && st.x[46] == 0x1004 && (t.core 0).deque.length == 1 &&
        (t.launch? 0).any (·.pop == 2)) &&
      strandAfter (.spawn f) full (fun t st => st.pc == 0x1040 && st.x[46] == 0x1005 &&
        (t.core 0).deque.length ≤ 64) &&
      s.broken st0 == false && yields finalExports s (fun _ t => gives (.exit f) s (t.endStrand 0 13)) &&
      gives (.exit f) s (s.endStrand 0 13) && (s.endStrand 0 13).strands == [] && ((s.endStrand 0 13).launch? 0).any (·.pop == 0) &&
      strandAfter (.exitChild f) (child 0x1101 []) (fun _ st => st.pc == 0x1100) &&
      ((child 0x1100 [own]).newestOwn 0 0).isSome &&
      leaves (exec (.exitChild f) (child 0x1100 [own])) (fun t => (t.core 0).deque == [] && t.strands.map (·.1) == [1] &&
        (t.strand? 1).any fun st => st.pc == 0x1100 && st.x[1] == 9) &&
      leaves (exec (.exitChild f) (child 0x1104 [own])) (fun t => t.strands == []) &&
      leaves (exec (.exitChild f) (child 0x1104 [])) (fun t => t.strands == []) &&
      gives (.yield f) s ((s.setStrand 0 (st0.done f)).leave 0 .ready .reply 15)) = true := by decide +kernel

/-- Scope 1 and 255, the last; a scope with strands in it and one without; the root scope (13 R292). -/
theorem test_finishScopes :
    let f := ext 7 3 0 0
    let scopes (l : SMap Scope) (n : Nat) : State :=
      { labOf { st0 with scope := n } with ctxs := [(0, { Ctx.fresh none 0 0x10000000000000 Rect.module.leafId 0 with scopes := l })] }
    let open_ (n : Nat) : SMap Scope := (List.range n).map fun i => (i + 1, ⟨.opened, 0, 0⟩)
    let s := scopes [(5, ⟨.opened, 2, 0⟩)] 5
    (issues lab f (fun _ => true) && (lab.scopeOf 0 1).state == .free && ((scopes (open_ 255) 0).scopeOf 0 255).state == .opened &&
      gives (.finb f) lab ((lab.setScope 0 1 ⟨.opened, 0, 0⟩).setStrand 0 (({ st0 with scope := 1 }.gives 7 1).done f)) &&
      strandAfter (.finb f) (scopes (open_ 254) 0) (fun _ st => st.x[7] == 255 && st.scope == 255) &&
      strandAfter (.finb f) (scopes (open_ 255) 0) (fun _ st => st.x[7] == 0x8000000000000001) &&
      strandAfter (.fine f) s (fun t st => st.scope == 0 && (t.scopeOf 0 5).state == .ended) &&
      strandAfter (.fine f) lab (fun _ st => st.lcause == 2) &&
      yields (operandX false f.a f.ta) s (fun a _ => a == 5) &&
      strandAfter (.finw f) s (fun _ st => st.await == .scopeZero 0 5 && st.pc == 0x1000 && st.behind == 12) &&
      gives (.finw f) lab (lab.setStrand 0 (st0.done f))) = true := by decide +kernel

/-- SUSP to 0x2000; RESM of a record that is valid and of one that is not; MIGR to this core and to another (13 R293 to R295). -/
theorem test_suspendResumeMigrate :
    let f := ext 7 1 4 0
    let rec_ (v : Nat) : State := { lab with mem := Memory.setBytes lab.mem 0x2000 (Memory.toBytes 8 (v * 2 ^ 63 + 0x1100)) }
    let c : Check := ⟨64, .write, false, true, true, true⟩
    let far := lab.editStrand 0 fun st => { st with x := st.x.setIfInBounds 1 0x1000 }
    (issues lab f (fun st => st.vec.isNone && st.loops.isEmpty) &&
      yields (operandX false f.a f.ta) lab (fun a s1 => yields (hereCont f) s1 fun c s2 => yields (checkAccess Check.record a 64) s2 fun x s3 =>
        yields finalExports s3 fun _ s4 => yields (storeBytes x a ((c.words true).flatMap (Memory.toBytes 8))) s4 fun _ t =>
          c.pc.toNat % 4 == 0 && c.xsave.length == 5 && contOf ((c.words true).map (BitVec.ofNat 64)) == c &&
          gives (.susp f) lab (t.endStrand 0 13 false)) &&
      yields (operandX false f.a f.ta) (rec_ 1) (fun a s1 => yields (operandX false f.b f.tb) s1 fun b s2 => b == 0 &&
        yields (checkAccess c a 64) s2 fun x s3 => yields (heedPoison x.pa 64 a) s3 fun _ s4 => yields (syncLine x false) s4 fun _ r =>
          (r.word x.pa).getLsbD 63 && r.inRange 0 (contOf (r.wordsAt x.pa 8)).lrec 0) &&
      strandAfter (.resm f) (rec_ 1) (fun t st => st.x[7] == 0 && (t.core 0).deque.length == 1 && !(t.word 0x2000).getLsbD 63) &&
      strandAfter (.resm f) (rec_ 0) (fun _ st => st.x[7] == 0x8000000000000001) &&
      yields (operandX false f.a f.ta) lab (fun a s1 => match s1.translate 0 0 a .read with
        | (.ok x, t) => t.migrateTarget 0 x.pa != 0 || gives (.migr f) lab (t.setStrand 0 (st0.done f))
        | _ => false) &&
      [lab, far].any (fun s => strandAfter (.migr f) s fun _ st => st.place == .transit && st.pc == 0x100C) &&
      [{ labV with strands := [(0, stV)] }].all (fun s => strandAfter (.migr f) s fun t st =>
        t.migrateTarget 0 0x2000 == 0 || st.lcause == 18)) = true := by decide +kernel

/-- A match descriptor for core 0 and tag 0 with 64 bytes, one for a tag that is armed already, a malformed one, and no entry left
(13 R296). -/
theorem test_arrivalTasks :
    let f : Fields := ext 7 1 3 0
    let ctx : Ctx := { Ctx.fresh none 0 0x10000000000000 Rect.module.leafId 0 with matchLimit := 1 }
    let desc (limit : Nat) (l : List Nat) : State :=
      { lab with mem := Memory.setBytes lab.mem 0x2000 (l.flatMap (Memory.toBytes 8)), ctxs := [(0, { ctx with matchLimit := limit })] }
    let good := desc 1 [0, 64, 0x2000, 0x2040]
    let m : Match := { ctx := 0, sid := st0.sid, lrec := 0, core := 0, tag := 0, len := 64, got := 0, buf := 0x2000, cont := 0x2040 }
    let d (s : State) (v : Word) : Bool := strandAfter (.armt f) s fun _ st => st.x[7] == v && st.pc == 0x100C
    (yields (operandX false f.a f.ta) good (fun a s1 => yields (checkAccess (Check.load 32) a 32) s1 fun x s2 =>
        yields (loadBytes x a 32) s2 fun bytes t => (t.launch? 0).any (·.rect.hasCore 0) && t.freeMatch 0 0 == some 0 &&
          matchFields ((List.range 4).map fun i => BitVec.ofNat 64 (Memory.ofBytes ((bytes.drop (8 * i)).take 8))) ==
            some (0, 0, 64, 0x2000, 0x2040)) &&
      d good 0 && leaves (exec (.armt f) good) (fun t => t.matches_ == [(0, m)] && (t.launch? 0).any (·.pop == 2)) &&
      d { good with matches_ := [(0, m)] } 0x8000000000000002 && d (desc 1 [0, 0, 0x2000, 0x2040]) 0x8000000000000002 &&
      d (desc 0 [0, 64, 0x2000, 0x2040]) 0x8000000000000001) = true := by decide +kernel

/-- A mailbox message of one word, the shortest, and a tag message of 32, the longest, to module 7, and one to a module that the job
does not reach (13 R297). -/
theorem test_messages :
    let with3 (v : Word) : State := labJob.editStrand 0 fun st => { st with x := st.x.setIfInBounds 3 v }
    let f : Fields := { ext 7 1 3 0 with c := 1 }
    let s := with3 (8 * 65536 + 7)
    let l := with3 (256 * 65536 + 0x2000 + 7)
    (issues s f (fun _ => true) &&
      yields (operandX false f.a f.ta) s (fun a s1 => a == 0x2000 && yields (operandX false f.b f.tb) s1 fun b s2 =>
        (b.extractLsb' 16 9) == 8 && yields (readX f.c.toNat) s2 fun _ s3 =>
          yields (gatherElems 64 false [true] [a]) s3 fun g t => g.2 == none && (t.reach 0 (b.toNat % 4096)).toOption == some (0x55, 7)) &&
      strandAfter (.msg f) s (fun t st => st.pc == 0x100C && st.phase == 1 &&
        t.outbox.map (fun e => (e.1, e.2.dst, e.2.addr, e.2.words)) == [(4, 7, 0x2000, [0x8877665544332211])]) &&
      strandAfter (.msg { f with m := 8 }) l (fun t _ => t.outbox.map (fun e => (e.1, e.2.board, e.2.words.length)) == [(5, 2, 32)]) &&
      strandAfter (.msg f) (with3 (8 * 65536 + 8)) (fun t st => t.outbox == [] && st.pc == 0x100C && st.phase == 1)) = true := by
  decide +kernel

/-! ### Witnesses: engines and launches -/

/-- z1 holds a tile of 4 rows and 4 words of the tag given, and both shadow sets are the strand's. -/
def tileOf (tag : Nat) : Word := BitVec.ofNat 64 (tag * 2 ^ 60 + 4 * 512 + 4)

def labE (tag : Nat) (claim : Option Nat) (regs : Vector (BitVec 64) 16) : State :=
  (labOf { st0 with z := st0.z.setIfInBounds 1 (tileOf tag) }).editCore 0 fun k =>
    { k with mx := { Engine.fresh with claim := claim, shadow := regs }, ce := { Engine.fresh with claim := claim, shadow := regs } }

/-- A set whose completion word is 0x2100, and register 4 as given. -/
def regsK (k : Word) : Vector (BitVec 64) 16 := (zeroRegs.setIfInBounds 7 0x2100).setIfInBounds 4 k

/-- A commit by instruction `i` of a command of kind `k`: accepted, with the ticket; without the claim, 2^63 + 1. -/
def commits (i : Instr) (f : Fields) (k : CmdKind) (tag : Nat) (tile : Word) (regs : Vector (BitVec 64) 16)
    (edit : Vector (BitVec 64) 16 → Vector (BitVec 64) 16) (path : Option Nat) : Bool :=
  let s := labE tag (some 0) regs
  let e := k.engine
  issues s f (fun _ => true) &&
  yields (newCommand k (edit (s.engine 0 e).shadow) tile f.e.toNat f.c.toNat f.fmt.toNat f.m.toNat f.rnd.toNat) s (fun c t =>
    t == s && c.kind == k && c.uid == 0 && c.ranges == bootRanges && !c.badField 0 && (s.engine 0 e).queue.length < 8 &&
    gives i s ((s.commits 0 { c with ticket := some ((s.engine 0 e).ticket e), path := path } (·.ticketed 0)).givingRelease 0 f f.d.toNat
      (BitVec.ofNat 64 ((s.engine 0 e).ticket e)))) &&
  (let n := labE tag none regs
   gives i n (n.givingRelease 0 f f.d.toNat 0x8000000000000001))

/-- Each kind of commit; a product whose inner dimension is 0 is refused (11 R242, R253). -/
theorem test_ticketCommits :
    let f : Fields := { ext 7 1 4 0 with fmt := 2, c := 4, e := 4 }
    (commits (.mma f) f .mma 2 (tileOf 2) (regsK 1) id (some 5) &&
      commits (.gang f) f .gang 2 (tileOf 2) (regsK 0x1000000) (fun g => g.setIfInBounds 10 0) (some 5) &&
      commits (.mst f) f .mst 2 (tileOf 2) (regsK 0) id none && commits (.cbook f) f .cbook 2 0 (regsK 0) id (some 5) &&
      commits (.cpyrow f) f .cpyrow 2 0 (regsK 0) id none &&
      yields (operandB f) (labE 2 (some 0) (regsK 1)) (fun b t => b == 0 && t == labE 2 (some 0) (regsK 1)) &&
      [regsK 0, regsK 0x1000001].all fun r => strandAfter (.mma f) (labE 2 (some 0) r) fun t st =>
        st.x[7] == 0x8000000000000002 && (t.engine 0 0).claim == none && (t.engine 0 0).queue == []) = true := by decide +kernel

theorem test_copyCommit :
    let f : Fields := ext 7 1 4 2
    let g : Fields := ext 7 1 4 0
    (commits (.cpy g) g .cpy 2 0 (regsK 8) id none && commits (.cpy f) f .cpy 2 0 (regsK 8) id (some 1)) = true := by decide +kernel

/-- Eight commands in the queue leave no permit, seven one (11 R240). -/
theorem test_registerCommits :
    let f : Fields := ext 7 1 4 0
    let s := labE 2 none zeroRegs
    let sv := (labOf { stV with z := st0.z.setIfInBounds 1 (tileOf 2) })
    let queue (n : Nat) (c : Command) : State := s.editEngine 0 0 fun g => { g with queue := List.replicate n c }
    let w : Fields := ext 1 2 4 0
    let svt := labOf { stV with z := st0.z.setIfInBounds 1 (tileOf 2), vec := stV.vec.map fun v => { v with tag := Vector.replicate 32 2 } }
    (tileRows (tileOf 2) == 4 &&
      yields (newCommand .mzero zeroRegs (tileOf 2) 0 0 0 0 0) s (fun c t => t == s &&
        gives (.mzero f) s ((s.commits 0 c id).behind 0 f) && strandAfter (.mzero f) (queue 7 c) (fun t _ => (t.engine 0 0).queue.length == 8) &&
        gives (.mzero f) (queue 8 c) ((queue 8 c).leave 0 .parked (.permit 0) 8)) &&
      yields (operandB f) sv (fun b r => yields (newCommand .mrd zeroRegs (tileOf 2) 0 0 0 0 0) r fun c t => t == r &&
        gives (.mrd f) sv ((r.commits 0 { c with row := b, dest := 7 } id).editStrand 0 fun q =>
          ({ q with vec := q.vec.map fun v => { v with vFull := v.vFull &&& ~~~(1#32 <<< 7) } } : Strand).done f)) &&
      yields (operandV w.a w.ta) svt (fun v r1 => v.2 == 2 && yields (operandB w) r1 fun b r =>
        yields (newCommand .mwr zeroRegs (tileOf 2) 0 0 0 0 0) r fun c t => t == r &&
          gives (.mwr w) svt ((r.commits 0 { c with row := b, data := v.1 } id).behind 0 w)) &&
      yields (operandX false f.a f.ta) s (fun a r1 => yields (newCommand .cpyr zeroRegs 0 0 0 0 0 0) r1 fun c t => t == r1 &&
        yields (checkAccess (Check.load 8) a 8) r1 fun _ r => gives (.cpyr f) s ((r.commits 0
          { c with dest := 7, addr := a, path := some 3 } id).editStrand 0 fun q =>
            ({ q with xFull := q.xFull &&& ~~~(1#64 <<< 7) } : Strand).done f)) &&
      yields (operandX false f.a f.ta) sv (fun a r1 => yields (checkAccess (Check.load 512) a 512) r1 fun _ _ =>
        strandAfter (.cpyr { f with m := 1 }) sv fun _ st => st.vec.any fun v => !v.vFull.getLsbD 7)) = true := by decide +kernel

/-- The registers 10, which the matrix unit has and the copy engine has not, and 15; tiles of 32 columns and of 33 (11 R243, R252). -/
theorem test_engineRegisters :
    let f (m : BitVec 4) (c : BitVec 6) : Fields := { ext 7 1 3 m with c := c }
    let s := labE 2 none zeroRegs
    let mine := labE 2 (some 0) ((regsK 8).setIfInBounds 15 0xCB00000000000000)
    let bad := labE 2 (some 0) zeroRegs
    let t32 := labOf { st0 with x := st0.x.setIfInBounds 3 (BitVec.ofNat 64 (512 + 32)) }
    let t33 := labOf { st0 with x := st0.x.setIfInBounds 3 (BitVec.ofNat 64 (512 + 33)) }
    (issues s (f 0 15) (fun _ => true) && hasReg 0 10 && !hasReg 1 10 && hasReg 1 15 && !hasReg 0 11 &&
      yields (operandB (f 0 15)) s (fun b r => b == 5 && r == s) && microOk 0 &&
      gives (.eset (f 0 15)) s ((s.editEngine 0 0 fun g => { g with claim := some 0, shadow := zeroRegs.setIfInBounds 15 5 }).behind 0 (f 0 15)) &&
      gives (.eset (f 1 15)) bad ((bad.editEngine 0 1 fun g => { g with shadow := g.shadow.setIfInBounds 15 5 }).behind 0 (f 1 15)) &&
      gives (.eset (f 1 15)) (labE 2 (some 3) zeroRegs) ((labE 2 (some 3) zeroRegs).leave 0 .parked (.claim 1) 15) &&
      strandAfter (.eset (f 2 0)) t32 (fun _ st => st.z[7] == BitVec.ofNat 64 (512 + 32)) &&
      strandAfter (.eset (f 2 0)) t33 (fun _ st => st.lcause == 2) &&
      strandAfter (.mprog (f 0 0)) (s.editStrand 0 fun st => { st with x := st.x.setIfInBounds 3 0 }) (fun t _ => (t.engine 0 0).claim == some 0) &&
      gives (.eget (f 2 0)) s (s.giving 0 (f 2 0) 7 (tileOf 2)) && gives (.eget (f 1 15)) mine (mine.giving 0 (f 1 15) 7 0xCB00000000000000) &&
      (s.engine 0 0).running == none && strandAfter (.eget (f 4 15)) s (fun t st => t.free == s.free + 1 && st.pc == 0x100C) &&
      gives (.ego (f 1 0)) s ((s.givingRelease 0 (f 1 0) 7 0x8000000000000001).replies 0) &&
      yields (commandOf 1 (bad.engine 0 1).shadow) bad (fun r t => t == bad && r == .inl 2) &&
      strandAfter (.ego (f 1 0)) bad (fun t st => st.x[7] == 0x8000000000000002 && (t.engine 0 1).claim == none) &&
      yields (commandOf 1 (mine.engine 0 1).shadow) mine (fun r t => t == mine && match r with
        | .inr c => match classed (.inr c) with
          | .inr c' => c'.kind.engine == 1 && gives (.ego (f 1 0)) mine (((mine.commits 0 { c' with ticket := some ((mine.engine 0 1).ticket 1) }
              (·.ticketed 0)).givingRelease 0 (f 1 0) 7 (BitVec.ofNat 64 ((mine.engine 0 1).ticket 1))).replies 0)
          | .inl _ => false
        | .inl _ => false)) = true := by decide +kernel

/-- ITER of a record at 0x2000 whose CMD is a CPY of no bytes and of one whose CMD is no command; the state and progress of a ticket. -/
theorem test_iterAndQuery :
    let f : Fields := ext 7 1 0 1
    let put (m : List Host.Cell) (a v : Nat) : List Host.Cell := Memory.setBytes m a (Memory.toBytes 8 v)
    let rec_ (cmd : Nat) : State := { lab with mem := put (put (put lab.mem 0x2000 0) 0x2038 0x2100) 0x2078 cmd }
    let s := rec_ 0xCB00000000000000
    let q : Fields := ext 7 4 0 0
    let queued (st : CmdState) : State :=
      match exec (.iter f) s with
      | .next t => (t.editEngine 0 1 fun g => { g with queue := g.queue.map fun c => { c with state := st, rprog := 3 } }).editStrand 0 fun _ =>
          { st0 with x := st0.x.setIfInBounds 4 32768 }
      | _ => s
    (yields (operandX false f.a f.ta) s (fun a s1 => yields (checkAccess (Check.load 64) a 64) s1 fun x s2 => yields (loadBytes x a 64) s2 fun lo s3 =>
        yields (checkAccess (Check.load 64) (a + 64) 64) s3 fun y s4 => yields (loadBytes y (a + 64) 64) s4 fun hi r =>
          yields (commandOf 1 (regsOf (lo ++ hi))) r fun c t => t == r && match c with
            | .inr c => match classed (.inr c) with
              | .inr c' => (r.engine 0 1).queue.length < 8 && gives (.iter f) s (((r.commits 0 { c' with ticket := some ((r.engine 0 1).ticket 1) }
                  fun q => { q with seqNo := q.seqNo + 1 }).givingRelease 0 f 7 (BitVec.ofNat 64 ((r.engine 0 1).ticket 1))).replies 0)
              | .inl _ => false
            | .inl _ => false) &&
      strandAfter (.iter f) (rec_ 0) (fun _ st => st.x[7] == 0x8000000000000002) &&
      strandAfter (.eqry q) s (fun _ st => st.x[7] == 0) &&
      (queued .queued |>.byTicket st0 32768).isSome &&
      strandAfter (.eqry q) (queued .queued) (fun _ st => st.x[7] == 0x30001) &&
      strandAfter (.eqry q) (queued .held) (fun _ st => st.x[7] == 0x30003) &&
      strandAfter (.ecan q) s (fun _ st => st.x[7] == 2) &&
      strandAfter (.ecan q) (queued .queued) (fun t st => st.x[7] == 0 && (t.engine 0 1).queue == []) &&
      strandAfter (.ecan q) (queued .held) (fun _ st => st.x[7] == 1)) = true := by decide +kernel

/-- EQRY of a command at its barrier, of a running copy, and of a gang of one core and of two, of which the other has no command
(11 R251); MRES without the right START (11 R250, 13 R300). -/
theorem test_queryOfRunning :
    let c (k : CmdKind) (state : CmdState) (g : Word) : Command :=
      { kind := k, state := state, regs := (zeroRegs.setIfInBounds 4 1).setIfInBounds 10 g, tile := 0x2000000000000201, fmtA := 2, fmtB := 2
        fmt := 2, m := 0, fcr := 0, row := 0, dest := 7, data := 0, addr := 0x2000, uid := 0, sid := 0, ctx := 0, lrec := 0, lseq := 1, scope := 0
        item := 0, ranges := bootRanges, rect := Rect.module, swBase := 0, swLen := 0, fra := 0, pc := 0x1000, ticket := some 7, rprog := 0
        flags := 0, bytes := 0, reported := 0, order := 3, drainNo := 3, path := none, gang := none, ending := none }
    let s (c : Command) : State :=
      (labOf { st0 with x := st0.x.setIfInBounds 4 7 }).editEngine 0 c.kind.engine fun g => { g with queue := [c] }
    let q : Fields := ext 7 4 0 0
    let tells (c : Command) (v : Word) : Bool := ((s c).byTicket st0 7 == some c) && strandAfter (.eqry q) (s c) fun _ st => st.x[7] == v
    let held : State := (s (c .mst .held 0)).editStrand 0 fun st => { st with x := st.x.setIfInBounds 4 65536 }
    (tells (c .gang .barrier 0) 4 && tells (c .gang .chained 0) 4 && tells (c .mma .running 0) 2 && gangRun 0 0 == [0] &&
      tells (c .gang .running 0) 2 && (gangRun 0 1).length == 2 && tells (c .gang .running 1) 4 && tells { c .gang .running 1 with rprog := 1 } 0x10002 &&
      (held.headCmd 0 1).any (fun c => c.state == .held && !held.heldOver st0 Right.start c.sid c.ctx) &&
      strandAfter (.mres q) held (fun _ st => st.lcause == 17)) = true := by decide +kernel

/-- MRES of engine 1 of core 0, and of engine 0 of it: a held head, a running one and none (11 R251). -/
theorem test_resume :
    let root (s : State) (x : Word) : State := s.editStrand 0 fun _ =>
      { st0 with x := st0.x.setIfInBounds 4 x, auth := st0.auth.setIfInBounds 0 rootRight }
    let q : Fields := ext 7 4 0 0
    let with_ (state : CmdState) (x : Word) : State :=
      match exec (.mst { ext 7 1 4 0 with fmt := 2 }) (labE 2 (some 0) (regsK 0)) with
      | .next t => root (t.editEngine 0 1 fun g => { g with queue := g.queue.map fun c => { c with state := state } }) x
      | _ => lab
    let st : Strand := { st0 with x := st0.x.setIfInBounds 4 65536, auth := st0.auth.setIfInBounds 0 rootRight }
    (((with_ .held 65536).headCmd 0 1).any (fun c => (with_ .held 65536).holdsOver st Right.start c.sid && c.state == .held) &&
      strandAfter (.mres q) (with_ .held 65536) (fun t st => st.x[7] == 0 && ((t.headCmd 0 1).map (·.state)) == some .running) &&
      strandAfter (.mres q) (with_ .running 65536) (fun _ st => st.x[7] == 1) &&
      strandAfter (.mres q) (with_ .held 0) (fun _ st => st.x[7] == 1)) = true := by decide +kernel

/-- A launch block at 0x2000 of four cores and one item per core with 256 slots; one with no slot; one without quota (02 R35 to R41). -/
theorem test_launches :
    let f : Fields := ext 7 1 0 0
    let block (slots quota : Nat) : State :=
      let w := [slots * 2 ^ 27 + 2 ^ 13 + 2 ^ 16, 4, 0x1100, 0, 0]
      { labOf { st0 with auth := st0.auth.setIfInBounds 0 rootRight } with
        mem := Memory.setBytes lab.mem 0x2000 (w.flatMap (Memory.toBytes 8))
        ctxs := [(0, { Ctx.fresh none 0 0x10000000000000 Rect.module.leafId 0 with qlim := Vector.replicate 16 quota })] }
    let st : Strand := { st0 with auth := st0.auth.setIfInBounds 0 rootRight }
    let s := block 256 2
    let gambit (trig : List Nat) : State :=
      { s with launches := [(0, { launch0 with state := .running true, producers := [1024 * 1 + 1] }), (1, { launch0 with next := trig.length, pop := 0, triggered := trig })] }
    (issues s f (fun _ => true) && yields (operandX false f.a f.ta) s (fun a s1 => a.toNat % 64 == 0 && yields (launchLines 4 a) s1 fun bytes s2 =>
        yields (readTempoBlock (wordsFrom 32 bytes)) s2 fun tempo r => tempo == some [] && r.launchStatus st (wordsFrom 32 bytes) tempo == 0 &&
          r.freeRecord == some 1 && gives (.launch f) s (((r.addLaunch 1 (lpbLaunch 0 st 1 a (wordsFrom 32 bytes) [] r.order r.gclk)).givingRelease 0 f 7
            (BitVec.ofNat 64 1025)).replies 0)) &&
      strandAfter (.launch f) (block 0 2) (fun _ st => st.x[7] == 0x8000000000000001) &&
      strandAfter (.launch f) (block 257 2) (fun _ st => st.x[7] == 0x8000000000000001) &&
      strandAfter (.launch f) (block 256 1) (fun _ st => st.x[7] == 0x8000000000000004) &&
      leaves (exec (.trigger f) s) (fun t => (t.launch? 0).any fun l => l.triggered == [0]) &&
      (s.launch? 0).any (fun l => !l.inGambit) && gives (.waitp f) s (s.setStrand 0 (st.done f)) &&
      ((gambit []).launch? 0).any (fun l => l.inGambit && !(gambit []).producersTriggered l) &&
      strandAfter (.waitp f) (gambit []) (fun _ st => st.await == .producers) &&
      strandAfter (.waitp f) (gambit [0]) (fun t st => st.pc == 0x100C && (t.launch? 0).any fun l => l.waited == [0])) = true := by
  decide +kernel

/-- The statuses of launch blocks: a clear right over the rectangle, a range without a length, one that ends at 2^57 and one past it, several
at once (02 R41). -/
theorem test_launchRefusals :
    let st (right : Word) : Strand := { st0 with auth := st0.auth.setIfInBounds 0 right }
    let status (w : List (Nat × Nat)) (right : Word) (quota : Nat) : Nat :=
      let s : State := { labOf (st right) with
        ctxs := [(0, { Ctx.fresh none 0 0x10000000000000 Rect.module.leafId 0 with qlim := Vector.replicate 16 quota })] }
      let b := ([(0, 256 * 2 ^ 27 + 2 ^ 13 + 2 ^ 16), (1, 4), (2, 0x1100)] ++ w).foldl (fun (b : List Word) (e : Nat × Nat) => b.set e.1 (BitVec.ofNat 64 e.2)) (List.replicate 32 0)
      s.launchStatus (st right) b (some [])
    let range (base len : Nat) : List (Nat × Nat) := [(30, base), (31, 2 ^ 63 + len)]
    (status [] rootRight 2 == 0 && status [] 0 2 == 2 && status (range 0 0) rootRight 2 == 3 && status (range (2 ^ 57 - 8) 8) rootRight 2 == 0 &&
      status (range (2 ^ 57 - 8) 9) rootRight 2 == 3 && status [] rootRight 1 == 4 && status (range 0 0) 0 1 == 2 &&
      status ((5, 1) :: range 0 0) 0 1 == 1 && status (range 0 0) rootRight 1 == 3 && status [(4, 4)] rootRight 2 == 1 &&
      status [(17, 2 ^ 48)] rootRight 2 == 1 && status [(5, 2)] rootRight 2 == 1 && status [(5, 10)] rootRight 2 == 0) = true := by decide +kernel

/-! ### Witnesses: threads, special registers, traps, the system's instructions -/

/-- The issuing strand has every right over the module. -/
def stA : Strand := { st0 with auth := st0.auth.setIfInBounds 0 rootRight }

/-- A second strand in slot 1 of core 0, whose ID x3 of strand 0 names; x6 names slot 255, where nobody is. -/
def labT (g : Strand → Strand) (sel : Word) : State :=
  { lab with strands := [(0, { stA with x := ((stA.x.setIfInBounds 3 1).setIfInBounds 6 255).setIfInBounds 7 sel }),
                         (1, g { st0 with place := .slot 1, state := .ready })], nextUid := 2 }

def halted (st : Strand) : Strand := { st with state := .stopped }

/-- TSTOP, TSTART and TSTEP of a running, a halted and an absent strand, and of the caller (13 R300 to R303). -/
theorem test_threadControl :
    let s := labT id 0
    let h := labT halted 0
    let f : Fields := ext 8 3 7 0
    let g : Fields := ext 8 6 7 0
    let self_ : Fields := ext 8 4 7 0
    let found (f : Fields) (right : Nat) (s : State) : Option (Option Nat) :=
      match targetStrand f right s with | (.ok o, t) => if t == s then some (o.map (·.1)) else none | _ => none
    (issues s f (fun _ => true) && found f Right.stop s == some (some 1) && found g Right.stop s == some none &&
      found self_ Right.stop s == some (some 0) && found f Right.start h == some (some 1) && found g Right.step h == some none &&
      gives (.tstop f) s (((s.haltStrand 1).giving 0 f 8 0).replies 0) &&
      gives (.tstop f) h ((h.giving 0 f 8 0x8000000000000002).replies 0) &&
      gives (.tstop g) s ((s.giving 0 g 8 0x8000000000000001).replies 0) &&
      gives (.tstop self_) s ((s.giving 0 self_ 8 0).haltStrand 0) &&
      gives (.tstart f) h (((h.startStrand 1).giving 0 f 8 0).replies 0) &&
      gives (.tstart f) s ((s.giving 0 f 8 0x8000000000000002).replies 0) &&
      gives (.tstart g) s ((s.giving 0 g 8 0x8000000000000001).replies 0) &&
      gives (.tstep f) h ((((h.editStrand 1 fun q => { q with stepping := some q.pc }).startStrand 1).editStrand 0 fun q =>
        { q.gives 8 0 with behind := 12 }).leave 0 .parked (.stepped 1) 15) &&
      gives (.tstep f) s ((s.giving 0 f 8 0x8000000000000002).replies 0) &&
      gives (.tstep g) s ((s.giving 0 g 8 0x8000000000000001).replies 0)) = true := by decide +kernel

/-- x63, a v register without a context, the PC of a running and of a halted strand, FCR, and VISMAX, which none may write (13 R301). -/
theorem test_readAndWriteThread :
    let sel (file reg : Nat) : Word := BitVec.ofNat 64 (file * 4096 + reg * 64)
    let f : Fields := { ext 8 3 7 0 with c := 2, e := 9 }
    let read (g : Strand → Strand) (w : Word) (v i : Word) : Bool := strandAfter (.tread f) (labT g w) fun _ st =>
      st.x[8] == v && st.x[9] == i && st.await == .reply && st.pc == 0x100C
    let wrote (g : Strand → Strand) (w : Word) (p : Strand → Bool) (v : Word) : Bool := strandAfter (.twrite f) (labT g w) fun t st =>
      st.x[8] == v && (t.strand? 1).any p
    let s := labT id (sel 0 63)
    (yields (targetStrand f Right.read) s (fun o r1 => o.isSome && yields (operandB f) r1 fun b r => (selectorOf b false).isSome && r == s) &&
      yields (targetStrand f Right.write) s (fun o r1 => o.isSome && yields (operandB f) r1 fun b r2 => (selectorOf b true).isSome &&
        yields (readX f.c.toNat) r2 fun _ r => r == s) &&
      read id (sel 0 63) 0 1 && read id (sel 1 0) 0 0x8000000100000000 && read halted (sel 5 0) 0x1000 0 &&
      wrote id (sel 0 63) (fun q => q.x[63] == 0x1122334455667788) 0 && wrote id (sel 1 0) (fun q => q.vec.isNone) 0x8000000000000001 &&
      wrote id (sel 5 0) (fun q => q.pc == 0x1000) 0x8000000000000002 && wrote halted (sel 5 0) (fun q => q.pc != 0x1000) 0 &&
      wrote id (sel 3 7) (fun q => q.z[7] == 0x1000000055667608) 0 && srForm 0 0x1122334455667788 && wrote id (sel 4 0) (fun q => q.fcr == 0x188) 0 &&
      !(labT id 0).maySetTw 0 0 && wrote id (sel 4 7) (fun _ => true) 0x8000000000000003 &&
      wrote id (sel 4 23) (fun _ => true) 0x8000000000000003) = true := by decide +kernel

/-- A grant into a free table, into one with its first 63 entries valid, and into a full one; a revocation; no target (13 R301). -/
theorem test_grantAndRevoke :
    let f : Fields := ext 8 3 7 0
    let g : Fields := ext 8 6 7 0
    let tab (n : Nat) : State := labT (fun st => { st with auth := Vector.ofFn fun i => if i.val < n then rootRight else 0 }) rootRight
    let ok (s : State) (f : Fields) : Bool := yields (grantTarget f) s fun r t => t == s && r.1 == rootRight
    (issues (tab 0) f (fun _ => true) && ok (tab 0) f && ok (tab 64) f && ok (tab 0) g &&
      gives (.tgrant f) (tab 63) ((((tab 63).editStrand 1 fun q => { q with auth := q.auth.setIfInBounds 63 rootRight }).giving 0 f 8
        63).replies 0) &&
      gives (.tgrant f) (tab 64) (((tab 64).giving 0 f 8 0x8000000000000001).replies 0) &&
      gives (.tgrant g) (tab 0) (((tab 0).giving 0 g 8 0x8000000000000002).replies 0) &&
      gives (.trevoke f) (tab 2) ((((tab 2).editStrand 1 fun q => { q with auth := q.auth.map (revoked rootRight) }).giving 0 f 8
        2).replies 0) &&
      gives (.trevoke g) (tab 0) (((tab 0).giving 0 g 8 0x8000000000000002).replies 0)) = true := by decide +kernel

/-- TSTOP of a strand that is stepped, and of one that another waits for (13 R302). -/
theorem test_targetWaits :
    let s := labT (fun st => { st with stepping := some 0x1000 }) 0
    let w : State := { labT id 0 with strands := (labT id 0).strands ++ [(2, { st0 with
      place := .slot 2, state := .parked, await := .stepped 1, queued := some (strandPlace 1, 3) })], order := 9 }
    let f : Fields := ext 8 3 7 0
    ((s.strand? 0).all (fun st => s.holdsOver st Right.stop 1) && (s.bySid 0 1).map (·.1) == some 1 && w.mustQueue .issuer (strandPlace 1) &&
      [s, w].all (fun s => strandAfter (.tstop f) s fun t st => st.state == .parked && st.await == .stepped 1 && st.pc == 0x1000 &&
        t.strand? 1 == s.strand? 1)) = true := by decide +kernel

/-- A strand without rights traps AUTHORITY (13 R300). -/
theorem test_noRight :
    let s := (labT id 0).editStrand 0 fun st => { st with auth := Vector.replicate 64 0 }
    let f : Fields := { ext 8 3 7 0 with c := 2 }
    ((s.strand? 0).all (fun st => !s.holdsOver st Right.stop 1 && !s.holdsOver st Right.write 1) &&
      strandAfter (.tstop f) s (fun _ st => st.lcause == 17) && strandAfter (.twrite f) s (fun _ st => st.lcause == 17)) = true := by
  decide +kernel

/-- Each register that SWR writes, with a value whose reserved bits are set; FRA and THV of the wrong form; a register that only TWRITE
writes (13 R305, R306). -/
theorem test_specialRegisters :
    let f (n : BitVec 6) : Fields := { ext 0 0 5 0 with c := n }
    let swr (n : BitVec 6) (v : Word) (p : State → Strand → Bool) : Bool :=
      let s := labOf { st0 with x := st0.x.setIfInBounds 5 v }
      yields (operandB (f n)) s (fun b _ => b == v) && strandAfter (.swr (f n)) s p
    let all : Word := 0xFFFFFFFFFFFFFFFF
    (swr 0 all (fun _ st => st.fcr == 0x1FF) && swr 1 all (fun _ st => st.tvec == 0xFFFFFFFFFFFFFFFC) &&
      swr 2 all (fun _ st => st.tcause == 0x8000FFFFFFFFFFFF) && swr 3 all (fun _ st => st.tpc == all) && swr 4 all (fun _ st => st.tfaddr == all) &&
      swr 5 0x40 (fun _ st => st.fra == 0x40) && swr 5 0x41 (fun _ st => st.lcause == 2) && swr 11 all (fun _ st => st.feRetry == 0xFF) &&
      swr 16 all (fun _ st => st.swBase == all) && swr 17 all (fun _ st => st.swLen == all) &&
      swr 6 0xFFFFFFFFFFFC (fun t _ => (t.ctx? 0).any (·.thv == 0xFFFFFFFFFFFC)) && swr 6 0x1000000000000 (fun _ st => st.lcause == 2) &&
      swr 15 0x10000000000000 (fun t st => (t.ctx? 0).any (·.bmap == 0x10000000000000) && st.await == .reply) &&
      swr 14 0 (fun t _ => (t.ctx? 0).any (·.schedule.isNone)) && swr 9 0 (fun _ st => st.lcause == 17) && swr 19 0 (fun _ st => st.lcause == 17) &&
      strandAfter (.srd { ext 7 0 0 0 with c := 11 }) lab (fun _ st => st.x[7] == 4)) = true := by decide +kernel

/-- VTIME, which does not go back behind the last value it gave. -/
theorem test_vtime :
    let at_ (last : Word) : State := { lab with gclk := 9, ctxs := [(0, { Ctx.fresh none 0 0 Rect.module.leafId 0 with vtLast := last })] }
    ((lab.ctx? 0).isSome && strandAfter (.vtime (base 7 0 0 0)) (at_ 9) (fun _ st => st.x[7] == 9) &&
      strandAfter (.vtime (base 7 0 0 0)) (at_ 10) (fun _ st => st.x[7] == 10)) = true := by decide +kernel

/-- Causes 1, 16 and 17 with every bit of TVEC's mask set, one with a handler active, and one with its bit clear (13 R312). -/
theorem test_takingATrap :
    let st (mask : Nat) (act : Word) : Strand := { st0 with tvec := BitVec.ofNat 64 (mask * 2 ^ 48 + 0x1100), tcause := act }
    let s (mask : Nat) (act : Word) : State := labOf (st mask act)
    let after (s : State) (cause : Nat) : Option Strand := (s.takeTrap 0 cause 5 0x1004 0x77).strand? 0
    let enters (cause : Nat) : Bool := (after (s 0xFFFF 0) cause).any fun q =>
      q.pc == 0x1100 && q.tpc == 0x1004 && q.tfaddr == 0x77 && q.tcause == BitVec.ofNat 64 (2 ^ 63 + cause * 2 ^ 32 + 5) && q.state == .run
    let stops (s : State) (cause : Nat) : Bool := (after s cause).any fun q =>
      q.state == .stopped && q.pc == 0x1004 && q.lcause == BitVec.ofNat 16 cause && q.tpc == 0
    (issues (s 0xFFFF 0) (ext 0 0 0 0) (fun q => q.stepping.isNone && q.state == .run) &&
      (after (labOf { st0 with tvec := BitVec.ofNat 64 (0xFFFF * 2 ^ 48 + 0x4000) }) 1).any (fun q => q.state == .stopped && q.lcause == 4) &&
      codeAt (s 0xFFFF 0) 0x1100 && enters 1 && enters 16 && stops (s 0xFFFF 0) 17 && stops (s 0xFFFE 0) 1 &&
      stops (s 0xFFFF 0x8000000000000000) 16 && stops (s 0 0) 16 &&
      (let far := labOf { st0 with tvec := BitVec.ofNat 64 (0xFFFF * 2 ^ 48 + 0x1080) }
       let t := far.takeTrap 0 1 5 0x1004 0x77
       (t.strand? 0).any (fun q => q.state == .parked && q.await == .handler && q.pc == 0x1004) && t.later.length == 1) &&
      gives (.trap { ext 0 0 0 0 with bk := 1, imm20 := 9 }) lab ((lab.setStrand 0 (st0.done (ext 0 0 0 0))).takeTrap 0 16 9 0x100C 0x1000) &&
      gives (.brk (ext 0 0 0 0)) lab ((lab.setStrand 0 (st0.done (ext 0 0 0 0))).takeTrap 0 20 0 0x100C 0x1000)) = true := by
  decide +kernel

/-- The record of a stop at FRA = 0x2000, and at an FRA that cannot be written (13 R313). -/
theorem test_faultRecord :
    let s : State := { lab with mem := (lab.store 0x1004 4 0xABCD).mem, strands := [(0, { st0 with frSeq := 6 })] }
    let record (fra : Word) : Bool × State := s.record 9 (some 0) 0 0 fra 0 0x12 13 0x1004 0x77 5 0 0 3 false
    let r := (record 0x2000).2
    ((match s.unitSite 0 0 9 (some 0) 0x2000 true true with | (.ok x, _) => x.pa == 0x2000 | _ => false) && s.waiters == [] &&
      (s.iwordFor 0 0 0 9 13 0x1004 0x77).1 == some 0xABCD && (record 0x2000).1 &&
      (List.range 8).map (fun i => r.word (0x2000 + 8 * i)) == [0x070000000012000D, 0x1004, 0x77, 5, 0, 3, 0xABCD, 0] &&
      (r.strand? 0).any (·.frSeq == 7) && (record 0x200000000000000).1 &&
      ((record 0x200000000000000).2.strand? 0).any (·.frSeq == 6)) = true := by decide +kernel

/-- The module's one leaf: split into halves. A leaf of the smallest shape is not split. Two idle quarters, beside the half where the
caller is, merge and are bumped; halves of which one holds the caller are not (22 R351, R352, R361). -/
theorem test_partitions :
    let node (r : Rect) : Word := BitVec.ofNat 64 r.toNat
    let half : Rect := ⟨0, 0, 6, 6⟩
    let small : Rect := ⟨0, 0, 2, 2⟩
    let quarter : Rect := ⟨64, 0, 5, 5⟩
    let both : Rect := ⟨64, 0, 6, 5⟩
    let at_ (ls : List Rect) (r : Rect) : State :=
      { labOf { stA with x := stA.x.setIfInBounds 3 (node r) } with
        leaves := ls.map fun n => { Leaf.module with node := n, ready := true }
        launches := [(0, { launch0 with rect := Rect.single 0 })] }
    let f : Fields := ext 8 3 4 0
    let cut : State := { at_ [Rect.module] Rect.module with launches := [(0, launch0)] }
    let two := [half, ⟨64, 0, 6, 6⟩]
    let three := [half, quarter, ⟨96, 0, 5, 5⟩]
    let full := at_ [Rect.module] Rect.module
    let answers (i : Instr) (s : State) (v : Word) (p : List Leaf → Bool) : Bool :=
      strandAfter i s fun t st => st.x[8] == v && st.await == .reply && p t.leaves
    (issues full f (fun _ => true) && yields (operandX false f.a f.ta) full (fun a s1 => yields (nodeOperand a) s1 fun n s2 =>
        n == Rect.module && s2 == full && yields (needNode n) s2 fun _ s3 => s3 == full && (s3.leafAt n).isSome && !s3.cutCrossed n) &&
      Rect.module.parent.isNone && quarter.parent == some both && small.isNode &&
      answers (.psplit f) full 0 (fun l => l.map (·.node) == two) &&
      strandAfter (.psplit f) cut (fun _ st => st.await == .cut Rect.module.toNat && st.pc == 0x1000) &&
      answers (.psplit f) (at_ two Rect.module) 0x8000000000000001 (fun _ => true) &&
      answers (.psplit f) (at_ [small] small) 0x8000000000000002 (fun _ => true) &&
      answers (.pmerge f) (at_ three quarter) 0 (fun l => (l.map (·.node)).contains both && l.length == 2) &&
      answers (.pmerge f) (at_ two half) 0x8000000000000003 (fun _ => true) &&
      answers (.pmerge f) full 0x8000000000000001 (fun _ => true) &&
      answers (.genbump f) (at_ three both) 0 (fun l => l.map (·.gen) == [0, 1, 1]) &&
      answers (.genbump f) (at_ two half) 0x8000000000000003 (fun l => l.map (·.gen) == [0, 0])) = true := by decide +kernel

/-- STEP, the three kinds of TLBINV, COHERE of one declared page, and CAST with 15 and with 16 commands in its queue. -/
theorem test_systemInstructions :
    let x3 (v : Word) (s : State) : State := s.editStrand 0 fun st => { st with x := st.x.setIfInBounds 3 v }
    let table (a v : Nat) (m : List Host.Cell) : List Host.Cell := Memory.setBytes m a (Memory.toBytes 8 v)
    let s := x3 0x1000 { lab with mem := table 0 0x500001 (table 0x500000 0x1BF lab.mem) }
    let f (m : BitVec 4) : Fields := ext 8 1 3 m
    let block : State :=
      let w := [1, Rect.module.toNat, 0, 0, 0, 0, 0, 0, 0, 0, 0, 0x2100]
      { labOf stA with mem := Memory.setBytes lab.mem 0x2000 (w.flatMap (Memory.toBytes 8)) }
    let c : CastCmd := castCmdOf [] 0 0
    let queue (n : Nat) : State := { block with castQ := List.replicate n c }
    let code (s : State) : Option Nat :=
      match exec (.cast (f 0)) s with
      | .next t => (t.strand? 0).map fun st => st.x[8].toNat % 2 ^ 63
      | _ => none
    (gives (.step (f 0)) s (((s.editCtx 0 fun c => { c with steps := c.steps + 1 }).behind 0 (f 0)).replies 0) &&
      [0, 1, 2].all (fun n => yields (operandX false (f 0).a 0) (x3 n lab) fun a s1 => yields (operandB (f 0)) s1 fun b r =>
        b == n && gives (.tlbinv (f 0)) (x3 n lab) (((r.tlbInv 0 a n.toNat).behind 0 (f 0)).replies 0)) &&
      yields (operandX false (f 1).a 0) s (fun a s1 => yields (operandB (f 1)) s1 fun b r => a.toNat % 4096 == 0 && b == 0x1000 &&
        r.declaredRegion st0 a.toNat b.toNat && gives (.cohere (f 1)) s (((r.tlbInvRun 0 0x2000 0x1000).giving 0 (f 1) 8 0).replies 0) &&
        yields (regionLines 1 a) (r.tlbInvRun 0 a.toNat b.toNat) fun ls s2 => ls.length == 32 && ls.all fun e => !s2.busy.contains e.1) &&
      strandAfter (.cohere (f 0)) s (fun _ st => st.x[8] == 0 && st.await == .reply && st.pc == 0x100C) &&
      yields (nodeOperand (BitVec.ofNat 64 Rect.module.toNat)) block (fun n s1 => yields (needNode n) s1 fun _ s2 =>
        yields (castWord 0x2100) s2 fun pa _ => pa == 0x2100) &&
      code (queue 15) == some 0 && code (queue 16) == some 3) = true := by decide +kernel

/-- TLBINV of the page of a waiting access, of another page, and of everything; COHERE of a line that the host owns (13 R309, 05 R140,
R142). -/
theorem test_systemWaits :
    let w : Waiter := ⟨3, 1, false, 0x2000, .lds, 7, 0, true, 4, 0x2000, false⟩
    let s (x3 : Word) (b : BitVec 20) : State × Fields :=
      ({ lab with
          strands := [(0, { st0 with x := (st0.x.setIfInBounds 3 x3) }), (1, { st0 with place := .slot 1, state := .parked, await := .syncWord })]
          nextUid := 2, waiters := [w] }, { ext 8 3 0 0 with bk := 1, imm20 := b })
    let waits (e : State × Fields) : Bool := strandAfter (.tlbinv e.2) e.1 fun _ st => st.state == .parked && st.await == .accesses [3] &&
      st.pc == 0x1000 && st.behind == 12
    let goes (e : State × Fields) : Bool := strandAfter (.tlbinv e.2) e.1 fun _ st => st.await == .reply && st.pc == 0x100C
    let table (a v : Nat) (m : List Host.Cell) : List Host.Cell := Memory.setBytes m a (Memory.toBytes 8 v)
    let h : State := { labOf { st0 with x := st0.x.setIfInBounds 3 0x1000 } with
      mem := table 0 0x500001 (table 0x500000 0x1BF lab.mem), agents := [(0x40, { AgentEntry.idle with host := .exclusive })] }
    let f : Fields := ext 8 1 3 0
    ((s 0x2000 0).1.staleAccesses 0 0x2000 0 == [3] && waits (s 0x2000 0) && waits (s 0x2000 1) && waits (s 0x40000000 2) &&
      goes (s 0x40000000 1) && h.needsBackInv 0x40 &&
      strandAfter (.cohere f) h (fun t st => t.backInv.contains 0x40 && st.await == .lines [0x40] && st.pc == 0x100C)) = true := by
  decide +kernel

/-! ### Witnesses: events of the barrel, launches and engines -/

/-- Nobody issues: strands as given, on core 0, whose position 0 is free unless `held`. -/
def quiet (l : SMap Strand) (held : Bool) : State :=
  { lab with
    cur := none, strands := l, nextUid := 9, order := 50
    cores := [(0, { core0 with pos := (Vector.replicate 8 none).setIfInBounds 0 (if held then some 0 else none) })]
    launches := [(0, { launch0 with rect := Rect.single 0 })] }

def ready (n prio since : Nat) : Strand := { st0 with place := .slot n, state := .ready, prio := prio, since := since }

def one (l : Launch) : State := { quiet [] false with launches := [(0, { l with rect := Rect.single 0 })] }

def rest : Cont := ⟨0x1100, 0, 0, 0, 0, false, [9, 0, 0, 0, 0]⟩

/-- Of two strands of the highest class the one READY longer; a quantum of 4,095 issues and of 4,096 (01 R28, R29). -/
theorem test_barrel :
    let s := quiet [(1, ready 1 2 9), (2, ready 2 3 8), (3, ready 3 3 7)] false
    let q (n : Nat) (l : SMap Strand) : State := quiet ((0, { st0 with issues := n }) :: l) true
    let other := [(1, ready 1 0 9)]
    (s.inPosition 0 0 == none && (s.nextReady 0).map (·.1) == some 3 &&
      leaves (exec (.barrelRefill 0 0) s) (fun t => t.inPosition 0 0 == some 3) && (q 0 other).inPosition 0 0 == some 0 &&
      (q 0 other).classWaits 0 0 && !(q 0 []).classWaits 0 0 && gives (.quantumEnd 0 0) (q 4095 other) (q 4095 other) &&
      leaves (exec (.quantumEnd 0 0) (q 4096 other)) (fun t => (t.strand? 0).any (·.state == .ready)) &&
      leaves (exec (.quantumEnd 0 0) (q 4096 [])) (fun t => (t.strand? 0).any (·.issues == 0))) = true := by decide +kernel

/-- An item, a continuation, a migrated strand and a spilled one enter a slot (02 R44, R53, R59, 01 R24). -/
theorem test_placement :
    let s := one { launch0 with next := 0, pop := 0 }
    let l : Launch := { launch0 with next := 0, pop := 0, rect := Rect.single 0 }
    let c := (one launch0).editCore 0 fun k => { k with arrivals := [.cont rest] }
    let m := (quiet [(1, { st0 with place := .transit, state := .ready })] false).editCore 0 fun k => { k with arrivals := [.strand 1] }
    let z := quiet [(1, { st0 with place := .spill 4, state := .parked, woken := true })] false
    (s.mayDispatch 0 l && l.itemCore 0 == 0 && (s.claimSlot 0).map (·.1) == some 0 && codeAt s 0x1000 &&
      leaves (exec (.itemDispatch 0) s) (fun t => t.strands.map (fun e => (e.1, e.2.item, e.2.pc, e.2.state)) == [(9, 0, 0x1000, .ready)]) &&
      (c.core 0).arrivals.findSome? Arrival.cont? == some rest && !c.reloadWaits 0 && codeAt c 0x1100 &&
      leaves (exec (.continuationPickup 0) c) (fun t => t.strands.map (fun e => (e.2.pc, e.2.x[1])) == [(0x1100, 9)]) &&
      (m.core 0).arrivals.findSome? Arrival.uid? == some 1 && !m.reloadWaits 0 &&
      leaves (exec (.migrationArrival 0) m) (fun t => (t.strand? 1).any (·.place == .slot 0)) &&
      (z.firstWoken 0).map (·.1) == some 1 &&
      leaves (exec (.spillReload 1) z) (fun t => (t.strand? 1).any fun q => q.place == .slot 0 && q.state == .ready)) = true := by
  decide +kernel

/-- An item whose entry is not in the instruction cache waits in its slot for its line, and one whose entry is no code traps (06 R157, 02
R44). -/
theorem test_entryWaits :
    let s (entry : Word) : State := one { launch0 with next := 0, pop := 0, entry := entry }
    (leaves (exec (.itemDispatch 0) (s 0x1080)) (fun t => (t.strand? 9).any (fun q => q.state == .parked && q.await == .handler) &&
        t.later.map (·.chore) == [.start 9]) &&
      leaves (exec (.itemDispatch 0) (s 0x4000)) (fun t => (t.strand? 9).any fun q => q.state == .stopped && q.lcause == 4)) = true := by
  decide +kernel

/-- A reply, a release above fabric scope, and the third and last retries of an access whose word is empty and whose word is full
(05 R116, R122, 04 R101). -/
theorem test_waits :
    let parked (a : Await) : State := quiet [(1, { st0 with state := .parked, await := a, since := 1 })] false
    let w (tries : Nat) : Waiter :=
      { no := 3, uid := 1, access := false, addr := 0x2000, kind := .lds, dest := 7, tries := tries, listed := false, len := 4, va := 0x2000
        coherent := false }
    let e (tries : Nat) (empties : List Nat) : State := { parked .retries with waiters := [w tries], empties := empties }
    ((parked .reply).awaitMet 1 ((parked .reply).strands.headD (0, st0)).2 false .reply &&
      leaves (exec (.memoryReply 1) (parked .reply)) (fun t => (t.strand? 1).any (·.state == .ready)) &&
      (parked (.order true false false)).ordered 1 st0 true &&
      leaves (exec (.leaseClockPassesVismax 1) (parked (.order true false false))) (fun t => (t.strand? 1).any (·.state == .ready)) &&
      !WaitKind.met (e 2 [0x400]) 0x2000 .lds && WaitKind.met (e 2 []) 0x2000 .lds &&
      leaves (exec (.syncRetry 1) (e 2 [0x400])) (fun t => t.waiters == [{ w 3 with listed := false }]) &&
      leaves (exec (.syncRetry 1) (e 3 [0x400])) (fun t => t.waiters == [{ w 4 with listed := true }] && (t.strand? 1).any (·.await == .syncWord)) &&
      leaves (exec (.syncRetry 1) (e 3 [])) (fun t => t.waiters == [] && t.empties == [0x400] && (t.strand? 1).any (·.x[7] == 0x8877665544332211))) =
      true := by decide +kernel

/-- A pending launch is admitted and ages; a complete one gives up its record, with and without a completion word (02 R46 to R50). -/
theorem test_launchEvents :
    let p := one { launch0 with state := .pending, next := 0, pop := 0, callerAuth := stA.auth }
    let d (cword : Word) : State := one { launch0 with pop := 0, cword := cword, caller := 1 }
    ((p.launch? 0).any (fun l => p.mayAdmit 0 l && l.prio == 3) && (p.launch? 0).any (fun l => !{ p with launches := [] }.mayAdmit 0 { l with nitems := 0 }) &&
      leaves (exec (.launchAdmission 0) p) (fun t => (t.launch? 0).any (·.state == .running false)) &&
      gives (.launchAging 0) { p with gclk := 599999 } { p with gclk := 599999 } && !p.halted 0 &&
      leaves (exec (.launchAging 0) { p with gclk := 600000 }) (fun t => (t.launch? 0).any fun l => l.pended == 600000 && l.pendFrom == 600000) &&
      ((d 0).launch? 0).any (·.complete) && leaves (exec (.launchCompletion 0) (d 0)) (fun t => t.launches == []) &&
      ((d 0x2000).agentWord 0 0 0x2000 1).1.toOption.isSome &&
      leaves (exec (.launchCompletion 0) (d 0x2000)) (fun t => t.launches == [] && t.word 0x2000 == 1)) = true := by decide +kernel

/-- The core seeks work and finds it in its own deque, its first victim; finds none; a value lands; a break index is recorded; a match
entry whose message is complete (02 R55, R56, 12 R280, R284, 13 R296). -/
theorem test_otherLaunchEvents :
    let s := (one launch0).editCore 0 fun k => { k with deque := [⟨rest, none, false⟩] }
    let none_ : State := { one launch0 with launches := [(0, { launch0 with rect := ⟨0, 0, 1, 0⟩ })] }.editCore 1 fun k =>
      { k with deque := [⟨rest, none, false⟩] }
    let v : Delivery := { item := 1, d := 1, j := 0, value := ⟨5, 8⟩ }
    let f : State := { quiet [(1, { st0 with isItem := true, item := 1 })] false with launches := [(0, { launch0 with flight := [v] })] }
    let b : State := { quiet [(1, { st0 with isItem := true, item := 6, state := .parked, await := .forward 1 0 })] false with
      launches := [(0, { launch0 with brk := 5, rect := Rect.single 0, pop := 1 })] }
    let m : Match := { ctx := 0, sid := 0, lrec := 0, core := 0, tag := 0, len := 8, got := 8, buf := 0, cont := 0x2000 }
    (s.seeks 0 0 { launch0 with rect := Rect.single 0 } && spiral 0 (Rect.single 0) == [0] && Sparse.get (s.core 0).ring 0 == none &&
      (s.takeOldest 0 0).1.isSome && leaves (exec (.stealProbe 0 0) s) (fun t => (t.core 0).arrivals == [.cont { rest with stolen := true }]) &&
      none_.seeks 0 0 { launch0 with rect := ⟨0, 0, 1, 0⟩ } && spiral 0 ⟨0, 0, 1, 0⟩ == [0, 1] &&
      (none_.takeOldest 0 0).1.isNone && leaves (exec (.stealProbe 0 0) none_) (fun t =>
        Sparse.get (t.core 0).ring 0 == some 1 && (t.core 0).probeAt == 64) &&
      f.itemStrand 0 1 == some 1 && leaves (exec (.tempoDelivery 0 0 1 0) f) (fun t =>
        (t.strand? 1).any (fun q => Sparse.get q.fwd (fwdKey 1 0) == some ⟨5, 8⟩) && (t.launch? 0).any (·.flight == [])) &&
      b.recordedBreak 0 0 != 5 && leaves (exec (.breakIndexRecord 0 0) b) (fun t => t.strands == [] && t.recordedBreak 0 0 == 5) &&
      leaves (exec (.armtDeferredPush 0 0) { one launch0 with matches_ := [(0, m)] }) (fun t => t.matches_ == [] &&
        (t.core 0).deque.length == 1)) = true := by decide +kernel

/-! ### Witnesses: events of the engines -/

/-- A command of core 0 with two engine registers set and a 1 × 1 tile. -/
def cmdOf (k : CmdKind) (state : CmdState) (regs : List (Nat × Word)) : Command :=
  { kind := k, state := state, regs := regs.foldl (fun g e => g.setIfInBounds e.1 e.2) (zeroRegs.setIfInBounds 7 0x2100)
    tile := 0x2000000000000201, fmtA := 2, fmtB := 2, fmt := 2, m := 0, fcr := 0, row := 0, dest := 7, data := ofElems 32 [0x40400000]
    addr := 0x2000, uid := 0, sid := 0, ctx := 0, lrec := 0, lseq := 1, scope := 0, item := 0, ranges := bootRanges, rect := Rect.module
    swBase := 0, swLen := 0, fra := 0, pc := 0x1000, ticket := none, rprog := 0, flags := 0, bytes := 0, reported := 0, order := 3
    drainNo := 3, path := none, gang := none, ending := none }

def running (c : Command) : State :=
  { labV.editEngine 0 c.kind.engine (fun g => { g with queue := [c], tlb := [page 0 0] }) with cur := none }

def atHead (c : Command) : Bool :=
  let s := running c
  s.headOf 0 c.kind.engine [c.kind] == some c && (s.engine 0 c.kind.engine).queue.all (·.ending.isNone)

def ran (r : Except EngineStop α × State) (p : α → State → Bool) : Bool :=
  match r with
  | (.ok v, s) => p v s
  | _ => false

/-- EGET of an engine between two commands; ECAN of commands that have a completion word and have none; MRES of a command whose completion
word's line is held (11 R245, R249, R250). -/
theorem test_engineWaits :
    let s (c : Command) : State := { running c with cur := some 0, strands := [(0, { stA with x := st0.x.setIfInBounds 4 32768 })] }
    let c (k : CmdKind) (state : CmdState) : Command := { cmdOf k state [] with ticket := some 32768, path := some 0 }
    let q : Fields := ext 7 4 0 0
    let e : Fields := { ext 7 1 3 5 with c := 15 }
    let held : State := { s (c .cpy .held) with
      busy := [0x42], mem := (((lab.store 0 8 0x500001).store 0x500000 8 0x1BF).mem), strands := [(0, { stA with x := st0.x.setIfInBounds 4 65536 })] }
    ((((s (c .cpy .queued)).engine 0 1).switching && gives (.eget e) (s (c .cpy .queued)) ((s (c .cpy .queued)).leave 0 .parked (.switching 1) 15)) &&
      [CmdKind.cpy, .cpyr].all (fun k => ((s (c k .running)).byTicket st0 32768).isSome &&
        (s (c k .running)).headCmd 0 1 == some (c k .running) &&
        leaves (exec (.ecan q) (s (c k .running))) fun t => (t.engine 0 1).queue == [] &&
          t.word 0x2100 == (if k == .cpy then 0x0200000000000000 else 0)) &&
      ((held.clearMicroTlb 0 1).rearm 0 (c .cpy .held) 0).1.isSome &&
      strandAfter (.mres q) held (fun _ st => st.state == .parked && st.pc == 0x1000)) = true := by decide +kernel

/-- A product with inner dimension 1: its start, a start from a misaligned base, its one row block, its end (11 R246, R247, R253). -/
theorem test_productRun :
    let c (state : CmdState) (a : Word) (n : Nat) : Command :=
      { cmdOf .mma state [(0, a), (1, 4), (2, 0x2004), (3, 4), (4, 1)] with rprog := n }
    let q := c .queued 0x2000 0
    let bad := c .queued 0x2001 0
    let r := c .running 0x2000 0
    let e := c .running 0x2000 1
    (atHead q && (running q).mayStart 0 q && q.productAlign == none && gives (.matrixCommandRun 0) (running q)
        ((running q).putCmd 0 { q with state := .running }) &&
      bad.productAlign == some 0x2001 && gives (.matrixCommandRun 0) (running bad) ((running bad).failCmd 0 bad
        (.fail 6 Cause.alignment 0 0x2001)) &&
      q.blocks == 1 && ran ((running r).checkBlock 0 r) (fun b t =>
        let heard := t.heardAt 0 r (b.a.flatten ++ b.b.flatten ++ b.scale.flatten) []
        heard.1.isNone && b.a.length == 1 && gives (.matrixCommandRun 0) (running r)
          (heard.2.doBlock 0 r { a := heard.2.aElems r b.a, b := heard.2.bElems r b.b, scale := heard.2.scaleElems r b.scale })) &&
      gives (.matrixCommandRun 0) (running e) ((running e).endCmd 0 { e with bytes := 4 } 0)) = true := by decide +kernel

/-- MZERO, MRD and MWR of the one cell of a tile (11 R259). -/
theorem test_tileRun :
    let c (k : CmdKind) : Command := cmdOf k .queued []
    let s (k : CmdKind) : State := (running (c k)).editCore 0 fun k => { k with acc := [(0, 0x3F800000)] }
    ([CmdKind.mzero, .mrd, .mwr].all (fun k => (s k).headCmd 0 0 == some (c k) && (s k).mayStart 0 (c k)) &&
      leaves (exec (.tileCommandRun 0) (s .mzero)) (fun t => ((t.core 0).cell 0 0) == 0 && (t.engine 0 0).queue == []) &&
      leaves (exec (.tileCommandRun 0) (s .mwr)) (fun t => ((t.core 0).cell 0 0) == 0x40400000) &&
      gives (.tileCommandRun 0) (s .mrd) (((s .mrd).giveV 0 7 (ofElems 32 ((List.range 128).map fun e =>
          match tileCellOf (c .mrd).tile 0 e with
          | some (r, n) => (((s .mrd).core 0).cell r n).toNat
          | none => 0)) 2).endCmd 0 (c .mrd) 0)) = true := by decide +kernel

/-- The row of MST, a copy of one row of 4 bytes, their ends, CPYR's value (11 R260 to R262). -/
theorem test_copyRuns :
    let m (n : Nat) : Command := { cmdOf .mst .running [(2, 0x2000), (3, 4)] with rprog := n, path := some 0 }
    let regs : List (Nat × Word) := [(0, 0x2004), (2, 0x2000), (4, 4), (5, 1), (6, 1)]
    let y (n : Nat) : Command := { cmdOf .cpy .running regs with rprog := n, path := some 0 }
    let x : Command := cmdOf .cpyr .queued []
    (atHead (m 0) && tileRows (m 0).tile == 1 && gives (.mstRun 0) (running (m 1)) ((running (m 1)).endCmd 0 (m 1) 0) &&
      (let s := running (m 0)
       let v := s.mstRow 0 (m 0)
       ran (s.takeRun 0 (m 0) true 0x2000 (4 * v.1.length)) fun l r => gives (.mstRun 0) s
         ((r.writeChunks 0 (m 0) l (v.1.flatMap (Memory.toBytes 4))).putCmd 0 { m 0 with rprog := 1, flags := v.2, bytes := 4 })) &&
      atHead (y 0) && (y 0).copyRows == 1 && gives (.copyCommandRun 0) (running (y 1)) ((running (y 1)).endCmd 0 (y 1) 0) &&
      ran ((running (y 0)).copyRuns 0 (y 0)) (fun lm r =>
        let heard := r.heardAt 0 (y 0) lm.1 lm.2
        heard.1.isNone && gives (.copyCommandRun 0) (running (y 0))
            ((heard.2.writeChunks 0 (y 0) lm.2 (heard.2.chunkBytes lm.1)).putCmd 0 { y 0 with rprog := 1, bytes := 4 }) &&
          leaves (exec (.copyCommandRun 0) (running (y 0))) fun t => Memory.getBytes t.mem 0x2000 5 == [0x55, 0x66, 0x77, 0x88, 0x55]) &&
      atHead x && ran ((running x).takeRun 0 x false x.addr 8) (fun l r =>
        gives (.cpyrRun 0) (running x) ((r.landCpyr x (r.chunkBytes l)).endCmd 0 x 0))) = true := by decide +kernel

/-- A row of 2,048 bytes that is to move to the next row, and the end of the command (04 R112, R113, 11 R263). -/
theorem test_rowRun :
    let c (n : Nat) : Command := { cmdOf .cpyrow .running [(0, 0x2000), (2, 0x2800)] with row := 0x2000, addr := 0x2800, rprog := n, path := some 0, holds := some 0 }
    let s : State := running (c 0)
    (atHead (c 0) && (c 0).holds != none && (c 0).rowBytes == 2048 && !(c 0).isFill && s.firstPoison 0x2000 2048 == none && Memory.wf s.mem &&
      leaves (exec (.cpyrowRun 0) s) (fun t => t.headCmd 0 1 == some { c 1 with bytes := 2048 }) &&
      leaves (exec (.cpyrowRun 0) (running (c 1))) (fun t => (t.engine 0 1).queue == [])) = true := by decide +kernel

/-- A codebook's start, and the 512 entries of its base, which can be read (11 R264). -/
theorem test_codebook :
    let q : Command := cmdOf .cbook .queued [(9, 0x2000)]
    let r : Command := cmdOf .cbook .running [(9, 0x2000)]
    (atHead q && (running q).mayStart 0 q && gives (.cbookRun 0) (running q) ((running q).putCmd 0 r) &&
      atHead r && ran ((running r).takeRun 0 r false 0x2000 2048) (fun _ _ => true)) = true := by decide +kernel

/-- A gang of one core at its barrier, one of two of which one is not there, and a sum that comes in (11 R256, R257). -/
theorem test_gangs :
    let c (g : Word) (state : CmdState) : Command := cmdOf .gang state [(4, 1), (10, g)]
    let s := { (running (c 0 .chained)).editEngine 0 0 (fun g => { g with sum := some [0x3F800000] }) with order := 9 }
    let sums := [((0x3F800000 : BitVec 32), (0 : BitVec 32))].map fun e => (c 0 .chained).chain e.1 e.2
    (gangRun 0 0 == [0] && (running (c 0 .barrier)).headOf 0 0 [.gang] == some (c 0 .barrier) &&
      leaves (exec (.gangBarrier 0) (running (c 0 .barrier))) (fun t => (t.headCmd 0 0).any fun d => d.state == .running && d.gang.isSome) &&
      (gangRun 0 1).length == 2 && ((gangRun 0 1).any fun k => (running (c 1 .barrier)).headOf k 0 [.gang] == none) &&
      gives (.gangBarrier 0) (running (c 1 .barrier)) (running (c 1 .barrier)) &&
      atHead (c 0 .chained) && (s.engine 0 0).sum == some [0x3F800000] && gives (.ksplitSumArrival 0) s
        ((s.editCore 0 fun k => k.setTile (c 0 .chained).tile fun i n => (sums[i * 1 + n]?).map (·.1)).sumOn 0
          { c 0 .chained with flags := 0 })) = true := by decide +kernel

/-! ### Witnesses: coherence, the host, leases -/

/-- A message about line 0x40 from or to a core, a directory entry of its board, copies in the L1s of cores. -/
def cohOf (k : MsgKind) (core : Nat) (e : Option DirEntry) (copies : List (Nat × Moesi)) : State :=
  let s : State := { lab with cur := none, msgs := [⟨0x40, core, k⟩] }
  let s := copies.foldl (fun s c => s.setL1 c.1 0x40 ⟨c.2, none, none, 0, none⟩) s
  match e with
  | some e => { s with dirs := [(0x40 * 8 + boardOf core, e)] }
  | none => s

def msgsAfter (i : Instr) (s : State) (m : List CohMsg) (p : State → Bool) : Bool :=
  leaves (exec i s) fun t => t.msgs == m && t.mem == s.mem && t.strands == s.strands && p t

/-- The home: a first reader, a read and a write of an owned and of a shared line, an upgrade, PutS and the owner's Put (05 R125). -/
theorem test_homeEvents :
    let own : DirEntry := { owner := some (1, .modified), sharers := .pointers [] }
    let shared : DirEntry := { owner := none, sharers := .pointers [0, 1] }
    let ex (core : Nat) (m : Moesi) : DirEntry := { owner := some (core, m), sharers := .pointers [] }
    let free (s : State) : Bool := !s.inProgress 0x40 && !s.lineHeld 0x40 true && !s.needsBackInv 0x40 && (List.range 8).all fun b => b == 0 || (s.dir? 0x40 b).isNone
    let first := cohOf .getS 0 none []
    let read := cohOf .getS 0 (some own) [(1, .modified)]
    let write := cohOf .getM 2 (some shared) [(0, .shared), (1, .shared)]
    let up := cohOf .upgrade 0 (some shared) [(0, .shared), (1, .shared)]
    (free first && free read && free write && free up && (read.dir? 0x40 0 == some own) && (up.dir? 0x40 0 == some shared) &&
      msgsAfter (.homeGets 0x40 0) first [⟨0x40, 0, .data .exclusive⟩] (fun t => t.dir? 0x40 0 == some (ex 0 .exclusive)) &&
      msgsAfter (.homeGets 0x40 0) read [⟨0x40, 1, .fwdGetS 0⟩] (fun _ => true) &&
      msgsAfter (.homeGetm 0x40 2) write [⟨0x40, 0, .inv 2⟩, ⟨0x40, 1, .inv 2⟩, ⟨0x40, 2, .data .modified⟩, ⟨0x40, 2, .ackCount 2⟩]
        (fun t => t.dir? 0x40 0 == some (ex 2 .modified)) &&
      msgsAfter (.homeUpgrade 0x40 0) up [⟨0x40, 1, .inv 0⟩, ⟨0x40, 0, .ackCount 1⟩] (fun t => t.dir? 0x40 0 == some (ex 0 .modified)) &&
      msgsAfter (.homePuts 0x40 1) (cohOf .putS 1 (some shared) [(0, .shared)]) [⟨0x40, 1, .putAck false⟩]
        (fun t => t.dir? 0x40 0 == some { shared with sharers := .pointers [0] }) &&
      msgsAfter (.homePutOwner 0x40 1) (cohOf (.putOwner true) 1 (some own) []) [⟨0x40, 1, .putAck false⟩]
        (fun t => (t.dir? 0x40 0).all (·.owner.isNone)) &&
      (let s := (cohOf .getM 0 none []).setAgent 0x40 { (lab.agent 0x40) with host := .shared }
       !s.inProgress 0x40 && !s.lineHeld 0x40 true && s.needsBackInv 0x40 && gives (.homeGetm 0x40 0) s (s.sendBackInv 0x40))) = true := by decide +kernel

/-- A held line, a frozen one, a transaction in progress, a line that the host has while its first reader, a second one and a forward come;
another board's last and last but one acknowledgement, and a requester that hears of several at once (05 R124 to R128, R142). -/
theorem test_homeWaits :
    let shared : DirEntry := { owner := none, sharers := .pointers [0, 1] }
    let own : DirEntry := { owner := some (1, .modified), sharers := .pointers [] }
    let hosted (s : State) : State := { s with agents := [(0x40, { AgentEntry.idle with host := .shared })] }
    let three : List (MsgKind × Instr) := [(.getS, .homeGets 0x40 0), (.getM, .homeGetm 0x40 0), (.upgrade, .homeUpgrade 0x40 0)]
    let stays (s : State) (i : Instr) : Bool := gives i s s
    let s (k : MsgKind) : State := cohOf k 0 (some shared) [(0, .shared), (1, .shared)]
    let board (left : Nat) : State := { cohOf (.boardAck 5) 1024 none [] with homes := { lab.homes with acks := [(dirKey 0x40 1, (left, 7))] } }
    let wait (j got : Nat) : State := (cohOf (.invAcks j) 1 none []).editCore 1 fun c =>
      { c with mshr := [(0x40, { want := .getM, grant := some .modified, wanted := some 9, got := got })] }
    (three.all (fun e => stays { s e.1 with busy := [0x40] } e.2 &&
        stays { s e.1 with msgs := (s e.1).msgs ++ [⟨0x40, 1, .invAck⟩] } e.2) &&
      [(MsgKind.getM, Instr.homeGetm 0x40 0), (.upgrade, .homeUpgrade 0x40 0)].all (fun e => stays { s e.1 with frozen := [0x40] } e.2) &&
      [hosted (s .getM), hosted (s .upgrade)].all (·.needsBackInv 0x40) &&
      gives (.homeGetm 0x40 0) (hosted (s .getM)) ((hosted (s .getM)).sendBackInv 0x40) &&
      gives (.homeUpgrade 0x40 0) (hosted (s .upgrade)) ((hosted (s .upgrade)).sendBackInv 0x40) &&
      gives (.homeGets 0x40 0) (hosted (cohOf .getS 0 none [])) ((hosted (cohOf .getS 0 none [])).sendBackInv 0x40) &&
      msgsAfter (.homeGets 0x40 2) (hosted (cohOf .getS 2 (some shared) [])) [⟨0x40, 2, .data .shared⟩] (fun t =>
        t.dir? 0x40 0 == some { shared with sharers := .pointers [0, 1, 2] }) &&
      msgsAfter (.homeGets 0x40 0) (hosted (cohOf .getS 0 (some own) [])) [⟨0x40, 1, .fwdGetS 0⟩] (fun _ => true) &&
      msgsAfter (.requesterResponse 0x40 1024) (board 1) [⟨0x40, 5, .invAcks 7⟩] (fun t => t.homes.acks == []) &&
      msgsAfter (.requesterResponse 0x40 1024) (board 2) [] (fun t => t.homes.acks == [(dirKey 0x40 1, (1, 7))]) &&
      msgsAfter (.requesterResponse 0x40 1) (wait 7 2) [] (fun t => (t.core 1).mshr == [] && (t.core 1).acks == 9) &&
      msgsAfter (.requesterResponse 0x40 1) (wait 7 1) [] (fun t => (t.core 1).mshr.map (·.2.got) == [8])) = true := by decide +kernel

/-- An owner on another board: a Fwd goes to it, and a writer takes its entry (05 R125, R128). -/
theorem test_otherBoard :
    let far : DirEntry := { owner := some (1024, .modified), sharers := .pointers [] }
    let s (k : MsgKind) : State := { cohOf k 0 none [] with dirs := [(0x40 * 8 + 1, far)] }
    (boardOf 1024 == 1 && (s .getS).ownerEntry 0x40 == some (1, 1024, .modified) && !(s .getS).lineHeld 0x40 true &&
      msgsAfter (.homeGets 0x40 0) (s .getS) [⟨0x40, 1024, .fwdGetS 0⟩] (fun _ => true) &&
      msgsAfter (.homeGetm 0x40 0) (s .getM) [⟨0x40, 1024, .fwdGetM 0⟩, ⟨0x40, 0, .ackCount 0⟩] (fun t =>
        t.dir? 0x40 0 == some { owner := some (0, .modified), sharers := .pointers [] } && t.dir? 0x40 1 == none)) = true := by decide +kernel

/-- The cores: Inv, Fwd-GetM and Fwd-GetS to an owner in M and in E, PutAck, a datum and the last acknowledgement (05 R125, R126). -/
theorem test_coreEvents :
    let at_ (k : MsgKind) (m : Moesi) : State := cohOf k 1 (some { owner := some (1, m), sharers := .pointers [] }) [(1, m)]
    let wait (k : MsgKind) (m : Mshr) : State := (cohOf k 1 none []).editCore 1 fun c => { c with mshr := [(0x40, m)] }
    let s := at_ (.inv 0) .shared
    let two : Mshr := { want := .getM, grant := some .modified, wanted := some 2, got := 1 }
    (!s.filtered (s.leafIdOf 0) 1 && (s.l1 1 0x40).any (·.swm.isNone) &&
      msgsAfter (.coreInv 0x40 1) s [⟨0x40, 0, .invAck⟩] (fun t => t.l1 1 0x40 == none) &&
      msgsAfter (.coreFwdGetm 0x40 1) (at_ (.fwdGetM 0) .modified) [⟨0x40, 0, .data .modified⟩] (fun t => t.l1 1 0x40 == none) &&
      msgsAfter (.coreFwdGets 0x40 1) (at_ (.fwdGetS 0) .modified) [⟨0x40, 0, .data .shared⟩] (fun t =>
        (t.l1 1 0x40).any (·.state == .owned) && (t.dir? 0x40 0).any (·.owner == some (1, .owned))) &&
      msgsAfter (.coreFwdGets 0x40 1) (at_ (.fwdGetS 0) .exclusive) [⟨0x40, 0, .data .shared⟩] (fun t => (t.l1 1 0x40).any (·.state == .shared)) &&
      msgsAfter (.corePutack 0x40 1) (wait (.putAck false) { two with want := .putS }) [] (fun t => (t.core 1).mshr == []) &&
      msgsAfter (.requesterResponse 0x40 1) (wait (.data .exclusive) { want := .getS, grant := none, wanted := none, got := 0 }) []
        (fun t => (t.core 1).mshr == [] && (t.l1 1 0x40).map (·.state) == some .exclusive) &&
      msgsAfter (.requesterResponse 0x40 1) (wait .invAck two) [] (fun t => (t.core 1).mshr == [] && (t.l1 1 0x40).map (·.state) == some .modified) &&
      msgsAfter (.requesterResponse 0x40 1) (wait .invAck { two with got := 0 }) [] (fun t => (t.core 1).mshr == [(0x40, two)])) = true := by
  decide +kernel

/-- A probe from the other half's leaf is dropped and counted (22 R373). -/
theorem test_probeDrop :
    let s : State := { cohOf (.inv (coreAt 64 0)) 0 none [] with
      leaves := [{ Leaf.module with node := ⟨0, 0, 6, 6⟩ }, { Leaf.module with node := ⟨64, 0, 6, 6⟩ }] }
    let fwd (k : MsgKind) : State := { s with msgs := [⟨0x40, 0, k⟩] }
    (s.filtered (s.leafIdOf (coreAt 64 0)) 0 && leaves (exec (.routerProbeDrop 0x40 0) s) (fun t =>
      t.leaves.map (·.probes) == [1, 0] && t.msgs == [⟨0x40, 0, .boardAck (coreAt 64 0)⟩]) &&
      boardOf 0 != boardOf (coreAt 64 0) &&
      leaves (exec (.routerProbeDrop 0x40 0) (fwd (.fwdGetS (coreAt 64 0)))) (fun t => t.msgs == [⟨0x40, coreAt 64 0, .data .shared⟩]) &&
      leaves (exec (.routerProbeDrop 0x40 0) (fwd (.fwdGetM (coreAt 64 0)))) (fun t => t.msgs == [⟨0x40, coreAt 64 0, .data .modified⟩])) = true := by
  decide +kernel

/-- A decoder at host address 0 over HBM from 0: its first and last addresses, its commit and a commit that overlaps it (22 R370). -/
theorem test_hostEvents :
    let q : State := { lab with cur := none }
    let s : State := { q with hdm := (Vector.replicate 4 none).setIfInBounds 0 (some ⟨0, 0, 0x10000000⟩) }
    let b : State := { s with backInv := [0x40] }
    (q.msgs == [] && leaves (exec (.hostSnoop 0x40) s) (fun t => t.answers == [.snooped 0x40] && t.mem == s.mem) &&
      leaves (exec (.hostSnoopInvalidate 0x40) s) (fun t => t.answers == [.invalidated 0x40]) &&
      s.hdmLine 0x40 && leaves (exec (.hostOwnershipRequest 0x40) s) (fun t => (t.agent 0x40).host == .exclusive) &&
      b.lineHeld 0x40 true && [Instr.hostSnoop 0x40, .hostSnoopInvalidate 0x40, .hostOwnershipRequest 0x40].all (fun i => gives i b b) &&
      leaves (exec (.backInvalidateResponse 0x40) b) (fun t => t.backInv == [] && !t.needsBackInv 0x40) &&
      q.hdmOk 0 0 0 0x10000000 && !s.hdmOk 1 0 0 0x10000000 && gives (.hdmDecoderCommit 0 0 0 0x10000000) q s &&
      gives (.hdmDecoderCommit 1 0 0 0x10000000) s s &&
      (let off : State := { q with boot := { q.boot with state := 5 } }
       [Instr.hdmDecoderCommit 0 0 0 0x10000000, .hostSnoop 0x40, .hostOwnershipRequest 0x40].all fun i => gives i off off) &&
      s.hdmAddr 0x2000 8 == some 0x2000 && (s.hdmAddr 0xFFFFFF8 8).isSome && (s.hdmAddr 0xFFFFFF9 8).isNone && !s.lineHeld 0x40 false &&
      leaves (exec (.hostMemRead 0x2000 2) s) (fun t => t.answers == [.read 0x2000 [0x11, 0x22]]) && Memory.wf s.mem &&
      leaves (exec (.hostMemWrite 0x2000 [none, some 7, some 0]) s) (fun t => Memory.getBytes t.mem 0x2000 4 == [0x11, 7, 0, 0x44])) = true := by
  decide +kernel

/-- A value on the western link of the neighbour enters an empty x7 and waits at a full one (10 R238). -/
theorem test_putnDelivery :
    let dir := ((List.range 4).find? fun d => (lab.neighbour 0 d).isSome).getD 0
    let c := (lab.neighbour 0 dir).getD 0
    let v : LinkVal := { sender := 0, slot := 0, isV := false, reg := 7, bits := 5, tag := 0, dest := 8, len := 4 }
    let s (full : BitVec 64) : State :=
      { lab.editCore 0 (fun k => { k with links := k.links.setIfInBounds dir (some v) }) with
        cur := none, strands := [(0, { st0 with state := .parked, await := .putn }), (1, { st0 with core := c, xFull := full })] }
    (((s 0).core 0).links[dir]?.getD none == some v && ((s 0).bySid c 0).map (·.1) == some 1 && gives (.putnDelivery 0 dir) (s 128) (s 128) &&
      leaves (exec (.putnDelivery 0 dir) (s 0)) (fun t => (t.strand? 1).any (·.x[7] == 5) && (t.strand? 0).any fun q =>
        q.state == .ready && q.pc == 0x1004 && q.x[8] == 0)) = true := by decide +kernel

/-- The last lease clock before the pause and the first in it; the pause of a module with an operation under way and without (05 R132). -/
theorem test_leaseEvents :
    let at_ (n : Nat) : State := { lab with cur := none, gclk := BitVec.ofNat 64 (64 * n) }
    let p : Packet := { dst := 7, src := 0, job := 0, seq := 0, addr := 0, mode := 0, board := 0, strand := 0, epoch := 0, aux := 0, words := [] }
    let busy : State := { at_ 5 with pausing := [(noJob, [])], sent := [⟨1, { p with job := noJob }, 0, 7, 4, false, false⟩] }
    let to_ (v : Word) : Packet := { p with dst := 0, src := 7, words := [v] }
    let job : State := { at_ 5 with jobs := (Vector.replicate 16 0).setIfInBounds 0 0x8000000000000055 }
    (gives .wrapPause (at_ 0xFFF00000) { at_ 0xFFF00000 with pausing := [(noJob, [])] } && gives .wrapPause (at_ 0xFFEFFFFF) (at_ 0xFFEFFFFF) &&
      gives .wrapPause busy busy && leaves (exec .wrapPause { busy with sent := [] }) (fun t => t.pausing == [] && t.gclk == t.lbase) &&
      gives (.fabricPauseControl (to_ 1)) (at_ 5) (at_ 5) &&
      leaves (exec (.fabricLeaseSync (to_ 9)) (at_ 5)) (fun t => t.gclk - t.lbase == 9) &&
      leaves (exec (.leaseExpiry 0x40) { at_ 5 with leased := [(leaseKey 0 7 0x2000, (5, [])), (leaseKey 0 7 0x2000 + 1, (6, []))] })
        (fun t => t.leased.map (·.2.1) == [6]) &&
      (job.validJobs.find? (fun e => field e 15 0 == 0x55)).any job.conducts &&
      leaves (exec (.leaseSyncSend 0x55) job) (fun t => t.outbox.length == 7)) = true := by decide +kernel

/-- The pause of job 0x55 in its module 0 and in module 7: its beginning, what each says, its end; the packets of both (24 R420). -/
theorem test_jobPauses :
    let at_ (n : Nat) (pausing : SMap (List Nat)) : State :=
      { lab with
        cur := none, gclk := BitVec.ofNat 64 (64 * n), pausing := pausing, boot := { lab.boot with state := 4 }
        jobs := (Vector.replicate 16 0).setIfInBounds 0 0x8000000000000055, ports := Vector.replicate 8 { Port.down with width := 2 } }
    let seven (n : Nat) (pausing : SMap (List Nat)) : State := { at_ n pausing with syspos := 0x38 }
    let zero_ : Packet :=
      { dst := 0, src := 7, job := 0x55, seq := 0, addr := 0, mode := 0, board := 0, strand := 0, epoch := 0, aux := 0, words := [2] }
    let sent : Sent := ⟨1, { zero_ with words := [] }, 0, 7, 4, false, false⟩
    let tells (s : State) (i : Instr) (l : SMap (List Nat)) (o : List (Nat × Word)) : Bool :=
      leaves (exec i s) fun t => t.pausing == l && t.outbox.map (fun e => (e.2.dst, e.2.words.headD 9)) == o
    let all (v : Word) : List (Nat × Word) := [1, 2, 3, 4, 5, 6, 7].map fun m => (m, v)
    ((at_ 5 []).conducts 0x8000000000000055 && !(seven 5 []).conducts 0x8000000000000055 && (at_ 5 []).reachable 0x55 7 &&
      (at_ 5 []).takenAt zero_ == some (at_ 5 []) && (seven 5 []).selfModule == 7 &&
      tells (at_ 0xFFF00000 []) .wrapPause [(0x55, [])] (all 1) && tells (seven 0xFFF00000 []) .wrapPause [(0x55, [])] [(0, 1)] &&
      tells (seven 5 [(0x55, [])]) .wrapPause [(0x55, [7])] [(0, 2)] && tells (seven 5 [(0x55, [7])]) .wrapPause [(0x55, [7])] [] &&
      gives .wrapPause (at_ 5 [(0x55, [1, 2, 3, 4, 5, 6])]) (at_ 5 [(0x55, [1, 2, 3, 4, 5, 6])]) &&
      tells (at_ 5 [(0x55, [1, 2, 3, 4, 5, 6, 7])]) .wrapPause [] (all 0) &&
      gives .wrapPause { at_ 5 [(0x55, [1, 2, 3, 4, 5, 6, 7])] with sent := [sent] } { at_ 5 [(0x55, [1, 2, 3, 4, 5, 6, 7])] with sent := [sent] } &&
      tells (at_ 5 [(0x55, [])]) (.fabricPauseControl zero_) [(0x55, [7])] [] &&
      tells (at_ 5 []) (.fabricPauseControl { zero_ with words := [1] }) [(0x55, [])] (all 1) &&
      gives (.fabricPauseControl zero_) (at_ 5 []) (at_ 5 []) && gives (.fabricPauseControl { zero_ with job := 9 }) (at_ 5 []) (at_ 5 []) &&
      tells (seven 5 [(0x55, [7])]) (.fabricPauseControl { zero_ with dst := 7, src := 0, words := [0] }) [] [] &&
      tells { seven 5 [(0x55, [7])] with sent := [sent] } (.fabricPauseControl { zero_ with dst := 7, src := 0, words := [0] }) [(0x55, [7])]
        [(7, 0)] &&
      leaves (exec .wrapPause { at_ 5 [(0x55, [1, 2, 3, 4, 5, 6, 7])] with
        leased := [(1, (9, []))], strands := [(0, { st0 with visMax := 7 })], jobs := (Vector.replicate 16 0).setIfInBounds 0 0x8000000000000055 })
        (fun t => t.leased == [] && t.lbase == t.gclk && (t.strand? 0).any (·.visMax == 0))) = true := by decide +kernel

/-! ### Witnesses: the fabric and its ports -/

/-- A packet of job 0x55 for this module, module 0, from module 7; the job's entry; a task in the running state. -/
def packet (aux : Word) (words : List Word) : Packet :=
  { dst := 0, src := 7, job := 0x55, seq := 0, addr := 0x2000, mode := 0, board := 0, strand := 5, epoch := 1, aux := aux, words := words }

def node : State :=
  { lab with cur := none, jobs := (Vector.replicate 16 0).setIfInBounds 0 0x8000000000000055, boot := { lab.boot with state := 4 } }

def begun (s : State) (ty : Nat) (p : Packet) : State :=
  { s with
    outbox := s.outbox.erase (ty, p), quiet := s.quiet.filter fun r => !r.is p
    streams := s.streams ++
      [{ src := p.src, strand := p.strand, epoch := p.epoch, expected := p.seq, held := [(p.seq, ty, p)], queued := none }] }

/-- The four operations and their answers; a job that the module does not know; another module's packet; a flit that a port does not
take, a held home, a failed check (24 R408, R411 to R414). -/
theorem test_fabricOperations :
    let ld := packet 0 []
    let st := packet 0 [9]
    let at_ := packet 0x9800 [5]
    let ok (ty : Nat) (p : Packet) : Bool :=
      node.takenAt p == some node && node.streamOf p == none && (node.newStream p).expected == p.seq && node.jobCtx p.job == some 0 &&
      node.boot.state != 5 && p.dst == node.selfModule &&
      match (begun node ty p).targetAccess (askerOf p) 0 (remoteCheck ty 0 8) 8 (if ty = 4 then p.words.length else 1) p.addr with
      | (.ok xs, r) => xs.head?.any fun x => x.pa == 0x2000 && !r.tierDown x.pa && !r.poisoned x.pa 8
      | _ => false
    let answer (i : Instr) (ty : Nat) (aux : Word) (ws : List Word) (p : State → Bool) : Bool :=
      leaves (exec i node) fun t => t.outbox.map (fun e => (e.1, e.2.dst, e.2.src, e.2.words)) == [(ty, 7, 0, ws)] &&
        (ty == 0x11 || t.outbox.all fun e => e.2.aux == aux) && p t
    (ok 1 ld && ok 2 st && ok 3 at_ && ok 4 st && node.msgs == [] && node.waiters == [] &&
      answer (.fabricLdx { ld with words := [3] }) 0x10 0 [0x8877665544332211] (fun t => t.mem == node.mem) &&
      leaves (exec (.fabricLdx ld) node) (fun t => t.mem == node.mem && t.outbox.map (fun e => (e.1, e.2.words.head?)) ==
        [(0x10, some 0x8877665544332211)]) &&
      answer (.fabricStx st) 0x11 0 [] (fun t => t.word 0x2000 == 9) &&
      answer (.fabricRemoteAtomic at_) 0x10 0 [0x8877665544332211] (fun t => t.word 0x2000 == 0x8877665544332216) &&
      answer (.fabricMsgMailbox st) 0x11 0 [] (fun t => t.word 0x2000 == 9) &&
      node.jobCtx 0x56 == none && answer (.fabricLdx { ld with job := 0x56 }) 0x12 32 [] (fun t => t.jobFilter == 1 && t.mem == node.mem) &&
      leaves (exec (.fabricLdx { ld with dst := 3 }) node) (fun t => t.outbox == [(1, { ld with dst := 3 })]) &&
      (let cut := { ld with link := some (7, 1) }
       node.takenAt cut == none && gives (.fabricLdx cut) node node) &&
      (let held : State := { node with busy := [0x40] }
       (match (begun held 2 st).targetAccess (askerOf st) 0 (remoteCheck 2 0 8) 8 1 st.addr with
        | (.error (.wait w), r) => gives (.fabricStx st) held ((r.askUnit w).standStream st w) && w == .busy 0x40
        | _ => false)) &&
      (let far := { ld with addr := 0x200000000000000 }
       (match (begun node 1 far).targetAccess (askerOf far) 0 (remoteCheck 1 0 8) 8 1 far.addr with
        | (.error (.trap c _ _), _) => answer (.fabricLdx far) 0x12 (BitVec.ofNat 64 c) [] fun _ => true
        | _ => false)) &&
      ({ node with quiet := [⟨7, 5, 1, 65535, [], none⟩] }.newStream { ld with seq := 65535 }).expected == 65535) = true := by decide +kernel

/-- The operations of an address whose tier link is down, and LDX of a word with an uncorrectable error (24 R422, R416); a tag message for an
armed entry (13 R297); the responses of a remote atomic, of an acquiring LDX, of one that its strand has dropped and of a failure (24 R414,
R416). -/
theorem test_fabricFailures :
    let far : Packet := { packet 0 [9] with addr := 0x40000000 }
    let tier : State := { node.editCore 0 (fun k => { k with tlb := [page 0 0, page 1 0x4000] }) with tierCap := 64, boardTlb := node.boardTlb }
    let bad : State := { node with poison := [0x400] }
    let fails (s : State) (i : Instr) (aux : Word) : Bool := leaves (exec i s) fun t => t.mem == s.mem &&
      t.outbox.map (fun e => (e.1, e.2.aux)) == [(0x12, aux)]
    let m : Match := { ctx := 0, sid := 0, lrec := 0, core := 0, tag := 0x2000, len := 64, got := 0, buf := 0x2000, cont := 0x2040 }
    let armed : State := { node with matches_ := [(0, m)] }
    let sent (ty mode : Nat) (dropped : Bool) : State :=
      { node with
        strands := [(0, { st0 with state := .parked, await := .packet })]
        sent := [{ ty := ty, packet := { packet 0 [] with dst := 7, src := 0, seq := 3, strand := 0, epoch := 0, mode := mode }, uid := 0, dest := 7
                   len := 4, access := false, dropped := dropped }] }
    let back (aux : Word) (ws : List Word) : Packet := { packet aux ws with seq := 3, strand := 0, epoch := 0 }
    let after (i : Instr) (s : State) (p : Strand → Bool) : Bool := leaves (exec i s) fun t => t.sent == [] && (t.strand? 0).any p
    ((tier.tierDown 0x100000000000) && fails tier (.fabricStx far) 37 && fails tier (.fabricLdx { far with words := [] }) 11 &&
      fails tier (.fabricRemoteAtomic { far with aux := 0x9800 }) 11 && fails bad (.fabricLdx (packet 0 [])) 11 &&
      (armed.matchOf 0 0 0x2000).map (·.1) == some 0 && !armed.heldBefore (packet 0 [1]) &&
      leaves (exec (.fabricMsgTag (packet 0 [1])) armed) (fun t => t.word 0x2000 == 1 && t.matches_.map (·.2.got) == [8] &&
        t.outbox.map (·.1) == [0x11]) &&
      after (.fabricDataResponse (back 77 [6])) (sent 3 0 false) (fun q => q.x[7] == 6 && q.phase == 1 && q.visMax == 77 && q.pc == 0x1004) &&
      after (.fabricDataResponse (back 77 [6])) (sent 1 1 false) (fun q => q.x[7] == 6 && q.phase == 0 && q.visMax == 77) &&
      after (.fabricDataResponse (back 0 [6])) (sent 1 0 true) (fun q => q.x[7] == 0 && q.state == .parked) &&
      after (.fabricFailure (back 33 [])) (sent 1 0 false) (fun q => q.lcause.toNat == Cause.remoteLoadFail && q.pc == 0x1000)) = true := by
  decide +kernel

/-- `n` records of other streams: at 4,096 a packet of a new stream is refused, another module's and this module's own (24 R412). -/
def crowded (n : Nat) : State := { node with streams := List.replicate n ⟨9, 9, 9, 0, [], none⟩ }

theorem test_crowded (n : Nat) : (crowded n).streams.length = n ∧ (crowded n).streamOf (packet 0 []) = none ∧
    (crowded n).streamOf { packet 0 [] with src := 0 } = none ∧ (crowded n).refused = [] := by
  refine ⟨by simp [crowded], ?_, ?_, rfl⟩ <;>
    · refine List.find?_eq_none.mpr fun r h => ?_
      rw [List.eq_of_mem_replicate h]
      decide

/-- A tag message without an entry, a datum, an acknowledgement and a failure for strand 0, a refused packet, a stream's end and the
oldest held packet (24 R412, R414 to R416). -/
theorem test_fabricResponses :
    let tag := packet 0 [1]
    let sent (ty : Nat) : Sent :=
      { ty := ty, packet := { packet 0 [] with dst := 7, src := 0, seq := 3, strand := 0, epoch := 0 }, uid := 0, dest := 7, len := 4
        access := false, dropped := false }
    let s (ty : Nat) (state : SState) : State :=
      { node with strands := [(0, { st0 with state := state, await := .packet })], sent := [sent ty] }
    let back (aux : Word) (ws : List Word) : Packet := { packet aux ws with seq := 3, strand := 0, epoch := 0 }
    let rec_ : StreamRec := { src := 7, strand := 5, epoch := 1, expected := 3, held := [], queued := none }
    (node.matchOf 0 0 0x2000 == none && leaves (exec (.fabricMsgTag tag) node) (fun t => t.unexpected == [(0, [tag])]) &&
      (s 1 .parked).sent.find? (·.answers (back 0 [6])) == some (sent 1) &&
      leaves (exec (.fabricDataResponse (back 0 [6])) (s 1 .parked)) (fun t => t.sent == [] && (t.strand? 0).any fun q =>
        q.x[7] == 6 && q.state == .ready && q.pc == 0x1004) &&
      leaves (exec (.fabricAck (back 77 [])) (s 2 .run)) (fun t => t.sent == [] && (t.strand? 0).any (·.visMax == 77)) &&
      leaves (exec (.fabricFailure (back 33 [])) (s 2 .run)) (fun t => t.sent == []) &&
      leaves (exec (.streamResend (sent 2).packet) (s 2 .run)) (fun t => t.outbox == [(2, (sent 2).packet)] && t.sent == [sent 2]) &&
      leaves (exec (.streamResend { (sent 2).packet with seq := 4 }) (s 2 .run)) (fun t => t.outbox == []) &&
      leaves (exec (.streamRecordFree 7 5 1) { node with streams := [rec_, { rec_ with epoch := 2 }] }) (fun t => t.streams == [{ rec_ with epoch := 2 }]) &&
      leaves (exec (.unexpectedPacketTimeout 0) { node with unexpected := [(0, [tag])] }) (fun t => t.unexpected == [] &&
        t.outbox.map (fun e => (e.1, e.2.aux)) == [(0x12, 35)])) = true := by decide +kernel

/-- Port 7: an error, a refused flit, a lane that fails in a port that is down and in one that runs, a silence, its width requests, its
end; a tier link, a word, a JOB entry with every bit set (24 R406, R408 to R410, R422, R403, 10 R218). -/
theorem test_portEvents :
    let q : Port := { Port.down with width := 2, replay := [(1, packet 0 []), (2, packet 0 [9])], flits := 10 }
    let with_ (p : Port) : State := { node with ports := node.ports.setIfInBounds 7 p }
    let after (i : Instr) (p : Port) (c : State → Port → Bool) : Bool :=
      leaves (exec i (with_ p)) fun t => ((t.ports[7]?).map (c t)).getD false
    (((with_ q).ports[7]?) == some q && after (.flitCrcFail 7) q (fun _ p => p.discarding) &&
      after (.replayRequest 7 10) q (fun _ p => p == q) && after (.replayRequest 7 11) q (fun _ p => p.replay.length ≤ 2) &&
      after (.laneFailure 7 15) Port.down (fun _ p => p.lfail == 0x8000 && !p.silent) &&
      after (.laneFailure 7 15) q (fun _ p => p.lfail == 0x8000 && p.silent) &&
      after (.linkSilenceEnd 7) { q with silent := true, nextWidth := 1, wreq := 3, lfail := 1 } (fun _ p => p.width == 1 && p.lfail == 0) &&
      after (.portWreqX4 7) q (fun _ p => p.wreq == 1 && p.nextWidth == 1) && after (.portWreqX8 7) q (fun _ p => p.wreq == 2) &&
      after (.portWreqRetrain 7) q (fun _ p => p.wreq == 3) && after (.portEnWrite 7 true) { q with enabled := false } (fun _ p => p.enabled) &&
      after (.portEnWrite 7 false) q (fun t _ => t.portDown 7 && t.outbox == q.replay) &&
      after (.neighbourStalemate 7) q (fun t _ => t.portDown 7 && t.outbox == q.replay) &&
      leaves (exec (.tierLinkDown 3) { node with tiers := Vector.replicate 4 ⟨true, 1, 8⟩ }) (fun t => (t.tiers[3]).up == false) &&
      zoneOf 0 0x2000 != .nowhere && leaves (exec (.uncorrectableError 0x2000) node) (fun t => t.poisoned 0x2000 1) &&
      node.jobOk 0 0x8000000000000055 &&
      !node.jobOk 1 0x8000000000000055 && gives (.jobEntryWrite 1 0x8000000000000055) node node &&
      leaves (exec (.jobEntryWrite 0 0xFF0000003FFF0055) node) (fun t => (t.jobs[0]) == 0x8000000020000055)) = true := by decide +kernel

/-- Which packets of 1 and of 2 flits a replay request acknowledges; a request for a width before the port is enabled; a disabled port's
WIDTH; a silence that is forced and one whose request comes behind it; the last working lanes; a tier link's WIDTH (24 R408 to R410,
R421). -/
theorem test_portReplay :
    let q : Port := { Port.down with width := 2, enabled := true, replay := [(1, packet 0 []), (2, packet 0 [9])], flits := 65535 }
    let with_ (p : Port) : State := { node with ports := node.ports.setIfInBounds 7 p }
    let after (i : Instr) (p : Port) (c : State → Port → Bool) : Bool :=
      leaves (exec i (with_ p)) fun t => ((t.ports[7]?).map (c t)).getD false
    let off : Port := { q with enabled := false, wreq := 0 }
    (flitsOf (packet 0 []) == 1 && flitsOf (packet 0 [9]) == 2 &&
      after (.replayRequest 7 65535) q (fun _ p => p == q) && after (.replayRequest 7 0) q (fun _ p => p.replay.length == 1 && p.flits == 0) &&
      after (.replayRequest 7 1) q (fun _ p => p.replay.length == 1 && p.flits == 0) &&
      after (.replayRequest 7 2) q (fun _ p => p.replay.length == 0 && p.flits == 2) && after (.replayRequest 7 3) q (fun _ p => p == q) &&
      after (.portWreqX4 7) off (fun _ p => p.wreq == 1 && !p.silent) &&
      after (.portEnWrite 7 true) { off with wreq := 1 } (fun _ p => p.enabled && p.silent && p.nextWidth == 1) &&
      after (.portEnWrite 7 false) { q with wreq := 2 } (fun _ p => p.wreq == 2) &&
      after (.flitCrcFail 7) { q with discarding := true } (fun t _ => t.answers == []) &&
      (with_ { off with width := 2 }).trolanRead 0xBC % 8 == 0 &&
      after (.linkSilenceEnd 7) { q with silent := true, forced := true, nextWidth := 1 } (fun t p => p.width == 1 && !p.silent &&
        t.answers == [.resent 7 2]) &&
      after (.linkSilenceEnd 7) { q with silent := true, forced := true, nextWidth := 1, wreq := 2 } (fun _ p => p.width == 1 && p.silent && p.nextWidth == 2) &&
      after (.laneFailure 7 0) { q with lfail := 0xFFFE } (fun t _ => t.portDown 7 && t.outbox == q.replay) &&
      leaves (exec (.tierLinkDown 3) { node with tiers := Vector.replicate 4 ⟨true, 1, 8⟩ }) (fun t => (t.tiers[3]).width == 0)) = true := by
  decide +kernel

/-! ### Witnesses: castling and the Second -/

/-- A leaf of 16 cores, context 0 running there and context 1, which is stopped, with its save header at 0x40000. -/
def small : Rect := ⟨0, 0, 2, 2⟩

def castCmd (op : Nat) : CastCmd :=
  { op := op, thr := 0, hide := false, node := small.toNat, out := 0, into := if op = 1 then 0 else 1, osave := 0x50000, isave := 0x40000
    omap := 0x6000, omapN := 0, imap := 0x6000, imapN := 0, lead := 0, cword := 0x3000, obits := 64, ibits := 64, ctx := 0, unused := false }

def castle : State :=
  let c (creator : Option Nat) : Ctx := { Ctx.fresh creator 0 0x10000000000000 small.leafId 0 with castMap := 0x6000, castBits := 64 }
  { lab with
    cur := none, gclk := 50, leaves := [⟨small, 0, true, false, 0⟩], ctxs := [(0, c none), (1, { c (some 0) with stopped := true })]
    mem := (((lab.store 0x40000 8 0x53415645).store 0x40010 8 small.toNat).store 0x6000 8 0x4000000000000001).mem }

/-- The four commands start; one from a context that may not, and one whose context is not stopped, do not (23 R377, R378). -/
theorem test_castCommands :
    let s (c : CastCmd) : State := { castle with castQ := [c] }
    let s0 : State := { castle with castQ := [], castMoved := 0 }
    let due : CastPhase := .toStop (50 + 38400)
    let out (c : CastCmd) (r : State) : State := r.keepMap c.out c.omap c.omapN c.obits
    let into (c : CastCmd) (r : State) : State := r.keepMap c.into c.imap c.imapN c.ibits
    let other : CastCmd := { castCmd 1 with ctx := 1 }
    let awake : CastCmd := { castCmd 4 with into := 0 }
    ([1, 2, 3, 4].all (fun op => s0.castStatus (castCmd op) == 0) &&
      gives .stop (s (castCmd 1)) { out (castCmd 1) s0 with castRun := some (castCmd 1, due) } &&
      gives .switch (s (castCmd 3)) { into (castCmd 3) (out (castCmd 3) s0) with castRun := some (castCmd 3, due) } &&
      leaves (exec .prefetch (s (castCmd 4))) (fun t => t.castRun == none && t.castQ == [] && t.isStopped 1 && t.isFull 0x3000) &&
      s0.castStatus other == 0x10 && s0.castAuth other == false && s0.castEnd other 0x10 != none && gives .stop (s other) ((s0.castEnd other 0x10).getD (s other)) &&
      s0.castStatus awake == 0x12 && gives .prefetch (s awake) ((s0.castEnd awake 0x12).getD (s awake))) = true := by decide +kernel

/-- T, the sweep of the leaf's routers, the save behind the last one; a command that waits for an answer (23 R379, R382). -/
theorem test_castStop :
    let s (t : BitVec 64) : State := { castle with castRun := some (castCmd 1, .toStop t) }
    let w (i : Nat) : State := { castle with castRun := some (castCmd 1, .sweeping 40 7 i) }
    let cores := small.cores
    let busy : State := { w 16 with sent := [⟨2, packet 0 [], 0, 0, 4, false, false⟩] }
    (gives .clockStopAtT (s 51) (s 51) && leaves (exec .clockStopAtT (s 50)) (fun r => r.castRun == some (castCmd 1, .sweeping 50 0 0) &&
        r.isStopped 0 && r.mem == castle.mem && r.strands.all (·.2.state != .run)) &&
      (castle.leafWithin 0 (castCmd 1).nodeRect).isSome && cores.length == 16 && cores[0]? == some 0 &&
      gives (.sweepToken 0) (w 0) { (w 0).sweepRouter 0 0 with castRun := some (castCmd 1, .sweeping 40 7 1) } &&
      (busy.withdrawHere 0).acknowledged 0 == false && gives (.sweepToken (cores.getD 15 0)) busy (busy.withdrawHere 0) &&
      (let r := (w 16).withdrawHere 0
       r.acknowledged 0 && r.areaFree (castCmd 1) && r.moving.isNone)) = true := by decide +kernel

/-- A unit that a strand waits for, on its way to HBM; nothing to move; an end of a move; the walks of a leaf (23 R392, 22 R362). -/
theorem test_unitMoves :
    let st : Strand := { st0 with state := .parked, await := .tier 0 0 }
    let c : Ctx := { Ctx.fresh none 0 0 small.leafId 0 with castMap := 0x6000, castCount := 1, castBits := 64 }
    let s : State := { castle with strands := [(0, st)], ctxs := [(0, c)] }
    let m : Move := ⟨0, 0, true, false⟩
    let gone : State := { castle with moving := some ⟨9, 0, true, false⟩ }
    let l (ready walking : Bool) : State := { castle with leaves := [⟨small, 0, ready, walking, 0⟩] }
    (castle.nextMove == none && gives .unitMove castle castle && s.nextMove == some m && s.moving == none && (s.ctx? 0).isSome &&
      leaves (exec .unitMove s) (fun t => t.moving == some m) &&
      gives .unitMove gone (gone.finishMove ⟨9, 0, true, false⟩).forgetRequests.castCheck &&
      (let used : State := { s with busy := [lineOf ((s.unitAt 0x6000 0).frame + 65535)] }
       (used.startMove m).moving.isNone && (s.startMove m).moving == some m) &&
      gives (.scrubWalkEnd small.leafId) (l false false) (l false true) && gives (.scrubWalkEnd small.leafId) (l false true) (l true true) &&
      gives (.scrubWalkEnd 77) (l false true) (l false true)) = true := by decide +kernel

/-- Slot 0 of the management area with a command of strand 0. -/
def managed (ws : List (Nat × Nat)) : State :=
  let auth : Vector Word 64 := (Vector.replicate 64 0).setIfInBounds 0 rootRight
  ws.foldl (fun s e => s.store (slotAddr 0 + e.1) 8 e.2)
    { lab with cur := none, requesters := [(0, 0)], strands := [(0, { st0 with auth := auth })],
               ctxs := [(0, Ctx.fresh none 0 0x10000000000000 Rect.module.leafId 0), (1, Ctx.fresh (some 0) 0 0 Rect.module.leafId 0)] }

/-- DESTROY, QUOTA and INVAL of a context, and each answer that the Second gives instead (22 R355). -/
theorem test_management :
    let answers (s r : State) (v : Word) (i : Instr) : Bool := gives i s ((r.takeCommand 0).slotStatus 0 v)
    let same (ws : List (Nat × Nat)) (v : Word) (i : Instr) : Bool := answers (managed ws) (managed ws) v i
    let d := managed [(0, 2), (16, 1)]
    let q := managed [(0, 3), (16, 1), (0x40, 0x0807060504030201), (0x50, 0x0000002A00000007)]
    let held : State := { managed [(0, 4)] with busy := [lineOf (slotAddr 0)] }
    ([Instr.create 0, .destroy 0, .quota 0, .inval 0].all (fun i => gives i held held) &&
      same [(0, 0)] 0x8000000000000002 (.create 0) && same [(0, 5)] 0x8000000000000002 (.inval 0) &&
      (managed [(0, 2), (0x70, 1)]).slotBroken 0 && same [(0, 2), (0x70, 1)] 0x8000000000000002 (.destroy 0) &&
      d.slotBroken 0 == false && d.reaches 0 1 && d.ctxEmpty 1 && same [(0, 2), (16, 0x1001)] 0x8000000000000002 (.destroy 0) &&
      same [(0, 4), (16, 9)] 0x8000000000000001 (.inval 0) && d.ctxEmpty 0 == false && same [(0, 2)] 0x8000000000000003 (.destroy 0) &&
      answers d (({ d with ctxs := Sparse.erase d.ctxs 1 } : State).tlbInvAll 1) 0 (.destroy 0) &&
      answers (managed [(0, 4), (16, 1)]) ((managed [(0, 4), (16, 1)]).tlbInvAll 1) 0 (.inval 0) && poolsOk (q.slotWord 0 0x50) &&
      leaves (exec (.quota 0) q) (fun t => (t.ctx? 1).any fun c => c.qlim[0] == 1 && c.qlim[7] == 8 && c.qlim[8] == 0 &&
        c.watchBlocks == 42 && c.matchLimit == 7)) = true := by decide +kernel

/-- CREATE: a broken field, a right that does not reach, a template that is not aligned, and a context of its own (22 R355 to R357). -/
theorem test_create :
    let w (slpb right : Nat) : List (Nat × Nat) := [(0, 1), (8, Rect.module.toNat), (0x20, 0x1040), (0x38, right), (0x60, slpb)]
    let good := managed (w 0 rootRight.toNat)
    let fails (s : State) (v : Word) : Bool := gives (.create 0) s ((s.takeCommand 0).slotStatus 0 v)
    let broken := managed ((0x68, 1) :: w 0 rootRight.toNat)
    let weak : State := { good with strands := [(0, st0)] }
    (good.slotBroken 0 == false && good.createOk 0 && broken.createOk 0 == false && fails broken 0x8000000000000002 &&
      weak.createAllowed 0 st0 == false && fails weak 0x8000000000000001 && good.freeCtx == some 2 &&
      given (good.template 0 2 8).1 == some none && fails (managed (w 8 rootRight.toNat)) 0x8000000000000002 && given (good.template 0 2 0).1 == some (some []) &&
      leaves (exec (.create 0) good) (fun t => t.word (slotAddr 0 + 0x58) == 2 && t.isFull (slotAddr 0) == false &&
        ((t.ctx? 2).any fun c => c.creator == some 0 && c.bound == [Rect.module.leafId]) &&
        (t.strand? 1).any fun q => q.pc == 0x1040 && q.ctx == 2 && q.state == .ready)) = true := by decide +kernel

/-! ### Witnesses: bring-up, the fleet, the step -/

/-- A file of five sections: one page of code with one NOP at 0x1000, its map, one role, its placement on core 0, the boot tree of that
core; the CRC is worked out from 21 R338 apart. -/
def imageBytes : Bytes :=
  [(0, 8, 0x0100474D494E5953), (8, 4, 1), (12, 4, 5), (16, 8, 64), (0x28, 4, 0x6f0612f9),
   (64, 8, 0xC0002000001), (72, 8, 0x1000), (80, 8, 304), (88, 8, 4), (96, 8, 4096),
   (112, 8, 0xC0000000002), (128, 8, 308), (136, 8, 128), (144, 8, 128),
   (160, 8, 0xC0000FF0008), (176, 8, 436), (184, 8, 32), (192, 8, 32),
   (208, 8, 0xC0000FF0009), (224, 8, 468), (232, 8, 8), (240, 8, 8),
   (256, 8, 0xC0000FF000A), (272, 8, 476), (280, 8, 4), (288, 8, 4),
   (304, 4, 0x00400000), (308, 1, 1), (444, 8, 0x1000), (476, 4, 0x8000)].foldl (fun b (e : Nat × Nat × Nat) => Bytes.patch b e.1 e.2.1 e.2.2)
    (List.replicate 480 0)

def bootLoad : Load :=
  { len := 480, pieces := [⟨304, 0x1000, Memory.toBytes 4 0x00400000, 4096, false⟩, ⟨308, 0x80, 1 :: List.replicate 127 0, 128, false⟩], code := [1], maps := [0]
    tree := [0x8000], got := [], bmapv := 0, thvv := 0, swBase := 0, swLen := 0, entry := 0x1000, kaddr := 0 }

theorem foldl_cut {α β : Type} (f : β → α → β) (n : Nat) (l : List α) (a c : β) (h : (l.take n).foldl f a = c) :
    l.foldl f a = (l.drop n).foldl f c := by
  rw [← h, ← List.foldl_append, List.take_append_drop]

theorem crc_image : crc32c (imageBytes.patch 0x28 4 0) = 0x6f0612f9 := by
  unfold crc32c
  rw [foldl_cut crcByte 60 _ _ 0xdb1c2956 (by decide +kernel)]
  rw [foldl_cut crcByte 60 _ _ 0x88f00ccb (by decide +kernel)]
  rw [foldl_cut crcByte 60 _ _ 0xe5f42e68 (by decide +kernel)]
  rw [foldl_cut crcByte 60 _ _ 0x9a52eeb8 (by decide +kernel)]
  rw [foldl_cut crcByte 60 _ _ 0x9a8062b7 (by decide +kernel)]
  rw [foldl_cut crcByte 60 _ _ 0x1b8a6a0d (by decide +kernel)]
  rw [foldl_cut crcByte 60 _ _ 0xdcb6784d (by decide +kernel)]
  rw [foldl_cut crcByte 60 _ _ 0x90f9ed06 (by decide +kernel)]
  decide +kernel

theorem format_image : formatOk imageBytes = true := by
  unfold formatOk
  rw [crc_image]
  decide +kernel

theorem regions_image : splitRegions [1] [0] = [0, 524280, 524281, 524282, 524283] := by
  unfold splitRegions
  rw [foldl_cut insertNat 256 _ _ [0, 524280] (by decide +kernel)]
  rw [foldl_cut insertNat 256 _ _ [0, 524280] (by decide +kernel)]
  rw [foldl_cut insertNat 256 _ _ [0, 524280, 524281] (by decide +kernel)]
  rw [foldl_cut insertNat 256 _ _ [0, 524280, 524281] (by decide +kernel)]
  rw [foldl_cut insertNat 256 _ _ [0, 524280, 524281, 524282] (by decide +kernel)]
  rw [foldl_cut insertNat 256 _ _ [0, 524280, 524281, 524282] (by decide +kernel)]
  rw [foldl_cut insertNat 256 _ _ [0, 524280, 524281, 524282, 524283] (by decide +kernel)]
  rw [foldl_cut insertNat 256 _ _ [0, 524280, 524281, 524282, 524283] (by decide +kernel)]
  decide +kernel

theorem image_loads : checkImage imageBytes = .ok bootLoad := by
  have h : (sectionsOk (sectionsOf imageBytes) && mapsOk (sectionsOf imageBytes) && (ofType (sectionsOf imageBytes) 6).all (unwindOk (sectionsOf imageBytes)) &&
    placeOk (sectionsOf imageBytes) && bootOk (sectionsOf imageBytes)) = true := by decide +kernel
  have hr : relocate (sectionsOf imageBytes) = some (sectionsOf imageBytes) := by decide +kernel
  have hc : codePages (sectionsOf imageBytes) = [1] := by decide +kernel
  have hm : mapPages (imageBytes.num 0x18 8) (sectionsOf imageBytes) = [0] := by decide +kernel
  have hb : ((rolesOf (sectionsOf imageBytes)).any (·.role == 0) && (placings (sectionsOf imageBytes)).any (fun p => p.role == 0 && p.rect.hasCore 0) &&
    !(ofType (sectionsOf imageBytes) 10).isEmpty && ((piecesOf (imageBytes.num 0x18 8) (sectionsOf imageBytes)).all fun p => p.pa + p.size ≤ bootTables)) = true := by
    decide +kernel
  have ho : rootOk (imageBytes.num 0x18 8) (sectionsOf imageBytes) = true := by
    unfold rootOk
    rw [hc, hm, regions_image, hb]
    decide
  simp only [Bool.and_eq_true] at h
  simp only [checkImage, format_image, h.1.1.1.1, hr, h.1.1.1.2, h.1.1.2, h.1.2, h.2, ho, Bool.not_true, Bool.false_eq_true, if_false]
  decide +kernel

/-- Power-up as it passes, as stage 3 fails, with a BGO held; BGO itself; a lane that fails in service (25 R424 to R427, 01 R17). -/
theorem test_powerUp :
    let s : State := State.reset
    let held : State := { s with boot := { s.boot with heldBgo := true, bimg := 0x1000, blen := 480 } }
    let idle : State := { held with boot := { held.boot with state := 2, heldBgo := false } }
    let t : SelfTest := ⟨none, [3, 2, 1], [(true, 1, 8)], 77⟩
    (leaves (exec (.powerUp t) s) (fun r => r.boot.state == 2 && r.boot.heldBgo == false && r.report.words[0] == 0x53545250 &&
        r.report.words[1] == 0 && r.report.words[5] == 77 && r.strands == [] && (r.ports[2]).width == 1 && (r.ports[7]).width == 0) &&
      leaves (exec (.powerUp t) held) (fun r => r.boot.state == 3 && r.boot.heldBgo == false && r.boot.file == some (0x1000, 480)) &&
      leaves (exec (.powerUp { t with failing := some (3, 5, 9) }) s) (fun r => r.boot.state == 5 && r.report.words[1] == 0x301 &&
        r.report.words[2] == 5 && r.report.words[3] == 9) &&
      leaves (exec (.powerUp { t with failing := some (3, 5, 9) }) { s with bucketNext := [(5, 9)] }) (fun r => (r.ports[2]).width == 1) &&
      leaves (exec (.powerUp t) { s with bucketNext := [(5, 9)] }) (fun r => r.bucketNext == [(5, 9)]) &&
      leaves (exec (.d2dLaneFailure 7 1) lab) (fun r => r.boot.state == 5 && r.strands == [] && r.ctxs == [] && r.report == lab.report) &&
      gives (.bgo 1) s { s with boot := { s.boot with heldBgo := true } } && leaves (exec (.bgo 1) idle) (fun r => r.boot.state == 3 &&
        r.boot.berr == 0 && r.boot.file == some (0x1000, 480)) && gives (.bgo 2) idle idle) = true := by decide +kernel

/-- The image `image_loads` in the host, a file of zeros, a file that reaches past the host's window, a poisoned one; the two blocks of a
load (25 R428, 21 R348). -/
theorem test_bootImage :
    let s : State := { State.reset with boot := { State.reset.boot with state := 3, file := some (0x1000, 480) } }
    let good : State := { s with mem := Memory.setBytes [] 0x8000000001000 imageBytes }
    let fails (s : State) (e : BitVec 8) : Bool :=
      gives .bootImageLoad s { s with boot := { s.boot with state := 2, berr := e, file := none, load := none } }
    let far : State := { s with boot := { s.boot with file := some (2 ^ 51, 1) } }
    let at_ (l : Load) : State := { s with boot := { s.boot with file := none, load := some l } }
    let two : Load := { bootLoad with len := 5000 }
    let half : Load := { two with got := Sparse.put [] 0 1 }
    (Memory.getBytes good.mem 0x8000000001000 480 == imageBytes && !good.poisoned 0x8000000001000 480 && fails s 1 && fails far 9 &&
      fails { good with poison := [(0x8000000001000 + 8) / 8] } 9 && two.blocks == [0, 1] && two.mayReceive 0 && bootLoad.blocks == [0] &&
      (let lost : State := { at_ { two with src := 0x8000000001000 } with poison := [(0x8000000001000 + 4096) / 8] }
       !lost.blockFails { two with src := 0x8000000001000 } 0 0 && lost.blockFails { two with src := 0x8000000001000 } 0 1 &&
       gives (.bootBlock 0 1) { lost with boot := { lost.boot with load := some { half with src := 0x8000000001000 } } }
         { lost with boot := { lost.boot with state := 2, berr := 9, file := none, load := none } }) &&
      half.complete == false && leaves (exec (.bootBlock 0 0) (at_ two)) (fun t => t.boot.load == some half &&
        Memory.get t.mem 0x80 == 1) && half.mayReceive 0 && half.blocks[half.count 0]? == some 1 &&
      ({ half with got := Sparse.put half.got 0 2 } : Load).complete) = true := by decide +kernel

/-- Each register and event of the operator (26 R430 to R440). -/
theorem test_fleetEvents :
    let s : State := { lab with boot := { lab.boot with state := 4 } }
    let cores := s.cores.map fun e => (e.1, { e.2 with stalls := [(16 + 3, 9)] })
    let f (p : Nat) (fth : Nat) : State := { s with fleet := { s.fleet with pcap := BitVec.ofNat 12 p, fth := fth } }
    let w : WearReading := ⟨-3, 12⟩
    let b : State := { s with bucketNext := [(5, 0x8000000000640032)], buckets := [(5, 10)] }
    (leaves (exec (.csel 0x10000) { s with cores := cores }) (fun t => t.fleet.window.asked && !t.fleet.window.done &&
        (t.copyCounters false).fleet.window.cnt[3] == 9 && (t.copyCounters false).fleet.window.done && t.bar0 0x208 == 0 &&
        (t.copyCounters false).bar0 0x298 == 9) &&
      leaves (exec (.ifreqWrite 511 625) s) (fun t => t.fleet.fsetOf 511 == 625 && t.fleet.fsetOf 510 == 600) &&
      [199, 175, 610, 775].all (fun v => gives (.ifreqWrite 511 v) s s) &&
      leaves (exec (.freqTransition 3) (f 2800 575)) (fun t => Sparse.get t.fleet.running 3 == some 575) &&
      leaves (exec (.throttleUpdate 2801 45) (f 2800 600)) (fun t => t.fleet.fth == 575) &&
      leaves (exec (.throttleUpdate 2660 42) (f 2800 600)) (fun t => t.fleet.fth == 625) &&
      leaves (exec (.throttleUpdate 2661 42) (f 2800 600)) (fun t => t.fleet.fth == 600) &&
      leaves (exec (.wearUpdate 2 w) s) (fun t => (t.fleet.wearOf 2).drift == 0xFFFFFFFD && (t.fleet.wearOf 2).ems == 12 &&
        (t.fleet.wearOf 2).age == 1 && t.fleet.wearOf 3 == s.fleet.wearOf 3) &&
      leaves (exec (.wearUpdate 2 ⟨500, 0⟩) { s with fleet := { s.fleet with wear := [(2, { (s.fleet.wearOf 2) with age := 23 })] } }) (fun t =>
        (t.fleet.wearOf 2).age == 24 && Sparse.get t.fleet.history 2 == some [(500, 0)]) &&
      leaves (exec .tokenRefill { b with homes := { b.homes with loans := [(1, 2)] } }) (fun t => t.homes.loans == []) &&
      ({ s with fleet := { s.fleet with second := s.fleet.window.select 3 } } : State).fleet.second.asked &&
      gives (.bar0UnsupportedAccess 8 4 true) s { s with answers := s.answers ++ [.unsupported 8] } &&
      gives (.bar0UnsupportedAccess 8 8 true) s s &&
      leaves (exec (.pldmRequest 2 0x10000) s) (fun t => t.answers == s.answers ++ [.pldm [BitVec.ofNat 64 s.fleet.power]]) &&
      leaves (exec (.spdmRequest 1) s) (fun t => t.answers.length == s.answers.length + 1) &&
      leaves (exec (.registerWrite .bimg 0x1FFF) s) (fun t => t.boot.bimg == 0x1000) &&
      leaves (exec (.registerWrite .pcap 4095) s) (fun t => t.fleet.pcap == 2800) &&
      leaves (exec (.registerWrite .lease 0x10007) s) (fun t => t.leaseLen == 7) && gives (.registerWrite .lease 0x10000) s s &&
      leaves (exec (.registerWrite .syspos 0xFFFFFFFF) s) (fun t => t.syspos == 0x1FFFF8) &&
      leaves (exec .tokenRefill b) (fun t => t.bucketSet == b.bucketNext && Sparse.get t.buckets 5 == some 100) &&
      leaves (exec .tokenRefill { b with bucketNext := [(5, 0x8000000000000032)] }) (fun t => Sparse.get t.buckets 5 == none)) = true := by
  decide +kernel

/-- The next turn is core 0's, whose strand 0 stands at `pc`, in a line of its cache with these words and start bits. -/
def turnAt (pc : Word) (l : List Nat) (b : BitVec 32) : State :=
  let code : ILine := ⟨l.flatMap (Memory.toBytes 4) ++ List.replicate (128 - 4 * l.length) 0, b⟩
  let s := (lab.editCore 0 fun k => { k with icache := Sparse.put k.icache (iKey 0 (pc.toNat / 128)) code }).editStrand 0 fun st =>
    { st with pc := pc }
  { s with cur := none, agenda := [⟨1, .cycle 0⟩] }

/-- That turn fetches these words, and leaves a state of which `p` holds. -/
def fetches (s : State) (pc : Word) (n : Nat) (l : List (BitVec 32 × Bool)) (p : State → Bool) : Bool :=
  let s1 : State := { s with agenda := [], gclk := 1 }
  s1.inPosition 0 (s1.position 0) == some 0 && s1.castDue 0 == false &&
    match s1.strand? 0 with
    | none => false
    | some st =>
      match (s1.begin 0 st .execute).fetchWord 0 0 0 0 pc with
      | (.ok w, s2) => wordsOf (lenField w.1) == n && l.head? == some w &&
        (match s2.fetchWords 0 0 0 0 pc n 0 with
         | (.ok ws, s3) => ws == l && p s3
         | _ => false)
      | _ => false

/-- Strand 0 stops with a cause, and nobody issues. -/
def stopsWith (r : Result) (cause : Nat) : Bool :=
  leaves r fun t => t.cur == none && (t.strand? 0).any fun q => q.state == .stopped && q.lcause.toNat == cause

/-- A turn of core 0's barrel fetches VTIME x4 at 0x1000 and runs it, at once and behind an instruction whose wait is over; a turn that is an
event (01 R26, 06 R144, R160). -/
theorem test_step :
    let s := turnAt 0x1000 [0x35840000] 0xFF00FF
    let s' := turnAt 0x1000 [0x35840000] 1
    let e : State := { s with agenda := [⟨3, .event (.csel 5)⟩] }
    let i : Instr := .vtime (base 4 0 0 0)
    let met : State := s'.editStrand 0 fun st => { st with pc := 0xFFC, behind := 4, await := .scopeZero 0 5 }
    (fetches s' 0x1000 1 [(0x35840000, true)] (fun s3 => decodeWords [0x35840000] == .ok (i, []) &&
        leaves (exec i s3) fun t => leaves (step s') (· == (t.endFills 0 0 0x1000).closeIssue 0 0)) &&
      met.awaitMet 0 { st0 with behind := 4 } false (.scopeZero 0 5) && leaves (step met) (fun t => (t.strand? 0).any fun q =>
         q.pc == 0x1004 && q.behind == 0 && q.x[4] == 1) &&
      leaves (step s) (fun t => t.cur == none && t.stream == .execute && (t.strand? 0).any fun q => q.pc == 0x1004 && q.x[4] == 1 && q.x[3] == 5) &&
      leaves (step e) (fun t => t.cur == none && t.stream == .execute && t.gclk == 3 && t.fleet.window.csel == 5)) = true := by decide +kernel

/-- No start bit at the first word, one at a later word, an opcode of no instruction, a reserved form, an instruction cut off by its page, a
page that is not there (06 R157, R160, 04 R93). -/
theorem test_stepTraps :
    let clear := turnAt 0x1000 [0x35840000] 0
    let later := turnAt 0x1000 [0x80851C00, 0x32C40, 0x2000011] 5
    let none_ := turnAt 0x1000 [0x3FC00000] 1
    let cut := turnAt 0x1FFC (List.replicate 31 0 ++ [0x80851C00]) 0x80000000
    let far := turnAt 0x3FFFFFFFC0 [] 0
    let bad (l : List Nat) (e : DecodeError) (cause : Nat) : Bool :=
      decodeWords (l.map (BitVec.ofNat 32)) == .error e && stopsWith (step (turnAt 0x1000 l 1)) cause
    (fetches clear 0x1000 1 [(0x35840000, false)] (fun _ => true) && stopsWith (step clear) Cause.illegalTarget &&
      fetches later 0x1000 3 [(0x80851C00, true), (0x32C40, false), (0x2000011, true)] (fun _ => true) &&
      stopsWith (step later) Cause.illegalTarget &&
      decodeWords [0x3FC00000] == .error .illegalOpcode && fetches none_ 0x1000 1 [(0x3FC00000, true)] (fun _ => true) &&
      stopsWith (step none_) Cause.illegalOpcode &&
      fetches cut 0x1FFC 3 [(0x80851C00, true)] (fun _ => true) && stopsWith (step cut) Cause.illegalForm &&
      bad [0x184146F] .illegalForm Cause.illegalForm && bad [0x93010830, 0, 0x50000000] .unsupported Cause.unsupported &&
      stopsWith (step far) Cause.pageFault) = true := by decide +kernel

/-- The reset state is at rest, its memory in canonical form, and a step from it with a turn of an event answers (DESIGN CHOICE, log entry
1). -/
theorem test_atRest : State.reset.AtRest ∧ Memory.wf State.reset.mem = true ∧
    leaves (step { State.reset with agenda := [⟨3, .event (.csel 5)⟩] }) (fun t => t.cur == none && t.stream == .execute) = true := by
  exact ⟨⟨rfl, rfl⟩, rfl, by decide +kernel⟩

/-- A memory in its canonical form, a byte that goes back to what an unlisted one reads as. -/
theorem test_memory :
    (Memory.wf mem0 && Memory.set mem0 0x2000 0 == mem0.filter (·.1 != 0x2000) && Memory.get mem0 0x2007 == 0x88 && Memory.get mem0 0x2008 == 0 &&
      !Memory.wf ((0x7F8, 0) :: mem0.tail) && !Memory.wf (mem0.tail ++ mem0)) = true := by decide +kernel

end Sys2Proof.Tests
end

section
/-!
THE MEMORY OPERATIONS (O60). What a run of enabled bytes leaves and reads as, and that memories in canonical form that read alike are
equal data.
-/

namespace Sys2Proof.Machine

namespace Memory

/-! ### The enabled bytes of a run -/

/-- Writing the enabled bytes of a run keeps the canonical form. -/
theorem wf_setEnabled (es : List (Option (BitVec 8))) :
    {m : List Host.Cell} → (a : Nat) → wf m = true → wf (setEnabled m a es) = true := by
  induction es with
  | nil => exact fun _ h => h
  | cons e es ih =>
    cases e with
    | none => exact fun a h => ih (a + 1) h
    | some b => exact fun a h => ih (a + 1) (wf_set a b h)

theorem get_setEnabled_other (es : List (Option (BitVec 8))) :
    (m : List Host.Cell) → (a x : Nat) → (x < a ∨ a + es.length ≤ x) → get (setEnabled m a es) x = get m x := by
  induction es with
  | nil => exact fun _ _ _ _ => rfl
  | cons e es ih =>
    intro m a x h
    simp only [List.length_cons] at h
    cases e with
    | none => exact ih m (a + 1) x (by omega)
    | some b => exact (ih (set m a b) (a + 1) x (by omega)).trans (get_set_other m b (by omega))

/-- A byte of the run reads as what was written where it is enabled, and as before where it is not. -/
theorem get_setEnabled_in (es : List (Option (BitVec 8))) :
    (m : List Host.Cell) → (a x : Nat) → wf m = true → a ≤ x → x < a + es.length →
      get (setEnabled m a es) x = (es.getD (x - a) none).getD (get m x) := by
  induction es with
  | nil => intro m a x _ h h'; simp at h'; omega
  | cons e es ih =>
    intro m a x w h h'
    simp only [List.length_cons] at h'
    by_cases first : x = a
    · subst first
      cases e with
      | none => simpa [setEnabled] using get_setEnabled_other es m (x + 1) x (by omega)
      | some b => simpa [setEnabled] using (get_setEnabled_other es _ (x + 1) x (by omega)).trans (get_set_same x b w)
    · have later : x - a = (x - (a + 1)) + 1 := by omega
      rw [later, List.getD_cons_succ]
      cases e with
      | none => exact ih m (a + 1) x w (by omega) (by omega)
      | some b =>
        rw [← get_set_other m b (Ne.symm first)]
        exact ih (set m a b) (a + 1) x (wf_set a b w) (by omega) (by omega)

theorem get_setEnabled (es : List (Option (BitVec 8))) {m : List Host.Cell} (a x : Nat) (w : wf m = true) :
    get (setEnabled m a es) x = if a ≤ x ∧ x < a + es.length then (es.getD (x - a) none).getD (get m x) else get m x := by
  split
  · next h => exact get_setEnabled_in es m a x w h.1 h.2
  · next h => exact get_setEnabled_other es m a x (by omega)

/-! ### A byte and a run of bytes, at every address -/

theorem get_set {m : List Host.Cell} (a : Nat) (b : BitVec 8) (x : Nat) (w : wf m = true) :
    get (set m a b) x = if x = a then b else get m x := by
  split
  · next h => exact h ▸ get_set_same a b w
  · next h => exact get_set_other m b (Ne.symm h)

theorem get_setBytes (bs : List (BitVec 8)) {m : List Host.Cell} (a x : Nat) (w : wf m = true) :
    get (setBytes m a bs) x = if a ≤ x ∧ x < a + bs.length then bs.getD (x - a) 0 else get m x := by
  split
  · next h => exact get_setBytes_in bs m a x w h.1 h.2
  · next h => exact get_setBytes_other bs m a x (by omega)

/-! ### Equal memories are equal data -/

/-- What a memory in canonical form lists first: its lowest address that does not read as an unlisted one. -/
theorem get_cons_ne_unlisted {lo : Nat} {c : Host.Cell} {m : List Host.Cell} (w : wfFrom lo (c :: m) = true) :
    get (c :: m) c.1 ≠ unlisted := by
  simp only [wfFrom, Bool.and_eq_true, bne_iff_ne] at w
  simpa [get] using w.1.2

theorem wfFrom_tail {lo : Nat} {c : Host.Cell} {m : List Host.Cell} (w : wfFrom lo (c :: m) = true) : wfFrom (c.1 + 1) m = true := by
  simp only [wfFrom, Bool.and_eq_true] at w
  exact w.2

theorem get_cons_of_lt {lo a : Nat} {c : Host.Cell} {m : List Host.Cell} (w : wfFrom lo (c :: m) = true) (h : a < c.1) :
    get (c :: m) a = unlisted := by
  have above : c.1 ≠ a := by omega
  rw [get, if_neg above]
  exact get_of_lt (wfFrom_tail w) (by omega)

/-- Two lists in canonical form that read alike begin at the same address. -/
theorem head_address_le {lo lo' : Nat} {c c' : Host.Cell} {m m' : List Host.Cell} (w : wfFrom lo (c :: m) = true)
    (w' : wfFrom lo' (c' :: m') = true) (alike : ∀ x, get (c :: m) x = get (c' :: m') x) : c.1 ≤ c'.1 := by
  by_contra h
  refine get_cons_ne_unlisted w' ?_
  rw [← alike]
  exact get_cons_of_lt w (by omega)

theorem eq_of_get_eq_from {m m' : List Host.Cell} {lo lo' : Nat} (w : wfFrom lo m = true) (w' : wfFrom lo' m' = true)
    (alike : ∀ x, get m x = get m' x) : m = m' := by
  induction m generalizing lo lo' m' with
  | nil =>
    cases m' with
    | nil => rfl
    | cons c' m' => exact absurd (alike c'.1).symm (get_cons_ne_unlisted w')
  | cons c m ih =>
    cases m' with
    | nil => exact absurd (alike c.1) (get_cons_ne_unlisted w)
    | cons c' m' =>
      have address : c.1 = c'.1 := le_antisymm (head_address_le w w' alike) (head_address_le w' w fun x => (alike x).symm)
      have value : c.2 = c'.2 := by simpa [get, address] using alike c.1
      have tails (x : Nat) : get m x = get m' x := by
        by_cases h : x < c.1 + 1
        · rw [get_of_lt (wfFrom_tail w) h, get_of_lt (wfFrom_tail w') (address ▸ h)]
        · have other : c.1 ≠ x := by omega
          have other' : c'.1 ≠ x := address ▸ other
          simpa [get, other, other'] using alike x
      rw [ih (wfFrom_tail w) (wfFrom_tail w') tails, Prod.ext address value]

/-- The canonical form is one form: memories that have it and read alike are equal. -/
theorem eq_of_get_eq {m m' : List Host.Cell} (w : wf m = true) (w' : wf m' = true) (alike : ∀ x, get m x = get m' x) : m = m' :=
  eq_of_get_eq_from w w' alike

end Memory

/-- Settles O60, operation by operation: the laws of memory, of its enabled runs, and that the canonical form is unique. -/
theorem memoryOperations : Obligations.MemoryOperations := by
  intro m a b bs es p s n v w e
  subst e
  exact ⟨Memory.wf_set a b w, Memory.wf_setBytes bs a w, Memory.wf_setEnabled es a w, Memory.wf_filter p w, s.store_wf a n v w,
    fun x => Memory.get_set a b x w, fun x => Memory.get_setBytes bs a x w, fun x => Memory.get_setEnabled es a x w,
    State.load_store a n v w, fun _ w' => Memory.eq_of_get_eq w w'⟩

end Sys2Proof.Machine
end

section
/-!
EVERY STEP KEEPS THE CANONICAL FORM OF MEMORY (O58).

The property is carried along the model's own structure, with one predicate for each kind of function: `State.Canonical` of the state that
a function leaves, `Keeps` of a part of an instruction (`Act`), `Result.Canonical` of an outcome, `KeepsEvent` and `KeepEvents` of events.
A few rules say how each way to build a function keeps it: what does not touch memory, a run of bytes that is written, bytes that go,
branches, pairs, loops, and the sequence of two acts. Then there is one lemma for each function of the model that a step runs through, named
after it and in the model's order, so that the proof for a function cites the lemmas of the functions it calls. Memory itself is written only
through `Memory.set`, `Memory.setBytes`, `Memory.setEnabled` and `List.filter`, whose laws stand in Laws/Memory.lean and above.
-/

namespace Sys2Proof.Machine

/-! ### The canonical form as a property of the state -/

/-- Memory is in its canonical form. -/
structure State.Canonical (s : State) : Prop where
  mem : Memory.wf s.mem = true

/-- A step of an instruction keeps it, however the step ends. -/
structure Keeps {α : Type} (a : Act α) : Prop where
  canonical {s : State} (h : s.Canonical) : (a s).2.Canonical

/-- The state that an outcome goes on with has it. -/
structure Result.Canonical (r : Result) : Prop where
  next_state {t : State} (e : r = .next t) : t.Canonical

/-- An event keeps it. -/
structure KeepsEvent (e : State → Result) : Prop where
  canonical {s : State} (h : s.Canonical) : Result.Canonical (e s)

namespace State.Canonical

variable {s t : State} {α : Type}

/-- What does not touch memory keeps it. -/
theorem update (h : s.Canonical) (e : t.mem = s.mem) : t.Canonical := ⟨e ▸ h.mem⟩

theorem calm (h : s.Canonical) (c : Calm s t) : t.Canonical := ⟨c.still ▸ h.mem⟩

theorem traffic (h : s.Canonical) (c : Traffic s t) : t.Canonical := ⟨(c.mem h.mem).1⟩

/-- A run of bytes is written. -/
theorem setBytes {a : Nat} {bs : List (BitVec 8)} (h : s.Canonical) (e : t.mem = Memory.setBytes s.mem a bs) : t.Canonical :=
  ⟨e ▸ Memory.wf_setBytes bs a h.mem⟩

/-- Bytes go. -/
theorem filter {p : Host.Cell → Bool} (h : s.Canonical) (e : t.mem = s.mem.filter p) : t.Canonical :=
  ⟨e ▸ Memory.wf_filter p h.mem⟩

/-! Fields that are set behind a loop: stated for any state, because `rfl` over a loop's outcome would run the loop. -/

theorem withCores {c} (h : s.Canonical) : State.Canonical { s with cores := c } := h.update rfl

theorem withLaunches {l} (h : s.Canonical) : State.Canonical { s with launches := l } := h.update rfl

theorem withOutbox {l} (h : s.Canonical) : State.Canonical { s with outbox := l } := h.update rfl

theorem withStream {x} (h : s.Canonical) : State.Canonical { s with stream := x } := h.update rfl

theorem withBoot {b} (h : s.Canonical) : State.Canonical { s with boot := b } := h.update rfl

theorem withBytes {a bs p} (h : s.Canonical) : State.Canonical { s with mem := Memory.setBytes s.mem a bs, poison := p } := h.setBytes rfl

theorem withMoving {m} (h : s.Canonical) : State.Canonical { s with moving := m } := h.update rfl

/-! Branches, pairs and loops -/

theorem ite {c : Prop} [Decidable c] (h : s.Canonical) (h' : t.Canonical) : (if c then s else t).Canonical := by
  split
  · exact h
  · exact h'

theorem ite_snd {c : Prop} [Decidable c] {p q : α × State} (h : p.2.Canonical) (h' : q.2.Canonical) :
    (if c then p else q).2.Canonical := by
  split
  · exact h
  · exact h'

theorem ite_fst {c : Prop} [Decidable c] {p q : State × α} (h : p.1.Canonical) (h' : q.1.Canonical) :
    (if c then p else q).1.Canonical := by
  split
  · exact h
  · exact h'

theorem inSnd {x : α} (h : s.Canonical) : (x, s).2.Canonical := h

theorem inFst {x : α} (h : s.Canonical) : (s, x).1.Canonical := h

theorem snd {p : α × State} {x : α} (e : p = (x, t)) (h : p.2.Canonical) : t.Canonical := by rwa [e] at h

theorem fst {p : State × α} {x : α} (e : p = (t, x)) (h : p.1.Canonical) : t.Canonical := by rwa [e] at h

theorem getD (h : s.Canonical) {o : Option State} (ho : ∀ {t}, o = some t → t.Canonical) : (o.getD s).Canonical := by
  cases o with
  | none => exact h
  | some t => exact ho rfl

theorem foldl {g : State → α → State} {l : List α} (h : s.Canonical) (hg : ∀ {t x}, t.Canonical → (g t x).Canonical) :
    (l.foldl g s).Canonical := by
  induction l generalizing s with
  | nil => exact h
  | cons x l ih => exact ih (hg h)

end State.Canonical

/-- A loop over memory that keeps the canonical form in each round. -/
theorem Memory.wf_foldl {α : Type} {g : List Host.Cell → α → List Host.Cell} (hg : ∀ m x, Memory.wf m = true → Memory.wf (g m x) = true)
    (l : List α) {m : List Host.Cell} (h : Memory.wf m = true) : Memory.wf (l.foldl g m) = true := by
  induction l generalizing m with
  | nil => exact h
  | cons x l ih => exact ih (hg m x h)

/-- The bytes of a line that a mask names are written. -/
theorem Memory.wf_masked (line : Nat) (mask : BitVec 128) (bytes : List (BitVec 8)) (l : List Nat) {m : List Host.Cell}
    (h : Memory.wf m = true) :
    Memory.wf (l.foldl (fun m i => if mask.getLsbD i then Memory.set m (line * 128 + i) (bytes.getD i 0) else m) m) = true := by
  refine Memory.wf_foldl (fun m i hm => ?_) l h
  split
  · exact Memory.wf_set _ _ hm
  · exact hm

namespace Keeps

variable {α β : Type} {a b : Act α}

theorem bind {k : α → Act β} (ha : Keeps a) (hk : ∀ x, Keeps (k x)) : Keeps (a >>= k) := by
  refine ⟨fun {s} h => ?_⟩
  rw [Act.bind_run]
  have h' := ha.canonical h
  split
  · next e => exact (hk _).canonical (.snd e h')
  · next e => exact .snd e h'

theorem pure {x : α} : Keeps (Pure.pure x : Act α) := ⟨fun h => h⟩

theorem ite {c : Prop} [Decidable c] (ha : Keeps a) (hb : Keeps b) : Keeps (if c then a else b) := by
  split
  · exact ha
  · exact hb

/-- An act that comes first where a condition holds, and what follows in either case. -/
theorem when {c : Prop} [Decidable c] {a : Act Unit} {k : Unit → Act α} (ha : Keeps a) (hk : Keeps (k ())) :
    Keeps (if c then a >>= k else k ()) := .ite (.bind ha fun _ => hk) hk

theorem readS {g : State → α} : Keeps (readS g) := ⟨fun h => h⟩

theorem editS {g : State → State} (hg : ∀ {s}, s.Canonical → (g s).Canonical) : Keeps (editS g) := ⟨hg⟩

theorem stateS {g : State → α × State} (hg : ∀ {s}, s.Canonical → (g s).2.Canonical) : Keeps (stateS g) := ⟨hg⟩

theorem stopWith {e : Exit} : Keeps (stopWith e : Act α) := ⟨fun h => h⟩

theorem me : Keeps me := by
  refine ⟨fun h => ?_⟩
  unfold Machine.me
  split
  · exact h
  · exact h

theorem self : Keeps self := by
  refine ⟨fun h => ?_⟩
  unfold Machine.self
  split
  · split
    · exact h
    · exact h
  · exact h

theorem inAccess : Keeps inAccess := by
  refine ⟨fun h => ?_⟩
  unfold Machine.inAccess
  split
  · exact h
  · exact h

end Keeps

namespace Result.Canonical

variable {s : State} {r r' : Result}

theorem next (h : s.Canonical) : Result.Canonical (.next s) := ⟨fun e => by cases e; exact h⟩

theorem fault {f : Fault} : Result.Canonical (.fault f) := ⟨fun e => by cases e⟩

theorem refused {f : Refusal} : Result.Canonical (.refused f) := ⟨fun e => by cases e⟩

theorem ite {c : Prop} [Decidable c] (h : r.Canonical) (h' : r'.Canonical) : Result.Canonical (if c then r else r') := by
  split
  · exact h
  · exact h'

theorem outcome {a : Act Unit} (ha : Keeps a) (h : s.Canonical) : Result.Canonical (a.outcome s) := by
  have h' := ha.canonical h
  unfold Act.outcome
  split
  · next e => exact .next (.snd e h')
  · next e => exact .next (.snd e h')
  · exact .fault
  · exact .refused

end Result.Canonical

/-- Every event of a list keeps it. -/
structure KeepEvents (l : List (State → Result)) : Prop where
  each : ∀ e ∈ l, KeepsEvent e

namespace KeepEvents

variable {α : Type} {e : State → Result} {l l' : List (State → Result)}

theorem nil : KeepEvents [] := ⟨fun _ m => absurd m List.not_mem_nil⟩

theorem cons (he : KeepsEvent e) (hl : KeepEvents l) : KeepEvents (e :: l) := by
  refine ⟨fun e' m => ?_⟩
  rcases List.mem_cons.mp m with rfl | m
  · exact he
  · exact hl.each e' m

theorem one (he : KeepsEvent e) : KeepEvents [e] := .cons he .nil

theorem append (hl : KeepEvents l) (hl' : KeepEvents l') : KeepEvents (l ++ l') := by
  refine ⟨fun e m => ?_⟩
  rcases List.mem_append.mp m with m | m
  · exact hl.each e m
  · exact hl'.each e m

theorem ite {c : Prop} [Decidable c] (hl : KeepEvents l) (hl' : KeepEvents l') : KeepEvents (if c then l else l') := by
  split
  · exact hl
  · exact hl'

theorem map {g : α → State → Result} {xs : List α} (hg : ∀ {x}, KeepsEvent (g x)) : KeepEvents (xs.map g) := by
  refine ⟨fun e m => ?_⟩
  obtain ⟨x, -, rfl⟩ := List.mem_map.mp m
  exact hg

theorem flatMap {g : α → List (State → Result)} {xs : List α} (hg : ∀ {x}, KeepEvents (g x)) : KeepEvents (xs.flatMap g) := by
  refine ⟨fun e m => ?_⟩
  obtain ⟨x, -, m⟩ := List.mem_flatMap.mp m
  exact hg.each e m

theorem filterMap {g : α → Option (State → Result)} {xs : List α} (hg : ∀ {x e}, g x = some e → KeepsEvent e) :
    KeepEvents (xs.filterMap g) := by
  refine ⟨fun e m => ?_⟩
  obtain ⟨x, -, found⟩ := List.mem_filterMap.mp m
  exact hg found

end KeepEvents

variable {s t : State} {α : Type}

/-! ### Memory -/

theorem State.Canonical.store {pa n v} (h : s.Canonical) : (s.store pa n v).Canonical := h.setBytes rfl

theorem State.Canonical.setFull {pa} (h : s.Canonical) : (s.setFull pa).Canonical := h.update rfl

theorem State.Canonical.setEmpty {pa} (h : s.Canonical) : (s.setEmpty pa).Canonical := h.update rfl

theorem State.Canonical.markFull {pa full} (h : s.Canonical) : (s.markFull pa full).Canonical := .ite (h.update rfl) (h.update rfl)

theorem State.Canonical.clearPoison {pa} (h : s.Canonical) : (s.clearPoison pa).Canonical := h.update rfl

theorem State.Canonical.setPoison {pa} (h : s.Canonical) : (s.setPoison pa).Canonical := h.update rfl

/-! ### L2 -/

theorem State.Canonical.editCore {c g} (h : s.Canonical) : (s.editCore c g).Canonical := h.update rfl

theorem State.Canonical.setCtx {n c} (h : s.Canonical) : (s.setCtx n c).Canonical := h.update rfl

theorem State.Canonical.editCtx {n g} (h : s.Canonical) : (s.editCtx n g).Canonical := by
  unfold State.editCtx
  split
  · exact h.update rfl
  · exact h

theorem State.Canonical.takeTokens {who ctx l} (h : s.Canonical) : (s.takeTokens who ctx l).2.Canonical := h.calm (calm_takeTokens ..)

theorem State.Canonical.unitGoes {n} (h : s.Canonical) : (s.unitGoes n).Canonical := .ite (h.update rfl) h

/-! ### Directory -/

theorem State.Canonical.setAgent {line a} (h : s.Canonical) : (s.setAgent line a).Canonical := h.calm (calm_setAgent ..)

theorem State.Canonical.sumAgent {line} (h : s.Canonical) : (s.sumAgent line).Canonical := h.setAgent

theorem State.Canonical.setDir {line board e} (h : s.Canonical) : (s.setDir line board e).Canonical := h.calm (calm_setDir ..)

theorem State.Canonical.sendBackInv {line} (h : s.Canonical) : (s.sendBackInv line).Canonical := h.calm (calm_sendBackInv ..)

theorem State.Canonical.dropCopy {core line} (h : s.Canonical) : (s.dropCopy core line).Canonical := h.calm (calm_dropCopy ..)

theorem State.Canonical.keepCopies {line} (h : s.Canonical) : (s.keepCopies line).Canonical := h.update rfl

theorem State.Canonical.downgrade {leaf line board} (h : s.Canonical) : (s.downgrade leaf line board).Canonical := h.calm (calm_downgrade ..)

theorem State.Canonical.invalidateAll {leaf line} (h : s.Canonical) : (s.invalidateAll leaf line).Canonical := h.calm (calm_invalidateAll ..)

theorem State.Canonical.cleanOwner {leaf line} (h : s.Canonical) : (s.cleanOwner leaf line).Canonical := h.calm (calm_cleanOwner ..)

/-! ### Protocol -/

theorem State.Canonical.request {core line k} (h : s.Canonical) : (s.request core line k).Canonical := .ite h (h.update rfl)

theorem State.Canonical.putLine {core line} (h : s.Canonical) : (s.putLine core line).Canonical := by
  unfold State.putLine
  split
  · exact h
  · exact .ite h (.update h.dropCopy rfl)

theorem State.Canonical.takeMsg {line core p k} (e : s.takeMsg line core p = some (k, t)) (h : s.Canonical) : t.Canonical := by
  unfold State.takeMsg at e
  split at e
  · cases e
  · cases e
    exact h.update rfl

theorem State.Canonical.deliverMsg {m} (h : s.Canonical) : (s.deliverMsg m).Canonical := h.calm (calm_deliverMsg ..)

theorem State.Canonical.takeRequest {m} (h : s.Canonical) : (s.takeRequest m).Canonical := h.calm (calm_takeRequest ..)

theorem State.Canonical.settle {line} (h : s.Canonical) : (s.settle line).Canonical := h.calm (calm_settle ..)

theorem State.Canonical.getS {core line} (h : s.Canonical) : (s.getS core line).Canonical := h.calm (calm_getS ..)

theorem State.Canonical.getM {core line} (h : s.Canonical) : (s.getM core line).Canonical := h.calm (calm_getM ..)

theorem State.Canonical.touchFor {ctx a} (h : s.Canonical) : (s.touchFor ctx a).Canonical := h.calm (calm_touchFor ..)

theorem State.Canonical.askHome {who ctx l write} (h : s.Canonical) : (s.askHome who ctx l write).2.Canonical := h.calm (calm_askHome ..)

theorem State.Canonical.askEach {l} (h : s.Canonical) : (s.askEach l).2.Canonical := h.calm (calm_askEach ..)

theorem State.Canonical.standUnit {n a} (h : s.Canonical) : (s.standUnit n a).Canonical := by
  unfold State.standUnit
  dsimp only
  split
  · exact h.unitGoes
  · exact .ite h (h.update rfl)

/-! ### Translate -/

theorem State.Canonical.translate {core ctx va acc eng unit} (h : s.Canonical) : (s.translate core ctx va acc eng unit).2.Canonical :=
  h.traffic (traffic_translate ..)

theorem State.Canonical.markDirty {core ctx va eng} (h : s.Canonical) : (s.markDirty core ctx va eng).Canonical :=
  h.traffic (traffic_markDirty ..)

theorem State.Canonical.translateStore {core ctx va eng unit} (h : s.Canonical) : (s.translateStore core ctx va eng unit).2.Canonical :=
  .ite_snd (.translate (.update h.translate rfl)) h.translate

theorem State.Canonical.translateWrite {core ctx va eng unit} (h : s.Canonical) : (s.translateWrite core ctx va eng unit).2.Canonical := by
  unfold State.translateWrite
  split
  · next e => exact .snd e h.translateStore
  · next e =>
    have h' := State.Canonical.snd e h.translateStore
    split
    · next e1 => exact .snd e1 h'.askHome
    · next e1 => exact .inSnd (.markDirty (.snd e1 h'.askHome))

/-! ### Lines -/

theorem State.Canonical.fetchUe {va} (h : s.Canonical) : (s.fetchUe va).2.Canonical := .inSnd (h.update rfl)

theorem State.Canonical.dropFills {core who} (h : s.Canonical) : (s.dropFills core who).Canonical := .ite (h.update rfl) h

theorem State.Canonical.fetchLine {core ctx lrec who va} (h : s.Canonical) : (s.fetchLine core ctx lrec who va).2.Canonical := by
  unfold State.fetchLine
  split
  · next e => exact .snd e h.translate
  · next e =>
    have h' := State.Canonical.snd e h.translate
    refine .ite_snd h' ?_
    split
    · exact h'
    · exact .ite_snd h'.fetchUe h'
    · refine .ite_snd h' (.ite_snd h'.fetchUe ?_)
      split
      · exact h'
      · split
        · next e3 => exact .snd e3 h'.translate
        · next e3 =>
          have h₃ := State.Canonical.snd e3 h'.translate
          refine .ite_snd h₃ (.ite_snd h₃ (.ite_snd h₃.fetchUe ?_))
          dsimp only
          split
          · next e4 => exact .snd e4 h₃.askHome
          · next e4 => exact .inSnd (.update (.snd e4 h₃.askHome) rfl)

theorem State.Canonical.fetchWord {core ctx lrec who va} (h : s.Canonical) : (s.fetchWord core ctx lrec who va).2.Canonical := by
  unfold State.fetchWord
  split
  · next e => exact .snd e h.fetchLine
  · next e => exact .snd e h.fetchLine

theorem State.Canonical.startBit {core ctx lrec who va} (h : s.Canonical) : (s.startBit core ctx lrec who va).2.Canonical := by
  unfold State.startBit
  split
  · next e => exact .snd e h.fetchWord
  · next e => exact .snd e h.fetchWord
  · next e => exact .snd e h.fetchWord

/-! ### Ops -/

theorem State.Canonical.setStrand {u st} (h : s.Canonical) : (s.setStrand u st).Canonical := h.update rfl

theorem State.Canonical.editStrand {u g} (h : s.Canonical) : (s.editStrand u g).Canonical := by
  unfold State.editStrand
  split
  · exact h.update rfl
  · exact h

theorem State.Canonical.editLaunch {l g} (h : s.Canonical) : (s.editLaunch l g).Canonical := by
  unfold State.editLaunch
  split
  · exact h.update rfl
  · exact h

theorem State.Canonical.leavePosition {u why} (h : s.Canonical) : (s.leavePosition u why).Canonical := by
  unfold State.leavePosition
  split
  · exact h
  · exact h.update rfl

theorem State.Canonical.wake {u} (h : s.Canonical) : (s.wake u).Canonical := by
  unfold State.wake
  split
  · exact h
  · split
    · exact .ite h (h.update rfl)
    · exact .ite h (h.update rfl)
    · exact h.update rfl
    · exact h

theorem State.Canonical.leave {u state a why} (h : s.Canonical) : (s.leave u state a why).Canonical := .update h.leavePosition.editStrand rfl

theorem State.Canonical.block {u a} (h : s.Canonical) : (s.block u a).Canonical := h.editStrand

theorem State.Canonical.fireLine {line} (h : s.Canonical) : (s.fireLine line).Canonical :=
  h.foldl fun h1 => .ite (.ite h1.editStrand.wake h1.editStrand) h1

theorem State.Canonical.giveX {u access r v} (h : s.Canonical) : (s.giveX u access r v).Canonical := h.editStrand

theorem State.Canonical.movePc {u access len} (h : s.Canonical) : (s.movePc u access len).Canonical := h.editStrand

theorem State.Canonical.goOn {u access} (h : s.Canonical) : (s.goOn u access).Canonical := by
  unfold State.goOn
  split
  · split
    · exact h.update rfl
    · exact h.wake
  · exact h.wake

theorem State.Canonical.noteVt {u pa} (h : s.Canonical) : (s.noteVt u pa).Canonical := h.editStrand

theorem State.Canonical.release {u} (h : s.Canonical) : (s.release u).Canonical := h.editStrand

theorem State.Canonical.respond {ty p aux words} (h : s.Canonical) : (s.respond ty p aux words).Canonical := h.update rfl

theorem State.Canonical.streamNext {p} (h : s.Canonical) : (s.streamNext p).Canonical := h.update rfl

theorem State.Canonical.modeBit {mode addr} (h : s.Canonical) : (s.modeBit mode addr).Canonical := by
  unfold State.modeBit
  split
  · exact h.update rfl
  · exact h.update rfl
  · exact h.update rfl
  · exact h.update rfl
  · exact h

theorem State.Canonical.grantLease {line} (h : s.Canonical) : (s.grantLease line).2.Canonical := .ite_snd h h.setAgent.inSnd

theorem State.Canonical.homeStep {coherent reads leaf addr} (h : s.Canonical) : (s.homeStep coherent reads leaf addr).Canonical :=
  .ite (.ite h (h.update rfl)) (.ite h.settle.cleanOwner h.settle.invalidateAll)

theorem State.Canonical.eraseStamp {word} (h : s.Canonical) : (s.eraseStamp word).Canonical := h.update rfl

theorem State.Canonical.leasedReply {addr} (h : s.Canonical) : (s.leasedReply addr).2.Canonical := by
  unfold State.leasedReply
  split
  next e =>
  exact .snd e h.grantLease

theorem State.Canonical.performRemote {ty p addr pas coherent leaf} (h : s.Canonical) :
  (s.performRemote ty p addr pas coherent leaf).1.Canonical := by
  unfold State.performRemote
  have h' {l : List Nat} {reads} := h.streamNext.foldl (s := s.streamNext p) (l := l) (g := fun s a => s.homeStep coherent reads leaf a)
    .homeStep
  dsimp only
  split
  · exact .ite_fst h'.respond (.ite_fst h'.modeBit.respond (.ite_fst h'.leasedReply.respond h'.respond))
  · exact State.Canonical.respond (.ite h'.store.clearPoison.modeBit.eraseStamp h'.store.clearPoison.modeBit)
  · exact .ite_fst h'.respond (State.Canonical.respond (.ite h'.store.modeBit h'))
  · exact State.Canonical.respond (.modeBit (h'.foldl fun h => h.store.clearPoison.eraseStamp.fireLine))

theorem State.Canonical.completeWaiter {w} (h : s.Canonical) : (s.completeWaiter w).1.Canonical := by
  have home {reads leaf} : State.Canonical (match w.kind with
      | .remote _ _ _ => s
      | _ => s.homeStep w.coherent reads leaf w.addr) := by
    split
    · exact h
    · exact h.homeStep
  refine .ite_fst h.goOn ?_
  dsimp only
  split
  · exact home.giveX.movePc.goOn
  · exact home.setEmpty.noteVt.giveX.movePc.goOn
  · exact home.store.clearPoison.setFull.noteVt.release.movePc.goOn
  · exact home.release.giveX.movePc.goOn
  · exact .ite_fst home.store.noteVt.release.giveX.movePc.goOn home.store.noteVt
  · exact home.release.giveX.movePc.goOn
  · exact home.performRemote

theorem State.Canonical.recheck {fuel : Nat} (h : s.Canonical) {buckets} : (s.recheck buckets fuel).Canonical := by
  induction fuel generalizing s buckets with
  | zero => exact h
  | succ fuel ih =>
    unfold State.recheck
    split
    · exact h
    · next w _ =>
      have h' := h.completeWaiter (w := w)
      have listed : State.Canonical (match (s.completeWaiter w).2.1 with
          | some w' => { (s.completeWaiter w).1 with waiters := (s.completeWaiter w).1.waiters.map fun v => if v == w then w' else v }
          | none => { (s.completeWaiter w).1 with waiters := (s.completeWaiter w).1.waiters.filter (· != w) }) := by
        split
        · exact h'.update rfl
        · exact h'.update rfl
      exact .ite (ih listed.fireLine) (ih listed)

theorem State.Canonical.written {pa n} (h : s.Canonical) : (s.written pa n).Canonical := .ite (h.foldl .fireLine) (.recheck (h.foldl .fireLine))

theorem State.Canonical.storeAt {pa n v} (h : s.Canonical) : (s.storeAt pa n v).Canonical := .written (.ite (.update h.store rfl) h.store)

theorem State.Canonical.releaseLine {line} (h : s.Canonical) : (s.releaseLine line).Canonical := h.recheck.settle

theorem State.Canonical.hear (h : s.Canonical) : s.hear.Canonical := .foldl (h.update rfl) .written

theorem State.Canonical.askUnit {a} (h : s.Canonical) : (s.askUnit a).Canonical := by
  unfold State.askUnit
  split
  · exact .ite h (h.update rfl)
  · exact h

theorem State.Canonical.unitNotes {n : Nat} {p : Except Problem α × State} (h : p.2.Canonical) : (State.unitNotes n p).2.Canonical := by
  unfold State.unitNotes
  split
  · exact State.Canonical.standUnit h
  · exact State.Canonical.unitGoes h

theorem State.Canonical.unitSite {core ctx n lrec va write bits} (h : s.Canonical) : (s.unitSite core ctx n lrec va write bits).2.Canonical := by
  unfold State.unitSite
  split
  · next e => exact .snd e (.ite_snd h.translateStore h.translate)
  · next e =>
    have h' := State.Canonical.snd e (.ite_snd h.translateStore h.translate)
    refine .ite_snd h' (.ite_snd h' ?_)
    split
    · exact .inSnd h'.askUnit
    · exact h'

theorem State.Canonical.unitPut {core ctx va x words full} (h : s.Canonical) : (s.unitPut core ctx va x words full).Canonical := by
  unfold State.unitPut
  refine .written (State.Canonical.foldl (h.markDirty.foldl .homeStep) fun h1 => ?_)
  dsimp only
  split
  · exact .markFull (.update h1.store rfl)
  · exact .update h1.store rfl

theorem State.Canonical.unitWrite {core ctx n lrec va words full free} (h : s.Canonical) :
  (s.unitWrite core ctx n lrec va words full free).2.Canonical := by
  unfold State.unitWrite
  refine .unitNotes ?_
  split
  · next e => exact .snd e h.unitSite
  · next e =>
    have h' := State.Canonical.snd e h.unitSite
    split
    · next e1 => exact .snd e1 h'.askHome
    · next e1 => exact .inSnd (.unitPut (.snd e1 h'.askHome))

theorem State.Canonical.peekWord {core ctx lrec n va acc} (h : s.Canonical) : (s.peekWord core ctx lrec n va acc).2.Canonical := by
  unfold State.peekWord
  split
  · next e =>
    have h' := State.Canonical.snd e h.translate
    refine .ite_snd h' ?_
    split
    · exact .inSnd h'.standUnit
    · exact h'
  · next e => exact .inSnd (.standUnit (.snd e h.translate))
  · next e => exact .snd e h.translate

theorem State.Canonical.iwordFor {core ctx lrec n cause pc addr} (h : s.Canonical) : (s.iwordFor core ctx lrec n cause pc addr).2.Canonical :=
  .ite_snd h.peekWord h.peekWord

theorem State.Canonical.record {n uid core ctx fra seq sid cause pc addr extra lrec scope item noWord} (h : s.Canonical) :
  (s.record n uid core ctx fra seq sid cause pc addr extra lrec scope item noWord).2.Canonical := by
  unfold State.record
  split
  · next e => exact .snd e (.ite_snd h h.iwordFor)
  · next e =>
    have h' := State.Canonical.snd e (.ite_snd h h.iwordFor)
    dsimp only
    split
    · next e1 =>
      have h₁ := State.Canonical.snd e1 h'.unitWrite
      refine .inSnd ?_
      split
      · exact h₁.editStrand
      · exact h₁
    · next e1 => exact .snd e1 h'.unitWrite
    · next e1 => exact .snd e1 h'.unitWrite

theorem State.Canonical.loseEntry {core ctx n base x} (h : s.Canonical) : (s.loseEntry core ctx n base x).2.Canonical := by
  unfold State.loseEntry
  split
  · next e => exact .snd e h.askHome
  · next e => exact .inSnd (.unitPut (.snd e h.askHome))

theorem State.Canonical.addEntry {core ctx n base va x y words} (h : s.Canonical) : (s.addEntry core ctx n base va x y words).2.Canonical := by
  unfold State.addEntry
  split
  · next e => exact .snd e h.askHome
  · next e => exact .inSnd (.unitPut (.unitPut (.snd e h.askHome)))

theorem State.Canonical.entry {n ctx addr peer kind cause sid} (h : s.Canonical) : (s.entry n ctx addr peer kind cause sid).2.Canonical := by
  unfold State.entry
  split
  · exact h.unitGoes.inSnd
  · dsimp only
    split
    · next e1 => exact .inSnd (.standUnit (.snd e1 h.unitSite))
    · next e1 => exact .inSnd (.unitGoes (.snd e1 h.unitSite))
    · next e1 =>
      have h₁ := State.Canonical.snd e1 h.unitSite
      refine .ite_snd (.inSnd h₁.unitGoes) (.ite_snd ?_ ?_)
      · split
        · next e2 => exact .inSnd (.standUnit (.snd e2 h₁.loseEntry))
        · next e2 => exact .inSnd (.unitGoes (.snd e2 h₁.loseEntry))
      · split
        · next e2 => exact .inSnd (.standUnit (.snd e2 h₁.unitSite))
        · next e2 => exact .inSnd (.unitGoes (.snd e2 h₁.unitSite))
        · next e2 =>
          have h₂ := State.Canonical.snd e2 h₁.unitSite
          split
          · next e3 => exact .inSnd (.standUnit (.snd e3 h₂.addEntry))
          · next e3 => exact .inSnd (.unitGoes (.snd e3 h₂.addEntry))

theorem State.Canonical.endRegion {u} (h : s.Canonical) : (s.endRegion u).Canonical := by
  unfold State.endRegion
  split
  · exact h
  · split
    · exact h
    · exact h.update rfl

theorem State.Canonical.stopStrand {u cause extra pc addr noWord} (h : s.Canonical) : (s.stopStrand u cause extra pc addr noWord).Canonical := by
  unfold State.stopStrand
  dsimp only
  split
  · exact h.leave.editStrand
  · refine .ite h.leave.editStrand ?_
    split
    · next e1 => exact .snd e1 h.leave.editStrand.record
    · next e1 => exact .update (.snd e1 h.leave.editStrand.record) rfl

theorem State.Canonical.stepEnds {u} (h : s.Canonical) : (s.stepEnds u).Canonical := h.editStrand

theorem State.Canonical.enterHandler {u cause extra pc addr handler} (h : s.Canonical) :
  (s.enterHandler u cause extra pc addr handler).Canonical := by
  unfold State.enterHandler
  dsimp only
  split
  · exact h.editStrand
  · split
    · exact h.editStrand.stopStrand.stepEnds
    · exact h.editStrand.wake

theorem State.Canonical.entryBit {u st va} (h : s.Canonical) : (s.entryBit u st va).2.Canonical := by
  unfold State.entryBit
  split
  · next e => exact .snd e h.startBit
  · next e => exact .inSnd (.dropFills (.snd e h.startBit))

theorem State.Canonical.dispatchTrap {u cause extra pc addr noWord} (h : s.Canonical) :
  (s.dispatchTrap u cause extra pc addr noWord).2.Canonical := by
  unfold State.dispatchTrap
  split
  · exact h
  · refine .ite_snd ?_ ?_
    · split
      · next e1 => exact .snd e1 h.entryBit
      · next e1 => exact .inSnd (.stepEnds (.stopStrand (.snd e1 h.entryBit)))
      · next e1 => exact .inSnd (.enterHandler (.snd e1 h.entryBit))
    · exact h.stopStrand.stepEnds.inSnd

theorem State.Canonical.takeTrap {u cause extra pc addr noWord} (h : s.Canonical) : (s.takeTrap u cause extra pc addr noWord).Canonical := by
  unfold State.takeTrap
  split
  · exact h
  · dsimp only
    split
    · next e1 => exact .snd e1 (.dispatchTrap (.editStrand (.ite h.endRegion h)))
    · next e1 =>
      have h₁ := State.Canonical.snd e1 (.dispatchTrap (.editStrand (.ite h.endRegion h)))
      exact .ite (.update h₁ rfl) (.leave (.update h₁ rfl))

theorem State.Canonical.checkStart {u} (h : s.Canonical) : (s.checkStart u).2.Canonical := by
  unfold State.checkStart
  split
  · exact h
  · split
    · next e1 => exact .snd e1 h.entryBit
    · next e1 => exact .inSnd (.takeTrap (.snd e1 h.entryBit))
    · next e1 =>
      have h₁ := State.Canonical.snd e1 h.entryBit
      exact .inSnd (.ite h₁.wake h₁)

theorem State.Canonical.runChore {no c} (h : s.Canonical) : (s.runChore no c).2.Canonical := by
  unfold State.runChore
  split
  · exact h.checkStart
  · exact h.dispatchTrap
  · exact h.record
  · exact h.entry

theorem State.Canonical.runLater (h : s.Canonical) : s.runLater.Canonical := by
  unfold State.runLater
  refine State.Canonical.foldl (h.update rfl) fun h1 => ?_
  split
  · next e => exact .snd e h1.runChore
  · next e => exact .update (.snd e h1.runChore) rfl

theorem State.Canonical.errorEntry {uid ctx addr peer kind cause sid} (h : s.Canonical) :
  (s.errorEntry uid ctx addr peer kind cause sid).Canonical := by
  unfold State.errorEntry
  dsimp only
  split
  · next e => exact .snd e h.entry
  · next e => exact .update (.snd e h.entry) rfl

theorem State.Canonical.localError {ctx addr kind cause sid} (h : s.Canonical) : (s.localError ctx addr kind cause sid).Canonical :=
  .errorEntry (h.update rfl)

theorem State.Canonical.leaveTrap {u} (h : s.Canonical) : (s.leaveTrap u).Canonical := h.editStrand

/-! ### Operands -/

theorem Keeps.editSelf {g} : Keeps (editSelf g) := by
  refine ⟨fun h => ?_⟩
  unfold Machine.editSelf
  split
  · exact h.editStrand
  · exact h

theorem Keeps.freeValue : Keeps (freeValue) := .stateS fun h => (.inSnd (h.update rfl))

theorem Keeps.park {a} : Keeps (park a : Act α) :=
  .bind .me fun _ => .bind .inAccess fun _ => .bind .editSelf fun _ => .ite (.bind (.editS .block) fun _ =>
    .stopWith) (.bind (.editS .leave) fun _ => .stopWith)

theorem Keeps.thisPc : Keeps (thisPc) := by
  unfold Machine.thisPc
  refine .bind .self fun _ => .bind .inAccess fun _ => ?_
  split <;> exact .pure

theorem Keeps.jumpTo {x0} : Keeps (jumpTo x0) := .bind .inAccess fun _ => .editSelf

theorem Keeps.trapAt {cause extra addr} : Keeps (trapAt cause extra addr : Act α) :=
  .bind .me fun _ => .bind .thisPc fun _ => .bind (.editS .takeTrap) fun _ => .stopWith

theorem Keeps.trapExtra {cause extra} : Keeps (trapExtra cause extra : Act α) := .bind .freeValue fun _ => .trapAt

theorem Keeps.trapWord {cause addr} : Keeps (trapWord cause addr : Act α) := .bind .freeValue fun _ => .trapAt

theorem Keeps.trapPlain {cause} : Keeps (trapPlain cause : Act α) := .bind .freeValue fun _ => .bind .freeValue fun _ => .trapAt

theorem Keeps.raise {p} : Keeps (raise p : Act α) := by
  unfold Machine.raise
  split
  · exact .trapAt
  · exact .park

theorem Keeps.illegalForm : Keeps (illegalForm : Act α) := .trapPlain

theorem Keeps.need {b x1} (hx1 : Keeps x1) : Keeps (need b x1) := .ite .pure hx1

theorem Keeps.noteSlow {slow} : Keeps (noteSlow slow) := .bind .inAccess fun _ => .ite .editSelf .pure

theorem Keeps.skipTurns {n} : Keeps (skipTurns n) := .bind .inAccess fun _ => .ite .editSelf .pure

theorem Keeps.finish {f} : Keeps (finish f) := .bind .editSelf fun _ => .bind .thisPc fun _ => .jumpTo

theorem Keeps.parkBehind {f a} : Keeps (parkBehind f a) := .bind .editSelf fun _ => .park

theorem Keeps.finishReply {f} : Keeps (finishReply f) := .bind .finish fun _ => .park

theorem Keeps.guardOf {f} : Keeps (guardOf f) := by
  unfold Machine.guardOf
  refine .bind .self fun _ => .bind .inAccess fun _ => ?_
  split <;> exact .pure

theorem Keeps.issue {k f body} (hbody : Keeps body) : Keeps (issue k f body) :=
  .bind .self fun _ => .bind .inAccess fun _ => .ite (.bind .thisPc fun _ => .jumpTo) (.bind .guardOf fun _ => .ite (.bind .thisPc fun _ =>
    .jumpTo) (.ite .trapExtra hbody))

theorem Keeps.fixed {k f body} (hbody : Keeps body) : Keeps (fixed k f body) := .issue (.bind hbody fun _ => .finish)

theorem Keeps.readX {r} : Keeps (readX r) := by
  unfold Machine.readX
  refine .bind .self fun _ => .bind .inAccess fun _ => .bind .noteSlow fun _ => ?_
  split
  · exact .ite .pure .park
  · exact .ite .pure .trapExtra
  · exact .ite .pure .park

theorem Keeps.writeX {r v} : Keeps (writeX r v) := .bind .me fun _ => .bind .inAccess fun _ => .editS .giveX

theorem Keeps.readC {r} : Keeps (readC r) := .bind .self fun _ => .readS

theorem Keeps.writeC {r v} : Keeps (writeC r v) := .bind .self fun _ => .editS fun h => (h.update rfl)

theorem State.Canonical.keepAuthority {u} (h : s.Canonical) : (s.keepAuthority u).Canonical := by
  unfold State.keepAuthority
  split
  · exact h
  · exact h.update rfl

theorem State.Canonical.endStrand {u why counts} (h : s.Canonical) : (s.endStrand u why counts).Canonical := by
  unfold State.endStrand
  split
  · exact h
  · exact .ite (.editLaunch (.update h.leavePosition.keepAuthority rfl)) (.update h.leavePosition.keepAuthority rfl)

theorem Keeps.bindVec : Keeps (bindVec) := by
  unfold Machine.bindVec
  refine .bind .me fun _ => .bind .self fun _ => .ite ?_ ?_
  · refine .bind .readS fun _ => .ite .editSelf (.ite .park ?_)
    split
    · exact .bind (.editS .editStrand) fun _ => .editSelf
    · exact .park
  · exact .pure

theorem Keeps.reloadVec : Keeps (reloadVec) := by
  unfold Machine.reloadVec
  refine .bind .self fun _ => ?_
  split
  · exact .ite .bindVec .pure
  · exact .pure

theorem Keeps.readV_plain {r} : Keeps (readV.plain r) := by
  unfold Machine.readV.plain
  refine .bind .self fun _ => .bind .noteSlow fun _ => ?_
  split
  · exact .pure
  · exact .ite .pure .park

theorem Keeps.readV {r} : Keeps (readV r) := by
  unfold Machine.readV
  refine .bind .self fun _ => ?_
  split
  · refine .ite ?_ ?_
    · split
      · exact .park
      · exact .bind .editSelf fun _ => .pure
    · exact .readV_plain
  · exact .readV_plain

theorem Keeps.writeV {r bits tag} : Keeps (writeV r bits tag) := .editSelf

theorem Keeps.destV {r} : Keeps (destV r) := .bind .self fun _ => .ite .trapExtra .pure

theorem Keeps.terminate : Keeps (terminate : Act α) := .bind .me fun _ => .bind (.editS .endStrand) fun _ => .stopWith

theorem Keeps.readTempo_entry {st d j} : Keeps (readTempo.entry st d j) := by
  unfold Machine.readTempo.entry
  split
  · exact .pure
  · exact .park

theorem Keeps.readTempo {isV r d} : Keeps (readTempo isV r d) := by
  unfold Machine.readTempo
  refine .bind .self fun _ => .bind .readS fun _ => ?_
  split
  · exact .illegalForm
  · exact .bind .readS fun _ => .ite .terminate .readTempo_entry

theorem Keeps.operandX {isC r dist} : Keeps (operandX isC r dist) := .ite (.bind .readTempo fun _ => .pure) (.ite .readC .readX)

theorem Keeps.operandV {r dist} : Keeps (operandV r dist) := .ite (.bind .readTempo fun _ => .pure) .readV

theorem Keeps.heedHome {l write} : Keeps (heedHome l write) := by
  unfold Machine.heedHome
  refine .bind .self fun _ => .bind (.stateS .askHome) fun _ => ?_
  split
  · exact .park
  · exact .pure

/-! ### Flags -/

theorem Keeps.fpEnv {f} : Keeps (fpEnv f) := by
  unfold Machine.fpEnv
  refine .bind .self fun _ => .bind .inAccess fun _ => ?_
  split <;> exact .pure

theorem Keeps.raiseFlags {fl} : Keeps (raiseFlags fl) := .editSelf

/-! ### Coherence -/

theorem State.Canonical.swmFill {core line} (h : s.Canonical) : (s.swmFill core line).Canonical := h.calm (calm_swmFill ..)

theorem State.Canonical.swmWrite {core pa bytes writer} (h : s.Canonical) : (s.swmWrite core pa bytes writer).Canonical := h.update rfl

theorem State.Canonical.swmWhole {core line p} (h : s.Canonical) : (s.swmWhole core line p).Canonical := by
  unfold State.swmWhole
  split
  · exact h
  · exact h.update rfl

theorem State.Canonical.swmWriteBack {core line} (h : s.Canonical) : (s.swmWriteBack core line).Canonical := by
  unfold State.swmWriteBack
  split
  · exact h
  · refine .ite h (.ite ?_ ?_)
    · exact .localError (h.update rfl)
    · exact .written ⟨Memory.wf_masked _ _ _ _ h.keepCopies.mem⟩

theorem State.Canonical.swmDrop {core line} (h : s.Canonical) : (s.swmDrop core line).Canonical := by
  unfold State.swmDrop
  split
  · exact h
  · exact h.update rfl

theorem State.Canonical.predict {core pa} (h : s.Canonical) : (s.predict core pa).Canonical := h.update rfl

theorem State.Canonical.stampWords {u lrec phase pa n} (h : s.Canonical) : (s.stampWords u lrec phase pa n).Canonical := h.calm (calm_stampWords ..)

/-! ### Fetch -/

theorem State.Canonical.fetchWords {core ctx lrec who pc} {n : Nat} {i} (h : s.Canonical) :
    (s.fetchWords core ctx lrec who pc n i).2.Canonical := by
  induction n generalizing s i with
  | zero => exact h
  | succ n ih =>
    unfold State.fetchWords
    refine .ite_snd h ?_
    split
    · exact .snd ‹_› h.fetchWord
    · next e =>
      have h' := State.Canonical.snd e h.fetchWord
      split
      · exact .snd ‹_› (ih h')
      · exact ih h'

theorem State.Canonical.fetch {core ctx lrec who pc} (h : s.Canonical) : (s.fetch core ctx lrec who pc).2.Canonical := by
  unfold State.fetch
  split
  · next e => exact .snd e h.fetchWord
  · next e => exact .snd e h.fetchWord
  · next e =>
    have h' := State.Canonical.snd e h.fetchWord
    dsimp only
    split
    · next e1 => exact .snd e1 h'.fetchWords
    · next e1 => exact .snd e1 h'.fetchWords
    · next e1 => exact .snd e1 h'.fetchWords

theorem Keeps.checkTargetWith {x0 clear} (hclear : Keeps clear) : Keeps (checkTargetWith x0 clear) := by
  unfold Machine.checkTargetWith
  split
  · exact .trapAt
  · exact .trapWord
  · refine .bind .self fun _ => .bind .me fun _ => .bind .inAccess fun _ => .bind (.stateS .startBit) fun _ => ?_
    split
    · exact .park
    · exact hclear
    · exact .pure

theorem Keeps.checkTarget {x0} : Keeps (checkTarget x0) := .checkTargetWith .trapAt

/-! ### Place -/

theorem State.Canonical.spillOut {u} (h : s.Canonical) : (s.spillOut u).Canonical := h.editStrand

theorem State.Canonical.claimSlot {core n} (e : s.claimSlot core = some (n, t)) (h : s.Canonical) : t.Canonical := by
  unfold State.claimSlot at e
  split at e
  · cases e
    exact h
  · split at e
    · cases e
    · split at e
      · cases e
        exact h.spillOut
      · cases e

theorem State.Canonical.place {u core slot st} (h : s.Canonical) : (s.place u core slot st).Canonical := by
  unfold State.place
  split
  · next e => exact .snd e (.checkStart (h.update rfl))
  · next e => exact .update (.leave (.snd e (.checkStart (h.update rfl)))) rfl

theorem State.Canonical.newUid (h : s.Canonical) : (s.newUid).2.Canonical := .inSnd (h.update rfl)

theorem State.Canonical.migrateOut {u target pc ma} (h : s.Canonical) : (s.migrateOut u target pc ma).Canonical := by
  unfold State.migrateOut
  split
  · exact h
  · exact .update h.leavePosition rfl

theorem Keeps.migrate {target pc ma} : Keeps (migrate target pc ma : Act α) :=
  .bind .me fun _ => .bind .self fun _ => .bind .readS fun _ => .when .trapPlain (.when .park (.bind (.editS .migrateOut) fun _ => .stopWith))

theorem Keeps.heedMigrate {x} : Keeps (heedMigrate x) :=
  .bind .self fun _ => .ite (.bind .readS fun _ => .ite (.bind .thisPc fun _ => .migrate) .pure) .pure

/-! ### Constants -/

theorem Keeps.fetchConstant {x} : Keeps (fetchConstant x) := by
  unfold Machine.fetchConstant
  refine .bind .self fun _ => .bind .me fun _ => .bind .inAccess fun _ => .bind .readS fun _ => .bind .heedHome fun _ => ?_
  dsimp only
  split
  · exact .bind (.editS fun h => .update h.getS rfl) fun _ => .park
  · exact .bind (.editS fun h => .update h.swmFill rfl) fun _ => .park
  · exact .bind (.editS fun h => h.update rfl) fun _ => .park

theorem Keeps.constant {j} : Keeps (constant j) := by
  unfold Machine.constant
  refine .bind .self fun _ => .bind .readS fun _ => ?_
  split
  · exact .trapPlain
  · refine .bind (.stateS .translate) fun _ => ?_
    split
    · exact .raise
    · refine .bind .readS fun _ => .when .trapAt (.bind .heedMigrate fun _ => .bind .me fun _ => .bind .inAccess fun _ => ?_)
      dsimp only
      split
      · exact .pure
      · exact .when .trapAt (.when .trapWord (.ite (.bind (.editS fun h => h.update rfl) fun _ => .pure) (.bind .fetchConstant fun _ => .pure)))

theorem Keeps.operandBWith {isC f} : Keeps (operandBWith isC f) := by
  unfold Machine.operandBWith
  split
  · exact .pure
  · exact .pure
  · exact .operandX
  · split
    · exact .operandX
    · exact .pure
    · exact .constant

theorem Keeps.operandB {f} : Keeps (operandB f) := .operandBWith

theorem Keeps.operandI {f} : Keeps (operandI f) := by
  unfold Machine.operandI
  split
  · exact .pure
  · exact .operandB

/-! ### Access -/

theorem State.Canonical.accessProblem {st c va n} (h : s.Canonical) : (s.accessProblem st c va n).2.Canonical :=
  h.traffic (traffic_accessProblem ..)

theorem Keeps.checkPlace {c va n} : Keeps (checkPlace c va n) := by
  unfold Machine.checkPlace
  refine .bind .self fun _ => .bind (.stateS .accessProblem) fun _ => ?_
  split
  · exact .raise
  · exact .trapWord
  · exact .when .heedMigrate .pure

theorem Keeps.heedAccess {c vas l} : Keeps (heedAccess c vas l) := by
  unfold Machine.heedAccess
  refine .bind .self fun _ => .bind .readS fun _ => .bind (.stateS .askEach) fun _ => ?_
  split
  · exact .park
  · exact .pure

theorem Keeps.checkAccess {c va n} : Keeps (checkAccess c va n) :=
  .bind .self fun _ => .bind .checkPlace fun _ => .bind .readS fun _ => .bind .heedAccess fun _ => .when (.editS .markDirty) .pure

theorem Keeps.heedWord {w pa va} : Keeps (heedWord w pa va) := by
  unfold Machine.heedWord
  split
  · exact .trapWord
  · exact .pure

theorem Keeps.heedPoison {pa n va} : Keeps (heedPoison pa n va) := .bind .readS fun _ => .when .trapAt .heedWord

theorem Keeps.loadBytes {x va n} : Keeps (loadBytes x va n) := by
  unfold Machine.loadBytes
  refine .bind .me fun _ => .bind .self fun _ => .bind .readS fun _ => ?_
  split
  · exact .bind .heedPoison fun _ => .readS
  · exact .bind .readS fun _ => .when .trapAt (.bind .readS fun _ => .bind .heedWord fun _ => .bind (.editS .swmFill) fun _ => .readS)
  · refine .bind .readS fun _ => .when .trapWord (.bind .heedPoison fun _ => .bind (.editS fun h => ?_) fun _ => .readS)
    dsimp only
    split
    · exact .update h.getS rfl
    · exact h.getS

theorem Keeps.heedTorn {pa n va} : Keeps (heedTorn pa n va) := .bind .readS fun _ => .heedWord

theorem Keeps.landStore {x va bytes} : Keeps (landStore x va bytes) :=
  .bind .me fun _ => .bind .self fun _ => .bind .readS fun _ => .ite (.editS .localError) (.editS fun h => (.written (.noteVt (h.setBytes rfl))))

theorem Keeps.heedRace {x va n} : Keeps (heedRace x va n) := .bind .me fun _ => .bind .self fun _ => .bind .readS fun _ => .ite .trapWord .pure

theorem Keeps.storeBytes {x va bytes} : Keeps (storeBytes x va bytes) := by
  unfold Machine.storeBytes
  refine .bind .me fun _ => .bind .self fun _ => .bind .readS fun _ => ?_
  split
  · exact .bind .readS fun _ => .bind .heedWord fun _ => .editS fun h => (.noteVt (h.update rfl))
  · exact .bind .heedTorn fun _ => .landStore
  · exact .bind .heedRace fun _ => .bind .heedTorn fun _ => .bind (.editS fun h => h.getM.stampWords) fun _ => .landStore

theorem Keeps.syncLine {x reads} : Keeps (syncLine x reads) := .bind .self fun _ => .editS .homeStep

/-! ### Authority -/

theorem Keeps.needRight {bit sid} : Keeps (needRight bit sid) := .bind .self fun _ => .bind .readS fun _ => .need .trapPlain

theorem Keeps.nodeOperand {a} : Keeps (nodeOperand a) := .bind (.need .illegalForm) fun _ => .pure

theorem Keeps.needNode {r} : Keeps (needNode r) := .bind .self fun _ => .bind .readS fun _ => .need .trapPlain

/-! ### CastMap -/

theorem State.Canonical.noteResidency {ctx} (h : s.Canonical) : (s.noteResidency ctx).Canonical := by
  unfold State.noteResidency
  split
  · exact .ite (h.update rfl) h
  · exact h

/-! ### EngineOps -/

theorem State.Canonical.putCmd {core c} (h : s.Canonical) : (s.putCmd core c).Canonical := h.update rfl

theorem State.Canonical.engineWait {core e a cause} (h : s.Canonical) : (s.engineWait core e a cause).Canonical := .ite h (h.update rfl)

theorem State.Canonical.engineChunk {core c va n write} (h : s.Canonical) : (s.engineChunk core c va n write).2.Canonical := by
  unfold State.engineChunk
  dsimp only
  split
  · next e => exact .snd e (.ite_snd h.translateStore h.translate)
  · next e => exact .snd e (.ite_snd h.translateStore h.translate)
  · next e =>
    have h' := State.Canonical.snd e (.ite_snd h.translateStore h.translate)
    refine .ite_snd h' ?_
    split
    · exact h'
    · exact .ite_snd h' (.ite_snd h' h')

theorem State.Canonical.engineRun {core c write} {fuel : Nat} {va n} (h : s.Canonical) : (s.engineRun core c write fuel va n).2.Canonical := by
  induction fuel generalizing s va n with
  | zero => exact h
  | succ fuel ih =>
    unfold State.engineRun
    refine .ite_snd h ?_
    dsimp only
    split
    · exact .snd ‹_› h.engineChunk
    · next e =>
      have h' := State.Canonical.snd e h.engineChunk
      split
      · exact .snd ‹_› (ih h')
      · exact ih h'

theorem State.Canonical.checkRun {core c write va n} (h : s.Canonical) : (s.checkRun core c write va n).2.Canonical := h.engineRun

theorem State.Canonical.checkRuns {core c write} {l : List (Word × Nat)} (h : s.Canonical) : (s.checkRuns core c write l).2.Canonical := by
  induction l generalizing s with
  | nil => exact h
  | cons r l ih =>
    unfold State.checkRuns
    split
    · exact .snd ‹_› h.checkRun
    · next e =>
      have h' := State.Canonical.snd e h.checkRun
      split
      · exact .snd ‹_› (ih h')
      · exact .snd ‹_› (ih h')

theorem State.Canonical.heardAt {core c reads writes} (h : s.Canonical) : (s.heardAt core c reads writes).2.Canonical := by
  unfold State.heardAt
  split
  · next e => exact .snd e h.askEach
  · next e => exact .snd e h.askEach

theorem State.Canonical.takeRun {core c write va n} (h : s.Canonical) : (s.takeRun core c write va n).2.Canonical := by
  unfold State.takeRun
  split
  · next e => exact .snd e h.checkRun
  · next e =>
    have h' := State.Canonical.snd e h.checkRun
    split
    · next e1 => exact .snd e1 h'.heardAt
    · next e1 => exact .snd e1 h'.heardAt

theorem State.Canonical.unitStore {core coherent pa bytes} (h : s.Canonical) : (s.unitStore core coherent pa bytes).Canonical :=
  .written (.setBytes (h.foldl .homeStep) rfl)

theorem State.Canonical.writeChunks {core c} {l : List Chunk} {bytes} (h : s.Canonical) : (s.writeChunks core c l bytes).Canonical := by
  induction l generalizing s bytes with
  | nil => exact h
  | cons k l ih => exact ih (.ite h.markDirty.localError h.markDirty.unitStore)

theorem State.Canonical.withoutRows {c} (h : s.Canonical) : (s.withoutRows c).Canonical := h.update rfl

theorem State.Canonical.releaseRows {core c first} (h : s.Canonical) : (s.releaseRows core c first).Canonical :=
  .foldl (.written (.withoutRows (h.foldl .invalidateAll))) .releaseLine

theorem State.Canonical.dropCmd {core c} (h : s.Canonical) : (s.dropCmd core c).Canonical := by
  unfold State.dropCmd
  dsimp only
  split
  · exact .releaseRows (h.update rfl)
  · exact h.update rfl

theorem State.Canonical.askCword {c who ctx a} (h : s.Canonical) : (s.askCword c who ctx a).2.Canonical := by
  unfold State.askCword
  refine .ite_snd ?_ ?_
  · refine .ite_snd h ?_
    split
    · next e => exact .snd e h.takeTokens
    · next e => exact .inSnd (.touchFor (.snd e h.takeTokens))
  · exact h.askHome

theorem State.Canonical.cwordPlace {core c who ctx} (h : s.Canonical) : (s.cwordPlace core c who ctx).2.Canonical := by
  unfold State.cwordPlace
  dsimp only
  split
  · next e => exact .snd e h.translateWrite
  · next e => exact .snd e h.translateWrite
  · next e =>
    have h' := State.Canonical.snd e h.translateWrite
    split
    · exact h'
    · refine .ite_snd h' (.ite_snd h' (.ite_snd h' ?_))
      split
      · next e2 => exact .snd e2 h'.askCword
      · next e2 => exact .inSnd (.homeStep (.snd e2 h'.askCword))

theorem State.Canonical.writeCword {core c status} (h : s.Canonical) : (s.writeCword core c status).2.Canonical := by
  unfold State.writeCword
  split
  · next e => exact .snd e h.cwordPlace
  · next e => exact .inSnd (.written (.noteVt (.update (.store (.snd e h.cwordPlace)) rfl)))

theorem State.Canonical.engineRecord {core c cause code addr} (h : s.Canonical) : (s.engineRecord core c cause code addr).Canonical := by
  unfold State.engineRecord
  refine .ite h ?_
  dsimp only
  split
  · next e => exact .snd e (.record (.ite h (h.update rfl)))
  · next e => exact .update (.snd e (.record (.ite h (h.update rfl)))) rfl

theorem State.Canonical.recordEnding {core c d} (h : s.Canonical) : (s.recordEnding core c d).Canonical := by
  unfold State.recordEnding
  split
  · exact h.engineRecord
  · exact h

theorem State.Canonical.closeCmd {core c d} (h : s.Canonical) : (s.closeCmd core c d).Canonical :=
  .ite (.update h.recordEnding rfl) h.recordEnding.dropCmd

theorem State.Canonical.tryEnd {core e} (h : s.Canonical) : (s.tryEnd core e).Canonical := by
  unfold State.tryEnd
  split
  · exact h
  · split
    · exact h
    · refine .ite h.closeCmd ?_
      split
      · next e2 => exact .closeCmd (.snd e2 h.writeCword)
      · next e2 => exact .dropCmd (.recordEnding (.engineRecord (.snd e2 h.writeCword)))
      · next e2 => exact .engineWait (.snd e2 h.writeCword)

theorem State.Canonical.endCmd {core c status fault} (h : s.Canonical) : (s.endCmd core c status fault).Canonical := .tryEnd (h.update rfl)

theorem State.Canonical.failCmd {core c stop} (h : s.Canonical) : (s.failCmd core c stop).Canonical := by
  unfold State.failCmd
  split
  · exact h.engineWait
  · exact h.endCmd

/-! ### Scalar -/

theorem Keeps.srcA {f} : Keeps (srcA f) := .operandX

theorem Keeps.srcB {f} : Keeps (srcB f) := .operandBWith

theorem Keeps.oldD {f} : Keeps (oldD f) := .ite .readC .readX

theorem Keeps.writeD {f v} : Keeps (writeD f v) := .ite .writeC .writeX

theorem Keeps.alu2 {f op} : Keeps (alu2 f op) := .fixed (.bind .srcA fun _ => .bind .srcB fun _ => .writeD)

theorem Keeps.aluI {f op} : Keeps (aluI f op) := .fixed (.bind .srcA fun _ => .bind .operandI fun _ => .writeD)

theorem Keeps.alu1 {f op} : Keeps (alu1 f op) := .fixed (.bind .srcA fun _ => .writeD)

theorem Result.Canonical.execNop {f} (h : s.Canonical) : Result.Canonical (execNop f s) := .outcome (.fixed .pure) h

theorem Result.Canonical.execAdd {f} (h : s.Canonical) : Result.Canonical (execAdd f s) := .outcome .alu2 h

theorem Result.Canonical.execAddi {f} (h : s.Canonical) : Result.Canonical (execAddi f s) := .outcome .aluI h

theorem Result.Canonical.execSub {f} (h : s.Canonical) : Result.Canonical (execSub f s) := .outcome .alu2 h

theorem Result.Canonical.execMul {f} (h : s.Canonical) : Result.Canonical (execMul f s) := .outcome .alu2 h

theorem Result.Canonical.execMulh {f} (h : s.Canonical) : Result.Canonical (execMulh f s) := .outcome .alu2 h

theorem Result.Canonical.execMulhu {f} (h : s.Canonical) : Result.Canonical (execMulhu f s) := .outcome .alu2 h

theorem Keeps.divide {f op} : Keeps (divide f op) :=
  .fixed (.bind .srcA fun _ => .bind .srcB fun _ => .when .trapPlain (.bind .writeD fun _ => .skipTurns))

theorem Result.Canonical.execDiv {f} (h : s.Canonical) : Result.Canonical (execDiv f s) := .outcome .divide h

theorem Result.Canonical.execDivu {f} (h : s.Canonical) : Result.Canonical (execDivu f s) := .outcome .divide h

theorem Result.Canonical.execRem {f} (h : s.Canonical) : Result.Canonical (execRem f s) := .outcome .divide h

theorem Result.Canonical.execRemu {f} (h : s.Canonical) : Result.Canonical (execRemu f s) := .outcome .divide h

theorem Result.Canonical.execAnd {f} (h : s.Canonical) : Result.Canonical (execAnd f s) := .outcome .alu2 h

theorem Result.Canonical.execAndi {f} (h : s.Canonical) : Result.Canonical (execAndi f s) := .outcome .aluI h

theorem Result.Canonical.execOr {f} (h : s.Canonical) : Result.Canonical (execOr f s) := .outcome .alu2 h

theorem Result.Canonical.execOri {f} (h : s.Canonical) : Result.Canonical (execOri f s) := .outcome .aluI h

theorem Result.Canonical.execXor {f} (h : s.Canonical) : Result.Canonical (execXor f s) := .outcome .alu2 h

theorem Result.Canonical.execXori {f} (h : s.Canonical) : Result.Canonical (execXori f s) := .outcome .aluI h

theorem Result.Canonical.execAndn {f} (h : s.Canonical) : Result.Canonical (execAndn f s) := .outcome .alu2 h

theorem Result.Canonical.execShl {f} (h : s.Canonical) : Result.Canonical (execShl f s) := .outcome .alu2 h

theorem Result.Canonical.execShr {f} (h : s.Canonical) : Result.Canonical (execShr f s) := .outcome .alu2 h

theorem Result.Canonical.execSra {f} (h : s.Canonical) : Result.Canonical (execSra f s) := .outcome .alu2 h

theorem Result.Canonical.execRotl {f} (h : s.Canonical) : Result.Canonical (execRotl f s) := .outcome .alu2 h

theorem Result.Canonical.execClz {f} (h : s.Canonical) : Result.Canonical (execClz f s) := .outcome .alu1 h

theorem Result.Canonical.execCtz {f} (h : s.Canonical) : Result.Canonical (execCtz f s) := .outcome .alu1 h

theorem Result.Canonical.execPopc {f} (h : s.Canonical) : Result.Canonical (execPopc f s) := .outcome .alu1 h

theorem Result.Canonical.execBrev {f} (h : s.Canonical) : Result.Canonical (execBrev f s) := .outcome .alu1 h

theorem Result.Canonical.execBswap {f} (h : s.Canonical) : Result.Canonical (execBswap f s) := .outcome .alu1 h

theorem Result.Canonical.execMin {f} (h : s.Canonical) : Result.Canonical (execMin f s) := .outcome .alu2 h

theorem Result.Canonical.execMax {f} (h : s.Canonical) : Result.Canonical (execMax f s) := .outcome .alu2 h

theorem Result.Canonical.execMinu {f} (h : s.Canonical) : Result.Canonical (execMinu f s) := .outcome .alu2 h

theorem Result.Canonical.execMaxu {f} (h : s.Canonical) : Result.Canonical (execMaxu f s) := .outcome .alu2 h

theorem Result.Canonical.execSel {f} (h : s.Canonical) : Result.Canonical (execSel f s) :=
  .outcome (.fixed (.bind .srcA fun _ => .bind .srcB fun _ => .bind .self fun _ => .bind .inAccess fun _ => .writeD)) h

theorem Result.Canonical.execExtb {f} (h : s.Canonical) : Result.Canonical (execExtb f s) := .outcome .alu2 h

theorem Result.Canonical.execInsb {f} (h : s.Canonical) : Result.Canonical (execInsb f s) :=
  .outcome (.fixed (.bind .srcA fun _ => .bind .srcB fun _ => .bind .oldD fun _ => .writeD)) h

theorem Result.Canonical.execLi {f} (h : s.Canonical) : Result.Canonical (execLi f s) := .outcome (.fixed (.bind .operandI fun _ => .writeD)) h

theorem Result.Canonical.execLih {f} (h : s.Canonical) : Result.Canonical (execLih f s) :=
  .outcome (.fixed (.bind .operandI fun _ => .bind .oldD fun _ => .writeD)) h

theorem Result.Canonical.execLit {f} (h : s.Canonical) : Result.Canonical (execLit f s) :=
  .outcome (.fixed (.bind .operandI fun _ => .bind .thisPc fun _ => .writeD)) h

theorem Result.Canonical.execLea {f} (h : s.Canonical) : Result.Canonical (execLea f s) :=
  .outcome (.fixed (.bind .srcA fun _ => .bind .srcB fun _ => .writeD)) h

theorem Keeps.compare {f b} (hb : Keeps b) : Keeps (compare f b) := .fixed (.bind .srcA fun _ => .bind hb fun _ => .editSelf)

theorem Result.Canonical.execCmp {f} (h : s.Canonical) : Result.Canonical (execCmp f s) := .outcome (.compare .srcB) h

theorem Result.Canonical.execCmpi {f} (h : s.Canonical) : Result.Canonical (execCmpi f s) := .outcome (.compare .pure) h

/-! ### Control -/

theorem Keeps.transfer {x0 link} (hlink : Keeps link) : Keeps (transfer x0 link) := .bind .checkTarget fun _ => .bind hlink fun _ => .jumpTo

theorem Result.Canonical.execB {f} (h : s.Canonical) : Result.Canonical (execB f s) := .outcome (.issue (.bind .thisPc fun _ => .transfer .pure)) h

theorem Result.Canonical.execBp {f} (h : s.Canonical) : Result.Canonical (execBp f s) :=
  .outcome (.issue (.bind .self fun _ => .ite (.bind .thisPc fun _ => .transfer .pure) .finish)) h

theorem Keeps.linkTo {f r} : Keeps (linkTo f r) := .bind .thisPc fun _ => .writeX

theorem Result.Canonical.execCall {f} (h : s.Canonical) : Result.Canonical (execCall f s) :=
  .outcome (.issue (.bind .thisPc fun _ => .transfer .linkTo)) h

theorem Result.Canonical.execCalli {f} (h : s.Canonical) : Result.Canonical (execCalli f s) :=
  .outcome (.issue (.bind .operandX fun _ => .transfer .linkTo)) h

theorem Keeps.jumpReg {f} : Keeps (jumpReg f) := .issue (.bind .operandX fun _ => .transfer .pure)

theorem Result.Canonical.execJmpi {f} (h : s.Canonical) : Result.Canonical (execJmpi f s) := .outcome .jumpReg h

theorem Result.Canonical.execRet {f} (h : s.Canonical) : Result.Canonical (execRet f s) := .outcome .jumpReg h

theorem Keeps.stopHere {cause extra addr} : Keeps (stopHere cause extra addr : Act α) :=
  .bind .me fun _ => .bind .thisPc fun _ => .bind (.editS fun h => h.stopStrand.stepEnds) fun _ => .stopWith

theorem Result.Canonical.execThrow {f} (h : s.Canonical) : Result.Canonical (execThrow f s) :=
  .outcome (.issue (.bind .operandX fun _ => .bind .self fun _ => .bind .readS fun _ => .when .trapWord (.bind (.checkTargetWith
    .stopHere) fun _ => .bind .thisPc fun _ => .bind .writeX fun _ => .bind .writeX fun _ => .bind .editSelf fun _ => .jumpTo))) h

theorem Keeps.predicate {k f body} (hbody : Keeps body) : Keeps (predicate k f body) := .fixed (.bind .reloadVec fun _ => hbody)

theorem Keeps.lanes {f mask} (hmask : Keeps mask) : Keeps (lanes f mask) := .predicate (.when .bindVec (.bind hmask fun _ => .editSelf))

theorem Result.Canonical.execPlim {f} (h : s.Canonical) : Result.Canonical (execPlim f s) := .outcome (.lanes (.bind .operandB fun _ => .pure)) h

theorem Result.Canonical.execPwhile {f} (h : s.Canonical) : Result.Canonical (execPwhile f s) :=
  .outcome (.lanes (.bind .operandX fun _ => .bind .operandB fun _ => .pure)) h

theorem Keeps.predOp {f op} : Keeps (predOp f op) := .predicate .editSelf

theorem Result.Canonical.execPand {f} (h : s.Canonical) : Result.Canonical (execPand f s) := .outcome .predOp h

theorem Result.Canonical.execPor {f} (h : s.Canonical) : Result.Canonical (execPor f s) := .outcome .predOp h

theorem Result.Canonical.execPxor {f} (h : s.Canonical) : Result.Canonical (execPxor f s) := .outcome .predOp h

theorem Result.Canonical.execPnot {f} (h : s.Canonical) : Result.Canonical (execPnot f s) := .outcome (.predicate .editSelf) h

theorem Result.Canonical.execPfirst {f} (h : s.Canonical) : Result.Canonical (execPfirst f s) := .outcome (.lanes (.bind .self fun _ => .pure)) h

theorem Result.Canonical.execPcnt {f} (h : s.Canonical) : Result.Canonical (execPcnt f s) := .outcome (.predicate (.bind .self fun _ => .writeX)) h

theorem Result.Canonical.execPmovxRd {f} (h : s.Canonical) : Result.Canonical (execPmovxRd f s) :=
  .outcome (.predicate (.bind .self fun _ => .writeX)) h

theorem Result.Canonical.execPmovxWr {f} (h : s.Canonical) : Result.Canonical (execPmovxWr f s) :=
  .outcome (.predicate (.bind .operandX fun _ => .editSelf)) h

theorem Result.Canonical.execVwid {f} (h : s.Canonical) : Result.Canonical (execVwid f s) := .outcome (.predicate .writeX) h

/-! ### VectorOps -/

theorem Keeps.vreg {w r dist} : Keeps (vreg w r dist) := by
  unfold Machine.vreg
  refine .bind .operandV fun _ => ?_
  split
  exact .pure

theorem Keeps.scalarFp {f code env} : Keeps (scalarFp f code env) := by
  unfold Machine.scalarFp
  dsimp only
  split
  · exact .pure
  · exact .ite .pure (.bind .constant fun _ => .pure)

theorem Keeps.srcBfp {f code env} : Keeps (srcBfp f code env) := by
  unfold Machine.srcBfp
  refine .ite .vreg (.bind .scalarFp fun _ => ?_)
  split
  exact .pure

theorem Keeps.srcBint {f w} : Keeps (srcBint f w) := .ite .vreg (.bind .operandB fun _ => .pure)

theorem Keeps.scalarAny {f code} : Keeps (scalarAny f code) := .ite (.bind .fpEnv fun _ => .scalarFp) (.bind .operandB fun _ => .pure)

theorem Keeps.checkTags {l} : Keeps (checkTags l) := .ite .pure .trapPlain

theorem Keeps.vectorStart {f} : Keeps (vectorStart f) := .bind .bindVec fun _ => .destV

theorem Keeps.oldElems {f w} : Keeps (oldElems f w) := by
  unfold Machine.oldElems
  refine .ite .pure (.bind .readV fun _ => ?_)
  split
  exact .pure

theorem Keeps.actives {f w} : Keeps (actives f w) := .bind .self fun _ => .pure

theorem Keeps.deliver {f w tag old res scalar} : Keeps (deliver f w tag old res scalar) :=
  .bind .actives fun _ => .bind .writeV fun _ => .raiseFlags

/-! ### VectorMem -/

theorem State.Canonical.elemCheck {st c va n} (h : s.Canonical) : (s.elemCheck st c va n).2.Canonical := by
  unfold State.elemCheck
  split
  · next e => exact .snd e h.accessProblem
  · next e =>
    have h' := State.Canonical.snd e h.accessProblem
    exact .ite_snd h' h'

theorem State.Canonical.checkElems {st c n} {l : List (Nat × Word)} (h : s.Canonical) : (checkElems st c n l s).2.Canonical := by
  induction l generalizing s with
  | nil => exact h
  | cons e l ih =>
    unfold Machine.checkElems
    split
    · exact .snd ‹_› h.elemCheck
    · exact ih (.snd ‹_› h.elemCheck)

theorem Keeps.raiseElem {va e} : Keeps (raiseElem va e : Act α) := by
  unfold Machine.raiseElem
  split
  · exact .raise
  · exact .trapWord

theorem Keeps.hearElems {c es} : Keeps (hearElems c es) := .bind .self fun _ => .bind .readS fun _ => .heedAccess

theorem Keeps.loadElems {n} {l : List Elem} : Keeps (loadElems n l) := by
  induction l with
  | nil => exact .pure
  | cons e l ih => exact .bind .loadBytes fun _ => .bind ih fun _ => .pure

theorem Keeps.raiseRead {c x a} : Keeps (raiseRead c x a : Act α) := by
  unfold Machine.raiseRead
  split
  · exact .trapAt
  · exact .trapWord

theorem Keeps.gatherElems_take {ff u st n es limit} : Keeps (gatherElems.take ff u st n es limit) := by
  unfold Machine.gatherElems.take
  refine .bind .hearElems fun _ => .bind .readS fun _ => ?_
  split
  split
  · exact .ite .raiseRead (.bind .loadElems fun _ => .pure)
  · exact .bind .loadElems fun _ => .pure

theorem Keeps.gatherElems {w ff act vas} : Keeps (gatherElems w ff act vas) := by
  unfold Machine.gatherElems
  refine .bind .me fun _ => .bind .self fun _ => .bind (.stateS .checkElems) fun _ => ?_
  split
  split
  · exact .ite .raiseElem .gatherElems_take
  · exact .gatherElems_take

theorem Keeps.pushLoad {f bits} : Keeps (pushLoad f bits) := .editSelf

theorem Keeps.unitAddrs {f w} : Keeps (unitAddrs f w) := .bind .operandX fun _ => .pure

theorem Keeps.strideAddrs {f w} : Keeps (strideAddrs f w) := .bind .operandX fun _ => .bind .operandB fun _ => .pure

theorem Keeps.indexAddrs {f w} : Keeps (indexAddrs f w) :=
  .bind .inAccess fun _ => .when .bindVec (.bind .operandX fun _ => .bind .vreg fun _ => .pure)

theorem Keeps.Addrs_heedTag {a} : Keeps (Addrs.heedTag a) := .need .trapPlain

theorem Keeps.Addrs_heedAligned {a act} : Keeps (Addrs.heedAligned a act) := by
  unfold Machine.Addrs.heedAligned
  split
  · exact .need .trapWord
  · exact .pure

theorem Keeps.vectorLoad {k f ff addrs} (haddrs : ∀ x, Keeps (addrs x)) : Keeps (vectorLoad k f ff addrs) := by
  unfold Machine.vectorLoad
  refine .issue (.bind .inAccess fun _ => .bind .self fun _ => .ite ?_ ?_)
  · refine .when .trapExtra (.when .park (.bind (haddrs _) fun _ => .bind .Addrs_heedTag fun _ => .bind .Addrs_heedAligned fun _ =>
      .bind .gatherElems fun _ => ?_))
    split
    exact .bind .pushLoad fun _ => .finishReply
  · refine .bind .bindVec fun _ => .bind (haddrs _) fun _ => .bind .oldElems fun _ => .bind .Addrs_heedTag fun _ => .bind .actives fun _ =>
      .ite (.bind .writeV fun _ => .finish) (.bind .Addrs_heedAligned fun _ => .bind .gatherElems fun _ => ?_)
    split
    refine .bind .writeV fun _ => ?_
    dsimp only
    split
    · exact .bind .editSelf fun _ => .finishReply
    · exact .finishReply

theorem Keeps.storeGroup {g} : Keeps (storeGroup g) := by
  have stored {l : Group} {p} {s : State} (h : s.Canonical) : State.Canonical
      { s with mem := l.foldl (fun m (d : Elem × List (BitVec 8)) => Memory.setBytes m d.1.x.pa d.2) s.mem, poison := p } :=
    ⟨Memory.wf_foldl (fun _ _ => Memory.wf_setBytes _ _) _ h.mem⟩
  unfold Machine.storeGroup
  split
  · exact .pure
  · refine .bind .me fun _ => .bind .self fun _ => .bind .readS fun _ => ?_
    split
    · exact .editS fun h => (h.foldl .swmWrite).swmWhole.noteVt
    · refine .ite (.bind (.editS fun h => h.getM.foldl .stampWords) fun _ => ?_) ?_
      all_goals exact .bind .readS fun _ => .ite (.editS .localError) (.editS fun h => (stored h).noteVt.foldl .written)

theorem Keeps.storeGroups {l : List Group} : Keeps (storeGroups l) := by
  induction l with
  | nil => exact .pure
  | cons g l ih => exact .bind .storeGroup fun _ => ih

theorem Keeps.zeroWrite {va} : Keeps (zeroWrite va) := by
  unfold Machine.zeroWrite
  refine .bind .me fun _ => .bind .self fun _ => .bind (.stateS .accessProblem) fun _ => ?_
  split
  · exact .raiseElem
  · exact .bind .readS fun _ => .bind .heedHome fun _ => .editS .noteVt

theorem Keeps.scatterElems {w act vas data} : Keeps (scatterElems w act vas data) := by
  unfold Machine.scatterElems
  refine .ite .zeroWrite (.bind .me fun _ => .bind .self fun _ => .bind (.stateS .checkElems) fun _ => ?_)
  split
  dsimp only
  split
  · refine .bind .raiseElem fun _ => .bind .hearElems fun _ => .bind .readS fun _ => ?_
    split
    · refine .bind .trapWord fun _ => ?_
      split
      · exact .bind .trapWord fun _ => .bind (.editS fun h => h.foldl .markDirty) fun _ => .storeGroups
      · exact .bind (.editS fun h => h.foldl .markDirty) fun _ => .storeGroups
    · split
      · exact .bind .trapWord fun _ => .bind (.editS fun h => h.foldl .markDirty) fun _ => .storeGroups
      · exact .bind (.editS fun h => h.foldl .markDirty) fun _ => .storeGroups
  · refine .bind .hearElems fun _ => .bind .readS fun _ => ?_
    split
    · refine .bind .trapWord fun _ => ?_
      split
      · exact .bind .trapWord fun _ => .bind (.editS fun h => h.foldl .markDirty) fun _ => .storeGroups
      · exact .bind (.editS fun h => h.foldl .markDirty) fun _ => .storeGroups
    · split
      · exact .bind .trapWord fun _ => .bind (.editS fun h => h.foldl .markDirty) fun _ => .storeGroups
      · exact .bind (.editS fun h => h.foldl .markDirty) fun _ => .storeGroups

theorem Keeps.pushStore {f} : Keeps (pushStore f) := by
  unfold Machine.pushStore
  refine .bind .bindVec fun _ => .bind .self fun _ => .when .park (.bind .readV fun _ => ?_)
  split
  exact .editSelf

theorem Keeps.vectorStore {f addrs} (haddrs : ∀ x, Keeps (addrs x)) : Keeps (vectorStore f addrs) := by
  unfold Machine.vectorStore
  refine .issue (.bind .inAccess fun _ => .bind .self fun _ => ?_)
  split
  · refine .bind (haddrs _) fun _ => ?_
    split
    · exact .park
    · exact .bind .Addrs_heedTag fun _ => .bind .Addrs_heedAligned fun _ => .bind .scatterElems fun _ => .bind .editSelf fun _ => .finishReply
  · exact .bind .pushStore fun _ => .finish
  · refine .bind .bindVec fun _ => .bind (haddrs _) fun _ => .bind .readV fun _ => ?_
    split
    exact .bind .Addrs_heedTag fun _ => .bind .actives fun _ => .bind .Addrs_heedAligned fun _ => .bind .scatterElems fun _ => .finishReply

theorem Result.Canonical.execVld {f} (h : s.Canonical) : Result.Canonical (execVld f s) := .outcome (.vectorLoad fun _ => .unitAddrs) h

theorem Result.Canonical.execVlds {f} (h : s.Canonical) : Result.Canonical (execVlds f s) := .outcome (.vectorLoad fun _ => .strideAddrs) h

theorem Result.Canonical.execVgath {f} (h : s.Canonical) : Result.Canonical (execVgath f s) := .outcome (.vectorLoad fun _ => .indexAddrs) h

theorem Result.Canonical.execVldff {f} (h : s.Canonical) : Result.Canonical (execVldff f s) := .outcome (.vectorLoad fun _ => .unitAddrs) h

theorem Result.Canonical.execVst {f} (h : s.Canonical) : Result.Canonical (execVst f s) := .outcome (.vectorStore fun _ => .unitAddrs) h

theorem Result.Canonical.execVsts {f} (h : s.Canonical) : Result.Canonical (execVsts f s) := .outcome (.vectorStore fun _ => .strideAddrs) h

theorem Result.Canonical.execVscat {f} (h : s.Canonical) : Result.Canonical (execVscat f s) := .outcome (.vectorStore fun _ => .indexAddrs) h

/-! ### Loops -/

theorem Keeps.loopsOf : Keeps (loopsOf) := by
  unfold Machine.loopsOf
  refine .bind .self fun _ => .bind .inAccess fun _ => ?_
  split <;> exact .pure

theorem Keeps.setLoops {l} : Keeps (setLoops l) := .bind .inAccess fun _ => .editSelf

theorem Keeps.branchOutcome {taken} : Keeps (branchOutcome taken) := by
  unfold Machine.branchOutcome
  refine .bind .self fun _ => .bind .inAccess fun _ => ?_
  split
  · exact .pure
  · exact .when .park .pure
  · split
    · exact .park
    · exact .pure

theorem Keeps.branchDone {taken} : Keeps (branchDone taken) := .bind .inAccess fun _ => .editSelf

theorem Keeps.branch {taken target jumps falls} (hjumps : Keeps jumps) (hfalls : Keeps falls) : Keeps (branch taken target jumps falls) :=
  .bind .branchOutcome fun _ => .ite (.bind .checkTarget fun _ => .bind .branchDone fun _ => .bind hjumps fun _ =>
    .jumpTo) (.bind .branchDone fun _ => hfalls)

theorem Keeps.branchOperand {f} : Keeps (branchOperand f) := .bind .self fun _ => .bind .inAccess fun _ => .ite .pure .operandX

theorem Keeps.labelOf {f} : Keeps (labelOf f) := .bind .thisPc fun _ => .pure

theorem Result.Canonical.execLoop {f} (h : s.Canonical) : Result.Canonical (execLoop f s) := by
  unfold Machine.execLoop
  refine .outcome (.issue (.bind .branchOperand fun _ => .bind .thisPc fun _ => .bind .labelOf fun _ => .bind .loopsOf fun _ =>
    .when .trapExtra (.bind .branchOutcome fun _ => ?_))) h
  exact .ite (.bind .branchDone fun _ => .bind .setLoops fun _ => .finish) (.bind .checkTarget fun _ => .bind .branchDone fun _ => .jumpTo)

theorem Result.Canonical.execLend {f} (h : s.Canonical) : Result.Canonical (execLend f s) := by
  unfold Machine.execLend
  refine .outcome (.issue (.bind .thisPc fun _ => .bind .loopsOf fun _ => ?_)) h
  split
  · exact .trapExtra
  · exact .when .trapExtra (.branch .setLoops (.bind .setLoops fun _ => .finish))

theorem Result.Canonical.execLbrk {f} (h : s.Canonical) : Result.Canonical (execLbrk f s) := by
  unfold Machine.execLbrk
  refine .outcome (.issue (.ite ?_ ?_)) h
  · refine .bind .pure fun _ => .bind .loopsOf fun _ => ?_
    split
    · exact .trapExtra
    · exact .branch .setLoops .finish
  · refine .bind .branchOperand fun _ => .bind .loopsOf fun _ => ?_
    split
    · exact .trapExtra
    · exact .branch .setLoops .finish

theorem Result.Canonical.execQbr {f} (h : s.Canonical) : Result.Canonical (execQbr f s) :=
  .outcome (.issue (.bind .self fun _ => .when .trapExtra (.bind .branchOperand fun _ => .bind .labelOf fun _ => .branch .pure .finish))) h

theorem Result.Canonical.execDsplit {f} (h : s.Canonical) : Result.Canonical (execDsplit f s) :=
  .outcome (.issue (.bind .me fun _ => .bind .self fun _ => .when .trapExtra (.bind .readS fun _ =>
    .ite (.when .park (.bind (.editS fun h => h.update rfl) fun _ => .when .park (.bind .editSelf fun _ =>
    .finish))) (.when .park (.bind .editSelf fun _ => .finish))))) h

theorem Result.Canonical.execDjoin {f} (h : s.Canonical) : Result.Canonical (execDjoin f s) := by
  unfold Machine.execDjoin
  refine .outcome (.issue (.bind .me fun _ => .bind .self fun _ => .bind .inAccess fun _ => ?_)) h
  split
  · exact .trapExtra
  · exact .editSelf
  · exact .when .park (.when .trapExtra (.bind (.editS .endRegion) fun _ => .finish))

theorem Result.Canonical.execQpush {f} (h : s.Canonical) : Result.Canonical (execQpush f s) := by
  unfold Machine.execQpush
  refine .outcome (.issue (.bind .self fun _ => ?_)) h
  split
  · exact .trapExtra
  · exact .bind .inAccess fun _ => .ite (.bind .operandX fun _ => .when .park (.bind .pushLoad fun _ => .finish)) .finish

theorem Result.Canonical.execQpop {f} (h : s.Canonical) : Result.Canonical (execQpop f s) := by
  unfold Machine.execQpop
  refine .outcome (.issue (.bind .self fun _ => .when .trapExtra (.bind .inAccess fun _ => .ite ?_ ?_))) h
  · refine .bind .bindVec fun _ => .bind .readV fun _ => ?_
    split
    exact .bind .writeV fun _ => .finish
  · exact .finish

/-! ### Engines -/

theorem Keeps.newCommand {k regs tile fmtA fmtB fmt m rnd} : Keeps (newCommand k regs tile fmtA fmtB fmt m rnd) :=
  .bind .me fun _ => .bind .self fun _ => .bind .thisPc fun _ => .bind .inAccess fun _ => .bind .readS fun _ => .pure

theorem Keeps.takePermit {e} : Keeps (takePermit e) := .bind .self fun _ => .bind .readS fun _ => .ite .park .pure

theorem Keeps.enqueue {c} : Keeps (enqueue c) := .bind .self fun _ => .editS fun h => (h.update rfl)

theorem Keeps.enqueueTicket {f c} : Keeps (enqueueTicket f c) :=
  .bind .self fun _ => .bind .takePermit fun _ => .bind .readS fun _ => .bind (.editS fun h => h.update rfl) fun _ => .bind .enqueue fun _ => .writeX

theorem Keeps.commandOf {e regs} : Keeps (commandOf e regs) := by
  unfold Machine.commandOf
  dsimp only
  split
  · exact .pure
  · exact .ite .pure (.bind .newCommand fun _ => .bind .self fun _ => .ite .pure (.ite .pure .pure))

theorem Keeps.claimShadow {e} : Keeps (claimShadow e) := by
  unfold Machine.claimShadow
  refine .bind .me fun _ => .bind .self fun _ => .bind .readS fun _ => ?_
  split
  · exact .ite .park .pure
  · exact .editS fun h => (h.update rfl)

theorem Keeps.releaseShadow {e} : Keeps (releaseShadow e) := .bind .me fun _ => .bind .self fun _ => .editS fun h => (h.update rfl)

theorem Keeps.setShadow {e i v} : Keeps (setShadow e i v) :=
  .bind .self fun _ => .bind .claimShadow fun _ => .ite (.editS fun h => h.update rfl) .pure

theorem Keeps.shadowCommit {f e mk} (hmk : ∀ x, Keeps (mk x)) : Keeps (shadowCommit f e mk) := by
  unfold Machine.shadowCommit
  refine .bind .me fun _ => .bind .self fun _ => .bind .readS fun _ => .ite (.bind .writeX fun _ => .editS .release) (.bind ((hmk _)) fun _ => ?_)
  split
  · exact .bind .releaseShadow fun _ => .bind .writeX fun _ => .editS .release
  · exact .bind .enqueueTicket fun _ => .bind .releaseShadow fun _ => .editS .release

theorem Keeps.readZ {r} : Keeps (readZ r) := .bind .self fun _ => .pure

theorem Keeps.needTile {x0} : Keeps (needTile x0) := .need .illegalForm

theorem Keeps.commitOwn {f k tile edit} : Keeps (commitOwn f k tile edit) :=
  .shadowCommit (fun _ => .bind .self fun _ => .bind .newCommand fun _ => .pure)

theorem Result.Canonical.execGang {f} (h : s.Canonical) : Result.Canonical (execGang f s) :=
  .outcome (.issue (.bind .readZ fun _ => .bind .operandB fun _ => .bind (.need .trapPlain) fun _ => .bind .needTile fun _ =>
    .bind .commitOwn fun _ => .finish)) h

theorem Result.Canonical.execMma {f} (h : s.Canonical) : Result.Canonical (execMma f s) :=
  .outcome (.issue (.bind .readZ fun _ => .bind (.need .trapPlain) fun _ => .bind .needTile fun _ => .bind .commitOwn fun _ => .finish)) h

theorem Result.Canonical.execMprog {f} (h : s.Canonical) : Result.Canonical (execMprog f s) :=
  .outcome (.issue (.bind .operandB fun _ => .bind (.need .illegalForm) fun _ => .bind .setShadow fun _ => .finish)) h

theorem Result.Canonical.execMzero {f} (h : s.Canonical) : Result.Canonical (execMzero f s) :=
  .outcome (.issue (.bind .readZ fun _ => .bind .needTile fun _ => .bind .takePermit fun _ => .bind .newCommand fun _ =>
    .bind .enqueue fun _ => .finish)) h

theorem Result.Canonical.execMrd {f} (h : s.Canonical) : Result.Canonical (execMrd f s) :=
  .outcome (.issue (.bind .destV fun _ => .bind .bindVec fun _ => .bind .readZ fun _ => .bind .operandB fun _ => .bind .needTile fun _ =>
    .bind .takePermit fun _ => .bind .newCommand fun _ => .bind .enqueue fun _ => .bind .editSelf fun _ => .finish)) h

theorem Result.Canonical.execMwr {f} (h : s.Canonical) : Result.Canonical (execMwr f s) := by
  unfold Machine.execMwr
  refine .outcome (.issue (.bind .bindVec fun _ => .bind .readZ fun _ => .bind .operandV fun _ => ?_)) h
  split
  exact .bind .operandB fun _ => .bind (.need .trapPlain) fun _ => .bind .needTile fun _ => .bind .takePermit fun _ =>
    .bind .newCommand fun _ => .bind .enqueue fun _ => .finish

theorem Result.Canonical.execCbook {f} (h : s.Canonical) : Result.Canonical (execCbook f s) :=
  .outcome (.issue (.bind .commitOwn fun _ => .finish)) h

theorem Result.Canonical.execMst {f} (h : s.Canonical) : Result.Canonical (execMst f s) :=
  .outcome (.issue (.bind .readZ fun _ => .bind .needTile fun _ => .bind (.need .trapPlain) fun _ => .bind .commitOwn fun _ => .finish)) h

theorem Result.Canonical.execCpy {f} (h : s.Canonical) : Result.Canonical (execCpy f s) :=
  .outcome (.issue (.bind (.shadowCommit (fun _ => .bind .self fun _ => .bind .newCommand fun _ => .pure)) fun _ => .finish)) h

theorem Result.Canonical.execCpyrow {f} (h : s.Canonical) : Result.Canonical (execCpyrow f s) :=
  .outcome (.issue (.bind .commitOwn fun _ => .finish)) h

theorem Result.Canonical.execCpyr {f} (h : s.Canonical) : Result.Canonical (execCpyr f s) :=
  .outcome (.issue (.when .bindVec (.bind .operandX fun _ => .bind .checkAccess fun _ => .bind .takePermit fun _ =>
    .bind .newCommand fun _ => .bind .enqueue fun _ => .bind .editSelf fun _ => .finish))) h

theorem Result.Canonical.execEset {f} (h : s.Canonical) : Result.Canonical (execEset f s) :=
  .outcome (.issue (.bind .operandB fun _ => .ite (.bind (.need .illegalForm) fun _ => .bind .editSelf fun _ =>
    .finish) (.bind .setShadow fun _ => .finish))) h

theorem Result.Canonical.execEget {f} (h : s.Canonical) : Result.Canonical (execEget f s) := by
  unfold Machine.execEget
  refine .outcome (.issue (.bind .self fun _ => .ite (.bind .pure fun _ => .bind .writeX fun _ => .finish) (.ite ?_ ?_))) h
  · refine .bind .readS fun _ => .when .park ?_
    split
    · exact .bind .pure fun _ => .bind .writeX fun _ => .finish
    · exact .bind .freeValue fun _ => .bind .writeX fun _ => .finish
  · exact .bind .readS fun _ => .bind .pure fun _ => .bind .writeX fun _ => .finish

theorem Result.Canonical.execEgo {f} (h : s.Canonical) : Result.Canonical (execEgo f s) :=
  .outcome (.issue (.bind (.shadowCommit (fun _ => .bind .commandOf fun _ => .pure)) fun _ => .finishReply)) h

theorem Result.Canonical.execIter {f} (h : s.Canonical) : Result.Canonical (execIter f s) := by
  unfold Machine.execIter
  refine .outcome (.issue (.bind .me fun _ => .bind .operandX fun _ => .bind .checkAccess fun _ => .bind .loadBytes fun _ =>
    .bind .checkAccess fun _ => .bind .loadBytes fun _ => .bind .commandOf fun _ => ?_)) h
  dsimp only
  split
  · exact .bind .writeX fun _ => .bind (.editS .release) fun _ => .finishReply
  · exact .bind .enqueueTicket fun _ => .bind (.editS .release) fun _ => .finishReply

theorem State.Canonical.cancelCmd {core c} (h : s.Canonical) : (s.cancelCmd core c).Canonical :=
  .ite h (.ite (.tryEnd (h.update rfl)) (.ite (.tryEnd (h.update rfl)) (h.update rfl)))

theorem Result.Canonical.execEcan {f} (h : s.Canonical) : Result.Canonical (execEcan f s) := by
  unfold Machine.execEcan
  refine .outcome (.issue (.bind .self fun _ => .bind .operandX fun _ => .bind .readS fun _ => ?_)) h
  dsimp only
  split
  · exact .bind .writeX fun _ => .finish
  · exact .bind (.editS .cancelCmd) fun _ => .bind .writeX fun _ => .finish

theorem Result.Canonical.execEqry {f} (h : s.Canonical) : Result.Canonical (execEqry f s) :=
  .outcome (.issue (.bind .self fun _ => .bind .operandX fun _ => .bind .readS fun _ => .bind .writeX fun _ => .finish)) h

theorem State.Canonical.rearm {core c ctx} (h : s.Canonical) : (s.rearm core c ctx).2.Canonical := by
  unfold State.rearm
  refine .ite_snd h ?_
  split
  · next e => exact .snd e h.cwordPlace
  · next e => exact .snd e h.cwordPlace
  · next e =>
    have h' := State.Canonical.snd e h.cwordPlace
    exact .inSnd (.ite h'.store.written (.written (.update h'.store rfl)))

theorem Result.Canonical.execMres {f} (h : s.Canonical) : Result.Canonical (execMres f s) := by
  unfold Machine.execMres
  refine .outcome (.issue (.bind .self fun _ => .bind .operandX fun _ => .bind (.need .illegalForm) fun _ => .bind .readS fun _ => ?_)) h
  dsimp only
  split
  · exact .bind .writeX fun _ => .finish
  · refine .ite (.bind .writeX fun _ => .finish) (.bind .readS fun _ => .bind (.need .trapPlain) fun _ => .bind (.editS fun h =>
      h.update rfl) fun _ => .bind (.stateS .rearm) fun _ => ?_)
    split
    · exact .bind .park fun _ => .bind (.editS fun h => h.update rfl) fun _ => .bind .writeX fun _ => .finish
    · exact .bind (.editS fun h => h.update rfl) fun _ => .bind .writeX fun _ => .finish

/-! ### EngineRun -/

theorem State.Canonical.engineTurn {core e} {run : State → State} (h : s.Canonical) (hr : ∀ {s}, s.Canonical → (run s).Canonical) :
    (s.engineTurn core e run).Canonical := by
  unfold State.engineTurn
  split
  · exact hr h
  · exact .ite h h.tryEnd

theorem State.Canonical.startCmd {core c bad next} (h : s.Canonical) : (s.startCmd core c bad next).Canonical := by
  unfold State.startCmd
  refine .ite h ?_
  split
  · exact h.failCmd
  · exact h.update rfl

theorem State.Canonical.checkB {core c} (h : s.Canonical) : (s.checkB core c).2.Canonical := by
  unfold State.checkB
  split
  · next e => exact .snd e h.checkRuns
  · next e =>
    have h' := State.Canonical.snd e h.checkRuns
    split
    · next e1 => exact .snd e1 h'.checkRuns
    · next e1 => exact .snd e1 h'.checkRuns

theorem State.Canonical.checkA {core c} (h : s.Canonical) : (s.checkA core c).2.Canonical := h.checkRuns

theorem State.Canonical.checkBlock {core c} (h : s.Canonical) : (s.checkBlock core c).2.Canonical := by
  unfold State.checkBlock
  split
  · next e => exact .snd e h.checkA
  · next e =>
    have h' := State.Canonical.snd e h.checkA
    split
    · next e1 => exact .snd e1 h'.checkB
    · next e1 => exact .snd e1 h'.checkB

theorem State.Canonical.doBlock {core c d} (h : s.Canonical) : (s.doBlock core c d).Canonical := h.update rfl

theorem State.Canonical.gangChecks {reader} {l : List (Nat × Command)} (h : s.Canonical) : (s.gangChecks reader l).2.Canonical := by
  induction l generalizing s with
  | nil => exact h
  | cons d l ih =>
    refine ih (.ite_snd h.checkBlock ?_)
    split
    · exact .snd ‹_› h.checkB
    · exact .snd ‹_› h.checkB

theorem State.Canonical.failEach {l} (h : s.Canonical) : (s.failEach l).Canonical := by
  unfold State.failEach
  refine State.Canonical.foldl h fun h1 => ?_
  split
  exact h1.failCmd

theorem State.Canonical.gangBlock {core c} (h : s.Canonical) : (s.gangBlock core c).Canonical := by
  unfold State.gangBlock
  have checked {reader l} := h.gangChecks (reader := reader) (l := l)
  refine State.Canonical.ite checked.failEach ?_
  split
  · next e =>
    have asked := State.Canonical.snd e checked.askEach
    split
    · exact asked.engineWait
    · exact asked
  · next e =>
    have asked := State.Canonical.snd e checked.askEach
    split
    · exact asked.foldl .doBlock
    · exact asked.failEach

theorem State.Canonical.sumOn {core c} (h : s.Canonical) : (s.sumOn core c).Canonical := .endCmd (.ite h (h.update rfl))

theorem State.Canonical.productDone {core c} (h : s.Canonical) : (s.productDone core c).Canonical := .ite (.ite h.sumOn (h.update rfl)) h.endCmd

theorem State.Canonical.runProduct {core} (h : s.Canonical) : (s.runProduct core).Canonical := by
  unfold State.runProduct
  split
  · exact h
  · split
    · exact h.startCmd
    · refine .ite h.productDone (.ite h.gangBlock ?_)
      split
      · next e2 => exact .failCmd (.snd e2 h.checkBlock)
      · next e2 =>
        have h₂ := State.Canonical.snd e2 h.checkBlock
        split
        · next e3 => exact .failCmd (.snd e3 h₂.heardAt)
        · next e3 => exact .update (.snd e3 h₂.heardAt) rfl
    · exact h

theorem Result.Canonical.execMatrixCommandRun {core} (h : s.Canonical) : Result.Canonical (execMatrixCommandRun core s) :=
  .next (h.engineTurn .runProduct)

theorem State.Canonical.passBarrier {core} (h : s.Canonical) : (s.passBarrier core).Canonical := by
  unfold State.passBarrier
  split
  · exact h
  · exact .ite h (.ite (h.foldl .failCmd) (.update (h.foldl fun h => .ite h.putCmd.editCore h.putCmd) rfl))

theorem Result.Canonical.execGangBarrier {core} (h : s.Canonical) : Result.Canonical (execGangBarrier core s) := .next (h.engineTurn .passBarrier)

theorem State.Canonical.takeSum {core} (h : s.Canonical) : (s.takeSum core).Canonical := by
  unfold State.takeSum
  split
  · exact .ite h (.sumOn (h.update rfl))
  · exact h

theorem Result.Canonical.execKsplitSumArrival {core} (h : s.Canonical) : Result.Canonical (execKsplitSumArrival core s) :=
  .next (h.engineTurn .takeSum)

theorem State.Canonical.giveV {u r bits tag} (h : s.Canonical) : (s.giveV u r bits tag).Canonical := h.editStrand

theorem State.Canonical.runTile {core} (h : s.Canonical) : (s.runTile core).Canonical := by
  unfold State.runTile
  split
  · exact h
  · refine .ite h (.endCmd ?_)
    split
    · exact h.update rfl
    · exact h.giveV
    · exact h.update rfl

theorem Result.Canonical.execTileCommandRun {core} (h : s.Canonical) : Result.Canonical (execTileCommandRun core s) := .next (h.engineTurn .runTile)

theorem State.Canonical.classifyCmd {core c} (h : s.Canonical) : (s.classifyCmd core c).2.Canonical := by
  unfold State.classifyCmd
  split
  · next e => exact .snd e h.translate
  · next e => exact .snd e h.translate
  · next e => exact .snd e h.translate

theorem State.Canonical.classed {core c} {k : State → Command → State} (h : s.Canonical) (hk : ∀ {s c}, s.Canonical → (k s c).Canonical) :
    (s.classed core c k).Canonical := by
  unfold State.classed
  split
  · exact hk h
  · split
    · exact hk (.snd ‹_› h.classifyCmd)
    · exact .engineWait (.snd ‹_› h.classifyCmd)

theorem State.Canonical.startCopy {core c bad} (h : s.Canonical) : (s.startCopy core c bad).Canonical := .ite h (h.classed .startCmd)

theorem State.Canonical.runMst {core} (h : s.Canonical) : (s.runMst core).Canonical := by
  unfold State.runMst
  split
  · exact h
  · refine .ite h.startCopy (.ite h.endCmd (h.classed fun h1 => ?_))
    split
    split
    · next e2 => exact .failCmd (.snd e2 h1.takeRun)
    · next e2 => exact .update (.writeChunks (.snd e2 h1.takeRun)) rfl

theorem Result.Canonical.execMstRun {core} (h : s.Canonical) : Result.Canonical (execMstRun core s) := .next (h.engineTurn .runMst)

theorem State.Canonical.copyRuns {core c} (h : s.Canonical) : (s.copyRuns core c).2.Canonical := by
  unfold State.copyRuns
  dsimp only
  split
  · next e => exact .snd e (.ite_snd h h.checkRun)
  · next e =>
    have h' := State.Canonical.snd e (.ite_snd h h.checkRun)
    split
    · next e1 => exact .snd e1 (.ite_snd h' h'.checkRun)
    · next e1 => exact .snd e1 (.ite_snd h' h'.checkRun)

theorem State.Canonical.copyRow {core c} (h : s.Canonical) : (s.copyRow core c).Canonical := by
  unfold State.copyRow
  split
  · next e => exact .failCmd (.snd e h.copyRuns)
  · next e =>
    have h' := State.Canonical.snd e h.copyRuns
    split
    · next e1 => exact .failCmd (.snd e1 h'.heardAt)
    · next e1 =>
      have h₁ := State.Canonical.snd e1 h'.heardAt
      exact .ite (.update h₁ rfl) (.update h₁.writeChunks rfl)

theorem State.Canonical.copyNothing {core c} (h : s.Canonical) : (s.copyNothing core c).Canonical := by
  unfold State.copyNothing
  refine .ite h.endCmd ?_
  split
  · next e => exact .failCmd (.snd e h.engineChunk)
  · next e =>
    have h' := State.Canonical.snd e h.engineChunk
    split
    · next e1 => exact .failCmd (.snd e1 h'.heardAt)
    · next e1 => exact .endCmd (.noteVt (.snd e1 h'.heardAt))

theorem State.Canonical.runCopy {core} (h : s.Canonical) : (s.runCopy core).Canonical := by
  unfold State.runCopy
  split
  · exact h
  · exact .ite h.startCopy (.ite h.endCmd (h.classed fun h1 => .ite h1.copyNothing h1.copyRow))

theorem Result.Canonical.execCopyCommandRun {core} (h : s.Canonical) : Result.Canonical (execCopyCommandRun core s) := .next (h.engineTurn .runCopy)

theorem State.Canonical.landCpyr {c bytes} (h : s.Canonical) : (s.landCpyr c bytes).Canonical := .ite h.giveV h.editStrand

theorem State.Canonical.runCpyr {core} (h : s.Canonical) : (s.runCpyr core).Canonical := by
  unfold State.runCpyr
  split
  · exact h
  · dsimp only
    split
    · next e1 => exact .endCmd (.localError (.landCpyr (.snd e1 h.takeRun)))
    · next e1 => exact .failCmd (.snd e1 h.takeRun)
    · next e1 => exact .endCmd (.landCpyr (.snd e1 h.takeRun))

theorem Result.Canonical.execCpyrRun {core} (h : s.Canonical) : Result.Canonical (execCpyrRun core s) := .next (h.engineTurn .runCpyr)

theorem State.Canonical.rowOperand {core c va write} (h : s.Canonical) : (s.rowOperand core c va write).2.Canonical := by
  unfold State.rowOperand
  split
  · next e => exact .snd e h.checkRun
  · next e =>
    have h' := State.Canonical.snd e h.checkRun
    split
    · exact .ite_snd h' h'
    · exact h'

theorem State.Canonical.holdRows {core c src dst} (h : s.Canonical) : (s.holdRows core c src dst).Canonical := .update (h.foldl .cleanOwner) rfl

theorem State.Canonical.startRow {core c} (h : s.Canonical) : (s.startRow core c).Canonical := by
  unfold State.startRow
  have source : (if c.isFill then (.ok none, s)
        else match s.rowOperand core c (c.reg 0) false with
          | (.ok x, s) => (.ok (some x), s)
          | (.error e, s) => (.error e, s) : Except EngineStop (Option Xlat) × State).2.Canonical := by
    refine .ite_snd h ?_
    split
    · exact .snd ‹_› h.rowOperand
    · exact .snd ‹_› h.rowOperand
  refine .ite h ?_
  dsimp only
  split
  · exact h.failCmd
  · split
    · next e => exact .failCmd (.snd e source)
    · next e =>
      have h' := State.Canonical.snd e source
      split
      · exact .failCmd (.snd ‹_› h'.rowOperand)
      · next e =>
        have h' := State.Canonical.snd e h'.rowOperand
        have placed {on} := State.Canonical.ite (c := c.path.isSome) h' (.putCmd (core := core) (c := on) h')
        split
        · exact .failCmd (.snd ‹_› placed.askEach)
        · exact .putCmd (.holdRows (.markDirty (.snd ‹_› placed.askEach)))

theorem State.Canonical.copyMapRow {core c} (h : s.Canonical) : (s.copyMapRow core c).Canonical := by
  unfold State.copyMapRow
  refine .putCmd (State.Canonical.foldl (h.setBytes rfl) fun h1 => ?_)
  split
  exact h1.markFull

theorem State.Canonical.runRow {core} (h : s.Canonical) : (s.runRow core).Canonical := by
  unfold State.runRow
  split
  · exact h
  · refine .ite h.startRow (.ite ?_ ?_)
    · split
      · exact h.failCmd
      · exact h.copyMapRow
    · exact h.endCmd

theorem Result.Canonical.execCpyrowRun {core} (h : s.Canonical) : Result.Canonical (execCpyrowRun core s) := .next (h.engineTurn .runRow)

theorem State.Canonical.runBook {core} (h : s.Canonical) : (s.runBook core).Canonical := by
  unfold State.runBook
  split
  · exact h
  · refine .ite h.startCmd ?_
    split
    · next e1 => exact .failCmd (.snd e1 h.takeRun)
    · next e1 => exact .endCmd (.update (.snd e1 h.takeRun) rfl)

theorem Result.Canonical.execCbookRun {core} (h : s.Canonical) : Result.Canonical (execCbookRun core s) := .next (h.engineTurn .runBook)

/-! ### Deque -/

theorem State.Canonical.setScope {ctx n x} (h : s.Canonical) : (s.setScope ctx n x).Canonical := h.editCtx

theorem State.Canonical.scopeUp {ctx n} (h : s.Canonical) : (s.scopeUp ctx n).Canonical := h.setScope

theorem State.Canonical.wakeScope {ctx n} (h : s.Canonical) : (s.wakeScope ctx n).Canonical := h.foldl fun h1 => .ite h1.wake h1

theorem State.Canonical.scopeDown {ctx n} (h : s.Canonical) : (s.scopeDown ctx n).Canonical :=
  .ite h (.ite h.setScope (.ite h.setScope.wakeScope.setScope h.setScope.wakeScope))

theorem State.Canonical.popUp {lrec} (h : s.Canonical) : (s.popUp lrec).Canonical := h.editLaunch

theorem State.Canonical.popDown {lrec} (h : s.Canonical) : (s.popDown lrec).Canonical := h.editLaunch

theorem State.Canonical.unitPlace {core ctx unit va n write} (h : s.Canonical) : (s.unitPlace core ctx unit va n write).2.Canonical := by
  unfold State.unitPlace
  dsimp only
  split
  · refine .unitNotes ?_
    split
    · next e1 => exact .snd e1 (.ite_snd h.translateStore h.translate)
    · next e1 =>
      have h₁ := State.Canonical.snd e1 (.ite_snd h.translateStore h.translate)
      refine .ite_snd h₁ (.ite_snd h₁ (.ite_snd h₁ ?_))
      split
      · next e2 => exact .snd e2 h₁.askHome
      · next e2 =>
        have h₂ := State.Canonical.snd e2 h₁.askHome
        exact .inSnd (.foldl (.ite h₂.markDirty h₂) .homeStep)
  · split
    · next e1 => exact .snd e1 (.ite_snd h.translateStore h.translate)
    · next e1 =>
      have h₁ := State.Canonical.snd e1 (.ite_snd h.translateStore h.translate)
      refine .ite_snd h₁ (.ite_snd h₁ (.ite_snd h₁ ?_))
      split
      · next e2 => exact .snd e2 h₁.askHome
      · next e2 =>
        have h₂ := State.Canonical.snd e2 h₁.askHome
        exact .inSnd (.foldl (.ite h₂.markDirty h₂) .homeStep)

theorem State.Canonical.spillDeque {core ctx sid unit} (h : s.Canonical) : (s.spillDeque core ctx sid unit).2.Canonical := by
  unfold State.spillDeque
  split
  · exact h
  · split
    · exact h
    · dsimp only
      split
      · next e2 => exact .snd e2 h.unitPlace
      · next e2 => exact .inSnd (.localError (.snd e2 h.unitPlace))
      · next e2 => exact .inSnd (.update (.editCtx (.written (.setBytes (.snd e2 h.unitPlace) rfl))) rfl)

theorem State.Canonical.pushCont {core ctx sid e unit} (h : s.Canonical) : (s.pushCont core ctx sid e unit).2.Canonical := by
  unfold State.pushCont
  refine .ite_snd (.inSnd (h.update rfl)) ?_
  split
  · next e => exact .inSnd (.update (.snd e h.spillDeque) rfl)
  · exact h.spillDeque

theorem State.Canonical.releaseGroup {ctx group} (h : s.Canonical) : (s.releaseGroup ctx group).Canonical := .ite h h.editCtx

theorem State.Canonical.recordAt {core unit r} (h : s.Canonical) : (s.recordAt core unit r).2.Canonical := by
  unfold State.recordAt
  split
  · exact h
  · split
    · next e1 => exact .snd e1 h.unitPlace
    · next e1 => exact .snd e1 h.unitPlace

theorem State.Canonical.takeRecord {core r pa} (h : s.Canonical) : (s.takeRecord core r pa).Canonical := .releaseGroup (.update h.storeAt rfl)

theorem State.Canonical.takeOldest {core lrec} (h : s.Canonical) : (s.takeOldest core lrec).2.Canonical := by
  unfold State.takeOldest
  split
  · split
    · next e1 => exact .snd e1 h.recordAt
    · next e1 => exact .inSnd (.takeRecord (.snd e1 h.recordAt))
  · split
    · exact h
    · exact .inSnd (h.update rfl)

/-! ### Mailbox -/

theorem State.Canonical.targetXlat {ctx c va} (h : s.Canonical) : (s.targetXlat ctx c va).2.Canonical := by
  unfold State.targetXlat
  dsimp only
  split
  · next e => exact .snd e (.ite_snd (.translate (.update h.translate rfl)) h.translate)
  · next e =>
    split <;> exact .snd e (.ite_snd (.translate (.update h.translate rfl)) h.translate)

theorem State.Canonical.targetXlats {ctx first} {k : Nat} {va} (h : s.Canonical) : (s.targetXlats ctx first k va).2.Canonical := by
  induction k generalizing s va first with
  | zero => exact h
  | succ k ih =>
    unfold State.targetXlats
    split
    · exact .snd ‹_› h.targetXlat
    · next e =>
      have h' := State.Canonical.snd e h.targetXlat
      split
      · exact .snd ‹_› (ih h')
      · exact ih h'

theorem State.Canonical.targetWords {ctx first n k va} (h : s.Canonical) : (s.targetWords ctx first n k va).2.Canonical := by
  unfold State.targetWords
  split
  · next e => exact .snd e h.targetXlats
  · next e =>
    have h' := State.Canonical.snd e h.targetXlats
    exact .ite_snd h' (.ite_snd h' h')

theorem State.Canonical.targetAccess {who ctx first n k va} (h : s.Canonical) : (s.targetAccess who ctx first n k va).2.Canonical := by
  unfold State.targetAccess
  split
  · next e => exact .snd e h.targetWords
  · next e =>
    have h' := State.Canonical.snd e h.targetWords
    dsimp only
    split
    · next e1 => exact .snd e1 h'.askEach
    · next e1 => exact .inSnd (.foldl (.snd e1 h'.askEach) .markDirty)

theorem State.Canonical.putWords {leaf} {l : List (Xlat × Word)} (h : s.Canonical) : (s.putWords leaf l).Canonical := by
  induction l generalizing s with
  | nil => exact h
  | cons e l ih => exact ih (.written (h.homeStep.store.update rfl))

theorem State.Canonical.fireMatch {key} (h : s.Canonical) : (s.fireMatch key).Canonical := by
  unfold State.fireMatch
  split
  · exact h
  · refine .ite h ?_
    split
    · next e1 => exact .snd e1 h.unitPlace
    · next e1 =>
      have h₁ := State.Canonical.snd e1 h.unitPlace
      split
      · next e2 => exact .update (.snd e2 h₁.pushCont) rfl
      · next e2 => exact .snd e2 h₁.pushCont

theorem State.Canonical.deliverTag {key m p} (h : s.Canonical) : (s.deliverTag key m p).2.Canonical := by
  unfold State.deliverTag
  refine .ite_snd (.inSnd (h.update rfl)) ?_
  split
  · next e => exact .inSnd (.update (.snd e h.targetAccess) rfl)
  · next e => exact .inSnd (.update (.snd e h.targetAccess) rfl)
  · next e =>
    have h' := State.Canonical.snd e h.targetAccess
    exact .ite_snd (.inSnd (.update h' rfl)) (.inSnd (.fireMatch (.update h'.putWords rfl)))

theorem State.Canonical.setUnexpected {board l} (h : s.Canonical) : (s.setUnexpected board l).Canonical := h.update rfl

theorem State.Canonical.takeUnexpected_go {tag} {l : List Packet} (h : s.Canonical) : (State.takeUnexpected.go tag s l).Canonical := by
  induction l generalizing s with
  | nil => exact h
  | cons p l ih =>
    unfold State.takeUnexpected.go
    split
    · exact ih h
    · split
      · exact .snd ‹_› h.deliverTag
      · exact ih (.setUnexpected (.snd ‹_› h.deliverTag))

theorem State.Canonical.takeUnexpected {board} (h : s.Canonical) : (s.takeUnexpected board).Canonical := h.takeUnexpected_go

/-! ### MemInstr -/

theorem Keeps.address {f scale} : Keeps (address f scale) := .bind .operandX fun _ => .pure

theorem Result.Canonical.execLd {f} (h : s.Canonical) : Result.Canonical (execLd f s) :=
  .outcome (.issue (.bind .address fun _ => .bind .checkAccess fun _ => .bind .loadBytes fun _ => .bind .writeX fun _ => .finishReply)) h

theorem Result.Canonical.execSt {f} (h : s.Canonical) : Result.Canonical (execSt f s) :=
  .outcome (.issue (.bind .readX fun _ => .bind .address fun _ => .bind .checkAccess fun _ => .bind .storeBytes fun _ => .finishReply)) h

theorem Keeps.startWait {f kind x va} : Keeps (startWait f kind x va) := by
  unfold Machine.startWait
  refine .bind .me fun _ => .bind .self fun _ => .bind .inAccess fun _ => .bind (.editS fun h => h.update rfl) fun _ =>
    .bind .readS fun _ => .ite ?_ ?_
  · refine .when .trapWord (.bind ?_ fun _ => ?_)
    · refine .stateS fun h => ?_
      split
      next e =>
      exact .inSnd (.ite (.written (.fst e h.completeWaiter)) (.fst e h.completeWaiter))
    · split
      · exact .park
      · exact .bind (.editS fun h => h.update rfl) fun _ => .park
  · exact .ite (.bind (.editS fun h => h.update rfl) fun _ => .park) (.bind (.editS fun h => h.update rfl) fun _ => .park)

theorem Keeps.syncLoad {f kind reads k} : Keeps (syncLoad f kind reads k) := .issue (.bind .address fun _ => .bind .checkAccess fun _ => .startWait)

theorem Result.Canonical.execLdf {f} (h : s.Canonical) : Result.Canonical (execLdf f s) := .outcome .syncLoad h

theorem Result.Canonical.execLds {f} (h : s.Canonical) : Result.Canonical (execLds f s) := .outcome .syncLoad h

theorem Result.Canonical.execSts {f} (h : s.Canonical) : Result.Canonical (execSts f s) :=
  .outcome (.issue (.bind .readX fun _ => .bind .address fun _ => .bind .checkAccess fun _ => .startWait)) h

theorem State.Canonical.noteRequest {u pa} (h : s.Canonical) : (s.noteRequest u pa).Canonical := .ite (h.update rfl) h

theorem Keeps.writeWithBit {f full} : Keeps (writeWithBit f full) :=
  .issue (.bind .me fun _ => .bind .self fun _ => .bind .readX fun _ => .bind .address fun _ => .bind .checkAccess fun _ =>
    .bind (.editS fun h => .written (.release (.noteVt (.ite (.noteRequest (.markFull (.update h.homeStep.store rfl))) (.markFull
    (.update h.homeStep.store rfl)))))) fun _ => .finishReply)

theorem Result.Canonical.execSte {f} (h : s.Canonical) : Result.Canonical (execSte f s) := .outcome .writeWithBit h

theorem Result.Canonical.execFew {f} (h : s.Canonical) : Result.Canonical (execFew f s) := .outcome .writeWithBit h

theorem Keeps.peekAddress {f} : Keeps (peekAddress f) := by
  unfold Machine.peekAddress
  refine .bind .self fun _ => .bind .readS fun _ => .ite ?_ ?_
  · split
    · exact .pure
    · exact .bind .readS fun _ => .when .terminate .pure
  · exact .bind .noteSlow fun _ => .pure

theorem State.Canonical.prefetch {m core line path} (h : s.Canonical) : (s.prefetch m core line path).Canonical := by
  unfold State.prefetch
  split
  · exact h
  · exact h.swmFill
  · exact .ite h.request h
  · split
    · exact h
    · exact h
    · exact h.request
    · exact h.request

theorem Result.Canonical.execPref {f} (h : s.Canonical) : Result.Canonical (execPref f s) := by
  unfold Machine.execPref
  refine .outcome (.issue (.bind .self fun _ => .bind .peekAddress fun _ => ?_)) h
  dsimp only
  split
  · exact .finish
  · refine .bind (.stateS .accessProblem) fun _ => ?_
    split
    · exact .finish
    · refine .bind .readS fun _ => .ite ?_ ?_
      · refine .bind (.stateS .askHome) fun _ => ?_
        split
        · exact .finish
        · exact .bind (.editS fun h => .ite h.prefetch h) fun _ => .finish
      · exact .finish

theorem State.Canonical.flushOwn {core line} (h : s.Canonical) : (s.flushOwn core line).Canonical := by
  unfold State.flushOwn
  split
  · exact h
  · exact .ite h.swmWriteBack (.ite h.cleanOwner h)

theorem State.Canonical.dropInstr {core line} (h : s.Canonical) : (s.dropInstr core line).Canonical := h.update rfl

theorem State.Canonical.dropOwn {core line} (h : s.Canonical) : (s.dropOwn core line).Canonical := by
  unfold State.dropOwn
  split
  · exact h
  · exact .ite h.swmDrop (.putLine (h.update rfl))

theorem Keeps.cacheLine {f act} (ha : ∀ {c l s}, s.Canonical → (act c l s).Canonical) : Keeps (cacheLine f act) :=
  .issue (.bind .self fun _ => .bind .address fun _ => .bind .checkPlace fun _ => .bind .readS fun _ => .bind .readS fun _ =>
    .bind .heedHome fun _ => .bind (.editS ha) fun _ => .finishReply)

theorem Result.Canonical.execCflush {f} (h : s.Canonical) : Result.Canonical (execCflush f s) := .outcome (.cacheLine .flushOwn) h

theorem Result.Canonical.execCinv {f} (h : s.Canonical) : Result.Canonical (execCinv f s) := by
  refine .outcome (.cacheLine fun {c l s} h => ?_) h
  have flushed : State.Canonical (match s.l1 c l with | some k => if k.swm.isSome then s else s.flushOwn c l | none => s) := by
    split
    · exact .ite h h.flushOwn
    · exact h
  exact flushed.dropOwn.dropInstr

/-! ### Remote -/

theorem Keeps.waitToSend {job m} : Keeps (waitToSend job m) :=
  .bind .me fun _ => .bind .readS fun _ => .when .park (.bind .readS fun _ => .ite .park .pure)

theorem Keeps.sendPacket {f ty job m addr mode board aux words} : Keeps (sendPacket f ty job m addr mode board aux words) :=
  .bind .me fun _ => .bind .self fun _ => .bind .inAccess fun _ => .editS fun h => (h.update rfl)

theorem Keeps.checkRemote {va n} : Keeps (checkRemote va n) := by
  unfold Machine.checkRemote
  exact .when .trapWord (.ite .trapAt .pure)

theorem Result.Canonical.execLdx {f} (h : s.Canonical) : Result.Canonical (execLdx f s) := by
  unfold Machine.execLdx
  refine .outcome (.issue (.bind .self fun _ => .bind .operandX fun _ => .bind .operandB fun _ => .bind .checkRemote fun _ =>
    .bind .readS fun _ => ?_)) h
  split
  · exact .trapAt
  · refine .bind .waitToSend fun _ => .bind .readS fun _ => ?_
    split
    · exact .bind .writeX fun _ => .finishReply
    · exact .bind .sendPacket fun _ => .park

theorem Result.Canonical.execStx {f} (h : s.Canonical) : Result.Canonical (execStx f s) := by
  unfold Machine.execStx
  refine .outcome (.issue (.bind .me fun _ => .bind .self fun _ => .bind .readX fun _ => .bind .operandX fun _ => .bind .operandB fun _ =>
    .bind .checkRemote fun _ => .bind .readS fun _ => ?_)) h
  dsimp only
  split
  · exact .bind (.editS .errorEntry) fun _ => .finish
  · exact .bind .waitToSend fun _ => .bind (.editS fun h => h.update rfl) fun _ => .bind .sendPacket fun _ => .finish

theorem Keeps.remoteAtomic {f op n va b c d} : Keeps (remoteAtomic f op n va b c d) := by
  unfold Machine.remoteAtomic
  refine .bind .self fun _ => .bind .readX fun _ => .bind .checkRemote fun _ => .bind .readS fun _ => ?_
  split
  · exact .trapAt
  · exact .bind .waitToSend fun _ => .bind (.editS fun h => h.update rfl) fun _ => .bind .sendPacket fun _ => .park

/-! ### Tempo -/

theorem Keeps.heedBreak : Keeps (heedBreak) := .bind .self fun _ => .bind .readS fun _ => .ite .terminate .pure

theorem State.Canonical.recordBreak {core lrec} (h : s.Canonical) : (s.recordBreak core lrec).Canonical := by
  unfold State.recordBreak
  split
  · exact h
  · exact .ite h (.foldl (h.update rfl) fun h1 => .ite h1.endStrand h1)

theorem Result.Canonical.execBreakIndexRecord {core lrec} (h : s.Canonical) : Result.Canonical (execBreakIndexRecord core lrec s) :=
  .next h.recordBreak

theorem Result.Canonical.execBrko {f} (h : s.Canonical) : Result.Canonical (execBrko f s) :=
  .outcome (.issue (.bind .self fun _ => .bind (.editS .editLaunch) fun _ => .bind .readS fun _ => .when .parkBehind .finish)) h

theorem Result.Canonical.execTidx {f} (h : s.Canonical) : Result.Canonical (execTidx f s) :=
  .outcome (.fixed (.bind .self fun _ => .bind .readS fun _ => .writeX)) h

theorem State.Canonical.makeExport {u j v} (h : s.Canonical) : (s.makeExport u j v).Canonical := by
  unfold State.makeExport
  split
  · exact h
  · exact h.editLaunch.editStrand

theorem Keeps.exportValue {e} : Keeps (exportValue e) := by
  unfold Machine.exportValue
  refine .ite ?_ ?_
  · refine .bind .self fun _ => ?_
    split
    · exact .pure
    · exact .bind .noteSlow fun _ => .ite .pure .park
  · exact .bind .readX fun _ => .pure

theorem Keeps.makeExports {which} {l : List Export} {j} : Keeps (makeExports which l j) := by
  induction l generalizing j with
  | nil => exact .pure
  | cons e l ih =>
    exact .bind .me fun _ => .bind .self fun _ => .ite (.bind .exportValue fun _ => .bind (.editS .makeExport) fun _ => ih) ih

theorem Keeps.exportsOf : Keeps (exportsOf) := .bind .self fun _ => .readS

theorem Result.Canonical.execTexp {f} (h : s.Canonical) : Result.Canonical (execTexp f s) :=
  .outcome (.issue (.bind .self fun _ => .bind .exportsOf fun _ => .when .illegalForm (.bind .heedBreak fun _ => .bind .makeExports fun _ =>
    .finish))) h

theorem Keeps.finalExports : Keeps (finalExports) := .bind .self fun _ => .ite (.bind .exportsOf fun _ => .makeExports) .pure

theorem Result.Canonical.execVrel {f} (h : s.Canonical) : Result.Canonical (execVrel f s) := by
  unfold Machine.execVrel
  refine .outcome (.issue (.bind .me fun _ => .bind .self fun _ => .ite ?_ ?_)) h
  · exact .bind .readS fun _ => .when .park (.bind .exportsOf fun _ => .ite (.bind .heedBreak fun _ => .bind .makeExports fun _ =>
      .bind .editSelf fun _ => .finish) (.bind .editSelf fun _ => .finish))
  · exact .finish

theorem State.Canonical.deliverTempo {lrec item d j} (h : s.Canonical) : (s.deliverTempo lrec item d j).Canonical := by
  unfold State.deliverTempo
  split
  · exact h
  · dsimp only
    split
    · exact h.editLaunch
    · exact h.editLaunch.editStrand

theorem Result.Canonical.execTempoDelivery {lrec item d j} (h : s.Canonical) : Result.Canonical (execTempoDelivery lrec item d j s) :=
  .next h.deliverTempo

/-! ### Tasks -/

theorem Keeps.hereCont {f} : Keeps (hereCont f) :=
  .bind .self fun _ => .bind .thisPc fun _ => .bind .readX fun _ => .bind .readX fun _ => .bind .readX fun _ => .bind .readX fun _ =>
    .bind .readX fun _ => .bind .readX fun _ => .pure

theorem Result.Canonical.execSpawn {f} (h : s.Canonical) : Result.Canonical (execSpawn f s) := by
  unfold Machine.execSpawn
  refine .outcome (.issue (.bind .me fun _ => .bind .self fun _ => .bind .thisPc fun _ => .bind .checkTarget fun _ =>
    .bind .hereCont fun _ => .bind (.stateS .pushCont) fun _ => ?_)) h
  dsimp only
  split
  · exact .bind .park fun _ => .bind (.editS .release) fun _ => .jumpTo
  · exact .bind (.editS fun h => h.scopeUp.popUp) fun _ => .bind .writeX fun _ => .bind (.editS .release) fun _ => .jumpTo
  · exact .bind .writeX fun _ => .bind (.editS .release) fun _ => .jumpTo

theorem Keeps.exitStrand : Keeps (exitStrand) :=
  .bind .me fun _ => .bind .self fun _ => .bind .readS fun _ => .when .finalExports (.bind (.editS .endStrand) fun _ => .stopWith)

theorem Result.Canonical.execExit {f} (h : s.Canonical) : Result.Canonical (execExit f s) := .outcome (.issue .exitStrand) h

theorem State.Canonical.resumeParent {u st e} (h : s.Canonical) : (s.resumeParent u st e).Canonical :=
  .place (.popDown (.update h.leavePosition rfl))

theorem Keeps.execExitChild_ends {st} : Keeps (execExitChild.ends st) :=
  .bind .readS fun _ => .when .finalExports (.bind (.editS .scopeDown) fun _ => .exitStrand)

theorem Result.Canonical.execExitChild {f} (h : s.Canonical) : Result.Canonical (execExitChild f s) := by
  unfold Machine.execExitChild
  refine .outcome (.issue (.bind .me fun _ => .bind .self fun _ => .bind .readX fun _ => .ite (.transfer .pure) (.bind .readS fun _ => ?_))) h
  split
  · exact .ite (.bind (.editS fun h => h.scopeDown.resumeParent) fun _ => .stopWith) .execExitChild_ends
  · exact .execExitChild_ends

theorem State.Canonical.yield_ {u} (h : s.Canonical) : (s.yield_ u).Canonical := h.leave

theorem Result.Canonical.execYield {f} (h : s.Canonical) : Result.Canonical (execYield f s) :=
  .outcome (.issue (.bind .me fun _ => .bind .finish fun _ => .editS .yield_)) h

theorem Result.Canonical.execFinb {f} (h : s.Canonical) : Result.Canonical (execFinb f s) := by
  unfold Machine.execFinb
  refine .outcome (.fixed (.bind .self fun _ => .bind .readS fun _ => ?_)) h
  split
  · exact .writeX
  · exact .bind (.editS .setScope) fun _ => .bind .editSelf fun _ => .writeX

theorem Result.Canonical.execFine {f} (h : s.Canonical) : Result.Canonical (execFine f s) :=
  .outcome (.fixed (.bind .self fun _ => .when .illegalForm (.bind .readS fun _ => .bind (.editS .setScope) fun _ => .editSelf))) h

theorem Result.Canonical.execFinw {f} (h : s.Canonical) : Result.Canonical (execFinw f s) :=
  .outcome (.issue (.bind .self fun _ => .bind .operandX fun _ => .bind .readS fun _ => .when .parkBehind .finish)) h

theorem Result.Canonical.execSusp {f} (h : s.Canonical) : Result.Canonical (execSusp f s) :=
  .outcome (.issue (.bind .me fun _ => .bind .self fun _ => .bind .operandX fun _ => .bind .hereCont fun _ =>
    .when .trapPlain (.bind .checkAccess fun _ => .bind .readS fun _ => .when .heedRace (.bind .finalExports fun _ =>
    .bind .storeBytes fun _ => .bind (.editS .endStrand) fun _ => .stopWith)))) h

theorem Result.Canonical.execResm {f} (h : s.Canonical) : Result.Canonical (execResm f s) := by
  unfold Machine.execResm
  refine .outcome (.issue (.bind .me fun _ => .bind .self fun _ => .bind .operandX fun _ => .bind .operandX fun _ =>
    .bind .checkAccess fun _ => .bind .heedPoison fun _ => .bind .syncLine fun _ => .bind .readS fun _ => .bind .readS fun _ => ?_)) h
  refine .ite (.bind .pure fun _ => .bind .writeX fun _ => .finishReply) (.ite (.bind .pure fun _ => .bind .writeX fun _ =>
    .finishReply) (.bind (.stateS .pushCont) fun _ => ?_))
  split
  · exact .bind .park fun _ => .bind .writeX fun _ => .finishReply
  · exact .bind .pure fun _ => .bind .writeX fun _ => .finishReply
  · exact .bind (.editS fun h => h.storeAt.noteVt) fun _ => .bind .pure fun _ => .bind .writeX fun _ => .finishReply

theorem Result.Canonical.execMigr {f} (h : s.Canonical) : Result.Canonical (execMigr f s) := by
  unfold Machine.execMigr
  refine .outcome (.issue (.bind .self fun _ => .bind .operandX fun _ => .bind (.stateS .translate) fun _ => ?_)) h
  dsimp only
  split
  · exact .bind .raise fun _ => .finish
  · exact .bind .readS fun _ => .ite (.bind .thisPc fun _ => .bind .migrate fun _ => .finish) .finish

theorem Result.Canonical.execArmt {f} (h : s.Canonical) : Result.Canonical (execArmt f s) := by
  unfold Machine.execArmt
  refine .outcome (.issue (.bind .self fun _ => .bind .operandX fun _ => .bind .checkAccess fun _ => .bind .loadBytes fun _ =>
    .bind .readS fun _ => ?_)) h
  dsimp only
  split
  · refine .ite (.bind .writeX fun _ => .finishReply) ?_
    split
    · exact .bind .writeX fun _ => .finishReply
    · exact .bind (.editS fun h => .takeUnexpected (.update h.popUp rfl)) fun _ => .bind .writeX fun _ => .finishReply
  · exact .bind .writeX fun _ => .finishReply

theorem Result.Canonical.execMsg {f} (h : s.Canonical) : Result.Canonical (execMsg f s) := by
  unfold Machine.execMsg
  refine .outcome (.issue (.bind .me fun _ => .bind .self fun _ => .bind .operandX fun _ => .bind .operandX fun _ => .bind .readX fun _ =>
    .bind (.need .illegalForm) fun _ => .when .trapWord (.when .checkRemote (.bind .gatherElems fun _ => ?_)))) h
  split
  refine .bind .readS fun _ => ?_
  dsimp only
  split
  · exact .bind (.editS .errorEntry) fun _ => .bind (.editS .release) fun _ => .finish
  · exact .bind .waitToSend fun _ => .bind .sendPacket fun _ => .bind (.editS .release) fun _ => .finish

/-! ### Launching -/

theorem Keeps.launchLine {va} : Keeps (launchLine va) := by
  unfold Machine.launchLine
  refine .bind .self fun _ => .bind (.stateS .translate) fun _ => ?_
  split
  · exact .raise
  · refine .bind .readS fun _ => ?_
    dsimp only
    split
    · refine .bind .raise fun _ => .bind .heedMigrate fun _ => .bind .readS fun _ => .bind .heedHome fun _ => .bind .readS fun _ => ?_
      split
      · exact .bind .readS fun _ => .when .trapAt (.bind .readS fun _ => .bind .heedWord fun _ => .readS)
      · exact .bind .heedPoison fun _ => .readS
    · refine .bind .heedMigrate fun _ => .bind .readS fun _ => .bind .heedHome fun _ => .bind .readS fun _ => ?_
      split
      · exact .bind .readS fun _ => .when .trapAt (.bind .readS fun _ => .bind .heedWord fun _ => .readS)
      · exact .bind .heedPoison fun _ => .readS

theorem Keeps.launchLines {n : Nat} {va} : Keeps (launchLines n va) := by
  induction n generalizing va with
  | zero => exact .pure
  | succ n ih => exact .bind .launchLine fun _ => .bind ih fun _ => .pure

theorem Keeps.readDefaults {maxd e} : Keeps (readDefaults maxd e) := .bind .launchLines fun _ => .pure

theorem Keeps.readAllDefaults {maxd} {l : List ExportWord} : Keeps (readAllDefaults maxd l) := by
  induction l with
  | nil => exact .pure
  | cons e l ih => exact .bind .readDefaults fun _ => .bind ih fun _ => .pure

theorem Keeps.readTempoBlock {b} : Keeps (readTempoBlock b) :=
  .ite .pure (.bind .launchLine fun _ => .ite (.bind .readAllDefaults fun _ => .pure) .pure)

theorem State.Canonical.addLaunch {i l} (h : s.Canonical) : (s.addLaunch i l).Canonical := .update h.scopeUp.editCtx rfl

theorem State.Canonical.releaseRecord {lrec l} (h : s.Canonical) : (s.releaseRecord lrec l).Canonical := .withLaunches h.withLaunches.scopeDown

theorem State.Canonical.bootWordDone {l} (h : s.Canonical) : (s.bootWordDone l).Canonical := .ite (h.update rfl) h

theorem State.Canonical.agentWord {lrec ctx va v} (h : s.Canonical) : (s.agentWord lrec ctx va v).2.Canonical := by
  unfold State.agentWord
  refine .unitNotes ?_
  split
  · next e => exact .snd e h.unitSite
  · next e =>
    have h' := State.Canonical.snd e h.unitSite
    exact .ite_snd h' h'.unitWrite

theorem State.Canonical.finishLaunch {lrec} (h : s.Canonical) : (s.finishLaunch lrec).Canonical := by
  unfold State.finishLaunch
  split
  · exact h
  · refine .ite h (.ite h.releaseRecord ?_)
    split
    · next e1 => exact .releaseRecord (.bootWordDone (.snd e1 h.agentWord))
    · next e1 => exact .releaseRecord (.localError (.snd e1 h.agentWord))
    · next e1 => exact .snd e1 h.agentWord

theorem State.Canonical.finishEmpty {lrec} (h : s.Canonical) : (s.finishEmpty lrec).Canonical := by
  unfold State.finishEmpty
  split
  · exact .ite h.finishLaunch h
  · exact h

theorem Result.Canonical.execLaunch {f} (h : s.Canonical) : Result.Canonical (execLaunch f s) := by
  unfold Machine.execLaunch
  refine .outcome (.issue (.bind .me fun _ => .bind .self fun _ => .bind .operandX fun _ => .when .trapWord (.bind .launchLines fun _ =>
    .bind .readTempoBlock fun _ => .bind .readS fun _ => ?_))) h
  dsimp only
  split
  · exact .bind (.editS fun h => h.addLaunch.finishEmpty) fun _ => .bind .writeX fun _ => .bind (.editS .release) fun _ => .finishReply
  · exact .bind .writeX fun _ => .bind (.editS .release) fun _ => .finishReply

theorem Result.Canonical.execTrigger {f} (h : s.Canonical) : Result.Canonical (execTrigger f s) :=
  .outcome (.issue (.bind .me fun _ => .bind .self fun _ => .bind (.editS fun h => h.editLaunch.release) fun _ => .finish)) h

theorem Result.Canonical.execWaitp {f} (h : s.Canonical) : Result.Canonical (execWaitp f s) := by
  unfold Machine.execWaitp
  refine .outcome (.issue (.bind .self fun _ => .bind .readS fun _ => ?_)) h
  dsimp only
  split
  · exact .ite (.when .park (.bind (.editS .editLaunch) fun _ => .finish)) .finish
  · exact .finish

/-! ### Arbiter -/

theorem State.Canonical.dispatch {lrec} (h : s.Canonical) : (s.dispatch lrec).Canonical := by
  unfold State.dispatch
  split
  · exact h
  · refine .ite h ?_
    dsimp only
    split
    · exact h
    · next e => exact (h.claimSlot e).newUid.editLaunch.place

theorem Result.Canonical.execItemDispatch {lrec} (h : s.Canonical) : Result.Canonical (execItemDispatch lrec s) := .next h.dispatch

theorem State.Canonical.reload {u} (h : s.Canonical) : (s.reload u).Canonical := by
  unfold State.reload
  split
  · exact h
  · refine .ite h ?_
    split
    · exact h
    · next e1 => exact .update (.claimSlot e1 h) rfl

theorem Result.Canonical.execSpillReload {uid} (h : s.Canonical) : Result.Canonical (execSpillReload uid s) := .next h.reload

theorem State.Canonical.pickup {core} (h : s.Canonical) : (s.pickup core).Canonical := by
  unfold State.pickup
  split
  · exact h
  · refine .ite h ?_
    split
    · exact h
    · next e => exact (h.claimSlot e).editCore.newUid.place

theorem Result.Canonical.execContinuationPickup {core} (h : s.Canonical) : Result.Canonical (execContinuationPickup core s) := .next h.pickup

theorem State.Canonical.arrive {core} (h : s.Canonical) : (s.arrive core).Canonical := by
  unfold State.arrive
  split
  · exact h
  · split
    · exact h.update rfl
    · refine .ite h ?_
      split
      · exact h
      · next e2 => exact .place (.update (.claimSlot e2 h) rfl)

theorem Result.Canonical.execMigrationArrival {core} (h : s.Canonical) : Result.Canonical (execMigrationArrival core s) := .next h.arrive

theorem State.Canonical.admitLaunch {lrec} (h : s.Canonical) : (s.admitLaunch lrec).Canonical := by
  unfold State.admitLaunch
  split
  · exact h
  · exact .ite h h.editLaunch

theorem Result.Canonical.execLaunchAdmission {lrec} (h : s.Canonical) : Result.Canonical (execLaunchAdmission lrec s) := .next h.admitLaunch

theorem State.Canonical.age {lrec} (h : s.Canonical) : (s.age lrec).Canonical := by
  unfold State.age
  split
  · exact h
  · exact .ite h h.editLaunch

theorem Result.Canonical.execLaunchAging {lrec} (h : s.Canonical) : Result.Canonical (execLaunchAging lrec s) := .next h.age

theorem Result.Canonical.execLaunchCompletion {lrec} (h : s.Canonical) : Result.Canonical (execLaunchCompletion lrec s) := .next h.finishLaunch

theorem State.Canonical.stealFrom {core lrec} (h : s.Canonical) : (s.stealFrom core lrec).Canonical := by
  unfold State.stealFrom
  split
  · exact h
  · refine .ite h ?_
    dsimp only
    split
    · exact .editCore (.snd ‹_› h.editCore.takeOldest)
    · exact .editCore (.snd ‹_› h.editCore.takeOldest)

theorem State.Canonical.endSearches (h : s.Canonical) : s.endSearches.Canonical := h.update rfl

theorem Result.Canonical.execStealProbe {core lrec} (h : s.Canonical) : Result.Canonical (execStealProbe core lrec s) := .next h.stealFrom

theorem Result.Canonical.execArmtDeferredPush {board entry} (h : s.Canonical) : Result.Canonical (execArmtDeferredPush board entry s) :=
  .next h.fireMatch

theorem State.Canonical.refill {core pos} (h : s.Canonical) : (s.refill core pos).Canonical := by
  unfold State.refill
  refine .ite h ?_
  split
  · exact h
  · exact h.update rfl

theorem Result.Canonical.execBarrelRefill {core pos} (h : s.Canonical) : Result.Canonical (execBarrelRefill core pos s) := .next h.refill

theorem State.Canonical.endQuantum {core pos} (h : s.Canonical) : (s.endQuantum core pos).Canonical := by
  unfold State.endQuantum
  split
  · exact h
  · split
    · exact h
    · exact .ite h (.ite h.leave (h.update rfl))

theorem Result.Canonical.execQuantumEnd {core pos} (h : s.Canonical) : Result.Canonical (execQuantumEnd core pos s) := .next h.endQuantum

theorem State.Canonical.listedWait {u access} (h : s.Canonical) : (s.listedWait u access).Canonical := h.editStrand

theorem State.Canonical.retry {u} (h : s.Canonical) : (s.retry u).Canonical := by
  unfold State.retry
  split
  · refine .ite h (.ite ?_ ?_)
    · split
      next e1 =>
      exact .ite (.written (.ite (.listedWait (.update (.fst e1 h.completeWaiter) rfl)) (.update (.fst e1 h.completeWaiter) rfl))) (.ite
        (.listedWait (.update (.fst e1 h.completeWaiter) rfl)) (.update (.fst e1 h.completeWaiter) rfl))
    · exact .ite (h.update rfl) (.listedWait (h.update rfl))
  · exact h

theorem Result.Canonical.execSyncRetry {uid} (h : s.Canonical) : Result.Canonical (execSyncRetry uid s) := .next h.retry

/-! ### Thread -/

theorem State.Canonical.vtime {ctx} (h : s.Canonical) : (s.vtime ctx).2.Canonical := by
  unfold State.vtime
  split
  · exact h
  · exact .inSnd (h.update rfl)

theorem Result.Canonical.execVtime {f} (h : s.Canonical) : Result.Canonical (execVtime f s) :=
  .outcome (.fixed (.bind .self fun _ => .bind (.stateS .vtime) fun _ => .writeX)) h

theorem State.Canonical.setRoot {ctx v} (h : s.Canonical) : (s.setRoot ctx v).Canonical := .update h.editCtx rfl

theorem State.Canonical.setVtScale {ctx v} (h : s.Canonical) : (s.setVtScale ctx v).Canonical := by
  unfold State.setVtScale
  split
  · exact h
  · exact h.update rfl

theorem State.Canonical.setSpecial {u st n v} (h : s.Canonical) : (s.setSpecial u st n v).Canonical := by
  unfold State.setSpecial
  dsimp only
  split
  · exact h.editStrand
  · exact h.editStrand
  · exact .ite h.leaveTrap h.editStrand
  · exact h.editStrand
  · exact h.editStrand
  · exact h.editStrand
  · exact h.editCtx
  · exact h.editCtx
  · exact h.setVtScale
  · exact h.editStrand
  · exact h.setRoot
  · exact h.editCtx
  · exact h.editStrand
  · exact h.editStrand
  · exact h.editCtx
  · exact h.editCtx
  · exact h

theorem Keeps.scheduleLine {target va} : Keeps (scheduleLine target va) := by
  unfold Machine.scheduleLine
  split
  · exact .bind .checkAccess fun _ => .loadBytes
  · refine .bind (.stateS .translate) fun _ => ?_
    split
    · exact .raise
    · refine .bind .readS fun _ => ?_
      dsimp only
      split
      · exact .bind .raise fun _ => .bind .readS fun _ => .bind .heedHome fun _ => .bind .heedPoison fun _ => .readS
      · exact .bind .readS fun _ => .bind .heedHome fun _ => .bind .heedPoison fun _ => .readS

theorem Keeps.scheduleLines {target} {n : Nat} {va} : Keeps (scheduleLines target n va) := by
  induction n generalizing va with
  | zero => exact .pure
  | succ n ih => exact .bind .scheduleLine fun _ => .bind ih fun _ => .pure

theorem Keeps.writeEsched {ctx target v} : Keeps (writeEsched ctx target v) := by
  unfold Machine.writeEsched
  refine .ite (.editS .editCtx) (.when .trapWord (.bind .scheduleLines fun _ => ?_))
  dsimp only
  split
  · exact .illegalForm
  · exact .editS .editCtx

theorem Result.Canonical.execSrd {f} (h : s.Canonical) : Result.Canonical (execSrd f s) :=
  .ite (.outcome (.issue (.bind .self fun _ => .when .trapExtra (.bind .writeX fun _ => .finish))) h) (.outcome (.fixed (.bind .self
    fun _ => .bind .readS fun _ => .writeX)) h)

theorem Result.Canonical.execSwr {f} (h : s.Canonical) : Result.Canonical (execSwr f s) :=
  .outcome (.issue (.bind .me fun _ => .bind .self fun _ => .bind .operandB fun _ => .when .trapPlain (.when .illegalForm (.ite (.bind
    .writeEsched fun _ => .ite .finishReply .finish) (.bind (.editS .setSpecial) fun _ => .ite .finishReply .finish))))) h

theorem Keeps.targetStrand {f right} : Keeps (targetStrand f right) := by
  unfold Machine.targetStrand
  refine .bind .me fun _ => .bind .operandX fun _ => .bind .needRight fun _ => .bind .readS fun _ => ?_
  split
  · exact .pure
  · exact .bind .readS fun _ => .when .park .pure

theorem Keeps.replyStatus {f code} : Keeps (replyStatus f code) := .bind .writeX fun _ => .finishReply

theorem State.Canonical.haltStrand {u} (h : s.Canonical) : (s.haltStrand u).Canonical := by
  unfold State.haltStrand
  split
  · exact h
  · split
    · exact h.stopStrand.stepEnds
    · exact h.leave.editStrand

theorem Result.Canonical.execTstop {f} (h : s.Canonical) : Result.Canonical (execTstop f s) := by
  unfold Machine.execTstop
  refine .outcome (.issue (.bind .me fun _ => .bind .targetStrand fun _ => ?_)) h
  split
  · exact .replyStatus
  · exact .ite .replyStatus (.ite (.bind .writeX fun _ => .bind .finish fun _ => .editS .haltStrand) (.bind (.editS .haltStrand) fun _ =>
      .replyStatus))

theorem State.Canonical.startStrand {u} (h : s.Canonical) : (s.startStrand u).Canonical := .update h.editStrand rfl

theorem Result.Canonical.execTstart {f} (h : s.Canonical) : Result.Canonical (execTstart f s) := by
  unfold Machine.execTstart
  refine .outcome (.issue (.bind .targetStrand fun _ => ?_)) h
  split
  · exact .replyStatus
  · exact .ite .replyStatus (.bind (.editS .startStrand) fun _ => .replyStatus)

theorem Result.Canonical.execTstep {f} (h : s.Canonical) : Result.Canonical (execTstep f s) := by
  unfold Machine.execTstep
  refine .outcome (.issue (.bind .targetStrand fun _ => ?_)) h
  split
  · exact .replyStatus
  · exact .ite .replyStatus (.bind (.editS fun h => h.editStrand.startStrand) fun _ => .bind .writeX fun _ => .parkBehind)

theorem Result.Canonical.execTread {f} (h : s.Canonical) : Result.Canonical (execTread f s) := by
  unfold Machine.execTread
  refine .outcome (.issue (.bind .targetStrand fun _ => .bind .operandB fun _ => ?_)) h
  split
  · exact .illegalForm
  · refine .bind .readS fun _ => ?_
    dsimp only
    split <;> exact .bind .writeX fun _ => .bind .writeX fun _ => .finishReply

theorem Keeps.writeTargetSpecial {x0 tst n c} : Keeps (writeTargetSpecial x0 tst n c) :=
  .bind .self fun _ => .bind .readS fun _ => .when .trapPlain (.ite .pure (.when .illegalForm (.ite (.bind .writeEsched fun _ =>
    .pure) (.bind (.editS .setSpecial) fun _ => .pure))))

theorem Result.Canonical.execTwrite {f} (h : s.Canonical) : Result.Canonical (execTwrite f s) := by
  unfold Machine.execTwrite
  refine .outcome (.issue (.bind .targetStrand fun _ => .bind .operandB fun _ => .bind .readX fun _ => ?_)) h
  split
  · exact .illegalForm
  · split
    · exact .replyStatus
    · exact .ite .replyStatus (.ite .replyStatus (.ite (.bind .writeTargetSpecial fun _ => .replyStatus) (.bind (.editS fun h =>
        .editStrand (.ite (h.update rfl) h)) fun _ => .replyStatus)))

theorem Keeps.grantTarget {f} : Keeps (grantTarget f) :=
  .bind .self fun _ => .bind .operandX fun _ => .bind .operandB fun _ => .when .illegalForm (.bind .readS fun _ =>
    .bind (.need .trapPlain) fun _ => .bind .readS fun _ => .pure)

theorem Result.Canonical.execTgrant {f} (h : s.Canonical) : Result.Canonical (execTgrant f s) := by
  unfold Machine.execTgrant
  refine .outcome (.issue (.bind .grantTarget fun _ => ?_)) h
  split
  · exact .replyStatus
  · split
    · exact .replyStatus
    · exact .bind (.editS .editStrand) fun _ => .bind .writeX fun _ => .finishReply

theorem Result.Canonical.execTrevoke {f} (h : s.Canonical) : Result.Canonical (execTrevoke f s) := by
  unfold Machine.execTrevoke
  refine .outcome (.issue (.bind .grantTarget fun _ => ?_)) h
  split
  · exact .replyStatus
  · exact .bind (.editS .editStrand) fun _ => .bind .writeX fun _ => .finishReply

/-! ### System -/

theorem Keeps.trapBehind {f cause extra} : Keeps (trapBehind f cause extra) :=
  .bind .me fun _ => .bind .thisPc fun _ => .bind .finish fun _ => .editS .takeTrap

theorem Result.Canonical.execTrap {f} (h : s.Canonical) : Result.Canonical (execTrap f s) := .outcome (.issue .trapBehind) h

theorem Result.Canonical.execBrk {f} (h : s.Canonical) : Result.Canonical (execBrk f s) := .outcome (.issue .trapBehind) h

theorem Result.Canonical.execStep {f} (h : s.Canonical) : Result.Canonical (execStep f s) :=
  .outcome (.issue (.bind .self fun _ => .bind (.editS .editCtx) fun _ => .finishReply)) h

theorem State.Canonical.tlbInvRun {ctx va n} (h : s.Canonical) : (s.tlbInvRun ctx va n).Canonical := h.update rfl

theorem State.Canonical.tlbInv {ctx a extent} (h : s.Canonical) : (s.tlbInv ctx a extent).Canonical := by
  unfold State.tlbInv
  split <;> exact h.update rfl

theorem Result.Canonical.execTlbinv {f} (h : s.Canonical) : Result.Canonical (execTlbinv f s) :=
  .outcome (.issue (.bind .self fun _ => .bind .operandX fun _ => .bind .operandB fun _ => .when .illegalForm (.bind .readS fun _ =>
    .bind (.editS .tlbInv) fun _ => .when .parkBehind .finishReply))) h

theorem State.Canonical.conflictEntry {ctx va sid ls} (h : s.Canonical) : (s.conflictEntry ctx va sid ls).2.Canonical :=
  .inSnd (.errorEntry (.ite h (h.update rfl)))

theorem State.Canonical.cohereLine {cores line} (h : s.Canonical) : (s.cohereLine cores line).Canonical := by
  have merged {poison} : State.Canonical { s with
      mem := (s.dirtyCopies cores line).foldl (fun m d => (List.range 128).foldl
        (fun m i => if d.2.2.getLsbD i then Memory.set m (line * 128 + i) (d.2.1.getD i 0) else m) m) s.mem
      poison := poison } :=
    ⟨Memory.wf_foldl (fun _ _ hm => Memory.wf_masked _ _ _ _ hm) _ h.mem⟩
  have dropped {poison} := (merged (poison := poison)).foldl (l := cores) (g := fun s c => s.swmDrop c line) .swmDrop
  exact .ite dropped.invalidateAll dropped.invalidateAll.written

theorem State.Canonical.cohereLines {cores ctx sid} {l : List (Nat × Word)} {n} (h : s.Canonical) :
    (s.cohereLines cores ctx sid l n).2.Canonical := by
  induction l generalizing s n with
  | nil => exact h
  | cons e l ih =>
    have merged := h.cohereLine (cores := cores) (line := e.1)
    exact .ite_snd (ih (.ite merged.sendBackInv merged)) (ih (.conflictEntry (.ite merged.sendBackInv merged)))

theorem Keeps.regionLines {n : Nat} {va} : Keeps (regionLines n va) := by
  induction n generalizing va with
  | zero => exact .pure
  | succ n ih =>
    refine .bind .self fun _ => .bind (.stateS .translate) fun _ => ?_
    split
    · exact .raise
    · exact .bind ih fun _ => .pure

theorem Result.Canonical.execCohere {f} (h : s.Canonical) : Result.Canonical (execCohere f s) := by
  unfold Machine.execCohere
  refine .outcome (.issue (.bind .self fun _ => .bind .operandX fun _ => .bind .operandB fun _ => .when .trapWord (.bind .readS fun _ =>
    .when .trapWord (.bind (.editS fun h => h.update rfl) fun _ => .ite ?_ ?_)))) h
  · exact .bind .writeX fun _ => .finishReply
  · exact .bind .regionLines fun _ => .bind .heedHome fun _ => .bind .readS fun _ => .bind (.stateS .cohereLines) fun _ =>
      .bind .writeX fun _ => .bind .finish fun _ => .bind .readS fun _ => .ite .park .park

/-! ### Partition -/

theorem State.Canonical.forgetCopy {core line} (h : s.Canonical) : (s.forgetCopy core line).Canonical := by
  unfold State.forgetCopy
  dsimp only
  split
  · exact h.dropCopy
  · exact h.dropCopy.setDir.sumAgent

theorem State.Canonical.emptyL1 {core} (h : s.Canonical) : (s.emptyL1 core).Canonical :=
  h.foldl fun h1 => .ite h1.swmWriteBack.swmDrop h1.forgetCopy

theorem State.Canonical.bumpLeaf {l} (h : s.Canonical) : (s.bumpLeaf l).Canonical := by
  have emptied : ((s.coresIn l.node).foldl (fun s e => s.emptyL1 e.1) s).Canonical := h.foldl .emptyL1
  exact ⟨Memory.wf_filter _ emptied.mem⟩

theorem State.Canonical.splitLeaf {l} (h : s.Canonical) : (s.splitLeaf l).Canonical := by
  unfold State.splitLeaf
  split
  exact .update (h.foldl .emptyL1) rfl

theorem Result.Canonical.execPsplit {f} (h : s.Canonical) : Result.Canonical (execPsplit f s) := by
  unfold Machine.execPsplit
  refine .outcome (.issue (.bind .operandX fun _ => .bind .nodeOperand fun _ => .bind .needNode fun _ => .bind .readS fun _ => ?_)) h
  split
  · exact .replyStatus
  · exact .ite .replyStatus (.bind .readS fun _ => .when .park (.bind (.editS .splitLeaf) fun _ => .replyStatus))

theorem Result.Canonical.execPmerge {f} (h : s.Canonical) : Result.Canonical (execPmerge f s) := by
  unfold Machine.execPmerge
  refine .outcome (.issue (.bind .operandX fun _ => .bind .nodeOperand fun _ => .bind .needNode fun _ => .bind .readS fun _ => ?_)) h
  split
  · exact .ite (.bind (.editS fun h => h.update rfl) fun _ => .replyStatus) .replyStatus
  · exact .replyStatus

theorem Result.Canonical.execGenbump {f} (h : s.Canonical) : Result.Canonical (execGenbump f s) :=
  .outcome (.issue (.bind .operandX fun _ => .bind .nodeOperand fun _ => .bind .needNode fun _ => .bind .readS fun _ =>
    .bind .readS fun _ => .ite .replyStatus (.bind (.editS fun h => h.foldl .bumpLeaf) fun _ => .replyStatus))) h

theorem Result.Canonical.execScrubWalkEnd {leaf} (h : s.Canonical) : Result.Canonical (execScrubWalkEnd leaf s) := .next (h.update rfl)

theorem State.Canonical.secondWrite {pa v full} (h : s.Canonical) : (s.secondWrite pa v full).Canonical :=
  h.invalidateAll.store.clearPoison.markFull.written

theorem State.Canonical.takeCommand {slot} (h : s.Canonical) : (s.takeCommand slot).Canonical := .secondWrite (h.update rfl)

theorem State.Canonical.slotStatus {slot v} (h : s.Canonical) : (s.slotStatus slot v).Canonical := h.secondWrite

theorem State.Canonical.serve {slot code} {run : Option Strand → State → State} (h : s.Canonical)
    (hr : ∀ {st s}, s.Canonical → (run st s).Canonical) : (s.serve slot code run).Canonical := by
  unfold State.serve
  split
  · exact h
  · exact .ite h.settle (.ite h.settle.takeCommand.slotStatus (.ite h.settle (hr h.settle)))

theorem State.Canonical.readTemplate {core ctx} {n : Nat} {va} (h : s.Canonical) : (s.readTemplate core ctx n va).2.Canonical := by
  induction n generalizing s va with
  | zero => exact h
  | succ n ih =>
    unfold State.readTemplate
    split
    · exact .snd ‹_› h.translate
    · exact .snd ‹_› h.translate
    · next e =>
      have h' := State.Canonical.snd e h.translate
      refine .ite_snd h' ?_
      split
      · exact .snd ‹_› (ih h')
      · exact ih h'

theorem State.Canonical.template {core ctx slpb} (h : s.Canonical) : (s.template core ctx slpb).2.Canonical := by
  unfold State.template
  refine .ite_snd h (.ite_snd h ?_)
  split
  · next e => exact .snd e h.readTemplate
  · exact h.readTemplate

theorem State.Canonical.startSeed {core l} (e : s.startSeed core l = some t) (h : s.Canonical) : t.Canonical := by
  unfold State.startSeed at e
  split at e
  · cases e
  · split at e
    · cases e
    · next claimed =>
      split at claimed
      · cases claimed
      · cases e
        exact (h.claimSlot claimed).addLaunch.newUid.editLaunch.place

theorem State.Canonical.runCreate {slot n st} (h : s.Canonical) : (s.runCreate slot n st).Canonical := by
  unfold State.runCreate
  dsimp only
  split
  · exact h
  · exact h.takeCommand.slotStatus
  · next e =>
    split
    · exact h
    · next e1 => exact .slotStatus (.takeCommand (.startSeed e1 (.snd e (.template (h.update rfl)))))

theorem State.Canonical.create {slot} (h : s.Canonical) : (s.create slot).Canonical := by
  unfold State.create
  refine h.serve fun h1 => .ite h1.takeCommand.slotStatus ?_
  split
  · exact h1.takeCommand.slotStatus
  · refine .ite h1.takeCommand.slotStatus ?_
    split
    · exact h1.takeCommand.slotStatus
    · exact h1.runCreate

theorem Result.Canonical.execCreate {slot} (h : s.Canonical) : Result.Canonical (execCreate slot s) := .next h.create

theorem State.Canonical.overCtx {slot code fields} {run : Nat → State → State × Word} (h : s.Canonical)
    (hr : ∀ {n s}, s.Canonical → (run n s).1.Canonical) : (s.overCtx slot code fields run).Canonical :=
  h.serve fun h => .slotStatus (.takeCommand (.ite_fst h (.ite_fst h (hr h))))

theorem State.Canonical.destroy {slot} (h : s.Canonical) : (s.destroy slot).Canonical := h.overCtx fun h1 => .ite_fst (.inFst (h1.update rfl)) h1

theorem Result.Canonical.execDestroy {slot} (h : s.Canonical) : Result.Canonical (execDestroy slot s) := .next h.destroy

theorem State.Canonical.setQuota {slot} (h : s.Canonical) : (s.setQuota slot).Canonical := by
  unfold State.setQuota
  exact h.overCtx fun h1 => h1.editCtx.inFst

theorem Result.Canonical.execQuota {slot} (h : s.Canonical) : Result.Canonical (execQuota slot s) := .next h.setQuota

theorem State.Canonical.inval {slot} (h : s.Canonical) : (s.inval slot).Canonical := h.overCtx fun h1 => (.inFst (h1.update rfl))

theorem Result.Canonical.execInval {slot} (h : s.Canonical) : Result.Canonical (execInval slot s) := .next h.inval

/-! ### Castle -/

theorem Keeps.castWord {va} : Keeps (castWord va) := by
  unfold Machine.castWord
  refine .bind .self fun _ => .when .trapWord (.bind (.stateS .translateStore) fun _ => ?_)
  split
  · exact .raise
  · refine .bind .readS fun _ => ?_
    dsimp only
    split
    · exact .bind .raise fun _ => .bind .heedAccess fun _ => .bind (.editS .markDirty) fun _ => .pure
    · exact .bind .heedAccess fun _ => .bind (.editS .markDirty) fun _ => .pure

theorem Result.Canonical.execCast {f} (h : s.Canonical) : Result.Canonical (execCast f s) := by
  unfold Machine.execCast
  refine .outcome (.issue (.bind .me fun _ => .bind .self fun _ => .bind .operandX fun _ => .when .trapWord (.bind .checkAccess fun _ =>
    .bind .loadBytes fun _ => .bind .checkAccess fun _ => .bind .loadBytes fun _ => .bind .nodeOperand fun _ => .bind .needNode fun _ =>
    .bind .castWord fun _ => ?_))) h
  exact .bind .readS fun _ => .ite (.bind .writeX fun _ => .bind (.editS .release) fun _ => .finishReply) (.bind (.editS fun h =>
    h.update rfl) fun _ => .bind .writeX fun _ => .bind (.editS .release) fun _ => .finishReply)

theorem State.Canonical.castStore {pa bytes} (h : s.Canonical) : (s.castStore pa bytes).Canonical :=
  .written (.setBytes (h.foldl .invalidateAll) rfl)

theorem State.Canonical.engineStore {pa v} (h : s.Canonical) : (s.engineStore pa v).Canonical := h.castStore

theorem State.Canonical.settleRun {pa n} (h : s.Canonical) : (s.settleRun pa n).Canonical := h.foldl fun h1 => .ite h1.settle h1

theorem State.Canonical.castEnd {c status} (e : s.castEnd c status = some t) (h : s.Canonical) : t.Canonical := by
  unfold State.castEnd at e
  dsimp only at e
  split at e
  · cases e
  · cases e
    exact h.settleRun.secondWrite.update rfl

/-! ### CastStop -/

theorem State.Canonical.withdrawSent {e} (h : s.Canonical) : (s.withdrawSent e).Canonical := by
  unfold State.withdrawSent
  refine .ite (h.update rfl) (.ite ?_ ?_)
  · split
    · exact h.update rfl
    · exact h
  · exact .ite (h.update rfl) (h.update rfl)

theorem State.Canonical.stopWaits {u} (h : s.Canonical) : (s.stopWaits u).Canonical := .update h.editStrand rfl

theorem State.Canonical.stopAtT {u} (h : s.Canonical) : (s.stopAtT u).Canonical := by
  unfold State.stopAtT
  split
  · exact h
  · exact .stopWaits (.foldl (.editCore (.update h.leavePosition rfl)) .withdrawSent)

theorem State.Canonical.withdrawHere {ctx} (h : s.Canonical) : (s.withdrawHere ctx).Canonical := by
  unfold State.withdrawHere
  refine State.Canonical.foldl h fun h1 => ?_
  split
  · exact .ite h1.withdrawSent.stopWaits h1
  · exact h1

theorem State.Canonical.haltRow {core c} (h : s.Canonical) : (s.haltRow core c).Canonical := by
  unfold State.haltRow
  split
  · exact .update h.releaseRows rfl
  · exact h

theorem State.Canonical.haltRows {ctx} (h : s.Canonical) : (s.haltRows ctx).Canonical := by
  unfold State.haltRows
  refine State.Canonical.foldl h fun h1 => ?_
  split
  · exact .ite h1.haltRow h1
  · exact h1

theorem State.Canonical.stopContext {ctx} (h : s.Canonical) : (s.stopContext ctx).Canonical :=
  .haltRows (.foldl (.editCtx (h.update rfl)) fun h1 => .ite h1.stopAtT h1)

theorem State.Canonical.clockStop (h : s.Canonical) : s.clockStop.Canonical := by
  unfold State.clockStop
  split
  · exact .ite (.update h.stopContext rfl) h
  · exact h

theorem State.Canonical.deferStop (h : s.Canonical) : s.deferStop.Canonical := by
  unfold State.deferStop
  split
  · exact .ite (h.update rfl) h
  · exact h

theorem Result.Canonical.execClockStopAtT (h : s.Canonical) : Result.Canonical (execClockStopAtT s) := .next h.clockStop

theorem State.Canonical.sweepRouter {ctx core} (h : s.Canonical) : (s.sweepRouter ctx core).Canonical :=
  .update (.foldl (h.foldl fun h1 => h1.deliverTempo) .editLaunch) rfl

/-! ### CastSave -/

theorem State.Canonical.clearSaved {ctx core v} (h : s.Canonical) : (s.clearSaved ctx core v).Canonical := .update (h.foldl .keepAuthority) rfl

theorem State.Canonical.flushCore {core} (h : s.Canonical) : (s.flushCore core).Canonical := h.foldl fun h1 => .ite h1.swmWriteBack h1.flushOwn

theorem State.Canonical.recordWorking {ctx} (h : s.Canonical) : (s.recordWorking ctx).Canonical := by
  unfold State.recordWorking
  split
  · exact h
  · refine State.Canonical.foldl h fun h1 => .tlbInvRun (.engineStore (State.Canonical.foldl h1 fun h2 => ?_))
    split
    exact h2.engineStore

theorem State.Canonical.writeHeader {save ctx r x4 vtLast base} (h : s.Canonical) : (s.writeHeader save ctx r x4 vtLast base).Canonical :=
  h.castStore

theorem State.Canonical.saveContext {c x2 base} (h : s.Canonical) : (s.saveContext c x2 base).Canonical := by
  unfold State.saveContext
  split
  · exact .recordWorking (.writeHeader (.castStore (.update (.foldl (.foldl (h.foldl .settle) fun h1 =>
      .ite h1.flushCore h1) .clearSaved) rfl)))
  · exact h

theorem State.Canonical.restoreStrand {ctx core sameBase m e} (h : s.Canonical) : (s.restoreStrand ctx core sameBase m e).Canonical := by
  refine .update h ?_
  unfold State.restoreStrand
  dsimp only [State.setStrand]
  split
  · rfl
  · rfl

theorem State.Canonical.restoreWait {ctx w} (h : s.Canonical) : (s.restoreWait ctx w).Canonical := by
  unfold State.restoreWait
  split
  · exact h.update rfl
  · exact h.goOn

theorem State.Canonical.restoreCore {ctx r sameBase m move v} (h : s.Canonical) : (s.restoreCore ctx r sameBase m move v).Canonical := by
  unfold State.restoreCore
  refine .ite h (.foldl (.foldl ⟨?_⟩ .restoreWait) .editLaunch)
  exact Memory.wf_foldl (fun _ _ hm => Memory.wf_set _ _ hm) _ (Memory.wf_filter _ (h.foldl .restoreStrand).mem)

theorem State.Canonical.restoreMatch {ctx r e} (h : s.Canonical) : (s.restoreMatch ctx r e).Canonical := by
  unfold State.restoreMatch
  dsimp only
  split
  · exact h.update rfl
  · exact h

theorem State.Canonical.restoreTokens {ctx v} (h : s.Canonical) : (s.restoreTokens ctx v).Canonical := by
  unfold State.restoreTokens
  split
  · exact h
  · exact .ite h (h.update rfl)

theorem State.Canonical.resumeTime {c} (h : s.Canonical) : (s.resumeTime c).Canonical := h.editCtx

theorem State.Canonical.restoreLaunches {ctx m move} (h : s.Canonical) : (s.restoreLaunches ctx m move).Canonical := h.update rfl

theorem State.Canonical.resumeContext {c} (h : s.Canonical) : (s.resumeContext c).Canonical := by
  unfold State.resumeContext
  split
  · exact h
  · exact .noteResidency (.editCtx (.resumeTime (.restoreTokens (.foldl (.editCtx (.foldl (.restoreLaunches (h.update rfl)) .restoreCore))
      .restoreMatch))))

/-! ### CastMove -/

theorem State.Canonical.flushFrame {pa} (h : s.Canonical) : (s.flushFrame pa).Canonical :=
  .withCores ((h.foldl fun h => h.foldl fun h => .ite h.swmWriteBack.swmDrop h).foldl .invalidateAll)

theorem State.Canonical.releaseFrame {pa} (h : s.Canonical) : (s.releaseFrame pa).Canonical := h.foldl .releaseLine

theorem State.Canonical.markUnit {map i res mov} (h : s.Canonical) : (s.markUnit map i res mov).Canonical := h.engineStore

theorem State.Canonical.startMove {m} (h : s.Canonical) : (s.startMove m).Canonical := by
  unfold State.startMove
  split
  · exact h
  · exact .ite h h.settleRun.markUnit.tlbInvRun.flushFrame.withMoving

theorem State.Canonical.copyFrame {ctx va16 src dst} (h : s.Canonical) : (s.copyFrame ctx va16 src dst).Canonical :=
  .ite (.ite h.localError (h.localError.foldl .setPoison)) (h.withBytes.foldl fun h => h.setPoison.localError)

theorem State.Canonical.rewriteLeaves {root u frame clearD} (h : s.Canonical) : (s.rewriteLeaves root u frame clearD).Canonical := by
  unfold State.rewriteLeaves
  refine State.Canonical.foldl h fun h1 => ?_
  split
  exact h1.engineStore

theorem State.Canonical.setFrameBits {pa slot} (h : s.Canonical) : (s.setFrameBits pa slot).Canonical := h.foldl .markFull

theorem State.Canonical.zeroFrame {pa} (h : s.Canonical) : (s.zeroFrame pa).Canonical :=
  .releaseFrame (.written (.foldl h.flushFrame.withBytes .setFull))

theorem State.Canonical.promoteUnit {c m u} {count : State → State} (h : s.Canonical) (hc : ∀ {s}, s.Canonical → (count s).Canonical) :
    (s.promoteUnit c m u count).Canonical :=
  (hc h.flushFrame.copyFrame).setFrameBits.rewriteLeaves.markUnit.written.releaseFrame

theorem State.Canonical.demoteUnit {c m u} {count : State → State} (h : s.Canonical) (hc : ∀ {s}, s.Canonical → (count s).Canonical) :
    (s.demoteUnit c m u count).Canonical :=
  .zeroFrame (.markUnit (.rewriteLeaves (.castStore (.ite (hc h.flushFrame.copyFrame).written h))))

theorem State.Canonical.finishMove {m} (h : s.Canonical) : (s.finishMove m).Canonical := by
  unfold State.finishMove
  split
  · exact h.update rfl
  · have flushed {pa pa' pa''} : (((s.settleRun pa 65536).settleRun pa' 65536).flushFrame pa'').Canonical := h.settleRun.settleRun.flushFrame
    have counted {s : State} {b : Bool} (h : s.Canonical) : (if b then { s with castMoved := s.castMoved + 65536 } else s).Canonical :=
      .ite (h.update rfl) h
    exact .ite h (.update (.ite (flushed.promoteUnit counted) (flushed.demoteUnit counted)) rfl)

theorem State.Canonical.castCheck (h : s.Canonical) : s.castCheck.Canonical := by
  unfold State.castCheck
  split
  · next e => exact .ite (h.getD fun e => .castEnd e h) h
  · exact h

theorem State.Canonical.unitMove (h : s.Canonical) : s.unitMove.Canonical := by
  unfold State.unitMove
  split
  · exact .castCheck (.update h.finishMove rfl)
  · split
    · exact h.startMove
    · exact h.castCheck

theorem Result.Canonical.execUnitMove (h : s.Canonical) : Result.Canonical (execUnitMove s) := .next h.unitMove

theorem State.Canonical.keepMap {ctx map n bits} (h : s.Canonical) : (s.keepMap ctx map n bits).Canonical := h.editCtx

theorem State.Canonical.beginResume {c} (h : s.Canonical) : (s.beginResume c).Canonical := .castCheck (.update h.resumeContext rfl)

theorem State.Canonical.finishStop {c x2 base} (h : s.Canonical) : (s.finishStop c x2 base).Canonical :=
  .ite h.withdrawHere (.ite (h.withdrawHere.getD fun e => .castEnd e h.withdrawHere.saveContext) h.withdrawHere.saveContext.beginResume)

theorem State.Canonical.sweep {core} (h : s.Canonical) : (s.sweep core).Canonical := by
  unfold State.sweep
  split
  · split
    · exact h
    · exact .ite (.update h.sweepRouter rfl) (.ite h.finishStop h)
  · exact h

theorem Result.Canonical.execSweepToken {core} (h : s.Canonical) : Result.Canonical (execSweepToken core s) := .next h.sweep

theorem State.Canonical.beginCast {c} (h : s.Canonical) : (s.beginCast c).Canonical := by
  unfold State.beginCast
  dsimp only
  split
  · exact .beginResume (.ite (.keepMap (.ite h.keepMap h)) (.ite h.keepMap h))
  · exact .castCheck (.update (.ite (.keepMap (.ite h.keepMap h)) (.ite h.keepMap h)) rfl)
  · exact .update (.ite (.keepMap (.ite h.keepMap h)) (.ite h.keepMap h)) rfl

theorem State.Canonical.startCast {code} (h : s.Canonical) : (s.startCast code).Canonical := by
  unfold State.startCast
  split
  · next e =>
    refine .ite h ?_
    dsimp only
    split
    · exact .beginCast (h.update rfl)
    · exact h.getD fun e => .castEnd e (h.update rfl)
  · exact h

theorem Result.Canonical.execStop (h : s.Canonical) : Result.Canonical (execStop s) := .next h.startCast

theorem Result.Canonical.execResume (h : s.Canonical) : Result.Canonical (execResume s) := .next h.startCast

theorem Result.Canonical.execSwitch (h : s.Canonical) : Result.Canonical (execSwitch s) := .next h.startCast

theorem Result.Canonical.execPrefetch (h : s.Canonical) : Result.Canonical (execPrefetch s) := .next h.startCast

/-! ### Fabric -/

theorem State.Canonical.editPort {n g} (h : s.Canonical) : (s.editPort n g).Canonical := h.update rfl

theorem State.Canonical.takeTailAck {n} (h : s.Canonical) : (s.takeTailAck n).Canonical := .ite h (h.update rfl)

theorem State.Canonical.transmit {ty p} (h : s.Canonical) : (s.transmit ty p).Canonical := by
  unfold State.transmit
  refine .ite (h.update rfl) ?_
  split
  · exact .ite (h.update rfl) h
  · exact .ite (h.update rfl) (h.update rfl)

theorem State.Canonical.pump (h : s.Canonical) : s.pump.Canonical := by
  unfold State.pump
  have first : State.Canonical (s.outbox.foldl (fun s e => s.transmit e.1 e.2) { s with outbox := [] }) := .foldl h.withOutbox .transmit
  exact .ite h (.ite first (first.withOutbox.foldl .transmit))

theorem State.Canonical.takenAt {p} (e : s.takenAt p = some t) (h : s.Canonical) : t.Canonical := by
  unfold State.takenAt at e
  split at e
  · cases e
    exact h
  · split at e
    · cases e
    · split at e
      · cases e
      · cases e
        exact h.update rfl

theorem State.Canonical.taken {ty p} {here : State → Packet → State} (h : s.Canonical) (hh : ∀ {s p}, s.Canonical → (here s p).Canonical) :
    (s.taken ty p here).Canonical := by
  unfold State.taken
  refine .ite h ?_
  split
  · exact h
  · next e =>
    have h' := h.takenAt e
    exact .ite (h'.update rfl) (hh (h'.update rfl))

theorem State.Canonical.unknownJob {p} (h : s.Canonical) : (s.unknownJob p).Canonical := h.update rfl

theorem State.Canonical.performAt {ty p xs} (h : s.Canonical) : (s.performAt ty p xs).Canonical := by
  unfold State.performAt
  refine .ite ?_ ?_
  · split
    next e =>
    exact .ite (.foldl (.fst e h.performRemote) .written) (.fst e h.performRemote)
  · exact h.update rfl

theorem State.Canonical.perform {ty p} (h : s.Canonical) : (s.perform ty p).Canonical := by
  unfold State.perform
  split
  · exact h.unknownJob
  · dsimp only
    split
    · next e1 => exact .update (.snd e1 h.targetAccess) rfl
    · next e1 => exact .update (.askUnit (.snd e1 h.targetAccess)) rfl
    · next e1 =>
      have h₁ := State.Canonical.snd e1 h.targetAccess
      exact .ite (.update h₁ rfl) h₁.performAt

theorem State.Canonical.holdTag {p} (h : s.Canonical) : (s.holdTag p).Canonical := .ite h (.ite (h.update rfl) (h.update rfl))

theorem State.Canonical.performTag {p} (h : s.Canonical) : (s.performTag p).Canonical := by
  unfold State.performTag
  split
  · exact h.unknownJob
  · split
    · exact h.holdTag
    · refine .ite h.holdTag ?_
      split
      · next e2 => exact .update (.snd e2 h.deliverTag) rfl
      · next e2 => exact .snd e2 h.deliverTag

theorem State.Canonical.performPacket {ty p} (h : s.Canonical) : (s.performPacket ty p).Canonical := .ite h (.ite h.performTag h.perform)

theorem State.Canonical.runStream {p} {fuel : Nat} (h : s.Canonical) : (s.runStream p fuel).Canonical := by
  induction fuel generalizing s with
  | zero => exact h
  | succ fuel ih =>
    unfold State.runStream
    split
    · exact h
    · split
      · exact h
      · exact .ite h.performPacket (ih h.performPacket)

theorem State.Canonical.accept {ty p r} (h : s.Canonical) : (s.accept ty p r).Canonical := .runStream (.ite (h.update rfl) h)

theorem State.Canonical.refuse {p} (h : s.Canonical) : (s.refuse p).Canonical := .ite h (h.update rfl)

theorem State.Canonical.receive {ty p} (h : s.Canonical) : (s.receive ty p).Canonical := by
  unfold State.receive
  refine h.taken fun h1 => ?_
  split
  · exact h1.accept
  · exact .ite h1.refuse (.accept (h1.update rfl))

theorem Result.Canonical.execFabricLdx {p} (h : s.Canonical) : Result.Canonical (execFabricLdx p s) := .next h.receive

theorem Result.Canonical.execFabricStx {p} (h : s.Canonical) : Result.Canonical (execFabricStx p s) := .next h.receive

theorem Result.Canonical.execFabricRemoteAtomic {p} (h : s.Canonical) : Result.Canonical (execFabricRemoteAtomic p s) := .next h.receive

theorem Result.Canonical.execFabricMsgMailbox {p} (h : s.Canonical) : Result.Canonical (execFabricMsgMailbox p s) := .next h.receive

theorem Result.Canonical.execFabricMsgTag {p} (h : s.Canonical) : Result.Canonical (execFabricMsgTag p s) := .next h.receive

theorem State.Canonical.resend {dst strand epoch seq} (h : s.Canonical) : (s.resend dst strand epoch seq).Canonical := .ite h (h.update rfl)

theorem Result.Canonical.execStreamResend {p} (h : s.Canonical) : Result.Canonical (execStreamResend p s) := .next h.resend

theorem Result.Canonical.execStreamRecordFree {src strand epoch} (h : s.Canonical) : Result.Canonical (execStreamRecordFree src strand epoch s) :=
  .next (h.update rfl)

theorem State.Canonical.dropUnexpected {board} (h : s.Canonical) : (s.dropUnexpected board).Canonical := by
  unfold State.dropUnexpected
  split
  · exact h
  · exact .runStream (h.update rfl)

theorem Result.Canonical.execUnexpectedPacketTimeout {board} (h : s.Canonical) : Result.Canonical (execUnexpectedPacketTimeout board s) :=
  .next h.dropUnexpected

theorem State.Canonical.foldVt {u vt} (h : s.Canonical) : (s.foldVt u vt).Canonical := h.editStrand

theorem State.Canonical.respondTo {ty p} {run : State → Sent → State} (h : s.Canonical) (hr : ∀ {s e}, s.Canonical → (run s e).Canonical) :
    (s.respondTo ty p run).Canonical := by
  refine h.taken fun h => ?_
  split
  · exact h
  · exact hr h

theorem State.Canonical.keepLease {e p} (h : s.Canonical) : (s.keepLease e p).Canonical := by
  unfold State.keepLease
  split
  · exact h
  · exact .ite (h.update rfl) h

theorem State.Canonical.takeData {e p} (h : s.Canonical) : (s.takeData e p).Canonical := by
  unfold State.takeData
  refine .ite ?_ ?_
  · exact .ite (.keepLease (h.update rfl)) (.foldVt (h.update rfl))
  · exact .goOn (.movePc (.ite (.release (.giveX (.ite (.keepLease (h.update rfl)) (.foldVt (h.update rfl))))) (.giveX (.ite (.keepLease
      (h.update rfl)) (.foldVt (h.update rfl))))))

theorem Result.Canonical.execFabricDataResponse {p} (h : s.Canonical) : Result.Canonical (execFabricDataResponse p s) :=
  .next (h.respondTo fun h1 => .ite h1.takeData h1)

theorem Result.Canonical.execFabricAck {p} (h : s.Canonical) : Result.Canonical (execFabricAck p s) :=
  .next (h.respondTo fun h1 => .update h1.foldVt rfl)

theorem State.Canonical.failRemote {e cause} (h : s.Canonical) : (s.failRemote e cause).Canonical := by
  unfold State.failRemote
  split
  · exact h
  · exact h.withStream.takeTrap.withStream

theorem State.Canonical.takeFailure {e p} (h : s.Canonical) : (s.takeFailure e p).Canonical :=
  .ite (.ite (h.update rfl) (.failRemote (.ite (.giveX (h.update rfl)) (h.update rfl)))) (.update h.errorEntry rfl)

theorem Result.Canonical.execFabricFailure {p} (h : s.Canonical) : Result.Canonical (execFabricFailure p s) := .next (h.respondTo .takeFailure)

theorem Result.Canonical.execLeaseExpiry {line} (h : s.Canonical) : Result.Canonical (execLeaseExpiry line s) := .next (h.update rfl)

theorem State.Canonical.toJob {ty e words} (h : s.Canonical) : (s.toJob ty e words).Canonical := h.foldl fun h1 => (h1.update rfl)

theorem State.Canonical.sendSync {job} (h : s.Canonical) : (s.sendSync job).Canonical := by
  unfold State.sendSync
  split
  · exact h
  · exact .ite h.toJob h

theorem Result.Canonical.execLeaseSyncSend {job} (h : s.Canonical) : Result.Canonical (execLeaseSyncSend job s) := .next h.sendSync

theorem Result.Canonical.execFabricLeaseSync {p} (h : s.Canonical) : Result.Canonical (execFabricLeaseSync p s) :=
  .next (h.taken fun h1 => h1.update rfl)

theorem State.Canonical.beginPause {job} (h : s.Canonical) : (s.beginPause job).Canonical := by
  unfold State.beginPause
  dsimp only
  split
  · exact .update h.clockStop rfl
  · exact .ite (.toJob (.update h.clockStop rfl)) (.update h.clockStop rfl)

theorem State.Canonical.endPause {job} (h : s.Canonical) : (s.endPause job).Canonical := by
  unfold State.endPause
  have told : State.Canonical (match s.jobEntry job with
      | some e => if s.conducts e then s.toJob 0x21 e [PauseWord.ends] else s
      | none => s) := by
    split
    · exact .ite h.toJob h
    · exact h
  exact .deferStop (told.update rfl)

theorem State.Canonical.advancePause {job heard} (h : s.Canonical) : (s.advancePause job heard).Canonical := by
  unfold State.advancePause
  refine .ite h ?_
  split
  · exact h.endPause
  · exact .ite (.ite h.endPause h) (.ite h (h.update rfl))

theorem State.Canonical.wrapPause (h : s.Canonical) : s.wrapPause.Canonical :=
  .ite (h.foldl .advancePause) (.foldl (h.foldl .advancePause) .beginPause)

theorem Result.Canonical.execWrapPause (h : s.Canonical) : Result.Canonical (execWrapPause s) := .next h.wrapPause

theorem State.Canonical.pauseControl {p} (h : s.Canonical) : (s.pauseControl p).Canonical := by
  unfold State.pauseControl
  refine h.taken fun h1 => ?_
  split
  · exact h1
  · exact .ite h1.beginPause h1
  · exact .ite (.ite (h1.update rfl) h1) (.ite h1 (.ite h1.endPause (h1.update rfl)))

theorem Result.Canonical.execFabricPauseControl {p} (h : s.Canonical) : Result.Canonical (execFabricPauseControl p s) := .next h.pauseControl

theorem State.Canonical.dropPort {n} (h : s.Canonical) : (s.dropPort n).Canonical := by
  unfold State.dropPort
  split
  · exact h
  · exact h.update rfl

theorem Result.Canonical.execFlitCrcFail {port} (h : s.Canonical) : Result.Canonical (execFlitCrcFail port s) := by
  unfold Machine.execFlitCrcFail
  refine .next ?_
  split
  · exact h
  · exact .ite h (h.update rfl)

theorem State.Canonical.sendAgain {port} (h : s.Canonical) : (s.sendAgain port).Canonical := .ite h (h.update rfl)

theorem Result.Canonical.execReplayRequest {port refused} (h : s.Canonical) : Result.Canonical (execReplayRequest port refused s) :=
  .next (.sendAgain (h.update rfl))

theorem State.Canonical.failLane {port lane} (h : s.Canonical) : (s.failLane port lane).Canonical := by
  unfold State.failLane
  dsimp only
  split
  · exact h.editPort
  · exact .ite h.editPort (.ite h.editPort.dropPort.editPort h.editPort.editPort)

theorem Result.Canonical.execLaneFailure {port lane} (h : s.Canonical) : Result.Canonical (execLaneFailure port lane s) := .next h.failLane

theorem State.Canonical.endSilence {port} (h : s.Canonical) : (s.endSilence port).Canonical := by
  unfold State.endSilence
  split
  · exact h
  · exact .ite h (.ite (.sendAgain (h.update rfl)) (h.update rfl))

theorem Result.Canonical.execLinkSilenceEnd {port} (h : s.Canonical) : Result.Canonical (execLinkSilenceEnd port s) := .next h.endSilence

theorem Result.Canonical.execPortWreqX4 {port} (h : s.Canonical) : Result.Canonical (execPortWreqX4 port s) := .next (h.update rfl)

theorem Result.Canonical.execPortWreqX8 {port} (h : s.Canonical) : Result.Canonical (execPortWreqX8 port s) := .next (h.update rfl)

theorem Result.Canonical.execPortWreqRetrain {port} (h : s.Canonical) : Result.Canonical (execPortWreqRetrain port s) := .next (h.update rfl)

theorem Result.Canonical.execPortEnWrite {port on} (h : s.Canonical) : Result.Canonical (execPortEnWrite port on s) :=
  .next (.ite (h.update rfl) (.update h.dropPort rfl))

theorem Result.Canonical.execNeighbourStalemate {port} (h : s.Canonical) : Result.Canonical (execNeighbourStalemate port s) :=
  .next (.update h.dropPort rfl)

theorem Result.Canonical.execTierLinkDown {link} (h : s.Canonical) : Result.Canonical (execTierLinkDown link s) := .next (h.update rfl)

theorem Result.Canonical.execUncorrectableError {addr} (h : s.Canonical) : Result.Canonical (execUncorrectableError addr s) :=
  .next (.ite h (h.update rfl))

theorem Result.Canonical.execJobEntryWrite {i value} (h : s.Canonical) : Result.Canonical (execJobEntryWrite i value s) :=
  .next (.ite (h.update rfl) h)

/-! ### Sync -/

theorem Keeps.orderAt {f release acquire} : Keeps (orderAt f release acquire) :=
  .issue (.bind .me fun _ => .bind .self fun _ => .bind .readS fun _ => .when .park (.when (.editS .release) .finish))

theorem Result.Canonical.execFence {f} (h : s.Canonical) : Result.Canonical (execFence f s) := .outcome .orderAt h

theorem Result.Canonical.execAcq {f} (h : s.Canonical) : Result.Canonical (execAcq f s) := .outcome .orderAt h

theorem Result.Canonical.execRel {f} (h : s.Canonical) : Result.Canonical (execRel f s) := .outcome .orderAt h

theorem Result.Canonical.execDrain {f} (h : s.Canonical) : Result.Canonical (execDrain f s) :=
  .outcome (.issue (.bind .self fun _ => .bind .readS fun _ => .when .parkBehind .finish)) h

theorem Result.Canonical.execWatch {f} (h : s.Canonical) : Result.Canonical (execWatch f s) := by
  unfold Machine.execWatch
  refine .outcome (.issue (.bind .self fun _ => .bind .address fun _ => .bind .checkPlace fun _ => .bind .readS fun _ =>
    .bind .heedHome fun _ => .bind (.editS .hear) fun _ => .bind .editSelf fun _ => .bind .readS fun _ => ?_)) h
  dsimp only
  split
  · exact .bind .pure fun _ => .bind .writeX fun _ => .finishReply
  · exact .bind .pure fun _ => .bind .writeX fun _ => .finishReply
  · exact .ite (.bind .pure fun _ => .bind .writeX fun _ => .finishReply) (.bind .editSelf fun _ => .when (.editS fun h =>
      h.update rfl) (.bind .pure fun _ => .bind .writeX fun _ => .finishReply))

theorem Result.Canonical.execUnwatch {f} (h : s.Canonical) : Result.Canonical (execUnwatch f s) :=
  .outcome (.issue (.bind .operandI fun _ => .bind .editSelf fun _ => .finishReply)) h

theorem Result.Canonical.execSleep {f} (h : s.Canonical) : Result.Canonical (execSleep f s) :=
  .outcome (.issue (.bind .me fun _ => .bind .operandI fun _ => .bind .self fun _ => .ite (.bind .editSelf fun _ =>
    .bind (.editS .leave) fun _ => .bind .stopWith fun _ => .bind .editSelf fun _ => .bind .writeX fun _ =>
    .finish) (.bind .editSelf fun _ => .bind .writeX fun _ => .finish))) h

theorem Keeps.barrier {f reads kind} : Keeps (barrier f reads kind) :=
  .issue (.bind .operandX fun _ => .bind .operandB fun _ => .when .trapPlain (.bind .checkAccess fun _ => .startWait))

theorem Result.Canonical.execBar {f} (h : s.Canonical) : Result.Canonical (execBar f s) := .outcome .barrier h

theorem Result.Canonical.execBarw {f} (h : s.Canonical) : Result.Canonical (execBarw f s) := .outcome .barrier h

theorem Result.Canonical.execPutn {f} (h : s.Canonical) : Result.Canonical (execPutn f s) := by
  have send {u core dir : Nat} {isV : Bool} {p : Vec × BitVec 4} : Keeps (do
      let slot ← operandB f
      if (← readS fun s => s.neighbour core dir).isNone then
        writeX f.d.toNat 2
        finish f
      else
        let taken ← readS fun s => ((s.core core).links[dir]?).any (·.isSome) || s.mustQueue .issuer (linkPlace core dir)
        if taken then park (.link core dir)
        let v : LinkVal :=
          { sender := u, slot := slot.toNat % 256, isV := isV, reg := f.c.toNat, bits := p.1, tag := p.2, dest := f.d.toNat,
            len := lenOf f }
        editS fun s => s.editCore core fun k => { k with links := k.links.setIfInBounds dir (some v) }
        park .putn) :=
    .bind .operandB fun _ => .bind .readS fun _ => .ite (.bind .writeX fun _ => .finish)
      (.bind .readS fun _ => .when .park (.bind (.editS .editCore) fun _ => .park))
  exact .outcome (.issue (.bind .me fun _ => .bind .self fun _ => .ite (.bind (.bind .bindVec fun _ => .operandV) fun _ => send)
    (.bind (.bind .operandX fun _ => .pure) fun _ => send))) h

theorem Keeps.presence {f full} : Keeps (presence f full) := .fixed (.ite (.bind .bindVec fun _ => .editSelf) .editSelf)

theorem Result.Canonical.execFempty {f} (h : s.Canonical) : Result.Canonical (execFempty f s) := .outcome .presence h

theorem Result.Canonical.execFfull {f} (h : s.Canonical) : Result.Canonical (execFfull f s) := .outcome .presence h

/-! ### HostLink -/

theorem State.Canonical.landPutn {core v x} (e : s.landPutn core v = some (x, t)) (h : s.Canonical) : t.Canonical := by
  unfold State.landPutn at e
  split at e
  · cases e
    exact h
  · split at e
    · split at e
      · cases e
        exact h
      · split at e
        · cases e
        · cases e
          exact h.setStrand
    · dsimp only at e
      split at e
      · split at e
        · cases e
        · cases e
          exact h.giveX
      · split at e
        · cases e
        · cases e
          exact h.giveX

theorem State.Canonical.deliverPutn {core dir} (h : s.Canonical) : (s.deliverPutn core dir).Canonical := by
  unfold State.deliverPutn
  split
  · exact h
  · dsimp only
    split
    · exact h
    · next e =>
      refine .wake (.movePc (.giveX (.editCore ?_)))
      split at e
      · cases e
        exact h
      · exact h.landPutn e

theorem Result.Canonical.execPutnDelivery {core dir} (h : s.Canonical) : Result.Canonical (execPutnDelivery core dir s) := .next h.deliverPutn

theorem State.Canonical.handle {line core p} (h : s.Canonical) : (s.handle line core p).Canonical := by
  unfold State.handle
  split
  · exact h
  · exact .deliverMsg (h.takeMsg ‹_›)

theorem State.Canonical.homeRequest {line core k} (h : s.Canonical) : (s.homeRequest line core k).Canonical := by
  unfold State.homeRequest
  split
  · exact h
  · exact .ite h h.takeRequest

theorem Result.Canonical.execHomeGets {line core} (h : s.Canonical) : Result.Canonical (execHomeGets line core s) := .next h.homeRequest

theorem Result.Canonical.execHomeGetm {line core} (h : s.Canonical) : Result.Canonical (execHomeGetm line core s) := .next h.homeRequest

theorem Result.Canonical.execHomeUpgrade {line core} (h : s.Canonical) : Result.Canonical (execHomeUpgrade line core s) := .next h.homeRequest

theorem Result.Canonical.execHomePuts {line core} (h : s.Canonical) : Result.Canonical (execHomePuts line core s) := .next h.handle

theorem Result.Canonical.execHomePutOwner {line core} (h : s.Canonical) : Result.Canonical (execHomePutOwner line core s) := .next h.handle

theorem Result.Canonical.execCoreInv {line core} (h : s.Canonical) : Result.Canonical (execCoreInv line core s) := .next h.handle

theorem Result.Canonical.execCoreFwdGets {line core} (h : s.Canonical) : Result.Canonical (execCoreFwdGets line core s) := .next h.handle

theorem Result.Canonical.execCoreFwdGetm {line core} (h : s.Canonical) : Result.Canonical (execCoreFwdGetm line core s) := .next h.handle

theorem Result.Canonical.execCorePutack {line core} (h : s.Canonical) : Result.Canonical (execCorePutack line core s) := .next h.handle

theorem Result.Canonical.execRequesterResponse {line core} (h : s.Canonical) : Result.Canonical (execRequesterResponse line core s) :=
  .next h.handle

theorem Result.Canonical.execRouterProbeDrop {line core} (h : s.Canonical) : Result.Canonical (execRouterProbeDrop line core s) := .next h.handle

theorem State.Canonical.shareLine {line board} (h : s.Canonical) : (s.shareLine line board).Canonical := by
  unfold State.shareLine
  split
  · exact h
  · split
    · exact h
    · split
      · exact .setDir (h.update rfl)
      · exact h.setDir

theorem State.Canonical.shareAll {line} (h : s.Canonical) : (s.shareAll line).Canonical := h.foldl .shareLine

theorem State.Canonical.answer {a} (h : s.Canonical) : (s.answer a).Canonical := h.update rfl

theorem State.Canonical.snoop {line} {answer : State → State} (h : s.Canonical) (ha : ∀ {s}, s.Canonical → (answer s).Canonical) :
    (s.snoop line answer).Canonical := .ite h (ha h.settle)

theorem Result.Canonical.execHostSnoop {line} (h : s.Canonical) : Result.Canonical (execHostSnoop line s) :=
  .next (h.snoop fun h => h.shareAll.answer)

theorem Result.Canonical.execHostSnoopInvalidate {line} (h : s.Canonical) : Result.Canonical (execHostSnoopInvalidate line s) :=
  .next (h.snoop fun h => h.invalidateAll.answer)

theorem State.Canonical.backInvalidated {line} (h : s.Canonical) : (s.backInvalidated line).Canonical :=
  .ite (.releaseLine (.setAgent (h.update rfl))) h

theorem Result.Canonical.execBackInvalidateResponse {line} (h : s.Canonical) : Result.Canonical (execBackInvalidateResponse line s) :=
  .next h.backInvalidated

theorem Result.Canonical.execHdmDecoderCommit {n hpa base size} (h : s.Canonical) : Result.Canonical (execHdmDecoderCommit n hpa base size s) :=
  .next (.ite (h.update rfl) h)

theorem State.Canonical.hostOwns {line} (h : s.Canonical) : (s.hostOwns line).Canonical := .ite h (h.snoop fun h1 => h1.invalidateAll.setAgent)

theorem Result.Canonical.execHostOwnershipRequest {line} (h : s.Canonical) : Result.Canonical (execHostOwnershipRequest line s) := .next h.hostOwns

theorem State.Canonical.hostRead {addr n} (h : s.Canonical) : (s.hostRead addr n).Canonical := by
  unfold State.hostRead
  split
  · exact h
  · exact .ite h (.update (.foldl (h.foldl fun h1 => h1.settle) fun h1 => .setAgent (h1.foldl .downgrade)) rfl)

theorem Result.Canonical.execHostMemRead {addr len} (h : s.Canonical) : Result.Canonical (execHostMemRead addr len s) := .next h.hostRead

theorem State.Canonical.hostWrite {addr bytes} (h : s.Canonical) : (s.hostWrite addr bytes).Canonical := by
  unfold State.hostWrite
  split
  · exact h
  · refine .ite h (.foldl ⟨?_⟩ .written)
    exact Memory.wf_setEnabled _ _ ((h.foldl .settle).foldl .invalidateAll).mem

theorem Result.Canonical.execHostMemWrite {addr bytes} (h : s.Canonical) : Result.Canonical (execHostMemWrite addr bytes s) := .next h.hostWrite

/-! ### Boot -/

theorem State.Canonical.onlyHost (h : s.Canonical) : s.onlyHost.Canonical := h.filter rfl

theorem State.Canonical.stalemate (h : s.Canonical) : s.stalemate.Canonical := .update h.onlyHost rfl

theorem State.Canonical.trained {x1} (h : s.Canonical) : (s.trained x1).Canonical := h.update rfl

theorem State.Canonical.startLoad (h : s.Canonical) : s.startLoad.Canonical := h.update rfl

theorem State.Canonical.powerUp {x1} (h : s.Canonical) : (s.powerUp x1).Canonical := by
  unfold State.powerUp
  extract_lets blank fresh
  have h' : fresh.Canonical := .ite (h.onlyHost.update rfl) h.onlyHost
  clear_value fresh
  split
  · exact .ite (.stalemate (h'.update rfl)) h
  · exact .ite h'.trained.startLoad h'.trained.withBoot

theorem Result.Canonical.execPowerUp {x0} (h : s.Canonical) : Result.Canonical (execPowerUp x0 s) := .next h.powerUp

theorem State.Canonical.writeBgo {v} (h : s.Canonical) : (s.writeBgo v).Canonical := .ite h (.ite (h.update rfl) (.ite (h.update rfl) h))

theorem Result.Canonical.execBgo {value} (h : s.Canonical) : Result.Canonical (execBgo value s) := .next h.writeBgo

theorem Result.Canonical.execD2dLaneFailure {board link} (h : s.Canonical) : Result.Canonical (execD2dLaneFailure board link s) :=
  .next (.ite h.stalemate h)

theorem State.Canonical.loadImage (h : s.Canonical) : s.loadImage.Canonical := by
  unfold State.loadImage
  split
  · exact h
  · refine .ite h (.ite (h.update rfl) ?_)
    dsimp only
    split <;> exact h.update rfl

theorem Result.Canonical.execBootImageLoad (h : s.Canonical) : Result.Canonical (execBootImageLoad s) := .next h.loadImage

theorem State.Canonical.bootWord {pa v} (h : s.Canonical) : (s.bootWord pa v).Canonical := .update h.store rfl

theorem State.Canonical.writePart {board lo hi p} (h : s.Canonical) : (s.writePart board lo hi p).Canonical :=
  h.foldl fun h => .ite h (.markFull ⟨Memory.wf_set _ _ h.mem⟩)

theorem State.Canonical.writePiece {board block last p} (h : s.Canonical) : (s.writePiece board block last p).Canonical :=
  .ite h.writePart.writePart h.writePart

/-- The kernel is led away from computing the 2^19 table words: the definition is unfolded as a function, before it is applied. -/
theorem State.Canonical.startRoot {l} (h : s.Canonical) : (s.startRoot l).Canonical := by
  obtain ⟨f, e⟩ : ∃ f, f = State.startRoot := ⟨_, rfl⟩
  rw [← e]
  delta State.startRoot at e
  subst e
  beta_reduce
  extract_lets words written u
  clear_value words
  have h' : u.Canonical := .setCtx (h.foldl .bootWord)
  clear_value u
  split
  · next e => exact .update (h'.startSeed e) rfl
  · exact h'

theorem State.Canonical.receiveBlock {core block} (h : s.Canonical) : (s.receiveBlock core block).Canonical := by
  unfold State.receiveBlock
  split
  · exact h
  · exact .ite h (.ite (h.update rfl) (.ite (.startRoot (.ite (h.foldl .writePiece) h)) (.update (.ite (h.foldl .writePiece) h) rfl)))

theorem Result.Canonical.execBootBlock {core block} (h : s.Canonical) : Result.Canonical (execBootBlock core block s) := .next h.receiveBlock

/-! ### Fleet -/

theorem State.Canonical.selectCounters {v} (h : s.Canonical) : (s.selectCounters v).Canonical := .ite h (h.update rfl)

theorem State.Canonical.secondSelect {v} (h : s.Canonical) : (s.secondSelect v).Canonical := h.update rfl

theorem State.Canonical.copyCounters {second} (h : s.Canonical) : (s.copyCounters second).Canonical := .ite h (.ite (h.update rfl) (h.update rfl))

theorem Result.Canonical.execCsel {value} (h : s.Canonical) : Result.Canonical (execCsel value s) := .next h.selectCounters

theorem State.Canonical.setFreq {island v} (h : s.Canonical) : (s.setFreq island v).Canonical := .ite h (h.update rfl)

theorem Result.Canonical.execIfreqWrite {island value} (h : s.Canonical) : Result.Canonical (execIfreqWrite island value s) := .next h.setFreq

theorem Result.Canonical.execFreqTransition {island} (h : s.Canonical) : Result.Canonical (execFreqTransition island s) :=
  .next (.ite h (h.update rfl))

theorem Result.Canonical.execThrottleUpdate {power inlet} (h : s.Canonical) : Result.Canonical (execThrottleUpdate power inlet s) :=
  .next (h.update rfl)

theorem State.Canonical.noteWear {island w} (h : s.Canonical) : (s.noteWear island w).Canonical := .ite h (h.update rfl)

theorem Result.Canonical.execWearUpdate {island w} (h : s.Canonical) : Result.Canonical (execWearUpdate island w s) := .next h.noteWear

theorem Result.Canonical.execTokenRefill (h : s.Canonical) : Result.Canonical (execTokenRefill s) := .next (h.update rfl)

theorem Result.Canonical.execBar0UnsupportedAccess {offset size x} (h : s.Canonical) : Result.Canonical (execBar0UnsupportedAccess offset size x s) :=
  .next (.ite h (h.update rfl))

theorem State.Canonical.pldm {ty handle} (h : s.Canonical) : (s.pldm ty handle).Canonical := by
  unfold State.pldm
  refine .ite (h.update rfl) (.ite ?_ ?_)
  · split <;> exact h.update rfl
  · exact h.update rfl

theorem Result.Canonical.execPldmRequest {ty handle} (h : s.Canonical) : Result.Canonical (execPldmRequest ty handle s) := .next h.pldm

theorem Result.Canonical.execSpdmRequest {index} (h : s.Canonical) : Result.Canonical (execSpdmRequest index s) := by
  unfold Machine.execSpdmRequest
  refine .next ?_
  split
  · exact h.update rfl
  · exact h

theorem State.Canonical.writeRegister {r v} (h : s.Canonical) : (s.writeRegister r v).Canonical := by
  unfold State.writeRegister
  split
  · exact .ite h (h.update rfl)
  · exact .ite h (h.update rfl)
  · exact .ite h (h.update rfl)
  · exact .ite h (h.update rfl)
  · exact h.update rfl
  · exact .ite h (h.update rfl)

theorem Result.Canonical.execRegisterWrite {reg value} (h : s.Canonical) : Result.Canonical (execRegisterWrite reg value s) := .next h.writeRegister

/-! ### Waits -/

theorem State.Canonical.endWait {u st} (h : s.Canonical) : (s.endWait u st).Canonical := .wake (.ite (h.update rfl) h)

theorem State.Canonical.arrived {u} (h : s.Canonical) : (s.arrived u).Canonical := by
  unfold State.arrived
  split
  · exact h
  · refine .ite h.endWait ?_
    split
    · exact h
    · split
      · exact h
      · exact .ite (h.update rfl) h

theorem Result.Canonical.execMemoryReply {uid} (h : s.Canonical) : Result.Canonical (execMemoryReply uid s) := .next h.arrived

theorem State.Canonical.visibleNow {u} (h : s.Canonical) : (s.visibleNow u).Canonical := by
  unfold State.visibleNow
  split
  · exact h
  · split
    · exact .ite h.wake h
    · exact h

theorem Result.Canonical.execLeaseClockPassesVismax {uid} (h : s.Canonical) : Result.Canonical (execLeaseClockPassesVismax uid s) :=
  .next h.visibleNow

/-! ### Barrel -/

theorem State.Canonical.bubble {core cause} (h : s.Canonical) : (s.bubble core cause).Canonical := h.update rfl

theorem State.Canonical.stepStop {u st a} (h : s.Canonical) : (s.stepStop u st a).Canonical := h.stopStrand.stepEnds

theorem State.Canonical.prepare {core} (h : s.Canonical) : (s.prepare core).2.Canonical := by
  have refilled {pos} := h.refill (core := core) (pos := pos)
  unfold State.prepare
  dsimp only
  split
  · exact refilled.bubble
  · split
    · exact refilled.bubble
    · refine .ite_snd refilled.setStrand.bubble (.ite_snd refilled.setStrand.bubble (.ite_snd refilled.clockStop.bubble
        (.ite_snd refilled.leave.bubble ?_)))
      split
      · exact .ite_snd (.bubble (.stepStop (.ite refilled refilled.setStrand))) (.inSnd (.ite refilled refilled.setStrand))
      · exact .inSnd (.ite refilled refilled.setStrand)

theorem State.Canonical.begin {u st stream} (h : s.Canonical) : (s.begin u st stream).Canonical := h.update rfl

theorem State.Canonical.fetchFailed {u core pc a} (h : s.Canonical) : (s.fetchFailed u core pc a).Canonical := by
  unfold State.fetchFailed
  split
  · exact h
  · exact h.takeTrap
  · exact .takeTrap (h.update rfl)
  · split
    · exact h.block
    · exact .update h.leave rfl

theorem State.Canonical.endFills {u core pc} (h : s.Canonical) : (s.endFills u core pc).Canonical := .ite h h.dropFills

theorem State.Canonical.afterIssue {u} (h : s.Canonical) : (s.afterIssue u).Canonical := by
  unfold State.afterIssue
  split
  · exact h
  · split
    · exact h.stepStop
    · split
      · exact h.endQuantum
      · exact h
    · exact h

theorem State.Canonical.runStreams (h : s.Canonical) : s.runStreams.Canonical := by
  unfold State.runStreams
  refine State.Canonical.foldl h fun h1 => ?_
  split
  · exact h1.runStream
  · exact h1

theorem State.Canonical.replaceL1 {core line} (h : s.Canonical) : (s.replaceL1 core line).Canonical := by
  unfold State.replaceL1
  split
  · exact h
  · exact .ite h.swmWriteBack.swmDrop h.putLine

theorem State.Canonical.trimL1 {core} {fuel : Nat} (h : s.Canonical) : (s.trimL1 core fuel).Canonical := by
  induction fuel generalizing s with
  | zero => exact h
  | succ fuel ih => exact .ite h (ih h.replaceL1)

theorem State.Canonical.noteAll (h : s.Canonical) : s.noteAll.Canonical := h.foldl .noteResidency

theorem State.Canonical.settleTurn (h : s.Canonical) : s.settleTurn.Canonical :=
  .pump (.noteAll (.endSearches (.hear (.foldl (.runStreams (.runLater (h.update rfl))) fun h => .ite h.trimL1 h))))

/-! ### Atomics -/

theorem Keeps.placeAtomic {x} : Keeps (placeAtomic x) := by
  unfold Machine.placeAtomic
  refine .bind .self fun _ => .bind .readS fun _ => ?_
  split
  · exact .pure
  · exact .editS fun h => h.keepCopies.swmWriteBack.swmDrop.predict
  · exact .bind .readS fun _ => .ite (.editS .getM) (.ite (.editS fun h => h.predict.getM) (.editS fun h => h.predict.invalidateAll))

theorem Keeps.atomic {f op usesC readsD} : Keeps (atomic f op usesC readsD) := by
  unfold Machine.atomic
  refine .issue (.bind .me fun _ => .bind .operandX fun _ => .bind .operandB fun _ => .ite (.bind .readX fun _ => ?_) (.bind .pure fun _ => ?_))
  all_goals refine .ite (.bind .readX fun _ => ?_) (.bind .pure fun _ => ?_)
  all_goals refine .ite .remoteAtomic (.bind .checkAccess fun _ => .bind .readS fun _ => .when .trapAt (.bind .placeAtomic fun _ =>
    .bind .readS fun _ => .ite (.bind .writeX fun _ => .bind .trapWord fun _ => .bind .readS fun _ => ?_) (.bind .readS fun _ => ?_)))
  all_goals exact .bind (.editS fun h => .release (.ite h.noteVt.storeAt h)) fun _ => .bind .writeX fun _ => .finishReply

theorem Result.Canonical.execAadd {f} (h : s.Canonical) : Result.Canonical (execAadd f s) := .outcome .atomic h

theorem Result.Canonical.execAand {f} (h : s.Canonical) : Result.Canonical (execAand f s) := .outcome .atomic h

theorem Result.Canonical.execAor {f} (h : s.Canonical) : Result.Canonical (execAor f s) := .outcome .atomic h

theorem Result.Canonical.execAxor {f} (h : s.Canonical) : Result.Canonical (execAxor f s) := .outcome .atomic h

theorem Result.Canonical.execAmin {f} (h : s.Canonical) : Result.Canonical (execAmin f s) := .outcome .atomic h

theorem Result.Canonical.execAmax {f} (h : s.Canonical) : Result.Canonical (execAmax f s) := .outcome .atomic h

theorem Result.Canonical.execAminu {f} (h : s.Canonical) : Result.Canonical (execAminu f s) := .outcome .atomic h

theorem Result.Canonical.execAmaxu {f} (h : s.Canonical) : Result.Canonical (execAmaxu f s) := .outcome .atomic h

theorem Result.Canonical.execAswap {f} (h : s.Canonical) : Result.Canonical (execAswap f s) := .outcome .atomic h

theorem Result.Canonical.execAcas {f} (h : s.Canonical) : Result.Canonical (execAcas f s) := .outcome .atomic h

theorem Result.Canonical.execAgts {f} (h : s.Canonical) : Result.Canonical (execAgts f s) := .outcome .atomic h

theorem Result.Canonical.execAvcas {f} (h : s.Canonical) : Result.Canonical (execAvcas f s) := .outcome .atomic h

theorem Result.Canonical.execApcas {f} (h : s.Canonical) : Result.Canonical (execApcas f s) := .outcome .atomic h

/-! ### VectorFp -/

theorem Keeps.vfp1 {f op skips} : Keeps (vfp1 f op skips) :=
  .fixed (.bind .vectorStart fun _ => .bind .vreg fun _ => .bind .oldElems fun _ => .bind .checkTags fun _ => .bind .fpEnv fun _ =>
    .bind .deliver fun _ => .skipTurns)

theorem Keeps.vfp2 {f op skips} : Keeps (vfp2 f op skips) :=
  .fixed (.bind .vectorStart fun _ => .bind .fpEnv fun _ => .bind .vreg fun _ => .bind .srcBfp fun _ => .bind .oldElems fun _ =>
    .bind .checkTags fun _ => .bind .deliver fun _ => .skipTurns)

theorem Keeps.vfma3 {f negA negC} : Keeps (vfma3 f negA negC) :=
  .fixed (.bind .vectorStart fun _ => .bind .fpEnv fun _ => .bind .vreg fun _ => .bind .srcBfp fun _ => .bind .vreg fun _ =>
    .bind .oldElems fun _ => .bind .checkTags fun _ => .deliver)

theorem Result.Canonical.execVfadd {f} (h : s.Canonical) : Result.Canonical (execVfadd f s) := .outcome .vfp2 h

theorem Result.Canonical.execVfsub {f} (h : s.Canonical) : Result.Canonical (execVfsub f s) := .outcome .vfp2 h

theorem Result.Canonical.execVfmul {f} (h : s.Canonical) : Result.Canonical (execVfmul f s) := .outcome .vfp2 h

theorem Result.Canonical.execVfma {f} (h : s.Canonical) : Result.Canonical (execVfma f s) := .outcome .vfma3 h

theorem Result.Canonical.execVfms {f} (h : s.Canonical) : Result.Canonical (execVfms f s) := .outcome .vfma3 h

theorem Result.Canonical.execVfnma {f} (h : s.Canonical) : Result.Canonical (execVfnma f s) := .outcome .vfma3 h

theorem Result.Canonical.execVfnms {f} (h : s.Canonical) : Result.Canonical (execVfnms f s) := .outcome .vfma3 h

theorem Result.Canonical.execVfmin {f} (h : s.Canonical) : Result.Canonical (execVfmin f s) := .outcome .vfp2 h

theorem Result.Canonical.execVfmax {f} (h : s.Canonical) : Result.Canonical (execVfmax f s) := .outcome .vfp2 h

theorem Result.Canonical.execVfabs {f} (h : s.Canonical) : Result.Canonical (execVfabs f s) := .outcome .vfp1 h

theorem Result.Canonical.execVfneg {f} (h : s.Canonical) : Result.Canonical (execVfneg f s) := .outcome .vfp1 h

theorem Result.Canonical.execVfcps {f} (h : s.Canonical) : Result.Canonical (execVfcps f s) := .outcome .vfp2 h

theorem Result.Canonical.execVfdiv {f} (h : s.Canonical) : Result.Canonical (execVfdiv f s) := .outcome .vfp2 h

theorem Result.Canonical.execVfsqrt {f} (h : s.Canonical) : Result.Canonical (execVfsqrt f s) := .outcome .vfp1 h

theorem Result.Canonical.execVfrcp {f} (h : s.Canonical) : Result.Canonical (execVfrcp f s) := .outcome .vfp1 h

theorem Result.Canonical.execVfrsq {f} (h : s.Canonical) : Result.Canonical (execVfrsq f s) := .outcome .vfp1 h

theorem Result.Canonical.execVfexp2 {f} (h : s.Canonical) : Result.Canonical (execVfexp2 f s) := .outcome .vfp1 h

theorem Result.Canonical.execVflog2 {f} (h : s.Canonical) : Result.Canonical (execVflog2 f s) := .outcome .vfp1 h

theorem Result.Canonical.execVfsin {f} (h : s.Canonical) : Result.Canonical (execVfsin f s) := .outcome .vfp1 h

theorem Result.Canonical.execVfcos {f} (h : s.Canonical) : Result.Canonical (execVfcos f s) := .outcome .vfp1 h

theorem Result.Canonical.execVftanh {f} (h : s.Canonical) : Result.Canonical (execVftanh f s) := .outcome .vfp1 h

theorem Result.Canonical.execVfrnd {f} (h : s.Canonical) : Result.Canonical (execVfrnd f s) := .outcome .vfp1 h

theorem Result.Canonical.execVfcmp {f} (h : s.Canonical) : Result.Canonical (execVfcmp f s) :=
  .outcome (.fixed (.bind .bindVec fun _ => .bind .fpEnv fun _ => .bind .vreg fun _ => .bind .srcBfp fun _ => .bind .checkTags fun _ =>
    .bind .actives fun _ => .bind .raiseFlags fun _ => .editSelf)) h

theorem Result.Canonical.execVfclass {f} (h : s.Canonical) : Result.Canonical (execVfclass f s) :=
  .outcome (.fixed (.bind .vectorStart fun _ => .bind .vreg fun _ => .bind .oldElems fun _ => .bind .checkTags fun _ =>
    .bind .fpEnv fun _ => .deliver)) h

theorem Result.Canonical.execVfscale {f} (h : s.Canonical) : Result.Canonical (execVfscale f s) :=
  .outcome (.fixed (.bind .vectorStart fun _ => .bind .fpEnv fun _ => .bind .vreg fun _ => .bind .srcBint fun _ => .bind .oldElems fun _ =>
    .bind .checkTags fun _ => .deliver)) h

theorem Result.Canonical.execVfdot2 {f} (h : s.Canonical) : Result.Canonical (execVfdot2 f s) :=
  .outcome (.fixed (.bind .vectorStart fun _ => .bind .fpEnv fun _ => .bind .vreg fun _ => .bind .srcBfp fun _ => .bind .vreg fun _ =>
    .bind .oldElems fun _ => .bind .checkTags fun _ => .deliver)) h

theorem Keeps.convertWith {f op} : Keeps (convertWith f op) := by
  unfold Machine.convertWith
  refine .fixed (.bind .vectorStart fun _ => .bind .vreg fun _ => .ite ?_ ?_)
  · refine .bind (.bind .readV fun _ => ?_) fun _ => .bind .checkTags fun _ => .bind .fpEnv fun _ => .deliver
    split
    exact .pure
  · exact .bind .oldElems fun _ => .bind .checkTags fun _ => .bind .fpEnv fun _ => .deliver

theorem Result.Canonical.execVfcvt {f} (h : s.Canonical) : Result.Canonical (execVfcvt f s) := .outcome .convertWith h

theorem Result.Canonical.execVicvt {f} (h : s.Canonical) : Result.Canonical (execVicvt f s) := .outcome .convertWith h

/-! ### VectorInt -/

theorem Keeps.vint2 {f op} : Keeps (vint2 f op) :=
  .fixed (.bind .vectorStart fun _ => .bind .vreg fun _ => .bind .srcBint fun _ => .bind .oldElems fun _ => .bind .checkTags fun _ => .deliver)

theorem Keeps.vint1 {f op} : Keeps (vint1 f op) :=
  .fixed (.bind .vectorStart fun _ => .bind .vreg fun _ => .bind .oldElems fun _ => .bind .checkTags fun _ => .deliver)

theorem Keeps.vbit {f op} : Keeps (vbit f op) :=
  .fixed (.bind .vectorStart fun _ => .bind .vreg fun _ => .bind .srcBint fun _ => .bind .oldElems fun _ => .deliver)

theorem Result.Canonical.execVadd {f} (h : s.Canonical) : Result.Canonical (execVadd f s) := .outcome .vint2 h

theorem Result.Canonical.execVsub {f} (h : s.Canonical) : Result.Canonical (execVsub f s) := .outcome .vint2 h

theorem Result.Canonical.execVmul {f} (h : s.Canonical) : Result.Canonical (execVmul f s) := .outcome .vint2 h

theorem Result.Canonical.execVmulh {f} (h : s.Canonical) : Result.Canonical (execVmulh f s) := .outcome .vint2 h

theorem Result.Canonical.execVmadd {f} (h : s.Canonical) : Result.Canonical (execVmadd f s) :=
  .outcome (.fixed (.bind .vectorStart fun _ => .bind .vreg fun _ => .bind .srcBint fun _ => .bind .vreg fun _ => .bind .oldElems fun _ =>
    .bind .checkTags fun _ => .deliver)) h

theorem Result.Canonical.execVand {f} (h : s.Canonical) : Result.Canonical (execVand f s) := .outcome .vbit h

theorem Result.Canonical.execVor {f} (h : s.Canonical) : Result.Canonical (execVor f s) := .outcome .vbit h

theorem Result.Canonical.execVxor {f} (h : s.Canonical) : Result.Canonical (execVxor f s) := .outcome .vbit h

theorem Result.Canonical.execVandn {f} (h : s.Canonical) : Result.Canonical (execVandn f s) := .outcome .vbit h

theorem Result.Canonical.execVshl {f} (h : s.Canonical) : Result.Canonical (execVshl f s) := .outcome .vint2 h

theorem Result.Canonical.execVshr {f} (h : s.Canonical) : Result.Canonical (execVshr f s) := .outcome .vint2 h

theorem Result.Canonical.execVsra {f} (h : s.Canonical) : Result.Canonical (execVsra f s) := .outcome .vint2 h

theorem Result.Canonical.execVmin {f} (h : s.Canonical) : Result.Canonical (execVmin f s) := .outcome .vint2 h

theorem Result.Canonical.execVmax {f} (h : s.Canonical) : Result.Canonical (execVmax f s) := .outcome .vint2 h

theorem Result.Canonical.execVminu {f} (h : s.Canonical) : Result.Canonical (execVminu f s) := .outcome .vint2 h

theorem Result.Canonical.execVmaxu {f} (h : s.Canonical) : Result.Canonical (execVmaxu f s) := .outcome .vint2 h

theorem Result.Canonical.execVabs {f} (h : s.Canonical) : Result.Canonical (execVabs f s) := .outcome .vint1 h

theorem Result.Canonical.execVadds {f} (h : s.Canonical) : Result.Canonical (execVadds f s) := .outcome .vint2 h

theorem Result.Canonical.execVsubs {f} (h : s.Canonical) : Result.Canonical (execVsubs f s) := .outcome .vint2 h

theorem Result.Canonical.execVclz {f} (h : s.Canonical) : Result.Canonical (execVclz f s) := .outcome .vint1 h

theorem Result.Canonical.execVpopc {f} (h : s.Canonical) : Result.Canonical (execVpopc f s) := .outcome .vint1 h

theorem Result.Canonical.execVcmp {f} (h : s.Canonical) : Result.Canonical (execVcmp f s) :=
  .outcome (.fixed (.bind .bindVec fun _ => .bind .vreg fun _ => .bind .srcBint fun _ => .bind .checkTags fun _ => .bind .actives fun _ =>
    .editSelf)) h

theorem Result.Canonical.execVsel {f} (h : s.Canonical) : Result.Canonical (execVsel f s) := by
  unfold Machine.execVsel
  refine .outcome (.fixed (.bind .vectorStart fun _ => .bind .vreg fun _ => .ite (.bind .vreg fun _ => .bind .actives fun _ =>
    .bind .writeV fun _ => .raiseFlags) (.bind (.bind .scalarAny fun _ => ?_) fun _ => .bind .actives fun _ => .bind .writeV fun _ => .raiseFlags))) h
  split
  exact .pure

theorem Result.Canonical.execVtag {f} (h : s.Canonical) : Result.Canonical (execVtag f s) := by
  unfold Machine.execVtag
  refine .outcome (.fixed (.bind .vectorStart fun _ => .bind .operandV fun _ => ?_)) h
  split
  exact .writeV

theorem Result.Canonical.execVfill {f} (h : s.Canonical) : Result.Canonical (execVfill f s) := by
  have rest {p : Nat × Flags} : Keeps (do
      let old ← oldElems f (Shape.widthOf f.fmt.toNat)
      deliver f (Shape.widthOf f.fmt.toNat) f.fmt old
        (List.replicate (4096 / Shape.widthOf f.fmt.toNat) (p.1 % 2 ^ Shape.widthOf f.fmt.toNat, 0)) p.2) :=
    .bind .oldElems fun _ => .deliver
  exact .outcome (.fixed (.bind .vectorStart fun _ => .ite (.bind (.bind .operandX fun _ => .pure) fun _ => rest)
    (.bind .scalarAny fun _ => rest))) h

theorem Result.Canonical.execVmov {f} (h : s.Canonical) : Result.Canonical (execVmov f s) :=
  .outcome (.fixed (.bind .vectorStart fun _ => .bind .vreg fun _ => .bind .oldElems fun _ => .deliver)) h

/-! ### VectorMove -/

theorem Keeps.permute {f vecB scalar vecC el} : Keeps (permute f vecB scalar vecC el) := by
  unfold Machine.permute
  refine .fixed (.bind .vectorStart fun _ => .bind .vreg fun _ => .ite ?_ ?_)
  · refine .bind .vreg fun _ => .ite ?_ ?_
    · exact .bind .operandB fun _ => .ite (.bind .vreg fun _ => .bind .oldElems fun _ => .deliver) (.bind .pure fun _ =>
        .bind .oldElems fun _ => .deliver)
    · exact .bind .pure fun _ => .ite (.bind .vreg fun _ => .bind .oldElems fun _ => .deliver) (.bind .pure fun _ =>
        .bind .oldElems fun _ => .deliver)
  · refine .bind .pure fun _ => .ite ?_ ?_
    · exact .bind .operandB fun _ => .ite (.bind .vreg fun _ => .bind .oldElems fun _ => .deliver) (.bind .pure fun _ =>
        .bind .oldElems fun _ => .deliver)
    · exact .bind .pure fun _ => .ite (.bind .vreg fun _ => .bind .oldElems fun _ => .deliver) (.bind .pure fun _ =>
        .bind .oldElems fun _ => .deliver)

theorem Result.Canonical.execVshuf {f} (h : s.Canonical) : Result.Canonical (execVshuf f s) := .outcome .permute h

theorem Result.Canonical.execVperm {f} (h : s.Canonical) : Result.Canonical (execVperm f s) := .outcome .permute h

theorem Result.Canonical.execVbcast {f} (h : s.Canonical) : Result.Canonical (execVbcast f s) := .outcome .permute h

theorem Result.Canonical.execVslideu {f} (h : s.Canonical) : Result.Canonical (execVslideu f s) := .outcome .permute h

theorem Result.Canonical.execVslided {f} (h : s.Canonical) : Result.Canonical (execVslided f s) := .outcome .permute h

theorem Result.Canonical.execVzip {f} (h : s.Canonical) : Result.Canonical (execVzip f s) := .outcome .permute h

theorem Result.Canonical.execVuzip {f} (h : s.Canonical) : Result.Canonical (execVuzip f s) := .outcome .permute h

theorem Result.Canonical.execVcomp {f} (h : s.Canonical) : Result.Canonical (execVcomp f s) :=
  .outcome (.fixed (.bind .vectorStart fun _ => .bind .vreg fun _ => .bind .actives fun _ => .writeV)) h

theorem Result.Canonical.execVexp {f} (h : s.Canonical) : Result.Canonical (execVexp f s) :=
  .outcome (.fixed (.bind .vectorStart fun _ => .bind .vreg fun _ => .bind .oldElems fun _ => .bind .actives fun _ => .writeV)) h

theorem Result.Canonical.execVins {f} (h : s.Canonical) : Result.Canonical (execVins f s) := by
  unfold Machine.execVins
  refine .outcome (.fixed (.bind .vectorStart fun _ => .bind .operandX fun _ => .bind .operandB fun _ => .bind .readV fun _ => ?_)) h
  split
  exact .writeV

theorem Result.Canonical.execVext {f} (h : s.Canonical) : Result.Canonical (execVext f s) :=
  .outcome (.fixed (.bind .bindVec fun _ => .bind .vreg fun _ => .bind .operandB fun _ => .writeX)) h

theorem Keeps.startValue {f code w} : Keeps (startValue f code w) := by
  unfold Machine.startValue
  refine .ite (.ite .pure (.bind .vreg fun _ => .pure)) (.bind .scalarAny fun _ => ?_)
  split
  exact .pure

theorem Keeps.reductionSources {f} : Keeps (reductionSources f) := by
  unfold Machine.reductionSources
  refine .bind .vectorStart fun _ => .bind .vreg fun _ => .bind .startValue fun _ => ?_
  split
  exact .bind .checkTags fun _ => .bind .actives fun _ => .pure

theorem Keeps.reduction {f op absent} : Keeps (reduction f op absent) := by
  unfold Machine.reduction
  refine .fixed (.bind .fpEnv fun _ => .bind .reductionSources fun _ => ?_)
  split
  split
  split
  exact .bind .writeV fun _ => .raiseFlags

theorem Result.Canonical.execVredadd {f} (h : s.Canonical) : Result.Canonical (execVredadd f s) := .outcome .reduction h

theorem Result.Canonical.execVredmax {f} (h : s.Canonical) : Result.Canonical (execVredmax f s) := .outcome .reduction h

theorem Result.Canonical.execVredmin {f} (h : s.Canonical) : Result.Canonical (execVredmin f s) := .outcome .reduction h

theorem Result.Canonical.execVredand {f} (h : s.Canonical) : Result.Canonical (execVredand f s) := .outcome .reduction h

theorem Result.Canonical.execVredor {f} (h : s.Canonical) : Result.Canonical (execVredor f s) := .outcome .reduction h

theorem Result.Canonical.execVscanadd {f} (h : s.Canonical) : Result.Canonical (execVscanadd f s) := by
  unfold Machine.execVscanadd
  refine .outcome (.fixed (.bind .fpEnv fun _ => .bind .reductionSources fun _ => ?_)) h
  split
  split
  exact .bind .writeV fun _ => .raiseFlags

/-! ### Dispatch -/

/-- Every instruction and event keeps it. -/
theorem Result.Canonical.exec {i : Instr} (h : s.Canonical) : Result.Canonical (exec i s) :=
  match i with
  | .nop _ => .execNop h
  | .add _ => .execAdd h
  | .addi _ => .execAddi h
  | .sub _ => .execSub h
  | .mul _ => .execMul h
  | .mulh _ => .execMulh h
  | .mulhu _ => .execMulhu h
  | .div _ => .execDiv h
  | .divu _ => .execDivu h
  | .rem _ => .execRem h
  | .remu _ => .execRemu h
  | .and _ => .execAnd h
  | .andi _ => .execAndi h
  | .or _ => .execOr h
  | .ori _ => .execOri h
  | .xor _ => .execXor h
  | .xori _ => .execXori h
  | .andn _ => .execAndn h
  | .shl _ => .execShl h
  | .shr _ => .execShr h
  | .sra _ => .execSra h
  | .rotl _ => .execRotl h
  | .clz _ => .execClz h
  | .ctz _ => .execCtz h
  | .popc _ => .execPopc h
  | .brev _ => .execBrev h
  | .bswap _ => .execBswap h
  | .min _ => .execMin h
  | .max _ => .execMax h
  | .minu _ => .execMinu h
  | .maxu _ => .execMaxu h
  | .sel _ => .execSel h
  | .extb _ => .execExtb h
  | .insb _ => .execInsb h
  | .li _ => .execLi h
  | .lih _ => .execLih h
  | .lit _ => .execLit h
  | .lea _ => .execLea h
  | .cmp _ => .execCmp h
  | .cmpi _ => .execCmpi h
  | .b _ => .execB h
  | .bp _ => .execBp h
  | .call _ => .execCall h
  | .calli _ => .execCalli h
  | .jmpi _ => .execJmpi h
  | .ret _ => .execRet h
  | .throw _ => .execThrow h
  | .plim _ => .execPlim h
  | .pwhile _ => .execPwhile h
  | .pand _ => .execPand h
  | .por _ => .execPor h
  | .pxor _ => .execPxor h
  | .pnot _ => .execPnot h
  | .pfirst _ => .execPfirst h
  | .pcnt _ => .execPcnt h
  | .pmovxRd _ => .execPmovxRd h
  | .pmovxWr _ => .execPmovxWr h
  | .vwid _ => .execVwid h
  | .vfadd _ => .execVfadd h
  | .vfsub _ => .execVfsub h
  | .vfmul _ => .execVfmul h
  | .vfma _ => .execVfma h
  | .vfms _ => .execVfms h
  | .vfnma _ => .execVfnma h
  | .vfnms _ => .execVfnms h
  | .vfmin _ => .execVfmin h
  | .vfmax _ => .execVfmax h
  | .vfabs _ => .execVfabs h
  | .vfneg _ => .execVfneg h
  | .vfcps _ => .execVfcps h
  | .vfdiv _ => .execVfdiv h
  | .vfsqrt _ => .execVfsqrt h
  | .vfrcp _ => .execVfrcp h
  | .vfrsq _ => .execVfrsq h
  | .vfexp2 _ => .execVfexp2 h
  | .vflog2 _ => .execVflog2 h
  | .vfsin _ => .execVfsin h
  | .vfcos _ => .execVfcos h
  | .vftanh _ => .execVftanh h
  | .vfcmp _ => .execVfcmp h
  | .vfclass _ => .execVfclass h
  | .vfcvt _ => .execVfcvt h
  | .vfrnd _ => .execVfrnd h
  | .vfscale _ => .execVfscale h
  | .vfdot2 _ => .execVfdot2 h
  | .vadd _ => .execVadd h
  | .vsub _ => .execVsub h
  | .vmul _ => .execVmul h
  | .vmulh _ => .execVmulh h
  | .vmadd _ => .execVmadd h
  | .vand _ => .execVand h
  | .vor _ => .execVor h
  | .vxor _ => .execVxor h
  | .vandn _ => .execVandn h
  | .vshl _ => .execVshl h
  | .vshr _ => .execVshr h
  | .vsra _ => .execVsra h
  | .vmin _ => .execVmin h
  | .vmax _ => .execVmax h
  | .vminu _ => .execVminu h
  | .vmaxu _ => .execVmaxu h
  | .vabs _ => .execVabs h
  | .vadds _ => .execVadds h
  | .vsubs _ => .execVsubs h
  | .vcmp _ => .execVcmp h
  | .vsel _ => .execVsel h
  | .vclz _ => .execVclz h
  | .vpopc _ => .execVpopc h
  | .vtag _ => .execVtag h
  | .vfill _ => .execVfill h
  | .vmov _ => .execVmov h
  | .vrel _ => .execVrel h
  | .vshuf _ => .execVshuf h
  | .vperm _ => .execVperm h
  | .vbcast _ => .execVbcast h
  | .vslideu _ => .execVslideu h
  | .vslided _ => .execVslided h
  | .vcomp _ => .execVcomp h
  | .vexp _ => .execVexp h
  | .vzip _ => .execVzip h
  | .vuzip _ => .execVuzip h
  | .vins _ => .execVins h
  | .vext _ => .execVext h
  | .vredadd _ => .execVredadd h
  | .vredmax _ => .execVredmax h
  | .vredmin _ => .execVredmin h
  | .vredand _ => .execVredand h
  | .vredor _ => .execVredor h
  | .vscanadd _ => .execVscanadd h
  | .vicvt _ => .execVicvt h
  | .vld _ => .execVld h
  | .vst _ => .execVst h
  | .vlds _ => .execVlds h
  | .vsts _ => .execVsts h
  | .vgath _ => .execVgath h
  | .vscat _ => .execVscat h
  | .vldff _ => .execVldff h
  | .ld _ => .execLd h
  | .st _ => .execSt h
  | .lds _ => .execLds h
  | .sts _ => .execSts h
  | .ldf _ => .execLdf h
  | .ste _ => .execSte h
  | .few _ => .execFew h
  | .ldx _ => .execLdx h
  | .stx _ => .execStx h
  | .pref _ => .execPref h
  | .cflush _ => .execCflush h
  | .cinv _ => .execCinv h
  | .aadd _ => .execAadd h
  | .aand _ => .execAand h
  | .aor _ => .execAor h
  | .axor _ => .execAxor h
  | .amin _ => .execAmin h
  | .amax _ => .execAmax h
  | .aminu _ => .execAminu h
  | .amaxu _ => .execAmaxu h
  | .aswap _ => .execAswap h
  | .acas _ => .execAcas h
  | .agts _ => .execAgts h
  | .avcas _ => .execAvcas h
  | .apcas _ => .execApcas h
  | .fence _ => .execFence h
  | .acq _ => .execAcq h
  | .rel _ => .execRel h
  | .drain _ => .execDrain h
  | .watch _ => .execWatch h
  | .unwatch _ => .execUnwatch h
  | .sleep _ => .execSleep h
  | .bar _ => .execBar h
  | .barw _ => .execBarw h
  | .putn _ => .execPutn h
  | .fempty _ => .execFempty h
  | .ffull _ => .execFfull h
  | .loop _ => .execLoop h
  | .lend _ => .execLend h
  | .lbrk _ => .execLbrk h
  | .dsplit _ => .execDsplit h
  | .djoin _ => .execDjoin h
  | .qpush _ => .execQpush h
  | .qpop _ => .execQpop h
  | .qbr _ => .execQbr h
  | .iter _ => .execIter h
  | .tidx _ => .execTidx h
  | .texp _ => .execTexp h
  | .brko _ => .execBrko h
  | .spawn _ => .execSpawn h
  | .susp _ => .execSusp h
  | .resm _ => .execResm h
  | .finb _ => .execFinb h
  | .fine _ => .execFine h
  | .finw _ => .execFinw h
  | .migr _ => .execMigr h
  | .armt _ => .execArmt h
  | .msg _ => .execMsg h
  | .launch _ => .execLaunch h
  | .trigger _ => .execTrigger h
  | .waitp _ => .execWaitp h
  | .gang _ => .execGang h
  | .mma _ => .execMma h
  | .mprog _ => .execMprog h
  | .mzero _ => .execMzero h
  | .mrd _ => .execMrd h
  | .mwr _ => .execMwr h
  | .mst _ => .execMst h
  | .eset _ => .execEset h
  | .eget _ => .execEget h
  | .ego _ => .execEgo h
  | .ecan _ => .execEcan h
  | .eqry _ => .execEqry h
  | .cpy _ => .execCpy h
  | .cpyr _ => .execCpyr h
  | .cpyrow _ => .execCpyrow h
  | .cbook _ => .execCbook h
  | .mres _ => .execMres h
  | .tstop _ => .execTstop h
  | .tstart _ => .execTstart h
  | .tread _ => .execTread h
  | .twrite _ => .execTwrite h
  | .tstep _ => .execTstep h
  | .tgrant _ => .execTgrant h
  | .trevoke _ => .execTrevoke h
  | .srd _ => .execSrd h
  | .swr _ => .execSwr h
  | .vtime _ => .execVtime h
  | .trap _ => .execTrap h
  | .brk _ => .execBrk h
  | .psplit _ => .execPsplit h
  | .pmerge _ => .execPmerge h
  | .genbump _ => .execGenbump h
  | .cast _ => .execCast h
  | .step _ => .execStep h
  | .tlbinv _ => .execTlbinv h
  | .cohere _ => .execCohere h
  | .exit _ => .execExit h
  | .exitChild _ => .execExitChild h
  | .yield _ => .execYield h
  | .barrelRefill _ _ => .execBarrelRefill h
  | .quantumEnd _ _ => .execQuantumEnd h
  | .itemDispatch _ => .execItemDispatch h
  | .spillReload _ => .execSpillReload h
  | .continuationPickup _ => .execContinuationPickup h
  | .migrationArrival _ => .execMigrationArrival h
  | .memoryReply _ => .execMemoryReply h
  | .syncRetry _ => .execSyncRetry h
  | .launchAdmission _ => .execLaunchAdmission h
  | .launchAging _ => .execLaunchAging h
  | .launchCompletion _ => .execLaunchCompletion h
  | .stealProbe _ _ => .execStealProbe h
  | .armtDeferredPush _ _ => .execArmtDeferredPush h
  | .tempoDelivery _ _ _ _ => .execTempoDelivery h
  | .breakIndexRecord _ _ => .execBreakIndexRecord h
  | .matrixCommandRun _ => .execMatrixCommandRun h
  | .gangBarrier _ => .execGangBarrier h
  | .ksplitSumArrival _ => .execKsplitSumArrival h
  | .tileCommandRun _ => .execTileCommandRun h
  | .mstRun _ => .execMstRun h
  | .copyCommandRun _ => .execCopyCommandRun h
  | .cpyrRun _ => .execCpyrRun h
  | .cpyrowRun _ => .execCpyrowRun h
  | .cbookRun _ => .execCbookRun h
  | .homeGets _ _ => .execHomeGets h
  | .homeGetm _ _ => .execHomeGetm h
  | .homeUpgrade _ _ => .execHomeUpgrade h
  | .homePuts _ _ => .execHomePuts h
  | .homePutOwner _ _ => .execHomePutOwner h
  | .coreInv _ _ => .execCoreInv h
  | .coreFwdGets _ _ => .execCoreFwdGets h
  | .coreFwdGetm _ _ => .execCoreFwdGetm h
  | .corePutack _ _ => .execCorePutack h
  | .requesterResponse _ _ => .execRequesterResponse h
  | .routerProbeDrop _ _ => .execRouterProbeDrop h
  | .hostSnoop _ => .execHostSnoop h
  | .hostSnoopInvalidate _ => .execHostSnoopInvalidate h
  | .backInvalidateResponse _ => .execBackInvalidateResponse h
  | .hostOwnershipRequest _ => .execHostOwnershipRequest h
  | .leaseExpiry _ => .execLeaseExpiry h
  | .wrapPause => .execWrapPause h
  | .leaseSyncSend _ => .execLeaseSyncSend h
  | .fabricLeaseSync _ => .execFabricLeaseSync h
  | .fabricPauseControl _ => .execFabricPauseControl h
  | .tokenRefill => .execTokenRefill h
  | .putnDelivery _ _ => .execPutnDelivery h
  | .stop => .execStop h
  | .resume => .execResume h
  | .switch => .execSwitch h
  | .prefetch => .execPrefetch h
  | .clockStopAtT => .execClockStopAtT h
  | .sweepToken _ => .execSweepToken h
  | .unitMove => .execUnitMove h
  | .scrubWalkEnd _ => .execScrubWalkEnd h
  | .create _ => .execCreate h
  | .destroy _ => .execDestroy h
  | .quota _ => .execQuota h
  | .inval _ => .execInval h
  | .hdmDecoderCommit _ _ _ _ => .execHdmDecoderCommit h
  | .hostMemRead _ _ => .execHostMemRead h
  | .hostMemWrite _ _ => .execHostMemWrite h
  | .fabricLdx _ => .execFabricLdx h
  | .fabricStx _ => .execFabricStx h
  | .fabricRemoteAtomic _ => .execFabricRemoteAtomic h
  | .fabricMsgMailbox _ => .execFabricMsgMailbox h
  | .fabricMsgTag _ => .execFabricMsgTag h
  | .fabricDataResponse _ => .execFabricDataResponse h
  | .fabricAck _ => .execFabricAck h
  | .fabricFailure _ => .execFabricFailure h
  | .streamResend _ => .execStreamResend h
  | .streamRecordFree _ _ _ => .execStreamRecordFree h
  | .unexpectedPacketTimeout _ => .execUnexpectedPacketTimeout h
  | .flitCrcFail _ => .execFlitCrcFail h
  | .replayRequest _ _ => .execReplayRequest h
  | .laneFailure _ _ => .execLaneFailure h
  | .linkSilenceEnd _ => .execLinkSilenceEnd h
  | .portWreqX4 _ => .execPortWreqX4 h
  | .portWreqX8 _ => .execPortWreqX8 h
  | .portWreqRetrain _ => .execPortWreqRetrain h
  | .portEnWrite _ _ => .execPortEnWrite h
  | .tierLinkDown _ => .execTierLinkDown h
  | .d2dLaneFailure _ _ => .execD2dLaneFailure h
  | .powerUp _ => .execPowerUp h
  | .bgo _ => .execBgo h
  | .bootImageLoad => .execBootImageLoad h
  | .bootBlock _ _ => .execBootBlock h
  | .csel _ => .execCsel h
  | .ifreqWrite _ _ => .execIfreqWrite h
  | .freqTransition _ => .execFreqTransition h
  | .throttleUpdate _ _ => .execThrottleUpdate h
  | .wearUpdate _ _ => .execWearUpdate h
  | .bar0UnsupportedAccess _ _ w => .execBar0UnsupportedAccess (x := w) h
  | .pldmRequest _ _ => .execPldmRequest h
  | .spdmRequest _ => .execSpdmRequest h
  | .registerWrite _ _ => .execRegisterWrite h
  | .leaseClockPassesVismax _ => .execLeaseClockPassesVismax h
  | .neighbourStalemate _ => .execNeighbourStalemate h
  | .jobEntryWrite _ _ => .execJobEntryWrite h
  | .uncorrectableError _ => .execUncorrectableError h

/-! ### Schedule -/

theorem Result.Canonical.runAt {u core ctx lrec pc} {after : State → State} (h : s.Canonical) (ha : ∀ {s}, s.Canonical → (after s).Canonical) :
    Result.Canonical (s.runAt u core ctx lrec pc after) := by
  unfold State.runAt
  split
  · next e =>
    have ran {i} := Result.Canonical.exec (i := i) (State.Canonical.snd e h.fetch)
    split
    · next e => exact .next (ha (ran.next_state e).endFills)
    · exact .fault
    · exact .refused
  · exact .next (ha (.fetchFailed (.snd ‹_› h.fetch)))

theorem State.Canonical.closeIssue {u core} (h : s.Canonical) : (State.closeIssue u core s).Canonical := .settleTurn (.update h.afterIssue rfl)

theorem Result.Canonical.issueStrand {core u st} (h : s.Canonical) : Result.Canonical (s.issueStrand core u st) := .runAt h.begin .closeIssue

theorem Result.Canonical.cycle {core} (h : s.Canonical) : Result.Canonical (s.cycle core) := by
  unfold State.cycle
  split
  · next e => exact .next (.settleTurn (.snd e h.prepare))
  · next e => exact .issueStrand (.snd e h.prepare)

theorem Result.Canonical.sequence {core} (h : s.Canonical) : Result.Canonical (s.sequence core) := by
  unfold State.sequence
  split
  · exact .next h
  · exact .runAt h.begin .settleTurn

theorem Result.Canonical.close {e : State → Result} (he : KeepsEvent e) (h : s.Canonical) : Result.Canonical (State.close e s) := by
  have ran := he.canonical h
  unfold State.close
  split
  · next e => exact .next (ran.next_state e).settleTurn
  · exact .fault
  · exact .refused

theorem Result.Canonical.perform1 {d} (h : s.Canonical) : Result.Canonical (s.perform1 d) := by
  unfold State.perform1
  split
  · exact .cycle h
  · exact .sequence h
  · exact .close ⟨.exec⟩ h
  · exact .next h.replaceL1.settleTurn
  · exact .next h.editCore
  · exact .next h.editCore
  · exact .next h.takeTailAck.settleTurn
  · exact .next h.copyCounters
  · exact .next h.secondSelect

theorem State.Canonical.tick {n} (h : s.Canonical) : (s.tick n).Canonical := h.update rfl

theorem KeepsEvent.cohMsg {m : CohMsg} : KeepsEvent (m.event s) := by
  unfold CohMsg.event
  extract_lets probe
  have probed {i r} (hi : KeepsEvent i) : KeepsEvent (probe i r) := by
    unfold probe
    split
    · exact ⟨.execRouterProbeDrop⟩
    · exact hi
  split
  · exact ⟨.execHomeGets⟩
  · exact ⟨.execHomeGetm⟩
  · exact ⟨.execHomeUpgrade⟩
  · exact ⟨.execHomePuts⟩
  · exact ⟨.execHomePutOwner⟩
  · exact probed ⟨.execCoreInv⟩
  · exact probed ⟨.execCoreFwdGets⟩
  · exact probed ⟨.execCoreFwdGetm⟩
  · exact ⟨.execCorePutack⟩
  · exact ⟨.execRequesterResponse⟩

theorem KeepEvents.packetEvent {ty p} : KeepEvents (packetEvent ty p) := by
  unfold Machine.packetEvent
  split
  · exact .one ⟨.execFabricLdx⟩
  · exact .one ⟨.execFabricStx⟩
  · exact .one ⟨.execFabricRemoteAtomic⟩
  · exact .one ⟨.execFabricMsgMailbox⟩
  · exact .one ⟨.execFabricMsgTag⟩
  · exact .one ⟨.execFabricDataResponse⟩
  · exact .one ⟨.execFabricAck⟩
  · exact .one ⟨.execFabricFailure⟩
  · exact .one ⟨.execFabricLeaseSync⟩
  · exact .one ⟨.execFabricPauseControl⟩
  · exact .nil

theorem KeepEvents.nextBlock : KeepEvents s.nextBlock := by
  unfold State.nextBlock
  split
  · exact .nil
  · split
    · exact .one ⟨.execBootBlock⟩
    · exact .nil

theorem KeepEvents.coreEvents {core k} : KeepEvents (coreEvents core k) :=
  have engines : KeepEvents [execMatrixCommandRun core, execGangBarrier core, execKsplitSumArrival core, execTileCommandRun core,
      execMstRun core, execCopyCommandRun core, execCpyrRun core, execCpyrowRun core, execCbookRun core] :=
    .cons ⟨.execMatrixCommandRun⟩ (.cons ⟨.execGangBarrier⟩ (.cons ⟨.execKsplitSumArrival⟩ (.cons ⟨.execTileCommandRun⟩ (.cons ⟨.execMstRun⟩
      (.cons ⟨.execCopyCommandRun⟩ (.cons ⟨.execCpyrRun⟩ (.cons ⟨.execCpyrowRun⟩ (.one ⟨.execCbookRun⟩))))))))
  .append (.append (.ite .nil engines) (.map ⟨.execPutnDelivery⟩)) (.ite .nil (.cons ⟨.execContinuationPickup⟩ (.one ⟨.execMigrationArrival⟩)))

theorem KeepEvents.launchEvents {lrec l} : KeepEvents (s.launchEvents lrec l) :=
  .append (.append (.append (.map ⟨.execTempoDelivery⟩) (.map ⟨.execBreakIndexRecord⟩)) (.ite (.map ⟨.execStealProbe⟩) .nil))
    (.cons ⟨.execLaunchCompletion⟩ (.cons ⟨.execLaunchAging⟩ (.cons ⟨.execLaunchAdmission⟩ (.one ⟨.execItemDispatch⟩))))

theorem KeepEvents.castEvents : KeepEvents s.castEvents := by
  unfold State.castEvents
  refine .ite .nil (.cons ⟨.execStop⟩ (.cons ⟨.execResume⟩ (.cons ⟨.execSwitch⟩ (.cons ⟨.execPrefetch⟩ (.cons ⟨.execClockStopAtT⟩
    (.cons ⟨.execUnitMove⟩ ?_))))))
  split
  · split
    · exact .one ⟨.execSweepToken⟩
    · exact .nil
  · exact .nil

theorem KeepEvents.pending : KeepEvents s.pending := by
  unfold State.pending
  refine .append (.append (.append (.append (.append (.append (.append (.append (.append (.append (.append (.append (.append (.append
    (.append (.append ?strands ?waiters) ?cores) ?launches) ?messages) ?tags) ?requesters) .castEvents) ?image) .nextBlock) ?packets)
    ?resent) ?pause) ?acks) ?window) ?second) ?leases
  case strands => exact .flatMap (.append (.ite (.one ⟨.execMemoryReply⟩) .nil) (.ite (.one ⟨.execSpillReload⟩) .nil))
  case waiters => exact .map ⟨.execSyncRetry⟩
  case cores => exact .flatMap .coreEvents
  case launches => exact .flatMap .launchEvents
  case messages => exact .map .cohMsg
  case tags => exact .map ⟨.execArmtDeferredPush⟩
  case requesters => exact .flatMap (.cons ⟨.execCreate⟩ (.cons ⟨.execDestroy⟩ (.cons ⟨.execQuota⟩ (.one ⟨.execInval⟩))))
  case image => exact .ite (.one ⟨.execBootImageLoad⟩) .nil
  case packets => exact .flatMap .packetEvent
  case resent => exact .map ⟨fun h => .next h.resend⟩
  case pause => exact .ite (.one ⟨.execWrapPause⟩) .nil
  case acks =>
    refine .filterMap fun e => ?_
    split at e
    · cases e
    · cases e
      exact ⟨fun h => .next h.takeTailAck⟩
  case window => exact .ite (.one ⟨fun h => .next h.copyCounters⟩) .nil
  case second => exact .ite (.one ⟨fun h => .next h.copyCounters⟩) .nil
  case leases =>
    refine .filterMap fun e => ?_
    split at e
    · cases e
      exact ⟨.execLeaseExpiry⟩
    · cases e

theorem KeepsEvent.due {e : State → Result} (due : s.due = some e) : KeepsEvent e := by
  unfold State.due at due
  split at due
  · next found =>
    cases due
    exact ⟨.close (KeepEvents.pending.each _ (List.mem_of_find?_eq_some found))⟩
  · obtain ⟨c, -, rfl⟩ := Option.map_eq_some_iff.mp due
    exact ⟨.sequence⟩

theorem Result.Canonical.runCore {core} {fuel : Nat} (h : s.Canonical) : Result.Canonical (s.runCore core fuel) := by
  induction fuel generalizing s with
  | zero => exact .next h
  | succ fuel ih =>
    unfold State.runCore
    split
    · exact .issueStrand (.snd ‹_› h.prepare)
    · exact ih (.tick (.settleTurn (.snd ‹_› h.prepare)))

theorem Result.Canonical.defaultStep (h : s.Canonical) : Result.Canonical s.defaultStep := by
  unfold State.defaultStep
  split
  · next due => exact (KeepsEvent.due due).canonical h
  · split
    · exact .runCore (.tick (h.update rfl))
    · exact .next h.tick

theorem Result.Canonical.takeTurn (h : s.Canonical) : Result.Canonical (s.takeTurn) := by
  unfold State.takeTurn
  split
  · exact .perform1 (h.update rfl)
  · exact .defaultStep h

/-! ### Step -/

theorem Result.Canonical.step (h : s.Canonical) : Result.Canonical (step s) := .takeTurn h

/-! ### The obligation -/

/-- Settles O58: a step is the first turn of the agenda or the default step, and every function of the model that they call keeps the
canonical form. -/
theorem stepKeepsMemoryCanonical : Obligations.StepKeepsMemoryCanonical :=
  fun _ _ canonical stepped => ((Result.Canonical.step ⟨canonical⟩).next_state stepped).mem

end Sys2Proof.Machine
end

section
/-!
EVERY STEP ENDS ITS TURN (O57).

A turn of a barrel, of a sequencer or of an event ends with `State.settleTurn`, which first sets that nobody issues. What it does then tries
chores again, runs streams of operations and moves packets, and none of it begins an issue: `State.turn`, who issues and for which stream, is
the same behind each function of the model on that path. There is one equation for each, in the model's order, that cites those of the
functions it calls. The steps that end no turn (a replacement in a cache, a copy of counters, the clock) leave `State.turn` alone.
-/

namespace Sys2Proof.Machine

variable {s t : State} {α : Type}

/-- Who issues, and for which stream. -/
def State.turn (s : State) : Option Nat × Stream := (s.cur, s.stream)

theorem State.atRest_iff : s.AtRest ↔ s.turn = (none, .execute) := by simp [State.AtRest, State.turn]

theorem Traffic.turn (h : Traffic s t) : t.turn = s.turn := show t.bare.turn = s.bare.turn by rw [h.rest]

theorem State.foldl_turn {g : State → α → State} (hg : ∀ t x, (g t x).turn = t.turn) (l : List α) (s : State) :
    (l.foldl g s).turn = s.turn := by
  induction l generalizing s with
  | nil => rfl
  | cons x l ih => exact (ih _).trans (hg s x)

namespace State

/-! ### The memory system -/

theorem unitGoes_turn {n} : (s.unitGoes n).turn = s.turn := by grind [unitGoes, turn]

theorem standUnit_turn {n a} : (s.standUnit n a).turn = s.turn := by grind [standUnit, unitGoes_turn, turn]

theorem putLine_turn {core line} : (s.putLine core line).turn = s.turn := by
  unfold putLine
  split
  · rfl
  · split
    · rfl
    · exact ((calm_dropCopy ..).trans ((calm_editMshr ..).trans (calm_send ..))).turn

theorem translate_turn {core ctx va acc eng unit} : (s.translate core ctx va acc eng unit).2.turn = s.turn :=
  (traffic_translate ..).turn

theorem forget_turn {core ctx va eng} : (s.forget core ctx va eng).turn = s.turn := (traffic_forget ..).turn

theorem translateStore_turn {core ctx va eng unit} : (s.translateStore core ctx va eng unit).2.turn = s.turn := by
  grind [translateStore, translate_turn, forget_turn]

theorem markDirty_turn {core ctx va eng} : (s.markDirty core ctx va eng).turn = s.turn := (traffic_markDirty ..).turn

theorem askHome_turn {who ctx l w} : (s.askHome who ctx l w).2.turn = s.turn := (calm_askHome ..).turn

theorem askEach_turn {l} : (s.askEach l).2.turn = s.turn := (calm_askEach ..).turn

theorem homeStep_turn {coherent reads leaf addr} : (s.homeStep coherent reads leaf addr).turn = s.turn := by
  unfold homeStep
  split
  · split <;> rfl
  · split
    · exact ((calm_settle ..).trans (calm_cleanOwner ..)).turn
    · exact ((calm_settle ..).trans (calm_invalidateAll ..)).turn

theorem grantLease_turn {line} : (s.grantLease line).2.turn = s.turn := by
  have granted {a} : (s.setAgent line a).turn = s.turn := (calm_setAgent ..).turn
  grind [grantLease]

theorem editCore_turn {core g} : (s.editCore core g).turn = s.turn := rfl

theorem dropFills_turn {core who} : (s.dropFills core who).turn = s.turn := by grind [dropFills, editCore_turn]

theorem fetchUe_turn {va} : (s.fetchUe va).2.turn = s.turn := rfl

theorem fetchLine_turn {core ctx lrec who va} : (s.fetchLine core ctx lrec who va).2.turn = s.turn := by
  unfold fetchLine
  split
  · grind [translate_turn]
  · next x t e =>
    have ht : t.turn = s.turn := by grind [translate_turn]
    dsimp only
    split
    · exact ht
    · split
      · exact ht
      · grind [fetchUe_turn]
      · split
        · exact ht
        · split
          · exact ht
          · split
            · exact ht
            · grind [translate_turn, fetchUe_turn, askHome_turn, editCore_turn]

theorem startBit_turn {core ctx lrec who va} : (s.startBit core ctx lrec who va).2.turn = s.turn := by
  grind [startBit, fetchWord, fetchLine_turn]

/-! ### Strands, watches and waiters -/

theorem editStrand_turn {u g} : (s.editStrand u g).turn = s.turn := by grind [editStrand, setStrand, turn]

theorem leavePosition_turn {u why} : (s.leavePosition u why).turn = s.turn := by grind [leavePosition, editCore_turn]

theorem wake_turn {u} : (s.wake u).turn = s.turn := by grind [wake, wake.enter, setStrand, turn]

theorem leave_turn {u state a why} : (s.leave u state a why).turn = s.turn :=
  (editStrand_turn (s := s.leavePosition u why)).trans leavePosition_turn

theorem fireLine_turn {line} : (s.fireLine line).turn = s.turn :=
  foldl_turn (fun _ _ => by grind [wake_turn, editStrand_turn]) ..

theorem giveX_turn {u access r v} : (s.giveX u access r v).turn = s.turn := editStrand_turn

theorem movePc_turn {u access len} : (s.movePc u access len).turn = s.turn := editStrand_turn

theorem noteVt_turn {u pa} : (s.noteVt u pa).turn = s.turn := editStrand_turn

theorem release_turn {u} : (s.release u).turn = s.turn := editStrand_turn

theorem goOn_turn {u access} : (s.goOn u access).turn = s.turn := by
  unfold goOn
  grind [wake_turn, setStrand, turn]

theorem modeBit_turn {mode addr} : (s.modeBit mode addr).turn = s.turn := by
  unfold modeBit
  split <;> rfl

theorem leasedReply_turn {addr} : (s.leasedReply addr).2.turn = s.turn := by grind [leasedReply, grantLease_turn]

theorem respond_turn {ty p aux words} : (s.respond ty p aux words).turn = s.turn := rfl

theorem store_turn {pa n v} : (s.store pa n v).turn = s.turn := rfl

theorem clearPoison_turn {pa} : (s.clearPoison pa).turn = s.turn := rfl

theorem setFull_turn {pa} : (s.setFull pa).turn = s.turn := rfl

theorem setEmpty_turn {pa} : (s.setEmpty pa).turn = s.turn := rfl

theorem performRemote_turn {ty p addr pas coherent leaf} : (s.performRemote ty p addr pas coherent leaf).1.turn = s.turn := by
  have home := foldl_turn
    (fun t a => homeStep_turn (s := t) (coherent := coherent) (reads := ty == 1 && p.mode != 2) (leaf := leaf) (addr := a))
    (if ty = 4 then pas else [addr]) (s.streamNext p)
  unfold performRemote
  dsimp only
  generalize (if ty = 4 then pas else [addr]).foldl _ _ = t at home ⊢
  rw [show (s.streamNext p).turn = s.turn from rfl] at home
  split
  · grind [respond_turn, modeBit_turn, leasedReply_turn]
  · grind [respond_turn, modeBit_turn, store_turn, clearPoison_turn, eraseStamp, turn]
  · grind [respond_turn, modeBit_turn, store_turn]
  · exact modeBit_turn.trans ((foldl_turn (fun _ _ => fireLine_turn (s := ((store ..).clearPoison _).eraseStamp _)) ..).trans home)

theorem completeWaiter_turn {w} : (s.completeWaiter w).1.turn = s.turn := by
  cases hk : w.kind <;>
    grind [completeWaiter, homeStep_turn, giveX_turn, movePc_turn, goOn_turn, noteVt_turn, release_turn, setEmpty_turn, setFull_turn,
      store_turn, clearPoison_turn, performRemote_turn]

theorem recheck_turn {fuel : Nat} {buckets} : (s.recheck buckets fuel).turn = s.turn := by
  induction fuel generalizing s buckets with
  | zero => rfl
  | succ fuel ih =>
    have completed := @completeWaiter_turn s
    unfold recheck
    split
    · rfl
    · grind [fireLine_turn, turn]

theorem written_turn {pa n} : (s.written pa n).turn = s.turn := by
  have fired : ((linesOfRun pa n).foldl fireLine s).turn = s.turn := foldl_turn (fun _ _ => fireLine_turn) ..
  grind [written, recheck_turn]

theorem hear_turn : s.hear.turn = s.turn := foldl_turn (fun _ _ => written_turn) ..

/-! ### Units -/

theorem askUnit_turn {a} : (s.askUnit a).turn = s.turn := by
  unfold askUnit
  grind [turn]

theorem unitNotes_turn {n : Nat} {p : Except Problem α × State} : (unitNotes n p).2.turn = p.2.turn := by
  unfold unitNotes
  grind [standUnit_turn, unitGoes_turn]

theorem unitSite_turn {core ctx n lrec va write bits} : (s.unitSite core ctx n lrec va write bits).2.turn = s.turn := by
  grind [unitSite, translate_turn, translateStore_turn, askUnit_turn]

theorem markFull_turn {pa full} : (s.markFull pa full).turn = s.turn := by grind [markFull, setFull, setEmpty, turn]

theorem unitPut_turn {core ctx va x words full} : (s.unitPut core ctx va x words full).turn = s.turn :=
  written_turn.trans ((foldl_turn (fun _ _ => by grind [markFull_turn, clearPoison_turn, store_turn]) ..).trans
    ((foldl_turn (fun _ _ => homeStep_turn) ..).trans markDirty_turn))

theorem unitWrite_turn {core ctx n lrec va words full free} : (s.unitWrite core ctx n lrec va words full free).2.turn = s.turn := by
  grind [unitWrite, unitNotes_turn, unitSite_turn, askHome_turn, unitPut_turn]

theorem peekWord_turn {core ctx lrec n va acc} : (s.peekWord core ctx lrec n va acc).2.turn = s.turn := by
  grind [peekWord, translate_turn, standUnit_turn]

theorem iwordFor_turn {core ctx lrec n cause pc addr} : (s.iwordFor core ctx lrec n cause pc addr).2.turn = s.turn := by
  grind [iwordFor, peekWord_turn]

theorem record_turn {n uid core ctx fra seq sid cause pc addr extra lrec scope item noWord} :
    (s.record n uid core ctx fra seq sid cause pc addr extra lrec scope item noWord).2.turn = s.turn := by
  grind [record, iwordFor_turn, unitWrite_turn, editStrand_turn]

theorem loseEntry_turn {core ctx n base x} : (s.loseEntry core ctx n base x).2.turn = s.turn := by
  grind [loseEntry, askHome_turn, unitPut_turn]

theorem addEntry_turn {core ctx n base va x y words} : (s.addEntry core ctx n base va x y words).2.turn = s.turn := by
  grind [addEntry, askHome_turn, unitPut_turn]

theorem entry_turn {n ctx addr peer kind cause sid} : (s.entry n ctx addr peer kind cause sid).2.turn = s.turn := by
  unfold entry
  split
  · exact unitGoes_turn
  · have placed := @unitSite_turn s
    dsimp only
    split
    · grind [standUnit_turn]
    · grind [unitGoes_turn]
    · grind [unitGoes_turn, standUnit_turn, unitSite_turn, loseEntry_turn, addEntry_turn]

/-! ### Traps and chores -/

theorem endRegion_turn {u} : (s.endRegion u).turn = s.turn := by grind [endRegion, setStrand, editCore, setCore, turn]

theorem stepEnds_turn {u} : (s.stepEnds u).turn = s.turn := editStrand_turn

theorem putOff_turn {no c} : (s.putOff no c).turn = s.turn := rfl

theorem stopStrand_turn {u cause extra pc addr noWord} : (s.stopStrand u cause extra pc addr noWord).turn = s.turn := by
  grind [stopStrand, leave_turn, editStrand_turn, record_turn, putOff_turn]

theorem enterHandler_turn {u cause extra pc addr handler} : (s.enterHandler u cause extra pc addr handler).turn = s.turn := by
  grind [enterHandler, editStrand_turn, stopStrand_turn, stepEnds_turn, wake_turn]

theorem entryBit_turn {u st va} : (s.entryBit u st va).2.turn = s.turn := by grind [entryBit, startBit_turn, dropFills_turn]

theorem dispatchTrap_turn {u cause extra pc addr noWord} : (s.dispatchTrap u cause extra pc addr noWord).2.turn = s.turn := by
  grind [dispatchTrap, entryBit_turn, stopStrand_turn, stepEnds_turn, enterHandler_turn]

theorem takeTrap_turn {u cause extra pc addr noWord} : (s.takeTrap u cause extra pc addr noWord).turn = s.turn := by
  grind [takeTrap, endRegion_turn, editStrand_turn, dispatchTrap_turn, putOff_turn, leave_turn]

theorem checkStart_turn {u} : (s.checkStart u).2.turn = s.turn := by grind [checkStart, entryBit_turn, takeTrap_turn, wake_turn]

theorem runChore_turn {no c} : (s.runChore no c).2.turn = s.turn := by
  unfold runChore
  split
  · exact checkStart_turn
  · exact dispatchTrap_turn
  · exact record_turn
  · exact entry_turn

theorem runLater_turn : s.runLater.turn = s.turn := by
  unfold runLater
  refine (foldl_turn (fun t l => ?_) s.later { s with later := [] }).trans rfl
  have ran := @runChore_turn t l.no l.chore
  split
  · grind
  · grind [turn]

theorem errorEntry_turn {uid ctx addr peer kind cause sid} : (s.errorEntry uid ctx addr peer kind cause sid).turn = s.turn := by
  grind [errorEntry, entry_turn, putOff_turn]

theorem localError_turn {ctx addr kind cause sid} : (s.localError ctx addr kind cause sid).turn = s.turn := errorEntry_turn

/-! ### Copies that cores replace -/

theorem replaceL1_turn {core line} : (s.replaceL1 core line).turn = s.turn := by
  have kept {t : State} {core line l} : (t.setL1 core line l).turn = t.turn := (calm_setL1 ..).turn
  have left {t : State} {line} : (t.keepCopies line).turn = t.turn := rfl
  grind [replaceL1, swmWriteBack, swmDrop, putLine_turn, localError_turn, written_turn, editCore_turn, turn]

theorem trimL1_turn {core} {fuel : Nat} : (s.trimL1 core fuel).turn = s.turn := by
  induction fuel generalizing s with
  | zero => rfl
  | succ fuel ih => grind [trimL1, replaceL1_turn]

/-! ### Streams of operations -/

theorem unitPlace_turn {core ctx unit va n write} : (s.unitPlace core ctx unit va n write).2.turn = s.turn := by
  unfold unitPlace
  dsimp only
  split
  case' h_1 => rw [unitNotes_turn]
  all_goals
    split
    · grind [translate_turn, translateStore_turn]
    · next x t e =>
      have ht : t.turn = s.turn := by grind [translate_turn, translateStore_turn]
      split
      · exact ht
      · split
        · exact ht
        · split
          · exact ht
          · split
            · grind [askHome_turn]
            · exact (foldl_turn (fun _ _ => homeStep_turn) ..).trans (by grind [askHome_turn, markDirty_turn])

theorem editCtx_turn {n g} : (s.editCtx n g).turn = s.turn := by grind [editCtx, setCtx, turn]

theorem spillDeque_turn {core ctx sid unit} : (s.spillDeque core ctx sid unit).2.turn = s.turn := by
  have stored (t : State) (m) : ({ t with mem := m } : State).turn = t.turn := rfl
  grind [spillDeque, unitPlace_turn, localError_turn, written_turn, editCtx_turn, editCore_turn]

theorem pushCont_turn {core ctx sid e unit} : (s.pushCont core ctx sid e unit).2.turn = s.turn := by
  grind [pushCont, editCore_turn, spillDeque_turn]

theorem targetXlats_turn {ctx first} {k : Nat} {va} : (s.targetXlats ctx first k va).2.turn = s.turn := by
  induction k generalizing s va first with
  | zero => rfl
  | succ k ih => grind [targetXlats, targetXlat, translate_turn, forget_turn]

theorem targetWords_turn {ctx first n k va} : (s.targetWords ctx first n k va).2.turn = s.turn := by grind [targetWords, targetXlats_turn]

theorem targetAccess_turn {who ctx first n k va} : (s.targetAccess who ctx first n k va).2.turn = s.turn := by
  unfold targetAccess
  split
  · grind [targetWords_turn]
  · dsimp only
    split
    · grind [targetWords_turn, askEach_turn]
    · exact (foldl_turn (fun _ _ => markDirty_turn) ..).trans (by grind [targetWords_turn, askEach_turn])

theorem putWords_turn {leaf} {l : List (Xlat × Word)} : (s.putWords leaf l).turn = s.turn := by
  induction l generalizing s with
  | nil => rfl
  | cons e l ih =>
    unfold putWords
    grind [written_turn, homeStep_turn, store_turn, clearPoison_turn, eraseStamp, turn]

theorem fireMatch_turn {key} : (s.fireMatch key).turn = s.turn := by grind [fireMatch, unitPlace_turn, pushCont_turn, turn]

theorem refusePacket_turn {p cause} : (s.refusePacket p cause).turn = s.turn := rfl

theorem standStream_turn {p a} : (s.standStream p a).turn = s.turn := rfl

theorem setUnexpected_turn {board l} : (s.setUnexpected board l).turn = s.turn := rfl

theorem deliverTag_turn {key m p} : (s.deliverTag key m p).2.turn = s.turn := by
  grind [deliverTag, refusePacket_turn, standStream_turn, targetAccess_turn, putWords_turn, fireMatch_turn, streamNext, respond_turn, turn]

theorem performTag_turn {p} : (s.performTag p).turn = s.turn := by
  grind [performTag, unknownJob, holdTag, refusePacket_turn, setUnexpected_turn, deliverTag_turn, turn]

theorem performAt_turn {ty p xs} : (s.performAt ty p xs).turn = s.turn := by
  unfold performAt
  extract_lets pas pa kind coherent
  split
  · dsimp only
    split
    · exact (foldl_turn (fun _ _ => written_turn) ..).trans performRemote_turn
    · exact performRemote_turn
  · rfl

theorem perform_turn {ty p} : (s.perform ty p).turn = s.turn := by
  grind [perform, unknownJob, refusePacket_turn, standStream_turn, askUnit_turn, targetAccess_turn, performAt_turn, turn]

theorem runStream_turn {p} {fuel : Nat} : (s.runStream p fuel).turn = s.turn := by
  induction fuel generalizing s with
  | zero => rfl
  | succ fuel ih => grind [runStream, performPacket, performTag_turn, perform_turn]

theorem runStreams_turn : s.runStreams.turn = s.turn := foldl_turn (fun _ _ => by grind [runStream_turn]) ..

/-! ### Between two turns -/

theorem transmit_turn {ty p} : (s.transmit ty p).turn = s.turn := by
  unfold transmit
  grind [respond_turn, editPort, turn]

theorem pump_turn : s.pump.turn = s.turn := by
  have sent (l : List (Nat × Packet)) (t : State) : (l.foldl (fun s e => s.transmit e.1 e.2) t).turn = t.turn :=
    foldl_turn (fun _ _ => transmit_turn) ..
  grind [pump, turn]

theorem noteAll_turn : s.noteAll.turn = s.turn := foldl_turn (fun _ _ => by grind [noteResidency, setCtx, turn]) ..

/-- Between two turns nobody issues, whatever stood before. -/
theorem settleTurn_turn : s.settleTurn.turn = (none, .execute) := by
  have trimmed (l : List (Nat × Core)) (t : State) :
      (l.foldl (fun s e => if 256 < e.2.l1.length then s.trimL1 e.1 e.2.l1.length else s) t).turn = t.turn :=
    foldl_turn (fun _ _ => by grind [trimL1_turn]) ..
  unfold settleTurn
  exact pump_turn.trans (noteAll_turn.trans (hear_turn.trans ((trimmed ..).trans (runStreams_turn.trans runLater_turn))))

theorem settleTurn_atRest : s.settleTurn.AtRest := atRest_iff.mpr settleTurn_turn

theorem copyCounters_turn {second} : (s.copyCounters second).turn = s.turn := by grind [copyCounters, turn]

end State

/-! ### Outcomes -/

/-- The state that an outcome goes on with is at rest. -/
structure Result.Rests (r : Result) : Prop where
  next_state {t : State} (e : r = .next t) : t.AtRest

namespace Result.Rests

theorem next (h : s.AtRest) : Result.Rests (.next s) := ⟨fun e => by cases e; exact h⟩

theorem fault {f : Fault} : Result.Rests (.fault f) := ⟨fun e => by cases e⟩

theorem refused {f : Refusal} : Result.Rests (.refused f) := ⟨fun e => by cases e⟩

/-- An issue, whose turn is closed whether an instruction is executed or the fetch fails. -/
theorem runAt {u core ctx lrec pc} {after : State → State} (closes : ∀ s, (after s).AtRest) :
    Result.Rests (s.runAt u core ctx lrec pc after) := by
  unfold State.runAt
  split
  · split
    · exact .next (closes _)
    · exact .fault
    · exact .refused
  · exact .next (closes _)

theorem issueStrand {core u st} : Result.Rests (s.issueStrand core u st) := .runAt fun _ => State.settleTurn_atRest

theorem cycle {core} : Result.Rests (s.cycle core) := by
  unfold State.cycle
  split
  · exact .next State.settleTurn_atRest
  · exact .issueStrand

theorem sequence {core} (h : s.AtRest) : Result.Rests (s.sequence core) := by
  unfold State.sequence
  split
  · exact .next h
  · exact .runAt fun _ => State.settleTurn_atRest

/-- An event, whatever it does. -/
theorem close {e : State → Result} : Result.Rests (State.close e s) := by
  unfold State.close
  split
  · exact .next State.settleTurn_atRest
  · exact .fault
  · exact .refused

theorem perform1 {d} (h : s.AtRest) : Result.Rests (s.perform1 d) := by
  unfold State.perform1
  split
  case h_1 => exact .cycle
  case h_2 => exact .sequence h
  case h_3 => exact .close
  case h_4 => exact .next State.settleTurn_atRest
  case h_5 => exact .next h
  case h_6 => exact .next h
  case h_7 => exact .next State.settleTurn_atRest
  case h_8 => exact .next (State.atRest_iff.mpr (State.copyCounters_turn.trans (State.atRest_iff.mp h)))
  case h_9 => exact .next h

/-- The next issue of a core: each bubble before it ends its turn. -/
theorem runCore {core} {fuel : Nat} (h : s.AtRest) : Result.Rests (s.runCore core fuel) := by
  induction fuel generalizing s with
  | zero => exact .next h
  | succ fuel ih =>
    unfold State.runCore
    split
    · exact .issueStrand
    · exact ih State.settleTurn_atRest

theorem due {e : State → Result} (found : s.due = some e) (h : s.AtRest) : Result.Rests (e s) := by
  unfold State.due at found
  split at found
  · cases found
    exact .close
  · obtain ⟨c, -, rfl⟩ := Option.map_eq_some_iff.mp found
    exact .sequence h

theorem defaultStep (h : s.AtRest) : Result.Rests s.defaultStep := by
  unfold State.defaultStep
  split
  · next found => exact .due found h
  · split
    · exact .runCore h
    · exact .next h

theorem step (h : s.AtRest) : Result.Rests (step s) := by
  show Result.Rests s.takeTurn
  unfold State.takeTurn
  split
  · exact .perform1 h
  · exact .defaultStep h

end Result.Rests

/-- Settles O57: every step that begins a turn closes it with `State.settleTurn`, behind which nobody issues, and no other step touches who
issues. -/
theorem everyStepEndsItsTurn : Obligations.EveryStepEndsItsTurn :=
  fun _ _ rest stepped => (Result.Rests.step rest).next_state stepped

end Sys2Proof.Machine
end

section
/-!
THE BARREL AND PLACEMENT (O40).

One lemma for each case of a function of the barrel (`refill`, `endQuantum`), of placement (`seat`, `place`, `dispatch`, `reload`, `pickup`,
`arrive`) and of the waits (`arrived`, `visibleNow`, `retry`). The refill rests on two searches: that for a free position, and that for the
READY strand of the highest class that is READY longest, a fold that keeps the best so far (`keepBest`).
-/

namespace Sys2Proof.Machine

variable {s r t q : State} {core pos slot u lrec : Nat} {st : Strand}

/-! ### The free position whose turn comes first, the READY strand that takes it -/

/-- The position that is found is free, and of the free ones its turn comes first (01 R26). -/
theorem Core.nextFree_spec {k : Core} (h : k.nextFree = some pos) : pos < 8 ∧ (k.pos[pos]?).getD none = none ∧
    ∀ i < 8, (k.pos[i]?).getD none = none → (pos + 8 - k.cyc % 8) % 8 ≤ (i + 8 - k.cyc % 8) % 8 := by
  simp only [Core.nextFree, List.find?_map, Option.map_eq_some_iff, List.find?_range_eq_some, List.mem_range, Function.comp_apply] at h
  obtain ⟨j, ⟨free, hj, earlier⟩, rfl⟩ := h
  refine ⟨by omega, by simpa using free, fun i hi ifree => ?_⟩
  by_contra before
  have := earlier ((i + 8 - k.cyc % 8) % 8) (by omega)
  rw [show (k.cyc + (i + 8 - k.cyc % 8) % 8) % 8 = i by omega, ifree] at this
  simp at this

/-- What a search for the best of a list holds after one more element. -/
def keepBest {α : Type} (better : α → α → Bool) (b : Option α) (e : α) : Option α :=
  some (b.elim e fun d => if better e d then e else d)

/-- Nothing in the list is better than what the search finds, where `better` is a strict order with ties. -/
theorem foldl_keepBest {α : Type} {better : α → α → Bool} (asymm : ∀ {a b}, better a b = true → better b a = false)
    (trans : ∀ {a b c}, better a b = false → better b c = false → better a c = false) {l : List α} {b : Option α} {m : α}
    (found : l.foldl (keepBest better) b = some m) : (∀ d, b = some d → better d m = false) ∧ ∀ e ∈ l, better e m = false := by
  induction l generalizing b with
  | nil =>
    refine ⟨fun d e => ?_, by simp⟩
    cases e.symm.trans found
    by_contra self
    exact self (asymm (by simpa using self))
  | cons x l ih =>
    obtain ⟨held, rest⟩ := ih found
    have held := held _ rfl
    cases b with
    | none => exact ⟨by simp, List.forall_mem_cons.mpr ⟨held, rest⟩⟩
    | some d =>
      have both : better d m = false ∧ better x m = false := by
        by_cases first : better x d = true
        · simp only [Option.elim_some, first, if_true] at held
          exact ⟨trans (asymm first) held, held⟩
        · simp only [Option.elim_some, first] at held
          exact ⟨held, trans (by simpa using first) held⟩
      exact ⟨fun _ e => Option.some.inj e ▸ both.1, List.forall_mem_cons.mpr ⟨both.2, rest⟩⟩

/-- A strand takes a position before another: it is of a higher class, or of the same and READY for longer (01 R29). -/
def takesBefore (e d : Nat × Strand) : Bool := d.2.prio < e.2.prio || (d.2.prio == e.2.prio && e.2.since < d.2.since)

theorem takesBefore_asymm {a b : Nat × Strand} (h : takesBefore a b = true) : takesBefore b a = false := by
  simp only [takesBefore, Bool.or_eq_true, Bool.and_eq_true, decide_eq_true_eq, beq_iff_eq, Bool.or_eq_false_iff, Bool.and_eq_false_imp,
    decide_eq_false_iff_not] at *
  omega

theorem takesBefore_eq_false {a b : Nat × Strand} :
    takesBefore a b = false ↔ a.2.prio < b.2.prio ∨ (a.2.prio = b.2.prio ∧ b.2.since ≤ a.2.since) := by
  simp only [takesBefore, Bool.or_eq_false_iff, Bool.and_eq_false_imp, decide_eq_false_iff_not, beq_iff_eq]
  omega

theorem takesBefore_trans {a b c : Nat × Strand} (h : takesBefore a b = false) (h' : takesBefore b c = false) : takesBefore a c = false := by
  rw [takesBefore_eq_false] at *
  omega

/-- The READY strands of a core that may take a position. -/
def State.readyHere (s : State) (core : Nat) : List (Nat × Strand) :=
  (s.strandsOf core).filter fun e => e.2.state == .ready && !e.2.isSpilled && e.2.place != .transit && !s.halted e.2.ctx

theorem State.nextReady_eq (s : State) (core : Nat) : s.nextReady core = (s.readyHere core).foldl (keepBest takesBefore) none := by
  unfold nextReady
  congr 1
  funext b e
  cases b with
  | none => rfl
  | some d => exact (apply_ite some _ _ _).symm

theorem State.nextReady_best (next : s.nextReady core = some (u, st)) {e : Nat × Strand} (here : e ∈ s.readyHere core) :
    e.2.prio < st.prio ∨ (e.2.prio = st.prio ∧ st.since ≤ e.2.since) := by
  rw [nextReady_eq] at next
  have best := foldl_keepBest (better := takesBefore) takesBefore_asymm takesBefore_trans next
  exact takesBefore_eq_false.mp (best.2 e here)

namespace State

theorem refill_eq (free : (s.core core).nextFree = some pos) (next : s.nextReady core = some (u, st)) :
    s.refill core pos = (s.setStrand u { st with state := .run, issues := 0 }).editCore core
      fun k => { k with pos := k.pos.setIfInBounds pos (some u) } := by
  simp [refill, free, next]

theorem inPosition_setPos (v : Nat) (hpos : pos < 8) (p : Nat) :
    (s.editCore core fun k => { k with pos := k.pos.setIfInBounds pos (some v) }).inPosition core p =
      if pos = p then some v else s.inPosition core p := by
  by_cases e : pos = p
  · subst e
    simp [inPosition, hpos]
  · simp [inPosition, e]

/-! ### Leaving and entering READY (01 R21) -/

theorem leave_other {v : Nat} (ne : v ≠ u) (x : SState) (a : Await) (why : Nat) : (s.leave u x a why).strand? v = s.strand? v := by
  have left : (s.leavePosition u why).strand? v = s.strand? v := by
    unfold leavePosition
    split <;> rfl
  have edited : ((s.leavePosition u why).editStrand u fun st =>
      { st with state := x, await := a, since := (s.leavePosition u why).order, skip := 0, long := 0, issues := 0
                queued := a.stand st.queued (s.leavePosition u why).order }).strand? v = (s.leavePosition u why).strand? v := by
    unfold editStrand
    split
    · exact strand_set_other _ _ ne.symm
    · rfl
  exact edited.trans left

theorem leave_mem (x : SState) (a : Await) (why : Nat) : (s.leave u x a why).mem = s.mem := by
  simp only [leave, editStrand_mem]
  unfold leavePosition
  split <;> rfl

/-- A parked strand in its slot enters READY, behind every strand that is READY there. -/
theorem wake_ready (found : s.strand? u = some st) (parked : st.state = .parked) (kept : st.isSpilled = false) (asleep : st.woken = false) :
    s.wake u = { s.setStrand u { st with state := .ready, await := .reply, since := s.order } with order := s.order + 1 } := by
  simp [wake, wake.enter, found, parked, kept, asleep]

/-! ### Slots and placement (01 R20, R24, 06 R157) -/

theorem claimSlot_order (h : s.claimSlot core = some (slot, r)) : r.order = s.order := by
  unfold claimSlot at h
  split at h
  · cases h
    rfl
  · split at h
    · cases h
    · split at h
      · cases h
        exact editStrand_order ..
      · cases h

theorem seat_strand (s : State) (u core slot : Nat) (st : Strand) : (s.seat u core slot st).strand? u = some
    { st with core := core, place := .slot slot, state := .ready, await := .reply, since := s.order, streamSeq := [], queued := none
              behind := 0, epoch := ((Sparse.get (s.core core).epochs slot).getD 0 + 1) % 256 } :=
  strand_set ..

theorem seat_other {v : Nat} (ne : v ≠ u) : (s.seat u core slot st).strand? v = s.strand? v := strand_set_other _ _ ne.symm

/-- The start bit at the PC of a strand that is placed is set, or cannot be read: the strand stays READY. -/
theorem place_started {b : Option Bool} (bit : (s.seat u core slot st).startBit core st.ctx st.lrec (streamNo u false) st.pc = (.ok b, q))
    (started : b ≠ some false) : s.place u core slot st = q.dropFills core (streamNo u false) := by
  match b with
  | none => simp [place, checkStart, entryBit, seat_strand, bit]
  | some true => simp [place, checkStart, entryBit, seat_strand, bit]
  | some false => exact absurd rfl started

theorem place_waits {a : Await} (bit : (s.seat u core slot st).startBit core st.ctx st.lrec (streamNo u false) st.pc = (.error a, q)) :
    s.place u core slot st = (q.leave u .parked .handler 2).putOff (q.leave u .parked .handler 2).order (.start u) := by
  simp [place, checkStart, entryBit, seat_strand, bit]

theorem place_traps (bit : (s.seat u core slot st).startBit core st.ctx st.lrec (streamNo u false) st.pc = (.ok (some false), q)) :
    s.place u core slot st = (q.dropFills core (streamNo u false)).takeTrap u Cause.illegalTarget 0x03 st.pc st.pc := by
  simp [place, checkStart, entryBit, seat_strand, bit]

/-! ### The quantum (01 R28) -/

theorem endQuantum_early (held : s.inPosition core pos = some u) (found : s.strand? u = some st) (early : st.issues < 4096) :
    s.endQuantum core pos = s := by
  simp only [inPosition] at held
  simp [endQuantum, held, found, early]

theorem endQuantum_alone (held : s.inPosition core pos = some u) (found : s.strand? u = some st) (spent : 4096 ≤ st.issues)
    (alone : s.classWaits core st.prio = false) : s.endQuantum core pos = s.setStrand u { st with issues := 0 } := by
  simp only [inPosition] at held
  simp [endQuantum, held, found, spent.not_gt, alone]

theorem endQuantum_yields (held : s.inPosition core pos = some u) (found : s.strand? u = some st) (spent : 4096 ≤ st.issues)
    (waits : s.classWaits core st.prio = true) : s.endQuantum core pos = s.leave u .ready .reply 15 := by
  simp only [inPosition] at held
  simp [endQuantum, held, found, spent.not_gt, waits]

/-! ### Items, continuations, reloads and migrated strands (02 R44, R45, R53, R59, 01 R24) -/

theorem dispatch_eq {l : Launch} (found : s.launch? lrec = some l) (may : s.mayDispatch lrec l = true)
    (claimed : s.claimSlot (l.itemCore l.next) = some (slot, r)) :
    s.dispatch lrec = (({ r with nextUid := r.nextUid + 1 }.editLaunch lrec fun l => { l with next := l.next + 1, pop := l.pop + 1 }).place
      r.nextUid (l.itemCore l.next) slot (l.itemStrand lrec l.next)) := by
  simp [dispatch, found, may, claimed, newUid]

theorem reload_eq (found : s.strand? u = some st) (spilled : st.isSpilled = true) (woken : st.woken = true)
    (first : (s.firstWoken st.core).map (·.1) = some u) (claimed : s.claimSlot st.core = some (slot, r)) :
    s.reload u =
      let ep := ((Sparse.get (r.core st.core).epochs slot).getD 0 + 1) % 256
      { (r.editCore st.core fun k => { k with epochs := Sparse.put k.epochs slot ep }).setStrand u
          { st with place := .slot slot, state := .ready, woken := false, since := r.order, epoch := ep, streamSeq := [] } with
        order := r.order + 1 } := by
  simp [reload, found, spilled, woken, first, claimed]

theorem pickup_eq {c : Cont} (first : (s.core core).arrivals.findSome? Arrival.cont? = some c)
    (goes : s.halted (((s.launch? c.lrec).map (·.ctx)).getD 0) = false) (unwoken : s.reloadWaits core = false)
    (turn : c.stolen = false ∨ ∀ e ∈ s.launches, s.mayDispatch e.1 e.2 = true → e.2.itemCore e.2.next ≠ core)
    (claimed : s.claimSlot core = some (slot, r)) :
    s.pickup core = { r.editCore core fun k => { k with arrivals := k.arrivals.erase (.cont c) } with nextUid := r.nextUid + 1 }.place
      r.nextUid core slot (r.ofCont c) := by
  have mine : (c.stolen && s.dispatchesAt core) = false := by
    rcases turn with mine | none
    · simp [mine]
    · simpa [dispatchesAt] using fun _ => none
  simp only [pickup, first, goes, unwoken, mine, claimed, newUid]
  rfl

theorem arrive_eq (first : (s.core core).arrivals.findSome? Arrival.uid? = some u) (found : s.strand? u = some st)
    (goes : s.halted st.ctx = false) (unwoken : s.reloadWaits core = false) (claimed : s.claimSlot core = some (slot, r)) :
    s.arrive core = (r.editCore core fun k => { k with arrivals := k.arrivals.erase (.strand u) }).place u core slot st := by
  simp [arrive, first, found, goes, unwoken, claimed]

theorem ofCont_fields (s : State) (c : Cont) :
    (s.ofCont c).pc = c.pc ∧ (s.ofCont c).item = c.item ∧ (s.ofCont c).scope = c.scope ∧ (s.ofCont c).lrec = c.lrec := by
  unfold ofCont
  split <;> exact ⟨rfl, rfl, rfl, rfl⟩

theorem ofCont_x (s : State) (c : Cont) (i : Nat) (h : i < 64) : (s.ofCont c).x[i] =
    if i = 0 then BitVec.ofNat 64 c.item else if i ≤ 5 then c.xsave.getD (i - 1) 0 else if i = 45 || i = 47 then c.fp else 0 := by
  simp [ofCont]

/-! ### Waits (01 R21, 04 R101, 05 R122) -/

theorem arrived_ready (found : s.strand? u = some st) (parked : st.state = .parked) (kept : st.isSpilled = false)
    (asleep : st.woken = false) (met : s.awaitMet u st false st.await = true) :
    (s.arrived u).strand? u = some { st with state := .ready, await := .reply, since := s.order } ∧ (s.arrived u).mem = s.mem := by
  have ended : s.arrived u = s.endWait u st := by simp [arrived, found, parked, met]
  rw [ended, endWait]
  split
  · rw [wake_ready (s := s.editCore st.core fun k => { k with seq := some u }) found parked kept asleep]
    exact ⟨strand_set .., rfl⟩
  · rw [wake_ready found parked kept asleep]
    exact ⟨strand_set .., rfl⟩

theorem visibleNow_ready {release acq host : Bool} (found : s.strand? u = some st) (parked : st.state = .parked)
    (kept : st.isSpilled = false) (asleep : st.woken = false) (await : st.await = .order release acq host)
    (ordered : s.ordered u st release = true) :
    (s.visibleNow u).strand? u = some { st with state := .ready, await := .reply, since := s.order } ∧ (s.visibleNow u).mem = s.mem := by
  have woken : s.visibleNow u = s.wake u := by simp [visibleNow, found, parked, await, ordered]
  rw [woken, wake_ready found parked kept asleep]
  exact ⟨strand_set .., rfl⟩

variable {w : Waiter}

theorem retry_again (found : s.strand? u = some st) (first : s.waiters.find? (fun w => w.uid == u && !w.listed) = some w)
    (free : s.holdsWaiter w = false) (unmet : w.kind.met s w.addr = false) (again : w.tries + 1 < st.feRetry.toNat % 256) :
    s.retry u = { s with waiters := s.waiters.map fun v => if v == w then { w with tries := w.tries + 1, listed := false } else v } := by
  have unlisted : w.listed = false := by
    have := List.find?_some first
    simp only [Bool.and_eq_true, Bool.not_eq_true'] at this
    exact this.2
  simp [retry, found, first, free, unmet, again, unlisted]

theorem retry_listed (found : s.strand? u = some st) (first : s.waiters.find? (fun w => w.uid == u && !w.listed) = some w)
    (execute : w.access = false) (free : s.holdsWaiter w = false) (unmet : w.kind.met s w.addr = false)
    (spent : st.feRetry.toNat % 256 ≤ w.tries + 1) : s.retry u =
      ({ s with waiters := s.waiters.map fun v => if v == w then { w with tries := w.tries + 1, listed := true } else v } : State).setStrand u
        { st with await := .syncWord } := by
  simp only [retry, found, first, free, unmet, spent.not_gt, listedWait, execute, Bool.false_eq_true, if_false]
  refine editStrand_eq ?_ _
  exact found

theorem retry_met (found : s.strand? u = some st) (first : s.waiters.find? (fun w => w.uid == u && !w.listed) = some w)
    (free : s.holdsWaiter w = false) (met : w.kind.met s w.addr = true) {wrote : Bool} (done : s.completeWaiter w = (r, none, wrote)) :
    s.retry u = if wrote then { r with waiters := r.waiters.filter (· != w) }.written w.addr 8
      else { r with waiters := r.waiters.filter (· != w) } := by
  simp [retry, found, first, free, met, done]

end State

theorem Launch.itemStrand_x (l : Launch) (i j : Nat) (h : j < 64) : (l.itemStrand lrec i).x[j] =
    if j = 0 then BitVec.ofNat 64 i else if j = 1 then l.lpb else if j < 10 then l.args.getD (j - 2) 0 else 0 := by
  simp [Launch.itemStrand]

/-- Settles O40: each event is the function of the barrel, of placement or of a wait that its name says, whose cases the lemmas above
give. -/
theorem barrelEvents : Obligations.BarrelEvents := by
  refine ⟨?_, ?_, ?_, ?_, ?_, ?_, ?_, ?_, ?_⟩
  · -- the refill of a position (01 R28, R29)
    intro s core pos u st free next
    obtain ⟨hpos, empty, least⟩ := Core.nextFree_spec free
    refine ⟨⟨empty, least⟩, fun e here ready kept there goes => ?_, _, congrArg Host.Outcome.next (State.refill_eq free next), ?_,
      State.strand_set .., fun v ne => State.strand_set_other _ _ ne.symm, fun p ne => ?_, rfl⟩
    · exact State.nextReady_best next (List.mem_filter.mpr ⟨here, by simp [ready, kept, there, goes]⟩)
    · exact (State.inPosition_setPos u hpos pos).trans (if_pos rfl)
    · exact (State.inPosition_setPos u hpos p).trans (if_neg ne.symm)
  · -- the quantum (01 R28)
    intro s core pos u st held found
    exact ⟨fun early => congrArg Host.Outcome.next (State.endQuantum_early held found early),
      fun spent alone => congrArg Host.Outcome.next (State.endQuantum_alone held found spent alone),
      fun spent waits => ⟨_, congrArg Host.Outcome.next (State.endQuantum_yields held found spent waits), State.leave_strand found ..,
        fun v ne => State.leave_other ne .., State.leave_mem ..⟩⟩
  · -- an item (02 R44, R45)
    intro s r q lrec slot l b found may claimed bit started
    refine ⟨congrArg Host.Outcome.next ((State.dispatch_eq found may claimed).trans (State.place_started bit started)), rfl, rfl, rfl, rfl,
      rfl, rfl, rfl, Launch.itemStrand_x .., Launch.itemStrand_x .., fun k h => ?_, fun k h => ?_⟩
    · rw [Launch.itemStrand_x, if_neg (by omega), if_neg (by omega), if_pos (by omega), Nat.add_sub_cancel]
    · rw [Launch.itemStrand_x, if_neg (by omega), if_neg (by omega), if_neg (by omega)]
  · -- a woken spilled strand (01 R24)
    intro s r u slot st found spilled woken first claimed
    refine ⟨_, congrArg Host.Outcome.next (State.reload_eq found spilled woken first claimed), ?_,
      fun v ne => State.strand_set_other _ _ ne.symm, rfl⟩
    rw [← State.claimSlot_order claimed]
    exact State.strand_set ..
  · -- a continuation (02 R53)
    intro s r q core slot c b first goes unwoken turn claimed bit started
    obtain ⟨pc, item, scope, launch⟩ := State.ofCont_fields r c
    refine ⟨congrArg Host.Outcome.next ((State.pickup_eq first goes unwoken turn claimed).trans (State.place_started ?_ started)),
      pc, item, scope, launch, State.ofCont_x .., fun k h => ?_, State.ofCont_x .., State.ofCont_x .., State.ofCont_x ..⟩
    · rw [launch, pc]
      exact bit
    · rw [State.ofCont_x, if_neg (by omega), if_pos (by omega), Nat.add_sub_cancel]
  · -- a migrated strand (02 R59)
    intro s r q core slot u st b first found goes unwoken claimed bit started
    exact congrArg Host.Outcome.next ((State.arrive_eq first found goes unwoken claimed).trans (State.place_started bit started))
  · -- a slot and the start bit of the strand in it (06 R157)
    intro s t u core slot st a
    exact ⟨⟨State.seat_strand .., rfl, fun v ne => State.seat_other ne⟩, State.place_waits, State.place_traps⟩
  · -- a wait that ends (01 R21, 05 R122)
    intro s u st found parked kept asleep
    exact ⟨fun met => ⟨_, rfl, State.arrived_ready found parked kept asleep met⟩,
      fun release acq host await ordered => ⟨_, rfl, State.visibleNow_ready found parked kept asleep await ordered⟩⟩
  · -- an unmet access (04 R101)
    intro s u st w found execute first free tried
    exact ⟨fun unmet again => congrArg Host.Outcome.next (State.retry_again found first free unmet again),
      fun unmet spent => congrArg Host.Outcome.next (State.retry_listed found first execute free unmet spent),
      fun met r wrote done => congrArg Host.Outcome.next (State.retry_met found first free met done)⟩

end Sys2Proof.Machine
end

section
/-!
A STEP RUNS THE DECODED INSTRUCTION (O56).

`prepare_eq` says which strand a cycle prepares, the `runAt` lemmas what each answer of a fetch leads to, and the `classify` lemmas what the
words of an instruction are, in the order of 06 R160.
-/

namespace Sys2Proof.Machine

variable {s t : State} {core pos u : Nat} {st : Strand}

namespace State

/-! ### The strand that issues -/

/-- A position that a strand holds is not refilled. -/
theorem refill_taken (h : s.inPosition core pos = some u) : s.refill core pos = s := by
  have taken : (s.core core).nextFree ≠ some pos := by
    intro free
    have := List.find?_some free
    simp [inPosition] at h
    simp [h] at this
  simp [refill, taken]

/-- A strand that skips no turn, whose context does not stop and whose wait is over, issues, behind the instruction that waited. -/
theorem prepare_eq (held : s.inPosition core (s.position core) = some u) (found : s.strand? u = some st) (skip : st.skip = 0)
    (long : st.long = 0) (goes : s.castDue st.ctx = false) (met : st.await = .reply ∨ s.awaitMet u st false st.await = true)
    (steps : st.stepping = none ∨ st.stepping = some st.goBehind.pc) :
    s.prepare core = (some (u, st.goBehind), if st.behind = 0 then s else s.setStrand u st.goBehind) := by
  have free : (st.await != .reply && !s.awaitMet u st false st.await) = false := by rcases met with met | met <;> simp [met]
  have behind : st.goBehind.stepping = st.stepping := rfl
  unfold prepare
  simp only [refill_taken held, held, found, skip, long, goes, free]
  rcases steps with e | e <;> simp [behind, e]

theorem begin_execute (s : State) (u : Nat) (st : Strand) :
    (s.begin u st .execute).strand? u = some { st with await := .reply, lastRun := s.order, issues := st.issues + 1 } := by
  simp [begin, strand?, setStrand]

/-! ### What a fetch leads to -/

variable {ctx lrec who cause extra : Nat} {pc addr : Word} {noWord : Bool} {after : State → State} {i : Instr}
  {w : BitVec 32 × Bool} {ws : List (BitVec 32 × Bool)}

theorem runAt_trap (x : s.stream = .execute)
    (e : s.fetch core ctx lrec (streamNo u false) pc = (.trap cause extra addr noWord, t)) :
    s.runAt u core ctx lrec pc after = .next (after (t.takeTrap u cause extra pc addr noWord)) := by
  have stream : (s.stream == .access) = false := by rw [x]; rfl
  simp only [runAt, stream, e, fetchFailed]

theorem runAt_free (x : s.stream = .execute) (e : s.fetch core ctx lrec (streamNo u false) pc = (.free cause, t)) :
    s.runAt u core ctx lrec pc after = .next (after ({ t with free := t.free + 2 }.takeTrap u cause
      ((Config.freeWord t.free).toNat % 2 ^ 32) pc (Config.freeWord (t.free + 1)))) := by
  have stream : (s.stream == .access) = false := by rw [x]; rfl
  simp only [runAt, stream, e, fetchFailed]

theorem runAt_instr (x : s.stream = .execute) (e : s.fetch core ctx lrec (streamNo u false) pc = (.instr i, t)) :
    s.runAt u core ctx lrec pc after = match exec i t with
      | .next t => .next (after (t.endFills u core pc))
      | .fault q => .fault q
      | .refused q => .refused q := by
  have stream : (s.stream == .access) = false := by rw [x]; rfl
  simp only [runAt, stream, e] <;> rfl

theorem fetch_wordTrap (e : s.fetchWord core ctx lrec who pc = (.error (.trap cause extra addr), t)) :
    s.fetch core ctx lrec who pc = (.trap cause extra addr true, t) := by simp [fetch, e]

variable {r : State}

theorem fetch_wordsTrap (e : s.fetchWord core ctx lrec who pc = (.ok w, r))
    (e' : r.fetchWords core ctx lrec who pc (wordsOf (lenField w.1)) 0 = (.error (.trap cause extra addr), t)) :
    s.fetch core ctx lrec who pc = (.trap cause extra addr true, t) := by simp [fetch, e, e']

theorem fetch_words (e : s.fetchWord core ctx lrec who pc = (.ok w, r))
    (e' : r.fetchWords core ctx lrec who pc (wordsOf (lenField w.1)) 0 = (.ok ws, t)) :
    s.fetch core ctx lrec who pc = (classify pc (wordsOf (lenField w.1)) ws, t) := by simp [fetch, e, e']

end State

/-! ### The words of an instruction (06 R160) -/

variable {pc : Word} {n : Nat} {v x : BitVec 32} {us : List (BitVec 32)} {vs a bs ws : List (BitVec 32 × Bool)}

theorem classify_noStart : classify pc n ((v, false) :: vs) = .trap Cause.illegalTarget 0x01 pc false := by simp [classify]

theorem classify_laterStart (clear : ∀ e ∈ a, e.2 = false) : classify pc n ((v, true) :: (a ++ (x, true) :: bs)) =
    .trap Cause.illegalTarget 0x02 (pc + BitVec.ofNat 64 (4 * (a.length + 1))) false := by
  have first : (List.range (a ++ (x, true) :: bs).length).find? (fun i => (((a ++ (x, true) :: bs)[i]?).map (·.2)).getD false) =
      some a.length := by
    simp only [List.find?_range_eq_some, List.mem_range]
    refine ⟨by simp, by simp, fun j hj => ?_⟩
    simpa [List.getElem?_append_left hj, List.getElem?_eq_getElem hj] using clear _ (List.getElem_mem hj)
  simp only [classify, first]
  rfl

/-- Where the first word alone has its start bit set, no later one is found that has it. -/
theorem cons_of_started (first : ws.map (·.2) = true :: List.replicate (ws.length - 1) false) : ∃ w vs, ws = w :: vs ∧ w.2 = true ∧
    (List.range vs.length).find? (fun i => ((vs[i]?).map (·.2)).getD false) = none := by
  cases ws with
  | nil => simp at first
  | cons w vs =>
    obtain ⟨start, rest⟩ := List.cons.inj first
    refine ⟨w, vs, rfl, start, ?_⟩
    simp only [List.find?_eq_none, List.mem_range]
    intro i hi
    have unset : vs[i].2 = false := by
      rw [← List.getElem_map (f := Prod.snd) (h := by simpa using hi), List.getElem_of_eq rest]
      simp
    simp [hi, unset]

variable {i : Instr}

theorem classify_rejected {e : DecodeError} (first : ws.map (·.2) = true :: List.replicate (ws.length - 1) false)
    (decoded : decodeWords (ws.map (·.1) ++ List.replicate (n - ws.length) 0) = .error e) :
    classify pc n ws = .free (if ws.length < n && e == .unsupported then Cause.illegalForm else Reject.cause e) := by
  obtain ⟨w, vs, rfl, start, clear⟩ := cons_of_started first
  simp only [classify, start, clear, decoded]
  rfl

theorem classify_cut (first : ws.map (·.2) = true :: List.replicate (ws.length - 1) false)
    (decoded : decodeWords (ws.map (·.1) ++ List.replicate (n - ws.length) 0) = .ok (i, us)) (short : ws.length < n) :
    classify pc n ws = .free Cause.illegalForm := by
  obtain ⟨w, vs, rfl, start, clear⟩ := cons_of_started first
  simp only [classify, start, clear, decoded, short]
  rfl

theorem classify_whole (first : ws.map (·.2) = true :: List.replicate (ws.length - 1) false)
    (decoded : decodeWords (ws.map (·.1) ++ List.replicate (n - ws.length) 0) = .ok (i, us)) (whole : ws.length = n) :
    classify pc n ws = .instr i := by
  obtain ⟨w, vs, rfl, start, clear⟩ := cons_of_started first
  have long : ¬(w :: vs).length < n := whole.not_lt
  simp only [classify, start, clear, decoded, long]
  rfl

/-! ### The step -/

/-- A turn of a core's barrel is the issue of the strand that holds the position, if it is free to issue. -/
theorem step_cycle {n : Nat} {rest : List Turn} (turn : s.agenda = ⟨n, .cycle core⟩ :: rest) {q : State}
    (prepared : (({ s with agenda := rest } : State).tick n).prepare core = (some (u, st), q)) :
    step s = (q.begin u st .execute).runAt u core st.ctx st.lrec st.pc (State.closeIssue u core) := by
  simp only [step, State.takeTurn, turn, State.perform1, State.cycle, prepared, State.issueStrand]

theorem step_event {n : Nat} {rest : List Turn} (turn : s.agenda = ⟨n, .event i⟩ :: rest) :
    step s = State.close (exec i) (({ s with agenda := rest } : State).tick n) := by
  simp only [step, State.takeTurn, turn, State.perform1]

/-- Settles O56: the cycle prepares the strand that holds its position, fetches and classifies its words, and executes what they decode to;
each failure is the outcome that the fetch gives for it. -/
theorem stepRunsTheDecodedInstruction : Obligations.StepRunsTheDecodedInstruction := by
  refine ⟨?_, fun s n rest i turn => ?_⟩
  · intro s s2 s3 n core u rest st w ws turn s1 held found skip long goes met q steps r stream traps rejects len padded
    have run : step s = r.runAt u core st.ctx st.lrec q.pc (State.closeIssue u core) :=
      step_cycle turn (State.prepare_eq held found skip long goes met steps)
    have before : (if st.behind = 0 then s1 else s1.setStrand u q).order = s1.order ∧
        (if st.behind = 0 then s1 else s1.setStrand u q).mem = s1.mem := by split <;> exact ⟨rfl, rfl⟩
    have trapped {t : State} {cause extra addr noWord}
        (e : r.fetch core st.ctx st.lrec stream q.pc = (.trap cause extra addr noWord, t)) : traps t cause extra addr noWord :=
      run.trans (State.runAt_trap rfl e)
    refine ⟨⟨rfl, rfl, before.2, ?_⟩, fun _ _ _ e => trapped (State.fetch_wordTrap e),
      fun e => ⟨fun _ _ _ e' => trapped (State.fetch_wordsTrap e e'), fun e' => ?_⟩⟩
    · rw [← before.1]
      exact State.begin_execute ..
    · have fetched := State.fetch_words e e'
      have rejected {cause} (c : classify q.pc len ws = .free cause) : rejects cause :=
        run.trans (State.runAt_free rfl (fetched.trans (by rw [c])))
      refine ⟨?_, ?_, fun first => ⟨?_, ?_, ?_, ?_, ?_⟩⟩
      · rintro v vs rfl
        exact trapped (fetched.trans (by rw [classify_noStart]))
      · rintro v vs a x bs rfl rfl clear
        exact trapped (fetched.trans (by rw [classify_laterStart clear]))
      · exact fun d => rejected (by simp [classify_rejected first d, Reject.cause])
      · exact fun d whole => rejected (by simp [classify_rejected first d, Reject.cause, whole, len])
      · intro e d other short
        refine rejected ((classify_rejected first d).trans ?_)
        cases e with
        | illegalOpcode => exact absurd rfl other
        | unsupported => simp [short.resolve_left (· rfl)]
        | truncated => simp [Reject.cause]
        | illegalForm => simp [Reject.cause]
      · exact fun i vs d short => rejected (classify_cut first d short)
      · exact fun i d whole => run.trans (State.runAt_instr rfl (fetched.trans (by rw [classify_whole first d whole])))
  · rw [step_event turn]
    unfold State.close
    rfl

end Sys2Proof.Machine
end

section
/-!
THE STRAND THAT ISSUES GOES ON ISSUING (O34).

LAUNCH of a block without items completes its launch at once (02 R41): within the instruction the arbiter writes a completion word, strands
that watch it or wait on it go on, a scope's waiters wake, and an error-queue entry may be written. None of it ends the strand that issues,
begins or ends a region of it, or lets another strand issue: `State.issuing`, the issuer and whether a strand is there outside a region, is
the same behind each function of the model on that path.
-/

namespace Sys2Proof.Machine

variable {s t : State} {α : Type} {u v : Nat} {st st' : Strand} {f : Fields}

/-- Who issues, and of strand `u`, where it is there, whether it is outside a region. -/
def State.issuing (s : State) (u : Nat) : Option Nat × Option Bool := (s.cur, (s.strand? u).map (·.region.isNone))

theorem State.issuing_iff : s.issuing u = (some u, some true) ↔ s.cur = some u ∧ ∃ st, s.strand? u = some st ∧ st.region = none := by
  simp [State.issuing]

theorem Issues.issuing (h : Issues s u st f) : s.issuing u = (some u, some true) :=
  State.issuing_iff.mpr ⟨h.issuer, st, h.strand, h.outside⟩

theorem Traffic.issuing (h : Traffic s t) : t.issuing u = s.issuing u := by
  simp only [State.issuing, h.cur, h.strand]

theorem State.foldl_issuing {g : State → α → State} (hg : ∀ t x, (g t x).issuing u = t.issuing u) (l : List α) (s : State) :
    (l.foldl g s).issuing u = s.issuing u := by
  induction l generalizing s with
  | nil => rfl
  | cons x l ih => exact (ih _).trans (hg s x)

namespace State

/-! ### Strands, watches and waiters -/

theorem setStrand_issuing (found : s.strand? v = some st) (same : st'.region.isNone = st.region.isNone) :
    (s.setStrand v st').issuing u = s.issuing u := by
  by_cases e : v = u
  · subst e
    simp [issuing, found, same]
  · simp [issuing, strand_set_other _ _ e]

theorem editStrand_issuing {g : Strand → Strand} (same : ∀ st, (g st).region.isNone = st.region.isNone) :
    (s.editStrand v g).issuing u = s.issuing u := by
  unfold editStrand
  split
  · next found => exact setStrand_issuing found (same _)
  · rfl

theorem wake_enter_issuing (found : s.strand? v = some st) : (wake.enter s v st).issuing u = s.issuing u := by
  refine (show (wake.enter s v st).issuing u = (s.setStrand v _).issuing u from rfl).trans (setStrand_issuing found ?_)
  split <;> rfl

theorem wake_issuing : (s.wake v).issuing u = s.issuing u := by
  unfold wake
  split
  · rfl
  · next found =>
    have entered := wake_enter_issuing (u := u) found
    split
    · split
      · rfl
      · exact entered
    · split
      · rfl
      · exact entered
    · exact setStrand_issuing found rfl
    · rfl

theorem fireLine_issuing {line} : (s.fireLine line).issuing u = s.issuing u := by
  refine foldl_issuing (fun t e => ?_) ..
  have fired := editStrand_issuing (s := t) (v := e.1) (u := u)
    (g := fun st => { st with watch := st.watch.map fun w => if (w.armed && w.line == line) = true then { w with fired := true } else w })
    (fun _ => rfl)
  dsimp only
  split
  · split
    · exact wake_issuing.trans fired
    · exact fired
  · rfl

theorem giveX_issuing {w access r x} : (s.giveX w access r x).issuing u = s.issuing u :=
  editStrand_issuing fun st => by split <;> simp_all

theorem movePc_issuing {w access len} : (s.movePc w access len).issuing u = s.issuing u :=
  editStrand_issuing fun st => by split <;> simp_all

theorem noteVt_issuing {w pa} : (s.noteVt w pa).issuing u = s.issuing u :=
  editStrand_issuing fun st => by dsimp only; split <;> rfl

theorem release_issuing {w} : (s.release w).issuing u = s.issuing u := editStrand_issuing fun _ => rfl

theorem goOn_issuing {w access} : (s.goOn w access).issuing u = s.issuing u := by
  unfold goOn
  split
  · next found =>
    split
    · next inside => exact setStrand_issuing found (by simp [inside])
    · exact wake_issuing
  · exact wake_issuing

/-! ### What an access does at its home -/

theorem homeStep_issuing {coherent reads leaf addr} : (s.homeStep coherent reads leaf addr).issuing u = s.issuing u := by
  unfold homeStep
  split
  · split <;> rfl
  · split
    · exact ((calm_settle ..).trans (calm_cleanOwner ..)).issuing
    · exact ((calm_settle ..).trans (calm_invalidateAll ..)).issuing

theorem modeBit_issuing {mode addr} : (s.modeBit mode addr).issuing u = s.issuing u := by
  unfold modeBit
  split <;> rfl

theorem leasedReply_issuing {addr} : (s.leasedReply addr).2.issuing u = s.issuing u := by
  have granted {a} : (s.setAgent (lineOf addr) a).issuing u = s.issuing u := (calm_setAgent ..).issuing
  grind [leasedReply, grantLease]

theorem performRemote_issuing {ty p addr pas coherent leaf} : (s.performRemote ty p addr pas coherent leaf).1.issuing u = s.issuing u := by
  have respond {t : State} {ty p aux words} : (t.respond ty p aux words).issuing u = t.issuing u := rfl
  have store {t : State} {pa n v} : (t.store pa n v).issuing u = t.issuing u := rfl
  have clear {t : State} {pa} : (t.clearPoison pa).issuing u = t.issuing u := rfl
  have erase {t : State} {w} : (t.eraseStamp w).issuing u = t.issuing u := rfl
  have home := foldl_issuing (u := u)
    (fun t a => homeStep_issuing (s := t) (coherent := coherent) (reads := ty == 1 && p.mode != 2) (leaf := leaf) (addr := a))
    (if ty = 4 then pas else [addr]) (s.streamNext p)
  unfold performRemote
  dsimp only
  generalize (if ty = 4 then pas else [addr]).foldl _ _ = t at home ⊢
  rw [show (s.streamNext p).issuing u = s.issuing u from rfl] at home
  split
  · grind [modeBit_issuing, leasedReply_issuing]
  · grind [modeBit_issuing]
  · grind [modeBit_issuing]
  · exact modeBit_issuing.trans ((foldl_issuing (fun _ _ => fireLine_issuing (s := ((State.store ..).clearPoison _).eraseStamp _)) ..).trans home)

theorem completeWaiter_issuing {w} : (s.completeWaiter w).1.issuing u = s.issuing u := by
  have store {t : State} {pa n v} : (t.store pa n v).issuing u = t.issuing u := rfl
  have clear {t : State} {pa} : (t.clearPoison pa).issuing u = t.issuing u := rfl
  have full {t : State} {pa} : (t.setFull pa).issuing u = t.issuing u := rfl
  have empty {t : State} {pa} : (t.setEmpty pa).issuing u = t.issuing u := rfl
  cases hk : w.kind <;>
    grind [completeWaiter, homeStep_issuing, giveX_issuing, movePc_issuing, goOn_issuing, noteVt_issuing, release_issuing, performRemote_issuing]

theorem withWaiters_issuing {l} : ({ s with waiters := l } : State).issuing u = s.issuing u := rfl

theorem recheck_issuing {fuel : Nat} {buckets} : (s.recheck buckets fuel).issuing u = s.issuing u := by
  induction fuel generalizing s buckets with
  | zero => rfl
  | succ fuel ih =>
    have completed := @completeWaiter_issuing s u
    unfold recheck
    split
    · rfl
    · grind [fireLine_issuing, withWaiters_issuing]

theorem written_issuing {pa n} : (s.written pa n).issuing u = s.issuing u := by
  have fired : ((linesOfRun pa n).foldl fireLine s).issuing u = s.issuing u := foldl_issuing (fun _ _ => fireLine_issuing) ..
  grind [written, recheck_issuing]

/-! ### Units -/

theorem unitGoes_issuing {n} : (s.unitGoes n).issuing u = s.issuing u := by
  unfold unitGoes
  split <;> rfl

theorem standUnit_issuing {n a} : (s.standUnit n a).issuing u = s.issuing u := by
  unfold standUnit
  dsimp only
  split
  · exact unitGoes_issuing
  · split <;> rfl

theorem askUnit_issuing {a} : (s.askUnit a).issuing u = s.issuing u := by
  unfold askUnit
  split
  · split <;> rfl
  · rfl

theorem unitNotes_issuing {n : Nat} {p : Except Problem α × State} : (unitNotes n p).2.issuing u = p.2.issuing u := by
  unfold unitNotes
  split
  · exact standUnit_issuing
  · exact unitGoes_issuing

theorem translate_issuing {core ctx va acc eng unit} : (s.translate core ctx va acc eng unit).2.issuing u = s.issuing u :=
  (traffic_translate ..).issuing

theorem translateStore_issuing {core ctx va eng unit} : (s.translateStore core ctx va eng unit).2.issuing u = s.issuing u := by
  unfold translateStore
  dsimp only
  split
  · exact (((traffic_translate ..).trans (traffic_forget ..)).trans (traffic_translate ..)).issuing
  · exact translate_issuing

theorem askHome_issuing {who ctx l w} : (s.askHome who ctx l w).2.issuing u = s.issuing u := (calm_askHome ..).issuing

theorem unitSite_issuing {core ctx n lrec va write bits} : (s.unitSite core ctx n lrec va write bits).2.issuing u = s.issuing u := by
  grind [unitSite, translate_issuing, translateStore_issuing, askUnit_issuing]

theorem unitPut_issuing {core ctx va x words full} : (s.unitPut core ctx va x words full).issuing u = s.issuing u := by
  refine written_issuing.trans ((foldl_issuing (fun t i => ?_) ..).trans
    ((foldl_issuing (fun _ _ => homeStep_issuing) ..).trans (traffic_markDirty ..).issuing))
  cases full with
  | none => rfl
  | some b => cases b <;> rfl

theorem unitWrite_issuing {core ctx n lrec va words full free} :
    (s.unitWrite core ctx n lrec va words full free).2.issuing u = s.issuing u := by
  grind [unitWrite, unitNotes_issuing, unitSite_issuing, askHome_issuing, unitPut_issuing]

/-! ### Entries of the error queue -/

theorem loseEntry_issuing {core ctx n base x} : (s.loseEntry core ctx n base x).2.issuing u = s.issuing u := by
  grind [loseEntry, askHome_issuing, unitPut_issuing]

theorem addEntry_issuing {core ctx n base va x y words} : (s.addEntry core ctx n base va x y words).2.issuing u = s.issuing u := by
  grind [addEntry, askHome_issuing, unitPut_issuing]

theorem entry_issuing {n ctx addr peer kind cause sid} : (s.entry n ctx addr peer kind cause sid).2.issuing u = s.issuing u := by
  unfold entry
  split
  · exact unitGoes_issuing
  · have placed := @unitSite_issuing s u
    dsimp only
    split
    · grind [standUnit_issuing]
    · grind [unitGoes_issuing]
    · grind [unitGoes_issuing, standUnit_issuing, unitSite_issuing, loseEntry_issuing, addEntry_issuing]

theorem putOff_issuing {no c} : (s.putOff no c).issuing u = s.issuing u := rfl

theorem localError_issuing {ctx addr kind cause sid} : (s.localError ctx addr kind cause sid).issuing u = s.issuing u := by
  refine Eq.trans ?_ (show ({ s with free := s.free + 1 } : State).issuing u = s.issuing u from rfl)
  grind [localError, errorEntry, entry_issuing, putOff_issuing]

/-! ### The end of a launch (02 R50) -/

theorem editCtx_issuing {n g} : (s.editCtx n g).issuing u = s.issuing u := by
  unfold editCtx
  split <;> rfl

theorem setScope_issuing {ctx n x} : (s.setScope ctx n x).issuing u = s.issuing u := editCtx_issuing

theorem wakeScope_issuing {ctx n} : (s.wakeScope ctx n).issuing u = s.issuing u :=
  foldl_issuing (fun _ _ => by
    split
    · exact wake_issuing
    · rfl) ..

theorem scopeDown_issuing {ctx n} : (s.scopeDown ctx n).issuing u = s.issuing u := by
  have counted {x} : (s.setScope ctx n x).issuing u = s.issuing u := setScope_issuing
  unfold scopeDown
  extract_lets x k t w
  split
  · rfl
  · split
    · exact counted
    · split
      · exact setScope_issuing.trans (wakeScope_issuing.trans counted)
      · exact wakeScope_issuing.trans counted

theorem scopeUp_issuing {ctx n} : (s.scopeUp ctx n).issuing u = s.issuing u := by
  unfold scopeUp
  exact setScope_issuing

theorem addLaunch_issuing {i l} : (s.addLaunch i l).issuing u = s.issuing u := by
  have taken (t : State) (ls n ks) : ({ t with launches := ls, order := n, cores := ks } : State).issuing u = t.issuing u := rfl
  simp only [addLaunch, taken, editCtx_issuing, scopeUp_issuing]

theorem releaseRecord_issuing {lrec l} : (s.releaseRecord lrec l).issuing u = s.issuing u :=
  scopeDown_issuing (s := { s with launches := Sparse.erase s.launches lrec })

theorem bootWordDone_issuing {l} : (s.bootWordDone l).issuing u = s.issuing u := by
  unfold bootWordDone
  split <;> rfl

theorem agentWord_issuing {lrec ctx va x} : (s.agentWord lrec ctx va x).2.issuing u = s.issuing u := by
  grind [agentWord, unitNotes_issuing, unitSite_issuing, unitWrite_issuing]

theorem finishLaunch_issuing {lrec} : (s.finishLaunch lrec).issuing u = s.issuing u := by
  grind [finishLaunch, releaseRecord_issuing, agentWord_issuing, bootWordDone_issuing, localError_issuing]

theorem finishEmpty_issuing {lrec} : (s.finishEmpty lrec).issuing u = s.issuing u := by
  grind [finishEmpty, finishLaunch_issuing]

end State

end Sys2Proof.Machine
end

section
/-!
LAUNCH, TRIGGER AND WAITP (O34).

The words of a launch block are read quietly, the conditions of 02 R41 are taken apart one by one, and LAUNCH ends alike for every status: D
takes the answer, and the strand waits for the reply.
-/

namespace Sys2Proof.Machine

variable {s s1 s2 r t : State} {u lrec : Nat} {st : Strand} {f : Fields} {l : Launch}

theorem State.editLaunch_strand {g : Launch → Launch} : (s.editLaunch lrec g).strand? u = s.strand? u := by
  simp only [strand?, editLaunch_strands]

/-! ### Reading the block (02 R35, 12 R277) -/

theorem CalmAct.quietAct {α : Type} {a : Act α} (h : CalmAct a) : QuietAct a :=
  ⟨fun _ _ _ e => Quiet.traffic _ _ (h.calm e).toTraffic⟩

theorem launchLine_quiet (va : Word) : QuietAct (launchLine va) := by
  have home (x : Xlat) : QuietAct (do heedPoison x.pa 64 va; readS fun s => Memory.getBytes s.mem x.pa 64 : Act (List (BitVec 8))) :=
    (heedPoison_calm ..).quietAct.bind fun _ => .readS _
  have managed (st : Strand) (x : Xlat) : QuietAct (do
      heedWord (← readS fun s => s.swmPoison st.core x.pa 64 fun _ => true) x.pa va
      readS fun s => s.swmRead st.core x.pa 64 : Act (List (BitVec 8))) :=
    (QuietAct.readS _).bind fun _ => (heedWord_calm ..).quietAct.bind fun _ => .readS _
  unfold launchLine
  refine QuietAct.self.bind fun st => (stateS_quiet fun s => traffic_translate ..).bind fun x => ?_
  split
  · exact .ends (raise_ends _)
  · refine (QuietAct.readS _).bind fun p => ?_
    dsimp only
    split
    · exact .ends (Act.ends_first (raise_ends _))
    · refine (heedMigrate_quiet _).bind fun _ => (QuietAct.readS _).bind fun _ => (heedHome_quiet ..).bind fun _ =>
        (QuietAct.readS _).bind fun path => ?_
      split
      · exact (QuietAct.readS _).bind fun down => .ite (.ends (Act.ends_first (trapAt_ends _ _ _))) (managed ..)
      · exact home _

theorem launchLines_quiet (n : Nat) (va : Word) : QuietAct (launchLines n va) := by
  induction n generalizing va with
  | zero => exact .pure _
  | succ n ih => exact (launchLine_quiet _).bind fun _ => (ih _).bind fun _ => .pure _

theorem readAllDefaults_quiet (maxd : Nat) (l : List ExportWord) : QuietAct (readAllDefaults maxd l) := by
  induction l with
  | nil => exact .pure _
  | cons e l ih => exact ((launchLines_quiet ..).bind fun _ => .pure _).bind fun _ => ih.bind fun _ => .pure _

theorem readTempoBlock_quiet (b : List Word) : QuietAct (readTempoBlock b) :=
  .ite (.pure _) ((launchLine_quiet _).bind fun _ => .ite ((readAllDefaults_quiet ..).bind fun _ => .pure _) (.pure _))

/-- A quiet step of a strand that still issues. -/
theorem QuietAct.issuing {α : Type} {a : Act α} {x : α} (h : QuietAct a) (hs : s.issuing u = (some u, some true)) (e : a s = (.ok x, t)) :
    t.issuing u = (some u, some true) := by
  obtain ⟨hc, st, found, out⟩ := State.issuing_iff.mp hs
  have q := h.quiet hc found out e
  obtain ⟨k, there⟩ := q.strand found
  exact State.issuing_iff.mpr ⟨q.cur.trans hc, _, there, by simpa using out⟩

/-! ### The answer of LAUNCH -/

/-- D takes a value, the phase goes on, and the strand waits for the reply (05 R116, R135). -/
theorem answer_run (hs : t.issuing u = (some u, some true)) (d : Nat) (v : Word) :
    (do writeX d v; editS fun s => s.release u; finishReply f : Act Unit) t = (.error .done, (t.givingRelease u f d v).replies u) := by
  obtain ⟨hc, st, found, out⟩ := State.issuing_iff.mp hs
  let st' : Strand := { st.gives d v with phase := st.phase + 1 }
  have released : (t.setStrand u (st.gives d v)).release u = t.setStrand u st' := State.edit_set ..
  have given : t.givingRelease u f d v = t.setStrand u (st'.done f) := State.editStrand_eq found _
  have finished : finish f (t.setStrand u st') = (.ok (), t.setStrand u (st'.done f)) := by
    rw [finish_run (s := t.setStrand u st') hc (State.strand_set ..) out, State.set_set]
  rw [Act.bind_ok (writeX_run hc found out d v), Act.bind_ok (editS_run ..), released, finishReply, Act.bind_ok finished,
    park_run (s := t.setStrand u (st'.done f)) hc (State.strand_set ..) out, given]
  rfl

theorem Act.outcome_congr {a b : Act Unit} (h : a s = b t) : a.outcome s = b.outcome t := by simp only [Act.outcome, h]

/-- What LAUNCH does once its block is read, in state `s`. -/
def launchEnd (f : Fields) (u : Nat) (st : Strand) (a : Word) (b : List Word) (tempo : Option (List Export)) (s : State) : Act Unit :=
  match s.launchStatus st b tempo, s.freeRecord with
  | 0, some i => do
    let seq := ((s.ctx? st.ctx).map (·.launchSeq)).getD 1
    editS fun s => (s.addLaunch i (lpbLaunch u st seq a b (tempo.getD []) s.order s.gclk)).finishEmpty i
    writeX f.d.toNat (BitVec.ofNat 64 (seq * 1024 + i))
    editS fun s => s.release u
    finishReply f
  | _, _ => do
    writeX f.d.toNat (BitVec.ofNat 64 (2 ^ 63 + s.launchStatus st b tempo))
    editS fun s => s.release u
    finishReply f

section
variable {a : Word} {b : List Word} {tempo : Option (List Export)} {i : Nat}

theorem launchEnd_refused (hs : r.issuing u = (some u, some true)) (refused : r.launchStatus st b tempo ≠ 0) :
    launchEnd f u st a b tempo r r =
      (.error .done, (r.givingRelease u f f.d.toNat (BitVec.ofNat 64 (2 ^ 63 + r.launchStatus st b tempo))).replies u) := by
  unfold launchEnd
  generalize r.launchStatus st b tempo = code at *
  cases code with
  | zero => exact absurd rfl refused
  | succ => exact answer_run hs ..

theorem launchEnd_accepted (hs : r.issuing u = (some u, some true)) (accepted : r.launchStatus st b tempo = 0) (free : r.freeRecord = some i) :
    let seq := ((r.ctx? st.ctx).map (·.launchSeq)).getD 1
    launchEnd f u st a b tempo r r =
      (.error .done, (((r.addLaunch i (lpbLaunch u st seq a b (tempo.getD []) r.order r.gclk)).finishEmpty i).givingRelease u f f.d.toNat
        (BitVec.ofNat 64 (seq * 1024 + i))).replies u) := by
  have started {l : Launch} : ((r.addLaunch i l).finishEmpty i).issuing u = (some u, some true) := by
    rw [State.finishEmpty_issuing, State.addLaunch_issuing, hs]
  intro seq
  unfold launchEnd
  rw [accepted, free]
  exact (Act.bind_ok (editS_run ..)).trans (answer_run started ..)

variable {bytes : List (BitVec 8)} (h : Issues s u st f) (ha : operandX false f.a f.ta s = (.ok a, s1))
  (lines : launchLines 4 a s1 = (.ok bytes, s2)) (block : readTempoBlock (wordsFrom 32 bytes) s2 = (.ok tempo, r))
include h ha lines block

theorem launch_issuing : r.issuing u = (some u, some true) :=
  (readTempoBlock_quiet _).issuing ((launchLines_quiet ..).issuing ((operandX_quiet ..).issuing h.issuing ha) lines) block

theorem launch_run (aligned : a.toNat % 64 = 0) :
    execLaunch f s = (launchEnd f u st a (wordsFrom 32 bytes) tempo r).outcome r := by
  refine Act.outcome_congr ((issue_run h ..).trans ?_)
  rw [Act.bind_ok (me_run h.issuer), Act.bind_ok (self_run h.issuer h.strand), Act.bind_ok ha]
  dsimp only
  rw [if_neg (by simp [aligned]), Act.bind_ok lines, Act.bind_ok block, Act.bind_ok (readS_run ..)]
  rfl

end

/-- A launch with items takes its record and keeps it. -/
theorem addLaunch_keeps {i : Nat} (items : l.nitems ≠ 0) :
    (r.addLaunch i l).finishEmpty i = r.addLaunch i l ∧ (r.addLaunch i l).launch? i = some l := by
  have taken : (r.addLaunch i l).launch? i = some l := Sparse.get_put_same ..
  exact ⟨by simp only [State.finishEmpty, taken, beq_iff_eq, if_neg items], taken⟩

/-! ### The status of a block (02 R41) -/

theorem field_top_eq_zero (w : Word) {k : Nat} (hk : k ≤ 63) : field w 63 k = 0 ↔ w.toNat < 2 ^ k := by
  have small : w.toNat / 2 ^ k < 2 ^ (63 - k + 1) := by
    rw [Nat.div_lt_iff_lt_mul (by positivity), ← Nat.pow_add, show 63 - k + 1 + k = 64 by omega]
    exact w.isLt
  rw [field, bitsOf, Nat.shiftRight_eq_div_pow, Nat.mod_eq_of_lt small, Nat.div_eq_zero_iff_lt (by positivity)]

theorem field_low_eq_zero (w : Word) (k : Nat) : field w k 0 = 0 ↔ 2 ^ (k + 1) ∣ w.toNat := by
  simp [field, bitsOf, Nat.dvd_iff_mod_eq_zero]

theorem field_bit (w : Word) (k : Nat) : field w k k = (w.getLsbD k).toNat := by
  simp [field, bitsOf, BitVec.getLsbD, Nat.toNat_testBit, Nat.shiftRight_eq_div_pow]

/-- A status that names the first of four conditions that fails. -/
theorem firstFailing {A B C D : Prop} {a b c d : Bool} {n : Nat} (ha : a = true ↔ ¬A) (hb : b = true ↔ B) (hc : c = true ↔ C)
    (hd : d = true ↔ ¬D) (hn : n = if a then 1 else if !b then 2 else if !c then 3 else if d then 4 else 0) :
    (¬A → n = 1) ∧ (A → ¬B → n = 2) ∧ (A → B → ¬C → n = 3) ∧ (A → B → C → ¬D → n = 4) ∧ (A → B → C → D → n = 0) := by
  simp +contextual [hn, ha, ← hb, ← hc, hd]

section
variable {b : List Word} {tempo : Option (List Export)}

theorem Rect.fits_iff {q : Rect} : (q.aligned && q.onModule) = true ↔
    2 ^ q.lw ∣ q.ofile ∧ 2 ^ q.lh ∣ q.orank ∧ q.ofile + 2 ^ q.lw ≤ 128 ∧ q.orank + 2 ^ q.lh ≤ 64 := by
  simp only [aligned, onModule, Bool.and_eq_true, beq_iff_eq, decide_eq_true_eq, and_assoc, Nat.dvd_iff_mod_eq_zero]
  rfl

theorem tempoWordOk_iff : tempoWordOk b = true ↔ field (b.getD 5 0) 63 57 = 0 ∧ field (b.getD 5 0) 0 0 = 0 ∧ field (b.getD 5 0) 5 3 ≤ 4 ∧
    (field (b.getD 5 0) 5 3 = 0 ↔ field (b.getD 5 0) 2 1 = 0) := by
  have distances : (if lpbNexp b = 0 then lpbMaxd b == 0 else decide (1 ≤ lpbMaxd b)) = true ↔ (lpbNexp b = 0 ↔ lpbMaxd b = 0) := by
    split <;> simp [*, Nat.one_le_iff_ne_zero]
  simp only [tempoWordOk, Bool.and_eq_true, distances, beq_iff_eq, decide_eq_true_eq, Bool.not_eq_true', and_assoc, field_bit,
    Bool.toNat_eq_zero]
  rfl

theorem rangesOk_iff : rangesOk b = true ↔ ∀ i < 8, field (b.getD (17 + 2 * i) 0) 63 63 = 1 →
    field (b.getD (17 + 2 * i) 0) 47 0 ≠ 0 ∧ (b.getD (16 + 2 * i) 0).toNat + field (b.getD (17 + 2 * i) 0) 47 0 ≤ 2 ^ 57 := by
  simp only [rangesOk, lpbRanges, lpbWord, field_bit, List.all_map, List.all_eq_true, List.mem_range, Function.comp_apply, Bool.or_eq_true,
    Bool.and_eq_true, Bool.not_eq_true', bne_iff_ne, decide_eq_true_eq, Bool.toNat_eq_one, ← Bool.not_eq_true, ← imp_iff_not_or]

theorem shapeOk_iff : shapeOk b = true ↔
    field (b.getD 0 0) 63 39 = 0 ∧ field (b.getD 1 0) 63 59 = 0 ∧ 1 ≤ field (b.getD 0 0) 35 27 ∧ field (b.getD 0 0) 35 27 ≤ 256 ∧
    field (b.getD 0 0) 26 21 ≤ 40 ∧ ((lpbRect b).aligned && (lpbRect b).onModule) = true ∧
    (field (b.getD 0 0) 20 19 = 3 → (lpbRect b).lw = (lpbRect b).lh) ∧
    4 ∣ (b.getD 2 0).toNat ∧ (b.getD 2 0).toNat < 2 ^ 48 ∧ 256 ∣ (b.getD 3 0).toNat ∧ (b.getD 3 0).toNat < 2 ^ 57 ∧
    8 ∣ (b.getD 4 0).toNat ∧ (b.getD 4 0).toNat < 2 ^ 57 ∧ tempoWordOk b = true ∧ ∀ i < 8, field (b.getD (17 + 2 * i) 0) 61 48 = 0 := by
  have entry := field_low_eq_zero (b.getD 2 0) 1
  have constants := field_low_eq_zero (b.getD 3 0) 7
  have cword := field_low_eq_zero (b.getD 4 0) 2
  have entryTop := field_top_eq_zero (b.getD 2 0) (k := 48) (by omega)
  have constantsTop := field_top_eq_zero (b.getD 3 0) (k := 57) (by omega)
  have cwordTop := field_top_eq_zero (b.getD 4 0) (k := 57) (by omega)
  have slots : lpbSlots b = field (b.getD 0 0) 35 27 := rfl
  simp only [shapeOk, Bool.and_eq_true, Bool.or_eq_true, bne_iff_ne, beq_iff_eq, decide_eq_true_eq, lpbRanges, List.all_map,
    List.all_eq_true, List.mem_range, Function.comp_apply]
  simp only [lpbWord, slots, entry, constants, cword, entryTop, constantsTop, cwordTop, ne_eq, ← imp_iff_not_or, and_assoc,
    and_left_comm (a := (b.getD 3 0).toNat < 2 ^ 57) (b := 2 ^ (7 + 1) ∣ (b.getD 3 0).toNat),
    and_left_comm (a := (b.getD 4 0).toNat < 2 ^ 57) (b := 2 ^ (2 + 1) ∣ (b.getD 4 0).toNat)]
  rfl

variable {s : State} {st : Strand}

theorem mayLaunch_iff {auth : List Word} {ctx : Nat} {q : Rect} : s.mayLaunch auth ctx q = true ↔
    tableCovers auth Right.launch q 0 255 = true ∧
      ∃ c, s.ctx? ctx = some c ∧ ∃ l ∈ s.leaves, l.node.leafId ∈ c.bound ∧ q.inside l.node = true := by
  unfold State.mayLaunch
  cases s.ctx? ctx <;> simp

theorem freeRecord_isNone_iff : s.freeRecord.isNone = true ↔ ¬∃ i < 1024, s.launch? i = none := by
  simp [State.freeRecord]

theorem noQuota_iff {ctx q : Nat} :
    (decide (((s.ctx? ctx).map fun c => (c.qlim[q]?).getD 0).getD 0 ≤ s.classUse ctx q) || s.freeRecord.isNone) = true ↔
      ¬((∃ i < 1024, s.launch? i = none) ∧ ∃ c, s.ctx? ctx = some c ∧
        (s.launches.filter fun e => e.2.ctx == ctx && e.2.qclass == q).length < (c.qlim[q]?).getD 0) := by
  simp only [Bool.or_eq_true, decide_eq_true_eq, freeRecord_isNone_iff, ← imp_iff_or_not, not_and]
  refine imp_congr_right fun _ => ?_
  cases s.ctx? ctx with
  | none => simp
  | some c => simp [State.classUse]

/-- The first condition of 02 R41 fails: the layout, the tempo descriptor, or the scope. -/
theorem launchStatus_shape : (!shapeOk b || tempo.isNone || (s.scopeOf st.ctx (field (lpbWord b 1) 47 40)).state != .opened) = true ↔
    ¬(shapeOk b = true ∧ tempo ≠ none ∧ (s.scopeOf st.ctx (field (b.getD 1 0) 47 40)).state = .opened) := by
  simp only [Bool.or_eq_true, Bool.not_eq_true', Option.isNone_iff_eq_none, bne_iff_ne, not_and_or, not_not, Bool.not_eq_true, or_assoc,
    lpbWord, ne_eq]

/-- A launch that is accepted has a free record to take. -/
theorem freeRecord_of_accepted (h : s.launchStatus st b tempo = 0) : s.freeRecord ≠ none := by
  intro full
  simp only [State.launchStatus, full, Option.isNone_none, Bool.or_true, if_true] at h
  split at h
  · cases h
  · split at h
    · cases h
    · split at h <;> cases h

end

/-! ### TRIGGER and WAITP (02 R49) -/

theorem trigger_run (h : Issues s u st f) : execTrigger f s = .next ((s.editLaunch st.lrec fun l =>
    { l with triggered := insertNat l.triggered st.item }).setStrand u ({ st with phase := st.phase + 1 }.done f)) := by
  let noted := s.editLaunch st.lrec fun l => { l with triggered := insertNat l.triggered st.item }
  have released : noted.release u = noted.setStrand u { st with phase := st.phase + 1 } :=
    State.editStrand_eq (State.editLaunch_strand.trans h.strand) _
  refine Act.outcome_ok ?_
  rw [issue_run h, Act.bind_ok (me_run h.issuer), Act.bind_ok (self_run h.issuer h.strand), Act.bind_ok (editS_run ..), released,
    finish_run (s := noted.setStrand u { st with phase := st.phase + 1 }) ((State.editLaunch_cur ..).trans h.issuer)
      (State.strand_set ..) h.outside, State.set_set]

theorem waitp_outside (h : Issues s u st f) (found : s.launch? st.lrec = some l) (out : l.inGambit = false) :
    execWaitp f s = .next (s.setStrand u (st.done f)) := by
  refine Act.outcome_ok ((issue_run h ..).trans ?_)
  rw [Act.bind_ok (self_run h.issuer h.strand), Act.bind_ok (readS_run ..)]
  simp only [id_eq, found, out]
  exact finish_run h.issuer h.strand h.outside f

theorem waitp_waits (h : Issues s u st f) (found : s.launch? st.lrec = some l) (gambit : l.inGambit = true)
    (missing : s.producersTriggered l = false) : execWaitp f s = .next (s.leave u .parked .producers 15) := by
  refine Act.outcome_done ((issue_run h ..).trans ?_)
  rw [Act.bind_ok (self_run h.issuer h.strand), Act.bind_ok (readS_run ..)]
  simp only [id_eq, found, gambit, missing]
  exact Act.bind_error (park_run h.issuer h.strand h.outside .producers)

theorem waitp_returns (h : Issues s u st f) (found : s.launch? st.lrec = some l) (gambit : l.inGambit = true)
    (triggered : s.producersTriggered l = true) : execWaitp f s =
      .next ((s.editLaunch st.lrec fun l => { l with waited := insertNat l.waited st.item }).setStrand u (st.done f)) := by
  refine Act.outcome_ok ((issue_run h ..).trans ?_)
  rw [Act.bind_ok (self_run h.issuer h.strand), Act.bind_ok (readS_run ..)]
  simp only [id_eq, found, gambit, triggered]
  exact (Act.bind_ok (editS_run ..)).trans
    (finish_run ((State.editLaunch_cur ..).trans h.issuer) (State.editLaunch_strand.trans h.strand) h.outside f)

/-- Settles O34: reading the block leaves the strand issuing, and so does all that the end of an empty launch brings about, so that LAUNCH
ends with its answer in either case; its status is the first of four conditions that fails. -/
theorem launches : Obligations.Launches := by
  refine ⟨fun s s1 s2 r u st f a bytes tempo i l h => ⟨fun ha aligned lines block => ?_, trigger_run h, fun found =>
    ⟨waitp_outside h found, waitp_waits h found, waitp_returns h found⟩⟩, ?_⟩
  · -- LAUNCH of a block that is read
    have ends := launch_run h ha lines block aligned
    have issuing := launch_issuing h ha lines block
    exact ⟨fun refused => ends.trans (Act.outcome_done (launchEnd_refused issuing refused)),
      fun accepted free => ends.trans (Act.outcome_done (launchEnd_accepted issuing accepted free)),
      freeRecord_of_accepted, addLaunch_keeps⟩
  · -- the status of a block
    intro s st b tempo w bits status shape auth ranges quota
    have layout : shape ↔ shapeOk b = true ∧ tempo ≠ none ∧ (s.scopeOf st.ctx (field (b.getD 1 0) 47 40)).state = .opened := by
      simp only [shapeOk_iff, Rect.fits_iff, tempoWordOk_iff, and_assoc]
      rfl
    exact firstFailing (launchStatus_shape.trans (not_congr layout.symm)) mayLaunch_iff rangesOk_iff noQuota_iff rfl

end Sys2Proof.Machine
end

section
/-!
LAUNCH RECORDS, STEALING AND TEMPO (O41).

One lemma for each case of a function of the arbiter (`admitLaunch`, `age`, `finishLaunch`), of stealing (`stealFrom`), of tempo
(`deliverTempo`, `recordBreak`) and of the match table (`fireMatch`); the conditions of 02 R47 follow from `mayAdmit`.
-/

namespace Sys2Proof.Machine

variable {s q r : State} {core lrec u : Nat} {st : Strand} {l : Launch}

theorem Sparse.get_mapVals {α : Type} {m : SMap α} {k : Nat} {g : Nat → α → α} : get (mapVals g m) k = (get m k).map (g k) := by
  induction m with
  | nil => rfl
  | cons e m ih =>
    by_cases h : e.1 = k
    · simp [mapVals, get, h]
    · simp [mapVals, get, h, ih]

namespace State

/-! ### Records of launches -/

theorem editLaunch_launch (found : s.launch? lrec = some l) (g : Launch → Launch) : (s.editLaunch lrec g).launch? lrec = some (g l) := by
  simp only [editLaunch, found]
  exact Sparse.get_put_same ..

theorem editLaunch_other {k : Nat} (ne : k ≠ lrec) (g : Launch → Launch) : (s.editLaunch lrec g).launch? k = s.launch? k := by
  unfold editLaunch
  split
  · exact Sparse.get_put_other _ _ ne.symm
  · rfl

theorem foldl_launches {α : Type} {g : State → α → State} (hg : ∀ t x, (g t x).launches = t.launches) (l : List α) (s : State) :
    (l.foldl g s).launches = s.launches := by
  induction l generalizing s with
  | nil => rfl
  | cons x l ih => exact (ih _).trans (hg s x)

theorem wake_launches : (s.wake u).launches = s.launches := by
  obtain ⟨cs, ss, n, e⟩ := (fired_wake s u).frame
  rw [e]

theorem setScope_launches {ctx n : Nat} {x : Scope} : (s.setScope ctx n x).launches = s.launches := editCtx_launches ..

theorem wakeScope_launches {ctx n : Nat} : (s.wakeScope ctx n).launches = s.launches :=
  foldl_launches (fun _ _ => by
    split
    · exact wake_launches
    · rfl) ..

theorem scopeDown_launches {ctx n : Nat} : (s.scopeDown ctx n).launches = s.launches := by
  unfold scopeDown
  extract_lets x k t w
  split
  · rfl
  · split
    · exact setScope_launches
    · split
      · exact setScope_launches.trans (wakeScope_launches.trans setScope_launches)
      · exact wakeScope_launches.trans setScope_launches

/-- A record that is released is free (02 R39). -/
theorem releaseRecord_free : (s.releaseRecord lrec l).launch? lrec = none := by
  simp only [releaseRecord, launch?, Sparse.get_mapVals, scopeDown_launches, Sparse.get_erase_same, Option.map_none]

/-! ### Admission, ageing, completion (02 R46 to R50) -/

/-- What R47 asks of a launch that is admitted. -/
theorem mayAdmit_conditions (may : s.mayAdmit lrec l = true) :
    l.state = .pending ∧ l.nitems ≠ 0 ∧ s.halted l.ctx = false ∧ s.mayLaunch (s.callerTable l) l.ctx l.rect = true ∧
      (∀ c ∈ l.rect.cores, s.hasRoom c = true) ∧ (l.gmbt = false → s.producersDone l = true) ∧
      (∀ e ∈ s.launches, e.2.state ≠ .pending → e.2.ctx = l.ctx → l.gmbt = false → rangesConflict l.ranges e.2.ranges = false) := by
  have admissible : s.admissible l = true := by
    simp only [mayAdmit, Bool.and_eq_true] at may
    obtain ⟨⟨⟨admissible, -⟩, -⟩, -⟩ := may
    exact admissible
  simp only [State.admissible, Bool.and_eq_true, Bool.or_eq_true, beq_iff_eq, bne_iff_ne, List.all_eq_true, Bool.not_eq_true'] at admissible
  obtain ⟨⟨⟨⟨⟨⟨⟨pending, items⟩, right⟩, room⟩, apart⟩, -⟩, producers⟩, goes⟩ := admissible
  refine ⟨pending, items, goes, right, room, fun strict => ?_, fun e mem runs same strict => ?_⟩
  · simpa [strict] using producers
  · simpa [strict, runs, same] using apart e mem

theorem admitLaunch_eq (found : s.launch? lrec = some l) (may : s.mayAdmit lrec l = true) :
    s.admitLaunch lrec = s.editLaunch lrec fun l => { l with state := .running (!s.producersDone l) } := by
  simp [admitLaunch, found, may]

theorem admitLaunch_idle (found : s.launch? lrec = some l) (held : s.mayAdmit lrec l = false) : s.admitLaunch lrec = s := by
  simp [admitLaunch, found, held]

theorem pendingTime_eq (goes : s.halted l.ctx = false) : s.pendingTime l = l.pended + (s.runClock l.ctx - l.pendFrom).toNat := by
  have runs : s.isStopped l.ctx = false := by
    simp only [halted, Bool.or_eq_false_iff] at goes
    exact goes.1
  simp [pendingTime, runs]

theorem age_early (found : s.launch? lrec = some l) (early : (s.runClock l.ctx - l.pendFrom).toNat < 600000) : s.age lrec = s := by
  simp only [age, found, gameMs, early, decide_true, Bool.or_true, if_true]

theorem age_eq (found : s.launch? lrec = some l) (pending : l.state = .pending) (goes : s.halted l.ctx = false)
    (late : 600000 ≤ (s.runClock l.ctx - l.pendFrom).toNat) : s.age lrec = s.editLaunch lrec s.countPending := by
  simp only [age, found, gameMs, late.not_gt, pending, goes, decide_false, bne_self_eq_false, Bool.or_false, Bool.false_eq_true, if_false]

theorem finishLaunch_wordless (found : s.launch? lrec = some l) (complete : l.complete = true) (goes : s.halted l.ctx = false)
    (wordless : l.cword = 0) : s.finishLaunch lrec = s.releaseRecord lrec l := by
  simp [finishLaunch, found, complete, goes, wordless]

theorem finishLaunch_word (found : s.launch? lrec = some l) (complete : l.complete = true) (goes : s.halted l.ctx = false)
    (word : l.cword ≠ 0) (wrote : s.agentWord lrec l.ctx l.cword l.wordValue = (.ok (), r)) :
    s.finishLaunch lrec = (r.bootWordDone l).releaseRecord lrec l := by
  have word : (l.cword == 0) = false := by simpa using word
  simp only [finishLaunch, found, complete, goes, word, wrote, Bool.not_true, Bool.or_false, Bool.false_eq_true, if_false]

/-! ### Stealing (02 R56) -/

/-- The first probe of a search goes to the first victim of the spiral, and steps no random victim. -/
theorem stealFrom_first {v : Nat} {vs : List Nat} {p : Option Cont × State} (found : s.launch? lrec = some l)
    (seeks : s.seeks core lrec l = true) (noItem : ∀ e ∈ s.launches, s.mayDispatch e.1 e.2 = true → e.2.itemCore e.2.next ≠ core)
    (due : (s.core core).probeAt.toNat ≤ s.gclk.toNat) (anew : Sparse.get (s.core core).ring lrec = none)
    (victims : spiral core l.rect = v :: vs) (took : (s.editCore core id).takeOldest v lrec = p) :
    s.stealFrom core lrec = p.1.elim
      (p.2.editCore core fun k => { k with ring := Sparse.put k.ring lrec 1, probeAt := p.2.gclk + 64 })
      fun c => p.2.editCore core fun k => { k with ring := Sparse.erase k.ring lrec, arrivals := k.arrivals ++ [.cont c] } := by
  have noDispatch : s.dispatchesAt core = false := by simpa [dispatchesAt] using noItem
  have kept : (s.editCore core fun k => { k with lfsr := (s.core core).lfsr }) = s.editCore core id := rfl
  simp only [stealFrom, found, seeks, noDispatch, due.not_gt, anew, victims, decide_false, Bool.not_true, Bool.or_false, Bool.false_eq_true,
    if_false, Option.getD_none, List.getElem?_cons_zero, kept, took, List.length_cons, Nat.zero_lt_succ, if_true, Nat.zero_add]
  obtain ⟨c, q⟩ := p
  cases c <;> rfl

/-! ### Tempo (12 R280, R284, R285) -/

theorem deliverTempo_eq {item d j : Nat} {v : Delivery} (found : s.launch? lrec = some l)
    (flies : l.flight.find? (fun v => v.item == item + d && v.d == d && v.j == j) = some v)
    (placed : s.itemStrand lrec (item + d) = some u) (there : s.strand? u = some st) :
    s.deliverTempo lrec item d j = (s.editLaunch lrec fun l => { l with flight := l.flight.erase v }).setStrand u
      { st with fwd := if (Sparse.get st.fwd (fwdKey d j)).isSome then st.fwd else Sparse.put st.fwd (fwdKey d j) v.value } := by
  have placed' : (s.editLaunch lrec fun l => { l with flight := l.flight.erase v }).itemStrand lrec (item + d) = some u := by
    simpa only [itemStrand, editLaunch_strands] using placed
  simp only [deliverTempo, found, Option.bind_some, flies, placed']
  rw [editStrand_eq (editLaunch_strand.trans there)]
  split <;> rfl

theorem recordedBreak_recorded {b : Nat} :
    (s.editCore core fun k => { k with brk := Sparse.put k.brk lrec b }).recordedBreak core lrec = b := by
  simp [recordedBreak]

section
variable (found : s.launch? lrec = some l) (covers : l.rect.hasCore core = true) (fresh : s.recordedBreak core lrec ≠ l.brk)
  (runs : s.isStopped l.ctx = false)
include found covers fresh runs

theorem recordBreak_none (below : ∀ e ∈ s.strandsOf core, e.2.lrec = lrec → e.2.item ≤ l.brk) :
    s.recordBreak core lrec = s.editCore core fun k => { k with brk := Sparse.put k.brk lrec l.brk } := by
  have fresh : (s.recordedBreak core lrec == l.brk) = false := by simpa using fresh
  simp only [recordBreak, found, covers, fresh, runs, Bool.not_true, Bool.or_false, Bool.false_eq_true, if_false]
  refine (List.foldl_ext _ (fun t _ => t) _ fun t e mem => if_neg ?_).trans (List.foldl_fixed _)
  have stays := below e mem
  simp only [Bool.and_eq_true, beq_iff_eq, decide_eq_true_eq]
  exact fun ⟨⟨mine, above⟩, _⟩ => absurd (stays mine) above.not_ge

theorem recordBreak_one {d j : Nat} (alone : s.strandsOf core = [(u, st)]) (mine : st.lrec = lrec) (above : l.brk < st.item)
    (parked : st.state = .parked) (reads : st.await = .forward d j) : s.recordBreak core lrec =
      (s.editCore core fun k => { k with brk := Sparse.put k.brk lrec l.brk }).endStrand u 13 := by
  have fresh : (s.recordedBreak core lrec == l.brk) = false := by simpa using fresh
  have there : (s.editCore core fun k => { k with brk := Sparse.put k.brk lrec l.brk }).strandsOf core = [(u, st)] := alone
  simp only [recordBreak, found, covers, fresh, runs, Bool.not_true, Bool.or_false, Bool.false_eq_true, if_false]
  simp [there, mine, above, parked, reads]

end

/-! ### Match entries (13 R296) -/

theorem fireMatch_pushed {key pa : Nat} {m : Match} (armed : Sparse.get s.matches_ key = some m) (whole : m.len ≤ m.got)
    (placed : s.unitPlace (s.agentCore m.ctx) m.ctx (some (matchUnit key)) m.cont 64 false = (.ok pa, r))
    (pushed : r.pushCont m.core m.ctx m.sid { cont := contOf (r.wordsAt pa 8), tag := none, byItem := false } (some (matchUnit key)) =
      (.done, q)) :
    s.fireMatch key = { q with matches_ := Sparse.erase q.matches_ key } := by
  simp [fireMatch, armed, whole.not_gt, placed, pushed]

end State

/-- Settles O41: each event is the function of the arbiter, of stealing, of tempo or of the match table that its name says, whose cases the
lemmas above give. -/
theorem launchEvents : Obligations.LaunchEvents := by
  refine ⟨?_, ?_, ?_, ?_, ?_⟩
  · -- admission, ageing and completion (02 R46 to R50)
    intro s lrec l found
    refine ⟨fun may => ⟨State.mayAdmit_conditions may, _, congrArg Host.Outcome.next (State.admitLaunch_eq found may),
      State.editLaunch_launch found _, fun k ne => State.editLaunch_other ne _, State.editLaunch_mem .., State.editLaunch_strands ..⟩,
      fun may => congrArg Host.Outcome.next (State.admitLaunch_idle found may), fun pending goes => ?_, fun complete goes => ?_⟩
    · refine ⟨by rw [State.effClass, State.pendingTime_eq goes, gameMs], fun early => congrArg Host.Outcome.next (State.age_early found early),
        fun late => ⟨_, congrArg Host.Outcome.next (State.age_eq found pending goes late), ?_, State.editLaunch_mem ..,
          State.editLaunch_strands ..⟩⟩
      rw [State.editLaunch_launch found, State.countPending, State.pendingTime_eq goes, pending]
      rfl
    · exact ⟨fun wordless => congrArg Host.Outcome.next (State.finishLaunch_wordless found complete goes wordless),
        fun r word wrote => congrArg Host.Outcome.next (State.finishLaunch_word found complete goes word wrote),
        fun r => State.releaseRecord_free⟩
  · -- the first probe of a search (02 R56)
    intro s q core lrec v l vs c found seeks noItem due anew victims
    exact ⟨fun took => congrArg Host.Outcome.next (State.stealFrom_first found seeks noItem due anew victims took),
      fun took => congrArg Host.Outcome.next (State.stealFrom_first found seeks noItem due anew victims took)⟩
  · -- a forwarded value (12 R280)
    intro s lrec item d j u st l v found flies placed there
    exact ⟨_, congrArg Host.Outcome.next (State.deliverTempo_eq found flies placed there), State.editLaunch_launch found _,
      State.strand_set .., State.editLaunch_mem .., fun w ne => (State.strand_set_other _ _ ne.symm).trans State.editLaunch_strand⟩
  · -- the break index (12 R284, R285)
    intro s core lrec l found covers fresh runs
    exact ⟨State.recordedBreak_recorded, fun below => congrArg Host.Outcome.next (State.recordBreak_none found covers fresh runs below),
      fun u st d j alone mine above parked reads =>
        congrArg Host.Outcome.next (State.recordBreak_one found covers fresh runs alone mine above parked reads)⟩
  · -- a complete match entry (13 R296)
    intro s r q board entry pa m armed whole placed pushed
    exact congrArg Host.Outcome.next (State.fireMatch_pushed armed whole placed pushed)

end Sys2Proof.Machine
end

section
/-!
THE NUMBER FORMATS: what a pattern stands for (03 R67, R69, for O8).

A pattern without its sign bit numbers the magnitudes of its format in ascending order, also beyond the largest finite one: `fpMag m b` is
the magnitude of the number `b` in units of the smallest subnormal. The model's `fpUnpack` reads a pattern as a sign and that magnitude, an
infinity or a NaN, by the place of the magnitude beside the largest finite one.
-/

namespace Sys2Proof.Machine

variable {code m : Nat}

/-! ### The six formats -/

/-- What the proofs use of a floating-point format. -/
structure FpShape (code : Nat) : Prop where
  frac : 2 ≤ (ffmt code).m
  thin : (ffmt code).m ≤ 52
  wide : (ffmt code).m + 2 ≤ (ffmt code).w
  bias : 1 ≤ (ffmt code).bias
  fits : fpLargest code + 1 < 2 ^ ((ffmt code).w - 1)
  normal : 2 ^ ((ffmt code).m + 1) ≤ fpLargest code
  parity : fpLargest code % 2 = if code = 5 then 0 else 1
  nan : fpLargest code < fpNan code false ∧ fpNan code false < 2 ^ ((ffmt code).w - 1)

theorem fpShape_of_code (least : 1 ≤ code) (most : code ≤ 6) : FpShape code := by
  interval_cases code <;> exact ⟨by decide, by decide, by decide, by decide, by decide, by decide, by decide, by decide⟩

/-- The exponent of a format's smallest subnormal. -/
def fpBase (code : Nat) : Int := 1 - (ffmt code).bias - (ffmt code).m

theorem fpLargest_succ (shape : FpShape code) (h : code ≠ 5) : fpLargest code + 1 = (ffmt code).emax * 2 ^ (ffmt code).m := by
  have := shape.normal
  have := Nat.two_pow_pos ((ffmt code).m + 1)
  simp only [fpLargest, h, if_false] at *
  omega

/-! ### Magnitudes -/

/-- The magnitude of number `b` of a format with `m` fraction bits, in units of the smallest subnormal. -/
def fpMag (m b : Nat) : Nat := if b / 2 ^ m = 0 then b % 2 ^ m else (2 ^ m + b % 2 ^ m) * 2 ^ (b / 2 ^ m - 1)

theorem fpMag_binade {q n : Nat} (below : n ≤ 2 ^ (m + 1)) (normal : q = 0 ∨ 2 ^ m ≤ n) : fpMag m (q * 2 ^ m + n) = n * 2 ^ q := by
  have pos := Nat.two_pow_pos m
  rw [pow_succ] at below
  have fields {e r : Nat} (hr : r < 2 ^ m) : (e * 2 ^ m + r) / 2 ^ m = e ∧ (e * 2 ^ m + r) % 2 ^ m = r := by
    rw [mul_comm, Nat.mul_add_div pos, Nat.div_eq_of_lt hr, Nat.mul_add_mod, Nat.mod_eq_of_lt hr]
    exact ⟨rfl, rfl⟩
  rcases lt_or_ge n (2 ^ m) with small | big
  · obtain rfl : q = 0 := normal.resolve_right small.not_ge
    simp [fpMag, Nat.div_eq_of_lt small, Nat.mod_eq_of_lt small]
  · obtain ⟨r, rfl⟩ := Nat.exists_eq_add_of_le big
    rcases lt_or_ge r (2 ^ m) with inside | top
    · have split : q * 2 ^ m + (2 ^ m + r) = (q + 1) * 2 ^ m + r := by ring
      obtain ⟨hd, hm⟩ := fields (e := q + 1) inside
      rw [fpMag, split, hd, hm, if_neg (Nat.succ_ne_zero q), Nat.add_sub_cancel]
    · obtain rfl : r = 2 ^ m := by omega
      have split : q * 2 ^ m + (2 ^ m + 2 ^ m) = (q + 2) * 2 ^ m + 0 := by ring
      obtain ⟨hd, hm⟩ := fields (e := q + 2) pos
      rw [fpMag, split, hd, hm, if_neg (Nat.succ_ne_zero _)]
      simp only [Nat.add_succ_sub_one]
      ring

/-- Every number lies in a binade, by its exponent and its whole significand. -/
theorem exists_binade (m b : Nat) :
    ∃ q n, b = q * 2 ^ m + n ∧ n < 2 ^ (m + 1) ∧ (q = 0 ∨ 2 ^ m ≤ n) ∧ q = b / 2 ^ m - 1 := by
  have split := Nat.div_add_mod' b (2 ^ m)
  have below := Nat.mod_lt b (Nat.two_pow_pos m)
  rw [pow_succ]
  cases he : b / 2 ^ m with
  | zero => exact ⟨0, b, by omega, by rw [he] at split; omega, .inl rfl, rfl⟩
  | succ e =>
    rw [he, Nat.succ_mul] at split
    exact ⟨e, 2 ^ m + b % 2 ^ m, by omega, by omega, .inr (by omega), rfl⟩

theorem fpMag_succ (m b : Nat) : fpMag m (b + 1) = fpMag m b + 2 ^ (b / 2 ^ m - 1) := by
  obtain ⟨q, n, hb, below, normal, hq⟩ := exists_binade m b
  have next : b + 1 = q * 2 ^ m + (n + 1) := by omega
  rw [← hq, next, fpMag_binade below (normal.imp_right fun h => by omega), hb, fpMag_binade below.le normal]
  exact Nat.succ_mul n _

theorem fpMag_strictMono (m : Nat) : StrictMono (fpMag m) :=
  strictMono_nat_of_lt_succ fun b => by
    rw [fpMag_succ]
    exact Nat.lt_add_of_pos_right (Nat.two_pow_pos _)

theorem fpMag_normal (m : Nat) : fpMag m (2 ^ m) = 2 ^ m := by
  simpa using fpMag_binade (m := m) (q := 0) (n := 2 ^ m) (Nat.pow_le_pow_right two_pos (Nat.le_succ m)) (.inl rfl)

/-! ### Signs -/

/-- The sign of a value, as a factor. -/
def fpSgn (neg : Bool) : Int := if neg then -1 else 1

@[simp] theorem fpSgn_true : fpSgn true = -1 := rfl

@[simp] theorem fpSgn_false : fpSgn false = 1 := rfl

theorem fpSgn_not (s : Bool) : fpSgn (!s) = -fpSgn s := by cases s <;> rfl

theorem fpSgn_xor (p q : Bool) : fpSgn (p ^^ q) = fpSgn p * fpSgn q := by cases p <;> cases q <;> rfl

theorem natAbs_fpSgn_mul (neg : Bool) (x : Int) : (fpSgn neg * x).natAbs = x.natAbs := by cases neg <;> simp

theorem fpSign_eq (code : Nat) (neg : Bool) : fpSign code neg = neg.toNat * 2 ^ ((ffmt code).w - 1) := by
  cases neg <;> simp [fpSign]

theorem signBit_fpSign_add {neg : Bool} {b : Nat} (below : b < 2 ^ ((ffmt code).w - 1)) : signBit code (fpSign code neg + b) = neg := by
  cases neg <;> simp [signBit, fpSign, Nat.testBit_two_pow_add_eq, Nat.testBit_lt_two_pow below]

theorem fpSign_add_mod {neg : Bool} {b : Nat} (below : b < 2 ^ ((ffmt code).w - 1)) :
    (fpSign code neg + b) % 2 ^ ((ffmt code).w - 1) = b := by
  cases neg <;> simp [fpSign, Nat.mod_eq_of_lt below]

theorem fpSign_add_lt (shape : FpShape code) {neg : Bool} {b : Nat} (below : b < 2 ^ ((ffmt code).w - 1)) :
    fpSign code neg + b < 2 ^ (ffmt code).w := by
  obtain ⟨k, hk⟩ : ∃ k, (ffmt code).w = k + 1 := ⟨(ffmt code).w - 1, by have := shape.wide; omega⟩
  rw [hk, Nat.add_sub_cancel] at below
  rw [fpSign_eq, hk, pow_succ, Nat.add_sub_cancel]
  cases neg <;> simp <;> omega

theorem fpSign_add_finite (shape : FpShape code) {neg : Bool} {b : Nat} (most : b ≤ fpLargest code) :
    FpFinite code (fpSign code neg + b) := by
  have below : b < 2 ^ ((ffmt code).w - 1) := by have := shape.fits; omega
  exact ⟨fpSign_add_lt shape below, by rwa [fpSign_add_mod below]⟩

/-- A pattern is its sign and its magnitude. -/
theorem fpSign_signBit_add (shape : FpShape code) {n : Nat} (below : n < 2 ^ (ffmt code).w) :
    fpSign code (signBit code n) + n % 2 ^ ((ffmt code).w - 1) = n := by
  obtain ⟨k, hk⟩ : ∃ k, (ffmt code).w = k + 1 := ⟨(ffmt code).w - 1, by have := shape.wide; omega⟩
  have split := Nat.div_add_mod' n (2 ^ k)
  have two : n / 2 ^ k < 2 := Nat.div_lt_of_lt_mul (by rwa [← pow_succ, ← hk])
  rw [fpSign_eq, signBit, hk, Nat.add_sub_cancel, Nat.testBit_eq_decide_div_mod_eq, Nat.mod_eq_of_lt two]
  interval_cases h : n / 2 ^ k <;> simp <;> omega

theorem fpUnits_eq (shape : FpShape code) (n : Nat) :
    fpUnits code n = fpSgn (signBit code n) * (fpMag (ffmt code).m (n % 2 ^ ((ffmt code).w - 1)) : Int) := by
  have widths : (ffmt code).w - 1 = (ffmt code).m + ((ffmt code).w - 1 - (ffmt code).m) := by have := shape.wide; omega
  have field : n / 2 ^ (ffmt code).m % 2 ^ ((ffmt code).w - 1 - (ffmt code).m) = n % 2 ^ ((ffmt code).w - 1) / 2 ^ (ffmt code).m := by
    rw [← Nat.mod_mul_right_div_self, ← pow_add, ← widths]
  have frac : n % 2 ^ (ffmt code).m = n % 2 ^ ((ffmt code).w - 1) % 2 ^ (ffmt code).m :=
    (Nat.mod_mod_of_dvd n (pow_dvd_pow 2 (by omega))).symm
  have units : fpUnits code n = if signBit code n then -(fpMag (ffmt code).m (n % 2 ^ ((ffmt code).w - 1)) : Int)
      else fpMag (ffmt code).m (n % 2 ^ ((ffmt code).w - 1)) := by
    simp only [fpUnits, fpMag, field, frac]
    rfl
  rw [units]
  cases signBit code n <;> simp

theorem fpUnits_fpSign_add (shape : FpShape code) {neg : Bool} {b : Nat} (below : b < 2 ^ ((ffmt code).w - 1)) :
    fpUnits code (fpSign code neg + b) = fpSgn neg * (fpMag (ffmt code).m b : Int) := by
  rw [fpUnits_eq shape, signBit_fpSign_add below, fpSign_add_mod below]

/-! ### What an operand stands for -/

/-- An infinity by its magnitude (03 R69). -/
def fpIsInf (code n : Nat) : Bool := decide (code ≠ 5 ∧ n % 2 ^ ((ffmt code).w - 1) = fpLargest code + 1)

/-- A NaN by its magnitude (03 R67, R69). -/
def fpIsNan (code n : Nat) : Bool := decide (fpLargest code + (if code = 5 then 0 else 1) < n % 2 ^ ((ffmt code).w - 1))

/-- A signalling NaN (03 R67): E4M3 has none. -/
def fpSignals (code n : Nat) : Bool := fpIsNan code n && decide (code ≠ 5) && !n.testBit ((ffmt code).m - 1)

/-- The exponent field and the fraction of a pattern are those of its magnitude. -/
theorem fpFields (shape : FpShape code) (n : Nat) :
    bitsOf n ((ffmt code).w - 2) (ffmt code).m = n % 2 ^ ((ffmt code).w - 1) / 2 ^ (ffmt code).m ∧
    n % 2 ^ (ffmt code).m = n % 2 ^ ((ffmt code).w - 1) % 2 ^ (ffmt code).m := by
  have widths : (ffmt code).w - 1 = (ffmt code).m + (((ffmt code).w - 2 - (ffmt code).m) + 1) := by have := shape.wide; omega
  refine ⟨?_, (Nat.mod_mod_of_dvd n (pow_dvd_pow 2 (by omega))).symm⟩
  rw [bitsOf, Nat.shiftRight_eq_div_pow, ← Nat.mod_mul_right_div_self, ← pow_add, ← widths]

/-- A finite pattern: its sign, with a significand and an exponent that give its magnitude; a flushed one is zero (03 R67, R78). -/
theorem fpUnpack_finite (shape : FpShape code) (ftz : Bool) {n : Nat} (most : n % 2 ^ ((ffmt code).w - 1) ≤ fpLargest code) :
    fpUnpack code ftz n =
      if n % 2 ^ ((ffmt code).w - 1) / 2 ^ (ffmt code).m = 0 then
        (if ftz && code != 1 then .num (signBit code n) 0 0
          else .num (signBit code n) (n % 2 ^ ((ffmt code).w - 1) % 2 ^ (ffmt code).m) (fpBase code))
      else .num (signBit code n) (2 ^ (ffmt code).m + n % 2 ^ ((ffmt code).w - 1) % 2 ^ (ffmt code).m)
        (fpBase code + (n % 2 ^ ((ffmt code).w - 1) / 2 ^ (ffmt code).m - 1 : Nat)) := by
  obtain ⟨field, frac⟩ := fpFields shape n
  simp only [fpUnpack, field, frac, signBit, fpBase]
  generalize n % 2 ^ ((ffmt code).w - 1) = g at most ⊢
  rcases eq_or_ne code 5 with rfl | other
  · have small : g < 127 := Nat.lt_succ_of_le most
    have no : ¬ (g / 2 ^ 3 = 15 ∧ g % 2 ^ 3 = 7) := by omega
    simp only [ffmt, no, if_true, if_false]
    split
    · simp
    · congr 1
      omega
  · have below : g / 2 ^ (ffmt code).m < (ffmt code).emax :=
      Nat.div_lt_of_lt_mul (by have := fpLargest_succ shape other; rw [mul_comm]; omega)
    generalize g / 2 ^ (ffmt code).m = e at below ⊢
    simp only [other, below.ne, if_false]
    split
    · rfl
    · congr 1
      omega

theorem fpUnpack_inf (shape : FpShape code) (ftz : Bool) {n : Nat} (inf : fpIsInf code n = true) :
    fpUnpack code ftz n = .inf (signBit code n) := by
  obtain ⟨field, frac⟩ := fpFields shape n
  obtain ⟨other, mag⟩ := of_decide_eq_true inf
  simp only [fpUnpack, field, frac, mag, fpLargest_succ shape other, other, if_false, Nat.mul_div_cancel _ (Nat.two_pow_pos _),
    Nat.mul_mod_left, if_true, signBit]

theorem fpUnpack_nan (shape : FpShape code) (ftz : Bool) {n : Nat} (nan : fpIsNan code n = true) :
    fpUnpack code ftz n = .nan (signBit code n) (decide (code = 5) || n.testBit ((ffmt code).m - 1)) := by
  obtain ⟨field, frac⟩ := fpFields shape n
  have quiet : (n % 2 ^ (ffmt code).m).testBit ((ffmt code).m - 1) = n.testBit ((ffmt code).m - 1) := by
    simp [Nat.testBit_mod_two_pow, show (ffmt code).m - 1 < (ffmt code).m by have := shape.frac; omega]
  have above := of_decide_eq_true nan
  have top := Nat.mod_lt n (Nat.two_pow_pos ((ffmt code).w - 1))
  rcases eq_or_ne code 5 with rfl | other
  · have seven : n % 2 ^ ((ffmt 5).w - 1) = 127 := by
      change 126 + 0 < n % 2 ^ 7 at above
      change n % 2 ^ 7 < 2 ^ 7 at top
      change n % 2 ^ 7 = 127
      omega
    simp only [fpUnpack, field, frac, seven, signBit]
    rfl
  · have split := Nat.div_add_mod' (n % 2 ^ ((ffmt code).w - 1)) (2 ^ (ffmt code).m)
    rw [if_neg other, fpLargest_succ shape other] at above
    have widths : 2 ^ ((ffmt code).w - 1) = ((ffmt code).emax + 1) * 2 ^ (ffmt code).m := by
      rw [FFmt.emax, Nat.sub_add_cancel Nat.one_le_two_pow, ← pow_add]
      congr 1
      have := shape.wide
      omega
    have full : n % 2 ^ ((ffmt code).w - 1) / 2 ^ (ffmt code).m = (ffmt code).emax :=
      Nat.le_antisymm (Nat.lt_succ_iff.mp (Nat.div_lt_of_lt_mul (by rwa [mul_comm, Nat.succ_eq_add_one, ← widths])))
        ((Nat.le_div_iff_mul_le (Nat.two_pow_pos _)).mpr above.le)
    have rest : n % 2 ^ (ffmt code).m ≠ 0 := by rw [full] at split; omega
    simp [fpUnpack, field, full, rest, other, quiet, signBit]

end Sys2Proof.Machine
end

section
/-!
ONE ROUNDING: the model's `roundAt` (03 R76, for O8).

What the model rounds is held as `m · 2^e`, with a mark for a remainder below its last bit; `Stands` says which rational number that is.
`roundAt` brings such a number to a multiple of a power of two: the one below it, or the next one where the mode moves up.
-/

namespace Sys2Proof.Machine

/-- Whether a mode takes the larger of two neighbours for the magnitude `v`: `lo` is the smaller one, `mid` lies in the middle (03 R76). -/
def Rm.MovesUp {α : Type} [LT α] (rm : Rm) (neg : Bool) (lo mid v : α) (odd : Prop) : Prop :=
  match rm with
  | .rne => mid < v ∨ v = mid ∧ odd
  | .rtz => False
  | .rdn => neg = true ∧ v ≠ lo
  | .rup => neg = false ∧ v ≠ lo

theorem Rm.movesUp_map {α β : Type} [LinearOrder α] [Preorder β] {g : α → β} (mono : StrictMono g) {rm : Rm} {neg : Bool}
    {lo mid v : α} {odd : Prop} : rm.MovesUp neg (g lo) (g mid) (g v) odd ↔ rm.MovesUp neg lo mid v odd := by
  cases rm <;> simp [MovesUp, mono.lt_iff_lt, mono.injective.eq_iff]

/-- A number that equals its lower neighbour stays there. -/
theorem Rm.not_movesUp_self {α : Type} [Preorder α] {rm : Rm} {neg : Bool} {v mid : α} {odd : Prop} (above : v < mid) :
    ¬ rm.MovesUp neg v mid v odd := by
  cases rm <;> simp [MovesUp, above.not_gt, above.ne]

/-- The number that a significand, an exponent and a remainder mark stand for: `sticky` tells that something lies below the last bit. -/
def Stands (m : Nat) (e : Int) (sticky : Bool) (v : ℚ) : Prop :=
  (m : ℚ) * 2 ^ e ≤ v ∧ v < (m + 1) * 2 ^ e ∧ (sticky = true ↔ v ≠ m * 2 ^ e)

theorem stands_exact (m : Nat) (e : Int) : Stands m e false (m * 2 ^ e) := by
  have := zpow_pos (two_pos (α := ℚ)) e
  refine ⟨le_rfl, by nlinarith, by simp⟩

theorem Stands.scale {m : Nat} {e : Int} {sticky : Bool} {v : ℚ} (h : Stands m e sticky v) (j : Int) :
    Stands m (e - j) sticky (v / 2 ^ j) := by
  obtain ⟨low, high, iff⟩ := h
  have pos := zpow_pos (two_pos (α := ℚ)) j
  have move (a : ℚ) : a * 2 ^ (e - j) = a * 2 ^ e / 2 ^ j := by rw [zpow_sub₀ two_ne_zero, mul_div_assoc]
  refine ⟨?_, ?_, ?_⟩
  · rw [move]
    exact div_le_div_of_nonneg_right low pos.le
  · rw [move]
    exact div_lt_div_of_pos_right high pos
  · rw [iff, move, ne_eq, ne_eq, div_left_inj' pos.ne']

/-- The model's test of a remainder, where the remainder is told apart from none and from a half. -/
theorem roundsUp_iff {rm : Rm} {neg odd sticky : Bool} {rem unit N : Nat} {t : ℚ}
    (above : (2 * rem > unit ∨ 2 * rem = unit ∧ sticky = true) ↔ (N : ℚ) + 1 / 2 < t)
    (tie : (2 * rem = unit ∧ sticky = false) ↔ t = (N : ℚ) + 1 / 2) (rest : (rem ≠ 0 ∨ sticky = true) ↔ t ≠ N) :
    roundsUp rm neg odd rem unit sticky = true ↔ rm.MovesUp neg (N : ℚ) (N + 1 / 2) t (odd = true) := by
  cases rm with
  | rne =>
    rw [Rm.MovesUp, ← above, ← tie]
    cases sticky <;> simp [roundsUp]
  | rtz => simp [roundsUp, Rm.MovesUp]
  | rdn => simp [roundsUp, Rm.MovesUp, ← rest]
  | rup => simp [roundsUp, Rm.MovesUp, ← rest]

/-- What a rounding to a whole number answers for `t`: the number below, one more where the mode moves up, and whether `t` is another. -/
def RoundsWhole (rm : Rm) (neg : Bool) (t : ℚ) (r : Nat × Bool) : Prop :=
  ∃ (N : Nat) (up : Bool), (N : ℚ) ≤ t ∧ t < N + 1 ∧ (up = true ↔ rm.MovesUp neg (N : ℚ) (N + 1 / 2) t (N % 2 = 1)) ∧
    r.1 = N + up.toNat ∧ (r.2 = true ↔ t ≠ N)

/-- A multiple of the last place stays as it is. -/
theorem roundAt_coarse {rm : Rm} {neg : Bool} {m : Nat} {e q : Int} {t : ℚ} (le : q ≤ e) (h : Stands m (e - q) false t) :
    RoundsWhole rm neg t (roundAt rm neg m e false q) := by
  obtain ⟨j, hj⟩ := Int.eq_ofNat_of_zero_le (sub_nonneg.mpr le)
  have ht : t = (m * 2 ^ j : Nat) := by
    have := h.2.2
    rw [hj, zpow_natCast] at this
    push_cast
    by_contra ne
    exact absurd (this.mpr ne) (by simp)
  refine ⟨m * 2 ^ j, false, ht.ge, by rw [ht]; exact lt_add_one _, ?_, ?_, ?_⟩
  · rw [ht]
    simpa using Rm.not_movesUp_self (by simp)
  · simp [roundAt, le, hj]
  · simp [roundAt, le, ht]

/-- Far below the last place every number is more than none and less than a half. -/
theorem roundAt_far {rm : Rm} {neg sticky : Bool} {m : Nat} {e q : Int} {t : ℚ} (lt : e < q) (far : Nat.log2 m + 2 < (q - e).toNat)
    (h : Stands m (e - q) sticky t) : RoundsWhole rm neg t (roundAt rm neg m e sticky q) := by
  obtain ⟨sh, hsh⟩ := Int.eq_ofNat_of_zero_le (sub_nonneg.mpr lt.le)
  have he : e - q = -(sh : Int) := by rw [← neg_sub, hsh]
  rw [hsh, Int.toNat_natCast] at far
  have top : m + 1 ≤ 2 ^ (sh - 2) :=
    (Nat.lt_log2_self (n := m)).trans_le (Nat.pow_le_pow_right two_pos (by omega))
  obtain ⟨low, high, iff⟩ := h
  rw [he, zpow_neg, zpow_natCast] at low high iff
  have split : (2 : ℚ) ^ sh = 4 * 2 ^ (sh - 2) := by
    rw [show (4 : ℚ) = 2 ^ 2 by norm_num, ← pow_add]
    congr 1
    omega
  have pos : (0 : ℚ) < 2 ^ sh := by positivity
  have quarter : t < 1 / 4 := high.trans_le (by
    rw [← div_eq_mul_inv, div_le_iff₀ pos, split]
    have : ((m + 1 : Nat) : ℚ) ≤ 2 ^ (sh - 2) := by exact_mod_cast top
    push_cast at this
    linarith)
  have nonneg : 0 ≤ t := le_trans (by positivity) low
  have rest : (m ≠ 0 ∨ sticky = true) ↔ t ≠ 0 := by
    rcases eq_or_ne m 0 with rfl | some
    · simpa using iff
    · have : 0 < t := lt_of_lt_of_le (by positivity) low
      simp [some, this.ne']
  refine ⟨0, roundsUp rm neg false (if m = 0 then 0 else 1) 4 sticky, by simpa using nonneg, by norm_num; linarith, ?_, ?_, ?_⟩
  · rw [roundsUp_iff (N := 0) (t := t)]
    · simp
    · have small : ¬ (0 + 1 / 2 : ℚ) < t := by linarith
      simp only [Nat.cast_zero, small, iff_false]
      split <;> omega
    · have small : t ≠ (0 + 1 / 2 : ℚ) := by linarith
      simp only [Nat.cast_zero, small, iff_false]
      split <;> omega
    · simpa using rest
  · simp only [roundAt, lt.not_ge, hsh, if_false, Int.toNat_natCast, if_pos far]
    cases roundsUp rm neg false (if m = 0 then 0 else 1) 4 sticky <;> rfl
  · simp only [roundAt, lt.not_ge, hsh, if_false, Int.toNat_natCast, if_pos far]
    simpa using rest

/-- A whole number and a fraction beside a whole number. -/
theorem natCast_lt_add_fraction {r h : Nat} {δ : ℚ} (nonneg : 0 ≤ δ) (small : δ < 1) :
    (h : ℚ) < r + δ ↔ h < r ∨ r = h ∧ δ ≠ 0 := by
  rcases lt_trichotomy r h with less | rfl | more
  · have : (r : ℚ) + 1 ≤ h := by exact_mod_cast less
    simp only [less.not_gt, less.ne, false_and, or_false, iff_false, not_lt]
    linarith
  · simpa using nonneg.lt_iff_ne.trans ne_comm
  · have : (h : ℚ) + 1 ≤ r := by exact_mod_cast more
    simp only [more, true_or, iff_true]
    linarith

theorem add_fraction_eq_natCast {r h : Nat} {δ : ℚ} (nonneg : 0 ≤ δ) (small : δ < 1) : (r : ℚ) + δ = h ↔ r = h ∧ δ = 0 := by
  refine ⟨fun eq => ?_, by rintro ⟨rfl, rfl⟩; exact add_zero _⟩
  have less : r < h + 1 := by exact_mod_cast (by linarith : (r : ℚ) < h + 1)
  have more : h < r + 1 := by exact_mod_cast (by linarith : (h : ℚ) < r + 1)
  obtain rfl : r = h := by omega
  exact ⟨rfl, by linarith⟩

/-- Near the last place the shifted-out bits and the mark tell the remainder. -/
theorem roundAt_near {rm : Rm} {neg sticky : Bool} {m : Nat} {e q : Int} {t : ℚ} (lt : e < q)
    (near : ¬ Nat.log2 m + 2 < (q - e).toNat) (h : Stands m (e - q) sticky t) :
    RoundsWhole rm neg t (roundAt rm neg m e sticky q) := by
  obtain ⟨sh, hsh⟩ := Int.eq_ofNat_of_zero_le (sub_nonneg.mpr lt.le)
  have he : e - q = -(sh : Int) := by rw [← neg_sub, hsh]
  have shift : (q - e).toNat = sh := by rw [hsh]; rfl
  obtain ⟨half, hhalf⟩ : ∃ half, 2 ^ sh = 2 * half := ⟨2 ^ (sh - 1), by
    rw [← pow_succ']
    congr 1
    omega⟩
  have pos := Nat.two_pow_pos sh
  have split := Nat.div_add_mod m (2 ^ sh)
  have below := Nat.mod_lt m pos
  obtain ⟨low, high, iff⟩ := h
  rw [he, zpow_neg, zpow_natCast, ← div_eq_mul_inv] at low high iff
  have answer : roundAt rm neg m e sticky q = ((if roundsUp rm neg (m / 2 ^ sh % 2 == 1) (m % 2 ^ sh) (2 ^ sh) sticky then m / 2 ^ sh + 1
      else m / 2 ^ sh), m % 2 ^ sh != 0 || sticky) := by
    rw [shift] at near
    simp only [roundAt, lt.not_ge, near, if_false, shift]
  rw [answer]
  generalize m / 2 ^ sh = N at split
  generalize m % 2 ^ sh = rem at split below
  -- `t` is N, the shifted-out bits, and what the mark stands for
  have posq : (0 : ℚ) < 2 * half := by exact_mod_cast hhalf ▸ pos
  have scale : (2 : ℚ) ^ sh = 2 * half := by exact_mod_cast hhalf
  have whole : (m : ℚ) = 2 * half * N + rem := by rw [← split, hhalf]; push_cast; ring
  obtain ⟨δ, ht⟩ : ∃ δ : ℚ, t = N + (rem + δ) / (2 * half) := ⟨(t - N) * (2 * half) - rem, by
    rw [add_sub_cancel, mul_div_cancel_right₀ _ posq.ne', add_sub_cancel]⟩
  have hδ : t * (2 * half) = m + δ := by rw [ht, add_mul, div_mul_cancel₀ _ posq.ne', whole]; ring
  rw [scale, div_le_iff₀ posq, hδ, le_add_iff_nonneg_right] at low
  rw [scale, lt_div_iff₀ posq, hδ, add_lt_add_iff_left] at high
  rw [ne_eq, scale, eq_div_iff posq.ne', hδ, add_eq_left] at iff
  have most : (rem : ℚ) + 1 ≤ 2 * half := by exact_mod_cast hhalf ▸ below
  have none : (rem : ℚ) + δ = 0 ↔ rem = 0 ∧ δ = 0 := by exact_mod_cast add_fraction_eq_natCast (h := 0) low high
  have rest : (rem ≠ 0 ∨ sticky = true) ↔ t ≠ N := by
    rw [ht, ne_eq, ne_eq, add_eq_left, div_eq_zero_iff, or_iff_left posq.ne', none, iff, not_and_or]
  refine ⟨N, roundsUp rm neg (N % 2 == 1) rem (2 ^ sh) sticky, ?_, ?_, ?_, ?_, by simpa using rest⟩
  · rw [ht, le_add_iff_nonneg_right]
    exact div_nonneg (add_nonneg (Nat.cast_nonneg _) low) posq.le
  · rw [ht, add_lt_add_iff_left, div_lt_one posq]
    linarith
  · rw [roundsUp_iff (N := N) (t := t) _ _ rest, beq_iff_eq]
    · rw [ht, add_lt_add_iff_left, lt_div_iff₀ posq, one_div, inv_mul_cancel_left₀ two_ne_zero,
        natCast_lt_add_fraction low high, iff, hhalf]
      constructor <;> rintro (h | ⟨h, h'⟩)
      · exact .inl (by omega)
      · exact .inr ⟨by omega, h'⟩
      · exact .inl (by omega)
      · exact .inr ⟨by omega, h'⟩
    · rw [ht, add_right_inj, div_eq_iff posq.ne', one_div, inv_mul_cancel_left₀ two_ne_zero, add_fraction_eq_natCast low high,
        ← Bool.not_eq_true, iff, not_not, hhalf]
      exact and_congr_left fun _ => by omega
  · cases roundsUp rm neg (N % 2 == 1) rem (2 ^ sh) sticky <;> rfl

/-- Every rounding of the model is one to a whole number of units of its last place. -/
theorem roundAt_spec {rm : Rm} {neg sticky : Bool} {m : Nat} {e q : Int} {t : ℚ} (h : Stands m (e - q) sticky t)
    (fine : sticky = true → e < q) : RoundsWhole rm neg t (roundAt rm neg m e sticky q) := by
  rcases le_or_gt q e with coarse | lt
  · obtain rfl : sticky = false := Bool.eq_false_iff.mpr fun mark => coarse.not_gt (fine mark)
    exact roundAt_coarse coarse h
  · by_cases far : Nat.log2 m + 2 < (q - e).toNat
    · exact roundAt_far lt far h
    · exact roundAt_near lt far h

end Sys2Proof.Machine
end

section
/-!
THE ROUNDING TO A FORMAT: the model's `fpRound` (03 R76 to R79, for O8).

The last place of a result is a whole power of two in units of the smallest subnormal, and the significand on it, with the exponent in front,
is the number of the magnitude in ascending order: `fpRound` takes the magnitude below the exact value, or the next one where the mode moves
up. What it delivers then depends on that number alone, and on whether it is exact and tiny (`fpDeliver`).
-/

namespace Sys2Proof.Machine

variable {code m : Nat} {env : FpEnv} {rm : Rm} {neg sticky : Bool} {v : ℚ}

/-! ### The place among the magnitudes -/

/-- The magnitude `b` is what the mode takes for `v`: the one below it, or the next one where the mode moves up. -/
def RoundsMag (m : Nat) (rm : Rm) (neg : Bool) (v : ℚ) (b : Nat) : Prop :=
  ∃ (lo : Nat) (up : Bool), (fpMag m lo : ℚ) ≤ v ∧ v < fpMag m (lo + 1) ∧
    (up = true ↔ rm.MovesUp neg (fpMag m lo : ℚ) ((fpMag m lo + fpMag m (lo + 1)) / 2) v (lo % 2 = 1)) ∧ b = lo + up.toNat

/-- A whole number of units of a last place is a magnitude, with the number of its binade in front. -/
theorem RoundsWhole.magnitude {j : Nat} {r : Nat × Bool} (frac : 1 ≤ m) (below : v < 2 ^ (m + 1) * 2 ^ j)
    (normal : j = 0 ∨ (2 : ℚ) ^ m * 2 ^ j ≤ v) (whole : RoundsWhole rm neg (v / 2 ^ j) r) :
    RoundsMag m rm neg v (j * 2 ^ m + r.1) ∧ (r.2 = true ↔ v ≠ fpMag m (j * 2 ^ m + r.1)) := by
  obtain ⟨N, up, low, high, moves, hr, inexact⟩ := whole
  have pos : (0 : ℚ) < 2 ^ j := by positivity
  rw [le_div_iff₀ pos] at low
  rw [div_lt_iff₀ pos] at high
  have fits : N < 2 ^ (m + 1) := by
    have : (N : ℚ) * 2 ^ j < 2 ^ (m + 1) * 2 ^ j := low.trans_lt below
    exact_mod_cast lt_of_mul_lt_mul_right this pos.le
  have whole : j = 0 ∨ 2 ^ m ≤ N := normal.imp_right fun h => by
    have : (2 : ℚ) ^ m * 2 ^ j < (N + 1) * 2 ^ j := h.trans_lt high
    exact Nat.lt_succ_iff.mp (by exact_mod_cast lt_of_mul_lt_mul_right this pos.le)
  have lo : (fpMag m (j * 2 ^ m + N) : ℚ) = N * 2 ^ j := by rw [fpMag_binade fits.le whole]; push_cast; rfl
  have hi : (fpMag m (j * 2 ^ m + N + 1) : ℚ) = (N + 1) * 2 ^ j := by
    rw [add_assoc, fpMag_binade fits (whole.imp_right (·.trans (Nat.le_succ N)))]
    push_cast
    rfl
  have odd : (j * 2 ^ m + N) % 2 = 1 ↔ N % 2 = 1 := by
    obtain ⟨k, rfl⟩ : ∃ k, m = k + 1 := ⟨m - 1, by omega⟩
    rw [pow_succ, ← mul_assoc, Nat.mul_add_mod_self_right]
  have scaled : StrictMono fun x : ℚ => x * 2 ^ j := fun a b h => mul_lt_mul_of_pos_right h pos
  have moves' : up = true ↔ rm.MovesUp neg (fpMag m (j * 2 ^ m + N) : ℚ)
      ((fpMag m (j * 2 ^ m + N) + fpMag m (j * 2 ^ m + N + 1)) / 2) v ((j * 2 ^ m + N) % 2 = 1) := by
    rw [moves, ← Rm.movesUp_map scaled, odd]
    simp only [div_mul_cancel₀ _ pos.ne', lo, hi]
    rw [show ((N : ℚ) + 1 / 2) * 2 ^ j = (N * 2 ^ j + (N + 1) * 2 ^ j) / 2 by ring]
  refine ⟨⟨j * 2 ^ m + N, up, by rwa [lo], by rwa [hi], moves', by rw [hr, add_assoc]⟩, ?_⟩
  rw [inexact, hr, ne_eq, div_eq_iff pos.ne', ← lo]
  cases up with
  | false => rfl
  | true =>
    have above : v < fpMag m (j * 2 ^ m + (N + 1)) := by rw [← add_assoc, hi]; exact high
    have moved : v ≠ fpMag m (j * 2 ^ m + N) := fun eq => by
      refine absurd (moves'.mp rfl) ?_
      rw [eq]
      exact Rm.not_movesUp_self (by rw [lo, hi]; linarith)
    exact iff_of_true moved above.ne

/-! ### What is delivered -/

/-- What a rounding delivers for the magnitude `b`: an overflow by R77, a flushed zero by R78, or the magnitude with its flags. -/
def fpDeliver (code : Nat) (env : FpEnv) (neg : Bool) (b : Nat) (inexact tiny : Bool) : Nat × Flags :=
  if fpLargest code < b then (overflowBits code env neg, Flags.of ||| Flags.nx)
  else if env.ftz && code != 1 && b != 0 && b < 2 ^ (ffmt code).m then (fpSign code neg, Flags.uf ||| Flags.nx)
  else (fpSign code neg + b, (if inexact then Flags.nx else 0) ||| (if tiny && inexact then Flags.uf else 0))

/-- The exponent of the last place that a magnitude of the leading exponent `lead` is rounded at. -/
def fpLastPlace (code : Nat) (lead : Int) : Int :=
  (if lead < 1 - ((ffmt code).bias : Int) then 1 - ((ffmt code).bias : Int) else lead) - (ffmt code).m

/-- The test for a tiny value: below the smallest normal, also when rounded with the exponent unbounded (03 R79). -/
def fpTiny (code : Nat) (rm : Rm) (neg : Bool) (m : Nat) (e : Int) (sticky : Bool) : Bool :=
  let lead := e + Nat.log2 m
  let emin : Int := 1 - ((ffmt code).bias : Int)
  lead < emin && (lead < emin - 1 || (roundAt rm neg m e sticky (lead - (ffmt code).m)).1 < 2 ^ ((ffmt code).m + 1))

theorem fpRound_zero (code : Nat) (env : FpEnv) (neg : Bool) (e : Int) : fpRound code env neg 0 e false = (fpSign code neg, 0) := rfl

theorem fpRound_deliver {n : Nat} (marked : n = 0 → sticky = true) (e : Int) : fpRound code env neg n e sticky =
    fpDeliver code env neg
      (((fpLastPlace code (e + Nat.log2 n) + (ffmt code).m + (ffmt code).bias - 1) * 2 ^ (ffmt code).m).toNat +
        (roundAt env.rm neg n e sticky (fpLastPlace code (e + Nat.log2 n))).1)
      (roundAt env.rm neg n e sticky (fpLastPlace code (e + Nat.log2 n))).2 (fpTiny code env.rm neg n e sticky) := by
  rw [fpRound, if_neg fun zero => by simp [marked zero.1] at zero]
  rfl

/-- A number lies in the binade of its leading bit. -/
theorem Stands.lead {n : Nat} {e : Int} (h : Stands n e sticky v) (nonzero : n ≠ 0) :
    (2 : ℚ) ^ (e + Nat.log2 n) ≤ v ∧ v < 2 ^ (e + Nat.log2 n + 1) := by
  obtain ⟨low, high, -⟩ := h
  have pos := zpow_pos (two_pos (α := ℚ)) e
  constructor
  · refine le_trans ?_ low
    rw [add_comm, zpow_add₀ two_ne_zero, zpow_natCast]
    exact mul_le_mul_of_nonneg_right (by exact_mod_cast Nat.log2_self_le nonzero) pos.le
  · refine high.trans_le ?_
    rw [add_assoc, add_comm e, zpow_add₀ two_ne_zero, ← Nat.cast_succ (Nat.log2 n), zpow_natCast]
    have top : n + 1 ≤ 2 ^ (Nat.log2 n + 1) := Nat.lt_log2_self
    exact mul_le_mul_of_nonneg_right (by exact_mod_cast top) pos.le

section

variable {n : Nat} {e : Int} (h : Stands n (e - fpBase code) sticky v) (nonzero : n ≠ 0)
  (fine : sticky = true → 2 ^ ((ffmt code).m + 1) ≤ n)

include h nonzero

theorem fpTiny_normal (normal : (2 : ℚ) ^ (ffmt code).m ≤ v) : fpTiny code env.rm neg n e sticky = false := by
  have lead := normal.trans_lt (h.lead nonzero).2
  rw [← zpow_natCast, zpow_lt_zpow_iff_right₀ one_lt_two] at lead
  have : ¬ e + Nat.log2 n < 1 - ((ffmt code).bias : Int) := by unfold fpBase at lead; omega
  simp [fpTiny, this]

include fine

theorem fpTiny_tiny (tiny : 2 * v ≤ 2 ^ ((ffmt code).m + 1) - 1) : fpTiny code env.rm neg n e sticky = true := by
  have pos : (0 : ℚ) < 2 ^ (ffmt code).m := by positivity
  have lead := (h.lead nonzero).1.trans_lt (show v < 2 ^ (ffmt code).m by rw [pow_succ] at tiny; linarith)
  rw [← zpow_natCast, zpow_lt_zpow_iff_right₀ one_lt_two] at lead
  have low : e + Nat.log2 n < 1 - ((ffmt code).bias : Int) := by unfold fpBase at lead; omega
  by_cases far : e + Nat.log2 n < 1 - ((ffmt code).bias : Int) - 1
  · simp only [fpTiny, low, far, decide_true, Bool.true_or, Bool.and_true]
  -- the leading bit stands just below the smallest normal: the value is rounded in halves of a subnormal
  have place : e + Nat.log2 n - (ffmt code).m = fpBase code - 1 := by unfold fpBase; omega
  have doubled := h.scale (-1)
  rw [zpow_neg_one, div_inv_eq_mul, show e - fpBase code - -1 = e - (e + Nat.log2 n - (ffmt code).m) by omega] at doubled
  obtain ⟨N, up, le, lt, moves, eq, -⟩ := roundAt_spec (rm := env.rm) (neg := neg) doubled fun mark => by
    have := (Nat.le_log2 nonzero).mpr (fine mark)
    omega
  have below : N + up.toNat < 2 ^ ((ffmt code).m + 1) := by
    have most : (N : ℚ) + 1 ≤ 2 ^ ((ffmt code).m + 1) := by linarith
    have most : N + 1 ≤ 2 ^ ((ffmt code).m + 1) := by exact_mod_cast most
    cases up with
    | false => exact most
    | true =>
      refine Nat.lt_of_le_of_ne most fun top => ?_
      have top : (N : ℚ) + 1 = 2 ^ ((ffmt code).m + 1) := by exact_mod_cast top
      have isExact : v * 2 = N := by linarith
      rw [isExact] at moves
      exact Rm.not_movesUp_self (by linarith) (moves.mp rfl)
  simp [fpTiny, low, eq, below]

/-- THE ROUNDING delivers the magnitude that the mode takes for the exact value, with the marks of an inexact and of a tiny one. -/
theorem fpRound_spec (shape : FpShape code) : ∃ b inexact tiny,
    fpRound code env neg n e sticky = fpDeliver code env neg b inexact tiny ∧
    RoundsMag (ffmt code).m env.rm neg v b ∧ (inexact = true ↔ v ≠ fpMag (ffmt code).m b) ∧
    (2 ^ (ffmt code).m ≤ v → tiny = false) ∧ (2 * v ≤ 2 ^ ((ffmt code).m + 1) - 1 → tiny = true) := by
  obtain ⟨j, place, binade⟩ : ∃ j : Nat, fpLastPlace code (e + Nat.log2 n) = fpBase code + j ∧
      (j = 0 ∧ e - fpBase code + Nat.log2 n < (ffmt code).m ∨ e - fpBase code + Nat.log2 n = (ffmt code).m + j) := by
    unfold fpLastPlace fpBase
    split
    · exact ⟨0, by omega, .inl ⟨rfl, by omega⟩⟩
    · exact ⟨(e + Nat.log2 n - (1 - (ffmt code).bias)).toNat, by omega, .inr (by omega)⟩
  obtain ⟨low, high⟩ := h.lead nonzero
  have below : v < 2 ^ ((ffmt code).m + 1) * 2 ^ j := by
    rw [← pow_add, ← zpow_natCast]
    exact high.trans_le (zpow_le_zpow_right₀ one_le_two (by omega))
  have normal : j = 0 ∨ (2 : ℚ) ^ (ffmt code).m * 2 ^ j ≤ v := binade.imp And.left fun top => by
    rw [← pow_add, ← zpow_natCast, Nat.cast_add, ← top]
    exact low
  have scaled := h.scale j
  rw [zpow_natCast, sub_sub, ← place] at scaled
  have whole := roundAt_spec (rm := env.rm) (neg := neg) scaled fun mark => by
    have := (Nat.le_log2 nonzero).mpr (fine mark)
    omega
  obtain ⟨rounds, inexact⟩ := whole.magnitude (by have := shape.frac; omega) below normal
  refine ⟨_, _, _, ?_, rounds, inexact, fpTiny_normal (env := env) (neg := neg) h nonzero, fpTiny_tiny h nonzero fine⟩
  rw [fpRound_deliver (absurd · nonzero), place, show fpBase code + j + (ffmt code).m + (ffmt code).bias - 1 = j by unfold fpBase; omega]
  congr 2

end

end Sys2Proof.Machine
end

section
/-!
WHAT A ROUNDING DELIVERS meets `FpDelivers` (03 R76, R77, R79, for O8).
-/

namespace Sys2Proof.Machine

variable {code m unit : Nat} {env : FpEnv} {rm : Rm} {neg : Bool} {x : Int}

/-! ### The rounding over whole numbers -/

/-- The magnitudes of number `lo` and of the next one enclose `X`, of which `unit` is one unit, and `up` tells whether the mode takes the
next one. -/
structure RoundsOn (m : Nat) (rm : Rm) (neg : Bool) (unit X lo : Nat) (up : Bool) : Prop where
  low : fpMag m lo * unit ≤ X
  high : X < fpMag m (lo + 1) * unit
  moves : up = true ↔ rm.MovesUp neg (2 * (fpMag m lo * unit)) (fpMag m lo * unit + fpMag m (lo + 1) * unit) (2 * X) (lo % 2 = 1)

theorem RoundsMag.roundsOn {X b : Nat} (pos : 0 < unit) (h : RoundsMag m rm neg ((X : ℚ) / unit) b) :
    ∃ lo up, RoundsOn m rm neg unit X lo up ∧ b = lo + up.toNat := by
  obtain ⟨lo, up, low, high, moves, hb⟩ := h
  have posq : (0 : ℚ) < unit := by exact_mod_cast pos
  rw [le_div_iff₀ posq] at low
  rw [div_lt_iff₀ posq] at high
  refine ⟨lo, up, ⟨by exact_mod_cast low, by exact_mod_cast high, ?_⟩, hb⟩
  have scaled : StrictMono fun n : Nat => (n : ℚ) / (2 * unit) := fun a b h => by
    have : (a : ℚ) < b := by exact_mod_cast h
    exact div_lt_div_of_pos_right this (by positivity)
  rw [moves, ← Rm.movesUp_map scaled]
  push_cast
  have cancel (y : ℚ) : 2 * y / (2 * unit) = y / unit := mul_div_mul_left y _ two_ne_zero
  rw [cancel, cancel, mul_div_cancel_right₀ _ posq.ne', ← add_mul, mul_comm 2 (unit : ℚ), mul_comm _ (unit : ℚ),
    mul_div_mul_left _ _ posq.ne']

/-- A magnitude lies below the lower or above the upper one of two neighbours. -/
theorem fpMag_beside (m unit lo b : Nat) :
    fpMag m b * unit ≤ fpMag m lo * unit ∨ fpMag m (lo + 1) * unit ≤ fpMag m b * unit := by
  rcases Nat.lt_or_ge lo b with above | below
  · exact .inr (Nat.mul_le_mul_right _ ((fpMag_strictMono m).monotone above))
  · exact .inl (Nat.mul_le_mul_right _ ((fpMag_strictMono m).monotone below))

section

variable {X lo : Nat} {up : Bool} (on : RoundsOn m rm neg unit X lo up)

include on

theorem RoundsOn.le_lo {b : Nat} (le : fpMag m b * unit ≤ X) : b ≤ lo := by
  have := lt_of_mul_lt_mul_right (le.trans_lt on.high) (Nat.zero_le unit)
  exact Nat.lt_succ_iff.mp ((fpMag_strictMono m).lt_iff_lt.mp this)

theorem RoundsOn.lo_le (pos : 0 < unit) {b : Nat} (le : X ≤ fpMag m b * unit) : lo ≤ b :=
  (fpMag_strictMono m).le_iff_le.mp (le_of_mul_le_mul_right (on.low.trans le) pos)

theorem RoundsOn.lo_le_of_lt {b : Nat} (lt : X < fpMag m (b + 1) * unit) : lo ≤ b := by
  have := lt_of_mul_lt_mul_right (on.low.trans_lt lt) (Nat.zero_le unit)
  exact Nat.lt_succ_iff.mp ((fpMag_strictMono m).lt_iff_lt.mp this)

/-- An exact value is taken as it is. -/
theorem RoundsOn.stays_of_eq (pos : 0 < unit) (eq : X = fpMag m lo * unit) : up = false := by
  refine Bool.eq_false_iff.mpr fun moved => ?_
  have := on.moves.mp moved
  rw [eq] at this
  have above : fpMag m lo * unit < fpMag m (lo + 1) * unit :=
    Nat.mul_lt_mul_of_pos_right (fpMag_strictMono m (Nat.lt_succ_self lo)) pos
  exact Rm.not_movesUp_self (by omega) this

/-- A value that no larger magnitude than the largest finite one exceeds does not overflow. -/
theorem RoundsOn.le_of_le (pos : 0 < unit) {b : Nat} (le : X ≤ fpMag m b * unit) : lo + up.toNat ≤ b := by
  have lob := on.lo_le pos le
  rcases lob.lt_or_eq with less | rfl
  · exact (Nat.add_le_add_left (Bool.toNat_le up) lo).trans less
  · rw [on.stays_of_eq pos (le.antisymm on.low)]
    exact le_rfl

end

/-- The nearer of two neighbours `a` and `b` of `X` is as near as any value that is not between them; as near is another one for a tie
alone. -/
theorem natAbs_sub_le_of_nearer {a b X w : Nat} {up s : Bool} (low : a ≤ X) (high : X < b)
    (nearer : if up then a + b ≤ 2 * X else 2 * X ≤ a + b) (beside : w ≤ a ∨ b ≤ w) :
    let z : Int := fpSgn neg * (if up then b else a : Nat)
    let w : Int := fpSgn s * w
    let x : Int := fpSgn neg * X
    (z - x).natAbs ≤ (w - x).natAbs ∧ ((z - x).natAbs = (w - x).natAbs → w ≠ z → 2 * X = a + b) := by
  cases up
  · have nearer : 2 * X ≤ a + b := nearer
    cases neg <;> cases s <;> simp only [fpSgn_true, fpSgn_false, Bool.false_eq_true, if_false] <;> omega
  · have nearer : a + b ≤ 2 * X := nearer
    cases neg <;> cases s <;> simp only [fpSgn_true, fpSgn_false, if_true] <;> omega

/-- `z` is the rounding of `x` when it is compared with the value `w`, as `RoundsTo` has it; `even` tells whether the pattern of `z` is. -/
def Rm.Prefers (rm : Rm) (x z w : Int) (even : Prop) : Prop :=
  match rm with
  | .rne => (z - x).natAbs ≤ (w - x).natAbs ∧ ((z - x).natAbs = (w - x).natAbs → w ≠ z → even)
  | .rtz => z.natAbs ≤ x.natAbs ∧ (w.natAbs ≤ x.natAbs → 0 ≤ w * x → w.natAbs ≤ z.natAbs)
  | .rdn => z ≤ x ∧ (w ≤ x → w ≤ z)
  | .rup => x ≤ z ∧ (x ≤ w → z ≤ w)

theorem Rm.prefers_rup {x z w : Int} {even : Prop} : Rm.rup.Prefers x z w even ↔ Rm.rdn.Prefers (-x) (-z) (-w) even := by
  simp [Rm.Prefers]

theorem Rm.movesUp_rup {lo mid v : Nat} {odd : Prop} : Rm.rup.MovesUp neg lo mid v odd ↔ Rm.rdn.MovesUp (!neg) lo mid v odd := by
  simp [Rm.MovesUp]

/-- Downwards, a positive value takes the lower neighbour, and a negative one the larger magnitude where it is not exact. -/
theorem Rm.prefers_rdn {a b X w : Nat} {up s : Bool} {odd even : Prop} (low : a ≤ X) (high : X < b)
    (moves : up = true ↔ Rm.rdn.MovesUp neg (2 * a) (a + b) (2 * X) odd) (beside : w ≤ a ∨ b ≤ w) :
    Rm.rdn.Prefers (fpSgn neg * X) (fpSgn neg * (if up then b else a : Nat)) (fpSgn s * w) even := by
  change up = true ↔ neg = true ∧ 2 * X ≠ 2 * a at moves
  cases neg with
  | false =>
    obtain rfl : up = false := by simpa using moves
    cases s <;> simp [Rm.Prefers] <;> omega
  | true =>
    cases up with
    | false =>
      obtain rfl : X = a := by simpa using moves
      cases s <;> simp [Rm.Prefers]
    | true =>
      have changed : X ≠ a := by simpa using moves
      cases s <;> simp [Rm.Prefers] <;> omega

/-- What a mode takes of two neighbours `a` and `b` of `X` is its rounding, compared with any value that is not between them. -/
theorem Rm.prefers_of_movesUp {a b X w : Nat} {up s : Bool} {odd : Prop} (low : a ≤ X) (high : X < b)
    (moves : up = true ↔ rm.MovesUp neg (2 * a) (a + b) (2 * X) odd) (beside : w ≤ a ∨ b ≤ w) :
    rm.Prefers (fpSgn neg * X) (fpSgn neg * (if up then b else a : Nat)) (fpSgn s * w) (up = true ↔ odd) := by
  cases rm with
  | rne =>
    change up = true ↔ a + b < 2 * X ∨ 2 * X = a + b ∧ odd at moves
    have nearer : if up then a + b ≤ 2 * X else 2 * X ≤ a + b := by
      cases up with
      | false => exact not_lt.mp fun less => absurd (moves.mpr (.inl less)) Bool.false_ne_true
      | true => exact (moves.mp rfl).elim le_of_lt fun tie => tie.1.ge
    obtain ⟨near, tie⟩ := natAbs_sub_le_of_nearer (neg := neg) (s := s) low high nearer beside
    exact ⟨near, fun eq ne => by simpa [tie eq ne] using moves⟩
  | rtz =>
    obtain rfl : up = false := by simpa [Rm.MovesUp] using moves
    simp only [Rm.Prefers, natAbs_fpSgn_mul, Int.natAbs_natCast, Bool.false_eq_true, if_false]
    exact ⟨low, fun le _ => beside.resolve_right (le.trans_lt high).not_ge⟩
  | rdn => exact Rm.prefers_rdn low high moves beside
  | rup =>
    -- upwards is downwards with the signs turned
    have turned := Rm.prefers_rdn (neg := !neg) (s := !s) (even := up = true ↔ odd) low high (moves.trans Rm.movesUp_rup) beside
    rw [fpSgn_not, fpSgn_not, neg_mul, neg_mul, neg_mul] at turned
    exact Rm.prefers_rup.mpr turned


/-! ### Patterns -/

theorem fpSgn_decide_mul_natAbs (x : Int) : fpSgn (decide (x < 0)) * (x.natAbs : Int) = x := by
  by_cases h : x < 0
  · simp only [h, decide_true, fpSgn_true]
    omega
  · simp only [h, decide_false, fpSgn_false]
    omega

theorem fpSign_even (shape : FpShape code) (neg : Bool) : fpSign code neg % 2 = 0 := by
  obtain ⟨k, hk⟩ : ∃ k, (ffmt code).w - 1 = k + 1 := ⟨(ffmt code).w - 2, by have := shape.wide; omega⟩
  rw [fpSign_eq, hk, pow_succ, ← mul_assoc, Nat.mul_mod_left]

/-- The number that the mode takes is, with the sign of the exact value, what that value rounds to (03 R76). -/
theorem RoundsOn.roundsTo {lo : Nat} {up : Bool} (shape : FpShape code)
    (on : RoundsOn (ffmt code).m rm (decide (x < 0)) unit x.natAbs lo up) (most : lo + up.toNat ≤ fpLargest code) :
    RoundsTo code rm unit x (fpSign code (decide (x < 0)) + (lo + up.toNat)) := by
  have fits : lo + up.toNat < 2 ^ ((ffmt code).w - 1) := by have := shape.fits; omega
  refine ⟨fpSign_add_finite shape most, signBit_fpSign_add fits, fun w _ => ?_⟩
  have taken : fpUnits code (fpSign code (decide (x < 0)) + (lo + up.toNat)) * (unit : Int) = fpSgn (decide (x < 0)) *
      (if up then fpMag (ffmt code).m (lo + 1) * unit else fpMag (ffmt code).m lo * unit : Nat) := by
    rw [fpUnits_fpSign_add shape fits]
    cases up <;> simp [mul_assoc]
  have other : fpUnits code w * (unit : Int) =
      fpSgn (signBit code w) * (fpMag (ffmt code).m (w % 2 ^ ((ffmt code).w - 1)) * unit : Nat) := by
    rw [fpUnits_eq shape, mul_assoc, Nat.cast_mul]
  have parity : (fpSign code (decide (x < 0)) + (lo + up.toNat)) % 2 = 0 ↔ (up = true ↔ lo % 2 = 1) := by
    have := fpSign_even shape (decide (x < 0))
    cases up
    · simp only [Bool.toNat_false, Bool.false_eq_true, false_iff]
      omega
    · simp only [Bool.toNat_true, true_iff]
      omega
  have rounds := Rm.prefers_of_movesUp (s := signBit code w) on.low on.high on.moves
    (fpMag_beside _ unit lo (w % 2 ^ ((ffmt code).w - 1)))
  simp only [fpSgn_decide_mul_natAbs, ← taken, ← other, ← parity] at rounds
  exact rounds

theorem fpLargest_mag (shape : FpShape code) : (fpUnits code (fpLargest code)).natAbs = fpMag (ffmt code).m (fpLargest code) := by
  have fits : fpLargest code < 2 ^ ((ffmt code).w - 1) := by have := shape.fits; omega
  rw [fpUnits_eq shape, natAbs_fpSgn_mul, Int.natAbs_natCast, Nat.mod_eq_of_lt fits]

/-- Beyond the largest finite magnitude the next one would be a whole last place away, twice the `half` of R77. -/
theorem fpMag_largest_succ (shape : FpShape code) (unit : Nat) :
    fpMag (ffmt code).m (fpLargest code + 1) * unit = fpMag (ffmt code).m (fpLargest code) * unit +
      2 * (2 ^ (fpLargest code / 2 ^ (ffmt code).m - 2) * unit) := by
  have two : 2 ≤ fpLargest code / 2 ^ (ffmt code).m := by
    rw [Nat.le_div_iff_mul_le (Nat.two_pow_pos _), ← pow_succ']
    exact shape.normal
  obtain ⟨e, he⟩ := Nat.exists_eq_add_of_le' two
  rw [fpMag_succ, he, Nat.add_sub_cancel, show e + 2 - 1 = e + 1 from rfl, pow_succ]
  ring

/-! ### Deliveries -/

/-- A directed mode that does not move toward zero takes the larger of two neighbours for every other value. -/
theorem Rm.movesUp_away {lo mid v : Nat} {odd : Prop} (away : towardZero rm neg = false) (directed : rm ≠ .rne) (other : v ≠ lo) :
    rm.MovesUp neg lo mid v odd := by
  cases rm with
  | rne => exact absurd rfl directed
  | rtz => exact absurd away (by simp [towardZero])
  | rdn => exact ⟨by simpa [towardZero] using away, other⟩
  | rup => exact ⟨by simpa [towardZero] using away, other⟩

/-- The modes that stop an overflow at the largest magnitude (03 R77). -/
theorem towardZero_iff (ne : x ≠ 0) :
    towardZero rm (decide (x < 0)) = true ↔ rm = .rtz ∨ rm = .rdn ∧ 0 < x ∨ rm = .rup ∧ x < 0 := by
  have : 0 < x ↔ ¬ x < 0 := by omega
  cases rm <;> simp [towardZero, this]

theorem overflowBits_towardZero (h : towardZero env.rm neg = true) : overflowBits code env neg = fpSign code neg + fpLargest code := by
  simp [overflowBits, h]

theorem overflowBits_saturated (sat : env.sat = true) (narrow : code ≠ 1 ∧ code ≠ 2) :
    overflowBits code env neg = fpSign code neg + fpLargest code := by
  simp [overflowBits, sat, narrow]

theorem fpInf_eq (shape : FpShape code) (h : code ≠ 5) (neg : Bool) : fpInf code neg = fpSign code neg + (fpLargest code + 1) := by
  rw [fpLargest_succ shape h]
  rfl

theorem overflowBits_away (shape : FpShape code) (h : towardZero env.rm neg = false)
    (sat : env.sat = false ∨ ¬ (code ≠ 1 ∧ code ≠ 2)) :
    overflowBits code env neg = if code = 5 then fpNan code neg else fpSign code neg + (fpLargest code + 1) := by
  have unsaturated : (code != 1 && code != 2 && env.sat) = false := by
    rcases sat with sat | wide
    · simp [sat]
    · by_cases double : code = 1
      · simp [double]
      · simp [show code = 2 by by_contra single; exact wide ⟨double, single⟩]
  simp only [overflowBits, unsaturated, h, Bool.false_eq_true, if_false]
  split
  · rfl
  · exact fpInf_eq shape ‹_› neg

theorem fpDeliver_overflow {b : Nat} {inexact tiny : Bool} (above : fpLargest code < b) :
    fpDeliver code env neg b inexact tiny = (overflowBits code env neg, 0b00101) := by
  simp only [fpDeliver, above, if_true]
  rfl

theorem fpDeliver_finite {b : Nat} {inexact tiny : Bool} (unflushed : env.ftz = false) (most : b ≤ fpLargest code) :
    fpDeliver code env neg b inexact tiny =
      (fpSign code neg + b, (if inexact then Flags.nx else 0) ||| (if tiny && inexact then Flags.uf else 0)) := by
  simp [fpDeliver, most.not_gt, unflushed]

/-- Flags of a result that did not overflow: NX and UF alone (03 R79). -/
theorem inexactFlags_bits (inexact tiny : Bool) :
    let fl : Flags := (if inexact then Flags.nx else 0) ||| (if tiny && inexact then Flags.uf else 0)
    fl.getLsbD 0 = inexact ∧ fl.getLsbD 1 = (tiny && inexact) ∧ fl.getLsbD 2 = false ∧ fl.getLsbD 3 = false ∧
      fl.getLsbD 4 = false := by
  revert inexact tiny
  decide

/-- The exact value, its rounding and the marks, as `fpRound_spec` gives them. -/
structure Delivers (code : Nat) (env : FpEnv) (unit : Nat) (x : Int) (lo : Nat) (up inexact tiny : Bool) : Prop where
  on : RoundsOn (ffmt code).m env.rm (decide (x < 0)) unit x.natAbs lo up
  inexact_iff : inexact = true ↔ x.natAbs ≠ fpMag (ffmt code).m (lo + up.toNat) * unit
  normal : 2 ^ (ffmt code).m * unit ≤ x.natAbs → tiny = false
  small : 2 * x.natAbs ≤ (2 ^ ((ffmt code).m + 1) - 1) * unit → tiny = true

section

variable {lo : Nat} {up inexact tiny : Bool} (shape : FpShape code) (unflushed : env.ftz = false)
  (h : Delivers code env unit x lo up inexact tiny)

include shape unflushed h

/-- Up to the largest finite magnitude: the rounding with NX and UF. -/
theorem Delivers.finite (pos : 0 < unit) (le : x.natAbs ≤ fpMag (ffmt code).m (fpLargest code) * unit) :
    let r := fpDeliver code env (decide (x < 0)) (lo + up.toNat) inexact tiny
    RoundsTo code env.rm unit x r.1 ∧ (r.2.getLsbD 0 = true ↔ fpUnits code r.1 * unit ≠ x) ∧
      (2 ^ (ffmt code).m * unit ≤ x.natAbs → r.2.getLsbD 1 = false) ∧
      (2 * x.natAbs ≤ (2 ^ ((ffmt code).m + 1) - 1) * unit → r.2.getLsbD 1 = r.2.getLsbD 0) ∧
      r.2.getLsbD 2 = false ∧ r.2.getLsbD 3 = false ∧ r.2.getLsbD 4 = false := by
  have most := h.on.le_of_le pos le
  have fits : lo + up.toNat < 2 ^ ((ffmt code).w - 1) := by have := shape.fits; omega
  have isExact : fpUnits code (fpSign code (decide (x < 0)) + (lo + up.toNat)) * (unit : Int) = x ↔
      x.natAbs = fpMag (ffmt code).m (lo + up.toNat) * unit := by
    have value := fpSgn_decide_mul_natAbs x
    rw [fpUnits_fpSign_add shape fits, mul_assoc]
    constructor
    · intro eq
      rw [← eq, natAbs_fpSgn_mul]
      exact Int.natAbs_natCast _
    · intro eq
      rw [eq] at value
      exact_mod_cast value
  obtain ⟨nx, uf, of, dz, nv⟩ := inexactFlags_bits inexact tiny
  simp only [fpDeliver_finite unflushed most]
  refine ⟨h.on.roundsTo shape most, ?_, fun normal => ?_, fun small => ?_, of, dz, nv⟩
  · rw [nx, h.inexact_iff, ne_eq, ne_eq, isExact]
  · rw [uf, h.normal normal, Bool.false_and]
  · rw [uf, nx, h.small small, Bool.true_and]

/-- Above it, what is taken is the largest finite magnitude or an overflow. -/
theorem Delivers.above (gt : fpMag (ffmt code).m (fpLargest code) * unit < x.natAbs) :
    fpLargest code ≤ lo ∧
    (lo + up.toNat ≤ fpLargest code →
      fpDeliver code env (decide (x < 0)) (lo + up.toNat) inexact tiny = (fpSign code (decide (x < 0)) + fpLargest code, 0b00001)) := by
  have least := h.on.le_lo gt.le
  refine ⟨least, fun most => ?_⟩
  have top : lo + up.toNat = fpLargest code := most.antisymm (least.trans (Nat.le_add_right ..))
  have changed : inexact = true := h.inexact_iff.mpr (by rw [top]; exact gt.ne')
  have big : 2 ^ (ffmt code).m ≤ fpMag (ffmt code).m (fpLargest code) := by
    rw [← fpMag_normal (ffmt code).m]
    refine (fpMag_strictMono _).monotone (le_trans ?_ shape.normal)
    exact Nat.pow_le_pow_right two_pos (Nat.le_succ _)
  have normal := h.normal ((Nat.mul_le_mul_right unit big).trans gt.le)
  rw [fpDeliver_finite unflushed most, top, changed, normal]
  rfl

/-- WHAT AN EXACT VALUE DELIVERS, with its flags. -/
theorem Delivers.fpDelivers (pos : 0 < unit) (ne : x ≠ 0) :
    FpDelivers code env unit x (fpDeliver code env (decide (x < 0)) (lo + up.toNat) inexact tiny) := by
  dsimp only [FpDelivers]
  rw [fpLargest_mag shape]
  refine ⟨h.finite shape unflushed pos, fun gt => ?_⟩
  obtain ⟨least, largest⟩ := h.above shape unflushed gt
  have exceeds (away : towardZero env.rm (decide (x < 0)) = false) (beyond : fpLargest code < lo + up.toNat) :
      (fpDeliver code env (decide (x < 0)) (lo + up.toNat) inexact tiny).2 = 0b00101 ∧
      (env.sat = true → code ≠ 1 ∧ code ≠ 2 → (fpDeliver code env (decide (x < 0)) (lo + up.toNat) inexact tiny).1 =
        fpSign code (decide (x < 0)) + fpLargest code) ∧
      (env.sat = false ∨ ¬ (code ≠ 1 ∧ code ≠ 2) → (fpDeliver code env (decide (x < 0)) (lo + up.toNat) inexact tiny).1 =
        if code = 5 then fpNan code (decide (x < 0)) else fpSign code (decide (x < 0)) + (fpLargest code + 1)) := by
    rw [fpDeliver_overflow beyond]
    exact ⟨rfl, overflowBits_saturated, overflowBits_away shape away⟩
  have next := fpMag_largest_succ shape unit
  have parity := shape.parity
  obtain ⟨on, -, -, -⟩ := h
  rw [← towardZero_iff ne]
  refine ⟨fun toZero => ?_, fun rne below => largest ?_, fun rne above => exceeds (by simp [rne, towardZero]) ?_,
    fun away directed => exceeds (Bool.eq_false_iff.mpr away) ?_⟩
  · rcases Nat.lt_or_ge (fpLargest code) (lo + up.toNat) with beyond | most
    · rw [fpDeliver_overflow beyond, overflowBits_towardZero toZero]
      exact ⟨rfl, (by decide : BitVec.getLsbD (0b00101 : Flags) 0 = true)⟩
    · rw [largest most]
      exact ⟨rfl, (by decide : BitVec.getLsbD (0b00001 : Flags) 0 = true)⟩
  · -- below the middle to the next place, or in it beside an even number: the mode stays
    obtain rfl : lo = fpLargest code := least.antisymm' (on.lo_le_of_lt (by omega))
    have stays : up = false := Bool.eq_false_iff.mpr fun moved => by
      have := on.moves.mp moved
      rw [rne, Rm.MovesUp] at this
      split at parity <;> omega
    rw [stays]
    exact le_rfl
  · rcases least.lt_or_eq with more | rfl
    · exact more.trans_le (Nat.le_add_right ..)
    · have moved : up = true := on.moves.mpr (by
        rw [rne, Rm.MovesUp]
        split at parity <;> omega)
      rw [moved]
      exact Nat.lt_succ_self _
  · rcases least.lt_or_eq with more | rfl
    · exact more.trans_le (Nat.le_add_right ..)
    · have moved : up = true := on.moves.mpr (Rm.movesUp_away (Bool.eq_false_iff.mpr away) directed (by omega))
      rw [moved]
      exact Nat.lt_succ_self _

end

/-- THE ROUNDING TO A FORMAT delivers every exact value that is not zero as R76, R77 and R79 say. -/
theorem fpRound_delivers (shape : FpShape code) (unflushed : env.ftz = false) (pos : 0 < unit) (ne : x ≠ 0) {n : Nat} {e : Int}
    {sticky : Bool} (nonzero : n ≠ 0) (stands : Stands n (e - fpBase code) sticky ((x.natAbs : ℚ) / unit))
    (fine : sticky = true → 2 ^ ((ffmt code).m + 1) ≤ n) :
    FpDelivers code env unit x (fpRound code env (decide (x < 0)) n e sticky) := by
  obtain ⟨b, inexact, tiny, eq, rounds, changed, normal, small⟩ :=
    fpRound_spec (env := env) (neg := decide (x < 0)) stands nonzero fine shape
  obtain ⟨lo, up, on, rfl⟩ := rounds.roundsOn pos
  have posq : (0 : ℚ) < unit := by exact_mod_cast pos
  rw [eq]
  refine Delivers.fpDelivers shape unflushed ⟨on, ?_, fun le => normal ?_, fun le => small ?_⟩ pos ne
  · rw [changed, ne_eq, div_eq_iff posq.ne']
    exact not_congr (by exact_mod_cast Iff.rfl)
  · rw [le_div_iff₀ posq]
    exact_mod_cast le
  · rw [mul_div_assoc', div_le_iff₀ posq]
    have cast : ((2 ^ ((ffmt code).m + 1) - 1 : Nat) : ℚ) = 2 ^ ((ffmt code).m + 1) - 1 := by
      rw [Nat.cast_sub Nat.one_le_two_pow]
      push_cast
      rfl
    rw [← cast]
    exact_mod_cast le

end Sys2Proof.Machine
end

section
/-!
SUMS, PRODUCTS AND QUOTIENTS OF FINITE OPERANDS (03 R76, R79, R83, for O8): the model's exact results stand for the exact values, and what
they deliver is the rounding of `fpRound_delivers`.
-/

namespace Sys2Proof.Machine

variable {code : Nat} {env : FpEnv}

/-! ### Exact values -/

/-- An operand that stands for the value `x`, as a sign, a significand and an exponent, in units of the smallest subnormal. -/
structure IsNum (code : Nat) (env : FpEnv) (a : Nat) (s : Bool) (n k : Nat) : Prop where
  unpack : fpUnpack code env.ftz a = .num s n (fpBase code + k)
  units : fpUnits code a = fpSgn s * (n * 2 ^ k : Nat)
  below : n < 2 ^ ((ffmt code).m + 1)

/-- Without flushing every finite pattern is such an operand. -/
theorem isNum_of_finite (shape : FpShape code) (unflushed : env.ftz = false) {a : Nat} (fin : FpFinite code a) :
    ∃ n k, IsNum code env a (signBit code a) n k := by
  have unpack := fpUnpack_finite shape env.ftz fin.2
  have units := fpUnits_eq shape a
  rw [unflushed] at unpack
  have rest := Nat.mod_lt (a % 2 ^ ((ffmt code).w - 1)) (Nat.two_pow_pos (ffmt code).m)
  rw [fpMag] at units
  split at units
  · next zero =>
    refine ⟨_, 0, ?_, by rwa [pow_zero, mul_one], rest.trans (Nat.pow_lt_pow_right one_lt_two (Nat.lt_succ_self _))⟩
    rw [unflushed, unpack, if_pos zero]
    simp
  · next normal => exact ⟨_, _, by rw [unflushed, unpack, if_neg normal], units, by rw [pow_succ]; omega⟩

theorem IsNum.eq_zero {a n k : Nat} {s : Bool} (h : IsNum code env a s n k) : fpUnits code a = 0 ↔ n = 0 := by
  rw [h.units]
  cases s <;> simp

/-- The exponent of 1.0 in units of the smallest subnormal. -/
def fpOneExp (code : Nat) : Nat := (ffmt code).bias - 1 + (ffmt code).m

theorem fpBase_eq (shape : FpShape code) : fpBase code = -(fpOneExp code : Int) := by
  have := shape.bias
  unfold fpBase fpOneExp
  omega

theorem decide_fpSgn_mul_neg (s : Bool) {n : Nat} (pos : 0 < n) : decide (fpSgn s * (n : Int) < 0) = s := by
  cases s <;> simp [pos]

/-- A number of a finer grid, of which 2^c is one unit, is rounded as its value. -/
theorem fpRound_value (shape : FpShape code) (unflushed : env.ftz = false) (c : Nat) (s : Bool) {n : Nat} (j : Nat) (nonzero : n ≠ 0) :
    FpDelivers code env (2 ^ c) (fpSgn s * (n * 2 ^ j : Nat)) (fpRound code env s n (fpBase code - c + j) false) := by
  have pos : 0 < n * 2 ^ j := Nat.mul_pos (Nat.pos_of_ne_zero nonzero) (Nat.two_pow_pos j)
  have ne : fpSgn s * ((n * 2 ^ j : Nat) : Int) ≠ 0 := by
    rw [← Int.natAbs_ne_zero, natAbs_fpSgn_mul, Int.natAbs_natCast]
    exact pos.ne'
  have stands : Stands n (fpBase code - c + j - fpBase code) false
      (((fpSgn s * ((n * 2 ^ j : Nat) : Int)).natAbs : ℚ) / (2 ^ c : Nat)) := by
    convert stands_exact n (fpBase code - c + j - fpBase code) using 1
    rw [natAbs_fpSgn_mul, Int.natAbs_natCast, show fpBase code - c + j - fpBase code = (j : Int) - c by ring, zpow_sub₀ two_ne_zero]
    push_cast
    rw [zpow_natCast, zpow_natCast, mul_div_assoc]
  have delivers := fpRound_delivers shape unflushed (Nat.two_pow_pos c) ne nonzero stands (by simp)
  rwa [decide_fpSgn_mul_neg s pos] at delivers

/-! ### Sums -/

theorem onGrid_eq (s : Bool) (n : Nat) (B : Int) {k j : Nat} (le : j ≤ k) :
    onGrid s n (B + k) (B + j) * 2 ^ j = fpSgn s * (n * 2 ^ k : Nat) := by
  obtain ⟨d, rfl⟩ := Nat.exists_eq_add_of_le le
  have shift : (B + (j + d : Nat) - (B + j)).toNat = d := by omega
  rw [onGrid, shift]
  cases s <;> push_cast <;> simp <;> ring

/-- The sum of two numbers on a common grid; a zero may stand at any exponent. -/
theorem sumFinite_eq (rm : Rm) (B : Int) (s1 s2 : Bool) (n1 k1 n2 k2 : Nat) : ∃ (V : Int) (j : Nat),
    V * 2 ^ j = fpSgn s1 * (n1 * 2 ^ k1 : Nat) + fpSgn s2 * (n2 * 2 ^ k2 : Nat) ∧
    sumFinite rm s1 n1 (B + k1) s2 n2 (B + k2) =
      if V = 0 then (if n1 = 0 ∧ n2 = 0 ∧ s1 = s2 then .num s1 0 0 else .num (rm == .rdn) 0 0)
      else .num (decide (V < 0)) V.natAbs (B + j) := by
  obtain ⟨l1, hl1, v1⟩ : ∃ l1 : Nat, (if n1 = 0 then B + k2 else B + k1) = B + l1 ∧ n1 * 2 ^ l1 = n1 * 2 ^ k1 := by
    split
    · next zero => exact ⟨k2, rfl, by simp [zero]⟩
    · exact ⟨k1, rfl, rfl⟩
  obtain ⟨l2, hl2, v2⟩ : ∃ l2 : Nat, (if n2 = 0 then B + l1 else B + k2) = B + l2 ∧ n2 * 2 ^ l2 = n2 * 2 ^ k2 := by
    split
    · next zero => exact ⟨l1, rfl, by simp [zero]⟩
    · exact ⟨k2, rfl, rfl⟩
  have grid : (if B + l1 < B + l2 then B + l1 else B + l2) = B + (min l1 l2 : Nat) := by split <;> omega
  refine ⟨onGrid s1 n1 (B + l1) (B + (min l1 l2 : Nat)) + onGrid s2 n2 (B + l2) (B + (min l1 l2 : Nat)), min l1 l2, ?_, ?_⟩
  · rw [add_mul, onGrid_eq _ _ _ (min_le_left ..), onGrid_eq _ _ _ (min_le_right ..), v1, v2]
  · simp only [sumFinite, hl1, hl2, grid]

/-- A sum of finite numbers delivers its rounding; one that is zero has the sign of IEEE 754 (03 R83). -/
theorem fpRound_sumFinite (shape : FpShape code) (unflushed : env.ftz = false) (c : Nat) (s1 s2 : Bool) (n1 k1 n2 k2 : Nat) :
    ∃ s n e, sumFinite env.rm s1 n1 (fpBase code - c + k1) s2 n2 (fpBase code - c + k2) = .num s n e ∧
      ∀ v : Int, v = fpSgn s1 * (n1 * 2 ^ k1 : Nat) + fpSgn s2 * (n2 * 2 ^ k2 : Nat) →
        (v ≠ 0 → FpDelivers code env (2 ^ c) v (fpRound code env s n e false)) ∧
        (v = 0 → fpRound code env s n e false = (fpSign code (if s1 = s2 then s1 else decide (env.rm = .rdn)), 0)) := by
  obtain ⟨V, j, value, eq⟩ := sumFinite_eq env.rm (fpBase code - c) s1 s2 n1 k1 n2 k2
  have zero : V = 0 ↔ V * 2 ^ j = 0 := by simp
  by_cases hV : V = 0
  · rw [if_pos hV] at eq
    have signs : n1 = 0 ∧ n2 = 0 ∧ s1 = s2 ↔ s1 = s2 := by
      refine ⟨fun h => h.2.2, fun same => ?_⟩
      rw [hV, zero_mul, same, ← mul_add] at value
      have sum : n1 * 2 ^ k1 + n2 * 2 ^ k2 = 0 := by
        have := congrArg Int.natAbs value.symm
        rwa [natAbs_fpSgn_mul, Int.natAbs_zero, ← Nat.cast_add, Int.natAbs_natCast] at this
      simp only [Nat.add_eq_zero_iff, mul_eq_zero, pow_eq_zero_iff', two_ne_zero, ne_eq, false_and, or_false] at sum
      exact ⟨sum.1, sum.2, same⟩
    refine ⟨if s1 = s2 then s1 else env.rm == .rdn, 0, 0, by rw [eq]; simp only [signs]; split <;> rfl,
      fun v hv => ⟨fun ne => ?_, fun _ => rfl⟩⟩
    exact absurd (hv.trans (value.symm.trans (zero.mp hV))) ne
  · rw [if_neg hV] at eq
    refine ⟨_, _, _, eq, fun v hv => ⟨fun _ => ?_, fun v0 => absurd (zero.mpr (value.trans (hv.symm.trans v0))) hV⟩⟩
    have isExact : v = fpSgn (decide (V < 0)) * (V.natAbs * 2 ^ j : Nat) := by
      rw [hv, ← value, Nat.cast_mul, ← mul_assoc, fpSgn_decide_mul_natAbs]
      push_cast
      rfl
    rw [isExact]
    exact fpRound_value shape unflushed c _ j (Int.natAbs_ne_zero.mpr hV)

/-! ### The operations -/

theorem fp2_num {op : Fp → Fp → Exact} {a b : Nat} {s1 s2 s : Bool} {n1 n2 n : Nat} {e1 e2 e : Int} {sticky : Bool}
    (ha : fpUnpack code env.ftz a = .num s1 n1 e1) (hb : fpUnpack code env.ftz b = .num s2 n2 e2)
    (isExact : op (.num s1 n1 e1) (.num s2 n2 e2) = some (.num s n e, sticky, 0)) :
    fp2 code env op a b = fpRound code env s n e sticky := by
  simp [fp2, ha, hb, isExact, Fp.isNan, snans, Fp.snan]

/-- The product of two numbers, of which 1.0 in units of a subnormal is one unit. -/
theorem units_mul (shape : FpShape code) {a b : Nat} {s1 s2 : Bool} {n1 k1 n2 k2 : Nat}
    (ha : IsNum code env a s1 n1 k1) (hb : IsNum code env b s2 n2 k2) :
    fpUnits code a * fpUnits code b = fpSgn (s1 ^^ s2) * (n1 * n2 * 2 ^ (k1 + k2) : Nat) ∧
    fpBase code + k1 + (fpBase code + k2) = fpBase code - fpOneExp code + (k1 + k2 : Nat) := by
  rw [ha.units, hb.units, fpSgn_xor]
  constructor
  · push_cast
    ring
  · have := fpBase_eq shape
    push_cast
    omega

/-- The 128 further bits of a quotient and the mark of its remainder stand for it (08 R194). -/
theorem stands_quotient {n1 n2 : Nat} (pos : 0 < n2) (p : Int) :
    Stands (n1 * 2 ^ 128 / n2) (p - 128) (n1 * 2 ^ 128 % n2 != 0) ((n1 : ℚ) / n2 * 2 ^ p) := by
  have posq : (0 : ℚ) < n2 := by exact_mod_cast pos
  have posp := zpow_pos (two_pos (α := ℚ)) (p - 128)
  have value : (n1 : ℚ) / n2 * 2 ^ p = (n1 * 2 ^ 128 : Nat) / n2 * 2 ^ (p - 128) := by
    rw [zpow_sub₀ two_ne_zero]
    push_cast
    ring
  rw [value]
  generalize n1 * 2 ^ 128 = N
  have split : (N : ℚ) = n2 * (N / n2 : Nat) + (N % n2 : Nat) := by exact_mod_cast (Nat.div_add_mod N n2).symm
  have less : ((N % n2 : Nat) : ℚ) < n2 := by exact_mod_cast Nat.mod_lt N pos
  refine ⟨mul_le_mul_of_nonneg_right Nat.cast_div_le posp.le, mul_lt_mul_of_pos_right ?_ posp, ?_⟩
  · rw [div_lt_iff₀ posq, split]
    linarith
  · rw [ne_eq, mul_left_inj' posp.ne', div_eq_iff posq.ne', mul_comm, bne_iff_ne, split, add_eq_left, Nat.cast_eq_zero]

theorem IsNum.sign_units {a n k : Nat} {s : Bool} (h : IsNum code env a s n k) (nonzero : n ≠ 0) : (fpUnits code a).sign = fpSgn s := by
  have pos : (0 : Int) < (n * 2 ^ k : Nat) := by exact_mod_cast Nat.mul_pos (Nat.pos_of_ne_zero nonzero) (Nat.two_pow_pos k)
  rw [h.units, Int.sign_mul, Int.sign_eq_one_of_pos pos, mul_one]
  cases s <;> rfl

/-- A quotient that is not zero: its value in units of a subnormal is x · one / y (03 R76). -/
theorem fpDiv_delivers (shape : FpShape code) (unflushed : env.ftz = false) {a b n1 k1 n2 k2 : Nat} {s1 s2 : Bool}
    (ha : IsNum code env a s1 n1 k1) (hb : IsNum code env b s2 n2 k2) (nonzero1 : n1 ≠ 0) (nonzero2 : n2 ≠ 0) :
    FpDelivers code env (fpUnits code b).natAbs (fpUnits code a * (2 ^ fpOneExp code : Nat) * (fpUnits code b).sign)
      (fpDiv code env a b) := by
  have pos : 0 < n2 := Nat.pos_of_ne_zero nonzero2
  have quotient : fpDiv code env a b = fpRound code env (s1 ^^ s2) (n1 * 2 ^ 128 / n2)
      (fpBase code + k1 - (fpBase code + k2) - 128) (n1 * 2 ^ 128 % n2 != 0) :=
    fp2_num (op := divExact) ha.unpack hb.unpack (by simp only [divExact, nonzero2, if_false, Fp.neg?, Bool.bne_eq_xor])
  have fine : 2 ^ ((ffmt code).m + 1) ≤ n1 * 2 ^ 128 / n2 := by
    rw [Nat.le_div_iff_mul_le pos]
    calc 2 ^ ((ffmt code).m + 1) * n2 ≤ 2 ^ ((ffmt code).m + 1) * 2 ^ ((ffmt code).m + 1) := Nat.mul_le_mul_left _ hb.below.le
      _ ≤ 2 ^ 128 := by rw [← pow_add]; exact Nat.pow_le_pow_right two_pos (by have := shape.thin; omega)
      _ ≤ n1 * 2 ^ 128 := Nat.le_mul_of_pos_left _ (Nat.pos_of_ne_zero nonzero1)
  have value : fpUnits code a * (2 ^ fpOneExp code : Nat) * (fpUnits code b).sign =
      fpSgn (s1 ^^ s2) * (n1 * 2 ^ k1 * 2 ^ fpOneExp code : Nat) := by
    rw [ha.units, hb.sign_units nonzero2, fpSgn_xor]
    push_cast
    ring
  have unit : (fpUnits code b).natAbs = n2 * 2 ^ k2 := by rw [hb.units, natAbs_fpSgn_mul, Int.natAbs_natCast]
  have pos1 : 0 < n1 * 2 ^ k1 * 2 ^ fpOneExp code :=
    Nat.mul_pos (Nat.mul_pos (Nat.pos_of_ne_zero nonzero1) (Nat.two_pow_pos _)) (Nat.two_pow_pos _)
  have ne : fpSgn (s1 ^^ s2) * ((n1 * 2 ^ k1 * 2 ^ fpOneExp code : Nat) : Int) ≠ 0 := by
    rw [← Int.natAbs_ne_zero, natAbs_fpSgn_mul, Int.natAbs_natCast]
    exact pos1.ne'
  have stands : Stands (n1 * 2 ^ 128 / n2) (fpBase code + k1 - (fpBase code + k2) - 128 - fpBase code) (n1 * 2 ^ 128 % n2 != 0)
      (((fpSgn (s1 ^^ s2) * ((n1 * 2 ^ k1 * 2 ^ fpOneExp code : Nat) : Int)).natAbs : ℚ) / (n2 * 2 ^ k2 : Nat)) := by
    convert stands_quotient (n1 := n1) pos ((k1 : Int) - k2 + fpOneExp code) using 1
    · rw [fpBase_eq shape]
      ring
    · rw [natAbs_fpSgn_mul, Int.natAbs_natCast, zpow_add₀ two_ne_zero, zpow_sub₀ two_ne_zero, zpow_natCast, zpow_natCast, zpow_natCast]
      push_cast
      field_simp
  have delivers := fpRound_delivers shape unflushed (Nat.mul_pos pos (Nat.two_pow_pos k2)) ne
    ((Nat.two_pow_pos _).trans_le fine).ne' stands fun _ => fine
  rw [quotient, value, unit]
  rwa [decide_fpSgn_mul_neg _ pos1] at delivers

/-- A fused form of numbers is the sum of the product and the addend. -/
theorem fpFma_num {a b c : Nat} {s1 s2 s3 : Bool} {n1 n2 n3 : Nat} {e1 e2 e3 : Int} (ha : fpUnpack code env.ftz a = .num s1 n1 e1)
    (hb : fpUnpack code env.ftz b = .num s2 n2 e2) (hc : fpUnpack code env.ftz c = .num s3 n3 e3) {nx nz : Bool} :
    fpFma code env nx nz a b c =
      fpPack code env (sumFinite env.rm (s1 ^^ nx ^^ s2) (n1 * n2) (e1 + e2) (s3 ^^ nz) n3 e3) := by
  simp [fpFma, ha, hb, hc, Fp.isInf, Fp.isNan, Fp.withSign, Fp.neg?, fmaExact, Bool.bne_eq_xor, snans, Fp.snan]

section

variable (shape : FpShape code) (unflushed : env.ftz = false) {a b c : Nat} (fa : FpFinite code a) (fb : FpFinite code b)

include shape unflushed fa fb

/-- A sum of finite operands (03 R76). -/
theorem fpAdd_finite :
    (fpUnits code a + fpUnits code b ≠ 0 → FpDelivers code env 1 (fpUnits code a + fpUnits code b) (fpAdd code env a b)) ∧
    (fpUnits code a + fpUnits code b = 0 → fpAdd code env a b =
      (fpSign code (if signBit code a = signBit code b then signBit code a else decide (env.rm = .rdn)), 0)) := by
  obtain ⟨n1, k1, ha⟩ := isNum_of_finite shape unflushed fa
  obtain ⟨n2, k2, hb⟩ := isNum_of_finite shape unflushed fb
  obtain ⟨s, n, e, eq, sum⟩ := fpRound_sumFinite shape unflushed 0 (signBit code a) (signBit code b) n1 k1 n2 k2
  rw [Nat.cast_zero, sub_zero] at eq
  rw [fpAdd, fp2_num (op := addExact env.rm) ha.unpack hb.unpack (by rw [addExact, eq])]
  exact sum _ (by rw [ha.units, hb.units])

/-- A difference of finite operands. -/
theorem fpSub_finite :
    (fpUnits code a - fpUnits code b ≠ 0 → FpDelivers code env 1 (fpUnits code a - fpUnits code b) (fpSub code env a b)) ∧
    (fpUnits code a - fpUnits code b = 0 → fpSub code env a b =
      (fpSign code (if signBit code a = !signBit code b then signBit code a else decide (env.rm = .rdn)), 0)) := by
  obtain ⟨n1, k1, ha⟩ := isNum_of_finite shape unflushed fa
  obtain ⟨n2, k2, hb⟩ := isNum_of_finite shape unflushed fb
  obtain ⟨s, n, e, eq, sum⟩ := fpRound_sumFinite shape unflushed 0 (signBit code a) (!signBit code b) n1 k1 n2 k2
  rw [Nat.cast_zero, sub_zero] at eq
  rw [fpSub, fp2_num (op := fun x y => addExact env.rm x (y.withSign (!y.neg?))) (s := s) (n := n) (e := e) (sticky := false)
    ha.unpack hb.unpack (by simp only [Fp.withSign, Fp.neg?, addExact, eq])]
  exact sum _ (by rw [ha.units, hb.units]; cases signBit code b <;> simp [sub_eq_add_neg])

/-- A product of finite operands. -/
theorem fpMul_finite :
    (fpUnits code a * fpUnits code b ≠ 0 →
      FpDelivers code env (2 ^ fpOneExp code) (fpUnits code a * fpUnits code b) (fpMul code env a b)) ∧
    (fpUnits code a * fpUnits code b = 0 → fpMul code env a b = (fpSign code (signBit code a ^^ signBit code b), 0)) := by
  obtain ⟨n1, k1, ha⟩ := isNum_of_finite shape unflushed fa
  obtain ⟨n2, k2, hb⟩ := isNum_of_finite shape unflushed fb
  obtain ⟨value, place⟩ := units_mul shape ha hb
  rw [fpMul, fp2_num (op := mulExact) ha.unpack hb.unpack (by rw [mulExact]), Bool.bne_eq_xor, place, ne_eq, mul_eq_zero,
    ha.eq_zero, hb.eq_zero, ← mul_eq_zero, value]
  refine ⟨fun nonzero => fpRound_value shape unflushed _ _ _ nonzero, fun zero => ?_⟩
  rw [zero]
  rfl

/-- A fused form of finite operands: the exact product and the addend are rounded once (03 R83, 08 R188). -/
theorem fpFma_finite (fc : FpFinite code c) (nx nz : Bool) :
    let v : Int := fpSgn nx * (fpUnits code a * fpUnits code b) + fpSgn nz * (fpUnits code c * (2 ^ fpOneExp code : Nat))
    (v ≠ 0 → FpDelivers code env (2 ^ fpOneExp code) v (fpFma code env nx nz a b c)) ∧
    (v = 0 → fpFma code env nx nz a b c =
      (fpSign code (if (signBit code a ^^ signBit code b ^^ nx) = (signBit code c ^^ nz) then signBit code a ^^ signBit code b ^^ nx
        else decide (env.rm = .rdn)), 0)) := by
  obtain ⟨n1, k1, ha⟩ := isNum_of_finite shape unflushed fa
  obtain ⟨n2, k2, hb⟩ := isNum_of_finite shape unflushed fb
  obtain ⟨n3, k3, hc⟩ := isNum_of_finite shape unflushed fc
  obtain ⟨value, place⟩ := units_mul shape ha hb
  obtain ⟨s, n, e, eq, sum⟩ := fpRound_sumFinite shape unflushed (fpOneExp code) (signBit code a ^^ signBit code b ^^ nx)
    (signBit code c ^^ nz) (n1 * n2) (k1 + k2) n3 (k3 + fpOneExp code)
  have third : fpBase code + k3 = fpBase code - fpOneExp code + (k3 + fpOneExp code : Nat) := by push_cast; ring
  have sign : (signBit code a ^^ nx ^^ signBit code b) = (signBit code a ^^ signBit code b ^^ nx) := Bool.xor_right_comm ..
  have fused : fpFma code env nx nz a b c = fpRound code env s n e false := by
    rw [fpFma_num ha.unpack hb.unpack hc.unpack, sign, place, third, eq]
    rfl
  rw [fused]
  refine sum _ ?_
  rw [value, hc.units, fpSgn_xor _ nx, fpSgn_xor _ nz]
  push_cast
  ring

/-- A quotient of finite operands: its value in units of a subnormal is x · one / y (03 R76, R79). -/
theorem fpDiv_finite :
    (fpUnits code a * fpUnits code b ≠ 0 → FpDelivers code env (fpUnits code b).natAbs
      (fpUnits code a * (2 ^ fpOneExp code : Nat) * (fpUnits code b).sign) (fpDiv code env a b)) ∧
    (fpUnits code a = 0 → fpUnits code b ≠ 0 → fpDiv code env a b = (fpSign code (signBit code a ^^ signBit code b), 0)) ∧
    (fpUnits code a = 0 → fpUnits code b = 0 → fpDiv code env a b = (fpNan code false, 0b10000)) ∧
    (fpUnits code a ≠ 0 → fpUnits code b = 0 → code ≠ 5 →
      fpDiv code env a b = (fpSign code (signBit code a ^^ signBit code b) + (fpLargest code + 1), 0b01000)) := by
  obtain ⟨n1, k1, ha⟩ := isNum_of_finite shape unflushed fa
  obtain ⟨n2, k2, hb⟩ := isNum_of_finite shape unflushed fb
  rw [ne_eq, mul_eq_zero, ne_eq, ne_eq, ha.eq_zero, hb.eq_zero, not_or]
  refine ⟨fun ⟨nonzero1, nonzero2⟩ => ?_, fun zero1 nonzero2 => ?_, fun zero1 zero2 => ?_, fun nonzero1 zero2 other => ?_⟩
  · exact fpDiv_delivers shape unflushed ha hb nonzero1 nonzero2
  · rw [fpDiv, fp2_num (op := divExact) (s := signBit code a ^^ signBit code b) (n := 0)
      (e := fpBase code + k1 - (fpBase code + k2) - 128) (sticky := false) ha.unpack hb.unpack
      (by simp [divExact, zero1, nonzero2, Fp.neg?, Bool.bne_eq_xor]), fpRound_zero]
  · simp [fpDiv, fp2, ha.unpack, hb.unpack, divExact, zero1, zero2, Fp.isNan, snans, Fp.snan, Flags.nv]
  · simp [fpDiv, fp2, ha.unpack, hb.unpack, divExact, nonzero1, zero2, Fp.isNan, snans, Fp.snan, Flags.dz, Fp.neg?, Bool.bne_eq_xor, fpPack,
      other, fpInf_eq shape other]

end

end Sys2Proof.Machine
end

section
/-!
NaNs AND INFINITIES (03 R67, R69, R80, for O8): what an operand that is no finite number makes of an operation.
-/

namespace Sys2Proof.Machine

variable {code : Nat} {env : FpEnv} {ftz : Bool}

/-! ### The kinds of operands -/

theorem fp_kinds (code n : Nat) :
    n % 2 ^ ((ffmt code).w - 1) ≤ fpLargest code ∨ fpIsInf code n = true ∨ fpIsNan code n = true := by
  simp only [fpIsInf, fpIsNan, decide_eq_true_eq]
  split <;> omega

theorem fpIsNan_of_inf {n : Nat} (inf : fpIsInf code n = true) : fpIsNan code n = false := by
  simp only [fpIsInf, fpIsNan, decide_eq_true_eq, decide_eq_false_iff_not] at *
  rw [if_neg inf.1]
  omega

theorem fpIsNan_of_finite {n : Nat} (fin : n % 2 ^ ((ffmt code).w - 1) ≤ fpLargest code) : fpIsNan code n = false := by
  simp only [fpIsNan, decide_eq_false_iff_not]
  omega

theorem fpIsInf_of_finite {n : Nat} (fin : n % 2 ^ ((ffmt code).w - 1) ≤ fpLargest code) : fpIsInf code n = false := by
  simp only [fpIsInf, decide_eq_false_iff_not]
  omega

theorem fpIsInf_of_nan {n : Nat} (nan : fpIsNan code n = true) : fpIsInf code n = false :=
  Bool.eq_false_iff.mpr fun inf => by simp [fpIsNan_of_inf inf] at nan

section

variable (shape : FpShape code)

include shape

/-- A finite operand is a number of its sign. -/
theorem exists_num (ftz : Bool) {n : Nat} (fin : n % 2 ^ ((ffmt code).w - 1) ≤ fpLargest code) :
    ∃ m e, fpUnpack code ftz n = .num (signBit code n) m e := by
  rw [fpUnpack_finite shape ftz fin]
  split
  · split
    · exact ⟨_, _, rfl⟩
    · exact ⟨_, _, rfl⟩
  · exact ⟨_, _, rfl⟩

theorem unpack_isNan (ftz : Bool) (n : Nat) : (fpUnpack code ftz n).isNan = fpIsNan code n := by
  rcases fp_kinds code n with fin | inf | nan
  · obtain ⟨m, e, eq⟩ := exists_num shape ftz fin
    rw [eq, fpIsNan_of_finite fin]
    rfl
  · rw [fpUnpack_inf shape ftz inf, fpIsNan_of_inf inf]
    rfl
  · rw [fpUnpack_nan shape ftz nan, nan]
    rfl

theorem unpack_isInf (ftz : Bool) (n : Nat) : (fpUnpack code ftz n).isInf = fpIsInf code n := by
  rcases fp_kinds code n with fin | inf | nan
  · obtain ⟨m, e, eq⟩ := exists_num shape ftz fin
    rw [eq, fpIsInf_of_finite fin]
    rfl
  · rw [fpUnpack_inf shape ftz inf, inf]
    rfl
  · rw [fpUnpack_nan shape ftz nan, fpIsInf_of_nan nan]
    rfl

theorem unpack_neg? (ftz : Bool) (n : Nat) : (fpUnpack code ftz n).neg? = signBit code n := by
  rcases fp_kinds code n with fin | inf | nan
  · obtain ⟨m, e, eq⟩ := exists_num shape ftz fin
    rw [eq]
    rfl
  · rw [fpUnpack_inf shape ftz inf]
    rfl
  · rw [fpUnpack_nan shape ftz nan]
    rfl

theorem unpack_snan (ftz : Bool) (n : Nat) : (fpUnpack code ftz n).snan = if fpSignals code n then Flags.nv else 0 := by
  rcases fp_kinds code n with fin | inf | nan
  · obtain ⟨m, e, eq⟩ := exists_num shape ftz fin
    rw [eq, fpSignals, fpIsNan_of_finite fin]
    rfl
  · rw [fpUnpack_inf shape ftz inf, fpSignals, fpIsNan_of_inf inf]
    rfl
  · rw [fpUnpack_nan shape ftz nan, fpSignals, nan]
    by_cases quiet : code = 5 <;> cases n.testBit ((ffmt code).m - 1) <;> simp [quiet, Fp.snan]

/-- A zero is one with and without flushing. -/
theorem unpack_zero (ftz : Bool) {n : Nat} (zero : n % 2 ^ ((ffmt code).w - 1) = 0) :
    ∃ e, fpUnpack code ftz n = .num (signBit code n) 0 e := by
  rw [fpUnpack_finite shape ftz (by omega), zero, Nat.zero_div, if_pos rfl, Nat.zero_mod]
  split
  · exact ⟨_, rfl⟩
  · exact ⟨_, rfl⟩

/-- Without flushing nothing else is a zero. -/
theorem unpack_isZero (n : Nat) : (fpUnpack code false n).isZero = decide (n % 2 ^ ((ffmt code).w - 1) = 0) := by
  have pos := Nat.two_pow_pos (ffmt code).m
  rcases fp_kinds code n with fin | inf | nan
  · have split := Nat.div_add_mod' (n % 2 ^ ((ffmt code).w - 1)) (2 ^ (ffmt code).m)
    rw [fpUnpack_finite shape false fin]
    split_ifs with low flush
    · cases flush
    · rw [low, Nat.zero_mul, Nat.zero_add] at split
      rw [split]
      cases n % 2 ^ ((ffmt code).w - 1) <;> rfl
    · have : n % 2 ^ ((ffmt code).w - 1) ≠ 0 := fun zero => low (by rw [zero, Nat.zero_div])
      simp only [Fp.isZero, this, decide_false]
      split
      · next h =>
        injection h
        omega
      · rfl
  · have := (of_decide_eq_true inf).2
    rw [fpUnpack_inf shape false inf, this]
    rfl
  · have := of_decide_eq_true nan
    rw [fpUnpack_nan shape false nan]
    exact (decide_eq_false (by omega)).symm

end

/-! ### NaN operands -/

/-- The result of an operation with a NaN among its operands: the canonical NaN with the first NaN's sign, NV where one is signalling. -/
def fpFirstNan (code : Nat) (l : List Nat) : Nat × Flags :=
  (fpNan code (((l.find? (fpIsNan code)).map (signBit code)).getD false), if l.any (fpSignals code) then 0b10000 else 0)

theorem nanOf_map (shape : FpShape code) (ftz : Bool) (l : List Nat) :
    nanOf code (l.map (fpUnpack code ftz)) = (fpFirstNan code l).1 := by
  have kind : Fp.isNan ∘ fpUnpack code ftz = fpIsNan code := funext (unpack_isNan shape ftz)
  rw [nanOf, List.find?_map, kind, fpFirstNan]
  cases l.find? (fpIsNan code) with
  | none => rfl
  | some n => simp [unpack_neg? shape]

theorem snans_map (shape : FpShape code) (ftz : Bool) (l : List Nat) :
    snans (l.map (fpUnpack code ftz)) = if l.any (fpSignals code) then Flags.nv else 0 := by
  have folded (fl : Flags) : (l.map (fpUnpack code ftz)).foldl (fun f o => f ||| o.snan) fl =
      fl ||| if l.any (fpSignals code) then Flags.nv else 0 := by
    induction l generalizing fl with
    | nil => simp
    | cons n l ih =>
      rw [List.map_cons, List.foldl_cons, ih, unpack_snan shape, List.any_cons]
      cases fpSignals code n <;> cases l.any (fpSignals code) <;> simp [BitVec.or_assoc]
  exact (folded 0).trans (BitVec.zero_or)

theorem fp2_nan (shape : FpShape code) (op : Fp → Fp → Exact) {a b : Nat} (nan : (fpIsNan code a || fpIsNan code b) = true) :
    fp2 code env op a b = fpFirstNan code [a, b] := by
  have bits := nanOf_map shape env.ftz [a, b]
  have flags := snans_map shape env.ftz [a, b]
  simp only [List.map_cons, List.map_nil] at bits flags
  simp only [fp2, unpack_isNan shape, nan, if_true, bits, flags]
  rfl

theorem fpFma_nan (shape : FpShape code) (unflushed : env.ftz = false) {a b c : Nat}
    (nan : (fpIsNan code a || fpIsNan code b || fpIsNan code c) = true)
    (valid1 : ¬ (fpIsInf code a = true ∧ b % 2 ^ ((ffmt code).w - 1) = 0))
    (valid2 : ¬ (fpIsInf code b = true ∧ a % 2 ^ ((ffmt code).w - 1) = 0)) (nx nz : Bool) :
    fpFma code env nx nz a b c = fpFirstNan code [a, b, c] := by
  have bits := nanOf_map shape env.ftz [a, b, c]
  have flags := snans_map shape env.ftz [a, b, c]
  simp only [List.map_cons, List.map_nil] at bits flags
  have valid : (fpIsInf code a && decide (b % 2 ^ ((ffmt code).w - 1) = 0) ||
      decide (a % 2 ^ ((ffmt code).w - 1) = 0) && fpIsInf code b) = false := Bool.eq_false_iff.mpr fun bad => by
    simp only [Bool.or_eq_true, Bool.and_eq_true, decide_eq_true_eq] at bad
    exact bad.elim valid1 fun bad => valid2 bad.symm
  rw [unflushed] at bits flags
  simp only [fpFma, unflushed, unpack_isNan shape, unpack_isInf shape, unpack_isZero shape, valid, nan, Bool.false_eq_true, if_false,
    if_true, bits, flags]
  rfl

/-! ### Infinities -/

theorem snan_of_not_nan (shape : FpShape code) (ftz : Bool) {n : Nat} (number : fpIsNan code n = false) :
    (fpUnpack code ftz n).snan = 0 := by
  rw [unpack_snan shape, fpSignals, number]
  rfl

theorem fpPack_inf (shape : FpShape code) (other : code ≠ 5) (s : Bool) :
    fpPack code env (.inf s) = (fpSign code s + (fpLargest code + 1), 0) := by
  rw [fpPack, if_neg other, fpInf_eq shape other]

section

variable (shape : FpShape code) {op : Fp → Fp → Exact} {a b c : Nat} (na : fpIsNan code a = false) (nb : fpIsNan code b = false)

include shape na nb

theorem fp2_invalid (invalid : op (fpUnpack code env.ftz a) (fpUnpack code env.ftz b) = none) :
    fp2 code env op a b = (fpNan code false, 0b10000) := by
  simp [fp2, unpack_isNan shape, na, nb, invalid, snans, snan_of_not_nan shape, Flags.nv]

theorem fp2_inf (other : code ≠ 5) {s sticky : Bool}
    (inf : op (fpUnpack code env.ftz a) (fpUnpack code env.ftz b) = some (.inf s, sticky, 0)) :
    fp2 code env op a b = (fpSign code s + (fpLargest code + 1), 0) := by
  simp [fp2, unpack_isNan shape, na, nb, inf, snans, snan_of_not_nan shape, fpPack_inf shape other]

/-- A fused form whose operands are no NaN and whose product is valid. -/
theorem fpFma_valid (nc : fpIsNan code c = false) (nx nz : Bool)
    (valid : ((fpUnpack code env.ftz a).isInf && (fpUnpack code env.ftz b).isZero ||
      (fpUnpack code env.ftz a).isZero && (fpUnpack code env.ftz b).isInf) = false) :
    fpFma code env nx nz a b c =
      (fmaExact env.rm ((fpUnpack code env.ftz a).withSign (signBit code a ^^ nx)) (fpUnpack code env.ftz b)
        ((fpUnpack code env.ftz c).withSign (signBit code c ^^ nz))).elim (fpNan code false, 0b10000) (fpPack code env) := by
  simp only [fpFma, valid, unpack_isNan shape, na, nb, nc, unpack_neg? shape, Bool.bne_eq_xor, snans, List.foldl, snan_of_not_nan shape]
  cases fmaExact env.rm ((fpUnpack code env.ftz a).withSign (signBit code a ^^ nx)) (fpUnpack code env.ftz b)
    ((fpUnpack code env.ftz c).withSign (signBit code c ^^ nz)) <;> simp [Flags.nv]

theorem fpFma_invalid (nc : fpIsNan code c = false) (nx nz : Bool)
    (invalid : ((fpUnpack code env.ftz a).isInf && (fpUnpack code env.ftz b).isZero ||
      (fpUnpack code env.ftz a).isZero && (fpUnpack code env.ftz b).isInf) = true) :
    fpFma code env nx nz a b c = (fpNan code false, 0b10000) := by
  have bits := nanOf_map shape env.ftz [c]
  simp only [List.map_cons, List.map_nil] at bits
  simp [fpFma, invalid, snans, snan_of_not_nan shape, na, nb, nc, bits, fpFirstNan, Flags.nv]

end

@[simp] theorem Fp.isZero_inf (s : Bool) : (Fp.inf s).isZero = false := rfl

@[simp] theorem Fp.neg?_inf (s : Bool) : (Fp.inf s).neg? = s := rfl

theorem mulExact_inf (s : Bool) {y : Fp} (nonzero : y.isZero = false) : mulExact (.inf s) y = some (.inf (s ^^ y.neg?), false, 0) := by
  simp [mulExact, nonzero, Bool.bne_eq_xor]

/-- An infinite product and an addend: opposed infinities are invalid (03 R80). -/
theorem fmaExact_inf (rm : Rm) (s : Bool) {y z : Fp} (nonzero : y.isZero = false) :
    fmaExact rm (.inf s) y z = if z.isInf = true ∧ z.neg? ≠ (s ^^ y.neg?) then none else some (.inf (s ^^ y.neg?)) := by
  cases z <;> simp [fmaExact, nonzero, Fp.isInf, Bool.bne_eq_xor]

section

variable (shape : FpShape code) {a b c : Nat} (ia : fpIsInf code a = true)

include shape ia

theorem fpMul_inf (unflushed : env.ftz = false) (nb : fpIsNan code b = false) (nonzero : b % 2 ^ ((ffmt code).w - 1) ≠ 0) :
    fpMul code env a b = (fpSign code (signBit code a ^^ signBit code b) + (fpLargest code + 1), 0) := by
  refine fp2_inf shape (fpIsNan_of_inf ia) nb (of_decide_eq_true ia).1 (sticky := false) ?_
  rw [fpUnpack_inf shape _ ia, mulExact_inf _ (by rw [unflushed, unpack_isZero shape]; exact decide_eq_false nonzero), unpack_neg? shape]

theorem fpFma_inf (unflushed : env.ftz = false) (nb : fpIsNan code b = false) (nonzero : b % 2 ^ ((ffmt code).w - 1) ≠ 0)
    (nc : fpIsNan code c = false) (nx nz : Bool) : fpFma code env nx nz a b c =
      if fpIsInf code c = true ∧ (signBit code c ^^ nz) ≠ (signBit code a ^^ signBit code b ^^ nx) then (fpNan code false, 0b10000)
      else (fpSign code (signBit code a ^^ signBit code b ^^ nx) + (fpLargest code + 1), 0) := by
  have zero : (fpUnpack code env.ftz b).isZero = false := by rw [unflushed, unpack_isZero shape]; exact decide_eq_false nonzero
  have signed (s : Bool) (z : Fp) : (z.withSign s).isInf = z.isInf ∧ (z.withSign s).neg? = s := by cases z <;> exact ⟨rfl, rfl⟩
  rw [fpFma_valid shape (fpIsNan_of_inf ia) nb nc nx nz (by rw [fpUnpack_inf shape _ ia, zero]; rfl), fpUnpack_inf shape _ ia,
    Fp.withSign, fmaExact_inf _ _ zero, (signed _ _).1, (signed _ _).2, unpack_isInf shape, unpack_neg? shape,
    Bool.xor_right_comm (signBit code a) nx (signBit code b)]
  split
  · rfl
  · exact fpPack_inf shape (of_decide_eq_true ia).1 _

/-- An infinite addend beside a finite product is the result. -/
theorem fpFma_inf_addend (fb : FpFinite code b) (fc : FpFinite code c) (nx nz : Bool) :
    fpFma code env nx nz b c a = (fpSign code (signBit code a ^^ nz) + (fpLargest code + 1), 0) := by
  obtain ⟨n1, e1, hb⟩ := exists_num shape env.ftz fb.2
  obtain ⟨n2, e2, hc⟩ := exists_num shape env.ftz fc.2
  rw [fpFma_valid shape (fpIsNan_of_finite fb.2) (fpIsNan_of_finite fc.2) (fpIsNan_of_inf ia) nx nz (by simp [hb, hc, Fp.isInf]), hb, hc,
    fpUnpack_inf shape _ ia]
  exact fpPack_inf shape (of_decide_eq_true ia).1 _

/-- A pattern of an infinity is what an infinite result delivers. -/
theorem fpSign_add_inf (below : a < 2 ^ (ffmt code).w) : (fpSign code (signBit code a) + (fpLargest code + 1), (0 : Flags)) = (a, 0) := by
  rw [← (of_decide_eq_true ia).2, fpSign_signBit_add shape below]

theorem fpAdd_inf_inf (below : a < 2 ^ (ffmt code).w) (ib : fpIsInf code b = true) :
    (signBit code a = signBit code b → fpAdd code env a b = (a, 0) ∧ fpSub code env a b = (fpNan code false, 0b10000)) ∧
    (signBit code a ≠ signBit code b → fpAdd code env a b = (fpNan code false, 0b10000) ∧ fpSub code env a b = (a, 0)) := by
  have na := fpIsNan_of_inf ia
  have nb := fpIsNan_of_inf ib
  have other := (of_decide_eq_true ia).1
  rw [← fpSign_add_inf shape ia below]
  refine ⟨fun same => ⟨fp2_inf shape na nb other (sticky := false) ?_, fp2_invalid shape na nb ?_⟩,
    fun opposed => ⟨fp2_invalid shape na nb ?_, fp2_inf shape na nb other (sticky := false) ?_⟩⟩
  · simp [fpUnpack_inf shape _ ia, fpUnpack_inf shape _ ib, addExact, same]
  · simp [fpUnpack_inf shape _ ia, fpUnpack_inf shape _ ib, addExact, same, Fp.withSign, Fp.neg?]
  · simp [fpUnpack_inf shape _ ia, fpUnpack_inf shape _ ib, addExact, opposed]
  · simp [fpUnpack_inf shape _ ia, fpUnpack_inf shape _ ib, addExact, Bool.eq_not.mpr opposed, Fp.withSign, Fp.neg?]

theorem fpDiv_inf_inf (ib : fpIsInf code b = true) : fpDiv code env a b = (fpNan code false, 0b10000) :=
  fp2_invalid shape (fpIsNan_of_inf ia) (fpIsNan_of_inf ib) (by rw [fpUnpack_inf shape _ ia, fpUnpack_inf shape _ ib, divExact])

/-- An infinity times zero is invalid, in a fused form too (03 R80, 08 R188). -/
theorem inf_mul_zero (zero : b % 2 ^ ((ffmt code).w - 1) = 0) :
    fpMul code env a b = (fpNan code false, 0b10000) ∧ fpMul code env b a = (fpNan code false, 0b10000) ∧
    (fpIsNan code c = false → ∀ nx nz, fpFma code env nx nz a b c = (fpNan code false, 0b10000)) := by
  have na := fpIsNan_of_inf ia
  have nb : fpIsNan code b = false := fpIsNan_of_finite (by omega)
  obtain ⟨e, hb⟩ := unpack_zero shape env.ftz zero
  have ha := fpUnpack_inf shape env.ftz ia
  refine ⟨fp2_invalid shape na nb ?_, fp2_invalid shape nb na ?_, fun nc nx nz => fpFma_invalid shape na nb nc nx nz ?_⟩
  · rw [ha, hb]
    rfl
  · rw [ha, hb]
    rfl
  · rw [ha, hb]
    rfl

/-- An infinity and a finite operand: the infinity is exact, a finite number over it a zero. -/
theorem inf_finite (below : a < 2 ^ (ffmt code).w) (fb : FpFinite code b) :
    fpAdd code env a b = (a, 0) ∧ fpAdd code env b a = (a, 0) ∧ fpSub code env a b = (a, 0) ∧
    fpDiv code env a b = (fpSign code (signBit code a ^^ signBit code b) + (fpLargest code + 1), 0) ∧
    fpDiv code env b a = (fpSign code (signBit code a ^^ signBit code b), 0) := by
  have na := fpIsNan_of_inf ia
  have nb := fpIsNan_of_finite fb.2
  have other := (of_decide_eq_true ia).1
  obtain ⟨n, e, hb⟩ := exists_num shape env.ftz fb.2
  have ha := fpUnpack_inf shape env.ftz ia
  rw [← fpSign_add_inf shape ia below]
  refine ⟨fp2_inf shape na nb other (sticky := false) ?_, fp2_inf shape nb na other (sticky := false) ?_,
    fp2_inf shape na nb other (sticky := false) ?_, fp2_inf shape na nb other (sticky := false) ?_, ?_⟩
  · rw [ha, hb]
    rfl
  · rw [ha, hb]
    rfl
  · rw [ha, hb]
    rfl
  · rw [ha, hb]
    rfl
  · rw [Bool.xor_comm]
    simp [fpDiv, fp2, ha, hb, divExact, Fp.isNan, Fp.neg?, snans, Fp.snan, fpRound_zero, Bool.bne_eq_xor]

end

end Sys2Proof.Machine
end

section
/-!
FLUSHING (03 R78, for O8): with FTZ an operation answers what it would answer for flushed operands without FTZ, its result flushed.
-/

namespace Sys2Proof.Machine

variable {code : Nat} {env : FpEnv}

/-- Subnormals and zeros of the formats that FTZ is for (03 R78). -/
def fpLow (code n : Nat) : Bool := decide (code ≠ 1 ∧ n % 2 ^ ((ffmt code).w - 1) < 2 ^ (ffmt code).m)

/-- A subnormal as zero of its sign. -/
def fpFlush (code n : Nat) : Nat := if fpLow code n then fpSign code (signBit code n) else n

/-- A result, flushed: one that flushing changes sets UF and NX. -/
def fpFlushed (code : Nat) (r : Nat × Flags) : Nat × Flags := if fpFlush code r.1 = r.1 then r else (fpFlush code r.1, 0b00011)

/-! ### Flushed patterns -/

section

variable {neg : Bool} {b : Nat} (below : b < 2 ^ ((ffmt code).w - 1))

include below

theorem fpFlush_normal (normal : 2 ^ (ffmt code).m ≤ b) : fpFlush code (fpSign code neg + b) = fpSign code neg + b := by
  have : fpLow code (fpSign code neg + b) = false := by
    simp only [fpLow, fpSign_add_mod below, decide_eq_false_iff_not]
    omega
  rw [fpFlush, this]
  rfl

theorem fpFlush_low (narrow : code ≠ 1) (low : b < 2 ^ (ffmt code).m) : fpFlush code (fpSign code neg + b) = fpSign code neg := by
  have : fpLow code (fpSign code neg + b) = true := by simp [fpLow, fpSign_add_mod below, narrow, low]
  rw [fpFlush, this, signBit_fpSign_add below]
  rfl

end

theorem fpFlush_double (n : Nat) : fpFlush 1 n = n := rfl

theorem fpFlush_zero (code : Nat) (neg : Bool) : fpFlush code (fpSign code neg) = fpSign code neg := by
  by_cases narrow : code = 1
  · rw [narrow, fpFlush_double]
  · simpa using fpFlush_low (neg := neg) (b := 0) (Nat.two_pow_pos _) narrow (Nat.two_pow_pos _)

theorem fpFlushed_of_eq {r : Nat × Flags} (h : fpFlush code r.1 = r.1) : fpFlushed code r = r := if_pos h

/-! ### Flushed results -/

/-- The environment with FTZ set or clear. -/
def FpEnv.flushing (env : FpEnv) (f : Bool) : FpEnv := { env with ftz := f }

theorem fpLargest_normal (shape : FpShape code) : 2 ^ (ffmt code).m ≤ fpLargest code :=
  (Nat.pow_le_pow_right two_pos (Nat.le_succ _)).trans shape.normal

theorem fpFlush_nan (shape : FpShape code) (neg : Bool) : fpFlush code (fpNan code neg) = fpNan code neg := by
  have split : fpNan code neg = fpSign code neg + fpNan code false := by simp [fpNan, fpSign]
  have := fpLargest_normal shape
  rw [split]
  exact fpFlush_normal shape.nan.2 (by have := shape.nan.1; omega)

theorem fpFlush_inf (shape : FpShape code) (neg : Bool) :
    fpFlush code (fpSign code neg + (fpLargest code + 1)) = fpSign code neg + (fpLargest code + 1) :=
  fpFlush_normal shape.fits (by have := fpLargest_normal shape; omega)

theorem fpFlush_overflowBits (shape : FpShape code) (neg : Bool) :
    fpFlush code (overflowBits code env neg) = overflowBits code env neg := by
  have largest : fpFlush code (fpSign code neg + fpLargest code) = fpSign code neg + fpLargest code :=
    fpFlush_normal (by have := shape.fits; omega) (fpLargest_normal shape)
  unfold overflowBits
  split_ifs with sat toZero e4m3
  · exact largest
  · exact largest
  · exact fpFlush_nan shape neg
  · rw [fpInf_eq shape e4m3]
    exact fpFlush_inf shape neg

/-- What a rounding delivers with FTZ is what it delivers without, flushed. -/
theorem fpDeliver_flushing (shape : FpShape code) (neg : Bool) (b : Nat) (inexact tiny : Bool) :
    fpDeliver code (env.flushing true) neg b inexact tiny = fpFlushed code (fpDeliver code (env.flushing false) neg b inexact tiny) := by
  rcases Nat.lt_or_ge (fpLargest code) b with above | most
  · rw [fpDeliver_overflow above, fpDeliver_overflow above, fpFlushed_of_eq]
    · rfl
    · exact fpFlush_overflowBits shape neg
  · have below : b < 2 ^ ((ffmt code).w - 1) := by have := shape.fits; omega
    rw [fpDeliver_finite (env := env.flushing false) rfl most]
    by_cases flushes : code ≠ 1 ∧ b ≠ 0 ∧ b < 2 ^ (ffmt code).m
    · obtain ⟨narrow, nonzero, low⟩ := flushes
      have changed : ¬ fpFlush code (fpSign code neg + b) = fpSign code neg + b := by rw [fpFlush_low below narrow low]; omega
      rw [fpFlushed, if_neg changed, fpFlush_low below narrow low]
      have flushed : ((env.flushing true).ftz && code != 1 && b != 0 && decide (b < 2 ^ (ffmt code).m)) = true := by
        simp [FpEnv.flushing, narrow, nonzero, low]
      simp only [fpDeliver, most.not_gt, flushed, if_false, if_true]
      rfl
    · have same : fpFlush code (fpSign code neg + b) = fpSign code neg + b := by
        by_cases narrow : code = 1
        · rw [narrow, fpFlush_double]
        by_cases zero : b = 0
        · rw [zero]
          exact fpFlush_zero code neg
        · exact fpFlush_normal below (not_lt.mp fun low => flushes ⟨narrow, zero, low⟩)
      have unflushed : ((env.flushing true).ftz && code != 1 && b != 0 && decide (b < 2 ^ (ffmt code).m)) = false := by
        simp only [FpEnv.flushing, Bool.true_and, ← Bool.not_eq_true, Bool.and_eq_true, bne_iff_ne, decide_eq_true_eq]
        tauto
      rw [fpFlushed_of_eq same]
      simp only [fpDeliver, most.not_gt, unflushed, if_false, Bool.false_eq_true]

theorem fpRound_flushing (shape : FpShape code) (neg : Bool) (n : Nat) (e : Int) (sticky : Bool) :
    fpRound code (env.flushing true) neg n e sticky = fpFlushed code (fpRound code (env.flushing false) neg n e sticky) := by
  by_cases zero : n = 0 ∧ sticky = false
  · obtain ⟨rfl, rfl⟩ := zero
    rw [fpRound_zero, fpRound_zero, fpFlushed_of_eq (fpFlush_zero code neg)]
  · have marked (h : n = 0) : sticky = true := Bool.eq_true_of_not_eq_false fun mark => zero ⟨h, mark⟩
    rw [fpRound_deliver marked, fpRound_deliver marked, fpDeliver_flushing shape]
    rfl

/-! ### Flushed operands -/

/-- A finite operand with FTZ is the flushed one without; a zero may stand at another exponent. -/
theorem unpack_flushing (shape : FpShape code) {a : Nat} (fin : FpFinite code a) : ∃ s n e e',
    fpUnpack code true a = .num s n e ∧ fpUnpack code false (fpFlush code a) = .num s n e' ∧ (n = 0 ∨ e = e') := by
  by_cases low : code ≠ 1 ∧ a % 2 ^ ((ffmt code).w - 1) < 2 ^ (ffmt code).m
  · have flushed : fpFlush code a = fpSign code (signBit code a) + 0 := if_pos (decide_eq_true low)
    have below := Nat.two_pow_pos ((ffmt code).w - 1)
    obtain ⟨e, zero⟩ := unpack_zero shape false (n := fpSign code (signBit code a) + 0) (fpSign_add_mod below)
    rw [signBit_fpSign_add below] at zero
    refine ⟨_, 0, 0, e, ?_, by rw [flushed, zero], .inl rfl⟩
    rw [fpUnpack_finite shape true fin.2, if_pos (Nat.div_eq_of_lt low.2), if_pos (by simp [low.1])]
  · have same : fpFlush code a = a := if_neg (by simpa [fpLow] using low)
    obtain ⟨n, e, eq⟩ := exists_num shape false fin.2
    refine ⟨_, n, e, e, ?_, by rw [same, eq], .inr rfl⟩
    rw [← eq, fpUnpack_finite shape true fin.2, fpUnpack_finite shape false fin.2]
    split
    · next zero =>
      have double : code = 1 := by
        by_contra narrow
        exact low ⟨narrow, (Nat.div_eq_zero_iff_lt (Nat.two_pow_pos _)).mp zero⟩
      rw [if_neg (by simp [double]), if_neg (by simp)]
    · rfl

/-- What an operation of two numbers answers for its exact result. -/
def fpAnswer (code : Nat) (env : FpEnv) : Exact → Nat × Flags
  | none => (fpNan code false, Flags.nv)
  | some (.num s n e, sticky, g) => ((fpRound code env s n e sticky).1, g ||| (fpRound code env s n e sticky).2)
  | some (r, _, g) => ((fpPack code env r).1, g ||| (fpPack code env r).2)

theorem fp2_answer {op : Fp → Fp → Exact} {a b : Nat} {s1 s2 : Bool} {n1 n2 : Nat} {e1 e2 : Int}
    (ha : fpUnpack code env.ftz a = .num s1 n1 e1) (hb : fpUnpack code env.ftz b = .num s2 n2 e2) :
    fp2 code env op a b = fpAnswer code env (op (.num s1 n1 e1) (.num s2 n2 e2)) := by
  simp only [fp2, ha, hb, Fp.isNan, snans, Fp.snan, List.foldl, Bool.or_self, Bool.false_eq_true, if_false]
  rcases op (.num s1 n1 e1) (.num s2 n2 e2) with _ | ⟨r, sticky, g⟩
  · rfl
  · cases r <;> simp [fpAnswer]

/-- Exact results that deliver the same: a zero may stand at another exponent. -/
inductive SameExact : Exact → Exact → Prop
  | invalid : SameExact none none
  | num (s : Bool) (n : Nat) (e e' : Int) (sticky : Bool) (h : n = 0 ∧ sticky = false ∨ e = e') :
      SameExact (some (.num s n e, sticky, 0)) (some (.num s n e', sticky, 0))
  | inf (s : Bool) (g : Flags) : SameExact (some (.inf s, false, g)) (some (.inf s, false, g))

theorem fpRound_same (shape : FpShape code) (s : Bool) {n : Nat} {e e' : Int} {sticky : Bool} (h : n = 0 ∧ sticky = false ∨ e = e') :
    fpRound code (env.flushing true) s n e sticky = fpFlushed code (fpRound code (env.flushing false) s n e' sticky) := by
  rw [fpRound_flushing shape]
  obtain ⟨rfl, rfl⟩ | rfl := h
  · rfl
  · rfl

theorem SameExact.answer (shape : FpShape code) {r r' : Exact} (h : SameExact r r') :
    fpAnswer code (env.flushing true) r = fpFlushed code (fpAnswer code (env.flushing false) r') := by
  cases h with
  | invalid => exact (fpFlushed_of_eq (fpFlush_nan shape false)).symm
  | num s n e e' sticky h =>
    simpa [fpAnswer] using fpRound_same shape s h
  | inf s g =>
    refine (fpFlushed_of_eq ?_).symm
    by_cases e4m3 : code = 5
    · subst e4m3
      exact fpFlush_overflowBits shape s
    · simp only [fpAnswer, fpPack_inf shape e4m3, fpFlush_inf shape]

/-- An operation for which a zero's exponent does not matter. -/
def KeepsZeros (op : Fp → Fp → Exact) : Prop :=
  ∀ (s1 s2 : Bool) (n1 n2 : Nat) (e1 e1' e2 e2' : Int), (n1 = 0 ∨ e1 = e1') → (n2 = 0 ∨ e2 = e2') →
    SameExact (op (.num s1 n1 e1) (.num s2 n2 e2)) (op (.num s1 n1 e1') (.num s2 n2 e2'))

theorem fp2_flushing (shape : FpShape code) {op : Fp → Fp → Exact} (keeps : KeepsZeros op) {a b : Nat} (fa : FpFinite code a)
    (fb : FpFinite code b) :
    fp2 code (env.flushing true) op a b = fpFlushed code (fp2 code (env.flushing false) op (fpFlush code a) (fpFlush code b)) := by
  obtain ⟨s1, n1, e1, e1', ha, ha', h1⟩ := unpack_flushing shape fa
  obtain ⟨s2, n2, e2, e2', hb, hb', h2⟩ := unpack_flushing shape fb
  rw [fp2_answer (env := env.flushing true) ha hb, fp2_answer (env := env.flushing false) ha' hb']
  exact (keeps s1 s2 n1 n2 e1 e1' e2 e2' h1 h2).answer shape

/-! ### The operations -/

theorem sumFinite_zero_right (rm : Rm) (s1 s2 : Bool) (n1 : Nat) (e1 e e' : Int) :
    sumFinite rm s1 n1 e1 s2 0 e = sumFinite rm s1 n1 e1 s2 0 e' := by
  by_cases zero : n1 = 0
  · simp [sumFinite, zero, onGrid]
  · simp [sumFinite, zero]

theorem sumFinite_same (rm : Rm) {s1 s2 : Bool} {n1 n2 : Nat} {e1 e1' e2 e2' : Int} (h1 : n1 = 0 ∨ e1 = e1')
    (h2 : n2 = 0 ∨ e2 = e2') : sumFinite rm s1 n1 e1 s2 n2 e2 = sumFinite rm s1 n1 e1' s2 n2 e2' := by
  obtain rfl | rfl := h1
  · obtain rfl | rfl := h2
    · exact sumFinite_zero_right ..
    · rfl
  · obtain rfl | rfl := h2
    · exact sumFinite_zero_right ..
    · rfl

theorem sumFinite_num (rm : Rm) (s1 s2 : Bool) (n1 n2 : Nat) (e1 e2 : Int) :
    ∃ s n e, sumFinite rm s1 n1 e1 s2 n2 e2 = .num s n e := by
  simp only [sumFinite]
  generalize onGrid s1 n1 _ _ + onGrid s2 n2 _ _ = V
  by_cases zero : V = 0
  · by_cases both : n1 = 0 ∧ n2 = 0 ∧ s1 = s2
    · exact ⟨_, _, _, (if_pos zero).trans (if_pos both)⟩
    · exact ⟨_, _, _, (if_pos zero).trans (if_neg both)⟩
  · exact ⟨_, _, _, if_neg zero⟩

theorem keepsZeros_addExact (rm : Rm) : KeepsZeros (addExact rm) := by
  intro s1 s2 n1 n2 e1 e1' e2 e2' h1 h2
  obtain ⟨s, n, e, eq⟩ := sumFinite_num rm s1 s2 n1 n2 e1 e2
  rw [addExact, addExact, ← sumFinite_same rm h1 h2, eq]
  exact .num s n e e false (.inr rfl)

theorem keepsZeros_subExact (rm : Rm) : KeepsZeros fun x y => addExact rm x (y.withSign (!y.neg?)) :=
  fun s1 s2 n1 n2 e1 e1' e2 e2' => keepsZeros_addExact rm s1 (!s2) n1 n2 e1 e1' e2 e2'

theorem mul_same {n1 n2 : Nat} {e1 e1' e2 e2' : Int} (h1 : n1 = 0 ∨ e1 = e1') (h2 : n2 = 0 ∨ e2 = e2') :
    n1 * n2 = 0 ∨ e1 + e2 = e1' + e2' := by
  obtain rfl | rfl := h1
  · exact .inl (Nat.zero_mul _)
  · exact h2.imp (by rintro rfl; exact Nat.mul_zero _) (by rintro rfl; rfl)

theorem keepsZeros_mulExact : KeepsZeros mulExact :=
  fun s1 s2 n1 n2 e1 e1' e2 e2' h1 h2 => .num (s1 != s2) (n1 * n2) (e1 + e2) (e1' + e2') false
    ((mul_same h1 h2).imp_left fun h => ⟨h, rfl⟩)

theorem keepsZeros_divExact : KeepsZeros divExact := by
  intro s1 s2 n1 n2 e1 e1' e2 e2' h1 h2
  by_cases zero2 : n2 = 0
  · by_cases zero1 : n1 = 0
    · simp only [divExact, zero1, zero2, if_true]
      exact .invalid
    · simp only [divExact, zero1, zero2, if_true, if_false]
      exact .inf _ _
  · obtain rfl := h2.resolve_left zero2
    simp only [divExact, zero2, if_false]
    exact .num _ _ _ _ _ (h1.imp (by rintro rfl; simp) (by rintro rfl; rfl))

theorem fpFma_flushing (shape : FpShape code) {a b c : Nat} (fa : FpFinite code a) (fb : FpFinite code b) (fc : FpFinite code c)
    (nx nz : Bool) : fpFma code (env.flushing true) nx nz a b c =
      fpFlushed code (fpFma code (env.flushing false) nx nz (fpFlush code a) (fpFlush code b) (fpFlush code c)) := by
  obtain ⟨s1, n1, e1, e1', ha, ha', h1⟩ := unpack_flushing shape fa
  obtain ⟨s2, n2, e2, e2', hb, hb', h2⟩ := unpack_flushing shape fb
  obtain ⟨s3, n3, e3, e3', hc, hc', h3⟩ := unpack_flushing shape fc
  rw [fpFma_num (env := env.flushing true) ha hb hc, fpFma_num (env := env.flushing false) ha' hb' hc',
    ← sumFinite_same _ (mul_same h1 h2) h3]
  obtain ⟨s, n, e, eq⟩ := sumFinite_num env.rm (s1 ^^ nx ^^ s2) (s3 ^^ nz) (n1 * n2) n3 (e1 + e2) e3
  change fpPack code (env.flushing true) (sumFinite env.rm _ _ _ _ _ _) = fpFlushed code (fpPack code _ (sumFinite env.rm _ _ _ _ _ _))
  rw [eq]
  exact fpRound_same shape s (.inr rfl)

end Sys2Proof.Machine
end

section
/-!
THE ARITHMETIC OF NUMBER FORMATS (O8), assembled from its parts.
-/

namespace Sys2Proof.Machine

theorem fpNan_patterns (code : Nat) : fpNan 1 false = 0x7FF8000000000000 ∧ fpNan 2 false = 0x7FC00000 ∧ fpNan 3 false = 0x7FC0 ∧
    fpNan 4 false = 0x7E00 ∧ fpNan 5 false = 0x7F ∧ fpNan 6 false = 0x7E ∧
    fpNan code true = fpNan code false + 2 ^ ((ffmt code).w - 1) :=
  ⟨by decide, by decide, by decide, by decide, by decide, by decide, by simp [fpNan, fpSign, Nat.add_comm]⟩

/-- Settles O8: finite operands by the one rounding of `fpRound_delivers`, the others by their kinds, FTZ by flushing operands and result. -/
theorem floatArithmetic : Obligations.FloatArithmetic := by
  refine ⟨?_, ?_, ?_⟩
  · -- finite operands (03 R76, R77, R79, R83)
    intro code env a b c least most unflushed fa fb fc
    have shape := fpShape_of_code least most
    obtain ⟨add, add0⟩ := fpAdd_finite shape unflushed fa fb
    obtain ⟨sub, sub0⟩ := fpSub_finite shape unflushed fa fb
    obtain ⟨mul, mul0⟩ := fpMul_finite shape unflushed fa fb
    obtain ⟨div, div0, invalid, infinite⟩ := fpDiv_finite shape unflushed fa fb
    exact ⟨add, add0, sub, sub0, mul, mul0, div, div0, invalid, infinite, fpFma_finite shape unflushed fa fb fc⟩
  · -- NaNs and infinities (03 R67, R69, R80)
    intro code env a b c least most
    have shape := fpShape_of_code least most
    refine ⟨fpNan_patterns code, fun nan => ⟨fp2_nan shape _ nan, fp2_nan shape _ nan, fp2_nan shape _ nan, fp2_nan shape _ nan⟩,
      fun unflushed nan valid1 valid2 nx nz => fpFma_nan shape unflushed nan valid1 valid2 nx nz,
      fun unflushed ia nb nonzero => ⟨fpMul_inf shape ia unflushed nb nonzero,
        fun nx nz nc => fpFma_inf shape ia unflushed nb nonzero nc nx nz⟩,
      fun fa fb ic nx nz => fpFma_inf_addend shape ic fa fb nx nz, fun below ia => ⟨?_, ?_, fpDiv_inf_inf shape ia, ?_, ?_⟩⟩
    · exact fun ib => (fpAdd_inf_inf shape ia below ib).1
    · exact fun ib => (fpAdd_inf_inf shape ia below ib).2
    · exact inf_mul_zero shape ia
    · exact inf_finite shape ia below
  · -- flushing (03 R78)
    intro code env a b c least most fa fb fc
    have shape := fpShape_of_code least most
    exact ⟨fp2_flushing shape (keepsZeros_addExact env.rm) fa fb, fp2_flushing shape (keepsZeros_subExact env.rm) fa fb,
      fp2_flushing shape keepsZeros_mulExact fa fb, fp2_flushing shape keepsZeros_divExact fa fb, fpFma_flushing shape fa fb fc⟩

end Sys2Proof.Machine
end

section
/-!
WHAT THE SYSTEM'S INSTRUCTIONS CHANGE LEAVES THE STRAND ISSUING (O39): translations that go, SWMANAGED copies that are written back and merged,
L1s that are emptied, and partitions that are split, merged and bumped.
-/

namespace Sys2Proof.Machine.State

variable {s : State} {u : Nat}

/-! ### Copies and the lines of COHERE (05 R139, R140) -/

theorem tlbDrop_issuing {p : TlbEntry → Bool} : (s.tlbDrop p).issuing u = s.issuing u := rfl

theorem tlbInv_issuing {ctx a extent} : (s.tlbInv ctx a extent).issuing u = s.issuing u := by
  unfold tlbInv
  split <;> exact tlbDrop_issuing

theorem swmDrop_issuing {core line} : (s.swmDrop core line).issuing u = s.issuing u := by
  unfold swmDrop
  split <;> rfl

theorem swmWriteBack_issuing {core line} : (s.swmWriteBack core line).issuing u = s.issuing u := by
  unfold swmWriteBack
  split
  · rfl
  · split
    · rfl
    · split
      · exact localError_issuing
      · exact written_issuing

theorem cohereLine_issuing {cores line} : (s.cohereLine cores line).issuing u = s.issuing u := by
  have dropped (t : State) : (cores.foldl (fun s c => s.swmDrop c line) t).issuing u = t.issuing u := foldl_issuing (fun _ _ => swmDrop_issuing) ..
  unfold cohereLine
  dsimp only
  split
  · exact (calm_invalidateAll ..).issuing.trans (dropped _)
  · exact written_issuing.trans ((calm_invalidateAll ..).issuing.trans (dropped _))

theorem errorEntry_issuing {uid ctx addr peer kind cause sid} : (s.errorEntry uid ctx addr peer kind cause sid).issuing u = s.issuing u := by
  grind [errorEntry, entry_issuing, putOff_issuing]

theorem conflictEntry_issuing {ctx va sid ls} : (s.conflictEntry ctx va sid ls).2.issuing u = s.issuing u := by
  refine errorEntry_issuing.trans ?_
  split <;> rfl

theorem cohereLines_issuing {cores ctx sid} {lines : List (Nat × Word)} {n : Nat} :
    (s.cohereLines cores ctx sid lines n).2.issuing u = s.issuing u := by
  induction lines generalizing s n with
  | nil => rfl
  | cons e lines ih =>
    have line : (s.cohereLine cores e.1).issuing u = s.issuing u := cohereLine_issuing
    have asked {t : State} : (t.sendBackInv e.1).issuing u = t.issuing u := (calm_sendBackInv ..).issuing
    unfold cohereLines
    dsimp only
    split
    · refine ih.trans ?_
      split
      · exact asked.trans line
      · exact line
    · refine ih.trans (conflictEntry_issuing.trans ?_)
      split
      · exact asked.trans line
      · exact line

/-! ### Partitions (22 R351, R352, R361) -/

theorem forgetCopy_issuing {core line} : (s.forgetCopy core line).issuing u = s.issuing u := by
  unfold forgetCopy
  dsimp only
  split
  · exact (calm_dropCopy ..).issuing
  · exact ((calm_dropCopy ..).trans ((calm_setDir ..).trans (calm_setAgent ..))).issuing

theorem emptyL1_issuing {core} : (s.emptyL1 core).issuing u = s.issuing u :=
  foldl_issuing (fun t e => by
    split
    · exact swmDrop_issuing.trans swmWriteBack_issuing
    · exact forgetCopy_issuing) ..

theorem emptyL1s_issuing {r : Rect} : ((s.coresIn r).foldl (fun s e => s.emptyL1 e.1) s).issuing u = s.issuing u :=
  foldl_issuing (fun _ _ => emptyL1_issuing) ..

theorem splitLeaf_issuing {l} : (s.splitLeaf l).issuing u = s.issuing u := emptyL1s_issuing

theorem mergeLeaves_issuing {p l m} : (s.mergeLeaves p l m).issuing u = s.issuing u := rfl

theorem bumpLeaf_issuing {l} : (s.bumpLeaf l).issuing u = s.issuing u := emptyL1s_issuing

end Sys2Proof.Machine.State
end

section
/-!
THE SYSTEM'S INSTRUCTIONS (O39). Each reads its operands, changes what the statement names, and ends in one of three ways, for each of which
there is one lemma: it replies, it replies with a result in D, or it waits.
-/

namespace Sys2Proof.Machine

variable {s s1 s2 s3 s4 r t : State} {u : Nat} {st : Strand} {f : Fields} {a b : Word} {n p : Rect} {l m : Leaf}

/-! ### How an instruction ends (05 R116) -/

theorem park_issuing {α : Type} (hs : t.issuing u = (some u, some true)) (x : Await) :
    (park x : Act α) t = (.error .done, t.leave u .parked x x.stall) := by
  obtain ⟨hc, st, found, out⟩ := State.issuing_iff.mp hs
  exact park_run hc found out x

theorem finish_issuing (hs : t.issuing u = (some u, some true)) (f : Fields) : finish f t = (.ok (), t.behind u f) := by
  obtain ⟨hc, st, found, out⟩ := State.issuing_iff.mp hs
  rw [finish_run hc found out, State.behind, State.editStrand_eq found]

theorem behind_issuing : (t.behind u f).issuing u = t.issuing u := State.editStrand_issuing fun _ => rfl

theorem giving_issuing {d : Nat} {v : Word} : (t.giving u f d v).issuing u = t.issuing u := State.editStrand_issuing fun _ => rfl

theorem finishReply_issuing (hs : t.issuing u = (some u, some true)) (f : Fields) :
    finishReply f t = (.error .done, (t.behind u f).replies u) :=
  (Act.bind_ok (finish_issuing hs f)).trans (park_issuing (behind_issuing.trans hs) .reply)

theorem writeX_finish (hs : t.issuing u = (some u, some true)) (d : Nat) (v : Word) :
    (do writeX d v; finish f : Act Unit) t = (.ok (), t.giving u f d v) := by
  obtain ⟨hc, st, found, out⟩ := State.issuing_iff.mp hs
  rw [Act.bind_ok (writeX_run hc found out d v), finish_run (s := t.setStrand u (st.gives d v)) hc (State.strand_set ..) out, State.set_set,
    State.giving, State.editStrand_eq found]

theorem writeX_finishReply (hs : t.issuing u = (some u, some true)) (d : Nat) (v : Word) :
    (do writeX d v; finishReply f : Act Unit) t = (.error .done, (t.giving u f d v).replies u) := by
  rw [finishReply, ← bind_assoc, Act.bind_ok (writeX_finish hs d v)]
  exact park_issuing (giving_issuing.trans hs) .reply

theorem replyStatus_issuing (hs : t.issuing u = (some u, some true)) (code : Nat) :
    replyStatus f code t = (.error .done, (t.giving u f f.d.toNat (statusWord code)).replies u) := writeX_finishReply hs ..

theorem editSelf_issuing (hs : t.issuing u = (some u, some true)) (g : Strand → Strand) : editSelf g t = (.ok (), t.editStrand u g) := by
  simp only [editSelf, (State.issuing_iff.mp hs).1]

theorem parkBehind_issuing (hs : t.issuing u = (some u, some true)) (x : Await) :
    parkBehind f x t = (.error .done, (t.editStrand u fun q => { q with behind := lenOf f }).leave u .parked x x.stall) := by
  have noted : (t.editStrand u fun q => { q with behind := lenOf f }).issuing u = t.issuing u := State.editStrand_issuing fun _ => rfl
  exact (Act.bind_ok (editSelf_issuing hs _)).trans (park_issuing (noted.trans hs) x)

/-! ### Translations of a region and of a completion word -/

theorem regionLines_quiet (n : Nat) (va : Word) : QuietAct (regionLines n va) := by
  induction n generalizing va with
  | zero => exact .pure _
  | succ n ih =>
    refine QuietAct.self.bind fun st => (stateS_quiet fun s => traffic_translate ..).bind fun x => ?_
    split
    · exact .ends (raise_ends _)
    · exact (ih _).bind fun _ => .pure _

theorem traffic_translateStore (s : State) (core ctx : Nat) (va : Word) : Traffic s (s.translateStore core ctx va).2 := by
  unfold State.translateStore
  dsimp only
  split
  · exact ((traffic_translate ..).trans (traffic_forget ..)).trans (traffic_translate ..)
  · exact traffic_translate ..

theorem castWord_quiet (va : Word) : QuietAct (castWord va) := by
  refine QuietAct.self.bind fun st => ?_
  refine .ite (.ends (Act.ends_first (trapWord_ends _ _))) ?_
  refine (stateS_quiet fun s => traffic_translateStore ..).bind fun x => ?_
  split
  · exact .ends (raise_ends _)
  · refine (QuietAct.readS _).bind fun p => ?_
    split
    · exact .ends (Act.ends_first (raise_ends _))
    · exact (heedAccess_quiet ..).bind fun _ => (editS_quiet fun s => traffic_markDirty ..).bind fun _ => .pure _

/-! ### STEP and TLBINV (04 R109, 13 R309) -/

theorem step_run (h : Issues s u st f) :
    execStep f s = .next (((s.editCtx st.ctx fun c => { c with steps := c.steps + 1 }).behind u f).replies u) := by
  refine Act.outcome_done ((issue_run h ..).trans ?_)
  rw [Act.bind_ok (self_run h.issuer h.strand), Act.bind_ok (editS_run ..)]
  exact finishReply_issuing (State.editCtx_issuing.trans h.issuing) f

section
variable (h : Issues s u st f) (ha : operandX false f.a f.ta s = (.ok a, s1)) (hb : operandB f s1 = (.ok b, r))
include h ha

theorem operandA_issuing : s1.issuing u = (some u, some true) := (operandX_quiet ..).issuing h.issuing ha

include hb

theorem operandsAB_issuing : r.issuing u = (some u, some true) := (operandB_quiet f).issuing (operandA_issuing h ha) hb

theorem tlbinv_run (small : b.toNat < 3) :
    let stale := r.staleAccesses st.ctx a b.toNat
    let dropped := r.tlbInv st.ctx a b.toNat
    execTlbinv f s = .next (if stale = [] then (dropped.behind u f).replies u
      else (dropped.editStrand u fun q => { q with behind := lenOf f }).leave u .parked (.accesses stale) 2) := by
  intro stale dropped
  have issuing : dropped.issuing u = (some u, some true) := State.tlbInv_issuing.trans (operandsAB_issuing h ha hb)
  refine Act.outcome_done ((issue_run h ..).trans ?_)
  rw [Act.bind_ok (self_run h.issuer h.strand), Act.bind_ok ha, Act.bind_ok hb]
  dsimp only
  rw [if_neg (by omega), Act.bind_ok (readS_run ..), Act.bind_ok (editS_run ..)]
  by_cases clear : stale = []
  · rw [if_neg (by simpa using clear), if_pos clear]
    exact finishReply_issuing issuing f
  · rw [if_pos (by simpa using clear), if_neg clear]
    exact Act.bind_error (parkBehind_issuing issuing _)

/-! ### COHERE (13 R310, 05 R140) -/

/-- COHERE of a region that its form and its launch allow, behind its checks: the translations are gone. -/
def cohereRest (f : Fields) (st : Strand) (a b : Word) : Act Unit :=
  if f.m == 1 then do
    writeX f.d.toNat 0
    finishReply f
  else do
    let lines ← regionLines (b.toNat / 4096) a
    heedHome (lines.map fun l => { line := l.1, slice := none, takes := none }) true
    let cores ← readS fun s => s.leafCores st.core
    let n ← stateS fun s => s.cohereLines cores st.ctx st.sid lines 0
    writeX f.d.toNat (BitVec.ofNat 64 n)
    finish f
    let held ← readS fun s => (lines.map (·.1)).filter s.backInv.contains
    if held.isEmpty then park .reply else park (.lines held)

section
variable (start : a.toNat % 4096 = 0) (whole : b.toNat % 4096 = 0) (sized : b ≠ 0) (declared : r.declaredRegion st a.toNat b.toNat = true)
include start whole sized declared

theorem cohere_eq : execCohere f s = (cohereRest f st a b).outcome (r.tlbInvRun st.ctx a.toNat b.toNat) := by
  refine Act.outcome_congr ((issue_run h ..).trans ?_)
  rw [Act.bind_ok (self_run h.issuer h.strand), Act.bind_ok ha, Act.bind_ok hb]
  dsimp only
  rw [if_neg (by simpa [start, whole] using sized), Act.bind_ok (readS_run ..), if_neg (by simp [declared]), Act.bind_ok (editS_run ..)]
  rfl

theorem cohere_checks (checks : f.m = 1) :
    execCohere f s = .next (((r.tlbInvRun st.ctx a.toNat b.toNat).giving u f f.d.toNat 0).replies u) := by
  refine (cohere_eq h ha hb start whole sized declared).trans (Act.outcome_done ?_)
  rw [cohereRest, if_pos (by simp [checks])]
  exact writeX_finishReply (State.tlbDrop_issuing.trans (operandsAB_issuing h ha hb)) ..

theorem cohere_writes (writes : f.m ≠ 1) {lines : List (Nat × Word)}
    (found : regionLines (b.toNat / 4096) a (r.tlbInvRun st.ctx a.toNat b.toNat) = (.ok lines, s2))
    (heard : heedHome (lines.map fun l => { line := l.1, slice := none, takes := none }) true s2 = (.ok (), s3)) :
    let done := s3.cohereLines (s3.leafCores st.core) st.ctx st.sid lines 0
    let held := (lines.map (·.1)).filter done.2.backInv.contains
    execCohere f s = .next ((done.2.giving u f f.d.toNat (BitVec.ofNat 64 done.1)).leave u .parked
      (if held = [] then .reply else .lines held) 2) := by
  intro done held
  have issuing : done.2.issuing u = (some u, some true) := State.cohereLines_issuing.trans <|
    (heedHome_quiet ..).issuing ((regionLines_quiet ..).issuing (State.tlbDrop_issuing.trans (operandsAB_issuing h ha hb)) found) heard
  have backInv : (done.2.giving u f f.d.toNat (BitVec.ofNat 64 done.1)).backInv = done.2.backInv := State.editStrand_backInv ..
  refine (cohere_eq h ha hb start whole sized declared).trans (Act.outcome_done ?_)
  rw [cohereRest, if_neg (by simpa using writes), Act.bind_ok found, Act.bind_ok heard, Act.bind_ok (readS_run ..), Act.bind_ok (stateS_run ..),
    ← bind_assoc, Act.bind_ok (writeX_finish issuing ..), Act.bind_ok (readS_run ..), backInv]
  by_cases clear : held = []
  · rw [if_pos (List.isEmpty_iff.mpr clear), if_pos clear]
    exact park_issuing (giving_issuing.trans issuing) .reply
  · rw [if_neg (mt List.isEmpty_iff.mp clear), if_neg clear]
    exact park_issuing (giving_issuing.trans issuing) (.lines held)

end
end

/-! ### PSPLIT, PMERGE, GENBUMP (22 R351, R352, R361) -/

section
variable (h : Issues s u st f) (ha : operandX false f.a f.ta s = (.ok a, s1)) (node : nodeOperand a s1 = (.ok n, s1))
  (may : needNode n s1 = (.ok (), s1))
include h ha node may

theorem psplit_eq : execPsplit f s = (match s1.leafAt n with
    | none => replyStatus f 1
    | some l =>
      if n.lw == 2 && n.lh == 2 then replyStatus f 2
      else if s1.cutCrossed n then park (.cut n.toNat)
      else do editS fun s => s.splitLeaf l; replyStatus f 0 : Act Unit).outcome s1 := by
  refine Act.outcome_congr ((issue_run h ..).trans ?_)
  rw [Act.bind_ok ha, Act.bind_ok node, Act.bind_ok may, Act.bind_ok (readS_run ..)]
  cases s1.leafAt n with
  | none => rfl
  | some l =>
    dsimp only
    split
    · rfl
    · rw [Act.bind_ok (readS_run ..)]
      split
      · have waits {α : Type} := park_issuing (α := α) (operandA_issuing h ha) (.cut n.toNat)
        exact (Act.bind_error waits).trans waits.symm
      · rfl

theorem psplit_noLeaf (absent : s1.leafAt n = none) :
    execPsplit f s = .next ((s1.giving u f f.d.toNat (statusWord 1)).replies u) := by
  rw [psplit_eq h ha node may, absent]
  exact Act.outcome_done (replyStatus_issuing (operandA_issuing h ha) 1)

theorem psplit_smallest (found : s1.leafAt n = some l) (small : n.lw = 2 ∧ n.lh = 2) :
    execPsplit f s = .next ((s1.giving u f f.d.toNat (statusWord 2)).replies u) := by
  rw [psplit_eq h ha node may, found]
  simp only [small, beq_self_eq_true, Bool.and_self, if_true]
  exact Act.outcome_done (replyStatus_issuing (operandA_issuing h ha) 2)

theorem psplit_waits (found : s1.leafAt n = some l) (large : ¬(n.lw = 2 ∧ n.lh = 2)) (crossed : s1.cutCrossed n = true) :
    execPsplit f s = .next (s1.leave u .parked (.cut n.toNat) 15) := by
  rw [psplit_eq h ha node may, found]
  dsimp only
  rw [if_neg (by simpa using large), if_pos crossed]
  exact Act.outcome_done (park_issuing (operandA_issuing h ha) (.cut n.toNat))

theorem psplit_splits (found : s1.leafAt n = some l) (large : ¬(n.lw = 2 ∧ n.lh = 2)) (free : s1.cutCrossed n = false) :
    execPsplit f s = .next (((s1.splitLeaf l).giving u f f.d.toNat (statusWord 0)).replies u) := by
  rw [psplit_eq h ha node may, found]
  dsimp only
  rw [if_neg (by simpa using large), if_neg (by simp [free])]
  exact Act.outcome_done (replyStatus_issuing (State.splitLeaf_issuing.trans (operandA_issuing h ha)) 0)

theorem pmerge_eq : execPmerge f s = (match n.parent, s1.leafAt n, n.buddy.bind s1.leafAt with
    | some p, some l, some m =>
      if s1.idle l.node && s1.idle m.node && l.gen == m.gen then do editS fun s => s.mergeLeaves p l m; replyStatus f 0
      else replyStatus f 3
    | _, _, _ => replyStatus f 1 : Act Unit).outcome s1 := by
  refine Act.outcome_congr ((issue_run h ..).trans ?_)
  exact (Act.bind_ok ha).trans ((Act.bind_ok node).trans ((Act.bind_ok may).trans (Act.bind_ok (readS_run ..))))

theorem pmerge_halves (parent : n.parent = some p) (found : s1.leafAt n = some l) (other : n.buddy.bind s1.leafAt = some m) :
    execPmerge f s = .next (if s1.idle l.node = true ∧ s1.idle m.node = true ∧ l.gen = m.gen
      then ((s1.mergeLeaves p l m).giving u f f.d.toNat (statusWord 0)).replies u
      else (s1.giving u f f.d.toNat (statusWord 3)).replies u) := by
  have issuing := operandA_issuing h ha
  have idle : (s1.idle l.node && s1.idle m.node && l.gen == m.gen) = true ↔ s1.idle l.node = true ∧ s1.idle m.node = true ∧ l.gen = m.gen := by
    simp [and_assoc]
  rw [pmerge_eq h ha node may, parent, found, other]
  simp only [idle]
  split
  · exact Act.outcome_done (replyStatus_issuing (State.mergeLeaves_issuing.trans issuing) 0)
  · exact Act.outcome_done (replyStatus_issuing issuing 3)

theorem pmerge_noHalves (missing : n.parent = none ∨ s1.leafAt n = none ∨ n.buddy.bind s1.leafAt = none) :
    execPmerge f s = .next ((s1.giving u f f.d.toNat (statusWord 1)).replies u) := by
  rw [pmerge_eq h ha node may]
  split
  · next parent found other => simp [parent, found, other] at missing
  · exact Act.outcome_done (replyStatus_issuing (operandA_issuing h ha) 1)

theorem genbump_run : execGenbump f s =
    let ls := s1.leaves.filter fun l => l.node.inside n
    .next (if ∀ l ∈ ls, s1.idle l.node = true ∧ l.ready = true then ((ls.foldl State.bumpLeaf s1).giving u f f.d.toNat (statusWord 0)).replies u
      else (s1.giving u f f.d.toNat (statusWord 3)).replies u) := by
  have issuing := operandA_issuing h ha
  refine Act.outcome_done ((issue_run h ..).trans ?_)
  rw [Act.bind_ok ha, Act.bind_ok node, Act.bind_ok may, Act.bind_ok (readS_run ..), Act.bind_ok (readS_run ..)]
  generalize s1.leaves.filter (fun l => l.node.inside n) = ls
  have busy : (ls.any fun l => !s1.idle l.node || !l.ready) = true ↔ ¬∀ l ∈ ls, s1.idle l.node = true ∧ l.ready = true := by
    simp only [List.any_eq_true, Bool.or_eq_true, Bool.not_eq_true', not_forall, not_and_or, Bool.not_eq_true, exists_prop]
  by_cases ready : ∀ l ∈ ls, s1.idle l.node = true ∧ l.ready = true
  · rw [if_pos ready, if_neg (fun any => busy.mp any ready), Act.bind_ok (editS_run ..)]
    exact replyStatus_issuing ((State.foldl_issuing (fun _ _ => State.bumpLeaf_issuing) ..).trans issuing) 0
  · rw [if_neg ready, if_pos (busy.mpr ready)]
    exact replyStatus_issuing issuing 3

end

/-! ### CAST (23 R375) -/

theorem cast_run {x y : Xlat} {lo hi : List (BitVec 8)} {pa : Nat} (h : Issues s u st f) (ha : operandX false f.a f.ta s = (.ok a, s1))
    (aligned : a.toNat % 64 = 0) (low : checkAccess (Check.load 64) a 64 s1 = (.ok x, s2)) (loLine : loadBytes x a 64 s2 = (.ok lo, s3))
    (high : checkAccess (Check.load 64) (a + 64) 64 s3 = (.ok y, s4)) (hiLine : loadBytes y (a + 64) 64 s4 = (.ok hi, r)) :
    let w := wordsFrom 16 (lo ++ hi)
    nodeOperand (w.getD 1 0) r = (.ok n, r) → needNode n r = (.ok (), r) → castWord (w.getD 11 0) r = (.ok pa, t) →
    execCast f s = .next (if 16 ≤ t.castQ.length then (t.givingRelease u f f.d.toNat (statusWord 3)).replies u
      else (({ t with castQ := t.castQ ++ [castCmdOf w st.ctx pa] } : State).givingRelease u f f.d.toNat 0).replies u) := by
  intro w node may site
  have issuing : t.issuing u = (some u, some true) := (castWord_quiet _).issuing ((loadBytes_calm ..).quietAct.issuing
    ((checkAccess_quiet ..).issuing ((loadBytes_calm ..).quietAct.issuing ((checkAccess_quiet ..).issuing
      ((operandX_quiet ..).issuing h.issuing ha) low) loLine) high) hiLine) site
  refine Act.outcome_done ((issue_run h ..).trans ?_)
  rw [Act.bind_ok (me_run h.issuer), Act.bind_ok (self_run h.issuer h.strand), Act.bind_ok ha]
  dsimp only
  rw [if_neg (by simp [aligned]), Act.bind_ok low, Act.bind_ok loLine, Act.bind_ok high, Act.bind_ok hiLine, Act.bind_ok node,
    Act.bind_ok may, Act.bind_ok site, Act.bind_ok (readS_run ..)]
  by_cases full : 16 ≤ t.castQ.length
  · rw [if_pos (by simpa using full), if_pos full]
    exact answer_run issuing ..
  · rw [if_neg (by simpa using full), if_neg full, Act.bind_ok (editS_run ..)]
    exact answer_run (show State.issuing { t with castQ := t.castQ ++ [castCmdOf w st.ctx pa] } u = _ from issuing) ..

/-- Settles O39: STEP, TLBINV, COHERE, PSPLIT, PMERGE, GENBUMP and CAST each end as their `_run` lemmas say, because nothing that they change
ends the strand that issues. -/
theorem systemInstructions : Obligations.SystemInstructions := by
  intro s s1 s2 s3 r u st f a b n p l m h ends
  refine ⟨step_run h, fun ha hb small => ?_, fun ha hb start whole sized declared => ⟨cohere_checks h ha hb start whole sized declared,
    fun writes lines => cohere_writes h ha hb start whole sized declared writes⟩, fun ha node may => ⟨psplit_noLeaf h ha node may,
    psplit_smallest h ha node may, fun found large => ⟨psplit_waits h ha node may found large, psplit_splits h ha node may found large⟩,
    fun parent found other => ?_, pmerge_noHalves h ha node may, ?_⟩, ?_⟩
  · -- TLBINV
    have run := tlbinv_run h ha hb small
    exact ⟨fun clear => run.trans (by rw [if_pos clear]), fun stale => run.trans (by rw [if_neg stale])⟩
  · -- PMERGE of two halves
    have run := pmerge_halves h ha node may parent found other
    exact ⟨fun idle => run.trans (by rw [if_pos idle]; rfl), fun busy => run.trans (by rw [if_neg busy]; rfl)⟩
  · -- GENBUMP
    have run := genbump_run h ha node may
    refine ⟨fun ready => run.trans (by dsimp only; rw [if_pos ready]; rfl), fun ⟨l, inside, busy⟩ => run.trans ?_⟩
    dsimp only
    rw [if_neg fun ready => ?_]
    · rfl
    · obtain ⟨idle, ready⟩ := ready l inside
      simp [idle, ready] at busy
  · -- CAST
    intro s4 x y lo hi pa ha aligned low loLine high hiLine w node may t site
    have run := cast_run h ha aligned low loLine high hiLine node may site
    exact ⟨fun full => run.trans (by rw [if_pos full]; rfl), fun room => run.trans (by rw [if_neg (by omega)])⟩

end Sys2Proof.Machine
end

section
/-!
THE WALK (O12): what an entry is at its level, and where the walk goes from it (04 R91 to R93).
-/

namespace Sys2Proof.Machine

variable {s : State} {cap : Nat} {e : Word} {level table index sz bits va : Nat} {next : Nat → Walk}

/-! ### Entries (04 R91) -/

/-- An entry that points to the next table. -/
def IsTable (e : Word) : Prop := e.getLsbD 0 = true ∧ field e 11 1 = 0 ∧ field e 63 52 = 0

/-- A leaf that is well formed at a level whose pages have size SZ, with that many bits of offset. -/
def IsLeaf (cap : Nat) (e : Word) (sz bits : Nat) : Prop :=
  e.getLsbD 0 = true ∧ e.getLsbD 3 = true ∧ field e 5 4 = sz ∧ e.getLsbD 6 = false ∧ field e 11 9 = 0 ∧
  field e 51 12 * 4096 % 2 ^ bits = 0 ∧ (e.getLsbD 61 = true → sz = 1) ∧
  (e.getLsbD 62 = true ∨ e.getLsbD 61 = true → zoneOf cap (field e 51 12 * 4096) = .hbm)

/-- An entry of the level-4 table that maps a page of 64 KiB, well formed or not (04 R92). -/
def IsBig (e : Word) : Prop := e.getLsbD 0 = true ∧ e.getLsbD 3 = true ∧ field e 5 4 = 1

theorem isTable_iff : IsTable e ↔ pteV e = true ∧ pointerOk e = true := by
  simp only [IsTable, pteV, pointerOk, Bool.and_eq_true, beq_iff_eq]

theorem isLeaf_iff (hb : pageBits sz = bits) : IsLeaf cap e sz bits ↔ pteV e = true ∧ pteL e = true ∧ leafOk cap e sz = true := by
  have rmap : (e.getLsbD 61 = true → sz = 1) ↔ (!pteRmap e || sz == 1) = true := by
    simp only [pteRmap, Bool.or_eq_true, Bool.not_eq_true', beq_iff_eq, imp_iff_not_or, Bool.not_eq_true]
  have side : (e.getLsbD 62 = true ∨ e.getLsbD 61 = true → zoneOf cap (field e 51 12 * 4096) = .hbm) ↔
      (!(pteMside e || pteRmap e) || zoneOf cap (pteFrame e) == .hbm) = true := by
    simp only [pteRmap, pteMside, pteFrame, Bool.or_eq_true, Bool.not_eq_true', Bool.or_eq_false_iff, beq_iff_eq, imp_iff_not_or, not_or,
      Bool.not_eq_true]
  simp only [IsLeaf, rmap, side, leafOk, pteV, pteL, pteSz, pteFrame, hb, Bool.and_eq_true, Bool.not_eq_true', beq_iff_eq]
  tauto

/-- What is wrong with an entry that has V and L and is no well-formed leaf is one of its fields. -/
theorem leafOk_of_not_isLeaf (hb : pageBits sz = bits) (v : pteV e = true) (l : pteL e = true) (noLeaf : ¬IsLeaf cap e sz bits) :
    leafOk cap e sz = false := by
  simpa only [isLeaf_iff hb, v, l, true_and, Bool.not_eq_true] using noLeaf

theorem isBig_iff : IsBig e ↔ (pteV e && pteL e && pteSz e == 1) = true := by
  simp only [IsBig, pteV, pteL, pteSz, Bool.and_eq_true, beq_iff_eq, and_assoc]

/-- An entry that points to a table has L clear. -/
theorem IsTable.pteL (h : IsTable e) : pteL e = false := by
  have bit : (field e 11 1).testBit 2 = false := by rw [h.2.1]; rfl
  rwa [field, bitsOf, Nat.testBit_mod_two_pow, Nat.testBit_shiftRight] at bit

theorem pteV_false (h : ¬e.getLsbD 0 = true) : pteV e = false := by simpa [pteV] using h

/-! ### Levels 2 and 3 -/

section
variable (he : s.word (table + 8 * index) = e)
include he

theorem walkMid_absent (absent : ¬e.getLsbD 0 = true) : s.walkMid level table index sz next = .fail level := by
  simp only [State.walkMid, he, pteV_false absent, Bool.not_false, if_true]

theorem walkMid_table (h : IsTable e) : s.walkMid level table index sz next = next (field e 51 12 * 4096) := by
  simp only [State.walkMid, he, isTable_iff.mp h, h.pteL, pteFrame, Bool.not_true, Bool.false_eq_true, if_false, if_true]

theorem walkMid_leaf (hb : pageBits sz = bits) (h : IsLeaf s.tierCap e sz bits) :
    s.walkMid level table index sz next = .leaf e (table + 8 * index) bits := by
  simp only [State.walkMid, he, (isLeaf_iff hb).mp h, hb, Bool.not_true, Bool.false_eq_true, if_false, if_true]

theorem walkMid_malformed (hb : pageBits sz = bits) (valid : e.getLsbD 0 = true) (noTable : ¬IsTable e) (noLeaf : ¬IsLeaf s.tierCap e sz bits) :
    s.walkMid level table index sz next = .fail (0x10 + level) := by
  have v : pteV e = true := valid
  have pointer : pointerOk e = false := by simpa [isTable_iff, v] using noTable
  simp only [State.walkMid, he, v, pointer, Bool.not_true, Bool.false_eq_true, if_false]
  split
  · next l => rw [leafOk_of_not_isLeaf hb v l noLeaf, if_neg Bool.false_ne_true]
  · rfl

end

/-! ### Level 4 -/

theorem bitsOf_big (va : Nat) : bitsOf va 20 12 / 16 * 16 = 16 * bitsOf va 20 16 := by
  simp only [bitsOf, Nat.shiftRight_eq_div_pow]
  omega

section
variable (h16 : s.word (table + 8 * (16 * bitsOf va 20 16)) = e)
include h16

theorem walk4_big (big : IsBig e) :
    s.walk4 table va = if leafOk s.tierCap e 1 then .leaf e (table + 8 * (16 * bitsOf va 20 16)) 16 else .fail 0x14 := by
  simp only [State.walk4, bitsOf_big, h16, isBig_iff.mp big, if_true]

theorem walk4_bigLeaf (h : IsLeaf s.tierCap e 1 16) : s.walk4 table va = .leaf e (table + 8 * (16 * bitsOf va 20 16)) 16 := by
  rw [walk4_big h16 ⟨h.1, h.2.1, h.2.2.1⟩, if_pos ((isLeaf_iff rfl).mp h).2.2]

theorem walk4_bigMalformed (big : IsBig e) (noLeaf : ¬IsLeaf s.tierCap e 1 16) : s.walk4 table va = .fail 0x14 := by
  rw [walk4_big h16 big, leafOk_of_not_isLeaf rfl big.1 big.2.1 noLeaf, if_neg Bool.false_ne_true]

variable {e4 : Word} (small : ¬IsBig e) (h4 : s.word (table + 8 * bitsOf va 20 12) = e4)
include small h4

theorem walk4_small : s.walk4 table va = if !pteV e4 then .fail 4
    else if pteL e4 && leafOk s.tierCap e4 0 then .leaf e4 (table + 8 * bitsOf va 20 12) 12 else .fail 0x14 := by
  simp only [State.walk4, bitsOf_big, h16, h4]
  rw [if_neg (mt isBig_iff.mpr small)]

theorem walk4_absent (absent : ¬e4.getLsbD 0 = true) : s.walk4 table va = .fail 4 := by
  rw [walk4_small h16 small h4, pteV_false absent]
  rfl

theorem walk4_leaf (h : IsLeaf s.tierCap e4 0 12) : s.walk4 table va = .leaf e4 (table + 8 * bitsOf va 20 12) 12 := by
  obtain ⟨v, l, ok⟩ := (isLeaf_iff rfl).mp h
  rw [walk4_small h16 small h4, v, l, ok]
  rfl

theorem walk4_malformed (valid : e4.getLsbD 0 = true) (noLeaf : ¬IsLeaf s.tierCap e4 0 12) : s.walk4 table va = .fail 0x14 := by
  have v : pteV e4 = true := valid
  rw [walk4_small h16 small h4, v, if_neg (by simp), if_neg]
  simpa [isLeaf_iff (show pageBits 0 = 12 from rfl), v] using noLeaf

end

/-! ### Level 1 -/

section
variable {root : Nat} (he : s.word (root / 2 ^ 21 * 2 ^ 21 + 8 * bitsOf va 56 39) = e)
include he

theorem walk_eq : s.walk root va = if !pteV e then .fail 1 else if pteL e || !pointerOk e then .fail 0x11
    else s.walkMid 2 (pteFrame e) (bitsOf va 38 30) 3 fun t3 => s.walkMid 3 t3 (bitsOf va 29 21) 2 fun t4 => s.walk4 t4 va := by
  subst he
  rfl

theorem walk_absent (absent : ¬e.getLsbD 0 = true) : s.walk root va = .fail 1 := by
  rw [walk_eq he, pteV_false absent]
  rfl

theorem walk_malformed (valid : e.getLsbD 0 = true) (noTable : ¬IsTable e) : s.walk root va = .fail 0x11 := by
  have v : pteV e = true := valid
  have pointer : pointerOk e = false := by simpa [isTable_iff, v] using noTable
  rw [walk_eq he, v, pointer, Bool.not_false, Bool.or_true]
  rfl

theorem walk_table (h : IsTable e) : s.walk root va = s.walkMid 2 (field e 51 12 * 4096) (bitsOf va 38 30) 3 fun t3 =>
    s.walkMid 3 t3 (bitsOf va 29 21) 2 fun t4 => s.walk4 t4 va := by
  obtain ⟨v, pointer⟩ := isTable_iff.mp h
  rw [walk_eq he, v, pointer, h.pteL]
  rfl

end

end Sys2Proof.Machine
end

section
/-!
TRANSLATION (O12): what a leaf allows, the leaf that a cache holds, and the one that a walk comes to and marks (04 R90 to R94).
-/

namespace Sys2Proof.Machine

variable {s r q : State} {core ctx : Nat} {c : Ctx} {va : Word} {acc : Acc} {a bits : Nat} {e : Word} {cap : Nat} {t : TlbEntry} {p : Problem}

theorem Traffic.tierCap (h : Traffic s r) : r.tierCap = s.tierCap := show r.bare.tierCap = s.bare.tierCap by rw [h.rest]

/-! ### Judging a leaf (04 R93) -/

/-- What translating an address by a leaf with so many bits of offset answers. -/
def JudgedBy (cap : Nat) (va : Word) (acc : Acc) (answer : Except Problem Xlat) (leaf : Word) (bits : Nat) : Prop :=
  let pa := field leaf 51 12 * 4096 / 2 ^ bits * 2 ^ bits + va.toNat % 2 ^ bits
  let writes : Prop := acc = .write ∨ acc = .zeroWrite
  let allowed : Prop := (writes → leaf.getLsbD 2 = true) ∧ (acc = .fetch → leaf.getLsbD 1 = true)
  (writes → leaf.getLsbD 2 = false → answer = .error (.trap 7 0x02 va)) ∧
  (acc = .fetch → leaf.getLsbD 1 = false → answer = .error (.trap 7 0x03 va)) ∧
  (allowed → zoneOf cap pa = .nowhere → answer = .error (.trap 7 0x04 va)) ∧
  (allowed → zoneOf cap pa ≠ .nowhere → answer = .ok
    { pa := pa, mig := leaf.getLsbD 63, mside := leaf.getLsbD 62, rmap := leaf.getLsbD 61
      swm := leaf.getLsbD 60 && !leaf.getLsbD 62, tid := field leaf 59 52 })

/-- The model's answer for an address whose leaf is found, step by step. -/
def judge (cap : Nat) (va : Word) (acc : Acc) (leaf : Word) (bits : Nat) : Except Problem Xlat :=
  let pa := pteFrame leaf / 2 ^ bits * 2 ^ bits + va.toNat % 2 ^ bits
  if acc.writes && !pteW leaf then .error (.trap Cause.protection 0x02 va)
  else if acc == .fetch && !pteX leaf then .error (.trap Cause.protection 0x03 va)
  else if zoneOf cap pa == .nowhere then .error (.trap Cause.protection 0x04 va)
  else .ok { pa := pa, mig := pteMig leaf, mside := pteMside leaf, rmap := pteRmap leaf, swm := pteSwm leaf && !pteMside leaf,
             tid := field leaf 59 52 }

theorem Acc.writes_iff : acc.writes = true ↔ acc = .write ∨ acc = .zeroWrite := by cases acc <;> simp [Acc.writes]

theorem judge_writeDenied (writes : acc = .write ∨ acc = .zeroWrite) (shut : pteW e = false) :
    judge cap va acc e bits = .error (.trap 7 0x02 va) := by
  rw [judge, Acc.writes_iff.mpr writes, shut]
  rfl

theorem judge_fetchDenied (fetch : acc = .fetch) (shut : pteX e = false) : judge cap va acc e bits = .error (.trap 7 0x03 va) := by
  rw [judge, fetch, shut]
  rfl

theorem judge_allowed (writes : acc = .write ∨ acc = .zeroWrite → pteW e = true) (fetch : acc = .fetch → pteX e = true) :
    let pa := pteFrame e / 2 ^ bits * 2 ^ bits + va.toNat % 2 ^ bits
    judge cap va acc e bits = if zoneOf cap pa = .nowhere then .error (.trap 7 0x04 va) else .ok
      { pa := pa, mig := pteMig e, mside := pteMside e, rmap := pteRmap e, swm := pteSwm e && !pteMside e, tid := field e 59 52 } := by
  have w : (acc.writes && !pteW e) = false := by
    cases h : acc.writes with
    | false => rfl
    | true => rw [writes (Acc.writes_iff.mp h)]; rfl
  have x : (acc == .fetch && !pteX e) = false := by
    by_cases h : acc = .fetch
    · rw [fetch h, Bool.not_true, Bool.and_false]
    · rw [beq_eq_false_iff_ne.mpr h, Bool.false_and]
  simp only [judge, w, x, Bool.false_eq_true, if_false, beq_iff_eq]

theorem judgedBy_judge : JudgedBy cap va acc (judge cap va acc e bits) e bits := by
  refine ⟨judge_writeDenied, judge_fetchDenied, fun allowed nowhere => ?_, fun allowed somewhere => ?_⟩
  · exact (judge_allowed allowed.1 allowed.2).trans (if_pos nowhere)
  · exact (judge_allowed allowed.1 allowed.2).trans (if_neg somewhere)

/-- Bit A is not judged. -/
theorem judge_mark : judge cap va acc (e ||| 0x100) bits = judge cap va acc e bits := by
  have bit (i : Nat) (other : BitVec.getLsbD (0x100 : Word) i = false) : (e ||| 0x100).getLsbD i = e.getLsbD i := by
    rw [BitVec.getLsbD_or, other, Bool.or_false]
  have part (hi lo : Nat) (other : field 0x100 hi lo = 0) : field (e ||| 0x100) hi lo = field e hi lo := by rw [field_or, other, Nat.or_zero]
  have w : pteW (e ||| 0x100) = pteW e := bit 2 rfl
  have x : pteX (e ||| 0x100) = pteX e := bit 1 rfl
  have frame : pteFrame (e ||| 0x100) = pteFrame e := congrArg (· * 4096) (part 51 12 rfl)
  have mig : pteMig (e ||| 0x100) = pteMig e := bit 63 rfl
  have mside : pteMside (e ||| 0x100) = pteMside e := bit 62 rfl
  have rmap : pteRmap (e ||| 0x100) = pteRmap e := bit 61 rfl
  have swm : pteSwm (e ||| 0x100) = pteSwm e := bit 60 rfl
  rw [judge, judge, w, x, frame, mig, mside, rmap, swm, part 59 52 rfl]

/-! ### Setting a bit of an entry (04 R94) -/

theorem or_bit8_of_set (set : pteA e = true) : e ||| 0x100 = e := by
  refine BitVec.eq_of_getLsbD_eq fun i _ => ?_
  rw [BitVec.getLsbD_or]
  by_cases here : i = 8
  · subst here
    rw [show e.getLsbD 8 = true from set, Bool.true_or]
  · have other : BitVec.getLsbD (0x100 : Word) i = false := by
      rw [show (0x100 : Word) = BitVec.twoPow 64 8 from rfl, BitVec.getLsbD_twoPow]
      simp [Ne.symm here]
    rw [other, Bool.or_false]

theorem orEntry_word_same (b : Word) (canonical : Memory.wf s.mem = true) (aligned : a % 8 = 0) : (s.orEntry a b).word a = s.word a ||| b := by
  have stored := State.load_store (s := s) a 8 (s.word a ||| b).toNat canonical
  have here : (s.orEntry a b).load a 8 = (s.store a 8 (s.word a ||| b).toNat).load a 8 := by
    simp only [State.orEntry, entryAt_of_aligned aligned]
    rfl
  rw [State.word, here, stored, Nat.mod_eq_of_lt (show _ < 256 ^ 8 from (s.word a ||| b).isLt), BitVec.ofNat_toNat, BitVec.setWidth_eq]

theorem tlbFill_word {id : TlbId} : (s.tlbFill core id t).word a = s.word a := rfl

/-! ### Finding the leaf (04 R92, R94) -/

theorem translate_high (high : 2 ^ 57 ≤ va.toNat) : s.translate core ctx va acc = (.error (.trap 7 0x01 va), s) := if_pos high

section
variable (low : va.toNat < 2 ^ 57) (there : s.ctx? ctx = some c) (still : s.unitMoving ctx va.toNat = none)
include low there still

theorem translate_failed (failed : s.findLeaf core ctx c.root.toNat va.toNat (acc.tlb none) (s.asker core none none) = (.error p, q)) :
    s.translate core ctx va acc = (.error p, q) := by
  simp only [State.translate, if_neg (Nat.not_le.mpr low), there, still, failed]

theorem translate_found (found : s.findLeaf core ctx c.root.toNat va.toNat (acc.tlb none) (s.asker core none none) = (.ok t, q)) :
    s.translate core ctx va acc = (judge q.tierCap va acc t.leaf t.bits, q) := by
  simp only [State.translate, if_neg (Nat.not_le.mpr low), there, still, found, judge]
  repeat' split
  all_goals rfl

end

theorem findLeaf_cached {id : TlbId} {root va : Nat} {who : Requester} (cached : s.tlbFind core ctx va id = some t) :
    ∃ q, s.findLeaf core ctx root va id who = (.ok t, q) ∧ q.tierCap = s.tierCap := by
  unfold State.tlbFind at cached
  unfold State.findLeaf
  split at cached
  · cases cached
    exact ⟨s, rfl, rfl⟩
  · rw [cached]
    exact ⟨_, rfl, rfl⟩

section
variable {id : TlbId} {root va : Nat} {who : Requester} (missed : s.tlbFind core ctx va id = none)
  (heard : s.askEach (s.walkAsks ctx root va who) = (none, r))
include missed

theorem findLeaf_missed : s.findLeaf core ctx root va id who = s.fillLeaf core ctx root va id who := by
  unfold State.tlbFind at missed
  unfold State.findLeaf
  split at missed
  · cases missed
  · rw [missed]

include heard

theorem findLeaf_fails {x : Nat} (fails : r.walk root va = .fail x) :
    s.findLeaf core ctx root va id who = (.error (.trap Cause.pageFault x (BitVec.ofNat 64 va)), r) := by
  simp only [findLeaf_missed missed, State.fillLeaf, heard, fails]

/-- A walk that comes to a leaf sets A in it, where it is clear, and caches it. -/
theorem findLeaf_reaches (canonical : Memory.wf r.mem = true) (reaches : r.walk root va = .leaf (r.word a) a bits) :
    ∃ t q, s.findLeaf core ctx root va id who = (.ok t, q) ∧ t.leaf = r.word a ||| 0x100 ∧ t.bits = bits ∧
      q.word a = r.word a ||| 0x100 ∧ q.tierCap = r.tierCap := by
  simp only [findLeaf_missed missed, State.fillLeaf, heard, reaches]
  by_cases set : pteA (r.word a) = true
  · have same : r.word a = r.word a ||| 0x100 := (or_bit8_of_set set).symm
    rw [if_pos set]
    exact ⟨_, _, rfl, same, rfl, tlbFill_word.trans same, rfl⟩
  · have marked := orEntry_word_same 0x100 canonical (walk_aligned reaches)
    rw [if_neg set]
    exact ⟨_, _, rfl, marked, rfl, tlbFill_word.trans marked, rfl⟩

end

theorem tierCap_of_heard {l : List (Requester × Nat × List Ask × Bool)} (heard : s.askEach l = (none, r)) : r.tierCap = s.tierCap := by
  have calm := calm_askEach l s
  rw [heard] at calm
  exact calm.toTraffic.tierCap

/-! ### A translation, from the cache or by a walk -/

section
variable (low : va.toNat < 2 ^ 57) (there : s.ctx? ctx = some c) (still : s.unitMoving ctx va.toNat = none)
include low there still

theorem translate_cached (cached : s.tlbFind core ctx va.toNat (acc.tlb none) = some t) :
    JudgedBy s.tierCap va acc (s.translate core ctx va acc).1 t.leaf t.bits := by
  obtain ⟨q, found, cap⟩ := findLeaf_cached cached
  rw [translate_found low there still found, cap]
  exact judgedBy_judge

variable (missed : s.tlbFind core ctx va.toNat (acc.tlb none) = none)
  (heard : s.askEach (s.walkAsks ctx c.root.toNat va.toNat (s.asker core none none)) = (none, r))
include missed heard

theorem translate_fails {x : Nat} (fails : r.walk c.root.toNat va.toNat = .fail x) :
    (s.translate core ctx va acc).1 = .error (.trap 6 x va) := by
  rw [translate_failed low there still (findLeaf_fails missed heard fails), BitVec.ofNat_toNat, BitVec.setWidth_eq]

theorem translate_reaches (canonical : Memory.wf r.mem = true) (reaches : r.walk c.root.toNat va.toNat = .leaf (r.word a) a bits) :
    JudgedBy s.tierCap va acc (s.translate core ctx va acc).1 (r.word a) bits ∧
      (s.translate core ctx va acc).2.word a = r.word a ||| 0x100 := by
  obtain ⟨t, q, found, leaf, rfl, marked, cap⟩ := findLeaf_reaches missed heard canonical reaches
  rw [translate_found low there still found, leaf, judge_mark, cap.trans (tierCap_of_heard heard)]
  exact ⟨judgedBy_judge, marked⟩

end

/-! ### The first write through an entry (04 R94) -/

theorem markDirty_marks (cached : s.tlbFind core ctx va.toNat .data = some t) (aligned : t.at_ % 8 = 0) (canonical : Memory.wf s.mem = true)
    (clean : pteD t.leaf = false) : (s.markDirty core ctx va).word t.at_ = s.word t.at_ ||| 0x80 := by
  have filled : s.markDirty core ctx va = (s.orEntry t.at_ 0x80).tlbFill core .data { t with leaf := t.leaf ||| 0x80 } := by
    simp only [State.markDirty, Acc.tlb, cached, clean, Bool.false_eq_true, if_false]
  rw [filled, tlbFill_word, orEntry_word_same 0x80 canonical aligned]

theorem markDirty_dirty (cached : s.tlbFind core ctx va.toNat .data = some t) (dirty : pteD t.leaf = true) : s.markDirty core ctx va = s := by
  simp only [State.markDirty, Acc.tlb, cached, dirty, if_true]

end Sys2Proof.Machine
end

section
/-!
THE CHECKS OF AN ACCESS (O12): alignment, translation, the region, the declared ranges, in their order, and how LD and ST take what fails
(10 R215, 04 R98, R99, 05 R134, 13 R300, 22 R354, R369).
-/

namespace Sys2Proof.Machine

variable {s r : State} {st : Strand} {c : Check} {va : Word} {n : Nat} {x : Xlat} {l : Launch} {p : Problem}

/-! ### The region of an address -/

/-- An address at which the access needs no more of its region than that it is mapped there. -/
def PlainPlace (cap : Nat) (c : Check) (pa : Nat) : Prop :=
  zoneOf cap pa = .hbm ∨ zoneOf cap pa = .tier ∧ c.bits = false ∨ zoneOf cap pa = .host ∧ c.bits = false ∧ c.atomic = false

/-- A write to a save slot of another context (22 R354). -/
def OthersSlot (st : Strand) (c : Check) (pa : Nat) : Prop :=
  c.write = true ∧ 0xFFFFF80000 ≤ pa ∧ pa < 0x10000000000 ∧ (pa - 0xFFFFF80000) / 128 ≠ st.ctx

/-- Bytes of the authority table of a strand of the context (13 R300). -/
def MeetsAuth (s : State) (st : Strand) (va : Word) (n : Nat) : Prop :=
  ∃ e ∈ s.strands, e.2.ctx = st.ctx ∧ e.2.authAddr.toNat < va.toNat + n ∧ va.toNat < e.2.authAddr.toNat + 512

theorem touchesAuth_iff : s.touchesAuth st.ctx va.toNat n = true ↔ MeetsAuth s st va n := by
  simp only [State.touchesAuth, MeetsAuth, List.any_eq_true, Bool.and_eq_true, beq_iff_eq, decide_eq_true_eq, and_assoc]

/-- What any region forbids (13 R300, 22 R354). -/
def State.ownProblem (s : State) (st : Strand) (c : Check) (x : Xlat) (va : Word) (n : Nat) : Option Problem :=
  if c.write && 0xFFFFF80000 ≤ x.pa && x.pa < 0x10000000000 && (x.pa - 0xFFFFF80000) / 128 != st.ctx then
    some (.trap Cause.protection 0x0A va)
  else if s.touchesAuth st.ctx va.toNat n then some (.trap Cause.protection 0x09 va)
  else none

theorem othersSlot_iff : (c.write && 0xFFFFF80000 ≤ x.pa && x.pa < 0x10000000000 && (x.pa - 0xFFFFF80000) / 128 != st.ctx) = true ↔
    OthersSlot st c x.pa := by
  simp only [OthersSlot, Bool.and_eq_true, decide_eq_true_eq, bne_iff_ne, and_assoc]

theorem ownProblem_slot (slot : OthersSlot st c x.pa) : s.ownProblem st c x va n = some (.trap 7 0x0A va) := if_pos (othersSlot_iff.mpr slot)

section
variable (noSlot : ¬OthersSlot st c x.pa)
include noSlot

theorem ownProblem_auth (auth : MeetsAuth s st va n) : s.ownProblem st c x va n = some (.trap 7 0x09 va) :=
  (if_neg (mt othersSlot_iff.mp noSlot)).trans (if_pos (touchesAuth_iff.mpr auth))

theorem ownProblem_none (noAuth : ¬MeetsAuth s st va n) : s.ownProblem st c x va n = none :=
  (if_neg (mt othersSlot_iff.mp noSlot)).trans (if_neg (mt touchesAuth_iff.mp noAuth))

end

theorem regionProblem_plain (plain : PlainPlace s.tierCap c x.pa) : s.regionProblem st c x va n = s.ownProblem st c x va n := by
  unfold State.regionProblem
  rcases plain with z | ⟨z, bits⟩ | ⟨z, bits, atomic⟩
  · rw [z]
    rfl
  · rw [z, bits]
    rfl
  · rw [z, bits, atomic]
    rfl

theorem regionProblem_tierBits (z : zoneOf s.tierCap x.pa = .tier) (bits : c.bits = true) (kept : s.demotedUnit x.pa = none) :
    s.regionProblem st c x va n = some (.trap 7 0x06 va) := by
  simp only [State.regionProblem, z, bits, kept, if_true]

theorem regionProblem_hostBits (z : zoneOf s.tierCap x.pa = .host) (bits : c.bits = true) :
    s.regionProblem st c x va n = some (.trap 7 0x06 va) := by
  simp only [State.regionProblem, z, bits, if_true]

theorem regionProblem_hostAtomic (z : zoneOf s.tierCap x.pa = .host) (bits : c.bits = false) (atomic : c.atomic = true) :
    s.regionProblem st c x va n = some (.trap 7 0x08 va) := by
  simp only [State.regionProblem, z, bits, atomic, if_true, Bool.false_eq_true, if_false]

section
variable {k : Nat} (z : zoneOf s.tierCap x.pa = .scratch k) (there : s.launch? st.lrec = some l)
include z

theorem isScratch_scratch : s.isScratch x.pa = true := by simp only [State.isScratch, z]

/-- No save slot lies in a scratchpad. -/
theorem not_othersSlot_scratch : ¬OthersSlot st c x.pa := by
  rintro ⟨_, _, below, _⟩
  rw [zoneOf, if_pos below] at z
  cases z

include there

theorem foreignScratch_iff : s.foreignScratch st.core (some st.lrec) x.pa = true ↔
    l.rect.hasCore k = false ∨ s.leafIdOf k ≠ s.leafIdOf st.core := by
  have mine : Sparse.get s.launches st.lrec = some l := there
  simp only [State.foreignScratch, z, Option.map_some, mine, Bool.not_eq_true', Bool.and_eq_false_iff, beq_eq_false_iff_ne]

theorem regionProblem_foreign (foreign : l.rect.hasCore k = false ∨ s.leafIdOf k ≠ s.leafIdOf st.core) :
    s.regionProblem st c x va n = some (.trap 7 0x05 va) := by
  simp only [State.regionProblem, z, (foreignScratch_iff z there).mpr foreign, if_true]

theorem regionProblem_near (inside : l.rect.hasCore k = true) (near : s.leafIdOf k = s.leafIdOf st.core) :
    s.regionProblem st c x va n = s.ownProblem st c x va n := by
  have home : s.foreignScratch st.core (some st.lrec) x.pa = false := by
    rw [← Bool.not_eq_true, foreignScratch_iff z there]
    simp [inside, near]
  unfold State.regionProblem
  rw [z, home]
  rfl

end

/-! ### Declared ranges (02 R40, R49, 05 R134) -/

/-- A block that holds a byte of the access (02 R40). -/
def TouchesBlock (va : Word) (n b : Nat) : Prop := va.toNat / 256 ≤ b ∧ b ≤ (va.toNat + n - 1) / 256

/-- A block that an entry of the launch covers, for a write one with W (05 R134). -/
def CoveredBlock (l : Launch) (write : Bool) (b : Nat) : Prop :=
  ∃ g ∈ l.ranges, g.len ≠ 0 ∧ g.base / 256 ≤ b ∧ b ≤ (g.base + g.len - 1) / 256 ∧ (write = true → g.write = true)

theorem mem_blocksOf (sized : 0 < n) {b : Nat} : b ∈ blocksOf va.toNat n ↔ TouchesBlock va n b := by
  have ordered : va.toNat / 256 ≤ (va.toNat + n - 1) / 256 := Nat.div_le_div_right (by omega)
  simp only [blocksOf, if_neg (Nat.pos_iff_ne_zero.mp sized), TouchesBlock, List.mem_map, List.mem_range]
  constructor
  · rintro ⟨i, lt, rfl⟩
    omega
  · rintro ⟨low, high⟩
    exact ⟨b - va.toNat / 256, by omega, by omega⟩

theorem covered_iff {write : Bool} {b : Nat} : (l.ranges.any fun g => g.covers b && (g.write || !write)) = true ↔ CoveredBlock l write b := by
  have allowed (g : Range) : (g.write = true ∨ write = false) ↔ (write = true → g.write = true) := by
    cases write <;> simp
  simp only [CoveredBlock, Range.covers, List.any_eq_true, Bool.and_eq_true, Bool.or_eq_true, Bool.not_eq_true', bne_iff_ne, decide_eq_true_eq,
    and_assoc, allowed]

theorem inArea_empty (base va n : Nat) : inArea base 0 va n = false := by
  simp only [inArea, Bool.and_eq_false_iff, decide_eq_false_iff_not]
  omega

/-- Without a stack window and a spill area, the exempt areas of a strand, an access is declared where each of its blocks is covered and no
gambit withholds it. -/
theorem declared_iff {write : Bool} (there : s.launch? st.lrec = some l) (sized : 0 < n) (noWindow : st.swLen = 0)
    (noArea : ∀ k, s.ctx? st.ctx = some k → field k.dsb 15 0 = 0) : s.declared st va.toNat n write = true ↔
      ∀ b, TouchesBlock va n b → CoveredBlock l write b ∧ s.gambitHolds st l b = false := by
  have area : field (((s.ctx? st.ctx).map (·.dsb)).getD 0) 15 0 = 0 := by
    cases k : s.ctx? st.ctx with
    | none => rfl
    | some k' => exact noArea k' k
  have window : st.swLen.toNat = 0 := by rw [noWindow]; rfl
  simp only [State.declared, there, area, window, Nat.zero_mul, inArea_empty, Bool.or_self, Bool.false_or, List.all_eq_true,
    mem_blocksOf sized, Bool.and_eq_true, covered_iff, Bool.not_eq_true']

/-! ### The checks together (10 R215) -/

theorem accessProblem_misaligned (bad : va.toNat % c.align ≠ 0) : s.accessProblem st c va n = (.error (.inr 12), s) :=
  if_pos (by simpa using bad)

section
variable (aligned : va.toNat % c.align = 0)
include aligned

theorem accessProblem_untranslated (failed : s.translate st.core st.ctx va c.acc = (.error p, r)) :
    s.accessProblem st c va n = (.error (.inl p), r) := by
  simp [State.accessProblem, aligned, State.placeProblem, failed]

variable (found : s.translate st.core st.ctx va c.acc = (.ok x, r))
include found

theorem accessProblem_region (bad : r.regionProblem st c x va n = some p) : s.accessProblem st c va n = (.error (.inl p), r) := by
  simp [State.accessProblem, aligned, State.placeProblem, found, bad]

variable (fine : r.regionProblem st c x va n = none)
include fine

theorem accessProblem_undeclared (outside : r.isScratch x.pa = false) (bad : r.declared st va.toNat n c.write = false) :
    s.accessProblem st c va n = (.error (.inr 8), r) := by
  simp [State.accessProblem, aligned, State.placeProblem, found, fine, outside, bad]

theorem accessProblem_passes (fresh : c.acc = .write → r.staleEntry st.core st.ctx va none = false)
    (declared : r.isScratch x.pa = false → r.declared st va.toNat n c.write = true) : s.accessProblem st c va n = (.ok x, r) := by
  have here : (!r.isScratch x.pa && !r.declared st va.toNat n c.write) = false := by
    cases scratch : r.isScratch x.pa with
    | true => rfl
    | false => rw [declared scratch]; rfl
  have walked : (c.acc == .write && r.staleEntry st.core st.ctx va none) = false := by
    by_cases w : c.acc = .write
    · rw [fresh w, Bool.and_false]
    · rw [beq_eq_false_iff_ne.mpr w, Bool.false_and]
  have placed : s.placeProblem st c va n = (.ok x, r) := by
    simp only [State.placeProblem, found, fine, here, Bool.false_eq_true, if_false]
  simp only [State.accessProblem, placed, walked, Bool.false_eq_true, if_false]
  exact if_neg (by simpa using aligned)

end

theorem isScratch_plain (plain : PlainPlace s.tierCap c x.pa) : s.isScratch x.pa = false := by
  rcases plain with z | ⟨z, _⟩ | ⟨z, _⟩ <;> simp only [State.isScratch, z]

/-! ### LD and ST of what fails (10 R215) -/

section
variable {u cause extra : Nat} {q : Strand} {a : Word}

theorem trapAt_run {α : Type} (hc : s.cur = some u) (hs : s.strand? u = some q) (out : q.region = none) (cause extra : Nat) (a : Word) :
    (trapAt cause extra a : Act α) s = (.error .done, s.takeTrap u cause extra q.pc a) := by
  rw [trapAt, Act.bind_ok (me_run hc), Act.bind_ok (thisPc_run hc hs out), Act.bind_ok (editS_run ..)]
  rfl

theorem trapWord_run {α : Type} (hc : s.cur = some u) (hs : s.strand? u = some q) (out : q.region = none) (cause : Nat) (a : Word) :
    (trapWord cause a : Act α) s = (.error .done, ({ s with free := s.free + 1 } : State).takeTrap u cause
      ((Config.freeWord s.free).toNat % 2 ^ 32) q.pc a) := by
  rw [trapWord, freeValue, Act.bind_ok (stateS_run ..)]
  exact trapAt_run (s := { s with free := s.free + 1 }) hc hs out ..

variable (hc : s.cur = some u) (hs : s.strand? u = some q) (out : q.region = none)
include hc hs out

theorem checkAccess_traps (bad : s.accessProblem q c va n = (.error (.inl (.trap cause extra a)), r)) :
    checkAccess c va n s = (.error .done, r.takeTrap u cause extra q.pc a) := by
  have t := traffic_accessProblem s q c va n
  rw [bad] at t
  rw [checkAccess, Act.bind_ok (self_run hc hs)]
  refine Act.bind_error ?_
  rw [checkPlace, Act.bind_ok (self_run hc hs), Act.bind_ok (stateS_run ..), bad]
  exact trapAt_run (t.cur.trans hc) ((t.strand u).trans hs) out ..

theorem checkAccess_trapsFree (bad : s.accessProblem q c va n = (.error (.inr cause), r)) :
    checkAccess c va n s = (.error .done, ({ r with free := r.free + 1 } : State).takeTrap u cause
      ((Config.freeWord r.free).toNat % 2 ^ 32) q.pc va) := by
  have t := traffic_accessProblem s q c va n
  rw [bad] at t
  rw [checkAccess, Act.bind_ok (self_run hc hs)]
  refine Act.bind_error ?_
  rw [checkPlace, Act.bind_ok (self_run hc hs), Act.bind_ok (stateS_run ..), bad]
  exact trapWord_run (t.cur.trans hc) ((t.strand u).trans hs) out ..

end

section
variable {s1 s2 : State} {u : Nat} {q : Strand} {f : Fields} {v : Word}

/-- A quiet step leaves the strand issuing at its pc. -/
theorem Quiet.at_pc (h : Issues s u st f) (quiet : Quiet s u st s1) (there : s1.strand? u = some q) :
    s1.cur = some u ∧ q.region = none ∧ q.pc = st.pc := by
  obtain ⟨k, slowed⟩ := quiet.strand h.strand
  obtain rfl := Option.some.inj (there.symm.trans slowed)
  exact ⟨quiet.cur.trans h.issuer, by simpa using h.outside, Strand.slowed_pc ..⟩

theorem readX_address_quiet (h : Issues s u st f) (full : readX f.d.toNat s = (.ok v, s1))
    (addr : address f (2 ^ (f.m.toNat % 4)) s1 = (.ok va, s2)) : Quiet s u st s2 := by
  have read := (readX_quiet _).quiet h.issuer h.strand h.outside full
  obtain ⟨k, slowed⟩ := read.strand h.strand
  have i := h.quiet read slowed
  exact read.trans h.strand slowed ((address_quiet ..).quiet i.issuer i.strand i.outside addr)

/-- LD ends as its check does. -/
theorem ld_stopped (h : Issues s u st f) {t : State} (addr : address f (2 ^ (f.m.toNat % 4)) s = (.ok va, s1))
    (stopped : checkAccess (Check.load (2 ^ (f.m.toNat % 4))) va (2 ^ (f.m.toNat % 4)) s1 = (.error .done, t)) : execLd f s = .next t := by
  refine Act.outcome_done ((issue_run h ..).trans ?_)
  exact (Act.bind_ok addr).trans (Act.bind_error stopped)

/-- ST ends as its check does. -/
theorem st_stopped (h : Issues s u st f) {t : State} (full : readX f.d.toNat s = (.ok v, s1))
    (addr : address f (2 ^ (f.m.toNat % 4)) s1 = (.ok va, s2))
    (stopped : checkAccess (Check.store (2 ^ (f.m.toNat % 4))) va (2 ^ (f.m.toNat % 4)) s2 = (.error .done, t)) : execSt f s = .next t := by
  refine Act.outcome_done ((issue_run h ..).trans ?_)
  exact (Act.bind_ok full).trans ((Act.bind_ok addr).trans (Act.bind_error stopped))

end

/-- Settles O12: the walk goes by what each entry is (`walk_absent` to `walk4_malformed`), a leaf is judged alike from a cache and from a walk
(`judgedBy_judge`), and an access is checked in the order of `accessProblem`, whose answer LD and ST take. -/
theorem translationAndProtection : Obligations.TranslationAndProtection := by
  refine ⟨fun s r core ctx c va acc => ⟨fun high => congrArg Prod.fst (translate_high high), fun low there still =>
    ⟨fun t => translate_cached low there still, fun missed heard canonical => ?_⟩, fun t cached aligned canonical =>
    ⟨markDirty_marks cached aligned canonical, markDirty_dirty cached⟩⟩, ?_, ?_⟩
  · -- the walk, level by level
    have cap := tierCap_of_heard heard
    have fails {x : Nat} := translate_fails (acc := acc) low there still missed heard (x := x)
    have reaches {a bits : Nat} := translate_reaches (acc := acc) low there still missed heard (a := a) (bits := bits) canonical
    intro _ _ _ _ leaf
    have isLeaf {e : Word} {sz bits : Nat} : leaf e sz bits ↔ IsLeaf r.tierCap e sz bits := by rw [cap]; rfl
    refine ⟨fun absent => fails (walk_absent rfl absent), fun valid bad => fails (walk_malformed rfl valid bad), fun table1 => ?_⟩
    have to2 := walk_table (s := r) (va := va.toNat) rfl table1
    refine ⟨fun absent => fails (to2.trans (walkMid_absent rfl absent)),
      fun valid noTable noLeaf => fails (to2.trans (walkMid_malformed rfl rfl valid noTable (mt isLeaf.mpr noLeaf))),
      fun here => reaches (to2.trans (walkMid_leaf rfl rfl (isLeaf.mp here))), fun table2 => ?_⟩
    have to3 := to2.trans (walkMid_table rfl table2)
    refine ⟨fun absent => fails (to3.trans (walkMid_absent rfl absent)),
      fun valid noTable noLeaf => fails (to3.trans (walkMid_malformed rfl rfl valid noTable (mt isLeaf.mpr noLeaf))),
      fun here => reaches (to3.trans (walkMid_leaf rfl rfl (isLeaf.mp here))), fun table3 => ?_⟩
    have to4 := to3.trans (walkMid_table rfl table3)
    exact ⟨fun big => ⟨fun here => reaches (to4.trans (walk4_bigLeaf rfl (isLeaf.mp here))),
        fun noLeaf => fails (to4.trans (walk4_bigMalformed rfl big (mt isLeaf.mpr noLeaf)))⟩,
      fun small => ⟨fun absent => fails (to4.trans (walk4_absent rfl small rfl absent)),
        fun valid noLeaf => fails (to4.trans (walk4_malformed rfl small rfl valid (mt isLeaf.mpr noLeaf))),
        fun here => reaches (to4.trans (walk4_leaf rfl small rfl (isLeaf.mp here)))⟩⟩
  · -- the checks of an access, in their order
    intro s r st c va n x l answer traps
    refine ⟨fun bad => congrArg Prod.fst (accessProblem_misaligned bad), fun aligned =>
      ⟨fun p failed => congrArg Prod.fst (accessProblem_untranslated aligned failed), fun found fresh => ?_⟩⟩
    intro zone plain slot auth
    have region {p : Problem} (bad : r.regionProblem st c x va n = some p) : answer.1 = .error (.inl p) :=
      congrArg Prod.fst (accessProblem_region aligned found bad)
    refine ⟨fun z bits kept => region (regionProblem_tierBits z bits kept), fun z bits => region (regionProblem_hostBits z bits),
      fun z bits atomic => region (regionProblem_hostAtomic z bits atomic), fun k z there =>
      ⟨fun foreign => region (regionProblem_foreign z there foreign), fun inside near => ?_⟩,
      fun plain slot => region ((regionProblem_plain plain).trans (ownProblem_slot slot)),
      fun plain noSlot auth => region ((regionProblem_plain plain).trans (ownProblem_auth noSlot auth)),
      fun plain noSlot noAuth there sized noWindow noArea => ?_⟩
    · have noSlot := not_othersSlot_scratch (st := st) (c := c) z
      have atHome := regionProblem_near (c := c) (va := va) (n := n) z there inside near
      exact ⟨fun auth => region (atHome.trans (ownProblem_auth noSlot auth)), fun noAuth => accessProblem_passes aligned found
        (atHome.trans (ownProblem_none noSlot noAuth)) fresh fun outside => Bool.noConfusion (outside.symm.trans (isScratch_scratch z))⟩
    · have fine := (regionProblem_plain (va := va) (n := n) plain).trans (ownProblem_none noSlot noAuth)
      have declared := declared_iff (va := va) (write := c.write) there sized noWindow noArea
      exact ⟨fun b touched bare => congrArg Prod.fst (accessProblem_undeclared aligned found fine (isScratch_plain plain)
          (Bool.eq_false_iff.mpr fun yes => bare (declared.mp yes b touched).1)),
        fun all => accessProblem_passes aligned found fine fresh fun _ => declared.mpr all⟩
  · -- LD and ST
    intro s s0 s1 r u st q f v va a cause extra h n ends open_
    refine ⟨fun addr there => ?_, fun full addr there => ?_⟩
    · obtain ⟨hc, out, pc⟩ := Quiet.at_pc h ((address_quiet ..).quiet h.issuer h.strand h.outside addr) there
      exact ⟨fun bad => ld_stopped h addr (pc ▸ checkAccess_traps hc there out bad),
        fun bad => ld_stopped h addr (pc ▸ checkAccess_trapsFree hc there out bad)⟩
    · obtain ⟨hc, out, pc⟩ := Quiet.at_pc h (readX_address_quiet h full addr) there
      exact ⟨fun bad => st_stopped h full addr (pc ▸ checkAccess_traps hc there out bad),
        fun bad => st_stopped h full addr (pc ▸ checkAccess_trapsFree hc there out bad)⟩

end Sys2Proof.Machine
end

section
/-!
FENCES AND DRAIN (O21).

What a fence waits for is a proposition about the state (`ordered_iff`), what a DRAIN waits for one about the commands of its core
(`draining_iff`); each instruction either has its effect or waits, which its one lemma for each says.
-/

namespace Sys2Proof.Machine

variable {s : State} {u : Nat} {st : Strand} {f : Fields} {release acquire : Bool}

/-! ### What a fence waits for (05 R122, 24 R416) -/

theorem State.unacknowledged_eq_false : s.unacknowledged u = false ↔
    (∀ e ∈ s.sent, e.uid = u → e.ty = 1) ∧ ∀ l ∈ s.later, ∀ c a p k n d, l.chore ≠ .entry (some u) c a p k n d := by
  simp only [State.unacknowledged, Bool.or_eq_false_iff, List.any_eq_false]
  refine and_congr (forall₂_congr fun e _ => by simp) (forall₂_congr fun l _ => ?_)
  split
  · rename_i v c a p k n d owed
    simp only [owed, beq_iff_eq]
    exact ⟨fun apart _ _ _ _ _ _ e => by cases e; exact apart rfl, fun none_ same => none_ c a p k n d (by rw [same])⟩
  · rename_i other
    exact iff_of_true Bool.false_ne_true fun _ _ _ _ _ _ e => other _ _ _ _ _ _ _ e

theorem State.visible_iff : s.visible st = true ↔ st.visMax = 0 ∨ st.visMax.toNat < s.leaseClock.toNat := by
  simp [State.visible]

theorem State.ordered_iff : s.ordered u st true = true ↔
    (∀ e ∈ s.sent, e.uid = u → e.ty = 1) ∧ (∀ l ∈ s.later, ∀ c a p k n d, l.chore ≠ .entry (some u) c a p k n d) ∧
      (st.visMax = 0 ∨ st.visMax.toNat < s.leaseClock.toNat) := by
  rw [State.ordered, Bool.not_true, Bool.false_or, Bool.and_eq_true, Bool.not_eq_true', State.unacknowledged_eq_false, State.visible_iff,
    and_assoc]

/-! ### FENCE, ACQ and REL (10 R229) -/

theorem State.release_eq (found : s.strand? u = some st) : s.release u = s.setStrand u { st with phase := st.phase + 1 } :=
  State.editStrand_eq found _

theorem finish_setStrand (issuer : s.cur = some u) (outside : st.region = none) :
    finish f (s.setStrand u st) = (.ok (), s.setStrand u (st.done f)) := by
  rw [finish_run (s := s.setStrand u st) issuer (State.strand_set ..) outside, State.set_set]

theorem orderAt_passes (h : Issues s u st f) (pass : f.m.toNat < 5 ∨ s.ordered u st release = true) : orderAt f release acquire s =
    (.ok (), s.setStrand u ((if release then { st with phase := st.phase + 1 } else st).done f)) := by
  have free : (5 ≤ f.m.toNat && !s.ordered u st release) = false := by
    rcases pass with low | settled
    · simp [Nat.not_le.mpr low]
    · simp [settled]
  rw [orderAt, issue_run h, Act.bind_ok (me_run h.issuer), Act.bind_ok (self_run h.issuer h.strand), Act.bind_ok (readS_run ..)]
  simp only [free]
  cases release
  · exact finish_run h.issuer h.strand h.outside f
  · refine (Act.bind_ok (editS_run ..)).trans ?_
    rw [State.release_eq h.strand]
    exact finish_setStrand h.issuer h.outside

theorem orderAt_waits (h : Issues s u st f) (scope : 5 ≤ f.m.toNat) (busy : s.ordered u st release = false) : orderAt f release acquire s =
    (.error .done, s.leave u .parked (.order release acquire (f.m == 6)) 15) := by
  rw [orderAt, issue_run h, Act.bind_ok (me_run h.issuer), Act.bind_ok (self_run h.issuer h.strand), Act.bind_ok (readS_run ..)]
  simp only [scope, busy]
  exact Act.bind_error (park_run h.issuer h.strand h.outside _)

/-! ### DRAIN (04 R105) -/

theorem State.draining_iff {core path upTo : Nat} : s.draining core path upTo = true ↔
    ∃ c ∈ (s.core core).mx.queue ++ (s.core core).ce.queue, c.state ≠ .held ∧ (c.path = none ∨ c.path = some path) ∧ c.drainNo < upTo := by
  simp only [State.draining, List.any_eq_true, Bool.and_eq_true, Bool.or_eq_true, decide_eq_true_eq, bne_iff_ne, beq_iff_eq]
  refine exists_congr fun c => and_congr_right fun _ => ?_
  tauto

theorem execDrain_done (h : Issues s u st f) (free : s.draining st.core f.m.toNat s.order = false) :
    exec (.drain f) s = .next (s.setStrand u (st.done f)) := by
  refine Act.outcome_ok ?_
  rw [issue_run h, Act.bind_ok (self_run h.issuer h.strand), Act.bind_ok (readS_run ..)]
  simp only [id, free]
  exact finish_run h.issuer h.strand h.outside f

theorem execDrain_waits (h : Issues s u st f) (busy : s.draining st.core f.m.toNat s.order = true) :
    exec (.drain f) s = .next ((s.setStrand u { st with behind := lenOf f }).leave u .parked (.drain f.m.toNat s.order) 15) := by
  refine Act.outcome_done ?_
  rw [issue_run h, Act.bind_ok (self_run h.issuer h.strand), Act.bind_ok (readS_run ..)]
  simp only [id, busy]
  refine Act.bind_error ((parkBehind_issuing h.issuing _).trans ?_)
  rw [State.editStrand_eq h.strand]
  rfl

/-- Settles O21: a fence completes or waits as its scope and `State.ordered` have it, a DRAIN as `State.draining` has it. -/
theorem ordering : Obligations.Ordering := by
  unfold Obligations.Ordering
  intro s u st f h
  refine ⟨Act.outcome_ok (orderAt_passes h (.inr rfl)), fun pass => ?_, fun scope busy => ?_, fun free => ?_, fun busy => ?_⟩
  · have ready := pass.imp_right State.ordered_iff.mpr
    exact ⟨Act.outcome_ok (orderAt_passes h ready), Act.outcome_ok (orderAt_passes h ready)⟩
  · have open_ := Bool.eq_false_iff.mpr (mt State.ordered_iff.mp busy)
    exact ⟨Act.outcome_done (orderAt_waits h scope open_), Act.outcome_done (orderAt_waits h scope open_)⟩
  · refine execDrain_done h (Bool.eq_false_iff.mpr fun busy => ?_)
    obtain ⟨c, queued, awake, path, early⟩ := State.draining_iff.mp busy
    rcases free c queued with held | ⟨named, other⟩ | late
    · exact awake held
    · exact path.elim named other
    · omega
  · exact execDrain_waits h (State.draining_iff.mpr busy)

end Sys2Proof.Machine
end

section
/-!
LEASES AND THE WRAP PAUSE (O46).

A packet that this module takes changes its port, the answers and the router and nothing else (`takenAt_frame`), and what the modules tell
each other goes to the router alone (`toJob_frame`). So the conditions of a pause (the job's entry, who conducts it, what has been answered)
read behind each step as they read before it. A step of a pause is one lemma for each case of `beginPause`, `advancePause`, `pauseControl` and
`wrapPause`; `endPause_frame` says what the end of one leaves.
-/

namespace Sys2Proof.Machine

variable {s a : State} {p : Packet} {job ty : Nat} {e : Word} {heard : List Nat} {words : List Word}

/-! ### Control packets (24 R407, R419) -/

/-- A packet has left the router. -/
def State.without (s : State) (ty : Nat) (p : Packet) : State := { s with outbox := s.outbox.erase (ty, p) }

namespace State

theorem takenAt_frame (took : s.takenAt p = some a) : ∃ ports answers, a = { s with ports := ports, answers := answers } := by
  unfold takenAt at took
  split at took
  · cases took
    exact ⟨_, _, rfl⟩
  · split at took
    · cases took
    · split at took
      · cases took
      · cases took
        exact ⟨_, _, rfl⟩

/-- A packet for this module is handled, and has left the router. -/
theorem taken_here {here : State → Packet → State} (up : s.boot.state ≠ 5) (took : s.takenAt p = some a) (home : p.dst = s.selfModule) :
    s.taken ty p here = here (a.without ty p) { p with link := none } := by
  simp [taken, up, took, home, without]

theorem foldl_control_frame (l : List Nat) :
    ∃ out, l.foldl (fun s m => s.control ty job m words) s = { s with outbox := out } := by
  induction l generalizing s with
  | nil => exact ⟨_, rfl⟩
  | cons m l ih =>
    obtain ⟨out, told⟩ := ih (s := s.control ty job m words)
    exact ⟨out, told⟩

theorem toJob_frame : ∃ out, s.toJob ty e words = { s with outbox := out } := foldl_control_frame _

theorem sendSync_conducts (found : s.validJobs.find? (fun e => field e 15 0 == job) = some e) (conducts : s.conducts e = true) :
    s.sendSync job = s.toJob 0x20 e [s.gclk - s.lbase] := by
  simp only [sendSync, found, conducts, if_true]

/-! ### A pause begins (05 R132, step 1) -/

theorem clockStop_idle (idle : s.castRun = none) : s.clockStop = s := by simp only [clockStop, idle]

theorem deferStop_idle (idle : s.castRun = none) : s.deferStop = s := by simp only [deferStop, idle]

/-- The pause of a job is under way, and no module has said that it has drained. -/
def opensPause (s : State) (job : Nat) : State := { s with pausing := Sparse.put s.pausing job [] }

theorem beginPause_conducts (idle : s.castRun = none) (entry : s.jobEntry job = some e) (conducts : s.conducts e = true) :
    s.beginPause job = (s.opensPause job).toJob 0x21 e [1] := by
  unfold beginPause
  rw [clockStop_idle idle]
  dsimp only
  split
  · rename_i noJob
    cases entry.symm.trans noJob
  · rename_i found
    cases entry.symm.trans found
    exact if_pos conducts

theorem beginPause_frame (idle : s.castRun = none) :
    ∃ out, s.beginPause job = { s with pausing := Sparse.put s.pausing job [], outbox := out } := by
  unfold beginPause
  rw [clockStop_idle idle]
  dsimp only
  split
  · exact ⟨_, rfl⟩
  · split
    · exact toJob_frame
    · exact ⟨_, rfl⟩

/-- Pauses that begin: each of their jobs is in one, and those of other jobs go on. -/
theorem foldl_beginPause (jobs : List Nat) (idle : s.castRun = none) :
    ∃ out pauses, jobs.foldl beginPause s = { s with pausing := pauses, outbox := out } ∧
      ∀ j, Sparse.get pauses j = if j ∈ jobs then some [] else Sparse.get s.pausing j := by
  induction jobs generalizing s with
  | nil => exact ⟨_, _, rfl, fun j => rfl⟩
  | cons k jobs ih =>
    obtain ⟨out, begun⟩ := beginPause_frame (job := k) idle
    obtain ⟨out', pauses, rest, reads⟩ := ih (s := s.beginPause k) (by rw [begun]; exact idle)
    refine ⟨out', pauses, by rw [List.foldl_cons, rest, begun], fun j => (reads j).trans ?_⟩
    rw [begun]
    by_cases same : k = j
    · subst same
      simp
    · simp [Sparse.get_put_other _ _ same, Ne.symm same]

/-! ### A pause ends (05 R132, steps 3 to 6) -/

/-- The end of a pause for the home agents and the strands: no lease is out, and VISMAX is 0 in the job. -/
def agentsUnleased (s : State) : SMap AgentEntry :=
  (Sparse.mapVals (fun _ (a : AgentEntry) => { a with lease := 0 }) s.agents).filter fun e => e.2 != AgentEntry.idle

def strandsUnseen (s : State) (job : Nat) : SMap Strand :=
  Sparse.mapVals (fun _ st => if s.pauseKey st.ctx == some job then { st with visMax := 0 } else st) s.strands

theorem endPause_frame (idle : s.castRun = none) : ∃ out, s.endPause job =
    { s with outbox := out, leased := [], lbase := s.gclk, pausing := Sparse.erase s.pausing job, agents := s.agentsUnleased,
             strands := s.strandsUnseen job } := by
  unfold endPause
  split
  · split
    · obtain ⟨out, told⟩ := toJob_frame (s := s) (ty := 0x21)
      rw [told]
      exact ⟨out, deferStop_idle idle⟩
    · exact ⟨_, deferStop_idle idle⟩
  · exact ⟨_, deferStop_idle idle⟩

theorem endPause_leaseClock (idle : s.castRun = none) : (s.endPause job).leaseClock = 0 := by
  obtain ⟨out, ended⟩ := endPause_frame (job := job) idle
  rw [ended, leaseClock, BitVec.sub_self]
  rfl

theorem strandsUnseen_get {u : Nat} :
    Sparse.get (s.strandsUnseen job) u =
      (s.strand? u).map fun st => if s.pauseKey st.ctx == some job then { st with visMax := 0 } else st :=
  Sparse.get_mapVals

theorem strandsUnseen_visMax {u : Nat} {st : Strand} (found : Sparse.get (s.strandsUnseen job) u = some st)
    (member : s.pauseKey st.ctx = some job) : st.visMax = 0 := by
  obtain ⟨old, -, rfl⟩ := Option.map_eq_some_iff.mp (strandsUnseen_get.symm.trans found)
  split at member
  · rename_i paused
    rw [if_pos paused]
  · rename_i apart
    exact (apart (beq_iff_eq.mpr member)).elim

theorem strandsUnseen_other {u : Nat} {st : Strand} (found : s.strand? u = some st) (other : s.pauseKey st.ctx ≠ some job) :
    Sparse.get (s.strandsUnseen job) u = some st := by
  rw [strandsUnseen_get, found, Option.map_some, if_neg (mt beq_iff_eq.mp other)]

theorem mem_mapVals {α : Type} {g : Nat → α → α} {m : SMap α} {x : Nat × α} (h : x ∈ Sparse.mapVals g m) : ∃ k v, x = (k, g k v) := by
  induction m with
  | nil => cases h
  | cons y m ih =>
    rcases List.mem_cons.mp h with rfl | tail
    · exact ⟨_, _, rfl⟩
    · exact ih tail

theorem agentsUnleased_lease {line : Nat} {x : AgentEntry} (found : Sparse.get s.agentsUnleased line = some x) : x.lease = 0 := by
  obtain ⟨k, v, same⟩ := mem_mapVals (List.mem_of_mem_filter (Sparse.mem_of_get found))
  cases same
  rfl

/-! ### A pause goes on (05 R132, step 2) -/

theorem advancePause_busy (busy : s.drained job = false) : s.advancePause job heard = s := by
  simp [advancePause, busy]

theorem advancePause_noJob (drained : s.drained job = true) (entry : s.jobEntry job = none) : s.advancePause job heard = s.endPause job := by
  simp [advancePause, drained, entry]

theorem advancePause_ends (drained : s.drained job = true) (entry : s.jobEntry job = some e) (conducts : s.conducts e = true)
    (all : ∀ m ∈ jobModules e, m ≠ s.selfModule → s.reachable job m = true → m ∈ heard) : s.advancePause job heard = s.endPause job := by
  have told : ((jobModules e).all fun m => m == s.selfModule || heard.contains m || !s.reachable job m) = true := by
    simp only [List.all_eq_true, Bool.or_eq_true, beq_iff_eq, List.contains_iff_mem, Bool.not_eq_true', or_assoc]
    intro m member
    by_cases self : m = s.selfModule
    · exact .inl self
    · cases there : s.reachable job m
      · exact .inr (.inr rfl)
      · exact .inr (.inl (all m member self there))
  simp only [advancePause, drained, entry, conducts, told]
  rfl

theorem advancePause_waits {m : Nat} (entry : s.jobEntry job = some e) (conducts : s.conducts e = true) (member : m ∈ jobModules e)
    (other : m ≠ s.selfModule) (there : s.reachable job m = true) (silent : m ∉ heard) : s.advancePause job heard = s := by
  have untold : ((jobModules e).all fun m => m == s.selfModule || heard.contains m || !s.reachable job m) = false :=
    List.all_eq_false.mpr ⟨m, member, by simp [other, there, silent]⟩
  simp only [advancePause, entry, conducts, untold, if_true, Bool.false_eq_true, if_false, ite_self]

theorem advancePause_says (drained : s.drained job = true) (entry : s.jobEntry job = some e) (conducts : s.conducts e = false)
    (silent : s.selfModule ∉ heard) : s.advancePause job heard =
      { s with pausing := Sparse.put s.pausing job [s.selfModule] }.control 0x21 job ((jobModule e 0).getD 0) [2] := by
  simp [advancePause, drained, entry, conducts, silent]

/-- The one pause goes on, in a module whose lease clock begins no other. -/
theorem wrapPause_one {t : State} (one : s.pausing = [(job, heard)]) (goes : s.advancePause job heard = t)
    (low : t.leaseClock.toNat < 0xFFF00000) : exec .wrapPause s = .next t := by
  refine congrArg Host.Outcome.next ?_
  simp [wrapPause, one, goes, low]

theorem wrapPause_ends (one : s.pausing = [(job, heard)]) (idle : s.castRun = none) (ends : s.advancePause job heard = s.endPause job) :
    exec .wrapPause s = .next (s.endPause job) :=
  wrapPause_one one ends (by rw [endPause_leaseClock idle]; decide)

theorem wrapPause_begins (quiet : s.pausing = []) (idle : s.castRun = none) (high : 0xFFF00000 ≤ s.leaseClock.toNat) :
    ∃ out pauses, exec .wrapPause s = .next { s with pausing := pauses, outbox := out } ∧
      ∀ j ∈ s.pauseJobs, Sparse.get pauses j = some [] := by
  obtain ⟨out, pauses, begun, reads⟩ := foldl_beginPause s.pauseJobs idle
  refine ⟨out, pauses, congrArg Host.Outcome.next (.trans ?_ begun), fun j member => by rw [reads, if_pos member]⟩
  simp [wrapPause, quiet, Nat.not_lt.mpr high, Sparse.get]

/-! ### A packet about a pause (05 R132, 24 R420) -/

section
variable (up : s.boot.state ≠ 5) (took : s.takenAt p = some a) (home : p.dst = s.selfModule)
include took

theorem taken_jobEntry {n : Nat} : (a.without ty p).jobEntry n = s.jobEntry n := by
  obtain ⟨_, _, rfl⟩ := takenAt_frame took
  rfl

theorem taken_pausing : (a.without ty p).pausing = s.pausing := by
  obtain ⟨_, _, rfl⟩ := takenAt_frame took
  rfl

theorem taken_castRun : (a.without ty p).castRun = s.castRun := by
  obtain ⟨_, _, rfl⟩ := takenAt_frame took
  rfl

theorem taken_conducts : (a.without ty p).conducts e = s.conducts e := by
  obtain ⟨_, _, rfl⟩ := takenAt_frame took
  rfl

theorem taken_drained {n : Nat} : (a.without ty p).drained n = s.drained n := by
  obtain ⟨_, _, rfl⟩ := takenAt_frame took
  rfl

include up home

theorem leaseSync_here : exec (.fabricLeaseSync p) s =
    .next { a.without 0x20 p with lbase := a.gclk - p.words.headD 0 } :=
  congrArg Host.Outcome.next (taken_here up took home)

theorem pauseControl_noJob (entry : s.jobEntry p.job = none) : exec (.fabricPauseControl p) s = .next (a.without 0x21 p) := by
  refine congrArg Host.Outcome.next ?_
  simp only [pauseControl, taken_here up took home, taken_jobEntry took, entry]

theorem pauseControl_ignored (entry : s.jobEntry p.job = some e) (quiet : Sparse.get s.pausing p.job = none) (other : p.words.headD 0 ≠ 1) :
    exec (.fabricPauseControl p) s = .next (a.without 0x21 p) := by
  refine congrArg Host.Outcome.next ?_
  simp only [pauseControl, taken_here up took home, taken_jobEntry took, taken_pausing took, entry, quiet, beq_false_of_ne other]
  rfl

theorem pauseControl_begins (entry : s.jobEntry p.job = some e) (quiet : Sparse.get s.pausing p.job = none) (word : p.words.headD 0 = 1)
    (idle : s.castRun = none) (conducts : s.conducts e = true) :
    exec (.fabricPauseControl p) s = .next (((a.without 0x21 p).opensPause p.job).toJob 0x21 e [1]) := by
  refine congrArg Host.Outcome.next ?_
  rw [← beginPause_conducts ((taken_castRun took).trans idle) ((taken_jobEntry took).trans entry) ((taken_conducts took).trans conducts)]
  simp only [pauseControl, taken_here up took home, taken_jobEntry took, taken_pausing took, entry, quiet, word]
  rfl

theorem pauseControl_hears (entry : s.jobEntry p.job = some e) (under : Sparse.get s.pausing p.job = some heard)
    (word : p.words.headD 0 = 2) (conducts : s.conducts e = true) : exec (.fabricPauseControl p) s =
      .next { a.without 0x21 p with pausing := Sparse.put s.pausing p.job (insertNat heard p.src) } := by
  refine congrArg Host.Outcome.next ?_
  simp only [pauseControl, taken_here up took home, taken_jobEntry took, taken_pausing took, taken_conducts took, entry, under, word, conducts]
  rfl

theorem pauseControl_ends (entry : s.jobEntry p.job = some e) (under : Sparse.get s.pausing p.job = some heard)
    (word : p.words.headD 0 = 0) (conducts : s.conducts e = false) (drained : s.drained p.job = true) :
    exec (.fabricPauseControl p) s = .next ((a.without 0x21 p).endPause p.job) := by
  refine congrArg Host.Outcome.next ?_
  simp only [pauseControl, taken_here up took home, taken_jobEntry took, taken_pausing took, taken_conducts took, taken_drained took, entry, under,
    word, conducts, drained]
  rfl

theorem pauseControl_stays (entry : s.jobEntry p.job = some e) (under : Sparse.get s.pausing p.job = some heard)
    (word : p.words.headD 0 = 0) (conducts : s.conducts e = false) (busy : s.drained p.job = false) : exec (.fabricPauseControl p) s =
      .next { a.without 0x21 p with outbox := (a.without 0x21 p).outbox ++ [(0x21, { p with link := none })] } := by
  refine congrArg Host.Outcome.next ?_
  simp only [pauseControl, taken_here up took home, taken_jobEntry took, taken_pausing took, taken_conducts took, taken_drained took, entry, under,
    word, conducts, busy]
  rfl

end

end State

/-- Settles O46: one lemma for each case of a pause and of a packet about one; `State.endPause_frame` for the end of a pause. -/
theorem leaseEvents : Obligations.LeaseEvents := by
  unfold Obligations.LeaseEvents
  intro s
  refine ⟨fun line => rfl, fun job e found conducts => congrArg Host.Outcome.next (State.sendSync_conducts found conducts), ?_, ?_, ?_, ?_⟩
  · intro p a up took home
    refine ⟨⟨_, State.leaseSync_here up took home, sub_sub_cancel _ _, rfl⟩, State.pauseControl_noJob up took home,
      fun e entry => ⟨fun quiet => ⟨?_, ?_⟩, fun heard under => ⟨?_, fun word others => ⟨?_, ?_⟩⟩⟩⟩
    · exact State.pauseControl_ignored up took home entry quiet
    · intro word idle conducts
      have begun := State.pauseControl_begins up took home entry quiet word idle conducts
      rwa [State.opensPause, State.taken_pausing took] at begun
    · exact State.pauseControl_hears up took home entry under
    · exact State.pauseControl_ends up took home entry under word others
    · exact State.pauseControl_stays up took home entry under word others
  · intro quiet idle high
    obtain ⟨out, pauses, begun, under⟩ := State.wrapPause_begins quiet idle high
    exact ⟨_, begun, under, rfl, rfl, rfl⟩
  · intro job heard one low
    refine ⟨fun busy => State.wrapPause_one one (State.advancePause_busy busy) low, fun drained => ⟨fun entry idle => ?_, fun e entry =>
      ⟨fun conducts idle all => ?_, fun conducts ⟨m, member, other, there, silent⟩ => ?_, fun others silent => ?_⟩⟩⟩
    · exact State.wrapPause_ends one idle (State.advancePause_noJob drained entry)
    · exact State.wrapPause_ends one idle (State.advancePause_ends drained entry conducts all)
    · exact State.wrapPause_one one (State.advancePause_waits entry conducts member other there silent) low
    · exact State.wrapPause_one one (State.advancePause_says drained entry others silent) low
  · intro job idle t
    obtain ⟨out, ended⟩ := State.endPause_frame (job := job) idle
    have ended : t = _ := ended
    rw [ended]
    refine ⟨Sparse.get_erase_same .., rfl, BitVec.sub_self _, fun u st found => State.strandsUnseen_visMax found,
      fun u st => State.strandsUnseen_other, fun line => ?_, rfl⟩
    show ((Sparse.get s.agentsUnleased line).getD AgentEntry.idle).lease = 0
    cases found : Sparse.get s.agentsUnleased line with
    | none => rfl
    | some x => exact State.agentsUnleased_lease found

end Sys2Proof.Machine
end

section
/-!
THE DIRECTORY, THE COPIES AND THE REQUESTS OF A LINE (O44).

What a board's entry, a core's copy, a core's request and the messages read as behind each operation of the protocol that changes one of
them, and what the others leave alone.
-/

namespace Sys2Proof.Machine

variable {s t : State} {line core board b c q : Nat} {e : DirEntry} {l : L1Line} {k : MsgKind} {x : Sharers}

/-- A core that has been added is a sharer (05 R123). -/
theorem Sharers.add_shared : x.add core ≠ .pointers [] := by
  cases x with
  | coarse m => exact fun h => by cases h
  | pointers cs =>
    unfold Sharers.add
    dsimp only
    split
    · rename_i there
      rintro ⟨⟩
      cases there
    · split
      · exact fun h => by simp at h
      · exact fun h => by cases h

namespace State

/-! ### Messages -/

@[simp] theorem send_msgs : (s.send line core k).msgs = s.msgs ++ [⟨line, core, k⟩] := rfl
@[simp] theorem send_cores : (s.send line core k).cores = s.cores := rfl
@[simp] theorem send_leaves : (s.send line core k).leaves = s.leaves := rfl

/-! ### Directory entries (05 R123) -/

theorem setAgent_frame {a : AgentEntry} : ∃ as, s.setAgent line a = { s with agents := as } := by
  unfold setAgent
  split <;> exact ⟨_, rfl⟩

/-- A board's entry changes, the home agent's with it, and nothing else. -/
theorem setDir_frame : ∃ as, s.setDir line board e = { s with dirs := (s.putDir line board e).dirs, agents := as } := by
  unfold setDir putDir
  split <;> exact setAgent_frame

@[simp] theorem setDir_msgs : (s.setDir line board e).msgs = s.msgs := by
  obtain ⟨as, h⟩ := setDir_frame (s := s) (line := line) (board := board) (e := e)
  rw [h]

@[simp] theorem setDir_cores : (s.setDir line board e).cores = s.cores := by
  obtain ⟨as, h⟩ := setDir_frame (s := s) (line := line) (board := board) (e := e)
  rw [h]

@[simp] theorem setDir_leaves : (s.setDir line board e).leaves = s.leaves := by
  obtain ⟨as, h⟩ := setDir_frame (s := s) (line := line) (board := board) (e := e)
  rw [h]

theorem setDir_dir : (s.setDir line board e).dir? line b = (s.putDir line board e).dir? line b := by
  obtain ⟨as, h⟩ := setDir_frame (s := s) (line := line) (board := board) (e := e)
  rw [h]
  rfl

/-- What a board's own entry reads as. -/
theorem dir_setDir_same : (s.setDir line board e).dir? line board = if e.owner.isNone && e.sharers == .pointers [] then none else some e := by
  rw [setDir_dir, putDir]
  split
  · exact Sparse.get_erase_same ..
  · exact Sparse.get_put_same ..

theorem dir_setDir_other (other : board ≠ b) : (s.setDir line board e).dir? line b = s.dir? line b := by
  have apart : dirKey line board ≠ dirKey line b := by simp [dirKey, other]
  rw [setDir_dir, putDir]
  split
  · exact Sparse.get_erase_other _ apart
  · exact Sparse.get_put_other _ _ apart

theorem dir_setDir_owned {o : Nat × Moesi} (owned : e.owner = some o) : (s.setDir line board e).dir? line board = some e := by
  simp [dir_setDir_same, owned]

theorem dir_setDir_shared (shared : e.sharers ≠ .pointers []) : (s.setDir line board e).dir? line board = some e := by
  simp [dir_setDir_same, shared]

/-- An entry that is there is the one that was written. -/
theorem eq_of_dir_setDir {d : DirEntry} (found : (s.setDir line board e).dir? line board = some d) : d = e := by
  rw [dir_setDir_same] at found
  split at found
  · cases found
  · exact (Option.some.inj found).symm

/-! ### Every board's entry (05 R124, R125) -/

/-- No board holds the line but that of the core that now owns it in M. -/
def takesOver (s : State) (line core : Nat) : State :=
  ((List.range 8).foldl (fun s o => s.setDir line o { owner := none, sharers := .pointers [] }) s).setDir line (boardOf core)
    { owner := some (core, .modified), sharers := .pointers [] }

theorem dir_foldl_clear (boards : List Nat) :
    (boards.foldl (fun s o => s.setDir line o { owner := none, sharers := .pointers [] }) s).dir? line b =
      if b ∈ boards then none else s.dir? line b := by
  induction boards generalizing s with
  | nil => rfl
  | cons o boards ih =>
    rw [List.foldl_cons, ih]
    by_cases same : o = b
    · subst same
      simp [dir_setDir_same]
    · simp [dir_setDir_other same, Ne.symm same]

theorem foldl_clear_frame (boards : List Nat) :
    ∃ ds as, boards.foldl (fun s o => s.setDir line o { owner := none, sharers := .pointers [] }) s = { s with dirs := ds, agents := as } := by
  induction boards generalizing s with
  | nil => exact ⟨_, _, rfl⟩
  | cons o boards ih =>
    obtain ⟨as, h⟩ := setDir_frame (s := s) (line := line) (board := o) (e := { owner := none, sharers := .pointers [] })
    rw [List.foldl_cons, h]
    exact ih

@[simp] theorem takesOver_msgs : (s.takesOver line core).msgs = s.msgs := by
  obtain ⟨ds, as, h⟩ := foldl_clear_frame (s := s) (line := line) (List.range 8)
  rw [takesOver, setDir_msgs, h]

theorem dir_takesOver_own : (s.takesOver line core).dir? line (boardOf core) = some { owner := some (core, .modified), sharers := .pointers [] } :=
  dir_setDir_owned rfl

theorem dir_takesOver_other (low : b < 8) (other : b ≠ boardOf core) : (s.takesOver line core).dir? line b = none := by
  rw [takesOver, dir_setDir_other other.symm, dir_foldl_clear, if_pos (List.mem_range.mpr low)]

theorem unheld_iff : s.unheld line = true ↔ ∀ o < 8, s.dir? line o = none := by
  simp [unheld]

/-- A board that holds an owner of the line holds the line. -/
theorem unheld_of_owner {o : Nat × Nat × Moesi} (owned : s.ownerEntry line = some o) : s.unheld line = false := by
  obtain ⟨b, low, found⟩ := List.exists_of_findSome?_eq_some owned
  refine Bool.eq_false_iff.mpr fun free => ?_
  rw [unheld_iff.mp free b (List.mem_range.mp low)] at found
  cases found

theorem ownerEntry_unheld (free : ∀ o < 8, s.dir? line o = none) : s.ownerEntry line = none :=
  List.findSome?_eq_none_iff.mpr fun b low => by rw [free b (List.mem_range.mp low)]; rfl

/-! ### Copies and requests of a core (05 R125, R126) -/

theorem l1_of_cores (same : t.cores = s.cores) : t.l1 core line = s.l1 core line := by simp only [l1, State.core, same]

theorem l1_setL1 : (s.setL1 core line l).l1 core line = some l := by simp [l1, setL1]

theorem l1_dropCopy (found : s.l1 core line = some l) (coherent : l.swm = none) : (s.dropCopy core line).l1 core line = none := by
  simp only [dropCopy, found, coherent, Option.isSome_none, Bool.false_eq_true, if_false]
  rw [l1, core_editCore_same]
  exact Sparse.get_erase_same ..

theorem setL1State_eq {m : Moesi} (found : s.l1 core line = some l) : s.setL1State core line m = s.setL1 core line { l with state := m } := by
  simp only [setL1State, found]

@[simp] theorem setL1_msgs : (s.setL1 core line l).msgs = s.msgs := rfl

theorem dropCopy_frame : ∃ cs, s.dropCopy core line = { s with cores := cs } := by
  unfold dropCopy
  split
  · split <;> exact ⟨_, rfl⟩
  · exact ⟨_, rfl⟩

@[simp] theorem dropCopy_msgs : (s.dropCopy core line).msgs = s.msgs := by
  obtain ⟨cs, h⟩ := dropCopy_frame (s := s) (core := core) (line := line)
  rw [h]

theorem mshr_editMshr {g : Option Mshr → Option Mshr} :
    Sparse.get ((s.editMshr core line g).core core).mshr line = g (Sparse.get (s.core core).mshr line) := by
  rw [editMshr, core_editCore_same]
  dsimp only
  cases g (Sparse.get (s.core core).mshr line) with
  | none => exact Sparse.get_erase_same ..
  | some m => exact Sparse.get_put_same ..

theorem mshr_setL1 : ((s.setL1 core line l).core core).mshr = (s.core core).mshr := by
  rw [setL1, core_editCore_same]

end State

end Sys2Proof.Machine
end

section
/-!
EVENTS OF COHERENCE MESSAGES (O44).

The event takes the first message about its line (`handle_first`, `homeRequest_first`), and what follows is the handling of that message
in the state without it. Handling is the memory system's own work (`calm_deliverMsg`), so memory and strands stay (`row_of`); what is
sent and what the directory, the copy and the request read as is one lemma for each row of 05 R125.
-/

namespace Sys2Proof.Machine

variable {s s' t : State} {line core b o q n j : Nat} {rest ms : List CohMsg} {k : MsgKind} {e : DirEntry} {l : L1Line} {m : Mshr}
  {st : Moesi} {cs : List Nat}

namespace State

/-! ### The message that is handled (05 R124) -/

/-- The state with these messages in flight. -/
def withMsgs (s : State) (ms : List CohMsg) : State := { s with msgs := ms }

@[simp] theorem withMsgs_msgs : (s.withMsgs ms).msgs = ms := rfl
@[simp] theorem withMsgs_sharersProbed : (s.withMsgs ms).sharersProbed line core = s.sharersProbed line core := rfl

theorem handle_first {p : State → MsgKind → Bool} (first : s.msgs = ⟨line, core, k⟩ :: rest) (kind : p s k = true) :
    s.handle line core p = (s.withMsgs rest).deliverMsg ⟨line, core, k⟩ := by
  simp [handle, takeMsg, first, kind, withMsgs]

theorem homeRequest_first (first : s.msgs = ⟨line, core, k⟩ :: rest) (asks : k.isRequest = true) (idle : s.inProgress line = false) :
    s.homeRequest line core k = s.takeRequest ⟨line, core, k⟩ := by
  simp [homeRequest, first, asks, idle]

theorem homeRequest_inProgress (first : s.msgs = ⟨line, core, k⟩ :: rest) (asks : k.isRequest = true) (busy : s.inProgress line = true) :
    s.homeRequest line core k = s := by
  simp [homeRequest, first, asks, busy]

theorem takeRequest_held (held : s.lineHeld line (k != .getS) = true) : s.takeRequest ⟨line, core, k⟩ = s := by
  simp [takeRequest, held]

theorem homeRequest_held (first : s.msgs = ⟨line, core, k⟩ :: rest) (asks : k.isRequest = true)
    (held : s.lineHeld line (k != .getS) = true) : s.homeRequest line core k = s := by
  cases progress : s.inProgress line with
  | false => exact (homeRequest_first first asks progress).trans (takeRequest_held held)
  | true => exact homeRequest_inProgress first asks progress

theorem takeRequest_host (open_ : s.lineHeld line (k != .getS) = false) (host : s.wantsHost ⟨line, core, k⟩ = true) :
    s.takeRequest ⟨line, core, k⟩ = s.sendBackInv line := by
  simp [takeRequest, open_, host]

theorem takeRequest_goes (first : s.msgs = ⟨line, core, k⟩ :: rest) (open_ : s.lineHeld line (k != .getS) = false)
    (free : s.wantsHost ⟨line, core, k⟩ = false) : s.takeRequest ⟨line, core, k⟩ = (s.withMsgs rest).deliverMsg ⟨line, core, k⟩ := by
  simp [takeRequest, first, open_, free, withMsgs]

/-- A line that is free for a writer is free for a reader. -/
theorem lineHeld_read (open_ : s.lineHeld line true = false) (write : Bool) : s.lineHeld line write = false := by
  simp only [lineHeld, Bool.true_and, Bool.or_eq_false_iff] at open_
  obtain ⟨⟨busy, back⟩, frozen⟩ := open_
  simp only [lineHeld, busy, back, frozen, Bool.and_false, Bool.or_self]

theorem wantsHost_getS (held : s.unheld line = false) : s.wantsHost ⟨line, core, .getS⟩ = false := by
  simp [wantsHost, held]

theorem wantsHost_free (free : s.needsBackInv line = false) : s.wantsHost ⟨line, core, k⟩ = false := by
  simp [wantsHost, free]

theorem wantsHost_taken (host : s.needsBackInv line = true) (takes : k ≠ .getS ∨ ∀ o < 8, s.dir? line o = none) :
    s.wantsHost ⟨line, core, k⟩ = true := by
  rcases takes with other | free
  · simp [wantsHost, host, other]
  · simp [wantsHost, host, unheld_iff.mpr free]

/-- A request that finds the line free is handled. -/
theorem request_goes (first : s.msgs = ⟨line, core, k⟩ :: rest) (asks : k.isRequest = true) (idle : s.inProgress line = false)
    (open_ : s.lineHeld line (k != .getS) = false) (free : s.wantsHost ⟨line, core, k⟩ = false) :
    s.homeRequest line core k = (s.withMsgs rest).deliverMsg ⟨line, core, k⟩ :=
  (homeRequest_first first asks idle).trans (takeRequest_goes first open_ free)

/-- A row of the protocol: the event handles a message, which leaves `t`; it sends `ms`, and memory and strands stay. -/
theorem row_of {P : State → Prop} {x : CohMsg} (event : s' = (s.withMsgs rest).deliverMsg x) (row : (s.withMsgs rest).deliverMsg x = t)
    (sent : t.msgs = rest ++ ms) (reads : P t) :
    ∃ t, (.next s' : Result) = .next t ∧ (t.msgs = rest ++ ms ∧ t.mem = s.mem ∧ t.strands = s.strands) ∧ P t := by
  have calm := calm_deliverMsg (s.withMsgs rest) x
  rw [row] at calm
  exact ⟨t, congrArg _ (event.trans row), ⟨sent, calm.still, calm.strands⟩, reads⟩

/-! ### GetS at the home (05 R125) -/

theorem homeGetS_exclusive (free : ∀ o < 8, s.dir? line o = none) : s.homeGetS line core =
    (s.setDir line (boardOf core) { owner := some (core, .exclusive), sharers := .pointers [] }).send line core (.data .exclusive) := by
  simp only [homeGetS, ownerEntry_unheld free, unheld_iff.mpr free, if_true]

theorem homeGetS_shared (unowned : s.ownerEntry line = none) (held : s.unheld line = false) : s.homeGetS line core =
    (s.addSharer line core).send line core (.data .shared) := by
  simp only [homeGetS, unowned, held, Bool.false_eq_true, if_false]
  rfl

theorem homeGetS_forwarded (owned : s.ownerEntry line = some (b, o, st)) : s.homeGetS line core = s.send line o (.fwdGetS core) := by
  simp only [homeGetS, owned]

@[simp] theorem addSharer_msgs : (s.addSharer line core).msgs = s.msgs := setDir_msgs
@[simp] theorem addSharer_cores : (s.addSharer line core).cores = s.cores := setDir_cores
@[simp] theorem addSharer_leaves : (s.addSharer line core).leaves = s.leaves := setDir_leaves
@[simp] theorem setOwner_msgs {o : Option (Nat × Moesi)} : (s.setOwner line b o).msgs = s.msgs := setDir_msgs
@[simp] theorem setOwner_cores {o : Option (Nat × Moesi)} : (s.setOwner line b o).cores = s.cores := setDir_cores
@[simp] theorem setOwner_leaves {o : Option (Nat × Moesi)} : (s.setOwner line b o).leaves = s.leaves := setDir_leaves

theorem l1_addSharer : (s.addSharer line q).l1 core line = s.l1 core line := l1_of_cores addSharer_cores
theorem l1_setOwner {w : Option (Nat × Moesi)} : (s.setOwner line b w).l1 core line = s.l1 core line := l1_of_cores setOwner_cores

theorem dir_addSharer (found : s.dir? line (boardOf core) = some e) :
    (s.addSharer line core).dir? line (boardOf core) = some { e with sharers := e.sharers.add core } := by
  rw [addSharer, found]
  exact dir_setDir_shared Sharers.add_shared

/-- Another sharer leaves a board's owner as it is. -/
theorem owner_addSharer {w : Nat × Moesi} (found : s.dir? line b = some e) (owned : e.owner = some w) :
    ∃ d, (s.addSharer line core).dir? line b = some d ∧ d.owner = some w := by
  by_cases same : boardOf core = b
  · subst same
    exact ⟨_, dir_addSharer found, owned⟩
  · exact ⟨e, (dir_setDir_other same).trans found, owned⟩

/-! ### GetM and Upgrade at the home (05 R126, R128) -/

theorem expectAcks_frame {ts : List Nat} : ∃ h, s.expectAcks line core ts = { s with homes := h } := by
  unfold expectAcks
  generalize List.range 8 = boards
  induction boards generalizing s with
  | nil => exact ⟨_, rfl⟩
  | cons b boards ih =>
    rw [List.foldl_cons]
    dsimp only
    split
    · exact ih
    · exact ih

theorem foldl_send {f : Nat → CohMsg} (ts : List Nat) :
    ts.foldl (fun s c => s.send (f c).line (f c).core (f c).kind) s = s.withMsgs (s.msgs ++ ts.map f) := by
  induction ts generalizing s with
  | nil => simp [withMsgs]
  | cons c ts ih =>
    rw [List.foldl_cons, ih]
    simp [withMsgs, send]

/-- An Inv to every sharer that is probed, whose boards' acknowledgements are expected. -/
def invites (s : State) (line core : Nat) : State :=
  (s.sharersProbed line core).foldl (fun s c => s.send line c (.inv core)) (s.expectAcks line core (s.sharersProbed line core))

theorem invites_frame : ∃ h, s.invites line core =
    { s with homes := h, msgs := s.msgs ++ (s.sharersProbed line core).map (⟨line, ·, .inv core⟩) } := by
  obtain ⟨h, expected⟩ := expectAcks_frame (s := s) (line := line) (core := core) (ts := s.sharersProbed line core)
  refine ⟨h, (foldl_send (f := (⟨line, ·, .inv core⟩)) _).trans ?_⟩
  rw [expected]
  rfl

@[simp] theorem invites_msgs :
    (s.invites line core).msgs = s.msgs ++ (s.sharersProbed line core).map (⟨line, ·, .inv core⟩) := by
  obtain ⟨h, frame⟩ := invites_frame (s := s) (line := line) (core := core)
  rw [frame]

theorem l1_invites : (s.invites line core).l1 core line = s.l1 core line := by
  obtain ⟨h, frame⟩ := invites_frame (s := s) (line := line) (core := core)
  rw [frame]
  rfl

/-- The count of the probed sharers ends what the home sends, and the requester is the owner. -/
def counts (s : State) (line core n : Nat) : State := (s.send line core (.ackCount n)).takesOver line core

@[simp] theorem counts_msgs : (s.counts line core n).msgs = s.msgs ++ [⟨line, core, .ackCount n⟩] := takesOver_msgs

theorem homeGetM_unowned (unowned : s.ownerEntry line = none) : s.homeGetM line core false =
    ((s.invites line core).send line core (.data .modified)).counts line core (s.sharersProbed line core).length := by
  simp only [homeGetM, unowned, Bool.false_and, Bool.false_eq_true, if_false]
  rfl

theorem homeGetM_owned (owned : s.ownerEntry line = some (b, o, st)) (other : o ≠ core) : s.homeGetM line core false =
    ((s.invites line core).send line o (.fwdGetM core)).counts line core (s.sharersProbed line core).length := by
  simp only [homeGetM, owned, if_neg other]
  rfl

theorem homeGetM_sharer (unowned : s.ownerEntry line = none) (found : s.dir? line (boardOf core) = some e)
    (pointers : e.sharers = .pointers cs) (sharer : core ∈ cs) (copy : s.l1 core line = some l) : s.homeGetM line core true =
    (s.invites line core).counts line core (s.sharersProbed line core).length := by
  have kept : ((s.invites line core).l1 core line).isSome = true := by rw [l1_invites, copy]; rfl
  simp only [invites] at kept
  simp only [homeGetM, unowned, found, Option.map_some, pointers, List.contains_iff_mem.mpr sharer, Bool.true_and, kept, if_true]
  rfl

theorem dir_counts_own :
    (s.counts line core n).dir? line (boardOf core) = some { owner := some (core, .modified), sharers := .pointers [] } := dir_takesOver_own

theorem dir_counts_other : ∀ o < 8, o ≠ boardOf core → (s.counts line core n).dir? line o = none :=
  fun _ low other => dir_takesOver_other low other

/-! ### Puts at the home (05 R125) -/

/-- No message about the line but the Put: it crosses no probe. -/
theorem any_about_line (alone : ∀ m ∈ s.msgs, m.line ≠ line) (p : CohMsg → Bool) :
    (s.msgs.any fun m => m.line == line && m.core == core && p m) = false :=
  List.any_eq_false.mpr fun m member => by simp [alone m member]

theorem homePut_sharer (alone : ∀ m ∈ s.msgs, m.line ≠ line) (found : s.dir? line (boardOf core) = some e)
    (pointers : e.sharers = .pointers cs) (sharer : core ∈ cs) : s.homePut line core false =
    (s.setDir line (boardOf core) { e with sharers := .pointers (cs.filter (· != core)) }).send line core (.putAck false) := by
  simp only [homePut, found, any_about_line alone, pointers, List.contains_iff_mem.mpr sharer, Bool.false_eq_true, if_false, if_true]

theorem homePut_owner (alone : ∀ m ∈ s.msgs, m.line ≠ line) (found : s.dir? line (boardOf core) = some e)
    (owned : e.owner = some (core, st)) : s.homePut line core true =
    ((s.sliceCurrent line).setDir line (boardOf core) { e with owner := none }).send line core (.putAck false) := by
  simp only [homePut, found, any_about_line alone, owned, Bool.false_eq_true, if_false, if_true]

@[simp] theorem sliceCurrent_msgs : (s.sliceCurrent line).msgs = s.msgs := by
  unfold sliceCurrent
  split <;> rfl

/-! ### Probes at a core and at a router (05 R125, R127, R128) -/

/-- Whether a probe stops at the router is what the filter of the core's partition says of its requester. -/
theorem probeAt_requester {dropped : Bool} (asks : k.requester = some q) (filter : s.filtered (s.leafIdOf q) core = dropped) :
    s.probeAt core dropped k = true := by
  simp [probeAt, asks, filter]

theorem ackInv_eq : s.ackInv line core q =
    s.withMsgs (s.msgs ++ [if boardOf core = boardOf q then ⟨line, q, .invAck⟩ else ⟨line, core, .boardAck q⟩]) := by
  unfold ackInv
  split <;> rfl

theorem coreInv_msgs : (s.coreInv line core q).msgs =
    s.msgs ++ [if boardOf core = boardOf q then ⟨line, q, .invAck⟩ else ⟨line, core, .boardAck q⟩] := by
  rw [coreInv, ackInv_eq, withMsgs_msgs, dropCopy_msgs]

theorem l1_coreInv (found : s.l1 core line = some l) (coherent : l.swm = none) : (s.coreInv line core q).l1 core line = none := by
  rw [coreInv, ackInv_eq]
  exact l1_dropCopy found coherent

@[simp] theorem countProbe_msgs : (s.countProbe core).msgs = s.msgs := rfl
@[simp] theorem countProbe_cores : (s.countProbe core).cores = s.cores := rfl

/-- A router gives a reader the home's own data, and counts the probe that it drops. -/
theorem routerFwd_msgs : (s.routerFwd line core q true).msgs = s.msgs ++ [⟨line, q, .data .shared⟩] := by simp [routerFwd]

theorem routerFwd_cores : (s.routerFwd line core q true).cores = s.cores := by simp [routerFwd]

theorem routerFwd_leaves : (s.routerFwd line core q true).leaves = (s.countProbe core).leaves := by simp [routerFwd]

section
variable (here : s.filtered (s.leafIdOf q) core = false)
include here

theorem deliver_inv_here : s.deliverMsg ⟨line, core, .inv q⟩ = s.coreInv line core q := if_neg (Bool.eq_false_iff.mp here)
theorem deliver_fwdGetS_here : s.deliverMsg ⟨line, core, .fwdGetS q⟩ = s.coreFwdGetS line core q := if_neg (Bool.eq_false_iff.mp here)
theorem deliver_fwdGetM_here : s.deliverMsg ⟨line, core, .fwdGetM q⟩ = s.coreFwdGetM line core q := if_neg (Bool.eq_false_iff.mp here)

end

section
variable (stops : s.filtered (s.leafIdOf q) core = true)
include stops

theorem deliver_inv_dropped : s.deliverMsg ⟨line, core, .inv q⟩ = s.routerInv line core q := if_pos stops
theorem deliver_fwdGetS_dropped : s.deliverMsg ⟨line, core, .fwdGetS q⟩ = s.routerFwd line core q true := if_pos stops
theorem deliver_fwdGetM_dropped : s.deliverMsg ⟨line, core, .fwdGetM q⟩ = s.routerFwd line core q false := if_pos stops

end

theorem dirtyAt_copy (found : s.l1 core line = some l) : s.dirtyAt core line = (l.state == .modified || l.state == .owned) := by
  simp only [dirtyAt, found]

theorem coreFwdGetS_dirty (found : s.l1 core line = some l) (dirty : l.state = .modified ∨ l.state = .owned) : s.coreFwdGetS line core q =
    (((s.send line q (.data .shared)).setL1 core line { l with state := .owned }).setOwner line (boardOf core)
      (some (core, .owned))).addSharer line q := by
  have found' : (s.send line q (.data .shared)).l1 core line = some l := found
  have dirty' : (l.state == .modified || l.state == .owned) = true := by simp [dirty]
  simp only [coreFwdGetS, dirtyAt_copy found', dirty', if_true, setL1State_eq found']

theorem coreFwdGetS_exclusive (found : s.l1 core line = some l) (clean : l.state = .exclusive) : s.coreFwdGetS line core q =
    ((((s.send line q (.data .shared)).setL1 core line { l with state := .shared }).setOwner line (boardOf core) none).addSharer line
      core).addSharer line q := by
  have found' : (s.send line q (.data .shared)).l1 core line = some l := found
  have clean' : (l.state == .modified || l.state == .owned) = false := by rw [clean]; rfl
  simp only [coreFwdGetS, dirtyAt_copy found', clean', Bool.false_eq_true, if_false, setL1State_eq found']

/-! ### Responses at the requester (05 R125, R126, R128) -/

/-- The core's request takes note of what has come. -/
def notes (s : State) (line core : Nat) (g : Mshr → Mshr) : State := s.editMshr core line fun m => m.map g

theorem mshr_notes {g : Mshr → Mshr} (found : Sparse.get (s.core core).mshr line = some m) :
    Sparse.get ((s.notes line core g).core core).mshr line = some (g m) := by
  rw [notes, mshr_editMshr, found, Option.map_some]

/-- The request is over, and the core holds the line in the state that it was granted. -/
def obtains (s : State) (line core : Nat) (st : Moesi) : State :=
  (s.editMshr core line fun _ => none).setL1 core line { state := st, reader := (s.l1 core line).bind (·.reader), swm := none }

theorem mshr_obtains : Sparse.get ((s.obtains line core st).core core).mshr line = none := by
  rw [obtains, mshr_setL1, mshr_editMshr]

theorem l1_obtains : ((s.obtains line core st).l1 core line).map (·.state) = some st := by
  rw [obtains, l1_setL1]
  rfl

theorem finishRequest_reads (found : Sparse.get (s.core core).mshr line = some m) (reads : m.want = .getS) (grant : m.grant = some st) :
    s.finishRequest line core = s.obtains line core st := by
  simp only [finishRequest, found, reads, grant]
  rfl

theorem finishRequest_owns (found : Sparse.get (s.core core).mshr line = some m) (writes : m.want = .getM) (grant : m.grant = some st)
    (all : m.wanted = some m.got) :
    s.finishRequest line core = (s.obtains line core st).editCore core fun k => { k with acks := m.got } := by
  simp only [finishRequest, found, writes, grant, all, beq_self_eq_true, if_true]
  rfl

theorem finishRequest_waits (found : Sparse.get (s.core core).mshr line = some m) (writes : m.want = .getM) (grant : m.grant = some st)
    (short : m.wanted ≠ some m.got) : s.finishRequest line core = s := by
  simp only [finishRequest, found, writes, grant, beq_false_of_ne short, Bool.false_eq_true, if_false]

theorem countAck_last {left total : Nat} (found : Sparse.get s.homes.acks (dirKey line (boardOf core)) = some (left, total))
    (last : left ≤ 1) : s.countAck line core q =
    ({ s with homes := { s.homes with acks := Sparse.erase s.homes.acks (dirKey line (boardOf core)) } } : State).send line q
      (.invAcks total) := by
  simp only [countAck, found, if_pos last]

theorem countAck_more {left total : Nat} (found : Sparse.get s.homes.acks (dirKey line (boardOf core)) = some (left, total))
    (more : ¬ left ≤ 1) : s.countAck line core q =
    { s with homes := { s.homes with acks := Sparse.put s.homes.acks (dirKey line (boardOf core)) (left - 1, total) } } := by
  simp only [countAck, found, if_neg more]

end State

open State

/-- Settles O44: the event takes the first message about its line, and each row of the protocol has its lemma. -/
theorem coherenceEvents : Obligations.CoherenceEvents := by
  unfold Obligations.CoherenceEvents
  intro s line core rest k e l _ first b r sends open_ free probed acks mine
  refine ⟨?_, ?_, ?_, ?_, ?_, ?_, ?_, ?_, ?_, ?_, ?_, ?_, ?_, ?_, ?_⟩
  · -- GetS of the one reader
    rintro rfl ⟨⟨idle, still⟩, host⟩ unheld
    exact row_of (request_goes first rfl idle (lineHeld_read still _) (wantsHost_free host)) (homeGetS_exclusive (s := s.withMsgs rest) unheld)
      (by simp) (dir_setDir_owned rfl)
  · -- GetS of a line that others share
    rintro rfl idle still unowned ⟨o, low, held⟩
    have shared : s.unheld line = false := Bool.eq_false_iff.mpr fun unheld => held (unheld_iff.mp unheld o low)
    exact row_of (request_goes first rfl idle still (wantsHost_getS shared)) (homeGetS_shared (s := s.withMsgs rest) unowned shared) (by simp)
      fun d found => dir_addSharer (s := s.withMsgs rest) found
  · -- GetS of a line that has an owner
    rintro rfl idle still p o st owned
    exact congrArg Host.Outcome.next ((request_goes first rfl idle still (wantsHost_getS (unheld_of_owner owned))).trans
      (homeGetS_forwarded (s := s.withMsgs rest) owned))
  · -- GetM of a line that has none
    rintro rfl ⟨⟨idle, still⟩, host⟩ unowned
    exact row_of (request_goes first rfl idle still (wantsHost_free host)) (homeGetM_unowned (s := s.withMsgs rest) unowned) (by simp [probed])
      ⟨dir_counts_own, dir_counts_other⟩
  · -- GetM of a line that has an owner
    rintro rfl ⟨⟨idle, still⟩, host⟩ p o st owned other
    exact row_of (request_goes first rfl idle still (wantsHost_free host)) (homeGetM_owned (s := s.withMsgs rest) owned other)
      (by simp [probed]) ⟨dir_counts_own, dir_counts_other⟩
  · -- Upgrade
    rintro cs rfl ⟨⟨idle, still⟩, host⟩ unowned found pointers sharer copy
    exact row_of (request_goes first rfl idle still (wantsHost_free host))
      (homeGetM_sharer (s := s.withMsgs rest) unowned found pointers sharer copy) (by simp [probed]) ⟨dir_counts_own, dir_counts_other⟩
  · -- a request that waits
    intro i which
    have asks : k.isRequest = true := by rcases which with ⟨rfl, -⟩ | ⟨rfl, -⟩ | ⟨rfl, -⟩ <;> rfl
    have event : exec i s = .next (s.homeRequest line core k) := by rcases which with ⟨rfl, rfl⟩ | ⟨rfl, rfl⟩ | ⟨rfl, rfl⟩ <;> rfl
    refine ⟨fun busy => ?_, fun held => ?_, fun ⟨idle, still⟩ host takes => ?_⟩
    · rw [event, homeRequest_inProgress first asks busy]
    · rw [event, homeRequest_held first asks held]
    · rw [event, homeRequest_first first asks idle, takeRequest_host (lineHeld_read still _) (wantsHost_taken host takes)]
  · -- PutS
    rintro cs rfl found pointers sharer alone
    refine row_of (handle_first first rfl) (homePut_sharer (s := s.withMsgs rest) alone found pointers sharer) (by simp) fun d there => ?_
    cases eq_of_dir_setDir there
    exact ⟨rfl, rfl⟩
  · -- PutE, PutM, PutO
    rintro d st rfl found owned alone
    refine row_of (handle_first first rfl) (homePut_owner (s := s.withMsgs rest) alone found owned) (by simp) fun d there => ?_
    cases eq_of_dir_setDir there
    rfl
  · -- a probe at its core
    intro q asks here copy coherent
    have probe := probeAt_requester asks here
    refine ⟨?_, ?_, ?_, ?_⟩
    · rintro rfl
      exact row_of (handle_first first probe) (deliver_inv_here (s := s.withMsgs rest) here) coreInv_msgs
        (l1_coreInv (s := s.withMsgs rest) copy coherent)
    · rintro rfl
      exact row_of (handle_first first probe) (deliver_fwdGetM_here (s := s.withMsgs rest) here) (by simp [coreFwdGetM])
        (l1_dropCopy (s := s.withMsgs rest) copy coherent)
    · rintro rfl dirty
      exact row_of (handle_first first probe)
        ((deliver_fwdGetS_here (s := s.withMsgs rest) here).trans (coreFwdGetS_dirty (s := s.withMsgs rest) copy dirty)) (by simp)
        ⟨l1_addSharer.trans (l1_setOwner.trans l1_setL1), owner_addSharer (dir_setDir_owned rfl) rfl⟩
    · rintro rfl clean
      exact row_of (handle_first first probe)
        ((deliver_fwdGetS_here (s := s.withMsgs rest) here).trans (coreFwdGetS_exclusive (s := s.withMsgs rest) copy clean)) (by simp)
        (l1_addSharer.trans (l1_addSharer.trans (l1_setOwner.trans l1_setL1)))
  · -- a probe at the router of another partition
    intro q asks stops
    have probe := probeAt_requester asks stops
    refine ⟨?_, ?_, ?_⟩
    · rintro rfl
      refine congrArg Host.Outcome.next ((handle_first first probe).trans ((deliver_inv_dropped (s := s.withMsgs rest) stops).trans ?_))
      exact ackInv_eq
    · rintro rfl
      exact congrArg Host.Outcome.next ((handle_first first probe).trans (deliver_fwdGetM_dropped (s := s.withMsgs rest) stops))
    · rintro rfl
      exact row_of (handle_first first probe) (deliver_fwdGetS_dropped (s := s.withMsgs rest) stops) routerFwd_msgs
        ⟨routerFwd_leaves, routerFwd_cores⟩
  · -- PutAck
    rintro stale rfl
    exact row_of (handle_first first rfl) rfl (List.append_nil _).symm mshr_editMshr
  · -- data at the requester of a GetS
    rintro st m rfl found reads
    exact row_of (handle_first first rfl) (finishRequest_reads (s := (s.withMsgs rest).notes line core _) (mshr_notes found) reads rfl)
      (List.append_nil _).symm ⟨mshr_obtains, l1_obtains⟩
  · -- an acknowledgement at its board
    rintro q left total rfl found
    by_cases last : left ≤ 1
    · simp only [last, if_true]
      exact row_of (handle_first first rfl) (countAck_last (s := s.withMsgs rest) found last) (by simp) (Sparse.get_erase_same ..)
    · simp only [last, if_false]
      exact row_of (handle_first first rfl) (countAck_more (s := s.withMsgs rest) found last) (List.append_nil _).symm
        (Sparse.get_put_same ..)
  · -- acknowledgements at the requester of a GetM
    intro st m n j which found writes grant wanted
    have kind : k.isResponse = true := by rcases which with ⟨rfl, -⟩ | rfl <;> rfl
    have row : (s.withMsgs rest).deliverMsg ⟨line, core, k⟩ =
        ((s.withMsgs rest).notes line core fun m => { m with got := m.got + j }).finishRequest line core := by
      rcases which with ⟨rfl, rfl⟩ | rfl <;> rfl
    have noted := mshr_notes (s := s.withMsgs rest) (g := fun m => { m with got := m.got + j }) found
    by_cases all : m.got + j = n
    · refine row_of (handle_first first kind) (row.trans (finishRequest_owns noted writes grant (wanted.trans (congrArg some all.symm))))
        (List.append_nil _).symm ⟨fun _ => ⟨?_, ?_, ?_⟩, fun short => absurd all short⟩
      · rw [core_editCore_same]
        exact mshr_obtains
      · rw [l1, core_editCore_same]
        exact l1_obtains
      · rw [core_editCore_same]
        exact all
    · exact row_of (handle_first first kind)
        (row.trans (finishRequest_waits noted writes grant fun same => all (Option.some.inj (wanted.symm.trans same)).symm))
        (List.append_nil _).symm ⟨fun same => absurd same all, fun _ => noted⟩

end Sys2Proof.Machine
end

section
/-!
WORDS OF INSTRUCTIONS (O54, O55).

Each row of the opcode table has its round trip under Laws/PerInstr: this is the dispatch over the rows, in their order. Words of the spec
decode to what they stand for because the encoder gives them.
-/

namespace Sys2Proof.Laws.RoundTrip

/-- Settles O54, row by row: the words hold the opcode and every field (`decode_pack`), the selectors of a well-formed instruction name it
among those of its opcode (`m_of_reject`, `x_of_reject`), and an event is not well-formed (`event`). -/
theorem decodeAfterEncode : Obligations.DecodeAfterEncode := fun i =>
  i.casesOn (motive := Statement)
    nop add addi sub mul mulh mulhu div divu rem remu and andi or ori xor xori andn shl shr sra rotl clz ctz popc brev bswap min max
    minu maxu sel extb insb li lih lit lea cmp cmpi b bp call calli jmpi ret throw plim pwhile pand por pxor pnot pfirst pcnt pmovxRd
    pmovxWr vwid vfadd vfsub vfmul vfma vfms vfnma vfnms vfmin vfmax vfabs vfneg vfcps vfdiv vfsqrt vfrcp vfrsq vfexp2 vflog2 vfsin
    vfcos vftanh vfcmp vfclass vfcvt vfrnd vfscale vfdot2 vadd vsub vmul vmulh vmadd vand vor vxor vandn vshl vshr vsra vmin vmax vminu
    vmaxu vabs vadds vsubs vcmp vsel vclz vpopc vtag vfill vmov vrel vshuf vperm vbcast vslideu vslided vcomp vexp vzip vuzip vins vext
    vredadd vredmax vredmin vredand vredor vscanadd vicvt vld vst vlds vsts vgath vscat vldff ld st lds sts ldf ste few ldx stx pref
    cflush cinv aadd aand aor axor amin amax aminu amaxu aswap acas agts avcas apcas fence acq rel drain watch unwatch sleep bar barw
    putn fempty ffull loop lend lbrk dsplit djoin qpush qpop qbr iter tidx texp brko spawn susp resm finb fine finw migr armt msg launch
    trigger waitp gang mma mprog mzero mrd mwr mst eset eget ego ecan eqry cpy cpyr cpyrow cbook mres tstop tstart tread twrite tstep
    tgrant trevoke srd swr vtime trap brk psplit pmerge genbump cast step tlbinv cohere exit exitChild yield barrelRefill quantumEnd
    itemDispatch spillReload continuationPickup migrationArrival memoryReply syncRetry launchAdmission launchAging launchCompletion
    stealProbe armtDeferredPush tempoDelivery breakIndexRecord matrixCommandRun gangBarrier ksplitSumArrival tileCommandRun mstRun
    copyCommandRun cpyrRun cpyrowRun cbookRun homeGets homeGetm homeUpgrade homePuts homePutOwner coreInv coreFwdGets coreFwdGetm
    corePutack requesterResponse routerProbeDrop hostSnoop hostSnoopInvalidate backInvalidateResponse hostOwnershipRequest leaseExpiry
    wrapPause leaseSyncSend fabricLeaseSync fabricPauseControl tokenRefill putnDelivery stop resume switch prefetch clockStopAtT
    sweepToken unitMove scrubWalkEnd create destroy quota inval hdmDecoderCommit hostMemRead hostMemWrite fabricLdx fabricStx
    fabricRemoteAtomic fabricMsgMailbox fabricMsgTag fabricDataResponse fabricAck fabricFailure streamResend streamRecordFree
    unexpectedPacketTimeout flitCrcFail replayRequest laneFailure linkSilenceEnd portWreqX4 portWreqX8 portWreqRetrain portEnWrite
    tierLinkDown d2dLaneFailure powerUp bgo bootImageLoad bootBlock csel ifreqWrite freqTransition throttleUpdate wearUpdate
    bar0UnsupportedAccess pldmRequest spdmRequest registerWrite leaseClockPassesVismax neighbourStalemate jobEntryWrite
    uncorrectableError

theorem decodeWords_of_encode {i : Instr} {ws : List (BitVec 32)} (fits : i.wellFormed = true) (words : encode i = ws) :
    decodeWords ws = .ok (i, []) :=
  words ▸ decodeAfterEncode i fits

/-- Settles O55: the words are those in which the instructions, each within its encoding's limits, are encoded. -/
theorem wordsOfTheSpec : Obligations.WordsOfTheSpec := by
  refine ⟨?_, ?_, ?_, ?_, ?_, ?_, ?_, ?_, ?_⟩ <;> exact decodeWords_of_encode (by decide) (by decide)

end Sys2Proof.Laws.RoundTrip
end

section
/-!
A FALSE GUARD (O1).

The meaning of every encoded instruction is an issue of its fields (`exec_issues`), and an issue whose guard is false moves the pc alone
(`issue_false`).
-/

namespace Sys2Proof.Machine

variable {i : Instr} {f : Fields}

/-- SRD issues in one of two ways, by the register that it reads. -/
theorem execSrd_issues (f : Fields) : ∃ k body, ∀ s, execSrd f s = (issue k f body).outcome s := by
  unfold execSrd
  split
  · exact ⟨_, _, fun _ => rfl⟩
  · exact ⟨_, _, fun _ => rfl⟩

/-- THE ISSUE is the whole meaning of an encoded instruction; an event has no entry in the table. -/
theorem exec_issues (encoded : i.entry.map (·.2.2) = some f) : ∃ k body, ∀ s, exec i s = (issue k f body).outcome s := by
  cases i with
  | srd =>
    cases encoded
    exact execSrd_issues _
  | _ => cases encoded <;> exact ⟨_, _, fun _ => rfl⟩

/-- Settles O1: every encoded instruction is an issue, which a false guard ends with the pc behind the instruction. -/
theorem falseGuardOnlyMovesPc : Obligations.FalseGuardOnlyMovesPc := by
  intro s u st i f encoded hc hs out shut
  obtain ⟨k, body, issues⟩ := exec_issues encoded
  exact (issues s).trans (Act.outcome_ok (issue_false hc hs out shut k body))

end Sys2Proof.Machine
end

section
/-!
OPERANDS OF SCALAR INSTRUCTIONS (O2).

What A, B and an immediate are for each kind (`srcA_near` to `srcB_constant`), what a read of the tempo buffer gives, waits for or ends
with (`readTempo_none` to `readTempo_waits`), and that an instruction ends as its first source does (`fixed_stopped`).
-/

namespace Sys2Proof.Machine

variable {s t : State} {u r d j : Nat} {st : Strand} {f : Fields} {l : Launch} {e : Export} {v : FwdVal} {isItem isV : Bool}

/-! ### Steps that stop the instruction -/

theorem trapPlain_run {α : Type} (hc : s.cur = some u) (hs : s.strand? u = some st) (out : st.region = none) (cause : Nat) : ∃ x y,
    (trapPlain cause : Act α) s = (.error .done, ({ s with free := s.free + 2 } : State).takeTrap u cause x st.pc y) := by
  rw [trapPlain, freeValue, Act.bind_ok (stateS_run ..), Act.bind_ok (stateS_run ..)]
  exact ⟨_, _, trapAt_run (s := { s with free := s.free + 2 }) hc hs out ..⟩

theorem terminate_run {α : Type} (hc : s.cur = some u) : (terminate : Act α) s = (.error .done, s.endStrand u 13) := by
  rw [terminate, Act.bind_ok (me_run hc), Act.bind_ok (editS_run ..), stopWith_run]

/-- An instruction ends as its first source does. -/
theorem fixed_stopped {α : Type} {src : Act α} (h : Issues s u st f) (stopped : src s = (.error .done, t)) (k : Klass)
    (g : α → Act Unit) : (fixed k f (src >>= g)).outcome s = .next t := by
  refine Act.outcome_done ?_
  rw [fixed_run h, bind_assoc, Act.bind_error stopped]

/-! ### Registers -/

@[simp] theorem State.slowed_mem (s : State) (u : Nat) (st : Strand) (k : Bool) : (s.slowed u st k).mem = s.mem := by cases k <;> rfl

/-- An empty x register parks the strand, after the turn that its partition costs. -/
theorem readX_empty (hc : s.cur = some u) (hs : s.strand? u = some st) (out : st.region = none) (empty : st.xFull.getLsbD r = false) :
    readX r s = (.error .done, (s.slowed u st (slowX r)).leave u .parked (.fullX r) 4) := by
  rw [readX, Act.bind_ok (self_run hc hs), Act.bind_ok (inAccess_run hc hs out), Act.bind_ok (noteSlow_run hc hs out _)]
  simp only [out, bit64, empty, Bool.false_eq_true, if_false]
  exact park_run ((State.slowed_cur ..).trans hc) (State.slowed_strand hs _) (by simpa using out) _

theorem readC_run (hc : s.cur = some u) (hs : s.strand? u = some st) (r : Nat) :
    readC r s = (.ok ((s.core st.core).cValue r), s) := by
  rw [readC, Act.bind_ok (self_run hc hs), readS_run]

/-! ### Operands by their kinds (06 R152 to R154, 07 R165) -/

theorem srcA_near (near : f.ta = 0) : srcA f = if f.x.getLsbD 1 then readC f.a.toNat else readX f.a.toNat := by
  rw [srcA, near]
  rfl

theorem srcB_register (kind : f.form = .base ∨ f.form = .ext ∧ f.bk = 0) (near : f.tb = 0) :
    srcB f = if f.x.getLsbD 2 then readC f.b.toNat else readX f.b.toNat := by
  have register : srcB f = operandX (f.x.getLsbD 2) f.b f.tb := by
    rcases kind with base | ⟨ext, bk⟩
    · rw [srcB, operandBWith, base]
    · rw [srcB, operandBWith, ext, bk]
      rfl
  rw [register, near]
  rfl

theorem srcB_immediate (ext : f.form = .ext) (kind : f.bk = 1) : srcB f = pure (f.imm20.signExtend 64) := by
  rw [srcB, operandBWith, ext, kind]
  rfl

theorem srcB_constant (ext : f.form = .ext) (kind : 2 ≤ f.bk.toNat) : srcB f = constant (f.imm20.toNat % 256) := by
  simp only [srcB, operandBWith, ext]
  split
  · omega
  · omega
  · rfl

/-! ### Tempo reads (12 R279, R285) -/

/-- Of the exports that name the register the first is read. -/
theorem Launch.tempoIndex_some (item : isItem = true) (within : d ≤ l.maxd) (there : l.exports[j]? = some e)
    (reads : e.isV = isV ∧ e.reg = r) (first : ∀ i < j, ∀ e', l.exports[i]? = some e' → ¬ (e'.isV = isV ∧ e'.reg = r)) :
    l.tempoIndex isItem isV r d = some j := by
  obtain ⟨inside, rfl⟩ := List.getElem?_eq_some_iff.mp there
  have found : l.exports.findIdx (fun e => e.isV == isV && e.reg == r) = j := by
    refine (List.findIdx_eq inside).mpr ⟨by simpa using reads, fun i before => ?_⟩
    simpa using first i before _ (List.getElem?_eq_getElem (before.trans inside))
  have exports : l.exports ≠ [] := List.ne_nil_of_length_pos (Nat.zero_lt_of_lt inside)
  simp [Launch.tempoIndex, found, exports, within, inside, item]

theorem Launch.tempoIndex_none (bad : isItem = false ∨ l.maxd < d ∨ ∀ e ∈ l.exports, ¬ (e.isV = isV ∧ e.reg = r)) :
    l.tempoIndex isItem isV r d = none := by
  rcases bad with item | far | absent
  · simp [Launch.tempoIndex, item]
  · simp [Launch.tempoIndex, far]
  · have missing : l.exports.findIdx (fun e => e.isV == isV && e.reg == r) = l.exports.length :=
      List.findIdx_eq_length.mpr fun e known => by simpa using absent e known
    simp [Launch.tempoIndex, missing]

section
variable (hc : s.cur = some u) (hs : s.strand? u = some st) (launched : s.launch? st.lrec = some l)
include hc hs launched

theorem readTempo_none (bad : l.tempoIndex st.isItem isV r d = none) : readTempo isV r d s = illegalForm s := by
  rw [readTempo, Act.bind_ok (self_run hc hs), Act.bind_ok (readS_run ..), launched]
  simp only [Option.bind_some, bad]

variable (index : l.tempoIndex st.isItem isV r d = some j)
include index

theorem readTempo_some : readTempo isV r d s = (if s.broken st then terminate else readTempo.entry st d j) s := by
  rw [readTempo, Act.bind_ok (self_run hc hs), Act.bind_ok (readS_run ..), launched]
  simp only [Option.bind_some, index]
  exact Act.bind_ok (readS_run ..)

theorem readTempo_ends (past : s.broken st = true) : readTempo isV r d s = (.error .done, s.endStrand u 13) := by
  rw [readTempo_some hc hs launched index, past]
  exact terminate_run hc

theorem readTempo_value (goes : s.broken st = false) (come : Sparse.get st.fwd (fwdKey d j) = some v) :
    readTempo isV r d s = (.ok v, s) := by
  rw [readTempo_some hc hs launched index, goes, readTempo.entry, come]
  rfl

theorem readTempo_waits (out : st.region = none) (goes : s.broken st = false) (empty : Sparse.get st.fwd (fwdKey d j) = none) :
    readTempo isV r d s = (.error .done, s.leave u .parked (.forward d j) 5) := by
  rw [readTempo_some hc hs launched index, goes, readTempo.entry, empty]
  exact park_run hc hs out _

end

theorem operandX_far (isC : Bool) (r : BitVec 6) {n : BitVec 2} (far : n ≠ 0) :
    operandX isC r n = readTempo false r.toNat n.toNat >>= fun v => pure (v.bits.truncate 64) := if_pos (bne_iff_ne.mpr far)

theorem operandV_far (r : BitVec 6) {n : BitVec 2} (far : n ≠ 0) :
    operandV r n = readTempo true r.toNat n.toNat >>= fun v => pure (v.bits, v.tag) := if_pos (bne_iff_ne.mpr far)

theorem srcA_tempo (far : f.ta ≠ 0) (read : readTempo false f.a.toNat f.ta.toNat s = (.ok v, t)) :
    srcA f s = (.ok (v.bits.truncate 64), t) := by
  rw [srcA, operandX_far _ _ far, Act.bind_ok read, Act.pure_run]

theorem operandV_tempo {r : BitVec 6} {n : BitVec 2} (far : n ≠ 0) (read : readTempo true r.toNat n.toNat s = (.ok v, t)) :
    operandV r n s = (.ok (v.bits, v.tag), t) := by
  rw [operandV_far _ far, Act.bind_ok read, Act.pure_run]

/-- An ADD whose A has a distance ends as the read of the buffer does. -/
theorem add_tempoStopped (h : Issues s u st f) (far : f.ta ≠ 0) (stopped : readTempo false f.a.toNat f.ta.toNat s = (.error .done, t)) :
    exec (.add f) s = .next t := by
  have source : srcA f s = (.error .done, t) := by rw [srcA, operandX_far _ _ far, Act.bind_error stopped]
  exact fixed_stopped h source ..

/-- Settles O2: sources by their kinds, then the entry of the buffer by its index among the exports, then an empty register A, in which
every instruction that reads it ends alike. -/
theorem scalarOperands : Obligations.ScalarOperands := by
  refine ⟨fun s u st f h => ?_, fun s u st f l isV h launched far => ?_, fun s u st f h near plain empty => ?_⟩
  · -- each kind of source where it is ready
    have hc := h.issuer
    have hs := h.strand
    refine ⟨fun r full => readX_run hc hs h.outside full, fun near plain => ?_, fun near shared => ?_, fun l lit => ?_, fun l lit => ?_,
      fun ext kind => ?_, fun ext kind => ?_, fun kind near => ?_, fun base => ?_, fun a b t read => read.quiet h⟩
    · rw [srcA_near near, plain]
      rfl
    · rw [srcA_near near, shared]
      exact readC_run hc hs _
    · rw [srcB, operandBWith, lit]
      rfl
    · rw [srcB, operandBWith, lit]
      rfl
    · rw [srcB_immediate ext kind, Act.pure_run]
    · rw [srcB_constant ext kind]
    · rw [srcB_register kind near, ← readC_run hc hs]
      split <;> rfl
    · rw [operandI, base]
      rfl
  · -- a source with a distance
    have hc := h.issuer
    have hs := h.strand
    refine ⟨fun j e item within there reads first => ?_, ?_⟩
    · have index : l.tempoIndex st.isItem isV f.a.toNat f.ta.toNat = some j := Launch.tempoIndex_some item within there reads first
      refine ⟨fun goes v come => ?_, ?_, ?_⟩
      · have value := readTempo_value hc hs launched index goes come
        exact ⟨fun scalar => srcA_tempo far (scalar ▸ value), fun lane => operandV_tempo far (lane ▸ value)⟩
      · rintro goes empty rfl
        exact add_tempoStopped h far (readTempo_waits hc hs launched index h.outside goes empty)
      · rintro past rfl
        exact add_tempoStopped h far (readTempo_ends hc hs launched index past)
    · rintro bad rfl
      obtain ⟨x, y, trap⟩ := trapPlain_run hc hs h.outside Cause.illegalForm
      exact ⟨x, y, add_tempoStopped h far ((readTempo_none hc hs launched (Launch.tempoIndex_none bad)).trans trap)⟩
  · -- an empty register A
    have stopped : srcA f s = (.error .done, (s.slowed u st (slowX f.a.toNat)).leave u .parked (.fullX f.a.toNat) 4) := by
      rw [srcA_near near, plain]
      exact readX_empty h.issuer h.strand h.outside empty
    have slow := State.slowed_strand h.strand (slowX f.a.toNat)
    exact ⟨_, _, fixed_stopped h stopped .., fixed_stopped h stopped .., State.leave_strand slow .., rfl, rfl, Strand.slowed_pc ..,
      Strand.slowed_x .., Strand.slowed_xFull .., Strand.slowed_pw .., (State.leave_mem ..).trans (State.slowed_mem ..)⟩

end Sys2Proof.Machine
end

section
/-!
RESULTS OF THE SCALAR INTEGER INSTRUCTIONS (O3).

An instruction ends with D once its sources are read (`alu2_eq` to `aluI_eq`); what the functions of 07 R166 compute is said about numbers
and bits apart from that.
-/

namespace Sys2Proof.Machine

variable {α : Type} {s t r : State} {u n : Nat} {st : Strand} {f : Fields} {a b d v : Word} {k : Bool}

/-! ### The end of an instruction, for the strand that its sources leave -/

theorem Strand.slowed_unique {k' : Bool} (there : t.strand? u = some (st.slowed k)) (there' : t.strand? u = some (st.slowed k')) :
    st.slowed k' = st.slowed k := Option.some.inj (there'.symm.trans there)

/-- The steps that quiet steps lead to issue for the same strand. -/
theorem Issues.next {src : Act α} (h : Issues s u st f) (act : QuietAct src) {x : α} (read : src s = (.ok x, t)) :
    ∃ k, Quiet s u st t ∧ t.strand? u = some (st.slowed k) ∧ Issues t u (st.slowed k) f := by
  have quiet := act.quiet h.issuer h.strand h.outside read
  obtain ⟨k, there⟩ := quiet.strand h.strand
  exact ⟨k, quiet, there, h.quiet quiet there⟩

/-- Two quiet steps one after the other. -/
theorem Issues.quiet_two {β : Type} {src : Act α} {src' : Act β} (h : Issues s u st f) (act : QuietAct src) (act' : QuietAct src')
    {x : α} {y : β} (read : src s = (.ok x, r)) (read' : src' r = (.ok y, t)) : Quiet s u st t := by
  obtain ⟨k, quiet, there, i⟩ := h.next act read
  exact quiet.trans h.strand there (act'.quiet i.issuer i.strand i.outside read')

section
variable (h : Issues s u st f) (there : t.strand? u = some (st.slowed k))
include h there

theorem readAndWrite_eq {src : Act α} {x : α} (quiet : Quiet s u st t) (kl : Klass) (g : α → Word) (read : src s = (.ok x, t)) :
    (fixed kl f (src >>= fun x => writeD f (g x))).outcome s = .next (t.takesD u (st.slowed k) f (g x)) := by
  obtain ⟨k', there', ends⟩ := readAndWrite h quiet kl g read
  exact ends.trans (by rw [Strand.slowed_unique there there'])

theorem alu2_eq (read : Sources f s a b t) (op : Word → Word → Word) :
    (alu2 f op).outcome s = .next (t.takesD u (st.slowed k) f (op a b)) := by
  obtain ⟨k', there', ends⟩ := alu2_run h read op
  exact ends.trans (by rw [Strand.slowed_unique there there'])

theorem alu2_widths (read : Sources f s a b t) (op : Word → Word → Word) (op32 : BitVec 32 → BitVec 32 → BitVec 32) :
    (alu2 f (widths f op op32)).outcome s = .next (t.takesD u (st.slowed k) f
      (if f.m = 1 then (op32 (a.truncate 32) (b.truncate 32)).signExtend 64 else op a b)) := by
  rw [alu2_eq h there read, widths]
  congr 1
  by_cases word : f.m = 1
  · simp only [word, beq_self_eq_true, if_true, sx64]
  · simp only [word, beq_iff_eq, if_false]

theorem alu1_eq (read : srcA f s = (.ok a, t)) (op : Word → Word) :
    (alu1 f op).outcome s = .next (t.takesD u (st.slowed k) f (op a)) :=
  readAndWrite_eq h there ((srcA_quiet f).quiet h.issuer h.strand h.outside read) .access op read

theorem aluI_eq (read : srcA f s = (.ok a, r)) (imm : operandI f r = (.ok b, t)) (op : Word → Word → Word) :
    (aluI f op).outcome s = .next (t.takesD u (st.slowed k) f (op a b)) := by
  obtain ⟨k', there', ends⟩ := aluI_run h read imm op
  exact ends.trans (by rw [Strand.slowed_unique there there'])

theorem li_run (imm : operandI f s = (.ok v, t)) : execLi f s = .next (t.takesD u (st.slowed k) f v) :=
  readAndWrite_eq h there ((operandI_quiet f).quiet h.issuer h.strand h.outside imm) .access id imm

/-- LIT adds to the pc of the instruction, which its operand leaves (07 R171). -/
theorem lit_run (imm : operandI f s = (.ok v, t)) : execLit f s = .next (t.takesD u (st.slowed k) f (st.pc + v * 4)) := by
  have quiet := (operandI_quiet f).quiet h.issuer h.strand h.outside imm
  have i := h.quiet quiet there
  refine Act.outcome_ok ((fixed_run h ..).trans ?_)
  rw [bind_assoc, Act.bind_ok imm, bind_assoc, Act.bind_ok (thisPc_run i.issuer i.strand i.outside), Strand.slowed_pc]
  exact writeD_finish_run i.issuer i.strand i.outside _

theorem lih_run (imm : operandI f s = (.ok v, r)) (old : oldD f r = (.ok d, t)) :
    execLih f s = .next (t.takesD u (st.slowed k) f ((v.truncate 32 : BitVec 32) ++ (d.truncate 32 : BitVec 32))) := by
  have ends := readAndWrite_eq (src := do let v ← operandI f; let d ← oldD f; pure (v, d)) (x := (v, d)) h there
    (h.quiet_two (operandI_quiet f) (oldD_quiet f) imm old) .access
    (fun p => (p.1.truncate 32 : BitVec 32) ++ (p.2.truncate 32 : BitVec 32)) (by rw [Act.bind_ok imm, Act.bind_ok old, Act.pure_run])
  simpa [execLih] using ends

/-- SEL chooses by lane 0 of p(M), which its operands leave (07 R166). -/
theorem sel_run (read : Sources f s a b t) :
    execSel f s = .next (t.takesD u (st.slowed k) f (if st.lane0 f.m.toNat then a else b)) := by
  have i := h.quiet (read.quiet h) there
  have lane : (st.slowed k).lane0 = st.lane0 := by cases k <;> rfl
  obtain ⟨r, readA, readB⟩ := read
  refine Act.outcome_ok ((fixed_run h ..).trans ?_)
  rw [bind_assoc, Act.bind_ok readA, bind_assoc, Act.bind_ok readB, bind_assoc, Act.bind_ok (self_run i.issuer i.strand), bind_assoc,
    Act.bind_ok (inAccess_run i.issuer i.strand i.outside), ← lane]
  exact writeD_finish_run i.issuer i.strand i.outside _

/-- LEA adds its scaled source, and IMM20 where the form has one and B is a register (07 R170). -/
theorem lea_run (read : Sources f s a b t) :
    execLea f s = .next (t.takesD u (st.slowed k) f
      (a + (b <<< (f.m.toNat % 4)) + if f.form = .ext ∧ f.bk = 0 then f.imm20.signExtend 64 else 0)) := by
  refine (alu2_eq h there read fun a b => a + (b <<< (f.m.toNat % 4)) + _).trans ?_
  cases f.form <;> simp [sx64]

end

theorem nop_run (h : Issues s u st f) : execNop f s = .next (s.setStrand u (st.done f)) :=
  Act.outcome_ok ((fixed_run h ..).trans (finish_run h.issuer h.strand h.outside f))

/-! ### What the functions compute (07 R166, R167) -/

/-- The count of a shift of 32 bits is bits [4:0] of the whole word. -/
theorem count32 (b : Word) : (b.truncate 32).toNat % 32 = b.toNat % 32 := by
  rw [BitVec.truncate, BitVec.toNat_setWidth]
  exact Nat.mod_mod_of_dvd _ (by decide)

/-- The bit behind the leading zeros is the highest one. -/
theorem leadingZeros_spec (nonzero : n ≠ 0) (small : n < 2 ^ 64) :
    leadingZeros 64 n < 64 ∧ n / 2 ^ (63 - leadingZeros 64 n) = 1 := by
  have top : n.log2 < 64 := (Nat.log2_lt nonzero).mpr small
  have zeros : leadingZeros 64 n = 63 - n.log2 := by rw [leadingZeros, Nat.mod_eq_of_lt small, if_neg nonzero]
  have place : 63 - leadingZeros 64 n = n.log2 := by omega
  refine ⟨by omega, ?_⟩
  rw [place]
  refine Nat.div_eq_of_lt_le (by simpa using Nat.log2_self_le nonzero) ?_
  have := Nat.lt_log2_self (n := n)
  omega

theorem clz_spec (a : Word) :
    let c := BitVec.ofNat 64 (leadingZeros 64 a.toNat)
    if a = 0 then c = 64 else c.toNat < 64 ∧ a.toNat / 2 ^ (63 - c.toNat) = 1 := by
  dsimp only
  split
  next zero => subst zero; rfl
  next nonzero =>
    obtain ⟨small, top⟩ := leadingZeros_spec (n := a.toNat) (by simpa [BitVec.toNat_eq] using nonzero) a.isLt
    rw [BitVec.toNat_ofNat, Nat.mod_eq_of_lt (by omega)]
    exact ⟨small, top⟩

theorem ctz_spec (a : Word) :
    let z := BitVec.ofNat 64 (trailingZeros a.toNat)
    if a = 0 then z = 64 else a.getLsbD z.toNat = true ∧ ∀ i < z.toNat, a.getLsbD i = false := by
  dsimp only
  split
  next zero => subst zero; decide
  next nonzero =>
    cases found : (List.range 64).find? fun i => a.toNat.testBit i with
    | none =>
      refine absurd (BitVec.eq_of_getLsbD_eq fun i small => ?_) nonzero
      simpa [← BitVec.testBit_toNat] using List.find?_eq_none.mp found i (List.mem_range.mpr small)
    | some z =>
      obtain ⟨one, inside, below⟩ := List.find?_range_eq_some.mp found
      have zeros : trailingZeros a.toNat = z := by rw [trailingZeros, found]; rfl
      have small : z < 64 := List.mem_range.mp inside
      rw [zeros, BitVec.toNat_ofNat, Nat.mod_eq_of_lt (by omega)]
      exact ⟨one, fun i less => by simpa [← BitVec.testBit_toNat] using below i less⟩

theorem popc_spec (a : Word) :
    (BitVec.ofNat 64 (onesIn 64 a.toNat)).toNat = ((List.range 64).filter fun i => a.getLsbD i).length := by
  have bound : onesIn 64 a.toNat ≤ 64 := (List.length_filter_le ..).trans (by simp)
  rw [BitVec.toNat_ofNat, Nat.mod_eq_of_lt (by omega)]
  rfl

theorem reverseBits_bit (a : Word) {i : Nat} (inside : i < 64) : (reverseBits a).getLsbD i = a.getLsbD (63 - i) := by
  rw [reverseBits, BitVec.getLsbD_reverse, BitVec.getMsbD]
  simp [inside]

theorem append_upper (v d : Word) : (v.truncate 32 ++ d.truncate 32).extractLsb' 32 32 = v.extractLsb' 0 32 := by
  refine BitVec.eq_of_getLsbD_eq fun i small => ?_
  rw [BitVec.getLsbD_extractLsb', BitVec.getLsbD_append]
  simp [small]

theorem append_lower (v d : Word) : (v.truncate 32 ++ d.truncate 32).extractLsb' 0 32 = d.extractLsb' 0 32 := by
  refine BitVec.eq_of_getLsbD_eq fun i small => ?_
  rw [BitVec.getLsbD_extractLsb', BitVec.getLsbD_append]
  simp [small]

/-- A digit of a number, where no digit is out of range. -/
theorem ofDigits_div_mod {p i : Nat} {l : List Nat} (small : ∀ c ∈ l, c < p) (inside : i < l.length) :
    Nat.ofDigits p l / p ^ i % p = l[i] := by
  have first := small _ (List.getElem_mem inside)
  rw [Nat.ofDigits_div_pow_eq_ofDigits_drop i (Nat.zero_lt_of_lt first) l small, List.drop_eq_getElem_cons inside, Nat.ofDigits_cons,
    Nat.add_mul_mod_self_left, Nat.mod_eq_of_lt first]

/-- The bytes of a word, the highest first. -/
def bytesDown (a : Word) : List Nat := (List.range 8).map fun i => (a.extractLsb' (56 - 8 * i) 8).toNat

theorem swapBytes_eq (a : Word) : swapBytes a = BitVec.ofNat 64 (Nat.ofDigits 256 (bytesDown a)) := by
  have byte (j : Nat) : bitsOf a.toNat (8 * j + 7) (8 * j) = (a.extractLsb' (8 * j) 8).toNat := by
    rw [bitsOf, BitVec.extractLsb'_toNat, show 8 * j + 7 - 8 * j + 1 = 8 by omega]
  simp only [swapBytes, byte, bytesDown, List.range, List.range.loop, List.foldl, List.map, Nat.ofDigits_cons, Nat.ofDigits_nil]
  congr 1
  ring

theorem swapBytes_byte (a : Word) {i : Nat} (inside : i < 8) : (swapBytes a).extractLsb' (8 * i) 8 = a.extractLsb' (56 - 8 * i) 8 := by
  have small : ∀ c ∈ bytesDown a, c < 256 := by
    intro c there
    obtain ⟨j, -, rfl⟩ := List.mem_map.mp there
    exact (a.extractLsb' (56 - 8 * j) 8).isLt
  have whole : Nat.ofDigits 256 (bytesDown a) < 2 ^ 64 := by
    simpa [bytesDown] using Nat.ofDigits_lt_base_pow_length (b := 256) (by decide) small
  have digit := ofDigits_div_mod (i := i) small (by simpa [bytesDown] using inside)
  refine BitVec.eq_of_toNat_eq ?_
  rw [swapBytes_eq, BitVec.extractLsb'_toNat, BitVec.toNat_ofNat, Nat.mod_eq_of_lt whole, Nat.shiftRight_eq_div_pow, Nat.pow_mul]
  exact digit.trans (by simp [bytesDown])

/-- Settles O3: every instruction of the class ends with D (`alu2_eq`, `alu1_eq`, `aluI_eq` and beside them), and D's value is what its
function computes. -/
theorem scalarResults : Obligations.ScalarResults := by
  refine ⟨fun s t u st f a b h read => ?_, fun s t u st f a h read => ?_, fun s r t u st f h => ⟨fun a b read imm => ?_, fun v imm => ?_,
    fun v d imm old => ?_⟩, fun s t u st f a b h => ⟨nop_run h, fun read => ?_⟩⟩
  · -- two sources
    obtain ⟨k, there⟩ := (read.quiet h).strand h.strand
    have result := alu2_eq h there read
    have sized := alu2_widths h there read
    refine ⟨k, there, sized (· + ·) (· + ·), sized (· - ·) (· - ·), sized (· * ·) (· * ·), (sized shl64 shl32).trans ?_,
      (sized shr64 shr32).trans ?_, (sized sra64 sra32).trans ?_, (sized rotl64 rotl32).trans ?_,
      result (mulHigh true), result (mulHigh false), result (· &&& ·), result (· ||| ·), result (· ^^^ ·),
      result fun a b => a &&& ~~~b, (result _).trans ?_, (result _).trans ?_, (result _).trans ?_, (result _).trans ?_⟩
    · simp only [shl64, shl32, count32]
    · simp only [shr64, shr32, count32]
    · simp only [sra64, sra32, count32]
    · simp only [rotl64, rotl32, count32]
    · simp only [BitVec.slt_iff_toInt_lt]
    · simp only [BitVec.slt_iff_toInt_lt]
    · simp only [BitVec.lt_def]
    · simp only [BitVec.lt_def]
  · -- one source
    obtain ⟨k, -, there, -⟩ := h.next (srcA_quiet f) read
    have result := alu1_eq h there read
    exact ⟨k, there, _, _, _, _, _, result _, clz_spec a, result _, ctz_spec a, result _, popc_spec a, result _,
      fun i => reverseBits_bit a, result _, fun i => swapBytes_byte a⟩
  · -- an immediate
    obtain ⟨k, there⟩ := (h.quiet_two (srcA_quiet f) (operandI_quiet f) read imm).strand h.strand
    have result := aluI_eq h there read imm
    exact ⟨k, there, result (· + ·), result (· &&& ·), result (· ||| ·), result (· ^^^ ·)⟩
  · -- LI and LIT
    obtain ⟨k, -, there, -⟩ := h.next (operandI_quiet f) imm
    exact ⟨k, there, li_run h there imm, lit_run h there imm⟩
  · -- LIH
    obtain ⟨k, there⟩ := (h.quiet_two (operandI_quiet f) (oldD_quiet f) imm old).strand h.strand
    exact ⟨k, _, there, lih_run h there imm old, append_upper v d, append_lower v d⟩
  · -- SEL and LEA
    obtain ⟨k, there⟩ := (read.quiet h).strand h.strand
    exact ⟨k, there, sel_run h there read, lea_run h there read⟩

end Sys2Proof.Machine
end

section
/-!
QUOTIENTS, FIELDS AND COMPARISONS (O4).

A division ends with D and two turns skipped, or with its trap (`divide_result`, `divide_zero`); EXTB extends a run of bits
(`extractField_eq`), INSB masks one (`insertField_bit`); a comparison writes the condition of 07 R173 (`condHolds_iff`) in lane 0.
-/

namespace Sys2Proof.Machine

variable {s t r : State} {u : Nat} {st : Strand} {f : Fields} {a b d : Word} {k : Bool}

/-! ### Division (07 R168) -/

/-- A strand that has been changed goes on behind the instruction. -/
theorem finish_set_run (hc : t.cur = some u) (out : st.region = none) (f : Fields) :
    finish f (t.setStrand u st) = (.ok (), t.setStrand u (st.done f)) := by
  rw [finish_run (s := t.setStrand u st) hc (State.strand_set ..) out, State.set_set]

/-- Turns are skipped after the instruction, and the strand goes on. -/
theorem skip_finish_run (hc : t.cur = some u) (hs : t.strand? u = some st) (out : st.region = none) (f : Fields) (n : Nat) :
    (do skipTurns n; finish f : Act Unit) t = (.ok (), t.setStrand u ({ st with long := st.long + n }.done f)) :=
  (Act.bind_ok (skipTurns_run hc hs out n)).trans (finish_set_run hc (by exact out) f)

theorem writeD_skip_finish_run (hc : t.cur = some u) (hs : t.strand? u = some st) (out : st.region = none) (n : Nat) (v : Word) :
    (do writeD f v; skipTurns n; finish f : Act Unit) t = (.ok (), t.takesD u { st with long := st.long + n } f v) := by
  unfold writeD State.takesD
  by_cases shared : f.x.getLsbD 0 = true
  · have posted : writeC f.d.toNat v t = (.ok (), t.editCore st.core (·.posts f.d.toNat v)) := by
      rw [writeC, Act.bind_ok (self_run hc hs)]
      rfl
    rw [if_pos shared, if_pos shared, Act.bind_ok posted]
    exact skip_finish_run (t := t.editCore st.core _) hc hs out f n
  · rw [if_neg shared, if_neg shared, Act.bind_ok (writeX_run hc hs out ..),
      skip_finish_run (t := t.setStrand u _) hc (State.strand_set ..) (by exact out), State.set_set]
    rfl

section
variable (h : Issues s u st f) (there : t.strand? u = some (st.slowed k)) (read : Sources f s a b t)
include h there read

theorem divide_result (nonzero : b ≠ 0) (op : Word → Word → Word) :
    (divide f op).outcome s = .next (t.takesD u { st.slowed k with long := st.long + 2 } f (op a b)) := by
  have i := h.quiet (read.quiet h) there
  obtain ⟨r, readA, readB⟩ := read
  refine Act.outcome_ok ((fixed_run h ..).trans ?_)
  simp only [bind_assoc]
  rw [Act.bind_ok readA, Act.bind_ok readB]
  simp only [beq_iff_eq, nonzero, if_false, bind_assoc]
  simpa using writeD_skip_finish_run (f := f) i.issuer i.strand i.outside 2 (op a b)

/-- A zero divisor traps before D is written. -/
theorem divide_zero (zero : b = 0) : ∃ extra addr, ∀ op, (divide f op).outcome s =
    .next (({ t with free := t.free + 2 } : State).takeTrap u Cause.arith extra st.pc addr) := by
  have i := h.quiet (read.quiet h) there
  obtain ⟨extra, addr, trap⟩ := trapPlain_run (α := PUnit) i.issuer i.strand i.outside Cause.arith
  rw [Strand.slowed_pc] at trap
  refine ⟨extra, addr, fun op => Act.outcome_done ((fixed_run h ..).trans ?_)⟩
  obtain ⟨r, readA, readB⟩ := read
  simp only [bind_assoc]
  rw [Act.bind_ok readA, Act.bind_ok readB]
  simp only [zero, beq_self_eq_true, if_true, bind_assoc]
  exact Act.bind_error trap

end

theorem srem_eq (a b : Word) : srem a b = BitVec.ofInt 64 (a.toInt - a.toInt.tdiv b.toInt * b.toInt) := by
  rw [srem, Int.tmod_def, Int.mul_comm]

theorem urem_eq (a b : Word) : urem a b = BitVec.ofNat 64 (a.toNat - a.toNat / b.toNat * b.toNat) := by
  rw [urem, Nat.mod_eq_sub_div_mul]

/-! ### Fields (07 R169) -/

theorem field_eq_extract (w : Word) (hi lo : Nat) : field w hi lo = (w.extractLsb' lo (hi - lo + 1)).toNat :=
  BitVec.extractLsb'_toNat .. ▸ rfl

/-- The place and the length of the field that B names, clipped at bit 63. -/
theorem fieldLen_pos (b : Word) : 0 < fieldLen b ∧ field b 5 0 + fieldLen b ≤ 64 := by
  have place : field b 5 0 < 64 := Nat.mod_lt _ (by decide)
  rw [fieldLen]
  omega

/-- The field of A is a run of its bits, extended. -/
theorem extractField_eq (signed : Bool) (a b : Word) : extractField signed a b =
    if signed then (a.extractLsb' (field b 5 0) (fieldLen b)).signExtend 64 else (a.extractLsb' (field b 5 0) (fieldLen b)).setWidth 64 := by
  have value : a.toNat >>> field b 5 0 % 2 ^ fieldLen b = (a.extractLsb' (field b 5 0) (fieldLen b)).toNat :=
    (BitVec.extractLsb'_toNat ..).symm
  unfold extractField
  simp only [value]
  generalize a.extractLsb' (field b 5 0) (fieldLen b) = x
  have top : x.toNat.testBit (fieldLen b - 1) = x.msb := by rw [BitVec.msb_eq_getLsbD_last, BitVec.testBit_toNat]
  rw [top]
  cases signed with
  | false => exact BitVec.ofNat_toNat ..
  | true =>
    rw [BitVec.signExtend, BitVec.toInt_eq_msb_cond]
    cases x.msb <;> simp

theorem extractField_bit (signed : Bool) (a b : Word) {i : Nat} (inside : i < 64) : (extractField signed a b).getLsbD i =
    if i < fieldLen b then a.getLsbD (field b 5 0 + i) else signed && a.getLsbD (field b 5 0 + fieldLen b - 1) := by
  obtain ⟨positive, -⟩ := fieldLen_pos b
  rw [extractField_eq]
  cases signed with
  | false => by_cases low : i < fieldLen b <;> simp [inside, low]
  | true =>
    rw [if_pos rfl, BitVec.getLsbD_signExtend, BitVec.getLsbD_extractLsb', BitVec.msb_eq_getLsbD_last, BitVec.getLsbD_extractLsb',
      ← Nat.add_sub_assoc positive]
    by_cases low : i < fieldLen b <;> simp [inside, positive, low]

theorem insertField_bit (d a b : Word) {i : Nat} (inside : i < 64) : (insertField d a b).getLsbD i =
    if field b 5 0 ≤ i ∧ i < field b 5 0 + fieldLen b then a.getLsbD (i - field b 5 0) else d.getLsbD i := by
  have masked : ((2 ^ fieldLen b - 1) * 2 ^ field b 5 0).testBit i = decide (field b 5 0 ≤ i ∧ i < field b 5 0 + fieldLen b) := by
    rw [Nat.testBit_mul_two_pow, Nat.testBit_two_pow_sub_one, ← Bool.decide_and]
    exact decide_eq_decide.mpr (by omega)
  have placed : (a.toNat % 2 ^ fieldLen b * 2 ^ field b 5 0).testBit i =
      (decide (field b 5 0 ≤ i ∧ i < field b 5 0 + fieldLen b) && a.getLsbD (i - field b 5 0)) := by
    rw [Nat.testBit_mul_two_pow, Nat.testBit_mod_two_pow, BitVec.testBit_toNat, ← Bool.and_assoc, ← Bool.decide_and]
    congr 1
    exact decide_eq_decide.mpr (by omega)
  simp only [insertField, BitVec.getLsbD_or, BitVec.getLsbD_and, BitVec.getLsbD_not, BitVec.getLsbD_ofNat, masked, placed, inside]
  by_cases within : field b 5 0 ≤ i ∧ i < field b 5 0 + fieldLen b <;> simp [within]

theorem Sources.quiet_oldD (read : Sources f s a b t) (h : Issues s u st f) (old : oldD f t = (.ok d, r)) : Quiet s u st r := by
  have quiet := read.quiet h
  obtain ⟨k, there⟩ := quiet.strand h.strand
  have i := h.quiet quiet there
  exact quiet.trans h.strand there ((oldD_quiet f).quiet i.issuer i.strand i.outside old)

theorem insb_run (h : Issues s u st f) (there : r.strand? u = some (st.slowed k)) (read : Sources f s a b t)
    (old : oldD f t = (.ok d, r)) : execInsb f s = .next (r.takesD u (st.slowed k) f (insertField d a b)) := by
  have quiet := read.quiet_oldD h old
  obtain ⟨r', readA, readB⟩ := read
  have ends := readAndWrite_eq (src := do let a ← srcA f; let b ← srcB f; let d ← oldD f; pure (a, b, d)) (x := (a, b, d)) h there
    quiet .access (fun p => insertField p.2.2 p.1 p.2.1) (by rw [Act.bind_ok readA, Act.bind_ok readB, Act.bind_ok old, Act.pure_run])
  simpa [execInsb] using ends

/-! ### Lane 0 (01 R19) -/

theorem setBit16_bit {p q : Nat} (w : BitVec 16) (b : Bool) (inside : q < 16) (named : p < 16) :
    (setBit16 w p b).getLsbD q = if q = p then b else w.getLsbD q := by
  have one : (1#16 <<< p).getLsbD q = decide (q = p) := by
    refine (BitVec.getLsbD_twoPow p q).trans ?_
    simp [named, eq_comm]
  cases b with
  | true => rw [setBit16, if_pos rfl, BitVec.getLsbD_or, one]; by_cases same : q = p <;> simp [same]
  | false =>
    rw [setBit16, if_neg Bool.false_ne_true, BitVec.getLsbD_and, BitVec.getLsbD_not, one]
    by_cases same : q = p <;> simp [same, inside]

theorem getD_setIfInBounds {α : Type} {n p q : Nat} (l : Vector α n) (x d : α) (inside : q < n) :
    (l.setIfInBounds p x)[q]?.getD d = if q = p then x else l[q]?.getD d := by
  by_cases same : q = p
  · rw [same, Vector.getElem?_setIfInBounds_self, if_pos (same ▸ inside), if_pos rfl, Option.getD_some]
  · rw [Vector.getElem?_setIfInBounds_ne (Ne.symm same), if_neg same]

/-- The write of lane 0 sets the bits of bytes 0 to 3, which hold it in every format. -/
theorem nibble_write (old : Pred) (b : Bool) {i : Nat} (inside : i < 512) :
    (if b then old ||| 0xF else old &&& ~~~(0xF#512)).getLsbD i = if i < 4 then b else old.getLsbD i := by
  have low : (0xF#512).getLsbD i = decide (i < 4) := by
    rw [BitVec.getLsbD_ofNat, show 0xF = 2 ^ 4 - 1 from rfl, Nat.testBit_two_pow_sub_one]
    simp [inside]
  cases b with
  | true =>
    rw [if_pos rfl, BitVec.getLsbD_or, show (0xF : Pred).getLsbD i = _ from low]
    by_cases first : i < 4 <;> simp [first]
  | false =>
    rw [if_neg Bool.false_ne_true, BitVec.getLsbD_and, BitVec.getLsbD_not, low]
    by_cases first : i < 4 <;> simp [first, inside]

namespace Strand

@[simp] theorem setLane0_region (st : Strand) (p : Nat) (b : Bool) : (st.setLane0 p b).region = st.region := by
  unfold setLane0
  split
  · rfl
  · split <;> rfl

@[simp] theorem setPred_region (st : Strand) (p : Nat) (bits : Pred) : (st.setPred p bits).region = st.region := by
  unfold setPred
  split
  · rfl
  · split <;> rfl

theorem lane0_setLane0 (st : Strand) {p q : Nat} (b : Bool) (named : p < 16) (inside : q < 16) :
    (st.setLane0 p b).lane0 q = if q = p ∧ p ≠ 0 then b else st.lane0 q := by
  by_cases zero : p = 0
  · simp [setLane0, zero]
  · by_cases first : q = 0
    · simp [lane0, first, Ne.symm zero]
    · cases held : st.vec with
      | none => simp [setLane0, lane0, zero, first, held, setBit16_bit _ _ inside named]
      | some c =>
        simp only [setLane0, lane0, zero, first, held, if_false]
        refine (congrArg (·.getLsbD 0) (getD_setIfInBounds c.p _ 0 inside)).trans ?_
        by_cases same : q = p
        · refine Eq.trans ?_ (if_pos ⟨same, zero⟩).symm
          rw [if_pos same]
          exact nibble_write _ b (i := 0) (by decide)
        · rw [if_neg same, if_neg fun both => same both.1]

end Strand

/-! ### Comparisons (07 R172, R173) -/

theorem toSigned_toNat (a : Word) : toSigned 64 a.toNat = a.toInt := by
  simp only [toSigned, BitVec.toInt_eq_toNat_cond, Nat.mod_eq_of_lt a.isLt]
  by_cases low : a.toNat < 2 ^ 63
  · rw [if_pos low, if_pos (by omega)]
  · rw [if_neg low, if_neg (by omega)]
    rfl

/-- What a comparison with the condition `m` says of A and B (07 R173). -/
def Compares (m : BitVec 4) (a b : Word) : Prop :=
  (m = 0 → a = b) ∧ (m = 1 → a ≠ b) ∧ (m = 2 → a.toInt < b.toInt) ∧ (m = 3 → b.toInt ≤ a.toInt) ∧
  (m = 4 → a.toNat < b.toNat) ∧ (m = 5 → b.toNat ≤ a.toNat) ∧ (m = 6 → b.toInt < a.toInt) ∧ (m = 7 → a.toInt ≤ b.toInt) ∧
  (m = 8 → b.toNat < a.toNat) ∧ (m = 9 → a.toNat ≤ b.toNat) ∧ (m = 10 → a &&& b ≠ 0) ∧ (m = 11 → a &&& b = 0)

theorem condHolds_iff {m : BitVec 4} (known : m.toNat < 12) (a b : Word) :
    condHolds m.toNat 64 false a.toNat b.toNat = true ↔ Compares m a b := by
  have and_zero : a.toNat &&& b.toNat = 0 ↔ a &&& b = 0 := by rw [← BitVec.toNat_and]; simp [BitVec.toNat_eq]
  have same : m = BitVec.ofNat 4 m.toNat := by simp
  generalize m.toNat = n at known same
  subst same
  interval_cases n <;> simp [condHolds, Compares, toSigned_toNat, BitVec.toNat_inj, and_zero]

section
variable (h : Issues s u st f)
include h

/-- A comparison writes its condition in lane 0 of pD (07 R172). -/
theorem compare_run {second : Act Word} (quiet : QuietAct second) (readA : srcA f s = (.ok a, r)) (readB : second r = (.ok b, t))
    (there : t.strand? u = some (st.slowed k)) : (compare f second).outcome s =
      .next (t.setStrand u (((st.slowed k).setLane0 f.d.toNat (condHolds f.m.toNat 64 false a.toNat b.toNat)).done f)) := by
  have i := h.quiet (h.quiet_two (srcA_quiet f) quiet readA readB) there
  refine Act.outcome_ok ((fixed_run h ..).trans ?_)
  rw [bind_assoc, Act.bind_ok readA, bind_assoc, Act.bind_ok readB, Act.bind_ok (editSelf_run i.issuer i.strand _)]
  exact finish_set_run i.issuer (by simpa using h.outside) f

end

/-- Settles O4: a division by what B is, a field bit by bit, a comparison by its condition, and lane 0 by how a predicate is held. -/
theorem divisionFieldsAndComparisons : Obligations.DivisionFieldsAndComparisons := by
  refine ⟨fun s t u st f a b h read => ?_, fun s t u st f h read => ?_, fun s t u st f a b h read => ⟨?_, fun d r old => ?_⟩,
    fun s t u st f a b h known => ⟨fun read => ?_, fun readA => ?_⟩, fun st p q b named inside => st.lane0_setLane0 b named inside⟩
  · -- a division
    obtain ⟨k, there⟩ := (read.quiet h).strand h.strand
    refine ⟨k, there, fun nonzero => ?_, fun zero => ?_⟩
    · have result := divide_result h there read nonzero
      rw [← srem_eq, ← urem_eq]
      exact ⟨result sdiv, result srem, result udiv, result urem⟩
    · obtain ⟨extra, addr, traps⟩ := divide_zero h there read zero
      exact ⟨extra, addr, traps sdiv, traps srem, traps udiv, traps urem⟩
  · -- the most negative value divided by −1
    obtain ⟨k, there⟩ := (read.quiet h).strand h.strand
    have result := divide_result h there read (by decide)
    exact ⟨k, result sdiv, result srem⟩
  · -- EXTB
    obtain ⟨k, there⟩ := (read.quiet h).strand h.strand
    exact ⟨k, _, there, alu2_eq h there read (extractField (f.m == 1)), fun i inside => extractField_bit _ a b inside⟩
  · -- INSB
    obtain ⟨k, there⟩ := (read.quiet_oldD h old).strand h.strand
    exact ⟨k, _, there, insb_run h there read old, fun i inside => insertField_bit d a b inside⟩
  · -- CMP
    obtain ⟨k, there⟩ := (read.quiet h).strand h.strand
    obtain ⟨r, readA, readB⟩ := read
    exact ⟨k, _, there, condHolds_iff known a b, compare_run h (srcB_quiet f) readA readB there⟩
  · -- CMPI
    obtain ⟨k, -, there, -⟩ := h.next (srcA_quiet f) readA
    exact ⟨k, _, there, condHolds_iff known a _, compare_run h (.pure _) readA (Act.pure_run ..) there⟩

end Sys2Proof.Machine
end

section
/-!
TRANSFERS OF CONTROL (O5).

What checking a target comes to (`checkTargetWith_code` to `checkTargetWith_waits`) is said once; a transfer whose check stops ends as the
check does (`transfer_stopped`), and one whose target is code moves the pc (`transfer_run`, `transfer_links`).
-/

namespace Sys2Proof.Machine

variable {s t r : State} {u : Nat} {st : Strand} {f : Fields} {a : Word} {k : Bool}

@[simp] theorem Strand.slowed_ctx (st : Strand) (k : Bool) : (st.slowed k).ctx = st.ctx := by cases k <;> rfl
@[simp] theorem Strand.slowed_lrec (st : Strand) (k : Bool) : (st.slowed k).lrec = st.lrec := by cases k <;> rfl

/-! ### Steps after a change of the strand -/

section
variable (hc : t.cur = some u)
include hc

theorem editSelf_set_run (st : Strand) (g : Strand → Strand) : editSelf g (t.setStrand u st) = (.ok (), t.setStrand u (g st)) := by
  rw [editSelf_run (s := t.setStrand u st) hc (State.strand_set ..), State.set_set]

variable (out : st.region = none)
include out

theorem writeX_set_run (n : Nat) (v : Word) : writeX n v (t.setStrand u st) = (.ok (), t.setStrand u (st.gives n v)) := by
  rw [writeX_run (s := t.setStrand u st) hc (State.strand_set ..) out, State.set_set]

theorem jumpTo_set_run (v : Word) : jumpTo v (t.setStrand u st) = (.ok (), t.setStrand u (st.goes v)) := by
  rw [jumpTo_run (s := t.setStrand u st) hc (State.strand_set ..) out, State.set_set]

end

/-! ### Reading a start bit leaves the strands (06 R156, 07 R176) -/

namespace State

variable {core ctx lrec who : Nat} {va : Word}

theorem translate_strands {acc eng unit} : (s.translate core ctx va acc eng unit).2.strands = s.strands := (traffic_translate ..).strands

theorem askHome_strands {who ctx l w} : (s.askHome who ctx l w).2.strands = s.strands := (calm_askHome ..).strands

theorem fetchUe_strands : (s.fetchUe va).2.strands = s.strands := rfl

theorem fetchLine_strands : (s.fetchLine core ctx lrec who va).2.strands = s.strands := by
  unfold fetchLine
  split
  · grind [translate_strands]
  · next x t e =>
    have kept : t.strands = s.strands := by grind [translate_strands]
    dsimp only
    split
    · exact kept
    · split
      · exact kept
      · grind [fetchUe_strands]
      · split
        · exact kept
        · split
          · exact kept
          · split
            · exact kept
            · grind [translate_strands, fetchUe_strands, askHome_strands, editCore_strands]

variable {x : Except Await (Option Bool)}

theorem startBit_strand (bit : s.startBit core ctx lrec who va = (x, t)) : t.strand? u = s.strand? u := by
  have kept : (s.startBit core ctx lrec who va).2.strands = s.strands := by grind [startBit, fetchWord, fetchLine_strands]
  rw [bit] at kept
  rw [strand?, kept, strand?]

theorem startBit_cur (bit : s.startBit core ctx lrec who va = (x, t)) : t.cur = s.cur := by
  have kept : (s.startBit core ctx lrec who va).2.turn = s.turn := startBit_turn
  rw [bit] at kept
  exact congrArg Prod.fst kept

end State

theorem State.issuerNo_eq (hc : s.cur = some u) (hs : s.strand? u = some st) (out : st.region = none) : s.issuerNo = streamNo u false := by
  simp [State.issuerNo, hc, hs, out]

/-! ### The checks of a target (07 R176) -/

theorem field_ne_zero {w : Word} {hi lo n : Nat} (len : n = hi - lo + 1) : (field w hi lo != 0) = true ↔ w.extractLsb' lo n ≠ 0 := by
  subst len
  rw [field_eq_extract, bne_iff_ne, ne_eq, ne_eq, ← BitVec.toNat_inj]
  rfl

theorem targetProblem_high (high : a.extractLsb' 57 7 ≠ 0) : targetProblem a = some (Cause.protection, some 1) :=
  if_pos ((field_ne_zero rfl).mpr high)

theorem targetProblem_mid (fits : a.extractLsb' 57 7 = 0) (mid : a.extractLsb' 48 9 ≠ 0) :
    targetProblem a = some (Cause.protection, some 7) :=
  (if_neg fun high => (field_ne_zero rfl).mp high fits).trans (if_pos ((field_ne_zero rfl).mpr mid))

/-- An address below 2^48 fails neither check of its height. -/
theorem targetProblem_below (below : a.extractLsb' 48 16 = 0) :
    targetProblem a = if field a 1 0 != 0 then some (Cause.alignment, none) else none := by
  have small : a.toNat / 2 ^ 48 % 2 ^ 16 = 0 := by
    simpa [BitVec.extractLsb'_toNat, Nat.shiftRight_eq_div_pow] using congrArg BitVec.toNat below
  have low : a.toNat < 2 ^ 48 := by omega
  have zero (hi lo : Nat) (up : 48 ≤ lo) : ¬ (field a hi lo != 0) = true := by
    have gone : a.toNat >>> lo = 0 := by
      rw [Nat.shiftRight_eq_div_pow]
      exact Nat.div_eq_of_lt (low.trans_le (Nat.pow_le_pow_right (by decide) up))
    simp [field, bitsOf, gone]
  exact (if_neg (zero 63 57 (by decide))).trans (if_neg (zero 56 48 (by decide)))

theorem targetProblem_odd (below : a.extractLsb' 48 16 = 0) (odd : a.extractLsb' 0 2 ≠ 0) :
    targetProblem a = some (Cause.alignment, none) := by
  rw [targetProblem_below below, if_pos ((field_ne_zero rfl).mpr odd)]

theorem targetProblem_none (below : a.extractLsb' 48 16 = 0) (aligned : a.extractLsb' 0 2 = 0) : targetProblem a = none := by
  rw [targetProblem_below below, if_neg fun odd => (field_ne_zero rfl).mp odd aligned]

/-! ### Checking a target, for the strand that its operands leave -/

/-- What the start bit of a target comes to: a wait for its line, the trap of a clear bit, or the transfer, also where it cannot be read. -/
def heedStart (clear : Act Unit) : Except Await (Option Bool) → Act Unit
  | .error w => park w
  | .ok (some false) => clear
  | .ok _ => pure ()

theorem heedStart_code {clear : Act Unit} {b : Option Bool} (starts : b ≠ some false) : heedStart clear (.ok b) = pure () := by
  match b, starts with
  | none, _ => rfl
  | some true, _ => rfl

section
variable (i : Issues r u (st.slowed k) f) {clear : Act Unit}
include i

theorem checkTargetWith_run (fine : targetProblem a = none) {x : Except Await (Option Bool)}
    (bit : r.startBit st.core st.ctx st.lrec r.issuerNo a = (x, t)) :
    Issues t u (st.slowed k) f ∧ checkTargetWith a clear r = heedStart clear x t := by
  refine ⟨⟨(State.startBit_cur bit).trans i.issuer, (State.startBit_strand bit).trans i.strand, i.outside, i.guard⟩, ?_⟩
  rw [State.issuerNo_eq i.issuer i.strand i.outside] at bit
  simp only [checkTargetWith, fine]
  rw [Act.bind_ok (self_run i.issuer i.strand), Act.bind_ok (me_run i.issuer),
    Act.bind_ok (inAccess_run i.issuer i.strand i.outside), Act.bind_ok (stateS_run ..)]
  simp only [Strand.slowed_core, Strand.slowed_ctx, Strand.slowed_lrec, bit]
  rfl

theorem checkTargetWith_code (code : IsCode r st a t) :
    Issues t u (st.slowed k) f ∧ checkTargetWith a clear r = (.ok (), t) := by
  obtain ⟨fine, b, bit, starts⟩ := code
  obtain ⟨i', run⟩ := checkTargetWith_run i (clear := clear) fine bit
  exact ⟨i', run.trans (by rw [heedStart_code starts, Act.pure_run])⟩

theorem checkTargetWith_clear (fine : targetProblem a = none)
    (bit : r.startBit st.core st.ctx st.lrec r.issuerNo a = (.ok (some false), t)) :
    Issues t u (st.slowed k) f ∧ checkTargetWith a clear r = clear t := checkTargetWith_run i fine bit

theorem checkTargetWith_waits (fine : targetProblem a = none) {w : Await}
    (bit : r.startBit st.core st.ctx st.lrec r.issuerNo a = (.error w, t)) :
    checkTargetWith a clear r = (.error .done, t.leave u .parked w w.stall) := by
  obtain ⟨i', run⟩ := checkTargetWith_run i (clear := clear) fine bit
  exact run.trans (park_run i'.issuer i'.strand i'.outside w)

theorem checkTargetWith_traps {c x : Nat} (bad : targetProblem a = some (c, some x)) :
    checkTargetWith a clear r = (.error .done, r.takeTrap u c x st.pc a) := by
  simp only [checkTargetWith, bad]
  rw [trapAt_run i.issuer i.strand i.outside, Strand.slowed_pc]

theorem checkTargetWith_trapsFree {c : Nat} (bad : targetProblem a = some (c, none)) :
    ∃ x, checkTargetWith a clear r = (.error .done, ({ r with free := r.free + 1 } : State).takeTrap u c x st.pc a) := by
  simp only [checkTargetWith, bad]
  rw [trapWord_run i.issuer i.strand i.outside, Strand.slowed_pc]
  exact ⟨_, rfl⟩

theorem checkTarget_clear (fine : targetProblem a = none)
    (bit : r.startBit st.core st.ctx st.lrec r.issuerNo a = (.ok (some false), t)) :
    checkTarget a r = (.error .done, t.takeTrap u Cause.illegalTarget 0 st.pc a) := by
  obtain ⟨i', run⟩ := checkTargetWith_clear i (clear := trapAt Cause.illegalTarget 0 a) fine bit
  refine run.trans ?_
  rw [trapAt_run i'.issuer i'.strand i'.outside, Strand.slowed_pc]

/-! ### Taking a transfer (07 R174, R175) -/

theorem transfer_run (code : IsCode r st a t) : (transfer a) r = (.ok (), t.setStrand u ((st.slowed k).goes a)) := by
  obtain ⟨i', run⟩ := checkTargetWith_code i code
  exact (Act.bind_ok run).trans (jumpTo_run i'.issuer i'.strand i'.outside a)

theorem transfer_links (code : IsCode r st a t) (n : Nat) :
    transfer a (linkTo f n) r = (.ok (), t.setStrand u (((st.slowed k).gives n (st.pc + lenWord f)).goes a)) := by
  obtain ⟨i', run⟩ := checkTargetWith_code i code
  have link : linkTo f n t = (.ok (), t.setStrand u ((st.slowed k).gives n (st.pc + lenWord f))) := by
    rw [linkTo, Act.bind_ok (thisPc_run i'.issuer i'.strand i'.outside), writeX_run i'.issuer i'.strand i'.outside, Strand.slowed_pc]
  exact (Act.bind_ok run).trans ((Act.bind_ok link).trans (jumpTo_set_run i'.issuer (by exact i'.outside) a))

end

/-! ### The instructions of R174 -/

section
variable (h : Issues s u st f)
include h

/-- B and CALL go to their offset from the pc. -/
theorem execB_run (code : IsCode s st (st.pc + off22 f) t) : execB f s = .next (t.setStrand u (st.goes (st.pc + off22 f))) := by
  refine Act.outcome_ok ((issue_run h ..).trans ?_)
  rw [Act.bind_ok (thisPc_run h.issuer h.strand h.outside)]
  exact transfer_run (k := false) h code

theorem execCall_run (code : IsCode s st (st.pc + off22 f) t) :
    execCall f s = .next (t.setStrand u ((st.gives 46 (st.pc + lenWord f)).goes (st.pc + off22 f))) := by
  refine Act.outcome_ok ((issue_run h ..).trans ?_)
  rw [Act.bind_ok (thisPc_run h.issuer h.strand h.outside)]
  exact transfer_links (k := false) h code 46

/-- BP falls through, or is a transfer to its offset, by lane 0 of its predicate. -/
theorem execBp_falls (same : st.lane0 (f.d.toNat % 16) = f.d.getLsbD 4) : execBp f s = .next (s.setStrand u (st.done f)) := by
  refine Act.outcome_ok ((issue_run h ..).trans ?_)
  rw [Act.bind_ok (self_run h.issuer h.strand), same, bne_self_eq_false, if_neg Bool.false_ne_true]
  exact finish_run h.issuer h.strand h.outside f

theorem execBp_taken (differs : st.lane0 (f.d.toNat % 16) ≠ f.d.getLsbD 4) : execBp f s = (transfer (st.pc + off16 f)).outcome s := by
  rw [execBp, Act.outcome, Act.outcome, issue_run h, Act.bind_ok (self_run h.issuer h.strand), if_pos (bne_iff_ne.mpr differs),
    Act.bind_ok (thisPc_run h.issuer h.strand h.outside)]

/-- A transfer whose check stops the instruction ends as the check does. -/
theorem transfer_stopped {i : Instr} (which :
      ((i = .b f ∨ i = .call f) ∧ a = st.pc + off22 f ∧ r = s) ∨
      (i = .bp f ∧ st.lane0 (f.d.toNat % 16) ≠ f.d.getLsbD 4 ∧ a = st.pc + off16 f ∧ r = s) ∨
      ((i = .calli f ∨ i = .jmpi f ∨ i = .ret f) ∧ operandX false f.a f.ta s = (.ok a, r)))
    (stopped : checkTarget a r = (.error .done, t)) : exec i s = .next t := by
  have ends (link : Act Unit) : transfer a link r = (.error .done, t) := Act.bind_error stopped
  have pc := thisPc_run h.issuer h.strand h.outside
  rcases which with ⟨rfl | rfl, rfl, rfl⟩ | ⟨rfl, differs, rfl, rfl⟩ | ⟨rfl | rfl | rfl, read⟩
  · exact Act.outcome_done ((issue_run h ..).trans ((Act.bind_ok pc).trans (ends _)))
  · exact Act.outcome_done ((issue_run h ..).trans ((Act.bind_ok pc).trans (ends _)))
  · exact (execBp_taken h differs).trans (Act.outcome_done (ends _))
  · exact Act.outcome_done ((issue_run h ..).trans ((Act.bind_ok read).trans (ends _)))
  · exact Act.outcome_done ((issue_run h ..).trans ((Act.bind_ok read).trans (ends _)))
  · exact Act.outcome_done ((issue_run h ..).trans ((Act.bind_ok read).trans (ends _)))

end

/-! ### THROW (07 R177) -/

/-- THROW to a handler, its operand read. -/
def throwTo (operand handler : Word) : Act Unit := do
  checkTargetWith handler (stopHere Cause.illegalTarget 0x04 handler)
  let pc ← thisPc
  writeX 0 operand
  writeX 1 pc
  editSelf fun st => { st with loops := [] }
  jumpTo handler

section
variable {c : Ctx} (h : Issues s u st f) (i : Issues r u (st.slowed k) f) (read : operandX false f.a f.ta s = (.ok a, r))
  (found : r.ctx? st.ctx = some c)
include h i read found

theorem execThrow_handler (handler : c.thv ≠ 0) : execThrow f s = (throwTo a c.thv).outcome r := by
  rw [execThrow, Act.outcome, Act.outcome, issue_run h, Act.bind_ok read, Act.bind_ok (self_run i.issuer i.strand),
    Act.bind_ok (readS_run ..), Strand.slowed_ctx, found]
  simp only [Option.map_some, Option.getD_some, beq_iff_eq, handler, if_false]
  rfl

theorem execThrow_unhandled (missing : c.thv = 0) : ∃ x, execThrow f s =
    .next (({ r with free := r.free + 1 } : State).takeTrap u Cause.throwUnhandled x st.pc a) := by
  refine ⟨(Config.freeWord r.free).toNat % 2 ^ 32, Act.outcome_done ((issue_run h ..).trans ?_)⟩
  rw [Act.bind_ok read, Act.bind_ok (self_run i.issuer i.strand), Act.bind_ok (readS_run ..), Strand.slowed_ctx, found]
  simp only [Option.map_some, Option.getD_some, missing, beq_self_eq_true, if_true]
  refine (Act.bind_error (trapWord_run i.issuer i.strand i.outside ..)).trans ?_
  rw [Strand.slowed_pc]

end

section
variable (i : Issues r u (st.slowed k) f) {handler : Word}
include i

theorem throwTo_run (code : IsCode r st handler t) : throwTo a handler r =
    (.ok (), t.setStrand u ({ ((st.slowed k).gives 0 a).gives 1 st.pc with loops := [] }.goes handler)) := by
  obtain ⟨i', run⟩ := checkTargetWith_code i (clear := stopHere Cause.illegalTarget 0x04 handler) code
  have hc := i'.issuer
  have out := i'.outside
  rw [throwTo, Act.bind_ok run, Act.bind_ok (thisPc_run hc i'.strand out), Strand.slowed_pc, Act.bind_ok (writeX_run hc i'.strand out ..),
    Act.bind_ok (writeX_set_run hc (by exact out) ..), Act.bind_ok (editSelf_set_run hc ..)]
  exact jumpTo_set_run hc (by exact out) handler

/-- A clear start bit of the handler stops the strand at the THROW (06 R157, last row). -/
theorem throwTo_clear (fine : targetProblem handler = none)
    (bit : r.startBit st.core st.ctx st.lrec r.issuerNo handler = (.ok (some false), t)) : throwTo a handler r =
      (.error .done, (t.stopStrand u Cause.illegalTarget 4 st.pc handler).stepEnds u) := by
  obtain ⟨i', run⟩ := checkTargetWith_clear i (clear := stopHere Cause.illegalTarget 0x04 handler) fine bit
  refine Act.bind_error (run.trans ?_)
  rw [stopHere, Act.bind_ok (me_run i'.issuer), Act.bind_ok (thisPc_run i'.issuer i'.strand i'.outside), Act.bind_ok (editS_run ..),
    Strand.slowed_pc]
  rfl

end

/-- Settles O5: a transfer goes to its target where the check passes, and ends as the check does where it stops; THROW does so with its
handler, once its context has one. -/
theorem transfers : Obligations.Transfers := by
  refine ⟨fun s r t u st f h => ⟨fun code => ⟨execB_run h code, execCall_run h code⟩, execBp_falls h, fun differs code =>
    (execBp_taken h differs).trans (Act.outcome_ok (transfer_run (k := false) h code)), fun a read => ?_⟩,
    fun s r t u st f a i h which => ?_, fun s r t u st f a c h read found => ?_⟩
  · -- a register that names code
    obtain ⟨k, -, there, i⟩ := h.next (operandX_quiet ..) read
    refine ⟨k, there, fun code => ⟨?_, ?_, ?_⟩, fun c found handler code => ?_⟩
    · exact Act.outcome_ok ((issue_run h ..).trans ((Act.bind_ok read).trans (transfer_links i code _)))
    · exact Act.outcome_ok ((issue_run h ..).trans ((Act.bind_ok read).trans (transfer_run i code)))
    · exact Act.outcome_ok ((issue_run h ..).trans ((Act.bind_ok read).trans (transfer_run i code)))
    · exact (execThrow_handler h i read found handler).trans (Act.outcome_ok (throwTo_run i code))
  · -- a target that is no code
    obtain ⟨k, j⟩ : ∃ k, Issues r u (st.slowed k) f := by
      rcases which with ⟨-, -, rfl⟩ | ⟨-, -, -, rfl⟩ | ⟨-, read⟩
      · exact ⟨false, h⟩
      · exact ⟨false, h⟩
      · obtain ⟨k, -, -, i⟩ := h.next (operandX_quiet ..) read
        exact ⟨k, i⟩
    have stops {t : State} (stopped : checkTarget a r = (.error .done, t)) : exec i s = .next t := transfer_stopped h which stopped
    refine ⟨fun high => stops (checkTargetWith_traps j (targetProblem_high high)),
      fun fits mid => stops (checkTargetWith_traps j (targetProblem_mid fits mid)), fun below odd => ?_, fun below aligned => ⟨fun clear =>
        stops (checkTarget_clear j (targetProblem_none below aligned) clear), fun w waits =>
        stops (checkTargetWith_waits j (targetProblem_none below aligned) waits)⟩⟩
    obtain ⟨x, trap⟩ := checkTargetWith_trapsFree j (targetProblem_odd below odd)
    exact ⟨x, stops trap⟩
  · -- a handler that is no code
    obtain ⟨k, -, -, i⟩ := h.next (operandX_quiet ..) read
    have stops {t : State} (handler : c.thv ≠ 0) (stopped : throwTo a c.thv r = (.error .done, t)) : exec (.throw f) s = .next t :=
      (execThrow_handler h i read found handler).trans (Act.outcome_done stopped)
    have nonzero {lo n : Nat} (bits : c.thv.extractLsb' lo n ≠ 0) : c.thv ≠ 0 := by
      rintro zero
      exact bits (by rw [zero]; simp)
    refine ⟨execThrow_unhandled h i read found,
      fun high => stops (nonzero high) (Act.bind_error (checkTargetWith_traps i (targetProblem_high high))),
      fun fits mid => stops (nonzero mid) (Act.bind_error (checkTargetWith_traps i (targetProblem_mid fits mid))), fun below odd => ?_,
      fun handler below aligned => ⟨fun clear => stops handler (throwTo_clear i (targetProblem_none below aligned) clear), fun w waits =>
        stops handler (Act.bind_error (checkTargetWith_waits i (targetProblem_none below aligned) waits))⟩⟩
    obtain ⟨x, trap⟩ := checkTargetWith_trapsFree i (targetProblem_odd below odd)
    exact ⟨x, stops (nonzero odd) (Act.bind_error trap)⟩

end Sys2Proof.Machine
end

section
/-!
PREDICATES AND BINDING (O6).

A predicate instruction ends with a predicate or a register (`predicate_sets`, `predicate_gives`) once nothing has to be reloaded; PLIM,
PWHILE and PFIRST end with the mask that they compute (`lanes_run`), whose bits are those of its elements (`predOf_bit`). The write of the
predicate word is a row of writes of lane 0 (`Lane0Only`).
-/

namespace Sys2Proof.Machine

variable {s s' t : State} {u : Nat} {st st' : Strand} {f : Fields} {a b c : Strand} {k : Bool}

/-! ### The predicate word (01 R19, R20) -/

/-- A word whose first bits are set one after another. -/
theorem foldl_setBit16 (g : Nat → Bool) (w : BitVec 16) {n i : Nat} (fits : n ≤ 16) (inside : i < 16) :
    ((List.range n).foldl (fun w i => setBit16 w i (g i)) w).getLsbD i = if i < n then g i else w.getLsbD i := by
  induction n with
  | zero => simp
  | succ n ih =>
    rw [List.range_succ, List.foldl_append]
    refine (setBit16_bit _ (g n) inside (by omega)).trans ?_
    rw [ih (by omega)]
    by_cases same : i = n
    · simp [same]
    · simp [same, show (i < n + 1) = (i < n) by rw [eq_iff_iff]; omega]

theorem Strand.predWord_bit (st : Strand) {i : Nat} (inside : i < 16) : st.predWord.getLsbD i = st.lane0 i :=
  (foldl_setBit16 st.lane0 1 le_rfl inside).trans (if_pos inside)

/-- Two stands of a strand that differ in what a write of lane 0 may change alone: the predicate word while no context is held, the bits of
bytes 0 to 3 of the predicates of one that is (01 R19). -/
structure Lane0Only (a b : Strand) : Prop where
  rest : b = { a with pw := b.pw, vec := b.vec }
  without : a.vec = none → b.vec = none
  held {c : VecCtx} (held : a.vec = some c) : ∃ c', b.vec = some c' ∧ b.pw = a.pw ∧ c' = { c with p := c'.p } ∧
    ∀ q < 16, ∀ i, 4 ≤ i → i < 512 → ((c'.p[q]?).getD 0).getLsbD i = ((c.p[q]?).getD 0).getLsbD i

theorem Lane0Only.refl (a : Strand) : Lane0Only a a := ⟨rfl, id, fun held => ⟨_, held, rfl, rfl, fun _ _ _ _ _ => rfl⟩⟩

theorem Lane0Only.trans (h : Lane0Only a b) (h' : Lane0Only b c) : Lane0Only a c where
  rest := by rw [h'.rest, h.rest]
  without bare := h'.without (h.without bare)
  held held := by
    obtain ⟨c1, held1, word1, rest1, bits1⟩ := h.held held
    obtain ⟨c2, held2, word2, rest2, bits2⟩ := h'.held held1
    exact ⟨c2, held2, word2.trans word1, by rw [rest2, rest1], fun q named i up inside =>
      (bits2 q named i up inside).trans (bits1 q named i up inside)⟩

theorem lane0Only_setLane0 (st : Strand) (p : Nat) (b : Bool) : Lane0Only st (st.setLane0 p b) := by
  by_cases zero : p = 0
  · rw [Strand.setLane0, if_pos zero]
    exact .refl st
  · rw [Strand.setLane0, if_neg zero]
    cases vec : st.vec with
    | none => exact ⟨rfl, fun _ => rfl, fun held => nomatch vec.symm.trans held⟩
    | some c =>
      refine ⟨rfl, fun bare => (nomatch vec.symm.trans bare), fun held => ?_⟩
      obtain rfl := Option.some.inj (vec.symm.trans held)
      refine ⟨_, rfl, rfl, rfl, fun q named i up inside => ?_⟩
      refine (congrArg (·.getLsbD i) (getD_setIfInBounds c.p _ 0 named)).trans ?_
      by_cases same : q = p
      · rw [if_pos same]
        exact (nibble_write _ b inside).trans (by rw [if_neg (by omega), same])
      · rw [if_neg same]

/-- The write of the predicate word: lane 0 of p1 on, one predicate after another (07 R182). -/
def Strand.wordMoved (st : Strand) (v : Word) (n : Nat) : Strand :=
  (List.range n).foldl (fun st i => st.setLane0 (i + 1) (v.getLsbD (i + 1))) st

theorem Strand.wordMoved_succ (st : Strand) (v : Word) (n : Nat) :
    st.wordMoved v (n + 1) = (st.wordMoved v n).setLane0 (n + 1) (v.getLsbD (n + 1)) := by
  rw [wordMoved, List.range_succ, List.foldl_append]
  rfl

theorem lane0Only_wordMoved (st : Strand) (v : Word) (n : Nat) : Lane0Only st (st.wordMoved v n) := by
  induction n with
  | zero => exact .refl st
  | succ n ih => exact st.wordMoved_succ v n ▸ ih.trans (lane0Only_setLane0 ..)

theorem Strand.wordMoved_lane0 (st : Strand) (v : Word) {n i : Nat} (fits : n < 16) (inside : i < 16) :
    (st.wordMoved v n).lane0 i = if 0 < i ∧ i ≤ n then v.getLsbD i else st.lane0 i := by
  induction n with
  | zero => rw [if_neg (by omega)]; rfl
  | succ n ih =>
    rw [wordMoved_succ, lane0_setLane0 _ _ fits inside, ih (by omega)]
    by_cases last : i = n + 1
    · rw [if_pos ⟨last, by omega⟩, if_pos (by omega), last]
    · rw [if_neg fun both => last both.1]
      exact if_congr (by omega) rfl rfl

/-! ### Masks of elements (03 R65) -/

/-- Element `e` of `wb` bytes has byte `i` where `i / wb` is `e`. -/
theorem element_bit {wb e i : Nat} (wide : 0 < wb) (inside : i < 512) :
    (BitVec.ofNat 512 (2 ^ wb - 1) <<< (e * wb)).getLsbD i = decide (i / wb = e) := by
  have place : i / wb = e ↔ ¬ i < e * wb ∧ i - e * wb < wb := by
    rw [Nat.div_eq_iff wide, Nat.mul_comm]
    omega
  rw [BitVec.getLsbD_shiftLeft, BitVec.getLsbD_ofNat, Nat.testBit_two_pow_sub_one, Bool.eq_iff_iff, decide_eq_true_iff, place]
  simp [inside, show i - e * wb < 512 by omega]

theorem predOf_bit {wb : Nat} (divides : wb ∣ 512) (active : Nat → Bool) {i : Nat} (inside : i < 512) :
    (predOf wb active).getLsbD i = active (i / wb) := by
  have wide : 0 < wb := Nat.pos_of_dvd_of_pos divides (by decide)
  have fold (n : Nat) : ((List.range n).foldl
      (fun m e => if active e then m ||| (BitVec.ofNat 512 (2 ^ wb - 1) <<< (e * wb)) else m) 0#512).getLsbD i =
        (decide (i / wb < n) && active (i / wb)) := by
    induction n with
    | zero => simp
    | succ n ih =>
      rw [List.range_succ, List.foldl_append, List.foldl_cons, List.foldl_nil]
      by_cases last : i / wb = n
      · cases on : active n <;> simp [on, last, ih, element_bit wide inside]
      · have before : (i / wb < n + 1) = (i / wb < n) := by rw [eq_iff_iff]; omega
        cases on : active n <;> simp [before, last, ih, element_bit wide inside]
  refine (fold _).trans ?_
  have below : i / wb < 512 / wb := Nat.div_lt_div_of_lt_of_dvd divides inside
  rw [decide_eq_true below, Bool.true_and]

theorem predWidth_dvd (f : Fields) : predWidth f ∣ 512 := by
  have small : f.m.toNat % 4 ≤ 9 := by omega
  exact (Nat.pow_dvd_pow 2 small)

/-- The first active element: its lowest byte is set, and that of no element before it is. -/
theorem head_activeElems {wb e : Nat} {p : Pred} (inside : e < 512 / wb) :
    ((activeElems wb p).head? == some e) = decide (p.getLsbD (e * wb) = true ∧ ∀ j < e, p.getLsbD (j * wb) = false) := by
  rw [activeElems, List.head?_filter, Bool.eq_iff_iff, beq_iff_eq, List.find?_range_eq_some, decide_eq_true_iff]
  simp [inside]

/-! ### Instructions that bind no context (07 R179) -/

theorem Strand.bound.atHand (bound : st.bound) : st.atHand := by
  obtain ⟨c, held, here⟩ := bound
  intro c' held'
  rwa [← Option.some.inj (held.symm.trans held')]

section
variable (h : Issues s u st f) (hand : st.atHand)
include h hand

/-- A predicate instruction whose own steps leave a strand ends behind itself. -/
theorem predicate_ends {kl : Klass} {body : Act Unit} (did : body s = (.ok (), t.setStrand u st')) (hc : t.cur = some u)
    (out : st'.region = none) : (predicate kl f body).outcome s = .next (t.setStrand u (st'.done f)) := by
  refine Act.outcome_ok ?_
  rw [predicate, fixed_run h, bind_assoc, Act.bind_ok (reloadVec_atHand h.issuer h.strand hand), Act.bind_ok did]
  exact finish_set_run hc out f

theorem predicate_sets (g : Strand → Pred) :
    (predicate .execute f (editSelf fun st => st.setPred f.d.toNat (g st))).outcome s =
      .next (s.setStrand u ((st.setPred f.d.toNat (g st)).done f)) :=
  predicate_ends h hand (editSelf_run h.issuer h.strand _) h.issuer (by simpa using h.outside)

theorem predicate_gives (kl : Klass) (g : Strand → Word) :
    (predicate kl f (do let st ← self; writeX f.d.toNat (g st))).outcome s = .next (s.setStrand u ((st.gives f.d.toNat (g st)).done f)) :=
  predicate_ends h hand ((Act.bind_ok (self_run h.issuer h.strand)).trans (writeX_run h.issuer h.strand h.outside ..)) h.issuer
    (by exact h.outside)

theorem vwid_run : execVwid f s = .next (s.setStrand u
    ((st.gives f.d.toNat (if f.m = 4 then 4096 else BitVec.ofNat 64 (512 / 2 ^ f.m.toNat))).done f)) := by
  refine (predicate_ends h hand (writeX_run h.issuer h.strand h.outside ..) h.issuer (by exact h.outside)).trans ?_
  simp only [beq_iff_eq]

/-- The predicate word is written lane 0 by lane 0 (07 R182). -/
theorem pmovxWr_run {v : Word} (read : operandX false f.a f.ta s = (.ok v, t)) (there : t.strand? u = some (st.slowed k)) :
    execPmovxWr f s = .next (t.setStrand u (((st.slowed k).wordMoved v 15).done f)) := by
  have i := h.quiet ((operandX_quiet ..).quiet h.issuer h.strand h.outside read) there
  refine predicate_ends h hand ((Act.bind_ok read).trans (editSelf_run i.issuer i.strand _)) i.issuer ?_
  exact (congrArg Strand.region (lane0Only_wordMoved (st.slowed k) v 15).rest).trans i.outside

end

/-! ### Instructions that bind a context (01 R19, R31, 07 R179) -/

/-- The strand holds a fresh context. -/
def Strand.withFresh (st : Strand) : Strand := { st with vec := some st.freshVec }

/-- A context is bound where the core has one left. -/
theorem bindVec_fresh (hc : s.cur = some u) (hs : s.strand? u = some st) (bare : st.vec = none) (free : s.boundContexts st.core < 8) :
    bindVec s = (.ok (), s.setStrand u st.withFresh) := by
  rw [bindVec, Act.bind_ok (me_run hc), Act.bind_ok (self_run hc hs)]
  simp only [bare, Bool.not_false, if_true]
  rw [Act.bind_ok (readS_run ..)]
  simp only [id_eq, free, if_true]
  rw [editSelf_run hc hs, bare]
  rfl

/-- Once the context is there, the mask is computed and the predicate written. -/
theorem lanes_run {mask : Act Pred} {m : Pred} (h : Issues s u st f) (hand : st.atHand)
    (binds : (if f.d != 0 then bindVec else pure ()) s = (.ok (), s')) (hc : s'.cur = some u) (hs : s'.strand? u = some st')
    (out : st'.region = none) (quiet : QuietAct mask) (read : mask s' = (.ok m, t)) : ∃ k, t.strand? u = some (st'.slowed k) ∧
      (lanes f mask).outcome s = .next (t.setStrand u (((st'.slowed k).setPred f.d.toNat m).done f)) := by
  have left := quiet.quiet hc hs out read
  obtain ⟨k, there⟩ := left.strand hs
  have cur := left.cur.trans hc
  have written : (do let m ← mask; editSelf fun st => st.setPred f.d.toNat m : Act Unit) s' =
      (.ok (), t.setStrand u ((st'.slowed k).setPred f.d.toNat m)) := (Act.bind_ok read).trans (editSelf_run cur there _)
  refine ⟨k, there, predicate_ends h hand ?_ cur (by simpa using out)⟩
  cases bind : f.d != 0 with
  | true =>
    rw [bind, if_pos rfl] at binds
    exact (Act.bind_ok binds).trans written
  | false =>
    rw [bind, if_neg Bool.false_ne_true] at binds
    obtain rfl : s = s' := congrArg Prod.snd binds
    exact written

/-- A strand that holds a bound context computes its mask at once. -/
theorem lanes_bound {mask : Act Pred} {m : Pred} (h : Issues s u st f) (bound : st.bound) (quiet : QuietAct mask)
    (read : mask s = (.ok m, t)) : ∃ k, t.strand? u = some (st.slowed k) ∧
      (lanes f mask).outcome s = .next (t.setStrand u (((st.slowed k).setPred f.d.toNat m).done f)) := by
  refine lanes_run h bound.atHand ?_ h.issuer h.strand h.outside quiet read
  split
  · exact bindVec_bound h.issuer h.strand bound
  · rfl

theorem Strand.setPred_zero (st : Strand) (m : Pred) : st.setPred 0 m = st := if_pos rfl

theorem spread_bit (b : Bool) {i : Nat} (inside : i < 512) : (spread b).getLsbD i = b := by
  cases b with
  | false => exact BitVec.getLsbD_zero
  | true => exact BitVec.getLsbD_allOnes.trans (decide_eq_true inside)

/-- What a fresh context holds once a predicate of it has been written (01 R19). -/
def Strand.freshSet (st : Strand) (p : Nat) (m : Pred) : VecCtx := { st.freshVec with p := st.freshVec.p.setIfInBounds p m }

theorem Strand.setPred_fresh (st : Strand) {p : Nat} (m : Pred) (k : Bool) (named : p ≠ 0) :
    (st.withFresh.slowed k).setPred p m = { st.slowed k with vec := some (st.freshSet p m) } := by
  rw [setPred, if_neg named]
  cases k <;> rfl

/-- Every lane of the other predicates is the bit of the predicate word. -/
theorem Strand.freshSet_bit (st : Strand) {p q i : Nat} (m : Pred) (inside : q < 16) (other : q ≠ p) (small : i < 512) :
    (((st.freshSet p m).p[q]?).getD 0).getLsbD i = (decide (q = 0) || st.pw.getLsbD q) := by
  refine (congrArg (·.getLsbD i) (getD_setIfInBounds st.freshVec.p m 0 inside)).trans ?_
  rw [if_neg other, freshVec]
  rw [Vector.getElem?_ofFn, dif_pos inside, Option.getD_some]
  by_cases zero : q = 0
  · rw [if_pos zero, decide_eq_true zero, Bool.true_or, BitVec.getLsbD_allOnes, decide_eq_true small]
  · rw [if_neg zero, decide_eq_false zero, Bool.false_or, spread_bit _ small]

/-! ### Masks of PLIM, PWHILE and PFIRST (07 R181) -/

def plimMask (f : Fields) (b : Word) : Pred := predOf (predWidth f) fun e => e < b.toNat

def pwhileMask (f : Fields) (a b : Word) : Pred :=
  let i (w : Word) : Int := if f.m.getLsbD 2 then (w.toNat : Int) else w.toInt
  predOf (predWidth f) fun e => if f.m.getLsbD 3 then i a + (e : Int) ≤ i b else i a + (e : Int) < i b

def pfirstMask (f : Fields) (st : Strand) : Pred :=
  predOf (predWidth f) fun e => (activeElems (predWidth f) (st.predBits f.a.toNat)).head? == some e

theorem execPlim_eq (f : Fields) (s : State) :
    execPlim f s = (lanes f (do let b ← operandB f; pure (plimMask f b))).outcome s := rfl

theorem execPwhile_eq (f : Fields) (s : State) : execPwhile f s =
    (lanes f (do let a ← operandX false f.a f.ta; let b ← operandB f; pure (pwhileMask f a b))).outcome s := rfl

theorem execPfirst_eq (f : Fields) (s : State) : execPfirst f s = (lanes f (do let st ← self; pure (pfirstMask f st))).outcome s := rfl

theorem plim_quiet (f : Fields) : QuietAct (do let b ← operandB f; pure (plimMask f b)) := (operandB_quiet f).bind fun _ => .pure _

theorem pwhile_quiet (f : Fields) : QuietAct (do let a ← operandX false f.a f.ta; let b ← operandB f; pure (pwhileMask f a b)) :=
  (operandX_quiet ..).bind fun _ => (operandB_quiet f).bind fun _ => .pure _

theorem pfirst_quiet (f : Fields) : QuietAct (do let st ← self; pure (pfirstMask f st)) := QuietAct.self.bind fun _ => .pure _

theorem plimMask_bit (f : Fields) (b : Word) {i : Nat} (inside : i < 512) :
    (plimMask f b).getLsbD i = decide (i / predWidth f < b.toNat) := predOf_bit (predWidth_dvd f) _ inside

theorem pwhileMask_bit (f : Fields) (a b : Word) {i : Nat} (inside : i < 512) :
    let value (w : Word) : Int := if f.m.getLsbD 2 then (w.toNat : Int) else w.toInt
    let e : Int := (i / predWidth f : Nat)
    (pwhileMask f a b).getLsbD i = decide (if f.m.getLsbD 3 then value a + e ≤ value b else value a + e < value b) := by
  refine (predOf_bit (predWidth_dvd f) _ inside).trans ?_
  cases f.m.getLsbD 3 <;> rfl

theorem pfirstMask_bit (f : Fields) (st : Strand) {i : Nat} (inside : i < 512) :
    let e := i / predWidth f
    (pfirstMask f st).getLsbD i = decide ((st.predBits f.a.toNat).getLsbD (e * predWidth f) = true ∧
      ∀ j < e, (st.predBits f.a.toNat).getLsbD (j * predWidth f) = false) :=
  (predOf_bit (predWidth_dvd f) _ inside).trans
    (head_activeElems (Nat.div_lt_div_of_lt_of_dvd (predWidth_dvd f) inside))

/-- Settles O6: what binds no context ends at once; the masks of a bound context by their bits; and a fresh context by what it holds. -/
theorem predicates : Obligations.Predicates := by
  refine ⟨fun s t u st f h hand => ?_, fun s r t u st f h bound => ⟨fun b read => ?_, fun a b readA readB => ?_, ?_⟩,
    fun s t u st f b h bare small free => ⟨fun zero read => ?_, fun other read => ?_⟩⟩
  · -- no context is bound
    refine ⟨predicate_sets h hand _, predicate_sets h hand _, predicate_sets h hand _, predicate_sets h hand _,
      ⟨_, predicate_gives h hand .neither _, rfl⟩, ⟨_, predicate_gives h hand .neither _, fun i small => ?_⟩, vwid_run h hand,
      fun v read => ?_⟩
    · rw [BitVec.getLsbD_setWidth, decide_eq_true small, Bool.true_and]
      by_cases inside : i < 16
      · rw [st.predWord_bit inside, decide_eq_true inside, Bool.true_and]
      · rw [BitVec.getLsbD_of_ge _ _ (by omega), decide_eq_false inside, Bool.false_and]
    · obtain ⟨k, -, there, -⟩ := h.next (operandX_quiet ..) read
      have only := lane0Only_wordMoved (st.slowed k) v 15
      refine ⟨k, _, there, pmovxWr_run h hand read there, fun i inside => ?_, only.rest, fun bare => only.without (by simpa using bare),
        fun c held => ?_⟩
      · rw [Strand.wordMoved_lane0 _ v (by decide) inside]
        by_cases zero : i = 0
        · rw [zero]; rfl
        · rw [if_pos (by omega), decide_eq_false zero, Bool.false_or]
      · simpa using only.held (by simpa using held)
  · -- PLIM
    obtain ⟨k, there, run⟩ := lanes_bound h bound (plim_quiet f) (Act.bind_ok read)
    exact ⟨k, _, there, (execPlim_eq f s).trans run, fun i small => plimMask_bit f b small⟩
  · -- PWHILE
    obtain ⟨k, there, run⟩ := lanes_bound h bound (pwhile_quiet f) ((Act.bind_ok readA).trans (Act.bind_ok readB))
    exact ⟨k, _, there, (execPwhile_eq f s).trans run, fun i small => pwhileMask_bit f a b small⟩
  · -- PFIRST
    obtain ⟨k, there, run⟩ := lanes_bound h bound (pfirst_quiet f) (Act.bind_ok (self_run h.issuer h.strand))
    rw [Strand.slowed_unique (k := false) h.strand there] at run
    exact ⟨_, (execPfirst_eq f s).trans run, fun i small => pfirstMask_bit f st small⟩
  · -- p0 binds nothing
    have hand : st.atHand := fun c held => nomatch bare.symm.trans held
    obtain ⟨k, there, run⟩ := lanes_run h hand (by rw [zero]; rfl) h.issuer h.strand h.outside (plim_quiet f) (Act.bind_ok read)
    have discarded (st : Strand) (m : Pred) : st.setPred f.d.toNat m = st := by rw [zero]; exact st.setPred_zero m
    rw [discarded] at run
    exact ⟨k, there, (execPlim_eq f s).trans run⟩
  · -- another destination binds a context
    have hand : st.atHand := fun c held => nomatch bare.symm.trans held
    have binds : (if f.d != 0 then bindVec else pure ()) s = (.ok (), s.setStrand u st.withFresh) := by
      rw [if_pos (bne_iff_ne.mpr other)]
      exact bindVec_fresh h.issuer h.strand bare free
    obtain ⟨k, -, run⟩ := lanes_run h hand binds h.issuer (State.strand_set ..) (by exact h.outside) (plim_quiet f) (Act.bind_ok read)
    rw [Strand.setPred_fresh _ _ _ fun zero => other (BitVec.eq_of_toNat_eq zero)] at run
    exact ⟨k, _, (execPlim_eq f s).trans run, rfl, rfl, rfl, fun i inside => BitVec.getLsbD_allOnes.trans (decide_eq_true inside),
      fun q inside apart i small => st.freshSet_bit _ inside apart small⟩

end Sys2Proof.Machine
end

section
/-!
HOW THE VECTOR INSTRUCTIONS END (O7, O9, O10).

An instruction whose steps up to D come to a `deliver` ends with D delivered (`delivering_ends`, `delivering_skips`); where the tags do not
fit it ends with the trap of 03 R66 (`misfit_traps`). One lemma per meaning says which steps lead there.
-/

namespace Sys2Proof.Machine

variable {α β : Type} {s r t : State} {u : Nat} {st : Strand} {f : Fields} {k : Bool}

/-! ### Sources read one after the other (08 R184, step 2) -/

theorem Quiet.next {src : Act α} {x : α} (quiet : Quiet s u st r) (h : Issues s u st f) (act : QuietAct src)
    (read : src r = (.ok x, t)) : Quiet s u st t := by
  obtain ⟨k, there⟩ := quiet.strand h.strand
  have i := h.quiet quiet there
  exact quiet.trans h.strand there (act.quiet i.issuer i.strand i.outside read)

/-- The strand that quiet steps leave issues the same instruction. -/
theorem Quiet.issues (quiet : Quiet s u st t) (h : Issues s u st f) : ∃ k, Issues t u (st.slowed k) f := by
  obtain ⟨k, there⟩ := quiet.strand h.strand
  exact ⟨k, h.quiet quiet there⟩

/-- A source that is read in either of two ways, and what follows it. -/
theorem Act.ite_bind_ok {p : Prop} [Decidable p] {a b : Act α} {g : α → Act β} {x : α} (read : (if p then a else b) s = (.ok x, t)) :
    (if p then a >>= g else b >>= g) s = g x t := by
  by_cases holds : p
  · rw [if_pos holds] at read ⊢
    exact Act.bind_ok read
  · rw [if_neg holds] at read ⊢
    exact Act.bind_ok read

/-- A vector register brings no flags of a conversion. -/
theorem vreg_flags {w : Nat} {n : BitVec 6} {d : BitVec 2} {b : VSrc} (read : vreg w n d s = (.ok b, t)) : b.fl = 0 := by
  rw [vreg, Act.bind_run] at read
  split at read <;> cases read
  rfl

@[simp] theorem tagOf_fmt (f : Fields) : tagOf f.fmt.toNat = f.fmt := BitVec.ofNat_toNat 4 f.fmt

@[simp] theorem Strand.slowed_predBits (st : Strand) (k : Bool) : (st.slowed k).predBits = st.predBits := by cases k <;> rfl

/-! ### The ends -/

section
variable (h : Issues s u st f)
include h

/-- An instruction whose own steps leave a strand ends behind itself. -/
theorem fixed_ends {kl : Klass} {body : Act Unit} {st' : Strand} (did : body s = (.ok (), t.setStrand u st')) (hc : t.cur = some u)
    (out : st'.region = none) : (fixed kl f body).outcome s = .next (t.setStrand u (st'.done f)) :=
  Act.outcome_ok ((fixed_run h ..).trans ((Act.bind_ok did).trans (finish_set_run hc out f)))

variable (bound : st.bound)
include bound

theorem vectorStart_then (rest : Act Unit) : (do vectorStart f; rest : Act Unit) s = rest s :=
  Act.bind_ok (vectorStart_bound h.issuer h.strand h.outside bound f)

theorem bindVec_then (rest : Act Unit) : (do bindVec; rest : Act Unit) s = rest s :=
  Act.bind_ok (bindVec_bound h.issuer h.strand bound)

variable (i : Issues t u (st.slowed k) f)
include i

/-- An instruction that comes to the steps 4 to 6 of 08 R184, and skips turns behind them (01 R27). -/
theorem delivering_skips {rest : Act Unit} {w : Nat} {tag : BitVec 4} {old : List Nat} {res : List (Nat × Flags)} {fl : Flags} {n : Nat}
    (leads : rest s = (do deliver f w tag old res fl; skipTurns n : Act Unit) t) :
    (fixed .execute f (do vectorStart f; rest)).outcome s =
      .next (t.setStrand u ({ (st.slowed k).delivers f w tag old res fl with long := st.long + n }.done f)) := by
  refine fixed_ends h ((vectorStart_then h bound rest).trans (leads.trans ?_)) i.issuer i.outside
  rw [Act.bind_ok (deliver_run i.issuer i.strand ..),
    skipTurns_run (s := t.setStrand u _) i.issuer (State.strand_set ..) (by exact i.outside), State.set_set]
  simp only [Strand.delivers_long, Strand.slowed_long]

/-- An instruction that comes to the steps 4 to 6 of 08 R184. -/
theorem delivering_ends {rest : Act Unit} {w : Nat} {tag : BitVec 4} {old : List Nat} {res : List (Nat × Flags)} {fl : Flags}
    (leads : rest s = deliver f w tag old res fl t) : (fixed .execute f (do vectorStart f; rest)).outcome s =
      .next (t.setStrand u (((st.slowed k).delivers f w tag old res fl).done f)) :=
  fixed_ends h ((vectorStart_then h bound rest).trans (leads.trans (deliver_run i.issuer i.strand ..))) i.issuer i.outside

/-- A source whose tag is not the format's stops the instruction before D (03 R66). -/
theorem misfit_traps {l : List (VSrc × Nat)} (misfit : ¬ TagsFit l) : ∃ x y, ∀ rest after : Act Unit,
    rest s = (do checkTags l; after : Act Unit) t → (fixed .execute f (do vectorStart f; rest)).outcome s =
      .next (({ t with free := t.free + 2 } : State).takeTrap u Cause.formatMismatch x st.pc y) := by
  obtain ⟨x, y, trap⟩ := trapPlain_run (α := Unit) i.issuer i.strand i.outside Cause.formatMismatch
  rw [Strand.slowed_pc] at trap
  have stops : checkTags l = trapPlain Cause.formatMismatch := by
    refine if_neg fun all => misfit fun e inside => ?_
    simpa using List.all_eq_true.mp all e inside
  refine ⟨x, y, fun rest after leads => Act.outcome_done ((fixed_run h ..).trans (Act.bind_error ?_))⟩
  exact (vectorStart_then h bound rest).trans (leads.trans (Act.bind_error (stops ▸ trap)))

omit bound h in
/-- The environment is that of the strand's FCR, before the sources and behind them. -/
theorem fpEnv_slowed : fpEnv f t = (.ok (envOf st.fcr f.rnd.toNat), t) := by
  rw [fpEnv_run i.issuer i.strand i.outside, Strand.slowed_fcr]

end

end Sys2Proof.Machine
end

section
/-!
VECTOR FLOATING POINT (O7).

Each meaning of `vfp1`, `vfp2`, `vfma3` and `convertWith`, and the ones beside them, for a strand whose sources are read and fit.
-/

namespace Sys2Proof.Machine

variable {s s1 s2 s3 t : State} {u : Nat} {st : Strand} {f : Fields} {k : Bool} {a b c : VSrc} {old : List Nat}

/-- D as a conversion reads it: always where a source element is wider, for then it leaves elements as they were (08 R198). -/
def keptElems (f : Fields) (wt ws : Nat) : Act (List Nat) :=
  if wt < ws then (do let (v, _) ← readV f.d.toNat; pure (elems wt v)) else oldElems f wt

theorem keptElems_quiet (f : Fields) (wt ws : Nat) : QuietAct (keptElems f wt ws) :=
  QuietAct.ite ((readV_quiet _).bind fun _ => QuietAct.pure _) (oldElems_quiet ..)

theorem keptElems_run {wt ws : Nat} (kept : if wt < ws then ∃ bits tag, readV f.d.toNat s = (.ok (bits, tag), t) ∧ old = elems wt bits
    else oldElems f wt s = (.ok old, t)) : keptElems f wt ws s = (.ok old, t) := by
  unfold keptElems
  by_cases narrows : wt < ws
  · rw [if_pos narrows] at kept ⊢
    obtain ⟨bits, tag, read, rfl⟩ := kept
    exact Act.bind_ok read
  · rwa [if_neg narrows] at kept ⊢

section
variable (h : Issues s u st f) (bound : st.bound) (i : Issues t u (st.slowed k) f)
include h bound i

section
variable (readA : vreg (Shape.widthOf f.fmt.toNat) f.a f.ta s = (.ok a, s1))
include readA

section
variable (readD : oldElems f (Shape.widthOf f.fmt.toNat) s1 = (.ok old, t)) (fit : TagsFit [(a, f.fmt.toNat)])
include readD fit

theorem vfp1_run (n : Nat) (op : Nat → FpEnv → Nat → Nat × Flags) : (vfp1 f op n).outcome s = .next (t.setStrand u
    ({ (st.slowed k).delivers f (Shape.widthOf f.fmt.toNat) f.fmt old (a.es.map (op f.fmt.toNat (envOf st.fcr f.rnd.toNat))) 0 with
      long := st.long + n }.done f)) := by
  refine (delivering_skips h bound i ((Act.bind_ok readA).trans ((Act.bind_ok readD).trans ((Act.bind_ok (checkTags_fit fit t)).trans
    (Act.bind_ok (fpEnv_slowed i)))))).trans ?_
  rw [tagOf_fmt]

theorem vfclass_run : execVfclass f s = .next (t.setStrand u (((st.slowed k).delivers f (Shape.widthOf f.fmt.toNat)
    (BitVec.ofNat 4 (intTag (Shape.widthOf f.fmt.toNat))) old
    (a.es.map fun x => (fpClass f.fmt.toNat (envOf st.fcr f.rnd.toNat).ftz x, 0)) 0).done f)) := by
  unfold execVfclass
  exact delivering_ends h bound i ((Act.bind_ok readA).trans ((Act.bind_ok readD).trans ((Act.bind_ok (checkTags_fit fit t)).trans
    (Act.bind_ok (fpEnv_slowed i)))))

end

section
variable (readB : srcBfp f f.fmt.toNat (envOf st.fcr f.rnd.toNat) s1 = (.ok b, s2))
include readB

theorem vfp2_run (readD : oldElems f (Shape.widthOf f.fmt.toNat) s2 = (.ok old, t)) (fit : TagsFit [(a, f.fmt.toNat), (b, f.fmt.toNat)])
    (n : Nat) (op : Nat → FpEnv → Nat → Nat → Nat × Flags) : (vfp2 f op n).outcome s = .next (t.setStrand u
    ({ (st.slowed k).delivers f (Shape.widthOf f.fmt.toNat) f.fmt old
      (map2 (op f.fmt.toNat (envOf st.fcr f.rnd.toNat)) a.es b.es) b.fl with long := st.long + n }.done f)) := by
  refine (delivering_skips h bound i ((Act.bind_ok (fpEnv_run h.issuer h.strand h.outside f)).trans ((Act.bind_ok readA).trans
    ((Act.bind_ok readB).trans ((Act.bind_ok readD).trans (Act.bind_ok (checkTags_fit fit t))))))).trans ?_
  rw [tagOf_fmt]

theorem vfma3_run (readC : vreg (Shape.widthOf f.fmt.toNat) f.c 0 s2 = (.ok c, s3))
    (readD : oldElems f (Shape.widthOf f.fmt.toNat) s3 = (.ok old, t))
    (fit : TagsFit [(a, f.fmt.toNat), (b, f.fmt.toNat), (c, f.fmt.toNat)]) (negA negC : Bool) :
    (vfma3 f negA negC).outcome s = .next (t.setStrand u (((st.slowed k).delivers f (Shape.widthOf f.fmt.toNat) f.fmt old
      (map3 (fpFma f.fmt.toNat (envOf st.fcr f.rnd.toNat) negA negC) a.es b.es c.es) b.fl).done f)) := by
  refine (delivering_ends h bound i ((Act.bind_ok (fpEnv_run h.issuer h.strand h.outside f)).trans ((Act.bind_ok readA).trans
    ((Act.bind_ok readB).trans ((Act.bind_ok readC).trans ((Act.bind_ok readD).trans (Act.bind_ok (checkTags_fit fit t)))))))).trans ?_
  rw [tagOf_fmt]

end

theorem vfscale_run (readB : srcBint f (Shape.widthOf f.fmt.toNat) s1 = (.ok b, s2))
    (readD : oldElems f (Shape.widthOf f.fmt.toNat) s2 = (.ok old, t))
    (fit : TagsFit [(a, f.fmt.toNat), (b, intTag (Shape.widthOf f.fmt.toNat))]) :
    let w := Shape.widthOf f.fmt.toNat
    execVfscale f s = .next (t.setStrand u (((st.slowed k).delivers f w f.fmt old
      (map2 (fun x n => fpScale f.fmt.toNat (envOf st.fcr f.rnd.toNat) x (toSigned w n)) a.es b.es) 0).done f)) := by
  intro w
  unfold execVfscale
  refine (delivering_ends h bound i ((Act.bind_ok (fpEnv_run h.issuer h.strand h.outside f)).trans ((Act.bind_ok readA).trans
    ((Act.bind_ok readB).trans ((Act.bind_ok readD).trans (Act.bind_ok (checkTags_fit fit t))))))).trans ?_
  rw [tagOf_fmt]

/-- VFCMP raises the flags and then writes its predicate (08 R191). -/
theorem vfcmp_run (readB : srcBfp f f.fmt.toNat (envOf st.fcr f.rnd.toNat) s1 = (.ok b, t))
    (fit : TagsFit [(a, f.fmt.toNat), (b, f.fmt.toNat)]) :
    let w := Shape.widthOf f.fmt.toNat
    let act := activeList w (st.predBits f.m.toNat)
    let res : List (Nat × Flags) := map2 (fun x y =>
      let r := fpCompare f.fmt.toNat (envOf st.fcr f.rnd.toNat).ftz f.e.toNat x y; (if r.1 then 1 else 0, r.2)) a.es b.es
    execVfcmp f s = .next (t.setStrand u (({ st.slowed k with
      fcr := st.fcr ||| (gather act res ||| (if act.any id then b.fl else 0)).zeroExtend 64 }.setPred f.d.toNat
        (lanesOf w (List.zipWith (fun (g : Bool) (r : Nat × Flags) => g && r.1 == 1) act res))).done f)) := by
  intro w act res
  refine fixed_ends h ((bindVec_then h bound _).trans ?_) i.issuer (by simpa using i.outside)
  rw [Act.bind_ok (fpEnv_run h.issuer h.strand h.outside f), Act.bind_ok readA, Act.bind_ok readB, Act.bind_ok (checkTags_fit fit t),
    Act.bind_ok (actives_run i.issuer i.strand f w), raiseFlags, Act.bind_ok (editSelf_run i.issuer i.strand _),
    editSelf_set_run i.issuer, Strand.slowed_predBits, Strand.slowed_fcr]

end

/-- VFDOT2 reads pairs of 16 bits and delivers elements of 32 (08 R193). -/
theorem vfdot2_run (readA : vreg 16 f.a f.ta s = (.ok a, s1)) (readB : srcBfp f f.fmt.toNat (envOf st.fcr f.rnd.toNat) s1 = (.ok b, s2))
    (readC : vreg 32 f.c 0 s2 = (.ok c, s3)) (readD : oldElems f 32 s3 = (.ok old, t))
    (fit : TagsFit [(a, f.fmt.toNat), (b, f.fmt.toNat), (c, 2)]) : execVfdot2 f s = .next (t.setStrand u
      (((st.slowed k).delivers f 32 2 old (dotPairs f.fmt.toNat (envOf st.fcr f.rnd.toNat) a.es b.es c.es) b.fl).done f)) := by
  unfold execVfdot2
  exact delivering_ends h bound i ((Act.bind_ok (fpEnv_run h.issuer h.strand h.outside f)).trans ((Act.bind_ok readA).trans
    ((Act.bind_ok readB).trans ((Act.bind_ok readC).trans ((Act.bind_ok readD).trans (Act.bind_ok (checkTags_fit fit t)))))))

theorem convertWith_run (readA : vreg (Shape.widthOf f.e.toNat) f.a f.ta s = (.ok a, s1))
    (readD : keptElems f (Shape.widthOf f.fmt.toNat) (Shape.widthOf f.e.toNat) s1 = (.ok old, t)) (fit : TagsFit [(a, f.e.toNat)])
    (op : FpEnv → Nat → Nat × Flags) :
    (convertWith f op).outcome s = .next (t.setStrand u (((st.slowed k).delivers f (Shape.widthOf f.fmt.toNat) f.fmt old
      (List.zipWith (fun o old => match o with | some v => op (envOf st.fcr f.rnd.toNat) v | none => (old, (0 : Flags)))
        (placed (4096 / Shape.widthOf f.fmt.toNat) (4096 / Shape.widthOf f.e.toNat) (f.imm20.toNat % 8) a.es) old) 0).done f)) := by
  refine (delivering_ends h bound i ((Act.bind_ok readA).trans ((Act.ite_bind_ok readD).trans ((Act.bind_ok (checkTags_fit fit t)).trans
    (Act.bind_ok (fpEnv_slowed i)))))).trans ?_
  exact congrArg (fun tag => Host.Outcome.next (t.setStrand u (((st.slowed k).delivers f _ tag old _ 0).done f))) (tagOf_fmt f)

end

/-- Settles O7: each instruction's steps lead to the delivery of 08 R184 (`vfp1_run` to `convertWith_run`). -/
theorem vectorFloat : Obligations.VectorFloat := by
  refine ⟨fun s s1 s2 s3 t u st f a b c old h bound readA => ⟨fun readD fit => ?_, fun readB => ⟨fun readD fit => ?_,
    fun readC readD fit => ?_⟩⟩, fun s s1 s2 s3 t u st f a b c old h bound => ⟨fun readA => ⟨fun readD fit => ?_,
    fun readB readD fit => ?_, fun readB fit => ?_⟩, fun readA readB readC readD fit => ?_, fun readA kept fit => ?_⟩⟩
  · -- one source
    obtain ⟨k, i⟩ := (h.quiet_two (vreg_quiet ..) (oldElems_quiet ..) readA readD).issues h
    have ends := vfp1_run h bound i readA readD fit
    exact ⟨k, i.strand, ends 0 fpAbs, ends 0 fpNeg, ends 2 fpSqrt, ends 2 fpRcp, ends 2 fpRsq, ends 2 fpExp2, ends 2 fpLog2, ends 2 fpSin,
      ends 2 fpCos, ends 2 fpTanh, ends 0 fpRnd⟩
  · -- two sources
    obtain ⟨k, i⟩ := ((h.quiet_two (vreg_quiet ..) (srcBfp_quiet ..) readA readB).next h (oldElems_quiet ..) readD).issues h
    have ends := vfp2_run h bound i readA readB readD fit
    exact ⟨k, i.strand, ends 0 fpAdd, ends 0 fpSub, ends 0 fpMul, ends 0 fun c e => fpMinMax c e false,
      ends 0 fun c e => fpMinMax c e true, ends 0 fpCps, ends 2 fpDiv⟩
  · -- the fused forms
    obtain ⟨k, i⟩ := (((h.quiet_two (vreg_quiet ..) (srcBfp_quiet ..) readA readB).next h (vreg_quiet ..) readC).next h
      (oldElems_quiet ..) readD).issues h
    have ends := vfma3_run h bound i readA readB readC readD fit
    exact ⟨k, i.strand, ends false false, ends false true, ends true true, ends true false⟩
  · -- VFCLASS
    obtain ⟨k, i⟩ := (h.quiet_two (vreg_quiet ..) (oldElems_quiet ..) readA readD).issues h
    exact ⟨k, i.strand, vfclass_run h bound i readA readD fit⟩
  · -- VFSCALE
    obtain ⟨k, i⟩ := ((h.quiet_two (vreg_quiet ..) (srcBint_quiet ..) readA readB).next h (oldElems_quiet ..) readD).issues h
    exact ⟨k, i.strand, vfscale_run h bound i readA readB readD fit⟩
  · -- VFCMP
    obtain ⟨k, i⟩ := (h.quiet_two (vreg_quiet ..) (srcBfp_quiet ..) readA readB).issues h
    exact ⟨k, i.strand, vfcmp_run h bound i readA readB fit⟩
  · -- VFDOT2
    obtain ⟨k, i⟩ := (((h.quiet_two (vreg_quiet ..) (srcBfp_quiet ..) readA readB).next h (vreg_quiet ..) readC).next h
      (oldElems_quiet ..) readD).issues h
    exact ⟨k, i.strand, vfdot2_run h bound i readA readB readC readD fit⟩
  · -- the conversions
    have readD := keptElems_run kept
    obtain ⟨k, i⟩ := (h.quiet_two (vreg_quiet ..) (keptElems_quiet ..) readA readD).issues h
    have ends := convertWith_run h bound i readA readD fit
    exact ⟨k, i.strand, ends fun env v => fpConvert f.fmt.toNat f.e.toNat env v,
      ends fun _ v => (intConvert f.fmt.toNat f.e.toNat (f.imm20.getLsbD 3) v, 0)⟩

end Sys2Proof.Machine
end

section
/-!
VECTOR INTEGERS (O9).

Each meaning of `vint1`, `vint2` and `vbit`, VMADD and VCMP, for a strand whose sources are read.
-/

namespace Sys2Proof.Machine

variable {s s1 s2 s3 t : State} {u : Nat} {st : Strand} {f : Fields} {k : Bool} {a b c : VSrc} {old : List Nat}

/-- A minimum or maximum by the format's order (08 R195). -/
theorem pickInt_signed (isMax : Bool) : pickInt false isMax =
    fun code _ x y => if intValue code x < intValue code y then (if isMax then y else x) else (if isMax then x else y) := by
  funext code w x y
  cases isMax <;> simp [pickInt]

theorem pickInt_unsigned (isMax : Bool) : pickInt true isMax =
    fun _ _ x y => if x < y then (if isMax then y else x) else (if isMax then x else y) := by
  funext code w x y
  cases isMax <;> simp [pickInt]

section
variable (h : Issues s u st f) (bound : st.bound) (i : Issues t u (st.slowed k) f)
  (readA : vreg (Shape.widthOf f.fmt.toNat) f.a f.ta s = (.ok a, s1))
include h bound i readA

theorem vint1_run (readD : oldElems f (Shape.widthOf f.fmt.toNat) s1 = (.ok old, t)) (fit : TagsFit [(a, f.fmt.toNat)])
    (op : Nat → Nat → Nat → Nat) : (vint1 f op).outcome s = .next (t.setStrand u (((st.slowed k).delivers f
      (Shape.widthOf f.fmt.toNat) f.fmt old
      (a.es.map fun x => (op f.fmt.toNat (Shape.widthOf f.fmt.toNat) x % 2 ^ Shape.widthOf f.fmt.toNat, 0)) 0).done f)) :=
  delivering_ends h bound i ((Act.bind_ok readA).trans ((Act.bind_ok readD).trans (Act.bind_ok (checkTags_fit fit t))))

section
variable (readB : srcBint f (Shape.widthOf f.fmt.toNat) s1 = (.ok b, s2))
include readB

section
variable (readD : oldElems f (Shape.widthOf f.fmt.toNat) s2 = (.ok old, t))
include readD

/-- The bitwise forms ask for no tag (08 R197). -/
theorem vbit_run (op : Nat → Nat → Nat → Nat) : (vbit f op).outcome s = .next (t.setStrand u (((st.slowed k).delivers f
    (Shape.widthOf f.fmt.toNat) (a.tag.getD 0) old
    (map2 (fun x y => (op (Shape.widthOf f.fmt.toNat) x y % 2 ^ Shape.widthOf f.fmt.toNat, 0)) a.es b.es) 0).done f)) :=
  delivering_ends h bound i ((Act.bind_ok readA).trans ((Act.bind_ok readB).trans (Act.bind_ok readD)))

theorem vint2_run (fit : TagsFit [(a, f.fmt.toNat), (b, f.fmt.toNat)]) (op : IntOp) : (vint2 f op).outcome s =
    .next (t.setStrand u (((st.slowed k).delivers f (Shape.widthOf f.fmt.toNat) f.fmt old (map2 (fun x y =>
      (op f.fmt.toNat (Shape.widthOf f.fmt.toNat) x y % 2 ^ Shape.widthOf f.fmt.toNat, 0)) a.es b.es) 0).done f)) :=
  delivering_ends h bound i ((Act.bind_ok readA).trans ((Act.bind_ok readB).trans ((Act.bind_ok readD).trans
    (Act.bind_ok (checkTags_fit fit t)))))

end

theorem vmadd_run (readC : vreg (Shape.widthOf f.fmt.toNat) f.c 0 s2 = (.ok c, s3))
    (readD : oldElems f (Shape.widthOf f.fmt.toNat) s3 = (.ok old, t))
    (fit : TagsFit [(a, f.fmt.toNat), (b, f.fmt.toNat), (c, f.fmt.toNat)]) : execVmadd f s = .next (t.setStrand u
      (((st.slowed k).delivers f (Shape.widthOf f.fmt.toNat) f.fmt old
        (map3 (fun x y z => ((x * y + z) % 2 ^ Shape.widthOf f.fmt.toNat, 0)) a.es b.es c.es) 0).done f)) := by
  unfold execVmadd
  exact delivering_ends h bound i ((Act.bind_ok readA).trans ((Act.bind_ok readB).trans ((Act.bind_ok readC).trans
    ((Act.bind_ok readD).trans (Act.bind_ok (checkTags_fit fit t))))))

end

/-- VCMP writes its predicate and raises no flag (08 R196). -/
theorem vcmp_run (readB : srcBint f (Shape.widthOf f.fmt.toNat) s1 = (.ok b, t)) (fit : TagsFit [(a, f.fmt.toNat), (b, f.fmt.toNat)]) :
    let w := Shape.widthOf f.fmt.toNat
    execVcmp f s = .next (t.setStrand u (((st.slowed k).setPred f.d.toNat (lanesOf w
      (List.zipWith (fun g r => g && r) (activeList w (st.predBits f.m.toNat))
        (List.zipWith (fun x y => condHolds f.e.toNat w (f.fmt.toNat == 12) x y) a.es b.es)))).done f)) := by
  intro w
  refine fixed_ends h ((bindVec_then h bound _).trans ?_) i.issuer (by simpa using i.outside)
  rw [Act.bind_ok readA, Act.bind_ok readB, Act.bind_ok (checkTags_fit fit t), Act.bind_ok (actives_run i.issuer i.strand f w),
    editSelf_run i.issuer i.strand, Strand.slowed_predBits]

end

/-- Settles O9: each instruction's steps lead to the delivery of 08 R184 (`vint1_run` to `vmadd_run`), VCMP's to its predicate. -/
theorem vectorInteger : Obligations.VectorInteger := by
  intro s s1 s2 s3 t u st f a b c old h bound code w v act readA
  refine ⟨fun readD fit => ?_, fun readB => ⟨fun readD => ?_, fun last fit => ?_, fun readC readD fit => ?_⟩⟩
  · -- one source
    obtain ⟨k, i⟩ := (h.quiet_two (vreg_quiet ..) (oldElems_quiet ..) readA readD).issues h
    have ends := vint1_run h bound i readA readD fit
    exact ⟨k, i.strand, ends fun c w x => wrap w (intValue c x).natAbs, ends fun _ w x => leadingZeros w x, ends fun _ w x => onesIn w x⟩
  · -- two sources
    obtain ⟨k, i⟩ := ((h.quiet_two (vreg_quiet ..) (srcBint_quiet ..) readA readB).next h (oldElems_quiet ..) readD).issues h
    have any := vbit_run h bound i readA readB readD
    refine ⟨k, i.strand, ⟨any fun _ x y => x &&& y, any fun _ x y => x ||| y, any fun _ x y => x ^^^ y,
      any fun w x y => x &&& (2 ^ w - 1 - y)⟩, fun fit => ?_⟩
    have own := vint2_run h bound i readA readB readD fit
    refine ⟨own fun _ _ x y => x + y, own fun _ w x y => x + (2 ^ w - y), own fun _ _ x y => x * y,
      own fun c w x y => wrap w (intValue c x * intValue c y / 2 ^ w), own fun _ w x y => x * 2 ^ (y % w),
      own fun _ w x y => x / 2 ^ (y % w), own fun c w x y => wrap w (intValue c x / 2 ^ (y % w)),
      (own (pickInt false false)).trans ?_, (own (pickInt false true)).trans ?_, (own (pickInt true false)).trans ?_,
      (own (pickInt true true)).trans ?_, own fun c w x y => wrap w (clampTo (intRange c) (intValue c x + intValue c y)),
      own fun c w x y => wrap w (clampTo (intRange c) (intValue c x - intValue c y))⟩
    · simp only [pickInt_signed, Bool.false_eq_true, if_false, code, w, v]
    · simp only [pickInt_signed, if_true, code, w, v]
    · simp only [pickInt_unsigned, Bool.false_eq_true, if_false, code, w]
    · simp only [pickInt_unsigned, if_true, code, w]
  · -- VCMP
    subst last
    obtain ⟨k, i⟩ := (h.quiet_two (vreg_quiet ..) (srcBint_quiet ..) readA readB).issues h
    exact ⟨k, i.strand, vcmp_run h bound i readA readB fit⟩
  · -- VMADD
    obtain ⟨k, i⟩ := (((h.quiet_two (vreg_quiet ..) (srcBint_quiet ..) readA readB).next h (vreg_quiet ..) readC).next h
      (oldElems_quiet ..) readD).issues h
    exact ⟨k, i.strand, vmadd_run h bound i readA readB readC readD fit⟩

end Sys2Proof.Machine
end

section
/-!
VECTOR MOVES AND THE FORMAT CHECK (O10).

VSEL and VFILL take their second source in either of two ways (`selectB`, `fillValue`); VADD and VFADD stop at `misfit_traps`.
-/

namespace Sys2Proof.Machine

variable {s s1 s2 t : State} {u : Nat} {st : Strand} {f : Fields} {k : Bool} {a b : VSrc} {old : List Nat}

theorem or_noFlags (w : Word) : w ||| (0 : Flags).zeroExtend 64 = w := BitVec.or_zero

/-- B of VSEL: a vector register, or a scalar in every element (08 R197). -/
def selectB (f : Fields) (w : Nat) : Act VSrc :=
  if f.bk == 0 then vreg w f.b f.tb else (do let (v, fl) ← scalarAny f f.fmt.toNat; pure (scalarSrc w v fl))

theorem selectB_quiet (f : Fields) (w : Nat) : QuietAct (selectB f w) :=
  QuietAct.ite (vreg_quiet ..) ((scalarAny_quiet ..).bind fun _ => QuietAct.pure _)

theorem selectB_vector {w : Nat} (vector : f.bk = 0) : selectB f w = vreg w f.b f.tb := if_pos (beq_iff_eq.mpr vector)

theorem selectB_scalar {w n : Nat} {fl : Flags} (scalar : f.bk ≠ 0) (read : scalarAny f f.fmt.toNat s = (.ok (n, fl), t)) :
    selectB f w s = (.ok ⟨List.replicate (4096 / w) (n % 2 ^ w), none, fl⟩, t) := by
  rw [selectB, if_neg (by simpa using scalar)]
  exact Act.bind_ok read

/-- The scalar of VFILL: an x register, or a scalar B of the format's class (08 R197). -/
def fillValue (f : Fields) : Act (Nat × Flags) :=
  if f.bk == 0 then (do pure ((← operandX false f.b f.tb).toNat, (0 : Flags))) else scalarAny f f.fmt.toNat

theorem fillValue_quiet (f : Fields) : QuietAct (fillValue f) :=
  QuietAct.ite ((operandX_quiet ..).bind fun _ => QuietAct.pure _) (scalarAny_quiet ..)

theorem fillValue_register {x : Word} (register : f.bk = 0) (read : operandX false f.b f.tb s = (.ok x, t)) :
    fillValue f s = (.ok (x.toNat, 0), t) := by
  rw [fillValue, if_pos (beq_iff_eq.mpr register)]
  exact Act.bind_ok read

theorem fillValue_scalar (scalar : f.bk ≠ 0) : fillValue f = scalarAny f f.fmt.toNat := if_neg (by simpa using scalar)

section
variable (h : Issues s u st f) (bound : st.bound) (i : Issues t u (st.slowed k) f)
include h bound i

section
variable (readA : vreg (Shape.widthOf f.fmt.toNat) f.a f.ta s = (.ok a, s1))
include readA

/-- VSEL writes every element, D's tag is A's, and the flags are those of a scalar's conversion (08 R197). -/
theorem vsel_run {es : List Nat} {tag : Option (BitVec 4)} {fl : Flags}
    (readB : selectB f (Shape.widthOf f.fmt.toNat) s1 = (.ok ⟨es, tag, fl⟩, t)) :
    let w := Shape.widthOf f.fmt.toNat
    let act := activeList w (st.predBits f.m.toNat)
    execVsel f s = .next (t.setStrand u (({ (st.slowed k).setV f.d.toNat (ofElems w (choose act a.es es)) (a.tag.getD 0) with
      fcr := st.fcr ||| (if act.any id then fl else 0).zeroExtend 64 } : Strand).done f)) := by
  intro w act
  refine fixed_ends h ((vectorStart_then h bound _).trans ((Act.bind_ok readA).trans ((Act.ite_bind_ok readB).trans
    ((Act.bind_ok (actives_run i.issuer i.strand f w)).trans ((Act.bind_ok (writeV_run i.issuer i.strand ..)).trans
      ((editSelf_set_run i.issuer ..).trans ?_)))))) i.issuer (by exact i.outside)
  simp only [Strand.slowed_predBits, Strand.setV, Strand.slowed_fcr, w, act]

theorem vmov_run (readD : oldElems f (Shape.widthOf f.fmt.toNat) s1 = (.ok old, t)) : execVmov f s = .next (t.setStrand u
    (((st.slowed k).delivers f (Shape.widthOf f.fmt.toNat) (a.tag.getD 0) old (a.es.map fun x => (x, 0)) 0).done f)) := by
  unfold execVmov
  exact delivering_ends h bound i ((Act.bind_ok readA).trans (Act.bind_ok readD))

end

theorem vtag_run {bits : Vec} {tag : BitVec 4} (readA : operandV f.a f.ta s = (.ok (bits, tag), t)) :
    execVtag f s = .next (t.setStrand u (((st.slowed k).setV f.d.toNat bits f.fmt).done f)) :=
  fixed_ends h ((vectorStart_then h bound _).trans ((Act.bind_ok readA).trans (writeV_run i.issuer i.strand ..))) i.issuer
    (by exact i.outside)

theorem vfill_run {n : Nat} {fl : Flags} (readB : fillValue f s = (.ok (n, fl), s2))
    (readD : oldElems f (Shape.widthOf f.fmt.toNat) s2 = (.ok old, t)) : execVfill f s = .next (t.setStrand u
      (((st.slowed k).delivers f (Shape.widthOf f.fmt.toNat) f.fmt old
        (List.replicate (4096 / Shape.widthOf f.fmt.toNat) (n % 2 ^ Shape.widthOf f.fmt.toNat, 0)) fl).done f)) := by
  unfold execVfill
  exact delivering_ends h bound i ((Act.ite_bind_ok readB).trans (Act.bind_ok readD))

/-- The format check of 03 R66 in a floating-point instruction of two sources. -/
theorem vfp2_misfit (readA : vreg (Shape.widthOf f.fmt.toNat) f.a f.ta s = (.ok a, s1))
    (readB : srcBfp f f.fmt.toNat (envOf st.fcr f.rnd.toNat) s1 = (.ok b, s2))
    (readD : oldElems f (Shape.widthOf f.fmt.toNat) s2 = (.ok old, t)) (misfit : ¬ TagsFit [(a, f.fmt.toNat), (b, f.fmt.toNat)]) :
    ∃ x y, ∀ op n, (vfp2 f op n).outcome s =
      .next (({ t with free := t.free + 2 } : State).takeTrap u Cause.formatMismatch x st.pc y) := by
  obtain ⟨x, y, traps⟩ := misfit_traps h bound i misfit
  exact ⟨x, y, fun op n => traps _ _ ((Act.bind_ok (fpEnv_run h.issuer h.strand h.outside f)).trans ((Act.bind_ok readA).trans
    ((Act.bind_ok readB).trans (Act.bind_ok readD))))⟩

/-- The format check of 03 R66 in an integer instruction of two sources. -/
theorem vint2_misfit (readA : vreg (Shape.widthOf f.fmt.toNat) f.a f.ta s = (.ok a, s1))
    (readB : srcBint f (Shape.widthOf f.fmt.toNat) s1 = (.ok b, s2))
    (readD : oldElems f (Shape.widthOf f.fmt.toNat) s2 = (.ok old, t)) (misfit : ¬ TagsFit [(a, f.fmt.toNat), (b, f.fmt.toNat)]) :
    ∃ x y, ∀ op, (vint2 f op).outcome s =
      .next (({ t with free := t.free + 2 } : State).takeTrap u Cause.formatMismatch x st.pc y) := by
  obtain ⟨x, y, traps⟩ := misfit_traps h bound i misfit
  exact ⟨x, y, fun op => traps _ _ ((Act.bind_ok readA).trans ((Act.bind_ok readB).trans (Act.bind_ok readD)))⟩

end

/-- Settles O10: the moves end with what they write (`vsel_run` to `vfill_run`), a source that does not fit with its trap
(`vfp2_misfit`, `vint2_misfit`). -/
theorem vectorMoves : Obligations.VectorMoves := by
  refine ⟨fun s s1 s2 t u st f a b bits tag x n fl old h bound => ⟨fun readA => ⟨fun vector readB => ?_, fun scalar readB => ?_,
    fun readD => ?_⟩, fun readA => ?_, fun register readB readD => ?_, fun scalar readB readD => ?_⟩,
    fun s s1 s2 t u st f a b old h bound readA => ⟨fun readB readD misfit => ?_, fun readB readD misfit => ?_⟩⟩
  · -- VSEL of two vectors
    obtain ⟨k, i⟩ := (h.quiet_two (vreg_quiet ..) (vreg_quiet ..) readA readB).issues h
    refine ⟨k, i.strand, (vsel_run h bound i readA ((selectB_vector vector).symm ▸ readB)).trans ?_⟩
    rw [vreg_flags readB, ite_self, or_noFlags, ← Strand.slowed_fcr st k]
    rfl
  · -- VSEL of a vector and a scalar
    obtain ⟨k, i⟩ := (h.quiet_two (vreg_quiet ..) (scalarAny_quiet ..) readA readB).issues h
    exact ⟨k, i.strand, vsel_run h bound i readA (selectB_scalar scalar readB)⟩
  · -- VMOV
    obtain ⟨k, i⟩ := (h.quiet_two (vreg_quiet ..) (oldElems_quiet ..) readA readD).issues h
    exact ⟨k, i.strand, vmov_run h bound i readA readD⟩
  · -- VTAG
    obtain ⟨k, -, -, i⟩ := h.next (operandV_quiet ..) readA
    exact ⟨k, i.strand, vtag_run h bound i readA⟩
  · -- VFILL of an x register
    have filled := fillValue_register register readB
    obtain ⟨k, i⟩ := (h.quiet_two (fillValue_quiet f) (oldElems_quiet ..) filled readD).issues h
    exact ⟨k, i.strand, vfill_run h bound i filled readD⟩
  · -- VFILL of another scalar
    have filled : fillValue f s = _ := (fillValue_scalar scalar).symm ▸ readB
    obtain ⟨k, i⟩ := (h.quiet_two (fillValue_quiet f) (oldElems_quiet ..) filled readD).issues h
    exact ⟨k, i.strand, vfill_run h bound i filled readD⟩
  · -- VFADD of other formats
    obtain ⟨k, i⟩ := ((h.quiet_two (vreg_quiet ..) (srcBfp_quiet ..) readA readB).next h (oldElems_quiet ..) readD).issues h
    obtain ⟨x, y, traps⟩ := vfp2_misfit h bound i readA readB readD misfit
    exact ⟨x, y, k, i.strand, traps fpAdd 0⟩
  · -- VADD of other formats
    obtain ⟨k, i⟩ := ((h.quiet_two (vreg_quiet ..) (srcBint_quiet ..) readA readB).next h (oldElems_quiet ..) readD).issues h
    obtain ⟨x, y, traps⟩ := vint2_misfit h bound i readA readB readD misfit
    exact ⟨x, y, k, i.strand, traps fun _ _ x y => x + y⟩

end Sys2Proof.Machine
end

section
/-!
PERMUTES AND REDUCTIONS (O11).

A permute ends with D delivered element by element (`permute_run`), the other moves with the register that they write. A reduction and the scan
read their sources quietly and end with element 0, or every element, and the flags (`reduction_starts`, `reduction_alone`, `vscanadd_run`).
-/

namespace Sys2Proof.Machine

variable {s s1 s2 s3 s4 t : State} {u : Nat} {st : Strand} {f : Fields} {k : Bool} {a b c : VSrc} {n x : Word} {old : List Nat}

/-- The pattern of a shuffle: two bits for each element of a group of four (09 R202). -/
theorem bitsOf_pair (v j : Nat) : bitsOf v (2 * j + 1) (2 * j) = v / 4 ^ j % 4 := by
  rw [bitsOf, Nat.shiftRight_eq_div_pow, Nat.pow_mul, show 2 * j + 1 - 2 * j + 1 = 2 by omega]
  norm_num

section
variable (h : Issues s u st f) (bound : st.bound) (i : Issues t u (st.slowed k) f)
include h bound i

/-! ### Permutes (09 R202, R203) -/

/-- A permute delivers, of the sources that it reads, what `g` names for each element of D. -/
theorem permute_run {vecB scalar vecC : Bool} {el : (a b c : Array Nat) → (n : Nat) → (e : Nat) → Nat} {g : Nat → Nat}
    (readA : vreg (permWidth f) f.a f.ta s = (.ok a, s1))
    (readB : (if vecB then vreg (permWidth f) f.b f.tb else pure ⟨[], none, 0⟩) s1 = (.ok b, s2))
    (readN : (if scalar then operandB f else pure 0) s2 = (.ok n, s3))
    (readC : (if vecC then vreg (permWidth f) f.c 0 else pure ⟨[], none, 0⟩) s3 = (.ok c, s4))
    (readD : oldElems f (permWidth f) s4 = (.ok old, t))
    (element : ∀ e, el a.es.toArray b.es.toArray c.es.toArray n.toNat e = g e) :
    (permute f vecB scalar vecC el).outcome s = .next (t.setStrand u (((st.slowed k).delivers f (permWidth f) (a.tag.getD 0) old
      ((List.range (4096 / permWidth f)).map fun e => (g e, 0)) 0).done f)) := by
  refine (delivering_ends h bound i ((Act.bind_ok readA).trans ((Act.ite_bind_ok readB).trans ((Act.ite_bind_ok readN).trans
    ((Act.ite_bind_ok readC).trans (Act.bind_ok readD)))))).trans ?_
  simp only [element]

/-! ### Moves that write a register in full (09 R204, R205) -/

/-- An instruction whose sources lead to a write of D ends with it. -/
theorem writing_ends {rest : Act Unit} {bits : Vec} {tag : BitVec 4} (leads : rest s = writeV f.d.toNat bits tag t) :
    (fixed .execute f (do vectorStart f; rest)).outcome s =
      .next (t.setStrand u (((st.slowed k).setV f.d.toNat bits tag).done f)) :=
  fixed_ends h ((vectorStart_then h bound rest).trans (leads.trans (writeV_run i.issuer i.strand ..))) i.issuer (by exact i.outside)

section
variable (readA : vreg (permWidth f) f.a f.ta s = (.ok a, s1))
include readA

theorem vexp_run (readD : oldElems f (permWidth f) s1 = (.ok old, t)) :
    let act := activeList (permWidth f) (st.predBits f.m.toNat)
    execVexp f s = .next (t.setStrand u (((st.slowed k).setV f.d.toNat (ofElems (permWidth f) (choose act (unpacked act a.es) old))
      (a.tag.getD 0)).done f)) := by
  intro act
  refine writing_ends h bound i ((Act.bind_ok readA).trans ((Act.bind_ok readD).trans ?_))
  rw [Act.bind_ok (actives_run i.issuer i.strand f _), Strand.slowed_predBits]

theorem vcomp_run (last : s1 = t) :
    execVcomp f s = .next (t.setStrand u (((st.slowed k).setV f.d.toNat
      (ofElems (permWidth f) (packed (activeList (permWidth f) (st.predBits f.m.toNat)) a.es)) (a.tag.getD 0)).done f)) := by
  refine writing_ends h bound i ((Act.bind_ok readA).trans ?_)
  rw [last, Act.bind_ok (actives_run i.issuer i.strand f _), Strand.slowed_predBits]

theorem vext_run (readN : operandB f s1 = (.ok n, t)) : execVext f s =
    .next (t.setStrand u (((st.slowed k).gives f.d.toNat (BitVec.ofNat 64 (a.es.getD n.toNat 0))).done f)) :=
  fixed_ends h ((bindVec_then h bound _).trans ((Act.bind_ok readA).trans ((Act.bind_ok readN).trans
    (writeX_run i.issuer i.strand i.outside ..)))) i.issuer (by exact i.outside)

end

theorem vins_run {bits : Vec} {tag : BitVec 4} (readA : operandX false f.a f.ta s = (.ok x, s1)) (readN : operandB f s1 = (.ok n, s2))
    (readD : readV f.d.toNat s2 = (.ok (bits, tag), t)) : execVins f s = .next (t.setStrand u (((st.slowed k).setV f.d.toNat
      (ofElems (permWidth f) ((elems (permWidth f) bits).set n.toNat (x.toNat % 2 ^ permWidth f))) f.fmt).done f)) :=
  writing_ends h bound i ((Act.bind_ok readA).trans ((Act.bind_ok readN).trans (Act.bind_ok readD)))

end

/-! ### Reductions and the scan (09 R206, R207) -/

theorem checkTags_quiet (l : List (VSrc × Nat)) : QuietAct (checkTags l) := .ite (.pure _) (.ends (trapPlain_ends _))

theorem actives_quiet (f : Fields) (w : Nat) : QuietAct (actives f w) := QuietAct.self.bind fun _ => .pure _

theorem startValue_quiet (f : Fields) (code w : Nat) : QuietAct (startValue f code w) :=
  .ite (.ite (.pure _) ((vreg_quiet ..).bind fun _ => .pure _)) ((scalarAny_quiet ..).bind fun _ => .pure _)

section
variable {xs : List (Option Nat)} {start : Option Nat} {fl : Flags} (h : Issues s u st f)
  (read : reductionSources f s = (.ok (xs, start, fl), t))
include h read

theorem reductionSources_quiet (bound : st.bound) : Quiet s u st t := by
  rw [reductionSources, Act.bind_ok (vectorStart_bound h.issuer h.strand h.outside bound f)] at read
  exact ((vreg_quiet ..).bind fun _ => (startValue_quiet ..).bind fun _ => (checkTags_quiet _).bind fun _ =>
    (actives_quiet ..).bind fun _ => .pure _).quiet h.issuer h.strand h.outside read

variable (i : Issues t u (st.slowed k) f)
include i

/-- An instruction that its sources lead to a write of D, with flags. -/
theorem reducing_ends {body : FpEnv → List (Option Nat) × Option Nat × Flags → Act Unit} {bits : Vec} {g : Flags}
    (leads : body (envOf st.fcr f.rnd.toNat) (xs, start, fl) t = (do writeV f.d.toNat bits f.fmt; raiseFlags g : Act Unit) t) :
    (fixed .execute f (do let env ← fpEnv f; let src ← reductionSources f; body env src)).outcome s = .next (t.setStrand u
      (({ (st.slowed k).setV f.d.toNat bits f.fmt with fcr := st.fcr ||| g.zeroExtend 64 } : Strand).done f)) := by
  refine fixed_ends h ((Act.bind_ok (fpEnv_run h.issuer h.strand h.outside f)).trans ((Act.bind_ok read).trans (leads.trans
    ((Act.bind_ok (writeV_run i.issuer i.strand ..)).trans ((editSelf_set_run i.issuer ..).trans ?_))))) i.issuer (by exact i.outside)
  rw [← Strand.slowed_fcr st k]
  rfl

/-- A start value is combined with the tree's result last (09 R207). -/
theorem reduction_starts {v : Nat} (there : start = some v) (op : FpEnv → Combine) (absent : Nat) :
    let tree := reduceTree (op (envOf st.fcr f.rnd.toNat)) 10 xs
    let last := op (envOf st.fcr f.rnd.toNat) v (tree.1.getD absent)
    (reduction f op absent).outcome s = .next (t.setStrand u
      (({ (st.slowed k).setV f.d.toNat (ofElems (Shape.widthOf f.fmt.toNat) [last.1]) f.fmt with
        fcr := st.fcr ||| (fl ||| tree.2 ||| last.2).zeroExtend 64 } : Strand).done f)) := by
  subst there
  exact reducing_ends h read i rfl

theorem reduction_alone (missing : start = none) (op : FpEnv → Combine) (absent : Nat) :
    let tree := reduceTree (op (envOf st.fcr f.rnd.toNat)) 10 xs
    (reduction f op absent).outcome s = .next (t.setStrand u
      (({ (st.slowed k).setV f.d.toNat (ofElems (Shape.widthOf f.fmt.toNat) [tree.1.getD absent]) f.fmt with
        fcr := st.fcr ||| (fl ||| tree.2 ||| 0).zeroExtend 64 } : Strand).done f)) := by
  subst missing
  exact reducing_ends h read i rfl

theorem vscanadd_run :
    let run := scan (addAny f.fmt.toNat (envOf st.fcr f.rnd.toNat)) start xs
    execVscanadd f s = .next (t.setStrand u
      (({ (st.slowed k).setV f.d.toNat (ofElems (Shape.widthOf f.fmt.toNat) run.1) f.fmt with
        fcr := st.fcr ||| (fl ||| run.2).zeroExtend 64 } : Strand).done f)) :=
  reducing_ends h read i rfl

end

/-- Settles O11: permutes element by element (`permute_run`), the other moves by what they write (`vexp_run` to `vins_run`), reductions with and
without a start value (`reduction_starts`, `reduction_alone`), and the scan. -/
theorem permutesAndReductions : Obligations.PermutesAndReductions := by
  refine ⟨fun s s1 s2 s3 t u st f a b c n x old bits tag h bound => ⟨fun readA => ⟨fun readD => ?_, fun last => ?_,
    fun readB => ⟨fun readD => ?_, fun readC readD => ?_⟩, fun readN => ⟨fun readD => ?_, fun last => ?_, fun readC readD => ?_⟩⟩,
    fun readA readN readD => ?_⟩, fun s t u st f xs start fl h read bound => ?_⟩
  · -- VSHUF and VEXP
    obtain ⟨k, i⟩ := (h.quiet_two (vreg_quiet ..) (oldElems_quiet ..) readA readD).issues h
    exact ⟨k, i.strand, permute_run h bound i readA rfl rfl rfl readD fun e => by simp [bitsOf_pair], vexp_run h bound i readA readD⟩
  · -- VCOMP
    subst last
    obtain ⟨k, -, -, i⟩ := h.next (vreg_quiet ..) readA
    exact ⟨k, i.strand, vcomp_run h bound i readA rfl⟩
  · -- VZIP and VUZIP
    obtain ⟨k, i⟩ := ((h.quiet_two (vreg_quiet ..) (vreg_quiet ..) readA readB).next h (oldElems_quiet ..) readD).issues h
    exact ⟨k, i.strand, permute_run h bound i readA readB rfl rfl readD fun e => by simp,
      permute_run h bound i readA readB rfl rfl readD fun e => by simp⟩
  · -- VPERM
    obtain ⟨k, i⟩ := (((h.quiet_two (vreg_quiet ..) (vreg_quiet ..) readA readB).next h (vreg_quiet ..) readC).next h
      (oldElems_quiet ..) readD).issues h
    exact ⟨k, i.strand, permute_run h bound i readA readB rfl readC readD fun e => by simp⟩
  · -- VBCAST
    obtain ⟨k, i⟩ := ((h.quiet_two (vreg_quiet ..) (operandB_quiet f) readA readN).next h (oldElems_quiet ..) readD).issues h
    exact ⟨k, i.strand, permute_run h bound i readA rfl readN rfl readD fun e => by simp⟩
  · -- VEXT
    subst last
    obtain ⟨k, i⟩ := (h.quiet_two (vreg_quiet ..) (operandB_quiet f) readA readN).issues h
    exact ⟨k, i.strand, vext_run h bound i readA readN⟩
  · -- VSLIDEU and VSLIDED
    obtain ⟨k, i⟩ := (((h.quiet_two (vreg_quiet ..) (operandB_quiet f) readA readN).next h (vreg_quiet ..) readC).next h
      (oldElems_quiet ..) readD).issues h
    exact ⟨k, i.strand, permute_run h bound i readA rfl readN readC readD fun e => by simp,
      permute_run h bound i readA rfl readN readC readD fun e => by simp⟩
  · -- VINS
    obtain ⟨k, i⟩ := ((h.quiet_two (operandX_quiet ..) (operandB_quiet f) readA readN).next h (readV_quiet _) readD).issues h
    exact ⟨k, i.strand, vins_run h bound i readA readN readD⟩
  · -- the reductions and the scan
    obtain ⟨k, i⟩ := (reductionSources_quiet h read bound).issues h
    refine ⟨k, i.strand, ?_⟩
    cases start with
    | some v =>
      have ends := reduction_starts h read i rfl
      exact ⟨ends _ _, ends _ _, ends _ _, ends _ _, ends _ _, vscanadd_run h read i⟩
    | none =>
      have ends := reduction_alone h read i rfl
      exact ⟨ends _ _, ends _ _, ends _ _, ends _ _, ends _ _, vscanadd_run h read i⟩

end Sys2Proof.Machine
end

section
/-!
SUPPORT. The elements of a vector access: which are chosen, which pass their checks, and what is asked at their homes (09 R211, R212).
-/

namespace Sys2Proof.Machine

variable {α β : Type} {s r t : State} {u : Nat} {st : Strand} {c : Check} {n : Nat}

/-! ### Steps that answer -/

theorem Act.of_bind {a : Act α} {g : α → Act β} {v : β} (h : (a >>= g) s = (.ok v, t)) :
    ∃ x r, a s = (.ok x, r) ∧ g x r = (.ok v, t) := by
  rw [Act.bind_run] at h
  split at h
  · next read => exact ⟨_, _, read, h⟩
  · cases h

/-- What is read last is what the state left holds. -/
theorem Act.of_bind_readS {a : Act α} {g : State → β} {v : β} (h : (a >>= fun _ => readS g) s = (.ok v, t)) : v = g t := by
  obtain ⟨x, r, -, h⟩ := Act.of_bind h
  cases h
  rfl

theorem Act.ends_ne {a : Act α} {v : α} (h : ∀ s, ∃ e s', a s = (.error e, s')) : a s ≠ (.ok v, t) := by
  obtain ⟨e, s', stops⟩ := h s
  rw [stops]
  exact fun h => nomatch h

/-- A condition that stops the instruction does not hold where it goes on. -/
theorem Act.of_stop_ite {p : Prop} [Decidable p] {a b : Act α} {v : α} (stops : ∀ s, ∃ e s', a s = (.error e, s'))
    (h : (if p then a else b) s = (.ok v, t)) : ¬ p ∧ b s = (.ok v, t) := by
  by_cases holds : p
  · rw [if_pos holds] at h
    exact (Act.ends_ne stops h).elim
  · rw [if_neg holds] at h
    exact ⟨holds, h⟩

/-! ### The chosen elements -/

theorem chosen_idle {act : List Bool} {l : List α} {i : Nat} (idle : act.any id = false) : chosen act l i = [] := by
  induction act generalizing l i with
  | nil => rfl
  | cons b act ih =>
    simp only [List.any_cons, id_eq, Bool.or_eq_false_iff] at idle
    obtain ⟨rfl, idle⟩ := idle
    cases l with
    | nil => rfl
    | cons x l => exact ih idle

theorem any_of_parts {act : List Bool} {l : List α} {i : Nat} {p : Nat × α} {before rest : List (Nat × α)}
    (h : chosen act l i = before ++ p :: rest) : act.any id = true := by
  by_contra idle
  rw [chosen_idle (Bool.eq_false_iff.mpr idle)] at h
  exact List.append_ne_nil_of_right_ne_nil _ (List.cons_ne_nil _ _) h.symm

theorem any_of_chosen {act : List Bool} {l : List α} {i : Nat} {p : Nat × α} {rest : List (Nat × α)} (h : chosen act l i = p :: rest) :
    act.any id = true := any_of_parts (before := []) h

theorem le_of_mem_chosen {act : List Bool} {l : List α} {i : Nat} : ∀ j ∈ (chosen act l i).map (·.1), i ≤ j := by
  induction act, l, i using chosen.induct with
  | case1 i act x l ih =>
    intro j inside
    rcases List.mem_cons.mp inside with rfl | inside
    · exact le_rfl
    · exact Nat.le_of_succ_le (ih j inside)
  | case2 i act x l ih => exact fun j inside => Nat.le_of_succ_le (ih j inside)
  | case3 act l i active idle => simp [chosen]

/-- The positions of the chosen elements rise. -/
theorem chosen_rising {act : List Bool} {l : List α} {i : Nat} : ((chosen act l i).map (·.1)).Pairwise (· < ·) := by
  induction act, l, i using chosen.induct with
  | case1 i act x l ih => exact List.pairwise_cons.mpr ⟨le_of_mem_chosen, ih⟩
  | case2 i act x l ih => exact ih
  | case3 act l i active idle => simp [chosen]

/-- Of positions that rise, those below one of them are the ones before it. -/
theorem filter_below {l tail : List Nat} {i : Nat} (rising : (l ++ i :: tail).Pairwise (· < ·)) :
    (l ++ i :: tail).filter (· < i) = l := by
  obtain ⟨-, behind, before⟩ := List.pairwise_append.mp rising
  rw [List.filter_append, List.filter_eq_self.mpr fun j inside => by simpa using before j inside i (by simp),
    List.filter_eq_nil_iff.mpr, List.append_nil]
  intro j inside
  rcases List.mem_cons.mp inside with rfl | inside
  · simp
  · simpa using ((List.pairwise_cons.mp behind).1 j inside).le

/-! ### Checks (R211, steps 1 to 4) -/

theorem traffic_elemCheck (s : State) (st : Strand) (c : Check) (va : Word) (n : Nat) : Traffic s (s.elemCheck st c va n).2 := by
  have checked := traffic_accessProblem s st c va n
  unfold State.elemCheck
  split <;> rename_i e <;> rw [e] at checked
  · exact checked
  · split <;> exact checked

theorem elemCheck_misaligned {va : Word} (bad : va.toNat % c.align ≠ 0) :
    s.elemCheck st c va n = (.error (.inr Cause.alignment), s) := by
  rw [State.elemCheck, accessProblem_misaligned bad]

/-- An element that fails is the first to do so. -/
theorem checkElems_fails {p : Nat × Word} {l : List (Nat × Word)} {e : Problem ⊕ Nat} (fails : s.elemCheck st c p.2 n = (.error e, r)) :
    checkElems st c n (p :: l) s = (([], some (p.1, p.2, e)), r) := by
  simp only [checkElems, fails]

/-- An element that passes stands before what the others give. -/
theorem checkElems_passes {p : Nat × Word} {l : List (Nat × Word)} {x : Xlat} (passes : s.elemCheck st c p.2 n = (.ok x, r)) :
    let rest := checkElems st c n l r
    checkElems st c n (p :: l) s = ((⟨p.1, p.2, x⟩ :: rest.1.1, rest.1.2), rest.2) := by
  simp only [checkElems, passes]

theorem traffic_checkElems (st : Strand) (c : Check) (n : Nat) (l : List (Nat × Word)) (s : State) :
    Traffic s (checkElems st c n l s).2 := by
  induction l generalizing s with
  | nil => exact .refl s
  | cons p l ih =>
    have checked := traffic_elemCheck s st c p.2 n
    rcases one : s.elemCheck st c p.2 n with ⟨e | x, r⟩ <;> rw [one] at checked
    · rw [checkElems_fails one]
      exact checked
    · rw [checkElems_passes one]
      exact checked.trans (ih _)

/-- The elements that pass stand before the first that fails. -/
theorem checkElems_positions (st : Strand) (c : Check) (n : Nat) (l : List (Nat × Word)) (s : State) :
    let done := (checkElems st c n l s).1
    (done.2 = none → l.map (·.1) = done.1.map (·.ix)) ∧
      ∀ b, done.2 = some b → ∃ tail, l.map (·.1) = done.1.map (·.ix) ++ b.1 :: tail := by
  induction l generalizing s with
  | nil => exact ⟨fun _ => rfl, fun b failed => nomatch failed⟩
  | cons p l ih =>
    rcases one : s.elemCheck st c p.2 n with ⟨e | x, r⟩
    · rw [checkElems_fails one]
      refine ⟨fun clean => (nomatch clean), fun b failed => ?_⟩
      cases failed
      exact ⟨l.map (·.1), rfl⟩
    · rw [checkElems_passes one]
      obtain ⟨all, before⟩ := ih r
      refine ⟨fun clean => congrArg (p.1 :: ·) (all clean), fun b failed => ?_⟩
      obtain ⟨tail, same⟩ := before b failed
      exact ⟨tail, congrArg (p.1 :: ·) same⟩

/-- Behind elements that pass, one that fails ends the checks. -/
theorem checkElems_stops {before rest : List (Nat × Word)} {j : Nat} {va : Word} {es : List Elem} {e : Problem ⊕ Nat}
    (passed : checkElems st c n before s = ((es, none), r)) (fails : r.elemCheck st c va n = (.error e, t)) :
    checkElems st c n (before ++ (j, va) :: rest) s = ((es, some (j, va, e)), t) := by
  induction before generalizing s es with
  | nil =>
    cases passed
    exact checkElems_fails fails
  | cons p l ih =>
    rcases one : s.elemCheck st c p.2 n with ⟨e | x, q⟩
    · rw [checkElems_fails one] at passed
      cases passed
    · rw [checkElems_passes one] at passed
      simp only [Prod.mk.injEq] at passed
      obtain ⟨⟨rfl, clean⟩, last⟩ := passed
      have others := ih (es := (checkElems st c n l q).1.1) (s := q) (by rw [← clean, ← last])
      rw [List.cons_append, checkElems_passes one, others]

/-! ### Requests at the homes -/

theorem CalmAct.stateS {g : State → α × State} (h : ∀ s, Calm s (g s).2) : CalmAct (stateS g) :=
  ⟨by intro s v t e; cases e; exact h s⟩

theorem heedHome_calm (l : List Ask) (w : Bool) : CalmAct (heedHome l w) := by
  unfold heedHome
  refine CalmAct.self.bind fun st => (CalmAct.stateS fun s => calm_askHome ..).bind fun a => ?_
  cases a with
  | none => exact .pure _
  | some a => exact .ends (park_ends _)

theorem heedAccess_calm (c : Check) (vas : List Word) (l : List Ask) : CalmAct (heedAccess c vas l) := by
  unfold heedAccess
  refine CalmAct.self.bind fun st => (CalmAct.readS _).bind fun d => (CalmAct.stateS fun s => calm_askEach ..).bind fun a => ?_
  cases a with
  | none => exact .pure _
  | some a => exact .ends (park_ends _)

theorem hearElems_calm (c : Check) (es : List Elem) : CalmAct (hearElems c es) :=
  CalmAct.self.bind fun _ => (CalmAct.readS _).bind fun _ => heedAccess_calm ..

theorem raiseElem_ends (va : Word) (e : Problem ⊕ Nat) (s : State) : ∃ x s', (raiseElem va e : Act α) s = (.error x, s') := by
  cases e with
  | inl p => exact raise_ends p s
  | inr cause => exact trapWord_ends cause va s

theorem raiseRead_ends (cause : Nat) (x : Option Nat) (a : Word) (s : State) :
    ∃ e s', (raiseRead cause x a : Act α) s = (.error e, s') := by
  cases x with
  | none => exact trapWord_ends cause a s
  | some x => exact trapAt_ends cause x a s

/-- How an access goes to its place is the same wherever the memory system has worked. -/
theorem Traffic.pathOf (h : Traffic s t) (x : Xlat) : t.pathOf x = s.pathOf x := by simp only [State.pathOf, h.tierCap]

/-! ### Addresses (R208) -/

theorem unitAddrs_quiet (f : Fields) (w : Nat) : QuietAct (unitAddrs f w) := (operandX_quiet ..).bind fun _ => .pure _

theorem strideAddrs_quiet (f : Fields) (w : Nat) : QuietAct (strideAddrs f w) :=
  (operandX_quiet ..).bind fun _ => (operandB_quiet f).bind fun _ => .pure _

/-- Outside a region the addresses of an index vector are read without a vector context of their own. -/
theorem indexAddrs_out {f : Fields} (hc : s.cur = some u) (hs : s.strand? u = some st) (out : st.region = none) (w : Nat) :
    indexAddrs f w s = (do
      let a ← operandX false f.a f.ta
      let b ← vreg w f.b 0
      pure ⟨b.es.map fun i => a + imm20Offset f + (BitVec.ofInt 64 (toSigned w i) <<< (f.e.toNat % 4)), true,
        b.tag == some (tagOf (if w = 32 then 9 else 8))⟩ : Act Addrs) s := Act.bind_ok (inAccess_run hc hs out)

theorem indexAddrs_quiet (f : Fields) (w : Nat) : QuietAct (indexAddrs f w) where
  quiet hc hs out h :=
    ((operandX_quiet ..).bind fun _ => (vreg_quiet ..).bind fun _ => .pure _).quiet hc hs out ((indexAddrs_out hc hs out w).symm.trans h)

theorem heedTag_fine {as : Addrs} (tagged : as.tagged = true) : as.heedTag s = (.ok (), s) := by
  rw [Addrs.heedTag, need, if_pos tagged]
  rfl

theorem heedAligned_fine {as : Addrs} {act : List Bool} (fine : as.aligned = true ∨ act.any id = false) :
    as.heedAligned act s = (.ok (), s) := by
  rw [Addrs.heedAligned]
  rcases fine with aligned | idle
  · cases (chosen act as.vas 0).head? with
    | none => rfl
    | some p => simp only [need, if_pos aligned, Act.pure_run]
  · rw [chosen_idle idle]; rfl

section
variable {f : Fields} {k : Bool} (i : Issues s u (st.slowed k) f) {as : Addrs}
include i

theorem heedTag_traps (bad : as.tagged = false) : ∃ x y, as.heedTag s =
    (.error .done, ({ s with free := s.free + 2 } : State).takeTrap u Cause.formatMismatch x st.pc y) := by
  obtain ⟨x, y, trap⟩ := trapPlain_run (α := Unit) i.issuer i.strand i.outside Cause.formatMismatch
  rw [Strand.slowed_pc] at trap
  exact ⟨x, y, by rw [Addrs.heedTag, need, if_neg (by simp [bad])]; exact trap⟩

theorem trapWord_slowed {α : Type} (cause : Nat) (a : Word) : ∃ x, (trapWord cause a : Act α) s =
    (.error .done, ({ s with free := s.free + 1 } : State).takeTrap u cause x st.pc a) :=
  ⟨_, by rw [← Strand.slowed_pc st k]; exact trapWord_run i.issuer i.strand i.outside cause a⟩

/-- A base or a stride that keeps no alignment traps at the lowest active element (R210). -/
theorem heedAligned_traps {act : List Bool} {j : Nat} {va : Word} {rest : List (Nat × Word)} (bad : as.aligned = false)
    (first : chosen act as.vas 0 = (j, va) :: rest) : ∃ x, as.heedAligned act s =
      (.error .done, ({ s with free := s.free + 1 } : State).takeTrap u Cause.alignment x st.pc va) := by
  obtain ⟨x, trap⟩ := trapWord_slowed i (α := Unit) Cause.alignment va
  refine ⟨x, ?_⟩
  rw [Addrs.heedAligned, first]
  simp only [List.head?_cons, need, bad]
  exact trap

/-- The first element whose own address keeps no alignment (R210). -/
theorem checkElems_misaligned {before rest : List (Nat × Word)} {j : Nat} {va : Word} {es : List Elem}
    (passed : checkElems (st.slowed k) c n before s = ((es, none), r)) (bad : va.toNat % c.align ≠ 0) :
    checkElems (st.slowed k) c n (before ++ (j, va) :: rest) s = ((es, some (j, va, .inr Cause.alignment)), r) ∧
    Issues r u (st.slowed k) f := by
  have traffic := traffic_checkElems (st.slowed k) c n before s
  rw [passed] at traffic
  exact ⟨checkElems_stops passed (elemCheck_misaligned bad),
    ⟨traffic.cur.trans i.issuer, (traffic.strand u).trans i.strand, i.outside, i.guard⟩⟩

end

end Sys2Proof.Machine
end

section
/-!
VECTOR LOADS (O19).

A load checks its elements, hears their homes and takes those that it reaches (`gatherElems_ok`, `Takes`); what it takes is what the bytes of
memory, or of the SWMANAGED copies, hold when it is over (`loadElems_home`, `loadElems_managed`). Its own steps lead to `loadTail`, which ends
in one of the ways of the statement.
-/

namespace Sys2Proof.Machine

variable {s s1 s2 r t : State} {u core : Nat} {st : Strand} {f : Fields} {n : Nat} {x : Xlat} {va : Word}

/-! ### SWMANAGED copies (05 R139) -/

/-- A copy that is fetched shows what its home showed. -/
theorem swmBytes_swmFill (s : State) (core l m : Nat) : (s.swmFill core l).swmBytes core m = s.swmBytes core m := by
  unfold State.swmFill
  split
  · rfl
  · next missing =>
    by_cases same : l = m
    · subst same
      rw [State.swmBytes, State.l1_setL1, Option.bind_some]
    · have other {y : L1Line} : (s.setL1 core l y).l1 core m = s.l1 core m := by
        simp only [State.l1, State.setL1, core_editCore_same, Sparse.get_put_other _ _ same]
      simp only [State.swmBytes, other]
      rfl

theorem swmRead_of_swmBytes {pa : Nat} (same : ∀ l, t.swmBytes core l = s.swmBytes core l) : t.swmRead core pa n = s.swmRead core pa n := by
  rw [State.swmRead, same, State.swmRead]

/-! ### The bytes of one element -/

theorem heedWord_ok {w : Option Nat} {pa : Nat} (h : heedWord w pa va s = (.ok (), t)) : t = s := by
  cases w with
  | none => cases h; rfl
  | some w => exact (Act.ends_ne (trapWord_ends _ _) h).elim

section
variable (hc : s.cur = some u) (hs : s.strand? u = some st) {bs : List (BitVec 8)} (h : loadBytes x va n s = (.ok bs, t))
include hc hs h

theorem loadBytes_home (path : s.pathOf x ≠ .managed) : bs = Memory.getBytes t.mem x.pa n := by
  rw [loadBytes, Act.bind_ok (me_run hc), Act.bind_ok (self_run hc hs), Act.bind_ok (readS_run ..)] at h
  cases way : s.pathOf x with
  | home =>
    simp only [way] at h
    exact Act.of_bind_readS h
  | managed => exact (path way).elim
  | coherent =>
    simp only [way, Act.bind_ok (readS_run _ s)] at h
    obtain ⟨-, h⟩ := Act.of_stop_ite (Act.ends_first (trapWord_ends _ _)) h
    obtain ⟨_, r, -, h⟩ := Act.of_bind h
    exact Act.of_bind_readS h

theorem loadBytes_managed (path : s.pathOf x = .managed) :
    t = s.swmFill st.core (lineOf x.pa) ∧ bs = t.swmRead st.core x.pa n := by
  rw [loadBytes, Act.bind_ok (me_run hc), Act.bind_ok (self_run hc hs), Act.bind_ok (readS_run ..)] at h
  simp only [path, Act.bind_ok (readS_run _ s)] at h
  obtain ⟨-, h⟩ := Act.of_stop_ite (Act.ends_first (trapAt_ends _ _ _)) h
  rw [Act.bind_ok (readS_run ..)] at h
  obtain ⟨_, r, fine, last⟩ := Act.of_bind h
  obtain rfl := heedWord_ok fine
  cases last
  exact ⟨rfl, rfl⟩

end

/-! ### The bytes of the elements -/

theorem loadElems_cons (n : Nat) (e : Elem) (es : List Elem) : loadElems n (e :: es) = (do
    let bs ← loadBytes e.x e.va n
    let rest ← loadElems n es
    pure ((e.ix, Memory.ofBytes bs) :: rest) : Act (List (Nat × Nat))) := rfl

theorem loadElems_calm (n : Nat) (es : List Elem) : CalmAct (loadElems n es) := by
  induction es with
  | nil => exact .pure _
  | cons e es ih => exact (loadBytes_calm ..).bind fun _ => ih.bind fun _ => .pure _

/-- The first element is loaded, and then the others. -/
theorem loadElems_ok {e : Elem} {es : List Elem} {vs : List (Nat × Nat)} (h : loadElems n (e :: es) s = (.ok vs, t)) :
    ∃ bs r rest, loadBytes e.x e.va n s = (.ok bs, r) ∧ loadElems n es r = (.ok rest, t) ∧ vs = (e.ix, Memory.ofBytes bs) :: rest := by
  obtain ⟨bs, r, first, h⟩ := Act.of_bind h
  obtain ⟨rest, r', others, h⟩ := Act.of_bind h
  cases h
  exact ⟨bs, r, rest, first, others, rfl⟩

theorem loadElems_positions {es : List Elem} {vs : List (Nat × Nat)} (h : loadElems n es s = (.ok vs, t)) :
    vs.map (·.1) = es.map (·.ix) := by
  induction es generalizing s vs with
  | nil => cases h; rfl
  | cons e es ih =>
    obtain ⟨bs, r, rest, -, others, rfl⟩ := loadElems_ok h
    exact congrArg (e.ix :: ·) (ih others)

section
variable (hc : s.cur = some u) (hs : s.strand? u = some st) {es : List Elem} {vs : List (Nat × Nat)}
  (h : loadElems n es s = (.ok vs, t))
include hc hs h

/-- Elements that are not SWMANAGED are loaded from memory. -/
theorem loadElems_home (path : ∀ e ∈ es, s.pathOf e.x ≠ .managed) :
    vs = es.map fun e => (e.ix, Memory.ofBytes (Memory.getBytes t.mem e.x.pa n)) := by
  induction es generalizing s vs with
  | nil => cases h; rfl
  | cons e es ih =>
    obtain ⟨bs, r, rest, first, others, rfl⟩ := loadElems_ok h
    have work := ((loadBytes_calm ..).calm first).toTraffic
    have still := ((loadElems_calm n es).calm others).still
    obtain rfl := ih (work.cur.trans hc) ((work.strand u).trans hs) others
      fun d inside => by rw [work.pathOf]; exact path d (List.mem_cons_of_mem _ inside)
    rw [List.map_cons, still, loadBytes_home hc hs first (path e List.mem_cons_self)]

/-- SWMANAGED elements are loaded from their copies, which show at the end what they showed before. -/
theorem loadElems_managed (path : ∀ e ∈ es, s.pathOf e.x = .managed) : (∀ l, t.swmBytes st.core l = s.swmBytes st.core l) ∧
    vs = es.map fun e => (e.ix, Memory.ofBytes (t.swmRead st.core e.x.pa n)) := by
  induction es generalizing s vs with
  | nil => cases h; exact ⟨fun _ => rfl, rfl⟩
  | cons e es ih =>
    obtain ⟨bs, r, rest, first, others, rfl⟩ := loadElems_ok h
    have work := ((loadBytes_calm ..).calm first).toTraffic
    obtain ⟨rfl, rfl⟩ := loadBytes_managed hc hs first (path e List.mem_cons_self)
    obtain ⟨same, rfl⟩ := ih (work.cur.trans hc) ((work.strand u).trans hs) others
      fun d inside => (work.pathOf d.x).trans (path d (List.mem_cons_of_mem _ inside))
    exact ⟨fun l => (same l).trans (swmBytes_swmFill ..), by rw [List.map_cons, swmRead_of_swmBytes same]⟩

end

/-! ### Which elements a load takes (R211, R213) -/

/-- The elements before the first whose read meets a problem. -/
theorem reached_before (s : State) (u : Nat) (st : Strand) (n : Nat) (es : List Elem) :
    let first := es.find? fun e => (s.readProblem u st e n).isSome
    (first = none → s.reached u st n es = (es, none)) ∧
      ∀ e, first = some e → ∃ l tail p, es = l ++ e :: tail ∧ s.reached u st n es = (l, some (e.ix, p)) := by
  induction es with
  | nil => exact ⟨fun _ => rfl, fun e found => nomatch found⟩
  | cons d es ih =>
    obtain ⟨whole, part⟩ := ih
    cases problem : s.readProblem u st d n with
    | some p =>
      rw [List.find?_cons_of_pos (by simp [problem])]
      refine ⟨fun clean => (nomatch clean), fun e found => ?_⟩
      cases found
      exact ⟨[], es, p, rfl, by rw [State.reached, problem]⟩
    | none =>
      rw [List.find?_cons_of_neg (by simp [problem])]
      refine ⟨fun clean => by simp only [State.reached, problem, whole clean], fun e found => ?_⟩
      obtain ⟨l, tail, p, rfl, run⟩ := part e found
      exact ⟨d :: l, tail, p, rfl, by simp only [State.reached, problem, run]⟩

/-- Of the elements `es` that pass their checks, before `bad` where one fails, a load takes `l`, those before the first at which `stop` holds;
only a fault-only-first load that takes one may leave others out, from `limit` on. -/
structure Takes (ff : Bool) (es : List Elem) (bad : Option (Nat × Word × (Problem ⊕ Nat))) (stop : Elem → Bool) (l : List Elem)
    (limit : Option Nat) : Prop where
  whole : es.find? stop = none → l = es ∧ limit = bad.map (·.1)
  part {e : Elem} : es.find? stop = some e → (∃ tail, es = l ++ e :: tail) ∧ limit = some e.ix
  limited : limit ≠ none → ff = true ∧ l ≠ []

section
variable {ff : Bool} {es l : List Elem} {bad : Option (Nat × Word × (Problem ⊕ Nat))} {stop : Elem → Bool} {limit : Option Nat}

theorem Takes.initial (h : Takes ff es bad stop l limit) : l <+: es := by
  cases found : es.find? stop with
  | none => exact (h.whole found).1 ▸ List.prefix_rfl
  | some e =>
    obtain ⟨⟨tail, rfl⟩, -⟩ := h.part found
    exact List.prefix_append ..

/-- What is taken stands before the limit. -/
theorem Takes.positions (h : Takes ff es bad stop l limit) {taken : List Nat} (all : bad = none → taken = es.map (·.ix))
    (before : ∀ b, bad = some b → ∃ tail, taken = es.map (·.ix) ++ b.1 :: tail) :
    (limit = none → l.map (·.ix) = taken) ∧ ∀ i, limit = some i → ∃ tail, taken = l.map (·.ix) ++ i :: tail := by
  cases found : es.find? stop with
  | none =>
    obtain ⟨rfl, rfl⟩ := h.whole found
    cases bad with
    | none => exact ⟨fun _ => (all rfl).symm, fun i failed => nomatch failed⟩
    | some b =>
      refine ⟨fun clean => (nomatch clean), fun i failed => ?_⟩
      cases failed
      exact before b rfl
  | some e =>
    obtain ⟨⟨tail, rfl⟩, rfl⟩ := h.part found
    refine ⟨fun clean => (nomatch clean), fun i failed => ?_⟩
    cases failed
    cases bad with
    | none => exact ⟨tail.map (·.ix), (all rfl).trans (by simp)⟩
    | some b =>
      obtain ⟨more, same⟩ := before b rfl
      exact ⟨tail.map (·.ix) ++ b.1 :: more, same.trans (by simp)⟩

end

theorem take_ok {ff : Bool} {es : List Elem} {bad : Option (Nat × Word × (Problem ⊕ Nat))} {vs : List (Nat × Nat)} {limit : Option Nat}
    (clean : bad ≠ none → ff = true ∧ es ≠ [])
    (h : gatherElems.take ff u st n es (bad.map (·.1)) r = (.ok (vs, limit), t)) : ∃ r2 l, hearElems (Check.load n) es r = (.ok (), r2) ∧
      loadElems n l r2 = (.ok vs, t) ∧ Takes ff es bad (fun e => (r2.readProblem u st e n).isSome) l limit := by
  obtain ⟨_, r2, heard, h⟩ := Act.of_bind h
  rw [Act.bind_ok (readS_run ..)] at h
  obtain ⟨whole, part⟩ := reached_before r2 u st n es
  cases found : es.find? fun e => (r2.readProblem u st e n).isSome with
  | none =>
    simp only [whole found] at h
    obtain ⟨vs', r3, loaded, h⟩ := Act.of_bind h
    cases h
    refine ⟨r2, es, heard, loaded, fun _ => ⟨rfl, rfl⟩, fun other => (nomatch found.symm.trans other), fun limited => clean ?_⟩
    rintro rfl
    exact limited rfl
  | some e =>
    obtain ⟨l, tail, p, same, run⟩ := part e found
    simp only [run] at h
    obtain ⟨fine, h⟩ := Act.of_stop_ite (raiseRead_ends _ _ _) h
    obtain ⟨vs', r3, loaded, h⟩ := Act.of_bind h
    cases h
    refine ⟨r2, l, heard, loaded, fun other => (nomatch found.symm.trans other), fun other => ?_, fun _ => by simpa using fine⟩
    cases Option.some.inj (found.symm.trans other)
    exact ⟨⟨tail, same⟩, rfl⟩

/-- A load that answers: its checks, its requests and what it takes. -/
theorem gatherElems_ok {w : Nat} {ff : Bool} {act : List Bool} {vas : List Word} {vs : List (Nat × Nat)} {limit : Option Nat}
    (hc : s.cur = some u) (hs : s.strand? u = some st) (h : gatherElems w ff act vas s = (.ok (vs, limit), t)) :
    ∃ es bad r r2 l, checkElems st (Check.load (w / 8)) (w / 8) (chosen act vas 0) s = ((es, bad), r) ∧
      hearElems (Check.load (w / 8)) es r = (.ok (), r2) ∧ loadElems (w / 8) l r2 = (.ok vs, t) ∧
      Takes ff es bad (fun e => (r2.readProblem u st e (w / 8)).isSome) l limit := by
  rw [gatherElems, Act.bind_ok (me_run hc), Act.bind_ok (self_run hc hs), Act.bind_ok (stateS_run ..)] at h
  rcases checked : checkElems st (Check.load (w / 8)) (w / 8) (chosen act vas 0) s with ⟨⟨es, bad⟩, r⟩
  rw [checked] at h
  refine ⟨es, bad, r, ?_⟩
  simp only [true_and]
  cases bad with
  | none => exact take_ok (fun bad => (bad rfl).elim) h
  | some b =>
    obtain ⟨i, va, e⟩ := b
    obtain ⟨fine, h⟩ := Act.of_stop_ite (raiseElem_ends _ _) h
    refine take_ok (fun _ => ?_) h
    simp only [Bool.or_eq_true, not_or, Bool.not_eq_true'] at fine
    simpa using fine.1

/-! ### What a load that answers has done -/

section
variable {w : Nat} {ff : Bool} {act : List Bool} {vas : List Word} {vs : List (Nat × Nat)} {limit : Option Nat}
  (hc : s.cur = some u) (hs : s.strand? u = some st) (h : gatherElems w ff act vas s = (.ok (vs, limit), t))
include hc hs h

theorem gatherElems_traffic : Traffic s t := by
  obtain ⟨es, bad, r, r2, l, checked, heard, loaded, -⟩ := gatherElems_ok hc hs h
  have passed := traffic_checkElems st (Check.load (w / 8)) (w / 8) (chosen act vas 0) s
  rw [checked] at passed
  exact (passed.trans ((hearElems_calm ..).calm heard).toTraffic).trans ((loadElems_calm ..).calm loaded).toTraffic

/-- Without a limit every active element is loaded; a limit is an active element, and those before it are loaded. -/
theorem gatherElems_positions : let taken := (chosen act vas 0).map (·.1)
    (limit = none → vs.map (·.1) = taken) ∧ (ff = false → limit = none) ∧
    ∀ i, limit = some i → vs ≠ [] ∧ i ∈ taken ∧ vs.map (·.1) = taken.filter (· < i) := by
  intro taken
  obtain ⟨es, bad, r, r2, l, checked, -, loaded, takes⟩ := gatherElems_ok hc hs h
  obtain ⟨all, before⟩ := checkElems_positions st (Check.load (w / 8)) (w / 8) (chosen act vas 0) s
  rw [checked] at all before
  obtain ⟨whole, part⟩ := takes.positions all before
  have same := loadElems_positions loaded
  refine ⟨fun clean => same.trans (whole clean), fun plain => ?_, fun i stops => ?_⟩
  · by_contra limited
    exact absurd ((takes.limited limited).1.symm.trans plain) (by decide)
  · obtain ⟨tail, split⟩ := part i stops
    have rising : taken.Pairwise (· < ·) := chosen_rising
    rw [show taken = _ from split] at rising ⊢
    refine ⟨fun empty => ?_, by simp, same.trans (filter_below rising).symm⟩
    have nothing : l.map (·.ix) = [] := by rw [← same, empty, List.map_nil]
    exact (takes.limited (stops ▸ Option.some_ne_none i)).2 (List.map_eq_nil_iff.mp nothing)

section
variable {es : List Elem} {bad : Option (Nat × Word × (Problem ⊕ Nat))}
  (checked : checkElems st (Check.load (w / 8)) (w / 8) (chosen act vas 0) s = ((es, bad), r))
include checked

/-- What is loaded, of the elements that pass their checks: the first ones, as many as are taken. -/
theorem gatherElems_values :
    ((∀ e ∈ es, t.pathOf e.x ≠ .managed) →
      vs = (es.take vs.length).map fun e => (e.ix, Memory.ofBytes (Memory.getBytes t.mem e.x.pa (w / 8)))) ∧
    ((∀ e ∈ es, t.pathOf e.x = .managed) →
      vs = (es.take vs.length).map fun e => (e.ix, Memory.ofBytes (t.swmRead st.core e.x.pa (w / 8)))) := by
  have work := gatherElems_traffic hc hs h
  obtain ⟨es', bad', r', r2, l, checked', heard, loaded, takes⟩ := gatherElems_ok hc hs h
  obtain ⟨⟨rfl, rfl⟩, rfl⟩ : (es = es' ∧ bad = bad') ∧ r = r' := by simpa using checked.symm.trans checked'
  have after := ((loadElems_calm ..).calm loaded).toTraffic
  have count : vs.length = l.length := by simpa using congrArg List.length (loadElems_positions loaded)
  have hc2 : r2.cur = some u := after.cur.symm.trans (work.cur.trans hc)
  have hs2 : r2.strand? u = some st := (after.strand u).symm.trans ((work.strand u).trans hs)
  obtain ⟨tail, rfl⟩ := takes.initial
  rw [count, List.take_left]
  refine ⟨fun path => ?_, fun path => ?_⟩
  · exact loadElems_home hc2 hs2 loaded fun e inside => after.pathOf e.x ▸ path e (List.mem_append_left _ inside)
  · exact (loadElems_managed hc2 hs2 loaded fun e inside => after.pathOf e.x ▸ path e (List.mem_append_left _ inside)).2

/-- The limit is the first element whose read meets a problem, or else the first that fails its checks (R213). -/
theorem gatherElems_limit {r2 : State} (heard : hearElems (Check.load (w / 8)) es r = (.ok (), r2)) :
    let first := es.find? fun e => (r2.readProblem u st e (w / 8)).isSome
    (first = none → limit = bad.map (·.1)) ∧ ∀ e, first = some e → limit = some e.ix := by
  obtain ⟨es', bad', r', r2', l, checked', heard', -, takes⟩ := gatherElems_ok hc hs h
  obtain ⟨⟨rfl, rfl⟩, rfl⟩ : (es = es' ∧ bad = bad') ∧ r = r' := by simpa using checked.symm.trans checked'
  obtain rfl : r2 = r2' := congrArg Prod.snd (heard.symm.trans heard')
  exact ⟨fun clean => (takes.whole clean).2, fun e found => (takes.part found).2⟩

end

end

/-! ### The course of a load outside a region -/

/-- The steps of a load behind its addresses and D. -/
def loadTail (f : Fields) (ff : Bool) (w : Nat) (as : Addrs) (old : List Nat) : Act Unit := do
  as.heedTag
  let act ← actives f w
  if !act.any id then
    writeV f.d.toNat (ofElems w old) f.fmt
    finish f
  else
    as.heedAligned act
    let (vs, limit) ← gatherElems w ff act as.vas
    writeV f.d.toNat (ofElems w (overlay old 0 vs)) f.fmt
    match limit with
    | some i => editSelf fun st => st.setPred f.m.toNat (st.predBits f.m.toNat &&& BitVec.ofNat 512 (2 ^ (i * (w / 8)) - 1))
    | none => pure ()
    finishReply f

theorem vectorLoad_leads {kl : Klass} {ff : Bool} {addrs : Nat → Act Addrs} {as : Addrs} {old : List Nat} (h : Issues s u st f)
    (bound : st.bound) (readA : addrs (Shape.widthOf f.fmt.toNat) s = (.ok as, s1))
    (readD : oldElems f (Shape.widthOf f.fmt.toNat) s1 = (.ok old, s2)) :
    (vectorLoad kl f ff addrs).outcome s = (loadTail f ff (Shape.widthOf f.fmt.toNat) as old).outcome s2 := by
  refine Act.outcome_congr ((issue_run h ..).trans ?_)
  rw [Act.bind_ok (inAccess_run h.issuer h.strand h.outside), Act.bind_ok (self_run h.issuer h.strand), if_neg Bool.false_ne_true,
    Act.bind_ok (bindVec_bound h.issuer h.strand bound), Act.bind_ok readA, Act.bind_ok readD]
  rfl

/-- A strand that has been changed goes on behind the instruction and waits for its reply. -/
theorem finishReply_set_run (hc : t.cur = some u) (out : st.region = none) (f : Fields) :
    finishReply f (t.setStrand u st) = (.error .done, (t.setStrand u (st.done f)).replies u) := by
  have issues : (t.setStrand u st).issuing u = (some u, some true) := State.issuing_iff.mpr ⟨hc, st, State.strand_set .., out⟩
  rw [finishReply_issuing issues, State.behind, State.edit_set]

/-- A strand that quiet steps leave issues its instruction. -/
theorem Issues.after {k : Bool} (h : Issues s u st f) (traffic : Traffic (s.slowed u st k) t) : Issues t u (st.slowed k) f :=
  h.quiet ⟨k, traffic⟩ ((traffic.strand u).trans (State.slowed_strand h.strand k))

section
variable {k ff : Bool} {w : Nat} {as : Addrs} {old : List Nat} (i : Issues s u (st.slowed k) f)
include i

theorem loadTail_untagged (bad : as.tagged = false) : ∃ x y, (loadTail f ff w as old).outcome s =
    .next (({ s with free := s.free + 2 } : State).takeTrap u Cause.formatMismatch x st.pc y) := by
  obtain ⟨x, y, trap⟩ := heedTag_traps i bad
  exact ⟨x, y, Act.outcome_done (Act.bind_error trap)⟩

section
variable (tagged : as.tagged = true)
include tagged

theorem loadTail_idle (idle : (activeList w (st.predBits f.m.toNat)).any id = false) : (loadTail f ff w as old).outcome s =
    .next (s.setStrand u (((st.slowed k).setV f.d.toNat (ofElems w old) f.fmt).done f)) := by
  refine Act.outcome_ok ?_
  rw [loadTail, Act.bind_ok (heedTag_fine tagged), Act.bind_ok (actives_run i.issuer i.strand f w), Strand.slowed_predBits, idle,
    if_pos (by decide), Act.bind_ok (writeV_run i.issuer i.strand ..)]
  exact finish_set_run i.issuer (by exact i.outside) f

section
variable {act : List Bool} (active : activeList w (st.predBits f.m.toNat) = act)
include active

theorem loadTail_unaligned {j : Nat} {va : Word} {rest : List (Nat × Word)} (bad : as.aligned = false)
    (first : chosen act as.vas 0 = (j, va) :: rest) : ∃ x, (loadTail f ff w as old).outcome s =
      .next (({ s with free := s.free + 1 } : State).takeTrap u Cause.alignment x st.pc va) := by
  obtain ⟨x, trap⟩ := heedAligned_traps i bad first
  refine ⟨x, Act.outcome_done ?_⟩
  rw [loadTail, Act.bind_ok (heedTag_fine tagged), Act.bind_ok (actives_run i.issuer i.strand f w), Strand.slowed_predBits, active,
    any_of_chosen first, if_neg (by decide), Act.bind_error trap]

variable (aligned : as.aligned = true) (any : act.any id = true)
include aligned any

/-- A load with an active element gathers, and ends as that does. -/
theorem loadTail_gathers : loadTail f ff w as old s = (do
    let (vs, limit) ← gatherElems w ff act as.vas
    writeV f.d.toNat (ofElems w (overlay old 0 vs)) f.fmt
    match limit with
    | some i => editSelf fun st => st.setPred f.m.toNat (st.predBits f.m.toNat &&& BitVec.ofNat 512 (2 ^ (i * (w / 8)) - 1))
    | none => pure ()
    finishReply f : Act Unit) s := by
  rw [loadTail, Act.bind_ok (heedTag_fine tagged), Act.bind_ok (actives_run i.issuer i.strand f w), Strand.slowed_predBits, active, any,
    if_neg (by decide), Act.bind_ok (heedAligned_fine (.inl aligned))]

theorem loadTail_misaligned {before rest : List (Nat × Word)} {j : Nat} {va : Word} {es : List Elem}
    (split : chosen act as.vas 0 = before ++ (j, va) :: rest)
    (passed : checkElems (st.slowed k) (Check.load (w / 8)) (w / 8) before s = ((es, none), r)) (first : ff = false ∨ before = [])
    (bad : va.toNat % (w / 8) ≠ 0) : ∃ x, (loadTail f ff w as old).outcome s =
      .next (({ r with free := r.free + 1 } : State).takeTrap u Cause.alignment x st.pc va) := by
  obtain ⟨stops, ir⟩ := checkElems_misaligned i (c := Check.load (w / 8)) (rest := rest) (j := j) passed bad
  obtain ⟨x, trap⟩ := trapWord_slowed ir (α := List (Nat × Nat) × Option Nat) Cause.alignment va
  refine ⟨x, Act.outcome_done ((loadTail_gathers i tagged active aligned any).trans (Act.bind_error ?_))⟩
  rw [gatherElems, Act.bind_ok (me_run i.issuer), Act.bind_ok (self_run i.issuer i.strand), Act.bind_ok (stateS_run ..), split, stops]
  refine (congrFun (if_pos ?_) r).trans trap
  rcases first with rfl | rfl
  · rfl
  · cases passed
    simp

section
variable {vs : List (Nat × Nat)} {limit : Option Nat} (gathers : gatherElems w ff act as.vas s = (.ok (vs, limit), t))
include gathers

theorem loadTail_whole (clean : limit = none) : (loadTail f ff w as old).outcome s = .next ((t.setStrand u
    (((st.slowed k).setV f.d.toNat (ofElems w (overlay old 0 vs)) f.fmt).done f)).replies u) := by
  subst clean
  have work := gatherElems_traffic i.issuer i.strand gathers
  have hc := work.cur.trans i.issuer
  refine Act.outcome_done ((loadTail_gathers i tagged active aligned any).trans ((Act.bind_ok gathers).trans ?_))
  exact (Act.bind_ok (writeV_run hc ((work.strand u).trans i.strand) ..)).trans (finishReply_set_run hc (by exact i.outside) f)

/-- A fault-only-first load clears its predicate from the limit on (R213). -/
theorem loadTail_part {e : Nat} (stops : limit = some e) :
    let st' := (st.slowed k).setV f.d.toNat (ofElems w (overlay old 0 vs)) f.fmt
    (loadTail f ff w as old).outcome s = .next ((t.setStrand u
      ((st'.setPred f.m.toNat (st'.predBits f.m.toNat &&& BitVec.ofNat 512 (2 ^ (e * (w / 8)) - 1))).done f)).replies u) := by
  intro st'
  subst stops
  have work := gatherElems_traffic i.issuer i.strand gathers
  have hc := work.cur.trans i.issuer
  refine Act.outcome_done ((loadTail_gathers i tagged active aligned any).trans ((Act.bind_ok gathers).trans ?_))
  refine (Act.bind_ok (writeV_run hc ((work.strand u).trans i.strand) ..)).trans ((Act.bind_ok (editSelf_set_run hc ..)).trans ?_)
  exact finishReply_set_run hc (by exact (Strand.setPred_region ..).trans i.outside) f

end

end

end

end

/-- Settles O19: a load ends as `loadTail` does, which traps, writes D as it was or writes what it has gathered; the addresses are those of
R208 by their definitions. -/
theorem vectorLoads : Obligations.VectorLoads := by
  intro s s1 s2 t u st f a d b as old vs limit h bound w n act loads
  have all (kl : Klass) {i : Instr} {ff : Bool} {addrs : Nat → Act Addrs} (quiet : QuietAct (addrs w))
      (run : exec i s = (vectorLoad kl f ff addrs).outcome s) : loads i ff (addrs w) := by
    intro readA readD
    obtain ⟨k, traffic⟩ := h.quiet_two quiet (oldElems_quiet ..) readA readD
    have j := h.after traffic
    have leads := run.trans (vectorLoad_leads h bound readA readD)
    refine ⟨k, traffic, fun tagged idle => leads.trans (loadTail_idle j tagged idle), fun tagged aligned active gathers =>
      ⟨gatherElems_traffic j.issuer j.strand gathers, gatherElems_positions j.issuer j.strand gathers, fun es bad r checked => ?_, ?_⟩,
      fun bad => ?_, fun tagged bad e va rest first => ?_, fun tagged aligned before e va rest es r parts passed first bad => ?_⟩
    · -- what is loaded, and the limit
      obtain ⟨home, managed⟩ := gatherElems_values j.issuer j.strand gathers checked
      rw [Strand.slowed_core] at managed
      refine ⟨home, managed, fun r2 heard => ?_⟩
      obtain ⟨whole, part⟩ := gatherElems_limit j.issuer j.strand gathers checked heard
      split
      · next e found => exact part e found
      · next clean => exact whole clean
    · -- D and the predicate
      cases limit with
      | none => exact leads.trans (loadTail_whole j tagged rfl aligned active gathers rfl)
      | some e => exact leads.trans (loadTail_part j tagged rfl aligned active gathers rfl)
    · obtain ⟨x, y, traps⟩ := loadTail_untagged (ff := ff) (w := w) (old := old) j bad
      exact ⟨x, y, leads.trans traps⟩
    · obtain ⟨x, traps⟩ := loadTail_unaligned (ff := ff) (old := old) j tagged rfl bad first
      exact ⟨x, leads.trans traps⟩
    · obtain ⟨x, traps⟩ := loadTail_misaligned (old := old) j tagged rfl aligned (any_of_parts parts) parts passed first bad
      exact ⟨x, leads.trans traps⟩
  refine ⟨all .access (unitAddrs_quiet f w) rfl, all .access (strideAddrs_quiet f w) rfl, all .access (indexAddrs_quiet f w) rfl,
    all .neither (unitAddrs_quiet f w) rfl, fun readA => ⟨Act.bind_ok readA, fun readB => ?_, fun readB => ?_⟩⟩
  · refine (Act.bind_ok readA).trans ((Act.bind_ok readB).trans ?_)
    simp only [Bool.decide_and]
    rfl
  · rw [indexAddrs_out h.issuer h.strand h.outside, Act.bind_ok readA, Act.bind_ok readB, Act.pure_run]
    simp only [beq_eq_decide]

end Sys2Proof.Machine
end

section
/-!
SUPPORT. What the accesses of a vector store leave (09 R212).

While no access waits on a retry list, a strand stays as it was but for its VISMAX, its watches and its wait (`StrandsStay`): behind each
write, and behind the error-queue entry of a tier link that is down. A group of elements takes one of three ways (`storeGroup_ok`), and
where it is written at its home, its bytes are in memory in the order of its elements (`storeGroups_mem`).
-/

namespace Sys2Proof.Machine

variable {s s1 r t : State} {u : Nat} {st : Strand}

/-! ### Strands that stay -/

/-- While no access waits on a retry list, none does behind it, and every strand is there, changed in its VISMAX, its watches and what it
waits for alone. -/
structure StrandsStay (s t : State) : Prop where
  waiters : s.waiters = [] → t.waiters = []
  strand {u : Nat} {st : Strand} : s.waiters = [] → s.strand? u = some st →
    ∃ vt st', t.strand? u = some st' ∧ Strand.SameButWait { st with visMax := vt } st'

theorem StrandsStay.trans (h : StrandsStay s r) (h' : StrandsStay r t) : StrandsStay s t where
  waiters nobody := h'.waiters (h.waiters nobody)
  strand nobody found := by
    obtain ⟨v1, st1, found1, same1⟩ := h.strand nobody found
    obtain ⟨v2, st2, found2, same2⟩ := h'.strand (h.waiters nobody) found1
    refine ⟨v2, st2, found2, ?_⟩
    unfold Strand.SameButWait at *
    rw [same2, same1]

/-- A change of neither the strands nor those that wait. -/
theorem StrandsStay.of (waiters : t.waiters = s.waiters) (strands : t.strands = s.strands) : StrandsStay s t where
  waiters nobody := waiters.trans nobody
  strand _ found := ⟨_, _, by rw [State.strand?, strands]; exact found, .refl _⟩

theorem StrandsStay.refl (s : State) : StrandsStay s s := .of rfl rfl

theorem Traffic.strandsStay (h : Traffic s t) : StrandsStay s t := .of h.waiters h.strands

theorem StrandsStay.foldl {α : Type} {g : State → α → State} (hg : ∀ t x, StrandsStay t (g t x)) (l : List α) (s : State) :
    StrandsStay s (l.foldl g s) := by
  induction l generalizing s with
  | nil => exact .refl s
  | cons x l ih => exact (hg s x).trans (ih _)

namespace State

variable {core ctx n : Nat} {va : Word} {x y : Xlat}

theorem noteVt_stay {pa : Nat} : StrandsStay s (s.noteVt u pa) where
  waiters nobody := by rw [noteVt, editStrand_waiters, nobody]
  strand {v st} _ found := by
    by_cases same : v = u
    · subst same
      obtain ⟨vt, noted⟩ := noteVt_strand found pa
      exact ⟨vt, _, noted, .refl _⟩
    · refine ⟨st.visMax, st, ?_, .refl _⟩
      unfold noteVt editStrand
      split
      · exact (strand_set_other _ _ (Ne.symm same)).trans found
      · exact found

theorem written_stay {pa : Nat} : StrandsStay s (s.written pa n) where
  waiters nobody := by
    obtain ⟨_, _, _, e⟩ := (fired_written nobody pa n).frame
    rw [e, nobody]
  strand nobody found := by
    obtain ⟨st', there, same⟩ := (fired_written nobody pa n).strand found
    exact ⟨_, st', there, same⟩

/-! ### The error-queue entry of a tier link that is down (24 R417, R422) -/

theorem homeStep_stay {coherent reads : Bool} {leaf : Option Nat} {a : Nat} : StrandsStay s (s.homeStep coherent reads leaf a) := by
  unfold homeStep
  split
  · split <;> exact .of rfl rfl
  · dsimp only
    split
    · exact ((calm_settle ..).trans (calm_cleanOwner ..)).toTraffic.strandsStay
    · exact ((calm_settle ..).trans (calm_invalidateAll ..)).toTraffic.strandsStay

theorem unitGoes_stay : StrandsStay s (s.unitGoes n) := by
  unfold unitGoes
  split <;> exact .of rfl rfl

theorem standUnit_stay {a : Await} : StrandsStay s (s.standUnit n a) := by
  unfold standUnit
  dsimp only
  split
  · exact unitGoes_stay
  · split <;> exact .of rfl rfl

theorem askUnit_stay {a : Await} : StrandsStay s (s.askUnit a) := by
  unfold askUnit
  split
  · split <;> exact .of rfl rfl
  · exact .refl s

theorem unitPut_stay {words : List Nat} {full : Option Bool} : StrandsStay s (s.unitPut core ctx va x words full) := by
  refine (traffic_markDirty ..).strandsStay.trans ((StrandsStay.foldl (fun _ _ => homeStep_stay) ..).trans
    ((StrandsStay.foldl (fun t i => ?_) ..).trans written_stay))
  cases full with
  | none => exact .of rfl rfl
  | some b => cases b <;> exact .of rfl rfl

theorem traffic_translateStoreFor (s : State) (core ctx : Nat) (va : Word) (eng unit : Option Nat) :
    Traffic s (s.translateStore core ctx va eng unit).2 := by
  unfold translateStore
  dsimp only
  split
  · exact ((traffic_translate ..).trans (traffic_forget ..)).trans (traffic_translate ..)
  · exact traffic_translate ..

theorem unitSite_stay {lrec : Option Nat} {write bits : Bool} : StrandsStay s (s.unitSite core ctx n lrec va write bits).2 := by
  have placed : Traffic s (if write then s.translateStore core ctx va none (some n) else s.translate core ctx va .read none (some n)).2 := by
    split
    · exact traffic_translateStoreFor ..
    · exact traffic_translate ..
  unfold unitSite
  split <;> rename_i e <;> rw [e] at placed <;> replace placed := placed.strandsStay <;> dsimp only at placed ⊢
  · exact placed
  · split
    · exact placed
    · split
      · exact placed
      · split
        · refine placed.trans ?_
          dsimp only
          exact askUnit_stay
        · exact placed

theorem loseEntry_stay {base : Word} : StrandsStay s (s.loseEntry core ctx n base x).2 := by
  have asked := (calm_askHome s (.unit n) ctx (s.unitAsks core ctx base x 24 true false) true).toTraffic.strandsStay
  unfold loseEntry
  split <;> rename_i e <;> rw [e] at asked
  · exact asked
  · refine asked.trans ?_
    dsimp only
    exact unitPut_stay

theorem addEntry_stay {base : Word} {words : List Nat} : StrandsStay s (s.addEntry core ctx n base va x y words).2 := by
  have asked := (calm_askHome s (.unit n) ctx (s.unitAsks core ctx base x 24 true false ++ s.unitAsks core ctx va y 32 true false)
    true).toTraffic.strandsStay
  unfold addEntry
  split <;> rename_i e <;> rw [e] at asked
  · exact asked
  · refine asked.trans ?_
    dsimp only
    exact unitPut_stay.trans unitPut_stay

/-- An entry that has been asked for waits in its place or is done with. -/
theorem entryEnds_stay {p : Option Await × State} (h : StrandsStay s p.2) :
    StrandsStay s (match p with | (some a, s) => ((false, s.standUnit n a) : Bool × State) | (none, s) => (true, s.unitGoes n)).2 := by
  obtain ⟨a, t⟩ := p
  cases a with
  | none => exact h.trans unitGoes_stay
  | some a => exact h.trans standUnit_stay

theorem entry_stay {addr : Word} {peer kind cause sid : Nat} : StrandsStay s (s.entry n ctx addr peer kind cause sid).2 := by
  have site {t : State} {core : Nat} {va : Word} {bits : Bool} {r : State} {a : Except Problem Xlat}
      (e : t.unitSite core ctx n none va true bits = (a, r)) : StrandsStay t r := by
    have placed := unitSite_stay (s := t) (core := core) (ctx := ctx) (n := n) (va := va) (lrec := none) (write := true) (bits := bits)
    rwa [e] at placed
  unfold entry
  split
  · exact unitGoes_stay
  · dsimp only
    split <;> rename_i placed <;> replace placed := site placed
    · exact placed.trans standUnit_stay
    · exact placed.trans unitGoes_stay
    · split
      · exact placed.trans unitGoes_stay
      · split
        · exact entryEnds_stay (placed.trans loseEntry_stay)
        · split <;> rename_i added <;> replace added := placed.trans (site added)
          · exact added.trans standUnit_stay
          · exact added.trans unitGoes_stay
          · exact entryEnds_stay (added.trans addEntry_stay)

theorem localError_stay {addr : Word} {kind cause sid : Nat} : StrandsStay s (s.localError ctx addr kind cause sid) := by
  have entered := entry_stay (s := { s with free := s.free + 1 }) (n := choreUnit s.order) (ctx := ctx) (addr := addr)
    (peer := (Config.freeWord s.free).toNat % 65536) (kind := kind) (cause := cause) (sid := sid)
  refine (StrandsStay.of rfl rfl : StrandsStay s { s with free := s.free + 1 }).trans ?_
  unfold localError errorEntry
  dsimp only
  split <;> rename_i e <;> rw [e] at entered
  · exact entered
  · exact entered.trans (.of rfl rfl)

end State

/-! ### The accesses of a store (R212) -/

/-- The elements of the groups are the elements in their order. -/
theorem groupsOf_flatten (l : Group) : (groupsOf l).flatten = l := by
  induction l with
  | nil => rfl
  | cons e l ih =>
    rw [groupsOf]
    split
    · next d g more same =>
      rw [same] at ih
      split <;> simp [← ih]
    · simp [ih]

/-- Bytes of elements in memory, one element after another. -/
def Group.onto (g : Group) (m : List Host.Cell) : List Host.Cell := g.foldl (fun m d => Memory.setBytes m d.1.x.pa d.2) m

/-- What the writes of a group bring about (10 R234). -/
def Group.heard (g : Group) (s : State) : State := g.foldl (fun s d => s.written d.1.x.pa d.2.length) s

theorem Group.heard_stay (g : Group) (s : State) : StrandsStay s (g.heard s) := .foldl (fun _ _ => State.written_stay) ..

theorem Group.heard_issuing (g : Group) (s : State) : (g.heard s).issuing u = s.issuing u :=
  State.foldl_issuing (fun _ _ => State.written_issuing) ..

/-- While no access waits, what follows a group's writes changes cores and strands alone. -/
theorem Group.heard_frame (g : Group) (nobody : s.waiters = []) :
    ∃ cs ss n, g.heard s = { s with cores := cs, strands := ss, order := n } := by
  have fired : Fired s (g.heard s) := by
    induction g generalizing s with
    | nil => exact .refl s
    | cons d g ih => exact (fired_written nobody ..).trans (ih (State.written_stay.waiters nobody))
  exact fired.frame

/-- One access of a store: into a SWMANAGED copy, into an entry of the error queue where the link is down, or into memory. -/
inductive Lands (s : State) (u : Nat) (st : Strand) (e : Elem) (g : Group) (t : State) : Prop where
  | managed {r : State} (path : s.pathOf e.x = .managed) (calm : Calm s r) (left : t = r.noteVt u e.x.pa)
  | lost {r : State} (down : s.tierDown e.x.pa = true) (calm : Calm s r) (left : t = r.localError st.ctx e.va 6 37 st.sid)
  | stored {r : State} {poison : List Nat} (calm : Calm s r)
      (left : t = g.heard (({ r with mem := g.onto r.mem, poison := poison } : State).noteVt u e.x.pa))

theorem calm_swmWhole (s : State) (core line : Nat) (p : Nat → Bool) : Calm s (s.swmWhole core line p) := by
  unfold State.swmWhole
  split
  · exact .refl s
  · exact calm_setL1 ..

/-- A group at its home, whose first element is `e`. -/
def storeHome (u : Nat) (st : Strand) (e : Elem) (g : Group) : Act Unit := do
  if ← readS (·.tierDown e.x.pa) then editS fun s => s.localError st.ctx e.va 6 37 st.sid
  else
    editS fun s =>
      let s := { s with
        mem := g.onto s.mem
        poison := s.poison.filter fun p => !(p / 16 == lineOf e.x.pa && Group.covers g p) }
      g.heard (s.noteVt u e.x.pa)

theorem storeHome_ok {e : Elem} {g : Group} (calm : Calm s r) (h : storeHome u st e g r = (.ok (), t)) : Lands s u st e g t := by
  rw [storeHome, Act.bind_ok (readS_run ..)] at h
  split at h
  · next down =>
    cases h
    exact .lost ((calm.toTraffic.tierDown _).symm.trans down) calm rfl
  · cases h
    exact .stored calm rfl

theorem storeGroup_ok (hc : s.cur = some u) (hs : s.strand? u = some st) {e : Elem} {b : List (BitVec 8)} {g : Group}
    (h : storeGroup ((e, b) :: g) s = (.ok (), t)) : Lands s u st e ((e, b) :: g) t := by
  rw [storeGroup, Act.bind_ok (me_run hc), Act.bind_ok (self_run hc hs), Act.bind_ok (readS_run ..)] at h
  cases path : s.pathOf e.x with
  | managed =>
    simp only [path] at h
    cases h
    exact .managed path ((Calm.foldl (fun _ _ => calm_swmWrite ..) ..).trans (calm_swmWhole ..)) rfl
  | home =>
    simp only [path] at h
    exact storeHome_ok (.refl s) h
  | coherent =>
    simp only [path] at h
    rw [if_pos (by decide), Act.bind_ok (editS_run ..)] at h
    refine storeHome_ok ?_ h
    exact (calm_getM ..).trans (Calm.foldl (fun _ _ => calm_stampWords ..) _)

section
variable {e : Elem} {g : Group} (h : Lands s u st e g t)
include h

theorem Lands.issuing {v : Nat} : t.issuing v = s.issuing v := by
  cases h with
  | managed path calm left => exact left ▸ State.noteVt_issuing.trans calm.issuing
  | lost down calm left => exact left ▸ State.localError_issuing.trans calm.issuing
  | stored calm left =>
    rw [left, g.heard_issuing, State.noteVt_issuing]
    exact calm.issuing

theorem Lands.stay : StrandsStay s t := by
  cases h with
  | managed path calm left => exact left ▸ calm.strandsStay.trans State.noteVt_stay
  | lost down calm left => exact left ▸ calm.strandsStay.trans State.localError_stay
  | @stored r poison calm left =>
    have written : StrandsStay r { r with mem := g.onto r.mem, poison := poison } := .of rfl rfl
    exact left ▸ calm.strandsStay.trans (written.trans (State.noteVt_stay.trans (g.heard_stay _)))

/-- A group that goes home over links that are up is in memory, and links and zones are as they were. -/
theorem Lands.mem (nobody : s.waiters = []) (path : s.pathOf e.x ≠ .managed) (up : s.tierDown e.x.pa = false) :
    t.mem = g.onto s.mem ∧ (∀ x, t.pathOf x = s.pathOf x) ∧ ∀ pa, t.tierDown pa = s.tierDown pa := by
  cases h with
  | managed managed => exact (path managed).elim
  | lost down => exact absurd (down.symm.trans up) (by decide)
  | @stored r poison calm left =>
    obtain ⟨ss, noted⟩ := noteVt_frame ({ r with mem := g.onto r.mem, poison := poison } : State) u e.x.pa
    rw [noted] at left
    obtain ⟨cs, ss', n, heard⟩ := g.heard_frame (s := { r with mem := g.onto r.mem, poison := poison, strands := ss })
      (calm.waiters.trans nobody)
    rw [heard] at left
    subst left
    exact ⟨by rw [calm.still], fun x => calm.pathOf x, fun pa => calm.tierDown pa⟩

end

theorem storeGroups_cons {g : Group} {gs : List Group} (h : storeGroups (g :: gs) s = (.ok (), t)) :
    ∃ r, storeGroup g s = (.ok (), r) ∧ storeGroups gs r = (.ok (), t) := by
  obtain ⟨_, r, first, rest⟩ := Act.of_bind h
  exact ⟨r, first, rest⟩

/-- The accesses of a store leave its strand issuing, and while nothing waits they leave the strands as they are. -/
theorem storeGroups_stay {gs : List Group} (hs : s.issuing u = (some u, some true)) (h : storeGroups gs s = (.ok (), t)) :
    t.issuing u = (some u, some true) ∧ StrandsStay s t := by
  induction gs generalizing s with
  | nil => cases h; exact ⟨hs, .refl _⟩
  | cons g gs ih =>
    obtain ⟨r, first, rest⟩ := storeGroups_cons h
    cases g with
    | nil => cases first; exact ih hs rest
    | cons d g =>
      obtain ⟨hc, st, found, -⟩ := State.issuing_iff.mp hs
      have lands := storeGroup_ok hc found first
      obtain ⟨issues, stay⟩ := ih (lands.issuing.trans hs) rest
      exact ⟨issues, lands.stay.trans stay⟩

/-- Accesses that go home over links that are up leave their bytes in memory, in the order of the elements. -/
theorem storeGroups_mem {gs : List Group} (hs : s.issuing u = (some u, some true)) (nobody : s.waiters = [])
    (home : ∀ d ∈ gs.flatten, s.pathOf d.1.x ≠ .managed ∧ s.tierDown d.1.x.pa = false) (h : storeGroups gs s = (.ok (), t)) :
    t.mem = Group.onto gs.flatten s.mem := by
  induction gs generalizing s with
  | nil => cases h; rfl
  | cons g gs ih =>
    obtain ⟨r, first, rest⟩ := storeGroups_cons h
    cases g with
    | nil => cases first; exact ih hs nobody home rest
    | cons d g =>
      obtain ⟨hc, st, found, -⟩ := State.issuing_iff.mp hs
      have lands := storeGroup_ok hc found first
      obtain ⟨path, up⟩ := home d (by simp)
      obtain ⟨mem, paths, links⟩ := lands.mem nobody path up
      have others := ih (lands.issuing.trans hs) (lands.stay.waiters nobody)
        (fun d inside => by rw [paths, links]; exact home d (List.mem_append_right _ inside)) rest
      rw [others, mem, List.flatten_cons, Group.onto, Group.onto, Group.onto, List.foldl_append]

end Sys2Proof.Machine
end

section
/-!
VECTOR STORES (O20).

A store without an active element makes one zero-length write (`zeroWrite_ok`); any other checks all its elements, hears their homes, sets
the D bits and makes its accesses (`scatterElems_ok`). Its own steps lead to `storeTail`, which ends in one of the ways of the statement.
-/

namespace Sys2Proof.Machine

variable {s s1 s2 r t : State} {u w : Nat} {st : Strand} {f : Fields} {va : Word} {act : List Bool} {vas : List Word} {data : List Nat}

/-! ### What a store that answers has done -/

/-- The elements with the bytes that they take, the low ones of their data (R208). -/
def storePairs (n : Nat) (es : List Elem) (l : List (Nat × Nat)) : Group := es.zip (l.map fun v => Memory.toBytes n v.2)

theorem mem_of_storePairs {n : Nat} {es : List Elem} {l : List (Nat × Nat)} {d : Elem × List (BitVec 8)} (inside : d ∈ storePairs n es l) :
    d.1 ∈ es := (List.of_mem_zip inside).1

theorem storePairs_onto (n : Nat) (es : List Elem) (l : List (Nat × Nat)) (m : List Host.Cell) : (storePairs n es l).onto m =
    (es.zip (l.map (·.2))).foldl (fun m p => Memory.setBytes m p.1.x.pa (Memory.toBytes n p.2)) m := by
  have pairs : storePairs n es l = (es.zip (l.map (·.2))).map (Prod.map id (Memory.toBytes n)) := by
    rw [← List.zip_map_right, List.map_map]
    rfl
  rw [Group.onto, pairs, List.foldl_map]
  rfl

section
variable (hc : s.cur = some u) (hs : s.strand? u = some st)
include hc hs

/-- A zero-length write changes the strand's VISMAX alone (04 R114). -/
theorem zeroWrite_ok (h : zeroWrite va s = (.ok (), t)) : ∃ r pa, Traffic s r ∧ t = r.noteVt u pa := by
  rw [zeroWrite, Act.bind_ok (me_run hc), Act.bind_ok (self_run hc hs), Act.bind_ok (stateS_run ..)] at h
  have checked := traffic_accessProblem s st ⟨1, .zeroWrite, false, false, true, false⟩ va 0
  rcases found : s.accessProblem st ⟨1, .zeroWrite, false, false, true, false⟩ va 0 with ⟨e | x, r⟩ <;> rw [found] at h checked
  · exact (Act.ends_ne (raiseElem_ends _ _) h).elim
  · dsimp only at h
    rw [Act.bind_ok (readS_run ..)] at h
    obtain ⟨_, r', heard, last⟩ := Act.of_bind h
    cases last
    exact ⟨r', _, checked.trans ((heedHome_calm ..).calm heard).toTraffic, rfl⟩

/-- A store with an active element: every element passes its checks, the homes are heard, and the accesses follow the D bits (R211, R212). -/
theorem scatterElems_ok (active : act.any id = true) (h : scatterElems w act vas data s = (.ok (), t)) :
    ∃ es r r2, checkElems st (Check.store (w / 8)) (w / 8) (chosen act vas 0) s = ((es, none), r) ∧ Traffic r r2 ∧
      storeGroups (groupsOf (storePairs (w / 8) es (chosen act data 0))) r2 = (.ok (), t) := by
  rw [scatterElems, active, if_neg (by decide), Act.bind_ok (me_run hc), Act.bind_ok (self_run hc hs), Act.bind_ok (stateS_run ..)] at h
  rcases checked : checkElems st (Check.store (w / 8)) (w / 8) (chosen act vas 0) s with ⟨⟨es, bad⟩, r⟩
  rw [checked] at h
  cases bad with
  | some b => exact (Act.ends_ne (Act.ends_first (raiseElem_ends _ _)) h).elim
  | none =>
    obtain ⟨_, r1, heard, h⟩ := Act.of_bind h
    rw [Act.bind_ok (readS_run ..)] at h
    have pairs : es.zip ((chosen act data 0).map fun v => Memory.toBytes (w / 8) v.2) = storePairs (w / 8) es (chosen act data 0) := rfl
    cases race : es.find? fun e => r1.writeRace u st e (w / 8) with
    | some e =>
      simp only [id_eq, race] at h
      exact (Act.ends_ne (Act.ends_first (trapWord_ends _ _)) h).elim
    | none =>
      simp only [id_eq, race, pairs] at h
      cases torn : (groupsOf (storePairs (w / 8) es (chosen act data 0))).findSome? (r1.tornElem st.core) with
      | some e =>
        simp only [torn] at h
        exact (Act.ends_ne (Act.ends_first (trapWord_ends _ _)) h).elim
      | none =>
        simp only [torn] at h
        exact ⟨es, r, _, rfl, ((hearElems_calm ..).calm heard).toTraffic.trans (Traffic.foldl (fun _ _ => traffic_markDirty ..) _), h⟩

/-- A store leaves its strand issuing, and while nothing waits it leaves the strands as they are. -/
theorem scatterElems_stay (out : st.region = none) (h : scatterElems w act vas data s = (.ok (), t)) :
    t.issuing u = (some u, some true) ∧ StrandsStay s t := by
  have issues : s.issuing u = (some u, some true) := State.issuing_iff.mpr ⟨hc, st, hs, out⟩
  cases active : act.any id with
  | false =>
    rw [scatterElems, active, if_pos (by decide)] at h
    obtain ⟨r, pa, work, rfl⟩ := zeroWrite_ok hc hs h
    exact ⟨State.noteVt_issuing.trans (work.issuing.trans issues), work.strandsStay.trans State.noteVt_stay⟩
  | true =>
    obtain ⟨es, r, r2, checked, work, stored⟩ := scatterElems_ok hc hs active h
    have passed := traffic_checkElems st (Check.store (w / 8)) (w / 8) (chosen act vas 0) s
    rw [checked] at passed
    obtain ⟨issued, stay⟩ := storeGroups_stay ((passed.trans work).issuing.trans issues) stored
    exact ⟨issued, (passed.trans work).strandsStay.trans stay⟩

/-- Elements that go home over links that are up are in memory, in ascending order. -/
theorem scatterElems_mem (out : st.region = none) (nobody : s.waiters = []) (active : act.any id = true)
    (h : scatterElems w act vas data s = (.ok (), t)) : ∃ es r r2,
      checkElems st (Check.store (w / 8)) (w / 8) (chosen act vas 0) s = ((es, none), r) ∧ Traffic r r2 ∧
      ((∀ e ∈ es, r.pathOf e.x ≠ .managed ∧ r.tierDown e.x.pa = false) →
        t.mem = (es.zip ((chosen act data 0).map (·.2))).foldl
          (fun m p => Memory.setBytes m p.1.x.pa (Memory.toBytes (w / 8) p.2)) r2.mem) := by
  obtain ⟨es, r, r2, checked, work, stored⟩ := scatterElems_ok hc hs active h
  refine ⟨es, r, r2, checked, work, fun home => ?_⟩
  have passed := traffic_checkElems st (Check.store (w / 8)) (w / 8) (chosen act vas 0) s
  rw [checked] at passed
  have all := passed.trans work
  rw [storeGroups_mem (all.issuing.trans (State.issuing_iff.mpr ⟨hc, st, hs, out⟩)) (all.waiters.trans nobody) ?_ stored, groupsOf_flatten,
    storePairs_onto]
  intro d inside
  rw [groupsOf_flatten] at inside
  rw [work.pathOf, work.tierDown]
  exact home d.1 (mem_of_storePairs inside)

end

/-! ### The course of a store outside a region -/

/-- The steps of a store behind its addresses and its data. -/
def storeTail (f : Fields) (w : Nat) (as : Addrs) (v : Vec) : Act Unit := do
  as.heedTag
  let act ← actives f w
  as.heedAligned act
  scatterElems w act as.vas (elems w v)
  finishReply f

theorem vectorStore_leads {addrs : Nat → Act Addrs} {as : Addrs} {v : Vec} {tag : BitVec 4} (h : Issues s u st f) (bound : st.bound)
    (readA : addrs (Shape.widthOf f.fmt.toNat) s = (.ok as, s1)) (readD : readV f.d.toNat s1 = (.ok (v, tag), s2)) :
    (vectorStore f addrs).outcome s = (storeTail f (Shape.widthOf f.fmt.toNat) as v).outcome s2 := by
  refine Act.outcome_congr ((issue_run h ..).trans ?_)
  rw [Act.bind_ok (inAccess_run h.issuer h.strand h.outside), Act.bind_ok (self_run h.issuer h.strand)]
  simp only [h.outside]
  rw [Act.bind_ok (bindVec_bound h.issuer h.strand bound), Act.bind_ok readA, Act.bind_ok readD]
  rfl

section
variable {k : Bool} {as : Addrs} {v : Vec} (i : Issues s u (st.slowed k) f)
include i

theorem storeTail_untagged (bad : as.tagged = false) : ∃ x y, (storeTail f w as v).outcome s =
    .next (({ s with free := s.free + 2 } : State).takeTrap u Cause.formatMismatch x st.pc y) := by
  obtain ⟨x, y, trap⟩ := heedTag_traps i bad
  exact ⟨x, y, Act.outcome_done (Act.bind_error trap)⟩

variable (tagged : as.tagged = true) (elements : activeList w (st.predBits f.m.toNat) = act)
include tagged elements

theorem storeTail_unaligned {j : Nat} {rest : List (Nat × Word)} (bad : as.aligned = false)
    (first : chosen act as.vas 0 = (j, va) :: rest) : ∃ x, (storeTail f w as v).outcome s =
      .next (({ s with free := s.free + 1 } : State).takeTrap u Cause.alignment x st.pc va) := by
  obtain ⟨x, trap⟩ := heedAligned_traps i bad first
  refine ⟨x, Act.outcome_done ?_⟩
  rw [storeTail, Act.bind_ok (heedTag_fine tagged), Act.bind_ok (actives_run i.issuer i.strand f w), Strand.slowed_predBits, elements,
    Act.bind_error trap]

section
variable (fine : as.aligned = true ∨ act.any id = false)
include fine

/-- A store whose addresses are aligned scatters, and ends as that does. -/
theorem storeTail_scatters :
    storeTail f w as v s = (do scatterElems w act as.vas (elems w v); finishReply f : Act Unit) s := by
  rw [storeTail, Act.bind_ok (heedTag_fine tagged), Act.bind_ok (actives_run i.issuer i.strand f w), Strand.slowed_predBits, elements,
    Act.bind_ok (heedAligned_fine fine)]

theorem storeTail_stores (scatters : scatterElems w act as.vas (elems w v) s = (.ok (), t)) :
    (storeTail f w as v).outcome s = .next ((t.behind u f).replies u) := by
  refine Act.outcome_done ((storeTail_scatters i tagged elements fine).trans ((Act.bind_ok scatters).trans ?_))
  exact finishReply_issuing (scatterElems_stay i.issuer i.strand i.outside scatters).1 f

end

theorem storeTail_misaligned (aligned : as.aligned = true) {before rest : List (Nat × Word)} {j : Nat} {es : List Elem}
    (parts : chosen act as.vas 0 = before ++ (j, va) :: rest)
    (passed : checkElems (st.slowed k) (Check.store (w / 8)) (w / 8) before s = ((es, none), r)) (bad : va.toNat % (w / 8) ≠ 0) :
    ∃ x, (storeTail f w as v).outcome s =
      .next (({ r with free := r.free + 1 } : State).takeTrap u Cause.alignment x st.pc va) := by
  obtain ⟨stops, ir⟩ := checkElems_misaligned i (c := Check.store (w / 8)) (rest := rest) (j := j) passed bad
  obtain ⟨x, trap⟩ := trapWord_slowed ir (α := Unit) Cause.alignment va
  refine ⟨x, Act.outcome_done ((storeTail_scatters i tagged elements (.inl aligned)).trans (Act.bind_error ?_))⟩
  rw [scatterElems, any_of_parts parts, if_neg (by decide), Act.bind_ok (me_run i.issuer), Act.bind_ok (self_run i.issuer i.strand),
    Act.bind_ok (stateS_run ..), parts, stops]
  exact Act.bind_error trap

end

/-- Settles O20: a store ends as `storeTail` does, which traps or has scattered its elements; what it leaves is what its accesses leave. -/
theorem vectorStores : Obligations.VectorStores := by
  intro s s1 s2 t u st f as v tag h bound w n act stores
  have all {i : Instr} {addrs : Nat → Act Addrs} (quiet : QuietAct (addrs w)) (run : exec i s = (vectorStore f addrs).outcome s) :
      stores i (addrs w) := by
    intro readA readD
    obtain ⟨k, traffic⟩ := h.quiet_two quiet (readV_quiet _) readA readD
    have j := h.after traffic
    have leads := run.trans (vectorStore_leads h bound readA readD)
    refine ⟨k, traffic, fun tagged fine scatters => ⟨leads.trans (storeTail_stores j tagged rfl fine scatters), fun quiet => ?_⟩,
      fun bad => ?_, fun tagged bad e va rest first => ?_, fun tagged aligned before e va rest es r parts passed bad => ?_⟩
    · -- strands and memory
      have nobody : s2.waiters = [] := by rw [traffic.waiters, State.slowed]; split <;> exact quiet
      have stay := (scatterElems_stay j.issuer j.strand j.outside scatters).2
      exact ⟨stay.strand nobody j.strand, fun active => scatterElems_mem j.issuer j.strand j.outside nobody active scatters⟩
    · obtain ⟨x, y, traps⟩ := storeTail_untagged (w := w) (v := v) j bad
      exact ⟨x, y, leads.trans traps⟩
    · obtain ⟨x, traps⟩ := storeTail_unaligned (v := v) j tagged rfl bad first
      exact ⟨x, leads.trans traps⟩
    · obtain ⟨x, traps⟩ := storeTail_misaligned (v := v) j tagged rfl aligned parts passed bad
      exact ⟨x, leads.trans traps⟩
  exact ⟨all (unitAddrs_quiet f w) rfl, all (strideAddrs_quiet f w) rfl, all (indexAddrs_quiet f w) rfl⟩

end Sys2Proof.Machine
end

section
/-!
LOADS AND STORES (O13, O14).

The steps before the access are quiet, the access itself is `loadBytes` or `storeBytes`, whose effects have their laws, and what is left of the
instruction is its end.
-/

namespace Sys2Proof.Machine

variable {s s1 s2 s3 r t : State} {u n : Nat} {st : Strand} {f : Fields} {v va : Word} {x : Xlat} {bytes : List (BitVec 8)}

/-! ### Addresses (10 R214, R215) -/

theorem address_ok (addr : address f n s = (.ok va, t)) : ∃ a, operandX false f.a f.ta s = (.ok a, t) ∧ va = a + memOffset f n := by
  obtain ⟨a, r, read, last⟩ := Act.of_bind addr
  cases last
  exact ⟨a, read, rfl⟩

theorem memOffset_eq (f : Fields) (n : Nat) : memOffset f n =
    if f.form = .base then (f.b.signExtend 64) * BitVec.ofNat 64 n else if f.bk = 0 then f.imm20.signExtend 64 else 0 := by
  unfold memOffset
  split
  · next form => rw [if_pos form]; rfl
  · next form =>
    rw [if_neg form]
    simp only [beq_iff_eq]
    rfl

/-- An address that is no multiple of the size stops the access before its translation. -/
theorem checkAccess_misaligned {q : Strand} {c : Check} (hc : s.cur = some u) (hs : s.strand? u = some q) (out : q.region = none)
    (bad : va.toNat % c.align ≠ 0) : checkAccess c va n s = (.error .done, ({ s with free := s.free + 1 } : State).takeTrap u
      Cause.alignment ((Config.freeWord s.free).toNat % 2 ^ 32) q.pc va) :=
  checkAccess_trapsFree hc hs out (by rw [State.accessProblem, if_pos (by simpa using bad)])

/-! ### LD (10 R217) -/

theorem extended_eq (signed : Bool) (n v : Nat) :
    extended signed n v = if signed then BitVec.ofInt 64 (toSigned (8 * n) v) else BitVec.ofNat 64 v := rfl

/-- Where the bytes of a load come from, and that memory is not changed for it. -/
theorem loadBytes_bytes (hc : s.cur = some u) (hs : s.strand? u = some st) (load : loadBytes x va n s = (.ok bytes, t)) :
    bytes = if s.pathOf x = .managed then t.swmRead st.core x.pa n else Memory.getBytes s.mem x.pa n := by
  by_cases path : s.pathOf x = .managed
  · rw [if_pos path]
    exact (loadBytes_managed hc hs load path).2
  · rw [if_neg path, loadBytes_home hc hs load path, ((loadBytes_calm ..).calm load).still]

/-- Settles O13: address, check and bytes by what they read, the end by the strand that they leave; a misaligned address stops at the check. -/
theorem loads : Obligations.Loads := by
  constructor
  · intro s s1 s2 t u st f va x bytes h n addr check load
    have reads := h.quiet_two (address_quiet f n) (checkAccess_quiet ..) addr check
    obtain ⟨k, traffic⟩ := reads.next h (loadBytes_calm ..).quietAct load
    have i := h.after traffic
    obtain ⟨_, i2⟩ := reads.issues h
    obtain ⟨a, read, rfl⟩ := address_ok addr
    refine ⟨⟨a, s1, read, by rw [memOffset_eq]⟩, ?_, k, traffic, ((loadBytes_calm ..).calm load).still, Act.outcome_done ?_⟩
    · simpa using loadBytes_bytes i2.issuer i2.strand load
    · refine (issue_run h ..).trans ((Act.bind_ok addr).trans ((Act.bind_ok check).trans ((Act.bind_ok load).trans ?_)))
      rw [Act.bind_ok (writeX_run i.issuer i.strand i.outside ..), extended_eq]
      exact finishReply_set_run i.issuer (by exact i.outside) f
  · intro s r t u st f v va h n bad
    refine ⟨(Config.freeWord t.free).toNat % 2 ^ 32, fun addr => ?_, fun full addr => ?_⟩
    · obtain ⟨k, i⟩ := ((address_quiet f n).quiet h.issuer h.strand h.outside addr).issues h
      have stops := checkAccess_misaligned (c := Check.load n) (n := n) i.issuer i.strand i.outside bad
      rw [Strand.slowed_pc] at stops
      exact ld_stopped h addr stops
    · obtain ⟨k, i⟩ := (readX_address_quiet h full addr).issues h
      have stops := checkAccess_misaligned (c := Check.store n) (n := n) i.issuer i.strand i.outside bad
      rw [Strand.slowed_pc] at stops
      exact st_stopped h full addr stops

/-! ### ST (10 R217) -/

theorem Quiet.waiters (quiet : Quiet s u st t) (nobody : s.waiters = []) : t.waiters = [] := by
  obtain ⟨k, traffic⟩ := quiet
  rw [traffic.waiters]
  cases k <;> exact nobody

theorem Stored.issuing (h : Stored s u st t) (hc : s.cur = some u) (out : st.region = none) : t.issuing u = (some u, some true) := by
  obtain ⟨st', vt, there, same⟩ := h.strand
  exact State.issuing_iff.mpr ⟨h.cur.trans hc, st', there, by rw [same]; exact out⟩

/-- Settles O14: what the store leaves is what `storeBytes` leaves of the state in which its checks have passed. -/
theorem stores : Obligations.Stores := by
  intro s s1 s2 s3 t u st f v va x h n bytes full addr check store nobody up
  have quiet := (readX_address_quiet h full addr).next h (checkAccess_quiet ..) check
  obtain ⟨k, i⟩ := quiet.issues h
  obtain ⟨stored, mem⟩ := storeBytes_effect i.issuer i.strand (quiet.waiters nobody) up store
  obtain ⟨st', vt, there, same⟩ := stored.strand
  refine ⟨quiet, mem, fun a outside => ?_, ⟨k, vt, st', there, same⟩, Act.outcome_done ?_⟩
  · rw [mem]
    split
    · rfl
    · exact Memory.get_setBytes_other _ _ _ _ (by simpa [bytes] using outside)
  · refine (issue_run h ..).trans ((Act.bind_ok full).trans ((Act.bind_ok addr).trans ((Act.bind_ok check).trans ((Act.bind_ok store).trans ?_))))
    exact finishReply_issuing (stored.issuing i.issuer i.outside) f

end Sys2Proof.Machine
end

section
/-!
ACCESSES TO OTHER MODULES (O16).

Behind its operands an LDX is `ldxTail` and an STX is `stxTail`. Each ends by whether the module is reached, and then by whether the pause or the
full stream of operations holds it back.
-/

namespace Sys2Proof.Machine

variable {s s1 s2 r t : State} {u n : Nat} {st : Strand} {f : Fields} {a b v va : Word} {job m c : Nat}

/-! ### Checks and waits (10 R220, 24 R411, R420) -/

theorem checkRemote_passes (aligned : va.toNat % n = 0) (low : va.toNat < 2 ^ 57) : checkRemote va n s = (.ok (), s) := by
  rw [checkRemote, aligned, if_neg (by decide), if_neg (by omega)]
  rfl

section
variable (i : Issues s u st f)
include i

theorem waitToSend_free (goes : Sparse.get s.pausing job = none) (room : s.unackedTo u m < 64) : waitToSend job m s = (.ok (), s) := by
  rw [waitToSend, Act.bind_ok (me_run i.issuer), Act.bind_ok (readS_run ..), goes, if_neg (by decide)]
  dsimp only
  rw [Act.bind_ok (readS_run ..), if_neg (by omega)]
  rfl

theorem waitToSend_paused (paused : (Sparse.get s.pausing job).isSome) :
    waitToSend job m s = (.error .done, s.leave u .parked .pause 15) := by
  rw [waitToSend, Act.bind_ok (me_run i.issuer), Act.bind_ok (readS_run ..), if_pos paused]
  exact Act.bind_error (park_run i.issuer i.strand i.outside _)

theorem waitToSend_full (goes : Sparse.get s.pausing job = none) (full : 64 ≤ s.unackedTo u m) :
    waitToSend job m s = (.error .done, s.leave u .parked (.window m) 15) := by
  rw [waitToSend, Act.bind_ok (me_run i.issuer), Act.bind_ok (readS_run ..), goes, if_neg (by decide)]
  dsimp only
  rw [Act.bind_ok (readS_run ..), if_pos full]
  exact park_run i.issuer i.strand i.outside _

/-! ### The packet (24 R407, R411) -/

theorem sendPacket_run (ty : Nat) (mode board : Nat) (aux : Word) (words : List Word) :
    sendPacket f ty job m va mode board aux words s = (.ok (), s.sends u st f ty
      { dst := m, src := s.selfModule, job := job, seq := (Sparse.get st.streamSeq m).getD 0, addr := va, mode := mode, board := board,
        strand := st.sid, epoch := st.epoch, aux := aux, words := words }) := by
  rw [sendPacket, Act.bind_ok (me_run i.issuer), Act.bind_ok (self_run i.issuer i.strand),
    Act.bind_ok (inAccess_run i.issuer i.strand i.outside)]
  rfl

end

/-- The strand that has sent a packet goes on issuing. -/
theorem sends_issuing {ty : Nat} {p : Packet} (hc : s.cur = some u) (out : st.region = none) :
    (s.sends u st f ty p).issuing u = (some u, some true) := State.issuing_iff.mpr ⟨hc, _, State.strand_set .., out⟩

/-! ### LDX behind its operands -/

/-- What LDX does once it may send, by the leased copy that answers it. -/
def ldxAnswer (f : Fields) (va : Word) (job m : Nat) (copy : Option Word) : Act Unit :=
  match copy with
  | some v => do
    writeX f.d.toNat v
    finishReply f
  | none => do
    sendPacket f 0x01 job m va f.m.toNat 0 0 (if f.m = 0 ∧ f.h = 3 then [3] else [])
    park .packet

/-- What LDX does at a module that its job reaches. -/
def ldxReached (f : Fields) (va : Word) (job m : Nat) : Act Unit := do
  waitToSend job m
  ldxAnswer f va job m (← readS fun s => if f.m = 0 ∧ f.h ≠ 3 then s.leasedWord job m va.toNat else none)

/-- LDX behind its operands, for the context and the module number that it names. -/
def ldxTail (f : Fields) (ctx n : Nat) (va : Word) : Act Unit := do
  match (← readS id).reach ctx n with
  | .error c => trapAt Cause.remoteLoadFail c va
  | .ok (job, m) => ldxReached f va job m

theorem ldx_leads (h : Issues s u st f) (readA : operandX false f.a f.ta s = (.ok a, s1)) (readB : operandB f s1 = (.ok b, t))
    (aligned : (a + imm20Offset f).toNat % 8 = 0) (low : (a + imm20Offset f).toNat < 2 ^ 57) :
    execLdx f s = (ldxTail f st.ctx (b.toNat % 4096) (a + imm20Offset f)).outcome t := by
  refine Act.outcome_congr ((issue_run h ..).trans ?_)
  rw [Act.bind_ok (self_run h.issuer h.strand), Act.bind_ok readA, Act.bind_ok readB, Act.bind_ok (checkRemote_passes aligned low)]
  simp only [ldxTail, ldxReached, ldxAnswer, Bool.and_eq_true, beq_iff_eq, bne_iff_ne] <;> rfl

theorem ldxTail_reached (reached : s.reach st.ctx n = .ok (job, m)) : ldxTail f st.ctx n va s = ldxReached f va job m s := by
  rw [ldxTail, Act.bind_ok (readS_run ..), id, reached]

section
variable (i : Issues s u st f)
include i

theorem ldxTail_unreached (fails : s.reach st.ctx n = .error c) :
    ldxTail f st.ctx n va s = (.error .done, s.takeTrap u Cause.remoteLoadFail c st.pc va) := by
  rw [ldxTail, Act.bind_ok (readS_run ..), id, fails]
  exact trapAt_run i.issuer i.strand i.outside ..

theorem ldxReached_free (goes : Sparse.get s.pausing job = none) (room : s.unackedTo u m < 64) : ldxReached f va job m s =
    ldxAnswer f va job m (if f.m = 0 ∧ f.h ≠ 3 then s.leasedWord job m va.toNat else none) s := by
  rw [ldxReached, Act.bind_ok (waitToSend_free i goes room), Act.bind_ok (readS_run ..)]

/-- Without a leased copy the packet is sent, and its response waited for. -/
theorem ldxAnswer_none : ldxAnswer f va job m none s = (.error .done, (s.sends u st f 1
    { dst := m, src := s.selfModule, job := job, seq := (Sparse.get st.streamSeq m).getD 0, addr := va, mode := f.m.toNat, board := 0,
      strand := st.sid, epoch := st.epoch, aux := 0, words := if f.m = 0 ∧ f.h = 3 then [3] else [] }).leave u .parked .packet 2) := by
  rw [ldxAnswer, Act.bind_ok (sendPacket_run i ..)]
  exact park_issuing (sends_issuing i.issuer i.outside) _

theorem ldxAnswer_some : ldxAnswer f va job m (some v) s = (.error .done, (s.setStrand u ((st.gives f.d.toNat v).done f)).replies u) := by
  rw [ldxAnswer, Act.bind_ok (writeX_run i.issuer i.strand i.outside ..)]
  exact finishReply_set_run i.issuer (by exact i.outside) f

end

/-! ### STX behind its operands -/

/-- What STX does at a module that its job reaches. -/
def stxReached (f : Fields) (va v : Word) (job m : Nat) : Act Unit := do
  waitToSend job m
  editS fun s => s.dropLeased job m va.toNat
  sendPacket f 0x02 job m va f.m.toNat 0 0 [v]
  finish f

def stxTail (f : Fields) (u : Nat) (st : Strand) (n : Nat) (va v : Word) : Act Unit := do
  match (← readS id).reach st.ctx n with
  | .error c =>
    editS fun s => s.errorEntry (some u) st.ctx va n 1 c st.sid
    finish f
  | .ok (job, m) => stxReached f va v job m

theorem stx_leads (h : Issues s u st f) (readD : readX f.d.toNat s = (.ok v, s1)) (readA : operandX false f.a f.ta s1 = (.ok a, s2))
    (readB : operandB f s2 = (.ok b, t)) (aligned : (a + imm20Offset f).toNat % 8 = 0) (low : (a + imm20Offset f).toNat < 2 ^ 57) :
    execStx f s = (stxTail f u st (b.toNat % 4096) (a + imm20Offset f) v).outcome t := by
  refine Act.outcome_congr ((issue_run h ..).trans ?_)
  rw [Act.bind_ok (me_run h.issuer), Act.bind_ok (self_run h.issuer h.strand), Act.bind_ok readD, Act.bind_ok readA, Act.bind_ok readB,
    Act.bind_ok (checkRemote_passes aligned low)]
  rfl

theorem stxTail_reached (reached : s.reach st.ctx n = .ok (job, m)) : stxTail f u st n va v s = stxReached f va v job m s := by
  rw [stxTail, Act.bind_ok (readS_run ..), id, reached]

theorem stxTail_unreached (hs : s.issuing u = (some u, some true)) (fails : s.reach st.ctx n = .error c) :
    stxTail f u st n va v s = (.ok (), (s.errorEntry (some u) st.ctx va n 1 c st.sid).behind u f) := by
  rw [stxTail, Act.bind_ok (readS_run ..), id, fails]
  exact finish_issuing (State.errorEntry_issuing.trans hs) f

/-- An STX that nothing holds back drops the leased copy and goes on behind its packet. -/
theorem stxReached_free (i : Issues s u st f) (goes : Sparse.get s.pausing job = none) (room : s.unackedTo u m < 64) :
    stxReached f va v job m s = (.ok (), ((s.dropLeased job m va.toNat).sends u st f 2
      { dst := m, src := s.selfModule, job := job, seq := (Sparse.get st.streamSeq m).getD 0, addr := va, mode := f.m.toNat, board := 0,
        strand := st.sid, epoch := st.epoch, aux := 0, words := [v] }).behind u f) := by
  have dropped : Issues (s.dropLeased job m va.toNat) u st f := ⟨i.issuer, i.strand, i.outside, i.guard⟩
  rw [stxReached, Act.bind_ok (waitToSend_free i goes room), Act.bind_ok (editS_run ..), Act.bind_ok (sendPacket_run dropped ..)]
  exact finish_issuing (sends_issuing dropped.issuer dropped.outside) f

@[simp] theorem Strand.slowed_streamSeq (st : Strand) (k : Bool) : (st.slowed k).streamSeq = st.streamSeq := by cases k <;> rfl
@[simp] theorem Strand.slowed_sid (st : Strand) (k : Bool) : (st.slowed k).sid = st.sid := by cases k <;> rfl
@[simp] theorem Strand.slowed_epoch (st : Strand) (k : Bool) : (st.slowed k).epoch = st.epoch := by cases k <;> rfl

/-- Settles O16: behind its operands each access ends as its tail does, by the module, the pause, the stream and, for LDX, the leased copy. -/
theorem remoteAccesses : Obligations.RemoteAccesses := by
  intro s s1 s2 t u st f a b v job m c h va aligned low packet reached
  constructor
  · intro readA readB
    obtain ⟨k, traffic⟩ := h.quiet_two (operandX_quiet ..) (operandB_quiet f) readA readB
    have i := h.after traffic
    have leads := ldx_leads h readA readB aligned low
    have held {r : State} (there : reached) (waits : waitToSend job m t = (.error .done, r)) : execLdx f s = .next r := by
      refine leads.trans (Act.outcome_done ((ldxTail_reached there).trans ?_))
      rw [ldxReached, Act.bind_error waits]
    have free {r : State} (there : reached) (goes : Sparse.get t.pausing job = none) (room : t.unackedTo u m < 64)
        (answers : ldxAnswer f va job m (if f.m = 0 ∧ f.h ≠ 3 then t.leasedWord job m va.toNat else none) t = (.error .done, r)) :
        execLdx f s = .next r :=
      leads.trans (Act.outcome_done ((ldxTail_reached there).trans ((ldxReached_free i goes room).trans answers)))
    refine ⟨k, traffic, fun there goes room => ⟨fun missing => ?_, fun w found => ?_⟩, fun there paused => held there (waitToSend_paused i paused),
      fun there goes full => held there (waitToSend_full i goes full), fun fails => ?_⟩
    · have sent := ldxAnswer_none (va := va) (job := job) (m := m) i
      rw [Strand.slowed_streamSeq, Strand.slowed_sid, Strand.slowed_epoch] at sent
      exact free there goes room ((congrArg (ldxAnswer f va job m · t) missing).trans sent)
    · exact free there goes room ((congrArg (ldxAnswer f va job m · t) found).trans (ldxAnswer_some i))
    · have trap := ldxTail_unreached (n := b.toNat % 4096) (va := va) i (by rw [Strand.slowed_ctx]; exact fails)
      rw [Strand.slowed_ctx, Strand.slowed_pc] at trap
      exact leads.trans (Act.outcome_done trap)
  · intro readD readA readB
    obtain ⟨k, traffic⟩ := (h.quiet_two (readX_quiet _) (operandX_quiet ..) readD readA).next h (operandB_quiet f) readB
    have i := h.after traffic
    have leads := stx_leads h readD readA readB aligned low
    have held {r : State} (there : reached) (waits : waitToSend job m t = (.error .done, r)) : execStx f s = .next r := by
      refine leads.trans (Act.outcome_done ((stxTail_reached there).trans ?_))
      rw [stxReached, Act.bind_error waits]
    refine ⟨k, traffic, fun there goes room => ?_, fun there paused => held there (waitToSend_paused i paused),
      fun there goes full => held there (waitToSend_full i goes full), fun fails => ?_⟩
    · have sent := stxReached_free (va := va) (v := v) i goes room
      rw [Strand.slowed_streamSeq, Strand.slowed_sid, Strand.slowed_epoch] at sent
      exact leads.trans (Act.outcome_ok ((stxTail_reached there).trans sent))
    · exact leads.trans (Act.outcome_ok (stxTail_unreached i.issuing fails))

end Sys2Proof.Machine
end

section
/-!
WAITS OF SYNCHRONISING ACCESSES (O15, O23).

An access that has to wait takes its number after the order has been counted up, so that the two statements, which give it the number that the
order had when its checks had passed, fail at every wait. The state below is one: a strand alone in the module whose word is empty.
-/

namespace Sys2Proof.Machine

variable {s t : State} {u : Nat} {st : Strand} {f : Fields} {kind : WaitKind} {x : Xlat} {va : Word} {w : Waiter}

theorem WaitKind.met_order (n a : Nat) : kind.met { s with order := n } a = kind.met s a := by cases kind <;> rfl

theorem State.leave_waiters (hs : s.strand? u = some st) (p : SState) (a : Await) (why : Nat) : (s.leave u p a why).waiters = s.waiters := by
  obtain ⟨_, _, _, same⟩ := State.leave_frame hs p a why
  rw [same]

theorem addWaiter_park_run (i : Issues s u st f) (w : Waiter) (a : Await) : ∃ t,
    (do editS fun s => { s with waiters := s.waiters ++ [w] }
        park a : Act Unit) s = (.error .done, t) ∧ t.waiters = s.waiters ++ [w] :=
  ⟨_, (Act.bind_ok (editS_run ..)).trans (park_run (s := { s with waiters := s.waiters ++ [w] }) i.issuer i.strand i.outside a),
    State.leave_waiters (s := { s with waiters := s.waiters ++ [w] }) i.strand ..⟩

/-- An access whose wait is not met is listed or retried under the number behind the order that it has found. -/
theorem startWait_unmet (i : Issues s u st f) (unmet : kind.met s x.pa = false) :
    ∃ t w, startWait f kind x va s = (.error .done, t) ∧ t.waiters = s.waiters ++ [w] ∧ w.no = s.order + 1 := by
  rw [startWait, Act.bind_ok (me_run i.issuer), Act.bind_ok (self_run i.issuer i.strand),
    Act.bind_ok (inAccess_run i.issuer i.strand i.outside), Act.bind_ok (editS_run ..), Act.bind_ok (readS_run ..)]
  generalize counted : ({ s with order := s.order + 1 } : State) = r
  have later : Issues r u st f := by
    subst counted
    exact ⟨i.issuer, i.strand, i.outside, i.guard⟩
  have same : r.waiters = s.waiters ∧ r.order = s.order + 1 ∧ kind.met r x.pa = false := by
    subst counted
    exact ⟨rfl, rfl, (WaitKind.met_order ..).trans unmet⟩
  obtain ⟨list, order, unmet⟩ := same
  dsimp only [id]
  rw [if_neg (by rw [unmet]; exact Bool.false_ne_true), ← list, ← order]
  split
  all_goals
    obtain ⟨t, parks, waits⟩ := addWaiter_park_run later _ _
    exact ⟨t, _, parks, waits, rfl⟩

/-- So no other state, and no waiter of the old number, is what such an access leaves. -/
theorem startWait_number (i : Issues s u st f) (unmet : kind.met s x.pa = false) (ends : (startWait f kind x va).outcome s = .next t)
    (list : t.waiters = s.waiters ++ [w]) : w.no ≠ s.order := by
  obtain ⟨t', w', waits, list', no⟩ := startWait_unmet (va := va) i unmet
  cases (Act.outcome_done waits).symm.trans ends
  cases (List.append_cancel_left (list'.symm.trans list))
  omega

/-- A run in two parts: its value and the state that it leaves. -/
theorem Act.run_of_value {α : Type} {act : Act α} {v : α} (value : (act s).1 = .ok v) : act s = (.ok v, (act s).2) := Prod.ext value rfl

/-! ### A strand at an empty word -/

namespace EmptyWord

/-- Strand 0 on core 0, whose software-managed range holds the word at 0x2000: it needs no launch. -/
def strand : Strand := { Strand.blank with place := .slot 0, state := .run, swBase := 0x2000, swLen := 8 }

/-- The word at 0x2000 is empty, and the TLB of the core has its page. -/
def start : State :=
  { State.reset with
    ctxs := [(0, Ctx.fresh none 0 0 Rect.module.leafId 0)]
    strands := [(0, strand)]
    cores := [(0, { Core.fresh 0 with tlb := [{ ctx := 0, page := 0, bits := 30, leaf := 0x1BF, at_ := 0 }] })]
    cur := some 0
    empties := [0x400] }

/-- An access to 0 + 0x2000. -/
def fields : Fields :=
  { form := .ext, d := 0, a := 0, b := 0, m := 0, c := 0, e := 0, guard := .none, h := 0, ta := 0, tb := 0, x := 0, fmt := 0, rnd := 0,
    bk := 0, imm20 := 0x2000 }

/-- The translation of the word. -/
def place : Xlat := { pa := 0x2000, mig := false, mside := false, rmap := false, swm := false, tid := 0 }

/-- What the checks leave of the state. -/
def passed : State := (checkAccess (Check.sync true) 0x2000 8 start).2

theorem issues : Issues start 0 strand fields := ⟨rfl, rfl, rfl, rfl⟩


theorem issues_passed : Issues passed 0 strand fields := ⟨by decide +kernel, by decide +kernel, rfl, rfl⟩

theorem empty : passed.isFull place.pa = false := by decide +kernel

/-- Register x0 as operand A, and as operand B of a BARW. -/
theorem read : operandX false fields.a fields.ta start = (.ok 0, start) :=
  readX_run (u := 0) (st := strand) rfl rfl rfl (by decide)

theorem address_run : address fields 8 start = (.ok 0x2000, start) := by
  rw [address, Act.bind_ok read]
  exact Prod.ext (by decide +kernel) rfl

theorem check : checkAccess (Check.sync true) 0x2000 8 start = (.ok place, passed) := by
  rw [passed]
  exact Act.run_of_value (by decide +kernel)

/-- Behind the checks an access of the word waits under a number that is not the one of the statements. -/
theorem number {act : Act Unit} {kind : WaitKind} (issues : act start = startWait fields kind place 0x2000 passed)
    (unmet : kind.met passed place.pa = false) (ends : act.outcome start = .next t) (list : t.waiters = passed.waiters ++ [w]) :
    w.no ≠ passed.order :=
  startWait_number issues_passed unmet ((Act.outcome_congr issues).symm.trans ends) list

theorem ldf_run : syncLoad fields .ldf true .access start = startWait fields .ldf place 0x2000 passed :=
  (issue_run issues ..).trans ((Act.bind_ok address_run).trans (Act.bind_ok check))

theorem barw_run : barrier fields true .barw start = startWait fields (.barw 0) place 0x2000 passed := by
  refine (issue_run issues ..).trans ((Act.bind_ok read).trans ((Act.bind_ok read).trans ?_))
  have target : 0 + imm20Offset fields = 0x2000 := by decide
  rw [target]
  exact Act.bind_ok check

end EmptyWord

open EmptyWord in
/-- Refutes O15: LDF of the empty word is listed under number 1, and the order was 0 when its checks had passed. -/
theorem not_syncAccesses : ¬ Obligations.SyncAccesses := by
  rintro ⟨-, waits⟩
  obtain ⟨t, -, w, -, ends, list, -, -, -, no, -⟩ :=
    waits start start start passed 0 strand fields 0 0x2000 place _ .ldf issues (.inl ⟨.inl ⟨rfl, rfl⟩, address_run, check, empty⟩)
  exact number (kind := .ldf) ldf_run empty ends list no

open EmptyWord in
/-- Refutes O23: BARW of the empty word is listed under number 1, and the order was 0 when its checks had passed. -/
theorem not_barriersAndPresence : ¬ Obligations.BarriersAndPresence := by
  rintro ⟨words, -⟩
  have waits := (words start start start passed 0 strand fields 0 0 place issues rfl rfl read read).2.1
  obtain ⟨t, -, w, -, ends, list, -, -, -, no, -⟩ := waits check (.inl empty)
  exact number barw_run (by rw [WaitKind.met, empty, Bool.false_and]) ends list no

end Sys2Proof.Machine
end

section
/-!
ATOMICS AT THEIR HOME (O18).

The way to the place leaves the strand but for its watches and its wait; at the place the old word is read, and `atomicValue` says whether a
new one is written, and which. The thirteen instructions then differ in their row of `atomicValue` alone.
-/

namespace Sys2Proof.Machine

variable {s s1 s2 s3 s4 s5 t : State} {u : Nat} {st : Strand} {f : Fields} {va b c d : Word} {x : Xlat} {i : Instr}

/-! ### The place of an atomic (10 R226) -/

theorem zoneOf_eq_tier (n pa : Nat) : zoneOf n pa = .tier ↔ 0x100000000000 ≤ pa ∧ pa < 0x100000000000 + n * 2 ^ 30 := by
  simp only [zoneOf, Bool.and_eq_true, decide_eq_true_eq]
  constructor
  · intro zone
    by_contra out
    rw [if_neg out] at zone
    split_ifs at zone
  · intro tier
    rw [if_neg (by omega), if_pos tier]

/-- A line lies whole in a zone and a tier. -/
theorem State.tierDown_line (s : State) (pa : Nat) : s.tierDown (lineOf pa * 128) = s.tierDown pa := by
  have zone : zoneOf s.tierCap (lineOf pa * 128) = .tier ↔ zoneOf s.tierCap pa = .tier := by
    simp only [zoneOf_eq_tier, lineOf]
    omega
  have tier : bitsOf (lineOf pa * 128) 20 19 = bitsOf pa 20 19 := by
    simp only [bitsOf, lineOf, Nat.shiftRight_eq_div_pow]
    omega
  rw [State.tierDown, State.tierDown, tier, Bool.eq_iff_iff]
  simp only [Bool.and_eq_true, beq_iff_eq, zone]

/-- The dirty bytes of a SWMANAGED copy at the home, and the copy without a dirty byte; other COHERENT copies keep the bytes they have. -/
def State.bringsHome (s : State) (core line : Nat) (bytes : List (BitVec 8)) (mask : BitVec 128) : State :=
  let s := s.keepCopies line
  let mem := (List.range 128).foldl (fun m i => if mask.getLsbD i then Memory.set m (line * 128 + i) (bytes.getD i 0) else m) s.mem
  let whole := (List.range 16).filter fun w => (mask >>> (8 * w)).toNat % 256 == 255
  let s := { s with mem := mem, poison := s.poison.filter fun p => !(whole.any fun w => p == line * 16 + w) }
  s.setL1 core line { state := .exclusive, reader := none, swm := some (bytes, 0), bad := s.swmBad core line }

section
variable {core line : Nat} {bytes : List (BitVec 8)} {mask : BitVec 128}

theorem swmWriteBack_clean (clean : ∀ copy, (s.l1 core line).bind (·.swm) = some copy → copy.2 = 0) : s.swmWriteBack core line = s := by
  unfold State.swmWriteBack
  split
  · rfl
  · next bytes mask copy => rw [if_pos (clean _ copy)]

theorem swmWriteBack_dirty (copy : (s.l1 core line).bind (·.swm) = some (bytes, mask)) (dirty : mask ≠ 0)
    (up : s.tierDown (line * 128) = false) :
    s.swmWriteBack core line = (s.bringsHome core line bytes mask).written (line * 128) 128 := by
  rw [State.swmWriteBack, copy]
  dsimp only
  rw [if_neg dirty, up, if_neg Bool.false_ne_true]
  rfl

/-- Dirty bytes that go home while nothing waits, to a tier whose link is up, wake strands at the most. -/
theorem swmWriteBack_strand (hs : s.strand? u = some st) (nobody : s.waiters = []) (up : s.tierDown (line * 128) = false) :
    ∃ st', (s.swmWriteBack core line).strand? u = some st' ∧ st.SameButWait st' := by
  by_cases clean : ∀ copy, (s.l1 core line).bind (·.swm) = some copy → copy.2 = 0
  · rw [swmWriteBack_clean clean]
    exact ⟨st, hs, .refl st⟩
  · push Not at clean
    obtain ⟨⟨bytes, mask⟩, copy, dirty⟩ := clean
    rw [swmWriteBack_dirty copy dirty up]
    exact (fired_written (s := s.bringsHome core line bytes mask) nobody ..).strand hs

end

theorem swmDrop_strand {core line : Nat} : (s.swmDrop core line).strand? u = s.strand? u := by
  unfold State.swmDrop
  split <;> rfl

theorem placeAtomic_strand (hc : s.cur = some u) (hs : s.strand? u = some st) (nobody : s.waiters = []) (up : s.tierDown x.pa = false)
    (place : placeAtomic x s = (.ok (), t)) : t.cur = some u ∧ ∃ st', t.strand? u = some st' ∧ st.SameButWait st' := by
  have calm {r : State} (c : Calm s r) : r.cur = some u ∧ ∃ st', r.strand? u = some st' ∧ st.SameButWait st' :=
    ⟨c.toTraffic.cur.trans hc, st, (c.toTraffic.strand u).trans hs, .refl st⟩
  rw [placeAtomic, Act.bind_ok (self_run hc hs), Act.bind_ok (readS_run ..)] at place
  cases path : s.pathOf x with
  | home =>
    simp only [path] at place
    cases place
    exact calm (.refl s)
  | managed =>
    simp only [path] at place
    cases place
    obtain ⟨st', there, same⟩ := swmWriteBack_strand (s := s.keepCopies (lineOf x.pa)) (core := st.core) (line := lineOf x.pa) hs nobody
      ((State.tierDown_line ..).trans up)
    refine ⟨?_, st', swmDrop_strand.trans there, same⟩
    exact (congrArg Prod.fst (State.swmDrop_issuing.trans (State.swmWriteBack_issuing (u := u)))).trans hc
  | coherent =>
    simp only [path] at place
    rw [Act.bind_ok (readS_run ..)] at place
    exact calm ((CalmAct.ite (.editS fun s => calm_getM ..) (.ite (.editS fun s => (calm_predict ..).trans (calm_getM ..))
      (.editS fun s => (calm_predict ..).trans (calm_invalidateAll ..)))).calm place)

/-! ### At the place -/

/-- What an atomic leaves that has found `old` in its `n` bytes, where `writes` says whether it writes `new`. -/
def AtomicEnds (s t : State) (u : Nat) (st : Strand) (f : Fields) (pa n : Nat) (i : Instr) (writes : Prop) (new : Nat) : Prop :=
  ∃ (t' : State) (st' : Strand) (k : Bool) (vt : BitVec 64), t'.strand? u = some st' ∧
    Strand.SameButWait { st.slowed k with visMax := vt, phase := st.phase + 1 } st' ∧
    (writes → t'.mem = Memory.setBytes t.mem pa (Memory.toBytes n new)) ∧ (¬ writes → t'.mem = t.mem ∧ vt = st.visMax) ∧
    t'.empties = t.empties ∧ exec i s = .next ((t'.giving u f f.d.toNat (BitVec.ofNat 64 (t.load pa n))).replies u)

/-- The word takes its new value, if one is written, and the strand's phase goes on. -/
def State.atomicStep (s : State) (u pa n : Nat) (r : Bool × Nat) : State :=
  (if r.1 then (s.noteVt u pa).storeAt pa n r.2 else s).release u

theorem storeAt_fired {pa n v : Nat} (nobody : s.waiters = []) : ∃ r : State, Fired r (s.storeAt pa n v) ∧ r.strands = s.strands ∧
    r.mem = Memory.setBytes s.mem pa (Memory.toBytes n v) ∧ r.empties = s.empties := by
  unfold State.storeAt
  split
  · exact ⟨_, fired_written (s := (s.store pa n v).clearPoison pa) nobody .., rfl, rfl, rfl⟩
  · exact ⟨_, fired_written (s := s.store pa n v) nobody .., rfl, rfl, rfl⟩

theorem Fired.mem (h : Fired s t) : t.mem = s.mem := by
  obtain ⟨_, _, _, rfl⟩ := h.frame
  rfl

theorem Fired.empties (h : Fired s t) : t.empties = s.empties := by
  obtain ⟨_, _, _, rfl⟩ := h.frame
  rfl

theorem storeAt_issuing {pa n v : Nat} : (s.storeAt pa n v).issuing u = s.issuing u := by
  unfold State.storeAt
  refine State.written_issuing.trans ?_
  split <;> rfl

theorem atomicStep_issuing {pa n : Nat} {r : Bool × Nat} : (s.atomicStep u pa n r).issuing u = s.issuing u := by
  unfold State.atomicStep
  refine State.release_issuing.trans ?_
  split
  · exact storeAt_issuing.trans State.noteVt_issuing
  · rfl

theorem atomicStep_effect {pa n : Nat} {r : Bool × Nat} (hs : s.strand? u = some st) (nobody : s.waiters = []) :
    ∃ st' vt, (s.atomicStep u pa n r).strand? u = some st' ∧ Strand.SameButWait { st with visMax := vt, phase := st.phase + 1 } st' ∧
      (r.1 → (s.atomicStep u pa n r).mem = Memory.setBytes s.mem pa (Memory.toBytes n r.2)) ∧
      (¬ r.1 → (s.atomicStep u pa n r).mem = s.mem ∧ vt = st.visMax) ∧ (s.atomicStep u pa n r).empties = s.empties := by
  unfold State.atomicStep
  cases writes : r.1 with
  | true =>
    obtain ⟨vt, noted⟩ := noteVt_strand hs pa
    obtain ⟨ss, frame⟩ := noteVt_frame s u pa
    have waits : (s.noteVt u pa).waiters = [] := by rw [frame]; exact nobody
    obtain ⟨q, fired, strands, mem, empties⟩ := storeAt_fired (pa := pa) (n := n) (v := r.2) waits
    obtain ⟨st', there, same⟩ := fired.strand (u := u) (by rw [State.strand?, strands]; exact noted)
    simp only [if_true, State.release_eq there]
    refine ⟨_, vt, State.strand_set .., ?_, fun _ => ?_, by simp, ?_⟩
    · rw [same]
      rfl
    · exact fired.mem.trans (by rw [mem, frame])
    · exact fired.empties.trans (by rw [empties, frame])
  | false =>
    simp only [Bool.false_eq_true, if_false, State.release_eq hs]
    exact ⟨_, st.visMax, State.strand_set .., .refl _, by simp, fun _ => ⟨rfl, rfl⟩, rfl⟩

/-! ### The common course (10 R224, R225) -/

def atomicBytes (f : Fields) : Nat := if f.m = 2 ∨ f.m = 6 then 4 else 8

theorem atomicBytes_eq (here : f.m.getLsbD 3 = false) : (if f.m.toNat % 4 == 2 then 4 else 8) = atomicBytes f := by
  revert here
  rw [atomicBytes]
  generalize f.m = m
  revert m
  decide

/-- Which values go into the operation: those of the operands, cut to the width. -/
def atomicResult (f : Fields) (op n old : Nat) (b c d : Word) : Bool × Nat :=
  let cut (v : Word) : Nat := v.toNat % 2 ^ (8 * n)
  atomicValue op f.x.toNat f.m.toNat (8 * n) old (cut b) (cut c) (cut d)

/-- An atomic of the module behind its operands. -/
theorem atomic_run {op : Nat} {usesC readsD : Bool} (h : Issues s u st f) (nobody : s.waiters = []) (here : f.m.getLsbD 3 = false)
    (readA : operandX false f.a f.ta s = (.ok va, s1)) (readB : operandB f s1 = (.ok b, s2))
    (readC : (if usesC then readX f.c.toNat else pure 0) s2 = (.ok c, s3))
    (readD : (if readsD then readX f.d.toNat else pure 0) s3 = (.ok d, s4))
    (check : checkAccess (Check.atom (atomicBytes f)) va (atomicBytes f) s4 = (.ok x, s5)) (up : s5.tierDown x.pa = false)
    (place : placeAtomic x s5 = (.ok (), t)) (nobodyThere : t.waiters = []) (clean : t.poisoned x.pa (atomicBytes f) = false)
    (runs : exec i s = (atomic f op usesC readsD).outcome s) {writes : Prop} {new : Nat}
    (answers : (atomicResult f op (atomicBytes f) (t.load x.pa (atomicBytes f)) b c d).1 = true ↔ writes)
    (value : (atomicResult f op (atomicBytes f) (t.load x.pa (atomicBytes f)) b c d).2 = new) :
    AtomicEnds s t u st f x.pa (atomicBytes f) i writes new := by
  have reads {p : Bool} {r : Nat} : QuietAct (if p then readX r else pure 0) := by
    cases p
    · exact .pure _
    · exact readX_quiet _
  have quiet := (((h.quiet_two (operandX_quiet ..) (operandB_quiet f) readA readB).next h reads readC).next h reads readD).next h
    (checkAccess_quiet ..) check
  obtain ⟨k, i5⟩ := quiet.issues h
  obtain ⟨issuer, q, there, same⟩ := placeAtomic_strand i5.issuer i5.strand (quiet.waiters nobody) up place
  generalize result : atomicResult f op (atomicBytes f) (t.load x.pa (atomicBytes f)) b c d = r at answers value
  obtain ⟨st', vt, found, after, wrote, kept, empties⟩ := atomicStep_effect (pa := x.pa) (n := atomicBytes f) (r := r) there nobodyThere
  refine ⟨t.atomicStep u x.pa (atomicBytes f) r, st', k, vt, found, ?_, fun w => ?_, fun w => ?_, empties, ?_⟩
  · rw [after, same]
    cases k <;> rfl
  · rw [wrote (answers.mpr w), value]
  · obtain ⟨mem, vis⟩ := kept fun w' => w (answers.mp w')
    refine ⟨mem, vis.trans ?_⟩
    rw [same]
    cases k <;> rfl
  · rw [runs]
    refine Act.outcome_done ((issue_run h ..).trans ?_)
    rw [Act.bind_ok (me_run h.issuer), atomicBytes_eq here, Act.bind_ok readA, Act.bind_ok readB, Act.ite_bind_ok readC]
    dsimp only
    rw [Act.ite_bind_ok readD, here, if_neg Bool.false_ne_true, Act.bind_ok check, Act.bind_ok (readS_run ..), up,
      if_neg Bool.false_ne_true, Act.bind_ok place, Act.bind_ok (readS_run ..), clean, if_neg Bool.false_ne_true,
      Act.bind_ok (readS_run ..)]
    subst result
    refine (Act.bind_ok (editS_run ..)).trans (writeX_finishReply (atomicStep_issuing.trans (State.issuing_iff.mpr ⟨issuer, q, there, ?_⟩)) ..)
    rw [same]
    exact i5.outside

/-! ### The operations -/

section
variable {n old : Nat}

theorem atomicResult_add : atomicResult f 0x98 n old b c d = (true, (old + b.toNat % 2 ^ (8 * n)) % 2 ^ (8 * n)) := rfl

theorem atomicResult_and (code : f.x = 0) : atomicResult f 0x99 n old b c d = (true, old &&& b.toNat % 2 ^ (8 * n)) := by
  rw [atomicResult, code]
  rfl

theorem atomicResult_or (code : f.x = 1) : atomicResult f 0x99 n old b c d = (true, old ||| b.toNat % 2 ^ (8 * n)) := by
  rw [atomicResult, code]
  rfl

theorem atomicResult_xor (code : f.x = 2) : atomicResult f 0x99 n old b c d = (true, old ^^^ b.toNat % 2 ^ (8 * n)) := by
  rw [atomicResult, code]
  rfl

theorem atomicResult_min (code : f.x = 0) : atomicResult f 0x9A n old b c d =
    (true, if toSigned (8 * n) (b.toNat % 2 ^ (8 * n)) < toSigned (8 * n) old then b.toNat % 2 ^ (8 * n) else old) := by
  rw [atomicResult, code]
  simp [atomicValue]

theorem atomicResult_max (code : f.x = 1) : atomicResult f 0x9A n old b c d =
    (true, if toSigned (8 * n) old < toSigned (8 * n) (b.toNat % 2 ^ (8 * n)) then b.toNat % 2 ^ (8 * n) else old) := by
  rw [atomicResult, code]
  simp [atomicValue]

theorem atomicResult_minu (code : f.x = 2) : atomicResult f 0x9A n old b c d = (true, min old (b.toNat % 2 ^ (8 * n))) := by
  rw [atomicResult, code]
  rfl

theorem atomicResult_maxu (code : f.x = 3) : atomicResult f 0x9A n old b c d = (true, max old (b.toNat % 2 ^ (8 * n))) := by
  rw [atomicResult, code]
  rfl

theorem atomicResult_gts : (atomicResult f 0x9D n old b c d).1 = true ↔
    if f.m.getLsbD 2 then old < b.toNat % 2 ^ (8 * n) else toSigned (8 * n) old < toSigned (8 * n) (b.toNat % 2 ^ (8 * n)) := by
  have unsigned : f.m.toNat % 8 ≥ 4 ↔ f.m.getLsbD 2 = true := by
    generalize f.m = m
    revert m
    decide
  simp only [atomicResult, atomicValue, unsigned]
  split <;> simp

theorem atomicResult_cas : (atomicResult f 0x9C n old b c d).1 = true ↔ old = c.toNat % 2 ^ (8 * n) := by simp [atomicResult, atomicValue]

theorem atomicResult_vcas : (atomicResult f 0x9E n old b c d).1 = true ↔
    old &&& c.toNat % 2 ^ (8 * n) = d.toNat % 2 ^ (8 * n) &&& c.toNat % 2 ^ (8 * n) := by simp [atomicResult, atomicValue]

/-- Lanes of the mask are added to by its lowest bit (10 R225). -/
theorem atomicResult_vcas_value {C : Nat} (mask : C = c.toNat % 2 ^ (8 * n)) : (atomicResult f 0x9E n old b c d).2 =
    (b.toNat % 2 ^ (8 * n) &&& (2 ^ (8 * n) - 1 - C)) ||| ((old &&& C) + (C &&& (2 ^ (8 * n) - C))) % 2 ^ (8 * n) &&& C := by
  have low : C < 2 ^ (8 * n) := by
    rw [mask]
    exact Nat.mod_lt _ (by positivity)
  have negated : C &&& (2 ^ (8 * n) - 1 - C + 1) % 2 ^ (8 * n) = C &&& (2 ^ (8 * n) - C) := by
    rcases Nat.eq_zero_or_pos C with none | some
    · rw [none, Nat.zero_and, Nat.zero_and]
    · rw [Nat.mod_eq_of_lt (by omega)]
      congr 1
      omega
  rw [← negated, mask]
  rfl

theorem atomicResult_pcas_value : (atomicResult f 0x9F n old b c d).2 =
    (b.toNat % 2 ^ (8 * n) &&& (2 ^ (8 * n) - 65536)) ||| ((c.toNat % 2 ^ (8 * n) % 65536 + 1) % 65536) := by
  rw [atomicResult, atomicValue, Nat.sub_sub]
  all_goals simp

theorem atomicResult_pcas : (atomicResult f 0x9F n old b c d).1 = true ↔ old = c.toNat % 2 ^ (8 * n) := by simp [atomicResult, atomicValue]

end

/-- Settles O18: each operation is the common course with its row of `atomicValue`. -/
theorem atomics : Obligations.Atomics := by
  intro s s1 s2 s3 s4 s5 t u st f va b c d x h nobody here n w cut int readA readB old B C E lands
  have lands_of {i : Instr} {op : Nat} {usesC readsD : Bool} {c d : Word} {q r : State} {writes : Prop} {new : Nat}
      (readC : (if usesC then readX f.c.toNat else pure 0) s2 = (.ok c, q)) (readD : (if readsD then readX f.d.toNat else pure 0) q = (.ok d, r))
      (runs : exec i s = (atomic f op usesC readsD).outcome s) (answers : (atomicResult f op n old b c d).1 = true ↔ writes)
      (value : (atomicResult f op n old b c d).2 = new) : lands i r writes new :=
    fun check up place nobodyThere clean => atomic_run h nobody here readA readB readC readD check up place nobodyThere clean runs answers value
  have plain {i : Instr} {op : Nat} {new : Nat} (runs : exec i s = (atomic f op false false).outcome s)
      (row : atomicResult f op n old b 0 0 = (true, new)) : lands i s2 True new :=
    lands_of (usesC := false) (readsD := false) rfl rfl runs (by rw [row]; simp) (by rw [row])
  refine ⟨plain rfl atomicResult_add, fun code => plain rfl (atomicResult_and code), fun code => plain rfl (atomicResult_or code),
    fun code => plain rfl (atomicResult_xor code), fun code => plain rfl (atomicResult_min code), fun code => plain rfl (atomicResult_max code),
    fun code => plain rfl (atomicResult_minu code), fun code => plain rfl (atomicResult_maxu code), plain (op := 0x9B) rfl rfl,
    lands_of (usesC := false) (readsD := false) (c := 0) (d := 0) rfl rfl rfl atomicResult_gts rfl, fun readC => ⟨?_, ?_, fun readD => ?_⟩⟩
  · exact lands_of (usesC := true) (readsD := false) (d := 0) readC rfl rfl atomicResult_cas rfl
  · exact lands_of (usesC := true) (readsD := false) (d := 0) readC rfl rfl atomicResult_pcas atomicResult_pcas_value
  · exact lands_of (usesC := true) (readsD := true) readC readD rfl atomicResult_vcas (atomicResult_vcas_value rfl)

end Sys2Proof.Machine
end

section
/-!
THE WRITES THAT FIRE WATCHES (O22, 10 R234, R235).

`fireLine` goes through the strands once. `Strand.Hears` is what a strand is on that way: its watches as they were or fired, and, where it
slept at one of them, asleep or ready; the entry of the strand itself settles both.
-/

namespace Sys2Proof.Machine

variable {s t : State} {u v n line : Nat} {st q : Strand} {heard : Bool}

/-- The watch is armed on the line. -/
def Watch.on (line : Nat) (w : Watch) : Bool := w.armed && w.line == line

def Watch.fires (line : Nat) (w : Watch) : Watch := if w.on line then { w with fired := true } else w

def Strand.fires (line : Nat) (st : Strand) : Strand := { st with watch := st.watch.map (Watch.fires line) }

/-- A slot of the mask that the strand sleeps with is armed on the line. -/
def Strand.sleepsAt (line : Nat) (st : Strand) : Bool := (List.range 8).any fun i => st.sleepMask.getLsbD i && (st.watch[i]?).any (Watch.on line)

/-- The strand is asleep where a write can make it ready. -/
def Strand.Asleep (st : Strand) : Prop := st.state = .sleep ∧ st.isSpilled = false ∧ st.woken = false

/-- What a write to the line does at one entry of the strands. -/
def State.fireEntry (line : Nat) (s : State) (e : Nat × Strand) : State :=
  if e.2.watch.toList.any (Watch.on line) then
    let s := s.editStrand e.1 (Strand.fires line)
    if e.2.state == .sleep && e.2.sleepsAt line then s.wake e.1 else s
  else s

theorem fireLine_eq (s : State) (line : Nat) : s.fireLine line = s.strands.foldl (State.fireEntry line) s := rfl

theorem Watch.fires_fires (w : Watch) : (w.fires line).fires line = w.fires line := by
  unfold Watch.fires
  split
  · split <;> rfl
  · rfl

theorem Strand.fires_fires (st : Strand) : (st.fires line).fires line = st.fires line := by
  simp only [Strand.fires, Vector.map_map]
  congr 2
  funext w
  exact w.fires_fires

theorem Strand.fires_off (off : st.watch.toList.any (Watch.on line) = false) : st.fires line = st := by
  have same : st.watch.map (Watch.fires line) = st.watch := by
    ext i h
    have : (st.watch[i]).on line = false := by
      simpa using List.any_eq_false.mp off st.watch[i] (by simp)
    simp [Watch.fires, this]
  rw [Strand.fires, same]

theorem Strand.sleepsAt_off (off : st.watch.toList.any (Watch.on line) = false) : st.sleepsAt line = false := by
  rw [Strand.sleepsAt, List.any_eq_false]
  intro i _
  have none : (st.watch[i]?).any (Watch.on line) = false := by
    by_cases h : i < 8
    · simpa [h] using List.any_eq_false.mp off st.watch[i] (by simp)
    · simp [h]
  simp [none]

/-! ### What a strand hears -/

structure Strand.Hears (line : Nat) (st q : Strand) (heard : Bool) : Prop where
  same : st.SameButWait q
  watch : q.watch = (st.fires line).watch ∨ heard = false ∧ q.watch = st.watch
  sleeper : st.Asleep → q.state = .ready ∨ q.Asleep ∧ (heard = true → st.sleepsAt line = false)

theorem Strand.Hears.refl (st : Strand) : st.Hears line st false := ⟨.refl st, .inr ⟨rfl, rfl⟩, fun asleep => .inr ⟨asleep, nofun⟩⟩

theorem Strand.Hears.fires_watch (h : st.Hears line q heard) : (q.fires line).watch = (st.fires line).watch := by
  obtain fired | ⟨-, kept⟩ := h.watch
  · exact (congrArg (Vector.map (Watch.fires line)) fired).trans (congrArg Strand.watch st.fires_fires)
  · exact congrArg (Vector.map (Watch.fires line)) kept

theorem Strand.Hears.fires (h : st.Hears line q heard) : st.Hears line (q.fires line) heard where
  same := h.same.trans rfl
  watch := .inl h.fires_watch
  sleeper := h.sleeper

/-- A strand that enters READY, or is woken in its spill record. -/
theorem enter_strand (q : Strand) : ∃ q', (State.wake.enter s u q).strand? u = some q' ∧ q.SameButWait q' ∧ q'.watch = q.watch ∧
    (q.isSpilled = false → q'.state = .ready) := by
  refine ⟨_, State.strand_set .., ?_, ?_, fun kept => ?_⟩
  · split <;> rfl
  · split <;> rfl
  · rw [kept]
    rfl

/-- A strand that is woken keeps its watches, and is ready where it was asleep. -/
theorem wake_strand (found : s.strand? u = some q) : ∃ q', (s.wake u).strand? u = some q' ∧ q.SameButWait q' ∧ q'.watch = q.watch ∧
    (q.state = .ready ∨ q.Asleep → q'.state = .ready) := by
  unfold State.wake
  rw [found]
  dsimp only
  split
  · next parked =>
    have never : ¬ (q.state = .ready ∨ q.Asleep) := by simp [Strand.Asleep, parked]
    split
    · exact ⟨q, found, .refl q, rfl, fun h => (never h).elim⟩
    · obtain ⟨q', there, same, watch, -⟩ := enter_strand (s := s) (u := u) q
      exact ⟨q', there, same, watch, fun h => (never h).elim⟩
  · next sleeps =>
    have asleep (h : q.state = .ready ∨ q.Asleep) : q.Asleep := h.resolve_left (by simp [sleeps])
    split
    · next woken => exact ⟨q, found, .refl q, rfl, fun h => absurd (asleep h).2.2 (by simp [woken])⟩
    · obtain ⟨q', there, same, watch, ready⟩ := enter_strand (s := s) (u := u) q
      exact ⟨q', there, same, watch, fun h => ready (asleep h).2.1⟩
  · next stopped => exact ⟨_, State.strand_set .., rfl, rfl, fun h => by simp [Strand.Asleep, stopped] at h⟩
  · next sleeps _ => exact ⟨q, found, .refl q, rfl, fun h => h.resolve_right fun asleep => sleeps asleep.1⟩

theorem wake_other (other : u ≠ v) : (s.wake v).strand? u = s.strand? u := by
  unfold State.wake
  have set (q : Strand) : (s.setStrand v q).strand? u = s.strand? u := State.strand_set_other _ _ other.symm
  split
  · rfl
  · split
    · split
      · rfl
      · exact set _
    · split
      · rfl
      · exact set _
    · exact set _
    · rfl

theorem fireEntry_other {e : Nat × Strand} (other : u ≠ e.1) : (s.fireEntry line e).strand? u = s.strand? u := by
  have edited : (s.editStrand e.1 (Strand.fires line)).strand? u = s.strand? u := by
    unfold State.editStrand
    split
    · exact State.strand_set_other _ _ other.symm
    · rfl
  unfold State.fireEntry
  split
  · dsimp only
    split
    · exact (wake_other other).trans edited
    · exact edited
  · rfl

theorem Strand.Hears.wakes (h : st.Hears line q heard) (found : s.strand? u = some q) :
    ∃ q', (s.wake u).strand? u = some q' ∧ st.Hears line q' heard ∧ q'.watch = q.watch ∧ (st.Asleep → q'.state = .ready) := by
  obtain ⟨q', there, same, watch, ready⟩ := wake_strand found
  have rises (asleep : st.Asleep) : q'.state = .ready := ready ((h.sleeper asleep).imp_right And.left)
  exact ⟨q', there, ⟨h.same.trans same, by rw [watch]; exact h.watch, fun asleep => .inl (rises asleep)⟩, watch, rises⟩

/-- A strand has heard all whose watches have fired, and that is ready where it slept at the line. -/
theorem Strand.Hears.all (h : st.Hears line q heard) (watch : q.watch = (st.fires line).watch)
    (ready : st.Asleep → q.state = .ready ∨ st.sleepsAt line = false) : st.Hears line q true where
  same := h.same
  watch := .inl watch
  sleeper asleep := by
    obtain up | off := ready asleep
    · exact .inl up
    · exact (h.sleeper asleep).imp_right fun rest => ⟨rest.1, fun _ => off⟩

theorem Strand.Hears.watch_of_off (h : st.Hears line q heard) (off : st.watch.toList.any (Watch.on line) = false) :
    q.watch = (st.fires line).watch := by
  obtain fired | ⟨-, kept⟩ := h.watch
  · exact fired
  · rw [kept, Strand.fires_off off]

/-- Behind an entry the strand has heard as much as before, and all if the entry was its own. -/
theorem fireEntry_hears (e : Nat × Strand) (found : s.strand? u = some q) (h : st.Hears line q heard) :
    ∃ q', (s.fireEntry line e).strand? u = some q' ∧ st.Hears line q' heard ∧ (e = (u, st) → st.Hears line q' true) := by
  by_cases own : u = e.1
  · subst own
    unfold State.fireEntry
    by_cases hit : e.2.watch.toList.any (Watch.on line) = true
    · rw [if_pos hit]
      have edited : (s.editStrand e.1 (Strand.fires line)).strand? e.1 = some (q.fires line) := by
        rw [State.editStrand_eq found, State.strand_set]
      by_cases rises : (e.2.state == .sleep && e.2.sleepsAt line) = true
      · obtain ⟨q', there, hears, watch, ready⟩ := h.fires.wakes edited
        rw [if_pos rises]
        exact ⟨q', there, hears, fun _ => hears.all (watch.trans h.fires_watch) fun asleep => .inl (ready asleep)⟩
      · rw [if_neg rises]
        refine ⟨_, edited, h.fires, fun same => h.fires.all h.fires_watch fun asleep => .inr ?_⟩
        rw [congrArg Prod.snd same] at rises
        simpa [asleep.1] using rises
    · rw [if_neg hit]
      refine ⟨q, found, h, fun same => ?_⟩
      rw [congrArg Prod.snd same] at hit
      have off := Bool.eq_false_iff.mpr hit
      exact h.all (h.watch_of_off off) fun _ => .inr (Strand.sleepsAt_off off)
  · exact ⟨q, (fireEntry_other own).trans found, h, fun same => by subst same; exact (own rfl).elim⟩

/-- Once all is heard, no entry takes it back. -/
theorem foldl_fireEntry_hears (l : List (Nat × Strand)) (found : s.strand? u = some q) (h : st.Hears line q heard)
    (own : heard = true ∨ (u, st) ∈ l) : ∃ q', (l.foldl (State.fireEntry line) s).strand? u = some q' ∧ st.Hears line q' true := by
  induction l generalizing s q heard with
  | nil =>
    obtain rfl := own.resolve_right (List.not_mem_nil)
    exact ⟨q, found, h⟩
  | cons e l ih =>
    obtain ⟨q', there, hears, all⟩ := fireEntry_hears e found h
    by_cases here : (u, st) = e
    · exact ih there (all here.symm) (.inl rfl)
    · exact ih there hears (own.imp_right fun mem => (List.mem_cons.mp mem).resolve_left here)

/-- A WRITE to a line as a strand hears it: its watches on the line fire, and it is ready if it slept at one. -/
theorem fireLine_hears (line : Nat) (found : s.strand? u = some st) : ∃ q, (s.fireLine line).strand? u = some q ∧ st.Hears line q true := by
  rw [fireLine_eq]
  exact foldl_fireEntry_hears s.strands found (.refl st) (.inr (Sparse.mem_of_get found))

theorem Strand.sleepsAt_of {i : Fin 8} (mask : st.sleepMask.getLsbD i = true) (armed : st.watch[i].armed = true) (at_ : st.watch[i].line = line) :
    st.sleepsAt line = true := by
  rw [Strand.sleepsAt, List.any_eq_true]
  exact ⟨i, by simp, by simpa [mask, Watch.on] using And.intro armed at_⟩

theorem fires_watch_get (st : Strand) (line : Nat) (i : Fin 8) : (st.fires line).watch[i] =
    if st.watch[i].armed ∧ st.watch[i].line = line then { st.watch[i] with fired := true } else st.watch[i] := by
  simp [Strand.fires, Watch.fires, Watch.on]

/-- The second half of O22. -/
theorem fireLine_fires (line : Nat) (found : s.strand? v = some st) : ∃ st', (s.fireLine line).strand? v = some st' ∧
    (∀ i : Fin 8, st'.watch[i] =
      if st.watch[i].armed ∧ st.watch[i].line = line then { st.watch[i] with fired := true } else st.watch[i]) ∧
    (st.state = .sleep → st.isSpilled = false → (∃ i : Fin 8, st.sleepMask.getLsbD i ∧ st.watch[i].armed ∧ st.watch[i].line = line) →
      st.woken = false → st'.state = .ready) ∧
    st'.x = st.x ∧ st'.pc = st.pc := by
  obtain ⟨q, there, hears⟩ := fireLine_hears line found
  have fired : q.watch = (st.fires line).watch := hears.watch.resolve_right nofun
  refine ⟨q, there, fun i => ?_, fun sleeps kept slot asleep => ?_, ?_, ?_⟩
  · rw [fired]
    exact fires_watch_get st line i
  · obtain ⟨i, mask, armed, at_⟩ := slot
    refine (hears.sleeper ⟨sleeps, kept, asleep⟩).resolve_right fun rest => ?_
    exact absurd (rest.2 rfl) (by rw [Strand.sleepsAt_of mask armed at_]; exact nofun)
  · rw [hears.same]
  · rw [hears.same]

end Sys2Proof.Machine
end

section
/-!
WATCH, UNWATCH AND SLEEP (O22, 10 R232, R233, R235, R236).

Behind its checks WATCH is `watchTail`, at a state that has heard what it has changed itself; the zone of the line and the space for a watcher
say which status it answers.
-/

namespace Sys2Proof.Machine

variable {s s1 s2 r t : State} {u n : Nat} {st q : Strand} {f : Fields} {va b : Word} {x : Xlat}

/-! ### What is heard -/

/-- What a turn has written at table entries is heard of by watchers alone, while no access waits on a retry list. -/
theorem hear_fired (nobody : s.waiters = []) : Fired { s with homes := { s.homes with unheard := [] } } s.hear := by
  have folds (l : List Nat) (r : State) (nobody : r.waiters = []) : Fired r (l.foldl (fun s a => s.written a 8) r) := by
    induction l generalizing r with
    | nil => exact .refl r
    | cons a l ih =>
      have fired := fired_written nobody a 8
      refine fired.trans (ih _ ?_)
      obtain ⟨_, _, _, frame⟩ := fired.frame
      rw [frame]
      exact nobody
  exact folds _ _ nobody

theorem Fired.cur (h : Fired s t) : t.cur = s.cur := by
  obtain ⟨_, _, _, rfl⟩ := h.frame
  rfl

theorem Fired.tierCap (h : Fired s t) : t.tierCap = s.tierCap := by
  obtain ⟨_, _, _, rfl⟩ := h.frame
  rfl

/-! ### WATCH behind its checks -/

/-- The end of WATCH: D takes the status, and the strand waits for the reply. -/
def answerReply (f : Fields) (v : Word) : Act Unit := do
  writeX f.d.toNat v
  finishReply f

/-- The slot of a WATCH for which there is space. -/
def Watch.armedAt (line : Nat) (va : Word) : Watch := { armed := true, line := line, va := va, fired := false }

/-- WATCH arms its slot, and notes a line whose watchers no copy in the L2 holds. -/
def watchArms (f : Fields) (line board : Nat) (va : Word) (apart : Bool) : Act Unit := do
  editSelf fun st => { st with watch := st.watch.setIfInBounds (f.m.toNat % 8) (.armedAt line va) }
  if apart then editS fun s => { s with watchOnly := Sparse.put s.watchOnly line board }
  answerReply f 0

/-- WATCH once its slot is off. -/
def watchTail (f : Fields) (ctx : Nat) (x : Xlat) (va : Word) : Act Unit := do
  let s ← readS id
  let line := lineOf x.pa
  let apart := x.mside || !s.l2Holds line
  match zoneOf s.tierCap x.pa with
  | .scratch _ => answerReply f 2
  | .host => answerReply f 2
  | _ =>
    if s.noSpace ctx line apart then answerReply f 1 else watchArms f line (homeBoard x.pa) va apart

theorem answerReply_run (hc : r.cur = some u) (hs : r.strand? u = some q) (out : q.region = none) (v : Word) :
    answerReply f v r = (.error .done, (r.setStrand u ((q.gives f.d.toNat v).done f)).replies u) :=
  (Act.bind_ok (writeX_run hc hs out ..)).trans (finishReply_set_run hc (by exact out) f)

theorem watchArms_run (hc : r.cur = some u) (hs : r.strand? u = some q) (out : q.region = none) (line board : Nat) (apart : Bool) :
    watchArms f line board va apart r = (.error .done,
      (({ r with watchOnly := if apart then Sparse.put r.watchOnly line board else r.watchOnly } : State).setStrand u
        ((({ q with watch := q.watch.setIfInBounds (f.m.toNat % 8) (.armedAt line va) } : Strand).gives f.d.toNat 0).done f)).replies u) := by
  rw [watchArms, Act.bind_ok (editSelf_run hc hs _)]
  generalize armed : ({ q with watch := q.watch.setIfInBounds (f.m.toNat % 8) (.armedAt line va) } : Strand) = q'
  have outside : q'.region = none := by
    subst armed
    exact out
  have answers {r : State} (hc : r.cur = some u) :
      answerReply f 0 (r.setStrand u q') = (.error .done, (r.setStrand u ((q'.gives f.d.toNat 0).done f)).replies u) := by
    rw [answerReply_run (r := r.setStrand u q') hc (State.strand_set ..) outside, State.set_set]
  cases apart with
  | false => exact answers hc
  | true => exact (Act.bind_ok (editS_run ..)).trans (answers (r := { r with watchOnly := Sparse.put r.watchOnly line board }) hc)

theorem watch_leads (h : Issues s u st f) (addr : address f 8 s = (.ok va, s1))
    (place : checkPlace ⟨1, .read, false, false, false, true⟩ va 1 s1 = (.ok x, s2))
    (heed : heedHome [s2.askOf x false none] false s2 = (.ok (), t)) (hc : t.hear.cur = some u) (hs : t.hear.strand? u = some q) :
    execWatch f s = (watchTail f st.ctx x va).outcome (t.hear.setStrand u (q.unwatch (2 ^ (f.m.toNat % 8)))) := by
  refine Act.outcome_congr ((issue_run h ..).trans ?_)
  rw [Act.bind_ok (self_run h.issuer h.strand), Act.bind_ok addr, Act.bind_ok place, Act.bind_ok (readS_run ..), Act.bind_ok heed]
  exact (Act.bind_ok (editS_run ..)).trans (Act.bind_ok (editSelf_run hc hs _))

section
variable {ctx : Nat} (hc : r.cur = some u) (hs : r.strand? u = some q) (out : q.region = none)
include hc hs out

/-- At a line without watchers, or without space for one, WATCH only answers. -/
theorem watchTail_answers {v : Word} (only : watchTail f ctx x va r = answerReply f v r) :
    watchTail f ctx x va r = (.error .done, (r.setStrand u ((q.gives f.d.toNat v).done f)).replies u) :=
  only.trans (answerReply_run hc hs out v)

theorem watchTail_away (zone : (∃ o, zoneOf r.tierCap x.pa = .scratch o) ∨ zoneOf r.tierCap x.pa = .host) :
    watchTail f ctx x va r = (.error .done, (r.setStrand u ((q.gives f.d.toNat 2).done f)).replies u) := by
  refine watchTail_answers hc hs out ?_
  rw [watchTail, Act.bind_ok (readS_run ..), id]
  obtain ⟨o, zone⟩ | zone := zone
  · rw [zone]
  · rw [zone]

variable (zone : zoneOf r.tierCap x.pa = .hbm ∨ zoneOf r.tierCap x.pa = .tier)
include zone

theorem watchTail_full
    (full : r.noSpace ctx (lineOf x.pa) (x.mside || !r.l2Holds (lineOf x.pa)) = true) :
    watchTail f ctx x va r = (.error .done, (r.setStrand u ((q.gives f.d.toNat 1).done f)).replies u) := by
  refine watchTail_answers hc hs out ?_
  rw [watchTail, Act.bind_ok (readS_run ..), id]
  obtain zone | zone := zone <;> rw [zone] <;> exact congrFun (if_pos full) _

theorem watchTail_space {apart : Bool} (which : (x.mside || !r.l2Holds (lineOf x.pa)) = apart)
    (space : r.noSpace ctx (lineOf x.pa) apart = false) :
    watchTail f ctx x va r = (.error .done,
      (({ r with watchOnly := if apart then Sparse.put r.watchOnly (lineOf x.pa) (homeBoard x.pa) else r.watchOnly } : State).setStrand u
        ((({ q with watch := q.watch.setIfInBounds (f.m.toNat % 8) (.armedAt (lineOf x.pa) va) } : Strand).gives f.d.toNat 0).done f)).replies
          u) := by
  refine Eq.trans ?_ (watchArms_run hc hs out (lineOf x.pa) (homeBoard x.pa) apart)
  rw [watchTail, Act.bind_ok (readS_run ..), id]
  rw [which, space]
  obtain zone | zone := zone <;> rw [zone] <;> rfl

end

/-! ### UNWATCH and SLEEP -/

theorem unwatch_run (h : Issues s u st f) {k : Bool} (readB : operandI f s = (.ok b, t)) (i : Issues t u (st.slowed k) f) :
    exec (.unwatch f) s = .next ((t.setStrand u (((st.slowed k).unwatch (b.toNat % 256)).done f)).replies u) := by
  refine Act.outcome_done ((issue_run h ..).trans ((Act.bind_ok readB).trans ((Act.bind_ok (editSelf_run i.issuer i.strand _)).trans ?_)))
  exact finishReply_set_run i.issuer (by exact i.outside) f

@[simp] theorem Strand.slowed_slots (st : Strand) (k : Bool) (p : Watch → Bool) : (st.slowed k).slots p = st.slots p := by cases k <;> rfl

/-- The watches behind a SLEEP that has taken the fired slots `hit`. -/
def Strand.takes (st : Strand) (hit : BitVec 8) : Vector Watch 8 :=
  Vector.ofFn fun i => if hit.getLsbD i.val then { st.watch[i] with fired := false } else st.watch[i]

section
variable {k : Bool} {mask hit : BitVec 8} (h : Issues s u st f) (readB : operandI f s = (.ok b, t)) (i : Issues t u (st.slowed k) f)
  (armed : b.truncate 8 &&& st.slots (·.armed) = mask) (fired : st.slots (·.fired) &&& mask = hit)
include h readB i armed fired

theorem sleep_waits (sleeps : mask ≠ 0) (none : hit = 0) :
    exec (.sleep f) s = .next ((t.setStrand u { st.slowed k with sleepMask := mask }).leave u .sleep .reply 10) := by
  refine Act.outcome_done ((issue_run h ..).trans ?_)
  rw [Act.bind_ok (me_run h.issuer), Act.bind_ok readB, Act.bind_ok (self_run i.issuer i.strand)]
  simp only [Strand.slowed_slots, armed, fired]
  rw [if_pos (by simp [none]; exact sleeps), Act.bind_ok (editSelf_run i.issuer i.strand _)]
  rfl

theorem sleep_goesOn (goes : mask = 0 ∨ hit ≠ 0) : exec (.sleep f) s = .next (t.setStrand u
    (({ st.slowed k with sleepMask := 0, watch := st.takes hit }.gives f.d.toNat (hit.zeroExtend 64)).done f)) := by
  have watch : (st.slowed k).watch = st.watch := by cases k <;> rfl
  refine Act.outcome_ok ((issue_run h ..).trans ?_)
  rw [Act.bind_ok (me_run h.issuer), Act.bind_ok readB, Act.bind_ok (self_run i.issuer i.strand)]
  simp only [Strand.slowed_slots, armed, fired]
  rw [if_neg (by simpa [imp_iff_not_or] using goes), Act.bind_ok (editSelf_run i.issuer i.strand _), watch]
  exact (Act.bind_ok (writeX_set_run i.issuer (by exact i.outside) ..)).trans (finish_set_run i.issuer (by exact i.outside) f)

end

/-- Settles O22: WATCH as `watchTail` ends by the line's zone and by space, UNWATCH and SLEEP by their operand; a write as each strand hears it. -/
theorem watches : Obligations.Watches := by
  refine ⟨?_, fun _ line _ _ found => fireLine_fires line found⟩
  intro s s1 s2 t u st f va b x h
  refine ⟨fun addr place heed nobody => ?_, fun readB => ?_⟩
  · have quiet := (h.quiet_two (address_quiet f 8) (checkPlace_quiet ..) addr place).next h (heedHome_calm ..).quietAct heed
    obtain ⟨k, traffic⟩ := quiet
    have i := h.after traffic
    have fired := hear_fired (Quiet.waiters ⟨k, traffic⟩ nobody)
    obtain ⟨q, there, same⟩ := fired.strand i.strand
    have hc : t.hear.cur = some u := fired.cur.trans i.issuer
    have out : (q.unwatch (2 ^ (f.m.toNat % 8))).region = none := by
      rw [same]
      exact i.outside
    have cap : t.hear.tierCap = t.tierCap := fired.tierCap
    have leads {t' : State} (ends : watchTail f st.ctx x va (t.hear.setStrand u (q.unwatch (2 ^ (f.m.toNat % 8)))) = (.error .done, t')) :
        exec (.watch f) s = .next t' := (watch_leads h addr place heed hc there).trans (Act.outcome_done ends)
    refine ⟨k, traffic, q, there, same, ?_⟩
    intro off r apart ends
    have held : r.strand? u = some off := State.strand_set ..
    refine ⟨fun zone => leads (watchTail_away hc held out (by rwa [← cap] at zone)), fun zone => ?_⟩
    have zone : zoneOf r.tierCap x.pa = .hbm ∨ zoneOf r.tierCap x.pa = .tier := by rwa [← cap] at zone
    exact ⟨fun full => leads (watchTail_full hc held out zone full), fun space => leads (watchTail_space (r := r) hc held out zone rfl space)⟩
  · obtain ⟨k, i⟩ := ((operandI_quiet f).quiet h.issuer h.strand h.outside readB).issues h
    exact ⟨k, i.strand, unwatch_run h readB i, sleep_waits h readB i rfl rfl,
      fun goes => ⟨_, sleep_goesOn h readB i rfl rfl goes, by simp [Strand.takes]⟩⟩

end Sys2Proof.Machine
end

section
/-!
PREFETCHES (O17, 10 R223, 12 R285).

PREF reads its address without a wait, asks for its line without one, and goes on whatever it has met.
-/

namespace Sys2Proof.Machine

variable {s s1 r t : State} {u : Nat} {st : Strand} {f : Fields} {v va : Word} {x : Xlat}

/-! ### The request of a prefetch -/

theorem calm_request (s : State) (core line : Nat) (k : MsgKind) : Calm s (s.request core line k) := by
  unfold State.request
  split
  · exact .refl s
  · exact (calm_editMshr ..).trans (calm_send ..)

theorem calm_prefetch (s : State) (m core line : Nat) (path : Path) : Calm s (s.prefetch m core line path) := by
  unfold State.prefetch
  split
  · exact .refl s
  · exact calm_swmFill ..
  · split
    · exact calm_request ..
    · exact .refl s
  · split
    · exact .refl s
    · exact .refl s
    · exact calm_request ..
    · exact calm_request ..

theorem request_msgs {core line : Nat} (free : Sparse.get (s.core core).mshr line = none) (k : MsgKind) :
    (s.request core line k).msgs = s.msgs ++ [⟨line, core, k⟩] := by
  rw [State.request, free]
  rfl

theorem prefetch_read {core line : Nat} (absent : s.l1 core line = none) : s.prefetch 0 core line .coherent = s.request core line .getS := by
  simp only [State.prefetch, absent, Option.isNone_none, if_true]

theorem prefetch_write {core line : Nat} (absent : s.l1 core line = none) : s.prefetch 2 core line .coherent = s.request core line .getM := by
  simp only [State.prefetch, absent, Option.map_none]

/-! ### The address of a prefetch -/

/-- The forwarding entry that the address of a PREF names. -/
def State.peekEntry (s : State) (st : Strand) (f : Fields) : Option Nat :=
  (s.launch? st.lrec).bind fun l => l.tempoIndex st.isItem false f.a.toNat f.ta.toNat

section
variable (h : Issues s u st f)
include h

theorem peekAddress_near (near : f.ta = 0) : peekAddress f s =
    (.ok (if st.xFull.getLsbD f.a.toNat then some ((st.x[f.a.toNat]?).getD 0 + memOffset f 8) else none),
      s.slowed u st (decide (48 ≤ f.a.toNat))) := by
  rw [peekAddress, Act.bind_ok (self_run h.issuer h.strand), Act.bind_ok (readS_run ..), near, if_neg (by decide),
    Act.bind_ok (noteSlow_run h.issuer h.strand h.outside _)]
  rfl

theorem peekAddress_far (far : f.ta ≠ 0) : peekAddress f s = match s.peekEntry st f with
    | none => (.ok none, s)
    | some j => if s.broken st then (.error .done, s.endStrand u 13)
      else (.ok ((Sparse.get st.fwd (fwdKey f.ta.toNat j)).map fun v => v.bits.truncate 64 + memOffset f 8), s) := by
  rw [peekAddress, Act.bind_ok (self_run h.issuer h.strand), Act.bind_ok (readS_run ..), if_pos (bne_iff_ne.mpr far)]
  dsimp only
  change _ = match ((s.launch? st.lrec).bind fun l => l.tempoIndex st.isItem false f.a.toNat f.ta.toNat) with | none => _ | some j => _
  cases (s.launch? st.lrec).bind fun l => l.tempoIndex st.isItem false f.a.toNat f.ta.toNat with
  | none => rfl
  | some j =>
    dsimp only
    rw [Act.bind_ok (readS_run ..)]
    cases s.broken st with
    | false => rfl
    | true => exact Act.bind_error (terminate_run h.issuer)

end

/-! ### PREF behind its address -/

/-- PREF once its address is known, or is not to be had. -/
def prefTail (f : Fields) (st : Strand) (a : Option Word) : Act Unit := do
  match a with
  | none => pure ()
  | some va =>
    match ← stateS (fun s => s.accessProblem st ⟨1, .read, false, false, false, true⟩ va 1) with
    | .error _ => pure ()
    | .ok x =>
      let line := lineOf x.pa
      let s ← readS id
      let away := x.mig && s.migrateTarget st.lrec x.pa != st.core
      let plainZone := zoneOf s.tierCap x.pa == .hbm || zoneOf s.tierCap x.pa == .tier
      if !away && plainZone && !x.mside then
        match ← stateS (fun s => s.askHome .issuer st.ctx [s.askOf x false none] false) with
        | some _ => pure ()
        | none => editS fun s => if s.l2Holds line then s.prefetch f.m.toNat st.core line (s.pathOf x) else s
  finish f

theorem pref_leads {a : Option Word} (h : Issues s u st f) (peek : peekAddress f s = (.ok a, t)) : execPref f s = (prefTail f st a).outcome t :=
  Act.outcome_congr ((issue_run h ..).trans ((Act.bind_ok (self_run h.issuer h.strand)).trans (Act.bind_ok peek)))

/-- Whatever becomes of the request, PREF goes on. -/
theorem prefTail_goesOn (a : Option Word) : ∃ r, Traffic s r ∧ prefTail f st a s = finish f r := by
  cases a with
  | none => exact ⟨s, .refl s, rfl⟩
  | some va =>
    have checked := traffic_accessProblem s st ⟨1, .read, false, false, false, true⟩ va 1
    rw [prefTail, Act.bind_ok (stateS_run ..)]
    generalize s.accessProblem st ⟨1, .read, false, false, false, true⟩ va 1 = p at checked ⊢
    obtain ⟨result, r⟩ := p
    cases result with
    | error => exact ⟨r, checked, rfl⟩
    | ok x =>
      dsimp only
      rw [Act.bind_ok (readS_run ..)]
      split
      · rw [Act.bind_ok (stateS_run ..)]
        have asked := calm_askHome r .issuer st.ctx [r.askOf x false none] false
        generalize r.askHome .issuer st.ctx [r.askOf x false none] false = p at asked ⊢
        obtain ⟨waits, t⟩ := p
        cases waits with
        | some w => exact ⟨t, checked.trans asked.toTraffic, rfl⟩
        | none =>
          refine ⟨_, checked.trans (asked.toTraffic.trans ?_), Act.bind_ok (editS_run ..)⟩
          split
          · exact (calm_prefetch ..).toTraffic
          · exact .refl t
      · exact ⟨r, checked, rfl⟩

/-- A request that reaches its home is made there. -/
theorem prefTail_asks (checked : s.accessProblem st ⟨1, .read, false, false, false, true⟩ va 1 = (.ok x, s1))
    (stays : x.mig = true → s1.migrateTarget st.lrec x.pa = st.core)
    (zone : zoneOf s1.tierCap x.pa = .hbm ∨ zoneOf s1.tierCap x.pa = .tier) (near : x.mside = false)
    (asked : s1.askHome .issuer st.ctx [s1.askOf x false none] false = (none, t)) :
    prefTail f st (some va) s = finish f (if t.l2Holds (lineOf x.pa) then t.prefetch f.m.toNat st.core (lineOf x.pa) (t.pathOf x) else t) := by
  have here : (!(x.mig && s1.migrateTarget st.lrec x.pa != st.core) &&
      (zoneOf s1.tierCap x.pa == .hbm || zoneOf s1.tierCap x.pa == .tier) && !x.mside) = true := by
    have home : (x.mig && s1.migrateTarget st.lrec x.pa != st.core) = false := by
      cases moves : x.mig with
      | false => rfl
      | true => simp [stays moves]
    simp [near, zone, home]
  rw [prefTail, Act.bind_ok (stateS_run ..), checked]
  dsimp only
  rw [Act.bind_ok (readS_run ..)]
  dsimp only [id]
  rw [if_pos here, Act.bind_ok (stateS_run ..), asked]
  exact Act.bind_ok (editS_run ..)

/-! ### PREF -/

section
variable (h : Issues s u st f)
include h

/-- Where the strand does not end, PREF has an address or none, and goes on. -/
theorem pref_goesOn {a : Option Word} {k : Bool} (peek : peekAddress f s = (.ok a, s.slowed u st k)) :
    ∃ k r, Traffic (s.slowed u st k) r ∧ exec (.pref f) s = .next (r.setStrand u ((st.slowed k).done f)) := by
  obtain ⟨r, traffic, goes⟩ := prefTail_goesOn (s := s.slowed u st k) (st := st) (f := f) a
  have i := h.after traffic
  exact ⟨k, r, traffic, (pref_leads h peek).trans (Act.outcome_ok (goes.trans (finish_run i.issuer i.strand i.outside f)))⟩

theorem pref_near_or_unbroken (goes : f.ta = 0 ∨ s.broken st = false ∨ s.peekEntry st f = none) :
    ∃ k r, Traffic (s.slowed u st k) r ∧ exec (.pref f) s = .next (r.setStrand u ((st.slowed k).done f)) := by
  by_cases near : f.ta = 0
  · exact pref_goesOn h (peekAddress_near h near)
  · have peek := peekAddress_far h near
    cases entry : s.peekEntry st f with
    | none => exact pref_goesOn (k := false) h (by rw [peek, entry]; rfl)
    | some j =>
      have unbroken := (goes.resolve_left near).resolve_right (by rw [entry]; nofun)
      exact pref_goesOn (k := false) h (by rw [peek, entry, unbroken]; rfl)

theorem pref_broken (far : f.ta ≠ 0) (broken : s.broken st = true) (entry : s.peekEntry st f ≠ none) :
    exec (.pref f) s = .next (s.endStrand u 13) := by
  obtain ⟨j, entry⟩ := Option.ne_none_iff_exists'.mp entry
  have peek := peekAddress_far h far
  rw [entry, broken] at peek
  exact Act.outcome_done ((issue_run h ..).trans ((Act.bind_ok (self_run h.issuer h.strand)).trans (Act.bind_error peek)))

theorem pref_asks (near : f.ta = 0) (full : st.xFull.getLsbD f.a.toNat = true) (value : (st.x[f.a.toNat]?).getD 0 = v) {k : Bool}
    (slow : k = decide (48 ≤ f.a.toNat))
    (checked : (s.slowed u st k).accessProblem st ⟨1, .read, false, false, false, true⟩ (v + memOffset f 8) 1 = (.ok x, s1))
    (stays : x.mig = true → s1.migrateTarget st.lrec x.pa = st.core)
    (zone : zoneOf s1.tierCap x.pa = .hbm ∨ zoneOf s1.tierCap x.pa = .tier) (plain : x.mside = false)
    (asked : s1.askHome .issuer st.ctx [s1.askOf x false none] false = (none, t)) :
    exec (.pref f) s = .next ((if t.l2Holds (lineOf x.pa) then t.prefetch f.m.toNat st.core (lineOf x.pa) (t.pathOf x) else t).setStrand u
      ((st.slowed k).done f)) := by
  have peek := peekAddress_near h near
  rw [full, if_pos rfl, value, ← slow] at peek
  have toHome : Traffic (s.slowed u st k) t := by
    have c := traffic_accessProblem (s.slowed u st k) st ⟨1, .read, false, false, false, true⟩ (v + memOffset f 8) 1
    have a := (calm_askHome s1 .issuer st.ctx [s1.askOf x false none] false).toTraffic
    rw [checked] at c
    rw [asked] at a
    exact c.trans a
  have made : Traffic (s.slowed u st k)
      (if t.l2Holds (lineOf x.pa) then t.prefetch f.m.toNat st.core (lineOf x.pa) (t.pathOf x) else t) := by
    split
    · exact toHome.trans (calm_prefetch ..).toTraffic
    · exact toHome
  have i := h.after made
  exact (pref_leads h peek).trans
    (Act.outcome_ok ((prefTail_asks checked stays zone plain asked).trans (finish_run i.issuer i.strand i.outside f)))

end

end Sys2Proof.Machine
end

section
/-!
AN OWNER'S COPY IS CLEANED (O17, 05 R125, R127, 10 R223).

`cleanOwner` goes through the boards. Those before the board of the line's first owner have none and change nothing; at that board the owner's
copy becomes clean, its own router not being in the way; and no board behind it makes the copy dirty again.
-/

namespace Sys2Proof.Machine

variable {s : State} {core line b : Nat} {leaf : Option Nat} {l : L1Line}

/-- The core holds a copy of the line that its home has the data of. -/
def State.CleanAt (s : State) (core line : Nat) : Prop := ∃ l, s.l1 core line = some l ∧ l.state ≠ .modified ∧ l.state ≠ .owned

theorem State.CleanAt.congr {t : State} (h : s.CleanAt core line) (same : t.l1 core line = s.l1 core line) : t.CleanAt core line := by
  obtain ⟨l, copy, clean⟩ := h
  exact ⟨l, same.trans copy, clean⟩

/-- `cleanOwner` at one board. -/
def State.cleanBoard (leaf : Option Nat) (line : Nat) (s : State) (b : Nat) : State :=
  match s.dir? line b with
  | some e =>
    match e.owner with
    | some (o, _) =>
      match s.l1 o line with
      | some l =>
        if l.state != .modified && l.state != .owned then s
        else if s.filtered leaf o then s.countProbe o
        else if l.state == .modified then
          ((s.sliceCurrent line).setL1 o line { l with state := .exclusive }).setDir line b { e with owner := some (o, .exclusive) }
        else
          ((s.sliceCurrent line).setL1 o line { l with state := .shared }).setDir line b { owner := none, sharers := e.sharers.add o }
      | none => s
    | none => s
  | none => s

theorem cleanOwner_eq (s : State) : s.cleanOwner leaf line = (List.range 8).foldl (State.cleanBoard leaf line) s := rfl

/-- The owner that a board has of the line. -/
def State.boardOwner (s : State) (line b : Nat) : Option Nat := ((s.dir? line b).bind (·.owner)).map (·.1)

theorem ownerOf_eq (s : State) : s.ownerOf line = (List.range 8).findSome? (s.boardOwner line) := rfl

theorem cleanBoard_none (nobody : s.boardOwner line b = none) : s.cleanBoard leaf line b = s := by
  unfold State.cleanBoard
  split
  · next e entry =>
    have free : e.owner = none := by simpa [State.boardOwner, entry] using nobody
    rw [free]
  · rfl

/-- At a board with an owner, its copy is left if clean, and otherwise cleaned or passed over by the router. -/
theorem cleanBoard_owner (owner : s.boardOwner line b = some core) (copy : s.l1 core line = some l) :
    s.cleanBoard leaf line b = s ∧ l.state ≠ .modified ∧ l.state ≠ .owned ∨
    s.cleanBoard leaf line b = s.countProbe core ∧ s.filtered leaf core = true ∨
    ∃ m e, m ≠ .modified ∧ m ≠ .owned ∧
      s.cleanBoard leaf line b = ((s.sliceCurrent line).setL1 core line { l with state := m }).setDir line b e := by
  obtain ⟨e, entry, m, own⟩ : ∃ e, s.dir? line b = some e ∧ ∃ m, e.owner = some (core, m) := by
    simpa [State.boardOwner, Option.bind_eq_some_iff] using owner
  simp only [State.cleanBoard, entry, own, copy]
  split
  · next clean => exact .inl ⟨rfl, by simpa using clean⟩
  · split
    · next away => exact .inr (.inl ⟨rfl, away⟩)
    · split
      · exact .inr (.inr ⟨.exclusive, _, nofun, nofun, rfl⟩)
      · exact .inr (.inr ⟨.shared, _, nofun, nofun, rfl⟩)

theorem filtered_own (s : State) (core : Nat) : s.filtered (s.leafIdOf core) core = false := by
  unfold State.filtered State.leafIdOf
  cases s.leafOf core <;> simp

theorem cleanBoard_own (owner : s.boardOwner line b = some core) (copy : s.l1 core line = some l) (mine : leaf = s.leafIdOf core) :
    (s.cleanBoard leaf line b).CleanAt core line := by
  obtain ⟨same, clean⟩ | ⟨-, away⟩ | ⟨m, e, notM, notO, same⟩ := cleanBoard_owner (leaf := leaf) owner copy
  · rw [same]
    exact ⟨l, copy, clean⟩
  · rw [mine, filtered_own] at away
    cases away
  · rw [same]
    exact ⟨_, (State.l1_of_cores State.setDir_cores).trans State.l1_setL1, notM, notO⟩

theorem l1_setL1_other {o : Nat} (other : core ≠ o) : (s.setL1 o line l).l1 core line = s.l1 core line := by
  rw [State.l1, State.setL1, core_editCore_other _ _ other.symm]
  rfl

theorem sliceCurrent_cores : (s.sliceCurrent line).cores = s.cores := by
  unfold State.sliceCurrent
  split <;> rfl

theorem cleanBoard_absent {o : Nat} (owner : s.boardOwner line b = some o) (absent : s.l1 o line = none) : s.cleanBoard leaf line b = s := by
  obtain ⟨e, entry, m, own⟩ : ∃ e, s.dir? line b = some e ∧ ∃ m, e.owner = some (o, m) := by
    simpa [State.boardOwner, Option.bind_eq_some_iff] using owner
  simp only [State.cleanBoard, entry, own, absent]

theorem cleanBoard_keeps (clean : s.CleanAt core line) : (s.cleanBoard leaf line b).CleanAt core line := by
  cases owner : s.boardOwner line b with
  | none =>
    rw [cleanBoard_none owner]
    exact clean
  | some o =>
    cases copy : s.l1 o line with
    | none =>
      rw [cleanBoard_absent owner copy]
      exact clean
    | some l =>
      obtain ⟨same, -⟩ | ⟨same, -⟩ | ⟨m, e, notM, notO, same⟩ := cleanBoard_owner (leaf := leaf) owner copy
      · rw [same]
        exact clean
      · rw [same]
        exact clean.congr (State.l1_of_cores State.countProbe_cores)
      · rw [same]
        have set : (((s.sliceCurrent line).setL1 o line { l with state := m }).setDir line b e).l1 core line =
            ((s.sliceCurrent line).setL1 o line { l with state := m }).l1 core line := State.l1_of_cores State.setDir_cores
        by_cases own : core = o
        · subst own
          exact ⟨_, set.trans State.l1_setL1, notM, notO⟩
        · exact clean.congr (set.trans ((l1_setL1_other own).trans (State.l1_of_cores sliceCurrent_cores)))

theorem foldl_cleanBoard_keeps (bs : List Nat) (clean : s.CleanAt core line) : (bs.foldl (State.cleanBoard leaf line) s).CleanAt core line := by
  induction bs generalizing s with
  | nil => exact clean
  | cons b bs ih => exact ih (cleanBoard_keeps clean)

theorem foldl_cleanBoard (bs : List Nat) (owner : bs.findSome? (s.boardOwner line) = some core) (copy : s.l1 core line = some l) :
    (bs.foldl (State.cleanBoard (s.leafIdOf core) line) s).CleanAt core line := by
  induction bs with
  | nil => cases owner
  | cons b bs ih =>
    rw [List.foldl_cons]
    cases here : s.boardOwner line b with
    | none =>
      rw [cleanBoard_none here]
      exact ih (by simpa [here] using owner)
    | some o =>
      obtain rfl : o = core := by simpa [here] using owner
      exact foldl_cleanBoard_keeps bs (cleanBoard_own here copy rfl)

/-- The copy of the core that owns the line is clean behind `cleanOwner` from its own leaf. -/
theorem cleanOwner_clean (owner : s.ownerOf line = some core) (copy : s.l1 core line = some l) :
    (s.cleanOwner (s.leafIdOf core) line).CleanAt core line := by
  rw [cleanOwner_eq]
  exact foldl_cleanBoard _ ((ownerOf_eq s).symm.trans owner) copy

end Sys2Proof.Machine
end

section
/-!
CFLUSH AND CINV (O17, 10 R223).

Both are `cacheLine`: the checks of the line are quiet, and what is done to it keeps the strand issuing. CFLUSH brings home what the copy has
that its home lacks; CINV drops the copy behind that, and the line from the caches of instructions and constants.
-/

namespace Sys2Proof.Machine

variable {s s1 s2 r t : State} {u core line : Nat} {st : Strand} {f : Fields} {v va : Word} {x : Xlat} {l : L1Line}
  {bytes : List (BitVec 8)} {mask : BitVec 128}

/-! ### Writes change no cache -/

theorem wake_cores : (s.wake u).cores = s.cores := by
  unfold State.wake
  split
  · rfl
  · split
    · split <;> rfl
    · split <;> rfl
    · rfl
    · rfl

theorem fireEntry_cores (e : Nat × Strand) : (s.fireEntry line e).cores = s.cores := by
  unfold State.fireEntry
  split
  · dsimp only
    split
    · rw [wake_cores, State.editStrand_cores]
    · exact State.editStrand_cores ..
  · rfl

theorem fireLine_cores (line : Nat) : (s.fireLine line).cores = s.cores := by
  rw [fireLine_eq]
  exact List.foldlRecOn (motive := fun r => r.cores = s.cores) s.strands (State.fireEntry line) rfl fun r same e _ => (fireEntry_cores e).trans same

theorem written_cores (nobody : s.waiters = []) (pa n : Nat) : (s.written pa n).cores = s.cores := by
  have fired := Fired.foldl (l := linesOfRun pa n) (fun t l => fired_fireLine t l) s
  have none : ((linesOfRun pa n).foldl State.fireLine s).waiters = [] := by
    obtain ⟨_, _, _, frame⟩ := fired.frame
    rw [frame, nobody]
  simp only [State.written, none, List.isEmpty_nil, if_true]
  exact List.foldlRecOn (motive := fun r => r.cores = s.cores) (linesOfRun pa n) State.fireLine rfl
    fun r same line _ => (fireLine_cores line).trans same

/-! ### The dirty data goes home -/

theorem flushOwn_absent (absent : s.l1 core line = none) : s.flushOwn core line = s := by rw [State.flushOwn, absent]

theorem flushOwn_coherent (copy : s.l1 core line = some l) (coherent : l.swm = none) :
    s.flushOwn core line = if s.ownerOf line = some core then s.cleanOwner (s.leafIdOf core) line else s := by
  simp [State.flushOwn, copy, coherent]

theorem flushOwn_managed (copy : s.l1 core line = some l) (managed : l.swm = some (bytes, mask)) :
    s.flushOwn core line = s.swmWriteBack core line := by
  simp [State.flushOwn, copy, managed]

theorem calm_flushOwn (copy : s.l1 core line = some l) (coherent : l.swm = none) : Calm s (s.flushOwn core line) := by
  rw [flushOwn_coherent copy coherent]
  split
  · exact calm_cleanOwner ..
  · exact .refl s

theorem flushOwn_issuing : (s.flushOwn core line).issuing u = s.issuing u := by
  unfold State.flushOwn
  split
  · rfl
  · split
    · exact State.swmWriteBack_issuing
    · split
      · exact (calm_cleanOwner ..).issuing
      · rfl

theorem flushOwn_clean (copy : s.l1 core line = some l) (coherent : l.swm = none) (owner : s.ownerOf line = some core) :
    (s.flushOwn core line).CleanAt core line := by
  rw [flushOwn_coherent copy coherent, if_pos owner]
  exact cleanOwner_clean owner copy

/-- The bytes of a line that a mask marks, at the home. -/
def brought (m : List Host.Cell) (line : Nat) (bytes : List (BitVec 8)) (mask : BitVec 128) : List Host.Cell :=
  (List.range 128).foldl (fun m i => if mask.getLsbD i then Memory.set m (line * 128 + i) (bytes.getD i 0) else m) m

theorem brought_none (m : List Host.Cell) : brought m line bytes 0 = m := by
  simp [brought]

theorem bringsHome_mem : (s.bringsHome core line bytes mask).mem = brought s.mem line bytes mask := by
  simp only [State.bringsHome, brought, State.setL1, State.editCore, State.setCore, State.keepCopies]

/-- What the write-back of a SWMANAGED copy leaves, where nothing waits and its bytes can go home. -/
theorem swmWriteBack_effect (copy : s.l1 core line = some l) (managed : l.swm = some (bytes, mask)) (hs : s.strand? u = some st)
    (nobody : s.waiters = []) (up : mask = 0 ∨ s.tierDown (line * 128) = false) :
    (∃ l', (s.swmWriteBack core line).l1 core line = some l' ∧ l'.swm = some (bytes, 0)) ∧
    (∃ st', (s.swmWriteBack core line).strand? u = some st' ∧ Strand.SameButWait st st') ∧
    (s.swmWriteBack core line).mem = brought s.mem line bytes mask := by
  have held : (s.l1 core line).bind (·.swm) = some (bytes, mask) := by rw [copy]; exact managed
  by_cases clean : mask = 0
  · subst clean
    have same : s.swmWriteBack core line = s := swmWriteBack_clean fun copy' held' => by
      rw [held] at held'
      cases held'
      rfl
    rw [same, brought_none]
    exact ⟨⟨l, copy, managed⟩, ⟨st, hs, .refl st⟩, rfl⟩
  · rw [swmWriteBack_dirty held clean (up.resolve_left clean)]
    generalize home : s.bringsHome core line bytes mask = r
    have fired : Fired r (r.written (line * 128) 128) := fired_written (by subst home; exact nobody) ..
    have cores : (r.written (line * 128) 128).cores = r.cores := written_cores (by subst home; exact nobody) ..
    subst home
    exact ⟨⟨_, (State.l1_of_cores cores).trans State.l1_setL1, rfl⟩, fired.strand hs, fired.mem.trans bringsHome_mem⟩

/-! ### The copy goes -/

theorem calm_swmDrop : Calm s (s.swmDrop core line) := by
  unfold State.swmDrop
  split
  · exact .refl s
  · exact calm_editCore _ _ fun _ => rfl

theorem calm_putLine : Calm s (s.putLine core line) := by
  unfold State.putLine
  split
  · exact .refl s
  · split
    · exact .refl s
    · exact (calm_dropCopy ..).trans ((calm_editMshr ..).trans (calm_send ..))

theorem calm_dropOwn : Calm s (s.dropOwn core line) := by
  unfold State.dropOwn
  split
  · exact .refl s
  · split
    · exact calm_swmDrop
    · exact (calm_dropRequest ..).trans calm_putLine

theorem l1_editMshr {g : Option Mshr → Option Mshr} : (s.editMshr core line g).l1 core line = s.l1 core line := by
  rw [State.l1, State.editMshr, core_editCore_same]
  rfl

theorem l1_swmDrop (copy : s.l1 core line = some l) (managed : l.swm.isSome) : (s.swmDrop core line).l1 core line = none := by
  obtain ⟨held, managed⟩ := Option.isSome_iff_exists.mp managed
  have some : (s.l1 core line).bind (·.swm) = some held := by rw [copy]; exact managed
  rw [State.swmDrop, some]
  dsimp only
  rw [State.l1, core_editCore_same]
  exact Sparse.get_erase_same ..

/-- A COHERENT copy for which no request is out goes. -/
theorem l1_putLine (copy : s.l1 core line = some l) (coherent : l.swm = none) (free : Sparse.get (s.core core).mshr line = none) :
    (s.putLine core line).l1 core line = none := by
  simp only [State.putLine, copy, coherent, free, Option.isSome_none, Bool.or_self, Bool.false_eq_true, if_false]
  exact (State.l1_of_cores State.send_cores).trans (l1_editMshr.trans (State.l1_dropCopy copy coherent))

theorem l1_dropOwn : (s.dropOwn core line).l1 core line = none := by
  unfold State.dropOwn
  split
  · next absent => exact absent
  · next l copy =>
    split
    · next managed => exact l1_swmDrop copy managed
    · next coherent =>
      exact l1_putLine (l1_editMshr.trans copy) (Option.not_isSome_iff_eq_none.mp coherent) State.mshr_editMshr

theorem calm_dropInstr : Calm s (s.dropInstr core line) := calm_editCore _ _ fun _ => rfl

theorem l1_dropInstr : (s.dropInstr core line).l1 core line = s.l1 core line := by
  rw [State.l1, State.dropInstr, core_editCore_same]
  rfl

theorem icache_dropInstr {e : Nat × ILine} (mem : e ∈ ((s.dropInstr core line).core core).icache) : e.1 / 4096 ≠ line := by
  rw [State.dropInstr, core_editCore_same] at mem
  simpa using (List.mem_filter.mp mem).2

theorem ccache_dropInstr {e : Nat} (mem : e ∈ ((s.dropInstr core line).core core).ccache) : e / 4096 ≠ line := by
  rw [State.dropInstr, core_editCore_same] at mem
  simpa using (List.mem_filter.mp mem).2

/-- What CINV does to a line of a core. -/
def State.invalidates (s : State) (core line : Nat) : State :=
  ((match s.l1 core line with
    | some k => if k.swm.isSome then s else s.flushOwn core line
    | none => s).dropOwn core line).dropInstr core line

theorem calm_invalidates : Calm s (s.invalidates core line) := by
  unfold State.invalidates
  refine Calm.trans ?_ (calm_dropOwn.trans calm_dropInstr)
  split
  · next k copy =>
    split
    · exact .refl s
    · next coherent => exact calm_flushOwn copy (Option.not_isSome_iff_eq_none.mp coherent)
  · exact .refl s

theorem l1_invalidates : (s.invalidates core line).l1 core line = none := l1_dropInstr.trans l1_dropOwn

/-! ### The instructions -/

/-- An access to a line that is checked, and whose home answers, ends as what is done to the line. -/
theorem cacheLine_run {act : Nat → Nat → State → State} (h : Issues s u st f) (addr : address f 8 s = (.ok va, s1))
    (place : checkPlace ⟨1, .read, false, false, false, true⟩ va 1 s1 = (.ok x, s2))
    (heed : heedHome [s2.askOf x (!s2.holdsDirty st.core (lineOf x.pa)) none] (s2.holdsDirty st.core (lineOf x.pa)) s2 = (.ok (), t))
    (i : t.issuing u = (some u, some true)) (keeps : (act st.core (lineOf x.pa) t).issuing u = t.issuing u) :
    (cacheLine f act).outcome s = .next (((act st.core (lineOf x.pa) t).behind u f).replies u) := by
  refine Act.outcome_done ((issue_run h ..).trans ?_)
  rw [Act.bind_ok (self_run h.issuer h.strand), Act.bind_ok addr, Act.bind_ok place, Act.bind_ok (readS_run ..), Act.bind_ok (readS_run ..),
    Act.bind_ok heed, Act.bind_ok (editS_run ..)]
  exact finishReply_issuing (keeps.trans i) f

/-- Settles O17: PREF as it has its address and its request, CFLUSH and CINV as what they do to the line that the checks leave. -/
theorem cacheControl : Obligations.CacheControl := by
  intro s s1 s2 t u st f v va x h
  refine ⟨pref_near_or_unbroken h, pref_broken h, fun near full value checked stays zone plain asked => ⟨?_, fun held path free => ?_⟩,
    fun addr place heed => ?_⟩
  · exact pref_asks h near full value rfl (by rw [memOffset_eq]; exact checked) stays zone plain asked
  · rw [if_pos held, path]
    refine ⟨fun m absent => ?_, fun m absent => ?_⟩
    · rw [m]
      exact (congrArg State.msgs (prefetch_read absent)).trans (request_msgs free _)
    · rw [m]
      exact (congrArg State.msgs (prefetch_write absent)).trans (request_msgs free _)
  · have quiet := (h.quiet_two (address_quiet f 8) (checkPlace_quiet ..) addr place).next h (heedHome_calm ..).quietAct heed
    obtain ⟨k, traffic⟩ := quiet
    have i := h.after traffic
    refine ⟨k, traffic, ⟨t.flushOwn st.core (lineOf x.pa), ?_, fun l copy coherent => ?_, flushOwn_absent, ?_⟩,
      t.invalidates st.core (lineOf x.pa), ?_, calm_invalidates.toTraffic, calm_invalidates.still, l1_invalidates, fun _ => icache_dropInstr, fun _ => ccache_dropInstr⟩
    · exact cacheLine_run h addr place heed i.issuing flushOwn_issuing
    · have calm := calm_flushOwn copy coherent
      exact ⟨calm.toTraffic, calm.still, flushOwn_clean copy coherent⟩
    · intro l bytes mask copy managed nobody up
      rw [flushOwn_managed copy managed]
      exact swmWriteBack_effect copy managed i.strand (Quiet.waiters ⟨k, traffic⟩ nobody) up
    · exact cacheLine_run (act := fun c l s => s.invalidates c l) h addr place heed i.issuing calm_invalidates.issuing

end Sys2Proof.Machine
end
